-- ==== Sys2Proof/Word.lean ====
section
/-! DEFINITION. The word types of the Priset instruction set (spec/04 R97, R98) and the names of the two slices (spec/02 R46). -/

namespace Sys2Proof

/-- A byte of memory. -/
abbrev Byte := BitVec 8

/-- A 32-bit word: an instruction word, a lane register (R70, R97). -/
abbrev W32 := BitVec 32

/-- A 64-bit value: an even-odd pair, an address, a latch (R70, R126). -/
abbrev W64 := BitVec 64

/-- The widest register operand: 128 bits in four registers (R109). -/
abbrev W128 := BitVec 128

/-- The two slices of a warp pair: access on the A-port, execute on the X-port (R46). -/
inductive Slice where
  | access
  | execute
deriving DecidableEq, Repr

/-- The code of a slice in fault records and barrier slots: 0 access, 1 execute (R379, R401). -/
def Slice.code : Slice → Nat
  | .access => 0
  | .execute => 1

/-- The other slice of a warp pair. -/
def Slice.other : Slice → Slice
  | .access => .execute
  | .execute => .access

end Sys2Proof
end

