-- ==== Sys2Proof/Machine/Bits.lean ====
section
/-! DEFINITION. Bit fields, byte order, and the sorted key-value lists that hold every sparse piece of state. -/

namespace Sys2Proof.Machine

/-- Bits hi..lo of a number, the notation bits(x, hi, lo) of the spec. -/
def bitsOf (x hi lo : Nat) : Nat := x / 2 ^ lo % 2 ^ (hi + 1 - lo)

/-- One bit of a number. -/
def bitOf (x i : Nat) : Bool := x / 2 ^ i % 2 == 1

/-- sext(x, n): the signed reading of the low n bits. -/
def sextInt (x n : Nat) : Int :=
  let v := x % 2 ^ n
  if v < 2 ^ (n - 1) then (v : Int) else (v : Int) - (2 ^ n : Nat)

/-- A mathematical integer reduced modulo 2^n to a natural number: zext(x, n). -/
def zextInt (x : Int) (n : Nat) : Nat := (x % (2 ^ n : Nat)).toNat

/-- 1 for true, 0 for false. -/
def b2n (b : Bool) : Nat := if b then 1 else 0

/-- The number of one bits among the low n bits. -/
def popcount : Nat → Nat → Nat
  | 0, _ => 0
  | n + 1, x => x % 2 + popcount n (x / 2)

/-- The indexes, ascending, of the one bits among bits i .. i + n - 1. -/
def bitIdx : Nat → Nat → Nat → List Nat
  | 0, _, _ => []
  | n + 1, i, x => if bitOf x i then i :: bitIdx n (i + 1) x else bitIdx n (i + 1) x

/-- The lanes of a 64-bit lane set, ascending. -/
def lanesOf (m : BitVec 64) : List Nat := bitIdx 64 0 m.toNat

/-- A lane set holding one lane. -/
def laneBit (l : Nat) : BitVec 64 := BitVec.ofNat 64 (2 ^ l)

/-- The lane set of a list of lanes. -/
def laneSet : List Nat → BitVec 64
  | [] => 0
  | l :: ls => laneBit l ||| laneSet ls

/-- Membership in a lane set. -/
def hasLane (m : BitVec 64) (l : Nat) : Bool := bitOf m.toNat l

/-- The lowest lane of a set. -/
def lowestLane (m : BitVec 64) : Option Nat := (lanesOf m).head?

/-- Little-endian bytes of a number (R7). -/
def bytesLE : Nat → Nat → List Byte
  | 0, _ => []
  | n + 1, x => BitVec.ofNat 8 x :: bytesLE n (x / 256)

/-- The number that little-endian bytes spell (R7). -/
def ofBytesLE : List Byte → Nat
  | [] => 0
  | b :: bs => b.toNat + 256 * ofBytesLE bs

/-- The list lo, lo + 1, ..., lo + n - 1. -/
def upFrom : Nat → Nat → List Nat
  | _, 0 => []
  | lo, n + 1 => lo :: upFrom (lo + 1) n

/-- Round a number up to a multiple of 2^k. -/
def alignUp (x a : Nat) : Nat := (x + a - 1) / a * a

/-- ceil(a / b). -/
def ceilDiv (a b : Nat) : Nat := (a + b - 1) / b

/-- The i-th element of a list or a default. -/
def nthD {α : Type} (d : α) : List α → Nat → α
  | [], _ => d
  | x :: _, 0 => x
  | _ :: xs, n + 1 => nthD d xs n

/-- A list with its i-th element replaced. -/
def setNth {α : Type} : List α → Nat → α → List α
  | [], _, _ => []
  | _ :: xs, 0, y => y :: xs
  | x :: xs, n + 1, y => x :: setNth xs n y

/-- A sparse map from numbers: keys strictly rising. -/
abbrev SMap (α : Type) := List (Nat × α)

/-- The value listed under a key, if any. -/
def mget? {α : Type} : SMap α → Nat → Option α
  | [], _ => none
  | (k, v) :: m, i => if i = k then some v else mget? m i

/-- The value listed under a key, or a default. -/
def mget {α : Type} (m : SMap α) (i : Nat) (d : α) : α := (mget? m i).getD d

/-- List a value under a key, in place of any value listed there. -/
def mput {α : Type} : SMap α → Nat → α → SMap α
  | [], i, x => [(i, x)]
  | (k, v) :: m, i, x =>
    if i = k then (i, x) :: m
    else if i < k then (i, x) :: (k, v) :: m
    else (k, v) :: mput m i x

/-- List nothing under a key. -/
def mdel {α : Type} : SMap α → Nat → SMap α
  | [], _ => []
  | (k, v) :: m, i => if i = k then mdel m i else (k, v) :: mdel m i

/-- Keys strictly rising. -/
def mSorted {α : Type} : SMap α → Bool
  | [] => true
  | [_] => true
  | (k, _) :: (k', v') :: m => decide (k < k') && mSorted ((k', v') :: m)

/-- A sorted set of numbers. -/
abbrev NSet := List Nat

/-- Add a number to a sorted set. -/
def sadd : NSet → Nat → NSet
  | [], i => [i]
  | k :: m, i => if i = k then k :: m else if i < k then i :: k :: m else k :: sadd m i

/-- Remove a number from a sorted set. -/
def sdel : NSet → Nat → NSet
  | [], _ => []
  | k :: m, i => if i = k then sdel m i else k :: sdel m i

/-- Membership in a set. -/
def smem : NSet → Nat → Bool
  | [], _ => false
  | k :: m, i => decide (i = k) || smem m i

/-- The 32-bit words of a little-endian byte list. -/
def wordsLE : List Byte → List W32
  | a :: b :: c :: d :: r => BitVec.ofNat 32 (ofBytesLE [a, b, c, d]) :: wordsLE r
  | _ => []

/-- The least element by a measure, the first among equals. -/
def argMin {α : Type} (f : α → Nat) : List α → Option α
  | [] => none
  | x :: xs =>
    match argMin f xs with
    | none => some x
    | some y => if f y < f x then some y else some x

/-- Put an element into a list that is in order of a key, after those of the same key. -/
def insertBy {α : Type} (f : α → Nat) (x : α) : List α → List α
  | [] => [x]
  | y :: ys => if f x < f y then x :: y :: ys else y :: insertBy f x ys

/-- A list in order of a key, elements of one key in the order they had. -/
def sortBy {α : Type} (f : α → Nat) (xs : List α) : List α := xs.foldl (fun ys x => insertBy f x ys) []

/-- Whether two byte ranges overlap. -/
def overlaps (a n b m : Nat) : Bool := decide (a < b + m) && decide (b < a + n)

/-- Distinct elements, first occurrence kept. -/
def dedupe : List Nat → List Nat
  | [] => []
  | x :: xs => x :: (dedupe xs).filter (fun y => y != x)

end Sys2Proof.Machine
end

