-- ==== Sys2Proof/Syntax.lean ====
section
/-! DEFINITION. The instructions of spec/04 R98, R101 and R111 as data: every row of spec/opcode_table.json is one constructor.
An instruction carries every field of its words as raw bits, the fields that must be zero included, so that each encoding the core
turns away (R116) is a term too. A step of the machine that is no instruction carries what the outside or the timing decides. -/

namespace Sys2Proof

/-- An R-form word, and the first word of an I, L or M form (R98, R101): an immediate stands in b. -/
structure RWord where
  d : BitVec 7
  a : BitVec 7
  b : BitVec 7
  nw : Bool
  gsel : BitVec 2
  gn : Bool
deriving DecidableEq, Repr

/-- An R-form word whose B field is the sub-operation (R111). -/
structure SWord where
  d : BitVec 7
  a : BitVec 7
  nw : Bool
  gsel : BitVec 2
  gn : Bool
deriving DecidableEq, Repr

/-- An R-form word with a sub-operation in B[6:4] and a lane mask or a scope in B[3:0] (R198, R249). -/
structure KWord where
  d : BitVec 7
  a : BitVec 7
  k : BitVec 4
  nw : Bool
  gsel : BitVec 2
  gn : Bool
deriving DecidableEq, Repr

/-- An R-form word whose D field is the sub-operation: the CACHE family (R249). -/
structure CWord where
  a : BitVec 7
  b : BitVec 7
  nw : Bool
  gsel : BitVec 2
  gn : Bool
deriving DecidableEq, Repr

/-- A J-form word (R101); bit 3 is reserved. -/
structure JWord where
  off : BitVec 21
  res : Bool
  gsel : BitVec 2
  gn : Bool
deriving DecidableEq, Repr

/-- An MJ-form word (R101); bit 3 is reserved. -/
structure MJWord where
  k : BitVec 4
  off : BitVec 17
  res : Bool
  gsel : BitVec 2
  gn : Bool
deriving DecidableEq, Repr

/-- The first word of an X form whose D field is the sub-operation (R101); bit 0 is reserved. -/
structure XWord where
  a : BitVec 7
  b : BitVec 7
  slot : BitVec 3
  res : Bool
deriving DecidableEq, Repr

/-- The first word of COPY, whose D field must be zero (R111, R317). -/
structure XCWord where
  d : BitVec 7
  a : BitVec 7
  b : BitVec 7
  slot : BitVec 3
  res : Bool
deriving DecidableEq, Repr

/-- One row of the opcode table: an instruction with its fields, or a step of the machine with its data. -/
inductive Instr where
  /-- NOP, opcode 0x02 (R151). -/
  | nop (w : RWord)
  /-- ADD, opcode 0x03 (R152). -/
  | add (w : RWord)
  /-- SUB, opcode 0x04 (R152). -/
  | sub (w : RWord)
  /-- ADDI, opcode 0x05 (R152). -/
  | addi (w : RWord)
  /-- ADDL, opcode 0x06 (R152). -/
  | addl (w : RWord) (ctl : W32)
  /-- MUL, opcode 0x07 (R152). -/
  | mul (w : RWord)
  /-- MULH, opcode 0x08 (R152). -/
  | mulh (w : RWord)
  /-- MULHU, opcode 0x09 (R152). -/
  | mulhu (w : RWord)
  /-- MADD, opcode 0x0A (R152). -/
  | madd (w : RWord)
  /-- DIV, opcode 0x0B (R153). -/
  | div (w : RWord)
  /-- DIVU, opcode 0x0C (R153). -/
  | divu (w : RWord)
  /-- REM, opcode 0x0D (R153). -/
  | rem (w : RWord)
  /-- REMU, opcode 0x0E (R153). -/
  | remu (w : RWord)
  /-- ABS, opcode 0x0F (R152). -/
  | abs (w : RWord)
  /-- AND, opcode 0x10 (R155). -/
  | and (w : RWord)
  /-- OR, opcode 0x11 (R155). -/
  | or (w : RWord)
  /-- XOR, opcode 0x12 (R155). -/
  | xor (w : RWord)
  /-- ANDN, opcode 0x13 (R155). -/
  | andn (w : RWord)
  /-- SHL, opcode 0x14 (R155). -/
  | shl (w : RWord)
  /-- SHR, opcode 0x15 (R155). -/
  | shr (w : RWord)
  /-- SAR, opcode 0x16 (R155). -/
  | sar (w : RWord)
  /-- ROT, opcode 0x17 (R155). -/
  | rot (w : RWord)
  /-- SHLI, opcode 0x18 (R155). -/
  | shli (w : RWord)
  /-- SHRI, opcode 0x19 (R155). -/
  | shri (w : RWord)
  /-- SARI, opcode 0x1A (R155). -/
  | sari (w : RWord)
  /-- MIN, opcode 0x1B (R152). -/
  | min (w : RWord)
  /-- MAX, opcode 0x1C (R152). -/
  | max (w : RWord)
  /-- MINU, opcode 0x1D (R152). -/
  | minu (w : RWord)
  /-- MAXU, opcode 0x1E (R152). -/
  | maxu (w : RWord)
  /-- CLZ, opcode 0x1F (R156). -/
  | clz (w : SWord)
  /-- CTZ, opcode 0x1F (R156). -/
  | ctz (w : SWord)
  /-- POPC, opcode 0x1F (R156). -/
  | popc (w : SWord)
  /-- BREV, opcode 0x1F (R156). -/
  | brev (w : SWord)
  /-- BFX, opcode 0x20 (R157). -/
  | bfx (w : RWord) (ctl : W32)
  /-- BFI, opcode 0x21 (R157). -/
  | bfi (w : RWord) (ctl : W32)
  /-- SEL, opcode 0x22 (R158). -/
  | sel (w : RWord) (ctl : W32)
  /-- MOV, opcode 0x23 (R159). -/
  | mov (w : RWord)
  /-- MOVL, opcode 0x24 (R159). -/
  | movl (w : RWord) (ctl : W32)
  /-- LEA, opcode 0x25 (R160). -/
  | lea (w : RWord) (ctl : W32)
  /-- ADDC, opcode 0x26 (R160). -/
  | addc (w : RWord)
  /-- SUBB, opcode 0x27 (R160). -/
  | subb (w : RWord)
  /-- CMPEQ, opcode 0x28 (R161). -/
  | cmpeq (w : RWord)
  /-- CMPNE, opcode 0x29 (R161). -/
  | cmpne (w : RWord)
  /-- CMPLT, opcode 0x2A (R161). -/
  | cmplt (w : RWord)
  /-- CMPLE, opcode 0x2B (R161). -/
  | cmple (w : RWord)
  /-- CMPLTU, opcode 0x2C (R161). -/
  | cmpltu (w : RWord)
  /-- CMPLEU, opcode 0x2D (R161). -/
  | cmpleu (w : RWord)
  /-- CMPEQI, opcode 0x2E (R161). -/
  | cmpeqi (w : RWord)
  /-- CMPLTI, opcode 0x2F (R161). -/
  | cmplti (w : RWord)
  /-- PAND, opcode 0x30 (R162). -/
  | pand (w : RWord)
  /-- POR, opcode 0x31 (R162). -/
  | por (w : RWord)
  /-- PXOR, opcode 0x32 (R162). -/
  | pxor (w : RWord)
  /-- PMOV, opcode 0x33 (R162). -/
  | pmov (w : RWord)
  /-- WBASE, opcode 0x34 (R163). -/
  | wbase (w : RWord)
  /-- RDS, opcode 0x35 (R164). -/
  | rds (w : RWord) (ctl : W32)
  /-- WRS, opcode 0x36 (R165). -/
  | wrs (w : RWord) (ctl : W32)
  /-- FCMPEQ, opcode 0x38 (R174). -/
  | fcmpeq (w : RWord)
  /-- FCMPLT, opcode 0x39 (R174). -/
  | fcmplt (w : RWord)
  /-- FCMPLE, opcode 0x3A (R174). -/
  | fcmple (w : RWord)
  /-- FCMPUN, opcode 0x3B (R174). -/
  | fcmpun (w : RWord)
  /-- FADD, opcode 0x40 (R171). -/
  | fadd (w : RWord)
  /-- FSUB, opcode 0x41 (R171). -/
  | fsub (w : RWord)
  /-- FMUL, opcode 0x42 (R171). -/
  | fmul (w : RWord)
  /-- FFMA, opcode 0x43 (R171). -/
  | ffma (w : RWord)
  /-- FMIN, opcode 0x44 (R172). -/
  | fmin (w : RWord)
  /-- FMAX, opcode 0x45 (R172). -/
  | fmax (w : RWord)
  /-- FNEG, opcode 0x46 (R173). -/
  | fneg (w : RWord)
  /-- FABS, opcode 0x47 (R173). -/
  | fabs (w : RWord)
  /-- FRCP, opcode 0x48 (R176). -/
  | frcp (w : RWord)
  /-- FRSQ, opcode 0x49 (R176). -/
  | frsq (w : RWord)
  /-- FEXP2, opcode 0x4A (R176). -/
  | fexp2 (w : RWord)
  /-- FLOG2, opcode 0x4B (R176). -/
  | flog2 (w : RWord)
  /-- FSIN, opcode 0x4C (R176). -/
  | fsin (w : RWord)
  /-- FCOS, opcode 0x4D (R176). -/
  | fcos (w : RWord)
  /-- FTANH, opcode 0x4E (R176). -/
  | ftanh (w : RWord)
  /-- FSQRT, opcode 0x4F (R176). -/
  | fsqrt (w : RWord)
  /-- FRND, opcode 0x50 (R175). -/
  | frnd (w : RWord)
  /-- FCVT, opcode 0x51 (R181). -/
  | fcvt (w : RWord) (ctl : W32)
  /-- HADD2, opcode 0x52 (R178). -/
  | hadd2 (w : RWord)
  /-- HMUL2, opcode 0x53 (R178). -/
  | hmul2 (w : RWord)
  /-- HFMA2, opcode 0x54 (R178). -/
  | hfma2 (w : RWord)
  /-- BADD2, opcode 0x55 (R178). -/
  | badd2 (w : RWord)
  /-- BMUL2, opcode 0x56 (R178). -/
  | bmul2 (w : RWord)
  /-- BFMA2, opcode 0x57 (R178). -/
  | bfma2 (w : RWord)
  /-- IDOT4, opcode 0x58 (R179). -/
  | idot4 (w : RWord) (ctl : W32)
  /-- TDOT4, opcode 0x59 (R180). -/
  | tdot4 (w : RWord)
  /-- FFLAG_RD, opcode 0x5A (R183). -/
  | fflagRd (w : SWord)
  /-- FFLAG_CLR, opcode 0x5A (R183). -/
  | fflagClr (w : SWord)
  /-- FSETRM, opcode 0x5B (R184). -/
  | fsetrm (w : RWord)
  /-- FCVTS, opcode 0x5C (R182). -/
  | fcvts (w : RWord) (ctl : W32)
  /-- BRA, opcode 0x60 (R189). -/
  | bra (w : JWord)
  /-- CALL, opcode 0x61 (R189). -/
  | call (w : JWord)
  /-- JMPR, opcode 0x62 (R189). -/
  | jmpr (w : RWord)
  /-- MEET, opcode 0x63 (R191). -/
  | meet (w : MJWord)
  /-- LEAVE, opcode 0x64 (R194). -/
  | leave (w : MJWord)
  /-- WAITM, opcode 0x65 (R195). -/
  | waitm (w : MJWord)
  /-- MRD, opcode 0x66 (R198). -/
  | mrd (w : KWord)
  /-- MWR, opcode 0x66 (R198). -/
  | mwr (w : KWord)
  /-- MAND, opcode 0x66 (R198). -/
  | mand (w : KWord)
  /-- MOR, opcode 0x66 (R198). -/
  | mor (w : KWord)
  /-- MCNT, opcode 0x66 (R198). -/
  | mcnt (w : KWord)
  /-- EXIT, opcode 0x67 (R196). -/
  | exit (w : RWord)
  /-- SHFLI, opcode 0x68 (R199). -/
  | shfli (w : RWord)
  /-- SHFLU, opcode 0x69 (R199). -/
  | shflu (w : RWord)
  /-- SHFLD, opcode 0x6A (R199). -/
  | shfld (w : RWord)
  /-- SHFLX, opcode 0x6B (R199). -/
  | shflx (w : RWord)
  /-- VOTE_ALL, opcode 0x6C (R200). -/
  | voteAll (w : SWord)
  /-- VOTE_ANY, opcode 0x6C (R200). -/
  | voteAny (w : SWord)
  /-- VOTE_BALLOT, opcode 0x6C (R200). -/
  | voteBallot (w : SWord)
  /-- REDUX_ADD, opcode 0x6D (R201). -/
  | reduxAdd (w : SWord)
  /-- REDUX_MIN, opcode 0x6D (R201). -/
  | reduxMin (w : SWord)
  /-- REDUX_MAX, opcode 0x6D (R201). -/
  | reduxMax (w : SWord)
  /-- REDUX_AND, opcode 0x6D (R201). -/
  | reduxAnd (w : SWord)
  /-- REDUX_OR, opcode 0x6D (R201). -/
  | reduxOr (w : SWord)
  /-- REDUX_XOR, opcode 0x6D (R201). -/
  | reduxXor (w : SWord)
  /-- REDUX_MINU, opcode 0x6D (R201). -/
  | reduxMinu (w : SWord)
  /-- REDUX_MAXU, opcode 0x6D (R201). -/
  | reduxMaxu (w : SWord)
  /-- ELECT, opcode 0x6E (R202). -/
  | elect (w : RWord)
  /-- QPOPP, opcode 0x6F (R320). -/
  | qpopp (w : SWord)
  /-- QPEEK, opcode 0x6F (R320). -/
  | qpeek (w : SWord)
  /-- QLEVEL, opcode 0x6F (R320). -/
  | qlevel (w : SWord)
  /-- QFLUSH, opcode 0x6F (R320). -/
  | qflush (w : SWord)
  /-- QCLOSE, opcode 0x6F (R320). -/
  | qclose (w : SWord)
  /-- LD, opcode 0x70 (R254). -/
  | ld (w : RWord) (ctl : W32)
  /-- ST, opcode 0x71 (R256). -/
  | st (w : RWord) (ctl : W32)
  /-- LDS, opcode 0x72 (R254). -/
  | lds (w : RWord) (ctl : W32)
  /-- STS, opcode 0x73 (R256). -/
  | sts (w : RWord) (ctl : W32)
  /-- ATOM, opcode 0x74 (R258). -/
  | atom (w : RWord) (ctl : W32)
  /-- ATOMS, opcode 0x75 (R258). -/
  | atoms (w : RWord) (ctl : W32)
  /-- FENCE, opcode 0x76 (R260). -/
  | fence (w : KWord)
  /-- ACQ, opcode 0x76 (R260). -/
  | acq (w : KWord)
  /-- REL, opcode 0x76 (R260). -/
  | rel (w : KWord)
  /-- WAITA, opcode 0x77 (R262). -/
  | waita (w : RWord) (ctl : W32)
  /-- CINV, opcode 0x78 (R265). -/
  | cinv (w : CWord) (ctl : W32)
  /-- CWB, opcode 0x78 (R265). -/
  | cwb (w : CWord) (ctl : W32)
  /-- CPF, opcode 0x78 (R265). -/
  | cpf (w : CWord) (ctl : W32)
  /-- CZERO, opcode 0x78 (R265). -/
  | czero (w : CWord) (ctl : W32)
  /-- CPART, opcode 0x78 (R266). -/
  | cpart (w : CWord) (ctl : W32)
  /-- COPY, opcode 0x79 (R324). -/
  | copy (w : XCWord) (ctl : W32)
  /-- MXMA, opcode 0x7A (R277). -/
  | mxma (w : XWord) (ctl : W32)
  /-- MXLD, opcode 0x7A (R278). -/
  | mxld (w : XWord) (ctl : W32)
  /-- MXST, opcode 0x7A (R279). -/
  | mxst (w : XWord) (ctl : W32)
  /-- MXZ, opcode 0x7A (R278). -/
  | mxz (w : XWord) (ctl : W32)
  /-- OFENCE, opcode 0x7A (R283). -/
  | ofence (w : XWord) (ctl : W32)
  /-- TWANY, opcode 0x7B (R392). -/
  | twany (w : SWord)
  /-- TWALL, opcode 0x7B (R392). -/
  | twall (w : SWord)
  /-- TFFR, opcode 0x7B (R392). -/
  | tffr (w : SWord)
  /-- TCLR, opcode 0x7B (R392). -/
  | tclr (w : SWord)
  /-- TTEST, opcode 0x7B (R392). -/
  | ttest (w : SWord)
  /-- RPUT, opcode 0x7C (R328). -/
  | rput (w : XWord) (ctl : W32)
  /-- RGET, opcode 0x7C (R328). -/
  | rget (w : XWord) (ctl : W32)
  /-- RATOM, opcode 0x7C (R328). -/
  | ratom (w : XWord) (ctl : W32)
  /-- NPOST, opcode 0x7C (R333). -/
  | npost (w : XWord) (ctl : W32)
  /-- NFLUSH, opcode 0x7C (R334). -/
  | nflush (w : XWord) (ctl : W32)
  /-- LGRID, opcode 0x7D (R337). -/
  | lgrid (w : XWord) (ctl : W32)
  /-- ETRIG, opcode 0x7D (R338). -/
  | etrig (w : XWord) (ctl : W32)
  /-- DIST, opcode 0x7D (R339). -/
  | dist (w : XWord) (ctl : W32)
  /-- BAR, opcode 0x7E (R381). -/
  | bar (w : SWord)
  /-- BARA, opcode 0x7E (R381). -/
  | bara (w : SWord)
  /-- BARW, opcode 0x7E (R382). -/
  | barw (w : SWord)
  /-- FBAR, opcode 0x7E (R384). -/
  | fbar (w : SWord)
  /-- CWAIT, opcode 0x7E (R389). -/
  | cwait (w : SWord)
  /-- TRAP, opcode 0x7F (R340). -/
  | trap (w : SWord)
  /-- YIELD, opcode 0x7F (R341). -/
  | yield (w : SWord)
  /-- TIME, opcode 0x7F (R342). -/
  | time (w : SWord)
  /-- SLEEP, opcode 0x7F (R343). -/
  | sleep (w : SWord)
  /-- BKPT, opcode 0x7F (R340). -/
  | bkpt (w : SWord)
  /-- RUN_ISSUE (R56 to R63: the port whose Drover chooses). -/
  | runIssue (core : Nat) (slice : Slice)
  /-- DROVER_SWAP (R64: the port). -/
  | droverSwap (core : Nat) (slice : Slice)
  /-- PENDING_LONG_WAIT (R64: the port). -/
  | pendingLongWait (core : Nat) (slice : Slice)
  /-- GROUP_PLACE (R50, R51: the module whose dispatcher moves). -/
  | groupPlace (m : Nat)
  /-- GRID_DEPENDENCY_MET (R45: module and handle). -/
  | gridDependencyMet (m : Nat) (grid : Nat)
  /-- PRIORITY_AGING (R66: module and region index). -/
  | priorityAging (m : Nat) (region : Nat)
  /-- DECOUPLE_DEADLOCK (R301: group and warp pair). -/
  | decoupleDeadlock (gid : Nat) (warp : Nat)
  /-- LOAD_LANDING (R254: the load in flight). -/
  | loadLanding (op : Nat)
  /-- ATOMIC_LANDING (R258: the atomic in flight). -/
  | atomicLanding (op : Nat)
  /-- STORE_ACK (R257: the store in flight). -/
  | storeAck (op : Nat)
  /-- HOME_ACCESS (R222: the request performed at its home). -/
  | homeAccess (op : Nat)
  /-- TRANSLATION_WALK (R217: the walk in progress). -/
  | translationWalk (op : Nat)
  /-- DIVISION_LANDING (R154: the result in flight). -/
  | divisionLanding (op : Nat)
  /-- SPECIAL_FUNCTION_LANDING (R169: the result in flight). -/
  | specialFunctionLanding (op : Nat)
  /-- MX_OPERATION_COMPLETE (R286: the core whose queue head completes). -/
  | mxOperationComplete (core : Nat)
  /-- COPY_COMPLETE (R325: the core whose Sparge engine ends a chain). -/
  | copyComplete (core : Nat)
  /-- WORK_REQUEST_SEND (R311: reticle and work-request queue). -/
  | workRequestSend (ret : Nat) (queue : Nat)
  /-- SEND_COMPLETION (R332: the WRITE whose last packet leaves). -/
  | sendCompletion (op : Nat)
  /-- READ_LANDED (R332: the READ). -/
  | readLanded (op : Nat)
  /-- NFLUSH_COMPLETE (R334: the NFLUSH). -/
  | nflushComplete (op : Nat)
  /-- PUT_PACKET_PLACED (R387: the packet on the fabric). -/
  | putPacketPlaced (pkt : Nat)
  /-- LGRID_RESULT (R337: the result in flight). -/
  | lgridResult (op : Nat)
  /-- DIST_RESULT (R339: the result in flight). -/
  | distResult (op : Nat)
  /-- ERROR_RETURN (R252: the request whose error returns). -/
  | errorReturn (op : Nat)
  /-- WAITA_WAKE (R263: the waiting slice-warp). -/
  | waitaWake (gid : Nat) (warp : Nat) (slice : Slice)
  /-- WAITA_TIMEOUT (R263: the waiting slice-warp). -/
  | waitaTimeout (gid : Nat) (warp : Nat) (slice : Slice)
  /-- SLEEP_EXPIRY (R343: the waiting slice-warp). -/
  | sleepExpiry (gid : Nat) (warp : Nat) (slice : Slice)
  /-- CWAIT_RETURN (R389: the waiting slice-warp). -/
  | cwaitReturn (gid : Nat) (warp : Nat) (slice : Slice)
  /-- CPART_COMPLETE (R266: the reticle). -/
  | cpartComplete (ret : Nat)
  /-- PDLC_EXPIRY (R394: the group). -/
  | pdlcExpiry (gid : Nat)
  /-- DRAIN_TIMEOUT (R408: the group). -/
  | drainTimeout (gid : Nat)
  /-- SAVE_COMPLETE (R407: the group). -/
  | saveComplete (gid : Nat)
  /-- HANDLER_FINISH (R406: module and handler grid). -/
  | handlerFinish (m : Nat) (grid : Nat)
  /-- GROUP_RESUME (R413: module and saved group). -/
  | groupResume (m : Nat) (gid : Nat)
  /-- STAGED_COMMIT (R419: module and staged grid). -/
  | stagedCommit (m : Nat) (grid : Nat)
  /-- LAUNCH (R43: module, root region and its queue, whose next command it is (R308)). -/
  | launch (m : Nat) (root : Nat) (queue : Nat)
  /-- REGION_CREATE (R347: module, root region and its queue, whose next command it is (R308)). -/
  | regionCreate (m : Nat) (root : Nat) (queue : Nat)
  /-- REGION_MODIFY (R347: module, root region and its queue, whose next command it is (R308)). -/
  | regionModify (m : Nat) (root : Nat) (queue : Nat)
  /-- REGION_DESTROY (R40: module, root region and its queue, whose next command it is (R308)). -/
  | regionDestroy (m : Nat) (root : Nat) (queue : Nat)
  /-- TOPO (R438: module, root region and its queue, whose next command it is (R308)). -/
  | topo (m : Nat) (root : Nat) (queue : Nat)
  /-- DRAIN (R439: module, root region and its queue, whose next command it is (R308)). -/
  | drain (m : Nat) (root : Nat) (queue : Nat)
  /-- CKPT (R422: module, root region and its queue, whose next command it is (R308)). -/
  | ckpt (m : Nat) (root : Nat) (queue : Nat)
  /-- KEYLOAD (R352: module, root region and its queue, whose next command it is (R308)). -/
  | keyload (m : Nat) (root : Nat) (queue : Nat)
  /-- TIMESYNC (R367: module, root region and its queue, whose next command it is (R308)). -/
  | timesync (m : Nat) (root : Nat) (queue : Nat)
  /-- EVENT (R308: module, root region and its queue, whose next command it is (R308)). -/
  | event (m : Nat) (root : Nat) (queue : Nat)
  /-- EVENT_FINISH (R308: module, root region and queue whose oldest EVENT finishes). -/
  | eventFinish (m : Nat) (root : Nat) (queue : Nat)
  /-- DOORBELL_WRITE (R306: the host writes PIDX of a doorbell). -/
  | doorbellWrite (m : Nat) (door : Nat) (pidx : W32)
  /-- CORE_COUNTER_WRITE (R361, R395: host or Shepherd write of counter idx). -/
  | coreCounterWrite (core : Nat) (idx : Nat) (value : W64)
  /-- REGISTER_WRITE (R10: host write to the device register at LOCAL loc). -/
  | registerWrite (ret : Nat) (loc : Nat) (size : Nat) (value : BitVec 256)
  /-- ENDPOINT_TABLE_WRITE (R359). -/
  | endpointTableWrite (ret : Nat) (queue : Nat) (value : W32)
  /-- PEER_DESCRIPTOR_WRITE (R444). -/
  | peerDescriptorWrite (ret : Nat) (peer : Nat) (value : BitVec 256)
  /-- BARRIER_TREE_WRITE (R358). -/
  | barrierTreeWrite (ret : Nat) (tree : Nat) (value : BitVec 128)
  /-- ERROR_POLICY_WRITE (R357). -/
  | errorPolicyWrite (m : Nat) (idx : Nat) (value : BitVec 128)
  /-- WPART_WRITE (R138). -/
  | wpartWrite (ret : Nat) (ways : Nat)
  /-- READ_IDENTITY (R35). -/
  | readIdentity (m : Nat)
  /-- WRITE_MODID (R31). -/
  | writeModid (m : Nat) (modid : Nat)
  /-- EXTEND_MEASUREMENT (R449). -/
  | extendMeasurement (ret : Nat) (idx : Nat) (value : BitVec 256)
  /-- ATTESTATION_REQUEST (R450). -/
  | attestationRequest (ret : Nat) (nonce : BitVec 256)
  /-- LOAD_KEY (R448, R352). -/
  | loadKey (m : Nat) (key : Nat) (image : List Byte)
  /-- CREATE_ROOT (R448). -/
  | createRoot (m : Nat) (image : List Byte)
  /-- DESTROY_ROOT (R40). -/
  | destroyRoot (m : Nat) (root : Nat)
  /-- RESTART_QUEUE (R306). -/
  | restartQueue (m : Nat) (root : Nat) (queue : Nat) (pidx : W32)
  /-- DEBUG_HALT (R414). -/
  | debugHalt (m : Nat) (gid : Nat)
  /-- DEBUG_READ_IMAGE (R414). -/
  | debugReadImage (m : Nat) (gid : Nat) (offset : Nat) (len : Nat)
  /-- DEBUG_WRITE_IMAGE (R414). -/
  | debugWriteImage (m : Nat) (gid : Nat) (offset : Nat) (data : List Byte)
  /-- DEBUG_RESUME (R414). -/
  | debugResume (m : Nat) (gid : Nat)
  /-- DEBUG_DISCARD (R414). -/
  | debugDiscard (m : Nat) (gid : Nat)
  /-- DEBUG_ATTACH (R414). -/
  | debugAttach (m : Nat) (root : Nat)
  /-- HOST_RMA_WRITE (R447). -/
  | hostRmaWrite (m : Nat) (pa : Nat) (key : Nat) (data : List Byte)
  /-- HOST_RMA_READ (R447). -/
  | hostRmaRead (m : Nat) (pa : Nat) (key : Nat) (len : Nat)
  /-- COLD_RESET (R448: the module). -/
  | coldReset (m : Nat)
  /-- COMMAND_PROCESSOR_TAKEOVER (R310). -/
  | commandProcessorTakeover (m : Nat)
  /-- POWER_ALARM_RAISE (R29). -/
  | powerAlarmRaise (ret : Nat)
  /-- POWER_HOLD (R29). -/
  | powerHold (ret : Nat)
  /-- POWER_HOLD_RELEASE (R29). -/
  | powerHoldRelease (ret : Nat)
  /-- POWER_ALARM_CLEAR (R29). -/
  | powerAlarmClear (ret : Nat)
  /-- HEARTBEAT (R396: receiving Shepherd; sender a core key or a reticle identity). -/
  | heartbeat (ret : Nat) (sender : Nat) (isCore : Bool)
  /-- HEARTBEAT_MISS (R396: receiving Shepherd, sender, and the outcome of the vote). -/
  | heartbeatMiss (ret : Nat) (sender : Nat) (isCore : Bool) (majority : Bool)
  /-- FAILURE_NOTICE (R378: the receiver and the notice). -/
  | failureNotice (ret : Nat) (pkt : Nat)
  /-- LANE_SELF_TEST (R424: the drained core and the lanes found failing). -/
  | laneSelfTest (core : Nat) (failing : W32)
  /-- FOLD_MIGRATION (R212: reticle, named fold, spare physical fold). -/
  | foldMigration (ret : Nat) (fold : Nat) (spare : Nat)
  /-- SITE_RETIRE (R20: module, retired site, spare site). -/
  | siteRetire (m : Nat) (ret : Nat) (spare : Nat)
  /-- SHOOTDOWN (R218). -/
  | shootdown (m : Nat) (root : Nat) (va : Nat) (size : Nat)
  /-- TIMESYNC_EXCHANGE (R367: measured offset and round trip). -/
  | timesyncExchange (m : Nat) (offset : Int) (rtt : Nat)
  /-- TIMESYNC_MISS (R368). -/
  | timesyncMiss (m : Nat)
  /-- ORDERED_PACKET_ARRIVAL (R315). -/
  | orderedPacketArrival (ret : Nat) (port : Nat) (pkt : Nat)
  /-- ORDERED_DELIVERY (R374). -/
  | orderedDelivery (ret : Nat)
  /-- BEACON_SEND (R373). -/
  | beaconSend (ret : Nat) (port : Nat)
  /-- BEACON_RECEIVE (R370). -/
  | beaconReceive (ret : Nat) (port : Nat) (stamp : W64)
  /-- WATERMARK_STALL (R376). -/
  | watermarkStall (ret : Nat) (port : Nat)
  /-- PORT_CUT (R377). -/
  | portCut (ret : Nat) (port : Nat)
  /-- TOPOLOGY_CUTOVER (R375). -/
  | topologyCutover (ret : Nat)
  /-- FBAR_ARRIVAL (R385: the arrival on the fabric). -/
  | fbarArrival (pkt : Nat)
  /-- FBAR_RELEASE (R385: the release on the fabric). -/
  | fbarRelease (pkt : Nat)
  /-- BARRIER_LOST (R386). -/
  | barrierLost (ret : Nat) (tree : Nat)
  /-- FLIT_RECEIVE (R427). -/
  | flitReceive (ret : Nat) (port : Nat) (seq : Nat) (crcOk : Bool)
  /-- MESH_PORT_DOWN (R428). -/
  | meshPortDown (ret : Nat) (port : Nat)
  /-- NO_ROUTE_TIMEOUT (R428). -/
  | noRouteTimeout (pkt : Nat)
  /-- ROUTE_SAMPLE (R430). -/
  | routeSample (ret : Nat)
  /-- STOP (R316). -/
  | planeStop (ret : Nat)
  /-- WAITACK (R440). -/
  | waitack (ret : Nat)
  /-- RETUNE (R316). -/
  | retune (ret : Nat)
  /-- WAITLOCK (R316). -/
  | waitlock (ret : Nat)
  /-- WAITLOCK_TIMEOUT (R316). -/
  | waitlockTimeout (ret : Nat)
  /-- RESUME (R316). -/
  | planeResume (ret : Nat)
  /-- DOWN (R316). -/
  | planeDown (ret : Nat)
  /-- RING_LOCK_LOSS (R435). -/
  | ringLockLoss (ret : Nat) (ring : Nat)
  /-- RING_LOCK_RETURN (R435). -/
  | ringLockReturn (ret : Nat) (ring : Nat)
  /-- RING_LOCK_TIMEOUT (R435). -/
  | ringLockTimeout (ret : Nat) (ring : Nat)
  /-- HEATER_END_OF_RANGE (R435). -/
  | heaterEndOfRange (ret : Nat) (ring : Nat)
  /-- CARTRIDGE_INSERT (R441). -/
  | cartridgeInsert (ret : Nat) (romOk : Bool)
  /-- CARTRIDGE_LOCK_CHECK (R441). -/
  | cartridgeLockCheck (ret : Nat)
  /-- CARTRIDGE_QUIESCE (R441). -/
  | cartridgeQuiesce (ret : Nat)
  /-- CARTRIDGE_REMOVAL (R441). -/
  | cartridgeRemoval (ret : Nat)
  /-- CARTRIDGE_POWER_UP (R441). -/
  | cartridgePowerUp (ret : Nat)
  /-- UE_PEER_REQUEST (R445: the endpoint, the descriptor of the source, its JOB, 0 write, 1 write with immediate, 2 read or 3 atomic, and the request). -/
  | uePeerRequest (ret : Nat) (peer : Nat) (job : Nat) (kind : Nat) (addr : Nat) (len : Nat) (data : List Byte) (imm : W32) (aop : Nat) (operand : W64) (compare : W64)
  /-- UE_SELECTIVE_ACK (R443). -/
  | ueSelectiveAck (ret : Nat) (peer : Nat) (acked : List Nat)
  /-- UE_RETRANSMIT_TIMEOUT (R443). -/
  | ueRetransmitTimeout (ret : Nat) (peer : Nat) (seq : Nat)
  /-- UE_ECN_ECHO (R443). -/
  | ueEcnEcho (ret : Nat) (peer : Nat)
  /-- HOST_PORT_LINK_DOWN (R447). -/
  | hostPortLinkDown (m : Nat)
  /-- HOST_PORT_LINK_UP (R447). -/
  | hostPortLinkUp (m : Nat)
deriving DecidableEq, Repr

end Sys2Proof
end

