-- ==== Sys2Proof/Decode.lean ====
section
/-! DEFINITION. Reading an instruction from its words (spec/04 R97 to R103, R111), total on any words and refusing by name, and the
encoder written from the same tables. -/

namespace Sys2Proof

open Sys2Proof.Machine

/-- Why a word at an instruction position is no instruction: a header or trailer opcode (R106, reason 0x05), a reserved opcode
(R111, reason 0x21), a reserved sub-operation (R111, reason 0x22), or fewer than four bytes left. -/
inductive DecodeError where
  | headerOrTrailer
  | reservedOpcode
  | reservedSubop
  | truncated
deriving DecidableEq, Repr

/-- OP, bits [31:25] of every word (R98). -/
def opOf (w : W32) : Nat := w.toNat / 2 ^ 25

/-- The D field [24:18]. -/
def dOf (w : W32) : BitVec 7 := w.extractLsb' 18 7
/-- The A field [17:11]. -/
def aOf (w : W32) : BitVec 7 := w.extractLsb' 11 7
/-- The B field [10:4]. -/
def bOf (w : W32) : BitVec 7 := w.extractLsb' 4 7
/-- NW, bit [3]. -/
def nwOf (w : W32) : Bool := w.extractLsb' 3 1 == 1#1
/-- GSEL, bits [2:1]. -/
def gselOf (w : W32) : BitVec 2 := w.extractLsb' 1 2
/-- GN, bit [0]. -/
def gnOf (w : W32) : Bool := w.extractLsb' 0 1 == 1#1

/-- The R-form fields of a word (R98). -/
def unpackR (w : W32) : RWord := ⟨dOf w, aOf w, bOf w, nwOf w, gselOf w, gnOf w⟩
/-- The fields of an R-form word whose B is the sub-operation. -/
def unpackS (w : W32) : SWord := ⟨dOf w, aOf w, nwOf w, gselOf w, gnOf w⟩
/-- The fields of an R-form word whose B[6:4] is the sub-operation. -/
def unpackK (w : W32) : KWord := ⟨dOf w, aOf w, w.extractLsb' 4 4, nwOf w, gselOf w, gnOf w⟩
/-- The fields of an R-form word whose D is the sub-operation. -/
def unpackC (w : W32) : CWord := ⟨aOf w, bOf w, nwOf w, gselOf w, gnOf w⟩
/-- The J-form fields (R101). -/
def unpackJ (w : W32) : JWord := ⟨w.extractLsb' 4 21, nwOf w, gselOf w, gnOf w⟩
/-- The MJ-form fields (R101). -/
def unpackMJ (w : W32) : MJWord := ⟨w.extractLsb' 21 4, w.extractLsb' 4 17, nwOf w, gselOf w, gnOf w⟩
/-- The X-form fields (R101). -/
def unpackX (w : W32) : XWord := ⟨aOf w, bOf w, w.extractLsb' 1 3, gnOf w⟩
/-- The fields of COPY's first word. -/
def unpackXC (w : W32) : XCWord := ⟨dOf w, aOf w, bOf w, w.extractLsb' 1 3, gnOf w⟩

/-- An instruction, or the reason there is none. -/
abbrev DecodeResult := Except DecodeError Instr

/-- The sub-operations of opcode 0x1F (R111). -/
def decodeSub1F (w : W32) : DecodeResult :=
  match (bOf w).toNat with
  | 0 => .ok (.clz (unpackS w))
  | 1 => .ok (.ctz (unpackS w))
  | 2 => .ok (.popc (unpackS w))
  | 3 => .ok (.brev (unpackS w))
  | _ => .error .reservedSubop

/-- The sub-operations of opcode 0x5A (R111). -/
def decodeSub5A (w : W32) : DecodeResult :=
  match (bOf w).toNat with
  | 0 => .ok (.fflagRd (unpackS w))
  | 1 => .ok (.fflagClr (unpackS w))
  | _ => .error .reservedSubop

/-- The sub-operations of opcode 0x66 (R111). -/
def decodeSub66 (w : W32) : DecodeResult :=
  match (w.extractLsb' 8 3).toNat with
  | 0 => .ok (.mrd (unpackK w))
  | 1 => .ok (.mwr (unpackK w))
  | 2 => .ok (.mand (unpackK w))
  | 3 => .ok (.mor (unpackK w))
  | 4 => .ok (.mcnt (unpackK w))
  | _ => .error .reservedSubop

/-- The sub-operations of opcode 0x6C (R111). -/
def decodeSub6C (w : W32) : DecodeResult :=
  match (bOf w).toNat with
  | 0 => .ok (.voteAll (unpackS w))
  | 1 => .ok (.voteAny (unpackS w))
  | 2 => .ok (.voteBallot (unpackS w))
  | _ => .error .reservedSubop

/-- The sub-operations of opcode 0x6D (R111). -/
def decodeSub6D (w : W32) : DecodeResult :=
  match (bOf w).toNat with
  | 0 => .ok (.reduxAdd (unpackS w))
  | 1 => .ok (.reduxMin (unpackS w))
  | 2 => .ok (.reduxMax (unpackS w))
  | 3 => .ok (.reduxAnd (unpackS w))
  | 4 => .ok (.reduxOr (unpackS w))
  | 5 => .ok (.reduxXor (unpackS w))
  | 6 => .ok (.reduxMinu (unpackS w))
  | 7 => .ok (.reduxMaxu (unpackS w))
  | _ => .error .reservedSubop

/-- The sub-operations of opcode 0x6F (R111). -/
def decodeSub6F (w : W32) : DecodeResult :=
  match (bOf w).toNat with
  | 0 => .ok (.qpopp (unpackS w))
  | 1 => .ok (.qpeek (unpackS w))
  | 2 => .ok (.qlevel (unpackS w))
  | 3 => .ok (.qflush (unpackS w))
  | 4 => .ok (.qclose (unpackS w))
  | _ => .error .reservedSubop

/-- The sub-operations of opcode 0x76 (R111). -/
def decodeSub76 (w : W32) : DecodeResult :=
  match (w.extractLsb' 8 3).toNat with
  | 0 => .ok (.fence (unpackK w))
  | 1 => .ok (.acq (unpackK w))
  | 2 => .ok (.rel (unpackK w))
  | _ => .error .reservedSubop

/-- The sub-operations of opcode 0x78 (R111). -/
def decodeSub78 (w : W32) (x : W32) : DecodeResult :=
  match (dOf w).toNat with
  | 0 => .ok (.cinv (unpackC w) x)
  | 1 => .ok (.cwb (unpackC w) x)
  | 2 => .ok (.cpf (unpackC w) x)
  | 3 => .ok (.czero (unpackC w) x)
  | 4 => .ok (.cpart (unpackC w) x)
  | _ => .error .reservedSubop

/-- The sub-operations of opcode 0x7A (R111). -/
def decodeSub7A (w : W32) (x : W32) : DecodeResult :=
  match (dOf w).toNat with
  | 0 => .ok (.mxma (unpackX w) x)
  | 1 => .ok (.mxld (unpackX w) x)
  | 2 => .ok (.mxst (unpackX w) x)
  | 3 => .ok (.mxz (unpackX w) x)
  | 4 => .ok (.ofence (unpackX w) x)
  | _ => .error .reservedSubop

/-- The sub-operations of opcode 0x7B (R111). -/
def decodeSub7B (w : W32) : DecodeResult :=
  match (bOf w).toNat with
  | 0 => .ok (.twany (unpackS w))
  | 1 => .ok (.twall (unpackS w))
  | 2 => .ok (.tffr (unpackS w))
  | 3 => .ok (.tclr (unpackS w))
  | 4 => .ok (.ttest (unpackS w))
  | _ => .error .reservedSubop

/-- The sub-operations of opcode 0x7C (R111). -/
def decodeSub7C (w : W32) (x : W32) : DecodeResult :=
  match (dOf w).toNat with
  | 0 => .ok (.rput (unpackX w) x)
  | 1 => .ok (.rget (unpackX w) x)
  | 2 => .ok (.ratom (unpackX w) x)
  | 3 => .ok (.npost (unpackX w) x)
  | 4 => .ok (.nflush (unpackX w) x)
  | _ => .error .reservedSubop

/-- The sub-operations of opcode 0x7D (R111). -/
def decodeSub7D (w : W32) (x : W32) : DecodeResult :=
  match (dOf w).toNat with
  | 0 => .ok (.lgrid (unpackX w) x)
  | 1 => .ok (.etrig (unpackX w) x)
  | 2 => .ok (.dist (unpackX w) x)
  | _ => .error .reservedSubop

/-- The sub-operations of opcode 0x7E (R111). -/
def decodeSub7E (w : W32) : DecodeResult :=
  match (bOf w).toNat with
  | 0 => .ok (.bar (unpackS w))
  | 1 => .ok (.bara (unpackS w))
  | 2 => .ok (.barw (unpackS w))
  | 3 => .ok (.fbar (unpackS w))
  | 4 => .ok (.cwait (unpackS w))
  | _ => .error .reservedSubop

/-- The sub-operations of opcode 0x7F (R111). -/
def decodeSub7F (w : W32) : DecodeResult :=
  match (bOf w).toNat with
  | 0 => .ok (.trap (unpackS w))
  | 1 => .ok (.yield (unpackS w))
  | 2 => .ok (.time (unpackS w))
  | 3 => .ok (.sleep (unpackS w))
  | 4 => .ok (.bkpt (unpackS w))
  | _ => .error .reservedSubop

/-- The opcode map (R111): the instruction that a word w and the word x after it spell. A one-word instruction ignores x. -/
def decodeWords (w x : W32) : DecodeResult :=
  match opOf w with
  | 0x00 => .error .headerOrTrailer
  | 0x01 => .error .headerOrTrailer
  | 0x02 => .ok (.nop (unpackR w))
  | 0x03 => .ok (.add (unpackR w))
  | 0x04 => .ok (.sub (unpackR w))
  | 0x05 => .ok (.addi (unpackR w))
  | 0x06 => .ok (.addl (unpackR w) x)
  | 0x07 => .ok (.mul (unpackR w))
  | 0x08 => .ok (.mulh (unpackR w))
  | 0x09 => .ok (.mulhu (unpackR w))
  | 0x0A => .ok (.madd (unpackR w))
  | 0x0B => .ok (.div (unpackR w))
  | 0x0C => .ok (.divu (unpackR w))
  | 0x0D => .ok (.rem (unpackR w))
  | 0x0E => .ok (.remu (unpackR w))
  | 0x0F => .ok (.abs (unpackR w))
  | 0x10 => .ok (.and (unpackR w))
  | 0x11 => .ok (.or (unpackR w))
  | 0x12 => .ok (.xor (unpackR w))
  | 0x13 => .ok (.andn (unpackR w))
  | 0x14 => .ok (.shl (unpackR w))
  | 0x15 => .ok (.shr (unpackR w))
  | 0x16 => .ok (.sar (unpackR w))
  | 0x17 => .ok (.rot (unpackR w))
  | 0x18 => .ok (.shli (unpackR w))
  | 0x19 => .ok (.shri (unpackR w))
  | 0x1A => .ok (.sari (unpackR w))
  | 0x1B => .ok (.min (unpackR w))
  | 0x1C => .ok (.max (unpackR w))
  | 0x1D => .ok (.minu (unpackR w))
  | 0x1E => .ok (.maxu (unpackR w))
  | 0x1F => decodeSub1F w
  | 0x20 => .ok (.bfx (unpackR w) x)
  | 0x21 => .ok (.bfi (unpackR w) x)
  | 0x22 => .ok (.sel (unpackR w) x)
  | 0x23 => .ok (.mov (unpackR w))
  | 0x24 => .ok (.movl (unpackR w) x)
  | 0x25 => .ok (.lea (unpackR w) x)
  | 0x26 => .ok (.addc (unpackR w))
  | 0x27 => .ok (.subb (unpackR w))
  | 0x28 => .ok (.cmpeq (unpackR w))
  | 0x29 => .ok (.cmpne (unpackR w))
  | 0x2A => .ok (.cmplt (unpackR w))
  | 0x2B => .ok (.cmple (unpackR w))
  | 0x2C => .ok (.cmpltu (unpackR w))
  | 0x2D => .ok (.cmpleu (unpackR w))
  | 0x2E => .ok (.cmpeqi (unpackR w))
  | 0x2F => .ok (.cmplti (unpackR w))
  | 0x30 => .ok (.pand (unpackR w))
  | 0x31 => .ok (.por (unpackR w))
  | 0x32 => .ok (.pxor (unpackR w))
  | 0x33 => .ok (.pmov (unpackR w))
  | 0x34 => .ok (.wbase (unpackR w))
  | 0x35 => .ok (.rds (unpackR w) x)
  | 0x36 => .ok (.wrs (unpackR w) x)
  | 0x38 => .ok (.fcmpeq (unpackR w))
  | 0x39 => .ok (.fcmplt (unpackR w))
  | 0x3A => .ok (.fcmple (unpackR w))
  | 0x3B => .ok (.fcmpun (unpackR w))
  | 0x40 => .ok (.fadd (unpackR w))
  | 0x41 => .ok (.fsub (unpackR w))
  | 0x42 => .ok (.fmul (unpackR w))
  | 0x43 => .ok (.ffma (unpackR w))
  | 0x44 => .ok (.fmin (unpackR w))
  | 0x45 => .ok (.fmax (unpackR w))
  | 0x46 => .ok (.fneg (unpackR w))
  | 0x47 => .ok (.fabs (unpackR w))
  | 0x48 => .ok (.frcp (unpackR w))
  | 0x49 => .ok (.frsq (unpackR w))
  | 0x4A => .ok (.fexp2 (unpackR w))
  | 0x4B => .ok (.flog2 (unpackR w))
  | 0x4C => .ok (.fsin (unpackR w))
  | 0x4D => .ok (.fcos (unpackR w))
  | 0x4E => .ok (.ftanh (unpackR w))
  | 0x4F => .ok (.fsqrt (unpackR w))
  | 0x50 => .ok (.frnd (unpackR w))
  | 0x51 => .ok (.fcvt (unpackR w) x)
  | 0x52 => .ok (.hadd2 (unpackR w))
  | 0x53 => .ok (.hmul2 (unpackR w))
  | 0x54 => .ok (.hfma2 (unpackR w))
  | 0x55 => .ok (.badd2 (unpackR w))
  | 0x56 => .ok (.bmul2 (unpackR w))
  | 0x57 => .ok (.bfma2 (unpackR w))
  | 0x58 => .ok (.idot4 (unpackR w) x)
  | 0x59 => .ok (.tdot4 (unpackR w))
  | 0x5A => decodeSub5A w
  | 0x5B => .ok (.fsetrm (unpackR w))
  | 0x5C => .ok (.fcvts (unpackR w) x)
  | 0x60 => .ok (.bra (unpackJ w))
  | 0x61 => .ok (.call (unpackJ w))
  | 0x62 => .ok (.jmpr (unpackR w))
  | 0x63 => .ok (.meet (unpackMJ w))
  | 0x64 => .ok (.leave (unpackMJ w))
  | 0x65 => .ok (.waitm (unpackMJ w))
  | 0x66 => decodeSub66 w
  | 0x67 => .ok (.exit (unpackR w))
  | 0x68 => .ok (.shfli (unpackR w))
  | 0x69 => .ok (.shflu (unpackR w))
  | 0x6A => .ok (.shfld (unpackR w))
  | 0x6B => .ok (.shflx (unpackR w))
  | 0x6C => decodeSub6C w
  | 0x6D => decodeSub6D w
  | 0x6E => .ok (.elect (unpackR w))
  | 0x6F => decodeSub6F w
  | 0x70 => .ok (.ld (unpackR w) x)
  | 0x71 => .ok (.st (unpackR w) x)
  | 0x72 => .ok (.lds (unpackR w) x)
  | 0x73 => .ok (.sts (unpackR w) x)
  | 0x74 => .ok (.atom (unpackR w) x)
  | 0x75 => .ok (.atoms (unpackR w) x)
  | 0x76 => decodeSub76 w
  | 0x77 => .ok (.waita (unpackR w) x)
  | 0x78 => decodeSub78 w x
  | 0x79 => .ok (.copy (unpackXC w) x)
  | 0x7A => decodeSub7A w x
  | 0x7B => decodeSub7B w
  | 0x7C => decodeSub7C w x
  | 0x7D => decodeSub7D w x
  | 0x7E => decodeSub7E w
  | 0x7F => decodeSub7F w
  | _ => .error .reservedOpcode

/-- form_words of R106: 2 for the L, M and X forms, 1 for every other opcode, reserved ones included. -/
def formWords (op : Nat) : Nat :=
  match op with
  | 0x06 => 2
  | 0x20 => 2
  | 0x21 => 2
  | 0x22 => 2
  | 0x24 => 2
  | 0x25 => 2
  | 0x35 => 2
  | 0x36 => 2
  | 0x51 => 2
  | 0x58 => 2
  | 0x5C => 2
  | 0x70 => 2
  | 0x71 => 2
  | 0x72 => 2
  | 0x73 => 2
  | 0x74 => 2
  | 0x75 => 2
  | 0x77 => 2
  | 0x78 => 2
  | 0x79 => 2
  | 0x7A => 2
  | 0x7C => 2
  | 0x7D => 2
  | _ => 1

/-- Read one instruction from the front of a byte list (R97): words are little-endian. Answers the instruction and the bytes after it.
A two-word instruction with fewer than eight bytes left is truncated. -/
def decode : List Byte → Except DecodeError (Instr × List Byte)
  | b0 :: b1 :: b2 :: b3 :: rest =>
    let w : W32 := b3 ++ b2 ++ b1 ++ b0
    if formWords (opOf w) = 2 then
      match rest with
      | c0 :: c1 :: c2 :: c3 :: rest' =>
        match decodeWords w (c3 ++ c2 ++ c1 ++ c0) with
        | .ok i => .ok (i, rest')
        | .error e => .error e
      | _ => .error .truncated
    else
      match decodeWords w 0 with
      | .ok i => .ok (i, rest)
      | .error e => .error e
  | _ => .error .truncated

/-- A bit as a one-bit vector. -/
def bit1 (b : Bool) : BitVec 1 := BitVec.ofBool b

/-- Lay out an R-form word (R98). -/
def packR (op : BitVec 7) (w : RWord) : W32 := op ++ w.d ++ w.a ++ w.b ++ bit1 w.nw ++ w.gsel ++ bit1 w.gn
/-- Lay out an R-form word with sub-operation sub in B. -/
def packS (op sub : BitVec 7) (w : SWord) : W32 := op ++ w.d ++ w.a ++ sub ++ bit1 w.nw ++ w.gsel ++ bit1 w.gn
/-- Lay out an R-form word with sub-operation sub in B[6:4]. -/
def packK (op : BitVec 7) (sub : BitVec 3) (w : KWord) : W32 :=
  op ++ w.d ++ w.a ++ sub ++ w.k ++ bit1 w.nw ++ w.gsel ++ bit1 w.gn
/-- Lay out an R-form word with sub-operation sub in D. -/
def packC (op sub : BitVec 7) (w : CWord) : W32 := op ++ sub ++ w.a ++ w.b ++ bit1 w.nw ++ w.gsel ++ bit1 w.gn
/-- Lay out a J-form word (R101). -/
def packJ (op : BitVec 7) (w : JWord) : W32 := op ++ w.off ++ bit1 w.res ++ w.gsel ++ bit1 w.gn
/-- Lay out an MJ-form word (R101). -/
def packMJ (op : BitVec 7) (w : MJWord) : W32 := op ++ w.k ++ w.off ++ bit1 w.res ++ w.gsel ++ bit1 w.gn
/-- Lay out the first word of an X form (R101). -/
def packX (op sub : BitVec 7) (w : XWord) : W32 := op ++ sub ++ w.a ++ w.b ++ w.slot ++ bit1 w.res
/-- Lay out the first word of COPY. -/
def packXC (op : BitVec 7) (w : XCWord) : W32 := op ++ w.d ++ w.a ++ w.b ++ w.slot ++ bit1 w.res

/-- The words of an instruction, from the tables of R98, R101 and R111. A step that is no instruction has none. -/
def encode : Instr → List W32
  | .nop w => [packR 0x02#7 w]
  | .add w => [packR 0x03#7 w]
  | .sub w => [packR 0x04#7 w]
  | .addi w => [packR 0x05#7 w]
  | .addl w x => [packR 0x06#7 w, x]
  | .mul w => [packR 0x07#7 w]
  | .mulh w => [packR 0x08#7 w]
  | .mulhu w => [packR 0x09#7 w]
  | .madd w => [packR 0x0A#7 w]
  | .div w => [packR 0x0B#7 w]
  | .divu w => [packR 0x0C#7 w]
  | .rem w => [packR 0x0D#7 w]
  | .remu w => [packR 0x0E#7 w]
  | .abs w => [packR 0x0F#7 w]
  | .and w => [packR 0x10#7 w]
  | .or w => [packR 0x11#7 w]
  | .xor w => [packR 0x12#7 w]
  | .andn w => [packR 0x13#7 w]
  | .shl w => [packR 0x14#7 w]
  | .shr w => [packR 0x15#7 w]
  | .sar w => [packR 0x16#7 w]
  | .rot w => [packR 0x17#7 w]
  | .shli w => [packR 0x18#7 w]
  | .shri w => [packR 0x19#7 w]
  | .sari w => [packR 0x1A#7 w]
  | .min w => [packR 0x1B#7 w]
  | .max w => [packR 0x1C#7 w]
  | .minu w => [packR 0x1D#7 w]
  | .maxu w => [packR 0x1E#7 w]
  | .clz w => [packS 0x1F#7 0#7 w]
  | .ctz w => [packS 0x1F#7 1#7 w]
  | .popc w => [packS 0x1F#7 2#7 w]
  | .brev w => [packS 0x1F#7 3#7 w]
  | .bfx w x => [packR 0x20#7 w, x]
  | .bfi w x => [packR 0x21#7 w, x]
  | .sel w x => [packR 0x22#7 w, x]
  | .mov w => [packR 0x23#7 w]
  | .movl w x => [packR 0x24#7 w, x]
  | .lea w x => [packR 0x25#7 w, x]
  | .addc w => [packR 0x26#7 w]
  | .subb w => [packR 0x27#7 w]
  | .cmpeq w => [packR 0x28#7 w]
  | .cmpne w => [packR 0x29#7 w]
  | .cmplt w => [packR 0x2A#7 w]
  | .cmple w => [packR 0x2B#7 w]
  | .cmpltu w => [packR 0x2C#7 w]
  | .cmpleu w => [packR 0x2D#7 w]
  | .cmpeqi w => [packR 0x2E#7 w]
  | .cmplti w => [packR 0x2F#7 w]
  | .pand w => [packR 0x30#7 w]
  | .por w => [packR 0x31#7 w]
  | .pxor w => [packR 0x32#7 w]
  | .pmov w => [packR 0x33#7 w]
  | .wbase w => [packR 0x34#7 w]
  | .rds w x => [packR 0x35#7 w, x]
  | .wrs w x => [packR 0x36#7 w, x]
  | .fcmpeq w => [packR 0x38#7 w]
  | .fcmplt w => [packR 0x39#7 w]
  | .fcmple w => [packR 0x3A#7 w]
  | .fcmpun w => [packR 0x3B#7 w]
  | .fadd w => [packR 0x40#7 w]
  | .fsub w => [packR 0x41#7 w]
  | .fmul w => [packR 0x42#7 w]
  | .ffma w => [packR 0x43#7 w]
  | .fmin w => [packR 0x44#7 w]
  | .fmax w => [packR 0x45#7 w]
  | .fneg w => [packR 0x46#7 w]
  | .fabs w => [packR 0x47#7 w]
  | .frcp w => [packR 0x48#7 w]
  | .frsq w => [packR 0x49#7 w]
  | .fexp2 w => [packR 0x4A#7 w]
  | .flog2 w => [packR 0x4B#7 w]
  | .fsin w => [packR 0x4C#7 w]
  | .fcos w => [packR 0x4D#7 w]
  | .ftanh w => [packR 0x4E#7 w]
  | .fsqrt w => [packR 0x4F#7 w]
  | .frnd w => [packR 0x50#7 w]
  | .fcvt w x => [packR 0x51#7 w, x]
  | .hadd2 w => [packR 0x52#7 w]
  | .hmul2 w => [packR 0x53#7 w]
  | .hfma2 w => [packR 0x54#7 w]
  | .badd2 w => [packR 0x55#7 w]
  | .bmul2 w => [packR 0x56#7 w]
  | .bfma2 w => [packR 0x57#7 w]
  | .idot4 w x => [packR 0x58#7 w, x]
  | .tdot4 w => [packR 0x59#7 w]
  | .fflagRd w => [packS 0x5A#7 0#7 w]
  | .fflagClr w => [packS 0x5A#7 1#7 w]
  | .fsetrm w => [packR 0x5B#7 w]
  | .fcvts w x => [packR 0x5C#7 w, x]
  | .bra w => [packJ 0x60#7 w]
  | .call w => [packJ 0x61#7 w]
  | .jmpr w => [packR 0x62#7 w]
  | .meet w => [packMJ 0x63#7 w]
  | .leave w => [packMJ 0x64#7 w]
  | .waitm w => [packMJ 0x65#7 w]
  | .mrd w => [packK 0x66#7 0#3 w]
  | .mwr w => [packK 0x66#7 1#3 w]
  | .mand w => [packK 0x66#7 2#3 w]
  | .mor w => [packK 0x66#7 3#3 w]
  | .mcnt w => [packK 0x66#7 4#3 w]
  | .exit w => [packR 0x67#7 w]
  | .shfli w => [packR 0x68#7 w]
  | .shflu w => [packR 0x69#7 w]
  | .shfld w => [packR 0x6A#7 w]
  | .shflx w => [packR 0x6B#7 w]
  | .voteAll w => [packS 0x6C#7 0#7 w]
  | .voteAny w => [packS 0x6C#7 1#7 w]
  | .voteBallot w => [packS 0x6C#7 2#7 w]
  | .reduxAdd w => [packS 0x6D#7 0#7 w]
  | .reduxMin w => [packS 0x6D#7 1#7 w]
  | .reduxMax w => [packS 0x6D#7 2#7 w]
  | .reduxAnd w => [packS 0x6D#7 3#7 w]
  | .reduxOr w => [packS 0x6D#7 4#7 w]
  | .reduxXor w => [packS 0x6D#7 5#7 w]
  | .reduxMinu w => [packS 0x6D#7 6#7 w]
  | .reduxMaxu w => [packS 0x6D#7 7#7 w]
  | .elect w => [packR 0x6E#7 w]
  | .qpopp w => [packS 0x6F#7 0#7 w]
  | .qpeek w => [packS 0x6F#7 1#7 w]
  | .qlevel w => [packS 0x6F#7 2#7 w]
  | .qflush w => [packS 0x6F#7 3#7 w]
  | .qclose w => [packS 0x6F#7 4#7 w]
  | .ld w x => [packR 0x70#7 w, x]
  | .st w x => [packR 0x71#7 w, x]
  | .lds w x => [packR 0x72#7 w, x]
  | .sts w x => [packR 0x73#7 w, x]
  | .atom w x => [packR 0x74#7 w, x]
  | .atoms w x => [packR 0x75#7 w, x]
  | .fence w => [packK 0x76#7 0#3 w]
  | .acq w => [packK 0x76#7 1#3 w]
  | .rel w => [packK 0x76#7 2#3 w]
  | .waita w x => [packR 0x77#7 w, x]
  | .cinv w x => [packC 0x78#7 0#7 w, x]
  | .cwb w x => [packC 0x78#7 1#7 w, x]
  | .cpf w x => [packC 0x78#7 2#7 w, x]
  | .czero w x => [packC 0x78#7 3#7 w, x]
  | .cpart w x => [packC 0x78#7 4#7 w, x]
  | .copy w x => [packXC 0x79#7 w, x]
  | .mxma w x => [packX 0x7A#7 0#7 w, x]
  | .mxld w x => [packX 0x7A#7 1#7 w, x]
  | .mxst w x => [packX 0x7A#7 2#7 w, x]
  | .mxz w x => [packX 0x7A#7 3#7 w, x]
  | .ofence w x => [packX 0x7A#7 4#7 w, x]
  | .twany w => [packS 0x7B#7 0#7 w]
  | .twall w => [packS 0x7B#7 1#7 w]
  | .tffr w => [packS 0x7B#7 2#7 w]
  | .tclr w => [packS 0x7B#7 3#7 w]
  | .ttest w => [packS 0x7B#7 4#7 w]
  | .rput w x => [packX 0x7C#7 0#7 w, x]
  | .rget w x => [packX 0x7C#7 1#7 w, x]
  | .ratom w x => [packX 0x7C#7 2#7 w, x]
  | .npost w x => [packX 0x7C#7 3#7 w, x]
  | .nflush w x => [packX 0x7C#7 4#7 w, x]
  | .lgrid w x => [packX 0x7D#7 0#7 w, x]
  | .etrig w x => [packX 0x7D#7 1#7 w, x]
  | .dist w x => [packX 0x7D#7 2#7 w, x]
  | .bar w => [packS 0x7E#7 0#7 w]
  | .bara w => [packS 0x7E#7 1#7 w]
  | .barw w => [packS 0x7E#7 2#7 w]
  | .fbar w => [packS 0x7E#7 3#7 w]
  | .cwait w => [packS 0x7E#7 4#7 w]
  | .trap w => [packS 0x7F#7 0#7 w]
  | .yield w => [packS 0x7F#7 1#7 w]
  | .time w => [packS 0x7F#7 2#7 w]
  | .sleep w => [packS 0x7F#7 3#7 w]
  | .bkpt w => [packS 0x7F#7 4#7 w]
  | .runIssue _ _ => []
  | .droverSwap _ _ => []
  | .pendingLongWait _ _ => []
  | .groupPlace _ => []
  | .gridDependencyMet _ _ => []
  | .priorityAging _ _ => []
  | .decoupleDeadlock _ _ => []
  | .loadLanding _ => []
  | .atomicLanding _ => []
  | .storeAck _ => []
  | .homeAccess _ => []
  | .translationWalk _ => []
  | .divisionLanding _ => []
  | .specialFunctionLanding _ => []
  | .mxOperationComplete _ => []
  | .copyComplete _ => []
  | .workRequestSend _ _ => []
  | .sendCompletion _ => []
  | .readLanded _ => []
  | .nflushComplete _ => []
  | .putPacketPlaced _ => []
  | .lgridResult _ => []
  | .distResult _ => []
  | .errorReturn _ => []
  | .waitaWake _ _ _ => []
  | .waitaTimeout _ _ _ => []
  | .sleepExpiry _ _ _ => []
  | .cwaitReturn _ _ _ => []
  | .cpartComplete _ => []
  | .pdlcExpiry _ => []
  | .drainTimeout _ => []
  | .saveComplete _ => []
  | .handlerFinish _ _ => []
  | .groupResume _ _ => []
  | .stagedCommit _ _ => []
  | .launch _ _ _ => []
  | .regionCreate _ _ _ => []
  | .regionModify _ _ _ => []
  | .regionDestroy _ _ _ => []
  | .topo _ _ _ => []
  | .drain _ _ _ => []
  | .ckpt _ _ _ => []
  | .keyload _ _ _ => []
  | .timesync _ _ _ => []
  | .event _ _ _ => []
  | .eventFinish _ _ _ => []
  | .doorbellWrite _ _ _ => []
  | .coreCounterWrite _ _ _ => []
  | .registerWrite _ _ _ _ => []
  | .endpointTableWrite _ _ _ => []
  | .peerDescriptorWrite _ _ _ => []
  | .barrierTreeWrite _ _ _ => []
  | .errorPolicyWrite _ _ _ => []
  | .wpartWrite _ _ => []
  | .readIdentity _ => []
  | .writeModid _ _ => []
  | .extendMeasurement _ _ _ => []
  | .attestationRequest _ _ => []
  | .loadKey _ _ _ => []
  | .createRoot _ _ => []
  | .destroyRoot _ _ => []
  | .restartQueue _ _ _ _ => []
  | .debugHalt _ _ => []
  | .debugReadImage _ _ _ _ => []
  | .debugWriteImage _ _ _ _ => []
  | .debugResume _ _ => []
  | .debugDiscard _ _ => []
  | .debugAttach _ _ => []
  | .hostRmaWrite _ _ _ _ => []
  | .hostRmaRead _ _ _ _ => []
  | .coldReset _ => []
  | .commandProcessorTakeover _ => []
  | .powerAlarmRaise _ => []
  | .powerHold _ => []
  | .powerHoldRelease _ => []
  | .powerAlarmClear _ => []
  | .heartbeat _ _ _ => []
  | .heartbeatMiss _ _ _ _ => []
  | .failureNotice _ _ => []
  | .laneSelfTest _ _ => []
  | .foldMigration _ _ _ => []
  | .siteRetire _ _ _ => []
  | .shootdown _ _ _ _ => []
  | .timesyncExchange _ _ _ => []
  | .timesyncMiss _ => []
  | .orderedPacketArrival _ _ _ => []
  | .orderedDelivery _ => []
  | .beaconSend _ _ => []
  | .beaconReceive _ _ _ => []
  | .watermarkStall _ _ => []
  | .portCut _ _ => []
  | .topologyCutover _ => []
  | .fbarArrival _ => []
  | .fbarRelease _ => []
  | .barrierLost _ _ => []
  | .flitReceive _ _ _ _ => []
  | .meshPortDown _ _ => []
  | .noRouteTimeout _ => []
  | .routeSample _ => []
  | .planeStop _ => []
  | .waitack _ => []
  | .retune _ => []
  | .waitlock _ => []
  | .waitlockTimeout _ => []
  | .planeResume _ => []
  | .planeDown _ => []
  | .ringLockLoss _ _ => []
  | .ringLockReturn _ _ => []
  | .ringLockTimeout _ _ => []
  | .heaterEndOfRange _ _ => []
  | .cartridgeInsert _ _ => []
  | .cartridgeLockCheck _ => []
  | .cartridgeQuiesce _ => []
  | .cartridgeRemoval _ => []
  | .cartridgePowerUp _ => []
  | .uePeerRequest _ _ _ _ _ _ _ _ _ _ _ => []
  | .ueSelectiveAck _ _ _ => []
  | .ueRetransmitTimeout _ _ _ => []
  | .ueEcnEcho _ _ => []
  | .hostPortLinkDown _ => []
  | .hostPortLinkUp _ => []

/-- The bytes of a list of words, each little-endian (R97). -/
def wordBytes : List W32 → List Byte
  | [] => []
  | w :: ws => w.extractLsb' 0 8 :: w.extractLsb' 8 8 :: w.extractLsb' 16 8 :: w.extractLsb' 24 8 :: wordBytes ws

/-- The instruction that this decoder reads from the bits w, bit 0 the least significant of the first word; the bits of the second
word that nbits does not give are zero. -/
def decodeTableWord (nbits w : Nat) : Option Instr :=
  let v := w % 2 ^ nbits
  match decode (wordBytes [BitVec.ofNat 32 v, BitVec.ofNat 32 (v / 2 ^ 32)]) with
  | .ok (i, _) => some i
  | .error _ => none

/-- Whether a row of the table is a step of the machine and not an instruction. -/
def Instr.isEvent (i : Instr) : Bool := (encode i).isEmpty

end Sys2Proof
end

