-- ==== Sys2Proof/Machine/Shape.lean ====
section
/-! DEFINITION. What each instruction names: registers read and written with their widths, predicates, masks, must-be-zero fields and
limits (the Forms tables of spec/06 R151, 07 R170, 08 R187, 11 R249, 12 R269, 14 R317, 16 R380, R391), from which the encoding checks
of R116, the decode checks of R106 and the readiness of R60 are computed. -/

namespace Sys2Proof.Machine

open Sys2Proof

/-- Which names a register operand accepts beyond the general rule of R109; any other name raises reason 0x27. -/
inductive WideRule where
  /-- R109: a wide operand names an aligned v, o or s register; a 64-bit one also void and, as a source, zero, cwin, argp or a latch, which
  holds 64 bits (R126; that R109 does not name latches is settled so in log 22). -/
  | general
  /-- R249: a 64-bit address names an even v, o or s register, zero, cwin or argp. -/
  | address
  /-- R198, R391: an even v, o or s register, or zero. -/
  | pairOrZero
  /-- R269, R318: an even uniform register s0 to s14. -/
  | uniPair
  /-- R318: a uniform register s0 to s15. -/
  | uniAny
deriving DecidableEq, Repr

/-- One register operand: its name, its width in 32-bit words, whether it is a data operand of R109, and its rule. -/
structure RegUse where
  name : Nat
  words : Nat
  data : Bool
  rule : WideRule
deriving DecidableEq, Repr

/-- For whom an instruction executes (R101, R148, R188). -/
inductive LaneRule where
  /-- R148: once when every source and the destination are uniform, else per lane. -/
  | byOperands
  /-- Per lane whatever its operands (SEL, shuffles, compares, per-thread RDS). -/
  | perLane
  /-- Per lane, with a result that is the same in every lane and so may be uniform (R109); never a uniform instruction (R188). -/
  | same
  /-- As same, but a uniform instruction when its sources and destination are uniform (R148, R183, R391). -/
  | sameOnce
  /-- Once, for the elected thread (R101). -/
  | elected
deriving DecidableEq, Repr

/-- Everything R106 and R116 look at in one instruction. -/
structure Shape where
  reads : List RegUse := []
  write : Option RegUse := none
  /-- D is read and written: a queue there raises 0x51 (R147). -/
  rw : Bool := false
  /-- Predicate fields (R110). -/
  preds : List Nat := []
  /-- Lane mask fields (R110). -/
  masks : List Nat := []
  /-- The queue field of a QOP (R318). -/
  queue : Option Nat := none
  /-- Entries of that queue that the QOP reads: 1 for QPOPP and QPEEK (R321). -/
  qreads : Nat := 0
  /-- A must-be-zero field is not zero, or a reserved code is used: reason 0x23. -/
  zero : Bool := false
  /-- An immediate or control field is outside its limits: reason 0x28. -/
  limit : Bool := false
  nw : Bool := false
  nwLegal : Bool := false
  /-- The D field, which NW = 1 turns into a latch number (R100). -/
  dField : Nat := 0
  /-- The form's bit [3] is NW (R106). -/
  nwForm : Bool := false
  gsel : Nat := 0
  gn : Bool := false
  long : Bool := false
  waiting : Bool := false
  lanes : LaneRule := .byOperands
  /-- The result latency L as a multiple of P and a number of cycles (R149, R168, R188, R321, R342, R391). -/
  lat : Nat × Nat := (1, 0)
deriving DecidableEq, Repr

/-- A source of w words. -/
def srcR (n : BitVec 7) (w : Nat := 1) : RegUse := ⟨n.toNat, w, false, .general⟩
/-- A data operand of a memory instruction (R109). -/
def dataR (n : BitVec 7) (w : Nat) : RegUse := ⟨n.toNat, w, true, .general⟩
/-- A source with a rule of its own. -/
def ruleR (n : BitVec 7) (w : Nat) (r : WideRule) : RegUse := ⟨n.toNat, w, false, r⟩

/-- The shape of an R-form word before its operands are named. -/
def baseR (w : RWord) : Shape :=
  { nw := w.nw, dField := w.d.toNat, nwForm := true, gsel := w.gsel.toNat, gn := w.gn }
/-- The shape of a word whose B is the sub-operation. -/
def baseS (w : SWord) : Shape :=
  { nw := w.nw, dField := w.d.toNat, nwForm := true, gsel := w.gsel.toNat, gn := w.gn }
/-- The shape of a word whose B[6:4] is the sub-operation. -/
def baseK (w : KWord) : Shape :=
  { nw := w.nw, dField := w.d.toNat, nwForm := true, gsel := w.gsel.toNat, gn := w.gn }
/-- The shape of a CACHE word: D is the sub-operation. -/
def baseC (sub : Nat) (w : CWord) : Shape :=
  { nw := w.nw, dField := sub, nwForm := true, gsel := w.gsel.toNat, gn := w.gn, lanes := .elected }
/-- The shape of a J-form word (R187): bit 3 is reserved. -/
def baseJ (w : JWord) : Shape := { zero := w.res, gsel := w.gsel.toNat, gn := w.gn, lanes := .perLane }
/-- The shape of an MJ-form word (R187). -/
def baseMJ (w : MJWord) : Shape :=
  { zero := w.res, masks := [w.k.toNat], gsel := w.gsel.toNat, gn := w.gn, lanes := .perLane }
/-- The shape of an X-form word: the guard stands in the control word (R101). rsv are its control bits that must be zero. -/
def baseX (slotUsed : Bool) (slot : BitVec 3) (res : Bool) (ctl rsv : W32) : Shape :=
  { zero := res || (!slotUsed && slot != 0) || (ctl &&& rsv) != 0,
    gsel := bitsOf ctl.toNat 31 30, gn := bitOf ctl.toNat 29, lanes := .elected }

/-- d, a, b: two 32-bit sources and a destination (R151, R170). -/
def shD2 (w : RWord) : Shape :=
  { baseR w with reads := [srcR w.a, srcR w.b], write := some (srcR w.d), nwLegal := true }
/-- As shD2 with D also a source (R147, R166). -/
def shD3 (w : RWord) : Shape :=
  { baseR w with reads := [srcR w.a, srcR w.b, srcR w.d], write := some (srcR w.d), rw := true, nwLegal := true }
/-- d, a with B zero. -/
def shD1 (w : RWord) : Shape :=
  { baseR w with reads := [srcR w.a], write := some (srcR w.d), zero := w.b != 0, nwLegal := true }
/-- d, a with an immediate whose limits are given. -/
def shI (w : RWord) (bad : Bool) : Shape :=
  { baseR w with reads := [srcR w.a], write := some (srcR w.d), limit := bad, nwLegal := true }
/-- A long-latency instruction with two sources (R153). -/
def shDiv (w : RWord) : Shape := { shD2 w with nwLegal := false, long := true }
/-- A special function (R169). -/
def shSfu (w : RWord) : Shape := { shD1 w with nwLegal := false, long := true }
/-- Three 64-bit operands (R160). -/
def shD64 (w : RWord) : Shape :=
  { baseR w with reads := [srcR w.a 2, srcR w.b 2], write := some (srcR w.d 2), nwLegal := true }
/-- A compare: D is a predicate (R161, R174). -/
def shCmp (w : RWord) : Shape :=
  { baseR w with reads := [srcR w.a, srcR w.b], preds := [w.d.toNat], lanes := .perLane }
/-- A compare with an immediate. -/
def shCmpI (w : RWord) : Shape := { baseR w with reads := [srcR w.a], preds := [w.d.toNat], lanes := .perLane }
/-- Predicate logic (R162). -/
def shP3 (w : RWord) : Shape :=
  { baseR w with preds := [w.d.toNat, w.a.toNat, w.b.toNat], lanes := .perLane }
/-- d, a with a sub-operation in B. -/
def shS1 (w : SWord) : Shape := { baseS w with reads := [srcR w.a], write := some (srcR w.d), nwLegal := true }
/-- A reduction (R201). -/
def shRedux (w : SWord) : Shape := { shS1 w with lanes := .same, lat := (1, 3) }
/-- A shuffle (R199). -/
def shShfl (w : RWord) : Shape := { shD2 w with lanes := .perLane, lat := (2, 3) }

/-- The number of 32-bit words of a system register, 0 for an unassigned number (R133). -/
def sysregWords (n : Nat) : Nat :=
  match n with
  | 0x000 => 1 | 0x001 => 1 | 0x002 => 1 | 0x003 => 1 | 0x004 => 2
  | 0x010 => 2 | 0x011 => 1 | 0x012 => 1 | 0x013 => 1
  | 0x020 => 1 | 0x021 => 1 | 0x022 => 1 | 0x030 => 1
  | 0x040 => 2 | 0x041 => 2 | 0x042 => 1 | 0x043 => 1 | 0x044 => 1
  | _ => 0

/-- SYSREG of a control word (R115). -/
def sysregOf (ctl : W32) : Nat := bitsOf ctl.toNat 11 0

/-- The width in bits of a type code of R83: int4, int8, tf8, fp16, bf16, fp32, int16, int32. -/
def typeBits (t : Nat) : Nat :=
  match t with
  | 0 => 4 | 1 => 8 | 2 => 8 | 3 => 16 | 4 => 16 | 5 => 32 | 6 => 16 | _ => 32

/-- SIZE of a memory control word (R113). -/
def mcSize (c : W32) : Nat := bitsOf c.toNat 7 5
/-- SCOPE of a memory or atomic control word. -/
def mcScope (c : W32) : Nat := bitsOf c.toNat 11 8
/-- SX of a memory control word. -/
def mcSx (c : W32) : Bool := bitOf c.toNat 4
/-- POLICY of a memory control word. -/
def mcPolicy (c : W32) : Nat := bitsOf c.toNat 3 2
/-- OFFSET of a memory or atomic control word, signed. -/
def mcOffset (c : W32) : Int := sextInt (bitsOf c.toNat 31 12) 20
/-- AOP of an atomic control word (R114). -/
def acAop (c : W32) : Nat := bitsOf c.toNat 7 4
/-- WIDE of an atomic control word. -/
def acWide (c : W32) : Bool := bitOf c.toNat 3
/-- ACQ of an atomic control word. -/
def acAcq (c : W32) : Bool := bitOf c.toNat 2
/-- REL of an atomic control word. -/
def acRel (c : W32) : Bool := bitOf c.toNat 1

/-- Reserved codes of a memory control word common to all its users (R113). -/
def mcBad (c : W32) : Bool :=
  decide (mcScope c > 10) || decide (mcSize c > 4) || decide (mcPolicy c = 3) || bitsOf c.toNat 1 0 != 0

/-- The number of words of a datum of SIZE (R109). -/
def sizeWords (sz : Nat) : Nat := if sz = 3 then 2 else if sz = 4 then 4 else 1

/-- LD and LDS (R249, R254). -/
def shLoad (scratch : Bool) (w : RWord) (c : W32) : Shape :=
  { baseR w with
    reads := [if scratch then srcR w.a else ruleR w.a 2 .address, srcR w.b]
    write := some (dataR w.d (sizeWords (mcSize c)))
    zero := mcBad c || (mcSx c && decide (mcSize c ≥ 2)) || (scratch && mcPolicy c != 0)
    long := true }

/-- ST and STS (R249, R256). -/
def shStore (scratch : Bool) (w : RWord) (c : W32) : Shape :=
  { baseR w with
    reads := [if scratch then srcR w.a else ruleR w.a 2 .address, srcR w.b, dataR w.d (sizeWords (mcSize c))]
    zero := mcBad c || mcSx c || (scratch && mcPolicy c != 0) }

/-- ATOM and ATOMS (R114, R249, R258): a cas also reads D. -/
def shAtom (scratch : Bool) (w : RWord) (c : W32) : Shape :=
  let n := if acWide c then 2 else 1
  let cas := acAop c == 12
  { baseR w with
    reads := [if scratch then srcR w.a else ruleR w.a 2 .address, dataR w.b n] ++ (if cas then [dataR w.d n] else [])
    write := some (dataR w.d n)
    rw := cas
    zero := decide (mcScope c > 10) || decide (acAop c > 12) || bitOf c.toNat 0
            || (acWide c && (acAop c == 1 || acAop c == 6 || acAop c == 7))
    long := true }

/-- The line operations of the CACHE family (R265). -/
def shCache (sub : Nat) (maxScope maxPolicy : Nat) (w : CWord) (c : W32) : Shape :=
  { baseC sub w with
    reads := [ruleR w.a 2 .address, srcR w.b]
    zero := mcBad c || mcSx c || decide (mcScope c > maxScope) || decide (mcPolicy c > maxPolicy) }

/-- The encoding limits of an engine control word's parameter register (R319). -/
def pregOf (c : W32) : Nat := bitsOf c.toNat 24 21

/-- AOP values a RATOM may hold (R319). -/
def ratomAop (n : Nat) : Bool :=
  n == 0 || n == 2 || n == 3 || n == 4 || n == 5 || n == 8 || n == 9 || n == 10 || n == 11 || n == 12

/-- A pair of uniform registers named by number: s(n), s(n+1) as one 64-bit use. -/
def uniPairUse (n : Nat) : RegUse := ⟨96 + n, 2, false, .uniAny⟩
/-- One uniform register named by number. -/
def uniUse (n : Nat) : RegUse := ⟨96 + n, 1, false, .uniAny⟩

/-- The shape of every instruction, none for a step that is no instruction. -/
def shape : Instr → Option Shape
  | .nop w => some { baseR w with zero := w.d != 0 || w.a != 0 || w.b != 0, lanes := .elected }
  | .add w => some (shD2 w)
  | .sub w => some (shD2 w)
  | .addi w => some (shI w false)
  | .addl w _ => some (shD1 w)
  | .mul w => some { shD2 w with lat := (1, 3) }
  | .mulh w => some { shD2 w with lat := (1, 3) }
  | .mulhu w => some { shD2 w with lat := (1, 3) }
  | .madd w => some { shD3 w with lat := (1, 3) }
  | .div w => some (shDiv w)
  | .divu w => some (shDiv w)
  | .rem w => some (shDiv w)
  | .remu w => some (shDiv w)
  | .abs w => some (shD1 w)
  | .and w => some (shD2 w)
  | .or w => some (shD2 w)
  | .xor w => some (shD2 w)
  | .andn w => some (shD2 w)
  | .shl w => some (shD2 w)
  | .shr w => some (shD2 w)
  | .sar w => some (shD2 w)
  | .rot w => some (shD2 w)
  | .shli w => some (shI w (decide (w.b.toNat > 31)))
  | .shri w => some (shI w (decide (w.b.toNat > 31)))
  | .sari w => some (shI w (decide (w.b.toNat > 31)))
  | .min w => some (shD2 w)
  | .max w => some (shD2 w)
  | .minu w => some (shD2 w)
  | .maxu w => some (shD2 w)
  | .clz w => some (shS1 w)
  | .ctz w => some (shS1 w)
  | .popc w => some (shS1 w)
  | .brev w => some (shS1 w)
  | .bfx w c =>
    let pos := bitsOf c.toNat 4 0
    let len := bitsOf c.toNat 10 5
    some { shD1 w with
      zero := w.b != 0 || bitsOf c.toNat 31 12 != 0
      limit := len == 0 || decide (len > 32) || decide (pos + len > 32) }
  | .bfi w c =>
    let pos := bitsOf c.toNat 4 0
    let len := bitsOf c.toNat 10 5
    some { baseR w with
      reads := [srcR w.a, srcR w.d], write := some (srcR w.d), rw := true, nwLegal := true
      zero := w.b != 0 || bitsOf c.toNat 31 11 != 0
      limit := len == 0 || decide (len > 32) || decide (pos + len > 32) }
  | .sel w c =>
    some { shD2 w with preds := [bitsOf c.toNat 4 0], zero := bitsOf c.toNat 31 5 != 0, lanes := .perLane }
  | .mov w => some (shD1 w)
  | .movl w _ =>
    some { baseR w with write := some (srcR w.d), zero := w.a != 0 || w.b != 0, nwLegal := true }
  | .lea w c =>
    some { baseR w with
      reads := [srcR w.a 2, srcR w.b], write := some (srcR w.d 2), nwLegal := true
      zero := bitsOf c.toNat 7 0 != 0 || bitOf c.toNat 11, lat := (1, 1) }
  | .addc w => some { shD64 w with lat := (1, 1) }
  | .subb w => some { shD64 w with lat := (1, 1) }
  | .cmpeq w => some (shCmp w)
  | .cmpne w => some (shCmp w)
  | .cmplt w => some (shCmp w)
  | .cmple w => some (shCmp w)
  | .cmpltu w => some (shCmp w)
  | .cmpleu w => some (shCmp w)
  | .cmpeqi w => some (shCmpI w)
  | .cmplti w => some (shCmpI w)
  | .pand w => some (shP3 w)
  | .por w => some (shP3 w)
  | .pxor w => some (shP3 w)
  | .pmov w =>
    some { baseR w with preds := [w.d.toNat, w.a.toNat], zero := w.b != 0, lanes := .perLane }
  | .wbase w =>
    some { baseR w with zero := w.d != 0 || w.a != 0, limit := decide (w.b.toNat > 12), lanes := .perLane }
  | .rds w c =>
    let n := sysregOf c
    some { baseR w with
      write := some (srcR w.d (if sysregWords n = 2 then 2 else 1)), nwLegal := true
      zero := w.a != 0 || w.b != 0 || bitsOf c.toNat 31 12 != 0 || sysregWords n == 0
      lanes := if n = 0x003 ∨ n = 0x004 then .perLane else .byOperands
      lat := (1, if n < 0x020 then 0 else if n < 0x030 then 2 else 10) }
  | .wrs w c =>
    some { baseR w with
      reads := [srcR w.a]
      zero := w.d != 0 || w.b != 0 || bitsOf c.toNat 31 12 != 0 || sysregWords (sysregOf c) == 0
      lanes := .elected }
  | .fcmpeq w => some (shCmp w)
  | .fcmplt w => some (shCmp w)
  | .fcmple w => some (shCmp w)
  | .fcmpun w => some (shCmp w)
  | .fadd w => some { shD2 w with lat := (1, 3) }
  | .fsub w => some { shD2 w with lat := (1, 3) }
  | .fmul w => some { shD2 w with lat := (1, 3) }
  | .ffma w => some { shD3 w with lat := (1, 3) }
  | .fmin w => some (shD2 w)
  | .fmax w => some (shD2 w)
  | .fneg w => some (shD1 w)
  | .fabs w => some (shD1 w)
  | .frcp w => some (shSfu w)
  | .frsq w => some (shSfu w)
  | .fexp2 w => some (shSfu w)
  | .flog2 w => some (shSfu w)
  | .fsin w => some (shSfu w)
  | .fcos w => some (shSfu w)
  | .ftanh w => some (shSfu w)
  | .fsqrt w => some (shSfu w)
  | .frnd w => some { shI w (decide (w.b.toNat > 4)) with lat := (1, 1) }
  | .fcvt w c =>
    let f := bitsOf c.toNat 3 0
    let t := bitsOf c.toNat 7 4
    some { shD1 w with
      zero := w.b != 0 || decide (f > 7) || decide (t > 7) || bitsOf c.toNat 31 14 != 0
      limit := decide (bitsOf c.toNat 11 10 ≥ 32 / typeBits f) || decide (bitsOf c.toNat 13 12 ≥ 32 / typeBits t)
      lat := (1, 2) }
  | .hadd2 w => some { shD2 w with lat := (1, 3) }
  | .hmul2 w => some { shD2 w with lat := (1, 3) }
  | .hfma2 w => some { shD3 w with lat := (1, 3) }
  | .badd2 w => some { shD2 w with lat := (1, 3) }
  | .bmul2 w => some { shD2 w with lat := (1, 3) }
  | .bfma2 w => some { shD3 w with lat := (1, 3) }
  | .idot4 w c => some { shD3 w with zero := bitsOf c.toNat 31 3 != 0, lat := (1, 3) }
  | .tdot4 w => some { shD3 w with lat := (1, 4) }
  | .fflagRd w =>
    some { baseS w with write := some (srcR w.d), zero := w.a != 0, nwLegal := true, lanes := .sameOnce, lat := (1, 1) }
  | .fflagClr w =>
    some { baseS w with write := some (srcR w.d), zero := w.a != 0, nwLegal := true, lanes := .sameOnce, lat := (1, 1) }
  | .fsetrm w =>
    some { baseR w with zero := w.d != 0 || w.a != 0, limit := decide (w.b.toNat > 3), lanes := .elected }
  | .fcvts w c =>
    let scl := bitOf c.toNat 4
    some { baseR w with
      reads := srcR w.a :: (if scl then [srcR w.b] else []), write := some (srcR w.d), nwLegal := true
      zero := (!scl && w.b != 0) || bitsOf c.toNat 31 5 != 0, lat := (1, 4) }
  | .bra w => some (baseJ w)
  | .call w => some (baseJ w)
  | .jmpr w => some { baseR w with reads := [srcR w.a 2], zero := w.d != 0 || w.b != 0, lanes := .perLane }
  | .meet w => some (baseMJ w)
  | .leave w => some { baseMJ w with zero := w.res || w.off != 0 }
  | .waitm w => some { baseMJ w with zero := w.res || w.off != 0, waiting := true }
  | .mrd w =>
    some { baseK w with
      write := some (srcR w.d 2), masks := [w.k.toNat], zero := w.a != 0, nwLegal := true, lanes := .sameOnce, lat := (0, 2) }
  | .mwr w =>
    some { baseK w with reads := [ruleR w.a 2 .pairOrZero], masks := [w.k.toNat], zero := w.d != 0, lanes := .elected }
  | .mand w =>
    some { baseK w with reads := [ruleR w.a 2 .pairOrZero], masks := [w.k.toNat], zero := w.d != 0, lanes := .elected }
  | .mor w =>
    some { baseK w with reads := [ruleR w.a 2 .pairOrZero], masks := [w.k.toNat], zero := w.d != 0, lanes := .elected }
  | .mcnt w =>
    some { baseK w with
      write := some (srcR w.d), masks := [w.k.toNat], zero := w.a != 0, nwLegal := true, lanes := .sameOnce, lat := (0, 2) }
  | .exit w => some { baseR w with zero := w.d != 0 || w.a != 0 || w.b != 0, lanes := .perLane }
  | .shfli w => some (shShfl w)
  | .shflu w => some (shShfl w)
  | .shfld w => some (shShfl w)
  | .shflx w => some (shShfl w)
  | .voteAll w => some { baseS w with preds := [w.d.toNat, w.a.toNat], lanes := .perLane }
  | .voteAny w => some { baseS w with preds := [w.d.toNat, w.a.toNat], lanes := .perLane }
  | .voteBallot w =>
    some { baseS w with write := some (srcR w.d 2), preds := [w.a.toNat], nwLegal := true, lanes := .same, lat := (1, 3) }
  | .reduxAdd w => some (shRedux w)
  | .reduxMin w => some (shRedux w)
  | .reduxMax w => some (shRedux w)
  | .reduxAnd w => some (shRedux w)
  | .reduxOr w => some (shRedux w)
  | .reduxXor w => some (shRedux w)
  | .reduxMinu w => some (shRedux w)
  | .reduxMaxu w => some (shRedux w)
  | .elect w =>
    some { baseR w with preds := [w.d.toNat], zero := w.a != 0 || w.b != 0, lanes := .perLane }
  | .qpopp w => some { baseS w with preds := [w.d.toNat], queue := some w.a.toNat, qreads := 1, lanes := .perLane }
  | .qpeek w =>
    some { baseS w with write := some (srcR w.d), queue := some w.a.toNat, qreads := 1, nwLegal := true, lanes := .perLane, lat := (1, 1) }
  | .qlevel w =>
    some { baseS w with write := some (srcR w.d), queue := some w.a.toNat, nwLegal := true, lanes := .perLane, lat := (1, 1) }
  | .qflush w => some { baseS w with queue := some w.a.toNat, zero := w.d != 0, lanes := .perLane }
  | .qclose w => some { baseS w with queue := some w.a.toNat, zero := w.d != 0, lanes := .perLane }
  | .ld w c => some (shLoad false w c)
  | .st w c => some (shStore false w c)
  | .lds w c => some (shLoad true w c)
  | .sts w c => some (shStore true w c)
  | .atom w c => some (shAtom false w c)
  | .atoms w c => some (shAtom true w c)
  | .fence w => some { baseK w with zero := w.d != 0 || w.a != 0 || decide (w.k.toNat > 10), lanes := .elected }
  | .acq w => some { baseK w with zero := w.d != 0 || w.a != 0 || decide (w.k.toNat > 10), lanes := .elected }
  | .rel w => some { baseK w with zero := w.d != 0 || w.a != 0 || decide (w.k.toNat > 10), lanes := .elected }
  | .waita w c =>
    some { baseR w with
      reads := [ruleR w.a 2 .address, srcR w.b, if mcSize c = 3 then ruleR w.d 2 .address else srcR w.d]
      zero := mcBad c || mcSx c || mcPolicy c != 0
      limit := decide (mcSize c ≠ 2 ∧ mcSize c ≠ 3)
      waiting := true, lanes := .elected }
  | .cinv w c => some (shCache 0 0 0 w c)
  | .cwb w c => some (shCache 1 0 0 w c)
  | .cpf w c => some (shCache 2 10 1 w c)
  | .czero w c => some (shCache 3 10 0 w c)
  | .cpart w c =>
    some { baseC 4 w with
      reads := [ruleR w.a 2 .address]
      zero := decide (w.b.toNat ≠ 112) || decide (mcSize c > 4) || mcOffset c != 0 || mcScope c != 0
              || mcSx c || mcPolicy c != 0 || bitsOf c.toNat 1 0 != 0 }
  | .copy w c =>
    let s := baseX true w.slot w.res c 0x1FFFFFC0#32
    some { s with reads := [ruleR w.a 1 .uniAny], zero := s.zero || w.d != 0 || w.b != 0 }
  | .mxma w c =>
    some { baseX true w.slot w.res c 0x1FE00000#32 with
      reads := [ruleR w.a 2 .uniPair, ruleR w.b 2 .uniPair, uniUse (bitsOf c.toNat 19 16)] }
  | .mxld w c =>
    let s := baseX false w.slot w.res c 0x1FF000C0#32
    some { s with
      reads := [ruleR w.a 2 .uniPair, uniUse (bitsOf c.toNat 19 16)], zero := s.zero || w.b != 0 }
  | .mxst w c =>
    let s := baseX true w.slot w.res c 0x181000C0#32
    let scl := bitOf c.toNat 25
    some { s with
      reads := [ruleR w.a 2 .uniPair] ++ (if scl then [ruleR w.b 2 .uniPair] else [])
               ++ [uniUse (bitsOf c.toNat 19 16)]
      zero := s.zero || (!scl && w.b != 0)
      long := true }
  | .mxz w c =>
    let s := baseX false w.slot w.res c 0x1FF000C0#32
    some { s with reads := [uniUse (bitsOf c.toNat 19 16)], zero := s.zero || w.a != 0 || w.b != 0 }
  | .ofence w c =>
    let s := baseX false w.slot w.res c 0x1FFFFFFF#32
    some { s with zero := s.zero || w.a != 0 || w.b != 0 }
  | .twany w =>
    some { baseS w with reads := [ruleR w.a 2 .pairOrZero], zero := w.d != 0, waiting := true, lanes := .elected }
  | .twall w =>
    some { baseS w with reads := [ruleR w.a 2 .pairOrZero], zero := w.d != 0, waiting := true, lanes := .elected }
  | .tffr w =>
    some { baseS w with
      reads := [ruleR w.a 2 .pairOrZero], write := some (srcR w.d), nwLegal := true, lanes := .sameOnce, lat := (0, 2) }
  | .tclr w => some { baseS w with reads := [ruleR w.a 2 .pairOrZero], zero := w.d != 0, lanes := .elected }
  | .ttest w =>
    some { baseS w with
      reads := [ruleR w.a 2 .pairOrZero], write := some (srcR w.d 2), nwLegal := true, lanes := .sameOnce, lat := (0, 2) }
  | .rput w c =>
    let s := baseX false w.slot w.res c 0x1E000000#32
    some { s with
      reads := [ruleR w.a 2 .uniPair, ruleR w.b 2 .uniPair, if bitOf c.toNat 20 then uniPairUse (pregOf c) else uniUse (pregOf c)]
      zero := s.zero || bitsOf c.toNat 19 18 == 3
      limit := pregOf c % 2 != 0 }
  | .rget w c =>
    let s := baseX false w.slot w.res c 0x1E130000#32
    some { s with
      reads := [ruleR w.a 2 .uniPair, ruleR w.b 2 .uniPair, uniUse (pregOf c)]
      zero := s.zero || bitsOf c.toNat 19 18 == 3
      limit := pregOf c % 2 != 0 }
  | .ratom w c =>
    let s := baseX false w.slot w.res c 0x00120000#32
    let cas := bitsOf c.toNat 28 25 == 12
    some { s with
      reads := [ruleR w.a 2 .uniPair, ruleR w.b 2 .uniPair, uniPairUse (pregOf c)]
               ++ (if cas then [uniPairUse (pregOf c + 2)] else [])
      zero := s.zero || bitsOf c.toNat 19 18 == 3
      limit := pregOf c % 4 != 0 || !ratomAop (bitsOf c.toNat 28 25) }
  | .npost w c =>
    let s := baseX false w.slot w.res c 0x1FFF003F#32
    some { s with reads := [ruleR w.a 1 .uniAny], zero := s.zero || w.b != 0 }
  | .nflush w c =>
    let s := baseX false w.slot w.res c 0x1FFFFC00#32
    some { s with
      reads := [ruleR w.a 1 .uniAny], zero := s.zero || w.b != 0 || decide (bitsOf c.toNat 9 6 > 10) }
  | .lgrid w c =>
    let s := baseX false w.slot w.res c 0x1E1FFFFF#32
    some { s with
      reads := [ruleR w.a 2 .uniPair, ruleR w.b 1 .uniAny]
      write := some (uniPairUse (pregOf c))
      limit := pregOf c % 2 != 0, long := true }
  | .etrig w c =>
    let s := baseX false w.slot w.res c 0x1FFFFFFF#32
    some { s with zero := s.zero || w.a != 0 || w.b != 0 }
  | .dist w c =>
    let s := baseX false w.slot w.res c 0x1E1FFFFF#32
    some { s with
      reads := [ruleR w.a 1 .uniAny], write := some (uniPairUse (pregOf c)), zero := s.zero || w.b != 0
      limit := pregOf c % 2 != 0, long := true }
  | .bar w =>
    some { baseS w with reads := [srcR w.a], limit := decide (w.d.toNat ≥ 32), waiting := true, lanes := .elected }
  | .bara w => some { baseS w with reads := [srcR w.a], limit := decide (w.d.toNat ≥ 32), lanes := .elected }
  | .barw w =>
    some { baseS w with zero := w.a != 0, limit := decide (w.d.toNat ≥ 32), waiting := true, lanes := .perLane }
  | .fbar w => some { baseS w with reads := [srcR w.a], limit := decide (w.d.toNat ≥ 32), lanes := .elected }
  | .cwait w => some { baseS w with reads := [srcR w.a, srcR w.d], waiting := true, lanes := .elected }
  | .trap w => some { baseS w with reads := [srcR w.a], zero := w.d != 0, lanes := .elected }
  | .yield w => some { baseS w with zero := w.d != 0 || w.a != 0, waiting := true, lanes := .elected }
  | .time w => some { baseS w with write := some (srcR w.d 2), zero := w.a != 0, nwLegal := true, lat := (1, 10) }
  | .sleep w => some { baseS w with reads := [srcR w.a], zero := w.d != 0, waiting := true, lanes := .elected }
  | .bkpt w => some { baseS w with zero := w.d != 0 || w.a != 0, lanes := .elected }
  | _ => none

/-- A main register v, an operand register o or a uniform register s (R108). -/
def isVOS (n : Nat) : Bool := decide (n < 80) || (decide (96 ≤ n) && decide (n < 112))
/-- A slice queue name, 88 to 94 (R108). -/
def isQueueName (n : Nat) : Bool := decide (88 ≤ n) && decide (n ≤ 94)
/-- A latch name, 80 to 87. -/
def isLatchName (n : Nat) : Bool := decide (80 ≤ n) && decide (n ≤ 87)
/-- A reserved register name: 95 and 123 to 126. -/
def isReservedName (n : Nat) : Bool := n == 95 || (decide (123 ≤ n) && decide (n ≤ 126))
/-- The uniform names of R108 other than latches: s0 to s15 and the uniform specials. -/
def isUniformName (n : Nat) : Bool :=
  (decide (96 ≤ n) && decide (n < 112)) || n == 112 || (decide (114 ≤ n) && decide (n ≤ 120)) || n == 122 || n == 127

/-- Whether a register operand breaks the rule of its width: reason 0x27. -/
def wideBad (u : RegUse) (isRead : Bool) : Bool :=
  let al := isVOS u.name && u.name % u.words == 0
  match u.rule with
  | .uniPair => !(decide (96 ≤ u.name) && decide (u.name ≤ 110) && u.name % 2 == 0)
  | .uniAny => !(decide (96 ≤ u.name) && decide (u.name ≤ 111))
  | .address => !(al || u.name == 112 || u.name == 119 || u.name == 120)
  | .pairOrZero => !(al || u.name == 112)
  | .general =>
    if u.words = 1 then false
    else if u.data && isQueueName u.name then false
    else if u.words = 4 then !al
    else if u.name == 127 then false
    else if isRead && (isLatchName u.name || u.name == 112 || u.name == 119 || u.name == 120) then false
    else !al

/-- Every reason of R116 that the words of an instruction alone decide, for an instruction that is decoded. -/
def staticReasons (i : Instr) : List Nat :=
  match shape i with
  | none => []
  | some h =>
    let regs := h.reads ++ (if h.nw then [] else h.write.toList)
    (if h.zero || (match h.queue with | some q => !(isQueueName q || q == 95) | none => false) then [0x23] else [])
    ++ (if regs.any (fun u => isReservedName u.name) || h.preds.any (fun p => decide (p > 23))
          || h.masks.any (fun k => decide (k > 11)) || h.queue == some 95 then [0x24] else [])
    ++ (if !h.nw && (match h.write with
          | some u => isLatchName u.name || (decide (112 ≤ u.name) && u.name != 127)
          | none => false) then [0x25] else [])
    ++ (if h.nw && (!h.nwLegal || h.dField / 8 != 0) then [0x26] else [])
    ++ (if h.reads.any (fun u => wideBad u true)
          || (!h.nw && (match h.write with | some u => wideBad u false | none => false)) then [0x27] else [])
    ++ (if h.limit then [0x28] else [])
    ++ (if h.gsel == 0 && h.gn then [0x2A] else [])

/-- The least of a list of reason codes (R117). -/
def leastReason : List Nat → Option Nat
  | [] => none
  | r :: rs =>
    match leastReason rs with
    | none => some r
    | some s => some (if r ≤ s then r else s)

end Sys2Proof.Machine
end

