-- ==== Sys2Proof/Config.lean ====
section
/-! DEFINITION. What the specification leaves to the implementation, as constants without a body, and the sizes it fixes. Nothing can
prove a value of an opaque constant here: a statement that holds of this model holds whatever they are. -/

namespace Sys2Proof

/-- A choice that timing or the implementation makes among the values the spec allows: used modulo the number of allowed values
(R57 undefined latch reads, R107 old or new code words, R218 old or new translations). Indexed by State.free. -/
opaque Config.choice : Nat → Nat

/-- Which value within the bound of R176 a special function returns: a fixed function of the function's code and the input. -/
opaque Config.specialChoice : Nat → W32 → Nat

/-- The compressed plaintext of a sector, padded to 28 bytes, if it fits them: the method is not architectural (R220). -/
opaque Config.compress : BitVec 256 → Option (BitVec 224)

/-- What the method gives back for 28 bytes. -/
opaque Config.decompress : BitVec 224 → BitVec 256

/-- ML-KEM-768 decapsulation by the module's Shepherd (R352): the 32 bytes of the shared secret, or none when it fails. Arguments: the
module's serial identity, the boot whose key pair it is (R448) and KEMCT. The private key is the Shepherd's random one. -/
opaque Config.decapsulate : Nat → Nat → List Byte → Option (List Byte)

/-- The random key pair the Shepherd generates for key entry 0 at a cold reset (R351). -/
opaque Config.bootKey : Nat → BitVec 512

/-- The ML-KEM-768 public key of a module's boot (R352, R450): serial identity and boot. -/
opaque Config.kemPublic : Nat → Nat → List Byte

/-- The public half of a module's identity key and Nguvos's certificate over it (R450). -/
opaque Config.identityKey : Nat → List Byte × List Byte

/-- The measurements MEAS0 to MEAS3 that a reticle's cold reset produces (R449): what runs in its Shepherd is outside the spec. -/
opaque Config.bootMeasurement : Nat → Nat → BitVec 256

/-- The ML-DSA-44 signature of the module identity key over a byte list (R450, R356). -/
opaque Config.signature : Nat → List Byte → List Byte

/-- The serial identity of a module as manufactured (R356). -/
opaque Config.serial : Nat → Nat

/-- A published load sample of a link, plane or reticle at a sampling instant, 0 to 16 (R430): the load is timing. -/
opaque Config.load : Nat → Nat → Nat

/-- Where a ring's heater stands when its lock loop has settled (R355, R435). -/
opaque Config.heaterCode : Nat → Nat → Nat

/-- A byte that an Ultra Ethernet peer outside the pod returns to a READ or an ATOMIC (R442). -/
opaque Config.peerByte : Nat → Nat → Byte

/-- Threads a port can hold (R47). -/
def Config.portThreads : Nat := 2048
/-- Operand file bytes of a core (R47). -/
def Config.operandFile : Nat := 131072
/-- Main register file bytes of a core (R47). -/
def Config.mainFile : Nat := 393216
/-- Bytes of a core's scratchpad (R204). -/
def Config.spadBytes : Nat := 1048576
/-- Words of a core's accumulator bank (R267). -/
def Config.bankWords : Nat := 32768
/-- Physical folds of a reticle (R12, R137). -/
def Config.folds : Nat := 34

end Sys2Proof
end

