-- ==== Sys2Proof/Machine/Crypto.lean ====
section
/-! DEFINITION. The algorithms that the spec names by their standards: AES-256 (FIPS 197) with XTS and ciphertext stealing (IEEE 1619), by which
the memory controller encrypts a sector (spec/09 R219, R220), AES key wrap (NIST SP 800-38F, KW) and SHA3-256 (FIPS 202) (15 R352; 18 R449,
R450). -/

namespace Sys2Proof.Machine

open Sys2Proof

/-! ### The field of AES -/

/-- x times a field element. -/
def xtime (a : Byte) : Byte := (a <<< 1) ^^^ (if a.msb then 0x1B else 0)

/-- A product in the field. -/
def gmul (a b : Byte) : Byte :=
  ((upFrom 0 8).foldl (fun (p : Byte × Byte) i => (if b.getLsbD i then p.1 ^^^ p.2 else p.1, xtime p.2)) (0, a)).1

/-- The inverse of a field element, 0 for 0: its power 254. -/
def ginv (a : Byte) : Byte :=
  ((upFrom 0 7).foldl (fun (p : Byte × Byte) _ => let q := gmul p.2 p.2; (gmul p.1 q, q)) (1, a)).1

/-- SubBytes of a byte. -/
def sboxOf (a : Byte) : Byte :=
  let b := ginv a
  b ^^^ b.rotateLeft 1 ^^^ b.rotateLeft 2 ^^^ b.rotateLeft 3 ^^^ b.rotateLeft 4 ^^^ 0x63

/-- InvSubBytes of a byte. -/
def unsboxOf (a : Byte) : Byte := ginv (a.rotateLeft 1 ^^^ a.rotateLeft 3 ^^^ a.rotateLeft 6 ^^^ 0x05)

/-! ### AES-256 -/

/-- Two byte lists, byte by byte. -/
def xorBytes (a b : List Byte) : List Byte := (a.zip b).map (fun p => p.1 ^^^ p.2)

/-- The key expansion: the next word from the words so far and the round constant. -/
def nextWord (ws : List (List Byte)) (rcon : Byte) : List Byte × Byte :=
  let i := ws.length
  let last := nthD [] ws (i - 1)
  let back := nthD [] ws (i - 8)
  if i % 8 = 0 then
    (xorBytes back (xorBytes ((last.drop 1 ++ last.take 1).map sboxOf) [rcon, 0, 0, 0]), xtime rcon)
  else if i % 8 = 4 then (xorBytes back (last.map sboxOf), rcon)
  else (xorBytes back last, rcon)

/-- The 15 round keys of a 32-byte key. -/
def roundKeys (key : List Byte) : List (List Byte) :=
  let start := (upFrom 0 8).map (fun i => (key.drop (4 * i)).take 4)
  let ws := ((upFrom 0 52).foldl (fun (p : List (List Byte) × Byte) _ =>
    let w := nextWord p.1 p.2
    (p.1 ++ [w.1], w.2)) (start, 1)).1
  (upFrom 0 15).map (fun r => ((ws.drop (4 * r)).take 4).flatten)

/-- ShiftRows, by k columns of row 1. -/
def shiftRows (k : Nat) (b : List Byte) : List Byte := (upFrom 0 16).map (fun i => nthD 0 b ((i + 4 * k * (i % 4)) % 16))

/-- A column times a circulant matrix. -/
def mixColumn (m : List Byte) (c : List Byte) : List Byte :=
  (upFrom 0 4).map (fun r => (upFrom 0 4).foldl (fun a i => a ^^^ gmul (nthD 0 c i) (nthD 0 m ((i + 4 - r) % 4))) 0)

/-- MixColumns with the first row of its matrix. -/
def mixColumns (m b : List Byte) : List Byte := (upFrom 0 4).flatMap (fun c => mixColumn m ((b.drop (4 * c)).take 4))

/-- AES-256 of a block of 16 bytes. -/
def aesEncrypt (key b : List Byte) : List Byte :=
  let ks := roundKeys key
  let sub := fun (x : List Byte) => shiftRows 1 (x.map sboxOf)
  let x := (upFrom 1 13).foldl (fun x r => xorBytes (mixColumns [2, 3, 1, 1] (sub x)) (nthD [] ks r)) (xorBytes b (nthD [] ks 0))
  xorBytes (sub x) (nthD [] ks 14)

/-- The inverse of AES-256. -/
def aesDecrypt (key b : List Byte) : List Byte :=
  let ks := roundKeys key
  let unsub := fun (x : List Byte) => (shiftRows 3 x).map unsboxOf
  let x := (upFrom 1 13).foldl (fun x r => mixColumns [14, 11, 13, 9] (xorBytes (unsub x) (nthD [] ks (14 - r)))) (xorBytes b (nthD [] ks 14))
  xorBytes (unsub x) (nthD [] ks 0)

/-! ### XTS (R219, R220) -/

/-- The tweak of block j of a data unit: the encrypted unit number times x to the j. -/
def xtsTweak (key2 : List Byte) (unit j : Nat) : List Byte :=
  let t := ofBytesLE (aesEncrypt key2 (bytesLE 16 unit))
  bytesLE 16 ((upFrom 0 j).foldl (fun v _ => (2 * v % 2 ^ 128) ^^^ (if v ≥ 2 ^ 127 then 0x87 else 0)) t)

/-- One block under a tweak. -/
def xtsBlock (aes : List Byte → List Byte) (tweak b : List Byte) : List Byte := xorBytes (aes (xorBytes b tweak)) tweak

/-- A data unit of 16 to 32 bytes: encryption. The last block, when it is not whole, steals from the one before it. -/
def xtsEncrypt (key : BitVec 512) (unit : Nat) (bs : List Byte) : List Byte :=
  let k := bytesLE 64 key.toNat
  let e := xtsBlock (aesEncrypt (k.take 32))
  let t := fun (j : Nat) => xtsTweak (k.drop 32) unit j
  let c := e (t 0) (bs.take 16)
  let rest := bs.drop 16
  if rest.length = 0 then c
  else if rest.length = 16 then c ++ e (t 1) rest
  else e (t 1) (rest ++ c.drop rest.length) ++ c.take rest.length

/-- A data unit of 16 to 32 bytes: decryption. -/
def xtsDecrypt (key : BitVec 512) (unit : Nat) (bs : List Byte) : List Byte :=
  let k := bytesLE 64 key.toNat
  let d := xtsBlock (aesDecrypt (k.take 32))
  let t := fun (j : Nat) => xtsTweak (k.drop 32) unit j
  let rest := bs.drop 16
  if rest.length = 0 then d (t 0) bs
  else if rest.length = 16 then d (t 0) (bs.take 16) ++ d (t 1) rest
  else
    let p := d (t 1) (bs.take 16)
    d (t 0) (rest ++ p.drop rest.length) ++ p.take rest.length

/-- What a reader under one key sees of a sector stored under another (R219, R220): the stored data unit, of the 28 bytes that the compressed
plaintext fits or else of all 32, decrypted. The method of compression is not architectural. -/
def crossRead (writer reader : BitVec 512) (unit : Nat) (plain : BitVec 256) : BitVec 256 :=
  let seen := fun (bs : List Byte) => ofBytesLE (xtsDecrypt reader unit (xtsEncrypt writer unit bs))
  match Config.compress plain with
  | some z => Config.decompress (BitVec.ofNat 224 (seen (bytesLE 28 z.toNat)))
  | none => BitVec.ofNat 256 (seen (bytesLE 32 plain.toNat))

/-! ### AES key wrap (R352) -/

/-- A number as big-endian bytes. -/
def bytesBE (n x : Nat) : List Byte := (bytesLE n x).reverse

/-- Step t of unwrapping n registers of 8 bytes: the integrity register and the others. -/
def unwrapStep (key : List Byte) (n t : Nat) (a : List Byte) (rs : List (List Byte)) : List Byte × List (List Byte) :=
  let i := (t - 1) % n
  let b := aesDecrypt key (xorBytes a (bytesBE 8 t) ++ nthD [] rs i)
  (b.take 8, setNth rs i (b.drop 8))

/-- The inverse of AES key wrap: none when the integrity check fails. -/
def keyUnwrap (key bs : List Byte) : Option (List Byte) :=
  let n := bs.length / 8 - 1
  let start := (bs.take 8, (upFrom 0 n).map (fun i => (bs.drop (8 + 8 * i)).take 8))
  let r := (upFrom 0 (6 * n)).foldl (fun (p : List Byte × List (List Byte)) k => unwrapStep key n (6 * n - k) p.1 p.2) start
  if r.1 = List.replicate 8 0xA6 then some r.2.flatten else none

/-! ### SHA3-256 (R352, R449, R450) -/

/-- Lane (x, y) of a Keccak state. -/
def lane5 (a : List W64) (x y : Nat) : W64 := nthD 0 a (x % 5 + 5 * (y % 5))

/-- A Keccak state by its lanes. -/
def lanes5 (f : Nat → Nat → W64) : List W64 := (upFrom 0 25).map (fun i => f (i % 5) (i / 5))

/-- The rotation of each lane in rho. -/
def rhoOffsets : List Nat :=
  [0, 1, 62, 28, 27, 36, 44, 6, 55, 20, 3, 10, 43, 25, 39, 41, 45, 15, 21, 8, 18, 2, 61, 56, 14]

/-- The constants of iota. -/
def iotaConstants : List W64 :=
  [0x0000000000000001, 0x0000000000008082, 0x800000000000808A, 0x8000000080008000, 0x000000000000808B, 0x0000000080000001,
   0x8000000080008081, 0x8000000000008009, 0x000000000000008A, 0x0000000000000088, 0x0000000080008009, 0x000000008000000A,
   0x000000008000808B, 0x800000000000008B, 0x8000000000008089, 0x8000000000008003, 0x8000000000008002, 0x8000000000000080,
   0x000000000000800A, 0x800000008000000A, 0x8000000080008081, 0x8000000000008080, 0x0000000080000001, 0x8000000080008008]

/-- One round of Keccak-f[1600]. -/
def keccakRound (a : List W64) (rc : W64) : List W64 :=
  let c := (upFrom 0 5).map (fun x => lane5 a x 0 ^^^ lane5 a x 1 ^^^ lane5 a x 2 ^^^ lane5 a x 3 ^^^ lane5 a x 4)
  let d := fun (x : Nat) => nthD 0 c ((x + 4) % 5) ^^^ (nthD 0 c ((x + 1) % 5)).rotateLeft 1
  let r := lanes5 (fun x y => (lane5 a x y ^^^ d x).rotateLeft (nthD 0 rhoOffsets (x + 5 * y)))
  let b := lanes5 (fun x y => lane5 r (x + 3 * y) x)
  let e := lanes5 (fun x y => lane5 b x y ^^^ (~~~lane5 b (x + 1) y &&& lane5 b (x + 2) y))
  setNth e 0 (nthD 0 e 0 ^^^ rc)

/-- Absorb a block of 136 bytes. -/
def absorb (a : List W64) (b : List Byte) : List W64 :=
  let x := (upFrom 0 25).map (fun i => nthD 0 a i ^^^ BitVec.ofNat 64 (ofBytesLE ((b.drop (8 * i)).take 8)))
  iotaConstants.foldl keccakRound x

/-- Some bytes as blocks of 136, padded. -/
def sha3Blocks : Nat → List Byte → List (List Byte)
  | 0, _ => []
  | n + 1, bs =>
    if bs.length < 136 then
      let p := bs ++ [0x06] ++ List.replicate (135 - bs.length) 0
      [setNth p 135 (nthD 0 p 135 ||| 0x80)]
    else bs.take 136 :: sha3Blocks n (bs.drop 136)

/-- SHA3-256 as a number whose little-endian bytes are the digest. -/
def sha3 (bs : List Byte) : BitVec 256 :=
  let a := (sha3Blocks (bs.length / 136 + 1) bs).foldl absorb (List.replicate 25 0)
  BitVec.ofNat 256 (ofBytesLE ((a.take 4).flatMap (fun l => bytesLE 8 l.toNat)))

end Sys2Proof.Machine
end

