-- ==== Sys2Proof/Machine/State.lean ====
section
/-! DEFINITION. The state of the machine as plain data, everything the spec gives it (INVENTORY.md, State), and its value after reset. -/

namespace Sys2Proof.Machine

open Sys2Proof

/-- Why a step stops. It has no constructor: every cause of spec/17 R403 is taken (the group halts, records are written), which is a
next state, and no instruction or step of this machine ends in a fault (safe: nothing is assumed about a stopped machine). -/
inductive Fault where
deriving DecidableEq, Repr

/-- Why an instruction has no meaning. -/
inductive Refusal where
  /-- Raised by exec alone, for a row of the opcode table whose meaning is not written yet (safe: the run stops). -/
  | notModelled (mnemonic : String)
deriving DecidableEq, Repr

/-- Fault causes and notices (R403). -/
inductive Cause where
  | illegalInstruction | runFormat | privilege | queueDirection | decoupleDeadlock | runaheadFault | translation | permission
  | alignment | scratchBounds | illegalShape | poisonRead | uncorrectable | sdcDetected | fpException | barrierLost | remoteError
  | watermarkStall | coreLost | trap | breakpoint | laneFused | foldMoved | siteRetired | stagedRetry
deriving DecidableEq, Repr

/-- Group states (R398). -/
inductive Phase where
  | running | halting | quiesced | lost
deriving DecidableEq, Repr

/-- What a thread waits for between runs. -/
inductive Wait where
  /-- Not waiting. -/
  | none
  /-- Held at a meeting label (R192). -/
  | held
  /-- In WAITM on a mask (R195). -/
  | waitm (k : Nat)
  /-- In BAR on a slot (R382). -/
  | bar (slot : Nat)
  /-- In BARW on a slot (R382). -/
  | barw (slot : Nat)
  /-- In TWANY (all false) or TWALL (all true) on a tag set (R392). -/
  | tags (all : Bool) (mask : W64)
  /-- In WAITA: its read of the location is on its way (R262 step 1). -/
  | waitaRead (op : Nat)
  /-- In WAITA: watching a unit, since a tick (R262 step 3). -/
  | waita (since base : Nat)
  /-- In CWAIT with its selector and threshold (R389). -/
  | cwait (sel thr : W32)
  /-- In SLEEP until a fabric time (R343). -/
  | sleep (target : Nat)
  /-- At a listed YIELD with the request raised (R341), with OMASK and MMASK of its live mask record (R363). -/
  | yield (omask mmask : Nat)
deriving DecidableEq, Repr

/-- One thread of one slice (R123). Register maps list written registers; an unlisted register is zero. -/
structure Thread where
  pc : W64
  mr : W64
  wb : Nat
  main : SMap W32
  opnd : SMap W32
  latch : SMap W64
  latchUni : NSet
  pred : BitVec 24
  mainPoison : NSet
  opndPoison : NSet
  /-- Awaited long-latency results: register code (main n is n, operand n is 256 + n) and the operation in flight (R58). -/
  pending : List (Nat × Nat)
  /-- Position in the run whose header is at pc, or at the header (R62). -/
  pos : Option Nat
  /-- The header after the run a waiting thread waits in. -/
  nextPc : W64
  wait : Wait
  exited : Bool
  /-- Arrival records with VALID set: logical slot and generation (R379). -/
  arr : SMap W32
  lastIssue : Nat
  splitRank : Nat
  /-- It has executed the instruction at pos, whose other passes are still to do (R145, R411). -/
  passDone : Bool
deriving DecidableEq, Repr

/-- A fence not yet complete (R261): its scope, and the operations it waits for. -/
structure Fence where
  scope : Nat
  ops : List Nat
  acquire : Bool
deriving DecidableEq, Repr

/-- The registers of one slice-warp (R123, R133). -/
structure SliceWarp where
  masks : SMap W64
  uni : SMap W32
  uniPoison : NSet
  uniPending : List (Nat × Nat)
  fpflags : BitVec 5
  fpen : BitVec 5
  frm : BitVec 2
  unack : Nat
  /-- In the active set of its port (R63); else pending since a tick, and ready since a tick (R64). -/
  active : Bool
  pendSince : Nat
  readySince : Option Nat
  lastIssue : Nat
  fence : Option Fence
  /-- Operations that a release or an acquire of this slice-warp waits for: what it issues from now on is not performed before they have
  returned (R232, R233). -/
  order : List Nat
  /-- Decoupling counters that its wait advances, and the tick up to which they have counted (R302). -/
  counting : List Nat
  countedTo : Nat
  /-- Values written to each latch by this slice-warp, the bound of R57 on an undefined latch read. -/
  latchHist : SMap (List W64)
deriving DecidableEq, Repr

/-- An entry of a slice queue (R295). -/
inductive QEntry where
  /-- PENDING: reserved by an operation in flight. -/
  | pending (op : Nat)
  /-- PENDING: a fixed-latency result, READY from a tick on (R296). -/
  | coming (v : W32) (at_ : Nat)
  | ready (v : W32)
  | faulted (cause : Cause) (addr pc : W64)
  | poisoned
deriving DecidableEq, Repr

/-- One slice queue of one lane (R294, R295). -/
structure Queue where
  entries : List QEntry
  closed : Bool
deriving DecidableEq, Repr

/-- A barrier slot of a group (R379). -/
structure Slot where
  phys : Nat
  expect : Nat
  count : Nat
  gen : W32
  arrived : W32
  kind : Nat
  fabric : Bool
  tree : Nat
  lost : Bool
deriving DecidableEq, Repr

/-- A launch record (R42). -/
structure Launch where
  code : Nat
  aentry : Nat
  xentry : Nat
  ngroups : Nat
  warps : Nat
  width : Nat
  aregs : Nat
  xregs : Nat
  spad : Nat
  bars : Nat
  slip : Nat
  flags : Nat
  argp : Nat
  region : Nat
  done : Nat
  slots : List W64
deriving DecidableEq, Repr

/-- How far a COPY has come (R324, R327). -/
structure CopyAt where
  /-- Descriptors done, and the CRCOUT of the last one. -/
  k : Nat
  prev : Nat
  /-- Source units read of the current descriptor, bytes of its DST written, and the CRC of them once it has begun. -/
  unit : Nat
  out : Nat
  crc : Option Nat
  /-- Flags of the conversions so far. -/
  fl : BitVec 5
  /-- Bytes converted and not yet written. -/
  rest : List Byte
  /-- The units of DST written: physical address, key id and bytes. -/
  put : List (Nat × Nat × List Byte)
  /-- The descriptor as it was read, and memory as it was then: a unit that is written while the engine works is read old or new (R241). -/
  begun : Option (List Byte × List Host.Cell)
deriving DecidableEq, Repr

/-- A COPY in a core's Sparge engine (R325, R327): its format slot and the address of its current descriptor. -/
structure CopyOp where
  op : Nat
  gid : Nat
  warp : Nat
  slice : Slice
  pc : W64
  tag : Nat
  slot : W64
  desc : Nat
  /-- Writes of the slice-warp that the engine waits for before it reads (R238, R459). -/
  after : List Nat
  done : CopyAt
deriving DecidableEq, Repr

/-- A group: what its placement and its grid give it, and the state it holds as a whole (R123, R133, R379, R398). -/
structure Group where
  m : Nat
  grid : Nat
  index : Nat
  region : Nat
  root : Nat
  launch : Launch
  core : Nat
  window : Nat
  spadOff : Nat
  phase : Phase
  tags : SMap Nat
  preq : Bool
  drain : Bool
  pdlcFrom : Option (Nat × Nat)
  slots : SMap Slot
  acc : NSet
  triggered : Bool
  /-- The tick of its placement. -/
  placedAt : Nat
  /-- A halt in progress: the primary cause, its record's SEQ and CORE, the slice-warp that took it, and whether precise (R399). -/
  halt : Option (Cause × Nat × Nat × Nat × Bool)
  recordVa : Nat
  recordOk : Bool
  haltPc : W64
  forced : Bool
  debug : Bool
  discard : Bool
  /-- The tick at which issue stopped for a save (R407). -/
  drainFrom : Option Nat
  /-- A withdrawn WRITE, with which the group resumes halted (R336): warp, slice, pc, address and detail of its record. -/
  resumeFault : Option (Nat × Nat × Nat × Nat × Nat)
  /-- COPY chains that the save stopped (R327). -/
  stopped : List CopyOp
  /-- The stores of the core that were in flight when its last thread ended, for which its exit waits (R232, R246). -/
  exitAfter : Option (List Nat)
deriving DecidableEq, Repr

/-- The run a port is issuing (R56, R60): its words as fetched, the threads still in it, and the position of the next instruction. -/
structure Run where
  gid : Nat
  warp : Nat
  slice : Slice
  lanes : BitVec 64
  addr : W64
  header : W32
  words : List W32
  pos : Nat
  trailers : List W32
  seq : Nat
  /-- Threads that left the run at a branch, for its trailers (R59). -/
  left : BitVec 64
  /-- Threads that have executed the instruction at pos before the run was resumed (R145, R411). -/
  skip : BitVec 64
  /-- Work-request queue entries reserved and not yet used (R330). -/
  reserved : List Nat
deriving DecidableEq, Repr

/-- A destination of an operation in flight. -/
inductive Dest where
  /-- Nothing is written (void, or a store). -/
  | drop
  /-- Consecutive registers of each lane from an absolute register code (R125). -/
  | regs
  /-- Uniform registers from s(n). -/
  | uni (n : Nat)
  /-- A slice queue, 88 to 94. -/
  | queue (q : Nat)
deriving DecidableEq, Repr

/-- One lane's part of a memory request: effective address, physical address, register code, data, comparand, result and error. -/
structure LaneReq where
  lane : Nat
  ea : W64
  pa : Nat
  reg : Nat
  data : W128
  cmp : W64
  res : Option W128
  /-- A cause found at the target, with the address and the detail of its record (R403). -/
  err : Option (Cause × W64 × Nat)
deriving DecidableEq, Repr

/-- Kinds of memory requests (R253). -/
inductive ReqKind where
  | load | store | atomic | czero | cwb | waita
deriving DecidableEq, Repr

/-- A memory request in flight (R252, R253): issued, and then performed at its home. -/
structure Flight where
  kind : ReqKind
  gid : Nat
  warp : Nat
  slice : Slice
  core : Nat
  pc : W64
  runSeq : Nat
  size : Nat
  words : Nat
  sx : Bool
  aop : Nat
  wide : Bool
  dest : Dest
  lanes : List LaneReq
  key : Nat
  /-- The request may be served from L1 and fills it (R213, R254). -/
  cached : Bool
  stream : Bool
  /-- The request goes to scratchpad by its 22-bit form and crosses no router (R208). -/
  spad : Bool
  m : Nat
  root : Nat
  region : Nat
  grid : Nat
  staged : Bool
  /-- Operations that must return before it is performed (R232, R233). -/
  after : List Nat
  /-- It has been performed at its home, or its error has been found there (R222, R252). -/
  performed : Bool
deriving DecidableEq, Repr

/-- A long-latency register result in flight: a division, a special function, LGRID or DIST (R58). -/
structure Long where
  /-- 0 division, 1 special function, 2 LGRID, 3 DIST. -/
  kind : Nat
  gid : Nat
  warp : Nat
  slice : Slice
  core : Nat
  runSeq : Nat
  dest : Dest
  vals : List (Nat × Nat × W128)
  words : Nat
  flags : BitVec 5
  ready : Bool
deriving DecidableEq, Repr

/-- A matrix operation in a core's queue (R282): what it captured at issue (R285). -/
structure MxOp where
  op : Nat
  sub : Nat
  gid : Nat
  warp : Nat
  slice : Slice
  runSeq : Nat
  pc : W64
  a0 : W32
  a1 : W32
  b0 : W32
  b1 : W32
  n : Nat
  ctl : W32
  slot : W64
  wbs : List Nat
  /-- Operations that must return before it moves data (R232, R233, R283). -/
  after : List Nat
  /-- The array has found a residue mismatch in it (R290). -/
  mismatch : Bool
deriving DecidableEq, Repr

/-- A line of the L1 data cache (R213), with the key id through which it was filled (R219). -/
structure L1Line where
  data : BitVec 1024
  stream : Bool
  key : Nat
deriving DecidableEq, Repr

/-- A translation held in a TLB (R218): module and root, virtual base, size and the leaf entry. -/
structure TlbEntry where
  root : Nat
  base : Nat
  size : Nat
  leaf : Nat
deriving DecidableEq, Repr

/-- An entry of a reticle's walk cache (R218): a non-leaf page table entry of a root region, its level and the address bits above it. -/
structure WalkEntry where
  root : Nat
  level : Nat
  prefix_ : Nat
  entry : Nat
deriving DecidableEq, Repr

/-- A page walk waiting or in progress (R218): the cores that wait for it. -/
structure Walk where
  cores : NSet
  m : Nat
  root : Nat
  va : Nat
deriving DecidableEq, Repr

/-- A physical core (R133, R136, R204, R395). -/
structure CoreSt where
  lmap : W32
  mxn : Bool
  wcode : Nat
  groups : NSet
  /-- The root whose groups it hosted last, by its uid (R41). -/
  owner : Option Nat
  lastGrid : Option Nat
  mxq : List MxOp
  copyq : List CopyOp
  portA : Option Run
  portX : Option Run
  issueNo : Nat
  counters : SMap W64
  seq : Nat
  dead : Bool
  missed : Nat
  bank : SMap W32
  l1 : SMap L1Line
  l1i : SMap (BitVec 1024)
  /-- The L1 TLB, the entry last filled first (R218). -/
  tlb : List TlbEntry
  walkFaults : List (Nat × Nat × Cause)
  /-- A change of LMAP that waits until no group is resident (R67). -/
  lmapTo : Option W32
  /-- Lanes in whose next store or atomic the two members of a pair differ, as slice × 64 + lane (R143, R421). -/
  differ : NSet
  /-- The saved group whose image stands in the core's outgoing Cellar slot (R412). The incoming slot is empty between steps. -/
  cellarOut : Option Nat
deriving DecidableEq, Repr

/-- The states of a site (R18, R356), and no site: a reticle number that names none (R15, R16). -/
inductive Site where
  | inService | spare | dead | retired | none
deriving DecidableEq, Repr

/-- Cartridge states (R441). -/
inductive Cartridge where
  | absent | present | powered | active | quiescing | safe | failed
deriving DecidableEq, Repr

/-- A plane step (R316). -/
inductive PlaneStep where
  | stop (plane : Nat)
  | waitack (plane : Nat)
  /-- WAVE bytes and PORT records of the new assignment; both empty: the current port map (R436, R439). -/
  | retune (plane : Nat) (waves ports : List Nat)
  | waitlock (plane : Nat)
  | resume (plane : Nat)
  | down (plane : Nat)
deriving DecidableEq, Repr

/-- A work request (R312). -/
structure WorkReq where
  opc : Nat
  flags : Nat
  aop : Nat
  tag : Nat
  length : Nat
  laddr : Nat
  raddr : Nat
  target : Nat
  imm : Nat
  cctr : Nat
  landing : Nat
  operand : Nat
  compare : Nat
  cookie : Nat
deriving DecidableEq, Repr

/-- The route of a request (R429): over the mesh, by an own optical plane, or over the mesh to a reticle and its optical port. -/
inductive Route where
  | mesh
  | own (plane : Nat)
  /-- With the planes of the egress that lead there (EPLANES). -/
  | neighbour (egress planes : Nat)
deriving DecidableEq, Repr

/-- A posted work request and its issuer (R328, R333), from its entry in a queue to its end. -/
structure WorkOp where
  wr : WorkReq
  gid : Nat
  warp : Nat
  slice : Slice
  core : Nat
  m : Nat
  root : Nat
  region : Nat
  pc : W64
  queue : Nat
  ret : Nat
  /-- Stores of the slice-warp that the endpoint waits for before it reads the source (R238). -/
  after : List Nat
  /-- Bytes of the source that have left in packets, or bytes of a READ that have landed at LADDR (R224, R331). -/
  moved : Nat
  /-- Bytes read after those: of the packet being filled, or of a READ at its remote home (R224). -/
  taken : List Byte
  /-- The route of its first packet (R331). -/
  route : Option Route
  /-- All its packets have entered the fabric (R331). -/
  injected : Bool
  /-- Packets not yet placed. -/
  outstanding : Nat
  /-- Send completion (R332). -/
  sent : Bool
  /-- A cause found after issue, with the address and the detail of its record (R335). -/
  err : Option (Cause × Nat × Nat)
  /-- The old value of an ATOMIC that has been performed. -/
  old : Option W64
  /-- Its reply is discarded: the group was saved without it (R336). -/
  orphan : Bool
  /-- The order key's stamp and sequence of an ordered request (R369). -/
  stamp : Nat
  seq : Nat
deriving DecidableEq, Repr

/-- An NFLUSH waiting for earlier puts (R334). -/
structure FlushOp where
  gid : Nat
  warp : Nat
  slice : Slice
  tag : Nat
  covers : List Nat
  /-- A request that it covers ended in an error, and is never placed (R335). -/
  stuck : Bool
deriving DecidableEq, Repr

/-- What a packet on the fabric carries. -/
inductive Body where
  /-- Bytes of a WRITE for a physical address at the target, under a key id (R331). -/
  | put (op pa key : Nat) (data : List Byte)
  /-- A 64-bit ATOMIC at a physical address of the target (R328). -/
  | atomic (op pa key : Nat)
  /-- A failure notice for a reticle (R378). -/
  | failure (unit : Nat)
  /-- A barrier arrival for a tree and generation from an input port of the receiving router (R385). -/
  | fbarArrive (tree gen input : Nat)
  /-- A barrier release (R385). -/
  | fbarRelease (tree gen : Nat)
  /-- A barrier loss notice (R386). -/
  | lost (tree gen : Nat)
deriving DecidableEq, Repr

/-- A packet on the fabric (R331, R369): source and destination reticle identities, its order key when it is ordered, the reticle whose
router holds it, and its route. -/
structure Packet where
  src : Nat
  dst : Nat
  ordered : Bool
  stamp : Nat
  seq : Nat
  pos : Nat
  /-- It has passed from its source's endpoint into a router. -/
  moved : Bool
  route : Route
  /-- It has crossed its optical circuit. -/
  crossed : Bool
  /-- Bytes of a put that have been placed so far (R224). -/
  placed : Nat
  body : Body
deriving DecidableEq, Repr

/-- A fabric barrier tree entry of a router (R358). -/
structure Tree where
  up : Nat
  down : Nat
  rootreg : Nat
  scope : Nat
  expect : Nat
  count : Nat
  gen : Nat
  /-- Inputs that have already had this generation's release, with arrivals held for the next (R385). -/
  held : List Nat
  lost : Bool
deriving DecidableEq, Repr

/-- A link at a port (R427): the next flit sequence it sends, the next it expects, the flits sent and not acknowledged, and how many times
in a row the flit it expects has failed its CRC. -/
structure Link where
  nextSeq : Nat
  expectSeq : Nat
  replay : List Nat
  crcRow : Nat
  /-- Bits received since its error window opened (R357). -/
  bits : Nat
deriving DecidableEq, Repr

/-- A packet of an Ultra Ethernet peer session (R443). -/
structure UePkt where
  op : Nat
  /-- The work-request queue it came from. -/
  queue : Nat
  sends : Nat
  sentAt : Nat
  /-- The payload, as the retransmit store holds it (R332). -/
  data : List Byte
deriving DecidableEq, Repr

/-- The transport state toward one peer (R443). -/
structure UePeer where
  next : Nat
  out : SMap UePkt
  rate : Nat
  halvedAt : Option Nat
deriving DecidableEq, Repr

/-- What a cut-over changes (R375, R377, R428). -/
inductive CutKind where
  /-- The port leaves every input set, as the host asked (R377). -/
  | leave (port : Nat)
  /-- The port joins input sets again. -/
  | join (port : Nat)
  /-- The mesh tables of the module are rewritten around a port that went down (R428). -/
  | mesh
deriving DecidableEq, Repr

/-- A cut-over under way, with its stamp (R375). -/
structure Cut where
  stamp : Nat
  kind : CutKind
deriving DecidableEq, Repr

/-- A reticle (R133, R138 to R140, R353 to R359, R388, R441). -/
structure RetSt where
  site : Site
  plane : BitVec 8
  mesh : BitVec 8
  host : Bool
  tgen : BitVec 16
  wtOff : Int
  wmlim : W32
  threshold : Nat
  alarm : Bool
  hold : Bool
  belowSince : Option Nat
  /-- A correction being slewed into WTIME, and the tick at which it began (R367). -/
  slewBy : Int
  slewFrom : Nat
  ways : Nat
  cpartTo : Option Nat
  /-- The L2 TLB of each physical fold, the entry last filled first (R218). -/
  tlb2 : SMap (List TlbEntry)
  /-- Non-leaf entries that the walkers hold (R218). -/
  walkCache : List WalkEntry
  foldMap : SMap Nat
  spareFolds : NSet
  lastStamp : Nat
  lastSeq : Nat
  inWm : SMap Nat
  outWm : SMap Nat
  /-- The tick at which an output last sent a watermark (R373). -/
  sentAt : SMap Nat
  cutPorts : NSet
  cuts : List Cut
  ordBuf : List Nat
  trees : SMap Tree
  meshTab : SMap (BitVec 8)
  /-- The mesh table before its last cut-over, and the stamp of that (R375). -/
  meshOld : SMap (BitVec 8)
  meshTc : Nat
  modTab : SMap W32
  groupList : SMap (BitVec 16)
  policy : W32
  rings : SMap W32
  lockLostAt : SMap Nat
  /-- The tick at which a mesh port went down (R428). -/
  downAt : SMap Nat
  portMap : SMap Nat
  planeSteps : List PlaneStep
  /-- The steps of further planes, which the command processor queues when the plane under way is done (R316). -/
  planeNext : List (List PlaneStep)
  stepSince : Nat
  retransmits : List (Nat × Nat)
  endpoint : SMap W32
  wrq : SMap (List Nat)
  /-- The queue from which the endpoint took last (R311). -/
  wrqTurn : Nat
  ccnt : SMap W64
  peers : SMap (BitVec 256)
  ue : SMap UePeer
  links : SMap Link
  samples : SMap Nat
  cartridge : Cartridge
  cartSince : Nat
  missed : SMap Nat
  errWin : SMap (Nat × Nat)
  meas : SMap (BitVec 256)
  shSeq : Nat
  stalled : NSet
deriving DecidableEq, Repr

/-- A region control block (R346). -/
structure Rcb where
  parent : Nat
  depth : Nat
  prio : Nat
  flags : Nat
  inherit : Nat
  keyid : Nat
  ptroot : Nat
  winset : Nat
  wincount : Nat
  spadlim : Nat
  waylim : Nat
  barlim : Nat
  gmin : Nat
  deadline : Nat
  fpolicy : Nat
  frq : Nat
  handler : Nat
  modlo : Nat
  modhi : Nat
  netf : Nat
  cqtab : Nat
deriving DecidableEq, Repr

/-- A region node (R38) with its aging and its dispatch cursor (R51, R66). -/
structure Region where
  /-- MODEL: tells a root from a later one that takes its index (R41, log 8). -/
  uid : Nat
  rcb : Rcb
  raised : Nat
  waitSince : Option Nat
  cursor : Nat
  served : Nat
  /-- A pre-emption request in progress: the core and the groups selected (R65). -/
  request : Option (Nat × NSet)
deriving DecidableEq, Repr

/-- Who posted a command (R306). -/
inductive Poster where
  | host
  /-- A kernel of a region, by doorbell. -/
  | kernel (region : Nat)
  /-- An LGRID, with its result in flight. -/
  | lgrid (region op : Nat)
deriving DecidableEq, Repr

/-- A device command queue (R305, R306). -/
structure CmdQueue where
  qcb : Nat
  base : Nat
  log2n : Nat
  doorbell : Nat
  pidx : W32
  cidx : W32
  state : Nat
  posters : SMap Poster
  /-- The grid of the last LAUNCH of the queue, none when it was refused (R45). -/
  last : Option Nat
deriving DecidableEq, Repr

/-- Grid states (R44). -/
inductive GridState where
  | queued | waiting | dispatching | resident | finished
deriving DecidableEq, Repr

/-- A grid (R42 to R45, R339, R406, R418). -/
structure Grid where
  launch : Launch
  root : Nat
  queue : Option Nat
  pred : Option Nat
  post : Nat
  state : GridState
  status : Nat
  placed : Nat
  ended : Nat
  triggered : NSet
  gone : NSet
  dist : W64
  retries : Nat
  /-- The redo log: by physical address, the key id and the byte (R418). -/
  log : SMap (Nat × Byte)
  /-- The halted group and its primary record's address, for a handler grid (R406). -/
  handlerFor : Option (Nat × Nat)
deriving DecidableEq, Repr

/-- A reticle record of a wavelength assignment (R437): WAVE bytes, PORT records, and module numbers with their new entries. -/
structure TopoRec where
  ret : Nat
  plane : Nat
  waves : List Nat
  ports : List Nat
  entries : List (Nat × Nat)
deriving DecidableEq, Repr

/-- A command read and not finished (R308). -/
structure Cmd where
  root : Nat
  queue : Nat
  idx : Nat
  code : Nat
  cpl : Nat
  arg : Nat
  arg2 : Nat
  arg3 : Nat
  /-- Its place in the order in which commands were read. -/
  seq : Nat
  who : Poster
  /-- The reticle records of a TOPO (R437). -/
  recs : List TopoRec
  /-- Planes of a TOPO or DRAIN still to do, the first of them under way (R438, R439), or the groups that a CKPT waits for (R422). -/
  todo : List Nat
  /-- A WAITLOCK of a TOPO ended in DOWN (R316). -/
  failed : Bool
deriving DecidableEq, Repr

/-- The Identity Table as manufactured (R32, R356): site states, physical folds of named folds, maps of spare folds and lane maps, where they
differ from the usual (log 7), by reticle number, number × 32 + fold, number, and number × 256 + fold × 4 + member; and the serial identity. -/
structure Identity where
  sites : SMap Site
  folds : SMap Nat
  spares : SMap Nat
  lmap : SMap W32
  serial : Option Nat
deriving DecidableEq, Repr

/-- An amendment record (R33, R356). -/
structure Amendment where
  stamp : Nat
  seq : Nat
  kind : Nat
  ret : Nat
  fold : Nat
  member : Nat
  arg : Nat
deriving DecidableEq, Repr

/-- An Error Policy entry (R357). -/
structure Policy where
  kind : Nat
  action : Nat
  count : Nat
  window : Nat
deriving DecidableEq, Repr

/-- The image of a saved group (R410, R411). -/
structure Image where
  group : Group
  sws : SMap SliceWarp
  threads : SMap Thread
  queues : SMap Queue
  spad : List Byte
  /-- Offsets of poisoned words of the scratchpad range. -/
  spadPoison : NSet
  bank : SMap W32
  copies : List CopyOp
  forced : Bool
  halted : Bool
  debug : Bool
  key : Nat
  /-- The key under which the image store holds it; none while it stands in the Cellar, in plaintext (R219, R412). -/
  keyBits : Option (BitVec 512)
  member : Nat
  stamp : Nat
  /-- The reticle whose image store or Cellar holds it. -/
  ret : Nat
deriving DecidableEq, Repr

/-- What a time synchronisation of the module keeps (R367, R368). -/
structure Sync where
  role : Nat
  reference : Nat
  period : Nat
  missed : Nat
  done : Bool
  /-- The tick of the last exchange, made or missed (R367). -/
  last : Nat
deriving DecidableEq, Repr

/-- A compute module (R30, R133, R344). -/
structure ModSt where
  modid : Nat
  booted : Bool
  boots : Nat
  skewb : W32
  identity : Identity
  amendments : List Amendment
  /-- MODEL: which sites fail a stage of bring-up at which boot, an input: boot × 128 + reticle number (R32, R448, log 7). -/
  stageFails : NSet
  activeCp : Nat
  hostUp : Bool
  regions : SMap Region
  /-- MODEL: where the search for a free region index begins (log 8). -/
  nextRegion : Nat
  /-- Roots that the host is destroying (R40). -/
  dying : NSet
  queues : SMap CmdQueue
  doorbells : SMap W32
  grids : SMap Grid
  nextHandle : Nat
  cmds : List Cmd
  /-- The root, and in each root the queue, from which the command processor took last (R308). -/
  rootTurn : Nat
  queueTurn : SMap Nat
  turn : Nat
  keys : SMap (BitVec 512)
  kemUsed : List (List Byte)
  policyTab : SMap Policy
  sync : Sync
  handlers : SMap Nat
  waitingHalts : List Nat
  attached : NSet
  saved : SMap Image
deriving DecidableEq, Repr

/-- A watch on a watch unit (R262, R263): where the unit lies, and who waits. -/
structure Watch where
  home : Nat
  base : Nat
  size : Nat
  sw : Nat
  device : Bool
deriving DecidableEq, Repr

/-- What the device has told the host (13 R309, 17 R402, 18 R447, R448) and its Ultra Ethernet peers (R445). -/
inductive HostMsg where
  /-- A fault record or notice. -/
  | record (bytes : List Byte)
  /-- The status of a request. -/
  | status (code : Nat)
  /-- The data of a request. -/
  | data (bytes : List Byte)
  /-- A queue stopped or overrun: root, queue, state (R306). -/
  | queueRecord (root queue state : Nat)
  /-- The answer to an Ultra Ethernet peer's request, to that peer (R445). -/
  | peer (ret peer : Nat) (ok : Bool) (bytes : List Byte)
deriving DecidableEq, Repr

/-- The port of a core that the model's default move advances. -/
structure Port where
  core : Nat
  slice : Slice
deriving DecidableEq, Repr

/-- An engine moves one aligned 16-byte unit of an operation under way, the most that an engine's access moves at once (R224, R241). -/
inductive UnitMove where
  /-- The Sparge engine of a core, for the COPY at its head. -/
  | copy (core : Nat)
  /-- The endpoint reads a unit of the source of a work request. -/
  | source (op : Nat)
  /-- The endpoint places a unit of a packet that has arrived. -/
  | place (pkt : Nat)
  /-- The endpoint lands a unit of a READ that has returned. -/
  | land (op : Nat)
deriving DecidableEq, Repr

/-- What an error of the hardware does, when the rules say what follows it. -/
inductive Upset where
  /-- A single-bit error in DRAM, corrected and counted under KIND 0 (R221, R357). -/
  | dramCorrected (ret object : Nat)
  /-- A single-bit error in an SRAM, corrected and counted under KIND 3 (R215, R357). -/
  | sramCorrected (ret object : Nat)
  /-- An uncorrectable error at a physical address: its unit is poisoned (R215, R221). -/
  | uncorrectable (pa : Nat)
  /-- A parity error, or an eviction, takes a line out of a core's L1 data cache (R213). -/
  | l1Line (core line : Nat)
  /-- The same in a core's L1 instruction cache (R214). -/
  | codeLine (core line : Nat)
  /-- A clean or written-back line leaves a last-level cache (R215). -/
  | llcLine (line : Nat)
  /-- A translation leaves the TLB of a core (R218). -/
  | tlbEntry (core index : Nat)
  /-- The residue code of a core's array does not match in the operation in progress (R290). -/
  | residue (core : Nat)
  /-- The two members of a lane's pair differ in the next store or atomic (R143, R421). -/
  | pair (core : Nat) (slice : Slice) (lane : Nat)
deriving DecidableEq, Repr

/-- One move of the agenda: cycles pass, a port issues its next instruction, a step of the machine happens, an engine moves a unit, an error
of the hardware happens, or the host reads a register or a table entry (log 1). -/
inductive Move where
  | idle (cycles : Nat)
  | port (p : Port)
  | event (i : Instr)
  | unit (u : UnitMove)
  | upset (u : Upset)
  | hostRead (ret reg : Nat)
deriving DecidableEq, Repr

/-- The state of the pod. Cores, reticles and modules that are not listed stand as at reset. -/
structure State where
  /-- MODEL: which move comes next (log 1). -/
  agenda : List Move
  /-- MODEL: the port that moves when the agenda is empty (log 1). -/
  focus : Port
  /-- MODEL: the index of the next free value (log 4). -/
  free : Nat
  /-- MODEL: names operations in flight, groups, runs and packets (log 1). -/
  nextId : Nat
  /-- MODEL: ticks since cold reset (log 3). -/
  ticks : Nat
  mem : List Host.Cell
  poison : NSet
  sectorKey : SMap (BitVec 512)
  overflow : SMap Nat
  rawFrames : NSet
  llc : SMap Bool
  cores : SMap CoreSt
  rets : SMap RetSt
  mods : SMap ModSt
  groups : SMap Group
  sws : SMap SliceWarp
  threads : SMap Thread
  queues : SMap Queue
  /-- The deadlock counter of a warp pair, and the tick from which it is running (R301). -/
  deadlock : SMap (Nat × Option Nat)
  flight : SMap Flight
  longs : SMap Long
  works : SMap WorkOp
  flushes : SMap FlushOp
  wire : SMap Packet
  walks : SMap Walk
  watches : List Watch
  hostOut : List HostMsg
deriving DecidableEq, Repr

/-- A thread at its slice's first run, before its entry point is known (R123, R124). -/
def Thread.start : Thread where
  pc := 0
  mr := 0
  wb := 0
  main := []
  opnd := []
  latch := []
  latchUni := []
  pred := 0
  mainPoison := []
  opndPoison := []
  pending := []
  pos := none
  nextPc := 0
  wait := .none
  exited := false
  arr := []
  lastIssue := 0
  splitRank := 0
  passDone := false

/-- A slice-warp at the start of its group (R123). -/
def SliceWarp.start : SliceWarp where
  masks := []
  uni := []
  uniPoison := []
  uniPending := []
  fpflags := 0
  fpen := 0
  frm := 0
  unack := 0
  active := true
  pendSince := 0
  readySince := none
  lastIssue := 0
  fence := none
  order := []
  counting := []
  countedTo := 0
  latchHist := []

/-- A slice queue at reset: empty and open (R293). -/
def Queue.start : Queue := ⟨[], false⟩

/-- A COPY of which nothing is done. -/
def CopyAt.start : CopyAt := ⟨0, 0, 0, 0, none, 0, [], [], none⟩

/-- A barrier slot at reset (R379). -/
def Slot.start : Slot := ⟨0, 0, 0, 0, 0, 0, false, 0, false⟩

/-- A link direction before its first flit (R427). -/
def Link.start : Link := ⟨0, 0, [], 0, 0⟩

/-- A core at reset (R133, R136, R204, R267). LMAP has no fixed reset value: log 8. -/
def CoreSt.reset : CoreSt where
  lmap := 0
  mxn := false
  wcode := 3
  groups := []
  owner := none
  lastGrid := none
  mxq := []
  copyq := []
  portA := none
  portX := none
  issueNo := 0
  counters := []
  seq := 0
  dead := false
  missed := 0
  bank := []
  l1 := []
  l1i := []
  tlb := []
  walkFaults := []
  lmapTo := none
  differ := []
  cellarOut := none

/-- A reticle at reset (R133, R138 to R140, R354, R359, R441), its site apart. -/
def RetSt.reset : RetSt where
  site := .none
  plane := 0
  mesh := 0
  host := false
  tgen := 0
  wtOff := 0
  wmlim := 80000
  threshold := 400
  alarm := false
  hold := false
  belowSince := none
  slewBy := 0
  slewFrom := 0
  ways := 16
  cpartTo := none
  tlb2 := []
  walkCache := []
  foldMap := []
  spareFolds := []
  lastStamp := 0
  lastSeq := 0
  inWm := []
  outWm := []
  sentAt := []
  cutPorts := []
  cuts := []
  ordBuf := []
  trees := []
  meshTab := []
  meshOld := []
  meshTc := 0
  modTab := []
  groupList := []
  policy := 0x00002220
  rings := []
  lockLostAt := []
  downAt := []
  portMap := []
  planeSteps := []
  planeNext := []
  stepSince := 0
  retransmits := []
  endpoint := []
  wrq := []
  wrqTurn := 0
  ccnt := []
  peers := []
  ue := []
  links := []
  samples := []
  cartridge := .absent
  cartSince := 0
  missed := []
  errWin := []
  meas := []
  shSeq := 0
  stalled := []

/-- The Error Policy Table after reset (R357). -/
def policyReset : SMap Policy :=
  [(0, ⟨0, 0, 4, 86400000⟩), (1, ⟨1, 1, 2, 1000⟩), (2, ⟨2, 2, 1, 10000⟩), (3, ⟨3, 0, 8, 86400000⟩)]

/-- A module at reset (R30, R133, R351, R356, R357). -/
def ModSt.reset : ModSt where
  modid := 0
  booted := false
  boots := 0
  skewb := 0xFFFFFFFF
  identity := ⟨[], [], [], [], none⟩
  amendments := []
  stageFails := []
  activeCp := 79
  hostUp := false
  regions := []
  nextRegion := 0
  dying := []
  queues := []
  doorbells := []
  grids := []
  nextHandle := 1
  cmds := []
  rootTurn := 0
  queueTurn := []
  turn := 0
  keys := []
  kemUsed := []
  policyTab := policyReset
  sync := ⟨0, 0, 0, 0, false, 0⟩
  handlers := []
  waitingHalts := []
  attached := []
  saved := []

/-- The machine right after reset: nothing listed, every unlisted core, reticle and module at its reset value. -/
def State.reset : State where
  agenda := []
  focus := ⟨0, .execute⟩
  free := 0
  nextId := 1
  ticks := 0
  mem := []
  poison := []
  sectorKey := []
  overflow := []
  rawFrames := []
  llc := []
  cores := []
  rets := []
  mods := []
  groups := []
  sws := []
  threads := []
  queues := []
  deadlock := []
  flight := []
  longs := []
  works := []
  flushes := []
  wire := []
  walks := []
  watches := []
  hostOut := []

end Sys2Proof.Machine
end

