-- ==== Sys2Proof/Machine/Mem.lean ====
section
/-! DEFINITION. Memory by physical fabric address (spec/09): the canonical list of bytes, the address layout, poison, and the key each
DRAM sector is stored under. -/

namespace Sys2Proof.Machine

open Sys2Proof

/-- The byte at an address. An unlisted byte reads as zero: R204 resets every memory to zero and R221 zeroes every sector (log 5). -/
def cellGet : List Host.Cell → Nat → Byte
  | [], _ => 0
  | (k, v) :: m, a => if a = k then v else cellGet m a

/-- List nothing at an address. -/
def cellDel : List Host.Cell → Nat → List Host.Cell
  | [], _ => []
  | (k, v) :: m, a => if a = k then cellDel m a else (k, v) :: cellDel m a

/-- List a byte at an address, in place of any listed there. -/
def cellIns : List Host.Cell → Nat → Byte → List Host.Cell
  | [], a, b => [(a, b)]
  | (k, v) :: m, a, b => if a = k then (a, b) :: m else if a < k then (a, b) :: (k, v) :: m else (k, v) :: cellIns m a b

/-- Store a byte, keeping addresses strictly rising and no zero listed. -/
def cellPut (m : List Host.Cell) (a : Nat) (b : Byte) : List Host.Cell := if b = 0 then cellDel m a else cellIns m a b

/-- Store consecutive bytes. -/
def cellsPut (m : List Host.Cell) : Nat → List Byte → List Host.Cell
  | _, [] => m
  | a, b :: bs => cellsPut (cellPut m a b) (a + 1) bs

/-- The canonical form: addresses strictly rising, no entry equal to what an unlisted address reads as. -/
def Memory.wf : List Host.Cell → Bool
  | [] => true
  | [(_, v)] => v != 0
  | (k, v) :: (k', v') :: m => v != 0 && decide (k < k') && Memory.wf ((k', v') :: m)

/-- The byte of memory at a physical fabric address. -/
def State.byte (s : State) (a : Nat) : Byte := cellGet s.mem a

/-- Consecutive bytes of memory. -/
def readRaw (s : State) (a n : Nat) : List Byte := (upFrom a n).map (cellGet s.mem)

/-- Store consecutive bytes, whatever they belong to. -/
def writeRaw (s : State) (a : Nat) (bs : List Byte) : State := { s with mem := cellsPut s.mem a bs }

/-- LOCAL of a physical fabric address (R206). -/
def localOf (pa : Nat) : Nat := pa % 2 ^ 44
/-- The 17-bit reticle identity of a physical fabric address: WAFER × 128 + RETICLE (R141, R206). -/
def retOf (pa : Nat) : Nat := pa / 2 ^ 44
/-- The physical fabric address of LOCAL in a reticle. -/
def paOf (ret loc : Nat) : Nat := ret * 2 ^ 44 + loc
/-- The module of a reticle identity. -/
def modOf (ret : Nat) : Nat := ret / 128

/-- LOCAL of reticle scratch offset 0 (R207). -/
def scratchBase : Nat := 0x80000000000
/-- LOCAL of the scratchpads (R207). -/
def spadBase : Nat := 0xA0000000000
/-- LOCAL of the device registers (R207). -/
def deviceBase : Nat := 0xF0000000000

/-- Bonded DRAM: 64 GiB at LOCAL 0 (R207). -/
def isDram (pa : Nat) : Bool := decide (localOf pa < 0x1000000000)
/-- Reticle scratch: 72 MiB (R207). -/
def isScratch (pa : Nat) : Bool := decide (scratchBase ≤ localOf pa) && decide (localOf pa < scratchBase + 0x4800000)
/-- Scratchpads: 136 MiB (R207). -/
def isSpad (pa : Nat) : Bool := decide (spadBase ≤ localOf pa) && decide (localOf pa < spadBase + 0x8800000)
/-- The device-register range: 16 MiB (R207). -/
def isDevice (pa : Nat) : Bool := decide (deviceBase ≤ localOf pa) && decide (localOf pa < deviceBase + 0x1000000)

/-- The key of a core: reticle identity × 256 + physical fold × 4 + member. -/
def coreKey (ret fold member : Nat) : Nat := ret * 256 + fold * 4 + member
/-- The reticle identity of a core key. -/
def coreRet (k : Nat) : Nat := k / 256
/-- The physical fold of a core key. -/
def coreFold (k : Nat) : Nat := k % 256 / 4
/-- The fold member of a core key. -/
def coreMember (k : Nat) : Nat := k % 4
/-- The CORE field of a fault record (R401). -/
def coreCode (k : Nat) : Nat := coreRet k % 128 + coreFold k * 128 + coreMember k * 8192
/-- The core whose scratchpad holds a physical address (R207). -/
def coreOfSpad (pa : Nat) : Nat := coreKey (retOf pa) ((localOf pa - spadBase) / 0x400000) ((localOf pa - spadBase) / 0x100000 % 4)
/-- The physical address of a scratchpad offset of a core (R207). -/
def spadPa (k off : Nat) : Nat := paOf (coreRet k) (spadBase + coreFold k * 0x400000 + coreMember k * 0x100000 + off)

/-- A core of the pod, as at reset when it is not listed. -/
def State.core (s : State) (k : Nat) : CoreSt := mget s.cores k CoreSt.reset
/-- The sites of the wafer, in ascending reticle number (R15). -/
def siteList : List Nat :=
  upFrom 2 5 ++ upFrom 10 7 ++ upFrom 18 62 ++ upFrom 82 6 ++ upFrom 92 4

/-- A reticle number names a present site (R15, R16). -/
def presentSite (n : Nat) : Bool := siteList.contains n

/-- The state of a site as delivered, where the Identity Table of its module says nothing else (R18, R19): which four sites are SPARE has no
pattern in the spec, and the model takes 2, 6, 92 and 95 (log 7). -/
def usualSite (n : Nat) : Site := if ([2, 6, 92, 95] : List Nat).contains n then .spare else if presentSite n then .inService else .none

/-- A reticle that no cold reset has brought up. -/
def RetSt.unlisted (r : Nat) : RetSt := { RetSt.reset with site := usualSite (r % 128) }

/-- A reticle of the pod. -/
def State.ret (s : State) (r : Nat) : RetSt := mget s.rets r (RetSt.unlisted r)
/-- A module of the pod. -/
def State.mod (s : State) (m : Nat) : ModSt := mget s.mods m ModSt.reset
/-- Change a core. -/
def updCore (k : Nat) (f : CoreSt → CoreSt) (s : State) : State := { s with cores := mput s.cores k (f (s.core k)) }
/-- Change a reticle. -/
def updRet (r : Nat) (f : RetSt → RetSt) (s : State) : State := { s with rets := mput s.rets r (f (s.ret r)) }
/-- Change a module. -/
def updMod (m : Nat) (f : ModSt → ModSt) (s : State) : State := { s with mods := mput s.mods m (f (s.mod m)) }

/-- The base of the protected unit that holds a byte: a 32-byte sector of DRAM, an 8-byte word elsewhere (R215, R221). -/
def unitBase (pa : Nat) : Nat := if isDram pa then pa / 32 * 32 else pa / 8 * 8
/-- The size of that unit. -/
def unitSize (pa : Nat) : Nat := if isDram pa then 32 else 8

/-- The bases of the units that a range touches. -/
def unitsOf (pa n : Nat) : List Nat :=
  let u := unitSize pa
  let b := unitBase pa
  (upFrom 0 (ceilDiv (pa + n - b) u)).map (fun i => b + u * i)

/-- The first poisoned unit that a read of a range consumes (R215, R221). -/
def poisonedIn (s : State) (pa n : Nat) : Option Nat := (unitsOf pa n).find? (smem s.poison)

/-- The first poisoned unit that a write of a range covers only in part: the write is not performed (R215, R221). -/
def poisonPartial (s : State) (pa n : Nat) : Option Nat :=
  (unitsOf pa n).find? (fun u => smem s.poison u && !(decide (pa ≤ u) && decide (u + unitSize pa ≤ pa + n)))

/-- The key material of a key id at a reticle's memory controller (R351). -/
def keyMat (s : State) (ret id : Nat) : Option (BitVec 512) := mget? (s.mod (modOf ret)).keys id

/-- The plaintext last stored in a sector, 32 bytes little-endian. -/
def sectorPlain (s : State) (sec : Nat) : BitVec 256 := BitVec.ofNat 256 (ofBytesLE (readRaw s (sec * 32) 32))

/-- A sector as a reader under a key sees it (R219): the bytes last written under the same key, the XTS decryption otherwise. A sector
that nothing has written reads as zero under every key (R221). -/
def sectorUnder (s : State) (key : Option (BitVec 512)) (sec : Nat) : BitVec 256 :=
  match mget? s.sectorKey sec, key with
  | some k, some r => if k = r then sectorPlain s sec else crossRead k r (sec * 32) (sectorPlain s sec)
  | _, _ => sectorPlain s sec

/-- A byte of memory read under a key id (R219). -/
def readByteKey (s : State) (id a : Nat) : Byte :=
  if isDram a then
    match mget? s.sectorKey (a / 32) with
    | none => cellGet s.mem a
    | some k =>
      if keyMat s (retOf a) id = some k then cellGet s.mem a
      else (sectorUnder s (keyMat s (retOf a) id) (a / 32)).extractLsb' (8 * (a % 32)) 8
  else cellGet s.mem a

/-- Consecutive bytes read under a key id. -/
def readKey (s : State) (id a n : Nat) : List Byte := (upFrom a n).map (readByteKey s id)

/-- The number that little-endian bytes at an address spell under a key id. -/
def readNat (s : State) (id a n : Nat) : Nat := ofBytesLE (readKey s id a n)

/-- Make a sector stand under a key before part of it is written: its bytes become what that key reads (R219). -/
def rekeySector (s : State) (id sec : Nat) : State :=
  match keyMat s (retOf (sec * 32)) id with
  | none => s
  | some k =>
    match mget? s.sectorKey sec with
    | none => { s with sectorKey := mput s.sectorKey sec k }
    | some k' =>
      if k' = k then s
      else
        { writeRaw s (sec * 32) (bytesLE 32 (sectorUnder s (some k) sec).toNat) with
          sectorKey := mput s.sectorKey sec k }

/-- Count the overflow entry of a sector just written (R220): the plaintext that does not fit 28 bytes needs one, and a 64 KiB frame
that would need more than 512 moves to raw-protected mode. -/
def noteOverflow (before : State) (s : State) (sec : Nat) : State :=
  let frame := sec / 2048
  let old := b2n ((mget? before.sectorKey sec).isSome && (Config.compress (sectorPlain before sec)).isNone)
  let new := b2n (Config.compress (sectorPlain s sec)).isNone
  let n := mget s.overflow frame 0 + new - old
  if smem s.rawFrames frame then s
  else if n > 512 then { s with rawFrames := sadd s.rawFrames frame, overflow := mdel s.overflow frame }
  else { s with overflow := mput s.overflow frame n }

/-- The lines of a cache of a size after one of them, new, was filled: a full cache drops a line of those to be evicted first, if it has any,
else any other line than the new one; n chooses which (R204, R213). -/
def keepLines {α : Type} (cap n new : Nat) (first : α → Bool) (m : SMap α) : SMap α :=
  if m.length ≤ cap then m
  else
    let old := m.filter (fun e => e.1 != new)
    let some_ := if old.any (fun e => first e.2) then old.filter (fun e => first e.2) else old
    mdel m (nthD 0 (some_.map (·.1)) (n % some_.length))

/-- A line of a reticle's DRAM stands in its last-level cache, of WPART.WAYS × 6 MiB (R204, R215): the line that leaves a full one, written
back first, is a free choice (log 15). -/
def llcFill (line : Nat) (dirty : Bool) (s : State) : State :=
  let ret := retOf (line * 128)
  let put := mput s.llc line dirty
  let mine := put.filter (fun e => retOf (e.1 * 128) == ret && e.1 != line)
  if mine.length < (s.ret ret).ways * 49152 then { s with llc := put }
  else { s with llc := mdel put (nthD 0 (mine.map (·.1)) (Config.choice (s.free * 2 ^ 54 + line) % mine.length)) }

/-- A write performed at a home wakes the waiters that watch a unit it touches (R263): their watches are dropped. -/
def wakeWatches (a n : Nat) (s : State) : State :=
  { s with watches := s.watches.filter (fun w => !overlaps w.base w.size a n) }

/-- Write bytes under a key id: the whole units it covers lose their poison (R215, R221), their lines stand dirty in the home
last-level cache (R215), and watches are woken. The caller has checked poisonPartial. -/
def writeKey (s : State) (id a : Nat) (bs : List Byte) : State :=
  let n := bs.length
  let cleared := { wakeWatches a n s with poison := (unitsOf a n).foldl (fun p u =>
      if decide (a ≤ u) && decide (u + unitSize a ≤ a + n) then sdel p u else p) s.poison }
  if isDram a then
    let secs := (unitsOf a n).map (· / 32)
    let keyed := secs.foldl (fun t sec => rekeySector t id sec) cleared
    let put := writeRaw keyed a bs
    let put := secs.foldl (fun t sec => llcFill (sec / 4) true t) put
    secs.foldl (fun t sec => noteOverflow s t sec) put
  else writeRaw cleared a bs

/-- Poison the units that a range touches (R215, R336). -/
def poisonUnits (s : State) (a n : Nat) : State := { s with poison := (unitsOf a n).foldl sadd s.poison }

/-- A reticle failed a stage of bring-up at its module's last cold reset: it is out of service for this boot (R448). -/
def stageFailed (x : ModSt) (ret : Nat) : Bool := smem x.stageFails (x.boots * 128 + ret % 128)

/-- The reticle of an address is present and in service (R16, R222): its site is, its module has come up, and so has it. -/
def inService (s : State) (ret : Nat) : Bool :=
  (s.mod (modOf ret)).booted && (s.ret ret).site == .inService && !stageFailed (s.mod (modOf ret)) ret

/-- What a slew has corrected so far (R367): one tick in each 64 cycles of 8 ticks. -/
def slewed (s : State) (r : Nat) : Int :=
  let y := s.ret r
  let n := (s.ticks - y.slewFrom) / 512
  if y.slewBy ≥ 0 then min y.slewBy (n : Int) else max y.slewBy (-(n : Int))

/-- Fabric time of a reticle (R27, R140): the ticks since cold reset plus its offset. -/
def wtime (s : State) (r : Nat) : Nat := zextInt ((s.ticks : Int) + (s.ret r).wtOff + slewed s r) 64

/-- A name for a new operation, group, run or packet. -/
def freshId (s : State) : Nat × State := (s.nextId, { s with nextId := s.nextId + 1 })

/-- Tell the host something. -/
def tell (msg : HostMsg) (s : State) : State := { s with hostOut := s.hostOut ++ [msg] }

end Sys2Proof.Machine
end

