-- ==== Sys2Proof/Machine/Route.lean ====
section
/-! DEFINITION. Mesh neighbours (spec/01 R15 to R17), the states of planes and ports (05 R139), and the route selector (18 R429 to
R432; 15 R353, R354). -/

namespace Sys2Proof.Machine

open Sys2Proof

/-- The site in a direction: ports 0 N, 1 E, 2 S, 3 W (R17). -/
def neighbourSite (n port : Nat) : Option Nat :=
  let c := n % 9
  let y : Option Nat := match port with
    | 0 => if n ≥ 9 then some (n - 9) else none
    | 1 => if c < 8 then some (n + 1) else none
    | 2 => some (n + 9)
    | 3 => if c > 0 then some (n - 1) else none
    | _ => none
  y.filter presentSite

/-- The opposite port. -/
def oppositePort (port : Nat) : Nat := (port + 2) % 4

/-- The reticle identity in a direction. -/
def neighbourRet (ret port : Nat) : Option Nat := (neighbourSite (ret % 128) port).map (fun n => modOf ret * 128 + n)

/-- The state of an optical plane: 0 up, 1 draining, 2 retuning, 3 down (R139). -/
def RetSt.planeSt (r : RetSt) (p : Nat) : Nat := bitsOf r.plane.toNat (2 * p + 1) (2 * p)
/-- The state of a mesh port: 0 up, 1 degraded, 2 down, 3 absent (R139). -/
def RetSt.meshSt (r : RetSt) (p : Nat) : Nat := bitsOf r.mesh.toNat (2 * p + 1) (2 * p)

/-- A two-bit field of a byte replaced. -/
def putTwo (b : BitVec 8) (p v : Nat) : BitVec 8 :=
  BitVec.ofNat 8 (b.toNat - bitsOf b.toNat (2 * p + 1) (2 * p) * 2 ^ (2 * p) + v % 4 * 2 ^ (2 * p))

/-- Change planes and mesh ports of a reticle at one instant: TGEN counts once when a field changes (R139). -/
def setLstate (plane mesh : BitVec 8) (r : RetSt) : RetSt :=
  if plane = r.plane ∧ mesh = r.mesh then r else { r with plane := plane, mesh := mesh, tgen := r.tgen + 1 }

/-- Put a plane into a state. -/
def setPlane (p v : Nat) (r : RetSt) : RetSt := setLstate (putTwo r.plane p v) r.mesh r
/-- Put a mesh port into a state. -/
def setMesh (p v : Nat) (r : RetSt) : RetSt := setLstate r.plane (putTwo r.mesh p v) r

/-! ### Circuits (R434, R437) -/

/-- The PORT record of a fibre port of a plane, as the last TOPO that named it left it. -/
def RetSt.fibre (r : RetSt) (plane f : Nat) : Nat := mget r.portMap (plane * 32 + f) 0
/-- The WAVE byte of a wavelength of a plane. -/
def RetSt.wave (r : RetSt) (plane w : Nat) : Nat := mget r.portMap (plane * 32 + 8 + w) 0

/-- KIND of a PORT record: 0 unused, 1 fabric, 2 Ethernet. -/
def portKind (e : Nat) : Nat := bitsOf e 20 19
/-- The far reticle identity of a PORT record. -/
def portFar (e : Nat) : Nat := bitsOf e 9 0 * 128 + bitsOf e 16 10
/-- The far plane. -/
def portPlane (e : Nat) : Nat := bitsOf e 18 17

/-- The wavelengths that an assignment steers to a fibre port. -/
def RetSt.wavesTo (r : RetSt) (plane f : Nat) : List Nat :=
  (upFrom 0 16).filter (fun w => bitOf (r.wave plane w) 7 && bitsOf (r.wave plane w) 2 0 == f)

/-- The index of a ring of a plane in the ring tuning table: 0 to 15 modulators, 16 to 31 detectors, then router rings (R355, R433). -/
def ringIndex (plane ring : Nat) : Nat := plane * 160 + ring

/-- A wavelength of a plane is retired from striping: one of its rings is (R355, R435). -/
def RetSt.waveRetired (r : RetSt) (plane w : Nat) : Bool :=
  (w :: (16 + w) :: (upFrom 0 8).map (fun f => 32 + 8 * w + f)).any (fun i => bitOf (mget r.rings (ringIndex plane i) 0).toNat 15)

/-- The link at a port of a reticle. -/
def RetSt.link (r : RetSt) (port : Nat) : Link := mget r.links port Link.start

/-- A link that a flit has taken down by failing 8 times in a row (R427). -/
def RetSt.linkFailed (r : RetSt) (port : Nat) : Bool := decide ((r.link port).crcRow ≥ 8)

/-- The circuit of a fibre port is trained: the far end assigns the same wavelengths to it, and one of them is not retired (R435, R437).
The link at neither end has been taken down (R427). -/
def circuitUp (s : State) (ret plane f : Nat) : Bool :=
  let r := s.ret ret
  let e := r.fibre plane f
  let far := s.ret (portFar e)
  let q := portPlane e
  portKind e == 1 && inService s (portFar e) && !r.linkFailed (8 + 8 * plane + f) && (r.wavesTo plane f).any (fun w => !r.waveRetired plane w && !far.waveRetired q w)
    && (upFrom 0 8).any (fun g =>
      portKind (far.fibre q g) == 1 && portFar (far.fibre q g) == ret && portPlane (far.fibre q g) == plane
        && !far.linkFailed (8 + 8 * q + g) && far.wavesTo q g == r.wavesTo plane f)

/-- The far reticle of a trained circuit of a plane that leads toward a destination: the reticle itself in the own module, the module
elsewhere. -/
def circuitTo (s : State) (ret plane dst : Nat) : Option Nat :=
  ((upFrom 0 8).find? (fun f =>
    let far := portFar ((s.ret ret).fibre plane f)
    circuitUp s ret plane f && (if modOf dst = modOf ret then far == dst else modOf far == modOf dst))).map
      (fun f => portFar ((s.ret ret).fibre plane f))

/-! ### The selector (R430, R431) -/

/-- A mesh table entry. -/
def meshEntry (s : State) (ret dst : Nat) : Nat := (mget (s.ret ret).meshTab (dst % 128) 0).toNat
/-- A module table entry. -/
def modEntry (s : State) (ret dst : Nat) : Nat := (mget (s.ret ret).modTab (modOf dst) 0).toNat
/-- The next port of a mesh table entry (R353). -/
def entryPort (e : Nat) : Nat := bitsOf e 6 5

/-- The sampled load of a mesh port: 15 when it is degraded (R428, R430). Sample keys: 0 to 3 mesh ports, 4 to 7 planes, 8 to 11 the
published plane states. -/
def meshLoad (r : RetSt) (p : Nat) : Nat := if r.meshSt p = 1 then 15 else mget r.samples p 0

/-- The planes of a four-bit mask. -/
def planesOf (mask : Nat) : List Nat := (upFrom 0 4).filter (bitOf mask)

/-- The own planes with a circuit toward a destination (R429). -/
def ownPlanes (s : State) (ret dst : Nat) : List Nat :=
  if modOf dst = modOf ret then
    (upFrom 0 4).filter (fun p => (upFrom 0 8).any (fun f =>
      portKind ((s.ret ret).fibre p f) == 1 && portFar ((s.ret ret).fibre p f) == dst))
  else planesOf (bitsOf (modEntry s ret dst) 8 5)

/-- The up plane of least load among some planes, the lowest number among equals, with its load. -/
def bestPlane (r : RetSt) (ps : List Nat) : Option (Nat × Nat) :=
  (argMin (fun p => mget r.samples (4 + p) 0) (ps.filter (fun p => r.planeSt p == 0))).map (fun p => (p, mget r.samples (4 + p) 0))

/-- As bestPlane by the last publication of a reticle (R430). -/
def bestPublished (r : RetSt) (ps : List Nat) : Option (Nat × Nat) :=
  (argMin (fun p => mget r.samples (4 + p) 0) (ps.filter (fun p => mget r.samples (8 + p) 3 == 0))).map
    (fun p => (p, mget r.samples (4 + p) 0))

/-- The mesh route and its cost. -/
def meshRoute (s : State) (src dst : Nat) : Option (Route × Nat) :=
  let r := s.ret src
  let e := meshEntry s src dst
  if modOf dst = modOf src ∧ bitOf e 7 = true then
    some (.mesh, 8 * bitsOf e 4 0 + 8 * bitsOf r.policy.toNat 7 4 * meshLoad r (entryPort e))
  else none

/-- The own route and its cost. -/
def ownRoute (s : State) (src dst : Nat) : Option (Route × Nat) :=
  let r := s.ret src
  let hops := if modOf dst = modOf src then 1 else bitsOf (modEntry s src dst) 4 1
  (bestPlane r (ownPlanes s src dst)).map (fun b => (.own b.1, 40 * hops + 8 * bitsOf r.policy.toNat 11 8 * b.2))

/-- The neighbour route and its cost. -/
def neighbourRoute (s : State) (src dst : Nat) : Option (Route × Nat) :=
  if modOf dst = modOf src then none
  else
    let r := s.ret src
    let e := modEntry s src dst
    let eg := modOf src * 128 + bitsOf e 15 9
    if !inService s eg || eg == src || !bitOf (meshEntry s src eg) 7 then none
    else (bestPublished (s.ret eg) (planesOf (bitsOf e 24 21))).map (fun b =>
      (.neighbour eg (bitsOf e 24 21), 8 * bitsOf e 20 16 + 40 * bitsOf e 4 1 + 8 * bitsOf r.policy.toNat 15 12 * b.2))

/-- The route table entry of a destination is VALID (R353): of its reticle in the own module, of its module elsewhere. -/
def entryValid (s : State) (src dst : Nat) : Bool :=
  if modOf dst = modOf src then bitOf (meshEntry s src dst) 7 else bitOf (modEntry s src dst) 0

/-- The route of a request (R431): force is a work request's ROUTE, which replaces MODE unless it is 0. A destination whose entry is not VALID
has none (R353). -/
def chooseRoute (s : State) (src dst force : Nat) : Option Route :=
  let mode := if force = 0 then bitsOf (s.ret src).policy.toNat 1 0 else force
  if entryValid s src dst = false then none
  else
    let m := meshRoute s src dst
    let o := ownRoute s src dst
    let n := neighbourRoute s src dst
    match mode with
    | 1 => (if modOf dst = modOf src then m else n).map (·.1)
    | 2 => (o.orElse (fun _ => n.orElse (fun _ => m))).map (·.1)
    | _ => (argMin (·.2) (m.toList ++ o.toList ++ n.toList)).map (·.1)

/-- The far end of the optical circuit that a packet on a route takes at a reticle (R430): the neighbour route leaves by the egress's up
plane of least load. -/
def opticalExit (s : State) (at_ dst : Nat) (route : Route) : Option Nat :=
  match route with
  | .mesh => none
  | .own p => if (s.ret at_).planeSt p = 0 then circuitTo s at_ p dst else none
  | .neighbour _ planes =>
    match bestPlane (s.ret at_) (planesOf planes) with
    | some b => circuitTo s at_ b.1 dst
    | none => none

/-- The first down port on the mesh path between two reticles of a module, if their tables lead there (R428). -/
def meshBlock (s : State) : Nat → Nat → Nat → Option (Nat × Nat)
  | 0, _, _ => none
  | n + 1, a, b =>
    let e := meshEntry s a b
    if a = b ∨ bitOf e 7 = false then none
    else if (s.ret a).meshSt (entryPort e) ≥ 2 then some (a, entryPort e)
    else
      match neighbourRet a (entryPort e) with
      | some c => meshBlock s n c b
      | none => none

/-- The down port that holds a request on its route until the new routes take effect (R428). -/
def routeHeld (s : State) (src dst : Nat) (route : Route) : Option (Nat × Nat) :=
  let leg := fun (a b : Nat) => meshBlock s 40 a b
  match route with
  | .mesh => leg src dst
  | .own p => (match opticalExit s src dst (.own p) with | some far => leg far dst | none => none)
  | .neighbour e planes =>
    (leg src e).orElse (fun _ => match opticalExit s e dst (.neighbour e planes) with | some far => leg far dst | none => none)

/-- A request by the selector's route waits at a down port (R428). -/
def pathHeld (s : State) (src dst force : Nat) : Bool :=
  match chooseRoute s src dst force with
  | none => false
  | some r => src != dst && (routeHeld s src dst r).isSome

/-- The far end of a route's circuit reaches the destination over its own mesh. -/
def farReaches (s : State) (far dst : Nat) : Bool := far == dst || bitOf (meshEntry s far dst) 7

/-- A request from one reticle to another arrives: some route is available and its circuit is trained (R429 to R431, R437). A reticle reaches
itself. -/
def pathOk (s : State) (src dst force : Nat) : Bool :=
  if src = dst then true
  else
    match chooseRoute s src dst force with
    | none => false
    | some .mesh => true
    | some (.own p) => (match opticalExit s src dst (.own p) with | some far => farReaches s far dst | none => false)
    | some (.neighbour e planes) =>
      match opticalExit s e dst (.neighbour e planes) with
      | some far => farReaches s far dst
      | none =>
        match (ownRoute s e dst) with
        | some (r, _) => (match opticalExit s e dst r with | some far => farReaches s far dst | none => false)
        | none => false

end Sys2Proof.Machine
end

