-- ==== Sys2Proof/Machine/Translate.lean ====
section
/-! DEFINITION. Page tables, walks and TLBs (spec/09 R206, R211, R216 to R218; 15 R349), and what an access by virtual address may
reach (11 R251). -/

namespace Sys2Proof.Machine

open Sys2Proof

/-- What an access needs of a leaf (R251). -/
inductive Access where
  | read | write | both | either | fetch
deriving DecidableEq, Repr

/-- Bits of a page table entry (R349). -/
def pteV (e : Nat) : Bool := bitOf e 0
/-- LEAF. -/
def pteLeaf (e : Nat) : Bool := bitOf e 1
/-- TYPE: 0 memory, 1 core window, 2 reticle scratch, 3 device register. -/
def pteType (e : Nat) : Nat := bitsOf e 3 2
/-- R. -/
def pteR (e : Nat) : Bool := bitOf e 4
/-- W. -/
def pteW (e : Nat) : Bool := bitOf e 5
/-- X. -/
def pteX (e : Nat) : Bool := bitOf e 6
/-- C. -/
def pteC (e : Nat) : Bool := bitOf e 7
/-- STAGED. -/
def pteStaged (e : Nat) : Bool := bitOf e 8
/-- KEYID. -/
def pteKey (e : Nat) : Nat := bitsOf e 18 11
/-- The physical fabric address of a leaf: bits [60:16] stand in [63:19]. -/
def ptePa (e : Nat) : Nat := bitsOf e 63 19 * 65536

/-- The page size of a leaf at a level (R217): 1 GiB, 2 MiB, 64 KiB. -/
def levelSize (level : Nat) : Nat := if level = 2 then 0x40000000 else if level = 1 then 0x200000 else 0x10000

/-- A malformed entry at a level raises TRANSLATION (R349). -/
def pteBad (level e : Nat) : Bool :=
  if pteLeaf e then
    bitsOf e 10 9 != 0 || decide (level > 2) || pteKey e == 0
    || ptePa e % (if pteType e = 1 then 0x100000 else levelSize level) != 0
    || (pteType e == 1 && (level != 1 || pteC e || !isSpad (ptePa e)))
    || (pteType e == 2 && level == 2)
  else bitsOf e 7 2 != 0 || bitsOf e 63 61 != 0 || level == 0

/-- The end of a walk (R217): a leaf with the base and size it maps, or a cause. -/
inductive WalkEnd where
  | leaf (base size e : Nat)
  | bad (cause : Cause)
deriving DecidableEq, Repr

/-- The walk over the levels left, each with its index shift and width (R217). Entries are read at the home under the root's key id
(R464); a poisoned sector raises UNCORRECTABLE (R221). held gives the non-leaf entry that a walk cache holds for a level. -/
def walkLevels (s : State) (held : Nat → Option Nat) (key va : Nat) : List (Nat × Nat × Nat) → Nat → WalkEnd
  | [], _ => .bad .translation
  | (level, shift, width) :: rest, table =>
    match held level with
    | some e => walkLevels s held key va rest (bitsOf e 60 8 * 256)
    | none =>
      let a := table + 8 * (va / 2 ^ shift % 2 ^ width)
      if !isDram a || !inService s (retOf a) then .bad .remoteError
      else if (poisonedIn s a 8).isSome then .bad .uncorrectable
      else
        let e := readNat s key a 8
        if !pteV e then .bad .translation
        else if pteBad level e then .bad .translation
        else if pteLeaf e then .leaf (va / levelSize level * levelSize level) (levelSize level) e
        else walkLevels s held key va rest (bitsOf e 60 8 * 256)

/-- The levels of a walk: the level, the shift of its index and its width (R217). -/
def levels : List (Nat × Nat × Nat) := [(4, 48, 9), (3, 39, 9), (2, 30, 9), (1, 21, 9), (0, 16, 5)]

/-- A walk of five levels from the root table of a root region (R217), with the entries that a walk cache holds. -/
def walkWith (s : State) (held : Nat → Option Nat) (m root va : Nat) : WalkEnd :=
  match mget? (s.mod m).regions root with
  | none => .bad .translation
  | some g => walkLevels s held g.rcb.keyid va levels g.rcb.ptroot

/-- A walk that reads every entry at its home. -/
def walk (s : State) (m root va : Nat) : WalkEnd := walkWith s (fun _ => none) m root va

/-- The non-leaf entries that a walk reads, with their levels (R218). -/
def walkPath (s : State) (held : Nat → Option Nat) (key va : Nat) : List (Nat × Nat × Nat) → Nat → List (Nat × Nat)
  | [], _ => []
  | (level, shift, width) :: rest, table =>
    match held level with
    | some e => (level, e) :: walkPath s held key va rest (bitsOf e 60 8 * 256)
    | none =>
      let a := table + 8 * (va / 2 ^ shift % 2 ^ width)
      let e := readNat s key a 8
      if !isDram a || !inService s (retOf a) || (poisonedIn s a 8).isSome || !pteV e || pteBad level e || pteLeaf e then []
      else (level, e) :: walkPath s held key va rest (bitsOf e 60 8 * 256)

/-- The tag of a root region's translations (R218). -/
def rootKey (m root : Nat) : Nat := m * 4096 + root

/-- The shift of the index of a level (R217). -/
def levelShift (level : Nat) : Nat := if level = 0 then 16 else 12 + 9 * level

/-- The entry that a reticle's walk cache holds for a level of an address (R218), used or read again: while the table in memory differs,
which of the two is a free choice (log 4). -/
def heldEntry (s : State) (ret m root va level : Nat) : Option Nat :=
  match (s.ret ret).walkCache.find? (fun w => w.root == rootKey m root && w.level == level && w.prefix_ == va / 2 ^ levelShift level) with
  | none => none
  | some w => if Config.choice ((s.free * 8 + level) * 2 ^ 57 + va) % 2 = 0 then some w.entry else none

/-- The assigned device register at LOCAL: its class to read and to write, 0 U, 1 S, 2 H (R361). -/
def deviceClass (loc : Nat) : Option (Nat × Nat) :=
  let o := loc - deviceBase
  if o < 0x8000 then some (1, 1)
  else if 0x100000 ≤ o ∧ o < 0x102000 then some (0, 0)
  else if 0x200000 ≤ o ∧ o < 0x202200 then some (1, 2)
  else if 0x300000 ≤ o ∧ o < 0x320000 then some (1, 2)
  else none

/-- Whether a reticle decodes the doorbell range (R361). -/
def decodesDoorbells (ret : Nat) : Bool := ret % 128 == 79 || ret % 128 == 87

/-- The register at a device-register offset is assigned on a reticle: else it is a hole (R207, R361). -/
def deviceAssigned (pa : Nat) : Bool :=
  (deviceClass (localOf pa)).isSome && (decide (localOf pa - deviceBase ≥ 0x8000) || decodesDoorbells (retOf pa))

/-- Whether a leaf's permissions admit an access (R217, R251). -/
def permits (acc : Access) (e : Nat) : Bool :=
  match acc with
  | .read => pteR e
  | .write => pteW e
  | .both => pteR e && pteW e
  | .either => pteR e || pteW e
  | .fetch => pteX e

/-- The cause, if any, for which a leaf refuses an access of a region (R251 orders 4 and 5): the upper half of a core window, the
permissions, an empty key slot, a device register above the region's class, a module outside its network permissions. -/
def leafCause (s : State) (acc : Access) (sup : Bool) (modlo modhi va base e : Nat) : Option Cause :=
  if pteType e = 1 ∧ va - base ≥ 0x100000 then some .translation
  else
    let pa := ptePa e + (va - base)
    let m := modOf (retOf pa)
    if !permits acc e then some .permission
    else if (keyMat s (retOf pa) (pteKey e)).isNone then some .permission
    else if m < modlo ∨ m > modhi then some .permission
    else if isDevice pa && deviceAssigned pa then
      if pteType e ≠ 3 then some .permission
      else
        match deviceClass (localOf pa) with
        | none => none
        | some (rd, wr) =>
          let need := match acc with
            | .read => rd
            | .either => rd
            | .fetch => rd
            | _ => Nat.max rd wr
          if need = 0 then none else if need = 1 ∧ sup then none else some .permission
    else none

/-- The region whose kernel makes an access: its module, root, whether it is a supervisor region, and its network permissions. -/
structure Space where
  m : Nat
  root : Nat
  sup : Bool
  modlo : Nat
  modhi : Nat
deriving DecidableEq, Repr

/-- The outcome of a translation. -/
inductive Trans where
  | ok (pa e : Nat)
  | miss
  | bad (cause : Cause)
deriving DecidableEq, Repr

/-- The L2 TLB of a core's fold (R218). -/
def foldTlb (s : State) (core : Nat) : List TlbEntry := mget (s.ret (coreRet core)).tlb2 (coreFold core) []

/-- The TLB entry of a core, or else of its fold, that maps an address of a root region (R218). -/
def tlbFind (s : State) (core m root va : Nat) : Option TlbEntry :=
  ((s.core core).tlb ++ foldTlb s core).find? (fun t =>
    t.root == rootKey m root && decide (t.base ≤ va) && decide (va < t.base + t.size))

/-- A translation enters a TLB of a number of entries, which drops the one filled longest ago (R218). -/
def tlbAdd (cap : Nat) (t : TlbEntry) (l : List TlbEntry) : List TlbEntry :=
  (t :: l.filter (fun x => !(x.root == t.root && overlaps x.base x.size t.base t.size))).take cap

/-- A translation enters the L1 TLB of a core and the L2 TLB of its fold (R218). -/
def fillTlb (core : Nat) (t : TlbEntry) (s : State) : State :=
  updRet (coreRet core) (fun r => { r with tlb2 := mput r.tlb2 (coreFold core) (tlbAdd 2048 t (mget r.tlb2 (coreFold core) [])) })
    (updCore core (fun c => { c with tlb := tlbAdd 64 t c.tlb }) s)

/-- The cause that a finished walk found for a core's access at an address, not yet taken. -/
def walkFault (s : State) (core m root va : Nat) : Option Cause :=
  ((s.core core).walkFaults.find? (fun t => t.1 == rootKey m root && t.2.1 == va / 65536)).map (·.2.2)

/-- The end of a walk as a translation of an access (R217, R251). -/
def leafTrans (s : State) (sp : Space) (acc : Access) (va : Nat) (w : WalkEnd) : Trans :=
  match w with
  | .bad c => .bad c
  | .leaf base _ e =>
    match leafCause s acc sp.sup sp.modlo sp.modhi va base e with
    | some c => .bad c
    | none => .ok (ptePa e + (va - base)) e

/-- The leaf that an address of a core's access has (R206, R217, R218), through a TLB, or none while it misses them. While the table in
memory differs from the entry held, the access uses the old or the new entry: a free choice (log 4). -/
def lookup (s : State) (core : Nat) (sp : Space) (va : Nat) : Option WalkEnd :=
  if va ≥ 2 ^ 57 then some (.bad .translation)
  else
    match tlbFind s core sp.m sp.root va with
    | some t =>
      let held := WalkEnd.leaf t.base t.size t.leaf
      let now := walk s sp.m sp.root va
      some (if now = held ∨ Config.choice (s.free * 2 ^ 57 + va) % 2 = 0 then held else now)
    | none => (walkFault s core sp.m sp.root va).map .bad

/-- Translate an access of a core (R206, R217, R218). -/
def translate (s : State) (core : Nat) (sp : Space) (acc : Access) (va : Nat) : Trans :=
  match lookup s core sp va with
  | some w => leafTrans s sp acc va w
  | none => .miss

/-- Translate an access of an agent that walks at once: the command processor, the dispatcher, an engine, the endpoint (R464). -/
def translateNow (s : State) (sp : Space) (acc : Access) (va : Nat) : Trans :=
  if va ≥ 2 ^ 57 then .bad .translation else leafTrans s sp acc va (walk s sp.m sp.root va)

/-- The reticle of a walk's cores. -/
def Walk.ret (w : Walk) : Nat := coreRet (w.cores.headD 0)

/-- A miss starts a walk, or joins one of the reticle in progress for the same root and 64 KiB-aligned address (R218). -/
def startWalk (core m root va : Nat) (s : State) : State :=
  match s.walks.find? (fun w => w.2.ret == coreRet core && w.2.m == m && w.2.root == root && w.2.va / 65536 == va / 65536) with
  | some w => if smem w.2.cores core then s else { s with walks := mput s.walks w.1 { w.2 with cores := sadd w.2.cores core } }
  | none =>
    let (i, s) := freshId s
    { s with walks := mput s.walks i ⟨[core], m, root, va⟩ }

/-- A walk has one of the 64 walkers of its reticle: fewer than 64 misses came before it (R218). -/
def hasWalker (s : State) (op : Nat) (w : Walk) : Bool :=
  decide ((s.walks.filter (fun e => decide (e.1 < op) && e.2.ret == w.ret)).length < 64)

/-- The non-leaf entries that a walk of a reticle went through enter its walk cache (R218). -/
def fillWalkCache (ret m root va : Nat) (s : State) : State :=
  match mget? (s.mod m).regions root with
  | none => s
  | some g =>
    let path := walkPath s (heldEntry s ret m root va) g.rcb.keyid va levels g.rcb.ptroot
    let new := path.map (fun p => (⟨rootKey m root, p.1, va / 2 ^ levelShift p.1, p.2⟩ : WalkEntry))
    let kept := fun (l : List WalkEntry) => l.filter (fun x => !new.any (fun y => x.root == y.root && x.level == y.level && x.prefix_ == y.prefix_))
    updRet ret (fun r => { r with walkCache := new ++ kept r.walkCache }) s

/-- The device's own access to a root region's space, by the command processor or the dispatcher on its behalf. -/
def deviceSpace (s : State) (m root : Nat) : Space :=
  match mget? (s.mod m).regions root with
  | some g => ⟨m, root, true, g.rcb.modlo, g.rcb.modhi⟩
  | none => ⟨m, root, true, 0, 1023⟩

/-- Whether the bytes of a physical range can be reached: their reticle is in service, no hole, no poison for a read. -/
def reachable (s : State) (pa : Nat) : Bool :=
  inService s (retOf pa) && (isDram pa || isSpad pa || (isScratch pa && decide (localOf pa - scratchBase < (16 - (s.ret (retOf pa)).ways) * 0x600000)))

/-- Read n bytes at a virtual address of a root region as a device agent does (R464): none when the walk faults, the place cannot be
reached or a sector of it is UNCORRECTABLE. The range does not cross a 64 KiB page in the uses the spec makes of it. -/
def readVa (s : State) (m root va n : Nat) : Option (List Byte) :=
  match translateNow s (deviceSpace s m root) .read va with
  | .ok pa e => if reachable s pa && (poisonedIn s pa n).isNone then some (readKey s (pteKey e) pa n) else none
  | _ => none

/-- Write bytes at a virtual address of a root region as a device agent does (R464): none when they cannot be written. -/
def writeVa (s : State) (m root va : Nat) (bs : List Byte) : Option State :=
  match translateNow s (deviceSpace s m root) .write va with
  | .ok pa e =>
    if reachable s pa && (poisonPartial s pa bs.length).isNone then some (writeKey s (pteKey e) pa bs) else none
  | _ => none

end Sys2Proof.Machine
end

