-- ==== Sys2Proof/Machine/Ops.lean ====
section
/-! DEFINITION. The named operations over groups, threads, runs and records, and taking a fault (spec/17 R399 to R406) as one shared
operation, with what ends a group and a grid (02 R43, R44, R48). -/

namespace Sys2Proof.Machine

open Sys2Proof

/-! ### Keys and accessors -/

/-- The key of a slice-warp. -/
def swKey (gid warp : Nat) (sl : Slice) : Nat := gid * 32 + warp * 2 + sl.code
/-- The key of a thread of a slice-warp. -/
def thKey (sw lane : Nat) : Nat := sw * 64 + lane
/-- The key of a slice queue (name 88 to 94) of a lane of a warp pair. -/
def qKey (gid warp lane q : Nat) : Nat := ((gid * 16 + warp) * 64 + lane) * 8 + (q - 88)
/-- The key of a warp pair. -/
def pairKey (gid warp : Nat) : Nat := gid * 16 + warp

/-- A slice-warp of the pod. -/
def State.sw (s : State) (k : Nat) : SliceWarp := mget s.sws k SliceWarp.start
/-- A thread of the pod. -/
def State.thread (s : State) (k : Nat) : Thread := mget s.threads k Thread.start
/-- A slice queue of the pod. -/
def State.queue (s : State) (k : Nat) : Queue := mget s.queues k Queue.start
/-- An entry at a tick: a fixed-latency result whose latency has passed is READY (R296). -/
def QEntry.ripe (now : Nat) : QEntry → QEntry
  | .coming v at_ => if at_ ≤ now then .ready v else .coming v at_
  | e => e
/-- Whether an entry is there for a pop: READY, FAULTED or POISONED (R296). -/
def QEntry.present : QEntry → Bool
  | .pending _ => false
  | .coming _ _ => false
  | _ => true
/-- A slice queue as its slices see it now: entries whose value has come are READY. -/
def State.queueNow (s : State) (k : Nat) : Queue :=
  { s.queue k with entries := (s.queue k).entries.map (QEntry.ripe s.ticks) }
/-- Change a slice-warp. -/
def updSw (k : Nat) (f : SliceWarp → SliceWarp) (s : State) : State := { s with sws := mput s.sws k (f (s.sw k)) }
/-- Change a thread. -/
def updTh (k : Nat) (f : Thread → Thread) (s : State) : State := { s with threads := mput s.threads k (f (s.thread k)) }
/-- Change a slice queue. -/
def updQ (k : Nat) (f : Queue → Queue) (s : State) : State := { s with queues := mput s.queues k (f (s.queue k)) }
/-- Change a group that exists. -/
def updGroup (gid : Nat) (f : Group → Group) (s : State) : State :=
  match mget? s.groups gid with
  | some g => { s with groups := mput s.groups gid (f g) }
  | none => s
/-- Change a grid that exists. -/
def updGrid (m h : Nat) (f : Grid → Grid) (s : State) : State :=
  match mget? (s.mod m).grids h with
  | some g => updMod m (fun x => { x with grids := mput x.grids h (f g) }) s
  | none => s
/-- Change a region that exists. -/
def updRegion (m i : Nat) (f : Region → Region) (s : State) : State :=
  match mget? (s.mod m).regions i with
  | some g => updMod m (fun x => { x with regions := mput x.regions i (f g) }) s
  | none => s

/-- The run a port is issuing. -/
def State.portRun (s : State) (p : Port) : Option Run :=
  match p.slice with
  | .access => (s.core p.core).portA
  | .execute => (s.core p.core).portX
/-- Give a port a run, or none. -/
def setPort (p : Port) (r : Option Run) (s : State) : State :=
  updCore p.core (fun c => match p.slice with
    | .access => { c with portA := r }
    | .execute => { c with portX := r }) s

/-! ### Launch records and groups -/

/-- FLAGS of a launch record (R42): DECOUPLED. -/
def Launch.decoupled (l : Launch) : Bool := bitOf l.flags 0
/-- STAGED. -/
def Launch.staged (l : Launch) : Bool := bitOf l.flags 1
/-- PROTECTED. -/
def Launch.protected (l : Launch) : Bool := bitOf l.flags 2
/-- ETRIGDEP. -/
def Launch.etrigdep (l : Launch) : Bool := bitOf l.flags 3
/-- PERSISTENT. -/
def Launch.persistent (l : Launch) : Bool := bitOf l.flags 4
/-- DEP. -/
def Launch.dep (l : Launch) : Bool := bitOf l.flags 5
/-- The launch width in lanes (R42). -/
def Launch.lanes (l : Launch) : Nat := 16 * 2 ^ l.width
/-- The visible width W (R37). -/
def Launch.visible (l : Launch) : Nat := if l.protected then l.lanes / 2 else l.lanes
/-- Main registers of a thread of a slice (R123). -/
def Launch.budget (l : Launch) (sl : Slice) : Nat := 16 * (match sl with | .access => l.aregs | .execute => l.xregs)
/-- The limit of a slice queue (R294): SLIP for dq0 to dq3, 16 for the others. -/
def Launch.queueCap (l : Launch) (q : Nat) : Nat := if q ≤ 91 then l.slip else 16
/-- A format slot of the grid (R82). -/
def Launch.slot (l : Launch) (i : Nat) : W64 := nthD 0 l.slots i

/-- The slices of a grid: both when decoupled, execute alone when coupled (R46). -/
def Launch.slices (l : Launch) : List Slice := if l.decoupled then [.access, .execute] else [.execute]

/-- The slice-warps of a group, warp then slice. -/
def swsOf (l : Launch) : List (Nat × Slice) :=
  (upFrom 0 l.warps).flatMap (fun w => l.slices.map (fun sl => (w, sl)))

/-- The keys of the threads of a slice-warp. -/
def threadsOf (gid w : Nat) (sl : Slice) (l : Launch) : List Nat :=
  (upFrom 0 l.visible).map (thKey (swKey gid w sl))

/-- Every thread of a slice-warp has ended its slice (R48). -/
def swExited (s : State) (gid w : Nat) (sl : Slice) (l : Launch) : Bool :=
  (threadsOf gid w sl l).all (fun k => (s.thread k).exited)

/-- Good lanes of a core (R136, R142). -/
def goodLanes (c : CoreSt) : Nat := popcount 32 c.lmap.toNat
/-- Lanes per pass: G, or floor(G / 2) in a protected grid (R142, R143). -/
def passWidth (c : CoreSt) (prot : Bool) : Nat := Nat.max 1 (if prot then goodLanes c / 2 else goodLanes c)
/-- P: the passes that hold a lane of a set (R56). -/
def passes (c : CoreSt) (prot : Bool) (lanes : BitVec 64) : Nat :=
  (dedupe ((lanesOf lanes).map (· / passWidth c prot))).length

/-! ### Domains and records -/

/-- The fault domain of a region (R405): the nearest node whose INHERIT bit 6 is 1. -/
def domainOf (s : State) (m : Nat) : Nat → Nat → Nat
  | 0, i => i
  | fuel + 1, i =>
    match mget? (s.mod m).regions i with
    | none => i
    | some r => if bitOf r.rcb.inherit 6 || r.rcb.parent = 0xFFFF then i else domainOf s m fuel r.rcb.parent

/-- The effective value of an inherited field (R38): the nearest node that overrides the group of fields. -/
def ownerOf (s : State) (m bit : Nat) : Nat → Nat → Nat
  | 0, i => i
  | fuel + 1, i =>
    match mget? (s.mod m).regions i with
    | none => i
    | some r => if bitOf r.rcb.inherit bit || r.rcb.parent = 0xFFFF then i else ownerOf s m bit fuel r.rcb.parent

/-- A field of a region as its INHERIT mask makes it effective. -/
def effective (s : State) (m bit i : Nat) (f : Rcb → Nat) : Nat :=
  match mget? (s.mod m).regions (ownerOf s m bit 8 i) with
  | some r => f r.rcb
  | none => 0

/-- The region that a group's kernel acts for (R9, R222), with its effective network permissions. -/
def spaceOf (s : State) (g : Group) : Space :=
  match mget? (s.mod g.m).regions g.region with
  | some r => ⟨g.m, g.root, bitOf r.rcb.flags 0, effective s g.m 9 g.region (·.modlo), effective s g.m 9 g.region (·.modhi)⟩
  | none => ⟨g.m, g.root, false, 0, 1023⟩

/-- The node and its ancestors. -/
def lineage (s : State) (m : Nat) : Nat → Nat → List Nat
  | 0, i => [i]
  | fuel + 1, i =>
    match mget? (s.mod m).regions i with
    | none => []
    | some r => i :: (if r.rcb.parent = 0xFFFF then [] else lineage s m fuel r.rcb.parent)

/-- The cause codes of R403. -/
def Cause.code : Cause → Nat
  | .illegalInstruction => 0x01 | .runFormat => 0x02 | .privilege => 0x03 | .queueDirection => 0x04 | .decoupleDeadlock => 0x05
  | .runaheadFault => 0x06 | .translation => 0x07 | .permission => 0x08 | .alignment => 0x09 | .scratchBounds => 0x0A
  | .illegalShape => 0x0B | .poisonRead => 0x0C | .uncorrectable => 0x0D | .sdcDetected => 0x0E | .fpException => 0x0F
  | .barrierLost => 0x10 | .remoteError => 0x11 | .watermarkStall => 0x12 | .coreLost => 0x13 | .trap => 0x14 | .breakpoint => 0x15
  | .laneFused => 0x20 | .foldMoved => 0x21 | .siteRetired => 0x22 | .stagedRetry => 0x23

/-- A fault record before it is laid out (R401). -/
structure Record where
  stamp : Nat
  seq : Nat
  cause : Cause
  flags : Nat
  region : Nat
  grid : Nat
  group : Nat
  warp : Nat
  slice : Nat
  lane : Nat
  skid : Nat
  core : Nat
  pc : Nat
  pc2 : Nat
  addr : Nat
  detail : Nat
deriving DecidableEq, Repr

/-- The 64 bytes of a fault record (R401). -/
def recordBytes (r : Record) : List Byte :=
  bytesLE 8 r.stamp ++ bytesLE 4 r.seq ++ bytesLE 1 r.cause.code ++ bytesLE 1 r.flags ++ bytesLE 2 r.region ++ bytesLE 4 r.grid
  ++ bytesLE 4 r.group ++ bytesLE 1 r.warp ++ bytesLE 1 r.slice ++ bytesLE 1 r.lane ++ bytesLE 1 0 ++ bytesLE 2 r.skid
  ++ bytesLE 2 r.core ++ bytesLE 8 r.pc ++ bytesLE 8 r.pc2 ++ bytesLE 8 r.addr ++ bytesLE 8 r.detail

/-- Append a record to the fault record queue of a domain (R314, R360): answers its virtual address, or none when it is not written. A
full ring drops the record and counts it. -/
def appendRecord (s : State) (m root frq : Nat) (bs : List Byte) : State × Option Nat :=
  match readVa s m root frq 64 with
  | none => (s, none)
  | some h =>
    let base := ofBytesLE (h.take 8)
    let k := (ofBytesLE ((h.drop 8).take 1)) % 32
    let pidx := ofBytesLE ((h.drop 12).take 4)
    let cidx := ofBytesLE ((h.drop 16).take 4)
    let dropped := ofBytesLE ((h.drop 20).take 4)
    let used := if (pidx + 2 ^ 32 - cidx) % 2 ^ 32 ≤ 2 ^ k then (pidx + 2 ^ 32 - cidx) % 2 ^ 32 else 0
    if used = 2 ^ k then
      match writeVa s m root (frq + 20) (bytesLE 4 (dropped + 1)) with
      | some t => (t, none)
      | none => (s, none)
    else
      let va := base + 64 * (pidx % 2 ^ k)
      match writeVa s m root va bs with
      | none => (s, none)
      | some t =>
        match writeVa t m root (frq + 12) (bytesLE 4 (pidx + 1)) with
        | some u => (u, some va)
        | none => (s, none)

/-- Write one record to the host and to the queue of the domain of a region (R402). -/
def postRecord (m root region : Nat) (r : Record) (s : State) : State × Option Nat :=
  let d := domainOf s m 8 region
  let (t, va) := match mget? (s.mod m).regions d with
    | some x => appendRecord s m root x.rcb.frq (recordBytes r)
    | none => (s, none)
  (tell (.record (recordBytes r)) t, va)

/-- Take the next sequence number of a core's record series (R401, R404). -/
def coreSeq (core : Nat) (s : State) : Nat × State :=
  ((s.core core).seq, updCore core (fun c => { c with seq := (c.seq + 1) % 2 ^ 32 }) s)

/-- Take the next sequence number of a reticle's Shepherd (R402). -/
def shepherdSeq (ret : Nat) (s : State) : Nat × State :=
  ((s.ret ret).shSeq, updRet ret (fun c => { c with shSeq := (c.shSeq + 1) % 2 ^ 32 }) s)

/-- A NOTICE record (R402): region 0xFFFF in the host's copy, CORE of a core key or, with none, of a reticle. -/
def noticeRecord (s : State) (ret : Nat) (core : Option Nat) (cause : Cause) (region grid addr detail : Nat) (seq : Nat) : Record :=
  ⟨wtime s ret, seq, cause, 8, region, grid, 0xFFFFFFFF, 0xFF, 2, 0xFF, 0,
    match core with | some k => coreCode k | none => ret % 128 + 0x3F * 128, 0, 0, addr, detail⟩

/-- Send a notice to the host alone (R403). -/
def noticeHost (ret : Nat) (core : Option Nat) (cause : Cause) (grid addr detail : Nat) (s : State) : State :=
  let (q, s) := shepherdSeq ret s
  tell (.record (recordBytes (noticeRecord s ret core cause 0xFFFF grid addr detail q))) s

/-- Send a notice to the domain queue of a region (R402, R403). -/
def noticeDomain (m root region ret : Nat) (core : Option Nat) (cause : Cause) (grid addr detail : Nat) (s : State) : State :=
  let (q, s) := shepherdSeq ret s
  let d := domainOf s m 8 region
  match mget? (s.mod m).regions d with
  | some x => (appendRecord s m root x.rcb.frq (recordBytes (noticeRecord s ret core cause d grid addr detail q))).1
  | none => s

/-! ### Ending groups and grids -/

/-- The resident groups of a grid. -/
def residentOf (s : State) (m h : Nat) : List Nat :=
  (s.groups.filter (fun e => e.2.m == m && e.2.grid == h)).map (·.1)

/-- The saved and quiesced groups of a grid. -/
def savedOf (s : State) (m h : Nat) : List Nat :=
  ((s.mod m).saved.filter (fun e => e.2.group.grid == h)).map (·.1)

/-- A write performed on a unit wakes the waiters that watch a part of it (R263): their watches are dropped. -/
def wakeUnit (pa : Nat) (s : State) : State := wakeWatches (pa / 8 * 8) 8 s

/-- The place of an event counter of a core among the device registers (R361, R395). -/
def counterPa (k i : Nat) : Nat := paOf (coreRet k) (deviceBase + 0x200000 + 64 * (k % 256) + 8 * i)

/-- Add to an event counter of a core (R395), a device register whose change wakes its watchers (R263). -/
def bumpCounter (k i n : Nat) (s : State) : State :=
  if n = 0 then s
  else wakeUnit (counterPa k i)
    (updCore k (fun c => { c with counters := mput c.counters i (mget c.counters i 0 + BitVec.ofNat 64 n) }) s)

/-- Entries of a queue that count as silent faults when they are discarded (R300). -/
def silentEntries (q : Queue) : Nat :=
  (q.entries.filter (fun e => match e with | .faulted _ _ _ => true | .poisoned => true | _ => false)).length

/-- The end of a group discards the entries of its queues: each FAULTED or POISONED one counts as a silent fault of its core (R300). -/
def discardQueues (gid : Nat) (s : State) : State :=
  match mget? s.groups gid with
  | none => s
  | some g =>
    bumpCounter g.core 7 ((s.queues.filter (fun e => e.1 / 8192 == gid)).foldl (fun n e => n + silentEntries e.2) 0) s

/-- Take a group off its core: its resources return (R48), its slice-warps, threads and queues are gone. Operations of the group that
are still in flight find no group, and what they return is dropped. -/
def removeGroup (gid : Nat) (s : State) : State :=
  match mget? s.groups gid with
  | none => s
  | some g =>
    let keep := fun (r : Option Run) => match r with | some x => if x.gid = gid then none else some x | none => none
    let s := updCore g.core (fun c => { c with groups := sdel c.groups gid, portA := keep c.portA, portX := keep c.portX }) s
    { s with
      groups := mdel s.groups gid
      sws := s.sws.filter (fun e => e.1 / 32 != gid)
      threads := s.threads.filter (fun e => e.1 / 2048 != gid)
      queues := s.queues.filter (fun e => e.1 / 8192 != gid)
      deadlock := s.deadlock.filter (fun e => e.1 / 16 != gid)
      watches := s.watches.filter (fun w => w.sw / 32 != gid) }

/-- Move a grid to FINISHED (R43, R44): its status is kept and its completion word, if any, is written once. -/
def finishGrid (m h status : Nat) (s : State) : State :=
  match mget? (s.mod m).grids h with
  | none => s
  | some g =>
    if g.state = .finished then s
    else
      let s := updGrid m h (fun x => { x with state := .finished, status := status, log := [] }) s
      if g.launch.done = 0 ∨ g.launch.done % 8 ≠ 0 then s
      else (writeVa s m g.root g.launch.done (bytesLE 4 status ++ bytesLE 4 h)).getD s

/-- The status that marks a staged grid rolling back, beside the codes of R43 (R420). -/
def rollingBack : Nat := 256

/-- After a group of a grid is gone: a grid that its domain ended finishes, and a grid that rolls back returns to WAITING (R405, R420). -/
def gridSettled (m h : Nat) (s : State) : State :=
  match mget? (s.mod m).grids h with
  | none => s
  | some g =>
    if (residentOf s m h).isEmpty && (savedOf s m h).isEmpty then
      if g.status = 4 then finishGrid m h 4 s
      else if g.status = rollingBack then
        updGrid m h (fun x =>
          { x with state := .waiting, status := 0, placed := 0, ended := 0, triggered := [], gone := [], log := [], dist := 0 }) s
      else s
    else s

/-- Discard the saved groups of a grid without an image (R405, R420). -/
def dropSaved (m h : Nat) (s : State) : State :=
  updMod m (fun x => { x with
    saved := x.saved.filter (fun e => e.2.group.grid != h)
    waitingHalts := x.waitingHalts.filter (fun i => match mget? x.saved i with | some e => e.group.grid != h | none => false) }) s

/-- Stop the issue of a group: its runs in progress leave the ports, each thread keeping its position (R399, R407). -/
def stopIssue (gid : Nat) (s : State) : State :=
  match mget? s.groups gid with
  | none => s
  | some g =>
    let park := fun (r : Option Run) (s : State) =>
      match r with
      | some x =>
        if x.gid = gid then
          (lanesOf x.lanes).foldl (fun t l =>
            updTh (thKey (swKey x.gid x.warp x.slice) l) (fun th =>
              { th with pos := some x.pos, passDone := bitOf x.skip.toNat l }) t) s
        else s
      | none => s
    let s := park (s.core g.core).portX (park (s.core g.core).portA s)
    let keep := fun (r : Option Run) => match r with | some x => if x.gid = gid then none else some x | none => none
    updCore g.core (fun c => { c with portA := keep c.portA, portX := keep c.portX }) s

/-- Begin the halt of a group (R398): HALTING, its drain counted from now. -/
def beginHalt (gid : Nat) (f : Group → Group) (s : State) : State :=
  let s := stopIssue gid s
  updGroup gid (fun g => f { g with phase := .halting, drainFrom := some (g.drainFrom.getD s.ticks) }) s

/-- End a grid without images (R405): its resident groups halt and drain, to be discarded, and it finishes when the last is gone. -/
def endGrid (m h status : Nat) (s : State) : State :=
  match mget? (s.mod m).grids h with
  | none => s
  | some g =>
    if g.state = .finished then s
    else
      let s := updGrid m h (fun x => { x with status := status, log := [] }) s
      let s := dropSaved m h s
      let s := (residentOf s m h).foldl (fun t gid => beginHalt gid (fun x => { x with discard := true, forced := true }) t) s
      gridSettled m h s

/-- Terminate a fault domain (R405): every grid whose region lies in it ends with DOMAIN_ENDED. -/
def terminateDomain (m domain : Nat) (s : State) : State :=
  let hs := ((s.mod m).grids.filter (fun e => e.2.state != .finished && domainOf s m 8 e.2.launch.region == domain)).map (·.1)
  hs.foldl (fun t h => endGrid m h 4 t) s

/-- Roll a staged grid back (R420), with its STAGED_RETRY notice. -/
def rollBack (m h : Nat) (cause : Cause) (s : State) : State :=
  match mget? (s.mod m).grids h with
  | none => s
  | some g =>
    let n := g.retries + 1
    let cp := m * 128 + (s.mod m).activeCp
    let s := noticeHost cp none .stagedRetry h 0 (n % 256 + cause.code * 256) s
    let s := noticeDomain m g.root g.launch.region cp none .stagedRetry h 0 (n % 256 + cause.code * 256) s
    let s := updGrid m h (fun x => { x with retries := n }) s
    endGrid m h rollingBack s

/-! ### Taking a fault -/

/-- What a fault brings: its cause, where it was found, and what its record names (R401, R403). -/
structure FaultInfo where
  cause : Cause
  gid : Nat
  warp : Nat
  /-- 0 access, 1 execute, 2 none or engine. -/
  slice : Nat
  lane : Nat
  precise : Bool
  pc : Nat
  pc2 : Option Nat
  addr : Nat
  detail : Nat
deriving DecidableEq, Repr

/-- The address at which a thread stands: its program counter, or the word of its run that it stands at. -/
def Thread.at (th : Thread) : Nat := th.pc.toNat + (match th.pos with | some p => 4 + 4 * p | none => 0)

/-- The program counter at which a slice-warp stands: its run in progress, or its lowest thread that has not exited (R399). -/
def standingPc (s : State) (g : Group) (gid w : Nat) (sl : Slice) : Nat :=
  match s.portRun ⟨g.core, sl⟩ with
  | some r =>
    if r.gid = gid ∧ r.warp = w then r.addr.toNat + 4 + 4 * r.pos
    else ((threadsOf gid w sl g.launch).find? (fun k => !(s.thread k).exited)).elim 0 (fun k => (s.thread k).at)
  | none => ((threadsOf gid w sl g.launch).find? (fun k => !(s.thread k).exited)).elim 0 (fun k => (s.thread k).at)

/-- The primary record of a fault. -/
def faultRecord (s : State) (f : FaultInfo) (g : Group) (seq extra : Nat) : Record :=
  ⟨wtime s (coreRet g.core), seq, f.cause,
    b2n f.precise + extra + (if f.pc2.isSome then 16 else 0),
    g.region, g.grid, g.index, f.warp, f.slice, f.lane, 0, coreCode g.core, f.pc, f.pc2.getD 0, f.addr, f.detail⟩

/-- Companion records (R402): one for each other slice-warp that had not exited. -/
def companions (f : FaultInfo) (g : Group) (stamp primary : Nat) (s : State) : State :=
  (swsOf g.launch).foldl (fun t p =>
    if (p.1 = f.warp ∧ p.2.code = f.slice) ∨ swExited t f.gid p.1 p.2 g.launch then t
    else
      let (q, t) := coreSeq g.core t
      (postRecord g.m g.root g.region
        ⟨stamp, q, f.cause, 2, g.region, g.grid, g.index, p.1, p.2.code, 0xFF, 0, coreCode g.core,
          standingPc t g f.gid p.1 p.2, 0, 0, primary * 2 ^ 32⟩ t).1) s

/-- TAKING A FAULT (R399 to R402, R405, R406, R420). The records are written, every slice-warp of the group stops, and the group is
HALTING: to be saved and delivered to the handler under FPOLICY 1, or discarded with its whole domain under FPOLICY 0, when its record could
not be written to the ring, or when it belongs to a handler grid. A staged grid
whose fault is UNCORRECTABLE or SDC_DETECTED rolls back instead, up to three times. A second fault of a halting group writes its own
record and changes nothing else. -/
def takeFault (f : FaultInfo) (s : State) : State :=
  match mget? s.groups f.gid with
  | none => s
  | some g =>
    let (q, s1) := coreSeq g.core s
    if g.halt.isSome || g.discard then (postRecord g.m g.root g.region (faultRecord s f g q 4) s1).1
    else
      let (s2, va) := postRecord g.m g.root g.region (faultRecord s f g q 0) s1
      let s3 := companions f g (wtime s (coreRet g.core)) q s2
      let mark := fun (x : Group) => { x with
        halt := some (f.cause, q, coreCode g.core, swKey f.gid f.warp (if f.slice = 0 then .access else .execute), f.precise)
        haltPc := BitVec.ofNat 64 f.pc
        recordVa := va.getD 0
        recordOk := va.isSome
        forced := true
        debug := f.cause == .breakpoint && smem (s.mod g.m).attached g.root }
      let s4 := beginHalt f.gid mark s3
      let staged := g.launch.staged && (f.cause == .uncorrectable || f.cause == .sdcDetected)
      let retries := match mget? (s.mod g.m).grids g.grid with | some x => x.retries | none => 0
      if staged && decide (retries < 3) then rollBack g.m g.grid f.cause s4
      else
        let s5 := if g.launch.staged then updGrid g.m g.grid (fun x => { x with log := [] }) s4 else s4
        let d := domainOf s g.m 8 g.region
        let policy := match mget? (s.mod g.m).regions d with | some x => x.rcb.fpolicy | none => 0
        let dbg := f.cause == .breakpoint && smem (s.mod g.m).attached g.root
        let handler := match mget? (s.mod g.m).grids g.grid with | some x => x.handlerFor.isSome | none => false
        if dbg = false ∧ (policy = 0 ∨ va = none ∨ handler = true) then terminateDomain g.m d s5 else s5

/-! ### The context of the instruction that issues -/

/-- The instruction's context: the core, the run in progress on the focus port and the group it belongs to. -/
structure Ctx where
  core : Nat
  run : Run
  g : Group
deriving DecidableEq, Repr

/-- The context in which the focus port issues, if it has a run in progress. -/
def ctx? (s : State) : Option Ctx :=
  match s.portRun s.focus with
  | none => none
  | some r =>
    match mget? s.groups r.gid with
    | none => none
    | some g => some ⟨s.focus.core, r, g⟩

/-- The slice-warp of the context. -/
def Ctx.sw (c : Ctx) : Nat := swKey c.run.gid c.run.warp c.run.slice
/-- The key of a lane's thread. -/
def Ctx.th (c : Ctx) (l : Nat) : Nat := thKey c.sw l
/-- The key of a lane's queue. -/
def Ctx.q (c : Ctx) (l name : Nat) : Nat := qKey c.run.gid c.run.warp l name
/-- The address of the instruction (R102). -/
def Ctx.pc (c : Ctx) : W64 := c.run.addr + BitVec.ofNat 64 (4 + 4 * c.run.pos)
/-- The first word of the instruction. -/
def Ctx.word (c : Ctx) : W32 := nthD 0 c.run.words c.run.pos
/-- The latch that the instruction's position names (R57). -/
def Ctx.latchNo (c : Ctx) : Nat := c.run.pos % 8
/-- The reticle of the context. -/
def Ctx.ret (c : Ctx) : Nat := coreRet c.core
/-- W. -/
def Ctx.width (c : Ctx) : Nat := c.g.launch.visible

/-- A guard slot of a run header (R104). -/
def guardSlot (h : W32) (k : Nat) : Nat :=
  if k = 1 then bitsOf h.toNat 19 15 else if k = 2 then bitsOf h.toNat 14 10 else bitsOf h.toNat 9 5

/-- Whether a lane's guard is true, as its predicates stand now (R99). -/
def guardTrue (s : State) (c : Ctx) (gsel : Nat) (gn : Bool) (l : Nat) : Bool :=
  if gsel = 0 then true
  else bitOf (s.thread (c.th l)).pred.toNat (guardSlot c.run.header gsel) != gn

/-- The active lanes whose guard is true, ascending; a lane that executed the instruction before its run was resumed does not execute it
again (R145). -/
def execLanes (s : State) (c : Ctx) (gsel : Nat) (gn : Bool) : List Nat :=
  (lanesOf c.run.lanes).filter (fun l => guardTrue s c gsel gn l && !hasLane c.run.skip l)

/-- Raise a fault at the instruction, precisely (R117). -/
def faultAt (c : Ctx) (cause : Cause) (addr detail lane : Nat) (s : State) : State :=
  takeFault ⟨cause, c.run.gid, c.run.warp, c.run.slice.code, lane, true, c.pc.toNat, none, addr, detail⟩ s

/-- The cause that a reason code raises (R116). -/
def reasonCause (r : Nat) : Cause :=
  if r < 0x20 then .runFormat else if r = 0x41 then .privilege else if r = 0x51 ∨ r = 0x52 then .queueDirection else .illegalInstruction

/-- Raise a reason code of R116 at the instruction: the detail holds the reason and the first word. -/
def reasonAt (c : Ctx) (r : Nat) (s : State) : State :=
  faultAt c (reasonCause r) 0 (r + c.word.toNat * 2 ^ 32) 0xFF s

end Sys2Proof.Machine
end

