-- ==== Sys2Proof/Machine/Operands.lean ====
section
/-! DEFINITION. Reading sources and writing destinations (spec/04 R108, R109; 06 R147, R148), the checks an instruction makes at issue
(04 R116, R117), and what ends an instruction and a run (02 R56 to R58, R62). -/

namespace Sys2Proof.Machine

open Sys2Proof

/-! ### Registers of one lane -/

/-- The absolute code of a v or o name: main register n is n, operand register n is 256 + n (R125). -/
def regCode (t : Thread) (n : Nat) : Nat := if n < 64 then 16 * t.wb + n else 256 + (n - 64)

/-- A main or operand register by absolute code. -/
def readCode (t : Thread) (code : Nat) : W32 := if code < 256 then mget t.main code 0 else mget t.opnd (code - 256) 0

/-- Write a main or operand register: its poison is cleared (R131). -/
def writeCode (code : Nat) (v : W32) (t : Thread) : Thread :=
  if code < 256 then { t with main := mput t.main code v, mainPoison := sdel t.mainPoison code }
  else { t with opnd := mput t.opnd (code - 256) v, opndPoison := sdel t.opndPoison (code - 256) }

/-- Whether a main or operand register is poisoned (R131). -/
def codePoisoned (t : Thread) (code : Nat) : Bool :=
  if code < 256 then smem t.mainPoison code else smem t.opndPoison (code - 256)

/-- A latch as a source (R57, R126). One not written in the run by this PC group reads as zero or a value that the slice-warp has
written to that latch: which is a free choice (log 4). -/
def readLatch (s : State) (c : Ctx) (l k : Nat) : W64 :=
  match mget? (s.thread (c.th l)).latch k with
  | some v => v
  | none =>
    let seen : List W64 := 0 :: mget (s.sw c.sw).latchHist k []
    nthD 0 seen (Config.choice ((s.free * 64 + l) * 8 + k) % seen.length)

/-- A uniform or per-lane special register as a source (R108): names 112 to 127. -/
def readSpecial (s : State) (c : Ctx) (l n : Nat) : W64 :=
  match n with
  | 113 => BitVec.ofNat 64 l
  | 114 => BitVec.ofNat 64 c.width
  | 115 => BitVec.ofNat 64 c.run.warp
  | 116 => BitVec.ofNat 64 c.g.index
  | 117 => BitVec.ofNat 64 c.g.launch.ngroups
  | 118 => BitVec.ofNat 64 c.g.grid
  | 119 => BitVec.ofNat 64 c.g.window
  | 120 => BitVec.ofNat 64 c.g.launch.argp
  | 121 => BitVec.ofNat 64 (l / passWidth (s.core c.core) c.g.launch.protected)
  | 122 => BitVec.ofNat 64 (coreMember c.core)
  | _ => 0

/-- The value of entry i of a queue: a closed queue with no such entry gives zero (R297). -/
def queueValue (q : Queue) (i : Nat) : W32 :=
  match q.entries[i]? with
  | some (.ready v) => v
  | _ => 0

/-- The words of a source of one lane, lowest first. off is the place of its first entry when it names a queue. -/
def readWords (s : State) (c : Ctx) (l : Nat) (u : RegUse) (off : Nat) : Nat → Nat
  | 0 => 0
  | k + 1 =>
    let lower := readWords s c l u off k
    let w : W32 :=
      if u.name < 80 then readCode (s.thread (c.th l)) (regCode (s.thread (c.th l)) u.name + k)
      else if isLatchName u.name then
        (if k = 0 then (readLatch s c l (u.name - 80)).extractLsb' 0 32 else (readLatch s c l (u.name - 80)).extractLsb' 32 32)
      else if isQueueName u.name then queueValue (s.queueNow (c.q l u.name)) (off + k)
      else if 96 ≤ u.name ∧ u.name < 112 then mget (s.sw c.sw).uni (u.name - 96 + k) 0
      else (if k = 0 then (readSpecial s c l u.name).extractLsb' 0 32 else
        (if k = 1 then (readSpecial s c l u.name).extractLsb' 32 32 else 0))
    lower + w.toNat * 2 ^ (32 * k)

/-- A source of one lane as a number of its width (R109, R147). -/
def readUse (s : State) (c : Ctx) (l : Nat) (u : RegUse) (off : Nat) : Nat := readWords s c l u off u.words

/-- The entries that the earlier operands of an instruction pop from the queue a later one names (R147, R250). -/
def popsBefore (us : List RegUse) (i : Nat) (name : Nat) : Nat :=
  ((us.take i).filter (fun u => u.name == name && isQueueName u.name)).foldl (fun n u => n + u.words) 0

/-- The i-th source of an instruction in one lane. -/
def srcN (s : State) (c : Ctx) (h : Shape) (l i : Nat) : Nat :=
  match h.reads[i]? with
  | some u => readUse s c l u (popsBefore h.reads i u.name)
  | none => 0

/-- The i-th source as a 32-bit value. -/
def src32 (s : State) (c : Ctx) (h : Shape) (l i : Nat) : W32 := BitVec.ofNat 32 (srcN s c h l i)
/-- The i-th source as a 64-bit value. -/
def src64 (s : State) (c : Ctx) (h : Shape) (l i : Nat) : W64 := BitVec.ofNat 64 (srcN s c h l i)

/-- The queue names an instruction pops, with how many entries each. -/
def popList (h : Shape) : List (Nat × Nat) :=
  (dedupe ((h.reads.filter (fun u => isQueueName u.name)).map (·.name))).map
    (fun n => (n, popsBefore h.reads h.reads.length n))

/-- Pop what the sources named, in each lane that executes (R147). -/
def popReads (c : Ctx) (h : Shape) (lanes : List Nat) (s : State) : State :=
  (popList h).foldl (fun t p =>
    lanes.foldl (fun u l => updQ (c.q l p.1) (fun q => { q with entries := q.entries.drop p.2 }) u) t) s

/-- The consumer slice of a queue (R293): execute for dq0 to dq3, access for sq0, sq1 and cq. -/
def consumerOf (q : Nat) : Slice := if q ≤ 91 then .execute else .access

/-- Whether the consumer thread of a lane's queue has exited its slice (R297). -/
def consumerGone (s : State) (c : Ctx) (l q : Nat) : Bool :=
  (s.thread (thKey (swKey c.run.gid c.run.warp (consumerOf q)) l)).exited

/-- Write the words of a result to a name in one lane (R108): registers, uniform registers, a queue push; void discards. A pushed entry
becomes READY at a tick (R296). -/
def writeWords (c : Ctx) (at_ l name : Nat) (v : Nat) : Nat → State → State
  | 0, s => s
  | k + 1, s =>
    let s := writeWords c at_ l name v k s
    let w : W32 := BitVec.ofNat 32 (v / 2 ^ (32 * k))
    if name < 80 then
      updTh (c.th l) (fun t => writeCode (regCode t name + k) w t) s
    else if 96 ≤ name ∧ name < 112 then
      updSw c.sw (fun x => { x with uni := mput x.uni (name - 96 + k) w, uniPoison := sdel x.uniPoison (name - 96 + k) }) s
    else if isQueueName name then
      if consumerGone s c l name then s
      else updQ (c.q l name) (fun q => { q with entries := q.entries ++ [.coming w at_] }) s
    else s

/-- Remember a value written to a latch (R57). -/
def latchSeen (k : Nat) (v : W64) (x : SliceWarp) : SliceWarp :=
  let h := mget x.latchHist k []
  if h.contains v then x else { x with latchHist := mput x.latchHist k (v :: h) }

/-- Write a fixed-latency result to its latch in one lane (R57, R126). -/
def writeLatch (c : Ctx) (uniform : Bool) (l : Nat) (v : Nat) (s : State) : State :=
  let w : W64 := BitVec.ofNat 64 v
  updSw c.sw (latchSeen c.latchNo w)
    (updTh (c.th l) (fun t => { t with
      latch := mput t.latch c.latchNo w
      latchUni := if uniform then sadd t.latchUni c.latchNo else sdel t.latchUni c.latchNo }) s)

/-- Whether a name holds one value per slice-warp for this PC group (R108, R148). -/
def nameUniform (s : State) (c : Ctx) (n : Nat) : Bool :=
  if isLatchName n then
    match lowestLane c.run.lanes with
    | some l => smem (s.thread (c.th l)).latchUni (n - 80)
    | none => false
  else isUniformName n

/-- A uniform instruction (R99, R148): every source and the destination, if it has one, uniform. -/
def isUniform (s : State) (c : Ctx) (h : Shape) : Bool :=
  (h.lanes == .byOperands || h.lanes == .sameOnce) && h.reads.all (fun u => nameUniform s c u.name)
  && (h.nw || (match h.write with | some u => nameUniform s c u.name | none => true))

/-- The issue cycles of an instruction: 1 when it is uniform, else the passes that hold an active lane (R56, R150). -/
def issueCycles (s : State) (c : Ctx) (uniform : Bool) : Nat :=
  if uniform then 1 else Nat.max 1 (passes (s.core c.core) c.g.launch.protected c.run.lanes)

/-- The tick at which the result of an instruction that issues now becomes readable: L cycles on (R149, R168, R188). -/
def readyAt (s : State) (c : Ctx) (h : Shape) (uniform : Bool) : Nat :=
  s.ticks + 8 * (h.lat.1 * issueCycles s c uniform + h.lat.2)

/-- Write fixed-latency results: lane by lane, or once for the slice-warp when the instruction is uniform or its destination is. Latches
are written beside the destination; with NW = 1 they alone are (R57, R100). -/
def putResults (c : Ctx) (h : Shape) (uniform : Bool) (vals : List (Nat × Nat)) (s : State) : State :=
  match h.write with
  | none => s
  | some u =>
    let at_ := readyAt s c h uniform
    let s := if h.nw then s
      else if 96 ≤ u.name ∧ u.name < 112 then
        (match vals with | (l, v) :: _ => writeWords c at_ l u.name v u.words s | [] => s)
      else vals.foldl (fun t p => writeWords c at_ p.1 u.name p.2 u.words t) s
    if uniform then
      match vals with
      | (_, v) :: _ => (lanesOf c.run.lanes).foldl (fun t l => writeLatch c true l v t) s
      | [] => s
    else vals.foldl (fun t p => writeLatch c false p.1 p.2 t) s

/-- Write a predicate of one lane. -/
def putPred (c : Ctx) (p l : Nat) (b : Bool) (s : State) : State :=
  updTh (c.th l) (fun t =>
    { t with pred := if b then t.pred ||| BitVec.ofNat 24 (2 ^ p) else t.pred &&& ~~~(BitVec.ofNat 24 (2 ^ p)) }) s

/-- A predicate of one lane. -/
def readPred (s : State) (c : Ctx) (l p : Nat) : Bool := bitOf (s.thread (c.th l)).pred.toNat p

/-! ### Checks at issue -/

/-- Reasons that the state decides beside the words (R116): 0x25 for a per-lane result to a uniform destination, 0x29 for a main register
beyond the budget, 0x51 for a queue in the wrong direction or in a coupled grid. -/
def dynamicReasons (s : State) (c : Ctx) (h : Shape) : List Nat :=
  let writes := if h.nw then [] else h.write.toList
  let decoupled := c.g.launch.decoupled
  let wrongRead := fun (n : Nat) => isQueueName n && (!decoupled || consumerOf n != c.run.slice)
  let wrongWrite := fun (n : Nat) => isQueueName n && (!decoupled || consumerOf n == c.run.slice || h.rw
    || (h.write.any (·.data) && decide (n > 91)))
  let budget := c.g.launch.budget c.run.slice
  (if writes.any (fun u => decide (96 ≤ u.name) && decide (u.name < 112)
        && (h.lanes == .perLane || (h.lanes == .byOperands && !isUniform s c h))) then [0x25] else [])
  ++ (if (h.reads ++ writes).any (fun u => decide (u.name < 64) && (lanesOf c.run.lanes).any (fun l =>
        decide (16 * (s.thread (c.th l)).wb + u.name + u.words > budget))) then [0x29] else [])
  ++ (if h.reads.any (fun u => wrongRead u.name) || writes.any (fun u => wrongWrite u.name) then [0x51] else [])

/-- The combinations of types that MXMA accepts (R85): the width class 4, 8 or 16, or none. -/
def widthClass (slot : W64) : Option Nat :=
  let a := bitsOf slot.toNat 3 0
  let b := bitsOf slot.toNat 7 4
  let acc := bitsOf slot.toNat 9 8
  let sa := bitsOf slot.toNat 15 14
  let sb := bitsOf slot.toNat 17 16
  let plain := sa == 0 && sb == 0
  if a = 0 ∧ b = 0 then (if acc = 0 ∨ (acc = 1 ∧ plain) then some 4 else none)
  else if a = 1 ∧ b = 1 ∧ acc = 1 then (if plain then some 8 else none)
  else if (a = 1 ∨ a = 2) ∧ (b = 1 ∨ b = 2) ∧ acc = 0 then some 8
  else if (a = 3 ∨ a = 4) ∧ (b = 3 ∨ b = 4) ∧ acc = 0 then some 16
  else none

/-- Whether a type code is an integer type (R83). -/
def isIntType (t : Nat) : Bool := t == 0 || t == 1 || t == 6 || t == 7

/-- The write class of a system register: 0 U, 1 S, 2 H or none (R133). -/
def sysregWriteClass (n : Nat) : Nat :=
  if n = 0x000 ∨ n = 0x001 ∨ n = 0x002 then 0 else if n = 0x043 then 1 else 2

/-- Reasons that an instruction's own entry gives, from the grid, its slots and its region. -/
def entryReasons (s : State) (c : Ctx) (i : Instr) : List Nat :=
  let l := c.g.launch
  let sup := (spaceOf s c.g).sup
  let slot := fun (w : XWord) => l.slot w.slot.toNat
  let barOut := fun (w : SWord) => if w.d.toNat ≥ l.bars then [0x28] else []
  let qop := fun (w : SWord) (wrong : Bool) => if isQueueName w.a.toNat && (!l.decoupled || wrong) then [0x51] else []
  let stagedNet := if l.staged then [0x2D] else []
  match i with
  | .dist _ _ => if l.persistent then [] else [0x22]
  | .bar w => barOut w
  | .bara w => barOut w
  | .barw w => barOut w
  | .fbar w => barOut w
  | .fcvts _ ctl =>
    if bitOf ctl.toNat 4 && bitsOf (l.slot (bitsOf ctl.toNat 2 0)).toNat 15 14 == 0 then [0x28] else []
  | .mxma w ctl =>
    (if (bitOf ctl.toNat 6 && !isIntType (bitsOf (slot w).toNat 3 0)) || (bitOf ctl.toNat 7 && !isIntType (bitsOf (slot w).toNat 7 4))
      then [0x23] else [])
    ++ (if (widthClass (slot w)).isNone then [0x2B] else [])
  | .mxst w ctl => if bitOf ctl.toNat 25 && bitsOf (slot w).toNat 17 16 == 0 then [0x28] else []
  | .cpart _ _ => if sup then [] else [0x41]
  | .rds _ ctl => if sysregOf ctl = 0x022 && !sup then [0x41] else []
  | .wrs _ ctl =>
    let cl := sysregWriteClass (sysregOf ctl)
    if cl = 0 then [] else if cl = 1 && sup then [] else [0x41]
  | .rput _ _ => stagedNet
  | .rget _ _ => stagedNet
  | .ratom _ _ => stagedNet
  | .npost _ _ => stagedNet
  | .nflush _ _ => stagedNet
  | .lgrid _ _ => stagedNet
  | .qpopp w => qop w (consumerOf w.a.toNat != c.run.slice)
  | .qpeek w => qop w (consumerOf w.a.toNat != c.run.slice)
  | .qflush w => qop w (consumerOf w.a.toNat != c.run.slice)
  | .qclose w => qop w (consumerOf w.a.toNat == c.run.slice)
  | .qlevel w => qop w false
  | _ => []

/-- The reason code an instruction raises at issue, the least that applies (R116, R117). -/
def issueReason (s : State) (c : Ctx) (i : Instr) (h : Shape) : Option Nat :=
  leastReason (staticReasons i ++ dynamicReasons s c h ++ entryReasons s c i)

/-- A poisoned source register of one lane, by its name (R131). -/
def poisonedUse (s : State) (c : Ctx) (l : Nat) (u : RegUse) : Bool :=
  (upFrom 0 u.words).any (fun k =>
    if u.name < 80 then codePoisoned (s.thread (c.th l)) (regCode (s.thread (c.th l)) u.name + k)
    else if 96 ≤ u.name ∧ u.name < 112 then smem (s.sw c.sw).uniPoison (u.name - 96 + k)
    else false)

/-- What stands in the way of reading a lane's queue entries: a FAULTED or POISONED entry (R299), or an entry that is not there yet. -/
inductive QBlock where
  | faulted (cause : Cause) (addr pc : W64)
  | poisoned
  | absent
deriving DecidableEq, Repr

/-- The first obstacle among the first n entries of a queue. A closed queue with no PENDING entry lacks none (R297). -/
def queueBlock (q : Queue) (n : Nat) : Option QBlock :=
  match q.entries.take n with
  | [] => if n = 0 ∨ q.closed then none else some .absent
  | es =>
    match es.find? (fun e => match e with | .ready _ => false | _ => true) with
    | some (.faulted ca a p) => some (.faulted ca a p)
    | some .poisoned => some .poisoned
    | some (.pending _) => some .absent
    | some (.coming _ _) => some .absent
    | _ => if es.length = n ∨ q.closed then none else some .absent

/-- The state of a queue whose pops a run needs, as the run sees it (R60, R297). -/
def popReady (q : Queue) (n : Nat) : Bool :=
  let present := (q.entries.takeWhile QEntry.present).length
  decide (n ≤ present) || (q.closed && decide (present = q.entries.length))

/-- The lanes for which an instruction executes, whether it is uniform, and the lanes whose queues its sources pop: every active lane whose
guard is true, once or not (R147, R294). -/
structure Issue where
  lanes : List Nat
  uniform : Bool
  pops : List Nat
deriving DecidableEq, Repr

/-- The outcome of the checks at issue. -/
inductive Check where
  | go (x : Issue)
  /-- A fault is taken: the next state. -/
  | fault (s : State)
  /-- An interlock: the instruction waits (R56). -/
  | stall
deriving DecidableEq, Repr

/-- The lanes for which an instruction executes (R99, R101, R148). -/
def issueLanes (s : State) (c : Ctx) (h : Shape) : Issue :=
  let ex := execLanes s c h.gsel h.gn
  if isUniform s c h then ⟨ex.take 1, true, ex⟩
  else if h.lanes = .elected then ⟨ex.take 1, false, ex⟩
  else ⟨ex, false, ex⟩

/-- The queue pushes of an instruction: the name and the words of its destination. -/
def pushOf (h : Shape) : Option (Nat × Nat) :=
  match h.write with
  | some u => if !h.nw && isQueueName u.name then some (u.name, u.words) else none
  | none => none

/-- Whether the fence of a slice-warp, if any, still waits for an operation (R261). -/
def fencePending (s : State) (sw : Nat) : Bool :=
  match (s.sw sw).fence with
  | none => false
  | some f => f.ops.any (fun o => (mget? s.flight o).isSome)

/-- RUNAHEAD_FAULT, POISONED entries and closed-queue pushes, for the lanes that execute (R297, R299), and interlocks on queues and on a
fence before a push (R261). -/
def queueCheck (s : State) (c : Ctx) (h : Shape) (x : Issue) : Check :=
  let pops := (match h.queue with | some q => if h.qreads = 0 then [] else [(q, h.qreads)] | none => []) ++ popList h
  let blocked : Option (Nat × Nat × QBlock) := x.pops.findSome? (fun l => pops.findSome? (fun p =>
    (queueBlock (s.queueNow (c.q l p.1)) p.2).map (fun b => (l, p.1, b))))
  match blocked with
  | some (l, _, .faulted ca a p) =>
    .fault (takeFault ⟨.runaheadFault, c.run.gid, c.run.warp, c.run.slice.code, l, true, c.pc.toNat, some p.toNat, a.toNat,
      ca.code + l * 256⟩ s)
  | some (l, n, .poisoned) => .fault (faultAt c .poisonRead 0 n l s)
  | some (_, _, .absent) => .stall
  | none =>
    match pushOf h with
    | none => .go x
    | some (q, n) =>
      if x.lanes.any (fun l => (s.queue (c.q l q)).closed) then .fault (reasonAt c 0x52 s)
      else if fencePending s c.sw then .stall
      else if x.lanes.any (fun l => !consumerGone s c l q
          && decide ((s.queue (c.q l q)).entries.length + n > c.g.launch.queueCap q)) then .stall
      else .go x

/-- POISON_READ first, for the lanes that execute (R131, R147), then the queues. -/
def operandCheck (s : State) (c : Ctx) (h : Shape) (x : Issue) : Check :=
  match x.lanes.findSome? (fun l => (h.reads.find? (poisonedUse s c l)).map (fun u => (l, u.name))) with
  | some (l, n) => .fault (faultAt c .poisonRead 0 n l s)
  | none => queueCheck s c h x

/-- Every check an instruction makes at issue, in order (R117, R147): encoding and privilege by least reason, then POISON_READ and the
queues. -/
def check (s : State) (c : Ctx) (i : Instr) (h : Shape) : Check :=
  match issueReason s c i h with
  | some r => .fault (reasonAt c r s)
  | none => operandCheck s c h (issueLanes s c h)

/-! ### The end of an instruction and of a run -/

/-- The operations in flight that a run of a slice-warp issued, with the registers each writes per lane: register codes for lanes, or
s numbers (R58). -/
def runWrites (s : State) (seq : Nat) : List (Nat × Option Nat × List Nat) :=
  (s.flight.flatMap (fun e =>
    if e.2.runSeq = seq then
      match e.2.dest with
      | .regs => e.2.lanes.map (fun x => (e.1, some x.lane, upFrom x.reg e.2.words))
      | .uni n => [(e.1, none, upFrom n e.2.words)]
      | _ => []
    else []))
  ++ (s.longs.flatMap (fun e =>
    if e.2.runSeq = seq then
      match e.2.dest with
      | .regs => e.2.vals.map (fun v => (e.1, some v.1, upFrom v.2.1 e.2.words))
      | .uni n => [(e.1, none, upFrom n e.2.words)]
      | _ => []
    else []))
  ++ (s.cores.flatMap (fun e => e.2.mxq.flatMap (fun o =>
    if o.runSeq = seq && o.sub == 2 && bitOf o.a0.toNat 31 then
      let n := o.n * typeBits (bitsOf o.slot.toNat 13 10) / 32
      (upFrom 0 64).map (fun l =>
        let f := bitsOf o.a0.toNat 6 0
        (o.op, some l, upFrom (if f < 64 then 16 * nthD 0 o.wbs l + f else 256 + (f - 64)) n))
    else [])))

/-- The register names of a run's trailers (R105). -/
def trailerNames (ts : List W32) : List Nat :=
  (ts.flatMap (fun t => [bitsOf t.toNat 24 18, bitsOf t.toNat 17 11, bitsOf t.toNat 10 4])).filter (· != 127)

/-- Awaited results of a register list (R58): naming one register of an even-odd pair covers the pair. -/
def awaits (names codes : List Nat) : List Nat :=
  codes.filter (fun k => names.any (fun n => n == k || (n / 2 == k / 2 && codes.contains n)))

/-- Make the registers named in the trailers pending for the threads that issued their producers (R58). -/
def applyTrailers (c : Ctx) (r : Run) (s : State) : State :=
  let names := trailerNames r.trailers
  if names.isEmpty then s
  else
    let ws := runWrites s r.seq
    ws.foldl (fun t w =>
      match w.2.1 with
      | none =>
        let un := (names.filter (fun n => decide (96 ≤ n))).map (· - 96)
        updSw c.sw (fun x => { x with uniPending := x.uniPending ++ (awaits un w.2.2).map (fun k => (k, w.1)) }) t
      | some l =>
        if hasLane (r.lanes ||| r.left) l then
          updTh (c.th l) (fun th =>
            let codes := (names.filter (fun n => decide (n < 80))).map (regCode th)
            { th with pending := th.pending ++ (awaits codes w.2.2).map (fun k => (k, w.1)) }) t
        else t) s

/-- The header after a run (R97). -/
def nextHeader (r : Run) : W64 :=
  r.addr + BitVec.ofNat 64 (4 * (1 + r.words.length + r.trailers.length))

/-- The end of a run (R57, R58, R62): trailers apply, latches end, the threads stand at the next header. -/
def endRun (c : Ctx) (r : Run) (s : State) : State :=
  let s := applyTrailers c r s
  let s := (lanesOf r.lanes).foldl (fun t l =>
    updTh (c.th l) (fun th => { th with pc := nextHeader r, pos := none, latch := [], latchUni := [] }) t) s
  setPort ⟨c.core, r.slice⟩ none s

/-- An instruction has issued: time passes, the run moves on by its words and ends after its last one (R56). -/
def advance (c : Ctx) (words cycles : Nat) (s : State) : State :=
  let s := { s with ticks := s.ticks + 8 * cycles, free := s.free + 1 }
  match s.portRun ⟨c.core, c.run.slice⟩ with
  | none => s
  | some r =>
    if r.seq ≠ c.run.seq then s
    else
      let r := { r with pos := c.run.pos + words, skip := 0 }
      if r.pos ≥ r.words.length ∨ lanesOf r.lanes = [] then endRun c r s
      else setPort ⟨c.core, c.run.slice⟩ (some r) s

/-- The words of an instruction. -/
def instrWords (i : Instr) : Nat := (encode i).length

/-- The loads and atomics in flight of the slice-warp of a key (R232, R233). -/
def readsOf (s : State) (k : Nat) : List Nat :=
  (s.flight.filter (fun e => swKey e.2.gid e.2.warp e.2.slice == k
    && (e.2.kind == .load || e.2.kind == .atomic || e.2.kind == .waita))).map (·.1)

/-- The loads and atomics in flight of the slice-warp that issues. -/
def readsInFlight (s : State) (c : Ctx) : List Nat := readsOf s c.sw

/-- The operations of a list that have not returned. -/
def alive (s : State) (ops : List Nat) : List Nat := ops.filter (fun o => (mget? s.flight o).isSome)

/-- What a slice-warp issues now is performed after these have returned (R232, R233). -/
def orderNow (s : State) (c : Ctx) : List Nat := alive s (s.sw c.sw).order

/-- A release that does not stall, or an acquire, of a slice-warp (R232, R233): what it issues from now on is performed only after the loads
and atomics it issued before have returned, and some others. -/
def orderAfter (k : Nat) (ops : List Nat) (s : State) : State :=
  updSw k (fun x => { x with order := dedupe (alive s x.order ++ ops) }) s

/-- Slice-warps whose wait has ended acquire (R231, R233): what they issue from now on is performed after the loads and atomics that they have
in flight. -/
def acquireSws (ks : List Nat) (s : State) : State := ks.foldl (fun t k => orderAfter k (readsOf t k) t) s

/-- The other slice of a warp pair. -/
def Ctx.partner (c : Ctx) : Nat :=
  swKey c.run.gid c.run.warp (match c.run.slice with | .access => .execute | .execute => .access)

/-- Whether an instruction pops a queue: a source that names one, or QPOPP (QPEEK reads without popping). -/
def popsQueue (h : Shape) : Bool := !(popList h).isEmpty || (h.queue.isSome && h.qreads == 1 && h.write.isNone)

/-- A push is a release and a pop an acquire at pair scope (R49, R231 to R233, R237): before is the state at issue. A pop also waits for what
the other slice's pushes release. -/
def pairOrder (before : State) (c : Ctx) (h : Shape) (x : Issue) (s : State) : State :=
  if x.pops.isEmpty then s
  else if popsQueue h then orderAfter c.sw (readsInFlight before c ++ alive before (before.sw c.partner).order) s
  else if (pushOf h).isSome then orderAfter c.sw (readsInFlight before c) s
  else s

/-- ISSUE: the one frame of every instruction. With no run in progress on the focus port it has no effect (log 12). Otherwise its checks
are made (R116, R117); a fault is taken; an interlock leaves the instruction in place for a cycle; and an instruction that may execute
does its act, which ends with advance. -/
def issue (i : Instr) (act : Ctx → Shape → Issue → State → State) (s : State) : Host.Outcome State Fault Refusal :=
  match ctx? s, shape i with
  | some c, some h =>
    match check s c i h with
    | .fault t => .next t
    | .stall => .next { s with ticks := s.ticks + 8 }
    | .go x => .next (pairOrder s c h x (act c h x s))
  | _, _ => .next s

/-- A fixed-latency instruction that computes one result per lane from the values its sources have at issue (R56, R57, R147). -/
def compute (i : Instr) (f : State → Ctx → Shape → Nat → Nat) (s : State) : Host.Outcome State Fault Refusal :=
  issue i (fun c h x s =>
    let vals := x.lanes.map (fun l => (l, f s c h l))
    advance c (instrWords i) (issueCycles s c x.uniform)
      (putResults c h x.uniform vals (popReads c h x.pops s))) s

/-- A two-source 32-bit operation (R152, R155). -/
def alu2 (i : Instr) (f : W32 → W32 → W32) (s : State) : Host.Outcome State Fault Refusal :=
  compute i (fun s c h l => (f (src32 s c h l 0) (src32 s c h l 1)).toNat) s

/-- A one-source 32-bit operation. -/
def alu1 (i : Instr) (f : W32 → W32) (s : State) : Host.Outcome State Fault Refusal :=
  compute i (fun s c h l => (f (src32 s c h l 0)).toNat) s

/-- A three-source 32-bit operation whose third source is D at issue (R147). -/
def alu3 (i : Instr) (f : W32 → W32 → W32 → W32) (s : State) : Host.Outcome State Fault Refusal :=
  compute i (fun s c h l => (f (src32 s c h l 0) (src32 s c h l 1) (src32 s c h l 2)).toNat) s

/-- An operation that writes a predicate per lane (R161, R162, R174). -/
def predicate (i : Instr) (p : Nat) (f : State → Ctx → Shape → Nat → Bool) (s : State) : Host.Outcome State Fault Refusal :=
  issue i (fun c h x s =>
    let vals := x.lanes.map (fun l => (l, f s c h l))
    advance c (instrWords i) (issueCycles s c false)
      (vals.foldl (fun t v => putPred c p v.1 v.2 t) (popReads c h x.pops s))) s

end Sys2Proof.Machine
end

