-- ==== Sys2Proof/Machine/Flags.lean ====
section
/-! DEFINITION. The floating-point flags of a slice-warp (spec/03 R76, 05 R130, 07 R167) and the delivery of FP_EXCEPTION (07 R185). -/

namespace Sys2Proof.Machine

open Sys2Proof

/-- A vector of the five sticky flags (R76). -/
abbrev Fl := BitVec 5

/-- NV, invalid. -/
def flNV : Fl := 1
/-- DZ, divide by zero. -/
def flDZ : Fl := 2
/-- OF, overflow. -/
def flOF : Fl := 4
/-- UF, underflow. -/
def flUF : Fl := 8
/-- NX, inexact. -/
def flNX : Fl := 16

/-- A flag vector under a condition. -/
def flIf (b : Bool) (f : Fl) : Fl := if b then f else 0

/-- OR flags into FPFLAGS of a slice-warp (R167). -/
def mergeFlags (sw : Nat) (f : Fl) (s : State) : State := updSw sw (fun x => { x with fpflags := x.fpflags ||| f }) s

/-- A special function of the slice-warp has not landed (R183). -/
def sfuPending (s : State) (gid warp : Nat) (sl : Slice) : Bool :=
  s.longs.any (fun e => e.2.kind == 1 && e.2.gid == gid && e.2.warp == warp && e.2.slice == sl)

/-- FPFLAGS & FPEN of the issuing slice-warp (R185). -/
def fpTest (s : State) (c : Ctx) : Fl := (s.sw c.sw).fpflags &&& (s.sw c.sw).fpen

/-- FP_EXCEPTION at a delivery point: detail holds FPFLAGS & FPEN in [4:0] and FPFLAGS in [12:8] (R185). -/
def fpException (c : Ctx) (s : State) : State :=
  faultAt c .fpException 0 ((fpTest s c).toNat + (s.sw c.sw).fpflags.toNat * 256) 0xFF s

/-- A delivery point (R185): it waits for special functions in flight, then raises FP_EXCEPTION or goes on. -/
def deliver (c : Ctx) (s : State) (act : State → State) : State :=
  if sfuPending s c.run.gid c.run.warp c.run.slice then { s with ticks := s.ticks + 8 }
  else if fpTest s c ≠ 0 then fpException c s
  else act s

end Sys2Proof.Machine
end

