-- ==== Sys2Proof/Machine/Float.lean ====
section
/-! DEFINITION. Number formats (spec/03 R69 to R81): exact values, one rounding function with its flags, tf8, conversions, and the
special functions of 07 R176 and R177. -/

namespace Sys2Proof.Machine

open Sys2Proof

/-- A value read exactly: NaN with its sign and whether it signals, infinity, zero, or ± m × 2^e with m > 0. -/
inductive FV where
  | nan (neg sig : Bool)
  | inf (neg : Bool)
  | zero (neg : Bool)
  | fin (neg : Bool) (m : Nat) (e : Int)
deriving DecidableEq, Repr

/-- The sign of a value. -/
def FV.neg : FV → Bool
  | .nan n _ => n
  | .inf n => n
  | .zero n => n
  | .fin n _ _ => n

/-- Whether a value is a NaN. -/
def FV.isNan : FV → Bool
  | .nan _ _ => true
  | _ => false

/-- Whether a value is a signalling NaN. -/
def FV.isSig : FV → Bool
  | .nan _ g => g
  | _ => false

/-- A value with its sign inverted. -/
def FV.negate : FV → FV
  | .nan n g => .nan (!n) g
  | .inf n => .inf (!n)
  | .zero n => .zero (!n)
  | .fin n m e => .fin (!n) m e

/-- The canonical quiet NaN. -/
def FV.qnan : FV := .nan false false

/-- An IEEE format: exponent bits and fraction bits (R71). -/
structure Fmt where
  eb : Nat
  fb : Nat
deriving DecidableEq, Repr

/-- fp32. -/
def fp32 : Fmt := ⟨8, 23⟩
/-- fp16. -/
def fp16 : Fmt := ⟨5, 10⟩
/-- bf16. -/
def bf16 : Fmt := ⟨8, 7⟩

/-- The bias of a format. -/
def Fmt.bias (f : Fmt) : Nat := 2 ^ (f.eb - 1) - 1
/-- The exponent of the smallest normal. -/
def Fmt.emin (f : Fmt) : Int := 1 - (f.bias : Int)
/-- The encoding of infinity. -/
def Fmt.infBits (f : Fmt) : Nat := (2 ^ f.eb - 1) * 2 ^ f.fb
/-- The canonical NaN (R71, R73). -/
def Fmt.nanBits (f : Fmt) : Nat := f.infBits + 2 ^ (f.fb - 1)
/-- The sign bit. -/
def Fmt.signBit (f : Fmt) (neg : Bool) : Nat := if neg then 2 ^ (f.eb + f.fb) else 0

/-- Read an encoding (R71, R72). -/
def Fmt.read (f : Fmt) (x : Nat) : FV :=
  let neg := bitOf x (f.eb + f.fb)
  let e := x / 2 ^ f.fb % 2 ^ f.eb
  let m := x % 2 ^ f.fb
  if e = 2 ^ f.eb - 1 then (if m = 0 then .inf neg else .nan neg (m < 2 ^ (f.fb - 1)))
  else if e = 0 then (if m = 0 then .zero neg else .fin neg m (f.emin - f.fb))
  else .fin neg (m + 2 ^ f.fb) ((e : Int) - f.bias - f.fb)

/-- A nonzero natural number times 2^e rounded to a multiple of 2^q under a mode (R74): the multiple, and whether it changed. -/
def roundTo (mode : Nat) (neg : Bool) (m : Nat) (e q : Int) : Nat × Bool :=
  if q ≤ e then (m * 2 ^ (e - q).toNat, false)
  else
    let d := 2 ^ (q - e).toNat
    let k := m / d
    let r := m % d
    if r = 0 then (k, false)
    else
      let up := match mode with
        | 0 => decide (2 * r > d) || (decide (2 * r = d) && k % 2 == 1)
        | 1 => false
        | 2 => neg
        | _ => !neg
      (if up then k + 1 else k, true)

/-- ± m × 2^e with m > 0 rounded once to a format (R72, R74 to R76): encoding and flags. -/
def Fmt.roundFin (f : Fmt) (mode : Nat) (sat neg : Bool) (m : Nat) (e : Int) : Nat × Fl :=
  let l : Int := (m.log2 : Int) + e
  let q : Int := max l f.emin - f.fb
  let (k, nx) := roundTo mode neg m e q
  let ku := (roundTo mode neg m e (l - f.fb)).1
  let tiny := decide ((ku.log2 : Int) + (l - f.fb) < f.emin)
  if (k.log2 : Int) + q > f.bias then
    let top := match mode with
      | 0 => false
      | 1 => true
      | 2 => !neg
      | _ => neg
    (f.signBit neg + (if top || sat then f.infBits - 1 else f.infBits), flOF ||| flNX)
  else (f.signBit neg + ((q + f.fb + f.bias - 1).toNat * 2 ^ f.fb + k), flIf nx flNX ||| flIf (nx && tiny) flUF)

/-- A value written in a format in one rounding (R73, R75, R81): encoding and flags. -/
def Fmt.write (f : Fmt) (mode : Nat) (sat : Bool) : FV → Nat × Fl
  | .nan _ g => (f.nanBits, flIf g flNV)
  | .inf n => (f.signBit n + (if sat then f.infBits - 1 else f.infBits), 0)
  | .zero n => (f.signBit n, 0)
  | .fin n m e => f.roundFin mode sat n m e

/-- The value ± m × 2^e of an integer at an exponent. -/
def FV.ofInt (v : Int) (e : Int) : FV := if v = 0 then .zero false else .fin (decide (v < 0)) v.natAbs e

/-! ### Exact arithmetic -/

/-- a + b, exactly, with the invalid flag (R171, R92). An exact zero sum of unlike signs is +0, or −0 under RDN. -/
def fvAdd (mode : Nat) (a b : FV) : FV × Fl :=
  let sig := flIf (a.isSig || b.isSig) flNV
  match a, b with
  | .nan _ _, _ => (.qnan, sig)
  | _, .nan _ _ => (.qnan, sig)
  | .inf x, .inf y => if x = y then (.inf x, 0) else (.qnan, flNV)
  | .inf x, _ => (.inf x, 0)
  | _, .inf y => (.inf y, 0)
  | .zero x, .zero y => (.zero (if x = y then x else mode == 2), 0)
  | .zero _, .fin n m e => (.fin n m e, 0)
  | .fin n m e, .zero _ => (.fin n m e, 0)
  | .fin n m e, .fin n' m' e' =>
    let c := min e e'
    let x : Int := (m * 2 ^ (e - c).toNat : Nat)
    let y : Int := (m' * 2 ^ (e' - c).toNat : Nat)
    let v := (if n then -x else x) + (if n' then -y else y)
    (if v = 0 then .zero (mode == 2) else FV.ofInt v c, 0)

/-- a × b, exactly, with the invalid flag (R171). -/
def fvMul (a b : FV) : FV × Fl :=
  let sig := flIf (a.isSig || b.isSig) flNV
  let n := a.neg != b.neg
  match a, b with
  | .nan _ _, _ => (.qnan, sig)
  | _, .nan _ _ => (.qnan, sig)
  | .inf _, .zero _ => (.qnan, flNV)
  | .zero _, .inf _ => (.qnan, flNV)
  | .inf _, _ => (.inf n, 0)
  | _, .inf _ => (.inf n, 0)
  | .zero _, _ => (.zero n, 0)
  | _, .zero _ => (.zero n, 0)
  | .fin _ m e, .fin _ m' e' => (.fin n (m * m') (e + e'), 0)

/-- round(a + b) in a format (R171). -/
def Fmt.add (f : Fmt) (mode a b : Nat) : Nat × Fl :=
  let (v, x) := fvAdd mode (f.read a) (f.read b)
  let (r, y) := f.write mode false v
  (r, x ||| y)

/-- round(a - b). -/
def Fmt.sub (f : Fmt) (mode a b : Nat) : Nat × Fl :=
  let (v, x) := fvAdd mode (f.read a) (f.read b).negate
  let (r, y) := f.write mode false v
  (r, x ||| y)

/-- round(a × b). -/
def Fmt.mul (f : Fmt) (mode a b : Nat) : Nat × Fl :=
  let (v, x) := fvMul (f.read a) (f.read b)
  let (r, y) := f.write mode false v
  (r, x ||| y)

/-- round(a × b + c), the product not rounded (R171): 0 × ∞ sets NV even when c is a quiet NaN. -/
def Fmt.fma (f : Fmt) (mode a b c : Nat) : Nat × Fl :=
  let (p, x) := fvMul (f.read a) (f.read b)
  let (v, y) := fvAdd mode p (f.read c)
  let (r, z) := f.write mode false v
  (r, x ||| y ||| z)

/-- A comparison of two values that are not NaN: less, equal or greater; −0 equals +0 (R174). -/
def fvCmp (a b : FV) : Ordering :=
  let key : FV → Int → Int := fun v c => match v with
    | .fin n m e => (if n then -1 else 1) * (m * 2 ^ (e - c).toNat : Nat)
    | _ => 0
  match a, b with
  | .inf x, .inf y => if x = y then .eq else if x then .lt else .gt
  | .inf x, _ => if x then .lt else .gt
  | _, .inf y => if y then .gt else .lt
  | _, _ =>
    let ea := match a with | .fin _ _ e => e | _ => 0
    let eb := match b with | .fin _ _ e => e | _ => 0
    let c := min ea eb
    compare (key a c) (key b c)

/-- FMIN and FMAX (R172): the number when one operand is NaN, −0 below +0. -/
def fvMinMax (isMax : Bool) (x y : Nat) : Nat × Fl :=
  let a := fp32.read x
  let b := fp32.read y
  let f := flIf (a.isSig || b.isSig) flNV
  if a.isNan && b.isNan then (fp32.nanBits, f)
  else if a.isNan then (y, f)
  else if b.isNan then (x, f)
  else
    match fvCmp a b with
    | .lt => (if isMax then y else x, f)
    | .gt => (if isMax then x else y, f)
    | .eq => (if a.neg == isMax then y else x, f)

/-- FRND (R175). -/
def fvRnd (mode x : Nat) : Nat × Fl :=
  match fp32.read x with
  | .nan _ g => (fp32.nanBits, flIf g flNV)
  | .inf _ => (x, 0)
  | .zero _ => (x, 0)
  | .fin n m e =>
    if e ≥ 0 then (x, 0)
    else
      let k := (roundTo mode n m e 0).1
      if k = 0 then (fp32.signBit n, 0) else ((fp32.roundFin 1 false n k 0).1, 0)

/-! ### tf8 -/

/-- The magnitude of a tf8 code in units of 2^−18 (R77). -/
def tf8Mag (c : Nat) : Nat :=
  let v := c % 128
  let z := 6 - v.log2
  let sh := fun (e : Int) (frac fb : Nat) => (2 ^ fb + frac) * 2 ^ (e + 18 - fb).toNat
  if v = 0 then 0
  else match z with
    | 0 => sh (bitsOf v 5 4 - 2) (bitsOf v 3 0) 4
    | 1 => sh (if bitOf v 4 then 2 + bitsOf v 3 2 else (bitsOf v 3 2 : Int) - 6) (bitsOf v 1 0) 2
    | 2 => sh (if bitOf v 3 then 6 + bitsOf v 2 1 else (bitsOf v 2 1 : Int) - 10) (bitsOf v 0 0) 1
    | 3 => sh (if bitOf v 2 then 10 + bitsOf v 1 0 else (bitsOf v 1 0 : Int) - 14) 0 0
    | 4 => sh (if bitOf v 1 then 14 + bitsOf v 0 0 else (bitsOf v 0 0 : Int) - 16) 0 0
    | 5 => sh (if bitOf v 0 then 16 else -17) 0 0
    | _ => 1

/-- The tier of a tf8 code (R77). -/
def tf8Tier (c : Nat) : Nat := 6 - (c % 128).log2

/-- Read a tf8 element: NaR reads as a signalling NaN, which sets NV where it is read (R76, R80). -/
def tf8Read (c : Nat) : FV :=
  if c % 256 = 0x80 then .nan false true
  else FV.ofInt ((if bitOf c 7 then -1 else 1) * (tf8Mag c : Int)) (-18)

/-- The tf8 codes in ascending magnitude (R78). -/
def tf8Codes : List Nat :=
  [0x01, 0x02, 0x04, 0x05] ++ upFrom 0x08 4 ++ upFrom 0x10 8 ++ upFrom 0x20 16 ++ upFrom 0x40 64 ++ upFrom 0x30 16 ++ upFrom 0x18 8
  ++ upFrom 0x0C 4 ++ [0x06, 0x07, 0x03]

/-- The nearer of two tf8 codes to a magnitude x/u in units of 2^−18 strictly between them (R79). -/
def tf8Pick (x u lo hi : Nat) : Nat :=
  let dl := x - tf8Mag lo * u
  let dh := tf8Mag hi * u - x
  if dl < dh then lo
  else if dh < dl then hi
  else if lo % 2 ≠ hi % 2 then (if lo % 2 = 0 then lo else hi)
  else if tf8Tier lo < tf8Tier hi then lo else hi

/-- The tf8 code of a magnitude x/u in units of 2^−18 from 1 to 2^34: exact, or the nearer neighbour; and whether it is inexact. -/
def tf8Search (x u : Nat) : List Nat → Nat × Bool
  | [] => (0x03, false)
  | [c] => (c, false)
  | c :: d :: rest =>
    if x = tf8Mag c * u then (c, false)
    else if x < tf8Mag d * u then (tf8Pick x u c d, true)
    else tf8Search x u (d :: rest)

/-- Conversion to tf8 (R79). -/
def tf8Write (sat : Bool) : FV → Nat × Fl
  | .nan _ g => (0x80, flIf g flNV)
  | .inf n => (if sat then (if n then 0x83 else 0x03) else 0x80, flNV)
  | .zero _ => (0, 0)
  | .fin n m e =>
    let x := if e + 18 ≥ 0 then m * 2 ^ (e + 18).toNat else m
    let u := if e + 18 ≥ 0 then 1 else 2 ^ (-(e + 18)).toNat
    let sg := if n then 128 else 0
    if x > 2 ^ 34 * u then (sg + 0x03, flOF ||| flNX)
    else if 2 * x < u then (0, flUF ||| flNX)
    else if x < u then (sg + 0x01, flUF ||| flNX)
    else
      let (c, nx) := tf8Search x u tf8Codes
      (sg + c, flIf nx flNX)

/-! ### Types and conversions (R81, R83) -/

/-- The floating-point format of a type code. -/
def typeFmt (t : Nat) : Option Fmt :=
  match t with
  | 3 => some fp16
  | 4 => some bf16
  | 5 => some fp32
  | _ => none

/-- An integer of a type code, by its signedness. -/
def intOf (t : Nat) (sgn : Bool) (x : Nat) : Int :=
  if sgn then sextInt x (typeBits t) else (x % 2 ^ typeBits t : Nat)

/-- An element of a type code, read exactly. -/
def readType (t : Nat) (sgn : Bool) (x : Nat) : FV :=
  match typeFmt t with
  | some f => f.read (x % 2 ^ typeBits t)
  | none => if t = 2 then tf8Read x else FV.ofInt (intOf t sgn x) 0

/-- The ends of the range of an integer type. -/
def intMin (t : Nat) (sgn : Bool) : Int := if sgn then -(2 ^ (typeBits t - 1) : Nat) else 0
/-- The upper end. -/
def intMax (t : Nat) (sgn : Bool) : Int := if sgn then (2 ^ (typeBits t - 1) : Nat) - 1 else (2 ^ typeBits t : Nat) - 1

/-- A real value to an integer type (R81): it always saturates. -/
def realToInt (t mode : Nat) (sgn : Bool) (v : FV) : Nat × Fl :=
  let put := fun (x : Int) => zextInt x (typeBits t)
  match v with
  | .nan _ _ => (0, flNV)
  | .inf n => (put (if n then intMin t sgn else intMax t sgn), flNV)
  | .zero _ => (0, 0)
  | .fin n m e =>
    let (k, nx) := roundTo mode n m e 0
    let x : Int := if n then -(k : Int) else k
    if x < intMin t sgn then (put (intMin t sgn), flNV)
    else if x > intMax t sgn then (put (intMax t sgn), flNV)
    else (put x, flIf nx flNX)

/-- An integer to an integer type (R81): a narrower one clamps under sat and keeps the low bits without it. -/
def intToInt (t : Nat) (sat sgn : Bool) (x : Int) : Nat :=
  let y := if sat then max (intMin t sgn) (min (intMax t sgn) x) else x
  zextInt y (typeBits t)

/-- A real value to a type (R79 to R81). -/
def convertReal (t mode : Nat) (sat sgn : Bool) (v : FV) : Nat × Fl :=
  match typeFmt t with
  | some f => f.write mode sat v
  | none => if t = 2 then tf8Write sat v else realToInt t mode sgn v

/-- The conversion of an element of one type to another (R81, R181). -/
def convertElem (src dst mode : Nat) (sat sgn : Bool) (x : Nat) : Nat × Fl :=
  if isIntType src && isIntType dst then (intToInt dst sat sgn (intOf src sgn x), 0)
  else convertReal dst mode sat sgn (readType src sgn x)

/-- Element i of a packed 32-bit word (R70). -/
def elemOf (t : Nat) (x i : Nat) : Nat := x / 2 ^ (typeBits t * i) % 2 ^ typeBits t

/-! ### Special functions (07 R176, R177) -/

/-- floor(sqrt(x)) by bits. -/
def isqrtBits (x : Nat) : Nat → Nat → Nat
  | 0, r => r
  | i + 1, r => if (r + 2 ^ i) * (r + 2 ^ i) ≤ x then isqrtBits x i (r + 2 ^ i) else isqrtBits x i r

/-- floor(sqrt(x)). -/
def isqrt (x : Nat) : Nat := isqrtBits x (x.log2 / 2 + 1) 0

/-- FSQRT of a positive value: the root with at least 40 bits and a sticky bit below, rounded once. -/
def sqrtFin (mode : Nat) (m : Nat) (e : Int) : Nat × Fl :=
  let sh : Nat := if e % 2 = 0 then 96 else 97
  let r := isqrt (m * 2 ^ sh)
  let sticky := if r * r = m * 2 ^ sh then 0 else 1
  fp32.roundFin mode false false (2 * r + sticky) ((e - sh) / 2 - 1)

/-- floor(π × 2^720). -/
def piFix : Nat :=
  0x3243f6a8885a308d313198a2e03707344a4093822299f31d0082efa98ec4e6c89452821e638d01377be5466cf34e90c6cc0ac29b7c97c50dd3f84d5b5b54709179216d5d98979fb1bd1310ba698dfb5ac2ffd72dbd01adfb7b8e1
/-- The unit in which the series are summed: 2^−512. -/
def fixBits : Nat := 512
/-- floor(ln 2 × 2^512). -/
def ln2Fix : Int :=
  0xb17217f7d1cf79abc9e3b39803f2f6af40f343267298b62d8a0d175b8baafa2be7b876206debac98559552fb4afa1b10ed2eae35c138214427573b291169b825
/-- 1 in that unit. -/
def oneFix : Int := 2 ^ fixBits

/-- The sum of a power series from term t: each next term is t × num / (1 × den k). -/
def series (num : Int) (den : Nat → Int) : Nat → Nat → Int → Int
  | 0, _, _ => 0
  | fuel + 1, k, t => t + series num den fuel (k + 1) (t * num / oneFix / den k)

/-- 2^f for a fraction f of 0 to 1. -/
def exp2Fix (f : Int) : Int := series (f * ln2Fix / oneFix) (fun k => (k : Int) + 1) 110 0 oneFix

/-- The sum over odd powers z^(2k+1)/(2k+1), for the logarithm. -/
def atanhFix (z2 : Int) : Nat → Nat → Int → Int
  | 0, _, _ => 0
  | fuel + 1, k, p => p / (2 * (k : Int) + 1) + atanhFix z2 fuel (k + 1) (p * z2 / oneFix)

/-- log2 of m × 2^e with m > 0. -/
def log2Fix (m : Nat) (e : Int) : Int :=
  let l := m.log2
  let z : Int := (((m : Int) - (2 ^ l : Nat)) * oneFix) / ((m : Int) + (2 ^ l : Nat))
  let ln := 2 * atanhFix (z * z / oneFix) 165 0 z
  ((l : Int) + e) * oneFix + ln * oneFix / ln2Fix

/-- The magnitude m × 2^e in units of 2^−n. -/
def fixOf (n m : Nat) (e : Int) : Int :=
  if e + n ≥ 0 then (m * 2 ^ (e + n).toNat : Nat) else (m / 2 ^ (-(e + n)).toNat : Nat)

/-- The angle ± m × 2^e reduced to 0 to 2π: with π to 720 bits the reduction is good to 2^−512 for every fp32 angle. -/
def reduceAngle (neg : Bool) (m : Nat) (e : Int) : Int :=
  let x := fixOf 720 m e
  ((if neg then -x else x) % (2 * (piFix : Int))) / 2 ^ (720 - fixBits)

/-- sin of an angle. -/
def sinFix (r : Int) : Int := series (-(r * r / oneFix)) (fun k => (2 * (k : Int) + 2) * (2 * (k : Int) + 3)) 80 0 r
/-- cos. -/
def cosFix (r : Int) : Int := series (-(r * r / oneFix)) (fun k => (2 * (k : Int) + 1) * (2 * (k : Int) + 2)) 80 0 oneFix

/-- tanh of ± m × 2^e with magnitude below 9. -/
def tanhFix (neg : Bool) (m : Nat) (e : Int) : Int :=
  let x := 2 * fixOf fixBits m e
  let y := x * oneFix / ln2Fix
  let p := exp2Fix (y % oneFix) * 2 ^ (y / oneFix).toNat
  let t := (p - oneFix) * oneFix / (p + oneFix)
  if neg then -t else t

/-- A bound on the error of these sums, in their unit. -/
def fixErr : Nat := 2 ^ 64

/-- The place of an fp32 encoding in the order of values: −0 stands just below +0. -/
def ordOf (x : Nat) : Int := if x < 2 ^ 31 then x else (2 ^ 31 : Int) - 1 - x
/-- The encoding at a place of that order. -/
def ofOrd (i : Int) : Nat := if i ≥ 0 then i.toNat else ((2 ^ 31 : Int) - 1 - i).toNat

/-- A value within n × 2^b of a true result that lies within err × 2^e of t × 2^e: the least and greatest fp32 values that the bound admits
whatever that error, and a fixed choice among them (R176). No fp32 value lies as near the end of the bound as the error is. -/
def pickWithin (code : Nat) (x : W32) (t e : Int) (err n : Nat) (b : Int) : Nat :=
  let c := min e b
  let mid := t * (2 ^ (e - c).toNat : Nat)
  let half : Int := ((n * 2 ^ (b - c).toNat : Nat) : Int) - (err * 2 ^ (e - c).toNat : Nat)
  let lo := (fp32.write 3 true (FV.ofInt (mid - half) c)).1
  let hi := (fp32.write 2 true (FV.ofInt (mid + half) c)).1
  ofOrd (ordOf lo + (Config.specialChoice code x % (ordOf hi - ordOf lo + 1).toNat : Nat))

/-- The exponent of one fp32 ulp at t × 2^e; below the normal range the bound is absolute, 2^−149 (R176). -/
def ulpExp (t e : Int) : Int := max ((t.natAbs.log2 : Int) + e) (-126) - 23
/-- Whether t × 2^e lies in the subnormal range. -/
def isSubTrue (t e : Int) : Bool := decide ((t.natAbs.log2 : Int) + e < -126)

/-- A value within n ulps, with the flags of an inexact result (R176). -/
def pickUlps (code : Nat) (x : W32) (t e : Int) (err n : Nat) : Nat :=
  if isSubTrue t e then pickWithin code x t e err 1 (-149) else pickWithin code x t e err n (ulpExp t e)

/-- NX for a finite nonzero result, UF beside it when the result is subnormal (R176). -/
def specialFlags (r : Nat) : Nat × Fl :=
  let mag := r % 2 ^ 31
  (r, if mag = 0 then 0 else if mag < 2 ^ 23 then flNX ||| flUF else flNX)

/-- FRCP (R176, R177). -/
def sfRcp (x : W32) : Nat × Fl :=
  match fp32.read x.toNat with
  | .nan _ g => (fp32.nanBits, flIf g flNV)
  | .inf n => (fp32.signBit n, 0)
  | .zero n => (fp32.signBit n + fp32.infBits, flDZ)
  | .fin n m e =>
    if x.toNat % 2 ^ 31 < 2 ^ 23 then (fp32.signBit n + fp32.infBits, flOF ||| flNX)
    else if m = 2 ^ m.log2 then fp32.write 0 false (.fin n 1 (-(e + m.log2)))
    else specialFlags (pickUlps 0x48 x ((if n then -1 else 1) * (2 ^ 160 / (m : Int))) (-160 - e) 1 1)

/-- FRSQ. -/
def sfRsq (x : W32) : Nat × Fl :=
  match fp32.read x.toNat with
  | .nan _ g => (fp32.nanBits, flIf g flNV)
  | .inf n => if n then (fp32.nanBits, flNV) else (0, 0)
  | .zero n => (fp32.signBit n + fp32.infBits, flDZ)
  | .fin true _ _ => (fp32.nanBits, flNV)
  | .fin false m e =>
    if m = 2 ^ m.log2 ∧ (e + m.log2) % 2 = 0 then fp32.write 0 false (.fin false 1 (-((e + m.log2) / 2)))
    else
      let o : Int := e % 2
      let r := isqrt (2 ^ 400 / (m * 2 ^ o.toNat))
      specialFlags (pickUlps 0x49 x r (-200 - (e - o) / 2) 1 2)

/-- FSQRT: IEEE 754 squareRoot under a mode. -/
def sfSqrt (mode : Nat) (x : W32) : Nat × Fl :=
  match fp32.read x.toNat with
  | .nan _ g => (fp32.nanBits, flIf g flNV)
  | .inf n => if n then (fp32.nanBits, flNV) else (x.toNat, 0)
  | .zero _ => (x.toNat, 0)
  | .fin true _ _ => (fp32.nanBits, flNV)
  | .fin false m e => sqrtFin mode m e

/-- FEXP2. -/
def sfExp2 (x : W32) : Nat × Fl :=
  match fp32.read x.toNat with
  | .nan _ g => (fp32.nanBits, flIf g flNV)
  | .inf n => (if n then 0 else fp32.infBits, 0)
  | .zero _ => (0x3F800000, 0)
  | .fin n m e =>
    let y := fixOf fixBits m e
    let y := if n then -y else y
    let whole := y / oneFix
    if whole ≥ 128 then (fp32.infBits, flOF ||| flNX)
    else if whole < -150 ∨ (whole = -150 ∧ y % oneFix = 0) then (0, flUF ||| flNX)
    else if y % oneFix = 0 then fp32.write 0 false (.fin false 1 whole)
    else specialFlags (pickUlps 0x4A x (exp2Fix (y % oneFix)) (whole - fixBits) fixErr 2)

/-- FLOG2. -/
def sfLog2 (x : W32) : Nat × Fl :=
  match fp32.read x.toNat with
  | .nan _ g => (fp32.nanBits, flIf g flNV)
  | .inf n => if n then (fp32.nanBits, flNV) else (fp32.infBits, 0)
  | .zero _ => (fp32.signBit true + fp32.infBits, flDZ)
  | .fin true _ _ => (fp32.nanBits, flNV)
  | .fin false m e =>
    if m = 2 ^ m.log2 then fp32.write 0 false (FV.ofInt (e + m.log2) 0)
    else
      let t := log2Fix m e
      let near := decide (0x3F000000 ≤ x.toNat) && decide (x.toNat ≤ 0x40000000)
      specialFlags (if near then pickWithin 0x4B x t (-fixBits) fixErr 1 (-22) else pickUlps 0x4B x t (-fixBits) fixErr 2)

/-- FSIN. -/
def sfSin (x : W32) : Nat × Fl :=
  match fp32.read x.toNat with
  | .nan _ g => (fp32.nanBits, flIf g flNV)
  | .inf _ => (fp32.nanBits, flNV)
  | .zero _ => (x.toNat, 0)
  | .fin n m e => specialFlags (pickWithin 0x4C x (sinFix (reduceAngle n m e)) (-fixBits) fixErr 1 (-21))

/-- FCOS. -/
def sfCos (x : W32) : Nat × Fl :=
  match fp32.read x.toNat with
  | .nan _ g => (fp32.nanBits, flIf g flNV)
  | .inf _ => (fp32.nanBits, flNV)
  | .zero _ => (0x3F800000, 0)
  | .fin n m e => specialFlags (pickWithin 0x4D x (cosFix (reduceAngle n m e)) (-fixBits) fixErr 1 (-21))

/-- FTANH. -/
def sfTanh (x : W32) : Nat × Fl :=
  match fp32.read x.toNat with
  | .nan _ g => (fp32.nanBits, flIf g flNV)
  | .inf n => (fp32.signBit n + 0x3F800000, 0)
  | .zero _ => (x.toNat, 0)
  | .fin n m e =>
    if x.toNat % 2 ^ 31 ≥ 0x41100000 then specialFlags (fp32.signBit n + 0x3F800000)
    else
      let t := tanhFix n m e
      specialFlags (if ulpExp t (-fixBits) + 1 > -22 then pickWithin 0x4E x t (-fixBits) fixErr 2 (ulpExp t (-fixBits))
        else pickWithin 0x4E x t (-fixBits) fixErr 1 (-22))

end Sys2Proof.Machine
end

