-- ==== Sys2Proof/Machine/Integer.lean ====
section
/-! DEFINITION. Integer, address, predicate, window and system register instructions (spec/06). -/

namespace Sys2Proof.Machine

open Sys2Proof

/-! ### Long-latency results (02 R58) -/

/-- Where a destination name of a lane is written when a long-latency result lands. -/
def destOf (name : Nat) : Dest :=
  if name < 80 then .regs
  else if 96 ≤ name ∧ name < 112 then .uni (name - 96)
  else if isQueueName name then .queue name
  else .drop

/-- Reserve queue entries for an operation in the lanes of a slice-warp (R169, R254, R295): each becomes PENDING. -/
def reserveQ (c : Ctx) (q op words : Nat) (lanes : List Nat) (s : State) : State :=
  lanes.foldl (fun t l =>
    if consumerGone t c l q then t
    else updQ (c.q l q) (fun x => { x with entries := x.entries ++ List.replicate words (.pending op) }) t) s

/-- Start a long-latency result (R58): its values and flags are those of issue, its registers are written when it lands. -/
def launchLong (c : Ctx) (h : Shape) (kind : Nat) (ready : Bool) (vals : List (Nat × Nat)) (fl : Fl) (s : State) : State :=
  match h.write with
  | none => s
  | some u =>
    let (op, s) := freshId s
    let d := destOf u.name
    let rcd : Long :=
      { kind := kind, gid := c.run.gid, warp := c.run.warp, slice := c.run.slice, core := c.core, runSeq := c.run.seq, dest := d
        vals := vals.map (fun p => (p.1, regCode (s.thread (c.th p.1)) u.name, BitVec.ofNat 128 p.2))
        words := u.words, flags := fl, ready := ready }
    let s := { s with longs := mput s.longs op rcd }
    match d with
    | .queue q => reserveQ c q op u.words (vals.map (·.1)) s
    | _ => s

/-- A long-latency instruction that computes one result per lane from its sources at issue. -/
def longLatency (i : Instr) (kind : Nat) (f : State → Ctx → Shape → Nat → Nat × Fl) (s : State) : Host.Outcome State Fault Refusal :=
  issue i (fun c h x s =>
    let rs := x.lanes.map (fun l => (l, f s c h l))
    let fl := rs.foldl (fun a r => a ||| r.2.2) 0
    let t := popReads c h x.pops s
    let t := if x.lanes.isEmpty then t else launchLong c h kind true (rs.map (fun r => (r.1, r.2.1))) fl t
    advance c (instrWords i) (issueCycles s c x.uniform) t) s

/-! ### Arithmetic (R152) -/

/-- NOP (R150): one cycle. -/
def execNop (w : RWord) (s : State) : Host.Outcome State Fault Refusal :=
  issue (.nop w) (fun c _ _ s => advance c 1 1 s) s

/-- ADD. -/
def execAdd (w : RWord) (s : State) : Host.Outcome State Fault Refusal := alu2 (.add w) (fun a b => a + b) s
/-- SUB. -/
def execSub (w : RWord) (s : State) : Host.Outcome State Fault Refusal := alu2 (.sub w) (fun a b => a - b) s
/-- ADDI: the immediate is B sign-extended. -/
def execAddi (w : RWord) (s : State) : Host.Outcome State Fault Refusal := alu1 (.addi w) (fun a => a + w.b.signExtend 32) s
/-- ADDL: the literal is the second word. -/
def execAddl (w : RWord) (ctl : W32) (s : State) : Host.Outcome State Fault Refusal := alu1 (.addl w ctl) (fun a => a + ctl) s
/-- MUL, the low half. -/
def execMul (w : RWord) (s : State) : Host.Outcome State Fault Refusal := alu2 (.mul w) (fun a b => a * b) s
/-- MULH, the high half of the signed product. -/
def execMulh (w : RWord) (s : State) : Host.Outcome State Fault Refusal :=
  alu2 (.mulh w) (fun a b => BitVec.ofInt 32 (a.toInt * b.toInt / 2 ^ 32)) s
/-- MULHU, the high half of the unsigned product. -/
def execMulhu (w : RWord) (s : State) : Host.Outcome State Fault Refusal :=
  alu2 (.mulhu w) (fun a b => BitVec.ofNat 32 (a.toNat * b.toNat / 2 ^ 32)) s
/-- MADD: D read at issue. -/
def execMadd (w : RWord) (s : State) : Host.Outcome State Fault Refusal := alu3 (.madd w) (fun a b d => d + a * b) s
/-- ABS: the most negative value gives itself. -/
def execAbs (w : RWord) (s : State) : Host.Outcome State Fault Refusal := alu1 (.abs w) (fun a => if a.msb then -a else a) s

/-! ### Division (R153) -/

/-- DIV of two words: toward zero, all ones by zero, the overflowing case gives the dividend. -/
def divWord (a b : W32) : W32 :=
  if b = 0 then 0xFFFFFFFF else BitVec.ofInt 32 (a.toInt.tdiv b.toInt)
/-- REM of two words: the sign of the dividend, the dividend by zero. -/
def remWord (a b : W32) : W32 :=
  if b = 0 then a else BitVec.ofInt 32 (a.toInt - a.toInt.tdiv b.toInt * b.toInt)
/-- DIVU of two words. -/
def divuWord (a b : W32) : W32 := if b = 0 then 0xFFFFFFFF else BitVec.ofNat 32 (a.toNat / b.toNat)
/-- REMU of two words. -/
def remuWord (a b : W32) : W32 := if b = 0 then a else BitVec.ofNat 32 (a.toNat % b.toNat)

/-- DIV. -/
def execDiv (w : RWord) (s : State) : Host.Outcome State Fault Refusal :=
  longLatency (.div w) 0 (fun s c h l => ((divWord (src32 s c h l 0) (src32 s c h l 1)).toNat, 0)) s
/-- DIVU. -/
def execDivu (w : RWord) (s : State) : Host.Outcome State Fault Refusal :=
  longLatency (.divu w) 0 (fun s c h l => ((divuWord (src32 s c h l 0) (src32 s c h l 1)).toNat, 0)) s
/-- REM. -/
def execRem (w : RWord) (s : State) : Host.Outcome State Fault Refusal :=
  longLatency (.rem w) 0 (fun s c h l => ((remWord (src32 s c h l 0) (src32 s c h l 1)).toNat, 0)) s
/-- REMU. -/
def execRemu (w : RWord) (s : State) : Host.Outcome State Fault Refusal :=
  longLatency (.remu w) 0 (fun s c h l => ((remuWord (src32 s c h l 0) (src32 s c h l 1)).toNat, 0)) s

/-! ### Logical, shift and bit-count instructions (R155, R156) -/

/-- AND. -/
def execAnd (w : RWord) (s : State) : Host.Outcome State Fault Refusal := alu2 (.and w) (fun a b => a &&& b) s
/-- OR. -/
def execOr (w : RWord) (s : State) : Host.Outcome State Fault Refusal := alu2 (.or w) (fun a b => a ||| b) s
/-- XOR. -/
def execXor (w : RWord) (s : State) : Host.Outcome State Fault Refusal := alu2 (.xor w) (fun a b => a ^^^ b) s
/-- ANDN. -/
def execAndn (w : RWord) (s : State) : Host.Outcome State Fault Refusal := alu2 (.andn w) (fun a b => a &&& ~~~b) s

/-- A left shift by an unsigned amount: 0 from 32 on. -/
def shlWord (a : W32) (n : Nat) : W32 := if n ≥ 32 then 0 else a <<< n
/-- A logical right shift: 0 from 32 on. -/
def shrWord (a : W32) (n : Nat) : W32 := if n ≥ 32 then 0 else a >>> n
/-- An arithmetic right shift: all sign bits from 32 on. -/
def sarWord (a : W32) (n : Nat) : W32 := if n ≥ 32 then (if a.msb then 0xFFFFFFFF else 0) else a.sshiftRight n

/-- SHL: the amount is the whole of B. -/
def execShl (w : RWord) (s : State) : Host.Outcome State Fault Refusal := alu2 (.shl w) (fun a b => shlWord a b.toNat) s
/-- SHR. -/
def execShr (w : RWord) (s : State) : Host.Outcome State Fault Refusal := alu2 (.shr w) (fun a b => shrWord a b.toNat) s
/-- SAR. -/
def execSar (w : RWord) (s : State) : Host.Outcome State Fault Refusal := alu2 (.sar w) (fun a b => sarWord a b.toNat) s
/-- ROT, to the left by B modulo 32. -/
def execRot (w : RWord) (s : State) : Host.Outcome State Fault Refusal := alu2 (.rot w) (fun a b => a.rotateLeft (b.toNat % 32)) s
/-- SHLI. -/
def execShli (w : RWord) (s : State) : Host.Outcome State Fault Refusal := alu1 (.shli w) (fun a => shlWord a w.b.toNat) s
/-- SHRI. -/
def execShri (w : RWord) (s : State) : Host.Outcome State Fault Refusal := alu1 (.shri w) (fun a => shrWord a w.b.toNat) s
/-- SARI. -/
def execSari (w : RWord) (s : State) : Host.Outcome State Fault Refusal := alu1 (.sari w) (fun a => sarWord a w.b.toNat) s

/-- MIN, signed. -/
def execMin (w : RWord) (s : State) : Host.Outcome State Fault Refusal := alu2 (.min w) (fun a b => if a.sle b then a else b) s
/-- MAX, signed. -/
def execMax (w : RWord) (s : State) : Host.Outcome State Fault Refusal := alu2 (.max w) (fun a b => if b.sle a then a else b) s
/-- MINU. -/
def execMinu (w : RWord) (s : State) : Host.Outcome State Fault Refusal := alu2 (.minu w) (fun a b => if a.ule b then a else b) s
/-- MAXU. -/
def execMaxu (w : RWord) (s : State) : Host.Outcome State Fault Refusal := alu2 (.maxu w) (fun a b => if b.ule a then a else b) s

/-- The number of zero bits above the highest one. -/
def clzWord (a : W32) : W32 := if a = 0 then 32 else BitVec.ofNat 32 (31 - a.toNat.log2)
/-- The number of zero bits below the lowest one. -/
def ctzWord (a : W32) : W32 := BitVec.ofNat 32 ((bitIdx 32 0 a.toNat).headD 32)
/-- The bits in reverse order. -/
def brevWord (a : W32) : W32 := a.reverse

/-- CLZ. -/
def execClz (w : SWord) (s : State) : Host.Outcome State Fault Refusal := alu1 (.clz w) clzWord s
/-- CTZ. -/
def execCtz (w : SWord) (s : State) : Host.Outcome State Fault Refusal := alu1 (.ctz w) ctzWord s
/-- POPC. -/
def execPopc (w : SWord) (s : State) : Host.Outcome State Fault Refusal := alu1 (.popc w) (fun a => BitVec.ofNat 32 (popcount 32 a.toNat)) s
/-- BREV. -/
def execBrev (w : SWord) (s : State) : Host.Outcome State Fault Refusal := alu1 (.brev w) brevWord s

/-! ### Bit fields, selection and moves (R157 to R159) -/

/-- BFX of a word: the field of a control word, zero- or sign-extended. -/
def bfxWord (ctl a : W32) : W32 :=
  let pos := bitsOf ctl.toNat 4 0
  let len := bitsOf ctl.toNat 10 5
  let f := a.toNat / 2 ^ pos % 2 ^ len
  BitVec.ofNat 32 (if bitOf ctl.toNat 11 then zextInt (sextInt f len) 32 else f)

/-- BFI of a word into a base. -/
def bfiWord (ctl a d : W32) : W32 :=
  let pos := bitsOf ctl.toNat 4 0
  let len := bitsOf ctl.toNat 10 5
  let mask : W32 := BitVec.ofNat 32 (2 ^ len - 1)
  (d &&& ~~~(mask <<< pos)) ||| ((a &&& mask) <<< pos)

/-- BFX. -/
def execBfx (w : RWord) (ctl : W32) (s : State) : Host.Outcome State Fault Refusal := alu1 (.bfx w ctl) (bfxWord ctl) s
/-- BFI: D read at issue. -/
def execBfi (w : RWord) (ctl : W32) (s : State) : Host.Outcome State Fault Refusal := alu2 (.bfi w ctl) (bfiWord ctl) s
/-- SEL: A where the predicate is 1, B where it is 0. -/
def execSel (w : RWord) (ctl : W32) (s : State) : Host.Outcome State Fault Refusal :=
  compute (.sel w ctl) (fun s c h l =>
    if readPred s c l (bitsOf ctl.toNat 4 0) then srcN s c h l 0 else srcN s c h l 1) s
/-- MOV. -/
def execMov (w : RWord) (s : State) : Host.Outcome State Fault Refusal := alu1 (.mov w) (fun a => a) s
/-- MOVL. -/
def execMovl (w : RWord) (ctl : W32) (s : State) : Host.Outcome State Fault Refusal :=
  compute (.movl w ctl) (fun _ _ _ _ => ctl.toNat) s

/-! ### 64-bit arithmetic and addresses (R160) -/

/-- LEA of a base and an index. -/
def leaWord (ctl : W32) (a : W64) (b : W32) : W64 :=
  a + (b.signExtend 64 <<< bitsOf ctl.toNat 10 8) + BitVec.ofInt 64 (mcOffset ctl)

/-- LEA. -/
def execLea (w : RWord) (ctl : W32) (s : State) : Host.Outcome State Fault Refusal :=
  compute (.lea w ctl) (fun s c h l => (leaWord ctl (src64 s c h l 0) (src32 s c h l 1)).toNat) s
/-- ADDC: a 64-bit sum. -/
def execAddc (w : RWord) (s : State) : Host.Outcome State Fault Refusal :=
  compute (.addc w) (fun s c h l => (src64 s c h l 0 + src64 s c h l 1).toNat) s
/-- SUBB: a 64-bit difference. -/
def execSubb (w : RWord) (s : State) : Host.Outcome State Fault Refusal :=
  compute (.subb w) (fun s c h l => (src64 s c h l 0 - src64 s c h l 1).toNat) s

/-! ### Compares and predicates (R161, R162) -/

/-- A compare of two words. -/
def compareOp (i : Instr) (p : BitVec 7) (f : W32 → W32 → Bool) (s : State) : Host.Outcome State Fault Refusal :=
  predicate i p.toNat (fun s c h l => f (src32 s c h l 0) (src32 s c h l 1)) s

/-- CMPEQ. -/
def execCmpeq (w : RWord) (s : State) : Host.Outcome State Fault Refusal := compareOp (.cmpeq w) w.d (fun a b => a == b) s
/-- CMPNE. -/
def execCmpne (w : RWord) (s : State) : Host.Outcome State Fault Refusal := compareOp (.cmpne w) w.d (fun a b => a != b) s
/-- CMPLT. -/
def execCmplt (w : RWord) (s : State) : Host.Outcome State Fault Refusal := compareOp (.cmplt w) w.d (fun a b => a.slt b) s
/-- CMPLE. -/
def execCmple (w : RWord) (s : State) : Host.Outcome State Fault Refusal := compareOp (.cmple w) w.d (fun a b => a.sle b) s
/-- CMPLTU. -/
def execCmpltu (w : RWord) (s : State) : Host.Outcome State Fault Refusal := compareOp (.cmpltu w) w.d (fun a b => a.ult b) s
/-- CMPLEU. -/
def execCmpleu (w : RWord) (s : State) : Host.Outcome State Fault Refusal := compareOp (.cmpleu w) w.d (fun a b => a.ule b) s
/-- CMPEQI: B is the immediate, sign-extended. -/
def execCmpeqi (w : RWord) (s : State) : Host.Outcome State Fault Refusal :=
  predicate (.cmpeqi w) w.d.toNat (fun s c h l => src32 s c h l 0 == w.b.signExtend 32) s
/-- CMPLTI. -/
def execCmplti (w : RWord) (s : State) : Host.Outcome State Fault Refusal :=
  predicate (.cmplti w) w.d.toNat (fun s c h l => (src32 s c h l 0).slt (w.b.signExtend 32)) s
/-- PAND. -/
def execPand (w : RWord) (s : State) : Host.Outcome State Fault Refusal :=
  predicate (.pand w) w.d.toNat (fun s c _ l => readPred s c l w.a.toNat && readPred s c l w.b.toNat) s
/-- POR. -/
def execPor (w : RWord) (s : State) : Host.Outcome State Fault Refusal :=
  predicate (.por w) w.d.toNat (fun s c _ l => readPred s c l w.a.toNat || readPred s c l w.b.toNat) s
/-- PXOR. -/
def execPxor (w : RWord) (s : State) : Host.Outcome State Fault Refusal :=
  predicate (.pxor w) w.d.toNat (fun s c _ l => readPred s c l w.a.toNat != readPred s c l w.b.toNat) s
/-- PMOV. -/
def execPmov (w : RWord) (s : State) : Host.Outcome State Fault Refusal :=
  predicate (.pmov w) w.d.toNat (fun s c _ l => readPred s c l w.a.toNat) s

/-! ### The window base and system registers (R163 to R165) -/

/-- WBASE: WB of each lane that executes. -/
def execWbase (w : RWord) (s : State) : Host.Outcome State Fault Refusal :=
  issue (.wbase w) (fun c _ x s =>
    advance c 1 (issueCycles s c false)
      (x.lanes.foldl (fun t l => updTh (c.th l) (fun th => { th with wb := w.b.toNat }) t) s)) s

/-- The TAGS register (R134): bit n is 1 when no operation that names tag n is in flight. -/
def tagsReg (g : Group) : W64 := laneSet ((upFrom 0 64).filter (fun n => mget g.tags n 0 == 0))

/-- PDLC (R394): the deadline count, decreasing by one per cycle, 0 with no request. -/
def pdlcReg (s : State) (g : Group) : Nat :=
  match g.pdlcFrom with
  | some (t, n) => n - (s.ticks - t) / 8
  | none => 0

/-- LSTATE of a reticle (R139). -/
def lstateReg (r : RetSt) : Nat := r.plane.toNat + r.mesh.toNat * 2 ^ 8 + b2n r.host * 2 ^ 16 + r.tgen.toNat * 2 ^ 32

/-- CSTAT of a core (R136). -/
def cstatReg (s : State) (core : Nat) : Nat :=
  let c := s.core core
  b2n c.mxn + b2n (s.ret (coreRet core)).hold * 2 + b2n (s.ret (coreRet core)).alarm * 4 + goodLanes c * 2 ^ 8 + c.wcode * 2 ^ 14 + coreMember core * 2 ^ 16

/-- The value of a system register for a lane (R133 to R141, R393, R394). -/
def sysregRead (s : State) (c : Ctx) (l n : Nat) : Nat :=
  match n with
  | 0x000 => (s.sw c.sw).fpflags.toNat
  | 0x001 => (s.sw c.sw).fpen.toNat
  | 0x002 => (s.sw c.sw).frm.toNat
  | 0x003 => 16 * (s.thread (c.th l)).wb
  | 0x004 => (s.thread (c.th l)).mr.toNat
  | 0x010 => (tagsReg c.g).toNat
  | 0x011 => (s.sw c.sw).unack
  | 0x012 => b2n c.g.preq + 2 * b2n c.g.drain
  | 0x013 => pdlcReg s c.g
  | 0x020 => (s.core c.core).lmap.toNat
  | 0x021 => cstatReg s c.core
  | 0x022 => coreRet c.core % 128 + coreFold c.core * 2 ^ 8 + coreMember c.core * 2 ^ 16
  | 0x030 => (s.ret c.ret).ways + 32 * b2n (s.ret c.ret).cpartTo.isSome
  | 0x040 => lstateReg (s.ret c.ret)
  | 0x041 => wtime s c.ret
  | 0x042 => (s.mod (modOf c.ret)).skewb.toNat
  | 0x043 => (s.ret c.ret).wmlim.toNat
  | 0x044 => (s.mod (modOf c.ret)).modid + (c.ret % 128) * 2 ^ 10
  | _ => 0

/-- RDS. -/
def execRds (w : RWord) (ctl : W32) (s : State) : Host.Outcome State Fault Refusal :=
  compute (.rds w ctl) (fun s c _ l => sysregRead s c l (sysregOf ctl)) s

/-- A write of WMLIM (R140, R165): a value below 3,200 is ignored. -/
def putWmlim (ret : Nat) (v : W32) (s : State) : State :=
  if v.toNat < 3200 then s else updRet ret (fun r => { r with wmlim := v }) s

/-- The effect of a write of a system register by a kernel (R165): reserved bits are ignored. -/
def sysregWrite (c : Ctx) (n : Nat) (v : W32) (s : State) : State :=
  match n with
  | 0x000 => updSw c.sw (fun x => { x with fpflags := v.extractLsb' 0 5 }) s
  | 0x001 => updSw c.sw (fun x => { x with fpen := v.extractLsb' 0 5 }) s
  | 0x002 => updSw c.sw (fun x => { x with frm := v.extractLsb' 0 2 }) s
  | 0x043 => putWmlim c.ret v s
  | _ => s

/-- WRS: once, from the lowest active lane whose guard is true. -/
def execWrs (w : RWord) (ctl : W32) (s : State) : Host.Outcome State Fault Refusal :=
  issue (.wrs w ctl) (fun c h x s =>
    let t := popReads c h x.pops s
    advance c 2 1 (match x.lanes with
      | [] => t
      | l :: _ => sysregWrite c (sysregOf ctl) (src32 s c h l 0) t)) s

end Sys2Proof.Machine
end

