-- ==== Sys2Proof/Machine/Device.lean ====
section
/-! DEFINITION. The device registers (spec/15 R361): doorbells and the posting of commands (13 R305, R306), completion counters (16 R388),
core event counters (16 R395), peer descriptors (18 R444). -/

namespace Sys2Proof.Machine

open Sys2Proof

/-- The key of a device command queue: root region index and queue number. -/
def cqKey (root q : Nat) : Nat := root * 64 + q

/-- The queue whose QCB names a doorbell: its key (R361). -/
def doorQueue (s : State) (m n : Nat) : Option Nat :=
  ((s.mod m).queues.find? (fun e => e.2.doorbell == n)).map (·.1)

/-- The root region that the endpoint table binds to a work-request queue of a reticle, if its entry is valid (R359). -/
def endpointRoot (s : State) (ret q : Nat) : Option Nat :=
  let e := (mget (s.ret ret).endpoint q 0).toNat
  if bitOf e 12 then some (e % 4096) else none

/-- The commands that a queue holds (R306). -/
def CmdQueue.held (q : CmdQueue) : Nat := (q.pidx - q.cidx).toNat

/-- The device writes CIDX and STATE of a queue to its QCB (R305). -/
def writeQcb (m root : Nat) (q : CmdQueue) (s : State) : State :=
  (writeVa s m root (q.qcb + 16) (bytesLE 4 q.cidx.toNat ++ bytesLE 4 q.state)).getD s

/-- Set the state of a queue, with the QCB and a record to the host (R306). -/
def stopQueue (m k st : Nat) (s : State) : State :=
  match mget? (s.mod m).queues k with
  | none => s
  | some q =>
    let q' := { q with state := st }
    tell (.queueRecord (k / 64) (k % 64) st)
      (writeQcb m (k / 64) q' (updMod m (fun x => { x with queues := mput x.queues k q' }) s))

/-- The post of R306: PIDX of a queue becomes a value; the agent is the poster of every command that it makes PIDX pass first; more
commands than the ring holds stop the queue with OVERRUN. -/
def postTo (m k : Nat) (pidx : W32) (who : Poster) (s : State) : State :=
  match mget? (s.mod m).queues k with
  | none => s
  | some q =>
    let n := (pidx - q.cidx).toNat
    let fresh := (upFrom 0 (Nat.min n (2 ^ q.log2n))).map (fun i => (q.cidx.toNat + i) % 2 ^ 32)
    let ps := fresh.foldl (fun p i => if (mget? p i).isSome then p else mput p i who) q.posters
    let s := updMod m (fun x => { x with queues := mput x.queues k { q with pidx := pidx, posters := ps } }) s
    if n > 2 ^ q.log2n then stopQueue m k 2 s else s

/-- A change of a doorbell wakes its watchers at both of its places (R263, R361). -/
def wakeDoorbell (m n : Nat) (s : State) : State :=
  wakeUnit (paOf (m * 128 + 79) (deviceBase + 8 * n)) (wakeUnit (paOf (m * 128 + 87) (deviceBase + 8 * n)) s)

/-- A write of PIDX to a doorbell register that a queue names (R361). -/
def ringDoorbell (m n : Nat) (pidx : W32) (who : Poster) (s : State) : State :=
  let s := if mget (s.mod m).doorbells n 0 = pidx then s
    else wakeDoorbell m n (updMod m (fun x => { x with doorbells := mput x.doorbells n pidx }) s)
  match doorQueue s m n with
  | some k => postTo m k pidx who s
  | none => s

/-- The binding check of a kernel's access, at the target (R361): a doorbell to a queue of the kernel's own root, a completion counter to
the root that the endpoint table binds to its queue. -/
def bindingOk (s : State) (pa m root : Nat) : Bool :=
  let o := localOf pa - deviceBase
  if o < 0x8000 then
    modOf (retOf pa) == m && (match doorQueue s (modOf (retOf pa)) (o / 8) with | some k => k / 64 == root | none => false)
  else if o < 0x200000 then
    modOf (retOf pa) == m && endpointRoot s (retOf pa) ((o - 0x100000) / 8) == some root
  else true

/-- The cycles that the CYCLES counter of a core has counted beyond the value held: it moves only while the core is in service (R395). -/
def cyclesOn (s : State) (k : Nat) : W64 :=
  if inService s (coreRet k) && !(s.core k).dead then BitVec.ofNat 64 (s.ticks / 8) else 0

/-- The 64-bit value of an event counter of a core (R395): CYCLES counts on from the value last written. -/
def coreCounter (s : State) (k i : Nat) : W64 :=
  let v := mget (s.core k).counters i 0
  if i = 0 then v + cyclesOn s k else v

/-- The CYCLES counters of some cores keep their values across a change that takes the cores out of service, or into it (R395). -/
def keepCycles (ks : List Nat) (f : State → State) (s : State) : State :=
  ks.foldl (fun t k => updCore k (fun c =>
    { c with counters := mput c.counters 0 (coreCounter s k 0 - cyclesOn t k) }) t) (f s)

/-- The aligned 8-byte word of device registers that holds an address. -/
def deviceWord (s : State) (pa : Nat) : W64 :=
  let o := localOf pa - deviceBase
  let r := retOf pa
  if o < 0x8000 then (mget (s.mod (modOf r)).doorbells (o / 8) 0).setWidth 64
  else if o < 0x102000 then mget (s.ret r).ccnt ((o - 0x100000) / 8) 0
  else if o < 0x202200 then
    let c := (o - 0x200000) / 64
    coreCounter s (coreKey r (c / 4) (c % 4)) (o % 64 / 8)
  else (mget (s.ret r).peers ((o - 0x300000) / 32) 0).extractLsb' (64 * (o % 32 / 8)) 64

/-- A read of a device register. -/
def deviceRead (s : State) (pa n : Nat) : Nat := (deviceWord s pa).toNat / 2 ^ (8 * (pa % 8)) % 2 ^ (8 * n)

/-- A 64-bit word with n bytes at a byte offset replaced. -/
def mergeWord (old : W64) (off n v : Nat) : W64 :=
  let mask := BitVec.ofNat 64 ((2 ^ (8 * n) - 1) * 2 ^ (8 * off))
  (old &&& ~~~mask) ||| (BitVec.ofNat 64 (v * 2 ^ (8 * off)) &&& mask)

/-- A change of a device register's value wakes its watchers (R262, R263). -/
def deviceChanged (pa : Nat) (before s : State) : State :=
  if deviceWord before pa = deviceWord s pa then s else wakeWatches (pa / 8 * 8) 8 s

/-- A write of a device register by an agent whose class and binding have been checked (R361). -/
def deviceWrite (pa n v : Nat) (who : Poster) (s : State) : State :=
  let o := localOf pa - deviceBase
  let r := retOf pa
  let w := mergeWord (deviceWord s pa) (pa % 8) n v
  let t :=
    if o < 0x8000 then ringDoorbell (modOf r) (o / 8) (w.extractLsb' 0 32) who s
    else if o < 0x102000 then updRet r (fun x => { x with ccnt := mput x.ccnt ((o - 0x100000) / 8) w }) s
    else if o < 0x202200 then
      let c := (o - 0x200000) / 64
      let k := coreKey r (c / 4) (c % 4)
      let i := o % 64 / 8
      updCore k (fun x => { x with counters := mput x.counters i (if i = 0 then w - cyclesOn s k else w) }) s
    else
      updRet r (fun x =>
        let p := (o - 0x300000) / 32
        let old := mget x.peers p 0
        let sh := 64 * (o % 32 / 8)
        let new := (old &&& ~~~((0xFFFFFFFFFFFFFFFF : BitVec 256) <<< sh)) ||| (w.setWidth 256 <<< sh)
        { x with peers := mput x.peers p new }) s
  deviceChanged pa s t

end Sys2Proof.Machine
end

