-- ==== Sys2Proof/Machine/Fetch.lean ====
section
/-! DEFINITION. What a request finds at its target (spec/11 R251) and the fetch of code through the L1 instruction cache (04 R107, 08 R189,
09 R214). -/

namespace Sys2Proof.Machine

open Sys2Proof

/-! ### The target -/

/-- A physical fold of a reticle is named (R22, R348). -/
def foldNamed (s : State) (ret fold : Nat) : Bool := (s.ret ret).foldMap.any (fun e => e.2 == fold)

/-- The scratch bytes of a reticle (R216). -/
def scratchSize (s : State) (ret : Nat) : Nat := (16 - (s.ret ret).ways) * 0x600000

/-- A physical range that no request from a reticle reaches, and why (R251 orders 6 to 8), for a request that crosses the fabric; force is a
work request's ROUTE (R431). -/
def targetCause (s : State) (src force pa n : Nat) : Option Cause :=
  let r := retOf pa
  if !inService s r || !pathOk s src r force then some .remoteError
  else if isDram pa then none
  else if isScratch pa then (if localOf pa - scratchBase + n > scratchSize s r then some .scratchBounds else none)
  else if isSpad pa then
    (if !foldNamed s r (coreFold (coreOfSpad pa)) then some .remoteError
     else if (s.core (coreOfSpad pa)).dead then some .coreLost else none)
  else if isDevice pa && deviceAssigned pa then none
  else some .remoteError

/-- The DETAIL of a cause found at a target (R403). -/
def targetDetail (cause : Cause) (pa : Nat) : Nat := if cause = .coreLost then coreCode (coreOfSpad pa) else 0

/-- Memory that L1 may hold: DRAM and reticle scratch (R213). -/
def l1Kind (pa : Nat) : Bool := isDram pa || isScratch pa

/-- The line that holds an address. -/
def lineBase (pa : Nat) : Nat := pa / 128 * 128

/-! ### Fetch (R107, R189, R214) -/

/-- The outcome of fetching a word of code. -/
inductive Fetched where
  | word (w : W32)
  | miss (va : Nat)
  | bad (cause : Cause) (va detail : Nat)
deriving DecidableEq, Repr

/-- Fetch a word through the L1 instruction cache, which observes no store: a word of a line it holds is the old one, or the new one after the
line was evicted, a free choice (log 4). -/
def fetchWord (s : State) (core : Nat) (g : Group) (va : Nat) : Fetched :=
  match translate s core (spaceOf s g) .fetch va with
  | .miss => .miss va
  | .bad c => .bad c va 0
  | .ok pa e =>
    match targetCause s (coreRet core) 0 pa 4 with
    | some c => .bad c va (targetDetail c pa)
    | none =>
      if isDevice pa then .bad .permission va 0
      else
        match (if l1Kind pa && pteC e then mget? (s.core core).l1i (pa / 128) else none) with
        | some ln =>
          if Config.choice (s.free * 2 ^ 57 + va) % 2 = 0 then .word (ln.extractLsb' (8 * (pa % 128)) 32)
          else .word (BitVec.ofNat 32 (readNat s (pteKey e) pa 4))
        | none =>
          match poisonedIn s pa 4 with
          | some u => .bad .uncorrectable u 0
          | none => .word (BitVec.ofNat 32 (readNat s (pteKey e) pa 4))

/-- The line that holds a fetched word enters the L1 instruction cache, 512 lines of DRAM and reticle scratch (R204, R210, R211): which line
leaves a full one is a free choice (log 15). -/
def fillFetch (core : Nat) (g : Group) (va : Nat) (s : State) : State :=
  match translate s core (spaceOf s g) .fetch va with
  | .ok pa e =>
    if !l1Kind pa || !pteC e || (mget? (s.core core).l1i (pa / 128)).isSome || (poisonedIn s (lineBase pa) 128).isSome then s
    else updCore core (fun c => { c with
      l1i := keepLines 512 (Config.choice (s.free * 2 ^ 57 + va)) (pa / 128) (fun _ => false)
        (mput c.l1i (pa / 128) (BitVec.ofNat 1024 (readNat s (pteKey e) (lineBase pa) 128))) }) s
  | _ => s

end Sys2Proof.Machine
end

