-- ==== Sys2Proof/Machine/Slots.lean ====
section
/-! DEFINITION. Waiting threads: waking, meetings (spec/08 R192, R195), barrier slots (16 R381, R382), and the end of a group (02 R43,
R44, R48). -/

namespace Sys2Proof.Machine

open Sys2Proof

/-! ### Waiting and waking -/

/-- The threads of some lanes wait at the last instruction of the run that has just ended (R59): the program counter stays at it. -/
def parkWait (c : Ctx) (lanes : List Nat) (w : Wait) (s : State) : State :=
  lanes.foldl (fun t l =>
    updTh (c.th l) (fun th => { th with pc := c.run.addr, pos := some c.run.pos, nextPc := nextHeader c.run, wait := w }) t) s

/-- A waiting thread continues at the run after its wait. -/
def wakeThread (th : Thread) : Thread := { th with pc := th.nextPc, pos := none, wait := .none }

/-- Wake the threads of a slice-warp whose wait satisfies a test. -/
def wakeWhere (gid warp : Nat) (sl : Slice) (test : Wait → Bool) (s : State) : State :=
  let k := swKey gid warp sl
  { s with threads := s.threads.map (fun e => if e.1 / 64 = k ∧ test e.2.wait = true then (e.1, wakeThread e.2) else e) }

/-- The first thread of a slice-warp whose wait satisfies a test. -/
def waiting? (s : State) (gid warp : Nat) (sl : Slice) (test : Wait → Bool) : Option Nat :=
  ((upFrom 0 64).find? (fun l => test (s.thread (thKey (swKey gid warp sl) l)).wait))

/-! ### Meetings and warp barriers -/

/-- The lanes of a slice-warp that are inside a run in progress. -/
def runLanes (s : State) (g : Group) (gid warp : Nat) (sl : Slice) : BitVec 64 :=
  match s.portRun ⟨g.core, sl⟩ with
  | some r => if r.gid = gid ∧ r.warp = warp then r.lanes else 0
  | none => 0

/-- The label that MR names, when it is valid (R127). -/
def mrLabel (th : Thread) : Option W64 := if bitOf th.mr.toNat 0 then some (th.mr &&& ~~~(3 : W64)) else none

/-- A word of code is a run header: its OP is 0 (R104, R189). A thread is compared with its MR only there (R191). -/
def atHeader (s : State) (g : Group) (pc : W64) : Bool :=
  match fetchWord s g.core g pc.toNat with
  | .word w => opOf w == 0
  | _ => false

/-- A thread that stands at a run header equal to its MR is held (R192). -/
def holdThreads (gid warp : Nat) (sl : Slice) (g : Group) (s : State) : State :=
  let busy := runLanes s g gid warp sl
  (upFrom 0 g.launch.visible).foldl (fun t l =>
    let th := t.thread (thKey (swKey gid warp sl) l)
    if !th.exited && th.wait == .none && th.pos == none && !hasLane busy l && mrLabel th == some th.pc && atHeader s g th.pc then
      updTh (thKey (swKey gid warp sl) l) (fun x => { x with wait := .held }) t
    else t) s

/-- Release mask k of a slice-warp when it is not empty and every thread of it is held (R192). -/
def releaseMask (gid warp : Nat) (sl : Slice) (k : Nat) (s : State) : State :=
  let sw := swKey gid warp sl
  let m := mget (s.sw sw).masks k 0
  let ls := lanesOf m
  if ls.isEmpty || ls.any (fun l => (s.thread (thKey sw l)).wait != .held) then s
  else
    ls.foldl (fun t l => updTh (thKey sw l) (fun th => { th with wait := .none, mr := th.mr &&& ~~~(1 : W64) }) t)
      (updSw sw (fun x => { x with masks := mput x.masks k 0 }) s)

/-- Release the threads waiting in WAITM on mask k when every thread of the mask waits there (R195): a release and an acquire at warp scope of
the slice-warp (R231 to R233). -/
def releaseWaitm (gid warp : Nat) (sl : Slice) (k : Nat) (s : State) : State :=
  let sw := swKey gid warp sl
  let m := mget (s.sw sw).masks k 0
  if (lanesOf m).any (fun l => (s.thread (thKey sw l)).wait != .waitm k) || (waiting? s gid warp sl (fun w => w == .waitm k)).isNone then s
  else acquireSws [sw] (wakeWhere gid warp sl (fun w => w == .waitm k) s)

/-- Every release condition of a slice-warp is tested (R192, R195, R196). -/
def settle (gid warp : Nat) (sl : Slice) (s : State) : State :=
  match mget? s.groups gid with
  | none => s
  | some g =>
    let s := holdThreads gid warp sl g s
    (upFrom 0 12).foldl (fun t k => releaseWaitm gid warp sl k (releaseMask gid warp sl k t)) s

/-! ### Barrier slots -/

/-- The threads of a group, in slices of one kind, that have not exited (R381). -/
def liveOfKind (s : State) (gid kind : Nat) (l : Launch) : Nat :=
  (swsOf l).foldl (fun n p =>
    if p.2.code = kind then n + ((threadsOf gid p.1 p.2 l).filter (fun k => !(s.thread k).exited)).length else n) 0

/-- A barrier slot of a group. -/
def slotOf (g : Group) (b : Nat) : Slot := mget g.slots b Slot.start

/-- The expected number of arrivals of a slot (R381). -/
def slotExpected (s : State) (gid : Nat) (g : Group) (x : Slot) : Nat :=
  if x.expect = 0 then liveOfKind s gid x.kind g.launch else x.expect

/-- A thread waits in BAR or BARW on a slot whose generation has passed (R382). -/
def Thread.barOver (th : Thread) (b : Nat) (gen : W32) : Bool :=
  (th.wait == .bar b || th.wait == .barw b) && mget? th.arr b != some gen

/-- Threads waiting in BAR or BARW on a slot whose generation has passed continue (R382); their slice-warps acquire at group scope (R231). -/
def wakeSlot (gid b : Nat) (gen : W32) (s : State) : State :=
  let ends := fun (e : Nat × Thread) => e.1 / 2048 == gid && e.2.barOver b gen
  acquireSws (dedupe ((s.threads.filter ends).map (fun e => e.1 / 64)))
    { s with threads := s.threads.map (fun e => if ends e then (e.1, { wakeThread e.2 with arr := mdel e.2.arr b }) else e) }

/-- The release of a slot, as one step (R382). -/
def releaseSlot (gid b : Nat) (s : State) : State :=
  match mget? s.groups gid with
  | none => s
  | some g =>
    let x := slotOf g b
    let x' := { x with count := 0, arrived := 0, expect := 0, gen := x.gen + 1, fabric := false }
    wakeSlot gid b x'.gen (updGroup gid (fun y => { y with slots := mput y.slots b x' }) s)

/-- Release a local slot when its count reaches the expected number (R382). -/
def testSlot (gid b : Nat) (s : State) : State :=
  match mget? s.groups gid with
  | none => s
  | some g =>
    let x := slotOf g b
    if !x.fabric && !x.lost && decide (x.count > 0) && decide (x.count ≥ slotExpected s gid g x) then releaseSlot gid b s else s

/-- Test every slot of a group. -/
def testSlots (gid : Nat) (s : State) : State :=
  match mget? s.groups gid with
  | none => s
  | some g => (g.slots.map (·.1)).foldl (fun t b => testSlot gid b t) s

/-! ### The end of a group and of a grid -/

/-- Operations of a group that are in flight: memory requests, long-latency results, engine and network operations. -/
def groupBusy (s : State) (gid : Nat) : Bool :=
  s.flight.any (fun e => e.2.gid == gid) || s.longs.any (fun e => e.2.gid == gid)
  || s.works.any (fun e => e.2.gid == gid && !e.2.sent) || s.flushes.any (fun e => e.2.gid == gid)
  || s.cores.any (fun e => e.2.mxq.any (fun o => o.gid == gid) || e.2.copyq.any (fun o => o.gid == gid))

/-- Every slice of every thread of a group has ended (R48). -/
def groupExited (s : State) (gid : Nat) (g : Group) : Bool :=
  (swsOf g.launch).all (fun p => swExited s gid p.1 p.2 g.launch)

/-- A grid whose groups have all exited finishes; a staged one first commits its log (R44, R419). -/
def gridEnded (m h : Nat) (s : State) : State :=
  match mget? (s.mod m).grids h with
  | none => s
  | some x =>
    if x.ended = x.launch.ngroups ∧ x.launch.staged = false ∧ x.status = 0 then finishGrid m h 0 s else s

/-- The stores of a core in flight: of the slice-warp, which UNACK counts, and of every other one (R232). -/
def storesInFlight (s : State) (core : Nat) : List Nat :=
  (s.flight.filter (fun e => e.2.core == core && (e.2.kind == .store || e.2.kind == .czero || e.2.kind == .cwb))).map (·.1)

/-- A group all of whose slices have ended, and what it has in flight has returned, leaves the core: its resources go back, and its exit
counts as a trigger (R45, R48). -/
def retireGroup (gid : Nat) (g : Group) (s : State) : State :=
  let s := removeGroup gid (discardQueues gid s)
  gridEnded g.m g.grid (updGrid g.m g.grid (fun x => { x with ended := x.ended + 1, gone := sadd x.gone g.index }) s)

/-- The end of a group (R48): its exit is a release at wafer scope (R246), so it waits for what the group has in flight and for every store of
the core that was in flight when its last thread ended, by whichever slice-warp (R232). -/
def reapGroup (gid : Nat) (s : State) : State :=
  match mget? s.groups gid with
  | none => s
  | some g =>
    if g.phase == .running && groupExited s gid g then
      let after := g.exitAfter.getD (storesInFlight s g.core)
      if groupBusy s gid || after.any (fun o => (mget? s.flight o).isSome) then updGroup gid (fun x => { x with exitAfter := some after }) s
      else retireGroup gid g s
    else s

/-- Every group of a core is tested for its end: an operation of the core has returned. -/
def reapCore (core : Nat) (s : State) : State := (s.core core).groups.foldl (fun t gid => reapGroup gid t) s

end Sys2Proof.Machine
end

