-- ==== Sys2Proof/Machine/MemIns.lean ====
section
/-! DEFINITION. Memory instructions at issue (spec/11): addresses and checks, requests, atomics, fences, WAITA and the cache operations. -/

namespace Sys2Proof.Machine

open Sys2Proof

/-! ### Fences (10 R232, R233; 11 R260, R261) -/

/-- The loads and atomics that must return before a release or an acquire of a slice-warp completes: those it issued, and those that an
earlier release or acquire of its still waits for (R232, R233). -/
def readsBefore (s : State) (c : Ctx) : List Nat := readsInFlight s c ++ orderNow s c

/-- The operations that a release at a scope waits for (R232). -/
def releaseOps (s : State) (c : Ctx) (scope : Nat) : List Nat :=
  readsBefore s c ++ (if scope ≥ 3 then storesInFlight s c.core else [])

/-- A release at a scope would complete now. -/
def releaseDone (s : State) (c : Ctx) (scope : Nat) : Bool := (releaseOps s c scope).isEmpty

/-- Start a fence: what it waits for, and whether it ends with an acquire. -/
def startFence (c : Ctx) (scope : Nat) (ops : List Nat) (acq : Bool) (s : State) : State :=
  updSw c.sw (fun x => { x with fence := some ⟨scope, ops, acq⟩ }) s

/-- A fence of a slice-warp whose operations have returned completes: an acquire at core scope or wider invalidates the whole L1 (R233). -/
def endFence (k core : Nat) (s : State) : State :=
  match (s.sw k).fence with
  | none => s
  | some f =>
    let s := updSw k (fun x => { x with fence := none }) s
    if f.acquire && decide (f.scope ≥ 4) then updCore core (fun k => { k with l1 := [] }) s else s

/-- Every fence that waits for nothing any more completes (R261): an operation has returned. -/
def settleFences (s : State) : State :=
  s.sws.foldl (fun t e =>
    match e.2.fence, mget? s.groups (e.1 / 32) with
    | some f, some g => if f.ops.any (fun o => (mget? s.flight o).isSome) then t else endFence e.1 g.core t
    | _, _ => t) s

/-- The frame of the instructions that a fence holds back (R261): they stall until the fence of their slice-warp completes. -/
def issueOrdered (check : State → Ctx → Shape → Issue → Check) (i : Instr) (act : Ctx → Shape → Issue → State → State) (s : State) :
    Host.Outcome State Fault Refusal :=
  match ctx? s, shape i with
  | some c, some h =>
    match issueReason s c i h with
    | some r => .next (reasonAt c r s)
    | none =>
      if fencePending s c.sw then .next { s with ticks := s.ticks + 8 }
      else
        match check s c h (issueLanes s c h) with
        | .fault t => .next t
        | .stall => .next { s with ticks := s.ticks + 8 }
        | .go x => .next (pairOrder s c h x (act c h x s))
  | _, _ => .next s

/-- An interlock: the instruction waits a cycle (R56). -/
def stall (s : State) : State := { s with ticks := s.ticks + 8 }

/-! ### Addresses and checks (R205, R208, R250, R251) -/

/-- What becomes of one lane's access before anything leaves the core. -/
inductive Plan where
  | ok (pa leaf : Nat)
  | bad (cause : Cause) (detail : Nat)
  | miss
deriving DecidableEq, Repr

/-- An access writes memory. -/
def Access.writes : Access → Bool
  | .write => true
  | .both => true
  | _ => false

/-- A scratchpad range lies inside the ranges of a grid's groups on a core (R418). -/
def inOwnRange (s : State) (core m grid off n : Nat) : Bool :=
  s.groups.any (fun e => e.2.core == core && e.2.m == m && e.2.grid == grid
    && decide (e.2.spadOff ≤ off) && decide (off + n ≤ e.2.spadOff + e.2.launch.spad))

/-- A staged grid's write outside its own scratchpad ranges (R418). -/
def stagedSpadBad (s : State) (c : Ctx) (acc : Access) (core off n : Nat) : Bool :=
  c.g.launch.staged && acc.writes && !inOwnRange s core c.g.m c.g.grid off n

/-- A member core hosts a group of another root region (R208). -/
def foreignHost (s : State) (k m root : Nat) : Bool :=
  s.groups.any (fun e => e.2.core == k && (e.2.m != m || e.2.root != root))

/-- An access by the 22-bit scratchpad form (R208, R250). -/
def planSpad (s : State) (c : Ctx) (acc : Access) (ea : Int) (n : Nat) : Plan :=
  if ea < 0 ∨ ea > 0x3FFFFF then .bad .scratchBounds 0
  else
    let a := ea.toNat
    let k := coreKey c.ret (coreFold c.core) (a / 0x100000)
    if a % n ≠ 0 then .bad .alignment 0
    else if k ≠ c.core ∧ foreignHost s k c.g.m c.g.root = true then .bad .permission 0
    else if stagedSpadBad s c acc k (a % 0x100000) n then .bad .permission 0
    else .ok (spadPa k (a % 0x100000)) 0

/-- An access of a size that a device register does not take: only aligned 32-bit and 64-bit accesses, and no store of a line (R361). -/
def deviceSizeBad (acc : Access) (pa n : Nat) : Bool :=
  isDevice pa && deviceAssigned pa && n != 4 && n != 8 && (n != 0 || acc == .write)

/-- An access by virtual address through the leaf that maps it, in the order of R251 (R205, R361, R418). -/
def planLeaf (s : State) (c : Ctx) (acc : Access) (va n base e : Nat) : Plan :=
  let sp := spaceOf s c.g
  let pa := ptePa e + (va - base)
  if deviceSizeBad acc pa n then .bad .alignment 0
  else
    match leafCause s acc sp.sup sp.modlo sp.modhi va base e with
    | some cause => .bad cause 0
    | none =>
      if c.g.launch.staged ∧ acc.writes = true ∧ isSpad pa = false ∧ pteStaged e = false then .bad .permission 0x43
      else if isSpad pa = true ∧ stagedSpadBad s c acc (coreOfSpad pa) ((localOf pa - spadBase) % 0x100000) n = true then .bad .permission 0
      else .ok pa e

/-- An access by virtual address (R205, R206, R217, R251). size 0 stands for a line operation, which needs no alignment. -/
def planVirtual (s : State) (c : Ctx) (acc : Access) (ea : W64) (n : Nat) : Plan :=
  if n ≠ 0 ∧ ea.toNat % n ≠ 0 then .bad .alignment 0
  else
    match lookup s c.core (spaceOf s c.g) ea.toNat with
    | none => .miss
    | some (.bad cause) => .bad cause 0
    | some (.leaf base _ e) => planLeaf s c acc ea.toNat n base e

/-- Results of walks that have been taken are forgotten. -/
def dropWalkFaults (c : Ctx) (s : State) : State :=
  updCore c.core (fun k => { k with walkFaults := k.walkFaults.filter (fun w => w.1 != rootKey c.g.m c.g.root) }) s

/-- One lane of a memory instruction: its effective address and what becomes of it. -/
structure LanePlan where
  lane : Nat
  ea : Int
  plan : Plan
deriving DecidableEq, Repr

/-- The effective address as a record holds it. -/
def eaBits (ea : Int) : W64 := BitVec.ofInt 64 ea

/-- The first lane in ascending order that does not go on, decides (R251): a miss starts the walks of every lane that misses and the
instruction waits; a cause is raised precisely and no lane performs its access. -/
def settlePlans (c : Ctx) (ps : List LanePlan) (s : State) (go : State → State) : State :=
  match ps.find? (fun p => match p.plan with | .ok _ _ => false | _ => true) with
  | none => go (dropWalkFaults c s)
  | some p =>
    match p.plan with
    | .bad cause d => faultAt c cause (if cause = .poisonRead then 0 else (eaBits p.ea).toNat) d p.lane (dropWalkFaults c s)
    | _ => stall (ps.foldl (fun t q => if q.plan = .miss then startWalk c.core c.g.m c.g.root q.ea.toNat t else t) s)

/-- As settlePlans for an instruction whose destination is a dq: only POISON_READ is raised, every other cause stays with its lane (R252). -/
def settleQueued (c : Ctx) (ps : List LanePlan) (s : State) (go : State → State) : State :=
  match ps.find? (fun p => match p.plan with | .bad .poisonRead _ => true | _ => false) with
  | some p => (match p.plan with | .bad cause d => faultAt c cause 0 d p.lane s | _ => s)
  | none =>
    if ps.any (fun p => p.plan == .miss) then
      stall (ps.foldl (fun t q => if q.plan = .miss then startWalk c.core c.g.m c.g.root q.ea.toNat t else t) s)
    else go (dropWalkFaults c s)

/-- The plan of a lane whose address operands may be poisoned (R251 order 1). -/
def lanePlan (s : State) (c : Ctx) (h : Shape) (l : Nat) (ea : Int) (p : Unit → Plan) : LanePlan :=
  match h.reads.find? (poisonedUse s c l) with
  | some u => ⟨l, ea, .bad .poisonRead u.name⟩
  | none => ⟨l, ea, p ()⟩

/-! ### Requests (R253) -/

/-- The unit that one request covers: a 16-byte bank word of scratchpad, a 128-byte line elsewhere. -/
def requestUnit (pa : Nat) : Nat := if isSpad pa then pa / 16 else pa / 128

/-- Lanes in the order given, gathered by a key, first occurrence first. -/
def gather (key : LaneReq → Nat) (ls : List LaneReq) : List (List LaneReq) :=
  (dedupe (ls.map key)).map (fun k => ls.filter (fun x => key x == k))

/-- Issue requests: each gathered set of lanes becomes one operation in flight. Answers their names, in order. -/
def sendRequests (f : Flight) : List (List LaneReq) → State → List Nat × State
  | [], s => ([], s)
  | ls :: rest, s =>
    let (op, s) := freshId s
    let s := { s with flight := mput s.flight op { f with lanes := ls } }
    let (ops, s) := sendRequests f rest s
    (op :: ops, s)

/-- The policy that takes effect (R349): a leaf with C = 0 behaves as bypass. -/
def effPolicy (policy leaf : Nat) : Nat := if pteC leaf then policy else 2

/-- A request as the instruction gives it, before its lanes. -/
def baseFlight (s : State) (c : Ctx) (kind : ReqKind) (size words : Nat) (d : Dest) (spad : Bool) : Flight :=
  { kind := kind, gid := c.run.gid, warp := c.run.warp, slice := c.run.slice, core := c.core, pc := c.pc, runSeq := c.run.seq
    size := size, words := words, sx := false, aop := 0, wide := false, dest := d, lanes := [], key := 0, cached := false
    stream := false, spad := spad, m := c.g.m, root := c.g.root, region := c.g.region, grid := c.g.grid
    staged := c.g.launch.staged, after := orderNow s c, performed := false }

/-- Invalidate a line of a core's L1. -/
def l1Drop (core pa : Nat) (s : State) : State := updCore core (fun k => { k with l1 := mdel k.l1 (pa / 128) }) s

/-- Bytes placed into a 128-byte line. -/
def lineWith (line : BitVec 1024) (off : Nat) (bs : List Byte) : BitVec 1024 :=
  let old := bytesLE 128 line.toNat
  BitVec.ofNat 1024 (ofBytesLE (old.take off ++ bs ++ old.drop (off + bs.length)))

/-- A store at issue updates the line that it hits in L1, or invalidates it under bypass (R213, R256), or when the line was filled through
another key id than the store's (R219). -/
def l1Store (core key pa policy : Nat) (bs : List Byte) (s : State) : State :=
  match mget? (s.core core).l1 (pa / 128) with
  | none => s
  | some ln =>
    if policy = 2 ∨ (ln.key ≠ key ∧ isDram pa = true) then l1Drop core pa s
    else updCore core (fun k => { k with l1 := mput k.l1 (pa / 128) { ln with data := lineWith ln.data (pa % 128) bs } }) s

/-- Dq entries of a lane whose access faulted before it left the core (R255). -/
def pushFaulted (c : Ctx) (q words l : Nat) (cause : Cause) (ea : W64) (s : State) : State :=
  if consumerGone s c l q then bumpCounter c.core 7 words s
  else updQ (c.q l q) (fun x => { x with entries := x.entries ++ List.replicate words (.faulted cause ea c.pc) }) s

/-- Reserve, lane by lane, what an operation in flight will fill. -/
def reserveFor (c : Ctx) (d : Dest) (words : Nat) (ops : List Nat) (gs : List (List LaneReq)) (s : State) : State :=
  match d with
  | .queue q => (ops.zip gs).foldl (fun t p => reserveQ c q p.1 words (p.2.map (·.lane)) t) s
  | _ => s

/-- The plans that go on, with their physical address and leaf. -/
def okPlans (ps : List LanePlan) : List (Nat × Int × Nat × Nat) :=
  ps.filterMap (fun p => match p.plan with | .ok pa e => some (p.lane, p.ea, pa, e) | _ => none)

/-- Mark the dq entries of the lanes whose access was refused (R252, R255). -/
def markFaulted (c : Ctx) (d : Dest) (words : Nat) (ps : List LanePlan) (s : State) : State :=
  match d with
  | .queue q =>
    ps.foldl (fun t p => match p.plan with | .bad cause _ => pushFaulted c q words p.lane cause (eaBits p.ea) t | _ => t) s
  | _ => s

/-- A lane's request. -/
def laneReq (s : State) (c : Ctx) (name : Nat) (p : Nat × Int × Nat × Nat) (data : Nat) (cmp : Nat) : LaneReq :=
  { lane := p.1, ea := eaBits p.2.1, pa := p.2.2.1, reg := regCode (s.thread (c.th p.1)) name, data := BitVec.ofNat 128 data
    cmp := BitVec.ofNat 64 cmp, res := none, err := none }

/-- The leaf of a lane's plan. -/
def leafOf (oks : List (Nat × Int × Nat × Nat)) (l : Nat) : Nat :=
  match oks.find? (fun p => p.1 == l) with | some p => p.2.2.2 | none => 0

/-- Bytes of an access of SIZE. -/
def sizeBytes (sz : Nat) : Nat := 2 ^ sz

/-- The address of LD, ST, WAITA and the CACHE family (R250). -/
def eaVirtual (ctl : W32) (a b : Nat) : Int :=
  ((BitVec.ofNat 64 a + (BitVec.ofInt 64 (sextInt b 32) <<< mcSize ctl) + BitVec.ofInt 64 (mcOffset ctl)).toNat : Int)

/-- The address of LDS and STS (R250), exact. -/
def eaSpad (ctl : W32) (a b : Nat) : Int := ((a % 2 ^ 32 : Nat) : Int) + sextInt b 32 * 2 ^ mcSize ctl + mcOffset ctl

/-- The plan of every executing lane of a load or store. -/
def accessPlans (s : State) (c : Ctx) (h : Shape) (x : Issue) (ctl : W32) (scratch : Bool) (acc : Access) : List LanePlan :=
  x.lanes.map (fun l =>
    let a := srcN s c h l 0
    let b := srcN s c h l 1
    let n := sizeBytes (mcSize ctl)
    if scratch then lanePlan s c h l (eaSpad ctl a b) (fun _ => planSpad s c acc (eaSpad ctl a b) n)
    else lanePlan s c h l (eaVirtual ctl a b) (fun _ => planVirtual s c acc (BitVec.ofInt 64 (eaVirtual ctl a b)) n))

/-- Groups of lanes for requests that differ in key id or policy as well as place. -/
def requestKey (oks : List (Nat × Int × Nat × Nat)) (x : LaneReq) : Nat :=
  (requestUnit x.pa * 256 + pteKey (leafOf oks x.lane)) * 2 + b2n (pteC (leafOf oks x.lane))

/-- Send the requests of gathered lanes, each with the key id and the caching of its leaf. -/
def sendGathered (f : Flight) (oks : List (Nat × Int × Nat × Nat)) (cacheable : Nat → Bool) :
    List (List LaneReq) → State → List Nat × State
  | [], s => ([], s)
  | ls :: rest, s =>
    let e := match ls with | y :: _ => leafOf oks y.lane | [] => 0
    let pa := match ls with | y :: _ => y.pa | [] => 0
    let (ops, s) := sendRequests { f with key := pteKey e, cached := l1Kind pa && cacheable e } [ls] s
    let (more, s) := sendGathered f oks cacheable rest s
    (ops ++ more, s)

/-! ### Loads and stores (R254 to R257) -/

/-- The destination of a load or atomic: the name of D, or a dq. -/
def loadDest (w : RWord) : Dest := destOf w.d.toNat

/-- LD and LDS. -/
def loadAct (i : Instr) (w : RWord) (ctl : W32) (scratch : Bool) (c : Ctx) (h : Shape) (x : Issue) (s : State) : State :=
  let ps := accessPlans s c h x ctl scratch .read
  let d := loadDest w
  let words := sizeWords (mcSize ctl)
  let go := fun (s : State) =>
    let oks := okPlans ps
    let reqs := oks.map (fun p => laneReq s c w.d.toNat p 0 0)
    let gs := gather (requestKey oks) reqs
    let cacheable := fun (e : Nat) => !scratch && effPolicy (mcPolicy ctl) e != 2 && decide (mcScope ctl ≤ 4)
    let f := { baseFlight s c .load (sizeBytes (mcSize ctl)) words d scratch with
      sx := mcSx ctl, stream := mcPolicy ctl == 1 }
    let (ops, t) := sendGathered f oks cacheable gs (popReads c h x.pops s)
    let t := markFaulted c d words ps (reserveFor c d words ops gs t)
    let t := oks.foldl (fun u p => if l1Kind p.2.2.1 && !cacheable p.2.2.2 then l1Drop c.core p.2.2.1 u else u) t
    advance c (instrWords i) (issueCycles s c x.uniform) t
  match d with
  | .queue _ => settleQueued c ps s go
  | _ => settlePlans c ps s go

/-- LD. -/
def execLd (w : RWord) (ctl : W32) (s : State) : Host.Outcome State Fault Refusal :=
  issueOrdered queueCheck (.ld w ctl) (loadAct (.ld w ctl) w ctl false) s
/-- LDS. -/
def execLds (w : RWord) (ctl : W32) (s : State) : Host.Outcome State Fault Refusal :=
  issueOrdered queueCheck (.lds w ctl) (loadAct (.lds w ctl) w ctl true) s

/-- Take n requests into UNACK of the issuing slice-warp (R257). -/
def addUnack (c : Ctx) (n : Nat) (s : State) : State := updSw c.sw (fun x => { x with unack := x.unack + n }) s

/-- In a protected grid a store or an atomic compares the address, the size and the data of each lane's even member with its odd member's
before the access leaves the core (R143, R421): when they differ in a lane, SDC_DETECTED is raised precisely, in the lowest such lane with
its pair, and no lane performs the access. -/
def membersAgree (c : Ctx) (ps : List LanePlan) (go : State → State) (s : State) : State :=
  let odd := fun (l : Nat) => smem (s.core c.core).differ (c.run.slice.code * 64 + l)
  match (if c.g.launch.protected then ps.find? (fun p => odd p.lane) else none) with
  | none => go s
  | some p =>
    faultAt c .sdcDetected (eaBits p.ea).toNat (p.lane % passWidth (s.core c.core) true) p.lane
      (updCore c.core (fun y => { y with differ := y.differ.filter (fun k => k / 64 != c.run.slice.code) }) s)

/-- ST and STS: the bytes come from D; lanes that write one location take ascending order. -/
def storeAct (i : Instr) (ctl : W32) (scratch : Bool) (c : Ctx) (h : Shape) (x : Issue) (s : State) : State :=
  let ps := accessPlans s c h x ctl scratch .write
  let n := sizeBytes (mcSize ctl)
  let go := fun (s : State) =>
    let oks := okPlans ps
    let reqs := oks.map (fun p => laneReq s c 127 p (srcN s c h p.1 2 % 2 ^ (8 * n)) 0)
    let gs := gather (requestKey oks) reqs
    if (s.sw c.sw).unack + gs.length > 255 then stall s
    else
      let cacheable := fun (e : Nat) => effPolicy (mcPolicy ctl) e != 2
      let (_, t) := sendGathered (baseFlight s c .store n 0 .drop scratch) oks cacheable gs (popReads c h x.pops s)
      let t := if c.g.launch.staged then t else
        reqs.foldl (fun u r =>
          let e := leafOf oks r.lane
          l1Store c.core (pteKey e) r.pa (effPolicy (mcPolicy ctl) e) (bytesLE n r.data.toNat) u) t
      advance c (instrWords i) (issueCycles s c x.uniform) (addUnack c gs.length t)
  settlePlans c ps s (membersAgree c ps go)

/-- ST. -/
def execSt (w : RWord) (ctl : W32) (s : State) : Host.Outcome State Fault Refusal :=
  issueOrdered queueCheck (.st w ctl) (storeAct (.st w ctl) ctl false) s
/-- STS. -/
def execSts (w : RWord) (ctl : W32) (s : State) : Host.Outcome State Fault Refusal :=
  issueOrdered queueCheck (.sts w ctl) (storeAct (.sts w ctl) ctl true) s

/-! ### Atomics (R258, R259) -/

/-- The requests of an atomic: lanes that name one location go together, in ascending order, but exch and cas go one at a time (R259). -/
def atomicGroups (aop : Nat) (reqs : List LaneReq) : List (List LaneReq) :=
  if aop = 11 ∨ aop = 12 then reqs.map (fun r => [r]) else gather (·.pa) reqs

/-- ATOM and ATOMS. With REL the release comes first and the instruction waits for it; with ACQ later accesses wait for the acquire. -/
def atomAct (i : Instr) (w : RWord) (ctl : W32) (scratch : Bool) (c : Ctx) (h : Shape) (x : Issue) (s : State) : State :=
  let n := if acWide ctl then 8 else 4
  let words := if acWide ctl then 2 else 1
  let d := loadDest w
  if acRel ctl && !releaseDone s c (mcScope ctl) then stall s
  else
    let ps := x.lanes.map (fun l =>
      let a := srcN s c h l 0
      let eaV : Int := ((BitVec.ofNat 64 a + BitVec.ofInt 64 (mcOffset ctl)).toNat : Int)
      let eaS : Int := ((a % 2 ^ 32 : Nat) : Int) + mcOffset ctl
      if scratch then lanePlan s c h l eaS (fun _ => planSpad s c .both eaS n)
      else lanePlan s c h l eaV (fun _ => planVirtual s c .both (BitVec.ofInt 64 eaV) n))
    let go := fun (s : State) =>
      let oks := okPlans ps
      let reqs := oks.map (fun p => laneReq s c w.d.toNat p (srcN s c h p.1 1) (srcN s c h p.1 2))
      let gs := atomicGroups (acAop ctl) reqs
      let f := { baseFlight s c .atomic n words d scratch with aop := acAop ctl, wide := acWide ctl }
      let (ops, t) := sendGathered f oks (fun _ => false) gs (popReads c h x.pops s)
      let t := markFaulted c d words ps (reserveFor c d words ops gs t)
      let t := oks.foldl (fun u p => if l1Kind p.2.2.1 then l1Drop c.core p.2.2.1 u else u) t
      let t := if acAcq ctl then startFence c (mcScope ctl) (readsBefore t c) true t else t
      advance c (instrWords i) (issueCycles s c x.uniform) t
    match d with
    | .queue _ => settleQueued c ps s (membersAgree c ps go)
    | _ => settlePlans c ps s (membersAgree c ps go)

/-- ATOM. -/
def execAtom (w : RWord) (ctl : W32) (s : State) : Host.Outcome State Fault Refusal :=
  issueOrdered queueCheck (.atom w ctl) (atomAct (.atom w ctl) w ctl false) s
/-- ATOMS. -/
def execAtoms (w : RWord) (ctl : W32) (s : State) : Host.Outcome State Fault Refusal :=
  issueOrdered queueCheck (.atoms w ctl) (atomAct (.atoms w ctl) w ctl true) s

/-! ### FENCE, ACQ, REL (R260) -/

/-- The FENCE family: a delivery point, once for the slice-warp; it does not stall what follows it unless that depends on it. -/
def fenceAct (scope : Nat) (rel acq : Bool) (c : Ctx) (_ : Shape) (x : Issue) (s : State) : State :=
  if x.lanes.isEmpty then advance c 1 1 s
  else
    deliver c s (fun s =>
      let ops := if rel then releaseOps s c scope else readsBefore s c
      let t := startFence c scope ops acq s
      advance c 1 1 (if ops.isEmpty then endFence c.sw c.core t else t))

/-- FENCE: the release, then the acquire. -/
def execFence (w : KWord) (s : State) : Host.Outcome State Fault Refusal :=
  issueOrdered operandCheck (.fence w) (fenceAct w.k.toNat true true) s
/-- ACQ. -/
def execAcq (w : KWord) (s : State) : Host.Outcome State Fault Refusal :=
  issueOrdered operandCheck (.acq w) (fenceAct w.k.toNat false true) s
/-- REL. -/
def execRel (w : KWord) (s : State) : Host.Outcome State Fault Refusal :=
  issueOrdered operandCheck (.rel w) (fenceAct w.k.toNat true false) s

/-! ### WAITA (R262) -/

/-- WAITA: its read goes to the home, bypassing L1; the lanes whose guard is true wait for its outcome. -/
def execWaita (w : RWord) (ctl : W32) (s : State) : Host.Outcome State Fault Refusal :=
  issueOrdered queueCheck (.waita w ctl) (fun c h x s =>
    match x.lanes with
    | [] => advance c 2 1 s
    | l :: _ =>
      let ea := eaVirtual ctl (srcN s c h l 0) (srcN s c h l 1)
      let p := lanePlan s c h l ea (fun _ => planVirtual s c .read (BitVec.ofInt 64 ea) (sizeBytes (mcSize ctl)))
      settlePlans c [p] s (fun s =>
        let oks := okPlans [p]
        let reqs := oks.map (fun q => laneReq s c 127 q s.ticks (srcN s c h l 2))
        let f := baseFlight s c .waita (sizeBytes (mcSize ctl)) 0 .drop false
        let (ops, t) := sendGathered f oks (fun _ => false) [reqs] (popReads c h x.pops s)
        parkWait c (execLanes s c h.gsel h.gn) (.waitaRead (ops.headD 0)) (advance c 2 1 t))) s

/-! ### Cache operations (R265, R266) -/

/-- The frame of CINV, CWB and CZERO: once, for the elected thread's line. The act takes the thread's lane, the place, its leaf and the
address, and what pops the queues of the operands once it goes on. -/
def cacheLine (i : Instr) (w : CWord) (ctl : W32) (acc : Access)
    (act : Ctx → Nat → Nat → Nat → Int → (State → State) → State → State) (s : State) : Host.Outcome State Fault Refusal :=
  issueOrdered queueCheck i (fun c h x s =>
    match x.lanes with
    | [] => advance c 2 1 s
    | l :: _ =>
      let ea := eaVirtual ctl (srcN s c h l 0) (if w.b.toNat = 112 then 0 else srcN s c h l 1)
      let p := lanePlan s c h l ea (fun _ => planVirtual s c acc (BitVec.ofInt 64 ea) 0)
      settlePlans c [p] s (fun s =>
        match p.plan with
        | .ok pa e => act c l pa e ea (popReads c h x.pops) s
        | _ => s)) s

/-- CINV: the line leaves the issuing core's L1; scratchpad and device registers are never there. -/
def execCinv (w : CWord) (ctl : W32) (s : State) : Host.Outcome State Fault Refusal :=
  cacheLine (.cinv w ctl) w ctl .either (fun c _ pa _ _ pop s => advance c 2 1 (if l1Kind pa then l1Drop c.core pa (pop s) else pop s)) s

/-- One request of a line operation, counted in UNACK: with UNACK full it waits, and pops nothing. -/
def lineRequest (c : Ctx) (kind : ReqKind) (lane pa e : Nat) (ea : Int) (pop : State → State) (s : State) : State :=
  if (s.sw c.sw).unack ≥ 255 then stall s
  else
    let r := laneReq s c 127 (lane, ea, lineBase pa, e) 0 0
    let f := { baseFlight s c kind 128 0 .drop false with key := pteKey e, cached := l1Kind pa && pteC e }
    let (_, t) := sendRequests f [[r]] (pop s)
    let t := if kind = .czero ∧ c.g.launch.staged = false then l1Store c.core (pteKey e) (lineBase pa) 0 (List.replicate 128 0) t else t
    advance c 2 1 (addUnack c 1 t)

/-- CWB: the line is written back from its home's last-level cache; no effect on scratchpad and device registers. -/
def execCwb (w : CWord) (ctl : W32) (s : State) : Host.Outcome State Fault Refusal :=
  cacheLine (.cwb w ctl) w ctl .either (fun c l pa e ea pop s =>
    if l1Kind pa then lineRequest c .cwb l pa e ea pop s else advance c 2 1 (pop s)) s

/-- CZERO: a 128-byte store of zero. -/
def execCzero (w : CWord) (ctl : W32) (s : State) : Host.Outcome State Fault Refusal :=
  cacheLine (.czero w ctl) w ctl .write (fun c l pa e ea pop s => lineRequest c .czero l pa e ea pop s) s

/-- A kind of request that UNACK counts (R257). -/
def ReqKind.acked : ReqKind → Bool
  | .store => true
  | .czero => true
  | .cwb => true
  | _ => false

/-- The core's requests in flight that touch a range, issued before another when one is given. -/
def touching (s : State) (core pa n : Nat) (before : Option Nat) : List (Nat × Flight) :=
  s.flight.filter (fun e => e.2.core == core && (match before with | some b => decide (e.1 < b) | none => true)
    && e.2.lanes.any (fun x => overlaps x.pa e.2.size pa n))

/-- Those of them that are not yet performed. -/
def unperformed (s : State) (core pa n : Nat) (before : Option Nat) : List (Nat × Flight) :=
  (touching s core pa n before).filter (fun e => !e.2.performed)

/-- A line filled into L1 from its home, with the bytes of the core's own stores applied that are not yet acknowledged (R227). L1 holds 512
lines; one filled under POLICY stream leaves first, and which of several is a free choice (R204, R213; log 15). A poisoned line is not
filled, and an older copy of it goes. -/
def l1Fill (core key pa : Nat) (stream : Bool) (s : State) : State :=
  let base := lineBase pa
  if (poisonedIn s base 128).isSome then l1Drop core pa s
  else
    let line := BitVec.ofNat 1024 (readNat s key base 128)
    let own := touching s core base 128 none
    let line := own.foldl (fun ln e =>
      if (e.2.kind == .store || e.2.kind == .czero) && !e.2.staged && (e.2.key == key || !isDram pa) then
        e.2.lanes.foldl (fun ln x =>
          if lineBase x.pa = base && x.err.isNone then lineWith ln (x.pa % 128) (bytesLE e.2.size x.data.toNat) else ln) ln
      else ln) line
    updCore core (fun k => { k with
      l1 := keepLines 512 (Config.choice (s.free * 2 ^ 54 + base)) (base / 128) (·.stream) (mput k.l1 (base / 128) ⟨line, stream, key⟩) }) s

/-- CPF: a prefetch that would fault, or that lies outside DRAM and reticle scratch, is dropped. -/
def execCpf (w : CWord) (ctl : W32) (s : State) : Host.Outcome State Fault Refusal :=
  issueOrdered operandCheck (.cpf w ctl) (fun c h x s =>
    match x.lanes with
    | [] => advance c 2 1 s
    | l :: _ =>
      let ea := eaVirtual ctl (srcN s c h l 0) (srcN s c h l 1)
      let t := popReads c h x.pops s
      match translateNow s (spaceOf s c.g) .read ea.toNat with
      | .ok pa e =>
        if l1Kind pa && reachable s pa && (poisonedIn s (lineBase pa) 128).isNone then
          let t := if isDram pa && (mget? t.llc (pa / 128)).isNone then llcFill (pa / 128) false t else t
          let blocked := (unperformed t c.core (lineBase pa) 128 none).any (fun f => f.2.kind == .atomic || !f.2.cached)
          advance c 2 1 (if mcScope ctl ≤ 4 && pteC e && !blocked then l1Fill c.core (pteKey e) pa (mcPolicy ctl == 1) t else t)
        else advance c 2 1 t
      | _ => advance c 2 1 t) s

/-- CPART: a release at reticle scope, then the change of partition begins; it ends later (R266). -/
def execCpart (w : CWord) (ctl : W32) (s : State) : Host.Outcome State Fault Refusal :=
  issueOrdered operandCheck (.cpart w ctl) (fun c h x s =>
    match x.lanes with
    | [] => advance c 2 1 s
    | l :: _ =>
      let n := srcN s c h l 0
      if n < 4 ∨ n > 16 then reasonAt c 0x28 s
      else if !releaseDone s c 6 || (s.ret c.ret).cpartTo.isSome then stall s
      else if n = (s.ret c.ret).ways then advance c 2 1 s
      else advance c 2 1 (updRet c.ret (fun r => { r with cpartTo := some n }) s)) s

end Sys2Proof.Machine
end

