-- ==== Sys2Proof/Machine/Home.lean ====
section
/-! DEFINITION. Requests at their homes (spec/09 R222, 10 R235, 11 R251, R258 to R263) and the landing of their results (11 R252, R254). -/

namespace Sys2Proof.Machine

open Sys2Proof

/-! ### What is found at the target -/

/-- A kind of request that writes. -/
def ReqKind.writes : ReqKind → Bool
  | .store => true
  | .atomic => true
  | .czero => true
  | _ => false

/-- The cause, address and detail found at the target for one lane (R251, R252, R352, R361). -/
def homeCause (s : State) (f : Flight) (x : LaneReq) : Option (Cause × W64 × Nat) :=
  let found := if f.spad then (if (s.core (coreOfSpad x.pa)).dead then some Cause.coreLost else none) else targetCause s (coreRet f.core) 0 x.pa f.size
  match found with
  | some c => some (c, x.ea, targetDetail c x.pa)
  | none =>
    if isDevice x.pa then (if bindingOk s x.pa f.m f.root then none else some (.permission, x.ea, 0))
    else if isDram x.pa && (keyMat s (retOf x.pa) f.key).isNone then some (.permission, x.ea, 0)
    else
      match f.kind with
      | .store => (poisonPartial s x.pa f.size).map (fun _ => (.uncorrectable, x.ea, 0))
      | .czero => (poisonPartial s x.pa f.size).map (fun _ => (.uncorrectable, x.ea, 0))
      | .cwb => none
      | _ => (poisonedIn s x.pa f.size).map (fun u => (.uncorrectable, BitVec.ofNat 64 u, 0))

/-! ### Reads and writes of a request -/

/-- A byte of a staged grid's redo log (R418). -/
def logByte (s : State) (m grid pa : Nat) : Option Byte :=
  match mget? (s.mod m).grids grid with
  | some g => (mget? g.log pa).map (·.2)
  | none => none

/-- Memory that a staged grid's log covers: DRAM and reticle scratch (R418). -/
def logged (staged : Bool) (pa : Nat) : Bool := staged && l1Kind pa

/-- The number that a request reads at its home: a staged grid reads its own logged writes. -/
def readHome (s : State) (f : Flight) (pa n : Nat) : Nat :=
  if isDevice pa then deviceRead s pa n
  else ofBytesLE ((upFrom pa n).map (fun a =>
    if logged f.staged a then (logByte s f.m f.grid a).getD (readByteKey s f.key a) else readByteKey s f.key a))

/-- Write bytes to a staged grid's log. -/
def logWrite (m grid key pa : Nat) (bs : List Byte) (s : State) : State :=
  updGrid m grid (fun g => { g with log := (bs.zip (upFrom pa bs.length)).foldl (fun l p => mput l p.2 (key, p.1)) g.log }) s

/-- The log would exceed 256 MiB (R418). -/
def logFull (s : State) (m grid n : Nat) : Bool :=
  match mget? (s.mod m).grids grid with
  | some g => decide (g.log.length + n > 0x10000000)
  | none => false

/-- A write of a request at its home. -/
def writeHome (f : Flight) (pa : Nat) (bs : List Byte) (s : State) : State :=
  if isDevice pa then deviceWrite pa bs.length (ofBytesLE bs) (.kernel f.region) s
  else if logged f.staged pa then logWrite f.m f.grid f.key pa bs s
  else writeKey s f.key pa bs

/-- A 32-bit or 64-bit atomic operation (R258): the new value. -/
def applyAop (aop : Nat) (wide : Bool) (old b cmp : W64) : W64 :=
  let n := if wide then 64 else 32
  let o := zextInt old.toNat n
  let y := zextInt b.toNat n
  let fp := fun (v : Nat) => BitVec.ofNat 64 v
  let w : W64 := BitVec.ofNat 64 y
  let keep : W64 := BitVec.ofNat 64 o
  match aop with
  | 0 => BitVec.ofNat 64 ((o + y) % 2 ^ n)
  | 1 => fp (fp32.add 0 o y).1
  | 2 => if sextInt o n ≤ sextInt y n then keep else w
  | 3 => if sextInt o n ≥ sextInt y n then keep else w
  | 4 => if o ≤ y then keep else w
  | 5 => if o ≥ y then keep else w
  | 6 => fp (fvMinMax false o y).1
  | 7 => fp (fvMinMax true o y).1
  | 8 => keep &&& w
  | 9 => keep ||| w
  | 10 => keep ^^^ w
  | 11 => w
  | _ => if o = zextInt cmp.toNat n then w else keep

/-- One lane of a request performed at its home. -/
def performLane (f : Flight) (x : LaneReq) (s : State) : LaneReq × State :=
  match homeCause s f x with
  | some e => ({ x with err := some e }, s)
  | none =>
    let full := logged f.staged x.pa && f.kind.writes && logFull s f.m f.grid f.size
    if full then ({ x with err := some (.permission, x.ea, 0x42) }, s)
    else
      match f.kind with
      | .load => ({ x with res := some (BitVec.ofNat 128 (readHome s f x.pa f.size)) }, s)
      | .waita => ({ x with res := some (BitVec.ofNat 128 (readHome s f x.pa f.size)) }, s)
      | .store => (x, writeHome f x.pa (bytesLE f.size x.data.toNat) s)
      | .czero => (x, writeHome f x.pa (List.replicate 128 0) s)
      | .cwb => (x, { s with llc := if mget s.llc (x.pa / 128) false then mput s.llc (x.pa / 128) false else s.llc })
      | .atomic =>
        let old := readHome s f x.pa f.size
        let new := applyAop f.aop f.wide (BitVec.ofNat 64 old) (x.data.extractLsb' 0 64) x.cmp
        ({ x with res := some (BitVec.ofNat 128 old) }, writeHome f x.pa (bytesLE f.size new.toNat) s)

/-- The lanes of a request, in order. -/
def performLanes (f : Flight) : List LaneReq → State → List LaneReq × State
  | [], s => ([], s)
  | x :: xs, s =>
    let (y, s) := performLane f x s
    let (ys, s) := performLanes f xs s
    (y :: ys, s)

/-- The home of a watch and how many it holds (R263): a reticle's, a scratchpad's, a device-register range's. -/
def watchHome (pa : Nat) : Nat × Nat :=
  if isSpad pa then (coreOfSpad pa * 4 + 1, 64)
  else if isDevice pa then (retOf pa * 4 + 2, 64)
  else (retOf pa * 4, 4096)

/-- The watch unit of a location (R262). -/
def watchUnit (pa : Nat) : Nat × Nat :=
  if isSpad pa then (pa / 16 * 16, 16) else if isDevice pa then (pa / 8 * 8, 8) else (pa / 128 * 128, 128)

/-- Register a watch: a full table drops its oldest (R263). -/
def addWatch (pa sw : Nat) (s : State) : State :=
  let (home, cap) := watchHome pa
  let (base, size) := watchUnit pa
  let mine := s.watches.filter (fun w => w.home == home)
  let kept := if mine.length ≥ cap then
      (match mine with | w :: _ => s.watches.erase w | [] => s.watches) else s.watches
  { s with watches := kept ++ [⟨home, base, size, sw, isDevice pa⟩] }

/-- A store of the core that no acknowledgement has reached holds a read of the bytes it writes at the home (R227, R232). -/
def Flight.holdsReads (e : Flight) : Bool := e.kind == .store || e.kind == .czero

/-- Two requests of one slice-warp. -/
def Flight.sameSw (e f : Flight) : Bool := e.gid == f.gid && e.warp == f.warp && e.slice == f.slice

/-- An earlier request of the core that must be performed first: it overlaps, and it is of the same slice-warp or one of the two writes
(R226, R227); a read also waits for the acknowledgement of an earlier store of the core that it overlaps (R227, R232). -/
def mustWait (s : State) (op : Nat) (f : Flight) : Bool :=
  f.lanes.any (fun x => (touching s f.core x.pa f.size (some op)).any (fun e =>
    if e.2.performed then e.2.holdsReads && !f.kind.acked else e.2.kind.writes || f.kind.writes || e.2.sameSw f))

/-- What a request is performed after has not all returned (R232, R233). -/
def awaitsOrder (s : State) (f : Flight) : Bool := f.after.any (fun o => (mget? s.flight o).isSome)

/-- An access to scratch in a way that a CPART in progress takes away is held (R266). Scratch that it adds does not exist yet: an access to it
raises SCRATCH_BOUNDS. -/
def heldByCpart (s : State) (pa : Nat) : Bool :=
  let r := s.ret (retOf pa)
  match r.cpartTo with
  | none => false
  | some n =>
    let way := 15 - (localOf pa - scratchBase) / 0x600000
    isScratch pa && decide (r.ways ≤ way) && decide (way < n)

/-- What follows a request at its home: the last-level cache and the issuing core's L1 (R213, R227), and a watch (R262). -/
def afterHome (f : Flight) (s : State) : State :=
  match f.lanes with
  | [] => s
  | x :: _ =>
    let s := if isDram x.pa && x.err.isNone && (mget? s.llc (x.pa / 128)).isNone then llcFill (x.pa / 128) false s else s
    match f.kind with
    | .load =>
      if x.err.isNone && l1Kind x.pa then
        (if f.cached then l1Fill f.core f.key x.pa f.stream s else l1Drop f.core x.pa s) else s
    | .atomic => if l1Kind x.pa then l1Drop f.core x.pa s else s
    | .waita =>
      if x.err.isNone && x.res == some (x.cmp.setWidth 128) then addWatch x.pa (swKey f.gid f.warp f.slice) s else s
    | _ => s

/-- HOME_ACCESS (R222): a request is performed at its home, its lanes in order, as one step. It must not pass an earlier one of its core that
it depends on, and a CPART in progress may hold it. -/
def execHomeAccess (op : Nat) (s : State) : Host.Outcome State Fault Refusal :=
  match mget? s.flight op with
  | none => .next s
  | some f =>
    if f.performed || awaitsOrder s f || mustWait s op f || f.lanes.any (fun x => !f.spad && (heldByCpart s x.pa || pathHeld s (coreRet f.core) (retOf x.pa) 0)) then .next s
    else
      let (ls, t) := performLanes f f.lanes s
      let f' := { f with lanes := ls, performed := true }
      .next (afterHome f' { t with flight := mput t.flight op f' })

/-! ### Landing (R252, R254, R255, R257, R258) -/

/-- The words of a value, lowest first. -/
def valueWords (v n : Nat) : List W32 := (upFrom 0 n).map (fun k => BitVec.ofNat 32 (v / 2 ^ (32 * k)))

/-- Fill the PENDING entries of an operation in a queue with entries, in order (R296). -/
def fillEntries (op : Nat) : List QEntry → List QEntry → List QEntry
  | [], _ => []
  | e :: es, [] => e :: es
  | e :: es, v :: vs => if e = .pending op then v :: fillEntries op es vs else e :: fillEntries op es (v :: vs)

/-- Whether an operation's entry still stands in a queue: one that was discarded does not (R300). -/
def entryKept (op : Nat) (q : Queue) : Bool := q.entries.any (fun e => e == .pending op)

/-- An operation in flight returns to one lane's queue. A faulting result whose entry was discarded counts as a silent fault (R300). -/
def landQueue (core gid warp lane q op : Nat) (es : List QEntry) (faulty : Bool) (s : State) : State :=
  let k := qKey gid warp lane q
  let s := { s with deadlock := mdel s.deadlock (pairKey gid warp) }
  if entryKept op (s.queue k) then updQ k (fun x => { x with entries := fillEntries op x.entries es }) s
  else if faulty then bumpCounter core 7 1 s else s

/-- Write the words of a result to consecutive registers of a thread by absolute code (R125). -/
def landRegs (key reg : Nat) (ws : List W32) (s : State) : State :=
  (ws.zip (upFrom reg ws.length)).foldl (fun t p => updTh key (writeCode p.2 p.1) t) s

/-- Write the words of a result to uniform registers. -/
def landUni (sw n : Nat) (ws : List W32) (s : State) : State :=
  (ws.zip (upFrom n ws.length)).foldl (fun t p =>
    updSw sw (fun x => { x with uni := mput x.uni p.2 p.1, uniPoison := sdel x.uniPoison p.2 }) t) s

/-- A result is no longer awaited (R58). -/
def clearPending (sw op : Nat) (s : State) : State :=
  let s := updSw sw (fun x => { x with uniPending := x.uniPending.filter (fun p => p.2 != op) }) s
  { s with threads := s.threads.map (fun e =>
      if e.1 / 64 = sw then (e.1, { e.2 with pending := e.2.pending.filter (fun p => p.2 != op) }) else e) }

/-- The value a load lands (R254): zero- or sign-extended to 32 bits when it is narrower. -/
def loadValue (f : Flight) (v : W128) : Nat :=
  if f.sx then zextInt (sextInt v.toNat (8 * f.size)) 32 else v.toNat % 2 ^ (8 * f.size)

/-- Land one lane of a load or atomic: a value, or for a dq its fault. -/
def landLane (op : Nat) (f : Flight) (x : LaneReq) (s : State) : State :=
  let sw := swKey f.gid f.warp f.slice
  match x.res, x.err with
  | some v, none =>
    let ws := valueWords (loadValue f v) f.words
    (match f.dest with
     | .drop => s
     | .regs => landRegs (thKey sw x.lane) x.reg ws s
     | .uni n => landUni sw n ws s
     | .queue q => landQueue f.core f.gid f.warp x.lane q op (ws.map .ready) false s)
  | _, some e =>
    (match f.dest with
     | .queue q => landQueue f.core f.gid f.warp x.lane q op (List.replicate f.words (.faulted e.1 e.2.1 f.pc)) true s
     | _ => s)
  | none, none => s

/-- Two sets of register codes of one lane meet. -/
def destMeets (s : State) (op gid warp : Nat) (sl : Slice) (seq : Nat) (d : Dest) (regs : List (Nat × Nat)) (words : Nat) : Bool :=
  let hit := fun (d' : Dest) (regs' : List (Nat × Nat)) (words' : Nat) =>
    match d, d' with
    | .regs, .regs => regs.any (fun a => regs'.any (fun b => a.1 == b.1 && overlaps a.2 words b.2 words'))
    | .uni a, .uni b => overlaps a words b words'
    | _, _ => false
  s.flight.any (fun e => decide (e.1 < op) && e.2.gid == gid && e.2.warp == warp && e.2.slice == sl && e.2.runSeq == seq
    && hit e.2.dest (e.2.lanes.map (fun x => (x.lane, x.reg))) e.2.words)
  || s.longs.any (fun e => decide (e.1 < op) && e.2.gid == gid && e.2.warp == warp && e.2.slice == sl && e.2.runSeq == seq
    && hit e.2.dest (e.2.vals.map (fun v => (v.1, v.2.1))) e.2.words)

/-- An earlier operation of the same run writes one of the same registers: the later result stands, so it lands later (R58). -/
def landsAfter (s : State) (op : Nat) (f : Flight) : Bool :=
  destMeets s op f.gid f.warp f.slice f.runSeq f.dest (f.lanes.map (fun x => (x.lane, x.reg))) f.words

/-- A request leaves the flight list: fences that waited for nothing else complete (R261). -/
def dropFlight (op : Nat) (s : State) : State := settleFences { s with flight := mdel s.flight op }

/-- A request has an error that is raised at its instruction: any, but those that a dq entry keeps (R252). -/
def raisesError (f : Flight) : Bool :=
  f.lanes.any (fun x => x.err.isSome) && (match f.dest with | .queue _ => false | _ => true)

/-- The lanes of a request served from a line that L1 holds (R213, R254), with a staged grid's own writes. -/
def fromLine (s : State) (f : Flight) (ln : L1Line) : Flight :=
  { f with
    performed := true
    lanes := f.lanes.map (fun x =>
      let bs := (upFrom x.pa f.size).map (fun a =>
        let b : Byte := ln.data.extractLsb' (8 * (a % 128)) 8
        if f.staged then (logByte s f.m f.grid a).getD b else b)
      { x with res := some (BitVec.ofNat 128 (ofBytesLE bs)) }) }

/-- Something of the core keeps a load from being served by the line in L1 (R226, R227, R232): an earlier uncached access or atomic to the
line not yet performed; an earlier read of the slice-warp of the same bytes not yet performed; a store of the warp pair to the same bytes not
yet acknowledged; or a later store of the slice-warp to them, which the line already holds. -/
def l1Blocked (s : State) (op : Nat) (f : Flight) : Bool :=
  f.lanes.any (fun x =>
    (unperformed s f.core (lineBase x.pa) 128 (some op)).any (fun e => e.2.kind == .atomic || !e.2.cached)
    || (unperformed s f.core x.pa f.size (some op)).any (fun e => e.2.sameSw f && !e.2.kind.acked)
    || (touching s f.core x.pa f.size none).any (fun e =>
        e.2.holdsReads && e.2.gid == f.gid && e.2.warp == f.warp && (decide (e.1 < op) || e.2.slice == f.slice)))

/-- A load not yet performed that its line in L1 serves, filled under the load's own key id (R213, R219, R254), and not before the
operations it is performed after have returned. -/
def l1Hit (s : State) (op : Nat) (f : Flight) : Option Flight :=
  match f.lanes with
  | [] => none
  | x :: _ =>
    if f.kind == .load && f.cached && !f.performed && !awaitsOrder s f && !l1Blocked s op f then
      ((mget? (s.core f.core).l1 (x.pa / 128)).filter (fun ln => ln.key == f.key || !isDram x.pa)).map (fromLine s f)
    else none

/-- Finish a load or an atomic: its lanes land and it is no longer awaited. One whose group has ended counts a silent fault for each dq entry
that would have been FAULTED (R300). -/
def landRequest (op : Nat) (f : Flight) (s : State) : State :=
  let s := dropFlight op s
  match mget? s.groups f.gid with
  | none =>
    match f.dest with
    | .queue _ => bumpCounter f.core 7 (f.lanes.filter (fun x => x.err.isSome)).length s
    | _ => s
  | some _ =>
    let s := f.lanes.foldl (fun t x => landLane op f x t) s
    reapCore f.core (clearPending (swKey f.gid f.warp f.slice) op s)

/-- The read of a WAITA returns (R262): a value other than D lets the waiters continue, else they wait for a wake. -/
def landWaita (op : Nat) (f : Flight) (s : State) : State :=
  let s := dropFlight op s
  match f.lanes with
  | [] => s
  | x :: _ =>
    if x.res = some (x.cmp.setWidth 128) then
      { s with threads := s.threads.map (fun e =>
          if e.1 / 64 = swKey f.gid f.warp f.slice ∧ e.2.wait = .waitaRead op
          then (e.1, { e.2 with wait := .waita x.data.toNat (watchUnit x.pa).1 }) else e) }
    else wakeWhere f.gid f.warp f.slice (fun w => w == .waitaRead op) s

/-- LOAD_LANDING (R254): the result of a load that has been performed, or that its line in L1 serves. -/
def execLoadLanding (op : Nat) (s : State) : Host.Outcome State Fault Refusal :=
  match mget? s.flight op with
  | none => .next s
  | some f =>
    let f := (l1Hit s op f).getD f
    if !f.performed || raisesError f || landsAfter s op f then .next s
    else
      match f.kind with
      | .load => .next (landRequest op f s)
      | .waita => .next (landWaita op f s)
      | _ => .next s

/-- The landing of an atomic that has been performed (R258). -/
def landAtomic (op : Nat) (f : Flight) (s : State) : State :=
  if f.kind ≠ .atomic ∨ f.performed = false ∨ raisesError f = true ∨ landsAfter s op f = true then s else landRequest op f s

/-- The acknowledgement of a store takes it out of UNACK (R257). -/
def ackStore (op : Nat) (f : Flight) (s : State) : State :=
  let s := dropFlight op s
  match mget? s.groups f.gid with
  | none => s
  | some _ => updSw (swKey f.gid f.warp f.slice) (fun x => { x with unack := x.unack - 1 }) s

/-- STORE_ACK (R257): of a store that was performed without an error. -/
def execStoreAck (op : Nat) (s : State) : Host.Outcome State Fault Refusal :=
  match mget? s.flight op with
  | none => .next s
  | some f =>
    if !f.kind.acked || !f.performed || raisesError f then .next s
    else .next (reapCore f.core (ackStore op f s))

/-- The requests of the instruction that issued a request: they share its slice-warp, its run and its program counter. -/
def siblings (s : State) (f : Flight) : List (Nat × Flight) :=
  s.flight.filter (fun e => e.2.sameSw f && e.2.runSeq == f.runSeq && e.2.pc == f.pc)

/-- The fault of an instruction whose error has returned, in the lowest faulting lane of its requests (R251, R252). -/
def errorInfo (s : State) (f : Flight) : Option FaultInfo :=
  (argMin (·.lane) ((siblings s f).flatMap (fun e => e.2.lanes.filter (fun x => x.err.isSome)))).bind (fun x => x.err.map (fun e =>
    ⟨e.1, f.gid, f.warp, f.slice.code, x.lane, f.kind == .waita, f.pc.toNat, none, e.2.1.toNat, e.2.2⟩))

/-- A request with an error ends: its lanes that did not fault complete. -/
def endFaulty (op : Nat) (f : Flight) (s : State) : State :=
  if f.kind.acked then ackStore op f s
  else if f.kind = .waita then dropFlight op s
  else clearPending (swKey f.gid f.warp f.slice) op (f.lanes.foldl (fun t x => landLane op f x t) (dropFlight op s))

/-- The return of a request's error (R252): the lanes that did not fault complete, and the issuing group is halted, once every request of
the instruction has been performed or refused, so that the record can name its lowest faulting lane. -/
def returnError (_op : Nat) (f : Flight) (s : State) : State :=
  if !f.performed || !raisesError f || (siblings s f).any (fun e => !e.2.performed) then s
  else
    let t := ((siblings s f).filter (fun e => raisesError e.2)).foldl (fun t e => endFaulty e.1 e.2 t) s
    match errorInfo s f with
    | some i => reapCore f.core (takeFault i t)
    | none => t

/-- TRANSLATION_WALK (R217, R218): a walk that has a walker ends, and its leaf enters the TLBs of the cores that wait for it, or its cause
waits for the accesses that missed. -/
def execTranslationWalk (op : Nat) (s : State) : Host.Outcome State Fault Refusal :=
  match mget? s.walks op with
  | none => .next s
  | some w =>
    if !hasWalker s op w then .next s
    else
      let t := fillWalkCache w.ret w.m w.root w.va { s with walks := mdel s.walks op }
      match walkWith s (heldEntry s w.ret w.m w.root w.va) w.m w.root w.va with
      | .leaf base size e =>
        .next { w.cores.foldl (fun u k => fillTlb k ⟨rootKey w.m w.root, base, size, e⟩ u) t with free := t.free + 1 }
      | .bad cause =>
        .next { w.cores.foldl (fun u k =>
          updCore k (fun c => { c with walkFaults := (rootKey w.m w.root, w.va / 65536, cause) :: c.walkFaults }) u) t with free := t.free + 1 }

/-! ### Long-latency register results (R58, R154, R169) -/

/-- Land a long-latency result: its registers, its flags. -/
def landLong (op : Nat) (g : Long) (s : State) : State :=
  let s := { s with longs := mdel s.longs op }
  match mget? s.groups g.gid with
  | none => s
  | some _ =>
    let sw := swKey g.gid g.warp g.slice
    let s := g.vals.foldl (fun t v =>
      let ws := valueWords v.2.2.toNat g.words
      match g.dest with
      | .drop => t
      | .regs => landRegs (thKey sw v.1) v.2.1 ws t
      | .uni n => landUni sw n ws t
      | .queue q => landQueue g.core g.gid g.warp v.1 q op (ws.map .ready) false t) s
    reapGroup g.gid (clearPending sw op (mergeFlags sw g.flags s))

/-- The special-function unit of a core takes its instructions in the order of issue, so their results land in that order (R169). -/
def unitBusy (s : State) (op : Nat) (g : Long) : Bool :=
  g.kind == 1 && s.longs.any (fun e => decide (e.1 < op) && e.2.kind == 1 && e.2.core == g.core)

/-- The landing of a result of one kind that is ready. -/
def landKind (kind op : Nat) (s : State) : Host.Outcome State Fault Refusal :=
  match mget? s.longs op with
  | none => .next s
  | some g =>
    if g.kind ≠ kind ∨ g.ready = false ∨ unitBusy s op g = true
        ∨ destMeets s op g.gid g.warp g.slice g.runSeq g.dest (g.vals.map (fun v => (v.1, v.2.1))) g.words = true then .next s
    else .next (landLong op g s)

/-- DIVISION_LANDING (R154). -/
def execDivisionLanding (op : Nat) (s : State) : Host.Outcome State Fault Refusal := landKind 0 op s
/-- SPECIAL_FUNCTION_LANDING (R169). -/
def execSpecialFunctionLanding (op : Nat) (s : State) : Host.Outcome State Fault Refusal := landKind 1 op s
/-- LGRID_RESULT (R337). -/
def execLgridResult (op : Nat) (s : State) : Host.Outcome State Fault Refusal := landKind 2 op s

end Sys2Proof.Machine
end

