-- ==== Sys2Proof/Machine/Tags.lean ====
section
/-! DEFINITION. Completion tags: the counts of a group (spec/16 R390) and the TAGOP instructions (R391, R392). -/

namespace Sys2Proof.Machine

open Sys2Proof

/-- The count of a tag of a group (R390). -/
def tagCount (g : Group) (n : Nat) : Nat := mget g.tags n 0

/-- Set a tag count: a count of zero is not listed. -/
def putTag (n k : Nat) (g : Group) : Group := { g with tags := if k = 0 then mdel g.tags n else mput g.tags n k }

/-- An issue counts one on its tag (R390). -/
def tagUp (gid n : Nat) (s : State) : State := updGroup gid (fun g => putTag n (tagCount g n + 1) g) s

/-- An issue that would take a count above 65,535 stalls (R390). -/
def tagFull (s : State) (gid n : Nat) : Bool :=
  match mget? s.groups gid with
  | some g => decide (tagCount g n ≥ 65535)
  | none => false

/-- The condition of TWANY or TWALL (R392). -/
def tagsMet (t m : W64) (all : Bool) : Bool := if all then t &&& m == m else t &&& m != 0 || m == 0

/-- Threads waiting in TWANY or TWALL whose condition holds continue (R392), and their slice-warps acquire at group scope (R231). -/
def settleTags (gid : Nat) (s : State) : State :=
  match mget? s.groups gid with
  | none => s
  | some g =>
    let t := tagsReg g
    let test : Wait → Bool := fun w => match w with | .tags all m => tagsMet t m all | _ => false
    let ends := fun (e : Nat × Thread) => e.1 / 2048 == gid && test e.2.wait
    acquireSws (dedupe ((s.threads.filter ends).map (fun e => e.1 / 64)))
      { s with threads := s.threads.map (fun e => if ends e then (e.1, wakeThread e.2) else e) }

/-- An acquire for the tags of a mask that are set (R231, R392), if there is one. -/
def tagAcquire (c : Ctx) (m : W64) (s : State) : State := if tagsReg c.g &&& m = 0 then s else acquireSws [c.sw] s

/-- A completion step takes one off its tag's count (R390). -/
def tagDown (gid n : Nat) (s : State) : State :=
  settleTags gid (updGroup gid (fun g => putTag n (tagCount g n - 1) g) s)

/-- The tag of an MX operation (R270). -/
def MxOp.tag (o : MxOp) : Nat := bitsOf o.ctl.toNat 5 0

/-- Operations of a group that name a tag and are still queued or in progress (R392). -/
def liveTagOps (s : State) (gid n : Nat) : Nat :=
  s.cores.foldl (fun k e =>
    k + (e.2.mxq.filter (fun o => o.gid == gid && o.tag == n)).length
      + (e.2.copyq.filter (fun o => o.gid == gid && o.tag == n)).length) 0
  + (s.works.filter (fun e => e.2.gid == gid && e.2.wr.tag == n && e.2.err.isNone && !e.2.sent)).length
  + (s.flushes.filter (fun e => e.2.gid == gid && e.2.tag == n)).length

/-- A waiting TAGOP: the PC group goes on at once when the condition holds, else it waits. -/
def tagWait (i : Instr) (all : Bool) (s : State) : Host.Outcome State Fault Refusal :=
  issue i (fun c h x s =>
    match x.lanes with
    | [] => advance c 1 1 s
    | l :: _ =>
      let m := src64 s c h l 0
      let t := advance c 1 1 s
      if tagsMet (tagsReg c.g) m all then tagAcquire c m t else parkWait c (lanesOf c.run.lanes) (.tags all m) t) s

/-- TWANY. -/
def execTwany (w : SWord) (s : State) : Host.Outcome State Fault Refusal := tagWait (.twany w) false s
/-- TWALL. -/
def execTwall (w : SWord) (s : State) : Host.Outcome State Fault Refusal := tagWait (.twall w) true s

/-- TFFR: the lowest set bit of the tags under the mask, or 64. -/
def execTffr (w : SWord) (s : State) : Host.Outcome State Fault Refusal :=
  issue (.tffr w) (fun c h x s =>
    let vals := x.lanes.map (fun l => (l, (lowestLane (tagsReg c.g &&& src64 s c h l 0)).getD 64))
    advance c 1 1 (putResults c h x.uniform vals s)) s

/-- TTEST: the tags under the mask, an acquire for those it returns set. -/
def execTtest (w : SWord) (s : State) : Host.Outcome State Fault Refusal :=
  issue (.ttest w) (fun c h x s =>
    let m := fun (l : Nat) => src64 s c h l 0
    let vals := x.lanes.map (fun l => (l, (tagsReg c.g &&& m l).toNat))
    tagAcquire c ((x.lanes.map m).headD 0) (advance c 1 1 (putResults c h x.uniform vals s))) s

/-- TCLR: the count of each tag of the mask becomes the number of its operations still live. -/
def execTclr (w : SWord) (s : State) : Host.Outcome State Fault Refusal :=
  issue (.tclr w) (fun c h x s =>
    match x.lanes with
    | [] => advance c 1 1 s
    | l :: _ =>
      let gid := c.run.gid
      let t := (lanesOf (src64 s c h l 0)).foldl (fun u n =>
        updGroup gid (fun g => putTag n (liveTagOps s gid n) g) u) s
      settleTags gid (advance c 1 1 t)) s

end Sys2Proof.Machine
end

