-- ==== Sys2Proof/Machine/QueueIns.lean ====
section
/-! DEFINITION. The QOP instructions (spec/14 R320, R321; 13 R297, R299, R300). -/

namespace Sys2Proof.Machine

open Sys2Proof

/-- The entries present in a queue: from its head up to the first PENDING entry (R296). -/
def presentEntries (q : Queue) : Nat := (q.entries.takeWhile QEntry.present).length

/-- QPOPP: the predicate of each executing lane is whether the value it pops is not zero. -/
def execQpopp (w : SWord) (s : State) : Host.Outcome State Fault Refusal :=
  issue (.qpopp w) (fun c _ x s =>
    let q := w.a.toNat
    let t := x.lanes.foldl (fun t l => putPred c w.d.toNat l (queueValue (s.queueNow (c.q l q)) 0 != 0) t) s
    let t := x.lanes.foldl (fun t l => updQ (c.q l q) (fun y => { y with entries := y.entries.drop 1 }) t) t
    advance c 1 (issueCycles s c false) t) s

/-- QPEEK: the head's value; nothing is removed. -/
def execQpeek (w : SWord) (s : State) : Host.Outcome State Fault Refusal :=
  issue (.qpeek w) (fun c h x s =>
    let vals := x.lanes.map (fun l => (l, (queueValue (s.queueNow (c.q l w.a.toNat)) 0).toNat))
    advance c 1 (issueCycles s c false) (putResults c h false vals s)) s

/-- QLEVEL: the entries present, the entries reserved and the CLOSED bit. -/
def execQlevel (w : SWord) (s : State) : Host.Outcome State Fault Refusal :=
  issue (.qlevel w) (fun c h x s =>
    let level := fun (q : Queue) => presentEntries q + q.entries.length * 2 ^ 8 + b2n q.closed * 2 ^ 16
    let vals := x.lanes.map (fun l => (l, level (s.queueNow (c.q l w.a.toNat))))
    advance c 1 (issueCycles s c false) (putResults c h false vals s)) s

/-- QFLUSH: every entry is discarded; each FAULTED or POISONED one counts. -/
def execQflush (w : SWord) (s : State) : Host.Outcome State Fault Refusal :=
  issue (.qflush w) (fun c _ x s =>
    let t := x.lanes.foldl (fun t l =>
      let k := c.q l w.a.toNat
      bumpCounter c.core 7 (silentEntries (t.queue k)) (updQ k (fun y => { y with entries := [] }) t)) s
    advance c 1 (issueCycles s c false) t) s

/-- QCLOSE: the queue is closed in each executing lane. -/
def execQclose (w : SWord) (s : State) : Host.Outcome State Fault Refusal :=
  issue (.qclose w) (fun c _ x s =>
    let t := x.lanes.foldl (fun t l => updQ (c.q l w.a.toNat) (fun y => { y with closed := true }) t) s
    advance c 1 (issueCycles s c false) t) s

end Sys2Proof.Machine
end

