-- ==== Sys2Proof/Machine/Sums.lean ====
section
/-! DEFINITION. The order of sums (spec/03 R86 to R96): block sums, scales, the accumulator updates and output conversion. -/

namespace Sys2Proof.Machine

open Sys2Proof

/-- A narrow element (int4, int8, tf8) in units of 2^−18, or none for a NaR (R90). -/
def narrowElem (t : Nat) (sgn : Bool) (x : Nat) : Option Int :=
  if t = 2 then
    (if x % 256 = 0x80 then none else some ((if bitOf x 7 then -1 else 1) * (tf8Mag x : Int)))
  else some (intOf t sgn x * 2 ^ 18)

/-- block_sum_narrow (R90): the exact sum in units of 2^−36; none for NaN. narz is the zero policy of R89. -/
def blockNarrow (narz : Bool) : List (Option Int × Option Int) → Option Int
  | [] => some 0
  | (some a, some b) :: r => (blockNarrow narz r).map (· + a * b)
  | _ :: r => if narz then blockNarrow narz r else none

/-- A narrow block sum as a value, with NV once under the propagate policy (R88, R89). -/
def narrowValue (v : Option Int) : FV × Fl :=
  match v with
  | none => (.qnan, flNV)
  | some s => (FV.ofInt s (-36), 0)

/-- Rounding to fp32x: a 24-bit significand with an unbounded exponent (R92). -/
def roundX : FV → FV × Fl
  | .fin n m e =>
    let q : Int := (m.log2 : Int) + e - 23
    let (k, nx) := roundTo 0 n m e q
    (.fin n k q, flIf nx flNX)
  | .nan _ g => (.qnan, flIf g flNV)
  | v => (v, 0)

/-- One level of the tree of R92: neighbours are added and rounded. -/
def treeLevel : List FV → List FV × Fl
  | a :: b :: r =>
    let (v, x) := fvAdd 0 a b
    let (v, y) := roundX v
    let (vs, z) := treeLevel r
    (v :: vs, x ||| y ||| z)
  | l => (l, 0)

/-- The tree over its levels. -/
def treeSum : Nat → List FV → FV × Fl
  | 0, l => (l.headD (.zero false), 0)
  | n + 1, l =>
    let (l, x) := treeLevel l
    let (v, y) := treeSum n l
    (v, x ||| y)

/-- block_sum_wide (R92): 64 exact products and a tree of depth 6. -/
def blockWide (ps : List (FV × FV)) : FV × Fl :=
  let ms := ps.map (fun p => fvMul p.1 p.2)
  let (v, f) := treeSum 6 (ms.map (·.1))
  (v, ms.foldl (fun x m => x ||| m.2) f)

/-- One scale value as a factor (R86): mode 1 a signed power of two, mode 2 a bf16 value, else exactly 1. -/
def scaleOf (mode x : Nat) : FV :=
  match mode with
  | 1 => .fin false 1 (sextInt x 8)
  | 2 => bf16.read (x % 65536)
  | _ => .fin false 1 0

/-- Whether a value is zero. -/
def FV.isZero : FV → Bool
  | .zero _ => true
  | _ => false
/-- Whether a value is infinite. -/
def FV.isInf : FV → Bool
  | .inf _ => true
  | _ => false

/-- The product of magnitudes of finite values. -/
def fvMulAll (n : Bool) (a b c : FV) : FV :=
  match a, b, c with
  | .fin _ m e, .fin _ m' e', .fin _ m'' e'' => .fin n (m * m' * m'') (e + e' + e'')
  | _, _, _ => .zero n

/-- Scaling a block sum (R88): t as an fp32 encoding, and flags. Where the sum is NaN or zero the scales set none, a signalling NaN scale
included: R88's first rules name no flag (log 23). -/
def scaleSum (s sA sB : FV) : Nat × Fl :=
  let n := (s.neg != sA.neg) != sB.neg
  if s.isNan then (fp32.nanBits, 0)
  else if s.isZero then (fp32.signBit n, 0)
  else if sA.isNan || sB.isNan then (fp32.nanBits, flNV)
  else if s.isInf && (sA.isZero || sB.isZero) then (fp32.nanBits, flNV)
  else if s.isInf then (fp32.signBit n + fp32.infBits, 0)
  else if sA.isInf || sB.isInf then (fp32.signBit n + fp32.infBits, flOF)
  else fp32.write 0 false (fvMulAll n s sA sB)

/-- round(acc + t, fp32, RNE) of a scaled block sum (R90, R92). -/
def updateFp32 (acc : W32) (s : FV × Fl) (sA sB : FV) : W32 × Fl :=
  let (t, x) := scaleSum s.1 sA sB
  let (r, y) := fp32.add 0 acc.toNat t
  (BitVec.ofNat 32 r, s.2 ||| x ||| y)

/-- The int32 accumulator wraps (R91). -/
def updateInt32 (acc : W32) (s : Int) : W32 := acc + BitVec.ofInt 32 s

/-- Output conversion through a slot (R96): x of type xt (an integer type, or 5 for fp32 and the like) with an optional factor c. -/
def outConvert (slot : W64) (sgn : Bool) (xt : Nat) (xbits : Nat) (factor : Option FV) : Nat × Fl :=
  let ot := bitsOf slot.toNat 13 10
  let mode := bitsOf slot.toNat 19 18
  let sat := bitOf slot.toNat 20
  let narz := bitOf slot.toNat 21
  let x : FV := if xt = 2 ∧ xbits % 256 = 0x80 ∧ narz = true then .zero false else readType xt sgn xbits
  match factor with
  | none =>
    if isIntType xt && isIntType ot then (intToInt ot sat sgn (intOf xt sgn xbits), 0)
    else convertReal ot mode sat sgn x
  | some c =>
    if x.isZero then convertReal ot mode sat sgn (.zero (x.neg != c.neg))
    else if c.isNan then
      let (r, f) := convertReal ot mode sat sgn .qnan
      (r, f ||| flNV)
    else
      let (v, f) := fvMul x c
      let (r, g) := convertReal ot mode sat sgn v
      (r, f ||| g)

end Sys2Proof.Machine
end

