-- ==== Sys2Proof/Machine/Matrix.lean ====
section
/-! DEFINITION. The Mash Array (spec/12): descriptors, checks at issue, the five instructions, and the completion of an operation. -/

namespace Sys2Proof.Machine

open Sys2Proof

/-! ### Descriptors (R272 to R275) -/

/-- REG of a descriptor. -/
def mxReg (w0 : W32) : Bool := bitOf w0.toNat 31
/-- BASE. -/
def mxBase (w0 : W32) : Nat := bitsOf w0.toNat 21 0
/-- FIRST. -/
def mxFirst (w0 : W32) : Nat := bitsOf w0.toNat 6 0
/-- RPITCH. -/
def mxRp (w1 : W32) : Nat := bitsOf w1.toNat 9 0
/-- TPITCH. -/
def mxTp (w1 : W32) : Nat := bitsOf w1.toNat 21 10
/-- ROT. -/
def mxRot (w1 : W32) : Nat := bitsOf w1.toNat 25 22

/-- place of R273. -/
def mxPlace (w0 w1 : W32) (slab r byte : Nat) : Nat :=
  Nat.xor (mxBase w0 + 64 * mxTp w1 * slab + 16 * mxRp w1 * r + byte) (r % 2 ^ mxRot w1 * 16)

/-- AOFF of an operation. -/
def MxOp.aoff (o : MxOp) : Nat := bitsOf o.ctl.toNat 15 8
/-- ATYPE of its slot (R82). -/
def MxOp.aType (o : MxOp) : Nat := bitsOf o.slot.toNat 3 0
/-- BTYPE. -/
def MxOp.bType (o : MxOp) : Nat := bitsOf o.slot.toNat 7 4
/-- ACC is int32. -/
def MxOp.accInt (o : MxOp) : Bool := bitsOf o.slot.toNat 9 8 == 1
/-- OTYPE. -/
def MxOp.oType (o : MxOp) : Nat := bitsOf o.slot.toNat 13 10
/-- ASCALE. -/
def MxOp.aScale (o : MxOp) : Nat := bitsOf o.slot.toNat 15 14
/-- BSCALE. -/
def MxOp.bScale (o : MxOp) : Nat := bitsOf o.slot.toNat 17 16
/-- NARP: NaR counts as zero (R89). -/
def MxOp.narz (o : MxOp) : Bool := bitOf o.slot.toNat 21
/-- ROW0. -/
def MxOp.row0 (o : MxOp) : Nat := bitsOf o.ctl.toNat 22 21
/-- ROWSM1. -/
def MxOp.rowsm1 (o : MxOp) : Nat := bitsOf o.ctl.toNat 24 23
/-- SCL. -/
def MxOp.scl (o : MxOp) : Bool := bitOf o.ctl.toNat 25
/-- SGN. -/
def MxOp.sgn (o : MxOp) : Bool := bitOf o.ctl.toNat 26
/-- OVW. -/
def MxOp.ovw (o : MxOp) : Bool := bitOf o.ctl.toNat 20
/-- ASGN. -/
def MxOp.asgn (o : MxOp) : Bool := bitOf o.ctl.toNat 6
/-- BSGN. -/
def MxOp.bsgn (o : MxOp) : Bool := bitOf o.ctl.toNat 7

/-- Bytes of a scale value (R275). -/
def scaleBytes (mode : Nat) : Nat := if mode = 1 then 1 else if mode = 2 then 2 else 0

/-- One descriptor of an operation, as its checks look at it (R274, R276). -/
structure MxArg where
  w0 : W32
  w1 : W32
  /-- A register descriptor is legal here. -/
  regOk : Bool
  /-- Its word 1 must be zero. -/
  flat : Bool
  /-- The registers of one lane, the scale's included. -/
  nregs : Nat
  /-- It is read, so that a poisoned register stops the operation. -/
  read : Bool
  /-- The first byte beyond BASE that the operand does not reach. -/
  span : Nat
  /-- A staged grid may write it only within its own ranges (R418). -/
  written : Bool
deriving DecidableEq, Repr

/-- The bytes that the row shape reaches (R273). -/
def rowSpan (w1 : W32) (slabs bytes : Nat) : Nat := 64 * mxTp w1 * (slabs - 1) + 16 * mxRp w1 * 15 + bytes

/-- The bytes that the column-tile shape reaches: whole tiles of 32 columns, then the last one. -/
def tileSpan (w1 : W32) (n bits : Nat) : Nat :=
  let tiles := ceilDiv n 32
  let last := (n - 32 * (tiles - 1)) * bits / 8
  let rows := 16 * mxRp w1 * 63
  Nat.max (64 * mxTp w1 * (tiles - 1) + rows + last) (if tiles ≥ 2 then 64 * mxTp w1 * (tiles - 2) + rows + 32 * bits / 8 else 0)

/-- The descriptors of an operation. -/
def mxArgs (o : MxOp) : List MxArg :=
  match o.sub with
  | 0 =>
    let ba := typeBits o.aType
    let bb := typeBits o.bType
    let za := scaleBytes o.aScale
    let zb := scaleBytes o.bScale
    [ ⟨o.a0, o.a1, true, false, 2 * ba + b2n (za != 0), true,
        Nat.max (rowSpan o.a1 4 (8 * ba)) (if za = 0 then 0 else 256 * mxTp o.a1 + 64 * za), false⟩,
      ⟨o.b0, o.b1, true, false, 2 * bb + b2n (zb != 0), true,
        Nat.max (tileSpan o.b1 o.n bb) (if zb = 0 then 0 else 64 * mxTp o.b1 * ceilDiv o.n 32 + o.n * zb), false⟩ ]
  | 1 => [⟨o.a0, o.a1, false, false, 0, true, rowSpan o.a1 4 (4 * o.n), false⟩]
  | 2 =>
    let bo := typeBits o.oType
    ⟨o.a0, o.a1, true, false, o.n * bo / 32, false, rowSpan o.a1 (o.rowsm1 + 1) (o.n * bo / 8), true⟩
      :: (if o.scl then [⟨o.b0, o.b1, false, true, 0, true, o.n * scaleBytes o.bScale, false⟩] else [])
  | _ => []

/-! ### Checks at issue (R276) -/

/-- The absolute register code of a register operand's first register in a lane. -/
def mxCode (o : MxOp) (w0 : W32) (l : Nat) : Nat :=
  if mxFirst w0 < 64 then 16 * nthD 0 o.wbs l + mxFirst w0 else 256 + (mxFirst w0 - 64)

/-- A register operand's names do not all lie within v0 to v63 or o0 to o15. -/
def mxNamesBad (a : MxArg) : Bool :=
  let f := mxFirst a.w0
  if f < 64 then decide (f + a.nregs > 64) else decide (f ≥ 80) || decide (f + a.nregs > 80)

/-- Reason 0x63 of one descriptor. -/
def mxDescBad (a : MxArg) : Bool :=
  if mxReg a.w0 then bitsOf a.w0.toNat 30 7 != 0 || a.w1 != 0 || !a.regOk
  else bitsOf a.w0.toNat 30 22 != 0 || bitsOf a.w1.toNat 31 26 != 0 || decide (mxRot a.w1 ≥ 6) || (a.flat && a.w1 != 0)

/-- The reasons of ILLEGAL_SHAPE. -/
def mxShapeReasons (width : Nat) (o : MxOp) : List Nat :=
  let args := mxArgs o
  (if o.n % 16 ≠ 0 ∨ o.n < 16 ∨ o.n > 512 ∨ (o.sub = 0 ∧ mxReg o.b0 = true ∧ o.n ≠ 64) then [0x61] else [])
  ++ (if o.aoff * 512 + 256 * o.n > 131072 then [0x62] else [])
  ++ (if args.any mxDescBad then [0x63] else [])
  ++ (if args.any (fun a => mxReg a.w0 && (width != 64 || mxNamesBad a)) then [0x64] else [])
  ++ (if o.sub = 2 ∧ (o.row0 + o.rowsm1 > 3 ∨ (mxReg o.a0 = true ∧ (o.row0 ≠ 0 ∨ o.rowsm1 ≠ 3))) then [0x65] else [])

/-- The registers of a register operand that have a name, by their place in it: a descriptor that is bad still names them (R276 step 2). -/
def mxNamed (o : MxOp) (a : MxArg) (l : Nat) : List Nat :=
  (upFrom 0 a.nregs).filter (fun k =>
    if mxFirst a.w0 < 64 then decide (mxFirst a.w0 + k < 64) && decide (mxCode o a.w0 l + k < 256) else decide (mxFirst a.w0 + k < 80))

/-- A poisoned register of a register operand, by its name. -/
def mxPoison (s : State) (c : Ctx) (o : MxOp) : Option Nat :=
  (mxArgs o).findSome? (fun a =>
    if a.read && mxReg a.w0 then
      (upFrom 0 c.width).findSome? (fun l =>
        ((mxNamed o a l).find? (fun k => codePoisoned (s.thread (c.th l)) (mxCode o a.w0 l + k))).map (fun k => mxFirst a.w0 + k))
    else none)

/-- A register operand beyond the budget of the slice: reason 0x29. -/
def mxBudget (c : Ctx) (o : MxOp) : Bool :=
  (mxArgs o).any (fun a => mxReg a.w0 && decide (mxFirst a.w0 < 64)
    && (upFrom 0 64).any (fun l => decide (mxCode o a.w0 l + a.nregs > c.g.launch.budget c.run.slice)))

/-- The offset in its member's scratchpad of a BASE. -/
def mxOffset (w0 : W32) : Nat := mxBase w0 % 0x100000
/-- The core whose scratchpad a 22-bit address names, for a core (R208). -/
def memberCore (core a : Nat) : Nat := coreKey (coreRet core) (coreFold core) (a / 0x100000)

/-- The first cause that an operation raises at issue after its encoding and descriptor checks, with address and detail (R276). -/
def mxFault (s : State) (c : Ctx) (o : MxOp) : Option (Cause × Nat × Nat) :=
  let mem := (mxArgs o).filter (fun a => !mxReg a.w0)
  match mxPoison s c o, leastReason (mxShapeReasons c.width o) with
  | some n, _ => some (.poisonRead, 0, n)
  | none, some r => some (.illegalShape, 0, r)
  | none, none =>
    if mxBudget c o then some (.illegalInstruction, 0, 0x29 + c.word.toNat * 2 ^ 32)
    else
      match mem.find? (fun a => mxBase a.w0 % 16 != 0) with
      | some a => some (.alignment, mxBase a.w0, 0)
      | none =>
        match mem.find? (fun a => decide (mxOffset a.w0 + a.span > 0x100000)) with
        | some a => some (.scratchBounds, mxBase a.w0, 0)
        | none =>
          (mem.find? (fun a =>
            let k := memberCore c.core (mxBase a.w0)
            (k != c.core && foreignHost s k c.g.m c.g.root)
              || (a.written && stagedSpadBad s c .write k (mxOffset a.w0) a.span))).map (fun a => (.permission, mxBase a.w0, 0))

/-! ### Issue (R268, R286) -/

/-- The low and the high word of the i-th source pair. -/
def pairWords (s : State) (c : Ctx) (h : Shape) (l i : Nat) : W32 × W32 :=
  ((src64 s c h l i).extractLsb' 0 32, (src64 s c h l i).extractLsb' 32 32)

/-- Queue an operation: it takes its place and its tag, and its tile units are recorded. -/
def mxQueue (i : Instr) (c : Ctx) (x : Issue) (o : MxOp) (s : State) : State :=
  match x.lanes with
  | [] => advance c 2 1 s
  | _ =>
    match mxFault s c o with
    | some (cause, a, d) => faultAt c cause a d 0xFF s
    | none =>
      if (s.core c.core).mxq.length ≥ 4 || (s.ret c.ret).hold || tagFull s c.run.gid o.tag then stall s
      else
        let (op, s) := freshId s
        let s := updCore c.core (fun k => { k with mxq := k.mxq ++ [{ o with op := op }] }) s
        let s := updGroup c.run.gid (fun g => { g with acc := (upFrom o.aoff (o.n / 2)).foldl sadd g.acc }) s
        advance c (instrWords i) 1 (tagUp c.run.gid o.tag s)

/-- An operation as its instruction captures it (R285). -/
def mxCapture (s : State) (c : Ctx) (sub n : Nat) (a b : W32 × W32) (slot : Nat) (ctl : W32) : MxOp :=
  { op := 0, sub := sub, gid := c.run.gid, warp := c.run.warp, slice := c.run.slice, runSeq := c.run.seq, pc := c.pc
    a0 := a.1, a1 := a.2, b0 := b.1, b1 := b.2, n := n, ctl := ctl, slot := c.g.launch.slot slot
    wbs := (upFrom 0 64).map (fun l => (s.thread (c.th l)).wb), after := orderNow s c, mismatch := false }

/-- The elected lane, or lane 0 when no thread executes. -/
def electedLane (x : Issue) : Nat := x.lanes.headD 0

/-- MXMA. -/
def execMxma (w : XWord) (ctl : W32) (s : State) : Host.Outcome State Fault Refusal :=
  issue (.mxma w ctl) (fun c h x s =>
    let l := electedLane x
    mxQueue (.mxma w ctl) c x
      (mxCapture s c 0 (srcN s c h l 2) (pairWords s c h l 0) (pairWords s c h l 1) w.slot.toNat ctl) s) s
/-- MXLD. -/
def execMxld (w : XWord) (ctl : W32) (s : State) : Host.Outcome State Fault Refusal :=
  issue (.mxld w ctl) (fun c h x s =>
    let l := electedLane x
    mxQueue (.mxld w ctl) c x (mxCapture s c 1 (srcN s c h l 1) (pairWords s c h l 0) (0, 0) 0 ctl) s) s
/-- MXST. -/
def execMxst (w : XWord) (ctl : W32) (s : State) : Host.Outcome State Fault Refusal :=
  issue (.mxst w ctl) (fun c h x s =>
    let l := electedLane x
    let scl := bitOf ctl.toNat 25
    mxQueue (.mxst w ctl) c x
      (mxCapture s c 2 (srcN s c h l (if scl then 2 else 1)) (pairWords s c h l 0)
        (if scl then pairWords s c h l 1 else (0, 0)) w.slot.toNat ctl) s) s
/-- MXZ. -/
def execMxz (w : XWord) (ctl : W32) (s : State) : Host.Outcome State Fault Refusal :=
  issue (.mxz w ctl) (fun c h x s =>
    mxQueue (.mxz w ctl) c x (mxCapture s c 3 (srcN s c h (electedLane x) 0) (0, 0) (0, 0) 0 ctl) s) s

/-- Scratchpad writes of a warp pair that have not been performed at the bank (R283, R333): those of the issuing slice-warp, and those of its
partner, which may happen before through a queue (R234, R237). -/
def spadStoresOut (s : State) (c : Ctx) : Bool :=
  s.flight.any (fun e => e.2.gid == c.run.gid && e.2.warp == c.run.warp && !e.2.performed
    && e.2.kind.writes && e.2.lanes.any (fun x => isSpad x.pa))

/-- Register writes of a slice-warp that are still in flight: of loads and atomics, and of long-latency results (R283). -/
def registersOut (s : State) (c : Ctx) : Bool :=
  (s.flight.any (fun e => swKey e.2.gid e.2.warp e.2.slice == c.sw && e.2.dest == .regs)
    || s.longs.any (fun e => swKey e.2.gid e.2.warp e.2.slice == c.sw && e.2.dest == .regs))

/-- OFENCE (R283): it waits until the earlier scratchpad writes of its warp pair have been performed and the earlier register writes of its
slice-warp have landed. -/
def execOfence (w : XWord) (ctl : W32) (s : State) : Host.Outcome State Fault Refusal :=
  issue (.ofence w ctl) (fun c _ x s =>
    if !x.lanes.isEmpty && (spadStoresOut s c || registersOut s c) then stall s else advance c 2 1 s) s

/-! ### Operands of an operation as it runs -/

/-- The physical address of a 22-bit scratchpad address, for a core. -/
def scratchPa (core a : Nat) : Nat := spadPa (memberCore core a) (a % 0x100000)
/-- A byte of scratchpad by 22-bit address. -/
def scratchByte (s : State) (core a : Nat) : Nat := (s.byte (scratchPa core a)).toNat

/-- An element of bits b at a byte place: its index picks the nibble of an int4. -/
def scratchElem (s : State) (core place c b : Nat) : Nat :=
  if b = 4 then scratchByte s core place / 2 ^ (4 * (c % 2)) % 16
  else ofBytesLE (readRaw s (scratchPa core place) (b / 8))

/-- An element of bits b, number c, of a register operand of a lane. -/
def regElem (s : State) (o : MxOp) (w0 : W32) (l c b : Nat) : Nat :=
  let t := s.thread (thKey (swKey o.gid o.warp o.slice) l)
  (readCode t (mxCode o w0 l + c * b / 32)).toNat / 2 ^ (c * b % 32) % 2 ^ b

/-- Element (i, k) of A. -/
def mxA (s : State) (core : Nat) (o : MxOp) (i k : Nat) : Nat :=
  let b := typeBits o.aType
  if mxReg o.a0 then regElem s o o.a0 i k b else scratchElem s core (mxPlace o.a0 o.a1 (i / 16) (i % 16) (k * b / 8)) k b

/-- Element (k, j) of B. -/
def mxB (s : State) (core : Nat) (o : MxOp) (k j : Nat) : Nat :=
  let b := typeBits o.bType
  if mxReg o.b0 then regElem s o o.b0 j k b
  else scratchElem s core (mxPlace o.b0 o.b1 (j / 32) k (j % 32 * b / 8)) (j % 32) b

/-- The scale of row i of A, as a factor. -/
def mxScaleA (s : State) (core : Nat) (o : MxOp) (i : Nat) : FV :=
  let z := scaleBytes o.aScale
  scaleOf o.aScale (if z = 0 then 0 else if mxReg o.a0 then regElem s o o.a0 i (2 * typeBits o.aType) 32
    else ofBytesLE (readRaw s (scratchPa core (mxBase o.a0 + 256 * mxTp o.a1 + i * z)) z))

/-- The scale of column j of B, as a factor. -/
def mxScaleB (s : State) (core : Nat) (o : MxOp) (j : Nat) : FV :=
  let z := scaleBytes o.bScale
  scaleOf o.bScale (if z = 0 then 0 else if mxReg o.b0 then regElem s o o.b0 j (2 * typeBits o.bType) 32
    else ofBytesLE (readRaw s (scratchPa core (mxBase o.b0 + 64 * mxTp o.b1 * ceilDiv o.n 32 + j * z)) z))

/-- The word of the bank that holds element (i, j) of a tile (R267). -/
def accWord (o : MxOp) (i j : Nat) : Nat := o.aoff * 128 + 64 * j + i

/-- A word of a core's bank. -/
def bankWord (s : State) (core k : Nat) : W32 := mget (s.core core).bank k 0

/-- Write a word of the bank: a zero is not listed. -/
def putBank (core k : Nat) (v : W32) (s : State) : State :=
  updCore core (fun c => { c with bank := if v = 0 then mdel c.bank k else mput c.bank k v }) s

/-! ### What an operation writes (R277 to R281) -/

/-- The new word of one element of an MXMA, with its flags (R277). -/
def mxmaElem (s : State) (core : Nat) (o : MxOp) (i j : Nat) : W32 × Fl :=
  let old := bankWord s core (accWord o i j)
  let pairs := (upFrom 0 64).map (fun k => (mxA s core o i k, mxB s core o k j))
  if o.accInt then
    let p := pairs.foldl (fun a p => a + intOf o.aType o.asgn p.1 * intOf o.bType o.bsgn p.2) (0 : Int)
    (updateInt32 (if o.ovw then 0 else old) p, 0)
  else
    let v :=
      if typeBits o.aType = 16 then blockWide (pairs.map (fun p => (readType o.aType false p.1, readType o.bType false p.2)))
      else narrowValue (blockNarrow o.narz (pairs.map (fun p => (narrowElem o.aType o.asgn p.1, narrowElem o.bType o.bsgn p.2))))
    if o.ovw then
      let (t, f) := scaleSum v.1 (mxScaleA s core o i) (mxScaleB s core o j)
      (BitVec.ofNat 32 t, v.2 ||| f)
    else updateFp32 old v (mxScaleA s core o i) (mxScaleB s core o j)

/-- The elements of a tile of n columns, column by column. -/
def tileIdx (n : Nat) : List (Nat × Nat) := (upFrom 0 n).flatMap (fun j => (upFrom 0 64).map (fun i => (i, j)))

/-- The bank words that an operation writes, with its flags. -/
def mxBankWrites (s : State) (core : Nat) (o : MxOp) : List (Nat × W32 × Fl) :=
  match o.sub with
  | 0 => (tileIdx o.n).map (fun p => (accWord o p.1 p.2, mxmaElem s core o p.1 p.2))
  | 1 => (tileIdx o.n).map (fun p =>
      (accWord o p.1 p.2, BitVec.ofNat 32 (scratchElem s core (mxPlace o.a0 o.a1 (p.1 / 16) (p.1 % 16) (4 * p.2)) p.2 32), 0))
  | 3 => (tileIdx o.n).map (fun p => (accWord o p.1 p.2, 0, 0))
  | _ => []

/-- One element of an MXST as converted, with its flags (R279). -/
def mxstElem (s : State) (core : Nat) (o : MxOp) (i j : Nat) : Nat × Fl :=
  let x := bankWord s core (accWord o (16 * o.row0 + i) j)
  let z := scaleBytes o.bScale
  let factor := if o.scl then some (scaleOf o.bScale (ofBytesLE (readRaw s (scratchPa core (mxBase o.b0 + j * z)) z))) else none
  outConvert o.slot o.sgn (if o.accInt then 7 else 5) x.toNat factor

/-- One row of an MXST: its elements packed from the lowest bits, and their flags. -/
def mxstRow (s : State) (core : Nat) (o : MxOp) (i : Nat) : Nat × Fl :=
  let b := typeBits o.oType
  (upFrom 0 o.n).foldl (fun a j =>
    let (v, f) := mxstElem s core o i j
    (a.1 + v % 2 ^ b * 2 ^ (b * j), a.2 ||| f)) (0, 0)

/-- The rows of an MXST, in ascending order. -/
def mxstRows (s : State) (core : Nat) (o : MxOp) : List (Nat × Nat × Fl) :=
  if o.sub = 2 then (upFrom 0 (16 * (o.rowsm1 + 1))).map (fun i => (i, mxstRow s core o i)) else []

/-- The 8-byte words of scratchpad that an MXST writes, in order: 22-bit address and bytes. -/
def mxStores (o : MxOp) (rows : List (Nat × Nat × Fl)) : List (Nat × List Byte) :=
  if o.sub = 2 ∧ mxReg o.a0 = false then
    rows.flatMap (fun r =>
      (upFrom 0 (o.n * typeBits o.oType / 64)).map (fun k =>
        (mxPlace o.a0 o.a1 (r.1 / 16) (r.1 % 16) (8 * k), bytesLE 8 (r.2.1 / 2 ^ (64 * k)))))
  else []

/-- The registers that an MXST writes: lane, register code, words (R280). -/
def mxRegs (o : MxOp) (rows : List (Nat × Nat × Fl)) : List (Nat × Nat × List W32) :=
  if o.sub = 2 ∧ mxReg o.a0 = true then
    rows.map (fun r => (r.1, mxCode o o.a0 r.1, valueWords r.2.1 (o.n * typeBits o.oType / 32)))
  else []

/-- The 22-bit addresses of the operand bytes that an operation reads from scratchpad. -/
def mxReads (o : MxOp) : List Nat :=
  let ba := typeBits o.aType
  let bb := typeBits o.bType
  match o.sub with
  | 0 =>
    (if mxReg o.a0 then [] else
      (upFrom 0 64).flatMap (fun i => (upFrom 0 (8 * ba)).map (fun k => mxPlace o.a0 o.a1 (i / 16) (i % 16) k))
      ++ (upFrom 0 (64 * scaleBytes o.aScale)).map (fun k => mxBase o.a0 + 256 * mxTp o.a1 + k))
    ++ (if mxReg o.b0 then [] else
      (upFrom 0 o.n).flatMap (fun j => (upFrom 0 64).flatMap (fun k =>
        (upFrom 0 (Nat.max 1 (bb / 8))).map (fun y => mxPlace o.b0 o.b1 (j / 32) k (j % 32 * bb / 8 + y))))
      ++ (upFrom 0 (o.n * scaleBytes o.bScale)).map (fun k => mxBase o.b0 + 64 * mxTp o.b1 * ceilDiv o.n 32 + k))
  | 1 => (upFrom 0 64).flatMap (fun i => (upFrom 0 (4 * o.n)).map (fun k => mxPlace o.a0 o.a1 (i / 16) (i % 16) k))
  | 2 => if o.scl then (upFrom 0 (o.n * scaleBytes o.bScale)).map (fun k => mxBase o.b0 + k) else []
  | _ => []

/-- What the array finds while an operation runs (R289): a dead member, or a poisoned word, with the scratchpad address; or a mismatch of its
residue code in a block sum or a bank write (R290). -/
def mxFound (s : State) (core : Nat) (o : MxOp) (stores : List (Nat × List Byte)) : Option (Cause × Nat × Nat) :=
  let dead := fun (a : Nat) => (s.core (memberCore core a)).dead
  match (mxReads o ++ stores.map (·.1)).find? dead with
  | some a => some (.coreLost, a, coreCode (memberCore core a))
  | none =>
    match (mxReads o).find? (fun a => smem s.poison (scratchPa core a / 8 * 8)) with
    | some a => some (.uncorrectable, a / 8 * 8, 0)
    | none => if o.mismatch then some (.sdcDetected, 0, 0) else none

/-- The writes of an operation, of those that a test by number keeps. -/
def mxPerform (core : Nat) (o : MxOp) (banks : List (Nat × W32 × Fl)) (stores : List (Nat × List Byte))
    (regs : List (Nat × Nat × List W32)) (keep : Nat → Bool) (s : State) : State :=
  let s := banks.foldl (fun t p => if keep p.1 then putBank core p.1 p.2.1 t else t) s
  let s := stores.foldl (fun t p => if keep p.1 then writeKey t 0 (scratchPa core p.1) p.2 else t) s
  regs.foldl (fun t p => if keep p.1 then landRegs (thKey (swKey o.gid o.warp o.slice) p.1) p.2.1 p.2.2 t else t) s

/-- An operation of the array faults (R289): each element of its destination is old or new, later ones of the group are discarded. -/
def mxStop (core : Nat) (o : MxOp) (found : Cause × Nat × Nat) (s : State) : State :=
  let s := updCore core (fun c => { c with mxq := c.mxq.filter (fun p => p.gid != o.gid) }) s
  let s := clearPending (swKey o.gid o.warp o.slice) o.op s
  takeFault ⟨found.1, o.gid, o.warp, o.slice.code, 0xFF, false, o.pc.toNat, none, found.2.1, found.2.2⟩ { s with free := s.free + 1 }

/-- MX_OPERATION_COMPLETE (R282, R286, R288): the operation at the head of the core's queue is performed wholly; its writes, its flags and
its tag change in one step, and the array takes the width that the power alarm asks for. What its slice-warp has acquired before is performed
first (R233). -/
def execMxOperationComplete (core : Nat) (s : State) : Host.Outcome State Fault Refusal :=
  match (s.core core).mxq with
  | [] => .next s
  | o :: rest =>
    if !(alive s o.after).isEmpty then .next s
    else
    let banks := mxBankWrites s core o
    let rows := mxstRows s core o
    let stores := mxStores o rows
    let regs := mxRegs o rows
    let s := updCore core (fun c => { c with mxn := (s.ret (coreRet core)).alarm }) s
    match mxFound s core o stores with
    | some f => .next (mxStop core o f (mxPerform core o banks stores regs (fun k => Config.choice (s.free * 2 ^ 22 + k) % 2 == 1) s))
    | none =>
      let t := mxPerform core o banks stores regs (fun _ => true) (updCore core (fun c => { c with mxq := rest }) s)
      let fl := banks.foldl (fun a p => a ||| p.2.2) (rows.foldl (fun a r => a ||| r.2.2) (0 : Fl))
      let sw := swKey o.gid o.warp o.slice
      .next (reapGroup o.gid (tagDown o.gid o.tag (clearPending sw o.op (mergeFlags sw fl t))))

end Sys2Proof.Machine
end

