-- ==== Sys2Proof/Machine/Copy.lean ====
section
/-! DEFINITION. COPY and the Sparge engine (spec/14 R322 to R327; 21 R459). -/

namespace Sys2Proof.Machine

open Sys2Proof

/-! ### Accesses of an engine -/

/-- The group an engine or the endpoint acts for: its address space, its log and its core. -/
structure Agent where
  core : Nat
  sp : Space
  grid : Nat
  staged : Bool
  region : Nat
deriving DecidableEq, Repr

/-- The agent that acts for a group. -/
def agentOf (s : State) (core : Nat) (g : Group) : Agent := ⟨core, spaceOf s g, g.grid, g.launch.staged, g.region⟩

/-- An access of an agent as a request at its home. -/
def agentFlight (a : Agent) (key size : Nat) : Flight where
  kind := .load
  gid := 0
  warp := 0
  slice := .access
  core := a.core
  pc := 0
  runSeq := 0
  size := size
  words := 0
  sx := false
  aop := 0
  wide := false
  dest := .drop
  lanes := []
  key := key
  cached := false
  stream := false
  spad := false
  m := a.sp.m
  root := a.sp.root
  region := a.region
  grid := a.grid
  staged := a.staged
  after := []
  performed := false

/-- The outcome of an engine's access check: a place, or a cause with the address and detail of its record. -/
inductive Reach where
  | ok (pa key : Nat)
  | bad (cause : Cause) (addr detail : Nat)
deriving DecidableEq, Repr

/-- A unit of n bytes at a virtual address as an engine reaches it (R326). A write of a poisoned unit that the whole range lo to hi covers
only in part is not performed (R215, R221). A device register is no place for an engine. -/
def agentReach (s : State) (a : Agent) (acc : Access) (va n lo hi : Nat) : Reach :=
  match translateNow s a.sp acc va with
  | .miss => .bad .translation va 0
  | .bad c => .bad c va 0
  | .ok pa e =>
    if pteType e = 3 then .bad .permission va 0
    else
      match targetCause s (coreRet a.core) 0 pa n with
      | some c => .bad c va (targetDetail c pa)
      | none =>
        if acc.writes && a.staged && !isSpad pa && !pteStaged e then .bad .permission va 0x43
        else if acc.writes && a.staged && isSpad pa
            && !inOwnRange s (coreOfSpad pa) a.sp.m a.grid ((localOf pa - spadBase) % 0x100000) n then .bad .permission va 0
        else if acc.writes && logged a.staged pa && logFull s a.sp.m a.grid n then .bad .permission va 0x42
        else
          let bad := (unitsOf pa n).find? (fun u =>
            smem s.poison u && (!acc.writes || decide (va + u < lo + pa) || decide (va + u + unitSize u > hi + pa)))
          match bad with
          | some u => .bad .uncorrectable u 0
          | none => .ok pa (pteKey e)

/-- Read a unit as an agent. -/
def agentRead (s : State) (a : Agent) (key pa n : Nat) : List Byte := bytesLE n (readHome s (agentFlight a key n) pa n)

/-- Write a unit as an agent; the poison of a unit that the whole range covers is cleared. -/
def agentWrite (a : Agent) (key pa : Nat) (bs : List Byte) (s : State) : State :=
  let s := if logged a.staged pa then s else { s with poison := (unitsOf pa bs.length).foldl sdel s.poison }
  writeHome (agentFlight a key bs.length) pa bs s

/-! ### Issue (R323, R325) -/

/-- Writes of a slice-warp that an engine waits for: its stores, until they are acknowledged, and its atomics, until they are performed
(R238, R459). -/
def ownWrites (s : State) (c : Ctx) : List Nat :=
  (s.flight.filter (fun e => e.2.gid == c.run.gid && e.2.warp == c.run.warp && e.2.slice == c.run.slice
    && (e.2.kind.acked || e.2.kind == .atomic))).map (·.1)

/-- All of some requests have returned: stores acknowledged, loads landed, atomics performed. -/
def writesDone (s : State) (ops : List Nat) : Bool :=
  ops.all (fun op => match mget? s.flight op with | none => true | some f => f.kind == .atomic && f.performed)

/-- The causes of an engine instruction's 64-byte descriptor address, in order (R323, R333). -/
def descriptorFault (s : State) (c : Ctx) (a : Nat) : Option Cause :=
  if a ≥ 0x400000 then some .scratchBounds
  else if a % 64 ≠ 0 then some .alignment
  else
    let k := memberCore c.core a
    if k ≠ c.core ∧ foreignHost s k c.g.m c.g.root = true then some .permission else none

/-- COPY. -/
def execCopy (w : XCWord) (ctl : W32) (s : State) : Host.Outcome State Fault Refusal :=
  issueOrdered operandCheck (.copy w ctl) (fun c h x s =>
    match x.lanes with
    | [] => advance c 2 1 s
    | l :: _ =>
      let a := srcN s c h l 0
      let tag := bitsOf ctl.toNat 5 0
      match descriptorFault s c a with
      | some cause => faultAt c cause a 0 l s
      | none =>
        if (s.core c.core).copyq.length ≥ 8 || tagFull s c.run.gid tag then stall s
        else
          let (op, t) := freshId s
          let o : CopyOp :=
            { op := op, gid := c.run.gid, warp := c.run.warp, slice := c.run.slice, pc := c.pc, tag := tag
              slot := c.g.launch.slot w.slot.toNat, desc := a, after := ownWrites s c ++ orderNow s c, done := CopyAt.start }
          advance c 2 1 (tagUp c.run.gid tag (updCore c.core (fun k => { k with copyq := k.copyq ++ [o] }) t))) s

/-! ### The chain (R322 to R324) -/

/-- A field of a descriptor's bytes. -/
def fieldLE (bs : List Byte) (off n : Nat) : Nat := ofBytesLE ((bs.drop off).take n)

/-- One step of CRC-32C on a bit. -/
def crcBits : Nat → Nat → Nat
  | 0, v => v
  | n + 1, v => crcBits n (if v % 2 = 1 then Nat.xor (v / 2) 0x82F63B78 else v / 2)

/-- crc32c of R324. -/
def crc32c (init : Nat) (bs : List Byte) : Nat :=
  Nat.xor (bs.foldl (fun v b => crcBits 8 (Nat.xor v b.toNat)) (Nat.xor (init % 2 ^ 32) 0xFFFFFFFF)) 0xFFFFFFFF

/-- Convert the elements of some source bytes (R324, R96): each of wa bits to wo bits. -/
def convertUnit (slot : W64) (sgn : Bool) (bs : List Byte) : List Byte × Fl :=
  let at_ := bitsOf slot.toNat 3 0
  let ot := bitsOf slot.toNat 13 10
  let wa := typeBits at_
  let wo := typeBits ot
  let v := ofBytesLE bs
  let k := 8 * bs.length / wa
  let r := (upFrom 0 k).foldl (fun (acc : Nat × Fl) i =>
    let (y, f) := outConvert slot sgn at_ (v / 2 ^ (wa * i) % 2 ^ wa) none
    (acc.1 + y % 2 ^ wo * 2 ^ (wo * i), acc.2 ||| f)) (0, 0)
  (bytesLE (k * wo / 8) r.1, r.2)

/-- A descriptor as its checks and its work look at it (R322). -/
structure CopyDesc where
  src : Nat
  dst : Nat
  length : Nat
  flags : Nat
  scope : Nat
  crcIn : Nat
  crcOut : Nat
  crcExp : Nat
  next : Nat
  reserved : Bool
deriving DecidableEq, Repr

/-- A descriptor from its 64 bytes. -/
def copyDesc (bs : List Byte) : CopyDesc :=
  ⟨fieldLE bs 0 8, fieldLE bs 8 8, fieldLE bs 0x10 4, fieldLE bs 0x14 2, fieldLE bs 0x16 1, fieldLE bs 0x18 4, fieldLE bs 0x1C 4,
    fieldLE bs 0x20 4, fieldLE bs 0x28 4, fieldLE bs 0x24 4 != 0 || fieldLE bs 0x2C 20 != 0⟩

/-- The destination length of a descriptor. -/
def CopyDesc.outLength (d : CopyDesc) (slot : W64) : Nat :=
  if bitOf d.flags 0 then d.length * typeBits (bitsOf slot.toNat 13 10) / typeBits (bitsOf slot.toNat 3 0) else d.length

/-- The checks of R323 on the k-th descriptor of a chain. -/
def CopyDesc.bad (s : State) (core m root : Nat) (slot : W64) (k : Nat) (d : CopyDesc) : Bool :=
  d.reserved || decide (d.flags ≥ 64) || decide (d.scope > 10) || decide (d.next ≥ 0x400000)
  || d.length % 16 != 0 || decide (d.length < 16) || decide (d.length > 0x1000000) || d.src % 16 != 0 || d.dst % 16 != 0
  || ((bitOf d.flags 2 || bitOf d.flags 5) && !bitOf d.flags 1) || (bitOf d.flags 2 && k == 0)
  || d.outLength slot % 16 != 0 || decide (k ≥ 256)
  || (bitOf d.flags 3 && (d.next % 64 != 0
        || (memberCore core d.next != core && foreignHost s (memberCore core d.next) m root)))

/-- An engine at work on a COPY: the state, and how far it has come. -/
structure CopyRun where
  s : State
  p : CopyAt
deriving DecidableEq, Repr

/-- Write whole units of 16 bytes at their places in DST, from lo to hi. -/
def flushUnits (a : Agent) (lo hi : Nat) : Nat → CopyRun → CopyRun × Option (Cause × Nat × Nat)
  | 0, r => (r, none)
  | n + 1, r =>
    if r.p.rest.length < 16 then (r, none)
    else
      match agentReach r.s a .write (lo + r.p.out) 16 lo hi with
      | .bad c x d => (r, some (c, x, d))
      | .ok pa key =>
        let bs := r.p.rest.take 16
        flushUnits a lo hi n ⟨agentWrite a key pa bs r.s, { r.p with
          out := r.p.out + 16, rest := r.p.rest.drop 16, crc := r.p.crc.map (fun v => crc32c v bs), put := r.p.put ++ [(pa, key, bs)] }⟩

/-- The next source unit of a descriptor (R324). A unit that was written since the descriptor was read, by the engine itself or by another agent,
is read with its old value or its new one, which is a free choice (R241, log 4). -/
def copyUnit (a : Agent) (slot : W64) (d : CopyDesc) (was : List Host.Cell) (r : CopyRun) : CopyRun × Option (Cause × Nat × Nat) :=
  match agentReach r.s a .read (d.src + 16 * r.p.unit) 16 0 0 with
  | .bad c x y => (r, some (c, x, y))
  | .ok pa key =>
    let bs := agentRead (if Config.choice r.s.free % 2 = 0 then { r.s with mem := was } else r.s) a key pa 16
    let (ys, f) := if bitOf d.flags 0 then convertUnit slot (bitOf d.flags 4) bs else (bs, 0)
    flushUnits a d.dst (d.dst + d.outLength slot) 8
      ⟨{ r.s with free := r.s.free + 1 }, { r.p with unit := r.p.unit + 1, rest := r.p.rest ++ ys, fl := r.p.fl ||| f }⟩

/-- Write bytes of a descriptor in scratchpad at the bank. -/
def descWrite (core a off : Nat) (bs : List Byte) (s : State) : State := writeKey s 0 (scratchPa core (a + off)) bs

/-- What an engine finds at a descriptor itself: a dead member, a poisoned word, a place a staged grid may not write (R326, R418). -/
def descFault (s : State) (a : Agent) (d : Nat) : Option (Cause × Nat × Nat) :=
  let k := memberCore a.core d
  if (s.core k).dead then some (.coreLost, d, coreCode k)
  else if a.staged && !inOwnRange s k a.sp.m a.grid (d % 0x100000) 64 then some (.permission, d, 0)
  else (poisonedIn s (scratchPa a.core d) 64).map (fun u => (.uncorrectable, d + (u - scratchPa a.core d), 0))

/-- The units of DST that an engine has written, one by one, each to be rewritten or not by a test on what stands there now (log 4). -/
def reviewUnits (a : Agent) (p : CopyAt) (rewrite : Bool → List Byte → Nat × Nat × List Byte → Option (List Byte)) (s : State) : State :=
  { (p.put.zip (upFrom 0 p.put.length)).foldl (fun t u =>
      match rewrite (Config.choice (s.free * 2 ^ 24 + u.2) % 2 == 0) (agentRead t a u.1.2.1 u.1.1 16) u.1 with
      | some bs => agentWrite a u.1.2.1 u.1.1 bs t
      | none => t) s with free := s.free + 1 }

/-- After a fault inside a descriptor, each unit of its DST holds its old or its new value (R326): a free choice (log 4). -/
def keepSome (a : Agent) (p : CopyAt) (s : State) : State :=
  match p.begun with
  | none => s
  | some b => reviewUnits a p (fun old now u => if old && now == u.2.2 then some (agentRead { s with mem := b.2 } a u.2.1 u.1 16) else none) s

/-- At the end of a descriptor a unit of DST that a thread wrote meanwhile ends with the thread's value or the engine's (R241). -/
def raceUnits (a : Agent) (p : CopyAt) (s : State) : State :=
  reviewUnits a p (fun mine now u => if mine && now != u.2.2 then some u.2.2 else none) s

/-- What the engine's next step on a COPY does. -/
inductive CopyStep where
  /-- The chain goes on. -/
  | more (o : CopyOp) (s : State)
  /-- The chain has ended, with the flags of its conversions (R325). -/
  | ended (fl : Fl) (s : State)
  /-- The engine has found a cause (R326). -/
  | fault (f : Cause × Nat × Nat) (s : State)
deriving DecidableEq, Repr

/-- A descriptor whose units are all moved: its CRC, its STATUS and what follows it (R324). -/
def copyDone (a : Agent) (o : CopyOp) (c : CopyDesc) (crc : Nat) (s : State) : CopyStep :=
  let s := raceUnits a o.done s
  let t := if bitOf c.flags 1 then descWrite a.core o.desc 0x1C (bytesLE 4 crc) s else s
  if bitOf c.flags 1 && bitOf c.flags 5 && crc != c.crcExp then .ended o.done.fl (descWrite a.core o.desc 0x17 [2] t)
  else
    let t := descWrite a.core o.desc 0x17 [1] t
    if bitOf c.flags 3 then
      .more { o with desc := c.next, done := { CopyAt.start with
        k := o.done.k + 1, prev := if bitOf c.flags 1 then crc else c.crcOut, fl := o.done.fl } } t
    else .ended o.done.fl t

/-- The engine's next step on a COPY (R324): it reads the descriptor that it reaches, moves one source unit of it, or ends it. -/
def copyStep (a : Agent) (o : CopyOp) (s : State) : CopyStep :=
  match descFault s a o.desc with
  | some f => .fault f (keepSome a o.done s)
  | none =>
    let (bs, was) := o.done.begun.getD (readRaw s (scratchPa a.core o.desc) 64, s.mem)
    let c := copyDesc bs
    if c.bad s a.core a.sp.m a.sp.root o.slot o.done.k then .ended o.done.fl (descWrite a.core o.desc 0x17 [3] s)
    else
      let crc := o.done.crc.getD (if bitOf c.flags 2 then o.done.prev else c.crcIn)
      if o.done.unit < c.length / 16 then
        match copyUnit a o.slot c was ⟨s, { o.done with begun := some (bs, was), crc := some crc }⟩ with
        | (r, some f) => .fault f (keepSome a r.p r.s)
        | (r, none) => .more { o with done := r.p } r.s
      else copyDone a o c crc s

/-- The end of a chain's work: the state, its flags, and the cause that stopped it. -/
structure CopyEnd where
  s : State
  fl : Fl
  found : Option (Cause × Nat × Nat)
deriving DecidableEq, Repr

/-- A chain to its end, from where it stands. -/
def copyChain (a : Agent) : Nat → CopyOp → State → CopyEnd
  | 0, o, s => ⟨s, o.done.fl, none⟩
  | n + 1, o, s =>
    match copyStep a o s with
    | .more o t => copyChain a n o t
    | .ended fl t => ⟨t, fl, none⟩
    | .fault f t => ⟨t, 0, some f⟩

/-- More steps than any chain takes: 256 descriptors of 2^20 units (R322, R323). -/
def chainSteps : Nat := 0x20000000

/-- COPY_COMPLETE (R325, R326): the chain at the head of a core's Sparge engine runs to its end, its writes become visible, its flags merge
and its tag count falls, in one step. It does not begin before the earlier writes of its slice-warp are done (R238, R459). -/
def execCopyComplete (core : Nat) (s : State) : Host.Outcome State Fault Refusal :=
  match (s.core core).copyq with
  | [] => .next s
  | o :: rest =>
    match mget? s.groups o.gid with
    | none => .next (updCore core (fun c => { c with copyq := rest }) s)
    | some g =>
      if !writesDone s o.after then .next s
      else
        let r := copyChain (agentOf s core g) chainSteps o s
        let t := { r.s with free := r.s.free + 1 }
        match r.found with
        | some f =>
          let t := updCore core (fun c => { c with copyq := c.copyq.filter (fun p => p.gid != o.gid) }) t
          .next (takeFault ⟨f.1, o.gid, o.warp, o.slice.code, 0xFF, false, o.pc.toNat, none, f.2.1, f.2.2⟩ t)
        | none =>
          let t := updCore core (fun c => { c with copyq := rest }) t
          .next (reapGroup o.gid (tagDown o.gid o.tag (mergeFlags (swKey o.gid o.warp o.slice) r.fl t)))

/-- The Sparge engine of a core moves one unit of the chain at its head, or goes from one descriptor to the next (R224, R325). What ends the
chain is left to COPY_COMPLETE. -/
def moveCopy (core : Nat) (s : State) : State :=
  match (s.core core).copyq with
  | [] => s
  | o :: rest =>
    match mget? s.groups o.gid with
    | none => s
    | some g =>
      if !writesDone s o.after then s
      else
        match copyStep (agentOf s core g) o s with
        | .more o t => updCore core (fun c => { c with copyq := o :: rest }) t
        | _ => s

/-- A COPY as an image keeps it (R327): its current descriptor, the bytes done, the CRC of them, and its tag. A source unit whose conversion
has not been written is moved again. -/
def CopyOp.saved (o : CopyOp) : CopyOp :=
  let redo := ceilDiv (o.done.rest.length * typeBits (bitsOf o.slot.toNat 3 0)) (16 * Nat.max 1 (typeBits (bitsOf o.slot.toNat 13 10)))
  { o with after := [], done := { o.done with unit := o.done.unit - redo, rest := [], put := [], begun := none } }

end Sys2Proof.Machine
end

