-- ==== Sys2Proof/Machine/Network.lean ====
section
/-! DEFINITION. The network endpoint (spec/14 R328 to R336; 13 R311 to R313): posting, sending, placing and landing of work requests. -/

namespace Sys2Proof.Machine

open Sys2Proof

/-! ### Posting (R329, R330, R333) -/

/-- Entries of a work-request queue in use: those it holds and those reserved by the runs in progress of its reticle (R330). -/
def wrqUsed (s : State) (ret q : Nat) : Nat :=
  let inRun := fun (r : Option Run) => match r with | some x => (x.reserved.filter (· == q)).length | none => 0
  (mget (s.ret ret).wrq q []).length
    + ((s.cores.filter (fun e => coreRet e.1 == ret)).map (fun e => inRun e.2.portA + inRun e.2.portX)).foldl (· + ·) 0

/-- The instruction's own reservation leaves the run: used, or released unused (R330). -/
def takeReserved (c : Ctx) (q : Nat) (s : State) : State :=
  match s.portRun ⟨c.core, c.run.slice⟩ with
  | some r => setPort ⟨c.core, c.run.slice⟩ (some { r with reserved := r.reserved.erase q }) s
  | none => s

/-- QIDX of a control word (R319). -/
def qidxOf (ctl : W32) : Nat := bitsOf ctl.toNat 15 6

/-- The region's effective NETF (R346). -/
def netfOf (s : State) (g : Group) : Nat := effective s g.m 9 g.region (·.netf)

/-- Enter a work request into its queue: it counts one on its tag (R332). -/
def enterRequest (c : Ctx) (q : Nat) (wr : WorkReq) (s : State) : State :=
  let (op, t) := freshId s
  let o : WorkOp :=
    { wr := wr, gid := c.run.gid, warp := c.run.warp, slice := c.run.slice, core := c.core, m := c.g.m, root := c.g.root
      region := c.g.region, pc := c.pc, queue := q, ret := c.ret, after := ownWrites s c ++ orderNow s c, moved := 0, taken := [], route := none
      injected := false, outstanding := 0, sent := false, err := none, old := none, orphan := false, stamp := 0, seq := 0 }
  let t := { t with works := mput t.works op o }
  let t := updRet c.ret (fun r => { r with wrq := mput r.wrq q (mget r.wrq q [] ++ [op]) }) t
  tagUp c.run.gid wr.tag t

/-- The end of a posting instruction: its queue's binding, then its entry and its tag (R311, R329, R390). -/
def postRequest (i : Instr) (c : Ctx) (l q : Nat) (wr : WorkReq) (s : State) : State :=
  if endpointRoot s c.ret q ≠ some c.g.root then faultAt c .permission 0 0 l s
  else if tagFull s c.run.gid wr.tag then stall s
  else if !c.run.reserved.contains q && decide (wrqUsed s c.ret q ≥ 64) then stall s
  else advance c (instrWords i) 1 (enterRequest c q wr (takeReserved c q s))

/-- The plan of an endpoint address at issue: translated, with no alignment of its own (R329). -/
def planEndpoint (s : State) (c : Ctx) (acc : Access) (va : W64) : Plan := planVirtual s c acc va 0

/-- Two addresses at issue, in order: a miss waits, a cause is raised precisely. -/
def settleTwo (c : Ctx) (l : Nat) (la ra : W64) (pl pr : Plan) (s : State) (go : Nat → State → State) : State :=
  settlePlans c [⟨l, la.toInt, pl⟩, ⟨l, ra.toInt, pr⟩] s (fun s =>
    match pr with
    | .ok pa _ => go pa s
    | _ => s)

/-- The work request of RPUT, RGET or RATOM as its operands give it, before TARGET (R328). -/
def directRequest (s : State) (c : Ctx) (h : Shape) (l opc : Nat) (ctl : W32) : WorkReq :=
  let p := fun (k : Nat) => mget (s.sw c.sw).uni (pregOf ctl + k) 0
  let flags := if opc = 2 then 0 else bitsOf ctl.toNat 16 16
  let spray := if opc = 0 then bitsOf ctl.toNat 17 17 else 0
  let land := if opc = 0 then bitsOf ctl.toNat 20 20 else 0
  let aop := if opc = 3 then bitsOf ctl.toNat 28 25 else 0
  let pair := fun (k : Nat) => (p k).toNat + (p (k + 1)).toNat * 2 ^ 32
  { opc := opc, flags := flags + 2 * spray + 4 * bitsOf ctl.toNat 19 18 + 16 * land, aop := aop
    tag := bitsOf ctl.toNat 5 0, length := if opc = 3 then 8 else (p 0).toNat
    laddr := srcN s c h l 0, raddr := srcN s c h l 1, target := 0, imm := 0, cctr := 0
    landing := if land = 1 then (p 1).toNat else 0
    operand := if opc = 3 then pair 0 else 0, compare := if opc = 3 ∧ aop = 12 then pair 2 else 0, cookie := c.pc.toNat }

/-- ORDERED of a work request. -/
def WorkReq.ordered (w : WorkReq) : Bool := bitOf w.flags 0
/-- ROUTE. -/
def WorkReq.route (w : WorkReq) : Nat := bitsOf w.flags 3 2
/-- LAND. -/
def WorkReq.land (w : WorkReq) : Bool := bitOf w.flags 4
/-- A target outside the fabric (R312). -/
def WorkReq.toPeer (w : WorkReq) : Bool := bitOf w.target 31
/-- The peer index. -/
def WorkReq.peer (w : WorkReq) : Nat := bitsOf w.target 23 0
/-- A WRITE, a WRITE_IMM or an ATOMIC: what NFLUSH covers (R334). -/
def WorkReq.puts (w : WorkReq) : Bool := w.opc != 2

/-- RPUT, RGET and RATOM (R328, R329). -/
def directPost (i : Instr) (opc : Nat) (ctl : W32) (s : State) : Host.Outcome State Fault Refusal :=
  issueOrdered operandCheck i (fun c h x s =>
    match x.lanes with
    | [] => advance c 2 1 (takeReserved c (qidxOf ctl) s)
    | l :: _ =>
      let w := directRequest s c h l opc ctl
      if w.length < 1 ∨ w.length > 0x1000000 ∨ (w.ordered = true ∧ w.length > 4096) ∨ w.landing ≥ 0x400000 then reasonAt c 0x28 s
      else if opc = 3 ∧ w.laddr % 8 ≠ 0 then faultAt c .alignment w.laddr 0 l s
      else if opc = 3 ∧ w.raddr % 8 ≠ 0 then faultAt c .alignment w.raddr 0 l s
      else if w.landing % 16 ≠ 0 then faultAt c .alignment w.landing 0 l s
      else
        let la : W64 := BitVec.ofNat 64 w.laddr
        let ra : W64 := BitVec.ofNat 64 w.raddr
        let pl := planEndpoint s c (if opc = 0 then .read else .write) la
        let pr := planEndpoint s c (if opc = 2 then .read else .write) ra
        settleTwo c l la ra pl pr s (fun pa s =>
          if w.ordered && !bitOf (netfOf s c.g) 1 then faultAt c .permission w.raddr 0 l s
          else postRequest i c l (qidxOf ctl) { w with target := retOf pa } s)) s

/-- RPUT. -/
def execRput (w : XWord) (ctl : W32) (s : State) : Host.Outcome State Fault Refusal := directPost (.rput w ctl) 0 ctl s
/-- RGET. -/
def execRget (w : XWord) (ctl : W32) (s : State) : Host.Outcome State Fault Refusal := directPost (.rget w ctl) 2 ctl s
/-- RATOM. -/
def execRatom (w : XWord) (ctl : W32) (s : State) : Host.Outcome State Fault Refusal := directPost (.ratom w ctl) 3 ctl s

/-- A work request from its 64 bytes (R312). -/
def workReq (bs : List Byte) : WorkReq :=
  { opc := fieldLE bs 0 1, flags := fieldLE bs 1 1, aop := fieldLE bs 2 1, tag := fieldLE bs 3 1, length := fieldLE bs 4 4
    laddr := fieldLE bs 8 8, raddr := fieldLE bs 0x10 8, target := fieldLE bs 0x18 4, imm := fieldLE bs 0x1C 4
    landing := fieldLE bs 0x20 4, cctr := fieldLE bs 0x24 4, operand := fieldLE bs 0x28 8, compare := fieldLE bs 0x30 8
    cookie := fieldLE bs 0x38 8 }

/-- A field of a posted work request is outside the limits of R312 (R313). -/
def WorkReq.bad (w : WorkReq) : Bool :=
  decide (w.opc > 3) || decide (w.flags ≥ 32) || w.route == 3 || decide (w.tag ≥ 64)
  || (if w.opc = 3 then !ratomAop w.aop else w.aop != 0)
  || (if w.opc = 3 then w.length != 8 else decide (w.length < 1) || decide (w.length > 0x1000000))
  || (w.ordered && !w.toPeer && decide (w.opc < 2) && decide (w.length > 4096))
  || (if w.toPeer then bitsOf w.target 30 24 != 0 else bitsOf w.target 30 17 != 0)
  || (w.opc != 1 && (w.imm != 0 || w.cctr != 0)) || decide (w.cctr ≥ 1024)
  || decide (w.landing ≥ 0x400000) || w.landing % 16 != 0 || (!w.land && w.landing != 0)
  || (w.compare != 0 && !(w.opc == 3 && w.aop == 12))
  || (w.toPeer && (bitOf w.flags 1 || w.route != 0 || w.land))

/-- A peer descriptor's fields (R444): VALID. -/
def peerValid (d : BitVec 256) : Bool := d.getLsbD 0
/-- ROOT. -/
def peerRoot (d : BitVec 256) : Nat := (d.extractLsb' 16 12).toNat
/-- JOB. -/
def peerJob (d : BitVec 256) : Nat := (d.extractLsb' 32 24).toNat
/-- CCTR. -/
def peerCctr (d : BitVec 256) : Nat := (d.extractLsb' 64 10).toNat

/-- A posted target that the region may not reach (R222, R313, R346, R444). -/
def targetDenied (s : State) (c : Ctx) (w : WorkReq) : Bool :=
  if w.toPeer then
    let d := mget (s.ret c.ret).peers w.peer 0
    !bitOf (netfOf s c.g) 0 || decide (w.peer ≥ 4096) || !peerValid d || peerRoot d != c.g.root
  else
    let sp := spaceOf s c.g
    decide (modOf w.target < sp.modlo) || decide (modOf w.target > sp.modhi) || (w.ordered && !bitOf (netfOf s c.g) 1)

/-- NPOST (R333). -/
def execNpost (w : XWord) (ctl : W32) (s : State) : Host.Outcome State Fault Refusal :=
  issueOrdered operandCheck (.npost w ctl) (fun c h x s =>
    match x.lanes with
    | [] => advance c 2 1 (takeReserved c (qidxOf ctl) s)
    | l :: _ =>
      let a := srcN s c h l 0
      match descriptorFault s c a with
      | some cause => faultAt c cause a 0 l s
      | none =>
        if spadStoresOut s c then stall s
        else if (s.core (memberCore c.core a)).dead then faultAt c .coreLost a (coreCode (memberCore c.core a)) l s
        else
          match poisonedIn s (scratchPa c.core a) 64 with
          | some u => faultAt c .uncorrectable u 0 l s
          | none =>
            let wr := workReq (readRaw s (scratchPa c.core a) 64)
            if wr.bad then reasonAt c 0x23 s
            else if targetDenied s c wr then faultAt c .permission wr.raddr 0 l s
            else postRequest (.npost w ctl) c l (qidxOf ctl) wr s) s

/-- A request has been placed at its target wholly, or acknowledged by its peer (R334). -/
def placedWholly (s : State) (op : Nat) : Bool :=
  match mget? s.works op with
  | none => true
  | some o => o.injected && o.outstanding == 0 && o.err.isNone

/-- NFLUSH (R334). -/
def execNflush (w : XWord) (ctl : W32) (s : State) : Host.Outcome State Fault Refusal :=
  issueOrdered operandCheck (.nflush w ctl) (fun c h x s =>
    match x.lanes with
    | [] => advance c 2 1 s
    | l :: _ =>
      let t := srcN s c h l 0
      let tag := bitsOf ctl.toNat 5 0
      if bitOf t 31 && (bitsOf ctl.toNat 9 6 != 10) then reasonAt c 0x28 s
      else if (if bitOf t 31 then bitsOf t 30 24 else bitsOf t 30 17) ≠ 0 then reasonAt c 0x23 s
      else if tagFull s c.run.gid tag then stall s
      else
        let covers := (s.works.filter (fun e => e.2.gid == c.run.gid && e.2.warp == c.run.warp && e.2.slice == c.run.slice
          && e.2.wr.puts && e.2.wr.target == t && !placedWholly s e.1)).map (·.1)
        if covers.isEmpty then advance c 2 1 s
        else
          let (op, u) := freshId s
          let u := { u with flushes := mput u.flushes op ⟨c.run.gid, c.run.warp, c.run.slice, tag, covers, false⟩ }
          advance c 2 1 (tagUp c.run.gid tag u)) s

/-- NFLUSH_COMPLETE (R334): everything that the NFLUSH covers is placed and visible, and its tag count falls. -/
def execNflushComplete (op : Nat) (s : State) : Host.Outcome State Fault Refusal :=
  match mget? s.flushes op with
  | none => .next s
  | some f =>
    if !f.stuck && f.covers.all (placedWholly s) then
      .next (reapGroup f.gid (tagDown f.gid f.tag { s with flushes := mdel s.flushes op }))
    else .next s

/-! ### Sending (R331, R369, R429 to R432) -/

/-- Change a work request in flight. -/
def updWork (op : Nat) (f : WorkOp → WorkOp) (s : State) : State :=
  match mget? s.works op with
  | some o => { s with works := mput s.works op (f o) }
  | none => s

/-- A work request ends with a cause (R335): the detail holds COOKIE, but for a dead core. -/
def failWork (op : Nat) (cause : Cause) (addr detail : Nat) (s : State) : State :=
  updWork op (fun o => { o with err := some (cause, addr, if cause = .coreLost then detail else o.wr.cookie) }) s

/-- The agent for which a work request acts. -/
def workAgent (s : State) (o : WorkOp) : Agent :=
  match mget? s.groups o.gid with
  | some g => ⟨o.core, spaceOf s g, g.grid, false, o.region⟩
  | none => ⟨o.core, deviceSpace s o.m o.root, 0, false, o.region⟩

/-- Put one packet of a work request on the fabric. -/
def putPacket (o : WorkOp) (route : Route) (b : Body) (s : State) : State :=
  let (i, s) := freshId s
  let p : Packet :=
    { src := o.ret, dst := o.wr.target, ordered := o.wr.ordered, stamp := o.stamp, seq := o.seq, pos := o.ret, moved := false
      route := route, crossed := false, placed := 0, body := b }
  { s with wire := mput s.wire i p }

/-- The next order key of a reticle as an ordered source (R369): a stamp, at least a given one, and a sequence number. -/
def takeKey (ret atLeast : Nat) (s : State) : Nat × Nat × State :=
  let r := s.ret ret
  let stamp := Nat.max atLeast (Nat.max (wtime s ret) (r.lastStamp + 1))
  let seq := (r.lastSeq + 1) % 2 ^ 32
  (stamp, seq, updRet ret (fun x => { x with lastStamp := stamp, lastSeq := seq }) s)

/-- Stamp an ordered operation as its first packet is injected (R369). -/
def stampWork (op : Nat) (s : State) : State :=
  match mget? s.works op with
  | none => s
  | some o =>
    if !o.wr.ordered || !o.wr.puts || o.wr.toPeer then s
    else
      let (stamp, seq, t) := takeKey o.ret 0 s
      updWork op (fun x => { x with stamp := stamp, seq := seq }) t

/-- An Ethernet link of a reticle is in use (R437, R442). -/
def ethernetUp (r : RetSt) : Bool :=
  (upFrom 0 4).any (fun p => r.planeSt p == 0 && (upFrom 0 8).any (fun f => portKind (r.fibre p f) == 2 && !(r.wavesTo p f).isEmpty))

/-- The transport state toward a peer. -/
def uePeer (s : State) (ret p : Nat) : UePeer := mget (s.ret ret).ue p ⟨0, [], 0, none⟩

/-- The operation that a packet belongs to. -/
def Packet.op? (p : Packet) : Option Nat :=
  match p.body with
  | .put op _ _ _ => some op
  | .atomic op _ _ => some op
  | _ => none

/-- Take every packet of an operation off the fabric and out of a receiver's buffer. -/
def dropPackets (op dst : Nat) (s : State) : State :=
  let mine := (s.wire.filter (fun e => e.2.op? == some op)).map (·.1)
  let t := updRet dst (fun r => { r with ordBuf := r.ordBuf.filter (fun i => !mine.contains i) }) s
  { t with wire := t.wire.filter (fun e => e.2.op? != some op) }

/-- A cause found while the endpoint sends a work request (R335). Packets of an ordered one that have left are not applied: it is applied wholly
or not at all (R331). -/
def failSend (op : Nat) (o : WorkOp) (cause : Cause) (addr detail : Nat) (s : State) : State :=
  let t := failWork op cause addr detail s
  if o.wr.ordered && !o.wr.toPeer then updWork op (fun x => { x with outstanding := 0 }) (dropPackets op o.wr.target t) else t

/-- A route chosen before still stands: it is available, and its own plane has a circuit (R430, R432). -/
def routeStands (s : State) (src dst : Nat) (r : Route) : Bool :=
  match r with
  | .mesh => (meshRoute s src dst).isSome
  | .own p => (s.ret src).planeSt p == 0 && (circuitTo s src p dst).isSome
  | .neighbour _ _ => (neighbourRoute s src dst).isSome

/-- The route of the packet that a work request sends next (R331, R432): SPRAY chooses for each packet; else the first packet's holds, until it
fails. -/
def packetRoute (s : State) (o : WorkOp) : Option Route :=
  if o.wr.target = o.ret then some .mesh
  else
    let fresh := chooseRoute s o.ret o.wr.target o.wr.route
    if bitOf o.wr.flags 1 then fresh
    else
      match o.route with
      | some r => if routeStands s o.ret o.wr.target r then some r else fresh
      | none => fresh

/-- Where the packet that begins at an offset of a work request ends (R331): 256 bytes, or 4,096 for a peer, at most, and no packet crosses a page
of RADDR at a fabric target. -/
def WorkReq.packetEnd (w : WorkReq) (off : Nat) : Nat :=
  if w.toPeer then Nat.min w.length (off + 4096)
  else Nat.min w.length (off + Nat.min 256 (65536 - (w.raddr + off) % 65536))

/-- The place of a byte of a work request in some space: its physical address and key id, or where no place is (R333): a device register, or for
RADDR a page of another reticle. -/
def placeOf (s : State) (a : Agent) (acc : Access) (ret : Option Nat) (va : Nat) : Option (Nat × Nat) :=
  match translateNow s a.sp acc va with
  | .ok pa e => if pteType e = 3 ∨ ret.any (fun r => decide (retOf pa ≠ r)) = true then none else some (pa, pteKey e)
  | _ => none

/-- Read the next aligned 16-byte unit of a range at an address (R224): a cause found there, or its bytes. -/
def readUnit (s : State) (ret force pa key n : Nat) (va : Nat) : (Option (Cause × Nat × Nat)) × List Byte :=
  match targetCause s ret force pa n with
  | some c => (some (c, va, targetDetail c pa), [])
  | none =>
    if isDram pa && (keyMat s (retOf pa) key).isNone then (some (.permission, va, 0), [])
    else
      match poisonedIn s pa n with
      | some u => (some (.uncorrectable, u, 0), [])
      | none => (none, readKey s key pa n)

/-- A packet of a work request leaves with some bytes (R331): to the fabric, or into the retransmit store toward a peer (R443). -/
def leavePacket (op : Nat) (o : WorkOp) (bs : List Byte) (s : State) : State :=
  let w := o.wr
  let on := fun (s : State) (f : WorkOp → WorkOp) => updWork op (fun x => f { x with
    moved := x.moved + bs.length, taken := [], outstanding := x.outstanding + 1 }) s
  if w.toPeer then
    let p := uePeer s o.ret w.peer
    let t := updRet o.ret (fun r => { r with ue := mput r.ue w.peer { p with
      next := p.next + 1, out := mput p.out p.next ⟨op, o.queue, 1, s.ticks, bs⟩ } }) s
    on t id
  else
    match placeOf s (workAgent s o) .write (some w.target) (w.raddr + o.moved), packetRoute s o with
    | none, _ => failSend op o .remoteError (w.raddr + o.moved) 0 s
    | _, none => failSend op o .remoteError w.raddr 0 s
    | some (pa, key), some route =>
      let t := if o.moved = 0 then stampWork op s else s
      let t := on t (fun x => { x with route := some route })
      match mget? t.works op with
      | some x => putPacket x route (if w.opc = 3 then .atomic op pa key else .put op pa key bs) t
      | none => t

/-- The endpoint reads the next unit of a WRITE's source, and the packet that it fills leaves (R224, R331). -/
def sendUnit (op : Nat) (o : WorkOp) (s : State) : State :=
  let w := o.wr
  let at_ := o.moved + o.taken.length
  let n := Nat.min (16 - (w.laddr + at_) % 16) (w.packetEnd o.moved - at_)
  match placeOf s (workAgent s o) .read none (w.laddr + at_) with
  | none => failSend op o .remoteError (w.laddr + at_) 0 s
  | some (pa, key) =>
    match readUnit s o.ret 0 pa key n (w.laddr + at_) with
    | (some (c, x, d), _) => failSend op o c x d s
    | (none, bs) =>
      let all := o.taken ++ bs
      if o.moved + all.length = w.packetEnd o.moved then leavePacket op o all s else updWork op (fun x => { x with taken := all }) s

/-- Send the rest of a WRITE: every unit still to read, in order. -/
def sendUnits (op : Nat) : Nat → State → State
  | 0, s => s
  | fuel + 1, s =>
    match mget? s.works op with
    | none => s
    | some o => if o.err.isSome || decide (o.moved ≥ o.wr.length) then s else sendUnits op fuel (sendUnit op o s)

/-- Send a work request as a whole (R331). A READ of a fabric target, and a READ or an ATOMIC to a peer, has no source. -/
def sendRequest (op : Nat) (o : WorkOp) (s : State) : State :=
  let w := o.wr
  let done := fun (s : State) => updWork op (fun x => { x with injected := true }) s
  if w.opc < 2 then done (sendUnits op (w.length + 1) s)
  else if w.toPeer then done (updWork op (fun x => { x with moved := 0 }) (leavePacket op o [] s))
  else if w.opc = 3 then
    (if w.laddr % 8 ≠ 0 ∨ w.raddr % 8 ≠ 0 then failWork op .remoteError w.raddr 0 s else done (leavePacket op o [] s))
  else if (packetRoute s o).isNone then failWork op .remoteError w.raddr 0 s
  else done s

/-- The work request at the head of a queue of a reticle that the endpoint may take now: the earlier stores of its slice-warp are acknowledged
(R238), and an Ethernet link is in use when its target is a peer. One withdrawn leaves the queue. -/
def queueReady (s : State) (ret q : Nat) : Bool :=
  match mget (s.ret ret).wrq q [] with
  | [] => false
  | op :: _ => match mget? s.works op with
    | none => true
    | some o => writesDone s o.after && (!o.wr.toPeer || ethernetUp (s.ret ret))

/-- The key after a turn, the lowest after it in a circle of n (R308, R311). -/
def nextInTurn (n turn : Nat) (ks : List Nat) : Option Nat := argMin (fun k => (k + n - turn % n - 1) % n) ks

/-- The queue of a reticle from which the endpoint takes next: its queues in turn (R311). -/
def wrqNext (s : State) (ret : Nat) : Option Nat :=
  nextInTurn 1024 (s.ret ret).wrqTurn (((s.ret ret).wrq.map (·.1)).filter (queueReady s ret))

/-- The endpoint sends from a queue now: it is the queue's turn, or it is sending its first work request already. -/
def sendsFrom (s : State) (ret q : Nat) : Bool :=
  queueReady s ret q && (wrqNext s ret == some q
    || (match (mget (s.ret ret).wrq q []).head?.bind (mget? s.works) with
      | some o => decide (o.moved > 0) || !o.taken.isEmpty
      | none => false))

/-- WORK_REQUEST_SEND (R311, R331): the oldest work request of a queue leaves it, and the packets that have not left yet enter the fabric. -/
def execWorkRequestSend (ret queue : Nat) (s : State) : Host.Outcome State Fault Refusal :=
  match mget (s.ret ret).wrq queue [] with
  | [] => .next s
  | op :: rest =>
    if !sendsFrom s ret queue then .next s
    else
      let t := updRet ret (fun r => { r with
        wrqTurn := queue, wrq := if rest.isEmpty then mdel r.wrq queue else mput r.wrq queue rest }) s
      match mget? s.works op with
      | none => .next t
      | some o => .next (if o.err.isSome then t else sendRequest op o t)

/-- A work request whose work is done leaves: it has reached completion, and nothing of it is outstanding. -/
def settleWork (op : Nat) (s : State) : State :=
  match mget? s.works op with
  | some o => if o.sent && o.outstanding == 0 && o.err.isNone then { s with works := mdel s.works op } else s
  | none => s

/-- SEND_COMPLETION (R332): the last packet of a WRITE has left the endpoint, and its tag count falls. -/
def execSendCompletion (op : Nat) (s : State) : Host.Outcome State Fault Refusal :=
  match mget? s.works op with
  | none => .next s
  | some o =>
    if o.wr.opc ≥ 2 ∨ o.injected = false ∨ o.sent = true ∨ o.err.isSome = true then .next s
    else
      let t := tagDown o.gid o.wr.tag (updWork op (fun x => { x with sent := true }) s)
      .next (reapGroup o.gid (settleWork op t))

/-! ### At the target (R331, R387, R388) -/

/-- A change of a completion counter of a reticle (R388). -/
def countImm (ret i : Nat) (imm : Nat) (s : State) : State :=
  let v := mget (s.ret ret).ccnt i 0
  let new : W64 := ((v.extractLsb' 32 32 + BitVec.ofNat 32 imm) ++ (v.extractLsb' 0 32 + 1))
  deviceChanged (paOf ret (deviceBase + 0x100000 + 8 * i)) s (updRet ret (fun r => { r with ccnt := mput r.ccnt i new }) s)

/-- The physical address of the landing counter of a put (R331): a member of the window's fold, or of named fold 0 of the target. -/
def landingPa (s : State) (target landing rpa : Nat) : Nat :=
  let fold := if isSpad rpa then coreFold (coreOfSpad rpa) else mget (s.ret target).foldMap 0 0
  spadPa (coreKey target fold (landing / 0x100000)) (landing % 0x100000)

/-- The counting step of a landing counter (R387): n off REMAIN, one onto PKTS. -/
def countLanding (pa n : Nat) (s : State) : State :=
  let remain := BitVec.ofNat 64 (ofBytesLE (readRaw s pa 8)) - BitVec.ofNat 64 n
  let pkts := BitVec.ofNat 32 (ofBytesLE (readRaw s (pa + 8) 4)) + 1
  writeKey s 0 pa (bytesLE 8 remain.toNat ++ bytesLE 4 pkts.toNat)

/-- The cause found at the target by a packet's bytes, with address and detail (R335). -/
def packetCause (s : State) (src force pa key n : Nat) (reads : Bool) (va : Nat) : Option (Cause × Nat × Nat) :=
  match targetCause s src force pa n with
  | some c => some (c, va, targetDetail c pa)
  | none =>
    if isDevice pa then some (.remoteError, va, 0)
    else if isDram pa && (keyMat s (retOf pa) key).isNone then some (.permission, va, 0)
    else (if reads then poisonedIn s pa n else poisonPartial s pa n).map (fun u => (.uncorrectable, u, 0))

/-- One packet of a work request less: when the last one of those that it sends is placed, a WRITE_IMM advances its counter (R388). -/
def packetDone (op : Nat) (s : State) : State :=
  match mget? s.works op with
  | none => s
  | some o =>
    let s := updWork op (fun x => { x with outstanding := x.outstanding - 1 }) s
    let s := if o.outstanding = 1 ∧ o.injected = true ∧ o.wr.opc = 1 ∧ o.wr.toPeer = false ∧ o.err.isNone = true then countImm o.wr.target o.wr.cctr o.wr.imm s else s
    reapGroup o.gid (settleWork op s)

/-- The virtual address at the target of a packet's bytes, as its record names it: RADDR of the work request. -/
def workRaddr (s : State) (op : Nat) : Nat := match mget? s.works op with | some o => o.wr.raddr | none => 0
/-- ROUTE of a packet's work request. -/
def workRoute (s : State) (op : Nat) : Nat := match mget? s.works op with | some o => o.wr.route | none => 0

/-- Count a placed packet on its landing counter, if its work request names one; a dead member ends the work request (R331). -/
def landPacket (op pa n : Nat) (s : State) : State :=
  match mget? s.works op with
  | none => s
  | some o =>
    if !o.wr.land || o.wr.opc ≥ 2 then s
    else
      let cpa := landingPa s o.wr.target o.wr.landing pa
      let k := coreOfSpad cpa
      if (s.core k).dead then failWork op .coreLost o.wr.raddr (coreCode k) s
      else if (poisonedIn s cpa 16).isSome then failWork op .uncorrectable (cpa / 8 * 8) 0 s
      else countLanding cpa n s

/-- Write the next unit of some bytes at an address (R224): up to the end of an aligned 16-byte unit, or of a poisoned sector, which only a write
that covers it wholly clears (R221). Answers the bytes written, or a cause found there. -/
def writeUnit (src force pa key : Nat) (bs : List Byte) (va : Nat) (s : State) : State × Nat × Option (Cause × Nat × Nat) :=
  let u := unitBase pa
  let span := if smem s.poison u then Nat.max 16 (unitSize pa) else 16
  let n := Nat.min bs.length (span - pa % span)
  match packetCause s src force pa key n false va with
  | some f => (s, 0, some f)
  | none => (writeKey s key pa (bs.take n), n, none)

/-- Place the bytes of a put that stand from an offset on, unit by unit: the cause found, or none. -/
def writeUnits (src force key va : Nat) : Nat → Nat → List Byte → State → State × Option (Cause × Nat × Nat)
  | 0, _, _, s => (s, none)
  | fuel + 1, pa, bs, s =>
    if bs.isEmpty then (s, none)
    else
      match writeUnit src force pa key bs va s with
      | (t, _, some f) => (t, some f)
      | (t, n, none) => writeUnits src force key va fuel (pa + n) (bs.drop n) t

/-- A packet's effect at its target: its bytes not yet placed are placed, or an atomic is performed (R235, R258, R331). -/
def performPacket (p : Packet) (s : State) : State :=
  match p.body with
  | .put op pa key bs =>
    (match writeUnits p.src (workRoute s op) key (workRaddr s op) bs.length (pa + p.placed) (bs.drop p.placed) s with
     | (t, some (c, a, d)) => packetDone op (failWork op c a d t)
     | (t, none) => packetDone op (landPacket op pa bs.length t))
  | .atomic op pa key =>
    (match mget? s.works op with
     | none => s
     | some o =>
       match packetCause s p.src o.wr.route pa key 8 true o.wr.raddr with
       | some (c, a, d) => packetDone op (failWork op c a d s)
       | none =>
         let old := readNat s key pa 8
         let new := applyAop o.wr.aop true (BitVec.ofNat 64 old) (BitVec.ofNat 64 o.wr.operand) (BitVec.ofNat 64 o.wr.compare)
         packetDone op (updWork op (fun x => { x with old := some (BitVec.ofNat 64 old) }) (writeKey s key pa (bytesLE 8 new.toNat))))
  | _ => s

/-- A packet on the fabric is at its target's door: a put or an atomic of the unordered class that some route serves now (R428). -/
def atTarget (s : State) (p : Packet) : Bool :=
  p.op?.isSome && !p.ordered && (!inService s p.dst || (pathOk s p.src p.dst 0 && (routeHeld s p.src p.dst p.route).isNone))

/-- PUT_PACKET_PLACED (R240, R387): an unordered packet reaches its target and takes effect. -/
def execPutPacketPlaced (pkt : Nat) (s : State) : Host.Outcome State Fault Refusal :=
  match mget? s.wire pkt with
  | none => .next s
  | some p => if atTarget s p then .next (performPacket p { s with wire := mdel s.wire pkt }) else .next s

/-- Place the next unit of a packet's put that may take effect now, and is not its last (R224). -/
def placeUnit (pkt : Nat) (p : Packet) (s : State) : State :=
  match p.body with
  | .put op pa key bs =>
    (match writeUnit p.src (workRoute s op) (pa + p.placed) key (bs.drop p.placed) (workRaddr s op) s with
     | (_, _, some _) => s
     | (t, n, none) => if p.placed + n < bs.length then { t with wire := mput t.wire pkt { p with placed := p.placed + n } } else s)
  | _ => s

/-! ### Landing and errors (R332, R335) -/

/-- Land the next unit of some bytes at a local address (R224): the bytes landed, or a cause found there. -/
def landUnit (a : Agent) (va : Nat) (bs : List Byte) (s : State) : State × Nat × Option (Cause × Nat × Nat) :=
  match translateNow s a.sp .write va with
  | .ok pa e => writeUnit (coreRet a.core) 0 pa (pteKey e) (bs.take (65536 - va % 65536)) va s
  | _ => (s, 0, some (.remoteError, va, 0))

/-- Land some bytes at a local address, unit by unit. -/
def landLocal (a : Agent) : Nat → Nat → List Byte → State → State × Option (Cause × Nat × Nat)
  | 0, _, _, s => (s, none)
  | fuel + 1, va, bs, s =>
    if bs.isEmpty then (s, none)
    else
      match landUnit a va bs s with
      | (t, _, some f) => (t, some f)
      | (t, n, none) => landLocal a fuel (va + n) (bs.drop n) t

/-- The end of a READ or an ATOMIC: its tag count falls, or the cause found as its bytes landed stands. -/
def finishLanding (op : Nat) (o : WorkOp) (r : State × Option (Cause × Nat × Nat)) : State :=
  match r.2 with
  | some (c, a, d) => failWork op c a d r.1
  | none => reapGroup o.gid (tagDown o.gid o.wr.tag { r.1 with works := mdel r.1.works op })

/-- Bytes that a peer returns to a request: free values (log 4). -/
def peerBytes (s : State) (at_ n : Nat) : List Byte := (upFrom at_ n).map (Config.peerByte s.free)

/-- A READ reads its next unit at the remote home (R224), or the bytes of its peer's answer. -/
def fetchUnit (op : Nat) (o : WorkOp) (s : State) : State :=
  let w := o.wr
  let at_ := o.moved + o.taken.length
  if w.toPeer then
    let n := Nat.min (16 - at_ % 16) (w.length - at_)
    updWork op (fun x => { x with taken := x.taken ++ peerBytes s at_ n }) { s with free := s.free + 1 }
  else
    let n := Nat.min (16 - (w.raddr + at_) % 16) (w.length - at_)
    match placeOf s (workAgent s o) .read (some w.target) (w.raddr + at_) with
    | none => failWork op .remoteError (w.raddr + at_) 0 s
    | some (pa, key) =>
      match readUnit s o.ret w.route pa key n (w.raddr + at_) with
      | (some (c, x, d), _) => failWork op c x d s
      | (none, bs) => updWork op (fun x => { x with taken := x.taken ++ bs }) s

/-- A READ reads everything that it has not read yet. -/
def fetchUnits (op : Nat) : Nat → State → State
  | 0, s => s
  | fuel + 1, s =>
    match mget? s.works op with
    | none => s
    | some o => if o.err.isSome || decide (o.moved + o.taken.length ≥ o.wr.length) then s else fetchUnits op fuel (fetchUnit op o s)

/-- A READ is under way: sent, answered when its target is a peer, its route open, and no error found. -/
def readGoes (s : State) (o : WorkOp) : Bool :=
  o.wr.opc == 2 && o.injected && o.err.isNone && (if o.wr.toPeer then o.outstanding == 0 else !pathHeld s o.ret o.wr.target o.wr.route)

/-- READ_LANDED (R332): every byte of a READ has landed at LADDR, and its tag count falls. -/
def execReadLanded (op : Nat) (s : State) : Host.Outcome State Fault Refusal :=
  match mget? s.works op with
  | none => .next s
  | some o =>
    if !readGoes s o then .next s
    else
      let t := fetchUnits op (o.wr.length + 1) s
      match mget? t.works op with
      | none => .next t
      | some x =>
        if x.err.isSome then .next t
        else .next (finishLanding op x (landLocal (workAgent s x) (x.taken.length + 1) (x.wr.laddr + x.moved) x.taken t))

/-- Land the next unit of what a READ has read, but for its last. -/
def landNext (op : Nat) (o : WorkOp) (s : State) : State :=
  match landUnit (workAgent s o) (o.wr.laddr + o.moved) o.taken s with
  | (_, _, some _) => s
  | (t, n, none) =>
    if o.moved + n < o.wr.length then updWork op (fun x => { x with moved := x.moved + n, taken := x.taken.drop n }) t else s

/-- The old value of an ATOMIC lands at LADDR (R332). -/
def landOld (op : Nat) (o : WorkOp) (s : State) : State :=
  let a := workAgent s o
  let old : Option W64 :=
    if o.wr.toPeer then
      (if o.wr.opc = 3 ∧ o.injected = true ∧ o.outstanding = 0 then some (BitVec.ofNat 64 (ofBytesLE (peerBytes s 0 8))) else none)
    else o.old
  match old, o.err with
  | some v, none =>
    if o.orphan then { s with works := mdel s.works op }
    else finishLanding op o (landLocal a 9 o.wr.laddr (bytesLE 8 v.toNat) { s with free := s.free + 1 })
  | _, _ => s

/-- ATOMIC_LANDING (R258, R332): the result of an atomic in flight, or the old value of an ATOMIC work request. -/
def execAtomicLanding (op : Nat) (s : State) : Host.Outcome State Fault Refusal :=
  match mget? s.flight op with
  | some f => .next (landAtomic op f s)
  | none =>
    match mget? s.works op with
    | some o => .next (landOld op o s)
    | none => .next s

/-- The error of a work request returns: its group is halted, and what an NFLUSH covers of it is never placed (R334, R335). -/
def returnWork (op : Nat) (o : WorkOp) (s : State) : State :=
  match o.err with
  | none => s
  | some (c, a, d) =>
    reapGroup o.gid (takeFault ⟨c, o.gid, o.warp, o.slice.code, 0xFF, false, o.pc.toNat, none, a, d⟩
      { s with
        works := mdel s.works op
        flushes := s.flushes.map (fun e => (e.1, if e.2.covers.contains op then { e.2 with stuck := true } else e.2)) })

/-- ERROR_RETURN (R252, R335): the error of a request or of a work request returns, and its group is halted. -/
def execErrorReturn (op : Nat) (s : State) : Host.Outcome State Fault Refusal :=
  match mget? s.flight op with
  | some f => .next (returnError op f s)
  | none =>
    match mget? s.works op with
    | none => .next s
    | some o => .next (returnWork op o s)

/-! ### The endpoint's unit moves (R224, R241) -/

/-- The endpoint reads one unit for a work request: of a WRITE's source, or of a READ at its remote home. -/
def moveSource (op : Nat) (s : State) : State :=
  match mget? s.works op with
  | none => s
  | some o =>
    if o.wr.opc < 2 then
      (if (mget (s.ret o.ret).wrq o.queue []).head? = some op ∧ sendsFrom s o.ret o.queue = true ∧ o.err.isNone = true ∧ o.moved < o.wr.length
       then sendUnit op o s else s)
    else if readGoes s o && decide (o.moved + o.taken.length < o.wr.length) then fetchUnit op o s
    else s

/-- The endpoint lands one unit of what a READ has read. -/
def moveLand (op : Nat) (s : State) : State :=
  match mget? s.works op with
  | none => s
  | some o => if readGoes s o && !o.taken.isEmpty then landNext op o s else s

end Sys2Proof.Machine
end

