-- ==== Sys2Proof/Machine/Launch.lean ====
section
/-! DEFINITION. LGRID, ETRIG and DIST: launching, triggering and distributing from a kernel (spec/14 R337 to R339). -/

namespace Sys2Proof.Machine

open Sys2Proof

/-- The 64 bytes of a LAUNCH command with FLAGS 0 and CPL 0 (R307, R337). -/
def launchBytes (record : Nat) : List Byte := bytesLE 8 1 ++ bytesLE 8 0 ++ bytesLE 8 record ++ bytesLE 40 0

/-- The address of command i of a queue (R306). -/
def CmdQueue.slotVa (q : CmdQueue) (i : Nat) : Nat := q.base + 64 * (i % 2 ^ q.log2n)

/-- What LGRID's queue operand meets at once (R337): a status, or the queue to post to. -/
def lgridQueue (s : State) (m root b : Nat) : Nat ⊕ CmdQueue :=
  if b / 64 ≠ 0 then .inl 0x11
  else
    match mget? (s.mod m).queues (cqKey root b) with
    | none => .inl 0x11
    | some q => if q.state ≠ 0 then .inl 0x12 else if q.held ≥ 2 ^ q.log2n then .inl 0x16 else .inr q

/-- An LGRID result: the status in the low word, ready at once or when the command processor has answered. -/
def lgridResult (c : Ctx) (h : Shape) (l : Nat) (ready : Bool) (status : Nat) (s : State) : State :=
  launchLong c h 2 ready [(l, status)] 0 s

/-- LGRID (R337): a release at wafer scope, the record's alignment, and the post of a LAUNCH. -/
def execLgrid (w : XWord) (ctl : W32) (s : State) : Host.Outcome State Fault Refusal :=
  issueOrdered operandCheck (.lgrid w ctl) (fun c h x s =>
    match x.lanes with
    | [] => advance c 2 1 s
    | l :: _ =>
      let a := srcN s c h l 0
      let b := srcN s c h l 1 % 2 ^ 32
      if !releaseDone s c 7 then stall s
      else if a % 128 ≠ 0 then faultAt c .alignment a 0 l s
      else
        match lgridQueue s c.g.m c.g.root b with
        | .inl st => advance c 2 1 (lgridResult c h l true st s)
        | .inr q =>
          let va := q.slotVa q.pidx.toNat
          match (readVa s c.g.m c.g.root va 64).bind (fun _ => writeVa s c.g.m c.g.root va (launchBytes a)) with
          | none => advance c 2 1 (lgridResult c h l true 0x12 (stopQueue c.g.m (cqKey c.g.root b) 1 s))
          | some t =>
            let op := t.nextId
            let t := lgridResult c h l false 0 t
            advance c 2 1 (ringDoorbell c.g.m q.doorbell (q.pidx + 1) (.lgrid c.g.region op) t)) s

/-- The command processor answers an LGRID (R337): its status and the handle, or 0. -/
def answerLgrid (op status handle : Nat) (s : State) : State :=
  match mget? s.longs op with
  | none => s
  | some g =>
    let v := BitVec.ofNat 128 (status + handle * 2 ^ 32)
    { s with longs := mput s.longs op { g with ready := true, vals := g.vals.map (fun p => (p.1, p.2.1, v)) } }

/-- ETRIG (R45, R338): a release at wafer scope; the group's first one counts it as triggered. -/
def execEtrig (w : XWord) (ctl : W32) (s : State) : Host.Outcome State Fault Refusal :=
  issueOrdered operandCheck (.etrig w ctl) (fun c _ x s =>
    match x.lanes with
    | [] => advance c 2 1 s
    | _ =>
      if !releaseDone s c 7 then stall s
      else
        advance c 2 1 (updGrid c.g.m c.g.grid (fun g => { g with triggered := sadd g.triggered c.g.index })
          (updGroup c.run.gid (fun g => { g with triggered := true }) s))) s

/-- DIST (R339): its count goes to the counter of its grid. -/
def execDist (w : XWord) (ctl : W32) (s : State) : Host.Outcome State Fault Refusal :=
  issueOrdered operandCheck (.dist w ctl) (fun c h x s =>
    match x.lanes with
    | [] => advance c 2 1 s
    | l :: _ => advance c 2 1 (launchLong c h 3 false [(l, srcN s c h l 0)] 0 s)) s

/-- A DIST is applied at the counter of its grid, as one step (R339): the result is the counter before. -/
def applyDist (op : Nat) (g : Long) (s : State) : State :=
  match mget? s.groups g.gid with
  | none => s
  | some x =>
    match mget? (s.mod x.m).grids x.grid with
    | none => s
    | some d =>
      let n := match g.vals with | v :: _ => v.2.2.toNat | [] => 0
      let g' := { g with ready := true, vals := g.vals.map (fun p => (p.1, p.2.1, d.dist.setWidth 128)) }
      updGrid x.m x.grid (fun y => { y with dist := y.dist + BitVec.ofNat 64 n }) { s with longs := mput s.longs op g' }

/-- DIST_RESULT (R339): a DIST not yet applied is applied at its counter; an applied one lands. -/
def execDistResult (op : Nat) (s : State) : Host.Outcome State Fault Refusal :=
  match mget? s.longs op with
  | none => .next s
  | some g => if g.kind = 3 ∧ g.ready = false then .next (applyDist op g s) else landKind 3 op s

end Sys2Proof.Machine
end

