-- ==== Sys2Proof/Machine/Sys.lean ====
section
/-! DEFINITION. The SYS instructions: TRAP, BKPT, YIELD, TIME and SLEEP (spec/14 R340 to R343), with the safe point tables that a YIELD
consults (15 R362, R363). -/

namespace Sys2Proof.Machine

open Sys2Proof

/-- TRAP (R340): the cause TRAP at itself, with the elected thread's A. No lane, no effect. -/
def execTrap (w : SWord) (s : State) : Host.Outcome State Fault Refusal :=
  issue (.trap w) (fun c h x s =>
    match x.lanes with
    | [] => advance c 1 1 s
    | l :: _ => faultAt c .trap 0 (srcN s c h l 0 % 2 ^ 32) 0xFF s) s

/-- BKPT (R340): the cause BREAKPOINT at itself. -/
def execBkpt (w : SWord) (s : State) : Host.Outcome State Fault Refusal :=
  issue (.bkpt w) (fun c _ x s =>
    match x.lanes with
    | [] => advance c 1 1 s
    | _ => faultAt c .breakpoint 0 0 0xFF s) s

/-- TIME (R342): fabric time in ticks. -/
def execTime (w : SWord) (s : State) : Host.Outcome State Fault Refusal :=
  compute (.time w) (fun s c _ _ => wtime s c.ret) s

/-- SLEEP (R343): the slice-warp waits from its issue time on; with t = 0, or with the pre-emption request raised, it goes on at once. -/
def execSleep (w : SWord) (s : State) : Host.Outcome State Fault Refusal :=
  issue (.sleep w) (fun c h x s =>
    match x.lanes with
    | [] => advance c 1 1 s
    | l :: _ =>
      let t := srcN s c h l 0 % 2 ^ 32
      let u := advance c 1 1 (popReads c h x.pops s)
      if t = 0 ∨ c.g.preq = true then u else parkWait c (lanesOf c.run.lanes) (.sleep (wtime s c.ret + t)) u) s

/-! ### Safe points (R341, R362, R363) -/

/-- Bytes in the root region's space, each read through its own page: none when one cannot be read. -/
def sideBytes (s : State) (g : Group) : Nat → Nat → Option (List Byte)
  | _, 0 => some []
  | va, n + 1 => (readVa s g.m g.root va 1).bind (fun b => (sideBytes s g (va + 1) n).map (b ++ ·))

/-- A number in the root region's space, or none when it cannot be read. -/
def sideNat (s : State) (g : Group) (va : Int) (n : Nat) : Option Nat :=
  if va < 0 then none else (sideBytes s g va.toNat n).map ofBytesLE

/-- A pointer of the side table directory: a signed offset from CODE, absent when it is 0. -/
def sidePtr (s : State) (g : Group) (off : Nat) : Option Int :=
  match sideNat s g ((g.launch.code : Int) - 128 + off) 8 with
  | some p => if p = 0 then none else some ((g.launch.code : Int) + sextInt p 64)
  | none => none

/-- The binary search of the safe point table for an offset: its index. -/
def searchSafe (s : State) (g : Group) (tab : Int) (off : Nat) : Nat → Nat → Nat → Option Nat
  | 0, _, _ => none
  | k + 1, lo, hi =>
    if lo ≥ hi then none
    else
      let mid := (lo + hi) / 2
      match sideNat s g (tab + 4 * mid) 4 with
      | none => none
      | some v => if v = off then some mid else if v < off then searchSafe s g tab off k (mid + 1) hi else searchSafe s g tab off k lo mid

/-- The 40 bytes of the live mask record of a listed YIELD (R363): its words o0 to o15 and main registers 0 to 255. -/
structure LiveMask where
  omask : Nat
  mmask : Nat
deriving DecidableEq, Repr

/-- The record under which a YIELD at a word offset of CODE is listed, or none when it is not listed. -/
def liveMask (s : State) (g : Group) (off : Nat) : Option LiveMask :=
  match sideNat s g ((g.launch.code : Int) - 128) 2, sideNat s g ((g.launch.code : Int) - 124) 4, sidePtr s g 8, sidePtr s g 16 with
  | some 1, some n, some safe, some live =>
    (match searchSafe s g safe off 33 0 n with
     | none => none
     | some i =>
       let va := live + 40 * i
       match sideNat s g va 4, sideNat s g (va + 6) 2, sideNat s g (va + 8) 32 with
       | some o, some om, some mm => if o = off then some ⟨om, mm⟩ else none
       | _, _, _ => none)
  | _, _, _, _ => none

/-- YIELD (R341): no effect without a request or where it is not listed; else the slice-warp waits there for its save. -/
def execYield (w : SWord) (s : State) : Host.Outcome State Fault Refusal :=
  issue (.yield w) (fun c _ x s =>
    let t := advance c 1 1 s
    if x.lanes.isEmpty || !c.g.preq then t
    else
      match liveMask s c.g ((c.pc - BitVec.ofNat 64 c.g.launch.code).toNat / 4) with
      | none => t
      | some m => parkWait c (lanesOf c.run.lanes) (.yield m.omask m.mmask) t) s

/-- A thread of a slice-warp sleeps and its time has come, or the pre-emption request is raised (R343). -/
def sleepOver (s : State) (g : Group) : Wait → Bool
  | .sleep t => decide (wtime s (coreRet g.core) ≥ t) || g.preq
  | _ => false

/-- SLEEP_EXPIRY (R343). -/
def execSleepExpiry (gid warp : Nat) (slice : Slice) (s : State) : Host.Outcome State Fault Refusal :=
  match mget? s.groups gid with
  | none => .next s
  | some g => .next (wakeWhere gid warp slice (sleepOver s g) s)

end Sys2Proof.Machine
end

