-- ==== Sys2Proof/Machine/Sync.lean ====
section
/-! DEFINITION. The SYNC instructions: barrier slots, fabric barrier arrivals and CWAIT (spec/16 R380 to R389), and the ends of CWAIT, WAITA
and CPART waits (11 R262, R263, R266). -/

namespace Sys2Proof.Machine

open Sys2Proof

/-! ### Barrier slots (R381, R382) -/

/-- BARRIER_LOST at a barrier instruction (R403): the generation, the logical slot and the tree. -/
def barrierLost (c : Ctx) (b : Nat) (x : Slot) (s : State) : State :=
  faultAt c .barrierLost 0 (x.gen.toNat + b * 2 ^ 32 + (if x.fabric then x.tree else 0xFF) * 2 ^ 40) 0xFF s

/-- Change a barrier slot of a group. -/
def putSlot (gid b : Nat) (x : Slot) (s : State) : State := updGroup gid (fun g => { g with slots := mput g.slots b x }) s

/-- Write the arrival records of some lanes (R379). -/
def recordArrivals (c : Ctx) (b : Nat) (gen : W32) (lanes : List Nat) (s : State) : State :=
  lanes.foldl (fun t l => updTh (c.th l) (fun th => { th with arr := mput th.arr b gen }) t) s

/-- The arrival of BAR and BARA (R381): floating-point exceptions are delivered before BAR arrives (R185), then the checks in their order, then
every lane that executes arrives. -/
def arrive (i : Instr) (w : SWord) (waits : Bool) (s : State) : Host.Outcome State Fault Refusal :=
  issueOrdered operandCheck i (fun c h x s =>
    match x.lanes with
    | [] => advance c 1 1 s
    | l :: _ =>
      let b := w.d.toNat
      let gid := c.run.gid
      let y := slotOf c.g b
      let kind := c.run.slice.code
      let lanes := execLanes s c h.gsel h.gn
      let n := srcN s c h l 0 % 2 ^ 32
      let act := fun (s : State) =>
        if y.fabric then reasonAt c 0x2C s
        else if y.lost then barrierLost c b y s
        else if !releaseDone s c 3 then stall s
        else if n ≥ 4096 then reasonAt c 0x28 s
        else
          let first := y.count == 0 && y.arrived == 0
          if !first && y.expect == 0 && kind != y.kind then reasonAt c 0x2C s
          else
            let y1 : Slot := if first then { y with expect := n, kind := kind } else y
            let y2 : Slot := { y1 with
              count := y1.count + lanes.length
              arrived := y1.arrived ||| BitVec.ofNat 32 (2 ^ (2 * c.run.warp + kind)) }
            let t := putSlot gid b y2 (recordArrivals c b y.gen lanes (popReads c h x.pops s))
            let t := advance c 1 1 t
            testSlot gid b (if waits then parkWait c lanes (.bar b) t else t)
      if waits then deliver c s act else act s) s

/-- BAR: the arrival, then each lane waits until its generation has passed. -/
def execBar (w : SWord) (s : State) : Host.Outcome State Fault Refusal := arrive (.bar w) w true s
/-- BARA: the arrival alone. -/
def execBara (w : SWord) (s : State) : Host.Outcome State Fault Refusal := arrive (.bara w) w false s

/-- BARW (R382): a lane that has arrived in the current generation waits; another one's record ends and it goes on, which is an acquire at
group scope when it had a record. -/
def execBarw (w : SWord) (s : State) : Host.Outcome State Fault Refusal :=
  issueOrdered operandCheck (.barw w) (fun c _ x s =>
    let b := w.d.toNat
    let y := slotOf c.g b
    if x.lanes.isEmpty then advance c 1 1 s
    else if y.lost then barrierLost c b y s
    else
      let held := x.lanes.filter (fun l => mget? (s.thread (c.th l)).arr b == some y.gen)
      let past := x.lanes.filter (fun l => !held.contains l)
      let t := past.foldl (fun t l => updTh (c.th l) (fun th => { th with arr := mdel th.arr b }) t) s
      let t := if past.any (fun l => (mget? (s.thread (c.th l)).arr b).isSome) then acquireSws [c.sw] t else t
      parkWait c held (.barw b) (advance c 1 1 t)) s

/-- A tree entry of a router (R358). -/
def treeOf (s : State) (ret tree : Nat) : Option Tree := (mget? (s.ret ret).trees tree).filter (fun t => t.scope != 0)

/-- Put a packet on the fabric for a router that an event takes it from. -/
def sendPacket (src dst : Nat) (ordered : Bool) (stamp seq : Nat) (body : Body) (s : State) : State :=
  let (i, s) := freshId s
  let p : Packet :=
    { src := src, dst := dst, ordered := ordered, stamp := stamp, seq := seq, pos := src, moved := false, route := .mesh, crossed := false, placed := 0
      body := body }
  { s with wire := mput s.wire i p }

/-- FBAR (R384): its checks in order, a release at the tree's SCOPE, and one arrival to the core's router. -/
def execFbar (w : SWord) (s : State) : Host.Outcome State Fault Refusal :=
  issueOrdered operandCheck (.fbar w) (fun c h x s =>
    match x.lanes with
    | [] => advance c 1 1 s
    | l :: _ =>
      let b := w.d.toNat
      let a := srcN s c h l 0 % 2 ^ 32
      let y := slotOf c.g b
      let gid := c.run.gid
      if a ≥ 256 then reasonAt c 0x28 s
      else if y.lost then barrierLost c b y s
      else if !y.fabric && y.count != 0 then reasonAt c 0x2C s
      else if y.fabric && y.tree != a then reasonAt c 0x2C s
      else
        match treeOf s c.ret a with
        | none => faultAt c .permission 0 0 l s
        | some t =>
          if t.rootreg ≠ c.g.root then faultAt c .permission 0 0 l s
          else if t.lost then barrierLost c b { y with fabric := true, tree := a } s
          else if !releaseDone s c t.scope then stall s
          else
            let u := recordArrivals c b y.gen (execLanes s c h.gsel h.gn) (popReads c h x.pops s)
            let u := putSlot gid b { y with fabric := true, tree := a } u
            advance c 1 1 (sendPacket c.ret c.ret false 0 0 (.fbarArrive a t.gen 5) u)) s

/-! ### CWAIT (R389) -/

/-- The member of the issuing core's fold that a scratchpad address selects. -/
def cwaitMember (core a : Nat) : Nat := memberCore core (a % 2 ^ 22)

/-- The condition of CWAIT on its selector and threshold (R389). -/
def cwaitMet (s : State) (core : Nat) (sel thr : W32) : Bool :=
  if bitOf sel.toNat 31 then
    let count := (mget (s.ret (coreRet core)).ccnt (bitsOf sel.toNat 9 0) 0).extractLsb' 0 32
    decide ((count - thr).toNat < 2 ^ 31)
  else
    let remain := sextInt (ofBytesLE (readRaw s (scratchPa core (bitsOf sel.toNat 21 0)) 8)) 64
    decide (remain ≤ thr.toInt)

/-- The cause that a CWAIT raises at issue, or while it waits: a dead member, or poison at the counter. -/
def cwaitDead (s : State) (core : Nat) (sel : W32) : Option (Cause × Nat × Nat) :=
  if bitOf sel.toNat 31 then none
  else
    let a := bitsOf sel.toNat 21 0
    let k := cwaitMember core a
    if (s.core k).dead then some (.coreLost, a, coreCode k)
    else (poisonedIn s (scratchPa core a) 8).map (fun u => (.uncorrectable, u, 0))

/-- The end of a CWAIT is an acquire at core scope of its slice-warp (R233, R240, R389): the core's L1 is invalidated. -/
def cwaitAcquire (core sw : Nat) (s : State) : State := acquireSws [sw] (updCore core (fun k => { k with l1 := [] }) s)

/-- CWAIT. -/
def execCwait (w : SWord) (s : State) : Host.Outcome State Fault Refusal :=
  issueOrdered operandCheck (.cwait w) (fun c h x s =>
    match x.lanes with
    | [] => advance c 1 1 s
    | l :: _ =>
      let sel := src32 s c h l 0
      let thr := src32 s c h l 1
      let a := bitsOf sel.toNat 21 0
      let counter := bitOf sel.toNat 31
      let go := fun (s : State) =>
        let t := advance c 1 1 (popReads c h x.pops s)
        if cwaitMet s c.core sel thr then cwaitAcquire c.core c.sw t else parkWait c (lanesOf c.run.lanes) (.cwait sel thr) t
      if (if counter then bitsOf sel.toNat 30 10 else bitsOf sel.toNat 30 22) ≠ 0 then reasonAt c 0x28 s
      else if counter then
        (if endpointRoot s c.ret (bitsOf sel.toNat 9 0) ≠ some c.g.root then faultAt c .permission 0 0 l s else go s)
      else if a % 16 ≠ 0 then faultAt c .alignment a 0 l s
      else if cwaitMember c.core a ≠ c.core ∧ foreignHost s (cwaitMember c.core a) c.g.m c.g.root = true then
        faultAt c .permission a 0 l s
      else
        match cwaitDead s c.core sel with
        | some (cause, addr, d) => faultAt c cause addr d l s
        | none => go s) s

/-- A fault raised at the instruction at which a thread waits: the run's address and its position name it. -/
def waitFault (cause : Cause) (gid warp : Nat) (sl : Slice) (lane addr detail : Nat) (s : State) : State :=
  let th := s.thread (thKey (swKey gid warp sl) lane)
  takeFault ⟨cause, gid, warp, sl.code, lane, true, (th.pc + BitVec.ofNat 64 (4 + 4 * th.pos.getD 0)).toNat, none, addr, detail⟩ s

/-- CWAIT_RETURN (R389): the condition holds and the wait ends, or the member that holds the counter has died. -/
def execCwaitReturn (gid warp : Nat) (slice : Slice) (s : State) : Host.Outcome State Fault Refusal :=
  match mget? s.groups gid, waiting? s gid warp slice (fun w => match w with | .cwait _ _ => true | _ => false) with
  | some g, some l =>
    (match (s.thread (thKey (swKey gid warp slice) l)).wait with
     | .cwait sel thr =>
       (match cwaitDead s g.core sel with
        | some (cause, addr, d) => .next (waitFault cause gid warp slice l addr d s)
        | none =>
          if cwaitMet s g.core sel thr then
            .next (cwaitAcquire g.core (swKey gid warp slice) (wakeWhere gid warp slice (fun w => w == .cwait sel thr) s))
          else .next s)
     | _ => .next s)
  | _, _ => .next s

/-! ### WAITA and CPART -/

/-- The CYCLES counter of a core in service: it changes in every cycle, so a watch on it wakes at once (R263, R395). -/
def runningCounter (s : State) (base : Nat) : Bool :=
  let o := localOf base - (deviceBase + 0x200000)
  let k := coreKey (retOf base) (o / 64 / 4) (o / 64 % 4)
  isDevice base && decide (deviceBase + 0x200000 ≤ localOf base) && decide (o < 0x2200) && o % 64 == 0
    && inService s (retOf base) && !(s.core k).dead

/-- A thread watches in WAITA on a unit whose watch has been dropped, or that changes in every cycle, or the pre-emption request is raised
(R263). -/
def watchOver (s : State) (sw : Nat) (preq : Bool) : Wait → Bool
  | .waita _ base => preq || runningCounter s base || !s.watches.any (fun w => w.sw == sw && w.base == base)
  | _ => false

/-- A thread has watched in WAITA for 2^20 cycles since it issued (R263). -/
def watchExpired (s : State) : Wait → Bool
  | .waita since _ => decide (s.ticks - since ≥ 2 ^ 23)
  | _ => false

/-- Watches of a slice-warp that no thread of it waits for are given up. -/
def dropWatches (gid warp : Nat) (sl : Slice) (s : State) : State :=
  let sw := swKey gid warp sl
  let used := fun (base : Nat) =>
    (waiting? s gid warp sl (fun w => match w with | .waita _ b => b == base | .waitaRead _ => true | _ => false)).isSome
  { s with watches := s.watches.filter (fun w => w.sw != sw || used w.base) }

/-- WAITA_WAKE (R262, R263): the watched unit was written, or its watch was dropped, or the pre-emption request is raised. -/
def execWaitaWake (gid warp : Nat) (slice : Slice) (s : State) : Host.Outcome State Fault Refusal :=
  match mget? s.groups gid with
  | none => .next s
  | some g => .next (dropWatches gid warp slice (wakeWhere gid warp slice (watchOver s (swKey gid warp slice) g.preq) s))

/-- WAITA_TIMEOUT (R262, R263): 2^20 cycles have passed since the instruction issued. -/
def execWaitaTimeout (gid warp : Nat) (slice : Slice) (s : State) : Host.Outcome State Fault Refusal :=
  .next (dropWatches gid warp slice (wakeWhere gid warp slice (watchExpired s) s))

/-- The scratch ways that a change of partition moves between scratch and the last-level cache. -/
def waysMoved (ret old new : Nat) : List (Nat × Nat) :=
  (upFrom (Nat.min old new) (Nat.max old new - Nat.min old new)).map (fun w => (paOf ret (scratchBase + (15 - w) * 0x600000), 0x600000))

/-- Forget the bytes of a range of addresses. -/
def zeroRange (lo n : Nat) (s : State) : State :=
  { s with
    mem := s.mem.filter (fun e => !(decide (lo ≤ e.1) && decide (e.1 < lo + n)))
    poison := s.poison.filter (fun e => !(decide (lo ≤ e) && decide (e < lo + n))) }

/-- Lines of a reticle's DRAM that stood in ways given to scratch leave its last-level cache, written back first: which lines those ways
held is a free choice (log 4). -/
def evictWays (ret : Nat) (s : State) : State :=
  { s with
    llc := s.llc.filter (fun e => retOf (e.1 * 128) != ret || Config.choice (s.free * 2 ^ 54 + e.1) % 2 == 0)
    free := s.free + 1 }

/-- WPART takes a new count (R138, R266): the ways that change hold nothing of what they held, and lines of removed scratch leave every L1 of
the pod. -/
def setWays (ret n : Nat) (s : State) : State :=
  let old := (s.ret ret).ways
  let moved := waysMoved ret old n
  let s := if n < old then evictWays ret s else s
  let s := moved.foldl (fun t r => zeroRange r.1 r.2 t) s
  let gone := fun (line : Nat) => moved.any (fun r => decide (r.1 ≤ line * 128) && decide (line * 128 < r.1 + r.2))
  let s := if n > old then
      { s with cores := s.cores.map (fun e => (e.1, { e.2 with l1 := e.2.l1.filter (fun ln => !gone ln.1) })) } else s
  updRet ret (fun r => { r with ways := n, cpartTo := none }) s

/-- CPART_COMPLETE (R266): the partition in progress is done. -/
def execCpartComplete (ret : Nat) (s : State) : Host.Outcome State Fault Refusal :=
  match (s.ret ret).cpartTo with
  | none => .next s
  | some n => .next (setWays ret n s)

end Sys2Proof.Machine
end

