-- ==== Sys2Proof/Machine/Run.lean ====
section
/-! DEFINITION. Runs: fetching and decoding a run (spec/04 R97, R104 to R107, R116, R117), and its readiness (02 R60, 14 R330). -/

namespace Sys2Proof.Machine

open Sys2Proof

/-! ### Decoding a run (R106) -/

/-- A run's words. -/
structure RunWords where
  header : W32
  words : List W32
  trailers : List W32
deriving DecidableEq, Repr

/-- Why a run cannot be decoded: a word that is not there yet, a cause found in fetching it, or a reason of R116 with the word that shows it. -/
inductive RunStop where
  | miss (va : Nat)
  | bad (cause : Cause) (va detail : Nat)
  | reason (r : Nat) (w : W32)
deriving DecidableEq, Repr

/-- A fetched word, or why decoding stops. -/
def Fetched.get : Fetched → Except RunStop W32
  | .word w => .ok w
  | .miss va => .error (.miss va)
  | .bad c va d => .error (.bad c va d)

/-- The X-form opcodes that a word of any sub-operation has (R101, R111). -/
def isXForm (op : Nat) : Bool := op == 0x79 || op == 0x7A || op == 0x7C || op == 0x7D

/-- check_guard_slot, check_latch_position and check_waiting_last of R106 on the instruction at position i of a run of n words. -/
def positionReason (w x : W32) (i n : Nat) (slots : List Nat) : Option Nat :=
  let generic := fun (nwForm waiting : Bool) =>
    let gsel := if isXForm (opOf w) then bitsOf x.toNat 31 30 else (gselOf w).toNat
    if gsel ≠ 0 ∧ nthD 0 slots (gsel - 1) = 31 then some 0x07
    else if nwForm && nwOf w && decide ((dOf w).toNat % 8 ≠ i % 8) then some 0x08
    else if waiting && decide (i + formWords (opOf w) ≠ n) then some 0x09
    else none
  match decodeWords w x with
  | .error .reservedSubop => generic (!isXForm (opOf w)) false
  | .error _ => none
  | .ok ins => match shape ins with
    | some h => generic h.nwForm h.waiting
    | none => none

/-- The instruction words of a run of n words whose header is at h, from position i on. -/
def decodeBody (fetch : Nat → Fetched) (h n : Nat) (slots : List Nat) : Nat → Nat → List W32 → Except RunStop (List W32)
  | 0, _, acc => .ok acc
  | k + 1, i, acc =>
    if i ≥ n then .ok acc
    else
      match (fetch (h + 4 + 4 * i)).get with
      | .error e => .error e
      | .ok w =>
        if opOf w ≤ 1 then .error (.reason 0x05 w)
        else if i + formWords (opOf w) > n then .error (.reason 0x03 w)
        else
          match (if formWords (opOf w) = 2 then (fetch (h + 8 + 4 * i)).get else .ok 0) with
          | .error e => .error e
          | .ok x =>
            match positionReason w x i n slots with
            | some r => .error (.reason r w)
            | none =>
              if formWords (opOf w) = 2 then decodeBody fetch h n slots k (i + 2) (acc ++ [w, x])
              else decodeBody fetch h n slots k (i + 1) (acc ++ [w])

/-- The instructions of a run's words that decode, with their positions and shapes. -/
def runInstrs : Nat → Nat → List W32 → List (Nat × Instr × Shape)
  | 0, _, _ => []
  | _, _, [] => []
  | k + 1, i, w :: rest =>
    let x := match rest with | y :: _ => y | [] => 0
    let tail := if formWords (opOf w) = 2 then runInstrs k (i + 2) (rest.drop 1) else runInstrs k (i + 1) rest
    match decodeWords w x with
    | .ok ins => (match shape ins with | some h => (i, ins, h) :: tail | none => tail)
    | .error _ => tail

/-- The entries that an instruction pops or peeks from a queue, as R60 counts them. -/
def instrPops (h : Shape) (q : Nat) : Nat :=
  popsBefore h.reads h.reads.length q + (if h.queue = some q then h.qreads else 0)

/-- The entries that an instruction pushes into a queue. -/
def instrPushes (h : Shape) (q : Nat) : Nat :=
  match pushOf h with
  | some (n, k) => if n = q then k else 0
  | none => 0

/-- Entries popped from, or pushed into, a queue by some instructions. -/
def sumOver (f : Shape → Nat → Nat) (is : List (Nat × Instr × Shape)) (q : Nat) : Nat :=
  is.foldl (fun n i => n + f i.2.2 q) 0

/-- The seven slice queues (R293). -/
def queueNames : List Nat := [88, 89, 90, 91, 92, 93, 94]

/-- check_queue_counts (R60): no queue is popped from, or pushed into, beyond its limit. -/
def queueCounts (l : Launch) (is : List (Nat × Instr × Shape)) : Bool :=
  !l.decoupled || queueNames.all (fun q =>
    decide (sumOver instrPops is q ≤ l.queueCap q) && decide (sumOver instrPushes is q ≤ l.queueCap q))

/-- check_trailer_names (R58): v, o or s registers, or 127. -/
def trailerNamesOk (w : W32) : Bool :=
  [bitsOf w.toNat 24 18, bitsOf w.toNat 17 11, bitsOf w.toNat 10 4].all (fun n => isVOS n || n == 127)

/-- The trailers of a run from address t: k of them may still follow. -/
def decodeTrailers (fetch : Nat → Fetched) : Nat → Nat → List W32 → Except RunStop (List W32)
  | 0, _, acc => .ok acc
  | k + 1, t, acc =>
    match (fetch t).get with
    | .error e => .error e
    | .ok w =>
      if opOf w ≠ 1 then .error (.reason 0x04 w)
      else if bitsOf w.toNat 2 0 ≠ 0 then .error (.reason 0x0C w)
      else if !trailerNamesOk w then .error (.reason 0x0B w)
      else if bitOf w.toNat 3 = false then .ok (acc ++ [w])
      else if k = 0 then .error (.reason 0x04 w)
      else decodeTrailers fetch k (t + 4) (acc ++ [w])

/-- decode_run (R106): the run whose header is at h, or the first check that fails. -/
def decodeRun (fetch : Nat → Fetched) (l : Launch) (h : Nat) : Except RunStop RunWords :=
  match (fetch h).get with
  | .error e => .error e
  | .ok w =>
    let n := bitsOf w.toNat 24 20
    let slots := [bitsOf w.toNat 19 15, bitsOf w.toNat 14 10, bitsOf w.toNat 9 5]
    if opOf w ≠ 0 then .error (.reason 0x06 w)
    else if n = 0 ∨ n > 24 then .error (.reason 0x01 w)
    else if slots.any (fun g => decide (24 ≤ g) && decide (g ≤ 30)) then .error (.reason 0x02 w)
    else if bitsOf w.toNat 3 0 ≠ 0 then .error (.reason 0x0C w)
    else
      match decodeBody fetch h n slots 25 0 [] with
      | .error e => .error e
      | .ok ws =>
        if !queueCounts l (runInstrs 25 0 ws) then .error (.reason 0x0A w)
        else if bitOf w.toNat 4 = false then .ok ⟨w, ws, []⟩
        else
          match decodeTrailers fetch 2 (h + 4 + 4 * n) [] with
          | .error e => .error e
          | .ok ts => .ok ⟨w, ws, ts⟩

/-! ### Readiness (R60, R330) -/

/-- A PC group: threads of a slice-warp that share a program counter and a position (R61). -/
structure PcGroup where
  pc : W64
  pos : Option Nat
  lanes : List Nat
  last : Nat
  rank : Nat
deriving DecidableEq, Repr

/-- The PC groups of a slice-warp: threads that have not exited and wait for nothing. -/
def pcGroups (s : State) (gid : Nat) (g : Group) (warp : Nat) (sl : Slice) : List PcGroup :=
  let k := swKey gid warp sl
  let free := (upFrom 0 g.launch.visible).filter (fun l =>
    let th := s.thread (thKey k l)
    !th.exited && th.wait == .none)
  let place := fun (l : Nat) => let th := s.thread (thKey k l); (th.pc.toNat * 32 + (match th.pos with | some p => p + 1 | none => 0))
  (dedupe (free.map place)).map (fun a =>
    let ls := free.filter (fun l => place l == a)
    let th := s.thread (thKey k (ls.headD 0))
    ⟨th.pc, th.pos, ls, (ls.map (fun l => (s.thread (thKey k l)).lastIssue)).foldl Nat.min th.lastIssue,
      (ls.map (fun l => (s.thread (thKey k l)).splitRank)).foldl Nat.min th.splitRank⟩)

/-- The registers that an instruction reads or writes: CALL writes o15. -/
def namedRegs (i : Instr) (h : Shape) : List RegUse :=
  h.reads ++ (if h.nw then [] else h.write.toList) ++ (match i with | .call _ => [⟨79, 1, false, .general⟩] | _ => [])

/-- The codes that a v or o register operand may name under some window bases. -/
def codesOf (wbs : List Nat) (u : RegUse) : List Nat :=
  if u.name < 64 then wbs.flatMap (fun b => upFrom (16 * b + u.name) u.words)
  else if u.name < 80 then upFrom (256 + (u.name - 64)) u.words else []

/-- The window bases that hold for a lane after an instruction: WBASE moves later names. -/
def basesAfter (i : Instr) (h : Shape) (wbs : List Nat) : List Nat :=
  match i with
  | .wbase w => if h.gsel = 0 then [w.b.toNat] else w.b.toNat :: wbs
  | _ => wbs

/-- An instruction names a register that is pending for a lane (R58, R60). -/
def lanePending (pend : List Nat) : List Nat → List (Nat × Instr × Shape) → Bool
  | _, [] => false
  | wbs, (_, i, h) :: rest =>
    (namedRegs i h).any (fun u => (codesOf wbs u).any (fun k => pend.contains k)) || lanePending pend (basesAfter i h wbs) rest

/-- An instruction of a run names a register that is pending for a thread of a PC group. -/
def runPending (s : State) (sw : Nat) (lanes : List Nat) (is : List (Nat × Instr × Shape)) : Bool :=
  let uni := (s.sw sw).uniPending.map (·.1)
  is.any (fun i => (namedRegs i.2.1 i.2.2).any (fun u => decide (96 ≤ u.name) && decide (u.name < 112)
    && (upFrom (u.name - 96) u.words).any (fun k => uni.contains k)))
  || lanes.any (fun l =>
    let th := s.thread (thKey sw l)
    !th.pending.isEmpty && lanePending (th.pending.map (·.1)) [th.wb] is)

/-- A queue of a lane that a run waits for: the queue, the lane, whether the wait is for an entry, and whether it is the entry of cq that a
QPOPP of the run takes (R298). -/
structure QWait where
  q : Nat
  lane : Nat
  pop : Bool
  lod : Bool
deriving DecidableEq, Repr

/-- A run holds a QPOPP from cq (R298). -/
def popsBranch (is : List (Nat × Instr × Shape)) : Bool :=
  is.any (fun i => match i.2.1 with | .qpopp w => w.a.toNat == 94 | _ => false)

/-- The queues that a PC group's run still waits for (R60, R296, R297). A name in the wrong direction faults at issue instead. -/
def queueWaits (s : State) (gid warp : Nat) (sl : Slice) (l : Launch) (lanes : List Nat) (is : List (Nat × Instr × Shape)) : List QWait :=
  if !l.decoupled then []
  else
    lanes.flatMap (fun ln => queueNames.flatMap (fun q =>
      let y := s.queueNow (qKey gid warp ln q)
      if consumerOf q = sl then
        (if popReady y (sumOver instrPops is q) then [] else [⟨q, ln, true, q == 94 && popsBranch is⟩])
      else
        let gone := (s.thread (thKey (swKey gid warp (consumerOf q)) ln)).exited
        (if gone || decide (y.entries.length + sumOver instrPushes is q ≤ l.queueCap q) then [] else [⟨q, ln, false, false⟩])))

/-- The work-request queues that some instructions name, once for each instruction (R330). -/
def postsOf (is : List (Nat × Instr × Shape)) : List Nat :=
  is.filterMap (fun i => match i.2.1 with
    | .rput _ c => some (qidxOf c)
    | .rget _ c => some (qidxOf c)
    | .ratom _ c => some (qidxOf c)
    | .npost _ c => some (qidxOf c)
    | _ => none)

/-- The instructions that a fence of an earlier run holds back (R261): memory instructions, COPY, the NET instructions, a push, LGRID and
ETRIG. -/
def heldByFence (i : Instr) (h : Shape) : Bool :=
  (pushOf h).isSome || (match i with
    | .ld _ _ | .lds _ _ | .st _ _ | .sts _ _ | .atom _ _ | .atoms _ _ | .fence _ | .acq _ | .rel _ | .waita _ _ => true
    | .cinv _ _ | .cwb _ _ | .cpf _ _ | .czero _ _ | .cpart _ _ | .copy _ _ => true
    | .rput _ _ | .rget _ _ | .ratom _ _ | .npost _ _ | .nflush _ _ | .lgrid _ _ | .etrig _ _ => true
    | _ => false)

/-- A PC group as the Drover sees it: what it waits for is a pending register, room in a work-request queue, a fence, or queues. -/
inductive Verdict where
  | ready (r : RunWords)
  | stop (e : RunStop)
  | blocked (pending net fence : Bool) (queues : List QWait)
deriving DecidableEq, Repr

/-- Whether a PC group's next run is ready, and what it waits for (R60, R261, R330). The fourth condition of R60 never holds a run back: the
waits known at decode are those for tags and barrier slots already in the awaited state, which are none (log 16). -/
def verdict (s : State) (core gid : Nat) (g : Group) (warp : Nat) (sl : Slice) (p : PcGroup) : Verdict :=
  match decodeRun (fetchWord s core g) g.launch p.pc.toNat with
  | .error e => .stop e
  | .ok r =>
    let is := (runInstrs 25 0 r.words).filter (fun i => decide (i.1 ≥ p.pos.getD 0))
    let pend := runPending s (swKey gid warp sl) p.lanes is
    let qs := queueWaits s gid warp sl g.launch p.lanes is
    let posts := postsOf is
    let net := posts.any (fun q => decide (wrqUsed s (coreRet core) q + (posts.filter (· == q)).length > 64))
    let fence := fencePending s (swKey gid warp sl) && is.any (fun i => heldByFence i.2.1 i.2.2)
    if pend || net || fence || !qs.isEmpty then .blocked pend net fence qs else .ready r

/-- A verdict that lets a PC group be chosen: a ready run, or one whose decoding faults. -/
def Verdict.issues : Verdict → Bool
  | .ready _ => true
  | .stop (.miss _) => false
  | .stop _ => true
  | .blocked _ _ _ _ => false

/-- A region's effective priority (R65, R66). -/
def effPrio (s : State) (m i : Nat) : Nat :=
  effective s m 5 i (·.prio) + (match mget? (s.mod m).regions i with | some r => r.raised | none => 0)

end Sys2Proof.Machine
end

