-- ==== Sys2Proof/Machine/Place.lean ====
section
/-! DEFINITION. The dispatcher: budgets and windows, the room a group needs (spec/02 R47), placement (R50 to R54), dependencies (R44, R45),
pre-emption requests (R65) and aging (R66). -/

namespace Sys2Proof.Machine

open Sys2Proof

/-! ### Budgets (15 R348) -/

/-- A core window of a budget: its virtual base, and its core, if the entry's leaf is a well-formed core-window leaf. -/
structure Window where
  vbase : Nat
  core : Option Nat
deriving DecidableEq, Repr

/-- The core that a core-window leaf at a physical address names (R348, R349). -/
def windowCore (s : State) (key a : Nat) : Option Nat :=
  if !isDram a || !inService s (retOf a) || (poisonedIn s a 8).isSome then none
  else
    let e := readNat s key a 8
    if pteV e && pteLeaf e && pteType e == 1 && !pteBad 1 e then some (coreOfSpad (ptePa e)) else none

/-- The windows of a region's budget, in order. -/
def windowsOf (s : State) (m root region : Nat) : List Window :=
  let base := effective s m 0 region (·.winset)
  let key := match mget? (s.mod m).regions root with | some r => r.rcb.keyid | none => 0
  (upFrom 0 (effective s m 0 region (·.wincount))).map (fun i =>
    match readVa s m root (base + 16 * i) 16 with
    | none => ⟨0, none⟩
    | some bs => ⟨ofBytesLE (bs.take 8), windowCore s key (ofBytesLE (bs.drop 8))⟩)

/-! ### Room (R47) -/

/-- What a group takes of a core. -/
structure Claim where
  launch : Launch
  spadOff : Nat
  region : Nat
deriving DecidableEq, Repr

/-- Threads of a group per port. -/
def Launch.threads (l : Launch) : Nat := l.warps * l.lanes
/-- Operand file bytes of a group. -/
def Launch.operandBytes (l : Launch) : Nat := 64 * l.threads * (if l.decoupled then 2 else 1)
/-- Main register file bytes of a group. -/
def Launch.mainBytes (l : Launch) : Nat := 64 * (l.aregs + l.xregs) * l.threads

/-- A sum over claims. -/
def claimSum (f : Launch → Nat) (cs : List Claim) : Nat := cs.foldl (fun n c => n + f c.launch) 0

/-- The lowest free scratchpad offset for some bytes among some ranges. -/
def lowestOffset (spad : Nat) (cs : List Claim) : Option Nat :=
  if spad = 0 then some 0
  else
    let free := fun (o : Nat) => decide (o + spad ≤ Config.spadBytes) && !cs.any (fun c => overlaps o spad c.spadOff c.launch.spad)
    argMin id ((0 :: cs.map (fun c => c.spadOff + c.launch.spad)).filter free)

/-- The limits of a region and of every ancestor hold when a launch is added to some claims (R47). -/
def limitsHold (s : State) (m region : Nat) (l : Launch) (cs : List Claim) : Bool :=
  (lineage s m 8 region).all (fun a =>
    let mine := cs.filter (fun c => (lineage s m 8 c.region).contains a)
    decide (claimSum (·.spad) mine + l.spad ≤ effective s m 1 a (·.spadlim))
    && decide (claimSum (·.bars) mine + l.bars ≤ effective s m 3 a (·.barlim)))

/-- A core is live: it has not died, and at least 16 of its lanes are good (R21). -/
def coreLive (c : CoreSt) : Bool := !c.dead && decide (goodLanes c ≥ 16)

/-- A physical fold is complete: all four of its cores are live (R21). -/
def foldComplete (s : State) (ret fold : Nat) : Bool := (upFrom 0 4).all (fun i => coreLive (s.core (coreKey ret fold i)))

/-- A core can host groups of a module: in service, of a named and complete fold, with enough good lanes (R22, R23, R47). -/
def coreHosts (s : State) (m region k : Nat) : Bool :=
  modOf (coreRet k) == m && inService s (coreRet k) && foldNamed s (coreRet k) (coreFold k) && foldComplete s (coreRet k) (coreFold k)
  && decide (popcount 32 (s.core k).lmap.toNat ≥ Nat.max 16 (effective s m 4 region (·.gmin)))

/-- A core takes groups now: one that the Shepherd drains to change its LMAP takes none before the change (R67). -/
def coreServes (s : State) (m region k : Nat) : Bool := coreHosts s m region k && (s.core k).lmapTo.isNone

/-- The resources of a core and the limits of a region hold a launch beside some claims (R47), scratchpad offsets aside. -/
def holdsBeside (s : State) (m region : Nat) (l : Launch) (cs : List Claim) : Bool :=
  cs.all (fun c => c.launch.width == l.width)
  && decide (claimSum (·.threads) cs + l.threads ≤ Config.portThreads)
  && decide (claimSum (·.operandBytes) cs + l.operandBytes ≤ Config.operandFile)
  && decide (claimSum (·.mainBytes) cs + l.mainBytes ≤ Config.mainFile)
  && decide (claimSum (·.bars) cs + l.bars ≤ 32)
  && limitsHold s m region l cs

/-- The scratchpad offset of a launch among some ranges: the wanted one if it is free, or the lowest that fits (R51, R54). -/
def offsetAmong (l : Launch) (want : Option Nat) (cs : List Claim) : Option Nat :=
  match want with
  | none => lowestOffset l.spad cs
  | some o => if l.spad = 0 ∨ cs.any (fun c => overlaps o l.spad c.spadOff c.launch.spad) = false then some o else none

/-- A launch fits beside some claims, at a wanted scratchpad offset or at the lowest one: the offset. -/
def fitsBeside (s : State) (m region : Nat) (l : Launch) (want : Option Nat) (cs : List Claim) : Option Nat :=
  if holdsBeside s m region l cs then offsetAmong l want cs else none

/-- The groups resident on a core. -/
def groupsOn (s : State) (k : Nat) : List (Nat × Group) := s.groups.filter (fun e => e.2.core == k)

/-- A group as a claim. -/
def Group.claim (g : Group) : Claim := ⟨g.launch, g.spadOff, g.region⟩

/-- The grids of a region that have a group to place (R50), in dispatch order: of grids of different queues the model serves the one posted
first before the others (log 16); of one queue no later one is DISPATCHING (R44). -/
def waitingGrids (s : State) (m region : Nat) : List (Nat × Grid) :=
  sortBy (fun e => e.2.post) ((s.mod m).grids.filter (fun e =>
    e.2.state == .dispatching && e.2.status == 0 && e.2.launch.region == region && decide (e.2.placed < e.2.launch.ngroups)))

/-- The pre-emption requests of other regions on a core (R65): the region, and the groups selected. -/
def requestsOn (s : State) (m region k : Nat) : List (Nat × NSet) :=
  (s.mod m).regions.filterMap (fun e =>
    match e.2.request with
    | some (c, sel) => if e.1 ≠ region ∧ c = k then some (e.1, sel) else none
    | none => none)

/-- What a core will hold once the groups that other regions' requests select are gone (R65): the claims of the other groups, and of each
request the first of its region's next groups, in dispatch order, that fits there. Answers those reserved claims, and all of them. -/
def reservedOn (s : State) (m : Nat) (gs : List (Nat × Group)) (reqs : List (Nat × NSet)) : List Claim × List Claim :=
  let rest := (gs.filter (fun e => !reqs.any (fun r => smem r.2 e.1))).map (fun e => e.2.claim)
  reqs.foldl (fun a r =>
    match (waitingGrids s m r.1).findSome? (fun x =>
        (fitsBeside s m r.1 x.2.launch none a.2).map (fun o => (⟨x.2.launch, o, r.1⟩ : Claim))) with
    | some c => (c :: a.1, c :: a.2)
    | none => a) ([], rest)

/-- Room for a launch of a region on a core (R47, R51, R65): the scratchpad offset, among the ranges of the resident groups and those reserved.
The launch fits beside what is there now and beside what the requests of other regions will leave. -/
def roomOn (s : State) (m root region : Nat) (l : Launch) (want : Option Nat) (k : Nat) : Option Nat :=
  let gs := groupsOn s k
  if !coreServes s m region k || gs.any (fun e => e.2.m != m || e.2.root != root) then none
  else
    let now := gs.map (fun e => e.2.claim)
    let (reserved, later) := reservedOn s m gs (requestsOn s m region k)
    if holdsBeside s m region l now && holdsBeside s m region l later then offsetAmong l want (reserved ++ now) else none

/-! ### Placing (R41, R51, R52, R214, R244) -/

/-- A core passes to a root region (R41): its scratchpad, bank and L1 hold nothing of the last one. -/
def takeCore (k owner : Nat) (s : State) : State :=
  if (s.core k).owner = some owner then s
  else
    updCore k (fun c => { c with owner := some owner, bank := [], l1 := [] }) (zeroRange (spadPa k 0) Config.spadBytes s)

/-- The name of a grid on a core: module and handle. -/
def gridKey (m h : Nat) : Nat := m * 2 ^ 32 + h

/-- Free physical barrier slots of a core. -/
def freeSlots (s : State) (k : Nat) : List Nat :=
  let used := (groupsOn s k).flatMap (fun e => e.2.slots.map (fun x => x.2.phys))
  (upFrom 0 32).filter (fun i => !used.contains i)

/-- A group comes to a core: root, lanes, width code, and the caches of another grid's code and data (R41, R52, R67, R214, R244). -/
def bringGroup (k gid m root h width : Nat) (s : State) : State :=
  let s := takeCore k (match mget? (s.mod m).regions root with | some r => r.uid | none => 0) s
  updCore k (fun c =>
    let same := c.lastGrid == some (gridKey m h)
    { c with
      wcode := width
      groups := sadd c.groups gid
      lastGrid := some (gridKey m h)
      l1i := if same then c.l1i else []
      l1 := if same then c.l1 else [] }) s

/-- The threads of a group at its start (R123): at the slice's entry point, everything else zero. -/
def startThreads (gid : Nat) (l : Launch) (s : State) : State :=
  (swsOf l).foldl (fun t p =>
    let entry := match p.2 with | .access => l.aentry | .execute => l.xentry
    let k := swKey gid p.1 p.2
    let t := updSw k (fun _ => { SliceWarp.start with active := false, pendSince := s.ticks }) t
    (threadsOf gid p.1 p.2 l).foldl (fun u i => updTh i (fun _ => { Thread.start with pc := BitVec.ofNat 64 (l.code + 4 * entry) }) u) t) s

/-- Place the next group of a grid on a core, at a scratchpad offset. -/
def placeGroup (m h : Nat) (x : Grid) (k vbase off : Nat) (s : State) : State :=
  let (gid, s) := freshId s
  let l := x.launch
  let s := bringGroup k gid m x.root h l.width s
  let slots := ((freeSlots s k).take l.bars).zip (upFrom 0 l.bars)
  let g : Group :=
    { m := m, grid := h, index := x.placed, region := l.region, root := x.root, launch := l, core := k, window := vbase, spadOff := off
      phase := .running, tags := [], preq := false, drain := false, pdlcFrom := none
      slots := slots.map (fun p => (p.2, { Slot.start with phys := p.1 })), acc := [], triggered := false, placedAt := s.ticks
      halt := none, recordVa := 0, recordOk := false, haltPc := 0, forced := false, debug := false, discard := false, drainFrom := none
      resumeFault := none, stopped := [], exitAfter := none }
  let s := startThreads gid l { s with groups := mput s.groups gid g }
  updGrid m h (fun y =>
    let n := y.placed + 1
    { y with placed := n, state := if n ≥ l.ngroups then .resident else y.state }) s

/-- The windows from a cursor onward, wrapping once (R51). The cursor is the least base at which the next window may stand, so that it skips
windows that leave the set (R347). -/
def fromCursor (ws : List Window) (cur : Nat) : List Window :=
  ws.filter (fun w => decide (w.vbase ≥ cur)) ++ ws.filter (fun w => decide (w.vbase < cur))

/-- The first window from the cursor whose core has room: its core, base and offset. -/
def findWindow (s : State) (m root region : Nat) (l : Launch) (ws : List Window) : Option (Nat × Nat × Nat) :=
  ws.findSome? (fun w => match w.core with
    | none => none
    | some k => (roomOn s m root region l none k).map (fun o => (k, w.vbase, o)))

/-- The groups of a request that have not left its core yet (R65). -/
def stillThere (s : State) (k : Nat) (sel : NSet) : Bool :=
  sel.any (fun i => match mget? s.groups i with | some g => g.core == k && g.preq | none => false)

/-- A region's request when a group of it comes to a core: the room that the request reserved there is taken once its groups are gone. -/
def usedRequest (s : State) (k : Nat) (q : Option (Nat × NSet)) : Option (Nat × NSet) :=
  q.filter (fun r => r.1 != k || stillThere s k r.2)

/-- Place the next group of a grid under R51: none when no window has room. -/
def placeNext (m h : Nat) (s : State) : Option State :=
  match mget? (s.mod m).grids h with
  | none => none
  | some x =>
    let region := x.launch.region
    let cur := match mget? (s.mod m).regions region with | some r => r.cursor | none => 0
    match findWindow s m x.root region x.launch (fromCursor (windowsOf s m x.root region) cur) with
    | none => none
    | some (k, vbase, off) =>
      let turn := (s.mod m).turn + 1
      let s := updMod m (fun y => { y with turn := turn }) s
      some (updRegion m region (fun r => { r with cursor := vbase + 1, served := turn, request := usedRequest s k r.request })
        (placeGroup m h x k vbase off s))

/-- Place some more groups of a grid: all of them or none. -/
def placeAll (m h : Nat) : Nat → State → Option State
  | 0, s => some s
  | n + 1, s =>
    match placeNext m h s with
    | none => none
    | some t => placeAll m h n t

/-! ### Dependencies (R44, R45, R53) -/

/-- Every group of a grid has triggered or exited (R45). -/
def allTriggered (x : Grid) : Bool := (upFrom 0 x.launch.ngroups).all (fun i => smem x.triggered i || smem x.gone i)

/-- A grid's dependency is met (R45). -/
def dependencyMet (s : State) (m : Nat) (x : Grid) : Bool :=
  if !x.launch.dep then true
  else
    match x.pred with
    | none => true
    | some p =>
      match mget? (s.mod m).grids p with
      | none => true
      | some y => y.state == .finished || (y.launch.etrigdep && !y.launch.staged && decide (y.placed = y.launch.ngroups) && allTriggered y)

/-- Every earlier grid of the same queue has had all its groups dispatched (R44). -/
def earlierDispatched (s : State) (m : Nat) (x : Grid) : Bool :=
  match x.queue with
  | none => true
  | some q => (s.mod m).grids.all (fun e =>
      !(e.2.queue == some q && decide (e.2.post < x.post)) || e.2.state == .resident || e.2.state == .finished)

/-! ### Pre-emption requests (R65, R394) -/

/-- The pre-emption deadline of a group's region in cycles. -/
def deadlineOf (s : State) (g : Group) : Nat := effective s g.m 8 g.region (·.deadline)

/-- Raise the pre-emption request of a group: PDLC loads the deadline, or 0 for a drain (R135, R394). -/
def requestGroup (gid : Nat) (drain : Bool) (s : State) : State :=
  match mget? s.groups gid with
  | none => s
  | some g =>
    if g.preq && !(drain && !g.drain) then s
    else
      updGroup gid (fun y => { y with
        preq := true, drain := y.drain || drain
        pdlcFrom := some (s.ticks, if drain then 0 else deadlineOf s g) }) s

/-- Pre-emption of any group of a persistent grid is pre-emption of all of them (R53). -/
def requestWith (gid : Nat) (drain : Bool) (s : State) : State :=
  match mget? s.groups gid with
  | none => s
  | some g =>
    if g.launch.persistent then
      (residentOf s g.m g.grid).foldl (fun t i => requestGroup i (drain && i == gid) t) s
    else requestGroup gid drain s

/-- The order in which a core's groups are taken (R65): lowest effective priority first, then highest index, then most recently placed. -/
def takeOrder : Nat → List (Nat × Nat × Nat × Nat) → List Nat
  | 0, _ => []
  | n + 1, xs =>
    match argMin (fun x => (x.2.1 * 2 ^ 32 + (2 ^ 32 - x.2.2.1)) * 2 ^ 128 + (2 ^ 128 - x.2.2.2)) xs with
    | none => []
    | some x => x.1 :: takeOrder n (xs.filter (fun y => y.1 != x.1))

/-- Bytes of image store a reticle has (R412). -/
def storeBytes : Nat := 0x100000000

/-- The size of a group's image (R410, R411): an upper bound that its registers, queues, slots, scratchpad and bank units give. -/
def imageBound (g : Group) : Nat :=
  let l := g.launch
  let n := l.warps * l.visible
  let sl := if l.decoupled then 2 else 1
  256 + l.warps * sl * 512 + n * sl * 96 + n * (64 * (l.aregs + l.xregs) + sl * (64 + 40)) + n * (7 * 136 + 7 * 16 * 32)
  + l.bars * (32 + 8 * n * sl) + 128 + 128 + l.spad + 512 * g.acc.length

/-- Bytes of a Cellar slot (R204). -/
def cellarSlot : Nat := 0x200000

/-- The bytes of a reticle's image store that images take (R412): one in the Cellar takes what exceeds its slot. -/
def storeUsed (s : State) (ret : Nat) : Nat :=
  ((s.mod (modOf ret)).saved.filter (fun e => e.2.ret == ret)).foldl (fun n e =>
    n + (imageBound e.2.group - (if e.2.keyBits.isNone then cellarSlot else 0))) 0

/-- The groups that a request on a core takes (R65): the shortest prefix of the order whose claims, given up, leave room among the others. -/
def shortestPrefix (fits : List Nat → Bool) : List Nat → List Nat → Option (List Nat)
  | acc, [] => if !acc.isEmpty && fits acc then some acc else none
  | acc, x :: xs => if !acc.isEmpty && fits acc then some acc else shortestPrefix fits (acc ++ [x]) xs

/-- The groups of lower effective priority on a core whose pre-emption would let a launch be placed there. Groups that another region's request
has selected are not selected again, and what it reserves stays reserved. A core of another width or another root is passed over (R52, R65). -/
def victimsOn (s : State) (m root region : Nat) (l : Launch) (k : Nat) : Option (List Nat) :=
  let gs := groupsOn s k
  if !coreServes s m region k || gs.any (fun e => e.2.m != m || e.2.root != root || e.2.launch.width != l.width) then none
  else
    let mine := effPrio s m region
    let reqs := requestsOn s m region k
    let open_ := gs.filter (fun e => !reqs.any (fun r => smem r.2 e.1))
    let reserved := (reservedOn s m gs reqs).1
    let lower := open_.filter (fun e => decide (effPrio s m e.2.region < mine))
    let order := takeOrder lower.length (lower.map (fun e => (e.1, effPrio s m e.2.region, e.2.index, e.2.placedAt)))
    let fits := fun (sel : List Nat) =>
      (fitsBeside s m region l none (reserved ++ (open_.filter (fun e => !sel.contains e.1)).map (fun e => e.2.claim))).isSome
    match shortestPrefix fits [] order with
    | none => none
    | some sel =>
      let need := (gs.filter (fun e => sel.contains e.1)).foldl (fun n e => n + imageBound e.2) 0
      if storeUsed s (coreRet k) + need > storeBytes then none else some sel

/-- Raise a pre-emption request for a region's group that cannot be placed: at the first core from the cursor where it helps. -/
def raiseRequest (m h : Nat) (s : State) : State :=
  match mget? (s.mod m).grids h with
  | none => s
  | some x =>
    let region := x.launch.region
    match mget? (s.mod m).regions region with
    | none => s
    | some r =>
      if r.request.isSome then s
      else
        match (fromCursor (windowsOf s m x.root region) r.cursor).findSome? (fun w => match w.core with
          | none => none
          | some k => (victimsOn s m x.root region x.launch k).map (fun v => (k, v))) with
        | none => s
        | some (k, v) => updRegion m region (fun y => { y with request := some (k, v) }) (v.foldl (fun t i => requestWith i false t) s)

/-- A request whose groups have left its core ends when none of its region's next groups, in dispatch order, meets R47 there (R65). -/
def settleRequest (m region : Nat) (s : State) : State :=
  match mget? (s.mod m).regions region with
  | none => s
  | some r =>
    match r.request with
    | none => s
    | some (k, sel) =>
      if stillThere s k sel || (waitingGrids s m region).any (fun e => (roomOn s m e.2.root region e.2.launch none k).isSome) then s
      else updRegion m region (fun y => { y with request := none }) s

/-! ### The dispatcher's move (R50) -/

/-- The root of a region. -/
def rootOf (s : State) (m i : Nat) : Nat := (lineage s m 8 i).getLastD i

/-- A saved group of a region waits to resume (R54). -/
def awaitsResume (s : State) (m region : Nat) : Bool :=
  (s.mod m).saved.any (fun e => e.2.group.region == region && !e.2.halted && !e.2.debug)

/-! ### Aging (R66) -/

/-- A group of a region has a ready slice-warp that has not issued since it became ready. -/
def readyWaiting (s : State) (m region : Nat) : Bool :=
  s.groups.any (fun e => e.2.m == m && e.2.region == region && e.2.phase == .running
    && (swsOf e.2.launch).any (fun p => (s.sw (swKey e.1 p.1 p.2)).readySince.isSome))

/-- A region has a group that it cannot place: of a grid that is DISPATCHING, or of a persistent one whose dependency is met (R53). -/
def cannotPlace (s : State) (m region : Nat) : Bool :=
  (waitingGrids s m region).any (fun e => (placeNext m e.1 s).isNone)
  || (s.mod m).grids.any (fun e => e.2.state == .waiting && e.2.status == 0 && e.2.launch.persistent && e.2.launch.region == region
      && dependencyMet s m e.2 && earlierDispatched s m e.2)

/-- A region is waiting (R66). -/
def regionWaiting (s : State) (m region : Nat) : Bool :=
  awaitsResume s m region || readyWaiting s m region || cannotPlace s m region

/-- Note since when a region has been waiting: one that waits no more loses its raise (R66). -/
def noteWaiting (m region : Nat) (s : State) : State :=
  if regionWaiting s m region then updRegion m region (fun y => { y with waitSince := some (y.waitSince.getD s.ticks) }) s
  else updRegion m region (fun y => { y with raised := 0, waitSince := none }) s

/-- The highest effective priority of any region with a group on a core of a budget (R66). -/
def agingCap (s : State) (m root region : Nat) : Nat :=
  let ks := (windowsOf s m root region).filterMap (·.core)
  (s.groups.filter (fun e => e.2.m == m && ks.contains e.2.core)).foldl (fun n e => Nat.max n (effPrio s m e.2.region)) 0

/-! ### The order of regions (R50) -/

/-- The regions that have a group to place, the highest effective priority first and in turn among equals. -/
def regionOrder (s : State) (m : Nat) : Nat → List Nat → List Nat
  | 0, _ => []
  | n + 1, rs =>
    match argMin (fun i => (1000 - effPrio s m i) * 2 ^ 64 + (match mget? (s.mod m).regions i with | some r => r.served | none => 0)) rs with
    | none => []
    | some i => i :: regionOrder s m n (rs.filter (fun j => j != i))

/-- Place the next group of the first of some grids that can be placed (R50): a grid that cannot holds back none of another queue. -/
def placeFirst (m : Nat) : List Nat → State → Option State
  | [], _ => none
  | h :: rest, s =>
    match placeNext m h s with
    | some t => some t
    | none => placeFirst m rest s

/-- Offer a placement to each region in order: the first that can place a group does. One that cannot raises a request. -/
def offer (m : Nat) : List Nat → State → State
  | [], s => s
  | i :: rest, s =>
    let hs := (waitingGrids s m i).map (·.1)
    match placeFirst m hs s with
    | some t => settleRequest m i t
    | none => offer m rest (match hs with | h :: _ => raiseRequest m h s | [] => s)

/-- The regions that the dispatcher may serve now: with a group to place, and none of theirs waiting to resume (R54). -/
def servable (s : State) (m : Nat) : List Nat :=
  ((s.mod m).regions.map (·.1)).filter (fun i => !(waitingGrids s m i).isEmpty && !awaitsResume s m i)

/-- GROUP_PLACE (R50, R51): the dispatcher places one group. Resumed groups of a region come before its groups not yet placed (R54). -/
def execGroupPlace (m : Nat) (s : State) : Host.Outcome State Fault Refusal :=
  let regions := (s.mod m).regions.map (·.1)
  let s := regions.foldl (fun t i => settleRequest m i t) s
  let rs := servable s m
  .next (regions.foldl (fun t i => noteWaiting m i t) (offer m (regionOrder s m rs.length rs) s))

/-- A region of higher effective priority has a group that the dispatcher could place now: it is served first (R50). -/
def higherFirst (s : State) (m region : Nat) : Bool :=
  (servable s m).any (fun i => decide (effPrio s m i > effPrio s m region)
    && (waitingGrids s m i).any (fun e => (placeNext m e.1 s).isSome))

/-- GRID_DEPENDENCY_MET (R44, R45, R53): a grid leaves WAITING; its distribution counter is 0 (R339). A persistent one leaves only when all its
groups can be placed at once, and they are; groups of its region that wait to resume, and regions of higher effective priority, come first
(R50, R54). -/
def execGridDependencyMet (m grid : Nat) (s : State) : Host.Outcome State Fault Refusal :=
  match mget? (s.mod m).grids grid with
  | none => .next s
  | some x =>
    if x.state ≠ .waiting ∨ x.status ≠ 0 ∨ dependencyMet s m x = false ∨ earlierDispatched s m x = false then .next s
    else
      let t := updGrid m grid (fun y => { y with state := .dispatching, dist := 0 }) s
      if !x.launch.persistent then .next t
      else if awaitsResume s m x.launch.region || higherFirst s m x.launch.region then .next s
      else .next ((placeAll m grid x.launch.ngroups t).getD s)

/-- PRIORITY_AGING (R66): a region that has waited for 10 ms rises by one level, up to the cap; a region that no longer waits falls back. -/
def execPriorityAging (m region : Nat) (s : State) : Host.Outcome State Fault Refusal :=
  let s := noteWaiting m region s
  match mget? (s.mod m).regions region with
  | none => .next s
  | some r =>
    match r.waitSince with
    | none => .next s
    | some t =>
      if s.ticks - t < 160000000 then .next s
      else
        let cap := agingCap s m (rootOf s m region) region
        let up := if effPrio s m region < cap then r.raised + 1 else r.raised
        .next (updRegion m region (fun y => { y with raised := up, waitSince := some s.ticks }) s)

end Sys2Proof.Machine
end

