-- ==== Sys2Proof/Machine/Drover.lean ====
section
/-! DEFINITION. The Drovers: the issue of runs (spec/02 R56, R61 to R63), the active and pending sets (R64), the deadlock counter (13 R301) and
the decoupling counters (R302). -/

namespace Sys2Proof.Machine

open Sys2Proof

/-! ### The Drover (R61 to R64) -/

/-- A slice-warp that a port holds. -/
structure Held where
  gid : Nat
  g : Group
  warp : Nat
deriving DecidableEq, Repr

/-- The slice-warps resident on a port that have threads left, in groups that run. -/
def residentSws (s : State) (p : Port) : List Held :=
  (s.core p.core).groups.flatMap (fun gid =>
    match mget? s.groups gid with
    | none => []
    | some g =>
      if g.phase == .running && (g.launch.decoupled || p.slice == .execute) then
        ((upFrom 0 g.launch.warps).filter (fun w => !swExited s gid w p.slice g.launch)).map (fun w => ⟨gid, g, w⟩)
      else [])

/-- A slice-warp with the verdicts of its PC groups. -/
structure Seen where
  h : Held
  sw : SliceWarp
  prio : Nat
  groups : List (PcGroup × Verdict)
deriving DecidableEq, Repr

/-- The slice-warps of a port as the Drover sees them. -/
def survey (s : State) (p : Port) : List Seen :=
  (residentSws s p).map (fun h =>
    ⟨h, s.sw (swKey h.gid h.warp p.slice), effPrio s h.g.m h.g.region,
      (pcGroups s h.gid h.g h.warp p.slice).map (fun pg => (pg, verdict s p.core h.gid h.g h.warp p.slice pg))⟩)

/-- A slice-warp is ready: one of its PC groups is (R63). -/
def Seen.isReady (x : Seen) : Bool := x.groups.any (fun g => g.2.issues)

/-- The PC group that a slice-warp issues: the least recent, among equals the threads that did not branch (R61). -/
def Seen.pick (x : Seen) : Option (PcGroup × Verdict) :=
  argMin (fun g => g.1.last * 2 ^ 16 + g.1.rank) (x.groups.filter (fun g => g.2.issues))

/-- Every meeting and warp barrier of a port's slice-warps is tested (R192). -/
def settlePort (p : Port) (s : State) : State :=
  (residentSws s p).foldl (fun t h => settle h.gid h.warp p.slice t) s

/-- A port with room in its active set takes slice-warps into it (R63, R64). Which of them is the model's choice: the longest pending first,
whatever its priority and ready or not (log 16). -/
def fillActive : Nat → Port → State → State
  | 0, _, s => s
  | k + 1, p, s =>
    let sws := residentSws s p
    let key := fun (h : Held) => swKey h.gid h.warp p.slice
    let act := sws.filter (fun h => (s.sw (key h)).active)
    if act.length ≥ 8 then s
    else
      match argMin (fun h => (s.sw (key h)).pendSince) (sws.filter (fun h => !(s.sw (key h)).active)) with
      | none => s
      | some h => fillActive k p (updSw (key h) (fun x => { x with active := true }) s)

/-- Slice-warps note since when they have been ready without issuing (R64, R66), and their regions since when they have been waiting. -/
def noteReady (p : Port) (xs : List Seen) (s : State) : State :=
  let s := xs.foldl (fun t x => updSw (swKey x.h.gid x.h.warp p.slice) (fun y =>
      { y with readySince := if x.isReady then some (y.readySince.getD s.ticks) else none }) t) s
  (dedupe ((xs.filter (·.isReady)).map (fun x => x.h.g.m * 4096 + x.h.g.region))).foldl (fun t r => noteWaiting (r / 4096) (r % 4096) t) s

/-- Walks begin for the code that a port's slice-warps miss. -/
def startFetches (p : Port) (xs : List Seen) (s : State) : State :=
  xs.foldl (fun t x => x.groups.foldl (fun t g =>
    match g.2 with
    | .stop (.miss va) => startWalk p.core x.h.g.m x.h.g.root va t
    | _ => t) t) s

/-- A fault of fetch or decode at a run's header (R117): none of the run's words issues. -/
def runFault (p : Port) (h : Held) (pg : PcGroup) (e : RunStop) (s : State) : State :=
  let s := updCore p.core (fun k => { k with walkFaults := k.walkFaults.filter (fun w => w.1 != rootKey h.g.m h.g.root) }) s
  let at_ := fun (c : Cause) (addr detail : Nat) =>
    takeFault ⟨c, h.gid, h.warp, p.slice.code, 0xFF, true, pg.pc.toNat, none, addr, detail⟩ s
  match e with
  | .miss _ => s
  | .bad c va d => at_ c va d
  | .reason r w => at_ .runFormat pg.pc.toNat (r + w.toNat * 2 ^ 32)

/-- A run begins to issue (R56, R61, R330): its entries are reserved, its threads and slice-warp have issued now, the deadlock counter of
its pair returns to zero. A thread whose pass at the position was done before a save does not execute the instruction again (R145, R411). -/
def beginRun (p : Port) (h : Held) (pg : PcGroup) (r : RunWords) (s : State) : State :=
  let k := swKey h.gid h.warp p.slice
  let n := (s.core p.core).issueNo + 1
  let (seq, s) := freshId s
  let s := (upFrom 0 (1 + r.words.length + r.trailers.length)).foldl (fun t i => fillFetch p.core h.g (pg.pc.toNat + 4 * i) t) s
  let s := updCore p.core (fun c => { c with issueNo := n }) s
  let s := bumpCounter p.core (match p.slice with | .access => 1 | .execute => 2) 1 s
  let skip := laneSet (pg.lanes.filter (fun l => (s.thread (thKey k l)).passDone))
  let s := pg.lanes.foldl (fun t l => updTh (thKey k l) (fun th =>
    { th with lastIssue := n, splitRank := 0, pos := none, passDone := false }) t) s
  let s := updSw k (fun x => { x with lastIssue := n, readySince := none }) s
  let s := { s with deadlock := mdel s.deadlock (pairKey h.gid h.warp), free := s.free + 1 }
  let at_ := pg.pos.getD 0
  let posts := postsOf ((runInstrs 25 0 r.words).filter (fun i => decide (i.1 ≥ at_)))
  noteWaiting h.g.m h.g.region
    (setPort p (some ⟨h.gid, h.warp, p.slice, laneSet pg.lanes, pg.pc, r.header, r.words, at_, r.trailers, seq, 0, skip, posts⟩) s)

/-- A queue wait of a slice that R301 counts: the queue is open, its consumer has not exited, and it has no free entry, or no entry present
(of a dq, none PENDING either). -/
def stuckOn (s : State) (gid warp : Nat) (l : Launch) (w : QWait) : Bool :=
  let y := s.queueNow (qKey gid warp w.lane w.q)
  !y.closed && !(s.thread (thKey (swKey gid warp (consumerOf w.q)) w.lane)).exited
    && (if w.pop then (if w.q ≤ 91 then y.entries.isEmpty else decide (presentEntries y = 0)) else decide (y.entries.length ≥ l.queueCap w.q))

/-- What a slice of a pair waits for, when it waits for queues alone (R301). -/
def sliceStuck (s : State) (gid : Nat) (g : Group) (warp : Nat) (sl : Slice) : Option QWait :=
  let vs := (pcGroups s gid g warp sl).map (verdict s g.core gid g warp sl)
  if vs.any (·.issues) then none
  else vs.findSome? (fun v => match v with
    | .blocked false false false qs => if qs.all (stuckOn s gid warp g.launch) then qs.head? else none
    | _ => none)

/-- Both slices of a pair wait for each other's queues (R301). -/
def pairStuck (s : State) (gid : Nat) (g : Group) (warp : Nat) : Option (QWait × QWait) :=
  match sliceStuck s gid g warp .access, sliceStuck s gid g warp .execute with
  | some a, some x => some (a, x)
  | _, _ => none

/-- The cycles that the deadlock counter of a pair has counted (R301). -/
def deadlockCount (s : State) (k : Nat) : Nat :=
  match mget? s.deadlock k with
  | some (n, some since) => n + (s.ticks - since) / 8
  | some (n, none) => n
  | none => 0

/-- The deadlock counters of a port's warp pairs count on, or pause (R301). -/
def noteDeadlock (p : Port) (s : State) : State :=
  (residentSws s p).foldl (fun t h =>
    if !h.g.launch.decoupled then t
    else
      let k := pairKey h.gid h.warp
      let n := deadlockCount t k
      match pairStuck t h.gid h.g h.warp with
      | some _ => { t with deadlock := mput t.deadlock k (n, some t.ticks) }
      | none => { t with deadlock := if n = 0 then mdel t.deadlock k else mput t.deadlock k (n, none) }) s

/-- The decoupling counters that a slice-warp's wait advances (R302): 4 LODCYC, 5 SLIPCYC, 6 DRYCYC. A slice-warp with a ready PC group does not
wait. -/
def Seen.counts (x : Seen) (sl : Slice) : List Nat :=
  let ws := if x.isReady then [] else x.groups.flatMap (fun g => match g.2 with | .blocked _ _ _ qs => qs | _ => [])
  match sl with
  | .access => (if ws.any (·.lod) then [4] else []) ++ (if ws.any (fun w => !w.pop && decide (w.q ≤ 91)) then [5] else [])
  | .execute => if ws.any (fun w => w.pop && decide (w.q ≤ 91)) then [6] else []

/-- The decoupling counters count the cycles of each slice-warp's wait up to now, whatever the port issues meanwhile (R298, R302). -/
def noteDecoupling (p : Port) (xs : List Seen) (s : State) : State :=
  xs.foldl (fun t x =>
    let k := swKey x.h.gid x.h.warp p.slice
    let y := t.sw k
    let t := y.counting.foldl (fun u i => bumpCounter p.core i (t.ticks / 8 - y.countedTo / 8) u) t
    updSw k (fun z => { z with counting := x.counts p.slice, countedTo := t.ticks }) t) s

/-- RUN_ISSUE (R56 to R63): at a run boundary the Drover issues a run of the ready active slice-warp of the highest effective priority, the
least recent among equals. Among those that have never issued the model takes the first in group and warp order (log 16). With none ready, a
cycle passes. -/
def execRunIssue (core : Nat) (slice : Slice) (s : State) : Host.Outcome State Fault Refusal :=
  let p : Port := ⟨core, slice⟩
  if (s.portRun p).isSome || (s.core core).dead then .next { s with ticks := s.ticks + 8 }
  else
    let s := fillActive 8 p (settlePort p s)
    let xs := survey s p
    let s := noteDeadlock p (noteDecoupling p xs (startFetches p xs (noteReady p xs s)))
    match argMin (fun x => (1000 - x.prio) * 2 ^ 64 + x.sw.lastIssue) (xs.filter (fun x => x.sw.active && x.isReady)) with
    | none => .next { s with ticks := s.ticks + 8 }
    | some x =>
      match x.pick with
      | some (pg, .ready r) => .next (beginRun p x.h pg r s)
      | some (pg, .stop e) => .next (runFault p x.h pg e s)
      | _ => .next s

/-- A wait that counts as a long-latency stall (R63): for a tag, a barrier, a counter, an address or time. -/
def longWait : Wait → Bool
  | .bar _ => true
  | .barw _ => true
  | .tags _ _ => true
  | .waitaRead _ => true
  | .waita _ _ => true
  | .cwait _ _ => true
  | .sleep _ => true
  | _ => false

/-- A slice-warp is in a long-latency stall (R63, R261): nothing of it is ready, for a register, a queue, a fence or a wait. -/
def Seen.stalled (s : State) (p : Port) (x : Seen) : Bool :=
  !x.isReady && (x.groups.any (fun g => match g.2 with | .blocked _ _ _ _ => true | _ => false)
    || (waiting? s x.h.gid x.h.warp p.slice longWait).isSome)

/-- Two slice-warps of a port change sets (R64): latches are not preserved across the swap. -/
def swapSws (p : Port) (out into : Held) (s : State) : State :=
  let ko := swKey out.gid out.warp p.slice
  let s := (upFrom 0 out.g.launch.visible).foldl (fun t l =>
    updTh (thKey ko l) (fun th => { th with latch := [], latchUni := [] }) t) s
  let s := updSw ko (fun x => { x with active := false, pendSince := s.ticks, readySince := none }) s
  bumpCounter p.core 3 1 (updSw (swKey into.gid into.warp p.slice) (fun x => { x with active := true }) s)

/-- The pending slice-warp that a swap takes: ready, of the highest effective priority, pending longest (R64). -/
def swapIn (xs : List Seen) : Option Seen :=
  argMin (fun x => (1000 - x.prio) * 2 ^ 64 + x.sw.pendSince) (xs.filter (fun x => !x.sw.active && x.isReady))

/-- DROVER_SWAP (R64): an active slice-warp in a long-latency stall gives way to a ready pending one. Of several that stall, the model takes the
one that issued least recently (log 16). -/
def execDroverSwap (core : Nat) (slice : Slice) (s : State) : Host.Outcome State Fault Refusal :=
  let p : Port := ⟨core, slice⟩
  if (s.portRun p).isSome then .next s
  else
    let xs := survey s p
    match argMin (fun x => x.sw.lastIssue) (xs.filter (fun x => x.sw.active && x.stalled s p)), swapIn xs with
    | some a, some b => .next (swapSws p a.h b.h s)
    | _, _ => .next s

/-- PENDING_LONG_WAIT (R64): a pending slice-warp ready for 1,024 cycles replaces the active one that issued least recently, unless that one
has a higher effective priority. -/
def execPendingLongWait (core : Nat) (slice : Slice) (s : State) : Host.Outcome State Fault Refusal :=
  let p : Port := ⟨core, slice⟩
  if (s.portRun p).isSome then .next s
  else
    let xs := survey s p
    let waited := fun (x : Seen) => match x.sw.readySince with | some t => decide (s.ticks - t ≥ 8192) | none => false
    match argMin (fun x => x.sw.lastIssue) (xs.filter (·.sw.active)), swapIn (xs.filter waited) with
    | some a, some b => if a.prio > b.prio then .next s else .next (swapSws p a.h b.h s)
    | _, _ => .next s

/-- Entries present in a queue of a lane (R296). -/
def queueLevel (s : State) (gid warp lane q : Nat) : Nat := presentEntries (s.queueNow (qKey gid warp lane q))

/-- DECOUPLE_DEADLOCK (R301): both slices of a pair have waited for each other's queues for 65,536 cycles. -/
def execDecoupleDeadlock (gid warp : Nat) (s : State) : Host.Outcome State Fault Refusal :=
  match mget? s.groups gid with
  | none => .next s
  | some g =>
    if g.phase ≠ .running ∨ deadlockCount s (pairKey gid warp) < 65536 then .next s
    else
      match pairStuck s gid g warp with
      | none => .next s
      | some (a, x) =>
        let lane := Nat.min a.lane x.lane
        let detail := lane + a.q * 2 ^ 8 + queueLevel s gid warp lane a.q * 2 ^ 16 + x.q * 2 ^ 24 + queueLevel s gid warp lane x.q * 2 ^ 32
        .next (takeFault ⟨.decoupleDeadlock, gid, warp, 1, lane, false, standingPc s g gid warp .execute,
          some (standingPc s g gid warp .access), 0, detail⟩ s)

end Sys2Proof.Machine
end

