-- ==== Sys2Proof/Machine/Image.lean ====
section
/-! DEFINITION. The context image as bytes: its header and seven sections (spec/17 R410, R411), read and written field by field (R414). -/

namespace Sys2Proof.Machine

open Sys2Proof

/-- A field of an image: what it holds. Keys are those of the group's slice-warps, threads and queues. -/
inductive Part where
  /-- Bytes that are zero and reserved. -/
  | reserved (n : Nat)
  /-- A value that the device alone writes. -/
  | fixed (n v : Nat)
  | fpflags (sw : Nat)
  | fpen (sw : Nat)
  | frm (sw : Nat)
  | mask (sw k : Nat)
  | uni (sw k : Nat)
  | uniPoison (sw : Nat)
  | pc (th : Nat)
  | mr (th : Nat)
  | latch (th k : Nat)
  | wb (th : Nat)
  | pos (th : Nat)
  | wait (th : Nat)
  | tflags (th : Nat)
  | pred (th : Nat)
  | reg (th code : Nat)
  /-- Poison bits of a thread with a budget of main registers. -/
  | poison (th budget : Nat)
  | queueHead (q : Nat)
  | entryValue (q i : Nat)
  | entryState (q i : Nat)
  | entryCause (q i : Nat)
  | entryAddr (q i : Nat)
  | entryPc (q i : Nat)
  /-- Field f of a barrier slot: EXPECT, COUNT, GEN, ARRIVED, KIND, MODE, TREE, LOST. -/
  | slot (b f : Nat)
  /-- VALID, and waiting in BAR, of a thread's arrival record. -/
  | arrFlags (b th : Nat)
  | arrGen (b th : Nat)
  | tag (n : Nat)
  /-- Field f of a COPY continuation: descriptor, bytes done, running CRC, tag. -/
  | copy (i f : Nat)
  /-- A byte of the scratchpad range. -/
  | spad (i : Nat)
  /-- A word of the accumulator bank. -/
  | bank (k : Nat)
deriving DecidableEq, Repr

/-- The bytes of poison bits of a thread: one bit per register, padded to 8 bytes. -/
def poisonBytes (budget : Nat) : Nat := alignUp (ceilDiv (budget + 16) 8) 8

/-- The size of a field in bytes. -/
def Part.size : Part → Nat
  | .reserved n => n
  | .fixed n _ => n
  | .fpflags _ => 1
  | .fpen _ => 1
  | .frm _ => 1
  | .mask _ _ => 8
  | .uni _ _ => 4
  | .uniPoison _ => 2
  | .pc _ => 8
  | .mr _ => 8
  | .latch _ _ => 8
  | .wb _ => 1
  | .pos _ => 1
  | .wait _ => 1
  | .tflags _ => 1
  | .pred _ => 4
  | .reg _ _ => 4
  | .poison _ b => poisonBytes b
  | .queueHead _ => 2
  | .entryValue _ _ => 4
  | .entryState _ _ => 1
  | .entryCause _ _ => 1
  | .entryAddr _ _ => 8
  | .entryPc _ _ => 8
  | .slot _ _ => 4
  | .arrFlags _ _ => 4
  | .arrGen _ _ => 4
  | .tag _ => 2
  | .copy _ f => if f = 3 then 1 else 4
  | .spad _ => 1
  | .bank _ => 4

/-- A slice-warp of an image. -/
def Image.sw (x : Image) (k : Nat) : SliceWarp := mget x.sws k SliceWarp.start
/-- A thread of an image. -/
def Image.thread (x : Image) (k : Nat) : Thread := mget x.threads k Thread.start
/-- A queue of an image. -/
def Image.queue (x : Image) (k : Nat) : Queue := mget x.queues k Queue.start
/-- A slot of an image. -/
def Image.slot (x : Image) (b : Nat) : Slot := slotOf x.group b

/-- WAIT codes (R411): 1 held, 2 in WAITM, 3 in BAR, 4 re-execute. -/
def waitCode : Wait → Nat
  | .none => 0
  | .held => 1
  | .waitm _ => 2
  | .bar _ => 3
  | _ => 4

/-- The state code of a queue entry (R295). -/
def QEntry.code : QEntry → Nat
  | .pending _ => 1
  | .coming _ _ => 1
  | .ready _ => 2
  | .faulted _ _ _ => 3
  | .poisoned => 4

/-- The number whose one bits are a set's members below n. -/
def bitsOfSet (m : NSet) (n : Nat) : Nat := (m.filter (· < n)).foldl (fun a i => a + 2 ^ i) 0

/-- The value of a field. -/
def Part.get (x : Image) : Part → Nat
  | .reserved _ => 0
  | .fixed _ v => v
  | .fpflags k => (x.sw k).fpflags.toNat
  | .fpen k => (x.sw k).fpen.toNat
  | .frm k => (x.sw k).frm.toNat
  | .mask k i => (mget (x.sw k).masks i 0).toNat
  | .uni k i => (mget (x.sw k).uni i 0).toNat
  | .uniPoison k => bitsOfSet (x.sw k).uniPoison 16
  | .pc k => (x.thread k).pc.toNat
  | .mr k => (x.thread k).mr.toNat
  | .latch k i => (mget (x.thread k).latch i 0).toNat
  | .wb k => (x.thread k).wb
  | .pos k => (x.thread k).pos.getD 0xFF
  | .wait k => waitCode (x.thread k).wait
  | .tflags k => b2n (x.thread k).exited + 2 * b2n (x.thread k).passDone
  | .pred k => (x.thread k).pred.toNat
  | .reg k c => (readCode (x.thread k) c).toNat
  | .poison k b =>
    let th := x.thread k
    bitsOfSet th.mainPoison b + bitsOfSet th.opndPoison 16 * 2 ^ b
  | .queueHead q => (x.queue q).entries.length + 256 * b2n (x.queue q).closed
  | .entryValue q i => match (x.queue q).entries[i]? with | some (.ready v) => v.toNat | _ => 0
  | .entryState q i => match (x.queue q).entries[i]? with | some e => e.code | none => 0
  | .entryCause q i => match (x.queue q).entries[i]? with | some (.faulted c _ _) => c.code | _ => 0
  | .entryAddr q i => match (x.queue q).entries[i]? with | some (.faulted _ a _) => a.toNat | _ => 0
  | .entryPc q i => match (x.queue q).entries[i]? with | some (.faulted _ _ p) => p.toNat | _ => 0
  | .slot b f =>
    let y := x.slot b
    (match f with
     | 0 => y.expect | 1 => y.count | 2 => y.gen.toNat | 3 => y.arrived.toNat | 4 => y.kind | 5 => b2n y.fabric | 6 => y.tree | _ => b2n y.lost)
  | .arrFlags b k => b2n (mget? (x.thread k).arr b).isSome + 256 * b2n ((x.thread k).wait == .bar b)
  | .arrGen b k => (mget (x.thread k).arr b 0).toNat
  | .tag n => mget x.group.tags n 0
  | .copy i f =>
    (match x.copies[i]? with
     | none => 0
     | some c => (match f with | 0 => c.desc | 1 => c.done.out | 2 => c.done.crc.getD 0 | _ => c.tag))
  | .spad i => (nthD 0 x.spad i).toNat
  | .bank k => (mget x.bank k 0).toNat

/-- The keys of a group's threads in section 0 order. -/
def imageThreads (gid : Nat) (l : Launch) : List (Nat × Slice × Nat) :=
  (swsOf l).flatMap (fun p => (threadsOf gid p.1 p.2 l).map (fun k => (p.1, p.2, k)))

/-- Section 0: slice-warp records. -/
def section0 (gid : Nat) (l : Launch) : List Part :=
  (swsOf l).flatMap (fun p =>
    let k := swKey gid p.1 p.2
    [.fixed 1 p.1, .fixed 1 p.2.code, .fixed 2 0, .fpflags k, .fpen k, .frm k, .reserved 1]
    ++ (upFrom 0 12).map (.mask k) ++ (upFrom 0 16).map (.uni k) ++ [.uniPoison k, .reserved 342]
    ++ (threadsOf gid p.1 p.2 l).flatMap (fun t =>
      [.pc t, .mr t] ++ (upFrom 0 8).map (.latch t) ++ [.wb t, .pos t, .wait t, .tflags t, .pred t, .reserved 8]))

/-- Section 1: main registers, operand registers and poison bits. -/
def section1 (gid : Nat) (l : Launch) : List Part :=
  (imageThreads gid l).flatMap (fun t =>
    let b := l.budget t.2.1
    (upFrom 0 b).map (.reg t.2.2) ++ (upFrom 256 16).map (.reg t.2.2) ++ [.poison t.2.2 b])

/-- The keys of a group's slice queues: per warp pair, lane, then dq0 to dq3, sq0, sq1, cq. A coupled grid has none. -/
def imageQueues (gid : Nat) (l : Launch) : List (Nat × Nat × Nat × Nat) :=
  if !l.decoupled then []
  else
    (upFrom 0 l.warps).flatMap (fun w => (upFrom 0 l.visible).flatMap (fun ln =>
      queueNames.map (fun q => (w, ln, q, qKey gid w ln q))))

/-- Section 2: slice queues. -/
def section2 (gid : Nat) (l : Launch) : List Part :=
  (imageQueues gid l).flatMap (fun q =>
    [.queueHead q.2.2.2, .reserved 6]
    ++ (upFrom 0 16).flatMap (fun i => [.entryValue q.2.2.2 i, .entryState q.2.2.2 i, .reserved 3]))

/-- The FAULTED entries of an image: warp, lane, queue, key and index. -/
def faultedEntries (gid : Nat) (x : Image) : List (Nat × Nat × Nat × Nat × Nat) :=
  (imageQueues gid x.group.launch).flatMap (fun q =>
    ((upFrom 0 16).filter (fun i => match (x.queue q.2.2.2).entries[i]? with | some (.faulted _ _ _) => true | _ => false)).map
      (fun i => (q.1, q.2.1, q.2.2.1, q.2.2.2, i)))

/-- Section 3: FAULTED entry details. -/
def section3 (gid : Nat) (x : Image) : List Part :=
  (faultedEntries gid x).flatMap (fun e =>
    [.fixed 1 e.1, .fixed 1 e.2.1, .fixed 1 e.2.2.1, .fixed 1 e.2.2.2.2, .entryCause e.2.2.2.1 e.2.2.2.2, .reserved 3,
      .entryAddr e.2.2.2.1 e.2.2.2.2, .entryPc e.2.2.2.1 e.2.2.2.2, .reserved 8])

/-- Section 4: barrier slots; the eight fields of R379 take four bytes each. -/
def section4 (gid : Nat) (l : Launch) : List Part :=
  (upFrom 0 l.bars).flatMap (fun b =>
    (upFrom 0 8).map (.slot b) ++ (imageThreads gid l).flatMap (fun t => [.arrFlags b t.2.2, .arrGen b t.2.2]))

/-- Section 5: tags and COPY continuations. -/
def section5 (x : Image) : List Part :=
  (upFrom 0 64).map .tag
  ++ (upFrom 0 x.copies.length).flatMap (fun i => [.copy i 0, .copy i 1, .copy i 2, .copy i 3, .reserved 3])

/-- Section 6: the scratchpad range, then the bank units of the group. -/
def section6 (x : Image) : List Part :=
  (upFrom 0 x.group.launch.spad).map .spad
  ++ x.group.acc.flatMap (fun u => (upFrom (128 * u) 128).map .bank)

/-- The sections of an image with their entry counts. -/
def imageSections (gid : Nat) (x : Image) : List (List Part × Nat) :=
  let l := x.group.launch
  [(section0 gid l, (swsOf l).length), (section1 gid l, (imageThreads gid l).length), (section2 gid l, (imageQueues gid l).length),
    (section3 gid x, (faultedEntries gid x).length), (section4 gid l, l.bars), (section5 x, x.copies.length),
    (section6 x, x.group.acc.length)]

/-- The size of some fields. -/
def partsSize (ps : List Part) : Nat := ps.foldl (fun n p => n + p.size) 0

/-- The section table of a header: OFFSET, SIZE, COUNT and four reserved bytes each. -/
def sectTable : Nat → List (List Part × Nat) → List Part
  | _, [] => []
  | off, (ps, n) :: rest =>
    let k := partsSize ps
    [.fixed 4 off, .fixed 4 k, .fixed 4 n, .reserved 4] ++ sectTable (off + k) rest

/-- The fields of an image, header first (R410). -/
def imageParts (gid : Nat) (x : Image) : List Part :=
  let secs := imageSections gid x
  let body := secs.flatMap (·.1)
  let g := x.group
  let l := g.launch
  let (fseq, fcore) := match g.halt with | some (_, q, c, _, _) => (q, c) | none => (0, 0)
  [.fixed 2 1, .fixed 2 (b2n x.forced + 2 * b2n x.halted + 4 * b2n x.debug), .fixed 4 (256 + partsSize body), .fixed 4 g.grid,
    .fixed 4 g.index, .fixed 2 g.region, .fixed 1 x.key, .fixed 1 l.width, .fixed 1 l.warps, .fixed 1 x.member, .fixed 1 (swsOf l).length,
    .fixed 1 l.bars, .fixed 4 g.spadOff, .fixed 4 l.spad, .fixed 32 (bitsOfSet g.acc 256), .fixed 4 fseq, .fixed 2 fcore, .reserved 2,
    .fixed 8 x.stamp, .reserved 48]
  ++ sectTable 256 secs ++ [.reserved 16] ++ body

/-- An image as bytes. -/
def imageBytes (gid : Nat) (x : Image) : List Byte := (imageParts gid x).flatMap (fun p => bytesLE p.size (p.get x))

/-! ### Writes by a debugger (R132, R304, R414) -/

/-- Change a slice-warp of an image. -/
def Image.putSw (x : Image) (k : Nat) (f : SliceWarp → SliceWarp) : Image := { x with sws := mput x.sws k (f (x.sw k)) }
/-- Change a thread of an image. -/
def Image.putTh (x : Image) (k : Nat) (f : Thread → Thread) : Image := { x with threads := mput x.threads k (f (x.thread k)) }
/-- Change a queue entry of an image. -/
def Image.putEntry (x : Image) (q i : Nat) (f : QEntry → QEntry) : Image :=
  match (x.queue q).entries[i]? with
  | none => x
  | some e => { x with queues := mput x.queues q { x.queue q with entries := setNth (x.queue q).entries i (f e) } }

/-- The set of the one bits of a number below n. -/
def setOfBits (v n : Nat) : NSet := (upFrom 0 n).filter (bitOf v)

/-- A write of a field, or none when it is refused: reserved and device-written bytes keep their value, a latch is writable only in a forced
save, entry counts and CLOSED do not change. -/
def Part.put (x : Image) (p : Part) (v : Nat) : Option Image :=
  match p with
  | .reserved _ => none
  | .fixed _ w => if v = w then some x else none
  | .fpflags k => some (x.putSw k (fun y => { y with fpflags := BitVec.ofNat 5 v }))
  | .fpen k => some (x.putSw k (fun y => { y with fpen := BitVec.ofNat 5 v }))
  | .frm k => some (x.putSw k (fun y => { y with frm := BitVec.ofNat 2 v }))
  | .mask k i => some (x.putSw k (fun y => { y with masks := mput y.masks i (BitVec.ofNat 64 (v % 2 ^ x.group.launch.visible)) }))
  | .uni k i => some (x.putSw k (fun y => { y with uni := mput y.uni i (BitVec.ofNat 32 v), uniPoison := sdel y.uniPoison i }))
  | .uniPoison k => some (x.putSw k (fun y => { y with uniPoison := setOfBits v 16 }))
  | .pc k => some (x.putTh k (fun y => { y with pc := BitVec.ofNat 64 v }))
  | .mr k => some (x.putTh k (fun y => { y with mr := BitVec.ofNat 64 (v - bitsOf v 1 1 * 2) }))
  | .latch k i => if x.forced then some (x.putTh k (fun y => { y with latch := mput y.latch i (BitVec.ofNat 64 v) })) else none
  | .wb k => some (x.putTh k (fun y => { y with wb := v % 16 }))
  | .pos k => some (x.putTh k (fun y => { y with pos := if v = 0xFF then none else some (v % 32) }))
  | .wait k =>
    let w := (x.thread k).wait
    some (if v = waitCode w ∨ v = 3 then x else x.putTh k (fun y => { y with wait := if v = 1 then .held else .none }))
  | .tflags k => some (x.putTh k (fun y => { y with exited := bitOf v 0, passDone := bitOf v 1 }))
  | .pred k => some (x.putTh k (fun y => { y with pred := BitVec.ofNat 24 v }))
  | .reg k c => some (x.putTh k (writeCode c (BitVec.ofNat 32 v)))
  | .poison k b => some (x.putTh k (fun y => { y with mainPoison := setOfBits v b, opndPoison := setOfBits (v / 2 ^ b) 16 }))
  | .queueHead q => if v = (Part.queueHead q).get x then some x else none
  | .entryValue q i =>
    if i < (x.queue q).entries.length then some (x.putEntry q i (fun _ => .ready (BitVec.ofNat 32 v))) else if v = 0 then some x else none
  | .entryState q i =>
    if v = (Part.entryState q i).get x then some x
    else if i < (x.queue q).entries.length then
      (if v = 2 then some (x.putEntry q i (fun _ => .ready 0)) else if v = 4 then some (x.putEntry q i (fun _ => .poisoned)) else none)
    else none
  | .entryCause q i => if v = (Part.entryCause q i).get x then some x else none
  | .entryAddr q i =>
    some (x.putEntry q i (fun e => match e with | .faulted c _ p => .faulted c (BitVec.ofNat 64 v) p | e => e))
  | .entryPc q i =>
    some (x.putEntry q i (fun e => match e with | .faulted c a _ => .faulted c a (BitVec.ofNat 64 v) | e => e))
  | .slot b f =>
    let y := x.slot b
    let z := match f with
      | 0 => { y with expect := v % 8192 } | 1 => { y with count := v % 8192 } | 2 => { y with gen := BitVec.ofNat 32 v }
      | 3 => { y with arrived := BitVec.ofNat 32 v } | 4 => { y with kind := v % 2 } | 5 => { y with fabric := bitOf v 0 }
      | 6 => { y with tree := v % 256 } | _ => { y with lost := bitOf v 0 }
    some { x with group := { x.group with slots := mput x.group.slots b z } }
  | .arrFlags b k =>
    some (x.putTh k (fun y => { y with arr := if bitOf v 0 then mput y.arr b (mget y.arr b 0) else mdel y.arr b }))
  | .arrGen b k =>
    some (x.putTh k (fun y => { y with arr := if (mget? y.arr b).isSome then mput y.arr b (BitVec.ofNat 32 v) else y.arr }))
  | .tag n => some { x with group := { x.group with tags := if v = 0 then mdel x.group.tags n else mput x.group.tags n v } }
  | .copy i f =>
    (match x.copies[i]? with
     | none => none
     | some c =>
       let put := fun (d : CopyOp) => some { x with copies := setNth x.copies i d }
       if f = 0 then put { c with desc := v }
       else if f = 1 then put { c with done := { c.done with
         out := v, unit := if c.done.out = 0 then v / 16 else v * c.done.unit / c.done.out } }
       else if f = 2 then put { c with done := { c.done with crc := some v } }
       else put { c with tag := v % 64 })
  | .spad i => some { x with spad := setNth x.spad i (BitVec.ofNat 8 v), spadPoison := sdel x.spadPoison (i / 8 * 8) }
  | .bank k => some { x with bank := if v = 0 then mdel x.bank k else mput x.bank k (BitVec.ofNat 32 v) }

/-- The bytes of a field that stands at pos with those of a write at offset o put in their place. -/
def patched (x : Image) (p : Part) (pos o : Nat) (data : List Byte) : Nat :=
  ofBytesLE ((bytesLE p.size (p.get x)).zip (upFrom pos p.size) |>.map (fun b =>
    if o ≤ b.2 ∧ b.2 < o + data.length then nthD 0 data (b.2 - o) else b.1))

/-- A write of bytes at an offset into the fields from a position on: none when some field refuses it. -/
def writeParts (o : Nat) (data : List Byte) : Nat → List Part → Image → Option Image
  | _, [], x => some x
  | pos, p :: ps, x =>
    if overlaps pos p.size o data.length then
      match p.put x (patched x p pos o data) with
      | none => none
      | some y => writeParts o data (pos + p.size) ps y
    else writeParts o data (pos + p.size) ps x

end Sys2Proof.Machine
end

