-- ==== Sys2Proof/Machine/Record.lean ====
section
/-! DEFINITION. Launch records: their fields, the checks made before a grid is accepted, and acceptance (spec/02 R42 to R44; 03 R84). -/

namespace Sys2Proof.Machine

open Sys2Proof

/-- A launch record from its 128 bytes (R42). -/
def launchOf (bs : List Byte) : Launch :=
  { code := fieldLE bs 0 8, aentry := fieldLE bs 8 4, xentry := fieldLE bs 0x0C 4, ngroups := fieldLE bs 0x10 4
    warps := fieldLE bs 0x14 1, width := fieldLE bs 0x15 1, aregs := fieldLE bs 0x16 1, xregs := fieldLE bs 0x17 1
    spad := fieldLE bs 0x18 4, bars := fieldLE bs 0x1C 1, slip := fieldLE bs 0x1D 1, flags := fieldLE bs 0x1E 2
    argp := fieldLE bs 0x20 8, region := fieldLE bs 0x28 2, done := fieldLE bs 0x30 8
    slots := (upFrom 0 8).map (fun i => BitVec.ofNat 64 (fieldLE bs (0x40 + 8 * i) 8)) }

/-- A format slot that R84 rejects. -/
def slotBad (v : Nat) : Bool :=
  decide (bitsOf v 3 0 ≥ 8) || decide (bitsOf v 7 4 ≥ 8) || decide (bitsOf v 13 10 ≥ 8) || decide (bitsOf v 9 8 ≥ 2)
  || bitsOf v 15 14 == 3 || bitsOf v 17 16 == 3 || bitsOf v 63 22 != 0 || (bitsOf v 13 10 == 2 && bitsOf v 19 18 != 0)

/-- BAD_FIELD (R42, R43): a field outside its limits, a nonzero reserved byte or bit, a bad slot, a misaligned DONE. -/
def recordBad (bs : List Byte) : Bool :=
  let l := launchOf bs
  decide (l.code ≥ 2 ^ 57) || l.code % 128 != 0 || (!l.decoupled && l.aentry != 0) || decide (l.ngroups < 1)
  || decide (l.warps < 1) || decide (l.warps > 16) || decide (l.width > 2)
  || (if l.decoupled then decide (l.aregs < 1) || decide (l.aregs > 16) else l.aregs != 0)
  || decide (l.xregs < 1) || decide (l.xregs > 16) || l.spad % 256 != 0 || decide (l.spad > 0x100000) || decide (l.bars > 32)
  || (l.decoupled && (decide (l.slip < 1) || decide (l.slip > 16))) || decide (l.flags ≥ 64)
  || fieldLE bs 0x2A 6 != 0 || fieldLE bs 0x38 8 != 0 || (l.done != 0 && l.done % 8 != 0)
  || l.slots.any (fun v => slotBad v.toNat)

/-- BAD_REGION (R43): no live node, a node outside the root, or for a kernel neither its own region nor a descendant. -/
def regionBad (s : State) (m root region : Nat) (who : Poster) : Bool :=
  let up := lineage s m 8 region
  (mget? (s.mod m).regions region).isNone || !up.contains root
  || (match who with
      | .host => false
      | .kernel r => !up.contains r
      | .lgrid r _ => !up.contains r)

/-- How many groups of a launch an empty core of a region's budget holds (R47). -/
def groupsPerCore (s : State) (m region : Nat) (l : Launch) : Nat :=
  let per := fun (cap need : Nat) => if need = 0 then l.ngroups else cap / need
  let lims := (lineage s m 8 region).map (fun a =>
    Nat.min (per (effective s m 1 a (·.spadlim)) l.spad) (per (effective s m 3 a (·.barlim)) l.bars))
  lims.foldl Nat.min
    (Nat.min (per Config.portThreads l.threads) (Nat.min (per Config.operandFile l.operandBytes) (Nat.min (per Config.mainFile l.mainBytes)
      (Nat.min (per Config.spadBytes l.spad) (per 32 l.bars)))))

/-- NO_FIT (R43): no window of the budget could ever hold one group; for a persistent grid, not all its groups at once. -/
def noFit (s : State) (m root region : Nat) (l : Launch) : Bool :=
  let ks := dedupe ((windowsOf s m root region).filterMap (fun w => match w.core with
    | some k => if coreHosts s m region k then some k else none
    | none => none))
  let n := ks.length * groupsPerCore s m region l
  n == 0 || (l.persistent && decide (n < l.ngroups))

/-- The first check of R43 that a record fails: its status, or 0. -/
def launchStatus (s : State) (m root : Nat) (who : Poster) (bs : List Byte) : Nat :=
  let l := launchOf bs
  if recordBad bs then 0x01
  else if regionBad s m root l.region who then 0x02
  else if noFit s m root l.region l then 0x03
  else 0

/-- A handle that no grid of the module that is not FINISHED has, and never 0 (R44). -/
def freshHandle (x : ModSt) : Nat → Nat → Nat
  | 0, h => h
  | n + 1, h =>
    let h := if h = 0 ∨ h ≥ 2 ^ 32 then 1 else h
    match mget? x.grids h with
    | some g => if g.state = .finished then h else freshHandle x n (h + 1)
    | none => h

/-- Accept a grid (R44): it is WAITING, with a handle. -/
def acceptGrid (m root : Nat) (queue pred : Option Nat) (l : Launch) (handlerFor : Option (Nat × Nat)) (s : State) : Nat × State :=
  let x := s.mod m
  let h := freshHandle x (x.grids.length + 2) x.nextHandle
  let (post, s) := freshId s
  let g : Grid :=
    { launch := l, root := root, queue := queue, pred := pred, post := post, state := .waiting, status := 0, placed := 0, ended := 0
      triggered := [], gone := [], dist := 0, retries := 0, log := [], handlerFor := handlerFor }
  (h, updMod m (fun y => { y with grids := mput y.grids h g, nextHandle := h + 1 }) s)

/-- Read a launch record: none when it cannot be read. -/
def readRecord (s : State) (m root va : Nat) : Option (List Byte) := if va % 128 ≠ 0 then none else readVa s m root va 128

end Sys2Proof.Machine
end

