-- ==== Sys2Proof/Machine/Save.lean ====
section
/-! DEFINITION. Halting, draining, saving and resuming groups (spec/17 R399, R400, R405 to R413), handler grids, and the commit of a staged
grid (R419). -/

namespace Sys2Proof.Machine

open Sys2Proof

/-! ### Stopping (R341, R394, R407) -/

/-- A thread of a slice-warp has reached the state of a cooperative save (R341): it has exited, or waits at a listed YIELD, at a meeting or
in WAITM. -/
def threadYields (th : Thread) : Bool :=
  th.exited || (match th.wait with
    | .held => true
    | .waitm _ => true
    | .yield _ _ => true
    | _ => false)

/-- Every slice-warp of a group has reached it, and the request stands. -/
def groupYields (s : State) (gid : Nat) (g : Group) : Bool :=
  g.preq && (swsOf g.launch).all (fun p => (threadsOf gid p.1 p.2 g.launch).all (fun k => threadYields (s.thread k)))

/-- PDLC_EXPIRY (R394): the deadline has passed with the group not saved, and the save is forced. -/
def execPdlcExpiry (gid : Nat) (s : State) : Host.Outcome State Fault Refusal :=
  match mget? s.groups gid with
  | none => .next s
  | some g =>
    if g.phase = .running ∧ g.preq = true ∧ pdlcReg s g = 0 then
      .next (beginHalt gid (fun x => { x with forced := true }) (settlePort ⟨g.core, .execute⟩ (settlePort ⟨g.core, .access⟩ s)))
    else .next s

/-! ### The drain (R248, R303, R327, R336, R408) -/

/-- Poison the registers of a thread by absolute code. -/
def poisonCodes (th reg n : Nat) (s : State) : State :=
  (upFrom reg n).foldl (fun t c => updTh th (fun x =>
    if c < 256 then { x with mainPoison := sadd x.mainPoison c } else { x with opndPoison := sadd x.opndPoison (c - 256) }) t) s

/-- Poison the destination of an operation that has not returned. -/
def poisonDest (gid warp : Nat) (sl : Slice) (op words : Nat) (d : Dest) (lanes : List (Nat × Nat)) (s : State) : State :=
  let k := swKey gid warp sl
  match d with
  | .drop => s
  | .regs => lanes.foldl (fun t p => poisonCodes (thKey k p.1) p.2 words t) s
  | .uni n => updSw k (fun x => { x with uniPoison := (upFrom n words).foldl sadd x.uniPoison }) s
  | .queue q => lanes.foldl (fun t p => updQ (qKey gid warp p.1 q) (fun x =>
      { x with entries := x.entries.map (fun e => if e = .pending op then .poisoned else e) }) t) s

/-- A memory request that the drain gives up: its destination is poisoned, and an atomic is still performed once, for no group. A store is drained
until it is acknowledged, and an error that was found is returned. -/
def abandonFlight (op : Nat) (f : Flight) (s : State) : State :=
  if f.kind.acked then s
  else if f.performed && f.lanes.any (fun x => x.err.isSome) then returnError op f s
  else
    let s := poisonDest f.gid f.warp f.slice op f.words f.dest (f.lanes.map (fun x => (x.lane, x.reg))) s
    if f.kind.writes && !f.performed then { s with flight := mput s.flight op { f with gid := op, dest := .drop } } else dropFlight op s

/-- A long-latency result that the drain gives up: LGRID has posted, DIST is still applied once (R408). Divisions and special functions always
land. -/
def abandonLong (op : Nat) (g : Long) (s : State) : State :=
  if g.kind < 2 then s
  else
    let s := if g.kind = 3 ∧ g.ready = false then applyDist op g s else s
    let s := poisonDest g.gid g.warp g.slice op g.words g.dest (g.vals.map (fun v => (v.1, v.2.1))) s
    { s with longs := mdel s.longs op }

/-- The units of LADDR that a READ or an ATOMIC has not written stand poisoned (R336). -/
def poisonLocal (s0 : State) (o : WorkOp) (s : State) : State :=
  let a := workAgent s0 o
  (upFrom 0 (ceilDiv (o.wr.length - o.moved) 8)).foldl (fun t i =>
    match translateNow s0 a.sp .write (o.wr.laddr + o.moved + 8 * i) with
    | .ok pa _ => poisonUnits t pa (Nat.min 8 (o.wr.length - o.moved - 8 * i))
    | _ => t) s

/-- A tag count falls as its operation is recorded as ended. -/
def endTag (gid n : Nat) (s : State) : State := updGroup gid (fun g => putTag n (tagCount g n - 1) g) s

/-- A work request leaves the queue it stands in. -/
def unqueue (op : Nat) (o : WorkOp) (s : State) : State :=
  updRet o.ret (fun r => { r with wrq := r.wrq.filterMap (fun e =>
    let left := e.2.filter (· != op)
    if left.isEmpty then none else some (e.1, left)) }) s

/-- A WRITE not yet sent is withdrawn (R336): packets of it that have left stay, but for an ordered one, which is applied wholly or not at all. -/
def withdraw (op : Nat) (o : WorkOp) (s : State) : State :=
  let s := if o.wr.ordered && !o.wr.toPeer then dropPackets op o.wr.target s else s
  updGroup o.gid (fun g => { g with
    resumeFault := some (g.resumeFault.getD (o.warp, o.slice.code, o.pc.toNat, o.wr.raddr, o.wr.cookie)) })
    { unqueue op o s with works := mdel s.works op }

/-- A work request that the drain gives up (R336): an error that was found is returned, its tag left unset. -/
def abandonWork (op : Nat) (o : WorkOp) (s : State) : State :=
  if o.err.isSome then returnWork op o (unqueue op o s)
  else
    let s := endTag o.gid o.wr.tag s
    if o.wr.opc < 2 then
      (if o.injected then settleWork op (updWork op (fun x => { x with sent := true }) s) else withdraw op o s)
    else
      let s := poisonLocal s o s
      if o.wr.opc = 2 then { unqueue op o s with works := mdel s.works op } else updWork op (fun x => { x with orphan := true, gid := op }) s

/-- COPY chains of a group leave its core's engine for its image (R327). -/
def stopCopies (gid core : Nat) (s : State) : State :=
  match mget? s.groups gid with
  | none => s
  | some g =>
    let mine := (s.core core).copyq.filter (fun c => c.gid == gid)
    let s := mine.foldl (fun t o => raceUnits (agentOf t core g) o.done t) s
    updGroup gid (fun g => { g with stopped := g.stopped ++ mine.map CopyOp.saved })
      (updCore core (fun c => { c with copyq := c.copyq.filter (fun o => o.gid != gid) }) s)

/-- DRAIN_TIMEOUT (R408): 100 µs after issue stopped, every destination that has not received its value is poisoned. -/
def execDrainTimeout (gid : Nat) (s : State) : Host.Outcome State Fault Refusal :=
  match mget? s.groups gid with
  | none => .next s
  | some g =>
    match g.drainFrom with
    | none => .next s
    | some t =>
      if g.phase ≠ .halting ∨ s.ticks - t < 1600000 then .next s
      else
        let s := (s.flight.filter (fun e => e.2.gid == gid)).foldl (fun u e => abandonFlight e.1 e.2 u) s
        let s := (s.longs.filter (fun e => e.2.gid == gid)).foldl (fun u e => abandonLong e.1 e.2 u) s
        let s := (s.works.filter (fun e => e.2.gid == gid && !e.2.sent)).foldl (fun u e => abandonWork e.1 e.2 u) s
        let s := (s.flushes.filter (fun e => e.2.gid == gid)).foldl (fun u e =>
          endTag gid e.2.tag { u with flushes := mdel u.flushes e.1 }) s
        .next (stopCopies gid g.core s)

/-! ### The image (R146, R383, R410 to R412) -/

/-- A saved thread: SLEEP and YIELD go on at the next run (R341, R343); nothing is pending. -/
def savedThread (forced : Bool) (th : Thread) : Thread :=
  let th := match th.wait with
    | .sleep _ => wakeThread th
    | .yield _ _ => wakeThread th
    | _ => th
  { th with pending := [], latch := if forced then th.latch else [], latchUni := if forced then th.latchUni else [] }

/-- The registers of a thread that a cooperative save keeps (R363): those of the live mask, the others read as zero. -/
def maskThread (m : LiveMask) (th : Thread) : Thread :=
  { th with
    main := th.main.filter (fun e => bitOf m.mmask e.1)
    mainPoison := th.mainPoison.filter (bitOf m.mmask)
    opnd := th.opnd.filter (fun e => bitOf m.omask e.1)
    opndPoison := th.opndPoison.filter (bitOf m.omask) }

/-- The threads of a slice-warp as a save keeps them. A cooperative save of a slice-warp with a thread at a meeting or in WAITM keeps all. -/
def savedThreads (s : State) (gid : Nat) (g : Group) (p : Nat × Slice) : List (Nat × Thread) :=
  let ks := threadsOf gid p.1 p.2 g.launch
  let whole := g.forced || ks.any (fun k => match (s.thread k).wait with | .held => true | .waitm _ => true | _ => false)
  ks.map (fun k =>
    let th := s.thread k
    let kept := savedThread g.forced th
    (k, if whole then kept
      else if th.exited then maskThread ⟨0, 0⟩ kept
      else match th.wait with
        | .yield om mm => maskThread ⟨om, mm⟩ kept
        | _ => kept))

/-- A saved slice-warp: UNACK is zero, nothing is pending (R146). -/
def savedSw (x : SliceWarp) : SliceWarp :=
  { x with unack := 0, uniPending := [], fence := none, active := true, pendSince := 0, readySince := none, order := [], counting := [] }

/-- A queue as an image holds it: a result on its way has come. -/
def savedQueue (q : Queue) : Queue :=
  { q with entries := q.entries.map (fun e => match e with | .coming v _ => .ready v | e => e) }

/-- The image of a group that has drained. -/
def imageOf (s : State) (gid : Nat) (g : Group) : Image :=
  let l := g.launch
  { group := { g with preq := false, drain := false, pdlcFrom := none, phase := .quiesced, drainFrom := none, stopped := [] }
    sws := (swsOf l).map (fun p => (swKey gid p.1 p.2, savedSw (s.sw (swKey gid p.1 p.2))))
    threads := (swsOf l).flatMap (savedThreads s gid g)
    queues := (imageQueues gid l).map (fun q => (q.2.2.2, savedQueue (s.queue q.2.2.2)))
    spad := readRaw s (spadPa g.core g.spadOff) l.spad
    spadPoison := (s.poison.filter (fun a => decide (spadPa g.core g.spadOff ≤ a) && decide (a < spadPa g.core g.spadOff + l.spad))).map
      (fun a => a - spadPa g.core g.spadOff)
    bank := (s.core g.core).bank.filter (fun e => smem g.acc (e.1 / 128))
    copies := g.stopped ++ ((s.core g.core).copyq.filter (fun c => c.gid == gid)).map CopyOp.saved
    forced := g.forced, halted := g.halt.isSome, debug := g.debug
    key := effective s g.m 7 g.region (·.keyid), keyBits := none, member := coreMember g.core, stamp := wtime s (coreRet g.core)
    ret := coreRet g.core }

/-! ### The Cellar (R204, R412) -/

/-- The key under which an image store holds an image. -/
def storeKey (s : State) (x : Image) : BitVec 512 := (keyMat s x.ret x.key).getD 0

/-- A saved group's image moves from the Cellar to the image store, encrypted there. -/
def storeImage (m gid : Nat) (s : State) : State :=
  updMod m (fun y => { y with saved := y.saved.map (fun e => if e.1 = gid then (e.1, { e.2 with keyBits := some (storeKey s e.2) }) else e) }) s

/-- The outgoing slot of a core is needed again: what it holds moves to the image store first. A core of an incomplete fold uses no slot (R22). -/
def intoCellar (m k gid : Nat) (s : State) : State :=
  let s := match (s.core k).cellarOut with | some old => storeImage m old s | none => s
  if foldComplete s (coreRet k) (coreFold k) then updCore k (fun c => { c with cellarOut := some gid }) s
  else storeImage m gid (updCore k (fun c => { c with cellarOut := none }) s)

/-- A saved group's image leaves the slot that holds it. -/
def leaveCellar (gid : Nat) (s : State) : State :=
  { s with cores := s.cores.map (fun e => (e.1, if e.2.cellarOut = some gid then { e.2 with cellarOut := none } else e.2)) }

/-- An image can be read back: from the Cellar, or from the store under the key it was written under (log 4). -/
def imageReadable (s : State) (x : Image) : Bool := match x.keyBits with | none => true | some k => k == storeKey s x

/-! ### Handlers (R405, R406) -/

/-- The next halted group of a domain that waits for its handler, in record order. -/
def nextHalted (s : State) (m d : Nat) : Option (Nat × Image) :=
  (s.mod m).waitingHalts.findSome? (fun i => match mget? (s.mod m).saved i with
    | some x => if domainOf s m 8 x.group.region = d then some (i, x) else none
    | none => none)

/-- Launch the handler grid of a domain for its next halted group, unless one runs. A handler record that does not pass R43 ends the domain. -/
def launchHandler (m d : Nat) (s : State) : State :=
  if (mget? (s.mod m).handlers d).isSome then s
  else
    match nextHalted s m d, mget? (s.mod m).regions d with
    | some (i, x), some r =>
      let root := x.group.root
      let s := updMod m (fun y => { y with waitingHalts := y.waitingHalts.filter (· != i) }) s
      (match readRecord s m root r.rcb.handler with
       | none => terminateDomain m d s
       | some bs =>
         if launchStatus s m root .host bs ≠ 0 then terminateDomain m d s
         else
           let l := { launchOf bs with argp := x.group.recordVa }
           let (h, s) := acceptGrid m root none none l (some (i, x.group.recordVa)) s
           updMod m (fun y => { y with handlers := mput y.handlers d h }) s)
    | _, _ => s

/-- A group's image is complete: it leaves its core and is QUIESCED (R407). A halted one waits for its handler. -/
def completeSave (gid : Nat) (g : Group) (s : State) : State :=
  let x := imageOf s gid g
  let s := updCore g.core (fun c => { c with copyq := c.copyq.filter (fun o => o.gid != gid) }) s
  let s := removeGroup gid s
  let s := intoCellar g.m g.core gid (updMod g.m (fun y => { y with saved := mput y.saved gid x }) s)
  if x.halted && !x.debug then
    launchHandler g.m (domainOf s g.m 8 g.region)
      (updMod g.m (fun y => { y with waitingHalts := y.waitingHalts ++ [gid] }) s)
  else s

/-- A group to be discarded has drained (R405, R420). -/
def discardGroup (gid : Nat) (g : Group) (s : State) : State :=
  let s := updCore g.core (fun c => { c with
    copyq := c.copyq.filter (fun o => o.gid != gid), mxq := c.mxq.filter (fun o => o.gid != gid) }) s
  gridSettled g.m g.grid (removeGroup gid (discardQueues gid s))

/-- SAVE_COMPLETE (R341, R407): a group whose slice-warps have all reached a listed YIELD stops; one that has drained leaves its core. -/
def execSaveComplete (gid : Nat) (s : State) : Host.Outcome State Fault Refusal :=
  match mget? s.groups gid with
  | none => .next s
  | some g =>
    match g.phase with
    | .running =>
      if groupYields s gid g then .next (beginHalt gid (fun x => { x with forced := false }) s) else .next s
    | .halting =>
      if groupBusy s gid then .next s
      else if g.discard then .next (discardGroup gid g s)
      else .next (completeSave gid g s)
    | _ => .next s

/-! ### Dispositions (R406) -/

/-- A saved group ends as if every thread had executed EXIT (R406): its image is dropped, its exit is a release and a trigger. -/
def discardSaved (m gid : Nat) (s : State) : State :=
  match mget? (s.mod m).saved gid with
  | none => s
  | some x =>
    let g := x.group
    let s := updMod m (fun y => { y with saved := mdel y.saved gid }) (leaveCellar gid s)
    gridEnded m g.grid (updGrid m g.grid (fun y => { y with ended := y.ended + 1, gone := sadd y.gone g.index }) s)

/-- The place after the instruction at which a thread of an image stands, by the words of its code (R406, SKIP). -/
def skipThread (s : State) (g : Group) (th : Thread) : Thread :=
  match th.pos with
  | none => th
  | some p =>
    let word := fun (i : Nat) => (readVa s g.m g.root (th.pc.toNat + 4 * i) 4).map ofBytesLE
    match word 0, word (1 + p) with
    | some h, some w =>
      let n := bitsOf h 24 20
      let q := p + formWords (opOf (BitVec.ofNat 32 w))
      if q < n then { th with pos := some q, wait := .none }
      else
        let more := match word (1 + n) with | some t => b2n (bitOf t 3) | none => 0
        let tr := if bitOf h 4 then 1 + more else 0
        { th with pc := th.pc + BitVec.ofNat 64 (4 * (1 + n + tr)), pos := none, wait := .none, latch := [], latchUni := [] }
    | _, _ => th

/-- The image that RETRY and SKIP resume (R406): no longer halted; after a precise fault SKIP passes the faulting instruction in the threads
that stand at it. -/
def releaseImage (s : State) (skip : Bool) (x : Image) : Image :=
  let g := x.group
  let threads := match skip, g.halt with
    | true, some (_, _, _, sw, true) =>
      x.threads.map (fun e =>
        if e.1 / 64 = sw ∧ e.2.exited = false ∧ e.2.at = g.haltPc.toNat then (e.1, skipThread s g e.2) else e)
    | _, _ => x.threads
  { x with halted := false, threads := threads, group := { g with halt := none, recordVa := 0, recordOk := false } }

/-- The disposition that a handler wrote for a halted group (R406). -/
def dispose (m d gid disp : Nat) (s : State) : State :=
  match mget? (s.mod m).saved gid with
  | none => s
  | some x =>
    let gone := x.group.phase == .lost || (match x.group.halt with | some (c, _) => c == .sdcDetected | none => false)
    if disp = 3 ∨ ((disp = 1 ∨ disp = 2) ∧ gone = true) then discardSaved m gid s
    else if disp = 1 ∨ disp = 2 then updMod m (fun y => { y with saved := mput y.saved gid (releaseImage s (disp == 2) x) }) s
    else terminateDomain m d s

/-- HANDLER_FINISH (R406): a handler grid has finished, and DISP of the primary record decides. -/
def execHandlerFinish (m grid : Nat) (s : State) : Host.Outcome State Fault Refusal :=
  match mget? (s.mod m).grids grid with
  | none => .next s
  | some x =>
    match x.handlerFor with
    | none => .next s
    | some (gid, va) =>
      if x.state ≠ .finished then .next s
      else
        match (s.mod m).handlers.find? (fun e => e.2 == grid) with
        | none => .next s
        | some (d, _) =>
          let s := updGrid m grid (fun y => { y with handlerFor := none }) (updMod m (fun y => { y with handlers := mdel y.handlers d }) s)
          let disp := match readVa s m x.root (va + 0x1B) 1 with | some bs => ofBytesLE bs | none => 0
          let s := if x.status = 0 then dispose m d gid disp s else terminateDomain m d s
          .next (launchHandler m d s)

/-! ### Resuming (R54, R268, R413) -/

/-- A CKPT in progress holds a region's saved groups (R422). -/
def heldByCkpt (s : State) (m region : Nat) : Bool :=
  (s.mod m).cmds.any (fun c => c.code == 7 && (lineage s m 8 region).contains c.arg2)

/-- Room for a saved group on a core (R54, R268). -/
def resumeRoom (s : State) (x : Image) (k : Nat) : Bool :=
  let g := x.group
  coreMember k == x.member && (roomOn s g.m g.root g.region g.launch (some g.spadOff) k).isSome
  && !(groupsOn s k).any (fun e => e.2.acc.any (fun u => smem g.acc u))

/-- The window that a saved group resumes on: its own core first, else the first from its region's cursor. -/
def resumeWindow (s : State) (x : Image) : Option (Nat × Nat) :=
  let g := x.group
  let cur := match mget? (s.mod g.m).regions g.region with | some r => r.cursor | none => 0
  let ws := (fromCursor (windowsOf s g.m g.root g.region) cur).filterMap (fun w => w.core.map (fun k => (k, w.vbase)))
  let ok := ws.filter (fun w => resumeRoom s x w.1)
  match ok.find? (fun w => w.1 == g.core) with
  | some w => some w
  | none => ok.head?

/-- A thread as it resumes: a wait but BAR and a meeting is executed again (R197, R264, R383). -/
def resumedThread (th : Thread) : Thread :=
  match th.wait with
  | .held => th
  | .bar _ => th
  | _ => { th with wait := .none }

/-- Load an image on a core (R413). -/
def loadImage (gid : Nat) (x : Image) (k vbase : Nat) (s : State) : State :=
  let g0 := x.group
  let s := bringGroup k gid g0.m g0.root g0.grid g0.launch.width s
  let s := updCore k (fun c => { c with
    l1 := []
    copyq := c.copyq ++ x.copies
    bank := x.bank.foldl (fun b e => mput b e.1 e.2) (c.bank.filter (fun e => !smem g0.acc (e.1 / 128))) }) s
  let free := freeSlots s k
  let g := { g0 with
    core := k, window := vbase, phase := .running, halt := none, recordVa := 0, recordOk := false, forced := false, debug := false
    resumeFault := none, placedAt := s.ticks
    slots := (g0.slots.zip free).map (fun p => (p.1.1, { p.1.2 with phys := p.2 })) }
  let base := spadPa k g.spadOff
  let s := wakeWatches base g.launch.spad (writeRaw (zeroRange base g.launch.spad s) base x.spad)
  let s := { s with
    poison := x.spadPoison.foldl (fun p o => sadd p (base + o)) s.poison
    groups := mput s.groups gid g
    sws := x.sws.foldl (fun m e => mput m e.1 { e.2 with active := false, pendSince := s.ticks }) s.sws
    threads := x.threads.foldl (fun m e => mput m e.1 (resumedThread e.2)) s.threads
    queues := x.queues.foldl (fun m e => mput m e.1 e.2) s.queues }
  let s := updMod g.m (fun y => { y with saved := mdel y.saved gid }) (leaveCellar gid s)
  let s := (swsOf g.launch).foldl (fun t p => settle gid p.1 p.2 t) s
  let s := testSlots gid s
  match g0.resumeFault with
  | none => s
  | some (warp, sl, pc, addr, cookie) => takeFault ⟨.remoteError, gid, warp, sl, 0xFF, false, pc, none, addr, cookie⟩ s

/-- Resume some saved groups, all of them or none. -/
def resumeAll (m : Nat) : List Nat → State → Option State
  | [], s => some s
  | i :: rest, s =>
    match mget? (s.mod m).saved i with
    | none => none
    | some x =>
      if x.halted || x.debug || !imageReadable s x then none
      else
        match resumeWindow s x with
        | none => none
        | some (k, vbase) => resumeAll m rest (loadImage i x k vbase s)

/-- GROUP_RESUME (R53, R54, R413): a saved group comes back; the groups of a persistent grid come back together. -/
def execGroupResume (m gid : Nat) (s : State) : Host.Outcome State Fault Refusal :=
  match mget? (s.mod m).saved gid with
  | none => .next s
  | some x =>
    let g := x.group
    if heldByCkpt s m g.region || g.phase == .lost then .next s
    else if g.launch.persistent then
      if (residentOf s m g.grid).any (fun i => match mget? s.groups i with | some y => y.preq || y.phase != .running | none => false)
      then .next s
      else .next ((resumeAll m (savedOf s m g.grid) s).getD s)
    else .next ((resumeAll m [gid] s).getD s)

/-! ### Staged grids (R419) -/

/-- Runs of consecutive logged bytes under one key id. -/
def logRuns : List (Nat × Nat × Byte) → List (Nat × Nat × List Byte)
  | [] => []
  | (a, k, b) :: rest =>
    match logRuns rest with
    | (a', k', bs) :: more => if a' = a + 1 ∧ k' = k ∧ a' % 32 ≠ 0 then (a, k, b :: bs) :: more else (a, k, [b]) :: (a', k', bs) :: more
    | [] => [(a, k, [b])]

/-- Write a redo log at its homes. A home that is gone, or a poisoned unit that the log covers only in part, takes nothing. -/
def commitLog (log : SMap (Nat × Byte)) (s : State) : State :=
  (logRuns (log.map (fun e => (e.1, e.2.1, e.2.2)))).foldl (fun t r =>
    if inService t (retOf r.1) && (poisonPartial t r.1 r.2.2.length).isNone then writeKey t r.2.1 r.1 r.2.2 else t) s

/-- STAGED_COMMIT (R419): every group of a staged grid has exited; its log is written, then its completion word. -/
def execStagedCommit (m grid : Nat) (s : State) : Host.Outcome State Fault Refusal :=
  match mget? (s.mod m).grids grid with
  | none => .next s
  | some x =>
    if x.launch.staged ∧ x.state ≠ .finished ∧ x.status = 0 ∧ x.ended = x.launch.ngroups then
      .next (finishGrid m grid 0 (commitLog x.log s))
    else .next s

end Sys2Proof.Machine
end

