-- ==== Sys2Proof/Machine/Region.lean ====
section
/-! DEFINITION. Region control blocks and the region tree (spec/02 R38 to R40; 15 R346 to R348), the queues a root names (13 R305), and
shootdowns (09 R218). -/

namespace Sys2Proof.Machine

open Sys2Proof

/-! ### Reading and writing longer ranges by virtual address (R464) -/

/-- Bytes from an address to the end of its 64 KiB page. -/
def pageLeft (va : Nat) : Nat := 65536 - va % 65536

/-- Read n bytes, page by page: none when a page cannot be read. -/
def readSpan (s : State) (m root : Nat) : Nat → Nat → Nat → Option (List Byte)
  | 0, _, _ => some []
  | fuel + 1, va, n =>
    if n = 0 then some []
    else
      let k := Nat.min n (pageLeft va)
      match readVa s m root va k with
      | none => none
      | some bs => (readSpan s m root fuel (va + k) (n - k)).map (bs ++ ·)

/-- The pages a range touches, at most. -/
def spanFuel (n : Nat) : Nat := n / 65536 + 2

/-! ### RCB images (R346) -/

/-- Some bytes outside some ranges (offset and length) are not zero. -/
def strayBytes (bs : List Byte) (used : List (Nat × Nat)) : Bool :=
  (bs.zip (upFrom 0 bs.length)).any (fun p => p.1 != 0 && !used.any (fun r => decide (r.1 ≤ p.2) && decide (p.2 < r.1 + r.2)))

/-- The bytes of an RCB image that hold a field. -/
def rcbUsed : List (Nat × Nat) :=
  [(0x00, 0x0D), (0x10, 0x1B), (0x2C, 5), (0x38, 0x15), (0x50, 8)]

/-- A node's fields from its image (R346): PARENT and DEPTH are the device's. -/
def rcbOf (bs : List Byte) (parent depth : Nat) : Rcb :=
  { parent := parent, depth := depth, prio := fieldLE bs 0x05 1, flags := fieldLE bs 0x06 2, inherit := fieldLE bs 0x08 4
    keyid := fieldLE bs 0x0C 1, ptroot := fieldLE bs 0x10 8, winset := fieldLE bs 0x18 8, wincount := fieldLE bs 0x20 4
    spadlim := fieldLE bs 0x24 4, waylim := fieldLE bs 0x28 1, barlim := fieldLE bs 0x29 1, gmin := fieldLE bs 0x2A 1
    deadline := fieldLE bs 0x2C 4, fpolicy := fieldLE bs 0x30 1, frq := fieldLE bs 0x38 8, handler := fieldLE bs 0x40 8
    modlo := fieldLE bs 0x48 2, modhi := fieldLE bs 0x4A 2, netf := fieldLE bs 0x4C 1, cqtab := fieldLE bs 0x50 8 }

/-- A reserved bit, byte or encoding of an image is set, whether or not its field is inherited. -/
def rcbStray (bs : List Byte) : Bool :=
  strayBytes bs rcbUsed || decide (fieldLE bs 0x05 1 ≥ 16) || decide (fieldLE bs 0x06 2 ≥ 4) || decide (fieldLE bs 0x08 4 ≥ 1024)
  || decide (fieldLE bs 0x30 1 ≥ 2) || decide (fieldLE bs 0x4C 1 ≥ 4)

/-- The effective values of a live node stand within the limits of R346. -/
def nodeOk (s : State) (m i : Nat) : Bool :=
  match mget? (s.mod m).regions i with
  | none => false
  | some r =>
    let c := r.rcb
    let e := fun bit f => effective s m bit i f
    (if c.parent = 0xFFFF then c.inherit == 0x3FF && c.ptroot % 4096 == 0 else c.ptroot == 0 && c.cqtab == 0)
    && decide (c.depth < 8) && decide (e 5 (·.prio) ≤ 15) && decide (1 ≤ e 7 (·.keyid)) && e 0 (·.winset) % 16 == 0
    && decide (1 ≤ e 0 (·.wincount)) && decide (e 0 (·.wincount) ≤ 10240) && decide (e 1 (·.spadlim) ≤ 0x100000)
    && decide (e 2 (·.waylim) ≤ 12) && decide (e 3 (·.barlim) ≤ 32) && decide (16 ≤ e 4 (·.gmin)) && decide (e 4 (·.gmin) ≤ 32)
    && decide (e 6 (·.fpolicy) ≤ 1) && (e 6 (·.fpolicy) == 1 || e 6 (·.handler) == 0) && decide (e 9 (·.modlo) ≤ e 9 (·.modhi))
    && decide (e 9 (·.modhi) ≤ 1023) && decide (e 9 (·.netf) < 4)

/-- The entries of a node's window set: none for one that cannot be read. -/
def windowSet (s : State) (m root i : Nat) : List (Option (List Byte)) :=
  let base := effective s m 0 i (·.winset)
  (upFrom 0 (effective s m 0 i (·.wincount))).map (fun k => readVa s m root (base + 16 * k) 16)

/-- A node is no looser than its parent (R39, R348). -/
def tighter (s : State) (m root i : Nat) : Bool :=
  match mget? (s.mod m).regions i with
  | none => false
  | some r =>
    if r.rcb.parent = 0xFFFF then true
    else
      let p := r.rcb.parent
      let le := fun bit (f : Rcb → Nat) => decide (effective s m bit i f ≤ effective s m bit p f)
      let mine := windowSet s m root i
      let up := windowSet s m root p
      le 5 (·.prio) && le 1 (·.spadlim) && le 2 (·.waylim) && le 3 (·.barlim)
      && decide (effective s m 4 p (·.gmin) ≤ effective s m 4 i (·.gmin))
      && (!bitOf r.rcb.inherit 0 || mine.all (fun x => x.isSome && up.contains x))

/-- A node and its descendants. -/
def subtree (s : State) (m i : Nat) : List Nat :=
  ((s.mod m).regions.filter (fun e => (lineage s m 8 e.1).contains i)).map (·.1)

/-- A new node. -/
def newRegion (uid : Nat) (c : Rcb) : Region := ⟨uid, c, 0, none, 0, 0, none⟩

/-- The first free region index from a start, of the 4,096 (R36). -/
def freeIndex (x : ModSt) : Nat → Nat → Option Nat
  | 0, _ => none
  | fuel + 1, i => if (mget? x.regions (i % 4096)).isNone then some (i % 4096) else freeIndex x fuel (i + 1)

/-! ### Shootdown (R218) -/

/-- No TLB and no walk cache of the module holds a translation of a range of a root's space any more. -/
def shootRange (m root va size : Nat) (s : State) : State :=
  let keep := fun (t : TlbEntry) => !(t.root == rootKey m root && overlaps t.base t.size va size)
  { s with
    cores := s.cores.map (fun e => (e.1, { e.2 with
      tlb := e.2.tlb.filter keep
      walkFaults := e.2.walkFaults.filter (fun t => !(t.1 == rootKey m root && overlaps (t.2.1 * 65536) 65536 va size)) }))
    rets := s.rets.map (fun e => (e.1, { e.2 with
      tlb2 := e.2.tlb2.map (fun f => (f.1, f.2.filter keep))
      walkCache := e.2.walkCache.filter (fun w => w.root != rootKey m root) })) }

/-- The reticle that runs the command processor of a module (R30, R310). -/
def cpRet (s : State) (m : Nat) : Nat := m * 128 + (s.mod m).activeCp

/-- A shootdown (R218): the Shepherd of the command processor's reticle starts it with a stamp of the ordered class, and it completes in the same
step (log 21). -/
def shootdown (m root va size : Nat) (s : State) : State :=
  shootRange m root va size (takeKey (cpRet s m) 0 s).2.2

/-- SHOOTDOWN. -/
def execShootdown (m root va size : Nat) (s : State) : Host.Outcome State Fault Refusal := .next (shootdown m root va size s)

/-! ### The queues of a root (R305) -/

/-- A QCB as read at an address: none when it cannot be read or stands outside its limits. Its queue starts empty. -/
def qcbOf (s : State) (m root a : Nat) : Option CmdQueue :=
  match readSpan s m root 2 a 64 with
  | none => none
  | some bs =>
    let cidx := BitVec.ofNat 32 (fieldLE bs 0x10 4)
    if strayBytes bs [(0, 9), (0x0A, 4), (0x10, 8)] || fieldLE bs 0 8 % 64 != 0 || decide (fieldLE bs 8 1 < 4)
        || decide (fieldLE bs 8 1 > 16) || decide (fieldLE bs 0x0C 2 > 4095) || decide (fieldLE bs 0x14 4 > 2) then none
    else
      some { qcb := a, base := fieldLE bs 0 8, log2n := fieldLE bs 8 1, doorbell := fieldLE bs 0x0C 2, pidx := cidx, cidx := cidx
             state := fieldLE bs 0x14 4, posters := [], last := none }

/-- The queues that the CQTAB of a root names, with their numbers: none when one cannot be taken. -/
def queueTable (s : State) (m root : Nat) : Option (List (Nat × CmdQueue)) :=
  match mget? (s.mod m).regions root with
  | none => none
  | some r =>
    if r.rcb.cqtab = 0 then some []
    else
      (upFrom 0 64).foldl (fun acc i => match acc with
        | none => none
        | some qs =>
          match readSpan s m root 2 (r.rcb.cqtab + 8 * i) 8 with
          | none => none
          | some bs =>
            let a := ofBytesLE bs
            if a = 0 then some qs
            else
              match qcbOf s m root a with
              | some q => some (qs ++ [(i, q)])
              | none => none) (some [])

/-- No two queues of the module name one doorbell. -/
def doorbellsApart (s : State) (m root : Nat) (qs : List (Nat × CmdQueue)) : Bool :=
  let others := ((s.mod m).queues.filter (fun e => e.1 / 64 != root)).map (fun e => e.2.doorbell)
  let mine := qs.map (fun q => q.2.doorbell)
  decide ((dedupe mine).length = mine.length) && !mine.any others.contains

/-- The queues of a root as the module holds them. -/
def heldQueues (s : State) (m root : Nat) : List (Nat × CmdQueue) :=
  ((s.mod m).queues.filter (fun e => e.1 / 64 == root)).map (fun e => (e.1 % 64, e.2))

/-- A change of QCBs that a queue with unread commands forbids (R305). -/
def queuesBusy (s : State) (m root : Nat) (qs : List (Nat × CmdQueue)) : Bool :=
  (heldQueues s m root).any (fun e => e.2.held != 0 && (match qs.find? (fun q => q.1 == e.1) with
    | none => true
    | some q => q.2.base != e.2.base || q.2.log2n != e.2.log2n || q.2.doorbell != e.2.doorbell))

/-- Take the queues of a root: one that is held keeps its indices, its state and its posters (R305); a new one's doorbell takes its PIDX. -/
def takeQueues (m root : Nat) (qs : List (Nat × CmdQueue)) (s : State) : State :=
  let old := heldQueues s m root
  updMod m (fun x => qs.foldl (fun y q =>
    match old.find? (fun e => e.1 == q.1) with
    | some e =>
      { y with queues := mput y.queues (cqKey root q.1) { q.2 with
          pidx := e.2.pidx, cidx := e.2.cidx, state := e.2.state, posters := e.2.posters, last := e.2.last } }
    | none =>
      { y with queues := mput y.queues (cqKey root q.1) q.2, doorbells := mput y.doorbells q.2.doorbell q.2.pidx })
    { x with queues := x.queues.filter (fun e => e.1 / 64 != root) }) s

/-! ### Creating, changing and removing nodes -/

/-- Create a node from an image under a parent, or a root: the status of R309, or the new index. -/
def createNode (m parent : Nat) (host : Bool) (bs : List Byte) (s : State) : Nat × Nat × State :=
  let x := s.mod m
  let depth := match mget? x.regions parent with | some p => p.rcb.depth + 1 | none => 0
  if !host && bitOf (fieldLE bs 0x06 2) 0 then (0x11, 0, s)
  else
    match freeIndex x 4096 x.nextRegion with
    | none => (0x12, 0, s)
    | some i =>
      let (uid, t) := freshId s
      let t := updMod m (fun y => { y with
        regions := mput y.regions i (newRegion uid (rcbOf bs parent depth)), nextRegion := (i + 1) % 4096 }) t
      let root := rootOf t m i
      if bs.length ≠ 128 ∨ rcbStray bs = true ∨ nodeOk t m i = false ∨ tighter t m root i = false then (0x13, 0, s)
      else if parent = 0xFFFF then
        match queueTable t m i with
        | none => (0x13, 0, s)
        | some qs => if doorbellsApart t m i qs then (0, i, takeQueues m i qs t) else (0x13, 0, s)
      else (0, i, t)

/-- Change a node to an image (R347): the status of R309. Every descendant must stay within the limits and no looser than its parent. -/
def modifyNode (m i : Nat) (host : Bool) (bs : List Byte) (s : State) : Nat × State :=
  match mget? (s.mod m).regions i with
  | none => (0x11, s)
  | some r =>
    if !host && bitOf (fieldLE bs 0x06 2) 0 != bitOf r.rcb.flags 0 then (0x11, s)
    else
      let t := updRegion m i (fun y => { y with rcb := rcbOf bs y.rcb.parent y.rcb.depth }) s
      let root := rootOf s m i
      if bs.length ≠ 128 ∨ rcbStray bs = true ∨ (subtree t m i).any (fun j => !nodeOk t m j || !tighter t m root j) = true then (0x13, s)
      else
        let shoot := fun (u : State) => if bitOf (fieldLE bs 0x06 2) 1 then shootdown m root 0 (2 ^ 57) u else u
        if r.rcb.parent = 0xFFFF then
          match queueTable t m i with
          | none => (0x13, s)
          | some qs =>
            if queuesBusy s m i qs then (0x12, s)
            else if doorbellsApart t m i qs then (0, shoot (takeQueues m i qs t)) else (0x13, s)
        else (0, shoot t)

/-- Remove a node and its descendants. Translations tagged with a root that is gone go with it. -/
def removeNodes (m i : Nat) (s : State) : State :=
  let gone := subtree s m i
  shootdown m i 0 (2 ^ 57) (updMod m (fun y => { y with
    regions := y.regions.filter (fun e => !gone.contains e.1)
    handlers := y.handlers.filter (fun e => !gone.contains e.1) }) s)

/-- A grid of a node or of a descendant that is not FINISHED (R40). -/
def nodeBusy (s : State) (m i : Nat) : Bool :=
  (s.mod m).grids.any (fun e => e.2.state != .finished && (lineage s m 8 e.2.launch.region).contains i)

end Sys2Proof.Machine
end

