-- ==== Sys2Proof/Machine/Command.lean ====
section
/-! DEFINITION. The command processor: reading and finishing commands (spec/13 R305 to R310), LAUNCH, the region commands, KEYLOAD (15 R352),
TIMESYNC (16 R367), EVENT, and checkpoints (17 R422, R423). -/

namespace Sys2Proof.Machine

open Sys2Proof

/-! ### Reading and finishing a command -/

/-- The region whose kernel posted a command. -/
def Poster.region? : Poster → Option Nat
  | .host => none
  | .kernel r => some r
  | .lgrid r _ => some r

/-- The class of a poster (R306): 2 host, 1 a kernel of a supervisor region, 0 another kernel. -/
def posterClass (s : State) (m : Nat) (who : Poster) : Nat :=
  match who.region? with
  | none => 2
  | some r => match mget? (s.mod m).regions r with | some x => b2n (bitOf x.rcb.flags 0) | none => 0

/-- The poster may act on a region: the host on any, a kernel on its own region or a descendant, or only on a descendant (R309). -/
def mayActOn (s : State) (m region : Nat) (strict : Bool) (who : Poster) : Bool :=
  match who.region? with
  | none => true
  | some r => (lineage s m 8 region).contains r && !(strict && region == r)

/-- Write a command's completion word, if it has one (R309). An LGRID is answered at its result (R337). -/
def finishCmd (m root cpl : Nat) (who : Poster) (status result : Nat) (s : State) : State :=
  let s := if cpl = 0 ∨ cpl % 8 ≠ 0 then s else (writeVa s m root cpl (bytesLE 4 status ++ bytesLE 4 result)).getD s
  match who with
  | .lgrid _ op => answerLgrid op status result s
  | _ => s

/-- A command read from a queue: its queue's key, its index, its poster and its 64 bytes. -/
structure Entry where
  root : Nat
  queue : Nat
  idx : Nat
  who : Poster
  bs : List Byte
deriving DecidableEq, Repr

/-- CPL of a command (R307). -/
def Entry.cpl (e : Entry) : Nat := fieldLE e.bs 8 8
/-- A little-endian operand field. -/
def Entry.arg (e : Entry) (off n : Nat) : Nat := fieldLE e.bs off n

/-- Finish a command that was just read. -/
def Entry.done (e : Entry) (m status result : Nat) (s : State) : State := finishCmd m e.root e.cpl e.who status result s

/-- A command of the queue is under way, and a grid of an earlier LAUNCH of it has not finished (R308). -/
def queueUnfinished (s : State) (m root queue before : Nat) : Bool :=
  (s.mod m).cmds.any (fun c => c.root == root && c.queue == queue && decide (c.seq < before))
  || (s.mod m).grids.any (fun g => g.2.queue == some (cqKey root queue) && g.2.state != .finished && decide (g.2.post < before))

/-- The command at CIDX has been taken (R308, R310): CIDX moves past it, in the QCB too, and its root and its queue have had their turn. -/
def consume (m root queue : Nat) (s : State) : State :=
  let s := updMod m (fun x => { x with rootTurn := root, queueTurn := mput x.queueTurn root queue }) s
  match mget? (s.mod m).queues (cqKey root queue) with
  | none => s
  | some q =>
    let q' := { q with cidx := q.cidx + 1, posters := mdel q.posters q.cidx.toNat }
    writeQcb m root q' (updMod m (fun x => { x with queues := mput x.queues (cqKey root queue) q' }) s)

/-- Keep a command that has begun and not finished. -/
def keepCmd (m : Nat) (e : Entry) (code arg arg2 arg3 : Nat) (recs : List TopoRec) (todo : List Nat) (s : State) : State :=
  let (n, s) := freshId s
  let c : Cmd :=
    { root := e.root, queue := e.queue, idx := e.idx, code := code, cpl := e.cpl, arg := arg, arg2 := arg2, arg3 := arg3, seq := n, who := e.who
      recs := recs, todo := todo, failed := false }
  updMod m (fun x => { x with cmds := x.cmds ++ [c] }) s

/-- Forget a command that has finished, and write its completion word. -/
def endCmd (m : Nat) (c : Cmd) (status result : Nat) (s : State) : State :=
  finishCmd m c.root c.cpl c.who status result (updMod m (fun x => { x with cmds := x.cmds.filter (fun d => d.seq != c.seq) }) s)

/-- A CKPT of the same region is under way: another waits for it (R423). -/
def ckptWaits (s : State) (m : Nat) (bs : List Byte) : Bool :=
  fieldLE bs 0 1 == 7 && (s.mod m).cmds.any (fun c => c.code == 7 && c.arg2 == fieldLE bs 0x18 2)

/-- A queue has a command ready to read (R306, R308): it runs, its root is not being destroyed, and the command at CIDX, if it can be read,
waits neither by FENCE nor for another CKPT. -/
def commandReady (s : State) (m k : Nat) : Bool :=
  match mget? (s.mod m).queues k with
  | none => false
  | some q =>
    q.state == 0 && q.held != 0 && !smem (s.mod m).dying (k / 64) && (match readVa s m (k / 64) (q.slotVa q.cidx.toNat) 64 with
      | none => true
      | some bs =>
        let c := fieldLE bs 0 1
        !(bitOf (fieldLE bs 1 1) 0 && queueUnfinished s m (k / 64) (k % 64) s.nextId) && !(decide (c ≤ 10) && ckptWaits s m bs))

/-- The root and queue from which the command processor takes the next command (R308): the roots in turn, and in a root its queues in turn. It
takes none while no host-attach site is in service (R30). -/
def nextCommand (s : State) (m : Nat) : Option (Nat × Nat) :=
  let ready := ((s.mod m).queues.map (·.1)).filter (commandReady s m)
  if !inService s (cpRet s m) then none
  else
    match nextInTurn 4096 (s.mod m).rootTurn (ready.map (· / 64)) with
    | none => none
    | some r => (nextInTurn 64 (mget (s.mod m).queueTurn r 0) ((ready.filter (fun k => k / 64 == r)).map (· % 64))).map (fun q => (r, q))

/-- Refuse a command that was read, with a status. -/
def Entry.refuse (m status : Nat) (e : Entry) (s : State) : State := e.done m status 0 s

/-- The frame of a command step (R306 to R309). The command at CIDX of the queue whose turn it is is taken when its code is the step's; a
reserved code is taken by any of them. An entry that cannot be read stops its queue. A nonzero reserved byte or bit, and a poster below the
command's class, are refused; otherwise go performs it. R309 gives the two refusals no order: the reserved bytes come first (log 21). -/
def takeCommand (code lowest : Nat) (used : List (Nat × Nat)) (m root queue : Nat) (stray go : Entry → State → State) (s : State) : State :=
  match mget? (s.mod m).queues (cqKey root queue) with
  | none => s
  | some q =>
    if nextCommand s m ≠ some (root, queue) then s
    else
      match readVa s m root (q.slotVa q.cidx.toNat) 64 with
      | none => stopQueue m (cqKey root queue) 1 s
      | some bs =>
        let e : Entry := ⟨root, queue, q.cidx.toNat, mget q.posters q.cidx.toNat .host, bs⟩
        let c := fieldLE bs 0 1
        let t := consume m root queue s
        if c = 0 ∨ c > 10 then e.refuse m 0x10 t
        else if c ≠ code then s
        else if strayBytes bs ([(0, 2), (8, 8)] ++ used) || decide (fieldLE bs 1 1 ≥ 2) then stray e t
        else if posterClass s m e.who < lowest then e.refuse m 0x11 t
        else go e t

/-! ### LAUNCH (02 R42 to R45; 13 R308) -/

/-- The grid of the last LAUNCH of a queue, or none for a refused one (R45). -/
def noteLaunch (m k : Nat) (h : Option Nat) (s : State) : State :=
  match mget? (s.mod m).queues k with
  | none => s
  | some q => updMod m (fun x => { x with queues := mput x.queues k { q with last := h } }) s

/-- A LAUNCH that creates no grid (R43, R45). -/
def refuseLaunch (m status : Nat) (e : Entry) (s : State) : State := e.refuse m status (noteLaunch m (cqKey e.root e.queue) none s)

/-- Check a launch record and accept its grid (R43, R44). -/
def doLaunch (m : Nat) (e : Entry) (s : State) : State :=
  match readRecord s m e.root (e.arg 0x10 8) with
  | none => refuseLaunch m 1 e s
  | some bs =>
    let st := launchStatus s m e.root e.who bs
    let l := launchOf bs
    if st ≠ 0 then
      let s := if l.done = 0 ∨ l.done % 8 ≠ 0 then s else (writeVa s m e.root l.done (bytesLE 4 st ++ bytesLE 4 0)).getD s
      refuseLaunch m st e s
    else
      let k := cqKey e.root e.queue
      let pred := match mget? (s.mod m).queues k with | some q => q.last | none => none
      let (h, s) := acceptGrid m e.root (some k) pred l none s
      e.done m 0 h (noteLaunch m k (some h) s)

/-- LAUNCH: a reserved byte or bit is BAD_FIELD, for a LAUNCH writes the codes of R43. -/
def execLaunch (m root queue : Nat) (s : State) : Host.Outcome State Fault Refusal :=
  .next (takeCommand 1 0 [(0x10, 8)] m root queue (refuseLaunch m 1) (doLaunch m) s)

/-! ### Region commands (02 R39, R40; 15 R346, R347) -/

/-- The image that a region command names: none when it is not aligned or cannot be read. -/
def imageAt (s : State) (m : Nat) (e : Entry) : Option (List Byte) :=
  if e.arg 0x10 8 % 128 ≠ 0 then none else readVa s m e.root (e.arg 0x10 8) 128

/-- REGION_CREATE of a descendant. -/
def doRegionCreate (m : Nat) (e : Entry) (s : State) : State :=
  let p := e.arg 0x18 2
  if p = 0xFFFF then e.refuse m 0x13 s
  else if !(lineage s m 8 p).contains e.root || (mget? (s.mod m).regions p).isNone || !mayActOn s m p false e.who then e.refuse m 0x11 s
  else
    match imageAt s m e with
    | none => e.refuse m 0x13 s
    | some bs =>
      let (st, i, t) := createNode m p (e.who == .host) bs s
      e.done m st (if st = 0 then i else 0) t

/-- REGION_CREATE. -/
def execRegionCreate (m root queue : Nat) (s : State) : Host.Outcome State Fault Refusal :=
  .next (takeCommand 2 1 [(0x10, 10)] m root queue (Entry.refuse m 0x10) (doRegionCreate m) s)

/-- REGION_MODIFY of a node. -/
def doRegionModify (m : Nat) (e : Entry) (s : State) : State :=
  let i := e.arg 0x18 2
  if !(lineage s m 8 i).contains e.root || (mget? (s.mod m).regions i).isNone || !mayActOn s m i true e.who then e.refuse m 0x11 s
  else
    match imageAt s m e with
    | none => e.refuse m 0x13 s
    | some bs =>
      let (st, t) := modifyNode m i (e.who == .host) bs s
      e.done m st 0 t

/-- REGION_MODIFY. -/
def execRegionModify (m root queue : Nat) (s : State) : Host.Outcome State Fault Refusal :=
  .next (takeCommand 3 1 [(0x10, 10)] m root queue (Entry.refuse m 0x10) (doRegionModify m) s)

/-- REGION_DESTROY of a descendant that has no grid; a root is an argument that no poster may give (R40). -/
def doRegionDestroy (m : Nat) (e : Entry) (s : State) : State :=
  let i := e.arg 0x18 2
  if (match mget? (s.mod m).regions i with | some r => r.rcb.parent == 0xFFFF | none => false) then e.refuse m 0x13 s
  else if !(lineage s m 8 i).contains e.root || (mget? (s.mod m).regions i).isNone || !mayActOn s m i true e.who then e.refuse m 0x11 s
  else if nodeBusy s m i then e.refuse m 0x12 s
  else e.done m 0 0 (removeNodes m i s)

/-- REGION_DESTROY. -/
def execRegionDestroy (m root queue : Nat) (s : State) : Host.Outcome State Fault Refusal :=
  .next (takeCommand 4 1 [(0x18, 2)] m root queue (Entry.refuse m 0x10) (doRegionDestroy m) s)

/-! ### Keys (15 R351, R352) -/

/-- The serial identity of a module, of its Identity Table (R356): a module keeps it under any number. -/
def serialOf (x : ModSt) (m : Nat) : Nat := x.identity.serial.getD (Config.serial m)

/-- The key that a wrapped key holds (R352): the wrapping key is the SHA3-256 of the shared secret, the serial identity and the key id. -/
def unwrapped (serial boots key : Nat) (kem wrapped : List Byte) : Option (BitVec 512) :=
  match Config.decapsulate serial boots kem with
  | none => none
  | some secret =>
    let kek := sha3 (secret ++ bytesLE 16 serial ++ bytesLE 1 key)
    (keyUnwrap (bytesLE 32 kek.toNat) wrapped).map (fun k => BitVec.ofNat 512 (ofBytesLE k))

/-- Load or erase a key by a wrapped key (R352): none when it fails. -/
def loadWrapped (m key : Nat) (w : List Byte) (s : State) : Option State :=
  let x := s.mod m
  let kem := (w.drop 8).take 1088
  if key = 0 ∨ key > 255 ∨ w.length ≠ 1168 ∨ fieldLE w 0 2 ≠ 1 ∨ fieldLE w 2 2 ≥ 2 ∨ fieldLE w 4 4 ≠ 0 then none
  else if fieldLE w 2 2 = 1 then some (updMod m (fun y => { y with keys := mdel y.keys key }) s)
  else if x.kemUsed.contains kem then none
  else
    match unwrapped (serialOf x m) x.boots key kem (w.drop 0x448) with
    | none => none
    | some k => some (updMod m (fun y => { y with keys := mput y.keys key k, kemUsed := y.kemUsed ++ [kem] }) s)

/-- KEYLOAD of the image at an address. -/
def doKeyload (m : Nat) (e : Entry) (s : State) : State :=
  let a := e.arg 0x10 8
  match (if a % 16 ≠ 0 then none else readSpan s m e.root 4 a 1168) with
  | none => e.refuse m 0x13 s
  | some w =>
    match loadWrapped m (e.arg 0x18 1) w s with
    | none => e.refuse m 0x13 s
    | some t => e.done m 0 0 t

/-- KEYLOAD. -/
def execKeyload (m root queue : Nat) (s : State) : Host.Outcome State Fault Refusal :=
  .next (takeCommand 8 2 [(0x10, 9)] m root queue (Entry.refuse m 0x10) (doKeyload m) s)

/-! ### TIMESYNC (16 R366 to R368) -/

/-- The reticles of a module that are in service. -/
def servedRets (s : State) (m : Nat) : List Nat := (siteList.map (fun n => m * 128 + n)).filter (inService s)

/-- The reticles of a module. -/
def moduleRets (m : Nat) : List Nat := siteList.map (fun n => m * 128 + n)

/-- Move WTIME of every reticle of a module by an offset, at once: the first synchronisation after cold reset. -/
def stepTime (m : Nat) (by_ : Int) (s : State) : State :=
  (moduleRets m).foldl (fun t r => updRet r (fun x => { x with wtOff := x.wtOff + by_ }) t) s

/-- The greatest difference between the WTIME of two reticles in service. -/
def trueSkew (s : State) : Nat :=
  let ws := ((s.mods.map (·.1)).flatMap (servedRets s)).map (wtime s)
  ws.foldl Nat.max 0 - ws.foldl Nat.min (ws.foldl Nat.max 0)

/-- The greatest value that SKEWB may take (R368): 32 for a module alone, 320 in a pod whose modules have all completed an exchange. -/
def skewLimit (s : State) (m : Nat) : Nat :=
  let others := s.mods.filter (fun e => e.1 != m && e.2.booted)
  if others.isEmpty then 32 else if others.all (fun e => e.2.sync.done) then 320 else 0xFFFFFFFE

/-- The Shepherd writes SKEWB (R368): some bound of the skew within its limit, or, where the skew itself passes the limit, some bound of the
skew (log 4). -/
def writeSkewb (m : Nat) (s : State) : State :=
  let d := Nat.min (trueSkew s) 0xFFFFFFFE
  let top := if d ≤ skewLimit s m then skewLimit s m else 0xFFFFFFFE
  let v := d + Config.choice s.free % (top + 1 - d)
  { updMod m (fun x => { x with skewb := BitVec.ofNat 32 v, sync := { x.sync with missed := 0, done := true, last := s.ticks } }) s with
    free := s.free + 1 }

/-- A trained circuit leads from reticle 79 of a module to another module. -/
def syncCircuit (s : State) (m ref : Nat) : Bool :=
  inService s (m * 128 + 79) && (upFrom 0 4).any (fun p => (s.ret (m * 128 + 79)).planeSt p == 0 && (circuitTo s (m * 128 + 79) p (ref * 128 + 79)).isSome)

/-- TIMESYNC by its parameter block: the reference loads EPOCH the first time; a follower's first TIMESYNC waits for its exchange. -/
def doTimesync (m : Nat) (e : Entry) (s : State) : State :=
  let a := e.arg 0x10 8
  match (if a % 64 ≠ 0 then none else readVa s m e.root a 64) with
  | none => e.refuse m 0x13 s
  | some b =>
    let role := fieldLE b 0 1
    let ref := fieldLE b 2 2
    let epoch := fieldLE b 8 8
    let period := fieldLE b 0x10 4
    if strayBytes b [(0, 1), (2, 2), (8, 12)] || decide (role > 1) || decide (ref > 1023) || decide (period < 10) || decide (period > 1000000)
        || (role == 1 && !syncCircuit s m ref) then e.refuse m 0x13 s
    else
      let x := s.mod m
      let set := fun (u : State) => updMod m (fun y => { y with sync := { y.sync with role := role, reference := ref, period := period } }) u
      if x.sync.done then e.done m 0 0 (set s)
      else if role = 1 then keepCmd m e 9 ref period 0 [] [] s
      else
        let by_ := (epoch : Int) - (wtime s (m * 128 + 79) : Int)
        if by_ ≠ 0 ∧ x.regions ≠ [] then e.refuse m 0x12 s
        else e.done m 0 0 (writeSkewb m (set (stepTime m by_ s)))

/-- TIMESYNC. -/
def execTimesync (m root queue : Nat) (s : State) : Host.Outcome State Fault Refusal :=
  .next (takeCommand 9 2 [(0x10, 8)] m root queue (Entry.refuse m 0x10) (doTimesync m) s)

/-- A reticle corrects an offset by slewing (R366, R367): what the slew under way has corrected stays, and another begins. -/
def startSlew (ret : Nat) (by_ : Int) (s : State) : State :=
  let n := slewed s ret
  updRet ret (fun r => { r with wtOff := r.wtOff + n, slewBy := by_, slewFrom := s.ticks }) s

/-- The difference between the fabric time of two reticles, the second one less. -/
def wtimeGap (s : State) (a b : Nat) : Int := (wtime s a : Int) - (wtime s b : Int)

/-- Every reticle of a module slews toward what reticle 79 has after a correction of its own (R367). -/
def slewModule (m : Nat) (by_ : Int) (s : State) : State :=
  (moduleRets m).foldl (fun t r => startSlew r (by_ + wtimeGap s (m * 128 + 79) r) t) s

/-- A PERIOD has passed since the last exchange of a module, made or missed (R367). -/
def periodOver (s : State) (x : ModSt) : Bool := decide (s.ticks - x.sync.last ≥ x.sync.period * 16000)

/-- TIMESYNC_EXCHANGE (R367, R368): the first one after cold reset steps a follower's WTIME to its reference's and finishes the TIMESYNC that
waits; a later one, each PERIOD, slews the module, a follower toward its reference. Then SKEWB is written. The exchange measures the offset
of the two reticles 79: one that measures another offset does not exist, and is taken at the true one. -/
def execTimesyncExchange (m : Nat) (_offset : Int) (_rtt : Nat) (s : State) : Host.Outcome State Fault Refusal :=
  let x := s.mod m
  let off := fun (ref : Nat) => wtimeGap s (ref * 128 + 79) (m * 128 + 79)
  if x.sync.done then
    if periodOver s x = false then .next s
    else if x.sync.role = 0 then .next (writeSkewb m (slewModule m 0 s))
    else if syncCircuit s m x.sync.reference then .next (writeSkewb m (slewModule m (off x.sync.reference) s))
    else .next s
  else
    match x.cmds.find? (fun c => c.code == 9) with
    | none => .next s
    | some c =>
      if syncCircuit s m c.arg = false then .next s
      else if off c.arg ≠ 0 ∧ x.regions ≠ [] then .next (endCmd m c 0x12 0 s)
      else
        let s := updMod m (fun y => { y with sync := { y.sync with role := 1, reference := c.arg, period := c.arg2 } }) (stepTime m (off c.arg) s)
        .next (endCmd m c 0 0 (writeSkewb m s))

/-- TIMESYNC_MISS (R368): an exchange is missed after a PERIOD; four in a row double SKEWB, up to 0xFFFF_FFFE. -/
def execTimesyncMiss (m : Nat) (s : State) : Host.Outcome State Fault Refusal :=
  let x := s.mod m
  if !x.sync.done || !periodOver s x then .next s
  else
    let n := x.sync.missed + 1
    let v := if n < 4 then x.skewb else BitVec.ofNat 32 (Nat.min 0xFFFFFFFE (2 * x.skewb.toNat))
    .next (updMod m (fun y => { y with skewb := v, sync := { y.sync with missed := if n < 4 then n else 0, last := s.ticks } }) s)

/-! ### EVENT (13 R308) -/

/-- EVENT: it is read, and finishes later. -/
def execEvent (m root queue : Nat) (s : State) : Host.Outcome State Fault Refusal :=
  .next (takeCommand 10 0 [(0x10, 8)] m root queue (Entry.refuse m 0x10)
    (fun e t => keepCmd m e 10 (e.arg 0x10 4) 0 0 [] [] t) s)

/-- EVENT_FINISH: the oldest EVENT of a queue whose earlier commands and grids have finished. -/
def execEventFinish (m root queue : Nat) (s : State) : Host.Outcome State Fault Refusal :=
  match (s.mod m).cmds.find? (fun c => c.code == 10 && c.root == root && c.queue == queue) with
  | none => .next s
  | some c => if queueUnfinished s m root queue c.seq || !inService s (cpRet s m) then .next s else .next (endCmd m c 0 c.arg s)

/-! ### Checkpoints (17 R422, R423) -/

/-- One step of CRC-64 (R422). -/
def crc64Step (v : Nat) : Nat := if v % 2 = 1 then (v / 2) ^^^ 0xC96C5795D7870F42 else v / 2

/-- CRC-64, ECMA-182 polynomial, reflected (R422). -/
def crc64 (bs : List Byte) : Nat :=
  (bs.foldl (fun v b =>
    crc64Step (crc64Step (crc64Step (crc64Step (crc64Step (crc64Step (crc64Step (crc64Step (v ^^^ b.toNat))))))))) 0xFFFFFFFFFFFFFFFF)
    ^^^ 0xFFFFFFFFFFFFFFFF

/-- The saved groups of a region's subtree that a checkpoint takes, in order. -/
def ckptImages (s : State) (m region : Nat) : List (Nat × Image) :=
  (s.mod m).saved.filter (fun e => e.2.group.phase != .lost && (lineage s m 8 e.2.group.region).contains region)

/-- Place images after the directory, each aligned to 64 bytes: offsets, and where they end. -/
def placeImages : Nat → List (List Byte) → List (Nat × List Byte) × Nat
  | at_, [] => ([], at_)
  | at_, b :: bs =>
    let a := alignUp at_ 64
    let (r, fin) := placeImages (a + b.length) bs
    ((a, b) :: r, fin)

/-- Bytes up to a length, zeros after them. -/
def padTo (n : Nat) (bs : List Byte) : List Byte := bs ++ List.replicate (n - bs.length) 0

/-- The bytes of a checkpoint (R422). -/
def ckptBytes (region gen : Nat) (xs : List (Nat × Image)) : List Byte :=
  let imgs := xs.map (fun e => imageBytes e.1 e.2)
  let (places, fin) := placeImages (0x40 + 16 * xs.length) imgs
  let size := fin + 16
  let stamp := xs.foldl (fun n e => Nat.max n e.2.stamp) 0
  let head := bytesLE 4 1 ++ bytesLE 4 xs.length ++ bytesLE 8 gen ++ bytesLE 8 stamp ++ bytesLE 8 size ++ bytesLE 2 region
  let dir := (xs.zip places).flatMap (fun p => bytesLE 4 p.1.2.group.grid ++ bytesLE 4 p.1.2.group.index ++ bytesLE 8 p.2.1)
  let body := places.foldl (fun bs p => padTo p.1 bs ++ p.2) (padTo 0x40 head ++ dir)
  let sealed := padTo fin body ++ bytesLE 8 gen
  sealed ++ bytesLE 8 (crc64 sealed)

/-- Write a range page by page under a key id: none when a page does not translate with write permission, cannot be reached, or has a
poisoned sector that the range covers only in part (R221). -/
def writeSpanKey (m root key : Nat) : Nat → Nat → List Byte → State → Option State
  | 0, _, _, s => some s
  | fuel + 1, va, bs, s =>
    match bs with
    | [] => some s
    | _ =>
      let k := Nat.min bs.length (pageLeft va)
      match translateNow s (deviceSpace s m root) .write va with
      | .ok pa _ =>
        if reachable s pa && (poisonPartial s pa k).isNone then writeSpanKey m root key fuel (va + k) (bs.drop k) (writeKey s key pa (bs.take k))
        else none
      | _ => none

/-- A CKPT finishes (R422): its images are written, or the destination does not translate and nothing is. -/
def finishCkpt (m : Nat) (c : Cmd) (s : State) : State :=
  let bs := ckptBytes c.arg2 c.arg3 (ckptImages s m c.arg2)
  match writeSpanKey m c.root (effective s m 7 c.arg2 (·.keyid)) (spanFuel bs.length) c.arg bs s with
  | none => endCmd m c 0x13 0 s
  | some t => endCmd m c 0 0 t

/-- A CKPT begins: a cooperative request to every resident group of the subtree (R422). -/
def beginCkpt (m : Nat) (e : Entry) (s : State) : State :=
  let dest := e.arg 0x10 8
  let i := e.arg 0x18 2
  if !(lineage s m 8 i).contains e.root || (mget? (s.mod m).regions i).isNone || !mayActOn s m i false e.who then e.refuse m 0x11 s
  else if dest % 4096 ≠ 0 then e.refuse m 0x13 s
  else
    let gs := (s.groups.filter (fun g => g.2.m == m && (lineage s m 8 g.2.region).contains i)).map (·.1)
    keepCmd m e 7 dest i (e.arg 0x20 8) [] gs (gs.foldl (fun t g => requestWith g false t) s)

/-- CKPT: one that this queue has begun finishes when none of its groups is on a core any more; else the next command begins (R422, R423). -/
def execCkpt (m root queue : Nat) (s : State) : Host.Outcome State Fault Refusal :=
  match (s.mod m).cmds.find? (fun c => c.code == 7 && c.root == root && c.queue == queue && inService s (cpRet s m)
      && c.todo.all (fun g => (mget? s.groups g).isNone)) with
  | some c => .next (finishCkpt m c s)
  | none => .next (takeCommand 7 1 [(0x10, 10), (0x20, 8)] m root queue (Entry.refuse m 0x10) (beginCkpt m) s)

end Sys2Proof.Machine
end

