-- ==== Sys2Proof/Machine/Ordered.lean ====
section
/-! DEFINITION. The ordered class: routers and their outputs, watermarks and beacons (spec/16 R369 to R374), delivery in key order (13 R315;
16 R374), stalls, cuts and cut-overs (R375 to R377), and failure notices (R378). Ports: 0 to 3 mesh N, E, S, W; 5 the local injector; 6 the
endpoint; 8 + 8 × plane + fibre an optical circuit (log 19). -/

namespace Sys2Proof.Machine

open Sys2Proof

/-! ### Links -/

/-- The plane and fibre of an optical port. -/
def portFibre (port : Nat) : Nat × Nat := ((port - 8) / 8, (port - 8) % 8)
/-- The optical ports. -/
def opticalPorts : List Nat := upFrom 8 32
/-- The port code of a record (R403). -/
def portCode (port : Nat) : Nat := if port ≥ 8 then 4 else port

/-- The far end of a trained optical circuit: its reticle and port. A draining plane still carries what it holds (R440). -/
def opticalFar (s : State) (ret port : Nat) : Option (Nat × Nat) :=
  let (p, f) := portFibre port
  let r := s.ret ret
  let far := portFar (r.fibre p f)
  let q := portPlane (r.fibre p f)
  if !circuitUp s ret p f || decide (r.planeSt p > 1) || decide ((s.ret far).planeSt q > 1) then none
  else ((upFrom 0 8).find? (fun g => portKind ((s.ret far).fibre q g) == 1 && portFar ((s.ret far).fibre q g) == ret
    && portPlane ((s.ret far).fibre q g) == p && (s.ret far).wavesTo q g == r.wavesTo p f)).map (fun g => (far, 8 + 8 * q + g))

/-- The far end of a link of a router. -/
def linkFar (s : State) (ret port : Nat) : Option (Nat × Nat) :=
  if port < 4 then
    match neighbourRet ret port with
    | some n =>
      if inService s n && decide ((s.ret ret).meshSt port ≤ 1) && decide ((s.ret n).meshSt (oppositePort port) ≤ 1) then some (n, oppositePort port)
      else none
    | none => none
  else if port ≥ 8 then opticalFar s ret port
  else none

/-- The optical port of a plane toward a destination. -/
def opticalPortTo (s : State) (ret plane dst : Nat) : Option Nat :=
  ((upFrom 0 8).find? (fun f =>
    let far := portFar ((s.ret ret).fibre plane f)
    circuitUp s ret plane f && (if modOf dst = modOf ret then far == dst else modOf far == modOf dst))).map (fun f => 8 + 8 * plane + f)

/-- A mesh table entry as it stood before the last cut-over (R375). -/
def oldEntry (s : State) (ret dst : Nat) : Nat := (mget (s.ret ret).meshOld (dst % 128) 0).toNat

/-- The old mesh route from one reticle to another has every link up. -/
def oldOpen (s : State) : Nat → Nat → Nat → Bool
  | 0, _, _ => false
  | n + 1, a, b =>
    if a = b then true
    else
      let e := oldEntry s a b
      match linkFar s a (entryPort e) with
      | some (c, _) => bitOf e 7 && oldOpen s n c b
      | none => false

/-- The mesh table entry by which an ordered packet with a stamp is routed (R375): below the stamp of the last cut-over the old one, unless a
port of the old route is down (R428). -/
def stampedEntry (s : State) (ret dst stamp : Nat) : Nat :=
  if stamp < (s.ret ret).meshTc ∧ oldOpen s 40 ret dst = true then oldEntry s ret dst else meshEntry s ret dst

/-- The output port that an ordered packet takes at the router that holds it (R353, R375, R429). -/
def nextOut (s : State) (p : Packet) : Option Nat :=
  let mesh := fun (dst : Nat) => let e := stampedEntry s p.pos dst p.stamp; if bitOf e 7 then some (entryPort e) else none
  if p.pos = p.dst then some 6
  else if p.crossed then mesh p.dst
  else
    match p.route with
    | .mesh => mesh p.dst
    | .own q => opticalPortTo s p.pos q p.dst
    | .neighbour e planes =>
      if p.pos = e then
        match bestPlane (s.ret e) (planesOf planes) with
        | some (q, _) => opticalPortTo s e q p.dst
        | none => match ownRoute s e p.dst with | some (.own q, _) => opticalPortTo s e q p.dst | _ => none
      else mesh e

/-! ### Watermarks (R370 to R373) -/

/-- The order of keys (R242, R369): by stamp, then source, then sequence. -/
def Packet.key (p : Packet) : Nat := (p.stamp * 2 ^ 17 + p.src) * 2 ^ 32 + p.seq

/-- An ordered operation is partly injected (R371): its first packet has left, and its last has not. -/
def WorkOp.partly (o : WorkOp) : Bool :=
  o.wr.ordered && o.wr.puts && !o.wr.toPeer && decide (o.moved > 0) && !o.injected && o.err.isNone

/-- The watermark of a reticle's local injector (R371). -/
def injectorWm (s : State) (ret : Nat) : Nat :=
  let packets := (s.wire.filter (fun e => e.2.ordered && !e.2.moved && e.2.pos == ret)).map (fun e => e.2.stamp)
  let works := (s.works.filter (fun e => e.2.ret == ret && e.2.partly)).map (fun e => e.2.stamp)
  (packets ++ works).foldl Nat.min (Nat.max (wtime s ret) ((s.ret ret).lastStamp + 1))

/-- The watermark that an input port of a router has. -/
def inputWm (s : State) (ret port : Nat) : Nat := if port = 5 then injectorWm s ret else mget (s.ret ret).inWm port 0

/-- The reticles of a module in service, as destinations of its mesh tables. -/
def meshDests (s : State) (ret : Nat) : List Nat := servedRets s (modOf ret)

/-- Some route tables can send traffic that enters a router by a port to one of its outputs (R372). -/
def feeds (s : State) (tables : List (Nat → Nat → Nat)) (ret input output : Nat) : Bool :=
  let here := fun (d : Nat) => tables.any (fun t => bitOf (t ret d) 7 && entryPort (t ret d) == output)
  let toHere := fun (d : Nat) => match linkFar s ret input with
    | some (n, o) => d != n && tables.any (fun t => bitOf (t n d) 7 && entryPort (t n d) == o)
    | none => false
  if input = 5 then
    (if output < 4 then (meshDests s ret).any here else true)
  else if input < 4 then
    (if output < 4 then (meshDests s ret).any (fun d => d != ret && toHere d && here d) else toHere ret)
  else
    (if output < 4 then (meshDests s ret).any (fun d => d != ret && here d) else output == 6)

/-- The input set of an output (R372, R375, R377). An input that leaves with the mesh tables' change stays until its watermark reaches the
change's stamp. -/
def inputSet (s : State) (ret output : Nat) : List Nat :=
  let links := ([0, 1, 2, 3] ++ opticalPorts).filter (fun i => i != output && (linkFar s ret i).isSome && !smem (s.ret ret).cutPorts i)
  (5 :: links).filter (fun i => feeds s [meshEntry s] ret i output
    || (decide (inputWm s ret i < (s.ret ret).meshTc) && feeds s [oldEntry s, meshEntry s] ret i output))

/-- The ordered packets that a router holds for an output. -/
def heldFor (s : State) (ret output : Nat) : List (Nat × Packet) :=
  s.wire.filter (fun e => e.2.ordered && e.2.moved && e.2.pos == ret && !smem (s.ret ret).ordBuf e.1 && nextOut s e.2 == some output)

/-- The watermark that an output sends (R372): never lower than one already sent. -/
def outputWm (s : State) (ret output : Nat) : Nat :=
  let ins := (inputSet s ret output).map (inputWm s ret)
  let held := (heldFor s ret output).map (fun e => e.2.stamp)
  match ins ++ held with
  | [] => mget (s.ret ret).outWm output 0
  | x :: xs => Nat.max (mget (s.ret ret).outWm output 0) (xs.foldl Nat.min x)

/-- A watermark has been sent on an output. -/
def sentWm (ret output wm : Nat) (s : State) : State :=
  updRet ret (fun r => { r with outWm := mput r.outWm output wm, sentAt := mput r.sentAt output s.ticks }) s

/-- A link direction has sent nothing for 3,200 ticks (R373). -/
def linkIdle (s : State) (ret output : Nat) : Bool := decide (s.ticks - mget (s.ret ret).sentAt output 0 ≥ 3200)

/-- A watermark has been received on an input: it never falls, and an input that moves is no longer stalled. -/
def receiveWm (ret input wm : Nat) (s : State) : State :=
  updRet ret (fun r =>
    { r with inWm := mput r.inWm input (Nat.max wm (mget r.inWm input 0)), stalled := sdel (sdel r.stalled input) 6 }) s

/-- WR: the watermark of the router output that leads to the endpoint (R374). -/
def endpointWm (s : State) (ret : Nat) : Nat := outputWm s ret 6

/-- BEACON_SEND (R373): an idle link direction sends its watermark; the beacon arrives at the far end. -/
def execBeaconSend (ret port : Nat) (s : State) : Host.Outcome State Fault Refusal :=
  match linkFar s ret port with
  | none => .next s
  | some (far, i) =>
    if !linkIdle s ret port then .next s
    else
      let wm := outputWm s ret port
      .next (receiveWm far i wm (sentWm ret port wm s))

/-- BEACON_RECEIVE (R370, R373): a beacon with a watermark arrives on a link. It raises the input's watermark to what the far end has sent, or
sends now on an idle link: a beacon above that does not exist, and is taken at it. -/
def execBeaconReceive (ret port : Nat) (stamp : W64) (s : State) : Host.Outcome State Fault Refusal :=
  match linkFar s ret port with
  | none => .next s
  | some (far, o) =>
    let last := mget (s.ret far).outWm o 0
    let wm := Nat.min stamp.toNat (if linkIdle s far o then outputWm s far o else last)
    .next (receiveWm ret port wm (if last < wm then sentWm far o wm s else s))

/-! ### Packets (R315, R370, R372) -/

/-- Bytes of a packet in flits (R426). -/
def packetBytes (p : Packet) : Nat :=
  let n := match p.body with | .put _ _ _ bs => bs.length | .atomic _ _ _ => 32 | _ => 0
  64 * ceilDiv (32 + n) 60

/-- The ordered delivery buffer of a reticle holds 4 MiB (R315). -/
def bufferFull (s : State) (ret : Nat) (p : Packet) : Bool :=
  decide ((((s.ret ret).ordBuf.filterMap (mget? s.wire)).map packetBytes).foldl (· + ·) (packetBytes p) > 0x400000)

/-- A packet returns to its source with an error (R377, R428): its operation ends with REMOTE_ERROR. The other packets of an ordered one go
with it, since no receiver applies it in part (R374). -/
def returnPacket (i : Nat) (p : Packet) (s : State) : State :=
  let t := { s with wire := mdel s.wire i }
  match p.op? with
  | some op =>
    let u := failWork op .remoteError (workRaddr s op) 0 t
    if p.ordered then updWork op (fun o => { o with outstanding := 0 }) (dropPackets op p.dst u) else packetDone op u
  | none => t

/-- A packet reaches a router: at its destination it is held for delivery (R315). -/
def arriveAt (i ret : Nat) (crossed : Bool) (p : Packet) (s : State) : State :=
  let s := { s with wire := mput s.wire i { p with pos := ret, moved := true, crossed := p.crossed || crossed } }
  if p.dst = ret then updRet ret (fun r => { r with ordBuf := sadd r.ordBuf i }) s else s

/-- ORDERED_PACKET_ARRIVAL (R315, R370, R372, R377): an ordered packet enters a router, from the local injector (port 5) or over a link, where
the packets for one output leave in key order and carry the sender's watermark. A full buffer holds every one that comes over a link, and those
to its own reticle. On a port that is cut, or with a stamp that the link had promised not to send, it is returned with an error. -/
def execOrderedPacketArrival (ret port pkt : Nat) (s : State) : Host.Outcome State Fault Refusal :=
  match mget? s.wire pkt with
  | none => .next s
  | some p =>
    if !p.ordered || smem (s.ret p.pos).ordBuf pkt || ((p.dst == ret || port != 5) && bufferFull s ret p) then .next s
    else if port = 5 then
      (if p.moved ∨ p.pos ≠ ret then .next s else .next (arriveAt pkt ret false p s))
    else
      match linkFar s ret port with
      | none => .next s
      | some (far, o) =>
        if p.moved = false ∨ p.pos ≠ far ∨ nextOut s p ≠ some o ∨ (heldFor s far o).any (fun e => decide (e.2.key < p.key)) then .next s
        else
          let wm := outputWm s far o
          let cut := smem (s.ret ret).cutPorts port || decide (p.stamp < mget (s.ret ret).inWm port 0)
          let t := receiveWm ret port wm (sentWm far o wm s)
          .next (if cut then returnPacket pkt p t else arriveAt pkt ret (port ≥ 8) p t)

/-! ### Delivery (R242, R374) -/

/-- The packets of an operation that a receiver holds. -/
def heldOf (s : State) (ret op : Nat) : List (Nat × Packet) :=
  ((s.ret ret).ordBuf.filterMap (fun i => (mget? s.wire i).map (fun p => (i, p)))).filter (fun e => e.2.op? == some op)

/-- A receiver holds all the packets of an operation: its last one has left its source. -/
def holdsWhole (s : State) (ret : Nat) (p : Packet) : Bool :=
  match p.op? with
  | none => true
  | some op => match mget? s.works op with | some o => o.injected && (heldOf s ret op).length == o.outstanding | none => true

/-- The held packet of the lowest key that may be delivered: its stamp is below the watermark, and its operation is whole (R374, R378). -/
def nextOrdered (s : State) (ret : Nat) : Option (Nat × Packet) :=
  let wr := endpointWm s ret
  argMin (fun e => e.2.key) (((s.ret ret).ordBuf.filterMap (fun i => (mget? s.wire i).map (fun p => (i, p)))).filter (fun e =>
    decide (e.2.stamp < wr) && holdsWhole s ret e.2))

/-- Take a packet out of a receiver's buffer. -/
def takeHeld (ret i : Nat) (s : State) : State :=
  let t := updRet ret (fun r => { r with ordBuf := sdel r.ordBuf i }) s
  { t with wire := mdel t.wire i }

/-- ORDERED_DELIVERY (R374): the operation of the lowest key is applied wholly. -/
def execOrderedDelivery (ret : Nat) (s : State) : Host.Outcome State Fault Refusal :=
  match nextOrdered s ret with
  | none => .next s
  | some (_, p) =>
    match p.op? with
    | none => .next s
    | some op => .next ((heldOf s ret op).foldl (fun t e => performPacket e.2 (takeHeld ret e.1 t)) s)

/-- A notice at a receiver that is the next in key order. -/
def noticeNext (s : State) (ret i : Nat) : Bool := match nextOrdered s ret with | some (j, _) => j == i | none => false

/-- A notice in the ordered class from a reticle to others, under one key (R369, R378, R385): its stamp is at least a given one. -/
def sendNotice (src atLeast : Nat) (dsts : List Nat) (body : Body) (s : State) : State :=
  let (stamp, seq, s) := takeKey src atLeast s
  dsts.foldl (fun t d =>
    let (i, t) := freshId t
    let route := if d = src then Route.mesh else (chooseRoute t src d 0).getD .mesh
    let p : Packet :=
      { src := src, dst := d, ordered := true, stamp := stamp, seq := seq, pos := src, moved := false, route := route, crossed := false
        placed := 0, body := body }
    { t with wire := mput t.wire i p }) s

/-- FAILURE_NOTICE (R378): the notice of a reticle is delivered in key order; every operation of that reticle of which only some packets are
held is discarded wholly. -/
def execFailureNotice (ret pkt : Nat) (s : State) : Host.Outcome State Fault Refusal :=
  match mget? s.wire pkt with
  | none => .next s
  | some p =>
    match p.body with
    | .failure u =>
      if !noticeNext s ret pkt then .next s
      else
        let t := takeHeld ret pkt s
        let part := ((t.ret ret).ordBuf.filterMap (fun i => (mget? t.wire i).map (fun q => (i, q)))).filter (fun e =>
          e.2.src == u && e.2.op?.isSome && !holdsWhole t ret e.2)
        .next (part.foldl (fun x e => takeHeld ret e.1 x) t)
    | _ => .next s

/-! ### Stalls and cuts (R375 to R377) -/

/-- The stamp of a cut-over (R375): at least 2 × SKEWB + 3,200 ticks after the current time. -/
def cutStamp (s : State) (ret : Nat) : Nat := wtime s ret + 2 * (s.mod (modOf ret)).skewb.toNat + 3200 + Config.choice s.free

/-- Add a cut-over to a reticle. -/
def addCut (ret stamp : Nat) (k : CutKind) (s : State) : State := updRet ret (fun r => { r with cuts := r.cuts ++ [⟨stamp, k⟩] }) s

/-- A watermark lags a router's time by more than WMLIM (R376): port 6 is the receiver. -/
def lags (s : State) (ret port : Nat) : Bool :=
  let wm := if port = 6 then endpointWm s ret else inputWm s ret port
  decide (wtime s ret > wm + (s.ret ret).wmlim.toNat)

/-- The regions with an ordered operation held in a receiver's buffer: module, root and region. -/
def heldRegions (s : State) (ret : Nat) : List (Nat × Nat × Nat) :=
  (((s.ret ret).ordBuf.filterMap (mget? s.wire)).filterMap (fun p => p.op?.bind (mget? s.works))).foldl
    (fun acc o => if acc.contains (o.m, o.root, o.region) then acc else acc ++ [(o.m, o.root, o.region)]) []

/-- WATERMARK_STALL (R376): the record goes to the host and to the domains with an operation in the buffer. No group is halted. -/
def execWatermarkStall (ret port : Nat) (s : State) : Host.Outcome State Fault Refusal :=
  let known := port == 6 || (linkFar s ret port).isSome
  if !known || !inService s ret || !lags s ret port || smem (s.ret ret).stalled port || smem (s.ret ret).cutPorts port then .next s
  else
    let wm := if port = 6 then endpointWm s ret else inputWm s ret port
    let worst := if port = 6 then (argMin (inputWm s ret) (inputSet s ret 6)).getD 5 else port
    let d := portCode worst + ret % 128 * 8
    let hs := heldRegions s ret
    let s := noticeHost ret none .watermarkStall 0 wm d s
    let s := hs.foldl (fun t h => noticeDomain h.1 h.2.1 h.2.2 ret none .watermarkStall 0 wm d t) s
    .next (updRet ret (fun r => { r with stalled := sadd r.stalled port }) s)

/-- PORT_CUT (R377): the host has a stalled port cut out at a stamp. -/
def execPortCut (ret port : Nat) (s : State) : Host.Outcome State Fault Refusal :=
  if !lags s ret port || port == 5 || port == 6 || smem (s.ret ret).cutPorts port then .next (tell (.status 0x13) s)
  else .next (tell (.status 0) (addCut ret (cutStamp s ret) (.leave port) { s with free := s.free + 1 }))

/-! ### Mesh tables (R353, R428) -/

/-- Distances to a reticle over the links that are up, by rounds of relaxation. -/
def meshDist (s : State) (rets : List Nat) (dst : Nat) : Nat → SMap Nat
  | 0 => [(dst, 0)]
  | n + 1 =>
    let d := meshDist s rets dst n
    rets.foldl (fun acc r =>
      if (mget? acc r).isSome then acc
      else
        match argMin id ([0, 1, 2, 3].filterMap (fun p => (linkFar s r p).bind (fun f => mget? d f.1))) with
        | some k => mput acc r (k + 1)
        | none => acc) d

/-- The mesh table entry of a reticle toward a destination: of its ports on a shortest path, E and W come before N and S (log 19). -/
def meshEntryFor (s : State) (dist : SMap Nat) (ret dst : Nat) : BitVec 8 :=
  if ret = dst then 0x80
  else
    match mget? dist ret with
    | none => 0
    | some k =>
      match [1, 3, 0, 2].find? (fun p => match linkFar s ret p with | some (n, _) => mget? dist n == some (k - 1) && decide (k > 0) | none => false) with
      | some p => BitVec.ofNat 8 (k % 32 + p * 32 + 128)
      | none => 0

/-- A mesh port that faces an absent or not-in-service site reads 3 (R139). -/
def absentPorts (ret : Nat) (s : State) : State :=
  let away := fun (p : Nat) => !(match neighbourRet ret p with | some n => inService s n | none => false)
  updRet ret (fun r => setLstate r.plane ([0, 1, 2, 3].foldl (fun b p => if away p then putTwo b p 3 else b) r.mesh) r) s

/-- LSTATE.HOST of every reticle, by whether it reaches the active command processor over the links that are up (R447). -/
def noteHost (m : Nat) (s : State) : State :=
  let cp := cpRet s m
  let near := meshDist s (servedRets s m) cp 31
  (moduleRets m).foldl (fun t r => updRet r (fun x => { x with
    host := (s.mod m).hostUp && inService s cp && inService s r && (mget? near r).isSome }) t) s

/-- The Shepherds write the mesh tables of a module anew, under a stamp (R375, R428). -/
def rewriteMesh (m tc : Nat) (s : State) : State :=
  let rets := servedRets s m
  noteHost m <|
  rets.foldl (fun t d =>
    let dist := meshDist s rets d 31
    rets.foldl (fun u r => updRet r (fun x => { x with meshTab := mput x.meshTab (d % 128) (meshEntryFor s dist r d) }) u) t)
    (rets.foldl (fun t r => updRet r (fun x => { x with meshTab := [], meshOld := x.meshTab, meshTc := tc }) t) s)

/-- The mesh ports that the host had cut out join again with a change of the mesh tables (R377). -/
def rejoinCut (ret tc : Nat) (s : State) : State :=
  updRet ret (fun r =>
    let back := r.cutPorts.filter (fun p => decide (p < 4) && !r.cuts.any (fun c => c.kind == .join p))
    { r with
      cutPorts := r.cutPorts.filter (fun p => !back.contains p)
      inWm := back.foldl (fun w p => mput w p (Nat.max tc (mget w p 0))) r.inWm }) s

/-- TOPOLOGY_CUTOVER (R375, R377, R428): WTIME has reached the stamp of one of a reticle's cut-overs. A stalled port leaves every input set,
unless it has recovered; a joining input enters with the stamp as its watermark; the mesh tables take their new routes. -/
def execTopologyCutover (ret : Nat) (s : State) : Host.Outcome State Fault Refusal :=
  match (s.ret ret).cuts.find? (fun c => decide (c.stamp ≤ wtime s ret)) with
  | none => .next s
  | some c =>
      let t := updRet ret (fun r => { r with cuts := r.cuts.filter (fun d => d != c) }) s
      .next (match c.kind with
        | .leave port => if lags s ret port then updRet ret (fun r => { r with cutPorts := sadd r.cutPorts port }) t else t
        | .join port => updRet ret (fun r => { r with cutPorts := sdel r.cutPorts port, inWm := mput r.inWm port c.stamp }) t
        | .mesh => rewriteMesh (modOf ret) c.stamp ((servedRets t (modOf ret)).foldl (fun u r => rejoinCut r c.stamp u) t))

end Sys2Proof.Machine
end

