-- ==== Sys2Proof/Machine/Topo.lean ====
section
/-! DEFINITION. The optical planes: TOPO and DRAIN (spec/18 R437 to R440), the plane steps (13 R316), rings (15 R355; 18 R433 to R436) and
the cartridge (18 R441). -/

namespace Sys2Proof.Machine

open Sys2Proof

/-! ### The plane step queue (R316) -/

/-- The plane of a step. -/
def PlaneStep.plane : PlaneStep → Nat
  | .stop p => p
  | .waitack p => p
  | .retune p _ _ => p
  | .waitlock p => p
  | .resume p => p
  | .down p => p

/-- Queue the steps of one plane at a reticle: behind those of a plane that is under way (R316, R436). -/
def pushSteps (ret : Nat) (ss : List PlaneStep) (s : State) : State :=
  updRet ret (fun r =>
    if ss.isEmpty then r
    else if r.planeSteps.isEmpty then { r with planeSteps := ss, stepSince := s.ticks }
    else { r with planeNext := r.planeNext ++ [ss] }) s

/-- The step at the head of a reticle's queue is done; after the last one of a plane come those of the next plane. -/
def popStep (ret : Nat) (s : State) : State :=
  updRet ret (fun r => match r.planeSteps.drop 1, r.planeNext with
    | [], g :: gs => { r with planeSteps := g, planeNext := gs, stepSince := s.ticks }
    | rest, _ => { r with planeSteps := rest, stepSince := s.ticks }) s

/-- The step at the head of a reticle's queue. -/
def headStep (s : State) (ret : Nat) : Option PlaneStep := (s.ret ret).planeSteps.head?

/-- The steps queued at a reticle, of the plane under way and of further ones. -/
def RetSt.allSteps (r : RetSt) : List PlaneStep := r.planeSteps ++ r.planeNext.flatten

/-- A reticle has steps of a plane still queued. -/
def stepsLeft (s : State) (ret plane : Nat) : Bool := (s.ret ret).allSteps.any (fun x => x.plane == plane)

/-! ### TOPO (R437, R438) -/

/-- A module table entry of a MOD list, 8 bytes: none with a reserved bit set (R353, R437). -/
def modItem (bs : List Byte) : Option (Nat × Nat) :=
  if fieldLE bs 0 2 > 1023 ∨ fieldLE bs 2 2 ≠ 0 ∨ fieldLE bs 4 4 ≥ 2 ^ 25 then none else some (fieldLE bs 0 2, fieldLE bs 4 4)

/-- All of some options, or none. -/
def allSome {α : Type} : List (Option α) → Option (List α)
  | [] => some []
  | none :: _ => none
  | some x :: xs => (allSome xs).map (x :: ·)

/-- A reticle record of a wavelength assignment and the rest of the bytes (R437): none when it stands outside its limits. -/
def topoRec (s : State) (m mask : Nat) (bs : List Byte) : Option TopoRec :=
  let n := fieldLE bs 2 2
  let waves := (upFrom 0 16).map (fun w => fieldLE bs (0x10 + w) 1)
  let ports := (upFrom 0 8).map (fun f => fieldLE bs (0x20 + 8 * f) 8)
  let ret := m * 128 + fieldLE bs 0 1
  let plane := fieldLE bs 1 1
  let count := fun (f : Nat) => (waves.filter (fun v => bitOf v 7 && v % 8 == f)).length
  if fieldLE bs 0 1 ≥ 128 ∨ inService s ret = false ∨ plane > 3 ∨ bitOf mask plane = false ∨ n > 1024 ∨ fieldLE bs 4 12 ≠ 0
      ∨ waves.any (fun v => bitsOf v 6 3 != 0) = true
      ∨ ports.any (fun e => decide (e ≥ 2 ^ 21) || portKind e == 3) = true
      ∨ waves.any (fun v => bitOf v 7 && portKind (nthD 0 ports (v % 8)) == 0) = true
      ∨ (upFrom 0 8).any (fun f => portKind (nthD 0 ports f) == 2 && !(([1, 2, 4, 8] : List Nat).contains (count f))) = true then none
  else (allSome ((upFrom 0 n).map (fun i => modItem ((bs.drop (0x60 + 8 * i)).take 8)))).map (fun es => ⟨ret, plane, waves, ports, es⟩)

/-- The reticle records of an assignment, read one by one at their addresses. -/
def topoRecs (s : State) (m root mask : Nat) : Nat → Nat → Option (List TopoRec)
  | 0, _ => some []
  | n + 1, a =>
    match readSpan s m root 2 a 96 with
    | none => none
    | some h =>
      let len := 96 + 8 * Nat.min (fieldLE h 2 2) 1024
      match readSpan s m root 2 a len with
      | none => none
      | some bs =>
        match topoRec s m mask bs with
        | none => none
        | some r => (topoRecs s m root mask n (a + len)).map (r :: ·)

/-- A wavelength assignment (R437): none when the command fails with BAD_ARGUMENT. -/
def topoImage (s : State) (m root mask a : Nat) : Option (List TopoRec) :=
  match (if a % 8 ≠ 0 then none else readSpan s m root 2 a 16) with
  | none => none
  | some h =>
    if fieldLE h 0 2 ≠ 1 ∨ fieldLE h 2 2 < 1 ∨ fieldLE h 2 2 > 320 ∨ fieldLE h 4 12 ≠ 0 then none
    else
      match topoRecs s m root mask (fieldLE h 2 2) (a + 16) with
      | none => none
      | some rs => if (dedupe (rs.map (fun r => r.ret * 4 + r.plane))).length = rs.length then some rs else none

/-- A topology change is under way on a plane of a mask: a TOPO or DRAIN with the plane still to do, or queued steps of a reticle (R438). -/
def planesBusy (s : State) (m mask : Nat) (rets : List Nat) : Bool :=
  (s.mod m).cmds.any (fun c => (c.code == 5 || c.code == 6) && c.todo.any (bitOf mask))
  || rets.any (fun r => (planesOf mask).any (stepsLeft s r))

/-- The steps of a TOPO at a reticle record (R438). -/
def TopoRec.steps (r : TopoRec) : List PlaneStep :=
  [.stop r.plane, .waitack r.plane, .retune r.plane r.waves r.ports, .waitlock r.plane, .resume r.plane]

/-- The steps of a DRAIN at a plane by its state (R439): resume or not. -/
def drainSteps (resume : Bool) (plane st : Nat) : List PlaneStep :=
  if st = 0 then [.stop plane, .waitack plane] ++ (if resume then [.resume plane] else [.down plane])
  else if resume then [.retune plane [] [], .waitlock plane, .resume plane]
  else []

/-- Queue the steps of a command's current plane. -/
def startPlane (m : Nat) (c : Cmd) (plane : Nat) (s : State) : State :=
  if c.code = 5 then (c.recs.filter (fun r => r.plane == plane)).foldl (fun t r => pushSteps r.ret r.steps t) s
  else (servedRets s m).foldl (fun t r => pushSteps r (drainSteps (c.arg == 1) plane ((s.ret r).planeSt plane)) t) s

/-- A TOPO replaces the module table entries of its MOD lists (R353). -/
def applyEntries (recs : List TopoRec) (s : State) : State :=
  recs.foldl (fun t r => updRet r.ret (fun x => { x with
    modTab := r.entries.foldl (fun tab e => mput tab e.1 (BitVec.ofNat 32 e.2)) x.modTab }) t) s

/-- Replace a command by its changed form. -/
def putCmd (m : Nat) (c : Cmd) (s : State) : State :=
  updMod m (fun x => { x with cmds := x.cmds.map (fun d => if d.seq = c.seq then c else d) }) s

/-- Advance one TOPO or DRAIN (R438, R439): when no reticle has steps of the current plane left, the next plane's are queued, and after the
last plane the command finishes, with the TGEN of the reticle of the last step. -/
def advanceCmd (m last : Nat) : Nat → Cmd → State → State
  | 0, _, s => s
  | fuel + 1, c, s =>
    match c.todo with
    | [] => s
    | p :: rest =>
      let rets := if c.code = 5 then c.recs.map (·.ret) else servedRets s m
      if rets.any (fun r => stepsLeft s r p) then s
      else
        match rest with
        | [] =>
          if c.failed then endCmd m c 0x12 0 s
          else
            let s := if c.code = 5 then applyEntries c.recs s else s
            endCmd m c 0 (s.ret last).tgen.toNat s
        | q :: _ =>
          let c' := { c with todo := rest }
          advanceCmd m last fuel c' (startPlane m c' q (putCmd m c' s))

/-- Advance every TOPO and DRAIN of a module after a plane step at a reticle. -/
def advanceTopo (ret : Nat) (s : State) : State :=
  let m := modOf ret
  ((s.mod m).cmds.filter (fun c => c.code == 5 || c.code == 6)).foldl (fun t c => advanceCmd m ret 5 c t) s

/-- Begin a TOPO or DRAIN whose checks have passed. -/
def beginPlanes (m : Nat) (e : Entry) (code resume mask : Nat) (recs : List TopoRec) (s : State) : State :=
  match planesOf mask with
  | [] => e.done m 0 (s.ret (m * 128 + (s.mod m).activeCp)).tgen.toNat s
  | p :: ps =>
    let s := keepCmd m e code resume 0 0 recs (p :: ps) s
    match (s.mod m).cmds.getLast? with
    | some c => advanceCmd m (m * 128 + (s.mod m).activeCp) 5 c (startPlane m c p s)
    | none => s

/-- TOPO: its checks in the order limits, BUSY, STALE_TOPOLOGY (R309, R437, R438). -/
def doTopo (m : Nat) (e : Entry) (s : State) : State :=
  let mask := e.arg 0x18 1
  if mask ≥ 16 then e.refuse m 0x10 s
  else
    match topoImage s m e.root mask (e.arg 0x10 8) with
    | none => e.refuse m 0x13 s
    | some recs =>
      let rets := recs.map (·.ret)
      if planesBusy s m mask rets then e.refuse m 0x12 s
      else if rets.any (fun r => (s.ret r).tgen.toNat != e.arg 0x1C 2) then e.refuse m 0x14 s
      else beginPlanes m e 5 0 mask recs s

/-- TOPO. -/
def execTopo (m root queue : Nat) (s : State) : Host.Outcome State Fault Refusal :=
  .next (takeCommand 5 1 [(0x10, 9), (0x1C, 2)] m root queue (Entry.refuse m 0x10) (doTopo m) s)

/-- DRAIN (R439). -/
def doDrain (m : Nat) (e : Entry) (s : State) : State :=
  let mask := e.arg 0x18 1
  let resume := e.arg 0x1C 1
  if mask ≥ 16 ∨ resume ≥ 2 then e.refuse m 0x10 s
  else if planesBusy s m mask (servedRets s m) then e.refuse m 0x12 s
  else beginPlanes m e 6 resume mask [] s

/-- DRAIN. -/
def execDrain (m root queue : Nat) (s : State) : Host.Outcome State Fault Refusal :=
  .next (takeCommand 6 1 [(0x18, 1), (0x1C, 1)] m root queue (Entry.refuse m 0x10) (doDrain m) s)

/-! ### The plane steps (R316, R440) -/

/-- STOP: the plane accepts no new injection. -/
def execPlaneStop (ret : Nat) (s : State) : Host.Outcome State Fault Refusal :=
  match headStep s ret with
  | some (.stop p) => .next (popStep ret (updRet ret (setPlane p 1) s))
  | _ => .next s

/-- A packet leaves a reticle by one of its planes. -/
def leavesBy (s : State) (ret plane : Nat) (p : Packet) : Bool :=
  p.pos == ret && !p.crossed && (match p.route with
    | .own q => q == plane
    | .neighbour e _ => p.moved && e == ret && (match nextOut s p with | some o => decide (o ≥ 8) && (portFibre o).1 == plane | none => false)
    | .mesh => false)

/-- Hand the packets that would leave by a plane to a live route, chosen by their work request's ROUTE (R354); one that finds none is returned
with an error (R440, R441). -/
def handOver (ret plane : Nat) (s : State) : State :=
  (s.wire.filter (fun e => leavesBy s ret plane e.2)).foldl (fun t e =>
    match chooseRoute t ret e.2.dst (match e.2.op? with | some op => workRoute t op | none => 0) with
    | some r => { t with wire := mput t.wire e.1 { e.2 with route := r } }
    | none => returnPacket e.1 e.2 t) s

/-- WAITACK: what the plane had sent is acknowledged, and the rest is handed over. Ordered packets in its router leave first, in key order. -/
def execWaitack (ret : Nat) (s : State) : Host.Outcome State Fault Refusal :=
  match headStep s ret with
  | some (.waitack p) =>
    if s.wire.any (fun e => e.2.ordered && e.2.moved && leavesBy s ret p e.2 && (nextOut s e.2).isSome) then .next s
    else .next (popStep ret (handOver ret p s))
  | _ => .next s

/-- The calibrated start heater code of a ring (R441). -/
def startCode (ret ring : Nat) : Nat := Config.heaterCode (ret * 640 + ring) 0 % 4096

/-- A ring's entry as RETUNE leaves it: its wavelength, its fibre port, its start code; not retired, not locked (R355, R433). -/
def retunedRing (ret plane i : Nat) (old : W32) : W32 :=
  let w := if i < 32 then i % 16 else (i - 32) / 8
  let f := if i < 32 then 0 else (i - 32) % 8
  BitVec.ofNat 32 (startCode ret (ringIndex plane i) + bitsOf old.toNat 14 13 * 2 ^ 13 + w * 2 ^ 16 + f * 2 ^ 20)

/-- Change every ring of a plane. -/
def updRings (ret plane : Nat) (f : Nat → W32 → W32) (s : State) : State :=
  updRet ret (fun r => { r with
    rings := (upFrom 0 160).foldl (fun m i => mput m (ringIndex plane i) (f i (mget m (ringIndex plane i) 0))) r.rings
    lockLostAt := r.lockLostAt.filter (fun e => e.1 / 160 != plane) }) s

/-- RETUNE: the assignment becomes the plane's port map and goes into the heaters (R436, R437). -/
def execRetune (ret : Nat) (s : State) : Host.Outcome State Fault Refusal :=
  match headStep s ret with
  | some (.retune p waves ports) =>
    let load := fun (r : RetSt) =>
      let r := { r with links := r.links.filter (fun e => e.1 / 8 != p + 1) }
      if waves.isEmpty then r
      else { r with portMap := ((upFrom 0 8).zip ports ++ (upFrom 8 16).zip waves).foldl (fun pm e => mput pm (p * 32 + e.1) e.2) r.portMap }
    .next (popStep ret (updRings ret p (retunedRing ret p) (updRet ret (fun r => setPlane p 2 (load r)) s)))
  | _ => .next s

/-- A ring that holds lock, with the heater where its lock loop left it, at neither end (R435). -/
def lockedRing (s : State) (ret ring : Nat) (old : W32) : W32 :=
  let code := 1 + Config.heaterCode (ret * 640 + ring) (s.free + 1) % 4094
  BitVec.ofNat 32 (old.toNat / 4096 * 4096 + code) ||| 0x1000#32

/-- WAITLOCK: every ring of the plane reports LOCK, within 1 ms. The rings of a cartridge that is not powered do not lock. -/
def execWaitlock (ret : Nat) (s : State) : Host.Outcome State Fault Refusal :=
  match headStep s ret with
  | some (.waitlock p) =>
    if (s.ret ret).cartridge = .active ∧ s.ticks - (s.ret ret).stepSince < 16000000 then
      .next (popStep ret { updRings ret p (fun i => lockedRing s ret (ringIndex p i)) s with free := s.free + 1 })
    else .next s
  | _ => .next s

/-- WAITLOCK_TIMEOUT (R316): after 1 ms DOWN takes the place of WAITLOCK and of its RESUME, and the TOPO reports BUSY. -/
def execWaitlockTimeout (ret : Nat) (s : State) : Host.Outcome State Fault Refusal :=
  match (s.ret ret).planeSteps with
  | .waitlock p :: rest =>
    if s.ticks - (s.ret ret).stepSince < 16000000 then .next s
    else
      let rest := match rest with | .resume _ :: more => more | _ => rest
      let s := updRet ret (fun r => { r with planeSteps := .down p :: rest, stepSince := s.ticks }) s
      .next (updMod (modOf ret) (fun x => { x with cmds := x.cmds.map (fun c =>
        if c.code = 5 ∧ c.todo.head? = some p ∧ c.recs.any (fun r => r.ret == ret && r.plane == p) = true then { c with failed := true } else c) }) s)
  | _ => .next s

/-- The optical inputs of a plane join the input sets at a cut-over (R375). -/
def joinPlane (ret plane : Nat) (s : State) : State :=
  let tc := cutStamp s ret
  (upFrom (8 + 8 * plane) 8).foldl (fun t port =>
    addCut ret tc (.join port) (updRet ret (fun r => { r with cutPorts := sadd r.cutPorts port }) t)) { s with free := s.free + 1 }

/-- RESUME: the plane accepts injection; the TOPO or DRAIN goes on. -/
def execPlaneResume (ret : Nat) (s : State) : Host.Outcome State Fault Refusal :=
  match headStep s ret with
  | some (.resume p) => .next (advanceTopo ret (joinPlane ret p (popStep ret (updRet ret (setPlane p 0) s))))
  | _ => .next s

/-- A cartridge that is quiescing is SAFE when all its planes are down (R441). -/
def settleCartridge (ret : Nat) (s : State) : State :=
  updRet ret (fun r => if r.cartridge = .quiescing ∧ r.plane = 0xFF ∧ r.allSteps.isEmpty = true then { r with cartridge := .safe } else r) s

/-- DOWN: the plane is taken out of use. -/
def execPlaneDown (ret : Nat) (s : State) : Host.Outcome State Fault Refusal :=
  match headStep s ret with
  | some (.down p) => .next (advanceTopo ret (settleCartridge ret (popStep ret (updRet ret (setPlane p 3) s))))
  | _ => .next s

/-! ### Rings (R435, R436) -/

/-- The ring tuning entry of a reticle. -/
def ringOf (s : State) (ret ring : Nat) : W32 := mget (s.ret ret).rings ring 0

/-- Change one ring. -/
def updRing (ret ring : Nat) (f : W32 → W32) (s : State) : State :=
  updRet ret (fun r => { r with rings := mput r.rings ring (f (mget r.rings ring 0)) }) s

/-- The command processor queues a recovery for a plane (R436): none while a TOPO of the plane has steps still to run, and none beside a
RETUNE of the plane that is queued. -/
def queueRecovery (ret plane : Nat) (s : State) : State :=
  let queued := (s.ret ret).allSteps.any (fun x => match x with | .retune p _ _ => p == plane | _ => false)
  let topo := (s.mod (modOf ret)).cmds.any (fun c => c.code == 5 && c.recs.any (fun r => r.ret == ret && r.plane == plane)
    && ((c.todo.drop 1).contains plane || (c.todo.head? == some plane && stepsLeft s ret plane)))
  if queued || topo || (s.ret ret).planeSt plane == 3 then s
  else pushSteps ret [.stop plane, .waitack plane, .retune plane [] [], .waitlock plane, .resume plane] s

/-- RING_LOCK_LOSS: LOCK clears and the wavelength is retired from striping. -/
def execRingLockLoss (ret ring : Nat) (s : State) : Host.Outcome State Fault Refusal :=
  if ring ≥ 640 ∨ bitOf (ringOf s ret ring).toNat 12 = false then .next s
  else
    .next (updRet ret (fun r => { r with lockLostAt := mput r.lockLostAt ring s.ticks })
      (updRing ret ring (fun v => (v &&& ~~~0x1000#32) ||| 0x8000#32) s))

/-- RING_LOCK_RETURN: within 10 µs, with the heater at neither end, striping resumes. -/
def execRingLockReturn (ret ring : Nat) (s : State) : Host.Outcome State Fault Refusal :=
  match mget? (s.ret ret).lockLostAt ring with
  | none => .next s
  | some t =>
    let h := (ringOf s ret ring).toNat % 4096
    if s.ticks - t > 160000 ∨ h = 0 ∨ h = 4095 then .next s
    else
      .next (updRet ret (fun r => { r with lockLostAt := mdel r.lockLostAt ring })
        (updRing ret ring (fun v => (v ||| 0x1000#32) &&& ~~~0x8000#32) s))

/-- End of range (R435, R436): RLOW or RHIGH and RETIRED are set, and a recovery is queued. -/
def endOfRange (ret ring : Nat) (bits : W32) (s : State) : State :=
  queueRecovery ret (ring / 160) (updRet ret (fun r => { r with lockLostAt := mdel r.lockLostAt ring })
    (updRing ret ring (fun v => v ||| bits ||| 0x8000#32) s))

/-- RING_LOCK_TIMEOUT: lock that does not return within 10 µs is handled as an end of range. Which end is flagged is a free choice (log 4). -/
def execRingLockTimeout (ret ring : Nat) (s : State) : Host.Outcome State Fault Refusal :=
  match mget? (s.ret ret).lockLostAt ring with
  | none => .next s
  | some t =>
    if s.ticks - t < 160000 then .next s
    else .next (endOfRange ret ring (if Config.choice s.free % 2 = 0 then 0x2000 else 0x4000) { s with free := s.free + 1 })

/-- HEATER_END_OF_RANGE: a heater reaches code 0 or 4,095, a free choice (log 4). -/
def execHeaterEndOfRange (ret ring : Nat) (s : State) : Host.Outcome State Fault Refusal :=
  if ring ≥ 640 ∨ (s.ret ret).cartridge ≠ .active then .next s
  else
    let low := Config.choice s.free % 2 = 0
    let s := updRing ret ring (fun v => (v &&& ~~~0xFFF#32) ||| (if low then 0 else 0xFFF)) { s with free := s.free + 1 }
    .next (endOfRange ret ring (if low then 0x2000 else 0x4000) s)

/-! ### The cartridge (R441) -/

/-- A powered cartridge has its heaters at their start codes. -/
def powerCartridge (ret : Nat) (s : State) : State :=
  let s := (upFrom 0 4).foldl (fun t p => updRings ret p (retunedRing ret p) t) s
  updRet ret (fun r => { r with cartridge := .powered, cartSince := s.ticks }) s

/-- CARTRIDGE_INSERT: a cartridge is seated, its ROM read and checked. -/
def execCartridgeInsert (ret : Nat) (romOk : Bool) (s : State) : Host.Outcome State Fault Refusal :=
  if (s.ret ret).cartridge ≠ .absent then .next s
  else if romOk then .next (powerCartridge ret s)
  else .next (updRet ret (fun r => { r with cartridge := .failed }) s)

/-- CARTRIDGE_LOCK_CHECK: after 10 ms every ring holds lock, and the cartridge is ACTIVE with all planes down, or it is FAILED: a free choice
(log 4). -/
def execCartridgeLockCheck (ret : Nat) (s : State) : Host.Outcome State Fault Refusal :=
  if (s.ret ret).cartridge ≠ .powered ∨ s.ticks - (s.ret ret).cartSince < 160000000 then .next s
  else if Config.choice s.free % 2 = 0 then
    let t := (upFrom 0 4).foldl (fun t p => updRings ret p (fun i => lockedRing s ret (ringIndex p i)) t) s
    .next { updRet ret (fun r => { setLstate 0xFF r.mesh r with cartridge := .active }) t with free := s.free + 1 }
  else .next { updRet ret (fun r => { r with cartridge := .failed }) s with free := s.free + 1 }

/-- CARTRIDGE_QUIESCE: the host has all four planes drained down. -/
def execCartridgeQuiesce (ret : Nat) (s : State) : Host.Outcome State Fault Refusal :=
  if (s.ret ret).cartridge ≠ .active then .next (tell (.status 0x13) s)
  else if (s.ret ret).planeSteps ≠ [] then .next (tell (.status 0x12) s)
  else
    let t := (upFrom 0 4).foldl (fun t p => pushSteps ret (drainSteps false p ((s.ret ret).planeSt p)) t)
      (updRet ret (fun r => { r with cartridge := .quiescing }) s)
    .next (tell (.status 0) (settleCartridge ret t))

/-- CARTRIDGE_REMOVAL: the planes go down at once, and what they held is handed over. -/
def execCartridgeRemoval (ret : Nat) (s : State) : Host.Outcome State Fault Refusal :=
  if (s.ret ret).cartridge = .absent then .next s
  else
    let mine := (s.ret ret).allSteps.map PlaneStep.plane
    let s := updRet ret (fun r => { setLstate 0xFF r.mesh r with
      cartridge := .absent, planeSteps := [], planeNext := [], rings := [], lockLostAt := [] }) s
    let s := updMod (modOf ret) (fun x => { x with cmds := x.cmds.map (fun c =>
      if c.code = 5 ∧ c.recs.any (fun r => r.ret == ret && mine.contains r.plane) = true then { c with failed := true } else c) }) s
    .next (advanceTopo ret ((upFrom 0 4).foldl (fun t p => handOver ret p t) s))

/-- CARTRIDGE_POWER_UP: a host resume of a SAFE cartridge. -/
def execCartridgePowerUp (ret : Nat) (s : State) : Host.Outcome State Fault Refusal :=
  if (s.ret ret).cartridge = .safe then .next (tell (.status 0) (powerCartridge ret s)) else .next (tell (.status 0x13) s)

end Sys2Proof.Machine
end

