-- ==== Sys2Proof/Machine/Trees.lean ====
section
/-! DEFINITION. Fabric barrier trees (spec/16 R384 to R386; 15 R358): arrivals, releases and losses. -/

namespace Sys2Proof.Machine

open Sys2Proof

/-- Change a tree entry of a router. -/
def putTree (ret tree : Nat) (t : Tree) (s : State) : State := updRet ret (fun r => { r with trees := mput r.trees tree t }) s

/-- The reticles at the far ends of a router's trained circuits whose entry of a tree satisfies a test. -/
def opticalPeers (s : State) (ret tree : Nat) (test : Tree → Bool) : List (Nat × Nat) :=
  (opticalPorts.filterMap (opticalFar s ret)).filter (fun f => match treeOf s f.1 tree with | some t => test t | none => false)

/-- The router toward the root and the input by which it receives (R358). -/
def treeParent (s : State) (ret tree up : Nat) : Option (Nat × Nat) :=
  if up < 4 then (neighbourRet ret up).map (fun n => (n, oppositePort up))
  else if up = 4 then ((opticalPeers s ret tree (fun t => bitOf t.down 4)).head?).map (fun f => (f.1, 4))
  else none

/-- The routers below a router. -/
def treeChildren (s : State) (ret tree : Nat) (t : Tree) : List Nat :=
  [0, 1, 2, 3].filterMap (fun p => if bitOf t.down p then neighbourRet ret p else none)
  ++ (if bitOf t.down 4 then (opticalPeers s ret tree (fun x => x.up == 4)).map (·.1) else [])

/-- Some routers and every router below them, by rounds. -/
def treeBelow (s : State) (tree : Nat) : Nat → List Nat → List Nat
  | 0, rs => rs
  | n + 1, rs =>
    let more := rs.flatMap (fun r => match treeOf s r tree with | some t => treeChildren s r tree t | none => [])
    treeBelow s tree n (dedupe (rs ++ more.filter (fun r => (treeOf s r tree).isSome)))

/-- The root of a tree, from a router of it. -/
def treeRoot (s : State) (tree : Nat) : Nat → Nat → Nat
  | 0, ret => ret
  | fuel + 1, ret =>
    match treeOf s ret tree with
    | none => ret
    | some t => match treeParent s ret tree t.up with | some (p, _) => treeRoot s tree fuel p | none => ret

/-- Every router of a tree. -/
def treeRouters (s : State) (ret tree : Nat) : List Nat := treeBelow s tree 84 [treeRoot s tree 84 ret]

/-- A tree's COUNT has reached EXPECT (R385): a root sends the release to every router of the tree under one key, another router one arrival
toward the root. -/
def treeFull (ret tree : Nat) (s : State) : State :=
  match treeOf s ret tree with
  | none => s
  | some t =>
    if t.lost || t.count != t.expect || t.expect == 0 then s
    else if t.up = 7 then sendNotice ret 0 (treeRouters s ret tree) (.fbarRelease tree t.gen) s
    else
      match treeParent s ret tree t.up with
      | some (p, input) => sendPacket ret p false 0 0 (.fbarArrive tree t.gen input) s
      | none => s

/-- FBAR_ARRIVAL (R385): a router counts an arrival of its current generation from a DOWN input; one for the next generation is held. -/
def execFbarArrival (pkt : Nat) (s : State) : Host.Outcome State Fault Refusal :=
  match mget? s.wire pkt with
  | none => .next s
  | some p =>
    match p.body with
    | .fbarArrive tree gen input =>
      let s := { s with wire := mdel s.wire pkt }
      (match treeOf s p.dst tree with
       | none => .next s
       | some t =>
         if t.lost || !bitOf t.down input then .next s
         else if gen = t.gen then
           .next (if t.count < t.expect then treeFull p.dst tree (putTree p.dst tree { t with count := t.count + 1 } s) else s)
         else if gen = (t.gen + 1) % 2 ^ 32 then .next (putTree p.dst tree { t with held := t.held ++ [input] } s)
         else .next s)
    | _ => .next s

/-- A slot of a group in MODE 1 for a tree, with arrivals of its generation: its logical numbers. -/
def fabricSlots (tree : Nat) (g : Group) (arrived : Nat → W32 → Bool) : List Nat :=
  (g.slots.filter (fun e => e.2.fabric && e.2.tree == tree && arrived e.1 e.2.gen)).map (·.1)

/-- A thread map holds an arrival record of a slot's generation. -/
def someArrived (ths : SMap Thread) (gid b : Nat) (gen : W32) : Bool :=
  ths.any (fun e => e.1 / 2048 == gid && mget? e.2.arr b == some gen)

/-- The resident groups of a reticle. -/
def groupsOfRet (s : State) (ret : Nat) : List (Nat × Group) := s.groups.filter (fun e => coreRet e.2.core == ret)

/-- A tree's release reaches the cores of a reticle (R384): every slot in MODE 1 for it is released; BARW's acquire at the tree's SCOPE
invalidates the L1. A saved group's slot is released in its image (R383). -/
def releaseCores (ret tree : Nat) (s : State) : State :=
  let s := (groupsOfRet s ret).foldl (fun t e =>
    let bs := fabricSlots tree e.2 (someArrived t.threads e.1)
    let t := bs.foldl (fun u b => releaseSlot e.1 b u) t
    if bs.isEmpty then t else updCore e.2.core (fun c => { c with l1 := [] }) t) s
  updMod (modOf ret) (fun x => { x with saved := x.saved.map (fun e =>
    if e.2.ret ≠ ret then e
    else
      let bs := fabricSlots tree e.2.group (someArrived e.2.threads e.1)
      (e.1, { e.2 with group := { e.2.group with slots := e.2.group.slots.map (fun y =>
        if bs.contains y.1 then (y.1, { y.2 with count := 0, arrived := 0, expect := 0, gen := y.2.gen + 1, fabric := false }) else y) } })) }) s

/-- FBAR_RELEASE (R384, R385): the release of a tree, the next notice in key order at a router. COUNT is 0 and GEN rises; arrivals held for
the next generation are counted. -/
def execFbarRelease (pkt : Nat) (s : State) : Host.Outcome State Fault Refusal :=
  match mget? s.wire pkt with
  | none => .next s
  | some p =>
    match p.body with
    | .fbarRelease tree gen =>
      if !noticeNext s p.dst pkt then .next s
      else
        let s := takeHeld p.dst pkt s
        (match treeOf s p.dst tree with
         | none => .next s
         | some t =>
           if t.lost || t.gen != gen then .next s
           else
             let s := putTree p.dst tree { t with count := t.held.length, gen := (t.gen + 1) % 2 ^ 32, held := [] } s
             .next (treeFull p.dst tree (releaseCores p.dst tree s)))
    | _ => .next s

/-- The slots of a tree at the cores of a reticle are LOST, and threads that wait there in BARW take BARRIER_LOST (R386). -/
def loseCores (ret tree : Nat) (s : State) : State :=
  let mark := fun (g : Group) => { g with slots := g.slots.map (fun y => if y.2.fabric && y.2.tree == tree then (y.1, { y.2 with lost := true }) else y) }
  let s := updMod (modOf ret) (fun x => { x with saved := x.saved.map (fun e =>
    if e.2.ret = ret then (e.1, { e.2 with group := mark e.2.group }) else e) }) s
  (groupsOfRet s ret).foldl (fun t e =>
    let t := updGroup e.1 mark t
    let lost := (e.2.slots.filter (fun y => y.2.fabric && y.2.tree == tree)).map (fun y => (y.1, y.2.gen))
    (swsOf e.2.launch).foldl (fun u q =>
      match lost.findSome? (fun b => (waiting? u e.1 q.1 q.2 (fun w => w == .barw b.1)).map (fun l => (b, l))) with
      | some (b, l) => waitFault .barrierLost e.1 q.1 q.2 l 0 (b.2.toNat + b.1 * 2 ^ 32 + tree * 2 ^ 40) u
      | none => u) t) s

/-- BARRIER_LOST (R386): the loss notice of a tree, the next in key order at a participant. The tree entry and its waiting slots are LOST. A
notice that a release of its generation preceded changes nothing. -/
def execBarrierLost (ret tree : Nat) (s : State) : Host.Outcome State Fault Refusal :=
  match nextOrdered s ret with
  | none => .next s
  | some (i, p) =>
    match p.body with
    | .lost tr gen =>
      if tr ≠ tree then .next s
      else
        let s := takeHeld ret i s
        (match treeOf s ret tree with
         | none => .next s
         | some t =>
           if t.gen ≠ gen ∨ t.lost = true then .next s
           else .next (loseCores ret tree (putTree ret tree { t with lost := true, count := 0, held := [] } s)))
    | _ => .next s

/-- The outstanding generation of a tree: the greatest of its routers, or the one after a release on its way. -/
def treeGen (s : State) (tree : Nat) (routers : List Nat) : Nat :=
  let sent := s.wire.filterMap (fun e => match e.2.body with
    | .fbarRelease t gen => if t = tree ∧ routers.contains e.2.dst = true then some (gen + 1) else none
    | _ => none)
  (routers.filterMap (fun r => (treeOf s r tree).map (·.gen)) ++ sent).foldl Nat.max 0

/-- The Shepherds end a tree's outstanding generation with BARRIER_LOST at every router of it that is still in service (R386). -/
def loseTree (src tree : Nat) (routers : List Nat) (s : State) : State :=
  sendNotice src 0 (routers.filter (inService s)) (.lost tree (treeGen s tree routers)) s

end Sys2Proof.Machine
end

