-- ==== Sys2Proof/Machine/Identity.lean ====
section
/-! DEFINITION. The Identity Table as delivered, the amendments, and the effective identity (spec/01 R32 to R35; 15 R356). -/

namespace Sys2Proof.Machine

open Sys2Proof

/-! ### As delivered -/

/-- The state of a site in the Identity Table: what the usual delivered module has, where the table says nothing else (R18, log 7). -/
def madeSite (x : ModSt) (n : Nat) : Site := mget x.identity.sites n (usualSite n)

/-- The named folds and the spare folds of a site in the Identity Table. R22 fixes no pattern: where the table says nothing else, the model binds
named fold n to physical fold n and keeps 32 and 33 as spares (log 7). -/
def madeFolds (x : ModSt) (n : Nat) : SMap Nat × NSet :=
  ((upFrom 0 32).map (fun i => (i, mget x.identity.folds (n * 32 + i) i)),
    let map := mget x.identity.spares n (2 ^ 32 + 2 ^ 33)
    (upFrom 0 34).filter (bitOf map))

/-- LMAP of a core in the Identity Table. R23 lets it differ from core to core: where the table says nothing else, the model gives a core all 32
lanes (log 7). -/
def madeLmap (x : ModSt) (n fold member : Nat) : W32 := mget x.identity.lmap (n * 256 + fold * 4 + member) 0xFFFFFFFF

/-! ### Amendments (R33, R356) -/

/-- Write an amendment record. -/
def amend (m kind ret fold member arg : Nat) (s : State) : State :=
  updMod m (fun x => { x with amendments := x.amendments ++ [⟨wtime s ret, x.amendments.length, kind, ret % 128, fold, member, arg⟩] }) s

/-- Put an amendment into a list in order: by stamp, then by sequence number. -/
def insertAmendment (a : Amendment) : List Amendment → List Amendment
  | [] => [a]
  | b :: bs => if a.stamp < b.stamp ∨ (a.stamp = b.stamp ∧ a.seq ≤ b.seq) then a :: b :: bs else b :: insertAmendment a bs

/-- The amendments of a module in the order in which they are applied. -/
def ModSt.inOrder (x : ModSt) : List Amendment := x.amendments.foldr insertAmendment []

/-! ### The effective identity (R33) -/

/-- The state of a site. -/
def effSite (x : ModSt) (n : Nat) : Site :=
  x.inOrder.foldl (fun st a => if a.ret = n ∧ a.kind = 2 then .retired else if a.ret = n ∧ a.kind = 3 then .inService else st) (madeSite x n)

/-- The named folds and the spare folds of a site. -/
def effFolds (x : ModSt) (n : Nat) : SMap Nat × NSet :=
  x.inOrder.foldl (fun f a =>
    if a.ret = n ∧ a.kind = 1 then (f.1.map (fun e => if e.2 = a.fold then (e.1, a.arg) else e), sdel f.2 a.arg) else f) (madeFolds x n)

/-- LMAP of a core: an amendment only takes lanes out of use. -/
def effLmap (x : ModSt) (n fold member : Nat) : W32 :=
  x.inOrder.foldl (fun v a => if a.ret = n ∧ a.kind = 0 ∧ a.fold = fold ∧ a.member = member then v &&& BitVec.ofNat 32 a.arg else v)
    (madeLmap x n fold member)

/-! ### Layout (R356) -/

/-- The code of a site's state. -/
def Site.code : Site → Nat
  | .inService => 0
  | .spare => 1
  | .dead => 2
  | .retired => 3
  | .none => 2

/-- A site record: a DEAD or RETIRED site binds no fold. -/
def siteRecord (n : Nat) (st : Site) (folds : SMap Nat × NSet) : List Byte :=
  let bound := st == .inService || st == .spare
  let named := (upFrom 0 32).map (fun i => if bound then BitVec.ofNat 8 (mget folds.1 i i) else (0xFF : Byte))
  padTo 64 (bytesLE 1 n ++ bytesLE 1 st.code ++ named ++ bytesLE 5 (if bound then folds.2.foldl (fun k f => k + 2 ^ f) 0 else 0))

/-- LMAP in the table: 0 for a dead core. -/
def lmapEntry (v : W32) : List Byte := bytesLE 4 (if popcount 32 v.toNat < 16 then 0 else v.toNat)

/-- An identity table with its signature over every preceding byte. -/
def identityTable (serial : Nat) (site : Nat → Site) (folds : Nat → SMap Nat × NSet) (lmap : Nat → Nat → Nat → W32) : List Byte :=
  let head := padTo 0x40 (padTo 0x10 (bytesLE 2 1 ++ bytesLE 2 84) ++ bytesLE 16 serial)
  let sites := siteList.flatMap (fun n => siteRecord n (site n) (folds n))
  let cores := siteList.flatMap (fun n => (upFrom 0 136).flatMap (fun c => lmapEntry (lmap n (c / 4) (c % 4))))
  let table := padTo 0xC7C0 (head ++ sites ++ cores)
  table ++ padTo 2420 ((Config.signature serial table).take 2420)

/-- The signed Identity Table as delivered (R32, R33). -/
def deliveredBytes (x : ModSt) (m : Nat) : List Byte := identityTable (serialOf x m) (madeSite x) (madeFolds x) (madeLmap x)

/-- The effective identity, in the layout of the table (R33, R35). -/
def identityBytes (x : ModSt) (m : Nat) : List Byte := identityTable (serialOf x m) (effSite x) (effFolds x) (effLmap x)

/-- An amendment record's 64 bytes and its signature. -/
def amendmentBytes (serial : Nat) (a : Amendment) : List Byte :=
  let b := padTo 64 (bytesLE 8 a.stamp ++ bytesLE 4 a.seq ++ bytesLE 1 a.kind ++ bytesLE 1 a.ret ++ bytesLE 1 a.fold ++ bytesLE 1 a.member
    ++ bytesLE 4 a.arg)
  b ++ padTo 2420 ((Config.signature serial b).take 2420)

end Sys2Proof.Machine
end

