-- ==== Sys2Proof/Machine/HostPort.lean ====
section
/-! DEFINITION. What the host does through the host port (spec/18 R446, R447): doorbells, registers and tables (15 R344 to R361), host RMA,
the management requests (18 R448 to R450) but cold reset, and debug requests (17 R414). Refusals answer with a status of R309 or R414. -/

namespace Sys2Proof.Machine

open Sys2Proof

/-! ### The port -/

/-- A request of the host reaches a module only while its port's link is up (R447). -/
def hostReq (m : Nat) (go : State → State) (s : State) : Host.Outcome State Fault Refusal := if (s.mod m).hostUp then .next (go s) else .next s

/-- Answer a status to the host. -/
def answer (code : Nat) (s : State) : State := tell (.status code) s

/-- HOST_PORT_LINK_DOWN (R447): LSTATE.HOST falls to 0 on every reticle. -/
def execHostPortLinkDown (m : Nat) (s : State) : Host.Outcome State Fault Refusal :=
  .next ((siteList.map (fun n => m * 128 + n)).foldl (fun t r => updRet r (fun x => { x with host := false }) t)
    (updMod m (fun x => { x with hostUp := false }) s))

/-- HOST_PORT_LINK_UP (R447). -/
def execHostPortLinkUp (m : Nat) (s : State) : Host.Outcome State Fault Refusal :=
  if !(s.mod m).booted || !inService s (cpRet s m) then .next s
  else .next (noteHost m (updMod m (fun x => { x with hostUp := true }) s))

/-- COMMAND_PROCESSOR_TAKEOVER (R30, R310, R446): the standby takes the queues and the host port over. -/
def takeover (m : Nat) (s : State) : State :=
  let other := if (s.mod m).activeCp = 79 then 87 else 79
  if inService s (m * 128 + other) then noteHost m (updMod m (fun x => { x with activeCp := other }) s) else s

/-- COMMAND_PROCESSOR_TAKEOVER. -/
def execCommandProcessorTakeover (m : Nat) (s : State) : Host.Outcome State Fault Refusal := .next (takeover m s)

/-! ### Doorbells and registers -/

/-- A host write to a doorbell (R306, R361): refused when no QCB names it. -/
def hostDoorbell (m door : Nat) (pidx : W32) (s : State) : State :=
  match doorQueue s m door with
  | none => answer 0x13 s
  | some _ =>
    let t := ringDoorbell m door pidx .host s
    let seen := fun (r : Nat) (u : State) => deviceChanged (paOf (m * 128 + r) (deviceBase + 8 * door)) s u
    answer 0 (seen 79 (seen 87 t))

/-- DOORBELL_WRITE. -/
def execDoorbellWrite (m door : Nat) (pidx : W32) (s : State) : Host.Outcome State Fault Refusal := hostReq m (hostDoorbell m door pidx) s

/-- CORE_COUNTER_WRITE (R361, R395). -/
def execCoreCounterWrite (core idx : Nat) (value : W64) (s : State) : Host.Outcome State Fault Refusal :=
  hostReq (modOf (coreRet core)) (fun s =>
    if idx ≥ 8 ∨ coreFold core ≥ Config.folds ∨ inService s (coreRet core) = false then answer 0x13 s
    else answer 0 (deviceWrite (paOf (coreRet core) (deviceBase + 0x200000 + 64 * (coreFold core * 4 + coreMember core) + 8 * idx)) 8
      value.toNat .host s)) s

/-- A host write of a peer descriptor (R444): refused while a work request to the peer is queued or in flight. -/
def writePeer (ret peer : Nat) (value : BitVec 256) (s : State) : State :=
  let busy := s.works.any (fun e => e.2.ret == ret && e.2.wr.toPeer && e.2.wr.peer == peer)
  if peer ≥ 4096 ∨ inService s ret = false then answer 0x13 s
  else if busy then answer 0x12 s
  else
    let keep : BitVec 256 := 1 ||| (0xFFF <<< 16) ||| (0xFFFFFF <<< 32) ||| (0x3FF <<< 64) ||| (((2 ^ 128 - 1 : Nat) : BitVec 256) <<< 128)
    let base := paOf ret (deviceBase + 0x300000 + 32 * peer)
    let t := updRet ret (fun r => { r with peers := mput r.peers peer (value &&& keep) }) s
    answer 0 ((upFrom 0 4).foldl (fun u i => deviceChanged (base + 8 * i) s u) t)

/-- A peer descriptor with n of its bytes at an offset replaced. -/
def mergePeer (old : BitVec 256) (off n v : Nat) : BitVec 256 :=
  let mask := BitVec.ofNat 256 ((2 ^ (8 * n) - 1) * 2 ^ (8 * off))
  (old &&& ~~~mask) ||| (BitVec.ofNat 256 (v * 2 ^ (8 * off)) &&& mask)

/-- A host write in the device-register range (R361): aligned, 4 or 8 bytes, of a register that the map assigns. -/
def hostDevice (pa n v : Nat) (s : State) : State :=
  let o := localOf pa - deviceBase
  let peer := (o - 0x300000) / 32
  if !((n == 4 || n == 8) && pa % n == 0) || !deviceAssigned pa then answer 0x13 s
  else if o < 0x8000 ∧ (doorQueue s (modOf (retOf pa)) (o / 8)).isNone = true then answer 0x13 s
  else if o ≥ 0x300000 then writePeer (retOf pa) peer (mergePeer (mget (s.ret (retOf pa)).peers peer 0) (o % 32) n v) s
  else answer 0 (deviceWrite pa n v .host s)

/-- Fuse lanes of a drained core (R33, R34, R424): the amendment and the notice, and then the new LMAP. -/
def fuseLanes (core : Nat) (new : W32) (s : State) : State :=
  let ret := coreRet core
  let s := amend (modOf ret) 0 ret (coreFold core) (coreMember core) new.toNat s
  updCore core (fun c => { c with lmap := new, lmapTo := none }) (noticeHost ret (some core) .laneFused 0 0 new.toNat s)

/-- A host write of LMAP (R34): of a live core that is drained, and only to take lanes out of use (R33). -/
def writeLmap (core : Nat) (v : W32) (s : State) : State :=
  if coreLive (s.core core) = false ∨ v &&& (s.core core).lmap ≠ v then answer 0x13 s
  else if (groupsOn s core).isEmpty = false then answer 0x12 s
  else answer 0 (if v = (s.core core).lmap then s else fuseLanes core v s)

/-- A host write of WTIME (R134, R366): time neither falls nor steps, and slews toward the value (log 20). -/
def writeWtime (ret value : Nat) (s : State) : State := startSlew ret (((value % 2 ^ 64 : Nat) : Int) - (wtime s ret : Int)) s

/-- A host write of a register or table entry that changes one reticle and is always taken (log 20): WMLIM, mesh table, module table, route
policy, ring tuning table, error-window counters. None for another number. -/
def plainRegister (ret loc value : Nat) (s : State) : Option State :=
  let put := fun (f : RetSt → RetSt) => some (updRet ret f s)
  if loc = 0x43 then some (putWmlim ret (BitVec.ofNat 32 value) s)
  else if 0x1000 ≤ loc ∧ loc < 0x1080 then put (fun r => { r with meshTab := mput r.meshTab (loc - 0x1000) (BitVec.ofNat 8 value) })
  else if 0x2000 ≤ loc ∧ loc < 0x2400 then put (fun r => { r with modTab := mput r.modTab (loc - 0x2000) (BitVec.ofNat 32 (value % 2 ^ 25)) })
  else if loc = 0x4000 then put (fun r => { r with
    policy := BitVec.ofNat 32 (bitsOf value 15 4 * 16 + (if value % 4 = 3 then r.policy.toNat % 4 else value % 4)) })
  else if 0x5000 ≤ loc ∧ loc < 0x5280 then
    some (updRing ret (loc - 0x5000) (fun v => v &&& ~~~(BitVec.ofNat 32 (bitsOf value 14 13 * 2 ^ 13))) s)
  else if loc ≥ 2 ^ 64 then put (fun r => { r with errWin := mdel r.errWin (loc - 2 ^ 64) })
  else none

/-- The registers and table entries of a reticle that REGISTER_WRITE names by number (log 20): those of plainRegister, 0x41 WTIME, 0x42 SKEWB,
wafer group list, alarm threshold, and LMAP by core. -/
def hostRegister (ret loc value : Nat) (s : State) : State :=
  let m := modOf ret
  if loc = 0x41 then answer 0 (writeWtime ret value s)
  else if loc = 0x42 then answer 0 (updMod m (fun x => { x with skewb := BitVec.ofNat 32 value }) s)
  else if 0x3000 ≤ loc ∧ loc < 0x3020 then
    (if (s.mod m).regions ≠ [] then answer 0x13 s
     else answer 0 (updRet ret (fun r => { r with
      groupList := mput r.groupList (loc - 0x3000) (BitVec.ofNat 16 (value % 1024 + bitsOf value 15 15 * 0x8000)) }) s))
  else if loc = 0x6000 then (if value < 300 ∨ value > 415 then answer 0x13 s else answer 0 (updRet ret (fun r => { r with threshold := value }) s))
  else if 0x7000 ≤ loc ∧ loc < 0x7088 then writeLmap (coreKey ret ((loc - 0x7000) / 4) ((loc - 0x7000) % 4)) (BitVec.ofNat 32 value) s
  else
    match plainRegister ret loc value s with
    | some t => answer 0 t
    | none => answer 0x13 s

/-- REGISTER_WRITE (R10): a host write to a register or table entry of a reticle. A LOCAL in the device-register range names a device register
(R361); a smaller number a register of hostRegister. -/
def execRegisterWrite (ret loc size : Nat) (value : BitVec 256) (s : State) : Host.Outcome State Fault Refusal :=
  hostReq (modOf ret) (fun s =>
    let v := value.toNat % 2 ^ (8 * size)
    if inService s ret = false then answer 0x13 s
    else if deviceBase ≤ loc ∧ loc < deviceBase + 0x1000000 then hostDevice (paOf ret loc) size v s
    else hostRegister ret loc v s) s

/-! ### Host reads of registers and tables (R9, R10, R344, R365) -/

/-- A router's tree entry as 16 bytes (R358). -/
def Tree.bytes (t : Tree) : List Byte :=
  bytesLE 4 (t.up + t.down * 2 ^ 3 + t.rootreg * 2 ^ 16 + t.scope * 2 ^ 28) ++ bytesLE 4 t.expect ++ bytesLE 4 t.count ++ bytesLE 4 t.gen

/-- An entry of the Error Policy Table as 16 bytes (R357): an unused one has KIND 0xFF. -/
def policyBytes (x : ModSt) (i : Nat) : List Byte :=
  match mget? x.policyTab i with
  | some p => bytesLE 1 p.kind ++ bytesLE 3 p.action ++ bytesLE 4 p.count ++ bytesLE 8 p.window
  | none => bytesLE 16 0xFF

/-- The code of a cartridge's state, in the order of R441. -/
def Cartridge.code : Cartridge → Nat
  | .absent => 0
  | .present => 1
  | .powered => 2
  | .active => 3
  | .quiescing => 4
  | .safe => 5
  | .failed => 6

/-- The code of a group's state (R398): 0 RUNNING, 1 HALTING, 2 QUIESCED, 3 LOST. -/
def Phase.code : Phase → Nat
  | .running => 0
  | .halting => 1
  | .quiesced => 2
  | .lost => 3

/-- The system registers that a reticle has (R133), by their numbers. -/
def hostSysreg (s : State) (ret reg : Nat) : Option (List Byte) :=
  let r := s.ret ret
  match reg with
  | 0x30 => some (bytesLE 4 (r.ways + 32 * b2n r.cpartTo.isSome))
  | 0x40 => some (bytesLE 8 (lstateReg r))
  | 0x41 => some (bytesLE 8 (wtime s ret))
  | 0x42 => some (bytesLE 4 (s.mod (modOf ret)).skewb.toNat)
  | 0x43 => some (bytesLE 4 r.wmlim.toNat)
  | 0x44 => some (bytesLE 4 ((s.mod (modOf ret)).modid + ret % 128 * 2 ^ 10))
  | _ => none

/-- The core of a reticle that an index names. -/
def indexedCore (ret i : Nat) : Nat := coreKey ret (i / 4) (i % 4)

/-- What the host reads of a reticle by number (log 20): the numbers of hostRegister, the other registers of R133 and tables of R344, and the
counters of R365. None for a number that names nothing. -/
def hostValue (s : State) (ret reg : Nat) : Option (List Byte) :=
  let r := s.ret ret
  let x := s.mod (modOf ret)
  if reg < 0x1000 then hostSysreg s ret reg
  else if reg < 0x1080 then some (bytesLE 1 (mget r.meshTab (reg - 0x1000) 0).toNat)
  else if 0x2000 ≤ reg ∧ reg < 0x2400 then some (bytesLE 4 (mget r.modTab (reg - 0x2000) 0).toNat)
  else if 0x3000 ≤ reg ∧ reg < 0x3020 then some (bytesLE 2 (mget r.groupList (reg - 0x3000) 0).toNat)
  else if reg = 0x4000 then some (bytesLE 4 r.policy.toNat)
  else if 0x5000 ≤ reg ∧ reg < 0x5280 then some (bytesLE 4 (mget r.rings (reg - 0x5000) 0).toNat)
  else if reg = 0x6000 then some (bytesLE 4 r.threshold)
  else if reg = 0x6001 then some (bytesLE 4 r.cartridge.code)
  else if 0x7000 ≤ reg ∧ reg < 0x7088 then some (bytesLE 4 (s.core (indexedCore ret (reg - 0x7000))).lmap.toNat)
  else if 0x7100 ≤ reg ∧ reg < 0x7188 then some (bytesLE 4 (cstatReg s (indexedCore ret (reg - 0x7100))))
  else if 0x7200 ≤ reg ∧ reg < 0x7288 then
    some (bytesLE 4 (ret % 128 + (reg - 0x7200) / 4 * 2 ^ 8 + (reg - 0x7200) % 4 * 2 ^ 16))
  else if 0x7300 ≤ reg ∧ reg < 0x7388 then some (bytesLE 4 (s.core (indexedCore ret (reg - 0x7300))).missed)
  else if 0x7400 ≤ reg ∧ reg < 0x7480 then some (bytesLE 4 (mget r.missed (ret / 128 * 128 + (reg - 0x7400)) 0))
  else if 0x8000 ≤ reg ∧ reg < 0x8400 then some (bytesLE 4 (mget r.endpoint (reg - 0x8000) 0).toNat)
  else if 0x9000 ≤ reg ∧ reg < 0x9010 then some (policyBytes x (reg - 0x9000))
  else if 0xA000 ≤ reg ∧ reg < 0xA100 then
    some (match mget? r.trees (reg - 0xA000) with | some t => t.bytes | none => bytesLE 16 0)
  else if 2 ^ 32 ≤ reg ∧ reg < 2 ^ 40 then (x.amendments[reg - 2 ^ 32]?).map (amendmentBytes (serialOf x (modOf ret)))
  else if 2 ^ 40 ≤ reg ∧ reg < 2 ^ 64 then
    (match mget? s.groups (reg - 2 ^ 40), mget? x.saved (reg - 2 ^ 40) with
      | some g, _ => some (bytesLE 1 g.phase.code)
      | none, some i => some (bytesLE 1 i.group.phase.code)
      | none, none => none)
  else if reg ≥ 2 ^ 64 then some (bytesLE 8 (match mget? r.errWin (reg - 2 ^ 64) with | some w => w.1 | none => 0))
  else none

/-- The host reads a register or a table entry of a reticle. -/
def hostReadReg (ret reg : Nat) (s : State) : State :=
  if inService s ret = false then answer 0x13 s
  else
    match hostValue s ret reg with
    | some bs => tell (.data bs) s
    | none => answer 0x13 s

/-! ### Tables -/

/-- ENDPOINT_TABLE_WRITE (R359): refused while the queue holds work requests. -/
def execEndpointTableWrite (ret queue : Nat) (value : W32) (s : State) : Host.Outcome State Fault Refusal :=
  hostReq (modOf ret) (fun s =>
    if queue ≥ 1024 ∨ inService s ret = false then answer 0x13 s
    else if wrqUsed s ret queue ≠ 0 then answer 0x12 s
    else answer 0 (updRet ret (fun r => { r with endpoint := mput r.endpoint queue (value &&& 0x1FFF) }) s)) s

/-- PEER_DESCRIPTOR_WRITE (R444). -/
def execPeerDescriptorWrite (ret peer : Nat) (value : BitVec 256) (s : State) : Host.Outcome State Fault Refusal :=
  hostReq (modOf ret) (writePeer ret peer value) s

/-- The routers of the tree that a router has part in: those that its entries lead to, and those that lead to the same root. -/
def treeMembers (s : State) (ret tree : Nat) : List Nat :=
  let root := treeRoot s tree 84 ret
  treeRouters s ret tree ++ (s.rets.map (·.1)).filter (fun r => treeRoot s tree 84 r == root)

/-- An arrival of a tree is outstanding at a router of it (R358). -/
def treeBusy (s : State) (ret tree : Nat) : Bool :=
  let rs := treeMembers s ret tree
  rs.any (fun r => match treeOf s r tree with | some t => t.count != 0 || !t.held.isEmpty | none => false)
  || s.wire.any (fun e => rs.contains e.2.dst && (match e.2.body with
    | .fbarArrive t _ _ => t == tree
    | .fbarRelease t _ => t == tree
    | _ => false))

/-- BARRIER_TREE_WRITE (R358): refused while an arrival of the tree is outstanding. COUNT is 0 and GEN is the router's. An entry of zeros is
absent. A reserved bit is ignored, and so is a reserved encoding of UP or SCOPE (R5): the field stays. The spec gives a SCOPE of a legal code
below 5 no fate: it is refused (log 21). -/
def execBarrierTreeWrite (ret tree : Nat) (value : BitVec 128) (s : State) : Host.Outcome State Fault Refusal :=
  hostReq (modOf ret) (fun s =>
    let v := value.toNat
    if tree ≥ 256 ∨ inService s ret = false then answer 0x13 s
    else if treeBusy s ret tree then answer 0x12 s
    else
      let old : Tree := mget (s.ret ret).trees tree ⟨0, 0, 0, 0, 0, 0, 0, [], false⟩
      let up := if bitsOf v 2 0 = 5 ∨ bitsOf v 2 0 = 6 then old.up else bitsOf v 2 0
      let scope := if bitsOf v 31 28 > 10 then old.scope else bitsOf v 31 28
      if v % 2 ^ 64 ≠ 0 ∧ scope < 5 then answer 0x13 s
      else
        answer 0 (putTree ret tree
          { up := up, down := bitsOf v 8 3, rootreg := bitsOf v 27 16, scope := scope, expect := bitsOf v 63 32, count := 0
            gen := old.gen, held := [], lost := false } s)) s

/-- ERROR_POLICY_WRITE (R357): COUNT and WINDOW change; an entry that would get another KIND or ACTION is refused. -/
def execErrorPolicyWrite (m idx : Nat) (value : BitVec 128) (s : State) : Host.Outcome State Fault Refusal :=
  hostReq m (fun s =>
    let v := value.toNat
    match mget? (s.mod m).policyTab idx with
    | none => answer 0x13 s
    | some p =>
      if v % 256 ≠ p.kind ∨ bitsOf v 15 8 ≠ p.action then answer 0x13 s
      else answer 0 (updMod m (fun x => { x with policyTab := mput x.policyTab idx { p with count := bitsOf v 63 32, window := bitsOf v 127 64 } }) s)) s

/-- Some entry of a page table, over the levels left, is a leaf that satisfies a test (R217). -/
def tableHas (s : State) (key : Nat) (test : Nat → Nat → Bool) : List (Nat × Nat) → Nat → Bool
  | [], _ => false
  | (level, width) :: rest, table =>
    (upFrom 0 (2 ^ width)).any (fun i =>
      let a := table + 8 * i
      if !isDram a || !inService s (retOf a) then false
      else
        let e := readNat s key a 8
        pteV e && !pteBad level e && (if pteLeaf e then test level e else tableHas s key test rest (bitsOf e 60 8 * 256)))

/-- Some leaf of a root region's page tables satisfies a test of its level and its entry. -/
def rootMaps (s : State) (m root : Nat) (test : Nat → Nat → Bool) : Bool :=
  match mget? (s.mod m).regions root with
  | some g => tableHas s g.rcb.keyid test [(4, 9), (3, 9), (2, 9), (1, 9), (0, 5)] g.rcb.ptroot
  | none => false

/-- A resident group of a reticle has the reticle's scratch mapped (R138). -/
def scratchMapped (s : State) (ret : Nat) : Bool :=
  let roots := dedupe ((groupsOfRet s ret).map (fun e => rootKey e.2.m e.2.root))
  roots.any (fun k => rootMaps s (k / 4096) (k % 4096) (fun _ e => pteType e == 2 && retOf (ptePa e) == ret))

/-- WPART_WRITE (R138): refused during a CPART and while a group of the reticle has reticle scratch mapped. -/
def execWpartWrite (ret ways : Nat) (s : State) : Host.Outcome State Fault Refusal :=
  hostReq (modOf ret) (fun s =>
    if ways < 4 ∨ ways > 16 ∨ inService s ret = false then answer 0x13 s
    else if (s.ret ret).cpartTo.isSome || scratchMapped s ret then answer 0x12 s
    else answer 0 (setWays ret ways s)) s

/-- The raw-protected frames that a root's tables map, and no other root's, leave raw mode: their page table entries go with the root, and they
are free (R220). -/
def freeFrames (m root : Nat) (s : State) : State :=
  let maps := fun (m root f : Nat) => rootMaps s m root (fun level e =>
    pteType e == 0 && decide (ptePa e / 65536 ≤ f) && decide (f < (ptePa e + levelSize level) / 65536))
  let others := s.mods.flatMap (fun e => ((e.2.regions.filter (fun r => r.2.rcb.parent == 0xFFFF)).map (fun r => (e.1, r.1))))
  { s with rawFrames := s.rawFrames.filter (fun f =>
      !(maps m root f && !(others.any (fun o => o != (m, root) && maps o.1 o.2 f)))) }

/-! ### Host RMA (R447) -/

/-- What a host request at a physical range meets (R206, R447): a status other than 0 refuses it. -/
def hostRange (s : State) (m pa key n : Nat) (write : Bool) : Nat :=
  let last := pa + n - 1
  if n = 0 ∨ retOf last ≠ retOf pa ∨ (targetCause s (cpRet s m) 0 pa n).isSome = true ∨ (targetCause s (cpRet s m) 0 last 1).isSome = true then 0x13
  else if isDram pa then
    (if !isDram last || key == 0 || key > 255 || (keyMat s (retOf pa) key).isNone then 0x13
     else if (if write then poisonPartial s pa n else poisonedIn s pa n).isSome then 0x13 else 0)
  else if isDevice pa then 0
  else if (if write then poisonPartial s pa n else poisonedIn s pa n).isSome then 0x13 else 0

/-- HOST_RMA_WRITE (R240, R447): placed at the home under the key id it carries; a refused one changes nothing. -/
def execHostRmaWrite (m pa key : Nat) (data : List Byte) (s : State) : Host.Outcome State Fault Refusal :=
  hostReq m (fun s =>
    if hostRange s m pa key data.length true ≠ 0 then answer 0x13 s
    else if isDevice pa then hostDevice pa data.length (ofBytesLE data) s
    else answer 0 (writeKey s key pa data)) s

/-- HOST_RMA_READ (R447): a refused one returns no data. -/
def execHostRmaRead (m pa key len : Nat) (s : State) : Host.Outcome State Fault Refusal :=
  hostReq m (fun s =>
    if hostRange s m pa key len false ≠ 0 then answer 0x13 s
    else if isDevice pa then
      (if (len = 4 ∨ len = 8) ∧ pa % len = 0 then tell (.data (bytesLE len (deviceRead s pa len))) s else answer 0x13 s)
    else tell (.data (readKey s key pa len)) s) s

/-! ### Management requests (R448 to R450) -/

/-- READ_IDENTITY (R35). -/
def execReadIdentity (m : Nat) (s : State) : Host.Outcome State Fault Refusal := hostReq m (fun s => tell (.data (identityBytes (s.mod m) m)) s) s

/-- EXTEND_MEASUREMENT (R448, R449): MEAS4 to MEAS7 with a value of the host. -/
def execExtendMeasurement (ret idx : Nat) (value : BitVec 256) (s : State) : Host.Outcome State Fault Refusal :=
  hostReq (modOf ret) (fun s =>
    if idx < 4 ∨ idx > 7 ∨ inService s ret = false then answer 0x13 s
    else
      let old := mget (s.ret ret).meas idx 0
      let new := sha3 (bytesLE 32 old.toNat ++ bytesLE 32 (sha3 (bytesLE 32 value.toNat)).toNat)
      answer 0 (updRet ret (fun r => { r with meas := mput r.meas idx new }) s)) s

/-- The attestation report of a reticle (R450). -/
def attestation (s : State) (ret : Nat) (nonce : BitVec 256) : List Byte :=
  let m := modOf ret
  let x := s.mod m
  let serial := serialOf x m
  let id := Config.identityKey serial
  let hash := sha3 (deliveredBytes x m ++ x.inOrder.flatMap (amendmentBytes serial))
  let meas := (upFrom 0 8).flatMap (fun i => bytesLE 32 (mget (s.ret ret).meas i 0).toNat)
  let body := padTo 8 (bytesLE 2 1 ++ bytesLE 1 (ret % 128)) ++ bytesLE 16 serial ++ bytesLE 32 nonce.toNat ++ bytesLE 8 (wtime s ret) ++ meas
    ++ bytesLE 32 hash.toNat ++ bytesLE 4 x.amendments.length ++ bytesLE 4 0
    ++ padTo 1184 ((Config.kemPublic serial x.boots).take 1184) ++ padTo 1312 (id.1.take 1312) ++ padTo 2420 (id.2.take 2420)
  body ++ padTo 2420 ((Config.signature serial body).take 2420)

/-- ATTESTATION_REQUEST (R450). -/
def execAttestationRequest (ret : Nat) (nonce : BitVec 256) (s : State) : Host.Outcome State Fault Refusal :=
  hostReq (modOf ret) (fun s => if inService s ret then tell (.data (attestation s ret nonce)) s else answer 0x13 s) s

/-- LOAD_KEY (R448): checked and taken as KEYLOAD. -/
def execLoadKey (m key : Nat) (image : List Byte) (s : State) : Host.Outcome State Fault Refusal :=
  hostReq m (fun s => match loadWrapped m key image s with
    | some t => answer 0 t
    | none => answer 0x13 s) s

/-- CREATE_ROOT (R40, R448): the new index, or a status. -/
def execCreateRoot (m : Nat) (image : List Byte) (s : State) : Host.Outcome State Fault Refusal :=
  hostReq m (fun s =>
    let (st, i, t) := createNode m 0xFFFF true image s
    if st = 0 then tell (.data (bytesLE 2 i)) (answer 0 t) else answer st s) s

/-- Cancel the unread commands of a queue of a root that the host destroys (R40, R309). -/
def cancelUnread (m root : Nat) (e : Nat × CmdQueue) (s : State) : State :=
  let q := e.2
  let t := (upFrom q.cidx.toNat (Nat.min q.held (2 ^ q.log2n))).foldl (fun t i =>
    let who := mget q.posters (i % 2 ^ 32) .host
    match readVa s m root (q.slotVa i) 64 with
    | some bs => finishCmd m root (fieldLE bs 8 8) who (if fieldLE bs 0 1 = 1 then 5 else 0x15) 0 t
    | none => finishCmd m root 0 who 5 0 t) s
  updMod m (fun x => { x with queues := mput x.queues (cqKey root e.1) { q with cidx := q.pidx, posters := [] } }) t

/-- Step 5 of a root's destroy (R40), once its commands and grids have finished. -/
def dropRoot (m root : Nat) (s : State) : State :=
  if (s.mod m).cmds.any (fun c => c.root == root) || nodeBusy s m root then s
  else
    answer 0 (removeNodes m root (updMod m (fun x => { x with
      queueTurn := mdel x.queueTurn root, queues := x.queues.filter (fun e => e.1 / 64 != root), dying := sdel x.dying root, attached := sdel x.attached root }) (freeFrames m root s)))

/-- DESTROY_ROOT (R40): its queues are no longer read, what they hold is cancelled, and its grids end. When all has drained, the tree is
removed; a destroy under way goes on. -/
def execDestroyRoot (m root : Nat) (s : State) : Host.Outcome State Fault Refusal :=
  hostReq m (fun s =>
    match mget? (s.mod m).regions root with
    | none => answer 0x13 s
    | some r =>
      if r.rcb.parent ≠ 0xFFFF then answer 0x13 s
      else if smem (s.mod m).dying root then dropRoot m root s
      else
        let s := updMod m (fun x => { x with dying := sadd x.dying root }) s
        let s := (heldQueues s m root).foldl (fun t e => cancelUnread m root e t) s
        let s := ((s.mod m).cmds.filter (fun c => c.root == root && c.code == 10)).foldl (fun t c => endCmd m c 0x15 0 t) s
        let hs := ((s.mod m).grids.filter (fun e => e.2.state != .finished && (lineage s m 8 e.2.launch.region).contains root)).map (·.1)
        dropRoot m root (hs.foldl (fun t h => endGrid m h 4 t) s)) s

/-- RESTART_QUEUE (R306, R448): a queue that is OVERRUN or STOPPED runs again, with a corrected PIDX; the host posts what it newly passes. -/
def execRestartQueue (m root queue : Nat) (pidx : W32) (s : State) : Host.Outcome State Fault Refusal :=
  hostReq m (fun s =>
    match mget? (s.mod m).queues (cqKey root queue) with
    | none => answer 0x13 s
    | some q =>
      if q.state = 0 ∨ (pidx - q.cidx).toNat > 2 ^ q.log2n then answer 0x13 s
      else
        let inRange := fun (i : Nat) => decide ((BitVec.ofNat 32 i - q.cidx).toNat < (pidx - q.cidx).toNat)
        let q' := { q with state := 0, pidx := pidx, posters := q.posters.filter (fun e => inRange e.1) }
        let s := updMod m (fun x => { x with
          queues := mput x.queues (cqKey root queue) q', doorbells := mput x.doorbells q.doorbell pidx }) s
        answer 0 (writeQcb m root q' s)) s

/-! ### MODID (R31) -/

/-- A reticle identity with the module number replaced. -/
def renameRet (a b ret : Nat) : Nat := if modOf ret = a then b * 128 + ret % 128 else ret
/-- A physical address with the module number replaced. -/
def renamePa (a b pa : Nat) : Nat := paOf (renameRet a b (retOf pa)) (localOf pa)

/-- A map with its keys renamed and in order. -/
def renameKeys {α : Type} (f : Nat → Nat) (m : SMap α) : SMap α := m.foldl (fun acc e => mput acc (f e.1) e.2) []

/-- Everything a module holds under its number moves to another number: it has no region, so nothing of it is in use. -/
def renameModule (a b : Nat) (s : State) : State :=
  let unit := fun (n : Nat) (i : Nat) => renamePa a b (i * n) / n
  { s with
    mods := renameKeys (fun k => if k = a then b else k) s.mods
    rets := renameKeys (renameRet a b) s.rets
    cores := (renameKeys (fun k => coreKey (renameRet a b (coreRet k)) (coreFold k) (coreMember k)) s.cores).map (fun e =>
      (e.1, if modOf (coreRet e.1) = b then { e.2 with l1 := [], l1i := [], tlb := [], walkFaults := [] } else e.2))
    mem := s.mem.foldl (fun acc e => cellPut acc (renamePa a b e.1) e.2) []
    poison := s.poison.foldl (fun acc p => sadd acc (renamePa a b p)) []
    sectorKey := renameKeys (unit 32) s.sectorKey
    overflow := renameKeys (unit 65536) s.overflow
    rawFrames := s.rawFrames.foldl (fun acc p => sadd acc (unit 65536 p)) []
    llc := renameKeys (unit 128) s.llc }

/-- WRITE_MODID (R31): the module's number in the pod, while no region exists. A number that another module has is refused. -/
def execWriteModid (m modid : Nat) (s : State) : Host.Outcome State Fault Refusal :=
  hostReq m (fun s =>
    if modid > 1023 ∨ (modid ≠ m ∧ (mget? s.mods modid).isSome = true) then answer 0x13 s
    else if (s.mod m).regions ≠ [] then answer 0x12 s
    else
      let serial := serialOf (s.mod m) m
      let t := if modid = m then s else renameModule m modid s
      answer 0 (updMod modid (fun x => { x with modid := modid, identity := { x.identity with serial := some serial } }) t)) s

/-! ### Debug requests (R414) -/

/-- The host is attached to a group's root region. -/
def attachedTo (s : State) (m root : Nat) : Bool := smem (s.mod m).attached root

/-- DEBUG_ATTACH. -/
def execDebugAttach (m root : Nat) (s : State) : Host.Outcome State Fault Refusal :=
  hostReq m (fun s => match mget? (s.mod m).regions root with
    | some r => if r.rcb.parent = 0xFFFF then answer 0 (updMod m (fun x => { x with attached := sadd x.attached root }) s) else answer 0x13 s
    | none => answer 0x13 s) s

/-- The status of a debug request on a group that must be QUIESCED, or its image. -/
def quiesced (s : State) (m gid : Nat) : Nat ⊕ Image :=
  match mget? s.groups gid with
  | some g =>
    if g.m ≠ m ∨ attachedTo s m g.root = false then .inl 0x11 else if g.phase = .halting then .inl 0x12 else .inl 0x17
  | none =>
    match mget? (s.mod m).saved gid with
    | none => .inl 0x13
    | some x => if !attachedTo s m x.group.root then .inl 0x11 else if x.group.phase = .lost then .inl 0x17 else .inr x

/-- DEBUG_HALT: a RUNNING group goes through a forced save with FLAGS.DEBUG. -/
def execDebugHalt (m gid : Nat) (s : State) : Host.Outcome State Fault Refusal :=
  hostReq m (fun s =>
    match mget? s.groups gid with
    | some g =>
      if g.m ≠ m ∨ attachedTo s m g.root = false then answer 0x11 s
      else
        match g.phase with
        | .running => answer 0 (beginHalt gid (fun x => { x with forced := true, debug := true })
            (settlePort ⟨g.core, .execute⟩ (settlePort ⟨g.core, .access⟩ s)))
        | .halting => answer 0x12 s
        | _ => answer 0x17 s
    | none => match quiesced s m gid with
      | .inl st => answer st s
      | .inr _ => answer 0 s) s

/-- DEBUG_READ_IMAGE. -/
def execDebugReadImage (m gid offset len : Nat) (s : State) : Host.Outcome State Fault Refusal :=
  hostReq m (fun s => match quiesced s m gid with
    | .inl st => answer st s
    | .inr x =>
      let bs := imageBytes gid x
      if offset + len > bs.length then answer 0x13 s else tell (.data ((bs.drop offset).take len)) (answer 0 s)) s

/-- DEBUG_WRITE_IMAGE: the fields of the image that the bytes touch; a refused byte changes nothing. -/
def execDebugWriteImage (m gid offset : Nat) (data : List Byte) (s : State) : Host.Outcome State Fault Refusal :=
  hostReq m (fun s => match quiesced s m gid with
    | .inl st => answer st s
    | .inr x =>
      let ps := imageParts gid x
      if offset + data.length > partsSize ps then answer 0x13 s
      else
        match writeParts offset data 0 ps x with
        | none => answer 0x13 s
        | some y => answer 0 (updMod m (fun z => { z with saved := mput z.saved gid y }) s)) s

/-- DEBUG_RESUME: a group halted for debug may resume; one that its domain halted is DENIED. -/
def execDebugResume (m gid : Nat) (s : State) : Host.Outcome State Fault Refusal :=
  hostReq m (fun s => match quiesced s m gid with
    | .inl st => answer st s
    | .inr x =>
      if x.debug then answer 0 (updMod m (fun z => { z with saved := mput z.saved gid { releaseImage s false x with debug := false } }) s)
      else if x.halted then answer 0x11 s
      else answer 0 s) s

/-- DEBUG_DISCARD: a group halted for debug ends as if every thread had exited. -/
def execDebugDiscard (m gid : Nat) (s : State) : Host.Outcome State Fault Refusal :=
  hostReq m (fun s => match quiesced s m gid with
    | .inl st => answer st s
    | .inr x => if x.debug then answer 0 (discardSaved m gid s) else answer 0x11 s) s

end Sys2Proof.Machine
end

