-- ==== Sys2Proof/Machine/Shepherd.lean ====
section
/-! DEFINITION. What the Shepherds do for cores and reticles: power (spec/01 R29), heartbeats and votes (16 R396), error windows (16 R397),
deaths (17 R415 to R417; 16 R378, R386) and lane self-tests (17 R424). -/

namespace Sys2Proof.Machine

open Sys2Proof

/-! ### Power (R29, R136, R288) -/

/-- The physical cores of a reticle. -/
def coresOfRet (ret : Nat) : List Nat := (upFrom 0 136).map (fun c => coreKey ret (c / 4) (c % 4))

/-- MXN of the cores of a reticle that have no Mash Array operation in progress takes a value at once; the others follow as their operation
completes. -/
def settleMxn (ret : Nat) (v : Bool) (s : State) : State :=
  (coresOfRet ret).foldl (fun t k =>
    if (t.core k).mxq.isEmpty && (t.core k).mxn != v then updCore k (fun c => { c with mxn := v }) t else t) s

/-- The draw of a regulator is at its threshold or above: the alarm is raised. -/
def raiseAlarm (ret : Nat) (s : State) : State :=
  settleMxn ret true (updRet ret (fun r => { r with alarm := true, belowSince := some s.ticks }) s)

/-- POWER_ALARM_RAISE. -/
def execPowerAlarmRaise (ret : Nat) (s : State) : Host.Outcome State Fault Refusal :=
  if inService s ret then .next (raiseAlarm ret s) else .next s

/-- POWER_HOLD: the draw reaches 420 W, which is above every threshold; new Mash Array operations are held. -/
def execPowerHold (ret : Nat) (s : State) : Host.Outcome State Fault Refusal :=
  if inService s ret then .next (updRet ret (fun r => { r with hold := true }) (raiseAlarm ret s)) else .next s

/-- POWER_HOLD_RELEASE: the draw falls below 410 W. It was not below a threshold of 410 W or less before (log 21). -/
def execPowerHoldRelease (ret : Nat) (s : State) : Host.Outcome State Fault Refusal :=
  let r := s.ret ret
  if r.hold then .next (updRet ret (fun x => { x with hold := false, belowSince := if r.threshold ≤ 410 then some s.ticks else r.belowSince }) s)
  else .next s

/-- POWER_ALARM_CLEAR: the draw has been below the threshold for 10 µs. While the hold lasts, the draw is at 410 W or above, which is below a
threshold of more. -/
def execPowerAlarmClear (ret : Nat) (s : State) : Host.Outcome State Fault Refusal :=
  let r := s.ret ret
  match r.belowSince with
  | none => .next s
  | some t =>
    if r.alarm = false ∨ (r.hold = true ∧ r.threshold ≤ 410) ∨ s.ticks - t < 160000 then .next s
    else .next (settleMxn ret false (updRet ret (fun x => { x with alarm := false, belowSince := none }) s))

/-! ### Error windows (R357, R397) -/

/-- The number of an error-window counter: of a KIND, for an object of a reticle. -/
def windowKey (kind object : Nat) : Nat := kind * 2 ^ 32 + object

/-- Count an error of a KIND for an object of a reticle: the ACTION to take when it is lasting, which clears the counter. -/
def noteError (ret kind object : Nat) (s : State) : State × Option Nat :=
  match (s.mod (modOf ret)).policyTab.find? (fun e => e.2.kind == kind) with
  | none => (s, none)
  | some (_, p) =>
    let key := windowKey kind object
    let now := wtime s ret
    let w := match mget? (s.ret ret).errWin key with
      | some (n, t) => if now - t ≤ p.window * 16000000 then (n + 1, t) else (1, now)
      | none => (1, now)
    let lasting := if kind = 2 then decide (w.1 > p.count) else decide (w.1 ≥ p.count)
    (updRet ret (fun r => { r with errWin := if lasting then mdel r.errWin key else mput r.errWin key w }) s, if lasting then some p.action else none)

/-! ### Lost groups (R415, R417, R420) -/

/-- The CORE_LOST record of a group, by the Shepherd of a reticle: SLICE 2 and PC 0. -/
def lostRecord (s : State) (ret code flags seq : Nat) (g : Group) : Record :=
  ⟨wtime s ret, seq, .coreLost, flags, g.region, g.grid, g.index, 0xFF, 2, 0xFF, 0, code, 0, 0, 0, code⟩

/-- The place that a LOST group keeps until its disposition: it has no image. -/
def lostImage (gid seq code va : Nat) (g : Group) : Image :=
  let halt := g.halt.getD (.coreLost, seq, code, swKey gid 0 .execute, false)
  let kept : Group := { g with phase := .lost, halt := some halt, recordVa := va, recordOk := true, debug := false, preq := false, pdlcFrom := none, stopped := [] }
  { group := kept, sws := [], threads := [], queues := [], spad := [], spadPoison := [], bank := [], copies := [], forced := true, halted := true
    debug := false, key := 0, keyBits := none, member := coreMember g.core, stamp := 0, ret := coreRet g.core }

/-- After a group that was no longer on a core has become LOST (R405, R406, R420): a staged grid rolls back up to three times; FPOLICY 1
delivers the group to its handler; else its domain ends. -/
def settleLost (gid seq code : Nat) (va : Option Nat) (g : Group) (s : State) : State :=
  let x := mget? (s.mod g.m).grids g.grid
  let retries := match x with | some y => y.retries | none => 0
  if g.discard then gridSettled g.m g.grid s
  else if g.launch.staged && decide (retries < 3) then rollBack g.m g.grid .coreLost s
  else
    let s := if g.launch.staged then updGrid g.m g.grid (fun y => { y with log := [] }) s else s
    let d := domainOf s g.m 8 g.region
    let policy := match mget? (s.mod g.m).regions d with | some r => r.rcb.fpolicy | none => 0
    let handler := match x with | some y => y.handlerFor.isSome | none => false
    let rva := if g.halt.isSome then (if g.recordOk then some g.recordVa else none) else va
    match rva with
    | none => terminateDomain g.m d s
    | some a =>
      if policy = 0 ∨ handler = true then terminateDomain g.m d s
      else
        launchHandler g.m d (updMod g.m (fun y => { y with
          saved := mput y.saved gid (lostImage gid seq code a g), waitingHalts := y.waitingHalts.filter (· != gid) ++ [gid] }) s)

/-- A resident group becomes LOST with its core: its record, and what follows. What it had in flight finds no group. -/
def loseGroup (ret code gid : Nat) (s : State) : State :=
  match mget? s.groups gid with
  | none => s
  | some g =>
    let (q, t) := shepherdSeq ret s
    let (t, va) := postRecord g.m g.root g.region (lostRecord s ret code (if g.halt.isSome || g.discard then 4 else 0) q g) t
    settleLost gid q code va g (removeGroup gid (discardQueues gid t))

/-- A saved group is LOST with its reticle. One that has already been delivered to a handler keeps its place there. -/
def loseSaved (m ret code gid : Nat) (s : State) : State :=
  match mget? (s.mod m).saved gid with
  | none => s
  | some x =>
    let g := x.group
    let (q, t) := shepherdSeq ret s
    let (t, va) := postRecord m g.root g.region (lostRecord s ret code (if x.halted then 4 else 0) q g) t
    let told := x.halted && !x.debug && !(s.mod m).waitingHalts.contains gid
    let put := fun (u : State) => updMod m (fun y => { y with saved := mput y.saved gid (lostImage gid q code g.recordVa g) }) u
    if told && !g.launch.staged then put t
    else settleLost gid q code va g (updMod m (fun y => { y with saved := mdel y.saved gid, waitingHalts := y.waitingHalts.filter (· != gid) }) t)

/-! ### The death of a core (R386, R409, R415, R416) -/

/-- What a dead core still is: its scratchpad, bank, caches, queues and slots are lost. Its Cellar slots belong to the reticle (R409). -/
def deadCore (c : CoreSt) : CoreSt :=
  { CoreSt.reset with lmap := c.lmap, wcode := c.wcode, counters := c.counters, seq := c.seq, cellarOut := c.cellarOut, dead := true }

/-- Clear the scratchpad of a core; its watchers look again. -/
def clearSpad (k : Nat) (s : State) : State := wakeWatches (spadPa k 0) Config.spadBytes (zeroRange (spadPa k 0) Config.spadBytes s)

/-- Some cores no longer wait for walks; a walk for which none waits ends. -/
def dropWalks (gone : Nat → Bool) (s : State) : State :=
  { s with walks := (s.walks.map (fun e => (e.1, { e.2 with cores := e.2.cores.filter (fun k => !gone k) }))).filter (fun e => !e.2.cores.isEmpty) }

/-- A core dies. -/
def coreDies (k : Nat) (s : State) : State :=
  let ret := coreRet k
  let gs := groupsOn s k
  let roots := gs.map (fun e => e.2.root)
  let trees := ((s.ret ret).trees.filter (fun e => e.2.scope != 0 && !e.2.lost && roots.contains e.2.rootreg)).map (fun e =>
    (e.1, treeRouters s ret e.1))
  let s := (gs.map (·.1)).foldl (fun t i => loseGroup ret (coreCode k) i t) s
  let s := clearSpad k (updCore k deadCore (dropWalks (· == k) s))
  trees.foldl (fun t e => loseTree ret e.1 e.2 t) s

/-! ### The death of a reticle (R378, R386, R417) -/

/-- Tf: the greatest stamp or watermark that any router with a link from a reticle has received from it. -/
def boundaryStamp (s : State) (u : Nat) : Nat :=
  let marks := ([0, 1, 2, 3] ++ opticalPorts).filterMap (fun p => (linkFar s u p).map (fun (f : Nat × Nat) => mget (s.ret f.1).inWm f.2 0))
  let stamps := (s.wire.filter (fun e => e.2.ordered && e.2.src == u && e.2.pos != u)).map (fun e => e.2.stamp)
  (marks ++ stamps).foldl Nat.max 0

/-- The packets of a dead reticle: those that had not left it are lost; those to it, or held in its router, return to their sources. A notice
that its router held reaches its destination (log 21). -/
def losePackets (u : Nat) (s : State) : State :=
  let s := { s with wire := s.wire.filter (fun e => !(e.2.src == u && (e.2.pos == u || !e.2.ordered))) }
  let back := (s.wire.filter (fun e => e.2.dst == u || e.2.pos == u)).map (·.1)
  back.foldl (fun t i => match mget? t.wire i with
    | none => t
    | some p => if p.op?.isNone && p.dst != u then arriveAt i p.dst false p t else returnPacket i p t) s

/-- The work requests of a dead reticle have no issuer; those with a packet in a live router are still applied at their targets. -/
def loseWorks (u : Nat) (s : State) : State :=
  let live := s.works.filter (fun e => e.2.ret != u || s.wire.any (fun p => p.2.op? == some e.1))
  { s with works := live.map (fun e => if e.2.ret = u then (e.1, { e.2 with gid := e.1, orphan := true }) else e) }

/-- The ports of a reticle's neighbours that face it read 3, since some tick, and the mesh tables are rewritten around it at a stamp. -/
def closePorts (src u : Nat) (s : State) : State :=
  let s := [0, 1, 2, 3].foldl (fun t p => match neighbourRet u p with
    | some n =>
      let o := oppositePort p
      if inService t n then updRet n (fun r => { setMesh o 3 r with downAt := mput r.downAt o s.ticks }) t else t
    | none => t) s
  addCut src (cutStamp s src) .mesh { s with free := s.free + 1 }

/-- A reticle out of service for good: its named folds are kept until its windows are rebound. -/
def retiredRet (r : RetSt) : RetSt :=
  { RetSt.reset with site := .retired, plane := 0xFF, mesh := 0xFF, tgen := r.tgen, wtOff := r.wtOff, slewBy := r.slewBy, slewFrom := r.slewFrom, shSeq := r.shSeq, foldMap := r.foldMap }

/-- The root regions' domains with a group among some groups, each once, by one of its regions. -/
def domainsOf (s : State) (m : Nat) (gs : List Group) : List Group :=
  gs.foldl (fun acc g => if acc.any (fun x => domainOf s m 8 x.region == domainOf s m 8 g.region) then acc else acc ++ [g]) []

/-- The command processor or the host port leaves a module with the reticle that held it: the standby takes over, if it is in service. -/
def loseHostAttach (m : Nat) (s : State) : State :=
  let s := if inService s (cpRet s m) then s else takeover m s
  if inService s (cpRet s m) then noteHost m s else noteHost m (updMod m (fun x => { x with hostUp := false }) s)

/-- A reticle is taken out of service, declared by another: its groups and images are LOST, trees through it are lost, the failure notice
settles its ordered operations, and the retirement is recorded and told. -/
def reticleDies (src u : Nat) (s : State) : State :=
  let m := modOf u
  let here := groupsOfRet s u
  let images := (s.mod m).saved.filter (fun e => e.2.ret == u && e.2.group.phase != .lost)
  let gs := here.map (·.2) ++ images.map (fun e => e.2.group)
  let regions := dedupe (gs.map (fun g => g.region))
  let domains := domainsOf s m gs
  let trees := ((s.ret u).trees.filter (fun e => e.2.scope != 0 && !e.2.lost)).map (fun e => (e.1, treeRouters s u e.1))
  let tf := boundaryStamp s u
  let s := amend m 2 u 0 0 0 s
  let s := updRet u retiredRet s
  let s := here.foldl (fun t e => loseGroup u (coreCode e.2.core) e.1 t) s
  let s := images.foldl (fun t e => loseSaved m u (u % 128 + 0x3F * 128) e.1 t) s
  let cs := s.cores.map (fun e => if coreRet e.1 = u then (e.1, { deadCore e.2 with dead := false, cellarOut := none }) else e)
  let s := dropWalks (fun k => coreRet k == u) { s with
    cores := cs
    watches := s.watches.filter (fun w => retOf w.base != u) }
  let s := closePorts src u (loseWorks u (losePackets u s))
  let s := trees.foldl (fun t e => loseTree src e.1 e.2 t) s
  let hosts := dedupe ((s.groups.filter (fun e => e.2.m == m && regions.contains e.2.region)).map (fun e => coreRet e.2.core))
  let s := sendNotice src (tf + 1) hosts (.failure u) s
  let s := noticeHost src none .siteRetired 0 0 (u % 128) s
  let s := domains.foldl (fun t g => noticeDomain m g.root g.region src none .siteRetired 0 0 (u % 128) t) s
  loseHostAttach m s

/-! ### Retirement by the Shepherds (R24, R357, R425) -/

/-- The Shepherds take a reticle out of service, by another of its module. -/
def retireSite (u : Nat) (s : State) : State :=
  match (servedRets s (modOf u)).find? (fun r => r != u) with
  | some src => if inService s u then reticleDies src u s else s
  | none => s

/-- The complete folds of a reticle. -/
def completeFolds (s : State) (ret : Nat) : Nat := ((upFrom 0 Config.folds).filter (foldComplete s ret)).length

/-- A reticle in service with fewer than 32 complete folds is retired (R24). -/
def retireShort (ret : Nat) (s : State) : State := if inService s ret && decide (completeFolds s ret < 32) then retireSite ret s else s

/-- A core is retired: it dies, and its reticle with it when too few folds are left. -/
def retireCore (k : Nat) (s : State) : State := retireShort (coreRet k) (coreDies k s)

/-- What an Error Policy entry has the Shepherd do to a core or its reticle. The other actions concern a lane or a link. -/
def takeAction (ret : Nat) (core : Option Nat) (action : Nat) (s : State) : State :=
  match action, core with
  | 3, some k => if (s.core k).dead then s else retireCore k s
  | 4, _ => retireSite ret s
  | _, _ => s

/-! ### Heartbeats (R396) -/

/-- A receiver hears a sender: its own cores, or the Shepherds of its mesh neighbours. -/
def hears (s : State) (ret sender : Nat) (isCore : Bool) : Bool :=
  inService s ret && (if isCore then coreRet sender == ret && !(s.core sender).dead
    else inService s sender && [0, 1, 2, 3].any (fun p => neighbourRet ret p == some sender))

/-- Change a missed-beat count. -/
def setMissed (ret sender n : Nat) (isCore : Bool) (s : State) : State :=
  if isCore then updCore sender (fun c => { c with missed := n }) s else updRet ret (fun r => { r with missed := mput r.missed sender n }) s

/-- HEARTBEAT: a beat resets the count. -/
def execHeartbeat (ret sender : Nat) (isCore : Bool) (s : State) : Host.Outcome State Fault Refusal :=
  if hears s ret sender isCore then .next (setMissed ret sender 0 isCore s) else .next s

/-- HEARTBEAT_MISS: a missing beat counts, and the fourth opens a vote. A majority declares the sender silent, and it is retired; a vote without
a majority resets the counts. -/
def execHeartbeatMiss (ret sender : Nat) (isCore majority : Bool) (s : State) : Host.Outcome State Fault Refusal :=
  if !hears s ret sender isCore then .next s
  else
    let n := 1 + (if isCore then (s.core sender).missed else mget (s.ret ret).missed sender 0)
    if n < 4 then .next (setMissed ret sender n isCore s)
    else if majority then .next (if isCore then retireCore sender s else reticleDies ret sender s)
    else if isCore then .next (setMissed ret sender 0 true s)
    else .next ([0, 1, 2, 3].foldl (fun t p => match neighbourRet sender p with
      | some r => setMissed r sender 0 false t
      | none => t) s)

/-! ### Lane self-tests (R34, R67, R424) -/

/-- The lanes of a set of failing ones whose failure is lasting, with the action to take. -/
def failLanes (core : Nat) : List Nat → State → State × List (Nat × Nat)
  | [], s => (s, [])
  | l :: ls, s =>
    let (t, lasting) := noteError (coreRet core) 1 (core % 256 * 32 + l) s
    let (u, more) := failLanes core ls t
    (u, (lasting.map (fun a => (l, a))).toList ++ more)

/-- LANE_SELF_TEST: the Shepherd tests a drained core; a core with groups is drained first, and takes no other meanwhile (R67). A lane that fails
lastingly is fused: the amendment, the notice, and the new LMAP. A core left with fewer than 16 lanes is dead. -/
def execLaneSelfTest (core : Nat) (failing : W32) (s : State) : Host.Outcome State Fault Refusal :=
  let ret := coreRet core
  let gs := groupsOn s core
  if inService s ret = false ∨ (s.core core).dead = true then .next s
  else if !gs.isEmpty then
    .next (gs.foldl (fun t e => requestWith e.1 true t) (updCore core (fun c => { c with lmapTo := some c.lmap }) s))
  else
    let good := (s.core core).lmap
    let s := updCore core (fun c => { c with lmapTo := none }) s
    let (s, lasting) := failLanes core ((upFrom 0 32).filter (fun l => bitOf failing.toNat l && bitOf good.toNat l)) s
    let fused := (lasting.filter (fun e => e.2 == 1)).map (·.1)
    let s := if fused.isEmpty then s else fuseLanes core (good &&& ~~~((laneSet fused).setWidth 32)) s
    .next (retireShort ret (lasting.foldl (fun t e => takeAction ret (some core) e.2 t) s))

end Sys2Proof.Machine
end

