-- ==== Sys2Proof/Machine/Recovery.lean ====
section
/-! DEFINITION. Moving a fold to a spare fold (spec/09 R212; 17 R425), binding a retired site to a spare site (01 R20; 17 R425), and cold reset
with its bring-up (18 R448). -/

namespace Sys2Proof.Machine

open Sys2Proof

/-! ### Rebinding core windows (R212, R218, R348) -/

/-- The core that takes the place of a core, if it moved. -/
def movedTo (pairs : List (Nat × Nat)) (k : Nat) : Option Nat := (pairs.find? (fun p => p.1 == k)).map (·.2)

/-- A core-window leaf names another core: its PA bits change. -/
def setLeaf (key a core : Nat) (s : State) : State :=
  writeKey s key a (bytesLE 8 (readNat s key a 8 % 2 ^ 19 + spadPa core 0 / 65536 * 2 ^ 19))

/-- Rewrite the leaf of one window set entry, with the shootdown of its window. -/
def rebindEntry (pairs : List (Nat × Nat)) (m root key va : Nat) (s : State) : State :=
  match readVa s m root va 16 with
  | none => s
  | some bs =>
    let a := ofBytesLE (bs.drop 8)
    match (windowCore s key a).bind (movedTo pairs) with
    | none => s
    | some k => shootRange m root (ofBytesLE (bs.take 8)) 0x200000 (setLeaf key a k s)

/-- Rewrite the leaves of every window set of the pod that name a moved core. -/
def rebindWindows (pairs : List (Nat × Nat)) (s : State) : State :=
  s.mods.foldl (fun t e => e.2.regions.foldl (fun u r =>
    let m := e.1
    let root := rootOf u m r.1
    let key := match mget? (u.mod m).regions root with | some x => x.rcb.keyid | none => 0
    (upFrom 0 (effective u m 0 r.1 (·.wincount))).foldl (fun v i => rebindEntry pairs m root key (effective u m 0 r.1 (·.winset) + 16 * i) v) u) t) s

/-! ### Fold migration (R212) -/

/-- Copy the bytes and the poison of a range to another. -/
def copyRange (a b n : Nat) (s : State) : State :=
  let inside := fun (x : Nat) => decide (a ≤ x) && decide (x < a + n)
  let t := zeroRange b n s
  { t with
    mem := (s.mem.filter (fun e => inside e.1)).foldl (fun m e => cellPut m (b + (e.1 - a)) e.2) t.mem
    poison := (s.poison.filter inside).foldl (fun p x => sadd p (b + (x - a))) t.poison }

/-- A core's scratchpad, bank and owner pass to its spare, whose array is idle and runs narrowed while the alarm lasts (R136). What a dead core
held is lost. -/
def moveCore (old new : Nat) (s : State) : State :=
  let c := s.core old
  let t := if c.dead then zeroRange (spadPa new 0) Config.spadBytes s else copyRange (spadPa old 0) (spadPa new 0) Config.spadBytes s
  let put := fun (n : CoreSt) =>
    { CoreSt.reset with
      lmap := n.lmap, counters := n.counters, seq := n.seq, issueNo := n.issueNo, mxn := (s.ret (coreRet new)).alarm, cellarOut := n.cellarOut
      owner := if c.dead then none else c.owner, bank := if c.dead then [] else c.bank }
  clearSpad old (updCore new put t)

/-- A physical address in a moved scratchpad becomes its new place. -/
def forwardPa (pairs : List (Nat × Nat)) (pa : Nat) : Nat :=
  if isSpad pa then
    match movedTo pairs (coreOfSpad pa) with
    | some k => spadPa k 0 + (pa - spadPa (coreOfSpad pa) 0)
    | none => pa
  else pa

/-- Requests and packets on their way to a moved scratchpad go to its new place. -/
def forwardHeld (pairs : List (Nat × Nat)) (s : State) : State :=
  let fl := s.flight.map (fun e =>
    if e.2.performed then e else (e.1, { e.2 with lanes := e.2.lanes.map (fun x => { x with pa := forwardPa pairs x.pa }) }))
  let wi := s.wire.map (fun e => (e.1, { e.2 with body := match e.2.body with
    | .put op pa key data => .put op (forwardPa pairs pa) key data
    | .atomic op pa key => .atomic op (forwardPa pairs pa) key
    | b => b }))
  { s with flight := fl, wire := wi }

/-- Saved groups of a moved core resume on its new place. -/
def forwardSaved (m : Nat) (pairs : List (Nat × Nat)) (s : State) : State :=
  updMod m (fun x => { x with saved := x.saved.map (fun e =>
    (e.1, { e.2 with group := { e.2.group with core := (movedTo pairs e.2.group.core).getD e.2.group.core } })) }) s

/-- FOLD_MIGRATION: the groups of the fold's cores are saved first; when all have gone, the fold moves as one step. -/
def execFoldMigration (ret fold spare : Nat) (s : State) : Host.Outcome State Fault Refusal :=
  match mget? (s.ret ret).foldMap fold with
  | none => .next s
  | some old =>
    if inService s ret = false ∨ smem (s.ret ret).spareFolds spare = false ∨ foldComplete s ret spare = false then .next s
    else
      let pairs := (upFrom 0 4).map (fun i => (coreKey ret old i, coreKey ret spare i))
      let gs := pairs.flatMap (fun p => groupsOn s p.1)
      if !gs.isEmpty then .next (gs.foldl (fun t e => requestWith e.1 true t) s)
      else
        let s := amend (modOf ret) 1 ret old 0 spare s
        let s := pairs.foldl (fun t p => moveCore p.1 p.2 t) s
        let s := updRet ret (fun r => { r with foldMap := mput r.foldMap fold spare, spareFolds := sdel r.spareFolds spare }) s
        let s := rebindWindows pairs s
        let s := forwardSaved (modOf ret) pairs (forwardHeld pairs s)
        .next (noticeHost ret none .foldMoved 0 0 (old + spare * 256) s)

/-! ### Bring-up (R32 to R35, R448) -/

/-- A core as its Shepherd brings it up: LMAP of the effective identity; one with fewer than 16 good lanes is dead. -/
def bootCore (x : ModSt) (ticks n fold member : Nat) : CoreSt :=
  let v := effLmap x n fold member
  { CoreSt.reset with lmap := v, dead := decide (popcount 32 v.toNat < 16), counters := [(0, 0 - BitVec.ofNat 64 (ticks / 8))] }

/-- The rings of an ACTIVE cartridge, all holding lock. -/
def bootRings (s : State) (ret : Nat) : SMap W32 :=
  (upFrom 0 640).map (fun i => (i, lockedRing s ret i (retunedRing ret (i / 160) (i % 160) 0)))

/-- The stages of bring-up of one reticle: measurements, cores, an ACTIVE cartridge with its planes down, and fabric time with an offset. -/
def bringUp (ret : Nat) (offset : Int) (s : State) : State :=
  let x := s.mod (modOf ret)
  let n := ret % 128
  let folds := effFolds x n
  let r : RetSt :=
    { RetSt.reset with
      site := .inService, plane := 0xFF, wtOff := offset, foldMap := folds.1, spareFolds := folds.2, cartridge := .active, cartSince := s.ticks
      rings := bootRings s ret, meas := (upFrom 0 4).map (fun i => (i, Config.bootMeasurement ret i)) }
  let s := updRet ret (fun _ => r) { s with free := s.free + 1 }
  (upFrom 0 136).foldl (fun t c => updCore (coreKey ret (c / 4) (c % 4)) (fun _ => bootCore x s.ticks n (c / 4) (c % 4)) t) s

/-- What a cold reset of a module ends: everything it held and everything in flight from it. -/
def dropModule (m : Nat) (s : State) : State :=
  let there := fun (a : Nat) => modOf (retOf a) == m
  let mine := fun (gid : Nat) => match mget? s.groups gid with | some g => g.m == m | none => false
  let wire := s.wire.filter (fun e => modOf e.2.src != m)
  { s with
    mem := s.mem.filter (fun e => !there e.1)
    poison := s.poison.filter (fun a => !there a)
    sectorKey := s.sectorKey.filter (fun e => !there (e.1 * 32))
    overflow := s.overflow.filter (fun e => !there (e.1 * 65536))
    rawFrames := s.rawFrames.filter (fun f => !there (f * 65536))
    llc := s.llc.filter (fun e => !there (e.1 * 128))
    cores := s.cores.filter (fun e => modOf (coreRet e.1) != m)
    rets := (s.rets.filter (fun e => modOf e.1 != m)).map (fun e =>
      (e.1, { e.2 with ordBuf := e.2.ordBuf.filter (fun i => (mget? wire i).isSome) }))
    groups := s.groups.filter (fun e => e.2.m != m)
    sws := s.sws.filter (fun e => !mine (e.1 / 32))
    threads := s.threads.filter (fun e => !mine (e.1 / 2048))
    queues := s.queues.filter (fun e => !mine (e.1 / 8192))
    deadlock := s.deadlock.filter (fun e => !mine (e.1 / 16))
    flight := s.flight.filter (fun e => e.2.m != m)
    longs := s.longs.filter (fun e => modOf (coreRet e.2.core) != m)
    works := s.works.filter (fun e => e.2.m != m)
    flushes := s.flushes.filter (fun e => !mine e.2.gid)
    walks := s.walks.filter (fun e => e.2.m != m)
    watches := s.watches.filter (fun w => !there w.base && !mine (w.sw / 32))
    wire := wire }

/-- The module's own state after cold reset: what is recorded stays, key entry 0 is new (R351). MODID is not loaded yet, and reads 0 until the
host writes it (R10, R31); until then the wafer field that the module answers to is its own index m (log 8). -/
def bootMod (m : Nat) (x : ModSt) : ModSt :=
  { ModSt.reset with
    modid := 0, booted := true, boots := x.boots + 1, identity := { x.identity with serial := some (serialOf x m) }, amendments := x.amendments
    stageFails := x.stageFails, keys := [(0, Config.bootKey (m * 2 ^ 64 + x.boots))] }

/-- The complete folds of a site by the effective identity (R21). -/
def foldsComplete (x : ModSt) (n : Nat) : Nat :=
  ((upFrom 0 Config.folds).filter (fun f => (upFrom 0 4).all (fun i => decide (popcount 32 (effLmap x n f i).toNat ≥ 16)))).length

/-- The sites that cannot meet R22 at a cold reset: in service, with fewer than 32 complete folds (R24). -/
def shortSites (x : ModSt) : List Nat :=
  siteList.filter (fun n => effSite x n == .inService && !stageFailed x n && decide (foldsComplete x n < 32))

/-- A site at a cold reset (R32, R448): one in service is brought up, unless a stage of its bring-up fails, which leaves its recorded state. A
site that has just been retired keeps its named folds until its windows are rebound. -/
def bootSite (x : ModSt) (m n : Nat) (short : Bool) (s : State) : State :=
  if effSite x n = .inService ∧ stageFailed x n = false then bringUp (m * 128 + n) (-(s.ticks : Int)) s
  else updRet (m * 128 + n) (fun _ => { RetSt.reset with site := effSite x n, foldMap := if short then (effFolds x n).1 else [] }) s

/-- COLD_RESET: the module comes up, each reticle through its stages. Fabric time starts at 0; the command processor runs on 79, or on 87 when
79 is not in service. -/
def execColdReset (m : Nat) (s : State) : Host.Outcome State Fault Refusal :=
  if m > 1023 then .next s
  else
    let back := (s.wire.filter (fun e => modOf e.2.src != m && (modOf e.2.dst == m || modOf e.2.pos == m))).map (·.1)
    let s := back.foldl (fun t i => match mget? t.wire i with | some p => returnPacket i p t | none => t) s
    let s := updMod m (bootMod m) (dropModule m s)
    let short := shortSites (s.mod m)
    let s := short.foldl (fun t n => amend m 2 (m * 128 + n) 0 0 0 t) s
    let s := siteList.foldl (fun t n => bootSite (s.mod m) m n (short.contains n) t) s
    let s := (servedRets s m).foldl (fun t r => absentPorts r t) s
    let cp := if inService s (m * 128 + 79) then 79 else 87
    .next (rewriteMesh m 0 (updMod m (fun y => { y with activeCp := cp, hostUp := inService s (m * 128 + cp) }) s))

/-! ### Site retirement (R20, R24, R425) -/

/-- A reticle and its neighbours in service join each other's input sets at a stamp (R375). -/
def joinSite (src v : Nat) (s : State) : State :=
  let stamp := cutStamp s src
  let join := fun (ret port : Nat) (t : State) =>
    addCut ret stamp (.join port) (updRet ret (fun r => { setMesh port 0 r with cutPorts := sadd r.cutPorts port, downAt := mdel r.downAt port }) t)
  let s := [0, 1, 2, 3].foldl (fun t p => match neighbourRet v p with
    | some n => if inService t n then join v p (join n (oppositePort p) t) else t
    | none => t) { s with free := s.free + 1 }
  addCut src stamp .mesh (absentPorts v s)

/-- The cores of two reticles that have the same virtual names: named fold by named fold. -/
def namedPairs (s : State) (u v : Nat) : List (Nat × Nat) :=
  (s.ret u).foldMap.flatMap (fun e => match mget? (s.ret v).foldMap e.1 with
    | some f => (upFrom 0 4).map (fun i => (coreKey u e.2 i, coreKey v f i))
    | none => [])

/-- SITE_RETIRE: a site is retired, if it still is in service, and its windows are rebound to a SPARE site, or, with no spare left, its cores
are lost for good. -/
def execSiteRetire (m ret spare : Nat) (s : State) : Host.Outcome State Fault Refusal :=
  let u := m * 128 + ret % 128
  let v := m * 128 + spare % 128
  match (servedRets s m).find? (fun r => r != u) with
  | none => .next s
  | some src =>
    let s := if inService s u then reticleDies src u s else s
    if (s.ret u).site ≠ .retired ∨ (s.ret u).foldMap = [] then .next s
    else if (s.ret v).site = .spare then
      let s := bringUp v ((s.ret u).wtOff + slewed s u) (amend m 3 v 0 0 0 s)
      let s := rebindWindows (namedPairs s u v) (joinSite src v s)
      .next (noteHost m (updRet u (fun r => { r with foldMap := [] }) s))
    else if siteList.any (fun n => (s.ret (m * 128 + n)).site == .spare) then .next s
    else .next ((coresOfRet u).foldl (fun t k => updCore k (fun c => { c with dead := true }) t) (updRet u (fun r => { r with foldMap := [] }) s))

end Sys2Proof.Machine
end

