-- ==== Sys2Proof/Machine/Links.lean ====
section
/-! DEFINITION. Fabric links (spec/18 R427), mesh ports (18 R428) and the samples of the route selector (18 R430). -/

namespace Sys2Proof.Machine

open Sys2Proof

/-! ### Ports -/

/-- A mesh link goes down: both its ends read 2 from the same instant, and the tables of the module are rewritten under a cut-over. -/
def portDown (ret port : Nat) (s : State) : State :=
  let close := fun (r p : Nat) (t : State) => updRet r (fun x => { setMesh p 2 x with downAt := mput x.downAt p s.ticks }) t
  match neighbourRet ret port with
  | none => s
  | some n => noteHost (modOf ret) (addCut ret (cutStamp s ret) .mesh (close ret port (close n (oppositePort port) { s with free := s.free + 1 })))

/-- MESH_PORT_DOWN: a port in use has failed, or is taken out of use. -/
def execMeshPortDown (ret port : Nat) (s : State) : Host.Outcome State Fault Refusal :=
  if port < 4 ∧ (linkFar s ret port).isSome = true then .next (portDown ret port s) else .next s

/-- A link is marked degraded at both ends: LSTATE shows it for a mesh port. -/
def degrade (ret port : Nat) (s : State) : State :=
  let mark := fun (r p : Nat) (t : State) => if (t.ret r).meshSt p = 0 then updRet r (setMesh p 1) t else t
  if port < 4 then
    match neighbourRet ret port with
    | some n => mark ret port (mark n (oppositePort port) s)
    | none => s
  else s

/-! ### Flits -/

/-- Change the link at a port. -/
def updLink (ret port : Nat) (f : Link → Link) (s : State) : State :=
  updRet ret (fun r => { r with links := mput r.links port (f (r.link port)) }) s

/-- The error window of a link ends after 10^12 bits (R357). The bits received count from its opening. -/
def linkWindow (ret port : Nat) (s : State) : State :=
  if ((s.ret ret).link port).bits > 10 ^ 12 ∨ (mget? (s.ret ret).errWin (windowKey 2 port)).isNone = true then
    updLink ret port (fun l => { l with bits := 0 }) (updRet ret (fun r => { r with errWin := mdel r.errWin (windowKey 2 port) }) s)
  else s

/-- A flit whose CRC fails is discarded and asked for again. It is counted, and the eighth failure in a row takes the link down. -/
def badFlit (ret port : Nat) (s : State) : State :=
  let n := ((s.ret ret).link port).crcRow + 1
  let (t, lasting) := noteError ret 2 port (linkWindow ret port (updLink ret port (fun l => { l with crcRow := n }) s))
  let t := match lasting with
    | some 2 => degrade ret port t
    | some a => takeAction ret none a t
    | none => t
  if n ≥ 8 ∧ port < 4 then updLink ret port (fun l => { l with crcRow := 0 }) (portDown ret port t) else t

/-- FLIT_RECEIVE: a flit with a sequence number arrives at a port: the next that the far end sends, or one that it sends again. Only the one
expected next is taken, and is acknowledged. -/
def execFlitReceive (ret port seq : Nat) (crcOk : Bool) (s : State) : Host.Outcome State Fault Refusal :=
  match linkFar s ret port with
  | none => .next s
  | some (far, o) =>
    let snd := (s.ret far).link o
    let fresh := seq == snd.nextSeq && decide (snd.replay.length < 512)
    if !fresh && !snd.replay.contains seq then .next s
    else
      let s := updLink ret port (fun l => { l with bits := l.bits + 512 }) s
      let s := if fresh then updLink far o (fun l => { l with nextSeq := (seq + 1) % 4096, replay := l.replay ++ [seq] }) s else s
      if seq ≠ ((s.ret ret).link port).expectSeq then .next s
      else if crcOk then
        .next (updLink ret port (fun l => { l with expectSeq := (seq + 1) % 4096, crcRow := 0 })
          (updLink far o (fun l => { l with replay := l.replay.filter (· != seq) }) s))
      else .next (badFlit ret port s)

/-! ### No route (R428, R431) -/

/-- A millisecond has passed since a port went down. -/
def downLong (s : State) (ret port : Nat) : Bool :=
  match mget? (s.ret ret).downAt port with
  | some t => decide (s.ticks - t ≥ 16000000)
  | none => true

/-- No port of a module went down within the last millisecond. -/
def settledLong (s : State) (m : Nat) : Bool := (servedRets s m).all (fun r => (s.ret r).downAt.all (fun e => downLong s r e.1))

/-- A request between reticles has had no route for a millisecond. -/
def routeless (s : State) (src dst force : Nat) (route : Option Route) : Bool :=
  src != dst && (match route.bind (routeHeld s src dst) with
    | some h => downLong s h.1 h.2
    | none => !pathOk s src dst force && settledLong s (modOf src))

/-- An ordered packet has had no way out of its router for a millisecond. -/
def stranded (s : State) (p : Packet) : Bool :=
  p.pos != p.dst && (match nextOut s p with
    | some o => (linkFar s p.pos o).isNone && downLong s p.pos o
    | none => settledLong s (modOf p.pos))

/-- The lanes of a request: those whose target has no route return with an error, the others are performed. -/
def performRouted (f : Flight) : List LaneReq → State → List LaneReq × State
  | [], s => ([], s)
  | x :: xs, s =>
    let src := coreRet f.core
    let lost := routeless s src (retOf x.pa) 0 (chooseRoute s src (retOf x.pa) 0)
    let (y, s) := if lost then ({ x with err := some (.remoteError, x.ea, 0) }, s) else performLane f x s
    let (ys, s) := performRouted f xs s
    (y :: ys, s)

/-- NO_ROUTE_TIMEOUT: a packet or a request that still has no route 1 ms after its port went down is returned with an error. -/
def execNoRouteTimeout (pkt : Nat) (s : State) : Host.Outcome State Fault Refusal :=
  match mget? s.wire pkt, mget? s.flight pkt, mget? s.works pkt with
  | some p, _, _ =>
    let gone := if p.ordered then stranded s p else routeless s p.src p.dst 0 (some p.route)
    if gone then .next (returnPacket pkt p s) else .next s
  | none, some f, _ =>
    let src := coreRet f.core
    let gone := f.lanes.any (fun x => routeless s src (retOf x.pa) 0 (chooseRoute s src (retOf x.pa) 0))
    if f.performed || f.spad || !gone || mustWait s pkt f then .next s
    else
      let (ls, t) := performRouted f f.lanes s
      .next { t with flight := mput t.flight pkt { f with lanes := ls, performed := true } }
  | none, none, some o =>
    if o.wr.opc = 2 ∧ o.injected = true ∧ o.err.isNone = true ∧ o.wr.toPeer = false
        ∧ routeless s o.ret o.wr.target o.wr.route (chooseRoute s o.ret o.wr.target o.wr.route) = true then
      .next (failWork pkt .remoteError o.wr.raddr 0 s)
    else .next s
  | none, none, none => .next s

/-! ### Samples (R430) -/

/-- ROUTE_SAMPLE: the selector of a reticle samples its loads, and the reticle publishes its planes' states and loads. A load is timing: a free
value in sixteenths (log 4). -/
def execRouteSample (ret : Nat) (s : State) : Host.Outcome State Fault Refusal :=
  if inService s ret = false then .next s
  else
    let loads := (upFrom 0 8).map (fun i => (i, Config.load (ret * 8 + i) s.free % 16))
    let states := (upFrom 0 4).map (fun p => (8 + p, (s.ret ret).planeSt p))
    .next (updRet ret (fun r => { r with samples := loads ++ states }) { s with free := s.free + 1 })

end Sys2Proof.Machine
end

