-- ==== Sys2Proof/Machine/Moves.lean ====
section
/-! DEFINITION. The moves of the agenda that are no step of an instruction (log 1): an engine moves one unit (spec/10 R224, R241), and an error
of the hardware happens (09 R213 to R221; 12 R290; 17 R421). -/

namespace Sys2Proof.Machine

open Sys2Proof

/-! ### Engine units (R224, R241) -/

/-- The endpoint may place units of a packet now: it is at its target's door, or it belongs to the ordered operation that is next in key order
(R374). -/
def placesNow (s : State) (pkt : Nat) (p : Packet) : Bool :=
  atTarget s p || (p.ordered && smem (s.ret p.dst).ordBuf pkt && (match nextOrdered s p.dst with
    | some (_, q) => q.op?.isSome && q.op? == p.op?
    | none => false))

/-- The endpoint places a unit of a packet that may take effect now. -/
def movePlace (pkt : Nat) (s : State) : State :=
  match mget? s.wire pkt with
  | none => s
  | some p => if placesNow s pkt p then placeUnit pkt p s else s

/-- One unit of an engine. -/
def applyUnit (u : UnitMove) (s : State) : State :=
  match u with
  | .copy core => moveCopy core s
  | .source op => moveSource op s
  | .place pkt => movePlace pkt s
  | .land op => moveLand op s

/-! ### Errors of the hardware -/

/-- The core whose scratchpad holds an 8-byte word of a reticle, by its LOCAL / 8. -/
def wordCore (ret object : Nat) : Option Nat :=
  let pa := paOf ret (object * 8)
  if isSpad pa then some (coreOfSpad pa) else none

/-- A corrected error is counted, and what its Error Policy entry asks is done when it is lasting (R357, R397). -/
def corrected (ret kind object : Nat) (core : Option Nat) (s : State) : State :=
  if inService s ret then
    match noteError ret kind object s with
    | (t, some action) => takeAction ret core action t
    | (t, none) => t
  else s

/-- The array of a core finds a residue mismatch in the operation in progress. -/
def markMismatch (core : Nat) (s : State) : State :=
  updCore core (fun c => { c with mxq := match c.mxq with | [] => [] | o :: os => { o with mismatch := true } :: os }) s

/-- One error. A cache gives up a line, or a TLB an entry, at any time: an access then fetches it again. -/
def applyUpset (u : Upset) (s : State) : State :=
  match u with
  | .dramCorrected ret object => corrected ret 0 object none s
  | .sramCorrected ret object => corrected ret 3 object (wordCore ret object) s
  | .uncorrectable pa => if inService s (retOf pa) && (isDram pa || isScratch pa || isSpad pa) then poisonUnits s pa 1 else s
  | .l1Line core line => updCore core (fun c => { c with l1 := mdel c.l1 line }) s
  | .codeLine core line => updCore core (fun c => { c with l1i := mdel c.l1i line }) s
  | .llcLine line => { s with llc := mdel s.llc line }
  | .tlbEntry core index => updCore core (fun c => { c with tlb := c.tlb.eraseIdx index }) s
  | .residue core => markMismatch core s
  | .pair core slice lane => updCore core (fun c => { c with differ := sadd c.differ (slice.code * 64 + lane % 64) }) s

end Sys2Proof.Machine
end

