-- ==== Sys2Proof/Machine/Ether.lean ====
section
/-! DEFINITION. The Ultra Ethernet endpoint toward peers: acknowledgement, retransmission and congestion (spec/18 R443), and the requests that it
accepts from a peer (18 R445). -/

namespace Sys2Proof.Machine

open Sys2Proof

/-! ### The transport (R443) -/

/-- Put the transport state toward a peer. -/
def putPeer (ret peer : Nat) (p : UePeer) (s : State) : State := updRet ret (fun r => { r with ue := mput r.ue peer p }) s

/-- A packet that has been sent 8 times in all ends its work request. -/
def failPeer (ret peer op : Nat) (s : State) : State :=
  let p := uePeer s ret peer
  failWork op .remoteError (workRaddr s op) 0 (putPeer ret peer { p with out := p.out.filter (fun e => e.2.op != op) } s)

/-- Send a packet again. -/
def resend (ret peer seq : Nat) (s : State) : State :=
  let p := uePeer s ret peer
  match mget? p.out seq with
  | none => s
  | some x =>
    if x.sends ≥ 8 then failPeer ret peer x.op s
    else putPeer ret peer { p with out := mput p.out seq { x with sends := x.sends + 1, sentAt := s.ticks } } s

/-- UE_SELECTIVE_ACK: the packets it covers leave the retransmit store; one that it passes over, with a later one of its queue covered, is sent
again at once. -/
def execUeSelectiveAck (ret peer : Nat) (acked : List Nat) (s : State) : Host.Outcome State Fault Refusal :=
  let p := uePeer s ret peer
  let got := p.out.filter (fun e => acked.contains e.1)
  let missing := p.out.filter (fun e => !acked.contains e.1 && got.any (fun g => g.2.queue == e.2.queue && decide (e.1 < g.1)))
  let s := putPeer ret peer { p with out := p.out.filter (fun e => !acked.contains e.1) } s
  let s := got.foldl (fun t e => packetDone e.2.op t) s
  .next (missing.foldl (fun t e => resend ret peer e.1 t) s)

/-- UE_RETRANSMIT_TIMEOUT: 64 µs have passed since a packet was last sent. -/
def execUeRetransmitTimeout (ret peer seq : Nat) (s : State) : Host.Outcome State Fault Refusal :=
  match mget? (uePeer s ret peer).out seq with
  | none => .next s
  | some x => if s.ticks - x.sentAt < 1024000 then .next s else .next (resend ret peer seq s)

/-- The wavelengths of the Ethernet links in use: 100 Gb/s each. -/
def ethernetWaves (r : RetSt) : Nat :=
  ((upFrom 0 4).flatMap (fun p => if r.planeSt p = 0 then (upFrom 0 8).flatMap (fun f =>
    if portKind (r.fibre p f) = 2 then r.wavesTo p f else []) else [])).length

/-- UE_ECN_ECHO: an echoed mark halves the sending rate, once per round trip: the next packets' numbers tell one round trip from the next. The rate
is in Mb/s, and starts at that of the links in use. It changes only time. -/
def execUeEcnEcho (ret peer : Nat) (s : State) : Host.Outcome State Fault Refusal :=
  let p := uePeer s ret peer
  let rate := if p.halvedAt.isNone then 100000 * ethernetWaves (s.ret ret) else p.rate
  let again := match p.halvedAt with
    | none => true
    | some n => p.out.all (fun e => decide (e.1 ≥ n))
  if again then .next (putPeer ret peer { p with rate := rate / 2, halvedAt := some p.next } s) else .next s

/-! ### Requests of a peer (R445) -/

/-- The pieces of a peer's request, page by page, in its descriptor's root space: offset, size, place and key id; none when a page refuses it. -/
def peerPieces (s : State) (sp : Space) (rights : List Access) (addr len : Nat) : Nat → Nat → Option (List (Nat × Nat × Nat × Nat))
  | 0, _ => some []
  | fuel + 1, off =>
    if off ≥ len then some []
    else
      let n := Nat.min (len - off) (65536 - (addr + off) % 65536)
      if rights.any (fun a => match translateNow s sp a (addr + off) with | .ok _ _ => false | _ => true) then none
      else
        match rights.head?.map (fun a => translateNow s sp a (addr + off)) with
        | some (.ok pa e) =>
          if pteType e = 3 then none else (peerPieces s sp rights addr len fuel (off + n)).map (fun ps => (off, n, pa, pteKey e) :: ps)
        | _ => none

/-- The kinds of a peer's request and the rights each needs. -/
def peerRights (kind : Nat) : List Access :=
  if kind ≤ 1 then [.write] else if kind = 2 then [.read] else [.read, .write]

/-- A piece cannot be reached at its home, or is poisoned, or its key slot is empty. -/
def pieceRefused (s : State) (ret kind : Nat) (p : Nat × Nat × Nat × Nat) : Bool :=
  (packetCause s ret 0 p.2.2.1 p.2.2.2 p.2.1 (kind ≥ 2) 0).isSome

/-- The pieces of a peer's request that passes every check of R445, of the table of R442 and of the atomics of R258. -/
def peerAccepted (s : State) (ret peer job kind addr len aop : Nat) : Option (List (Nat × Nat × Nat × Nat)) :=
  let d := mget (s.ret ret).peers peer 0
  let root := mget? (s.mod (modOf ret)).regions (peerRoot d)
  let shape := if kind = 3 then len == 8 && addr % 8 == 0 && ratomAop aop else kind < 3 && decide (1 ≤ len) && decide (len ≤ 0x1000000)
  if !inService s ret || !ethernetUp (s.ret ret) || decide (peer ≥ 4096) || !peerValid d || peerJob d != job || root.isNone || !shape then none
  else
    match peerPieces s ⟨modOf ret, peerRoot d, false, 0, 1023⟩ (peerRights kind) addr len (len / 65536 + 2) 0 with
    | none => none
    | some ps => if ps.any (pieceRefused s ret kind) then none else some ps

/-- UE_PEER_REQUEST: a request that fails any check is answered with an error, and changes nothing. -/
def execUePeerRequest (ret peer job kind addr len : Nat) (data : List Byte) (imm : W32) (aop : Nat) (operand compare : W64) (s : State) :
    Host.Outcome State Fault Refusal :=
  let size := if kind ≤ 1 then data.length else if kind = 3 then 8 else len
  match peerAccepted s ret peer job kind addr size aop with
  | none => .next (tell (.peer ret peer false []) s)
  | some ps =>
    if kind ≤ 1 then
      let t := ps.foldl (fun t p => writeKey t p.2.2.2 p.2.2.1 ((data.drop p.1).take p.2.1)) s
      let t := if kind = 1 then countImm ret (peerCctr (mget (s.ret ret).peers peer 0)) imm.toNat t else t
      .next (tell (.peer ret peer true []) t)
    else if kind = 2 then .next (tell (.peer ret peer true (ps.flatMap (fun p => readKey s p.2.2.2 p.2.2.1 p.2.1))) s)
    else
      match ps with
      | [] => .next s
      | p :: _ =>
        let old := readNat s p.2.2.2 p.2.2.1 8
        let new := applyAop aop true (BitVec.ofNat 64 old) operand compare
        .next (tell (.peer ret peer true (bytesLE 8 old)) (writeKey s p.2.2.2 p.2.2.1 (bytesLE 8 new.toNat)))

end Sys2Proof.Machine
end

