-- ==== Sys2Proof/Machine/Flow.lean ====
section
/-! DEFINITION. Control flow, meetings, lane masks, shuffles, votes, reductions and election (spec/08). -/

namespace Sys2Proof.Machine

open Sys2Proof

/-! ### Branches and calls (R189, R190) -/

/-- The target of a branch, a call or a meeting: the word's own address plus four times the signed offset (R102). -/
def relTarget (c : Ctx) (off : Int) : W64 := c.pc + BitVec.ofInt 64 (4 * off)

/-- Lanes leave the run in progress (R59). -/
def leaveRun (c : Ctx) (lanes : List Nat) (s : State) : State :=
  match s.portRun ⟨c.core, c.run.slice⟩ with
  | none => s
  | some r =>
    let m := laneSet lanes
    setPort ⟨c.core, c.run.slice⟩ (some { r with lanes := r.lanes &&& ~~~m, left := r.left ||| m }) s

/-- Threads leave the run at a branch, each for a target; rank orders the new PC groups of the branch among themselves, and a group that split
off later in the run comes first, since the threads that did not branch are taken first (R61, R190). -/
def branchTo (c : Ctx) (ts : List (Nat × W64)) (rank : W64 → Nat) (s : State) : State :=
  leaveRun c (ts.map (·.1)) (ts.foldl (fun t p =>
    updTh (c.th p.1) (fun th =>
      { th with pc := p.2, pos := none, latch := [], latchUni := [], splitRank := (64 - c.run.pos) * 64 + 1 + rank p.2 }) t) s)

/-- BRA. -/
def execBra (w : JWord) (s : State) : Host.Outcome State Fault Refusal :=
  issue (.bra w) (fun c _ x s =>
    advance c 1 1 (branchTo c (x.lanes.map (fun l => (l, relTarget c w.off.toInt))) (fun _ => 0) s)) s

/-- CALL: o15 holds the word offset from CODE of the header after this run; no latch is written. -/
def execCall (w : JWord) (s : State) : Host.Outcome State Fault Refusal :=
  issue (.call w) (fun c _ x s =>
    let back : W32 := ((nextHeader c.run - BitVec.ofNat 64 c.g.launch.code) >>> 2).setWidth 32
    let t := x.lanes.foldl (fun t l => updTh (c.th l) (writeCode 271 back) t) s
    advance c 1 (issueCycles s c false)
      (branchTo c (x.lanes.map (fun l => (l, relTarget c w.off.toInt))) (fun _ => 0) t)) s

/-- JMPR: CODE plus four times the low word of A; one new PC group for each distinct target, in ascending order. -/
def execJmpr (w : RWord) (s : State) : Host.Outcome State Fault Refusal :=
  issue (.jmpr w) (fun c h x s =>
    let ts := x.lanes.map (fun l =>
      (l, BitVec.ofNat 64 c.g.launch.code + BitVec.ofNat 64 (4 * (srcN s c h l 0 % 2 ^ 32))))
    let rank := fun (a : W64) => (dedupe ((ts.filter (fun p => p.2.ult a)).map (fun p => p.2.toNat))).length
    advance c 1 (issueCycles s c false) (branchTo c ts rank (popReads c h x.pops s))) s

/-! ### Meetings (R191 to R196) -/

/-- Write a lane mask of a slice-warp: bits at or above W are not written (R128). -/
def putMask (c : Ctx) (k : Nat) (m : W64) (s : State) : State :=
  updSw c.sw (fun x => { x with masks := mput x.masks k (m &&& BitVec.ofNat 64 (2 ^ c.width - 1)) }) s

/-- A lane mask. -/
def getMask (s : State) (c : Ctx) (k : Nat) : W64 := mget (s.sw c.sw).masks k 0

/-- MEET: the lanes of the issuing PC group join or leave the mask; the others keep their bits. -/
def execMeet (w : MJWord) (s : State) : Host.Outcome State Fault Refusal :=
  issue (.meet w) (fun c _ x s =>
    let label := relTarget c w.off.toInt ||| 1
    let s := putMask c w.k.toNat ((getMask s c w.k.toNat &&& ~~~c.run.lanes) ||| laneSet x.lanes) s
    advance c 1 1 (x.lanes.foldl (fun t l => updTh (c.th l) (fun th => { th with mr := label }) t) s)) s

/-- LEAVE: the thread's bit and its MR are cleared, and the release condition is tested again. -/
def execLeave (w : MJWord) (s : State) : Host.Outcome State Fault Refusal :=
  issue (.leave w) (fun c _ x s =>
    let s := putMask c w.k.toNat (getMask s c w.k.toNat &&& ~~~laneSet x.lanes) s
    let s := x.lanes.foldl (fun t l => updTh (c.th l) (fun th => { th with mr := th.mr &&& ~~~(1 : W64) }) t) s
    settle c.run.gid c.run.warp c.run.slice (advance c 1 1 s)) s

/-- WAITM: the threads whose bit is set arrive and wait; a delivery point. -/
def execWaitm (w : MJWord) (s : State) : Host.Outcome State Fault Refusal :=
  issue (.waitm w) (fun c _ x s =>
    deliver c s (fun s =>
      let m := getMask s c w.k.toNat
      settle c.run.gid c.run.warp c.run.slice
        (parkWait c (x.lanes.filter (hasLane m)) (.waitm w.k.toNat) (advance c 1 1 s)))) s

/-- The queues that a slice pushes (R293). -/
def producedQueues (sl : Slice) : List Nat :=
  match sl with
  | .access => [88, 89, 90, 91]
  | .execute => [92, 93, 94]

/-- A thread ends its slice (R48, R196): its queues close (R297), its masks and MR are cleared. -/
def exitThread (c : Ctx) (l : Nat) (s : State) : State :=
  let s := updTh (c.th l) (fun th => { th with exited := true, mr := th.mr &&& ~~~(1 : W64), latch := [], latchUni := [] }) s
  let s := updSw c.sw (fun x => { x with masks := x.masks.map (fun e => (e.1, e.2 &&& ~~~laneBit l)) }) s
  if c.g.launch.decoupled then
    (producedQueues c.run.slice).foldl (fun t q => updQ (c.q l q) (fun x => { x with closed := true }) t) s
  else s

/-- EXIT. By the last thread of its slice-warp it is a delivery point (R185). -/
def execExit (w : RWord) (s : State) : Host.Outcome State Fault Refusal :=
  issue (.exit w) (fun c _ x s =>
    let act := fun (s : State) =>
      let s := x.lanes.foldl (fun t l => exitThread c l t) s
      let s := advance c 1 1 (leaveRun c x.lanes s)
      reapGroup c.run.gid (testSlots c.run.gid (settle c.run.gid c.run.warp c.run.slice s))
    let last := (upFrom 0 c.width).all (fun l => (s.thread (c.th l)).exited || x.lanes.contains l)
    if x.lanes.isEmpty then act s else if last then deliver c s act else act s) s

/-! ### Lane masks (R198) -/

/-- MRD. -/
def execMrd (w : KWord) (s : State) : Host.Outcome State Fault Refusal :=
  issue (.mrd w) (fun c h x s =>
    let v := (getMask s c w.k.toNat).toNat
    advance c 1 1 (putResults c h x.uniform (x.lanes.map (fun l => (l, v))) s)) s

/-- MCNT. -/
def execMcnt (w : KWord) (s : State) : Host.Outcome State Fault Refusal :=
  issue (.mcnt w) (fun c h x s =>
    let v := popcount 64 (getMask s c w.k.toNat).toNat
    advance c 1 1 (putResults c h x.uniform (x.lanes.map (fun l => (l, v))) s)) s

/-- A mask write by the elected thread; the release condition is tested again. -/
def maskWrite (i : Instr) (k : Nat) (f : W64 → W64 → W64) (s : State) : Host.Outcome State Fault Refusal :=
  issue i (fun c h x s =>
    match x.lanes with
    | [] => advance c 1 1 s
    | l :: _ =>
      settle c.run.gid c.run.warp c.run.slice
        (advance c 1 1 (putMask c k (f (getMask s c k) (src64 s c h l 0)) s))) s

/-- MWR. -/
def execMwr (w : KWord) (s : State) : Host.Outcome State Fault Refusal := maskWrite (.mwr w) w.k.toNat (fun _ v => v) s
/-- MAND. -/
def execMand (w : KWord) (s : State) : Host.Outcome State Fault Refusal := maskWrite (.mand w) w.k.toNat (fun m v => m &&& v) s
/-- MOR. -/
def execMor (w : KWord) (s : State) : Host.Outcome State Fault Refusal := maskWrite (.mor w) w.k.toNat (fun m v => m ||| v) s

/-! ### Shuffles (R199) -/

/-- A shuffle: each executing lane takes A of its source lane, or its own. -/
def shuffle (i : Instr) (src : Nat → Nat → Int) (s : State) : Host.Outcome State Fault Refusal :=
  issue i (fun c h x s =>
    let from? := fun (l : Nat) =>
      let y := src l (srcN s c h l 1)
      if 0 ≤ y ∧ y < c.width ∧ x.lanes.contains y.toNat = true then y.toNat else l
    let vals := x.lanes.map (fun l => (l, srcN s c h (from? l) 0))
    advance c 1 (issueCycles s c false) (putResults c h false vals (popReads c h x.pops s))) s

/-- SHFLI, indexed. -/
def execShfli (w : RWord) (s : State) : Host.Outcome State Fault Refusal := shuffle (.shfli w) (fun _ b => b) s
/-- SHFLU, from lower lanes. -/
def execShflu (w : RWord) (s : State) : Host.Outcome State Fault Refusal := shuffle (.shflu w) (fun l b => (l : Int) - b) s
/-- SHFLD, from higher lanes. -/
def execShfld (w : RWord) (s : State) : Host.Outcome State Fault Refusal := shuffle (.shfld w) (fun l b => (l : Int) + b) s
/-- SHFLX, butterfly. -/
def execShflx (w : RWord) (s : State) : Host.Outcome State Fault Refusal := shuffle (.shflx w) (fun l b => (Nat.xor l b : Nat)) s

/-! ### Votes, reductions and election (R200 to R202) -/

/-- VOTE.ALL and VOTE.ANY: one result for every executing lane. -/
def vote (i : Instr) (w : SWord) (f : List Bool → Bool) (s : State) : Host.Outcome State Fault Refusal :=
  issue i (fun c _ x s =>
    let r := f (x.lanes.map (fun l => readPred s c l w.a.toNat))
    advance c 1 (issueCycles s c false) (x.lanes.foldl (fun t l => putPred c w.d.toNat l r t) s)) s

/-- VOTE.ALL. -/
def execVoteAll (w : SWord) (s : State) : Host.Outcome State Fault Refusal := vote (.voteAll w) w (fun bs => bs.all id) s
/-- VOTE.ANY. -/
def execVoteAny (w : SWord) (s : State) : Host.Outcome State Fault Refusal := vote (.voteAny w) w (fun bs => bs.any id) s
/-- VOTE.BALLOT. -/
def execVoteBallot (w : SWord) (s : State) : Host.Outcome State Fault Refusal :=
  issue (.voteBallot w) (fun c h x s =>
    let v := (laneSet (x.lanes.filter (fun l => readPred s c l w.a.toNat))).toNat
    advance c 1 (issueCycles s c false) (putResults c h x.uniform (x.lanes.map (fun l => (l, v))) s)) s

/-- REDUX: one combination of A over the executing lanes. -/
def redux (i : Instr) (f : W32 → W32 → W32) (s : State) : Host.Outcome State Fault Refusal :=
  issue i (fun c h x s =>
    let vals := x.lanes.map (fun l => src32 s c h l 0)
    let v := match vals with
      | [] => 0
      | y :: ys => ys.foldl f y
    advance c 1 (issueCycles s c false)
      (putResults c h false (x.lanes.map (fun l => (l, v.toNat))) (popReads c h x.pops s))) s

/-- REDUX.ADD. -/
def execReduxAdd (w : SWord) (s : State) : Host.Outcome State Fault Refusal := redux (.reduxAdd w) (fun a b => a + b) s
/-- REDUX.MIN, signed. -/
def execReduxMin (w : SWord) (s : State) : Host.Outcome State Fault Refusal := redux (.reduxMin w) (fun a b => if a.sle b then a else b) s
/-- REDUX.MAX, signed. -/
def execReduxMax (w : SWord) (s : State) : Host.Outcome State Fault Refusal := redux (.reduxMax w) (fun a b => if b.sle a then a else b) s
/-- REDUX.AND. -/
def execReduxAnd (w : SWord) (s : State) : Host.Outcome State Fault Refusal := redux (.reduxAnd w) (fun a b => a &&& b) s
/-- REDUX.OR. -/
def execReduxOr (w : SWord) (s : State) : Host.Outcome State Fault Refusal := redux (.reduxOr w) (fun a b => a ||| b) s
/-- REDUX.XOR. -/
def execReduxXor (w : SWord) (s : State) : Host.Outcome State Fault Refusal := redux (.reduxXor w) (fun a b => a ^^^ b) s
/-- REDUX.MINU. -/
def execReduxMinu (w : SWord) (s : State) : Host.Outcome State Fault Refusal :=
  redux (.reduxMinu w) (fun a b => if a.ule b then a else b) s
/-- REDUX.MAXU. -/
def execReduxMaxu (w : SWord) (s : State) : Host.Outcome State Fault Refusal :=
  redux (.reduxMaxu w) (fun a b => if b.ule a then a else b) s

/-- ELECT: 1 in the lowest executing lane, 0 in the others. -/
def execElect (w : RWord) (s : State) : Host.Outcome State Fault Refusal :=
  issue (.elect w) (fun c _ x s =>
    advance c 1 1 (x.lanes.foldl (fun t l => putPred c w.d.toNat l (x.lanes.head? == some l) t) s)) s

end Sys2Proof.Machine
end

