-- ==== Sys2Proof/Machine/Vector.lean ====
section
/-! DEFINITION. Floating point, packed, dot and conversion instructions (spec/07). -/

namespace Sys2Proof.Machine

open Sys2Proof

/-- FRM of the issuing slice-warp (R130). -/
def frmOf (s : State) (c : Ctx) : Nat := (s.sw c.sw).frm.toNat

/-- A fixed-latency instruction whose lanes raise flags, ORed into FPFLAGS (R167). -/
def fcompute (i : Instr) (f : State → Ctx → Shape → Nat → Nat × Fl) (s : State) : Host.Outcome State Fault Refusal :=
  issue i (fun c h x s =>
    let rs := x.lanes.map (fun l => (l, f s c h l))
    let fl := rs.foldl (fun a r => a ||| r.2.2) 0
    advance c (instrWords i) (issueCycles s c x.uniform)
      (mergeFlags c.sw fl (putResults c h x.uniform (rs.map (fun r => (r.1, r.2.1))) (popReads c h x.pops s)))) s

/-- A compare whose lanes raise flags (R174). -/
def fcompare (i : Instr) (p : Nat) (f : FV → FV → Bool × Fl) (s : State) : Host.Outcome State Fault Refusal :=
  issue i (fun c h x s =>
    let rs := x.lanes.map (fun l => (l, f (fp32.read (srcN s c h l 0)) (fp32.read (srcN s c h l 1))))
    let fl := rs.foldl (fun a r => a ||| r.2.2) 0
    advance c (instrWords i) (issueCycles s c false)
      (mergeFlags c.sw fl (rs.foldl (fun t r => putPred c p r.1 r.2.1 t) (popReads c h x.pops s)))) s

/-- NV for a signalling NaN among two operands, or for any NaN. -/
def nanFlag (any : Bool) (a b : FV) : Fl := flIf (a.isSig || b.isSig || (any && (a.isNan || b.isNan))) flNV

/-- FCMPEQ. -/
def execFcmpeq (w : RWord) (s : State) : Host.Outcome State Fault Refusal :=
  fcompare (.fcmpeq w) w.d.toNat (fun a b => (!a.isNan && !b.isNan && fvCmp a b == .eq, nanFlag false a b)) s
/-- FCMPLT. -/
def execFcmplt (w : RWord) (s : State) : Host.Outcome State Fault Refusal :=
  fcompare (.fcmplt w) w.d.toNat (fun a b => (!a.isNan && !b.isNan && fvCmp a b == .lt, nanFlag true a b)) s
/-- FCMPLE. -/
def execFcmple (w : RWord) (s : State) : Host.Outcome State Fault Refusal :=
  fcompare (.fcmple w) w.d.toNat (fun a b => (!a.isNan && !b.isNan && fvCmp a b != .gt, nanFlag true a b)) s
/-- FCMPUN. -/
def execFcmpun (w : RWord) (s : State) : Host.Outcome State Fault Refusal :=
  fcompare (.fcmpun w) w.d.toNat (fun a b => (a.isNan || b.isNan, nanFlag false a b)) s

/-- A two-source fp32 operation under FRM. -/
def fp2 (i : Instr) (f : Nat → Nat → Nat → Nat × Fl) (s : State) : Host.Outcome State Fault Refusal :=
  fcompute i (fun s c h l => f (frmOf s c) (srcN s c h l 0) (srcN s c h l 1)) s

/-- FADD. -/
def execFadd (w : RWord) (s : State) : Host.Outcome State Fault Refusal := fp2 (.fadd w) fp32.add s
/-- FSUB. -/
def execFsub (w : RWord) (s : State) : Host.Outcome State Fault Refusal := fp2 (.fsub w) fp32.sub s
/-- FMUL. -/
def execFmul (w : RWord) (s : State) : Host.Outcome State Fault Refusal := fp2 (.fmul w) fp32.mul s
/-- FFMA: D read at issue, the product not rounded. -/
def execFfma (w : RWord) (s : State) : Host.Outcome State Fault Refusal :=
  fcompute (.ffma w) (fun s c h l => fp32.fma (frmOf s c) (srcN s c h l 0) (srcN s c h l 1) (srcN s c h l 2)) s
/-- FMIN. -/
def execFmin (w : RWord) (s : State) : Host.Outcome State Fault Refusal := fp2 (.fmin w) (fun _ a b => fvMinMax false a b) s
/-- FMAX. -/
def execFmax (w : RWord) (s : State) : Host.Outcome State Fault Refusal := fp2 (.fmax w) (fun _ a b => fvMinMax true a b) s

/-- FNEG and FABS of an encoding (R173): a NaN gives the canonical NaN. -/
def signOp (f : Nat → Nat) (x : Nat) : Nat × Fl :=
  match fp32.read x with
  | .nan _ g => (fp32.nanBits, flIf g flNV)
  | _ => (f x, 0)

/-- FNEG. -/
def execFneg (w : RWord) (s : State) : Host.Outcome State Fault Refusal :=
  fcompute (.fneg w) (fun s c h l => signOp (fun x => (x + 2 ^ 31) % 2 ^ 32) (srcN s c h l 0)) s
/-- FABS. -/
def execFabs (w : RWord) (s : State) : Host.Outcome State Fault Refusal :=
  fcompute (.fabs w) (fun s c h l => signOp (fun x => x % 2 ^ 31) (srcN s c h l 0)) s

/-- FRND (R175): the mode of B, or FRM when B is 4. -/
def execFrnd (w : RWord) (s : State) : Host.Outcome State Fault Refusal :=
  fcompute (.frnd w) (fun s c h l => fvRnd (if w.b.toNat = 4 then frmOf s c else w.b.toNat) (srcN s c h l 0)) s

/-! ### Special functions (R169, R176, R177) -/

/-- A special function: long-latency, its flags merged when it lands. -/
def sfu (i : Instr) (f : Nat → W32 → Nat × Fl) (s : State) : Host.Outcome State Fault Refusal :=
  longLatency i 1 (fun s c h l => f (frmOf s c) (src32 s c h l 0)) s

/-- FRCP. -/
def execFrcp (w : RWord) (s : State) : Host.Outcome State Fault Refusal := sfu (.frcp w) (fun _ x => sfRcp x) s
/-- FRSQ. -/
def execFrsq (w : RWord) (s : State) : Host.Outcome State Fault Refusal := sfu (.frsq w) (fun _ x => sfRsq x) s
/-- FEXP2. -/
def execFexp2 (w : RWord) (s : State) : Host.Outcome State Fault Refusal := sfu (.fexp2 w) (fun _ x => sfExp2 x) s
/-- FLOG2. -/
def execFlog2 (w : RWord) (s : State) : Host.Outcome State Fault Refusal := sfu (.flog2 w) (fun _ x => sfLog2 x) s
/-- FSIN. -/
def execFsin (w : RWord) (s : State) : Host.Outcome State Fault Refusal := sfu (.fsin w) (fun _ x => sfSin x) s
/-- FCOS. -/
def execFcos (w : RWord) (s : State) : Host.Outcome State Fault Refusal := sfu (.fcos w) (fun _ x => sfCos x) s
/-- FTANH. -/
def execFtanh (w : RWord) (s : State) : Host.Outcome State Fault Refusal := sfu (.ftanh w) (fun _ x => sfTanh x) s
/-- FSQRT, the only one that reads FRM. -/
def execFsqrt (w : RWord) (s : State) : Host.Outcome State Fault Refusal := sfu (.fsqrt w) sfSqrt s

/-! ### Packed instructions (R178) -/

/-- The two elements of packed words, computed independently; their flags are ORed. -/
def packed (f : Nat → Nat → Nat → Nat × Fl) (a b d : Nat) : Nat × Fl :=
  let (x, p) := f (a % 65536) (b % 65536) (d % 65536)
  let (y, q) := f (a / 65536 % 65536) (b / 65536 % 65536) (d / 65536 % 65536)
  (x + y * 65536, p ||| q)

/-- A packed instruction with two sources. -/
def packed2 (i : Instr) (f : Nat → Nat → Nat → Nat × Fl) (s : State) : Host.Outcome State Fault Refusal :=
  fcompute i (fun s c h l => packed (fun a b _ => f (frmOf s c) a b) (srcN s c h l 0) (srcN s c h l 1) 0) s

/-- A packed fused multiply-add: D read at issue. -/
def packed3 (i : Instr) (f : Fmt) (s : State) : Host.Outcome State Fault Refusal :=
  fcompute i (fun s c h l => packed (f.fma (frmOf s c)) (srcN s c h l 0) (srcN s c h l 1) (srcN s c h l 2)) s

/-- HADD2. -/
def execHadd2 (w : RWord) (s : State) : Host.Outcome State Fault Refusal := packed2 (.hadd2 w) fp16.add s
/-- HMUL2. -/
def execHmul2 (w : RWord) (s : State) : Host.Outcome State Fault Refusal := packed2 (.hmul2 w) fp16.mul s
/-- HFMA2. -/
def execHfma2 (w : RWord) (s : State) : Host.Outcome State Fault Refusal := packed3 (.hfma2 w) fp16 s
/-- BADD2. -/
def execBadd2 (w : RWord) (s : State) : Host.Outcome State Fault Refusal := packed2 (.badd2 w) bf16.add s
/-- BMUL2. -/
def execBmul2 (w : RWord) (s : State) : Host.Outcome State Fault Refusal := packed2 (.bmul2 w) bf16.mul s
/-- BFMA2. -/
def execBfma2 (w : RWord) (s : State) : Host.Outcome State Fault Refusal := packed3 (.bfma2 w) bf16 s

/-! ### Dot products (R179, R180) -/

/-- IDOT4 of two packed words onto an accumulator: it wraps and sets no flag. -/
def idot4Word (ctl a b d : W32) : W32 :=
  let t := if bitOf ctl.toNat 2 then 0 else 1
  let term := fun (k : Nat) =>
    intOf t (bitOf ctl.toNat 0) (elemOf t a.toNat k) * intOf t (bitOf ctl.toNat 1) (elemOf t b.toNat k)
  updateInt32 d (term 0 + term 1 + term 2 + term 3)

/-- TDOT4 of two packed words onto an fp32 accumulator, under the propagate policy. -/
def tdot4Word (a b d : W32) : Nat × Fl :=
  let ps := (upFrom 0 4).map (fun k => (narrowElem 2 false (elemOf 2 a.toNat k), narrowElem 2 false (elemOf 2 b.toNat k)))
  let (r, f) := updateFp32 d (narrowValue (blockNarrow false ps)) (scaleOf 0 0) (scaleOf 0 0)
  (r.toNat, f)

/-- IDOT4. -/
def execIdot4 (w : RWord) (ctl : W32) (s : State) : Host.Outcome State Fault Refusal := alu3 (.idot4 w ctl) (idot4Word ctl) s
/-- TDOT4. -/
def execTdot4 (w : RWord) (s : State) : Host.Outcome State Fault Refusal :=
  fcompute (.tdot4 w) (fun s c h l => tdot4Word (src32 s c h l 0) (src32 s c h l 1) (src32 s c h l 2)) s

/-! ### Conversions (R181, R182) -/

/-- FCVT of a word: one element, every other bit of D zero. -/
def fcvtWord (frm : Nat) (ctl : W32) (a : Nat) : Nat × Fl :=
  let src := bitsOf ctl.toNat 3 0
  let dst := bitsOf ctl.toNat 7 4
  let (r, f) := convertElem src dst frm (bitOf ctl.toNat 9) (bitOf ctl.toNat 8) (elemOf src a (bitsOf ctl.toNat 11 10))
  (r * 2 ^ (typeBits dst * bitsOf ctl.toNat 13 12), f)

/-- FCVTS of a word through a slot: the low k elements. -/
def fcvtsWord (slot : W64) (ctl : W32) (a b : Nat) : Nat × Fl :=
  let src := bitsOf slot.toNat 3 0
  let dst := bitsOf slot.toNat 13 10
  let scl := bitOf ctl.toNat 4
  let factor := if scl then some (scaleOf (bitsOf slot.toNat 15 14) b) else none
  let k := 32 / Nat.max (typeBits src) (typeBits dst)
  (upFrom 0 k).foldl (fun acc i =>
    let (r, f) := outConvert slot (bitOf ctl.toNat 3) src (elemOf src a i) factor
    (acc.1 + r * 2 ^ (typeBits dst * i), acc.2 ||| f)) (0, 0)

/-- FCVT. -/
def execFcvt (w : RWord) (ctl : W32) (s : State) : Host.Outcome State Fault Refusal :=
  fcompute (.fcvt w ctl) (fun s c h l => fcvtWord (frmOf s c) ctl (srcN s c h l 0)) s
/-- FCVTS: the slot is read at issue. -/
def execFcvts (w : RWord) (ctl : W32) (s : State) : Host.Outcome State Fault Refusal :=
  fcompute (.fcvts w ctl) (fun s c h l =>
    fcvtsWord (c.g.launch.slot (bitsOf ctl.toNat 2 0)) ctl (srcN s c h l 0) (srcN s c h l 1)) s

/-! ### Flags and the rounding mode (R183, R184) -/

/-- Read FPFLAGS into D, with a change of FPFLAGS in the same step: once special functions have landed. -/
def flagRead (i : Instr) (f : SliceWarp → SliceWarp) (s : State) : Host.Outcome State Fault Refusal :=
  issue i (fun c h x s =>
    if sfuPending s c.run.gid c.run.warp c.run.slice then { s with ticks := s.ticks + 8 }
    else
      let v := (s.sw c.sw).fpflags.toNat
      let t := if x.lanes.isEmpty then s else updSw c.sw f s
      advance c 1 1 (putResults c h x.uniform (x.lanes.map (fun l => (l, v))) t)) s

/-- FFLAG.RD. -/
def execFflagRd (w : SWord) (s : State) : Host.Outcome State Fault Refusal := flagRead (.fflagRd w) (fun x => x) s
/-- FFLAG.CLR. -/
def execFflagClr (w : SWord) (s : State) : Host.Outcome State Fault Refusal :=
  flagRead (.fflagClr w) (fun x => { x with fpflags := 0 }) s

/-- FSETRM. -/
def execFsetrm (w : RWord) (s : State) : Host.Outcome State Fault Refusal :=
  issue (.fsetrm w) (fun c _ x s =>
    advance c 1 1 (if x.lanes.isEmpty then s else updSw c.sw (fun y => { y with frm := BitVec.ofNat 2 w.b.toNat }) s)) s

end Sys2Proof.Machine
end

