-- ==== Sys2Proof/Machine/Dispatch.lean ====
section
/-! DEFINITION. One arm per row of the opcode table: the instruction's or the step's own meaning. -/

namespace Sys2Proof.Machine

open Sys2Proof

/-- What a row of the opcode table does in a state. -/
def exec (i : Instr) (s : State) : Host.Outcome State Fault Refusal :=
  match i with
  | .nop w => Sys2Proof.Machine.execNop w s
  | .add w => Sys2Proof.Machine.execAdd w s
  | .sub w => Sys2Proof.Machine.execSub w s
  | .addi w => Sys2Proof.Machine.execAddi w s
  | .addl w ctl => Sys2Proof.Machine.execAddl w ctl s
  | .mul w => Sys2Proof.Machine.execMul w s
  | .mulh w => Sys2Proof.Machine.execMulh w s
  | .mulhu w => Sys2Proof.Machine.execMulhu w s
  | .madd w => Sys2Proof.Machine.execMadd w s
  | .div w => Sys2Proof.Machine.execDiv w s
  | .divu w => Sys2Proof.Machine.execDivu w s
  | .rem w => Sys2Proof.Machine.execRem w s
  | .remu w => Sys2Proof.Machine.execRemu w s
  | .abs w => Sys2Proof.Machine.execAbs w s
  | .and w => Sys2Proof.Machine.execAnd w s
  | .or w => Sys2Proof.Machine.execOr w s
  | .xor w => Sys2Proof.Machine.execXor w s
  | .andn w => Sys2Proof.Machine.execAndn w s
  | .shl w => Sys2Proof.Machine.execShl w s
  | .shr w => Sys2Proof.Machine.execShr w s
  | .sar w => Sys2Proof.Machine.execSar w s
  | .rot w => Sys2Proof.Machine.execRot w s
  | .shli w => Sys2Proof.Machine.execShli w s
  | .shri w => Sys2Proof.Machine.execShri w s
  | .sari w => Sys2Proof.Machine.execSari w s
  | .min w => Sys2Proof.Machine.execMin w s
  | .max w => Sys2Proof.Machine.execMax w s
  | .minu w => Sys2Proof.Machine.execMinu w s
  | .maxu w => Sys2Proof.Machine.execMaxu w s
  | .clz w => Sys2Proof.Machine.execClz w s
  | .ctz w => Sys2Proof.Machine.execCtz w s
  | .popc w => Sys2Proof.Machine.execPopc w s
  | .brev w => Sys2Proof.Machine.execBrev w s
  | .bfx w ctl => Sys2Proof.Machine.execBfx w ctl s
  | .bfi w ctl => Sys2Proof.Machine.execBfi w ctl s
  | .sel w ctl => Sys2Proof.Machine.execSel w ctl s
  | .mov w => Sys2Proof.Machine.execMov w s
  | .movl w ctl => Sys2Proof.Machine.execMovl w ctl s
  | .lea w ctl => Sys2Proof.Machine.execLea w ctl s
  | .addc w => Sys2Proof.Machine.execAddc w s
  | .subb w => Sys2Proof.Machine.execSubb w s
  | .cmpeq w => Sys2Proof.Machine.execCmpeq w s
  | .cmpne w => Sys2Proof.Machine.execCmpne w s
  | .cmplt w => Sys2Proof.Machine.execCmplt w s
  | .cmple w => Sys2Proof.Machine.execCmple w s
  | .cmpltu w => Sys2Proof.Machine.execCmpltu w s
  | .cmpleu w => Sys2Proof.Machine.execCmpleu w s
  | .cmpeqi w => Sys2Proof.Machine.execCmpeqi w s
  | .cmplti w => Sys2Proof.Machine.execCmplti w s
  | .pand w => Sys2Proof.Machine.execPand w s
  | .por w => Sys2Proof.Machine.execPor w s
  | .pxor w => Sys2Proof.Machine.execPxor w s
  | .pmov w => Sys2Proof.Machine.execPmov w s
  | .wbase w => Sys2Proof.Machine.execWbase w s
  | .rds w ctl => Sys2Proof.Machine.execRds w ctl s
  | .wrs w ctl => Sys2Proof.Machine.execWrs w ctl s
  | .fcmpeq w => Sys2Proof.Machine.execFcmpeq w s
  | .fcmplt w => Sys2Proof.Machine.execFcmplt w s
  | .fcmple w => Sys2Proof.Machine.execFcmple w s
  | .fcmpun w => Sys2Proof.Machine.execFcmpun w s
  | .fadd w => Sys2Proof.Machine.execFadd w s
  | .fsub w => Sys2Proof.Machine.execFsub w s
  | .fmul w => Sys2Proof.Machine.execFmul w s
  | .ffma w => Sys2Proof.Machine.execFfma w s
  | .fmin w => Sys2Proof.Machine.execFmin w s
  | .fmax w => Sys2Proof.Machine.execFmax w s
  | .fneg w => Sys2Proof.Machine.execFneg w s
  | .fabs w => Sys2Proof.Machine.execFabs w s
  | .frcp w => Sys2Proof.Machine.execFrcp w s
  | .frsq w => Sys2Proof.Machine.execFrsq w s
  | .fexp2 w => Sys2Proof.Machine.execFexp2 w s
  | .flog2 w => Sys2Proof.Machine.execFlog2 w s
  | .fsin w => Sys2Proof.Machine.execFsin w s
  | .fcos w => Sys2Proof.Machine.execFcos w s
  | .ftanh w => Sys2Proof.Machine.execFtanh w s
  | .fsqrt w => Sys2Proof.Machine.execFsqrt w s
  | .frnd w => Sys2Proof.Machine.execFrnd w s
  | .fcvt w ctl => Sys2Proof.Machine.execFcvt w ctl s
  | .hadd2 w => Sys2Proof.Machine.execHadd2 w s
  | .hmul2 w => Sys2Proof.Machine.execHmul2 w s
  | .hfma2 w => Sys2Proof.Machine.execHfma2 w s
  | .badd2 w => Sys2Proof.Machine.execBadd2 w s
  | .bmul2 w => Sys2Proof.Machine.execBmul2 w s
  | .bfma2 w => Sys2Proof.Machine.execBfma2 w s
  | .idot4 w ctl => Sys2Proof.Machine.execIdot4 w ctl s
  | .tdot4 w => Sys2Proof.Machine.execTdot4 w s
  | .fflagRd w => Sys2Proof.Machine.execFflagRd w s
  | .fflagClr w => Sys2Proof.Machine.execFflagClr w s
  | .fsetrm w => Sys2Proof.Machine.execFsetrm w s
  | .fcvts w ctl => Sys2Proof.Machine.execFcvts w ctl s
  | .bra w => Sys2Proof.Machine.execBra w s
  | .call w => Sys2Proof.Machine.execCall w s
  | .jmpr w => Sys2Proof.Machine.execJmpr w s
  | .meet w => Sys2Proof.Machine.execMeet w s
  | .leave w => Sys2Proof.Machine.execLeave w s
  | .waitm w => Sys2Proof.Machine.execWaitm w s
  | .mrd w => Sys2Proof.Machine.execMrd w s
  | .mwr w => Sys2Proof.Machine.execMwr w s
  | .mand w => Sys2Proof.Machine.execMand w s
  | .mor w => Sys2Proof.Machine.execMor w s
  | .mcnt w => Sys2Proof.Machine.execMcnt w s
  | .exit w => Sys2Proof.Machine.execExit w s
  | .shfli w => Sys2Proof.Machine.execShfli w s
  | .shflu w => Sys2Proof.Machine.execShflu w s
  | .shfld w => Sys2Proof.Machine.execShfld w s
  | .shflx w => Sys2Proof.Machine.execShflx w s
  | .voteAll w => Sys2Proof.Machine.execVoteAll w s
  | .voteAny w => Sys2Proof.Machine.execVoteAny w s
  | .voteBallot w => Sys2Proof.Machine.execVoteBallot w s
  | .reduxAdd w => Sys2Proof.Machine.execReduxAdd w s
  | .reduxMin w => Sys2Proof.Machine.execReduxMin w s
  | .reduxMax w => Sys2Proof.Machine.execReduxMax w s
  | .reduxAnd w => Sys2Proof.Machine.execReduxAnd w s
  | .reduxOr w => Sys2Proof.Machine.execReduxOr w s
  | .reduxXor w => Sys2Proof.Machine.execReduxXor w s
  | .reduxMinu w => Sys2Proof.Machine.execReduxMinu w s
  | .reduxMaxu w => Sys2Proof.Machine.execReduxMaxu w s
  | .elect w => Sys2Proof.Machine.execElect w s
  | .qpopp w => Sys2Proof.Machine.execQpopp w s
  | .qpeek w => Sys2Proof.Machine.execQpeek w s
  | .qlevel w => Sys2Proof.Machine.execQlevel w s
  | .qflush w => Sys2Proof.Machine.execQflush w s
  | .qclose w => Sys2Proof.Machine.execQclose w s
  | .ld w ctl => Sys2Proof.Machine.execLd w ctl s
  | .st w ctl => Sys2Proof.Machine.execSt w ctl s
  | .lds w ctl => Sys2Proof.Machine.execLds w ctl s
  | .sts w ctl => Sys2Proof.Machine.execSts w ctl s
  | .atom w ctl => Sys2Proof.Machine.execAtom w ctl s
  | .atoms w ctl => Sys2Proof.Machine.execAtoms w ctl s
  | .fence w => Sys2Proof.Machine.execFence w s
  | .acq w => Sys2Proof.Machine.execAcq w s
  | .rel w => Sys2Proof.Machine.execRel w s
  | .waita w ctl => Sys2Proof.Machine.execWaita w ctl s
  | .cinv w ctl => Sys2Proof.Machine.execCinv w ctl s
  | .cwb w ctl => Sys2Proof.Machine.execCwb w ctl s
  | .cpf w ctl => Sys2Proof.Machine.execCpf w ctl s
  | .czero w ctl => Sys2Proof.Machine.execCzero w ctl s
  | .cpart w ctl => Sys2Proof.Machine.execCpart w ctl s
  | .copy w ctl => Sys2Proof.Machine.execCopy w ctl s
  | .mxma w ctl => Sys2Proof.Machine.execMxma w ctl s
  | .mxld w ctl => Sys2Proof.Machine.execMxld w ctl s
  | .mxst w ctl => Sys2Proof.Machine.execMxst w ctl s
  | .mxz w ctl => Sys2Proof.Machine.execMxz w ctl s
  | .ofence w ctl => Sys2Proof.Machine.execOfence w ctl s
  | .twany w => Sys2Proof.Machine.execTwany w s
  | .twall w => Sys2Proof.Machine.execTwall w s
  | .tffr w => Sys2Proof.Machine.execTffr w s
  | .tclr w => Sys2Proof.Machine.execTclr w s
  | .ttest w => Sys2Proof.Machine.execTtest w s
  | .rput w ctl => Sys2Proof.Machine.execRput w ctl s
  | .rget w ctl => Sys2Proof.Machine.execRget w ctl s
  | .ratom w ctl => Sys2Proof.Machine.execRatom w ctl s
  | .npost w ctl => Sys2Proof.Machine.execNpost w ctl s
  | .nflush w ctl => Sys2Proof.Machine.execNflush w ctl s
  | .lgrid w ctl => Sys2Proof.Machine.execLgrid w ctl s
  | .etrig w ctl => Sys2Proof.Machine.execEtrig w ctl s
  | .dist w ctl => Sys2Proof.Machine.execDist w ctl s
  | .bar w => Sys2Proof.Machine.execBar w s
  | .bara w => Sys2Proof.Machine.execBara w s
  | .barw w => Sys2Proof.Machine.execBarw w s
  | .fbar w => Sys2Proof.Machine.execFbar w s
  | .cwait w => Sys2Proof.Machine.execCwait w s
  | .trap w => Sys2Proof.Machine.execTrap w s
  | .yield w => Sys2Proof.Machine.execYield w s
  | .time w => Sys2Proof.Machine.execTime w s
  | .sleep w => Sys2Proof.Machine.execSleep w s
  | .bkpt w => Sys2Proof.Machine.execBkpt w s
  | .runIssue core slice => Sys2Proof.Machine.execRunIssue core slice s
  | .droverSwap core slice => Sys2Proof.Machine.execDroverSwap core slice s
  | .pendingLongWait core slice => Sys2Proof.Machine.execPendingLongWait core slice s
  | .groupPlace m => Sys2Proof.Machine.execGroupPlace m s
  | .gridDependencyMet m grid => Sys2Proof.Machine.execGridDependencyMet m grid s
  | .priorityAging m region => Sys2Proof.Machine.execPriorityAging m region s
  | .decoupleDeadlock gid warp => Sys2Proof.Machine.execDecoupleDeadlock gid warp s
  | .loadLanding op => Sys2Proof.Machine.execLoadLanding op s
  | .atomicLanding op => Sys2Proof.Machine.execAtomicLanding op s
  | .storeAck op => Sys2Proof.Machine.execStoreAck op s
  | .homeAccess op => Sys2Proof.Machine.execHomeAccess op s
  | .translationWalk op => Sys2Proof.Machine.execTranslationWalk op s
  | .divisionLanding op => Sys2Proof.Machine.execDivisionLanding op s
  | .specialFunctionLanding op => Sys2Proof.Machine.execSpecialFunctionLanding op s
  | .mxOperationComplete core => Sys2Proof.Machine.execMxOperationComplete core s
  | .copyComplete core => Sys2Proof.Machine.execCopyComplete core s
  | .workRequestSend ret queue => Sys2Proof.Machine.execWorkRequestSend ret queue s
  | .sendCompletion op => Sys2Proof.Machine.execSendCompletion op s
  | .readLanded op => Sys2Proof.Machine.execReadLanded op s
  | .nflushComplete op => Sys2Proof.Machine.execNflushComplete op s
  | .putPacketPlaced pkt => Sys2Proof.Machine.execPutPacketPlaced pkt s
  | .lgridResult op => Sys2Proof.Machine.execLgridResult op s
  | .distResult op => Sys2Proof.Machine.execDistResult op s
  | .errorReturn op => Sys2Proof.Machine.execErrorReturn op s
  | .waitaWake gid warp slice => Sys2Proof.Machine.execWaitaWake gid warp slice s
  | .waitaTimeout gid warp slice => Sys2Proof.Machine.execWaitaTimeout gid warp slice s
  | .sleepExpiry gid warp slice => Sys2Proof.Machine.execSleepExpiry gid warp slice s
  | .cwaitReturn gid warp slice => Sys2Proof.Machine.execCwaitReturn gid warp slice s
  | .cpartComplete ret => Sys2Proof.Machine.execCpartComplete ret s
  | .pdlcExpiry gid => Sys2Proof.Machine.execPdlcExpiry gid s
  | .drainTimeout gid => Sys2Proof.Machine.execDrainTimeout gid s
  | .saveComplete gid => Sys2Proof.Machine.execSaveComplete gid s
  | .handlerFinish m grid => Sys2Proof.Machine.execHandlerFinish m grid s
  | .groupResume m gid => Sys2Proof.Machine.execGroupResume m gid s
  | .stagedCommit m grid => Sys2Proof.Machine.execStagedCommit m grid s
  | .launch m root queue => Sys2Proof.Machine.execLaunch m root queue s
  | .regionCreate m root queue => Sys2Proof.Machine.execRegionCreate m root queue s
  | .regionModify m root queue => Sys2Proof.Machine.execRegionModify m root queue s
  | .regionDestroy m root queue => Sys2Proof.Machine.execRegionDestroy m root queue s
  | .topo m root queue => Sys2Proof.Machine.execTopo m root queue s
  | .drain m root queue => Sys2Proof.Machine.execDrain m root queue s
  | .ckpt m root queue => Sys2Proof.Machine.execCkpt m root queue s
  | .keyload m root queue => Sys2Proof.Machine.execKeyload m root queue s
  | .timesync m root queue => Sys2Proof.Machine.execTimesync m root queue s
  | .event m root queue => Sys2Proof.Machine.execEvent m root queue s
  | .eventFinish m root queue => Sys2Proof.Machine.execEventFinish m root queue s
  | .doorbellWrite m door pidx => Sys2Proof.Machine.execDoorbellWrite m door pidx s
  | .coreCounterWrite core idx value => Sys2Proof.Machine.execCoreCounterWrite core idx value s
  | .registerWrite ret loc size value => Sys2Proof.Machine.execRegisterWrite ret loc size value s
  | .endpointTableWrite ret queue value => Sys2Proof.Machine.execEndpointTableWrite ret queue value s
  | .peerDescriptorWrite ret peer value => Sys2Proof.Machine.execPeerDescriptorWrite ret peer value s
  | .barrierTreeWrite ret tree value => Sys2Proof.Machine.execBarrierTreeWrite ret tree value s
  | .errorPolicyWrite m idx value => Sys2Proof.Machine.execErrorPolicyWrite m idx value s
  | .wpartWrite ret ways => Sys2Proof.Machine.execWpartWrite ret ways s
  | .readIdentity m => Sys2Proof.Machine.execReadIdentity m s
  | .writeModid m modid => Sys2Proof.Machine.execWriteModid m modid s
  | .extendMeasurement ret idx value => Sys2Proof.Machine.execExtendMeasurement ret idx value s
  | .attestationRequest ret nonce => Sys2Proof.Machine.execAttestationRequest ret nonce s
  | .loadKey m key image => Sys2Proof.Machine.execLoadKey m key image s
  | .createRoot m image => Sys2Proof.Machine.execCreateRoot m image s
  | .destroyRoot m root => Sys2Proof.Machine.execDestroyRoot m root s
  | .restartQueue m root queue pidx => Sys2Proof.Machine.execRestartQueue m root queue pidx s
  | .debugHalt m gid => Sys2Proof.Machine.execDebugHalt m gid s
  | .debugReadImage m gid offset len => Sys2Proof.Machine.execDebugReadImage m gid offset len s
  | .debugWriteImage m gid offset data => Sys2Proof.Machine.execDebugWriteImage m gid offset data s
  | .debugResume m gid => Sys2Proof.Machine.execDebugResume m gid s
  | .debugDiscard m gid => Sys2Proof.Machine.execDebugDiscard m gid s
  | .debugAttach m root => Sys2Proof.Machine.execDebugAttach m root s
  | .hostRmaWrite m pa key data => Sys2Proof.Machine.execHostRmaWrite m pa key data s
  | .hostRmaRead m pa key len => Sys2Proof.Machine.execHostRmaRead m pa key len s
  | .coldReset m => Sys2Proof.Machine.execColdReset m s
  | .commandProcessorTakeover m => Sys2Proof.Machine.execCommandProcessorTakeover m s
  | .powerAlarmRaise ret => Sys2Proof.Machine.execPowerAlarmRaise ret s
  | .powerHold ret => Sys2Proof.Machine.execPowerHold ret s
  | .powerHoldRelease ret => Sys2Proof.Machine.execPowerHoldRelease ret s
  | .powerAlarmClear ret => Sys2Proof.Machine.execPowerAlarmClear ret s
  | .heartbeat ret sender isCore => Sys2Proof.Machine.execHeartbeat ret sender isCore s
  | .heartbeatMiss ret sender isCore majority => Sys2Proof.Machine.execHeartbeatMiss ret sender isCore majority s
  | .failureNotice ret pkt => Sys2Proof.Machine.execFailureNotice ret pkt s
  | .laneSelfTest core failing => Sys2Proof.Machine.execLaneSelfTest core failing s
  | .foldMigration ret fold spare => Sys2Proof.Machine.execFoldMigration ret fold spare s
  | .siteRetire m ret spare => Sys2Proof.Machine.execSiteRetire m ret spare s
  | .shootdown m root va size => Sys2Proof.Machine.execShootdown m root va size s
  | .timesyncExchange m offset rtt => Sys2Proof.Machine.execTimesyncExchange m offset rtt s
  | .timesyncMiss m => Sys2Proof.Machine.execTimesyncMiss m s
  | .orderedPacketArrival ret port pkt => Sys2Proof.Machine.execOrderedPacketArrival ret port pkt s
  | .orderedDelivery ret => Sys2Proof.Machine.execOrderedDelivery ret s
  | .beaconSend ret port => Sys2Proof.Machine.execBeaconSend ret port s
  | .beaconReceive ret port stamp => Sys2Proof.Machine.execBeaconReceive ret port stamp s
  | .watermarkStall ret port => Sys2Proof.Machine.execWatermarkStall ret port s
  | .portCut ret port => Sys2Proof.Machine.execPortCut ret port s
  | .topologyCutover ret => Sys2Proof.Machine.execTopologyCutover ret s
  | .fbarArrival pkt => Sys2Proof.Machine.execFbarArrival pkt s
  | .fbarRelease pkt => Sys2Proof.Machine.execFbarRelease pkt s
  | .barrierLost ret tree => Sys2Proof.Machine.execBarrierLost ret tree s
  | .flitReceive ret port seq crcOk => Sys2Proof.Machine.execFlitReceive ret port seq crcOk s
  | .meshPortDown ret port => Sys2Proof.Machine.execMeshPortDown ret port s
  | .noRouteTimeout pkt => Sys2Proof.Machine.execNoRouteTimeout pkt s
  | .routeSample ret => Sys2Proof.Machine.execRouteSample ret s
  | .planeStop ret => Sys2Proof.Machine.execPlaneStop ret s
  | .waitack ret => Sys2Proof.Machine.execWaitack ret s
  | .retune ret => Sys2Proof.Machine.execRetune ret s
  | .waitlock ret => Sys2Proof.Machine.execWaitlock ret s
  | .waitlockTimeout ret => Sys2Proof.Machine.execWaitlockTimeout ret s
  | .planeResume ret => Sys2Proof.Machine.execPlaneResume ret s
  | .planeDown ret => Sys2Proof.Machine.execPlaneDown ret s
  | .ringLockLoss ret ring => Sys2Proof.Machine.execRingLockLoss ret ring s
  | .ringLockReturn ret ring => Sys2Proof.Machine.execRingLockReturn ret ring s
  | .ringLockTimeout ret ring => Sys2Proof.Machine.execRingLockTimeout ret ring s
  | .heaterEndOfRange ret ring => Sys2Proof.Machine.execHeaterEndOfRange ret ring s
  | .cartridgeInsert ret romOk => Sys2Proof.Machine.execCartridgeInsert ret romOk s
  | .cartridgeLockCheck ret => Sys2Proof.Machine.execCartridgeLockCheck ret s
  | .cartridgeQuiesce ret => Sys2Proof.Machine.execCartridgeQuiesce ret s
  | .cartridgeRemoval ret => Sys2Proof.Machine.execCartridgeRemoval ret s
  | .cartridgePowerUp ret => Sys2Proof.Machine.execCartridgePowerUp ret s
  | .uePeerRequest ret peer job kind addr len data imm aop operand compare => Sys2Proof.Machine.execUePeerRequest ret peer job kind addr len data imm aop operand compare s
  | .ueSelectiveAck ret peer acked => Sys2Proof.Machine.execUeSelectiveAck ret peer acked s
  | .ueRetransmitTimeout ret peer seq => Sys2Proof.Machine.execUeRetransmitTimeout ret peer seq s
  | .ueEcnEcho ret peer => Sys2Proof.Machine.execUeEcnEcho ret peer s
  | .hostPortLinkDown m => Sys2Proof.Machine.execHostPortLinkDown m s
  | .hostPortLinkUp m => Sys2Proof.Machine.execHostPortLinkUp m s

end Sys2Proof.Machine
end

