-- ==== Sys2Proof/Machine/Step.lean ====
section
/-! DEFINITION. One step of the machine: the next move of the agenda, or the focus port's next instruction (log 1). -/

namespace Sys2Proof.Machine

open Sys2Proof

/-- Let the focus port move: the next instruction of its run in progress, decoded from the run's words (R106), or else the Drover's
choice of a run (R63). An opcode or sub-operation that is reserved raises its reason at issue (R111, R116). -/
def issueFocus (s : State) : Host.Outcome State Fault Refusal :=
  match ctx? s with
  | none => exec (.runIssue s.focus.core s.focus.slice) s
  | some c =>
    match decodeWords c.word (nthD 0 c.run.words (c.run.pos + 1)) with
    | .ok i => exec i s
    | .error .reservedSubop => .next (reasonAt c 0x22 s)
    | .error _ => .next (reasonAt c 0x21 s)

/-- One step. -/
def step (s : State) : Host.Outcome State Fault Refusal :=
  match s.agenda with
  | [] => issueFocus s
  | .idle n :: rest => .next { s with agenda := rest, ticks := s.ticks + 8 * n }
  | .port p :: rest => issueFocus { s with agenda := rest, focus := p }
  | .event i :: rest => exec i { s with agenda := rest }
  | .unit u :: rest => .next (applyUnit u { s with agenda := rest })
  | .upset u :: rest => .next (applyUpset u { s with agenda := rest })
  | .hostRead ret reg :: rest => hostReq (modOf ret) (hostReadReg ret reg) { s with agenda := rest }

/-- A launch record for an instruction placed from outside: one coupled group of one warp of 16 lanes with 256 registers (R42). -/
def placedLaunch : Launch :=
  ⟨0, 0, 0, 1, 1, 0, 0, 16, 0, 32, 16, 0, 0, 0, 0, []⟩

/-- A group for an instruction placed from outside, on a core. -/
def placedGroup (core : Nat) : Group where
  m := modOf (coreRet core)
  grid := 1
  index := 0
  region := 0
  root := 0
  launch := placedLaunch
  core := core
  window := 0
  spadOff := 0
  phase := .running
  tags := []
  preq := false
  drain := false
  pdlcFrom := none
  slots := []
  acc := []
  triggered := false
  placedAt := 0
  halt := none
  recordVa := 0
  recordOk := false
  haltPc := 0
  forced := false
  debug := false
  discard := false
  drainFrom := none
  resumeFault := none
  stopped := []
  exitAfter := none

/-- The state in which the very next step runs the instruction whose bits are w: it stands at position 0 of the run in progress on the
focus port, which is where step takes its next instruction from (R106, R107). Where the focus port has no run in progress, a group of one
warp of 16 lanes is resident on the focus core with all its lanes good, and the run is its first (log 2). -/
def State.withFetchWord (s : State) (nbits w : Nat) : State :=
  let v := w % 2 ^ nbits
  let w0 : W32 := BitVec.ofNat 32 v
  let w1 : W32 := BitVec.ofNat 32 (v / 2 ^ 32)
  let ws := if formWords (opOf w0) = 2 then [w0, w1] else [w0]
  let header : W32 := BitVec.ofNat 32 (ws.length * 2 ^ 20 + 1 * 2 ^ 10 + 2 * 2 ^ 5)
  match ctx? s with
  | some c =>
    setPort s.focus (some { c.run with words := ws, pos := 0, header := header, trailers := [], skip := 0 }) { s with agenda := [] }
  | none =>
    let gid := s.nextId
    let s := updCore s.focus.core (fun c => { c with lmap := 0xFFFFFFFF, wcode := 0, groups := [gid] }) { s with agenda := [] }
    let s := { s with nextId := gid + 2, groups := mput s.groups gid (placedGroup s.focus.core) }
    setPort s.focus (some ⟨gid, 0, s.focus.slice, 0xFFFF, 0, header, ws, 0, [], gid + 1, 0, 0, []⟩) s

end Sys2Proof.Machine
end

