-- ==== Sys2Proof/Laws/PerInstr.lean ====
section
/-! SUPPORT. Statements made of each instruction. RoundTrip: its words, laid out by the encoder, decode to it, whatever bytes follow. -/

namespace Sys2Proof.Laws

open Sys2Proof Sys2Proof.Machine

/-- A flag that a one-bit field holds. -/
theorem bit1_eq (b : Bool) : (bit1 b == 1#1) = b := by cases b <;> decide

/-- A word is the bytes it is stored as (R97). -/
theorem bytes_word (w : W32) : w.extractLsb' 24 8 ++ w.extractLsb' 16 8 ++ w.extractLsb' 8 8 ++ w.extractLsb' 0 8 = w := by
  rw [BitVec.extractLsb'_append_extractLsb'_eq_extractLsb' (by decide), BitVec.extractLsb'_append_extractLsb'_eq_extractLsb' (by decide),
    BitVec.extractLsb'_append_extractLsb'_eq_extractLsb' (by decide)]
  exact BitVec.extractLsb'_eq_self

theorem op_of {op : BitVec 7} {x : W32} (h : x.extractLsb' 25 7 = op) : opOf x = op.toNat := by
  rw [← h]
  unfold opOf
  simp only [BitVec.extractLsb'_toNat, Nat.shiftRight_eq_div_pow]
  omega

theorem op_packR (op : BitVec 7) (w : RWord) : opOf (packR op w) = op.toNat := by
  apply op_of
  unfold packR
  simp (disch := decide) only [BitVec.extractLsb'_append_eq_of_le, BitVec.extractLsb'_eq_self, Nat.reduceSub]
theorem unpack_packR (op : BitVec 7) (w : RWord) : unpackR (packR op w) = w := by
  obtain ⟨d, a, b, nw, g, gn⟩ := w
  unfold packR unpackR dOf aOf bOf nwOf gselOf gnOf
  simp (disch := decide) only [BitVec.extractLsb'_append_eq_of_le, BitVec.extractLsb'_append_eq_of_add_le,
    BitVec.extractLsb'_eq_self, Nat.reduceSub, bit1_eq]
theorem op_packS (op : BitVec 7) (sub : BitVec 7) (w : SWord) : opOf (packS op sub w) = op.toNat := by
  apply op_of
  unfold packS
  simp (disch := decide) only [BitVec.extractLsb'_append_eq_of_le, BitVec.extractLsb'_eq_self, Nat.reduceSub]
theorem unpack_packS (op : BitVec 7) (sub : BitVec 7) (w : SWord) : unpackS (packS op sub w) = w := by
  obtain ⟨d, a, nw, g, gn⟩ := w
  unfold packS unpackS dOf aOf nwOf gselOf gnOf
  simp (disch := decide) only [BitVec.extractLsb'_append_eq_of_le, BitVec.extractLsb'_append_eq_of_add_le,
    BitVec.extractLsb'_eq_self, Nat.reduceSub, bit1_eq]
theorem sub_packS (op : BitVec 7) (sub : BitVec 7) (w : SWord) : (bOf (packS op sub w)).toNat = sub.toNat := by
  unfold bOf packS
  simp (disch := decide) only [BitVec.extractLsb'_append_eq_of_le, BitVec.extractLsb'_append_eq_of_add_le,
    BitVec.extractLsb'_eq_self, Nat.reduceSub]
theorem op_packK (op : BitVec 7) (sub : BitVec 3) (w : KWord) : opOf (packK op sub w) = op.toNat := by
  apply op_of
  unfold packK
  simp (disch := decide) only [BitVec.extractLsb'_append_eq_of_le, BitVec.extractLsb'_eq_self, Nat.reduceSub]
theorem unpack_packK (op : BitVec 7) (sub : BitVec 3) (w : KWord) : unpackK (packK op sub w) = w := by
  obtain ⟨d, a, k, nw, g, gn⟩ := w
  unfold packK unpackK dOf aOf nwOf gselOf gnOf
  simp (disch := decide) only [BitVec.extractLsb'_append_eq_of_le, BitVec.extractLsb'_append_eq_of_add_le,
    BitVec.extractLsb'_eq_self, Nat.reduceSub, bit1_eq]
theorem sub_packK (op : BitVec 7) (sub : BitVec 3) (w : KWord) : ((packK op sub w).extractLsb' 8 3).toNat = sub.toNat := by
  unfold packK
  simp (disch := decide) only [BitVec.extractLsb'_append_eq_of_le, BitVec.extractLsb'_append_eq_of_add_le,
    BitVec.extractLsb'_eq_self, Nat.reduceSub]
theorem op_packC (op : BitVec 7) (sub : BitVec 7) (w : CWord) : opOf (packC op sub w) = op.toNat := by
  apply op_of
  unfold packC
  simp (disch := decide) only [BitVec.extractLsb'_append_eq_of_le, BitVec.extractLsb'_eq_self, Nat.reduceSub]
theorem unpack_packC (op : BitVec 7) (sub : BitVec 7) (w : CWord) : unpackC (packC op sub w) = w := by
  obtain ⟨a, b, nw, g, gn⟩ := w
  unfold packC unpackC aOf bOf nwOf gselOf gnOf
  simp (disch := decide) only [BitVec.extractLsb'_append_eq_of_le, BitVec.extractLsb'_append_eq_of_add_le,
    BitVec.extractLsb'_eq_self, Nat.reduceSub, bit1_eq]
theorem sub_packC (op : BitVec 7) (sub : BitVec 7) (w : CWord) : (dOf (packC op sub w)).toNat = sub.toNat := by
  unfold dOf packC
  simp (disch := decide) only [BitVec.extractLsb'_append_eq_of_le, BitVec.extractLsb'_append_eq_of_add_le,
    BitVec.extractLsb'_eq_self, Nat.reduceSub]
theorem op_packJ (op : BitVec 7) (w : JWord) : opOf (packJ op w) = op.toNat := by
  apply op_of
  unfold packJ
  simp (disch := decide) only [BitVec.extractLsb'_append_eq_of_le, BitVec.extractLsb'_eq_self, Nat.reduceSub]
theorem unpack_packJ (op : BitVec 7) (w : JWord) : unpackJ (packJ op w) = w := by
  obtain ⟨off, r, g, gn⟩ := w
  unfold packJ unpackJ nwOf gselOf gnOf
  simp (disch := decide) only [BitVec.extractLsb'_append_eq_of_le, BitVec.extractLsb'_append_eq_of_add_le,
    BitVec.extractLsb'_eq_self, Nat.reduceSub, bit1_eq]
theorem op_packMJ (op : BitVec 7) (w : MJWord) : opOf (packMJ op w) = op.toNat := by
  apply op_of
  unfold packMJ
  simp (disch := decide) only [BitVec.extractLsb'_append_eq_of_le, BitVec.extractLsb'_eq_self, Nat.reduceSub]
theorem unpack_packMJ (op : BitVec 7) (w : MJWord) : unpackMJ (packMJ op w) = w := by
  obtain ⟨k, off, r, g, gn⟩ := w
  unfold packMJ unpackMJ nwOf gselOf gnOf
  simp (disch := decide) only [BitVec.extractLsb'_append_eq_of_le, BitVec.extractLsb'_append_eq_of_add_le,
    BitVec.extractLsb'_eq_self, Nat.reduceSub, bit1_eq]
theorem op_packX (op : BitVec 7) (sub : BitVec 7) (w : XWord) : opOf (packX op sub w) = op.toNat := by
  apply op_of
  unfold packX
  simp (disch := decide) only [BitVec.extractLsb'_append_eq_of_le, BitVec.extractLsb'_eq_self, Nat.reduceSub]
theorem unpack_packX (op : BitVec 7) (sub : BitVec 7) (w : XWord) : unpackX (packX op sub w) = w := by
  obtain ⟨a, b, s, r⟩ := w
  unfold packX unpackX aOf bOf gnOf
  simp (disch := decide) only [BitVec.extractLsb'_append_eq_of_le, BitVec.extractLsb'_append_eq_of_add_le,
    BitVec.extractLsb'_eq_self, Nat.reduceSub, bit1_eq]
theorem sub_packX (op : BitVec 7) (sub : BitVec 7) (w : XWord) : (dOf (packX op sub w)).toNat = sub.toNat := by
  unfold dOf packX
  simp (disch := decide) only [BitVec.extractLsb'_append_eq_of_le, BitVec.extractLsb'_append_eq_of_add_le,
    BitVec.extractLsb'_eq_self, Nat.reduceSub]
theorem op_packXC (op : BitVec 7) (w : XCWord) : opOf (packXC op w) = op.toNat := by
  apply op_of
  unfold packXC
  simp (disch := decide) only [BitVec.extractLsb'_append_eq_of_le, BitVec.extractLsb'_eq_self, Nat.reduceSub]
theorem unpack_packXC (op : BitVec 7) (w : XCWord) : unpackXC (packXC op w) = w := by
  obtain ⟨d, a, b, s, r⟩ := w
  unfold packXC unpackXC dOf aOf bOf gnOf
  simp (disch := decide) only [BitVec.extractLsb'_append_eq_of_le, BitVec.extractLsb'_append_eq_of_add_le,
    BitVec.extractLsb'_eq_self, Nat.reduceSub, bit1_eq]

namespace RoundTrip

/-- The words of an instruction decode to it, with every field, and nothing behind them is read. -/
def Statement (i : Instr) : Prop := i.isEvent = false → ∀ rest, decode (wordBytes (encode i) ++ rest) = .ok (i, rest)

theorem one {i : Instr} {x : W32} (he : encode i = [x]) (hf : ¬ formWords (opOf x) = 2) (hd : decodeWords x 0 = .ok i) : Statement i := by
  intro _ rest
  rw [he]
  simp only [wordBytes, List.cons_append, List.nil_append]
  unfold decode
  dsimp only
  rw [bytes_word, if_neg hf, hd]

theorem two {i : Instr} {x y : W32} (he : encode i = [x, y]) (hf : formWords (opOf x) = 2) (hd : decodeWords x y = .ok i) : Statement i := by
  intro _ rest
  rw [he]
  simp only [wordBytes, List.cons_append, List.nil_append]
  unfold decode
  dsimp only
  rw [bytes_word, if_pos hf, bytes_word, hd]

theorem step_ {i : Instr} (h : i.isEvent = true) : Statement i := fun g => by rw [h] at g; cases g

theorem nop (w : RWord) : Statement (.nop w) := by
  refine one rfl (by rw [op_packR 0x02#7 w]; decide) ?_
  unfold decodeWords
  rw [op_packR 0x02#7 w]
  exact congrArg (fun y => (Except.ok (Instr.nop y) : DecodeResult)) (unpack_packR 0x02#7 w)
theorem add (w : RWord) : Statement (.add w) := by
  refine one rfl (by rw [op_packR 0x03#7 w]; decide) ?_
  unfold decodeWords
  rw [op_packR 0x03#7 w]
  exact congrArg (fun y => (Except.ok (Instr.add y) : DecodeResult)) (unpack_packR 0x03#7 w)
theorem sub (w : RWord) : Statement (.sub w) := by
  refine one rfl (by rw [op_packR 0x04#7 w]; decide) ?_
  unfold decodeWords
  rw [op_packR 0x04#7 w]
  exact congrArg (fun y => (Except.ok (Instr.sub y) : DecodeResult)) (unpack_packR 0x04#7 w)
theorem addi (w : RWord) : Statement (.addi w) := by
  refine one rfl (by rw [op_packR 0x05#7 w]; decide) ?_
  unfold decodeWords
  rw [op_packR 0x05#7 w]
  exact congrArg (fun y => (Except.ok (Instr.addi y) : DecodeResult)) (unpack_packR 0x05#7 w)
theorem addl (w : RWord) (ctl : W32) : Statement (.addl w ctl) := by
  refine two rfl (by rw [op_packR 0x06#7 w]; decide) ?_
  unfold decodeWords
  rw [op_packR 0x06#7 w]
  exact congrArg (fun y => (Except.ok (Instr.addl y ctl) : DecodeResult)) (unpack_packR 0x06#7 w)
theorem mul (w : RWord) : Statement (.mul w) := by
  refine one rfl (by rw [op_packR 0x07#7 w]; decide) ?_
  unfold decodeWords
  rw [op_packR 0x07#7 w]
  exact congrArg (fun y => (Except.ok (Instr.mul y) : DecodeResult)) (unpack_packR 0x07#7 w)
theorem mulh (w : RWord) : Statement (.mulh w) := by
  refine one rfl (by rw [op_packR 0x08#7 w]; decide) ?_
  unfold decodeWords
  rw [op_packR 0x08#7 w]
  exact congrArg (fun y => (Except.ok (Instr.mulh y) : DecodeResult)) (unpack_packR 0x08#7 w)
theorem mulhu (w : RWord) : Statement (.mulhu w) := by
  refine one rfl (by rw [op_packR 0x09#7 w]; decide) ?_
  unfold decodeWords
  rw [op_packR 0x09#7 w]
  exact congrArg (fun y => (Except.ok (Instr.mulhu y) : DecodeResult)) (unpack_packR 0x09#7 w)
theorem madd (w : RWord) : Statement (.madd w) := by
  refine one rfl (by rw [op_packR 0x0A#7 w]; decide) ?_
  unfold decodeWords
  rw [op_packR 0x0A#7 w]
  exact congrArg (fun y => (Except.ok (Instr.madd y) : DecodeResult)) (unpack_packR 0x0A#7 w)
theorem div (w : RWord) : Statement (.div w) := by
  refine one rfl (by rw [op_packR 0x0B#7 w]; decide) ?_
  unfold decodeWords
  rw [op_packR 0x0B#7 w]
  exact congrArg (fun y => (Except.ok (Instr.div y) : DecodeResult)) (unpack_packR 0x0B#7 w)
theorem divu (w : RWord) : Statement (.divu w) := by
  refine one rfl (by rw [op_packR 0x0C#7 w]; decide) ?_
  unfold decodeWords
  rw [op_packR 0x0C#7 w]
  exact congrArg (fun y => (Except.ok (Instr.divu y) : DecodeResult)) (unpack_packR 0x0C#7 w)
theorem rem (w : RWord) : Statement (.rem w) := by
  refine one rfl (by rw [op_packR 0x0D#7 w]; decide) ?_
  unfold decodeWords
  rw [op_packR 0x0D#7 w]
  exact congrArg (fun y => (Except.ok (Instr.rem y) : DecodeResult)) (unpack_packR 0x0D#7 w)
theorem remu (w : RWord) : Statement (.remu w) := by
  refine one rfl (by rw [op_packR 0x0E#7 w]; decide) ?_
  unfold decodeWords
  rw [op_packR 0x0E#7 w]
  exact congrArg (fun y => (Except.ok (Instr.remu y) : DecodeResult)) (unpack_packR 0x0E#7 w)
theorem abs (w : RWord) : Statement (.abs w) := by
  refine one rfl (by rw [op_packR 0x0F#7 w]; decide) ?_
  unfold decodeWords
  rw [op_packR 0x0F#7 w]
  exact congrArg (fun y => (Except.ok (Instr.abs y) : DecodeResult)) (unpack_packR 0x0F#7 w)
theorem and (w : RWord) : Statement (.and w) := by
  refine one rfl (by rw [op_packR 0x10#7 w]; decide) ?_
  unfold decodeWords
  rw [op_packR 0x10#7 w]
  exact congrArg (fun y => (Except.ok (Instr.and y) : DecodeResult)) (unpack_packR 0x10#7 w)
theorem or (w : RWord) : Statement (.or w) := by
  refine one rfl (by rw [op_packR 0x11#7 w]; decide) ?_
  unfold decodeWords
  rw [op_packR 0x11#7 w]
  exact congrArg (fun y => (Except.ok (Instr.or y) : DecodeResult)) (unpack_packR 0x11#7 w)
theorem xor (w : RWord) : Statement (.xor w) := by
  refine one rfl (by rw [op_packR 0x12#7 w]; decide) ?_
  unfold decodeWords
  rw [op_packR 0x12#7 w]
  exact congrArg (fun y => (Except.ok (Instr.xor y) : DecodeResult)) (unpack_packR 0x12#7 w)
theorem andn (w : RWord) : Statement (.andn w) := by
  refine one rfl (by rw [op_packR 0x13#7 w]; decide) ?_
  unfold decodeWords
  rw [op_packR 0x13#7 w]
  exact congrArg (fun y => (Except.ok (Instr.andn y) : DecodeResult)) (unpack_packR 0x13#7 w)
theorem shl (w : RWord) : Statement (.shl w) := by
  refine one rfl (by rw [op_packR 0x14#7 w]; decide) ?_
  unfold decodeWords
  rw [op_packR 0x14#7 w]
  exact congrArg (fun y => (Except.ok (Instr.shl y) : DecodeResult)) (unpack_packR 0x14#7 w)
theorem shr (w : RWord) : Statement (.shr w) := by
  refine one rfl (by rw [op_packR 0x15#7 w]; decide) ?_
  unfold decodeWords
  rw [op_packR 0x15#7 w]
  exact congrArg (fun y => (Except.ok (Instr.shr y) : DecodeResult)) (unpack_packR 0x15#7 w)
theorem sar (w : RWord) : Statement (.sar w) := by
  refine one rfl (by rw [op_packR 0x16#7 w]; decide) ?_
  unfold decodeWords
  rw [op_packR 0x16#7 w]
  exact congrArg (fun y => (Except.ok (Instr.sar y) : DecodeResult)) (unpack_packR 0x16#7 w)
theorem rot (w : RWord) : Statement (.rot w) := by
  refine one rfl (by rw [op_packR 0x17#7 w]; decide) ?_
  unfold decodeWords
  rw [op_packR 0x17#7 w]
  exact congrArg (fun y => (Except.ok (Instr.rot y) : DecodeResult)) (unpack_packR 0x17#7 w)
theorem shli (w : RWord) : Statement (.shli w) := by
  refine one rfl (by rw [op_packR 0x18#7 w]; decide) ?_
  unfold decodeWords
  rw [op_packR 0x18#7 w]
  exact congrArg (fun y => (Except.ok (Instr.shli y) : DecodeResult)) (unpack_packR 0x18#7 w)
theorem shri (w : RWord) : Statement (.shri w) := by
  refine one rfl (by rw [op_packR 0x19#7 w]; decide) ?_
  unfold decodeWords
  rw [op_packR 0x19#7 w]
  exact congrArg (fun y => (Except.ok (Instr.shri y) : DecodeResult)) (unpack_packR 0x19#7 w)
theorem sari (w : RWord) : Statement (.sari w) := by
  refine one rfl (by rw [op_packR 0x1A#7 w]; decide) ?_
  unfold decodeWords
  rw [op_packR 0x1A#7 w]
  exact congrArg (fun y => (Except.ok (Instr.sari y) : DecodeResult)) (unpack_packR 0x1A#7 w)
theorem min (w : RWord) : Statement (.min w) := by
  refine one rfl (by rw [op_packR 0x1B#7 w]; decide) ?_
  unfold decodeWords
  rw [op_packR 0x1B#7 w]
  exact congrArg (fun y => (Except.ok (Instr.min y) : DecodeResult)) (unpack_packR 0x1B#7 w)
theorem max (w : RWord) : Statement (.max w) := by
  refine one rfl (by rw [op_packR 0x1C#7 w]; decide) ?_
  unfold decodeWords
  rw [op_packR 0x1C#7 w]
  exact congrArg (fun y => (Except.ok (Instr.max y) : DecodeResult)) (unpack_packR 0x1C#7 w)
theorem minu (w : RWord) : Statement (.minu w) := by
  refine one rfl (by rw [op_packR 0x1D#7 w]; decide) ?_
  unfold decodeWords
  rw [op_packR 0x1D#7 w]
  exact congrArg (fun y => (Except.ok (Instr.minu y) : DecodeResult)) (unpack_packR 0x1D#7 w)
theorem maxu (w : RWord) : Statement (.maxu w) := by
  refine one rfl (by rw [op_packR 0x1E#7 w]; decide) ?_
  unfold decodeWords
  rw [op_packR 0x1E#7 w]
  exact congrArg (fun y => (Except.ok (Instr.maxu y) : DecodeResult)) (unpack_packR 0x1E#7 w)
theorem clz (w : SWord) : Statement (.clz w) := by
  refine one rfl (by rw [op_packS 0x1F#7 0#7 w]; decide) ?_
  unfold decodeWords
  rw [op_packS 0x1F#7 0#7 w]
  show decodeSub1F _ = _
  unfold decodeSub1F
  rw [sub_packS 0x1F#7 0#7 w]
  exact congrArg (fun y => (Except.ok (Instr.clz y) : DecodeResult)) (unpack_packS 0x1F#7 0#7 w)
theorem ctz (w : SWord) : Statement (.ctz w) := by
  refine one rfl (by rw [op_packS 0x1F#7 1#7 w]; decide) ?_
  unfold decodeWords
  rw [op_packS 0x1F#7 1#7 w]
  show decodeSub1F _ = _
  unfold decodeSub1F
  rw [sub_packS 0x1F#7 1#7 w]
  exact congrArg (fun y => (Except.ok (Instr.ctz y) : DecodeResult)) (unpack_packS 0x1F#7 1#7 w)
theorem popc (w : SWord) : Statement (.popc w) := by
  refine one rfl (by rw [op_packS 0x1F#7 2#7 w]; decide) ?_
  unfold decodeWords
  rw [op_packS 0x1F#7 2#7 w]
  show decodeSub1F _ = _
  unfold decodeSub1F
  rw [sub_packS 0x1F#7 2#7 w]
  exact congrArg (fun y => (Except.ok (Instr.popc y) : DecodeResult)) (unpack_packS 0x1F#7 2#7 w)
theorem brev (w : SWord) : Statement (.brev w) := by
  refine one rfl (by rw [op_packS 0x1F#7 3#7 w]; decide) ?_
  unfold decodeWords
  rw [op_packS 0x1F#7 3#7 w]
  show decodeSub1F _ = _
  unfold decodeSub1F
  rw [sub_packS 0x1F#7 3#7 w]
  exact congrArg (fun y => (Except.ok (Instr.brev y) : DecodeResult)) (unpack_packS 0x1F#7 3#7 w)
theorem bfx (w : RWord) (ctl : W32) : Statement (.bfx w ctl) := by
  refine two rfl (by rw [op_packR 0x20#7 w]; decide) ?_
  unfold decodeWords
  rw [op_packR 0x20#7 w]
  exact congrArg (fun y => (Except.ok (Instr.bfx y ctl) : DecodeResult)) (unpack_packR 0x20#7 w)
theorem bfi (w : RWord) (ctl : W32) : Statement (.bfi w ctl) := by
  refine two rfl (by rw [op_packR 0x21#7 w]; decide) ?_
  unfold decodeWords
  rw [op_packR 0x21#7 w]
  exact congrArg (fun y => (Except.ok (Instr.bfi y ctl) : DecodeResult)) (unpack_packR 0x21#7 w)
theorem sel (w : RWord) (ctl : W32) : Statement (.sel w ctl) := by
  refine two rfl (by rw [op_packR 0x22#7 w]; decide) ?_
  unfold decodeWords
  rw [op_packR 0x22#7 w]
  exact congrArg (fun y => (Except.ok (Instr.sel y ctl) : DecodeResult)) (unpack_packR 0x22#7 w)
theorem mov (w : RWord) : Statement (.mov w) := by
  refine one rfl (by rw [op_packR 0x23#7 w]; decide) ?_
  unfold decodeWords
  rw [op_packR 0x23#7 w]
  exact congrArg (fun y => (Except.ok (Instr.mov y) : DecodeResult)) (unpack_packR 0x23#7 w)
theorem movl (w : RWord) (ctl : W32) : Statement (.movl w ctl) := by
  refine two rfl (by rw [op_packR 0x24#7 w]; decide) ?_
  unfold decodeWords
  rw [op_packR 0x24#7 w]
  exact congrArg (fun y => (Except.ok (Instr.movl y ctl) : DecodeResult)) (unpack_packR 0x24#7 w)
theorem lea (w : RWord) (ctl : W32) : Statement (.lea w ctl) := by
  refine two rfl (by rw [op_packR 0x25#7 w]; decide) ?_
  unfold decodeWords
  rw [op_packR 0x25#7 w]
  exact congrArg (fun y => (Except.ok (Instr.lea y ctl) : DecodeResult)) (unpack_packR 0x25#7 w)
theorem addc (w : RWord) : Statement (.addc w) := by
  refine one rfl (by rw [op_packR 0x26#7 w]; decide) ?_
  unfold decodeWords
  rw [op_packR 0x26#7 w]
  exact congrArg (fun y => (Except.ok (Instr.addc y) : DecodeResult)) (unpack_packR 0x26#7 w)
theorem subb (w : RWord) : Statement (.subb w) := by
  refine one rfl (by rw [op_packR 0x27#7 w]; decide) ?_
  unfold decodeWords
  rw [op_packR 0x27#7 w]
  exact congrArg (fun y => (Except.ok (Instr.subb y) : DecodeResult)) (unpack_packR 0x27#7 w)
theorem cmpeq (w : RWord) : Statement (.cmpeq w) := by
  refine one rfl (by rw [op_packR 0x28#7 w]; decide) ?_
  unfold decodeWords
  rw [op_packR 0x28#7 w]
  exact congrArg (fun y => (Except.ok (Instr.cmpeq y) : DecodeResult)) (unpack_packR 0x28#7 w)
theorem cmpne (w : RWord) : Statement (.cmpne w) := by
  refine one rfl (by rw [op_packR 0x29#7 w]; decide) ?_
  unfold decodeWords
  rw [op_packR 0x29#7 w]
  exact congrArg (fun y => (Except.ok (Instr.cmpne y) : DecodeResult)) (unpack_packR 0x29#7 w)
theorem cmplt (w : RWord) : Statement (.cmplt w) := by
  refine one rfl (by rw [op_packR 0x2A#7 w]; decide) ?_
  unfold decodeWords
  rw [op_packR 0x2A#7 w]
  exact congrArg (fun y => (Except.ok (Instr.cmplt y) : DecodeResult)) (unpack_packR 0x2A#7 w)
theorem cmple (w : RWord) : Statement (.cmple w) := by
  refine one rfl (by rw [op_packR 0x2B#7 w]; decide) ?_
  unfold decodeWords
  rw [op_packR 0x2B#7 w]
  exact congrArg (fun y => (Except.ok (Instr.cmple y) : DecodeResult)) (unpack_packR 0x2B#7 w)
theorem cmpltu (w : RWord) : Statement (.cmpltu w) := by
  refine one rfl (by rw [op_packR 0x2C#7 w]; decide) ?_
  unfold decodeWords
  rw [op_packR 0x2C#7 w]
  exact congrArg (fun y => (Except.ok (Instr.cmpltu y) : DecodeResult)) (unpack_packR 0x2C#7 w)
theorem cmpleu (w : RWord) : Statement (.cmpleu w) := by
  refine one rfl (by rw [op_packR 0x2D#7 w]; decide) ?_
  unfold decodeWords
  rw [op_packR 0x2D#7 w]
  exact congrArg (fun y => (Except.ok (Instr.cmpleu y) : DecodeResult)) (unpack_packR 0x2D#7 w)
theorem cmpeqi (w : RWord) : Statement (.cmpeqi w) := by
  refine one rfl (by rw [op_packR 0x2E#7 w]; decide) ?_
  unfold decodeWords
  rw [op_packR 0x2E#7 w]
  exact congrArg (fun y => (Except.ok (Instr.cmpeqi y) : DecodeResult)) (unpack_packR 0x2E#7 w)
theorem cmplti (w : RWord) : Statement (.cmplti w) := by
  refine one rfl (by rw [op_packR 0x2F#7 w]; decide) ?_
  unfold decodeWords
  rw [op_packR 0x2F#7 w]
  exact congrArg (fun y => (Except.ok (Instr.cmplti y) : DecodeResult)) (unpack_packR 0x2F#7 w)
theorem pand (w : RWord) : Statement (.pand w) := by
  refine one rfl (by rw [op_packR 0x30#7 w]; decide) ?_
  unfold decodeWords
  rw [op_packR 0x30#7 w]
  exact congrArg (fun y => (Except.ok (Instr.pand y) : DecodeResult)) (unpack_packR 0x30#7 w)
theorem por (w : RWord) : Statement (.por w) := by
  refine one rfl (by rw [op_packR 0x31#7 w]; decide) ?_
  unfold decodeWords
  rw [op_packR 0x31#7 w]
  exact congrArg (fun y => (Except.ok (Instr.por y) : DecodeResult)) (unpack_packR 0x31#7 w)
theorem pxor (w : RWord) : Statement (.pxor w) := by
  refine one rfl (by rw [op_packR 0x32#7 w]; decide) ?_
  unfold decodeWords
  rw [op_packR 0x32#7 w]
  exact congrArg (fun y => (Except.ok (Instr.pxor y) : DecodeResult)) (unpack_packR 0x32#7 w)
theorem pmov (w : RWord) : Statement (.pmov w) := by
  refine one rfl (by rw [op_packR 0x33#7 w]; decide) ?_
  unfold decodeWords
  rw [op_packR 0x33#7 w]
  exact congrArg (fun y => (Except.ok (Instr.pmov y) : DecodeResult)) (unpack_packR 0x33#7 w)
theorem wbase (w : RWord) : Statement (.wbase w) := by
  refine one rfl (by rw [op_packR 0x34#7 w]; decide) ?_
  unfold decodeWords
  rw [op_packR 0x34#7 w]
  exact congrArg (fun y => (Except.ok (Instr.wbase y) : DecodeResult)) (unpack_packR 0x34#7 w)
theorem rds (w : RWord) (ctl : W32) : Statement (.rds w ctl) := by
  refine two rfl (by rw [op_packR 0x35#7 w]; decide) ?_
  unfold decodeWords
  rw [op_packR 0x35#7 w]
  exact congrArg (fun y => (Except.ok (Instr.rds y ctl) : DecodeResult)) (unpack_packR 0x35#7 w)
theorem wrs (w : RWord) (ctl : W32) : Statement (.wrs w ctl) := by
  refine two rfl (by rw [op_packR 0x36#7 w]; decide) ?_
  unfold decodeWords
  rw [op_packR 0x36#7 w]
  exact congrArg (fun y => (Except.ok (Instr.wrs y ctl) : DecodeResult)) (unpack_packR 0x36#7 w)
theorem fcmpeq (w : RWord) : Statement (.fcmpeq w) := by
  refine one rfl (by rw [op_packR 0x38#7 w]; decide) ?_
  unfold decodeWords
  rw [op_packR 0x38#7 w]
  exact congrArg (fun y => (Except.ok (Instr.fcmpeq y) : DecodeResult)) (unpack_packR 0x38#7 w)
theorem fcmplt (w : RWord) : Statement (.fcmplt w) := by
  refine one rfl (by rw [op_packR 0x39#7 w]; decide) ?_
  unfold decodeWords
  rw [op_packR 0x39#7 w]
  exact congrArg (fun y => (Except.ok (Instr.fcmplt y) : DecodeResult)) (unpack_packR 0x39#7 w)
theorem fcmple (w : RWord) : Statement (.fcmple w) := by
  refine one rfl (by rw [op_packR 0x3A#7 w]; decide) ?_
  unfold decodeWords
  rw [op_packR 0x3A#7 w]
  exact congrArg (fun y => (Except.ok (Instr.fcmple y) : DecodeResult)) (unpack_packR 0x3A#7 w)
theorem fcmpun (w : RWord) : Statement (.fcmpun w) := by
  refine one rfl (by rw [op_packR 0x3B#7 w]; decide) ?_
  unfold decodeWords
  rw [op_packR 0x3B#7 w]
  exact congrArg (fun y => (Except.ok (Instr.fcmpun y) : DecodeResult)) (unpack_packR 0x3B#7 w)
theorem fadd (w : RWord) : Statement (.fadd w) := by
  refine one rfl (by rw [op_packR 0x40#7 w]; decide) ?_
  unfold decodeWords
  rw [op_packR 0x40#7 w]
  exact congrArg (fun y => (Except.ok (Instr.fadd y) : DecodeResult)) (unpack_packR 0x40#7 w)
theorem fsub (w : RWord) : Statement (.fsub w) := by
  refine one rfl (by rw [op_packR 0x41#7 w]; decide) ?_
  unfold decodeWords
  rw [op_packR 0x41#7 w]
  exact congrArg (fun y => (Except.ok (Instr.fsub y) : DecodeResult)) (unpack_packR 0x41#7 w)
theorem fmul (w : RWord) : Statement (.fmul w) := by
  refine one rfl (by rw [op_packR 0x42#7 w]; decide) ?_
  unfold decodeWords
  rw [op_packR 0x42#7 w]
  exact congrArg (fun y => (Except.ok (Instr.fmul y) : DecodeResult)) (unpack_packR 0x42#7 w)
theorem ffma (w : RWord) : Statement (.ffma w) := by
  refine one rfl (by rw [op_packR 0x43#7 w]; decide) ?_
  unfold decodeWords
  rw [op_packR 0x43#7 w]
  exact congrArg (fun y => (Except.ok (Instr.ffma y) : DecodeResult)) (unpack_packR 0x43#7 w)
theorem fmin (w : RWord) : Statement (.fmin w) := by
  refine one rfl (by rw [op_packR 0x44#7 w]; decide) ?_
  unfold decodeWords
  rw [op_packR 0x44#7 w]
  exact congrArg (fun y => (Except.ok (Instr.fmin y) : DecodeResult)) (unpack_packR 0x44#7 w)
theorem fmax (w : RWord) : Statement (.fmax w) := by
  refine one rfl (by rw [op_packR 0x45#7 w]; decide) ?_
  unfold decodeWords
  rw [op_packR 0x45#7 w]
  exact congrArg (fun y => (Except.ok (Instr.fmax y) : DecodeResult)) (unpack_packR 0x45#7 w)
theorem fneg (w : RWord) : Statement (.fneg w) := by
  refine one rfl (by rw [op_packR 0x46#7 w]; decide) ?_
  unfold decodeWords
  rw [op_packR 0x46#7 w]
  exact congrArg (fun y => (Except.ok (Instr.fneg y) : DecodeResult)) (unpack_packR 0x46#7 w)
theorem fabs (w : RWord) : Statement (.fabs w) := by
  refine one rfl (by rw [op_packR 0x47#7 w]; decide) ?_
  unfold decodeWords
  rw [op_packR 0x47#7 w]
  exact congrArg (fun y => (Except.ok (Instr.fabs y) : DecodeResult)) (unpack_packR 0x47#7 w)
theorem frcp (w : RWord) : Statement (.frcp w) := by
  refine one rfl (by rw [op_packR 0x48#7 w]; decide) ?_
  unfold decodeWords
  rw [op_packR 0x48#7 w]
  exact congrArg (fun y => (Except.ok (Instr.frcp y) : DecodeResult)) (unpack_packR 0x48#7 w)
theorem frsq (w : RWord) : Statement (.frsq w) := by
  refine one rfl (by rw [op_packR 0x49#7 w]; decide) ?_
  unfold decodeWords
  rw [op_packR 0x49#7 w]
  exact congrArg (fun y => (Except.ok (Instr.frsq y) : DecodeResult)) (unpack_packR 0x49#7 w)
theorem fexp2 (w : RWord) : Statement (.fexp2 w) := by
  refine one rfl (by rw [op_packR 0x4A#7 w]; decide) ?_
  unfold decodeWords
  rw [op_packR 0x4A#7 w]
  exact congrArg (fun y => (Except.ok (Instr.fexp2 y) : DecodeResult)) (unpack_packR 0x4A#7 w)
theorem flog2 (w : RWord) : Statement (.flog2 w) := by
  refine one rfl (by rw [op_packR 0x4B#7 w]; decide) ?_
  unfold decodeWords
  rw [op_packR 0x4B#7 w]
  exact congrArg (fun y => (Except.ok (Instr.flog2 y) : DecodeResult)) (unpack_packR 0x4B#7 w)
theorem fsin (w : RWord) : Statement (.fsin w) := by
  refine one rfl (by rw [op_packR 0x4C#7 w]; decide) ?_
  unfold decodeWords
  rw [op_packR 0x4C#7 w]
  exact congrArg (fun y => (Except.ok (Instr.fsin y) : DecodeResult)) (unpack_packR 0x4C#7 w)
theorem fcos (w : RWord) : Statement (.fcos w) := by
  refine one rfl (by rw [op_packR 0x4D#7 w]; decide) ?_
  unfold decodeWords
  rw [op_packR 0x4D#7 w]
  exact congrArg (fun y => (Except.ok (Instr.fcos y) : DecodeResult)) (unpack_packR 0x4D#7 w)
theorem ftanh (w : RWord) : Statement (.ftanh w) := by
  refine one rfl (by rw [op_packR 0x4E#7 w]; decide) ?_
  unfold decodeWords
  rw [op_packR 0x4E#7 w]
  exact congrArg (fun y => (Except.ok (Instr.ftanh y) : DecodeResult)) (unpack_packR 0x4E#7 w)
theorem fsqrt (w : RWord) : Statement (.fsqrt w) := by
  refine one rfl (by rw [op_packR 0x4F#7 w]; decide) ?_
  unfold decodeWords
  rw [op_packR 0x4F#7 w]
  exact congrArg (fun y => (Except.ok (Instr.fsqrt y) : DecodeResult)) (unpack_packR 0x4F#7 w)
theorem frnd (w : RWord) : Statement (.frnd w) := by
  refine one rfl (by rw [op_packR 0x50#7 w]; decide) ?_
  unfold decodeWords
  rw [op_packR 0x50#7 w]
  exact congrArg (fun y => (Except.ok (Instr.frnd y) : DecodeResult)) (unpack_packR 0x50#7 w)
theorem fcvt (w : RWord) (ctl : W32) : Statement (.fcvt w ctl) := by
  refine two rfl (by rw [op_packR 0x51#7 w]; decide) ?_
  unfold decodeWords
  rw [op_packR 0x51#7 w]
  exact congrArg (fun y => (Except.ok (Instr.fcvt y ctl) : DecodeResult)) (unpack_packR 0x51#7 w)
theorem hadd2 (w : RWord) : Statement (.hadd2 w) := by
  refine one rfl (by rw [op_packR 0x52#7 w]; decide) ?_
  unfold decodeWords
  rw [op_packR 0x52#7 w]
  exact congrArg (fun y => (Except.ok (Instr.hadd2 y) : DecodeResult)) (unpack_packR 0x52#7 w)
theorem hmul2 (w : RWord) : Statement (.hmul2 w) := by
  refine one rfl (by rw [op_packR 0x53#7 w]; decide) ?_
  unfold decodeWords
  rw [op_packR 0x53#7 w]
  exact congrArg (fun y => (Except.ok (Instr.hmul2 y) : DecodeResult)) (unpack_packR 0x53#7 w)
theorem hfma2 (w : RWord) : Statement (.hfma2 w) := by
  refine one rfl (by rw [op_packR 0x54#7 w]; decide) ?_
  unfold decodeWords
  rw [op_packR 0x54#7 w]
  exact congrArg (fun y => (Except.ok (Instr.hfma2 y) : DecodeResult)) (unpack_packR 0x54#7 w)
theorem badd2 (w : RWord) : Statement (.badd2 w) := by
  refine one rfl (by rw [op_packR 0x55#7 w]; decide) ?_
  unfold decodeWords
  rw [op_packR 0x55#7 w]
  exact congrArg (fun y => (Except.ok (Instr.badd2 y) : DecodeResult)) (unpack_packR 0x55#7 w)
theorem bmul2 (w : RWord) : Statement (.bmul2 w) := by
  refine one rfl (by rw [op_packR 0x56#7 w]; decide) ?_
  unfold decodeWords
  rw [op_packR 0x56#7 w]
  exact congrArg (fun y => (Except.ok (Instr.bmul2 y) : DecodeResult)) (unpack_packR 0x56#7 w)
theorem bfma2 (w : RWord) : Statement (.bfma2 w) := by
  refine one rfl (by rw [op_packR 0x57#7 w]; decide) ?_
  unfold decodeWords
  rw [op_packR 0x57#7 w]
  exact congrArg (fun y => (Except.ok (Instr.bfma2 y) : DecodeResult)) (unpack_packR 0x57#7 w)
theorem idot4 (w : RWord) (ctl : W32) : Statement (.idot4 w ctl) := by
  refine two rfl (by rw [op_packR 0x58#7 w]; decide) ?_
  unfold decodeWords
  rw [op_packR 0x58#7 w]
  exact congrArg (fun y => (Except.ok (Instr.idot4 y ctl) : DecodeResult)) (unpack_packR 0x58#7 w)
theorem tdot4 (w : RWord) : Statement (.tdot4 w) := by
  refine one rfl (by rw [op_packR 0x59#7 w]; decide) ?_
  unfold decodeWords
  rw [op_packR 0x59#7 w]
  exact congrArg (fun y => (Except.ok (Instr.tdot4 y) : DecodeResult)) (unpack_packR 0x59#7 w)
theorem fflagRd (w : SWord) : Statement (.fflagRd w) := by
  refine one rfl (by rw [op_packS 0x5A#7 0#7 w]; decide) ?_
  unfold decodeWords
  rw [op_packS 0x5A#7 0#7 w]
  show decodeSub5A _ = _
  unfold decodeSub5A
  rw [sub_packS 0x5A#7 0#7 w]
  exact congrArg (fun y => (Except.ok (Instr.fflagRd y) : DecodeResult)) (unpack_packS 0x5A#7 0#7 w)
theorem fflagClr (w : SWord) : Statement (.fflagClr w) := by
  refine one rfl (by rw [op_packS 0x5A#7 1#7 w]; decide) ?_
  unfold decodeWords
  rw [op_packS 0x5A#7 1#7 w]
  show decodeSub5A _ = _
  unfold decodeSub5A
  rw [sub_packS 0x5A#7 1#7 w]
  exact congrArg (fun y => (Except.ok (Instr.fflagClr y) : DecodeResult)) (unpack_packS 0x5A#7 1#7 w)
theorem fsetrm (w : RWord) : Statement (.fsetrm w) := by
  refine one rfl (by rw [op_packR 0x5B#7 w]; decide) ?_
  unfold decodeWords
  rw [op_packR 0x5B#7 w]
  exact congrArg (fun y => (Except.ok (Instr.fsetrm y) : DecodeResult)) (unpack_packR 0x5B#7 w)
theorem fcvts (w : RWord) (ctl : W32) : Statement (.fcvts w ctl) := by
  refine two rfl (by rw [op_packR 0x5C#7 w]; decide) ?_
  unfold decodeWords
  rw [op_packR 0x5C#7 w]
  exact congrArg (fun y => (Except.ok (Instr.fcvts y ctl) : DecodeResult)) (unpack_packR 0x5C#7 w)
theorem bra (w : JWord) : Statement (.bra w) := by
  refine one rfl (by rw [op_packJ 0x60#7 w]; decide) ?_
  unfold decodeWords
  rw [op_packJ 0x60#7 w]
  exact congrArg (fun y => (Except.ok (Instr.bra y) : DecodeResult)) (unpack_packJ 0x60#7 w)
theorem call (w : JWord) : Statement (.call w) := by
  refine one rfl (by rw [op_packJ 0x61#7 w]; decide) ?_
  unfold decodeWords
  rw [op_packJ 0x61#7 w]
  exact congrArg (fun y => (Except.ok (Instr.call y) : DecodeResult)) (unpack_packJ 0x61#7 w)
theorem jmpr (w : RWord) : Statement (.jmpr w) := by
  refine one rfl (by rw [op_packR 0x62#7 w]; decide) ?_
  unfold decodeWords
  rw [op_packR 0x62#7 w]
  exact congrArg (fun y => (Except.ok (Instr.jmpr y) : DecodeResult)) (unpack_packR 0x62#7 w)
theorem meet (w : MJWord) : Statement (.meet w) := by
  refine one rfl (by rw [op_packMJ 0x63#7 w]; decide) ?_
  unfold decodeWords
  rw [op_packMJ 0x63#7 w]
  exact congrArg (fun y => (Except.ok (Instr.meet y) : DecodeResult)) (unpack_packMJ 0x63#7 w)
theorem leave (w : MJWord) : Statement (.leave w) := by
  refine one rfl (by rw [op_packMJ 0x64#7 w]; decide) ?_
  unfold decodeWords
  rw [op_packMJ 0x64#7 w]
  exact congrArg (fun y => (Except.ok (Instr.leave y) : DecodeResult)) (unpack_packMJ 0x64#7 w)
theorem waitm (w : MJWord) : Statement (.waitm w) := by
  refine one rfl (by rw [op_packMJ 0x65#7 w]; decide) ?_
  unfold decodeWords
  rw [op_packMJ 0x65#7 w]
  exact congrArg (fun y => (Except.ok (Instr.waitm y) : DecodeResult)) (unpack_packMJ 0x65#7 w)
theorem mrd (w : KWord) : Statement (.mrd w) := by
  refine one rfl (by rw [op_packK 0x66#7 0#3 w]; decide) ?_
  unfold decodeWords
  rw [op_packK 0x66#7 0#3 w]
  show decodeSub66 _ = _
  unfold decodeSub66
  rw [sub_packK 0x66#7 0#3 w]
  exact congrArg (fun y => (Except.ok (Instr.mrd y) : DecodeResult)) (unpack_packK 0x66#7 0#3 w)
theorem mwr (w : KWord) : Statement (.mwr w) := by
  refine one rfl (by rw [op_packK 0x66#7 1#3 w]; decide) ?_
  unfold decodeWords
  rw [op_packK 0x66#7 1#3 w]
  show decodeSub66 _ = _
  unfold decodeSub66
  rw [sub_packK 0x66#7 1#3 w]
  exact congrArg (fun y => (Except.ok (Instr.mwr y) : DecodeResult)) (unpack_packK 0x66#7 1#3 w)
theorem mand (w : KWord) : Statement (.mand w) := by
  refine one rfl (by rw [op_packK 0x66#7 2#3 w]; decide) ?_
  unfold decodeWords
  rw [op_packK 0x66#7 2#3 w]
  show decodeSub66 _ = _
  unfold decodeSub66
  rw [sub_packK 0x66#7 2#3 w]
  exact congrArg (fun y => (Except.ok (Instr.mand y) : DecodeResult)) (unpack_packK 0x66#7 2#3 w)
theorem mor (w : KWord) : Statement (.mor w) := by
  refine one rfl (by rw [op_packK 0x66#7 3#3 w]; decide) ?_
  unfold decodeWords
  rw [op_packK 0x66#7 3#3 w]
  show decodeSub66 _ = _
  unfold decodeSub66
  rw [sub_packK 0x66#7 3#3 w]
  exact congrArg (fun y => (Except.ok (Instr.mor y) : DecodeResult)) (unpack_packK 0x66#7 3#3 w)
theorem mcnt (w : KWord) : Statement (.mcnt w) := by
  refine one rfl (by rw [op_packK 0x66#7 4#3 w]; decide) ?_
  unfold decodeWords
  rw [op_packK 0x66#7 4#3 w]
  show decodeSub66 _ = _
  unfold decodeSub66
  rw [sub_packK 0x66#7 4#3 w]
  exact congrArg (fun y => (Except.ok (Instr.mcnt y) : DecodeResult)) (unpack_packK 0x66#7 4#3 w)
theorem exit (w : RWord) : Statement (.exit w) := by
  refine one rfl (by rw [op_packR 0x67#7 w]; decide) ?_
  unfold decodeWords
  rw [op_packR 0x67#7 w]
  exact congrArg (fun y => (Except.ok (Instr.exit y) : DecodeResult)) (unpack_packR 0x67#7 w)
theorem shfli (w : RWord) : Statement (.shfli w) := by
  refine one rfl (by rw [op_packR 0x68#7 w]; decide) ?_
  unfold decodeWords
  rw [op_packR 0x68#7 w]
  exact congrArg (fun y => (Except.ok (Instr.shfli y) : DecodeResult)) (unpack_packR 0x68#7 w)
theorem shflu (w : RWord) : Statement (.shflu w) := by
  refine one rfl (by rw [op_packR 0x69#7 w]; decide) ?_
  unfold decodeWords
  rw [op_packR 0x69#7 w]
  exact congrArg (fun y => (Except.ok (Instr.shflu y) : DecodeResult)) (unpack_packR 0x69#7 w)
theorem shfld (w : RWord) : Statement (.shfld w) := by
  refine one rfl (by rw [op_packR 0x6A#7 w]; decide) ?_
  unfold decodeWords
  rw [op_packR 0x6A#7 w]
  exact congrArg (fun y => (Except.ok (Instr.shfld y) : DecodeResult)) (unpack_packR 0x6A#7 w)
theorem shflx (w : RWord) : Statement (.shflx w) := by
  refine one rfl (by rw [op_packR 0x6B#7 w]; decide) ?_
  unfold decodeWords
  rw [op_packR 0x6B#7 w]
  exact congrArg (fun y => (Except.ok (Instr.shflx y) : DecodeResult)) (unpack_packR 0x6B#7 w)
theorem voteAll (w : SWord) : Statement (.voteAll w) := by
  refine one rfl (by rw [op_packS 0x6C#7 0#7 w]; decide) ?_
  unfold decodeWords
  rw [op_packS 0x6C#7 0#7 w]
  show decodeSub6C _ = _
  unfold decodeSub6C
  rw [sub_packS 0x6C#7 0#7 w]
  exact congrArg (fun y => (Except.ok (Instr.voteAll y) : DecodeResult)) (unpack_packS 0x6C#7 0#7 w)
theorem voteAny (w : SWord) : Statement (.voteAny w) := by
  refine one rfl (by rw [op_packS 0x6C#7 1#7 w]; decide) ?_
  unfold decodeWords
  rw [op_packS 0x6C#7 1#7 w]
  show decodeSub6C _ = _
  unfold decodeSub6C
  rw [sub_packS 0x6C#7 1#7 w]
  exact congrArg (fun y => (Except.ok (Instr.voteAny y) : DecodeResult)) (unpack_packS 0x6C#7 1#7 w)
theorem voteBallot (w : SWord) : Statement (.voteBallot w) := by
  refine one rfl (by rw [op_packS 0x6C#7 2#7 w]; decide) ?_
  unfold decodeWords
  rw [op_packS 0x6C#7 2#7 w]
  show decodeSub6C _ = _
  unfold decodeSub6C
  rw [sub_packS 0x6C#7 2#7 w]
  exact congrArg (fun y => (Except.ok (Instr.voteBallot y) : DecodeResult)) (unpack_packS 0x6C#7 2#7 w)
theorem reduxAdd (w : SWord) : Statement (.reduxAdd w) := by
  refine one rfl (by rw [op_packS 0x6D#7 0#7 w]; decide) ?_
  unfold decodeWords
  rw [op_packS 0x6D#7 0#7 w]
  show decodeSub6D _ = _
  unfold decodeSub6D
  rw [sub_packS 0x6D#7 0#7 w]
  exact congrArg (fun y => (Except.ok (Instr.reduxAdd y) : DecodeResult)) (unpack_packS 0x6D#7 0#7 w)
theorem reduxMin (w : SWord) : Statement (.reduxMin w) := by
  refine one rfl (by rw [op_packS 0x6D#7 1#7 w]; decide) ?_
  unfold decodeWords
  rw [op_packS 0x6D#7 1#7 w]
  show decodeSub6D _ = _
  unfold decodeSub6D
  rw [sub_packS 0x6D#7 1#7 w]
  exact congrArg (fun y => (Except.ok (Instr.reduxMin y) : DecodeResult)) (unpack_packS 0x6D#7 1#7 w)
theorem reduxMax (w : SWord) : Statement (.reduxMax w) := by
  refine one rfl (by rw [op_packS 0x6D#7 2#7 w]; decide) ?_
  unfold decodeWords
  rw [op_packS 0x6D#7 2#7 w]
  show decodeSub6D _ = _
  unfold decodeSub6D
  rw [sub_packS 0x6D#7 2#7 w]
  exact congrArg (fun y => (Except.ok (Instr.reduxMax y) : DecodeResult)) (unpack_packS 0x6D#7 2#7 w)
theorem reduxAnd (w : SWord) : Statement (.reduxAnd w) := by
  refine one rfl (by rw [op_packS 0x6D#7 3#7 w]; decide) ?_
  unfold decodeWords
  rw [op_packS 0x6D#7 3#7 w]
  show decodeSub6D _ = _
  unfold decodeSub6D
  rw [sub_packS 0x6D#7 3#7 w]
  exact congrArg (fun y => (Except.ok (Instr.reduxAnd y) : DecodeResult)) (unpack_packS 0x6D#7 3#7 w)
theorem reduxOr (w : SWord) : Statement (.reduxOr w) := by
  refine one rfl (by rw [op_packS 0x6D#7 4#7 w]; decide) ?_
  unfold decodeWords
  rw [op_packS 0x6D#7 4#7 w]
  show decodeSub6D _ = _
  unfold decodeSub6D
  rw [sub_packS 0x6D#7 4#7 w]
  exact congrArg (fun y => (Except.ok (Instr.reduxOr y) : DecodeResult)) (unpack_packS 0x6D#7 4#7 w)
theorem reduxXor (w : SWord) : Statement (.reduxXor w) := by
  refine one rfl (by rw [op_packS 0x6D#7 5#7 w]; decide) ?_
  unfold decodeWords
  rw [op_packS 0x6D#7 5#7 w]
  show decodeSub6D _ = _
  unfold decodeSub6D
  rw [sub_packS 0x6D#7 5#7 w]
  exact congrArg (fun y => (Except.ok (Instr.reduxXor y) : DecodeResult)) (unpack_packS 0x6D#7 5#7 w)
theorem reduxMinu (w : SWord) : Statement (.reduxMinu w) := by
  refine one rfl (by rw [op_packS 0x6D#7 6#7 w]; decide) ?_
  unfold decodeWords
  rw [op_packS 0x6D#7 6#7 w]
  show decodeSub6D _ = _
  unfold decodeSub6D
  rw [sub_packS 0x6D#7 6#7 w]
  exact congrArg (fun y => (Except.ok (Instr.reduxMinu y) : DecodeResult)) (unpack_packS 0x6D#7 6#7 w)
theorem reduxMaxu (w : SWord) : Statement (.reduxMaxu w) := by
  refine one rfl (by rw [op_packS 0x6D#7 7#7 w]; decide) ?_
  unfold decodeWords
  rw [op_packS 0x6D#7 7#7 w]
  show decodeSub6D _ = _
  unfold decodeSub6D
  rw [sub_packS 0x6D#7 7#7 w]
  exact congrArg (fun y => (Except.ok (Instr.reduxMaxu y) : DecodeResult)) (unpack_packS 0x6D#7 7#7 w)
theorem elect (w : RWord) : Statement (.elect w) := by
  refine one rfl (by rw [op_packR 0x6E#7 w]; decide) ?_
  unfold decodeWords
  rw [op_packR 0x6E#7 w]
  exact congrArg (fun y => (Except.ok (Instr.elect y) : DecodeResult)) (unpack_packR 0x6E#7 w)
theorem qpopp (w : SWord) : Statement (.qpopp w) := by
  refine one rfl (by rw [op_packS 0x6F#7 0#7 w]; decide) ?_
  unfold decodeWords
  rw [op_packS 0x6F#7 0#7 w]
  show decodeSub6F _ = _
  unfold decodeSub6F
  rw [sub_packS 0x6F#7 0#7 w]
  exact congrArg (fun y => (Except.ok (Instr.qpopp y) : DecodeResult)) (unpack_packS 0x6F#7 0#7 w)
theorem qpeek (w : SWord) : Statement (.qpeek w) := by
  refine one rfl (by rw [op_packS 0x6F#7 1#7 w]; decide) ?_
  unfold decodeWords
  rw [op_packS 0x6F#7 1#7 w]
  show decodeSub6F _ = _
  unfold decodeSub6F
  rw [sub_packS 0x6F#7 1#7 w]
  exact congrArg (fun y => (Except.ok (Instr.qpeek y) : DecodeResult)) (unpack_packS 0x6F#7 1#7 w)
theorem qlevel (w : SWord) : Statement (.qlevel w) := by
  refine one rfl (by rw [op_packS 0x6F#7 2#7 w]; decide) ?_
  unfold decodeWords
  rw [op_packS 0x6F#7 2#7 w]
  show decodeSub6F _ = _
  unfold decodeSub6F
  rw [sub_packS 0x6F#7 2#7 w]
  exact congrArg (fun y => (Except.ok (Instr.qlevel y) : DecodeResult)) (unpack_packS 0x6F#7 2#7 w)
theorem qflush (w : SWord) : Statement (.qflush w) := by
  refine one rfl (by rw [op_packS 0x6F#7 3#7 w]; decide) ?_
  unfold decodeWords
  rw [op_packS 0x6F#7 3#7 w]
  show decodeSub6F _ = _
  unfold decodeSub6F
  rw [sub_packS 0x6F#7 3#7 w]
  exact congrArg (fun y => (Except.ok (Instr.qflush y) : DecodeResult)) (unpack_packS 0x6F#7 3#7 w)
theorem qclose (w : SWord) : Statement (.qclose w) := by
  refine one rfl (by rw [op_packS 0x6F#7 4#7 w]; decide) ?_
  unfold decodeWords
  rw [op_packS 0x6F#7 4#7 w]
  show decodeSub6F _ = _
  unfold decodeSub6F
  rw [sub_packS 0x6F#7 4#7 w]
  exact congrArg (fun y => (Except.ok (Instr.qclose y) : DecodeResult)) (unpack_packS 0x6F#7 4#7 w)
theorem ld (w : RWord) (ctl : W32) : Statement (.ld w ctl) := by
  refine two rfl (by rw [op_packR 0x70#7 w]; decide) ?_
  unfold decodeWords
  rw [op_packR 0x70#7 w]
  exact congrArg (fun y => (Except.ok (Instr.ld y ctl) : DecodeResult)) (unpack_packR 0x70#7 w)
theorem st (w : RWord) (ctl : W32) : Statement (.st w ctl) := by
  refine two rfl (by rw [op_packR 0x71#7 w]; decide) ?_
  unfold decodeWords
  rw [op_packR 0x71#7 w]
  exact congrArg (fun y => (Except.ok (Instr.st y ctl) : DecodeResult)) (unpack_packR 0x71#7 w)
theorem lds (w : RWord) (ctl : W32) : Statement (.lds w ctl) := by
  refine two rfl (by rw [op_packR 0x72#7 w]; decide) ?_
  unfold decodeWords
  rw [op_packR 0x72#7 w]
  exact congrArg (fun y => (Except.ok (Instr.lds y ctl) : DecodeResult)) (unpack_packR 0x72#7 w)
theorem sts (w : RWord) (ctl : W32) : Statement (.sts w ctl) := by
  refine two rfl (by rw [op_packR 0x73#7 w]; decide) ?_
  unfold decodeWords
  rw [op_packR 0x73#7 w]
  exact congrArg (fun y => (Except.ok (Instr.sts y ctl) : DecodeResult)) (unpack_packR 0x73#7 w)
theorem atom (w : RWord) (ctl : W32) : Statement (.atom w ctl) := by
  refine two rfl (by rw [op_packR 0x74#7 w]; decide) ?_
  unfold decodeWords
  rw [op_packR 0x74#7 w]
  exact congrArg (fun y => (Except.ok (Instr.atom y ctl) : DecodeResult)) (unpack_packR 0x74#7 w)
theorem atoms (w : RWord) (ctl : W32) : Statement (.atoms w ctl) := by
  refine two rfl (by rw [op_packR 0x75#7 w]; decide) ?_
  unfold decodeWords
  rw [op_packR 0x75#7 w]
  exact congrArg (fun y => (Except.ok (Instr.atoms y ctl) : DecodeResult)) (unpack_packR 0x75#7 w)
theorem fence (w : KWord) : Statement (.fence w) := by
  refine one rfl (by rw [op_packK 0x76#7 0#3 w]; decide) ?_
  unfold decodeWords
  rw [op_packK 0x76#7 0#3 w]
  show decodeSub76 _ = _
  unfold decodeSub76
  rw [sub_packK 0x76#7 0#3 w]
  exact congrArg (fun y => (Except.ok (Instr.fence y) : DecodeResult)) (unpack_packK 0x76#7 0#3 w)
theorem acq (w : KWord) : Statement (.acq w) := by
  refine one rfl (by rw [op_packK 0x76#7 1#3 w]; decide) ?_
  unfold decodeWords
  rw [op_packK 0x76#7 1#3 w]
  show decodeSub76 _ = _
  unfold decodeSub76
  rw [sub_packK 0x76#7 1#3 w]
  exact congrArg (fun y => (Except.ok (Instr.acq y) : DecodeResult)) (unpack_packK 0x76#7 1#3 w)
theorem rel (w : KWord) : Statement (.rel w) := by
  refine one rfl (by rw [op_packK 0x76#7 2#3 w]; decide) ?_
  unfold decodeWords
  rw [op_packK 0x76#7 2#3 w]
  show decodeSub76 _ = _
  unfold decodeSub76
  rw [sub_packK 0x76#7 2#3 w]
  exact congrArg (fun y => (Except.ok (Instr.rel y) : DecodeResult)) (unpack_packK 0x76#7 2#3 w)
theorem waita (w : RWord) (ctl : W32) : Statement (.waita w ctl) := by
  refine two rfl (by rw [op_packR 0x77#7 w]; decide) ?_
  unfold decodeWords
  rw [op_packR 0x77#7 w]
  exact congrArg (fun y => (Except.ok (Instr.waita y ctl) : DecodeResult)) (unpack_packR 0x77#7 w)
theorem cinv (w : CWord) (ctl : W32) : Statement (.cinv w ctl) := by
  refine two rfl (by rw [op_packC 0x78#7 0#7 w]; decide) ?_
  unfold decodeWords
  rw [op_packC 0x78#7 0#7 w]
  show decodeSub78 _ _ = _
  unfold decodeSub78
  rw [sub_packC 0x78#7 0#7 w]
  exact congrArg (fun y => (Except.ok (Instr.cinv y ctl) : DecodeResult)) (unpack_packC 0x78#7 0#7 w)
theorem cwb (w : CWord) (ctl : W32) : Statement (.cwb w ctl) := by
  refine two rfl (by rw [op_packC 0x78#7 1#7 w]; decide) ?_
  unfold decodeWords
  rw [op_packC 0x78#7 1#7 w]
  show decodeSub78 _ _ = _
  unfold decodeSub78
  rw [sub_packC 0x78#7 1#7 w]
  exact congrArg (fun y => (Except.ok (Instr.cwb y ctl) : DecodeResult)) (unpack_packC 0x78#7 1#7 w)
theorem cpf (w : CWord) (ctl : W32) : Statement (.cpf w ctl) := by
  refine two rfl (by rw [op_packC 0x78#7 2#7 w]; decide) ?_
  unfold decodeWords
  rw [op_packC 0x78#7 2#7 w]
  show decodeSub78 _ _ = _
  unfold decodeSub78
  rw [sub_packC 0x78#7 2#7 w]
  exact congrArg (fun y => (Except.ok (Instr.cpf y ctl) : DecodeResult)) (unpack_packC 0x78#7 2#7 w)
theorem czero (w : CWord) (ctl : W32) : Statement (.czero w ctl) := by
  refine two rfl (by rw [op_packC 0x78#7 3#7 w]; decide) ?_
  unfold decodeWords
  rw [op_packC 0x78#7 3#7 w]
  show decodeSub78 _ _ = _
  unfold decodeSub78
  rw [sub_packC 0x78#7 3#7 w]
  exact congrArg (fun y => (Except.ok (Instr.czero y ctl) : DecodeResult)) (unpack_packC 0x78#7 3#7 w)
theorem cpart (w : CWord) (ctl : W32) : Statement (.cpart w ctl) := by
  refine two rfl (by rw [op_packC 0x78#7 4#7 w]; decide) ?_
  unfold decodeWords
  rw [op_packC 0x78#7 4#7 w]
  show decodeSub78 _ _ = _
  unfold decodeSub78
  rw [sub_packC 0x78#7 4#7 w]
  exact congrArg (fun y => (Except.ok (Instr.cpart y ctl) : DecodeResult)) (unpack_packC 0x78#7 4#7 w)
theorem copy (w : XCWord) (ctl : W32) : Statement (.copy w ctl) := by
  refine two rfl (by rw [op_packXC 0x79#7 w]; decide) ?_
  unfold decodeWords
  rw [op_packXC 0x79#7 w]
  exact congrArg (fun y => (Except.ok (Instr.copy y ctl) : DecodeResult)) (unpack_packXC 0x79#7 w)
theorem mxma (w : XWord) (ctl : W32) : Statement (.mxma w ctl) := by
  refine two rfl (by rw [op_packX 0x7A#7 0#7 w]; decide) ?_
  unfold decodeWords
  rw [op_packX 0x7A#7 0#7 w]
  show decodeSub7A _ _ = _
  unfold decodeSub7A
  rw [sub_packX 0x7A#7 0#7 w]
  exact congrArg (fun y => (Except.ok (Instr.mxma y ctl) : DecodeResult)) (unpack_packX 0x7A#7 0#7 w)
theorem mxld (w : XWord) (ctl : W32) : Statement (.mxld w ctl) := by
  refine two rfl (by rw [op_packX 0x7A#7 1#7 w]; decide) ?_
  unfold decodeWords
  rw [op_packX 0x7A#7 1#7 w]
  show decodeSub7A _ _ = _
  unfold decodeSub7A
  rw [sub_packX 0x7A#7 1#7 w]
  exact congrArg (fun y => (Except.ok (Instr.mxld y ctl) : DecodeResult)) (unpack_packX 0x7A#7 1#7 w)
theorem mxst (w : XWord) (ctl : W32) : Statement (.mxst w ctl) := by
  refine two rfl (by rw [op_packX 0x7A#7 2#7 w]; decide) ?_
  unfold decodeWords
  rw [op_packX 0x7A#7 2#7 w]
  show decodeSub7A _ _ = _
  unfold decodeSub7A
  rw [sub_packX 0x7A#7 2#7 w]
  exact congrArg (fun y => (Except.ok (Instr.mxst y ctl) : DecodeResult)) (unpack_packX 0x7A#7 2#7 w)
theorem mxz (w : XWord) (ctl : W32) : Statement (.mxz w ctl) := by
  refine two rfl (by rw [op_packX 0x7A#7 3#7 w]; decide) ?_
  unfold decodeWords
  rw [op_packX 0x7A#7 3#7 w]
  show decodeSub7A _ _ = _
  unfold decodeSub7A
  rw [sub_packX 0x7A#7 3#7 w]
  exact congrArg (fun y => (Except.ok (Instr.mxz y ctl) : DecodeResult)) (unpack_packX 0x7A#7 3#7 w)
theorem ofence (w : XWord) (ctl : W32) : Statement (.ofence w ctl) := by
  refine two rfl (by rw [op_packX 0x7A#7 4#7 w]; decide) ?_
  unfold decodeWords
  rw [op_packX 0x7A#7 4#7 w]
  show decodeSub7A _ _ = _
  unfold decodeSub7A
  rw [sub_packX 0x7A#7 4#7 w]
  exact congrArg (fun y => (Except.ok (Instr.ofence y ctl) : DecodeResult)) (unpack_packX 0x7A#7 4#7 w)
theorem twany (w : SWord) : Statement (.twany w) := by
  refine one rfl (by rw [op_packS 0x7B#7 0#7 w]; decide) ?_
  unfold decodeWords
  rw [op_packS 0x7B#7 0#7 w]
  show decodeSub7B _ = _
  unfold decodeSub7B
  rw [sub_packS 0x7B#7 0#7 w]
  exact congrArg (fun y => (Except.ok (Instr.twany y) : DecodeResult)) (unpack_packS 0x7B#7 0#7 w)
theorem twall (w : SWord) : Statement (.twall w) := by
  refine one rfl (by rw [op_packS 0x7B#7 1#7 w]; decide) ?_
  unfold decodeWords
  rw [op_packS 0x7B#7 1#7 w]
  show decodeSub7B _ = _
  unfold decodeSub7B
  rw [sub_packS 0x7B#7 1#7 w]
  exact congrArg (fun y => (Except.ok (Instr.twall y) : DecodeResult)) (unpack_packS 0x7B#7 1#7 w)
theorem tffr (w : SWord) : Statement (.tffr w) := by
  refine one rfl (by rw [op_packS 0x7B#7 2#7 w]; decide) ?_
  unfold decodeWords
  rw [op_packS 0x7B#7 2#7 w]
  show decodeSub7B _ = _
  unfold decodeSub7B
  rw [sub_packS 0x7B#7 2#7 w]
  exact congrArg (fun y => (Except.ok (Instr.tffr y) : DecodeResult)) (unpack_packS 0x7B#7 2#7 w)
theorem tclr (w : SWord) : Statement (.tclr w) := by
  refine one rfl (by rw [op_packS 0x7B#7 3#7 w]; decide) ?_
  unfold decodeWords
  rw [op_packS 0x7B#7 3#7 w]
  show decodeSub7B _ = _
  unfold decodeSub7B
  rw [sub_packS 0x7B#7 3#7 w]
  exact congrArg (fun y => (Except.ok (Instr.tclr y) : DecodeResult)) (unpack_packS 0x7B#7 3#7 w)
theorem ttest (w : SWord) : Statement (.ttest w) := by
  refine one rfl (by rw [op_packS 0x7B#7 4#7 w]; decide) ?_
  unfold decodeWords
  rw [op_packS 0x7B#7 4#7 w]
  show decodeSub7B _ = _
  unfold decodeSub7B
  rw [sub_packS 0x7B#7 4#7 w]
  exact congrArg (fun y => (Except.ok (Instr.ttest y) : DecodeResult)) (unpack_packS 0x7B#7 4#7 w)
theorem rput (w : XWord) (ctl : W32) : Statement (.rput w ctl) := by
  refine two rfl (by rw [op_packX 0x7C#7 0#7 w]; decide) ?_
  unfold decodeWords
  rw [op_packX 0x7C#7 0#7 w]
  show decodeSub7C _ _ = _
  unfold decodeSub7C
  rw [sub_packX 0x7C#7 0#7 w]
  exact congrArg (fun y => (Except.ok (Instr.rput y ctl) : DecodeResult)) (unpack_packX 0x7C#7 0#7 w)
theorem rget (w : XWord) (ctl : W32) : Statement (.rget w ctl) := by
  refine two rfl (by rw [op_packX 0x7C#7 1#7 w]; decide) ?_
  unfold decodeWords
  rw [op_packX 0x7C#7 1#7 w]
  show decodeSub7C _ _ = _
  unfold decodeSub7C
  rw [sub_packX 0x7C#7 1#7 w]
  exact congrArg (fun y => (Except.ok (Instr.rget y ctl) : DecodeResult)) (unpack_packX 0x7C#7 1#7 w)
theorem ratom (w : XWord) (ctl : W32) : Statement (.ratom w ctl) := by
  refine two rfl (by rw [op_packX 0x7C#7 2#7 w]; decide) ?_
  unfold decodeWords
  rw [op_packX 0x7C#7 2#7 w]
  show decodeSub7C _ _ = _
  unfold decodeSub7C
  rw [sub_packX 0x7C#7 2#7 w]
  exact congrArg (fun y => (Except.ok (Instr.ratom y ctl) : DecodeResult)) (unpack_packX 0x7C#7 2#7 w)
theorem npost (w : XWord) (ctl : W32) : Statement (.npost w ctl) := by
  refine two rfl (by rw [op_packX 0x7C#7 3#7 w]; decide) ?_
  unfold decodeWords
  rw [op_packX 0x7C#7 3#7 w]
  show decodeSub7C _ _ = _
  unfold decodeSub7C
  rw [sub_packX 0x7C#7 3#7 w]
  exact congrArg (fun y => (Except.ok (Instr.npost y ctl) : DecodeResult)) (unpack_packX 0x7C#7 3#7 w)
theorem nflush (w : XWord) (ctl : W32) : Statement (.nflush w ctl) := by
  refine two rfl (by rw [op_packX 0x7C#7 4#7 w]; decide) ?_
  unfold decodeWords
  rw [op_packX 0x7C#7 4#7 w]
  show decodeSub7C _ _ = _
  unfold decodeSub7C
  rw [sub_packX 0x7C#7 4#7 w]
  exact congrArg (fun y => (Except.ok (Instr.nflush y ctl) : DecodeResult)) (unpack_packX 0x7C#7 4#7 w)
theorem lgrid (w : XWord) (ctl : W32) : Statement (.lgrid w ctl) := by
  refine two rfl (by rw [op_packX 0x7D#7 0#7 w]; decide) ?_
  unfold decodeWords
  rw [op_packX 0x7D#7 0#7 w]
  show decodeSub7D _ _ = _
  unfold decodeSub7D
  rw [sub_packX 0x7D#7 0#7 w]
  exact congrArg (fun y => (Except.ok (Instr.lgrid y ctl) : DecodeResult)) (unpack_packX 0x7D#7 0#7 w)
theorem etrig (w : XWord) (ctl : W32) : Statement (.etrig w ctl) := by
  refine two rfl (by rw [op_packX 0x7D#7 1#7 w]; decide) ?_
  unfold decodeWords
  rw [op_packX 0x7D#7 1#7 w]
  show decodeSub7D _ _ = _
  unfold decodeSub7D
  rw [sub_packX 0x7D#7 1#7 w]
  exact congrArg (fun y => (Except.ok (Instr.etrig y ctl) : DecodeResult)) (unpack_packX 0x7D#7 1#7 w)
theorem dist (w : XWord) (ctl : W32) : Statement (.dist w ctl) := by
  refine two rfl (by rw [op_packX 0x7D#7 2#7 w]; decide) ?_
  unfold decodeWords
  rw [op_packX 0x7D#7 2#7 w]
  show decodeSub7D _ _ = _
  unfold decodeSub7D
  rw [sub_packX 0x7D#7 2#7 w]
  exact congrArg (fun y => (Except.ok (Instr.dist y ctl) : DecodeResult)) (unpack_packX 0x7D#7 2#7 w)
theorem bar (w : SWord) : Statement (.bar w) := by
  refine one rfl (by rw [op_packS 0x7E#7 0#7 w]; decide) ?_
  unfold decodeWords
  rw [op_packS 0x7E#7 0#7 w]
  show decodeSub7E _ = _
  unfold decodeSub7E
  rw [sub_packS 0x7E#7 0#7 w]
  exact congrArg (fun y => (Except.ok (Instr.bar y) : DecodeResult)) (unpack_packS 0x7E#7 0#7 w)
theorem bara (w : SWord) : Statement (.bara w) := by
  refine one rfl (by rw [op_packS 0x7E#7 1#7 w]; decide) ?_
  unfold decodeWords
  rw [op_packS 0x7E#7 1#7 w]
  show decodeSub7E _ = _
  unfold decodeSub7E
  rw [sub_packS 0x7E#7 1#7 w]
  exact congrArg (fun y => (Except.ok (Instr.bara y) : DecodeResult)) (unpack_packS 0x7E#7 1#7 w)
theorem barw (w : SWord) : Statement (.barw w) := by
  refine one rfl (by rw [op_packS 0x7E#7 2#7 w]; decide) ?_
  unfold decodeWords
  rw [op_packS 0x7E#7 2#7 w]
  show decodeSub7E _ = _
  unfold decodeSub7E
  rw [sub_packS 0x7E#7 2#7 w]
  exact congrArg (fun y => (Except.ok (Instr.barw y) : DecodeResult)) (unpack_packS 0x7E#7 2#7 w)
theorem fbar (w : SWord) : Statement (.fbar w) := by
  refine one rfl (by rw [op_packS 0x7E#7 3#7 w]; decide) ?_
  unfold decodeWords
  rw [op_packS 0x7E#7 3#7 w]
  show decodeSub7E _ = _
  unfold decodeSub7E
  rw [sub_packS 0x7E#7 3#7 w]
  exact congrArg (fun y => (Except.ok (Instr.fbar y) : DecodeResult)) (unpack_packS 0x7E#7 3#7 w)
theorem cwait (w : SWord) : Statement (.cwait w) := by
  refine one rfl (by rw [op_packS 0x7E#7 4#7 w]; decide) ?_
  unfold decodeWords
  rw [op_packS 0x7E#7 4#7 w]
  show decodeSub7E _ = _
  unfold decodeSub7E
  rw [sub_packS 0x7E#7 4#7 w]
  exact congrArg (fun y => (Except.ok (Instr.cwait y) : DecodeResult)) (unpack_packS 0x7E#7 4#7 w)
theorem trap (w : SWord) : Statement (.trap w) := by
  refine one rfl (by rw [op_packS 0x7F#7 0#7 w]; decide) ?_
  unfold decodeWords
  rw [op_packS 0x7F#7 0#7 w]
  show decodeSub7F _ = _
  unfold decodeSub7F
  rw [sub_packS 0x7F#7 0#7 w]
  exact congrArg (fun y => (Except.ok (Instr.trap y) : DecodeResult)) (unpack_packS 0x7F#7 0#7 w)
theorem yield (w : SWord) : Statement (.yield w) := by
  refine one rfl (by rw [op_packS 0x7F#7 1#7 w]; decide) ?_
  unfold decodeWords
  rw [op_packS 0x7F#7 1#7 w]
  show decodeSub7F _ = _
  unfold decodeSub7F
  rw [sub_packS 0x7F#7 1#7 w]
  exact congrArg (fun y => (Except.ok (Instr.yield y) : DecodeResult)) (unpack_packS 0x7F#7 1#7 w)
theorem time (w : SWord) : Statement (.time w) := by
  refine one rfl (by rw [op_packS 0x7F#7 2#7 w]; decide) ?_
  unfold decodeWords
  rw [op_packS 0x7F#7 2#7 w]
  show decodeSub7F _ = _
  unfold decodeSub7F
  rw [sub_packS 0x7F#7 2#7 w]
  exact congrArg (fun y => (Except.ok (Instr.time y) : DecodeResult)) (unpack_packS 0x7F#7 2#7 w)
theorem sleep (w : SWord) : Statement (.sleep w) := by
  refine one rfl (by rw [op_packS 0x7F#7 3#7 w]; decide) ?_
  unfold decodeWords
  rw [op_packS 0x7F#7 3#7 w]
  show decodeSub7F _ = _
  unfold decodeSub7F
  rw [sub_packS 0x7F#7 3#7 w]
  exact congrArg (fun y => (Except.ok (Instr.sleep y) : DecodeResult)) (unpack_packS 0x7F#7 3#7 w)
theorem bkpt (w : SWord) : Statement (.bkpt w) := by
  refine one rfl (by rw [op_packS 0x7F#7 4#7 w]; decide) ?_
  unfold decodeWords
  rw [op_packS 0x7F#7 4#7 w]
  show decodeSub7F _ = _
  unfold decodeSub7F
  rw [sub_packS 0x7F#7 4#7 w]
  exact congrArg (fun y => (Except.ok (Instr.bkpt y) : DecodeResult)) (unpack_packS 0x7F#7 4#7 w)
theorem runIssue (core : Nat) (slice : Slice) : Statement (.runIssue core slice) := step_ rfl
theorem droverSwap (core : Nat) (slice : Slice) : Statement (.droverSwap core slice) := step_ rfl
theorem pendingLongWait (core : Nat) (slice : Slice) : Statement (.pendingLongWait core slice) := step_ rfl
theorem groupPlace (m : Nat) : Statement (.groupPlace m) := step_ rfl
theorem gridDependencyMet (m : Nat) (grid : Nat) : Statement (.gridDependencyMet m grid) := step_ rfl
theorem priorityAging (m : Nat) (region : Nat) : Statement (.priorityAging m region) := step_ rfl
theorem decoupleDeadlock (gid : Nat) (warp : Nat) : Statement (.decoupleDeadlock gid warp) := step_ rfl
theorem loadLanding (op : Nat) : Statement (.loadLanding op) := step_ rfl
theorem atomicLanding (op : Nat) : Statement (.atomicLanding op) := step_ rfl
theorem storeAck (op : Nat) : Statement (.storeAck op) := step_ rfl
theorem homeAccess (op : Nat) : Statement (.homeAccess op) := step_ rfl
theorem translationWalk (op : Nat) : Statement (.translationWalk op) := step_ rfl
theorem divisionLanding (op : Nat) : Statement (.divisionLanding op) := step_ rfl
theorem specialFunctionLanding (op : Nat) : Statement (.specialFunctionLanding op) := step_ rfl
theorem mxOperationComplete (core : Nat) : Statement (.mxOperationComplete core) := step_ rfl
theorem copyComplete (core : Nat) : Statement (.copyComplete core) := step_ rfl
theorem workRequestSend (ret : Nat) (queue : Nat) : Statement (.workRequestSend ret queue) := step_ rfl
theorem sendCompletion (op : Nat) : Statement (.sendCompletion op) := step_ rfl
theorem readLanded (op : Nat) : Statement (.readLanded op) := step_ rfl
theorem nflushComplete (op : Nat) : Statement (.nflushComplete op) := step_ rfl
theorem putPacketPlaced (pkt : Nat) : Statement (.putPacketPlaced pkt) := step_ rfl
theorem lgridResult (op : Nat) : Statement (.lgridResult op) := step_ rfl
theorem distResult (op : Nat) : Statement (.distResult op) := step_ rfl
theorem errorReturn (op : Nat) : Statement (.errorReturn op) := step_ rfl
theorem waitaWake (gid : Nat) (warp : Nat) (slice : Slice) : Statement (.waitaWake gid warp slice) := step_ rfl
theorem waitaTimeout (gid : Nat) (warp : Nat) (slice : Slice) : Statement (.waitaTimeout gid warp slice) := step_ rfl
theorem sleepExpiry (gid : Nat) (warp : Nat) (slice : Slice) : Statement (.sleepExpiry gid warp slice) := step_ rfl
theorem cwaitReturn (gid : Nat) (warp : Nat) (slice : Slice) : Statement (.cwaitReturn gid warp slice) := step_ rfl
theorem cpartComplete (ret : Nat) : Statement (.cpartComplete ret) := step_ rfl
theorem pdlcExpiry (gid : Nat) : Statement (.pdlcExpiry gid) := step_ rfl
theorem drainTimeout (gid : Nat) : Statement (.drainTimeout gid) := step_ rfl
theorem saveComplete (gid : Nat) : Statement (.saveComplete gid) := step_ rfl
theorem handlerFinish (m : Nat) (grid : Nat) : Statement (.handlerFinish m grid) := step_ rfl
theorem groupResume (m : Nat) (gid : Nat) : Statement (.groupResume m gid) := step_ rfl
theorem stagedCommit (m : Nat) (grid : Nat) : Statement (.stagedCommit m grid) := step_ rfl
theorem launch (m : Nat) (root : Nat) (queue : Nat) : Statement (.launch m root queue) := step_ rfl
theorem regionCreate (m : Nat) (root : Nat) (queue : Nat) : Statement (.regionCreate m root queue) := step_ rfl
theorem regionModify (m : Nat) (root : Nat) (queue : Nat) : Statement (.regionModify m root queue) := step_ rfl
theorem regionDestroy (m : Nat) (root : Nat) (queue : Nat) : Statement (.regionDestroy m root queue) := step_ rfl
theorem topo (m : Nat) (root : Nat) (queue : Nat) : Statement (.topo m root queue) := step_ rfl
theorem drain (m : Nat) (root : Nat) (queue : Nat) : Statement (.drain m root queue) := step_ rfl
theorem ckpt (m : Nat) (root : Nat) (queue : Nat) : Statement (.ckpt m root queue) := step_ rfl
theorem keyload (m : Nat) (root : Nat) (queue : Nat) : Statement (.keyload m root queue) := step_ rfl
theorem timesync (m : Nat) (root : Nat) (queue : Nat) : Statement (.timesync m root queue) := step_ rfl
theorem event (m : Nat) (root : Nat) (queue : Nat) : Statement (.event m root queue) := step_ rfl
theorem eventFinish (m : Nat) (root : Nat) (queue : Nat) : Statement (.eventFinish m root queue) := step_ rfl
theorem doorbellWrite (m : Nat) (door : Nat) (pidx : W32) : Statement (.doorbellWrite m door pidx) := step_ rfl
theorem coreCounterWrite (core : Nat) (idx : Nat) (value : W64) : Statement (.coreCounterWrite core idx value) := step_ rfl
theorem registerWrite (ret : Nat) (loc : Nat) (size : Nat) (value : BitVec 256) : Statement (.registerWrite ret loc size value) := step_ rfl
theorem endpointTableWrite (ret : Nat) (queue : Nat) (value : W32) : Statement (.endpointTableWrite ret queue value) := step_ rfl
theorem peerDescriptorWrite (ret : Nat) (peer : Nat) (value : BitVec 256) : Statement (.peerDescriptorWrite ret peer value) := step_ rfl
theorem barrierTreeWrite (ret : Nat) (tree : Nat) (value : BitVec 128) : Statement (.barrierTreeWrite ret tree value) := step_ rfl
theorem errorPolicyWrite (m : Nat) (idx : Nat) (value : BitVec 128) : Statement (.errorPolicyWrite m idx value) := step_ rfl
theorem wpartWrite (ret : Nat) (ways : Nat) : Statement (.wpartWrite ret ways) := step_ rfl
theorem readIdentity (m : Nat) : Statement (.readIdentity m) := step_ rfl
theorem writeModid (m : Nat) (modid : Nat) : Statement (.writeModid m modid) := step_ rfl
theorem extendMeasurement (ret : Nat) (idx : Nat) (value : BitVec 256) : Statement (.extendMeasurement ret idx value) := step_ rfl
theorem attestationRequest (ret : Nat) (nonce : BitVec 256) : Statement (.attestationRequest ret nonce) := step_ rfl
theorem loadKey (m : Nat) (key : Nat) (image : List Byte) : Statement (.loadKey m key image) := step_ rfl
theorem createRoot (m : Nat) (image : List Byte) : Statement (.createRoot m image) := step_ rfl
theorem destroyRoot (m : Nat) (root : Nat) : Statement (.destroyRoot m root) := step_ rfl
theorem restartQueue (m : Nat) (root : Nat) (queue : Nat) (pidx : W32) : Statement (.restartQueue m root queue pidx) := step_ rfl
theorem debugHalt (m : Nat) (gid : Nat) : Statement (.debugHalt m gid) := step_ rfl
theorem debugReadImage (m : Nat) (gid : Nat) (offset : Nat) (len : Nat) : Statement (.debugReadImage m gid offset len) := step_ rfl
theorem debugWriteImage (m : Nat) (gid : Nat) (offset : Nat) (data : List Byte) : Statement (.debugWriteImage m gid offset data) := step_ rfl
theorem debugResume (m : Nat) (gid : Nat) : Statement (.debugResume m gid) := step_ rfl
theorem debugDiscard (m : Nat) (gid : Nat) : Statement (.debugDiscard m gid) := step_ rfl
theorem debugAttach (m : Nat) (root : Nat) : Statement (.debugAttach m root) := step_ rfl
theorem hostRmaWrite (m : Nat) (pa : Nat) (key : Nat) (data : List Byte) : Statement (.hostRmaWrite m pa key data) := step_ rfl
theorem hostRmaRead (m : Nat) (pa : Nat) (key : Nat) (len : Nat) : Statement (.hostRmaRead m pa key len) := step_ rfl
theorem coldReset (m : Nat) : Statement (.coldReset m) := step_ rfl
theorem commandProcessorTakeover (m : Nat) : Statement (.commandProcessorTakeover m) := step_ rfl
theorem powerAlarmRaise (ret : Nat) : Statement (.powerAlarmRaise ret) := step_ rfl
theorem powerHold (ret : Nat) : Statement (.powerHold ret) := step_ rfl
theorem powerHoldRelease (ret : Nat) : Statement (.powerHoldRelease ret) := step_ rfl
theorem powerAlarmClear (ret : Nat) : Statement (.powerAlarmClear ret) := step_ rfl
theorem heartbeat (ret : Nat) (sender : Nat) (isCore : Bool) : Statement (.heartbeat ret sender isCore) := step_ rfl
theorem heartbeatMiss (ret : Nat) (sender : Nat) (isCore : Bool) (majority : Bool) : Statement (.heartbeatMiss ret sender isCore majority) := step_ rfl
theorem failureNotice (ret : Nat) (pkt : Nat) : Statement (.failureNotice ret pkt) := step_ rfl
theorem laneSelfTest (core : Nat) (failing : W32) : Statement (.laneSelfTest core failing) := step_ rfl
theorem foldMigration (ret : Nat) (fold : Nat) (spare : Nat) : Statement (.foldMigration ret fold spare) := step_ rfl
theorem siteRetire (m : Nat) (ret : Nat) (spare : Nat) : Statement (.siteRetire m ret spare) := step_ rfl
theorem shootdown (m : Nat) (root : Nat) (va : Nat) (size : Nat) : Statement (.shootdown m root va size) := step_ rfl
theorem timesyncExchange (m : Nat) (offset : Int) (rtt : Nat) : Statement (.timesyncExchange m offset rtt) := step_ rfl
theorem timesyncMiss (m : Nat) : Statement (.timesyncMiss m) := step_ rfl
theorem orderedPacketArrival (ret : Nat) (port : Nat) (pkt : Nat) : Statement (.orderedPacketArrival ret port pkt) := step_ rfl
theorem orderedDelivery (ret : Nat) : Statement (.orderedDelivery ret) := step_ rfl
theorem beaconSend (ret : Nat) (port : Nat) : Statement (.beaconSend ret port) := step_ rfl
theorem beaconReceive (ret : Nat) (port : Nat) (stamp : W64) : Statement (.beaconReceive ret port stamp) := step_ rfl
theorem watermarkStall (ret : Nat) (port : Nat) : Statement (.watermarkStall ret port) := step_ rfl
theorem portCut (ret : Nat) (port : Nat) : Statement (.portCut ret port) := step_ rfl
theorem topologyCutover (ret : Nat) : Statement (.topologyCutover ret) := step_ rfl
theorem fbarArrival (pkt : Nat) : Statement (.fbarArrival pkt) := step_ rfl
theorem fbarRelease (pkt : Nat) : Statement (.fbarRelease pkt) := step_ rfl
theorem barrierLost (ret : Nat) (tree : Nat) : Statement (.barrierLost ret tree) := step_ rfl
theorem flitReceive (ret : Nat) (port : Nat) (seq : Nat) (crcOk : Bool) : Statement (.flitReceive ret port seq crcOk) := step_ rfl
theorem meshPortDown (ret : Nat) (port : Nat) : Statement (.meshPortDown ret port) := step_ rfl
theorem noRouteTimeout (pkt : Nat) : Statement (.noRouteTimeout pkt) := step_ rfl
theorem routeSample (ret : Nat) : Statement (.routeSample ret) := step_ rfl
theorem planeStop (ret : Nat) : Statement (.planeStop ret) := step_ rfl
theorem waitack (ret : Nat) : Statement (.waitack ret) := step_ rfl
theorem retune (ret : Nat) : Statement (.retune ret) := step_ rfl
theorem waitlock (ret : Nat) : Statement (.waitlock ret) := step_ rfl
theorem waitlockTimeout (ret : Nat) : Statement (.waitlockTimeout ret) := step_ rfl
theorem planeResume (ret : Nat) : Statement (.planeResume ret) := step_ rfl
theorem planeDown (ret : Nat) : Statement (.planeDown ret) := step_ rfl
theorem ringLockLoss (ret : Nat) (ring : Nat) : Statement (.ringLockLoss ret ring) := step_ rfl
theorem ringLockReturn (ret : Nat) (ring : Nat) : Statement (.ringLockReturn ret ring) := step_ rfl
theorem ringLockTimeout (ret : Nat) (ring : Nat) : Statement (.ringLockTimeout ret ring) := step_ rfl
theorem heaterEndOfRange (ret : Nat) (ring : Nat) : Statement (.heaterEndOfRange ret ring) := step_ rfl
theorem cartridgeInsert (ret : Nat) (romOk : Bool) : Statement (.cartridgeInsert ret romOk) := step_ rfl
theorem cartridgeLockCheck (ret : Nat) : Statement (.cartridgeLockCheck ret) := step_ rfl
theorem cartridgeQuiesce (ret : Nat) : Statement (.cartridgeQuiesce ret) := step_ rfl
theorem cartridgeRemoval (ret : Nat) : Statement (.cartridgeRemoval ret) := step_ rfl
theorem cartridgePowerUp (ret : Nat) : Statement (.cartridgePowerUp ret) := step_ rfl
theorem uePeerRequest (ret : Nat) (peer : Nat) (job : Nat) (kind : Nat) (addr : Nat) (len : Nat) (data : List Byte) (imm : W32) (aop : Nat) (operand : W64) (compare : W64) : Statement (.uePeerRequest ret peer job kind addr len data imm aop operand compare) := step_ rfl
theorem ueSelectiveAck (ret : Nat) (peer : Nat) (acked : List Nat) : Statement (.ueSelectiveAck ret peer acked) := step_ rfl
theorem ueRetransmitTimeout (ret : Nat) (peer : Nat) (seq : Nat) : Statement (.ueRetransmitTimeout ret peer seq) := step_ rfl
theorem ueEcnEcho (ret : Nat) (peer : Nat) : Statement (.ueEcnEcho ret peer) := step_ rfl
theorem hostPortLinkDown (m : Nat) : Statement (.hostPortLinkDown m) := step_ rfl
theorem hostPortLinkUp (m : Nat) : Statement (.hostPortLinkUp m) := step_ rfl

end RoundTrip

end Sys2Proof.Laws
end

