-- ==== Sys2Proof/Machine/Scope.lean ====
section
/-! DEFINITION. Agents (spec/10 R223), the instance of a scope around an agent (R228, R229), and which releases and acquires can synchronise
(R230). What a release and an acquire wait for is in MemIns.lean (R232, R233): by those rules the hardware orders no less, whatever the other
agent is. -/

namespace Sys2Proof.Machine

open Sys2Proof

/-- An agent (R223): one slice of one thread, the engines of a core, the units of a reticle, a command processor, a host, or an Ultra Ethernet
peer of a reticle. -/
inductive Party where
  | slice (gid warp lane : Nat) (slice : Slice)
  | array (core : Nat)
  | sparge (core : Nat)
  | endpoint (ret : Nat)
  | walkers (ret : Nat)
  | commandProcessor (m : Nat)
  | host (m : Nat)
  | peer (ret peer : Nat)
  deriving DecidableEq, Repr

/-- The core at which an agent is. -/
def Party.core? (s : State) : Party → Option Nat
  | .slice gid _ _ _ => (mget? s.groups gid).map (·.core)
  | .array core => some core
  | .sparge core => some core
  | _ => none

/-- The reticle of which an agent is part. -/
def Party.ret? (s : State) : Party → Option Nat
  | .endpoint ret => some ret
  | .walkers ret => some ret
  | a => (a.core? s).map coreRet

/-- The module of which an agent is part: hosts and peers are part of none. -/
def Party.mod? (s : State) : Party → Option Nat
  | .commandProcessor m => some m
  | a => (a.ret? s).map modOf

/-- The modules of the wafer group of a reticle's module (R229): those of the entries in use of its group list, or its own module alone. -/
def waferGroup (s : State) (ret : Nat) : List Nat :=
  let listed := ((s.ret ret).groupList.filter (fun e => bitOf e.2.toNat 15)).map (fun e => e.2.toNat % 1024)
  if listed.isEmpty then [modOf ret] else listed

/-- A peer is admitted by the network permissions of the region of a slice's group (R228, R333). -/
def peerAdmitted (s : State) (gid ret peer : Nat) : Bool :=
  match mget? s.groups gid with
  | none => false
  | some g =>
    let d := mget (s.ret ret).peers peer 0
    bitOf (netfOf s g) 0 && peerValid d && peerRoot d == g.root && modOf ret == g.m

/-- The wafer scope: an agent of the same module, in a reticle in service or its command processor. -/
def sameWafer (s : State) (a b : Party) : Bool :=
  (a.mod? s).isSome && a.mod? s == b.mod? s && (b.ret? s).all (inService s)

/-- An agent lies in the instance of a scope around another agent (R228). -/
def inScope (s : State) (scope : Nat) (a b : Party) : Bool :=
  match scope with
  | 0 => a == b
  | 1 => match a, b with | .slice g w l _, .slice g' w' l' _ => g == g' && w == w' && l == l' | _, _ => a == b
  | 2 => match a, b with | .slice g w _ _, .slice g' w' _ _ => g == g' && w == w' | _, _ => a == b
  | 3 => match a, b with | .slice g _ _ _, .slice g' _ _ _ => g == g' | _, _ => a == b
  | 4 => (a.core? s).isSome && a.core? s == b.core? s
  | 5 => (a.core? s).isSome && (a.core? s).map (· / 4) == (b.core? s).map (· / 4)
  | 6 => (a.ret? s).isSome && a.ret? s == b.ret? s
  | 7 => sameWafer s a b
  | 8 => sameWafer s a b || (match a.ret? s, b.mod? s with | some r, some m => (waferGroup s r).contains m | _, _ => false)
  | 9 => (b.mod? s).isSome
  | 10 =>
    (match b with
     | .host _ => true
     | .peer r p => (match a with | .slice gid _ _ _ => peerAdmitted s gid r p | _ => false)
     | _ => (b.mod? s).isSome)
  | _ => false

/-- A release by an agent at a scope and an acquire by another at a scope can synchronise (R230): each lies in the other's instance. -/
def canSynchronise (s : State) (a : Party) (release : Nat) (b : Party) (acquire : Nat) : Bool :=
  inScope s release a b && inScope s acquire b a

end Sys2Proof.Machine
end

