-- ==== Sys2Proof/Safety.lean ====
section
/-! DEFINITION. The terms in which statements speak of runs: a step that goes on, an instruction that may execute, and what an instruction
leaves as it was. -/

namespace Sys2Proof

open Sys2Proof.Machine

/-- A step that goes on. -/
def Safe (s : Machine.State) : Prop := ∃ t, Machine.step s = Host.Outcome.next t

/-- k steps that all go on, each from the state the one before it left. -/
def SafeFor : Nat → Machine.State → Prop
  | 0, _ => True
  | k + 1, s => ∃ t, Machine.step s = Host.Outcome.next t ∧ SafeFor k t

namespace Machine

/-- An instruction may execute: the focus port has a run in progress in context c, the instruction's shape is h, and no check at issue turns
it away or holds it (R56, R60, R116, R117, R131, R147, R297). x says for which lanes it executes. -/
def Runs (s : State) (i : Instr) (c : Ctx) (h : Shape) (x : Issue) : Prop :=
  ctx? s = some c ∧ shape i = some h ∧ check s c i h = .go x

/-- As Runs for an instruction that a fence of its slice-warp holds back (R261): none is pending. -/
def RunsOrdered (chk : State → Ctx → Shape → Issue → Check) (s : State) (i : Instr) (c : Ctx) (h : Shape) (x : Issue) : Prop :=
  ctx? s = some c ∧ shape i = some h ∧ issueReason s c i h = none ∧ fencePending s c.sw = false ∧ chk s c h (issueLanes s c h) = .go x

/-- A thread without where it stands: its program counter, its place in a run and among the PC groups of a split, its latches and the results
it awaits. -/
def Thread.still (th : Thread) : Thread := { th with pc := 0, pos := none, splitRank := 0, latch := [], latchUni := [], pending := [] }
/-- A thread without its main and operand registers either. -/
def Thread.aside (th : Thread) : Thread := { th.still with main := [], opnd := [], mainPoison := [], opndPoison := [] }
/-- A slice-warp without the results it awaits, what its later accesses are ordered after, and the record of values its latches have held. -/
def SliceWarp.still (x : SliceWarp) : SliceWarp := { x with latchHist := [], uniPending := [], order := [] }
/-- A slice-warp without its uniform registers either. -/
def SliceWarp.aside (x : SliceWarp) : SliceWarp := { x.still with uni := [], uniPoison := [] }
/-- A core without the runs on its ports. -/
def CoreSt.still (c : CoreSt) : CoreSt := { c with portA := none, portX := none }

/-- Only slice-warps, threads, slice queues, ports and time differ: memory with its poison and keys, special and exception registers,
accumulator banks, tables, groups, regions, operations and packets in flight, and what the host was told are as they were. -/
structure Calm (s t : State) : Prop where
  rest : { t with threads := s.threads, sws := s.sws, queues := s.queues, cores := s.cores, ticks := s.ticks, free := s.free } = s
  cores : ∀ k, (t.core k).still = (s.core k).still

/-- Every byte of memory reads as before, plainly and under every key id, and every unit is poisoned as before. -/
def SameMemory (s t : State) : Prop :=
  (∀ a, t.byte a = s.byte a) ∧ (∀ id a, readByteKey t id a = readByteKey s id a) ∧ t.poison = s.poison

/-- Nothing but the program counters, the latches and time differs. -/
structure OnlyMoves (s t : State) : Prop where
  calm : Calm s t
  threads : ∀ k, (t.thread k).still = (s.thread k).still
  sws : ∀ k, (t.sw k).still = (s.sw k).still
  queues : ∀ k, t.queue k = s.queue k

/-- A register code of lane l is a destination of the instruction. -/
def writesCode (s : State) (c : Ctx) (h : Shape) (l code : Nat) : Prop :=
  ∃ u, h.write = some u ∧ h.nw = false ∧ u.name < 80 ∧ regCode (s.thread (c.th l)) u.name ≤ code
    ∧ code < regCode (s.thread (c.th l)) u.name + u.words

/-- A uniform register is a destination of the instruction. -/
def writesUni (h : Shape) (n : Nat) : Prop :=
  ∃ u, h.write = some u ∧ h.nw = false ∧ 96 ≤ u.name ∧ u.name < 112 ∧ u.name - 96 ≤ n ∧ n < u.name - 96 + u.words

/-- A queue is popped by the instruction in one of the lanes that pop, or pushed in one of its lanes (R147, R294). -/
def usesQueue (c : Ctx) (h : Shape) (x : Issue) (k : Nat) : Prop :=
  (∃ l ∈ x.pops, ∃ u ∈ h.reads, isQueueName u.name = true ∧ k = c.q l u.name)
  ∨ ∃ l ∈ x.lanes, ∃ u, h.write = some u ∧ isQueueName u.name = true ∧ k = c.q l u.name

/-- An instruction computes a value f l in each of its lanes: every destination register of a lane that executes holds its word of the value,
a uniform destination that of the lowest lane; with NW or a void destination nothing is written there; every other register, predicate, mask,
flag and queue is as it was. -/
structure Computes (s t : State) (c : Ctx) (h : Shape) (x : Issue) (f : Nat → Nat) : Prop where
  calm : Calm s t
  value : ∀ u, h.write = some u → h.nw = false → u.name < 80 → ∀ l ∈ x.lanes, ∀ k < u.words,
    readCode (t.thread (c.th l)) (regCode (s.thread (c.th l)) u.name + k) = BitVec.ofNat 32 (f l / 2 ^ (32 * k))
  uniform : ∀ u, h.write = some u → h.nw = false → 96 ≤ u.name → u.name < 112 → ∀ l, x.lanes.head? = some l → ∀ k < u.words,
    mget (t.sw c.sw).uni (u.name - 96 + k) 0 = BitVec.ofNat 32 (f l / 2 ^ (32 * k))
  others : ∀ k, (∀ l ∈ x.lanes, k ≠ c.th l) → (t.thread k).still = (s.thread k).still
  aside : ∀ k, (t.thread k).aside = (s.thread k).aside
  registers : ∀ l ∈ x.lanes, ∀ code, ¬ writesCode s c h l code → readCode (t.thread (c.th l)) code = readCode (s.thread (c.th l)) code
  flags : ∀ k, (t.sw k).aside = (s.sw k).aside
  unis : ∀ k n, (k ≠ c.sw ∨ ¬ writesUni h n) → mget (t.sw k).uni n 0 = mget (s.sw k).uni n 0
  queues : ∀ k, ¬ usesQueue c h x k → t.queue k = s.queue k

/-- A thread without its predicates either. -/
def Thread.unpred (th : Thread) : Thread := { th.still with pred := 0 }

/-- An instruction writes predicate p in each of its lanes: there it is f l; every other predicate, register, mask, flag and queue is as it
was. -/
structure SetsPredicate (s t : State) (c : Ctx) (h : Shape) (x : Issue) (p : Nat) (f : Nat → Bool) : Prop where
  calm : Calm s t
  value : ∀ l ∈ x.lanes, readPred t c l p = f l
  others : ∀ l ∈ x.lanes, ∀ q, q ≠ p → readPred t c l q = readPred s c l q
  rest : ∀ k, (t.thread k).unpred = (s.thread k).unpred
  threads : ∀ k, (∀ l ∈ x.lanes, k ≠ c.th l) → (t.thread k).still = (s.thread k).still
  sws : ∀ k, (t.sw k).still = (s.sw k).still
  queues : ∀ k, ¬ usesQueue c h x k → t.queue k = s.queue k

/-- An instruction completes with the effect that leads to s: beside it the sources that name queues pop them, and threads, latches and
time move on. -/
structure Completes (c : Ctx) (h : Shape) (x : Issue) (s t : State) : Prop where
  calm : Calm s t
  threads : ∀ k, (t.thread k).still = (s.thread k).still
  sws : ∀ k, (t.sw k).still = (s.sw k).still
  queues : ∀ k, ¬ usesQueue c h x k → t.queue k = s.queue k

/-- The flags that the lanes of an instruction raise together. -/
def flagsOf (x : Issue) (f : Nat → Fl) : Fl := x.lanes.foldl (fun a l => a ||| f l) 0

/-- A fixed-latency instruction that may execute completes, and computes f. -/
def Gives (i : Instr) (f : State → Ctx → Shape → Nat → Nat) : Prop :=
  ∀ s c h x, Runs s i c h x → ∃ t, exec i s = .next t ∧ Computes s t c h x (f s c h) ∧ SameMemory s t

/-- As Gives for an instruction that computes one word of two source words. -/
def Gives2 (i : Instr) (f : W32 → W32 → W32) : Prop :=
  Gives i (fun s c h l => (f (src32 s c h l 0) (src32 s c h l 1)).toNat)

/-- As Gives for an instruction that computes one word of one source word. -/
def Gives1 (i : Instr) (f : W32 → W32) : Prop := Gives i (fun s c h l => (f (src32 s c h l 0)).toNat)

/-- As Gives for an instruction whose lanes raise flags beside their results: they are ORed into FPFLAGS of its slice-warp. -/
def GivesF (i : Instr) (f : State → Ctx → Shape → Nat → Nat × Fl) : Prop :=
  ∀ s c h x, Runs s i c h x → ∃ t, exec i s = .next t
    ∧ Computes (mergeFlags c.sw (flagsOf x (fun l => (f s c h l).2)) s) t c h x (fun l => (f s c h l).1) ∧ SameMemory s t

/-- A compare or predicate instruction that may execute completes, and writes f to predicate p. -/
def Tests (i : Instr) (p : Nat) (f : State → Ctx → Shape → Nat → Bool) : Prop :=
  ∀ s c h x, Runs s i c h x → ∃ t, exec i s = .next t ∧ SetsPredicate s t c h x p (f s c h) ∧ SameMemory s t

/-- As Tests for a compare whose lanes raise flags. -/
def TestsF (i : Instr) (p : Nat) (f : State → Ctx → Shape → Nat → Bool × Fl) : Prop :=
  ∀ s c h x, Runs s i c h x → ∃ t, exec i s = .next t
    ∧ SetsPredicate (mergeFlags c.sw (flagsOf x (fun l => (f s c h l).2)) s) t c h x p (fun l => (f s c h l).1) ∧ SameMemory s t

/-- An instruction that may execute completes with an effect, and nothing else changes but what its sources pop. -/
def Effects (i : Instr) (f : Ctx → Shape → Issue → State → State) : Prop :=
  ∀ s c h x, Runs s i c h x → ∃ t, exec i s = .next t ∧ Completes c h x (f c h x s) t

/-- A long-latency instruction starts: with a lane that executes and a destination, its results and flags are in flight under the next free
name, to land in the registers that its destination names now; registers, flags and memory are as they were. -/
structure Starts (s t : State) (c : Ctx) (h : Shape) (x : Issue) (kind : Nat) (ready : Bool) (f : Nat → Nat) (fl : Fl) : Prop where
  calm : Calm s { t with longs := s.longs, nextId := s.nextId }
  flight : ∀ u, h.write = some u → x.lanes ≠ [] → mget? t.longs s.nextId = some
    { kind := kind, gid := c.run.gid, warp := c.run.warp, slice := c.run.slice, core := c.core, runSeq := c.run.seq, dest := destOf u.name
      vals := x.lanes.map (fun l => (l, regCode (s.thread (c.th l)) u.name, BitVec.ofNat 128 (f l)))
      words := u.words, flags := fl, ready := ready }
  others : ∀ k, k ≠ s.nextId → mget? t.longs k = mget? s.longs k
  threads : ∀ k, (t.thread k).still = (s.thread k).still
  sws : ∀ k, (t.sw k).still = (s.sw k).still
  queues : ∀ k, ¬ usesQueue c h x k → t.queue k = s.queue k

/-- A long-latency instruction that may execute completes its issue, with results and flags f in flight. -/
def Begins (i : Instr) (kind : Nat) (f : State → Ctx → Shape → Nat → Nat × Fl) : Prop :=
  ∀ s c h x, Runs s i c h x → ∃ t, exec i s = .next t
    ∧ Starts s t c h x kind true (fun l => (f s c h l).1) (flagsOf x (fun l => (f s c h l).2)) ∧ SameMemory s t

/-- A thread without its meeting register and its wait either. -/
def Thread.unheld (th : Thread) : Thread := { th.still with mr := 0, wait := .none, nextPc := 0 }
/-- A thread without its wait either. -/
def Thread.quiet (th : Thread) : Thread := { th.still with wait := .none, nextPc := 0 }
/-- A slice-warp without its lane masks either. -/
def SliceWarp.unmasked (x : SliceWarp) : SliceWarp := { x.still with masks := [] }

/-- Nothing but lane masks, meeting registers, where threads stand and wait, latches and time differs. -/
structure OnlyMeets (s t : State) : Prop where
  calm : Calm s t
  threads : ∀ k, (t.thread k).unheld = (s.thread k).unheld
  sws : ∀ k, (t.sw k).unmasked = (s.sw k).unmasked
  queues : ∀ k, t.queue k = s.queue k

/-- Lanes wait at the instruction, to go on at the run after it (R59): beside that and what the sources pop, only where threads stand,
latches and time differ. -/
structure Parks (c : Ctx) (h : Shape) (x : Issue) (lanes : List Nat) (w : Wait) (s t : State) : Prop where
  calm : Calm s t
  waits : ∀ l ∈ lanes, (t.thread (c.th l)).wait = w ∧ (t.thread (c.th l)).pc = c.run.addr ∧ (t.thread (c.th l)).pos = some c.run.pos
    ∧ (t.thread (c.th l)).nextPc = nextHeader c.run
  others : ∀ k, (∀ l ∈ lanes, k ≠ c.th l) → (t.thread k).still = (s.thread k).still
  rest : ∀ k, (t.thread k).quiet = (s.thread k).quiet
  sws : ∀ k, (t.sw k).still = (s.sw k).still
  queues : ∀ k, ¬ usesQueue c h x k → t.queue k = s.queue k

/-- A slice-warp without its count of unacknowledged stores and its fence either. -/
def SliceWarp.unsent (x : SliceWarp) : SliceWarp := { x.still with unack := 0, fence := none }
/-- A core without its L1, its counters and its results of walks either. -/
def CoreSt.unsent (c : CoreSt) : CoreSt := { c.still with l1 := [], counters := [], walkFaults := [] }

/-- Nothing but new requests in flight, L1, the queues of K, unacknowledged stores, fences, counters with the watches that their change wakes,
where threads stand and time differs: memory, every register, predicate, mask and flag, and the requests that were in flight are as they
were. -/
structure OnlySends (K : Nat → Prop) (s t : State) : Prop where
  rest : { t with cores := s.cores, threads := s.threads, sws := s.sws, queues := s.queues, flight := s.flight, nextId := s.nextId
                  ticks := s.ticks, free := s.free, watches := s.watches } = s
  woken : t.watches.Sublist s.watches
  cores : ∀ k, (t.core k).unsent = (s.core k).unsent
  threads : ∀ k, (t.thread k).still = (s.thread k).still
  sws : ∀ k, (t.sw k).unsent = (s.sw k).unsent
  queues : ∀ k, ¬ K k → t.queue k = s.queue k
  earlier : ∀ k, k < s.nextId → mget? t.flight k = mget? s.flight k
  later : s.nextId ≤ t.nextId

/-- The requests that an instruction has sent, and no others: each is as base says, each lane's part is in one of them, and the parts of one
request are related by together. -/
structure Requests (s t : State) (base : Flight) (reqs : List LaneReq) (together : LaneReq → LaneReq → Prop) : Prop where
  each : ∀ r ∈ reqs, ∃ op f, s.nextId ≤ op ∧ op < t.nextId ∧ mget? t.flight op = some f ∧ r ∈ f.lanes
  only : ∀ op, s.nextId ≤ op → op < t.nextId → ∃ f, mget? t.flight op = some f ∧ { f with lanes := [], key := 0, cached := false } = base
    ∧ f.lanes ≠ [] ∧ (∀ r ∈ f.lanes, r ∈ reqs) ∧ ∀ r ∈ f.lanes, ∀ q ∈ f.lanes, together r q

/-- A state without memory and what goes with it: poison, keys, compression, the home caches and the watches that a write wakes. -/
def State.unstored (s : State) : State :=
  { s with mem := [], poison := [], sectorKey := [], overflow := [], rawFrames := [], llc := [], watches := [] }

/-- Nothing but memory and what goes with it differs. -/
def OnlyStores (s t : State) : Prop := t.unstored = s.unstored

/-- What the host is told from s to t begins with some messages, in their order. -/
def Hears (s t : State) (msgs : List HostMsg) : Prop := ∃ rest, t.hostOut = s.hostOut ++ (msgs ++ rest)

/-- The lane pairs of a protected grid agree in every lane that executes: none has been found to differ (R143, R421). -/
def PairsAgree (s : State) (c : Ctx) (x : Issue) : Prop :=
  c.g.launch.protected = true → ∀ l ∈ x.lanes, smem (s.core c.core).differ (c.run.slice.code * 64 + l) = false

/-- A thread without its registers and the results it awaits. -/
def Thread.unlanded (th : Thread) : Thread := { th with main := [], opnd := [], mainPoison := [], opndPoison := [], pending := [] }
/-- A slice-warp without its uniform registers, its flags, its fence and the results it awaits. -/
def SliceWarp.unlanded (x : SliceWarp) : SliceWarp := { x with uni := [], uniPoison := [], uniPending := [], fpflags := 0, fence := none }
/-- A core without its counters. -/
def CoreSt.uncounted (c : CoreSt) : CoreSt := { c with counters := [] }
/-- A core without its counters and its L1. -/
def CoreSt.unlined (c : CoreSt) : CoreSt := { c with counters := [], l1 := [] }

/-- Fences may have ended, with the acquires they make: nothing else of slice-warps and cores differs (R233, R261). -/
structure FencesEnd (s t : State) : Prop where
  rest : { t with sws := s.sws, cores := s.cores } = s
  sws : ∀ k, { t.sw k with fence := (s.sw k).fence } = s.sw k
  fences : ∀ k, (t.sw k).fence = (s.sw k).fence ∨ (t.sw k).fence = none
  cores : ∀ k, { t.core k with l1 := (s.core k).l1 } = s.core k
  l1 : ∀ k, (t.core k).l1 = (s.core k).l1 ∨ (t.core k).l1 = []

/-- No group of a core is about to end: of each that runs, some thread has not ended (R48). -/
def NoneEnds (s : State) (core : Nat) : Prop :=
  ∀ gid ∈ (s.core core).groups, ∀ g, mget? s.groups gid = some g → g.phase = .running → groupExited s gid g = false

/-- A result of n words lands in slice-warp k: vals says, lane by lane, the first register and the value. A register destination of each lane
holds its word of the value, and a uniform destination that of the one lane; every other register is as it was, and so is all else but the
queues, the flags of the slice-warp, counters with the watches that their change wakes, fences that end, and that the result is no longer
awaited. -/
structure Lands (s t : State) (op k : Nat) (dest : Dest) (n : Nat) (vals : List (Nat × Nat × Nat)) : Prop where
  rest : { t with threads := s.threads, sws := s.sws, queues := s.queues, cores := s.cores, deadlock := s.deadlock
                  flight := s.flight, longs := s.longs, watches := s.watches } = s
  cores : ∀ j, (t.core j).unlined = (s.core j).unlined
  value : dest = .regs → (vals.map (·.1)).Nodup → ∀ v ∈ vals, ∀ j < n,
    readCode (t.thread (thKey k v.1)) (v.2.1 + j) = BitVec.ofNat 32 (v.2.2 / 2 ^ (32 * j))
  registers : ∀ l code, (dest = .regs → ∀ v ∈ vals, v.1 = l → code < v.2.1 ∨ v.2.1 + n ≤ code) →
    readCode (t.thread (thKey k l)) code = readCode (s.thread (thKey k l)) code
  uniform : ∀ u v, dest = .uni u → vals = [v] → ∀ j < n, mget (t.sw k).uni (u + j) 0 = BitVec.ofNat 32 (v.2.2 / 2 ^ (32 * j))
  unis : ∀ j, (∀ u, dest = .uni u → j < u ∨ u + n ≤ j) → mget (t.sw k).uni j 0 = mget (s.sw k).uni j 0
  awaited : ∀ l < 64, op ∉ (t.thread (thKey k l)).pending.map (·.2)
  aside : ∀ j, (t.thread j).unlanded = (s.thread j).unlanded ∧ (t.sw j).unlanded = (s.sw j).unlanded
  others : ∀ j, (j / 64 ≠ k → t.thread j = s.thread j) ∧ (j ≠ k → { t.sw j with fence := (s.sw j).fence } = s.sw j)
  fences : ∀ j, ((t.sw j).fence = (s.sw j).fence ∨ (t.sw j).fence = none) ∧ ((t.core j).l1 = (s.core j).l1 ∨ (t.core j).l1 = [])
  queues : (∀ q, dest ≠ .queue q) → t.queues = s.queues

/-- The threads of slice-warp k whose wait is one of p go on at the run after it; every other thread is as it was. -/
structure Wakes (s t : State) (k : Nat) (p : Wait → Prop) : Prop where
  go : ∀ j, j / 64 = k → p (s.thread j).wait → t.thread j = { s.thread j with pc := (s.thread j).nextPc, pos := none, wait := .none }
  stay : ∀ j, ¬ (j / 64 = k ∧ p (s.thread j).wait) → t.thread j = s.thread j

/-- Reticle ret becomes r and the host is told msgs; nothing else differs. -/
structure RetTurns (s t : State) (ret : Nat) (r : RetSt) (msgs : List HostMsg) : Prop where
  rest : { t with rets := s.rets, hostOut := s.hostOut } = s
  value : t.ret ret = r
  others : ∀ j, j ≠ ret → t.ret j = s.ret j
  told : t.hostOut = s.hostOut ++ msgs

/-- Module m becomes x and the host is told msgs; nothing else differs. -/
structure ModTurns (s t : State) (m : Nat) (x : ModSt) (msgs : List HostMsg) : Prop where
  rest : { t with mods := s.mods, hostOut := s.hostOut } = s
  value : t.mod m = x
  others : ∀ j, j ≠ m → t.mod j = s.mod j
  told : t.hostOut = s.hostOut ++ msgs

/-- It is the turn of a queue of a root, and a command stands at its CIDX, read as entry e, its code the given one (spec/13 R306 to R308, R310). A
queue has a turn only when nothing holds its command back (commandReady). -/
structure Arrives (s : State) (m root queue code : Nat) (q : CmdQueue) (e : Entry) : Prop where
  held : mget? (s.mod m).queues (cqKey root queue) = some q
  turn : nextCommand s m = some (root, queue)
  read : readVa s m root (q.slotVa q.cidx.toNat) 64 = some e.bs
  entry : e = ⟨root, queue, q.cidx.toNat, mget q.posters q.cidx.toNat .host, e.bs⟩
  code : fieldLE e.bs 0 1 = code

/-- A command with no reserved byte or flag set outside the operand fields it uses (spec/13 R307). -/
def Clean (e : Entry) (used : List (Nat × Nat)) : Prop :=
  strayBytes e.bs ([(0, 2), (8, 8)] ++ used) = false ∧ fieldLE e.bs 1 1 < 2

end Machine

end Sys2Proof
end

