-- ==== Sys2Proof/Certificates/Slice0/Obligations.lean ====
section
/-! DEFINITION. The statements for the provers. In each statement about an instruction, Runs s i c h x says that instruction i may execute in
state s: the focus port has a run in progress in context c, its shape is h, no check at issue turns it away or holds it, and it executes in
the lanes of x. -/

open Sys2Proof Sys2Proof.Machine

/-- spec/06 R152: the additive and multiplicative instructions, MIN and MAX, on every lane that executes; no flag, no saturation, no fault.
Every other register, predicate, mask, flag, queue and byte of memory is unchanged (Gives). -/
def Obligations.IntegerArithmetic : Prop :=
  ∀ (w : RWord) (lit : W32),
    Gives2 (.add w) (fun a b => a + b) ∧ Gives2 (.sub w) (fun a b => a - b) ∧ Gives2 (.mul w) (fun a b => a * b)
    ∧ Gives1 (.addi w) (fun a => a + w.b.signExtend 32) ∧ Gives1 (.addl w lit) (fun a => a + lit)
    ∧ Gives2 (.mulh w) (fun a b => (a.signExtend 64 * b.signExtend 64).extractLsb' 32 32)
    ∧ Gives2 (.mulhu w) (fun a b => (a.zeroExtend 64 * b.zeroExtend 64).extractLsb' 32 32)
    ∧ Gives (.madd w) (fun s c h l => (src32 s c h l 2 + src32 s c h l 0 * src32 s c h l 1).toNat)
    ∧ Gives1 (.abs w) (fun a => BitVec.ofInt 32 |a.toInt|)
    ∧ Gives2 (.min w) (fun a b => if a.toInt ≤ b.toInt then a else b) ∧ Gives2 (.max w) (fun a b => if a.toInt ≥ b.toInt then a else b)
    ∧ Gives2 (.minu w) (fun a b => if a.toNat ≤ b.toNat then a else b) ∧ Gives2 (.maxu w) (fun a b => if a.toNat ≥ b.toNat then a else b)

/-- spec/06 R155: logical instructions and shifts; a register shift takes the whole of B as its amount. -/
def Obligations.LogicAndShifts : Prop :=
  ∀ (w : RWord),
    Gives2 (.and w) (fun a b => a &&& b) ∧ Gives2 (.or w) (fun a b => a ||| b) ∧ Gives2 (.xor w) (fun a b => a ^^^ b)
    ∧ Gives2 (.andn w) (fun a b => a &&& ~~~b)
    ∧ Gives2 (.shl w) (fun a b => BitVec.ofNat 32 (a.toNat * 2 ^ b.toNat)) ∧ Gives2 (.shr w) (fun a b => BitVec.ofNat 32 (a.toNat / 2 ^ b.toNat))
    ∧ Gives2 (.sar w) (fun a b => BitVec.ofInt 32 (a.toInt / 2 ^ b.toNat))
    ∧ Gives2 (.rot w) (fun a b => a <<< (b.toNat % 32) ||| a >>> (32 - b.toNat % 32))
    ∧ Gives1 (.shli w) (fun a => BitVec.ofNat 32 (a.toNat * 2 ^ w.b.toNat)) ∧ Gives1 (.shri w) (fun a => BitVec.ofNat 32 (a.toNat / 2 ^ w.b.toNat))
    ∧ Gives1 (.sari w) (fun a => BitVec.ofInt 32 (a.toInt / 2 ^ w.b.toNat))

/-- spec/06 R156: B of the 0x1F group selects the bit counts and the bit reversal; from 4 on it raises ILLEGAL_INSTRUCTION with reason
0x22. -/
def Obligations.BitCounts : Prop :=
  (∀ (w : SWord),
    Gives1 (.clz w) (fun a => BitVec.ofNat 32 (((List.range 32).find? (fun i => a.getLsbD (31 - i))).getD 32))
    ∧ Gives1 (.ctz w) (fun a => BitVec.ofNat 32 (((List.range 32).find? (fun i => a.getLsbD i)).getD 32))
    ∧ Gives1 (.popc w) (fun a => BitVec.ofNat 32 ((List.range 32).countP (fun i => a.getLsbD i)))
    ∧ Gives1 (.brev w) (fun a => a.reverse))
  ∧ (∀ (w next : W32), bitsOf w.toNat 31 25 = 0x1F →
      (bitsOf w.toNat 10 4 = 0 → decodeWords w next = .ok (.clz (unpackS w))) ∧ (bitsOf w.toNat 10 4 = 1 → decodeWords w next = .ok (.ctz (unpackS w)))
      ∧ (bitsOf w.toNat 10 4 = 2 → decodeWords w next = .ok (.popc (unpackS w)))
      ∧ (bitsOf w.toNat 10 4 = 3 → decodeWords w next = .ok (.brev (unpackS w))))
  ∧ reasonCause 0x22 = .illegalInstruction
  ∧ ∀ (s : State) (c : Ctx), s.agenda = [] → ctx? s = some c → bitsOf c.word.toNat 31 25 = 0x1F → 4 ≤ bitsOf c.word.toNat 10 4 →
      step s = .next (reasonAt c 0x22 s)

/-- spec/06 R157 to R160 and 07 R179: bit fields, selection, moves, 64-bit sums and addresses, and the integer dot product. -/
def Obligations.FieldsMovesAndAddresses : Prop :=
  ∀ (w : RWord) (ctl : W32),
    let pos := bitsOf ctl.toNat 4 0
    let len := bitsOf ctl.toNat 10 5
    let mask : W32 := BitVec.ofNat 32 (2 ^ len - 1)
    Gives1 (.bfx w ctl) (fun a =>
      let f := a >>> pos &&& mask
      if bitOf ctl.toNat 11 then BitVec.ofInt 32 (sextInt f.toNat len) else f)
    ∧ Gives2 (.bfi w ctl) (fun a d => (d &&& ~~~(mask <<< pos)) ||| ((a &&& mask) <<< pos))
    ∧ Gives (.sel w ctl) (fun s c h l => if readPred s c l (bitsOf ctl.toNat 4 0) then srcN s c h l 0 else srcN s c h l 1)
    ∧ Gives1 (.mov w) (fun a => a) ∧ Gives (.movl w ctl) (fun _ _ _ _ => ctl.toNat)
    ∧ Gives (.addc w) (fun s c h l => (src64 s c h l 0 + src64 s c h l 1).toNat)
    ∧ Gives (.subb w) (fun s c h l => (src64 s c h l 0 - src64 s c h l 1).toNat)
    ∧ Gives (.lea w ctl) (fun s c h l =>
        (src64 s c h l 0 + (src32 s c h l 1).signExtend 64 * BitVec.ofNat 64 (2 ^ bitsOf ctl.toNat 10 8) + BitVec.ofInt 64 (mcOffset ctl)).toNat)
    ∧ Gives (.idot4 w ctl) (fun s c h l => (idot4Word ctl (src32 s c h l 0) (src32 s c h l 1) (src32 s c h l 2)).toNat)

/-- spec/06 R161 and R162: compares and predicate logic write predicate D of every lane that executes, and nothing else. -/
def Obligations.ComparesAndPredicates : Prop :=
  ∀ (w : RWord),
    let p := w.d.toNat
    let cmp := fun (i : Instr) (f : W32 → W32 → Bool) => Tests i p (fun s c h l => f (src32 s c h l 0) (src32 s c h l 1))
    cmp (.cmpeq w) (fun a b => decide (a = b)) ∧ cmp (.cmpne w) (fun a b => decide (a ≠ b))
    ∧ cmp (.cmplt w) (fun a b => decide (a.toInt < b.toInt)) ∧ cmp (.cmple w) (fun a b => decide (a.toInt ≤ b.toInt))
    ∧ cmp (.cmpltu w) (fun a b => decide (a.toNat < b.toNat)) ∧ cmp (.cmpleu w) (fun a b => decide (a.toNat ≤ b.toNat))
    ∧ cmp (.cmpeqi w) (fun a _ => decide (a.toInt = w.b.toInt)) ∧ cmp (.cmplti w) (fun a _ => decide (a.toInt < w.b.toInt))
    ∧ Tests (.pand w) p (fun s c _ l => readPred s c l w.a.toNat && readPred s c l w.b.toNat)
    ∧ Tests (.por w) p (fun s c _ l => readPred s c l w.a.toNat || readPred s c l w.b.toNat)
    ∧ Tests (.pxor w) p (fun s c _ l => xor (readPred s c l w.a.toNat) (readPred s c l w.b.toNat))
    ∧ Tests (.pmov w) p (fun s c _ l => readPred s c l w.a.toNat)

/-- spec/06 R153 with 02 R58: a division is issued, its results in flight until they land; division by zero and the overflowing case fault
nothing. -/
def Obligations.Divisions : Prop :=
  ∀ (w : RWord),
    let div := fun (i : Instr) (f : W32 → W32 → W32) =>
      Begins i 0 (fun s c h l => ((f (src32 s c h l 0) (src32 s c h l 1)).toNat, 0))
    div (.div w) (fun a b =>
      if b = 0 then 0xFFFFFFFF else if a = 0x80000000 ∧ b = 0xFFFFFFFF then 0x80000000 else BitVec.ofInt 32 (a.toInt.tdiv b.toInt))
    ∧ div (.rem w) (fun a b =>
      if b = 0 then a else if a = 0x80000000 ∧ b = 0xFFFFFFFF then 0 else BitVec.ofInt 32 (a.toInt - a.toInt.tdiv b.toInt * b.toInt))
    ∧ div (.divu w) (fun a b => if b = 0 then 0xFFFFFFFF else BitVec.ofNat 32 (a.toNat / b.toNat))
    ∧ div (.remu w) (fun a b => if b = 0 then a else BitVec.ofNat 32 (a.toNat % b.toNat))

/-- spec/07 R169, R176, R177: a special function is issued, its results and flags in flight until they land; only FSQRT reads FRM. The
result within the bound of R176 is a free value of the model (log 9). -/
def Obligations.SpecialFunctions : Prop :=
  ∀ (w : RWord),
    let sf := fun (i : Instr) (f : Nat → W32 → Nat × Fl) => Begins i 1 (fun s c h l => f (s.sw c.sw).frm.toNat (src32 s c h l 0))
    sf (.frcp w) (fun _ => sfRcp) ∧ sf (.frsq w) (fun _ => sfRsq) ∧ sf (.fexp2 w) (fun _ => sfExp2) ∧ sf (.flog2 w) (fun _ => sfLog2)
    ∧ sf (.fsin w) (fun _ => sfSin) ∧ sf (.fcos w) (fun _ => sfCos) ∧ sf (.ftanh w) (fun _ => sfTanh) ∧ sf (.fsqrt w) sfSqrt

/-- spec/07 R167, R171 to R175: fp32 arithmetic under FRM, with the flags of the lanes ORed into FPFLAGS of the slice-warp. -/
def Obligations.FloatingArithmetic : Prop :=
  ∀ (w : RWord),
    let fp := fun (i : Instr) (f : Nat → Nat → Nat → Nat × Fl) =>
      GivesF i (fun s c h l => f (s.sw c.sw).frm.toNat (srcN s c h l 0) (srcN s c h l 1))
    fp (.fadd w) fp32.add ∧ fp (.fsub w) fp32.sub ∧ fp (.fmul w) fp32.mul
    ∧ GivesF (.ffma w) (fun s c h l => fp32.fma (s.sw c.sw).frm.toNat (srcN s c h l 0) (srcN s c h l 1) (srcN s c h l 2))
    ∧ fp (.fmin w) (fun _ a b => fvMinMax false a b) ∧ fp (.fmax w) (fun _ a b => fvMinMax true a b)
    ∧ GivesF (.fneg w) (fun s c h l => signOp (fun x => (x + 2 ^ 31) % 2 ^ 32) (srcN s c h l 0))
    ∧ GivesF (.fabs w) (fun s c h l => signOp (fun x => x % 2 ^ 31) (srcN s c h l 0))
    ∧ GivesF (.frnd w) (fun s c h l => fvRnd (if w.b.toNat = 4 then (s.sw c.sw).frm.toNat else w.b.toNat) (srcN s c h l 0))

/-- spec/07 R178 to R182: packed halves, the tf8 dot product and the conversions. -/
def Obligations.PackedDotsAndConversions : Prop :=
  ∀ (w : RWord) (ctl : W32),
    let p2 := fun (i : Instr) (f : Nat → Nat → Nat → Nat × Fl) =>
      GivesF i (fun s c h l => packed (fun a b _ => f (s.sw c.sw).frm.toNat a b) (srcN s c h l 0) (srcN s c h l 1) 0)
    let p3 := fun (i : Instr) (f : Fmt) =>
      GivesF i (fun s c h l => packed (f.fma (s.sw c.sw).frm.toNat) (srcN s c h l 0) (srcN s c h l 1) (srcN s c h l 2))
    p2 (.hadd2 w) fp16.add ∧ p2 (.hmul2 w) fp16.mul ∧ p3 (.hfma2 w) fp16 ∧ p2 (.badd2 w) bf16.add ∧ p2 (.bmul2 w) bf16.mul
    ∧ p3 (.bfma2 w) bf16
    ∧ GivesF (.tdot4 w) (fun s c h l => tdot4Word (src32 s c h l 0) (src32 s c h l 1) (src32 s c h l 2))
    ∧ GivesF (.fcvt w ctl) (fun s c h l => fcvtWord (s.sw c.sw).frm.toNat ctl (srcN s c h l 0))
    ∧ GivesF (.fcvts w ctl) (fun s c h l => fcvtsWord (c.g.launch.slot (bitsOf ctl.toNat 2 0)) ctl (srcN s c h l 0) (srcN s c h l 1))

/-- spec/07 R174: fp32 compares write predicate D: false with a NaN, but for FCMPUN, which is true exactly then; FCMPLT and FCMPLE raise NV
on any NaN, the others on a signalling one. -/
def Obligations.FloatingCompares : Prop :=
  ∀ (w : RWord),
    let fc := fun (i : Instr) (f : FV → FV → Bool × Fl) =>
      TestsF i w.d.toNat (fun s c h l => f (fp32.read (srcN s c h l 0)) (fp32.read (srcN s c h l 1)))
    fc (.fcmpeq w) (fun a b => (!a.isNan && !b.isNan && fvCmp a b == .eq, flIf (a.isSig || b.isSig) flNV))
    ∧ fc (.fcmplt w) (fun a b => (!a.isNan && !b.isNan && fvCmp a b == .lt, flIf (a.isNan || b.isNan) flNV))
    ∧ fc (.fcmple w) (fun a b => (!a.isNan && !b.isNan && fvCmp a b != .gt, flIf (a.isNan || b.isNan) flNV))
    ∧ fc (.fcmpun w) (fun a b => (a.isNan || b.isNan, flIf (a.isSig || b.isSig) flNV))

/-- spec/06 R164, 08 R198, 14 R320, R321, R342, 16 R392: reads of system registers, of fabric time, of lane masks, of tags and of queues. -/
def Obligations.SpecialReads : Prop :=
  ∀ (w : RWord) (v : SWord) (k : KWord) (ctl : W32),
    Gives (.rds w ctl) (fun s c _ l => sysregRead s c l (sysregOf ctl)) ∧ Gives (.time v) (fun s c _ _ => wtime s c.ret)
    ∧ Gives (.mrd k) (fun s c _ _ => (getMask s c k.k.toNat).toNat)
    ∧ Gives (.mcnt k) (fun s c _ _ => (List.range 64).countP (fun l => (getMask s c k.k.toNat).getLsbD l))
    ∧ Gives (.tffr v) (fun s c h l =>
        ((List.range 64).find? (fun n => mget c.g.tags n 0 == 0 && (src64 s c h l 0).getLsbD n)).getD 64)
    ∧ Gives (.ttest v) (fun s c h l => (tagsReg c.g &&& src64 s c h l 0).toNat)
    ∧ Gives (.qpeek v) (fun s c _ l => (queueValue (s.queueNow (c.q l v.a.toNat)) 0).toNat)
    ∧ Gives (.qlevel v) (fun s c _ l =>
        let q := s.queueNow (c.q l v.a.toNat)
        presentEntries q + q.entries.length * 2 ^ 8 + (if q.closed then 2 ^ 16 else 0))

/-- spec/08 R199 to R201: each executing lane of a shuffle takes A of its source lane when that lane executes too, else its own; a ballot
gives every lane the set of executing lanes whose predicate is 1; a reduction combines A over the executing lanes. -/
def Obligations.Exchanges : Prop :=
  ∀ (w : RWord) (v : SWord),
    let active := fun (s : State) (c : Ctx) (h : Shape) => (issueLanes s c h).lanes
    let shfl := fun (i : Instr) (src : Nat → Nat → Int) => Gives i (fun s c h l =>
      let y := src l (srcN s c h l 1)
      if 0 ≤ y ∧ y < c.width ∧ y.toNat ∈ active s c h then srcN s c h y.toNat 0 else srcN s c h l 0)
    let redux := fun (i : Instr) (f : W32 → W32 → W32) => Gives i (fun s c h _ =>
      (match (active s c h).map (fun l => src32 s c h l 0) with
       | [] => 0
       | y :: ys => ys.foldl f y).toNat)
    shfl (.shfli w) (fun _ b => b) ∧ shfl (.shflu w) (fun l b => (l : Int) - b) ∧ shfl (.shfld w) (fun l b => (l : Int) + b)
    ∧ shfl (.shflx w) (fun l b => ((l ^^^ b : Nat) : Int))
    ∧ Gives (.voteBallot v) (fun s c h _ => (laneSet ((active s c h).filter (fun l => readPred s c l v.a.toNat))).toNat)
    ∧ redux (.reduxAdd v) (fun a b => a + b)
    ∧ redux (.reduxMin v) (fun a b => if a.toInt ≤ b.toInt then a else b) ∧ redux (.reduxMax v) (fun a b => if a.toInt ≥ b.toInt then a else b)
    ∧ redux (.reduxMinu v) (fun a b => if a.toNat ≤ b.toNat then a else b) ∧ redux (.reduxMaxu v) (fun a b => if a.toNat ≥ b.toNat then a else b)
    ∧ redux (.reduxAnd v) (fun a b => a &&& b) ∧ redux (.reduxOr v) (fun a b => a ||| b) ∧ redux (.reduxXor v) (fun a b => a ^^^ b)

/-- spec/08 R200 and R202: VOTE.ALL and VOTE.ANY write one outcome to predicate D of every executing lane; ELECT writes 1 in the lowest
executing lane and 0 in the others. -/
def Obligations.VotesAndElection : Prop :=
  ∀ (w : RWord) (v : SWord),
    Tests (.voteAll v) v.d.toNat (fun s c h _ => decide (∀ l ∈ (issueLanes s c h).lanes, readPred s c l v.a.toNat = true))
    ∧ Tests (.voteAny v) v.d.toNat (fun s c h _ => decide (∃ l ∈ (issueLanes s c h).lanes, readPred s c l v.a.toNat = true))
    ∧ Tests (.elect w) w.d.toNat (fun s c h l => decide ((issueLanes s c h).lanes.head? = some l))

/-- spec/14 R320 with 13 R297, R300: QPOPP writes whether the popped value is not zero and removes the head; QFLUSH discards every entry and
counts the FAULTED and POISONED ones as silent faults; QCLOSE closes; each in the executing lanes alone. -/
def Obligations.QueueOperations : Prop :=
  ∀ (v : SWord) (s : State) (c : Ctx) (h : Shape) (x : Issue),
    let q := v.a.toNat
    let ours := fun k => ∃ l ∈ x.lanes, k = c.q l q
    (Runs s (.qpopp v) c h x → ∃ t u, exec (.qpopp v) s = .next t ∧ SameMemory s t
      ∧ SetsPredicate u t c h x v.d.toNat (fun l => queueValue (s.queueNow (c.q l q)) 0 != 0)
      ∧ { u with queues := s.queues } = s ∧ (∀ k, ¬ ours k → u.queue k = s.queue k)
      ∧ ∀ l ∈ x.lanes, u.queue (c.q l q) = { s.queue (c.q l q) with entries := (s.queue (c.q l q)).entries.drop 1 })
    ∧ (Runs s (.qflush v) c h x → ∃ t u, exec (.qflush v) s = .next t ∧ SameMemory s t ∧ OnlyMoves u t
      ∧ { u with queues := s.queues, cores := s.cores, watches := s.watches } = s ∧ u.watches.Sublist s.watches
      ∧ (∀ k, ¬ ours k → u.queue k = s.queue k)
      ∧ (∀ l ∈ x.lanes, u.queue (c.q l q) = { s.queue (c.q l q) with entries := [] })
      ∧ (∀ k, k ≠ c.core → u.core k = s.core k)
      ∧ u.core c.core = { s.core c.core with counters := (u.core c.core).counters }
      ∧ (∀ k, k ≠ 7 → mget (u.core c.core).counters k 0 = mget (s.core c.core).counters k 0)
      ∧ mget (u.core c.core).counters 7 0 = mget (s.core c.core).counters 7 0
          + BitVec.ofNat 64 ((x.lanes.map (fun l => silentEntries (s.queue (c.q l q)))).sum))
    ∧ (Runs s (.qclose v) c h x → ∃ t u, exec (.qclose v) s = .next t ∧ SameMemory s t ∧ OnlyMoves u t
      ∧ { u with queues := s.queues } = s ∧ (∀ k, ¬ ours k → u.queue k = s.queue k)
      ∧ ∀ l ∈ x.lanes, u.queue (c.q l q) = { s.queue (c.q l q) with closed := true })

/-- spec/06 R150, R163, R165 and 07 R183, R184: NOP changes nothing; WBASE sets WB of each executing lane; FSETRM sets FRM; WRS writes
FPFLAGS, FPEN, FRM or WMLIM from its lowest executing lane, reserved bits ignored and a WMLIM below 3,200 ignored; FFLAG reads FPFLAGS into
D, once no special function of the slice-warp is in flight, and FFLAG.CLR clears it in the same step. -/
def Obligations.ControlRegisters : Prop :=
  ∀ (w : RWord) (v : SWord) (ctl : W32),
    Effects (.nop w) (fun _ _ _ s => s)
    ∧ Effects (.wbase w) (fun c _ x s => x.lanes.foldl (fun t l => updTh (c.th l) (fun th => { th with wb := w.b.toNat }) t) s)
    ∧ Effects (.fsetrm w) (fun c _ x s => if x.lanes = [] then s else updSw c.sw (fun y => { y with frm := BitVec.ofNat 2 w.b.toNat }) s)
    ∧ Effects (.wrs w ctl) (fun c h x s =>
        match x.lanes with
        | [] => s
        | l :: _ =>
          let a := src32 s c h l 0
          if sysregOf ctl = 0x000 then updSw c.sw (fun y => { y with fpflags := a.extractLsb' 0 5 }) s
          else if sysregOf ctl = 0x001 then updSw c.sw (fun y => { y with fpen := a.extractLsb' 0 5 }) s
          else if sysregOf ctl = 0x002 then updSw c.sw (fun y => { y with frm := a.extractLsb' 0 2 }) s
          else if sysregOf ctl = 0x043 ∧ 3200 ≤ a.toNat then updRet c.ret (fun r => { r with wmlim := a }) s
          else s)
    ∧ ∀ (s : State) (c : Ctx) (h : Shape) (x : Issue), sfuPending s c.run.gid c.run.warp c.run.slice = false →
      (Runs s (.fflagRd v) c h x → ∃ t, exec (.fflagRd v) s = .next t ∧ Computes s t c h x (fun _ => (s.sw c.sw).fpflags.toNat) ∧ SameMemory s t)
      ∧ (Runs s (.fflagClr v) c h x → ∃ t, exec (.fflagClr v) s = .next t ∧ SameMemory s t
          ∧ Computes (if x.lanes = [] then s else updSw c.sw (fun y => { y with fpflags := 0 }) s) t c h x (fun _ => (s.sw c.sw).fpflags.toNat))

/-- spec/08 R189, R190 with 04 R102: the executing lanes of a branch or a call leave the run and stand at the word's own address plus four
times its offset, those of JMPR at CODE plus four times the low word of A; a call writes o15 with the word offset from CODE of the header
after its run. No other register, predicate, mask, flag, queue or byte of memory changes. -/
def Obligations.Branches : Prop :=
  ∀ (j : JWord) (w : RWord) (s : State) (c : Ctx) (h : Shape) (x : Issue),
    let goto := fun (t : State) (f : Nat → W64) => ∀ l ∈ x.lanes, (t.thread (c.th l)).pc = f l ∧ (t.thread (c.th l)).pos = none
    (Runs s (.bra j) c h x → ∃ t, exec (.bra j) s = .next t ∧ OnlyMoves s t ∧ SameMemory s t ∧ goto t (fun _ => c.pc + BitVec.ofInt 64 (4 * j.off.toInt)))
    ∧ (Runs s (.call j) c h x → ∃ t, exec (.call j) s = .next t ∧ Calm s t ∧ SameMemory s t ∧ goto t (fun _ => c.pc + BitVec.ofInt 64 (4 * j.off.toInt))
      ∧ (∀ l ∈ x.lanes, ∀ k, readCode (t.thread (c.th l)) k
          = if k = 256 + 15 then BitVec.ofNat 32 ((nextHeader c.run - BitVec.ofNat 64 c.g.launch.code).toNat / 4) else readCode (s.thread (c.th l)) k)
      ∧ (∀ k, (∀ l ∈ x.lanes, k ≠ c.th l) → (t.thread k).still = (s.thread k).still) ∧ (∀ k, (t.thread k).aside = (s.thread k).aside)
      ∧ (∀ k, (t.sw k).still = (s.sw k).still) ∧ ∀ k, t.queue k = s.queue k)
    ∧ (Runs s (.jmpr w) c h x → ∃ t, exec (.jmpr w) s = .next t ∧ Completes c h x s t ∧ SameMemory s t
      ∧ goto t (fun l => BitVec.ofNat 64 (c.g.launch.code + 4 * (src32 s c h l 0).toNat)))

/-- spec/08 R191 to R195, R198: MEET, LEAVE, WAITM, MWR, MAND and MOR complete whenever they may execute. MEET and LEAVE write the mask's bits and
the meeting registers of the executing lanes; MWR, MAND and MOR write a mask whole, its bits at or above W excepted. After a LEAVE or a write
a mask is released only when each of its threads is held, with a valid meeting register, and the release ends the mask and those registers; a
mask that no other shares a thread with and all of whose threads are held is released at once. WAITM makes the executing lanes of the mask
wait, or lets them go on at the next run when every other thread of the mask waits there already. Registers, flags, queues and memory are as
they were. -/
def Obligations.Meetings : Prop :=
  ∀ (m : MJWord) (k : KWord) (s : State) (c : Ctx) (h : Shape) (x : Issue),
    let low : W64 := BitVec.ofNat 64 (2 ^ c.width - 1)
    let wait := fun (l : Nat) => (s.thread (c.th l)).wait
    let held := fun (t : State) (v : W64) => v ≠ 0 ∧ ∀ l ∈ lanesOf v,
      (wait l = .held ∨ mrLabel (s.thread (c.th l)) = some (t.thread (c.th l)).pc) ∧ (t.thread (c.th l)).wait = .none
        ∧ (t.thread (c.th l)).mr.getLsbD 0 = false
    let settled := fun (t : State) (j : Nat) (v : W64) =>
      (getMask t c j = v ∨ getMask t c j = 0 ∧ held t v)
      ∧ (v ≠ 0 → (∀ l ∈ lanesOf v, wait l = .held) → (∀ n ≠ j, getMask s c n = 0) → getMask t c j = 0)
    let writes := fun (i : Instr) (f : W64 → W64 → W64) =>
      Runs s i c h x → ∃ t, exec i s = .next t ∧ OnlyMeets s t ∧ SameMemory s t
        ∧ (∀ l, x.lanes.head? = some l → settled t k.k.toNat (f (getMask s c k.k.toNat) (src64 s c h l 0) &&& low))
        ∧ (x.lanes = [] → OnlyMoves s t)
    (Runs s (.meet m) c h x → ∃ t, exec (.meet m) s = .next t ∧ OnlyMeets s t ∧ SameMemory s t
      ∧ getMask t c m.k.toNat = ((getMask s c m.k.toNat &&& ~~~c.run.lanes) ||| laneSet x.lanes) &&& low
      ∧ ∀ l ∈ x.lanes, (t.thread (c.th l)).mr = (c.pc + BitVec.ofInt 64 (4 * m.off.toInt)) ||| 1)
    ∧ (Runs s (.leave m) c h x → ∃ t, exec (.leave m) s = .next t ∧ OnlyMeets s t ∧ SameMemory s t
      ∧ settled t m.k.toNat ((getMask s c m.k.toNat &&& ~~~laneSet x.lanes) &&& low)
      ∧ ∀ l ∈ x.lanes, hasLane (getMask t c m.k.toNat) l = false ∧ (t.thread (c.th l)).mr.getLsbD 0 = false)
    ∧ (sfuPending s c.run.gid c.run.warp c.run.slice = false → fpTest s c = 0 →
      Runs s (.waitm m) c h x → ∃ t, exec (.waitm m) s = .next t ∧ OnlyMeets s t ∧ SameMemory s t
        ∧ ∀ l ∈ x.lanes, hasLane (getMask s c m.k.toNat) l = true →
          ((∃ j ∈ lanesOf (getMask s c m.k.toNat), j ∉ x.lanes ∧ wait j ≠ .waitm m.k.toNat) →
            (t.thread (c.th l)).wait = .waitm m.k.toNat ∧ (t.thread (c.th l)).nextPc = nextHeader c.run)
          ∧ ((∀ j ∈ lanesOf (getMask s c m.k.toNat), j ∈ x.lanes ∨ wait j = .waitm m.k.toNat) →
            (t.thread (c.th l)).wait = .none ∧ (t.thread (c.th l)).pc = nextHeader c.run ∧ (t.thread (c.th l)).pos = none))
    ∧ writes (.mwr k) (fun _ v => v) ∧ writes (.mand k) (fun o v => o &&& v) ∧ writes (.mor k) (fun o v => o ||| v)

/-- spec/11 R250, R253, R254: a load whose lanes can all be performed sends one request for each 128-byte line, or bank word of scratchpad,
that its lanes touch, under one key id and caching; its destination is that of D. Memory and registers are as they were: the value lands
later (LoadLandings). -/
def Obligations.Loads : Prop :=
  ∀ (w : RWord) (ctl : W32) (s : State) (c : Ctx) (h : Shape) (x : Issue),
    let load := fun (i : Instr) (scratch : Bool) =>
      let ps := accessPlans s c h x ctl scratch .read
      RunsOrdered queueCheck s i c h x → (∀ p ∈ ps, ∃ pa e, p.plan = .ok pa e) →
      ∃ t, exec i s = .next t ∧ OnlySends (usesQueue c h x) s t ∧ SameMemory s t
        ∧ Requests s t { baseFlight s c .load (2 ^ mcSize ctl) (sizeWords (mcSize ctl)) (destOf w.d.toNat) scratch with
            sx := mcSx ctl, stream := mcPolicy ctl == 1 }
          ((okPlans ps).map (fun p => laneReq s c w.d.toNat p 0 0)) (fun r q => requestUnit r.pa = requestUnit q.pa)
    load (.ld w ctl) false ∧ load (.lds w ctl) true

/-- spec/11 R250, R253, R256, R257 with 18 R421: ST and STS complete when each of their lanes translates and passes its checks, lane pairs agree
where the grid is protected, and UNACK has room for the requests: each lane's bytes of D are in a request of its line, and UNACK counts one
for each request. When UNACK would pass 255 the instruction sends nothing and time passes. Memory changes when the store is performed
(HomeAccesses). -/
def Obligations.Stores : Prop :=
  ∀ (w : RWord) (ctl : W32) (s : State) (c : Ctx) (h : Shape) (x : Issue),
    let store := fun (i : Instr) (scratch : Bool) =>
      let ps := accessPlans s c h x ctl scratch .write
      let n := 2 ^ mcSize ctl
      let reqs := (okPlans ps).map (fun p => laneReq s c 127 p (srcN s c h p.1 2 % 2 ^ (8 * n)) 0)
      RunsOrdered queueCheck s i c h x → (∀ p ∈ ps, ∃ pa e, p.plan = .ok pa e) → PairsAgree s c x →
      ((s.sw c.sw).unack + (gather (requestKey (okPlans ps)) reqs).length ≤ 255 →
        ∃ t, exec i s = .next t ∧ OnlySends (usesQueue c h x) s t ∧ SameMemory s t
          ∧ Requests s t (baseFlight s c .store n 0 .drop scratch) reqs (fun r q => requestUnit r.pa = requestUnit q.pa)
          ∧ t.nextId = s.nextId + (gather (requestKey (okPlans ps)) reqs).length
          ∧ (t.sw c.sw).unack = (s.sw c.sw).unack + (gather (requestKey (okPlans ps)) reqs).length)
      ∧ (255 < (s.sw c.sw).unack + (gather (requestKey (okPlans ps)) reqs).length → ∃ t, exec i s = .next t ∧ OnlySends (fun _ => False) s t
          ∧ SameMemory s t ∧ t.nextId = s.nextId ∧ t.threads = s.threads ∧ (t.sw c.sw).unack = (s.sw c.sw).unack)
    store (.st w ctl) false ∧ store (.sts w ctl) true

/-- spec/11 R258, R259: ATOM and ATOMS complete when each of their lanes translates and passes its checks and, with REL, the release is done: each
lane's operand is in a request, one for each location (one for each lane with exch and cas). With REL, while the release is not done nothing is
sent and time passes. With ACQ an acquire follows, which waits for the atomic's own requests too. Memory changes at its home (HomeAccesses). -/
def Obligations.Atomics : Prop :=
  ∀ (w : RWord) (ctl : W32) (s : State) (c : Ctx) (h : Shape) (x : Issue),
    let atom := fun (i : Instr) (scratch : Bool) (ps : List LanePlan) =>
      let n := if acWide ctl then 8 else 4
      let one := acAop ctl = 11 ∨ acAop ctl = 12
      let reqs := (okPlans ps).map (fun p => laneReq s c w.d.toNat p (srcN s c h p.1 1) (srcN s c h p.1 2))
      RunsOrdered queueCheck s i c h x →
      (acRel ctl = true → releaseDone s c (mcScope ctl) = false → ∃ t, exec i s = .next t ∧ OnlySends (fun _ => False) s t ∧ SameMemory s t
        ∧ t.nextId = s.nextId ∧ t.threads = s.threads ∧ t.ticks = s.ticks + 8)
      ∧ ((acRel ctl = true → releaseDone s c (mcScope ctl) = true) → (∀ p ∈ ps, ∃ pa e, p.plan = .ok pa e) → PairsAgree s c x →
        ∃ t, exec i s = .next t ∧ OnlySends (usesQueue c h x) s t ∧ SameMemory s t
          ∧ Requests s t { baseFlight s c .atomic n (if acWide ctl then 2 else 1) (destOf w.d.toNat) scratch with
              aop := acAop ctl, wide := acWide ctl } reqs (fun r q => if one then r = q else r.pa = q.pa)
          ∧ t.nextId = s.nextId + (atomicGroups (acAop ctl) reqs).length
          ∧ (acAcq ctl = true → ∃ f, (t.sw c.sw).fence = some f ∧ f.scope = mcScope ctl ∧ f.acquire = true
            ∧ ∀ op, s.nextId ≤ op → op < t.nextId → op ∈ f.ops))
    atom (.atom w ctl) false (x.lanes.map (fun l =>
      let ea : Int := ((BitVec.ofNat 64 (srcN s c h l 0) + BitVec.ofInt 64 (mcOffset ctl)).toNat : Int)
      lanePlan s c h l ea (fun _ => planVirtual s c .both (BitVec.ofInt 64 ea) (if acWide ctl then 8 else 4))))
    ∧ atom (.atoms w ctl) true (x.lanes.map (fun l =>
      let ea : Int := ((srcN s c h l 0 % 2 ^ 32 : Nat) : Int) + mcOffset ctl
      lanePlan s c h l ea (fun _ => planSpad s c .both ea (if acWide ctl then 8 else 4))))

/-- spec/11 R260 with 10 R228 to R233: once its delivery point lets it go, a fence of the slice-warp waits for the operations of its release,
or of its acquire; with none in flight it is complete, and an acquire at core scope or wider has emptied L1. A release and an acquire can
synchronise only when each agent lies in the other's instance of its scope; the instances around a slice grow with the scope. -/
def Obligations.Fences : Prop :=
  ∀ (k : KWord) (s : State) (c : Ctx) (h : Shape) (x : Issue),
    let fence := fun (i : Instr) (rel acq : Bool) =>
      let ops := if rel then releaseOps s c k.k.toNat else readsBefore s c
      RunsOrdered operandCheck s i c h x → x.lanes ≠ [] → sfuPending s c.run.gid c.run.warp c.run.slice = false → fpTest s c = 0 →
      ∃ t, exec i s = .next t ∧ OnlySends (usesQueue c h x) s t ∧ SameMemory s t ∧ t.flight = s.flight ∧ t.nextId = s.nextId
        ∧ (ops ≠ [] → (t.sw c.sw).fence = some ⟨k.k.toNat, ops, acq⟩)
        ∧ (ops = [] → (t.sw c.sw).fence = none ∧ (acq = true → 4 ≤ k.k.toNat → (t.core c.core).l1 = []))
    (fence (.fence k) true true ∧ fence (.acq k) false true ∧ fence (.rel k) true false)
    ∧ (∀ (a b : Party) (release acquire : Nat), canSynchronise s a release b acquire = true →
        inScope s release a b = true ∧ inScope s acquire b a = true)
    ∧ (∀ (gid warp lane : Nat) (slice : Slice) (b : Party) (inner outer : Nat), (mget? s.groups gid).isSome = true →
        (∀ r, b.ret? s = some r → inService s r = true) → inner ≤ outer → outer ≤ 10 →
        inScope s inner (.slice gid warp lane slice) b = true → inScope s outer (.slice gid warp lane slice) b = true)
    ∧ (∀ (gid warp lane gid' warp' lane' : Nat) (slice slice' : Slice) (g g' : Group), mget? s.groups gid = some g → mget? s.groups gid' = some g' →
        let a := Party.slice gid warp lane slice
        let b := Party.slice gid' warp' lane' slice'
        (inScope s 0 a b = true ↔ gid = gid' ∧ warp = warp' ∧ lane = lane' ∧ slice = slice')
        ∧ (inScope s 1 a b = true ↔ gid = gid' ∧ warp = warp' ∧ lane = lane') ∧ (inScope s 2 a b = true ↔ gid = gid' ∧ warp = warp')
        ∧ (inScope s 3 a b = true ↔ gid = gid') ∧ (inScope s 4 a b = true ↔ g.core = g'.core)
        ∧ (inScope s 5 a b = true ↔ g.core / 4 = g'.core / 4) ∧ (inScope s 6 a b = true ↔ coreRet g.core = coreRet g'.core)
        ∧ (inScope s 7 a b = true ↔ modOf (coreRet g.core) = modOf (coreRet g'.core) ∧ inService s (coreRet g'.core) = true)
        ∧ inScope s 9 a b = true ∧ ∀ code, 10 < code → inScope s code a b = false)

/-- spec/11 R262: WAITA sends its read, with the value it compares, and the lanes that execute wait for its outcome. -/
def Obligations.WaitOnAddress : Prop :=
  ∀ (w : RWord) (ctl : W32) (s : State) (c : Ctx) (h : Shape) (x : Issue) (l : Nat) (ls : List Nat) (pa e : Nat),
    let ea := eaVirtual ctl (srcN s c h l 0) (srcN s c h l 1)
    RunsOrdered queueCheck s (.waita w ctl) c h x → x.lanes = l :: ls → h.reads.find? (poisonedUse s c l) = none →
    planVirtual s c .read (BitVec.ofInt 64 ea) (2 ^ mcSize ctl) = .ok pa e →
    ∃ v t, exec (.waita w ctl) s = .next t ∧ SameMemory s t ∧ OnlySends (usesQueue c h x) s v
      ∧ Requests s v (baseFlight s c .waita (2 ^ mcSize ctl) 0 .drop false)
          [laneReq s c 127 (l, ea, pa, e) s.ticks (srcN s c h l 2)] (fun _ _ => True)
      ∧ Parks c h x (execLanes s c h.gsel h.gn) (.waitaRead s.nextId) v t

/-- spec/11 R265, R266: CINV drops the line from the core's L1; CWB and CZERO send one line request, counted in UNACK; CPF moves nothing but
caches; CPART begins a change of partition once everything of a release at reticle scope has returned, and a count outside 4 to 16 is
0x28. -/
def Obligations.CacheOperations : Prop :=
  ∀ (w : CWord) (ctl : W32) (s : State) (c : Ctx) (h : Shape) (x : Issue) (l : Nat) (ls : List Nat) (pa e : Nat),
    let ea := eaVirtual ctl (srcN s c h l 0) (if w.b.toNat = 112 then 0 else srcN s c h l 1)
    let runs := fun (i : Instr) (chk : State → Ctx → Shape → Issue → Check) => RunsOrdered chk s i c h x ∧ x.lanes = l :: ls
    let planned := fun (acc : Access) => h.reads.find? (poisonedUse s c l) = none ∧ planVirtual s c acc (BitVec.ofInt 64 ea) 0 = .ok pa e
    let line := fun (t : State) (kind : ReqKind) =>
      Requests s t (baseFlight s c kind 128 0 .drop false) [laneReq s c 127 (l, ea, pa / 128 * 128, e) 0 0] (fun _ _ => True)
        ∧ (t.sw c.sw).unack = (s.sw c.sw).unack + 1
    (runs (.cinv w ctl) queueCheck → planned .either →
      ∃ t, exec (.cinv w ctl) s = .next t ∧ OnlySends (usesQueue c h x) s t ∧ SameMemory s t ∧ t.flight = s.flight
        ∧ (l1Kind pa = true → mget? (t.core c.core).l1 (pa / 128) = none)
        ∧ ∀ k, k ≠ pa / 128 ∨ l1Kind pa = false → mget? (t.core c.core).l1 k = mget? (s.core c.core).l1 k)
    ∧ (runs (.cwb w ctl) queueCheck → planned .either → l1Kind pa = true → (s.sw c.sw).unack < 255 →
      ∃ t, exec (.cwb w ctl) s = .next t ∧ OnlySends (usesQueue c h x) s t ∧ SameMemory s t ∧ line t .cwb)
    ∧ (runs (.cwb w ctl) queueCheck → planned .either → l1Kind pa = false →
      ∃ t, exec (.cwb w ctl) s = .next t ∧ OnlySends (usesQueue c h x) s t ∧ SameMemory s t ∧ t.flight = s.flight)
    ∧ (runs (.czero w ctl) queueCheck → planned .write → (s.sw c.sw).unack < 255 →
      ∃ t, exec (.czero w ctl) s = .next t ∧ OnlySends (usesQueue c h x) s t ∧ SameMemory s t ∧ line t .czero)
    ∧ (RunsOrdered operandCheck s (.cpf w ctl) c h x →
      ∃ t, exec (.cpf w ctl) s = .next t ∧ OnlySends (usesQueue c h x) s { t with llc := s.llc } ∧ SameMemory s t ∧ t.flight = s.flight)
    ∧ (runs (.cpart w ctl) operandCheck →
      let n := srcN s c h l 0
      ((n < 4 ∨ 16 < n) → exec (.cpart w ctl) s = .next (pairOrder s c h x (reasonAt c 0x28 s)))
      ∧ (4 ≤ n → n ≤ 16 → releaseDone s c 6 = true → (s.ret c.ret).cpartTo = none →
        ∃ t, exec (.cpart w ctl) s = .next t ∧ SameMemory s t ∧ t.flight = s.flight
          ∧ OnlySends (usesQueue c h x) (if n = (s.ret c.ret).ways then s else updRet c.ret (fun r => { r with cpartTo := some n }) s) t))

/-- spec/08 R189 with 02 R48, 08 R196, 13 R297: EXIT ends its slice in every lane that executes: it drops out of every lane mask, its MR is no
longer valid and, in a decoupled grid, the queues it fills close. By the last thread of its slice-warp it is a delivery point. What follows
tests the meetings, the barrier slots and the end of the group. -/
def Obligations.Exits : Prop :=
  ∀ (w : RWord) (s : State) (c : Ctx) (h : Shape) (x : Issue),
    Runs s (.exit w) c h x → sfuPending s c.run.gid c.run.warp c.run.slice = false → fpTest s c = 0 →
    ∃ u, exec (.exit w) s = .next (reapGroup c.run.gid (testSlots c.run.gid (settle c.run.gid c.run.warp c.run.slice u))) ∧ Calm s u
      ∧ (∀ l ∈ x.lanes, (u.thread (c.th l)).exited = true ∧ (u.thread (c.th l)).mr.getLsbD 0 = false)
      ∧ (∀ k, (∀ l ∈ x.lanes, k ≠ c.th l) → (u.thread k).still = (s.thread k).still)
      ∧ (∀ k code, readCode (u.thread k) code = readCode (s.thread k) code) ∧ (∀ k, (u.thread k).pred = (s.thread k).pred)
      ∧ (∀ k, (u.sw k).unmasked = (s.sw k).unmasked)
      ∧ (∀ k l, l < 64 → hasLane (getMask u c k) l = (hasLane (getMask s c k) l && decide (l ∉ x.lanes)))
      ∧ (∀ k, u.queue k = if c.g.launch.decoupled = true ∧ ∃ l ∈ x.lanes, ∃ q ∈ producedQueues c.run.slice, k = c.q l q
          then { s.queue k with closed := true } else s.queue k)

/-- spec/16 R392: TWANY goes on when a tag of its mask is done, or the mask is empty; TWALL when every tag of it is; else the lanes of the run
wait. TCLR sets the count of each tag of its mask to its operations still live, and lets those go on that waited for it. -/
def Obligations.TagWaits : Prop :=
  ∀ (v : SWord) (s : State) (c : Ctx) (h : Shape) (x : Issue) (l : Nat) (ls : List Nat),
    let m := src64 s c h l 0
    x.lanes = l :: ls →
    (Runs s (.twany v) c h x → ∃ t, exec (.twany v) s = .next t ∧ SameMemory s t
      ∧ (tagsReg c.g &&& m ≠ 0 ∨ m = 0 → Completes c h x s t)
      ∧ (tagsReg c.g &&& m = 0 → m ≠ 0 → Parks c h x (lanesOf c.run.lanes) (.tags false m) s t))
    ∧ (Runs s (.twall v) c h x → ∃ t, exec (.twall v) s = .next t ∧ SameMemory s t
      ∧ (tagsReg c.g &&& m = m → Completes c h x s t)
      ∧ (tagsReg c.g &&& m ≠ m → Parks c h x (lanesOf c.run.lanes) (.tags true m) s t))
    ∧ (Runs s (.tclr v) c h x → ∃ t, exec (.tclr v) s = .next (pairOrder s c h x (settleTags c.run.gid t))
      ∧ SameMemory s (pairOrder s c h x (settleTags c.run.gid t))
      ∧ Completes c h x ((lanesOf m).foldl (fun u n => updGroup c.run.gid (putTag n (liveTagOps s c.run.gid n)) u) s) t)

/-- spec/14 R341, R343: SLEEP makes the lanes of the run wait until fabric time has moved by A, and YIELD until the group is saved, where it is
a listed safe point and a pre-emption request is raised; else they go on. -/
def Obligations.SleepAndYield : Prop :=
  ∀ (v : SWord) (s : State) (c : Ctx) (h : Shape) (x : Issue) (l : Nat) (ls : List Nat),
    let t32 := (src32 s c h l 0).toNat
    let off := (c.pc - BitVec.ofNat 64 c.g.launch.code).toNat / 4
    x.lanes = l :: ls →
    (Runs s (.sleep v) c h x → ∃ t, exec (.sleep v) s = .next t ∧ SameMemory s t
      ∧ (t32 = 0 ∨ c.g.preq = true → Completes c h x s t)
      ∧ (t32 ≠ 0 → c.g.preq = false → Parks c h x (lanesOf c.run.lanes) (.sleep (wtime s c.ret + t32)) s t))
    ∧ (Runs s (.yield v) c h x → ∃ t, exec (.yield v) s = .next t ∧ SameMemory s t
      ∧ (c.g.preq = false ∨ liveMask s c.g off = none → Completes c h x s t)
      ∧ (c.g.preq = true → ∀ m, liveMask s c.g off = some m → Parks c h x (lanesOf c.run.lanes) (.yield m.omask m.mmask) s t))

/-- spec/16 R381, R382, R384: BAR and BARA count every lane that executes on the slot, the first arrival setting EXPECT and the slice kind, and
then the slot is tested; the lanes of BAR wait. In BARW those that have arrived in the current generation wait, and the records of the others
end. FBAR sends one arrival to its tree. -/
def Obligations.BarrierArrivals : Prop :=
  ∀ (v : SWord) (s : State) (c : Ctx) (h : Shape) (x : Issue) (l : Nat) (ls : List Nat),
    let b := v.d.toNat
    let y := slotOf c.g b
    let n := (src32 s c h l 0).toNat
    let lanes := execLanes s c h.gsel h.gn
    let first := y.count = 0 ∧ y.arrived = 0
    let arrived : State := putSlot c.run.gid b
      { y with
        expect := if first then n else y.expect
        kind := if first then c.run.slice.code else y.kind
        count := y.count + lanes.length
        arrived := y.arrived ||| BitVec.ofNat 32 (2 ^ (2 * c.run.warp + c.run.slice.code)) }
      (recordArrivals c b y.gen lanes s)
    let open' := y.fabric = false ∧ y.lost = false ∧ releaseDone s c 3 = true ∧ n < 4096 ∧ (first ∨ y.expect ≠ 0 ∨ c.run.slice.code = y.kind)
    x.lanes = l :: ls →
    (RunsOrdered operandCheck s (.bar v) c h x → open' → sfuPending s c.run.gid c.run.warp c.run.slice = false → fpTest s c = 0 →
      ∃ t, exec (.bar v) s = .next (pairOrder s c h x (testSlot c.run.gid b t)) ∧ Parks c h x lanes (.bar b) arrived t)
    ∧ (RunsOrdered operandCheck s (.bara v) c h x → open' →
      ∃ t, exec (.bara v) s = .next (pairOrder s c h x (testSlot c.run.gid b t)) ∧ Completes c h x arrived t)
    ∧ (RunsOrdered operandCheck s (.barw v) c h x → y.lost = false →
      let held := x.lanes.filter (fun l => mget? (s.thread (c.th l)).arr b == some y.gen)
      let past := x.lanes.filter (fun l => !held.contains l)
      ∃ t, exec (.barw v) s = .next t
        ∧ Parks c h x held (.barw b) (past.foldl (fun t l => updTh (c.th l) (fun th => { th with arr := mdel th.arr b }) t) s) t)
    ∧ (RunsOrdered operandCheck s (.fbar v) c h x → ∀ e, n < 256 → y.lost = false → (y.fabric = true ∨ y.count = 0) →
      (y.fabric = true → y.tree = n) → treeOf s c.ret n = some e → e.rootreg = c.g.root → e.lost = false → releaseDone s c e.scope = true →
      ∃ t, exec (.fbar v) s = .next t
        ∧ Completes c h x (sendPacket c.ret c.ret false 0 0 (.fbarArrive n e.gen 5)
            (putSlot c.run.gid b { y with fabric := true, tree := n } (recordArrivals c b y.gen lanes s))) t)

/-- spec/16 R389: once its selector passes its checks, CWAIT goes on when its condition holds, which is an acquire at core scope; else the lanes
of the run wait. -/
def Obligations.CounterWaits : Prop :=
  ∀ (v : SWord) (s : State) (c : Ctx) (h : Shape) (x : Issue) (l : Nat) (ls : List Nat),
    let sel := src32 s c h l 0
    let thr := src32 s c h l 1
    let a := bitsOf sel.toNat 21 0
    let remote := bitOf sel.toNat 31 = true ∧ bitsOf sel.toNat 30 10 = 0 ∧ endpointRoot s c.ret (bitsOf sel.toNat 9 0) = some c.g.root
    let core := bitOf sel.toNat 31 = false ∧ bitsOf sel.toNat 30 22 = 0 ∧ a % 16 = 0
      ∧ (cwaitMember c.core a = c.core ∨ foreignHost s (cwaitMember c.core a) c.g.m c.g.root = false) ∧ cwaitDead s c.core sel = none
    x.lanes = l :: ls → RunsOrdered operandCheck s (.cwait v) c h x → remote ∨ core →
    ∃ t, exec (.cwait v) s = .next t ∧ SameMemory s t
      ∧ (cwaitMet s c.core sel thr = true → OnlySends (usesQueue c h x) s t ∧ t.flight = s.flight ∧ (t.core c.core).l1 = [])
      ∧ (cwaitMet s c.core sel thr = false → Parks c h x (lanesOf c.run.lanes) (.cwait sel thr) s t)

/-- spec/14 R340: TRAP and BKPT take their fault at themselves, precisely, TRAP with the elected thread's A as its detail; with no lane they
have no effect. The two words that the rule writes out are theirs. -/
def Obligations.Traps : Prop :=
  decodeWords 0xFE000800#32 0 = .ok (.trap ⟨0#7, 1#7, false, 0#2, false⟩) ∧ decodeWords 0xFE000040#32 0 = .ok (.bkpt ⟨0#7, 0#7, false, 0#2, false⟩)
  ∧ ∀ (v : SWord) (s : State) (c : Ctx) (h : Shape) (x : Issue),
    (Runs s (.trap v) c h x → (x.lanes = [] → ∃ t, exec (.trap v) s = .next t ∧ Completes c h x s t)
      ∧ ∀ l ls, x.lanes = l :: ls → exec (.trap v) s = .next (pairOrder s c h x (takeFault
          ⟨.trap, c.run.gid, c.run.warp, c.run.slice.code, 0xFF, true, c.pc.toNat, none, 0, (src32 s c h l 0).toNat⟩ s)))
    ∧ (Runs s (.bkpt v) c h x → (x.lanes = [] → ∃ t, exec (.bkpt v) s = .next t ∧ Completes c h x s t)
      ∧ (x.lanes ≠ [] → exec (.bkpt v) s = .next (pairOrder s c h x (takeFault
          ⟨.breakpoint, c.run.gid, c.run.warp, c.run.slice.code, 0xFF, true, c.pc.toNat, none, 0, 0⟩ s))))

/-- spec/12 R268, R276, R285, R286 and 16 R390: an MX operation that passes its checks, with fewer than four queued on the core and no power
hold, is queued with the operands it captures, counts one on its tag and records its tile units. OFENCE goes on once no scratchpad write of its
warp pair and no register write of its slice-warp is outstanding. -/
def Obligations.MatrixOperations : Prop :=
  ∀ (w : XWord) (ctl : W32) (s : State) (c : Ctx) (h : Shape) (x : Issue) (l : Nat) (ls : List Nat),
    let ready := fun (o : MxOp) => mxFault s c o = none ∧ (s.core c.core).mxq.length < 4 ∧ (s.ret c.ret).hold = false
      ∧ tagFull s c.run.gid o.tag = false
    let queued := fun (i : Instr) (o : MxOp) => x.lanes = l :: ls → Runs s i c h x → ready o → ∃ t, exec i s = .next t ∧ SameMemory s t
      ∧ Completes c h x
          (updGroup c.run.gid (fun g => putTag o.tag (tagCount g o.tag + 1) { g with acc := (upFrom o.aoff (o.n / 2)).foldl sadd g.acc })
            (updCore c.core (fun k => { k with mxq := k.mxq ++ [{ o with op := s.nextId }] }) { s with nextId := s.nextId + 1 })) t
    queued (.mxma w ctl) (mxCapture s c 0 (srcN s c h l 2) (pairWords s c h l 0) (pairWords s c h l 1) w.slot.toNat ctl)
    ∧ queued (.mxld w ctl) (mxCapture s c 1 (srcN s c h l 1) (pairWords s c h l 0) (0, 0) 0 ctl)
    ∧ queued (.mxst w ctl) (mxCapture s c 2 (srcN s c h l (if bitOf ctl.toNat 25 then 2 else 1)) (pairWords s c h l 0)
        (if bitOf ctl.toNat 25 then pairWords s c h l 1 else (0, 0)) w.slot.toNat ctl)
    ∧ queued (.mxz w ctl) (mxCapture s c 3 (srcN s c h l 0) (0, 0) (0, 0) 0 ctl)
    ∧ (Runs s (.ofence w ctl) c h x → (x.lanes = [] ∨ spadStoresOut s c = false ∧ registersOut s c = false) →
        ∃ t, exec (.ofence w ctl) s = .next t ∧ SameMemory s t ∧ Completes c h x s t)

/-- spec/14 R322, R323 and 16 R390: a COPY whose descriptor address passes its checks, with fewer than eight queued on the core, is queued and
counts one on its tag. -/
def Obligations.Copies : Prop :=
  ∀ (w : XCWord) (ctl : W32) (s : State) (c : Ctx) (h : Shape) (x : Issue) (l : Nat) (ls : List Nat),
    let a := srcN s c h l 0
    let tag := bitsOf ctl.toNat 5 0
    x.lanes = l :: ls → RunsOrdered operandCheck s (.copy w ctl) c h x → descriptorFault s c a = none →
    (s.core c.core).copyq.length < 8 → tagFull s c.run.gid tag = false →
    ∃ t, exec (.copy w ctl) s = .next t ∧ SameMemory s t
      ∧ Completes c h x
          (updGroup c.run.gid (fun g => putTag tag (tagCount g tag + 1) g)
            (updCore c.core (fun k => { k with copyq := k.copyq ++
                [{ op := s.nextId, gid := c.run.gid, warp := c.run.warp, slice := c.run.slice, pc := c.pc, tag := tag
                   slot := c.g.launch.slot w.slot.toNat, desc := a, after := ownWrites s c ++ orderNow s c, done := CopyAt.start }] })
              { s with nextId := s.nextId + 1 })) t

/-- spec/14 R328 to R330, R333 and 13 R311: RPUT, RGET, RATOM and NPOST that pass their checks enter their work request at the end of their
queue, which counts one on its tag, and give back the place reserved for it. -/
def Obligations.NetworkPosts : Prop :=
  ∀ (w : XWord) (ctl : W32) (s : State) (c : Ctx) (h : Shape) (x : Issue) (l : Nat) (ls : List Nat),
    let q := qidxOf ctl
    let room := fun (wr : WorkReq) (s : State) => endpointRoot s c.ret q = some c.g.root ∧ tagFull s c.run.gid wr.tag = false
      ∧ (c.run.reserved.contains q = true ∨ wrqUsed s c.ret q < 64)
    let entered := fun (i : Instr) (wr : WorkReq) (v : State) => ∃ t, exec i s = .next t
      ∧ Completes c h x (enterRequest c q wr (takeReserved c q v)) t
    let direct := fun (i : Instr) (opc : Nat) =>
      let wr := directRequest s c h l opc ctl
      let ra : W64 := BitVec.ofNat 64 wr.raddr
      x.lanes = l :: ls → RunsOrdered operandCheck s i c h x →
      1 ≤ wr.length → wr.length ≤ 0x1000000 → (wr.ordered = true → wr.length ≤ 4096 ∧ bitOf (netfOf s c.g) 1 = true) →
      wr.landing < 0x400000 → wr.landing % 16 = 0 → (opc = 3 → wr.laddr % 8 = 0 ∧ wr.raddr % 8 = 0) →
      (∃ pa e, planVirtual s c (if opc = 0 then .read else .write) (BitVec.ofNat 64 wr.laddr) 0 = .ok pa e) →
      ∀ pa e, planVirtual s c (if opc = 2 then .read else .write) ra 0 = .ok pa e → room wr (dropWalkFaults c s) →
      entered i { wr with target := retOf pa } (dropWalkFaults c s)
    direct (.rput w ctl) 0 ∧ direct (.rget w ctl) 2 ∧ direct (.ratom w ctl) 3
    ∧ (let a := srcN s c h l 0
       let wr := workReq (readRaw s (scratchPa c.core a) 64)
       x.lanes = l :: ls → RunsOrdered operandCheck s (.npost w ctl) c h x → descriptorFault s c a = none → spadStoresOut s c = false →
       (s.core (memberCore c.core a)).dead = false → poisonedIn s (scratchPa c.core a) 64 = none → wr.bad = false →
       targetDenied s c wr = false → room wr s → entered (.npost w ctl) wr s)

/-- spec/13 R312, 14 R329, R332: what entering a work request does, to a queue, the tag and the operations in flight. -/
def Obligations.WorkRequestsEntered : Prop :=
  ∀ (c : Ctx) (q : Nat) (wr : WorkReq) (s : State) (g : Group), mget? s.groups c.run.gid = some g →
    let t := enterRequest c q wr s
    mget (t.ret c.ret).wrq q [] = mget (s.ret c.ret).wrq q [] ++ [s.nextId] ∧ t.nextId = s.nextId + 1
    ∧ (∃ o, mget? t.works s.nextId = some o ∧ o.wr = wr ∧ o.gid = c.run.gid ∧ o.queue = q ∧ o.sent = false ∧ o.injected = false
        ∧ o.after = ownWrites s c ++ orderNow s c)
    ∧ (∀ k, k ≠ s.nextId → mget? t.works k = mget? s.works k)
    ∧ (∃ g', mget? t.groups c.run.gid = some g' ∧ tagCount g' wr.tag = tagCount g wr.tag + 1 ∧ { g' with tags := g.tags } = g
        ∧ ∀ n, n ≠ wr.tag → tagCount g' n = tagCount g n)
    ∧ t.mem = s.mem ∧ t.threads = s.threads ∧ t.sws = s.sws ∧ t.queues = s.queues ∧ t.cores = s.cores ∧ t.flight = s.flight
    ∧ t.mods = s.mods ∧ (∀ k, k ≠ c.run.gid → mget? t.groups k = mget? s.groups k)
    ∧ ∀ k, k ≠ c.ret → t.ret k = s.ret k

/-- spec/14 R334: NFLUSH of a target that nothing of its slice-warp is on the way to goes on; else it is in flight, covering those requests, and
counts one on its tag. -/
def Obligations.NetworkFlushes : Prop :=
  ∀ (w : XWord) (ctl : W32) (s : State) (c : Ctx) (h : Shape) (x : Issue) (l : Nat) (ls : List Nat),
    let t := srcN s c h l 0
    let tag := bitsOf ctl.toNat 5 0
    let covers := (s.works.filter (fun e => e.2.gid == c.run.gid && e.2.warp == c.run.warp && e.2.slice == c.run.slice
      && e.2.wr.puts && e.2.wr.target == t && !placedWholly s e.1)).map (·.1)
    x.lanes = l :: ls → RunsOrdered operandCheck s (.nflush w ctl) c h x →
    (if bitOf t 31 then bitsOf t 30 24 = 0 ∧ bitsOf ctl.toNat 9 6 = 10 else bitsOf t 30 17 = 0) → tagFull s c.run.gid tag = false →
    ∃ v, exec (.nflush w ctl) s = .next v ∧ SameMemory s v
      ∧ (covers = [] → Completes c h x s v)
      ∧ (covers ≠ [] → Completes c h x
          (updGroup c.run.gid (fun g => putTag tag (tagCount g tag + 1) g)
            { s with nextId := s.nextId + 1
                     flushes := mput s.flushes s.nextId ⟨c.run.gid, c.run.warp, c.run.slice, tag, covers, false⟩ }) v)

/-- spec/14 R337 to R339 with 02 R45: after its release LGRID writes a LAUNCH command at PIDX of its queue, rings the doorbell and awaits the
answer, or has its status at once; ETRIG counts its group as triggered; DIST is in flight to the counter of its grid. -/
def Obligations.LaunchingInstructions : Prop :=
  ∀ (w : XWord) (ctl : W32) (s : State) (c : Ctx) (h : Shape) (x : Issue) (l : Nat) (ls : List Nat),
    let a := srcN s c h l 0
    let b := srcN s c h l 1 % 2 ^ 32
    x.lanes = l :: ls →
    (RunsOrdered operandCheck s (.lgrid w ctl) c h x → releaseDone s c 7 = true → a % 128 = 0 →
      (∀ st, lgridQueue s c.g.m c.g.root b = .inl st →
        ∃ t, exec (.lgrid w ctl) s = .next t ∧ Starts s t c h { x with lanes := [l] } 2 true (fun _ => st) 0 ∧ SameMemory s t)
      ∧ ∀ q v, lgridQueue s c.g.m c.g.root b = .inr q → readVa s c.g.m c.g.root (q.slotVa q.pidx.toNat) 64 ≠ none →
        writeVa s c.g.m c.g.root (q.slotVa q.pidx.toNat) (launchBytes a) = some v →
        ∃ y t, exec (.lgrid w ctl) s = .next t ∧ Starts v y c h { x with lanes := [l] } 2 false (fun _ => 0) 0
          ∧ OnlyMoves (ringDoorbell c.g.m q.doorbell (q.pidx + 1) (.lgrid c.g.region v.nextId) y) t)
    ∧ (RunsOrdered operandCheck s (.etrig w ctl) c h x → releaseDone s c 7 = true →
      ∃ t, exec (.etrig w ctl) s = .next t ∧ OnlyMoves (updGrid c.g.m c.g.grid (fun g => { g with triggered := sadd g.triggered c.g.index })
        (updGroup c.run.gid (fun g => { g with triggered := true }) s)) t)
    ∧ (RunsOrdered operandCheck s (.dist w ctl) c h x →
      ∃ t, exec (.dist w ctl) s = .next t ∧ Starts s t c h { x with lanes := [l] } 3 false (fun _ => a) 0 ∧ SameMemory s t)

/-- spec/17 R398, R399, R401, R402, R405, R406: taking a fault tells the host its record first. A group that halts already changes in nothing.
Else, under FPOLICY 1 with the record in the queue of the domain, a group of no handler's or staged grid halts: its issue stops, with every
register as it was. Under FPOLICY 0, without the record, or in a handler's grid, every unfinished grid of the domain ends and its groups are
discarded. -/
def Obligations.FaultTaken : Prop :=
  ∀ (f : FaultInfo) (s : State) (g : Group), mget? s.groups f.gid = some g →
    let q := (s.core g.core).seq
    let t := takeFault f s
    let counted := (coreSeq g.core s).2
    let posted := postRecord g.m g.root g.region (faultRecord s f g q 0) counted
    let first := g.halt = none ∧ g.discard = false
    let handled := (∃ x, mget? (s.mod g.m).regions (domainOf s g.m 8 g.region) = some x ∧ x.rcb.fpolicy ≠ 0)
      ∧ (∀ x, mget? (s.mod g.m).grids g.grid = some x → x.handlerFor = none)
    (first → Hears s t [.record (recordBytes (faultRecord s f g q 0))])
    ∧ (¬ first → OnlyStores { counted with hostOut := s.hostOut ++ [.record (recordBytes (faultRecord s f g q 4))] } t)
    ∧ (first → g.launch.staged = false → handled → ∀ va, posted.2 = some va →
        (∃ y, mget? t.groups f.gid = some y ∧ y.phase = .halting ∧ y.haltPc = BitVec.ofNat 64 f.pc ∧ y.recordVa = va ∧ y.recordOk = true
          ∧ y.forced = true ∧ y.discard = false ∧ y.drainFrom.isSome = true ∧ y.halt =
            some (f.cause, q, coreCode g.core, swKey f.gid f.warp (if f.slice = 0 then .access else .execute), f.precise))
        ∧ (∀ k, k ≠ f.gid → mget? t.groups k = mget? s.groups k) ∧ t.sws = s.sws ∧ t.queues = s.queues ∧ t.mods = s.mods
        ∧ (∀ k, { t.thread k with pos := (s.thread k).pos, passDone := (s.thread k).passDone } = s.thread k)
        ∧ ∀ sl r, t.portRun ⟨g.core, sl⟩ = some r → r.gid ≠ f.gid)
    ∧ (first → g.launch.staged = false → ¬ (f.cause = .breakpoint ∧ smem (s.mod g.m).attached g.root = true) → ¬ handled ∨ posted.2 = none →
        ∀ h gr, mget? (s.mod g.m).grids h = some gr → gr.state ≠ .finished → domainOf s g.m 8 gr.launch.region = domainOf s g.m 8 g.region →
          (∃ y, mget? (t.mod g.m).grids h = some y ∧ y.status = 4 ∧ y.log = [])
          ∧ ∀ k x, mget? s.groups k = some x → x.m = g.m → x.grid = h →
            ∃ y, mget? t.groups k = some y ∧ y.discard = true ∧ y.phase = .halting)

/-- spec/05 R116, R117: an instruction to which a reason code applies takes the fault of the least one, at itself, precisely, with the reason
and its first word as detail, and has none of its effect. Without SUP, CPART, RDS of 0x022 and WRS of an S register have reason 0x41, which is
PRIVILEGE; so has WRS of an H register in any mode (R133). -/
def Obligations.ReasonCodes : Prop :=
  (∀ (i : Instr) (s : State) (c : Ctx) (h : Shape) (r : Nat), ctx? s = some c → shape i = some h → issueReason s c i h = some r →
    exec i s = .next (takeFault ⟨reasonCause r, c.run.gid, c.run.warp, c.run.slice.code, 0xFF, true, c.pc.toNat, none, 0,
      r + c.word.toNat * 2 ^ 32⟩ s))
  ∧ (∀ (i : Instr) (s : State) (c : Ctx) (h : Shape) (r : Nat), issueReason s c i h = some r ↔
      r ∈ staticReasons i ++ dynamicReasons s c h ++ entryReasons s c i ∧
        ∀ n ∈ staticReasons i ++ dynamicReasons s c h ++ entryReasons s c i, r ≤ n)
  ∧ reasonCause 0x41 = .privilege
  ∧ ∀ (s : State) (c : Ctx) (h : Shape),
      let denied := fun (i : Instr) => staticReasons i ++ dynamicReasons s c h = [] → issueReason s c i h = some 0x41
      ((spaceOf s c.g).sup = false → (∀ w ctl, denied (.cpart w ctl)) ∧ (∀ w ctl, sysregOf ctl = 0x022 → denied (.rds w ctl))
        ∧ (∀ w ctl, sysregWriteClass (sysregOf ctl) = 1 → denied (.wrs w ctl)))
      ∧ ∀ w ctl, sysregWriteClass (sysregOf ctl) = 2 → denied (.wrs w ctl)

/-- spec/11 R251, R218: an access to a register destination is decided by its first lane that cannot be performed: its cause is taken at the
instruction, precisely, and no lane performs its access; a miss starts the walks that the lanes need, and the instruction waits. A misaligned
address is ALIGNMENT, and one outside the 22 bits of the scratchpad form SCRATCH_BOUNDS. -/
def Obligations.AccessFaults : Prop :=
  ∀ (w : RWord) (ctl : W32) (s : State) (c : Ctx) (h : Shape) (x : Issue),
    let stops := fun (i : Instr) (ps : List LanePlan) =>
      RunsOrdered queueCheck s i c h x → ∀ front p rest, ps = front ++ p :: rest → (∀ q ∈ front, ∃ pa e, q.plan = .ok pa e) →
        (∀ cause d, p.plan = .bad cause d →
          exec i s = .next (pairOrder s c h x
            (faultAt c cause (if cause = .poisonRead then 0 else (eaBits p.ea).toNat) d p.lane (dropWalkFaults c s))))
        ∧ (p.plan = .miss → exec i s =
          .next (pairOrder s c h x
            (stall (ps.foldl (fun t q => if q.plan = .miss then startWalk c.core c.g.m c.g.root q.ea.toNat t else t) s))))
    let n := if acWide ctl then 8 else 4
    let atomPlans := fun (scratch : Bool) => x.lanes.map (fun l =>
      if scratch then
        lanePlan s c h l (((srcN s c h l 0 % 2 ^ 32 : Nat) : Int) + mcOffset ctl)
          (fun _ => planSpad s c .both (((srcN s c h l 0 % 2 ^ 32 : Nat) : Int) + mcOffset ctl) n)
      else
        lanePlan s c h l (((BitVec.ofNat 64 (srcN s c h l 0) + BitVec.ofInt 64 (mcOffset ctl)).toNat : Int))
          (fun _ => planVirtual s c .both (BitVec.ofInt 64 ((BitVec.ofNat 64 (srcN s c h l 0) + BitVec.ofInt 64 (mcOffset ctl)).toNat : Int)) n))
    stops (.st w ctl) (accessPlans s c h x ctl false .write) ∧ stops (.sts w ctl) (accessPlans s c h x ctl true .write)
    ∧ ((∀ q, destOf w.d.toNat ≠ .queue q) →
        stops (.ld w ctl) (accessPlans s c h x ctl false .read) ∧ stops (.lds w ctl) (accessPlans s c h x ctl true .read)
        ∧ ((acRel ctl = true → releaseDone s c (mcScope ctl) = true) →
            stops (.atom w ctl) (atomPlans false) ∧ stops (.atoms w ctl) (atomPlans true)))
    ∧ (∀ acc (ea : W64) k, k ≠ 0 → ea.toNat % k ≠ 0 → planVirtual s c acc ea k = .bad .alignment 0)
    ∧ (∀ acc (ea : Int) k, ea < 0 ∨ 0x3FFFFF < ea → planSpad s c acc ea k = .bad .scratchBounds 0)
    ∧ (∀ acc (ea : Int) k, 0 ≤ ea → ea ≤ 0x3FFFFF → ea.toNat % k ≠ 0 → planSpad s c acc ea k = .bad .alignment 0)
    ∧ ∀ core m root va, ∃ y ∈ (startWalk core m root va s).walks, core ∈ y.2.cores ∧ y.2.ret = coreRet core ∧ y.2.m = m ∧ y.2.root = root
        ∧ y.2.va / 65536 = va / 65536

/-- spec/11 R252, R255: where the destination is a dq only POISON_READ is taken at the instruction. With no lane that misses, every lane that can
be performed sends its request, and the queue of every other lane has an entry FAULTED with its cause, address and pc. -/
def Obligations.QueuedAccessFaults : Prop :=
  ∀ (w : RWord) (ctl : W32) (s : State) (c : Ctx) (h : Shape) (x : Issue) (q : Nat),
    let load := fun (i : Instr) (scratch : Bool) =>
      let ps := accessPlans s c h x ctl scratch .read
      RunsOrdered queueCheck s i c h x → destOf w.d.toNat = .queue q →
      (∀ front p rest d, ps = front ++ p :: rest → p.plan = .bad .poisonRead d → (∀ y ∈ front, ∀ k, y.plan ≠ .bad .poisonRead k) →
        exec i s = .next (pairOrder s c h x (faultAt c .poisonRead 0 d p.lane s)))
      ∧ ((∀ p ∈ ps, p.plan ≠ .miss ∧ ∀ d, p.plan ≠ .bad .poisonRead d) →
        ∃ t, exec i s = .next t ∧ OnlySends (usesQueue c h x) s t ∧ SameMemory s t
          ∧ Requests s t { baseFlight s c .load (2 ^ mcSize ctl) (sizeWords (mcSize ctl)) (.queue q) scratch with
              sx := mcSx ctl, stream := mcPolicy ctl == 1 }
            ((okPlans ps).map (fun p => laneReq s c w.d.toNat p 0 0)) (fun r q => requestUnit r.pa = requestUnit q.pa)
          ∧ ∀ p ∈ ps, ∀ cause d, p.plan = .bad cause d → consumerGone s c p.lane q = false →
              QEntry.faulted cause (eaBits p.ea) c.pc ∈ (t.queue (c.q p.lane q)).entries)
    load (.ld w ctl) false ∧ load (.lds w ctl) true

/-- spec/04 R97 to R103, R111: decode and encode agree. Every instruction of the opcode table, with every field at every value, decodes from the
words the encoder lays out, whatever bytes follow, which stay unread. -/
def Obligations.EncodingRoundTrip : Prop :=
  ∀ (i : Instr), i.isEvent = false → ∀ rest, decode (wordBytes (encode i) ++ rest) = .ok (i, rest)

/-- spec/04 R97, R98, R101, R111: the decoder drops no bit. What it reads as an instruction is the encoder's words of that instruction and no
others, and no row that is a step of the machine is ever read. -/
def Obligations.DecodingKeepsEveryBit : Prop :=
  ∀ (bs rest : List Byte) (i : Instr), decode bs = .ok (i, rest) → bs = wordBytes (encode i) ++ rest ∧ i.isEvent = false

/-- The words that the spec writes out in its own examples decode to what they stand for (spec/05, 08, 11, 14, 16). -/
def Obligations.SpecWordsDecode : Prop :=
  decodeWords 0xC1FFFFB3#32 0 = .ok (.bra ⟨0x1FFFFB#21, false, 1#2, true⟩)
  ∧ decodeWords 0xC64000C0#32 0 = .ok (.meet ⟨2#4, 12#17, false, 0#2, false⟩)
  ∧ decodeWords 0x6B900000#32 0x40#32 = .ok (.rds ⟨100#7, 0#7, 0#7, false, 0#2, false⟩ 0x40#32)
  ∧ decodeWords 0xF0131700#32 0x40#32 = .ok (.cpart ⟨98#7, 112#7, false, 0#2, false⟩ 0x40#32)
  ∧ decodeWords 0xF2032002#32 3#32 = .ok (.copy ⟨0#7, 100#7, 0#7, 1#3, false⟩ 3#32)
  ∧ decodeWords 0xF8032660#32 0x01010307#32 = .ok (.rput ⟨100#7, 102#7, 0#3, false⟩ 0x01010307#32)
  ∧ decodeWords 0xDE06F000#32 0 = .ok (.qpopp ⟨1#7, 94#7, false, 0#2, false⟩)
  ∧ decodeWords 0xFE000800#32 0 = .ok (.trap ⟨0#7, 1#7, false, 0#2, false⟩)
  ∧ decodeWords 0xFC0F0800#32 0 = .ok (.bar ⟨3#7, 97#7, false, 0#2, false⟩)
  ∧ decodeWords 0xF78B3020#32 0 = .ok (.tffr ⟨98#7, 102#7, false, 0#2, false⟩)

/-- A step runs the decoded instruction: with nothing on the agenda, the word at which the focus port stands, if it decodes to an instruction,
runs as exec of it; an opcode or sub-operation that is reserved takes reason 0x21 or 0x22 (spec/04 R111, R116); with no run in progress the port
chooses one (RUN_ISSUE). The agenda moves another port or runs a step of the machine (log 1). An instruction placed from outside is the one
the very next step runs (log 2). -/
def Obligations.StepRunsTheDecodedInstruction : Prop :=
  (∀ (s : State) (c : Ctx) (i : Instr), s.agenda = [] → ctx? s = some c →
    decodeWords c.word (nthD 0 c.run.words (c.run.pos + 1)) = .ok i → step s = exec i s)
  ∧ (∀ (s : State) (c : Ctx), s.agenda = [] → ctx? s = some c →
    (decodeWords c.word (nthD 0 c.run.words (c.run.pos + 1)) = .error .reservedOpcode → step s = .next (reasonAt c 0x21 s))
    ∧ (decodeWords c.word (nthD 0 c.run.words (c.run.pos + 1)) = .error .reservedSubop → step s = .next (reasonAt c 0x22 s)))
  ∧ (∀ (s : State), s.agenda = [] → ctx? s = none → step s = exec (.runIssue s.focus.core s.focus.slice) s)
  ∧ (∀ (s : State) (i : Instr) (rest : List Move), s.agenda = .event i :: rest → step s = exec i { s with agenda := rest })
  ∧ (∀ (s : State) (p : Port) (rest : List Move), s.agenda = .port p :: rest → step s = issueFocus { s with agenda := rest, focus := p })
  ∧ (∀ (s : State) (n : Nat) (rest : List Move), s.agenda = .idle n :: rest →
    step s = .next { s with agenda := rest, ticks := s.ticks + 8 * n })
  ∧ (∀ (s : State) (u : UnitMove) (rest : List Move), s.agenda = .unit u :: rest → step s = .next (applyUnit u { s with agenda := rest }))
  ∧ (∀ (s : State) (u : Upset) (rest : List Move), s.agenda = .upset u :: rest → step s = .next (applyUpset u { s with agenda := rest }))
  ∧ (∀ (s : State) (ret reg : Nat) (rest : List Move), s.agenda = .hostRead ret reg :: rest →
    ((s.mod (modOf ret)).hostUp = true → step s = .next (hostReadReg ret reg { s with agenda := rest }))
    ∧ ((s.mod (modOf ret)).hostUp = false → step s = .next { s with agenda := rest }))
  ∧ ∀ (s : State) (nbits w : Nat) (i : Instr), decodeTableWord nbits w = some i →
      step (s.withFetchWord nbits w) = exec i (s.withFetchWord nbits w)

/-- spec/01 R27, R29, 05 R136, R138, R140, R123, 09 R204, R221, 13 R293, 15 R354, R357, R359, 16 R379, R388: the values that the spec gives after
reset: memory reads zero under every key and nothing is poisoned, WTIME is 0, WPART.WAYS 16, WMLIM 80,000, SKEWB 0xFFFF_FFFF, the alarm
threshold 400 W, WCODE 3, the retirement tables their defaults; a starting thread's and slice-warp's registers, queues and barrier slots are
zero, empty and open. -/
def Obligations.ResetValues : Prop :=
  (∀ a, State.reset.byte a = 0) ∧ (∀ id a, readByteKey State.reset id a = 0) ∧ State.reset.poison = []
  ∧ (∀ r, wtime State.reset r = 0 ∧ (State.reset.ret r).ways = 16 ∧ (State.reset.ret r).wmlim = 80000 ∧ (State.reset.ret r).threshold = 400
      ∧ (State.reset.ret r).tgen = 0 ∧ (State.reset.ret r).policy = 0x00002220 ∧ (State.reset.ret r).plane = 0
      ∧ ∀ n, mget (State.reset.ret r).endpoint n 0 = 0 ∧ mget? (State.reset.ret r).ccnt n = none ∧ mget? (State.reset.ret r).trees n = none)
  ∧ (∀ k, (State.reset.core k).wcode = 3 ∧ (State.reset.core k).mxn = false ∧ ∀ n, mget (State.reset.core k).bank n 0 = 0)
  ∧ (∀ m, (State.reset.mod m).skewb = 0xFFFFFFFF ∧ (State.reset.mod m).policyTab = policyReset)
  ∧ (∀ k code, readCode (State.reset.thread k) code = 0 ∧ (State.reset.thread k).pred = 0 ∧ (State.reset.thread k).mr = 0
      ∧ (State.reset.thread k).wb = 0)
  ∧ (∀ k, (State.reset.sw k).masks = [] ∧ (State.reset.sw k).uni = [] ∧ (State.reset.sw k).fpflags = 0 ∧ (State.reset.sw k).fpen = 0
      ∧ (State.reset.sw k).frm = 0 ∧ (State.reset.sw k).unack = 0)
  ∧ (∀ k, (State.reset.queue k).entries = [] ∧ (State.reset.queue k).closed = false)

/-- spec/09 R204, R215, R219, R221: a write of bytes at a home, under a key loaded there, within one DRAM sector or outside DRAM: under that key
the bytes written read back and every other byte reads as before; outside the sectors written every byte reads as before under every key; a
unit that the write covers whole loses its poison, and no other does. Nothing but memory changes, and memory keeps its canonical form. -/
def Obligations.MemoryWrites : Prop :=
  ∀ (s : State) (id a : Nat) (bs : List Byte), bs ≠ [] →
    (isDram a = true → (keyMat s (retOf a) id).isSome = true ∧ a / 32 = (a + bs.length - 1) / 32) →
    (isDram a = false → ∀ b, a ≤ b → b < a + bs.length → isDram b = false) →
    let t := writeKey s id a bs
    (∀ k, k < bs.length → readByteKey t id (a + k) = bs.getD k 0)
    ∧ (∀ b, b < a ∨ a + bs.length ≤ b → readByteKey t id b = readByteKey s id b)
    ∧ (∀ any b, b / 32 ≠ a / 32 → b < a ∨ a + bs.length ≤ b → readByteKey t any b = readByteKey s any b)
    ∧ (∀ u, smem t.poison u = (smem s.poison u &&
        !((unitsOf a bs.length).contains u && decide (a ≤ u) && decide (u + unitSize a ≤ a + bs.length))))
    ∧ OnlyStores s t ∧ (Memory.wf s.mem = true → Memory.wf t.mem = true)

/-- spec/09 R222, 10 R226, R232, R235, 11 R251, R252, R258, R259: a request that nothing of its core, no release or acquire, no route and no
partition in progress holds is performed at its home, its lanes in order; the cause found at the home of a lane is kept with it and the lane has no effect; a load and a WAITA
take the bytes there, a store and CZERO put theirs, an atomic keeps the old value and puts the new one, which its AOP gives, a write-back leaves
memory as it reads. No register and no queue changes. -/
def Obligations.HomeAccesses : Prop :=
  (∀ (s : State) (op : Nat) (f : Flight), mget? s.flight op = some f → f.performed = false → awaitsOrder s f = false →
    mustWait s op f = false → (∀ x ∈ f.lanes, f.spad = true ∨ (heldByCpart s x.pa = false ∧ pathHeld s (coreRet f.core) (retOf x.pa) 0 = false)) →
    ∃ t, exec (.homeAccess op) s = .next t
      ∧ mget? t.flight op = some { f with lanes := (performLanes f f.lanes s).1, performed := true }
      ∧ (∀ k, k ≠ op → mget? t.flight k = mget? s.flight k)
      ∧ t.threads = s.threads ∧ t.sws = s.sws ∧ t.queues = s.queues ∧ t.groups = s.groups
      ∧ SameMemory (performLanes f f.lanes s).2 t)
  ∧ (∀ (f : Flight) (s : State), performLanes f [] s = ([], s))
  ∧ (∀ (s : State) (f : Flight) (x : LaneReq),
      let old := readHome s f x.pa f.size
      (∀ xs, performLanes f (x :: xs) s = ((performLane f x s).1 :: (performLanes f xs (performLane f x s).2).1, (performLanes f xs (performLane f x s).2).2))
      ∧ (∀ e, homeCause s f x = some e → performLane f x s = ({ x with err := some e }, s))
      ∧ (homeCause s f x = none → f.staged = false →
          (f.kind = .load ∨ f.kind = .waita → performLane f x s = ({ x with res := some (BitVec.ofNat 128 old) }, s))
          ∧ (f.kind = .store → performLane f x s = (x, writeHome f x.pa (bytesLE f.size x.data.toNat) s))
          ∧ (f.kind = .czero → performLane f x s = (x, writeHome f x.pa (List.replicate 128 0) s))
          ∧ (f.kind = .atomic → performLane f x s = ({ x with res := some (BitVec.ofNat 128 old) },
              writeHome f x.pa (bytesLE f.size (applyAop f.aop f.wide (BitVec.ofNat 64 old) (x.data.extractLsb' 0 64) x.cmp).toNat) s))
          ∧ (f.kind = .cwb → (performLane f x s).1 = x ∧ SameMemory s (performLane f x s).2))
      ∧ (isDevice x.pa = false → f.staged = false →
          old = readNat s f.key x.pa f.size ∧ ∀ bs, writeHome f x.pa bs s = writeKey s f.key x.pa bs))
  ∧ (∀ (o y c : W32),
      let aop := fun (n : Nat) => applyAop n false (o.setWidth 64) (y.setWidth 64) (c.setWidth 64)
      aop 0 = (o + y).setWidth 64 ∧ aop 2 = (if o.toInt ≤ y.toInt then o else y).setWidth 64
      ∧ aop 3 = (if o.toInt ≥ y.toInt then o else y).setWidth 64 ∧ aop 4 = (if o.toNat ≤ y.toNat then o else y).setWidth 64
      ∧ aop 5 = (if o.toNat ≥ y.toNat then o else y).setWidth 64 ∧ aop 8 = (o &&& y).setWidth 64 ∧ aop 9 = (o ||| y).setWidth 64
      ∧ aop 10 = (o ^^^ y).setWidth 64 ∧ aop 11 = y.setWidth 64 ∧ aop 12 = (if o = c then y else o).setWidth 64
      ∧ aop 1 = BitVec.ofNat 64 (fp32.add 0 o.toNat y.toNat).1)
  ∧ ∀ (o y c : W64),
      let aop := fun (n : Nat) => applyAop n true o y c
      aop 0 = o + y ∧ aop 2 = (if o.toInt ≤ y.toInt then o else y) ∧ aop 3 = (if o.toInt ≥ y.toInt then o else y)
      ∧ aop 4 = (if o.toNat ≤ y.toNat then o else y) ∧ aop 5 = (if o.toNat ≥ y.toNat then o else y) ∧ aop 8 = o &&& y ∧ aop 9 = o ||| y
      ∧ aop 10 = o ^^^ y ∧ aop 11 = y ∧ aop 12 = (if o = c then y else o)

/-- spec/02 R58, 06 R154, 07 R169, 11 R252, R254, R258, R261, 14 R337, R339: the result of a load or an atomic that was performed without an error
to be raised, and of a division, a special function, an LGRID and a DIST that is ready, lands in the registers that its instruction named, after
every earlier result of the same run for one of them and, of the special-function unit of a core, in the order of issue; a fence that waited for
it may end; flags of a special function are ORed into FPFLAGS. A DIST not yet applied is applied at
the counter of its grid first. No byte of memory changes. The group goes on. -/
def Obligations.LoadLandings : Prop :=
  ∀ (s : State) (op : Nat),
    (∀ f g, mget? s.flight op = some f → mget? s.groups f.gid = some g → NoneEnds s f.core →
      let h := (l1Hit s op f).getD f
      h.performed = true → raisesError h = false → landsAfter s op h = false → (∀ x ∈ h.lanes, x.lane < 64) →
      let lands := fun (i : Instr) => ∃ t, exec i s = .next t ∧ t.flight = mdel s.flight op ∧ t.longs = s.longs ∧ SameMemory s t
        ∧ (t.sw (swKey f.gid f.warp f.slice)).fpflags = (s.sw (swKey f.gid f.warp f.slice)).fpflags
        ∧ Lands s t op (swKey f.gid f.warp f.slice) h.dest h.words
            (h.lanes.filterMap (fun x => if x.err = none then x.res.map (fun v => (x.lane, x.reg, loadValue h v)) else none))
      (f.kind = .load → lands (.loadLanding op)) ∧ (f.kind = .atomic → lands (.atomicLanding op)))
    ∧ (∀ g gr, mget? s.longs op = some g → mget? s.groups g.gid = some gr → groupExited s g.gid gr = false → g.ready = true →
      unitBusy s op g = false →
      destMeets s op g.gid g.warp g.slice g.runSeq g.dest (g.vals.map (fun v => (v.1, v.2.1))) g.words = false →
      (∀ v ∈ g.vals, v.1 < 64) →
      let k := swKey g.gid g.warp g.slice
      let lands := fun (i : Instr) => ∃ t, exec i s = .next t ∧ t.longs = mdel s.longs op ∧ t.flight = s.flight ∧ SameMemory s t
        ∧ (t.sw k).fpflags = (s.sw k).fpflags ||| g.flags
        ∧ Lands s t op k g.dest g.words (g.vals.map (fun v => (v.1, v.2.1, v.2.2.toNat)))
      (g.kind = 0 → lands (.divisionLanding op)) ∧ (g.kind = 1 → lands (.specialFunctionLanding op))
      ∧ (g.kind = 2 → lands (.lgridResult op)) ∧ (g.kind = 3 → lands (.distResult op)))
    ∧ ∀ g gr d l reg v rest, mget? s.longs op = some g → mget? s.groups g.gid = some gr → mget? (s.mod gr.m).grids gr.grid = some d →
      g.kind = 3 → g.ready = false → g.vals = (l, reg, v) :: rest →
      exec (.distResult op) s = .next (updGrid gr.m gr.grid (fun y => { y with dist := y.dist + v.setWidth 64 })
        { s with longs := mput s.longs op { g with ready := true, vals := g.vals.map (fun p => (p.1, p.2.1, d.dist.setWidth 128)) } })

/-- spec/11 R251, R252, R257, R261, 14 R335, 09 R217, R218: the acknowledgement of a store, CZERO or write-back takes it off UNACK, and fences that
waited for it alone end. The error of a request is taken, once every request of its instruction has been performed, as a fault of the lowest lane
that found one, imprecisely but for a WAITA: what found an error ends first, a store or line operation as by its acknowledgement, a load or an
atomic with the lanes that found none landed. The error of a work request is taken as a fault of its group, and an NFLUSH that covers it is never
placed. A walk that has a walker and ends in a leaf puts it into the TLBs of the cores that wait and of their folds, in place of what overlaps it;
one that ends in a cause leaves that for the accesses that missed. A shootdown takes every translation of its range out of every TLB of the pod
and every entry of its root out of the walk caches. -/
def Obligations.AcknowledgementsErrorsAndWalks : Prop :=
  (∀ (s : State) (op : Nat) (f : Flight) (g : Group), mget? s.flight op = some f → mget? s.groups f.gid = some g →
    f.kind = .store ∨ f.kind = .czero ∨ f.kind = .cwb → f.performed = true → raisesError f = false → NoneEnds s f.core →
    ∃ u, FencesEnd { s with flight := mdel s.flight op } u
      ∧ exec (.storeAck op) s = .next (updSw (swKey f.gid f.warp f.slice) (fun x => { x with unack := x.unack - 1 }) u))
  ∧ (∀ (s : State) (op : Nat) (f : Flight), mget? s.flight op = some f → f.performed = true → raisesError f = true →
    let faulty := (siblings s f).filter (fun e => raisesError e.2)
    ((∃ e ∈ siblings s f, e.2.performed = false) → exec (.errorReturn op) s = .next s)
    ∧ ((∀ e ∈ siblings s f, e.2.performed = true) → ∀ y ∈ siblings s f, ∀ x ∈ y.2.lanes, ∀ e, x.err = some e →
        (∀ z ∈ siblings s f, ∀ a ∈ z.2.lanes, a.err.isSome = true → x.lane < a.lane ∨ a = x) →
        exec (.errorReturn op) s = .next (reapCore f.core (takeFault
          ⟨e.1, f.gid, f.warp, f.slice.code, x.lane, f.kind == .waita, f.pc.toNat, none, e.2.1.toNat, e.2.2⟩
          (faulty.foldl (fun t e => endFaulty e.1 e.2 t) s)))))
  ∧ (∀ (s : State) (op : Nat) (f : Flight) (g : Group), mget? s.groups f.gid = some g →
    (f.kind = .store ∨ f.kind = .czero ∨ f.kind = .cwb → ∃ u, FencesEnd { s with flight := mdel s.flight op } u
      ∧ endFaulty op f s = updSw (swKey f.gid f.warp f.slice) (fun x => { x with unack := x.unack - 1 }) u)
    ∧ (f.kind = .waita → FencesEnd { s with flight := mdel s.flight op } (endFaulty op f s))
    ∧ (f.kind = .load ∨ f.kind = .atomic → (∀ y ∈ f.lanes, y.lane < 64) →
        (endFaulty op f s).flight = mdel s.flight op ∧ (endFaulty op f s).longs = s.longs
        ∧ Lands s (endFaulty op f s) op (swKey f.gid f.warp f.slice) f.dest f.words
          (f.lanes.filterMap (fun y => if y.err = none then y.res.map (fun v => (y.lane, y.reg, loadValue f v)) else none))))
  ∧ (∀ (s : State) (op : Nat) (o : WorkOp) c a d, mget? s.flight op = none → mget? s.works op = some o → o.err = some (c, a, d) →
    exec (.errorReturn op) s = .next (reapGroup o.gid (takeFault ⟨c, o.gid, o.warp, o.slice.code, 0xFF, false, o.pc.toNat, none, a, d⟩
      { s with
        works := mdel s.works op
        flushes := s.flushes.map (fun e => (e.1, if e.2.covers.contains op then { e.2 with stuck := true } else e.2)) })))
  ∧ (∀ (s : State) (op : Nat) (w : Walk), mget? s.walks op = some w → hasWalker s op w = true → w.cores.Nodup →
    let ends := walkWith s (heldEntry s w.ret w.m w.root w.va) w.m w.root w.va
    let frame := fun (t : State) => { t with walks := s.walks, cores := s.cores, rets := s.rets, free := s.free } = s
      ∧ t.walks = mdel s.walks op ∧ (∀ k, k ∉ w.cores → t.core k = s.core k)
    (∀ base size e, ends = .leaf base size e →
      ∃ t, exec (.translationWalk op) s = .next t ∧ frame t
        ∧ (∀ r, { t.ret r with tlb2 := (s.ret r).tlb2, walkCache := (s.ret r).walkCache } = s.ret r)
        ∧ ∀ k ∈ w.cores, t.core k = { s.core k with tlb := tlbAdd 64 ⟨rootKey w.m w.root, base, size, e⟩ (s.core k).tlb }
          ∧ (foldTlb t k).head? = some ⟨rootKey w.m w.root, base, size, e⟩)
    ∧ (∀ cause, ends = .bad cause →
      ∃ t, exec (.translationWalk op) s = .next t ∧ frame t
        ∧ (∀ r, { t.ret r with walkCache := (s.ret r).walkCache } = s.ret r)
        ∧ ∀ k ∈ w.cores, t.core k = { s.core k with walkFaults := (rootKey w.m w.root, w.va / 65536, cause) :: (s.core k).walkFaults }))
  ∧ ∀ (s : State) (m root va size : Nat), ∃ t, exec (.shootdown m root va size) s = .next t
    ∧ { t with cores := s.cores, rets := s.rets } = s
    ∧ (∀ k, { t.core k with tlb := (s.core k).tlb, walkFaults := (s.core k).walkFaults } = s.core k
      ∧ ∀ x, x ∈ (t.core k).tlb ↔ x ∈ (s.core k).tlb ∧ ¬ (x.root = rootKey m root ∧ overlaps x.base x.size va size = true))
    ∧ ∀ r, { t.ret r with tlb2 := (s.ret r).tlb2, walkCache := (s.ret r).walkCache, lastStamp := (s.ret r).lastStamp
                          lastSeq := (s.ret r).lastSeq } = s.ret r
      ∧ (∀ w, w ∈ (t.ret r).walkCache ↔ w ∈ (s.ret r).walkCache ∧ w.root ≠ rootKey m root)
      ∧ ∀ f x, x ∈ mget (t.ret r).tlb2 f [] ↔ x ∈ mget (s.ret r).tlb2 f [] ∧ ¬ (x.root = rootKey m root ∧ overlaps x.base x.size va size = true)

/-- spec/11 R262, R263, R266, 14 R343, 16 R389: what ends a wait. WAITA goes on when its read found another value, its watch is over, the
pre-emption request is raised or 2^20 cycles have passed; SLEEP at its time or with the request raised; CWAIT when its condition holds, which is
an acquire of its core and its slice-warp, while a dead member or poison at the counter is a fault there; a partition in progress takes its new count of ways. -/
def Obligations.WaitsEnding : Prop :=
  ∀ (s : State) (gid warp : Nat) (sl : Slice) (g : Group), mget? s.groups gid = some g →
    let k := swKey gid warp sl
    (∃ t, exec (.waitaWake gid warp sl) s = .next t ∧ { t with threads := s.threads, watches := s.watches } = s
      ∧ Wakes s t k (fun w => ∃ since base, w = .waita since base ∧ (g.preq = true ∨ runningCounter s base = true
          ∨ ∀ y ∈ s.watches, y.sw = k → y.base ≠ base))
      ∧ (∀ y ∈ t.watches, y ∈ s.watches) ∧ ∀ y ∈ s.watches, y.sw ≠ k → y ∈ t.watches)
    ∧ (∃ t, exec (.waitaTimeout gid warp sl) s = .next t ∧ { t with threads := s.threads, watches := s.watches } = s
      ∧ Wakes s t k (fun w => ∃ since base, w = .waita since base ∧ 8 * 2 ^ 20 ≤ s.ticks - since)
      ∧ (∀ y ∈ t.watches, y ∈ s.watches) ∧ ∀ y ∈ s.watches, y.sw ≠ k → y ∈ t.watches)
    ∧ (∃ t, exec (.sleepExpiry gid warp sl) s = .next t ∧ { t with threads := s.threads } = s
      ∧ Wakes s t k (fun w => ∃ target, w = .sleep target ∧ (target ≤ wtime s (coreRet g.core) ∨ g.preq = true)))
    ∧ (∀ l sel thr, l < 64 → (s.thread (thKey k l)).wait = .cwait sel thr → (∀ j < l, ∀ a b, (s.thread (thKey k j)).wait ≠ .cwait a b) →
      (∀ cause addr d, cwaitDead s g.core sel = some (cause, addr, d) →
        exec (.cwaitReturn gid warp sl) s = .next (takeFault ⟨cause, gid, warp, sl.code, l, true,
          ((s.thread (thKey k l)).pc + BitVec.ofNat 64 (4 + 4 * (s.thread (thKey k l)).pos.getD 0)).toNat, none, addr, d⟩ s))
      ∧ (cwaitDead s g.core sel = none →
          (if bitOf sel.toNat 31 then
            ((mget (s.ret (coreRet g.core)).ccnt (bitsOf sel.toNat 9 0) 0).extractLsb' 0 32 - thr).toNat < 2 ^ 31
          else sextInt (ofBytesLE (readRaw s (scratchPa g.core (bitsOf sel.toNat 21 0)) 8)) 64 ≤ thr.toInt) →
          ∃ t, exec (.cwaitReturn gid warp sl) s = .next t ∧ { t with threads := s.threads, cores := s.cores, sws := s.sws } = s
            ∧ (∀ j, { t.sw j with order := (s.sw j).order } = s.sw j) ∧ (∀ o ∈ readsOf s k, o ∈ (t.sw k).order)
            ∧ Wakes s t k (fun w => w = .cwait sel thr) ∧ t.core g.core = { s.core g.core with l1 := [] }
            ∧ ∀ j, j ≠ g.core → t.core j = s.core j))
    ∧ (∀ op f x rest, mget? s.flight op = some f → f.kind = .waita → f.performed = true → raisesError f = false → landsAfter s op f = false →
      f.gid = gid → f.warp = warp → f.slice = sl → f.lanes = x :: rest →
      (x.res ≠ some (x.cmp.setWidth 128) → ∃ t, exec (.loadLanding op) s = .next t
        ∧ FencesEnd { s with flight := mdel s.flight op } { t with threads := s.threads } ∧ Wakes s t k (fun w => w = .waitaRead op))
      ∧ (x.res = some (x.cmp.setWidth 128) → ∃ t, exec (.loadLanding op) s = .next t
        ∧ FencesEnd { s with flight := mdel s.flight op } { t with threads := s.threads }
        ∧ ∀ j, t.thread j = if j / 64 = k ∧ (s.thread j).wait = .waitaRead op then
            { s.thread j with wait := .waita x.data.toNat (watchUnit x.pa).1 } else s.thread j))
    ∧ ∀ ret n, (s.ret ret).cpartTo = some n → ∃ t, exec (.cpartComplete ret) s = .next t
      ∧ t.ret ret = { s.ret ret with ways := n, cpartTo := none } ∧ (∀ r, r ≠ ret → t.ret r = s.ret r)
      ∧ t.threads = s.threads ∧ t.sws = s.sws ∧ t.queues = s.queues ∧ t.groups = s.groups ∧ t.mods = s.mods
      ∧ ∀ a,
        let moved := ∃ w, Nat.min (s.ret ret).ways n ≤ w ∧ w < Nat.max (s.ret ret).ways n
          ∧ paOf ret (scratchBase + (15 - w) * 0x600000) ≤ a ∧ a < paOf ret (scratchBase + (15 - w) * 0x600000) + 0x600000
        (moved → t.byte a = 0) ∧ (¬ moved → t.byte a = s.byte a)

/-- spec/13 R306, 15 R353 to R361, 16 R388, R395, 18 R444: what a request of the host does when it is not refused, to a doorbell, a core event
counter, a register or table entry of a reticle in service, or a table; the host is answered status 0. A table write that the spec forbids while
the entry is in use changes nothing. The numbers of the registers without an address are the model's (log 20). -/
def Obligations.HostRegistersAndTables : Prop :=
  ∀ (s : State) (m : Nat), (s.mod m).hostUp = true →
    (∀ door pidx k q, door < 4096 → doorQueue s m door = some k → mget? (s.mod m).queues k = some q → (pidx - q.cidx).toNat ≤ 2 ^ q.log2n →
      ∃ t ps, exec (.doorbellWrite m door pidx) s = .next t
        ∧ ModTurns s { t with watches := s.watches } m { s.mod m with
            doorbells := if mget (s.mod m).doorbells door 0 = pidx then (s.mod m).doorbells else mput (s.mod m).doorbells door pidx
            queues := mput (s.mod m).queues k { q with pidx := pidx, posters := ps } } [.status 0]
        ∧ (∀ i, (∃ j, j < (pidx - q.cidx).toNat ∧ i = (q.cidx.toNat + j) % 2 ^ 32) → mget? q.posters i = none → mget? ps i = some .host)
        ∧ (∀ i, (∀ j, j < (pidx - q.cidx).toNat → i ≠ (q.cidx.toNat + j) % 2 ^ 32) ∨ mget? q.posters i ≠ none → mget? ps i = mget? q.posters i)
        ∧ ∀ w, w ∈ t.watches ↔ w ∈ s.watches ∧ (mget (s.mod m).doorbells door 0 = pidx
            ∨ ∀ r ∈ [79, 87], overlaps w.base w.size (paOf (m * 128 + r) (deviceBase + 8 * door)) 8 = false))
    ∧ (∀ core idx value, modOf (coreRet core) = m → inService s (coreRet core) = true → idx < 8 → coreFold core < 34 →
      ∃ t, exec (.coreCounterWrite core idx value) s = .next t
        ∧ { t with cores := s.cores, watches := s.watches, hostOut := s.hostOut } = s ∧ t.hostOut = s.hostOut ++ [.status 0]
        ∧ (∀ k, (t.core k).uncounted = (s.core k).uncounted)
        ∧ ∀ k i, coreCounter t k i = if k = core ∧ i = idx then value else coreCounter s k i)
    ∧ (∀ ret, modOf ret = m → inService s ret = false →
      (∀ loc size v, exec (.registerWrite ret loc size v) s = .next (tell (.status 0x13) s))
      ∧ (∀ q v, exec (.endpointTableWrite ret q v) s = .next (tell (.status 0x13) s))
      ∧ (∀ p v, exec (.peerDescriptorWrite ret p v) s = .next (tell (.status 0x13) s))
      ∧ ∀ tree v, exec (.barrierTreeWrite ret tree v) s = .next (tell (.status 0x13) s))
    ∧ (∀ ret, modOf ret = m → inService s ret = true →
      let r := s.ret ret
      (∀ size v,
        let n := v.toNat % 2 ^ (8 * size)
        let sets := fun loc r' => ∃ t, exec (.registerWrite ret loc size v) s = .next t ∧ RetTurns s t ret r' [.status 0]
        (∃ t, exec (.registerWrite ret 0x41 size v) s = .next t ∧ wtime t ret = wtime s ret
          ∧ RetTurns s t ret { r with
              wtOff := r.wtOff + slewed s ret, slewBy := ((n % 2 ^ 64 : Nat) : Int) - (wtime s ret : Int), slewFrom := s.ticks } [.status 0])
        ∧ (∃ t, exec (.registerWrite ret 0x42 size v) s = .next t ∧ ModTurns s t m { s.mod m with skewb := BitVec.ofNat 32 n } [.status 0])
        ∧ sets 0x43 (if n % 2 ^ 32 < 3200 then r else { r with wmlim := BitVec.ofNat 32 n })
        ∧ (∀ e < 128, sets (0x1000 + e) { r with meshTab := mput r.meshTab e (BitVec.ofNat 8 n) })
        ∧ (∀ e < 1024, sets (0x2000 + e) { r with modTab := mput r.modTab e (BitVec.ofNat 32 (n % 2 ^ 25)) })
        ∧ (∀ e < 32, (s.mod m).regions = [] →
          sets (0x3000 + e) { r with groupList := mput r.groupList e (BitVec.ofNat 16 (n % 1024 + bitsOf n 15 15 * 0x8000)) })
        ∧ (∀ e < 32, (s.mod m).regions ≠ [] → exec (.registerWrite ret (0x3000 + e) size v) s = .next (tell (.status 0x13) s))
        ∧ sets 0x4000 { r with policy := BitVec.ofNat 32 (bitsOf n 15 4 * 16 + (if n % 4 = 3 then r.policy.toNat % 4 else n % 4)) }
        ∧ (∀ e < 640, sets (0x5000 + e)
          { r with rings := mput r.rings e (mget r.rings e 0 &&& ~~~(BitVec.ofNat 32 (bitsOf n 14 13 * 2 ^ 13))) })
        ∧ (300 ≤ n → n ≤ 415 → sets 0x6000 { r with threshold := n })
        ∧ (n < 300 ∨ 415 < n → exec (.registerWrite ret 0x6000 size v) s = .next (tell (.status 0x13) s)))
      ∧ (∀ q v, q < 1024 → ∃ t, exec (.registerWrite ret (deviceBase + 0x100000 + 8 * q) 8 v) s = .next t
        ∧ RetTurns s { t with watches := s.watches } ret { r with ccnt := mput r.ccnt q (v.extractLsb' 0 64) } [.status 0]
        ∧ ∀ w, w ∈ t.watches ↔ w ∈ s.watches ∧ (mget r.ccnt q 0 = v.extractLsb' 0 64
            ∨ overlaps w.base w.size (paOf ret (deviceBase + 0x100000 + 8 * q)) 8 = false))
      ∧ (∀ q v, q < 1024 → wrqUsed s ret q = 0 → ∃ t, exec (.endpointTableWrite ret q v) s = .next t
        ∧ RetTurns s t ret { r with endpoint := mput r.endpoint q (v &&& 0x1FFF) } [.status 0])
      ∧ (∀ q v, q < 1024 → wrqUsed s ret q ≠ 0 → exec (.endpointTableWrite ret q v) s = .next (tell (.status 0x12) s))
      ∧ (∀ p v, p < 4096 → (∀ op o, (op, o) ∈ s.works → o.ret = ret → o.wr.toPeer = true → o.wr.peer ≠ p) →
        ∃ t d, exec (.peerDescriptorWrite ret p v) s = .next t
          ∧ RetTurns s { t with watches := s.watches } ret { r with peers := mput r.peers p d } [.status 0]
          ∧ ∀ i < 256, d.getLsbD i = (v.getLsbD i
              && decide (i = 0 ∨ (16 ≤ i ∧ i < 28) ∨ (32 ≤ i ∧ i < 56) ∨ (64 ≤ i ∧ i < 74) ∨ 128 ≤ i)))
      ∧ (∀ p v op o, p < 4096 → (op, o) ∈ s.works → o.ret = ret → o.wr.toPeer = true → o.wr.peer = p →
        exec (.peerDescriptorWrite ret p v) s = .next (tell (.status 0x12) s))
      ∧ (∀ tree v, tree < 256 → treeBusy s ret tree = true → exec (.barrierTreeWrite ret tree v) s = .next (tell (.status 0x12) s))
      ∧ (∀ tree (v : BitVec 128), tree < 256 → treeBusy s ret tree = false →
        let old := mget r.trees tree ⟨0, 0, 0, 0, 0, 0, 0, [], false⟩
        let scope := if 10 < bitsOf v.toNat 31 28 then old.scope else bitsOf v.toNat 31 28
        (v.toNat % 2 ^ 64 = 0 ∨ 5 ≤ scope →
          ∃ t e, exec (.barrierTreeWrite ret tree v) s = .next t ∧ RetTurns s t ret { r with trees := mput r.trees tree e } [.status 0]
            ∧ e.up = (if bitsOf v.toNat 2 0 = 5 ∨ bitsOf v.toNat 2 0 = 6 then old.up else bitsOf v.toNat 2 0)
            ∧ e.down = bitsOf v.toNat 8 3 ∧ e.rootreg = bitsOf v.toNat 27 16 ∧ e.scope = scope
            ∧ e.expect = bitsOf v.toNat 63 32 ∧ e.count = 0 ∧ e.held = [] ∧ e.lost = false ∧ e.gen = old.gen
            ∧ (v.toNat % 2 ^ 64 = 0 → treeOf t ret tree = none))
        ∧ (v.toNat % 2 ^ 64 ≠ 0 → scope < 5 → exec (.barrierTreeWrite ret tree v) s = .next (tell (.status 0x13) s)))
      ∧ (∀ n, 4 ≤ n → n ≤ 16 → r.cpartTo = none → scratchMapped s ret = false →
        exec (.wpartWrite ret n) s = .next (tell (.status 0) (setWays ret n s)))
      ∧ (∀ n, 4 ≤ n → n ≤ 16 → r.cpartTo ≠ none ∨ scratchMapped s ret = true → exec (.wpartWrite ret n) s = .next (tell (.status 0x12) s))
      ∧ (∀ i value, 4 ≤ i → i ≤ 7 → ∃ t, exec (.extendMeasurement ret i value) s = .next t
        ∧ RetTurns s t ret { r with meas := mput r.meas i (sha3
            (bytesLE 32 (mget r.meas i 0).toNat ++ bytesLE 32 (sha3 (bytesLE 32 value.toNat)).toNat)) } [.status 0])
      ∧ ∀ nonce, exec (.attestationRequest ret nonce) s = .next (tell (.data (attestation s ret nonce)) s)
          ∧ (attestation s ret nonce).length = 7696)
    ∧ (∀ i (v : BitVec 128) p, mget? (s.mod m).policyTab i = some p →
      (v.toNat % 256 = p.kind → bitsOf v.toNat 15 8 = p.action → ∃ t e, exec (.errorPolicyWrite m i v) s = .next t
        ∧ ModTurns s t m { s.mod m with policyTab := mput (s.mod m).policyTab i e } [.status 0]
        ∧ e = { p with count := bitsOf v.toNat 63 32, window := bitsOf v.toNat 127 64 })
      ∧ (v.toNat % 256 ≠ p.kind ∨ bitsOf v.toNat 15 8 ≠ p.action → exec (.errorPolicyWrite m i v) s = .next (tell (.status 0x13) s)))
    ∧ (exec (.readIdentity m) s = .next (tell (.data (identityBytes (s.mod m) m)) s) ∧ (identityBytes (s.mod m) m).length = 0xC7C0 + 2420)
    ∧ (m < 1024 → (s.mod m).regions = [] → ∃ t, exec (.writeModid m m) s = .next t ∧ ModTurns s t m { s.mod m with
        modid := m, identity := { (s.mod m).identity with serial := some (serialOf (s.mod m) m) } } [.status 0])
    ∧ ∀ n, n < 1024 → n ≠ m → mget? s.mods n = none →
      ((s.mod m).regions ≠ [] → exec (.writeModid m n) s = .next (tell (.status 0x12) s))
      ∧ ((s.mod m).regions = [] → ∃ t, exec (.writeModid m n) s = .next t ∧ (t.mod n).modid = n
        ∧ serialOf (t.mod n) n = serialOf (s.mod m) m ∧ t.hostOut = s.hostOut ++ [.status 0])

/-- spec/02 R30, R31, R40, 13 R306, R310, 15 R352, 17 R414, 18 R447, R448: the port of the host. A request reaches a module only while the link is
up; LSTATE.HOST follows the link and the active command processor. Keys are loaded and erased; a root is made from an image and removed once
nothing of it runs; a stopped queue runs again from a corrected PIDX, its QCB written. The host reads and writes memory under a key id, and a
refused access changes nothing. A debugger that is attached to the root halts a running group, and reads, changes, resumes or discards the image
of a group halted for debug; one that is not attached is denied. -/
def Obligations.HostManagementAndDebug : Prop :=
  (∀ (s : State) (m : Nat), (s.mod m).hostUp = false →
    (∀ door v, exec (.doorbellWrite m door v) s = .next s) ∧ (∀ k img, exec (.loadKey m k img) s = .next s)
    ∧ (∀ img, exec (.createRoot m img) s = .next s) ∧ (∀ r, exec (.destroyRoot m r) s = .next s)
    ∧ (∀ pa key bs, exec (.hostRmaWrite m pa key bs) s = .next s) ∧ (∀ pa key n, exec (.hostRmaRead m pa key n) s = .next s)
    ∧ (∀ g, exec (.debugHalt m g) s = .next s) ∧ (∀ r, exec (.debugAttach m r) s = .next s))
  ∧ (∀ (s : State) (m : Nat), ∃ t, exec (.hostPortLinkDown m) s = .next t ∧ { t with mods := s.mods, rets := s.rets } = s
    ∧ ModTurns s { t with rets := s.rets } m { s.mod m with hostUp := false } []
    ∧ (∀ n ∈ siteList, t.ret (m * 128 + n) = { s.ret (m * 128 + n) with host := false })
    ∧ ∀ r, (∀ n ∈ siteList, r ≠ m * 128 + n) → t.ret r = s.ret r)
  ∧ (∀ (s : State) (m : Nat),
    let seen := fun (u : State) => ∀ r,
      ((∀ n ∈ siteList, r ≠ m * 128 + n) → u.ret r = s.ret r)
      ∧ ∀ n ∈ siteList, r = m * 128 + n → u.ret r = { s.ret r with host := (u.mod m).hostUp && inService s (cpRet u m) && inService s r
          && (mget? (meshDist s (servedRets s m) (cpRet u m) 31) r).isSome }
    ((s.mod m).booted = true → inService s (cpRet s m) = true → ∃ t, exec (.hostPortLinkUp m) s = .next t
      ∧ ModTurns s { t with rets := s.rets } m { s.mod m with hostUp := true } [] ∧ seen t)
    ∧ ∀ other, ((s.mod m).activeCp = 79 ∧ other = 87) ∨ ((s.mod m).activeCp = 87 ∧ other = 79) → inService s (m * 128 + other) = true →
        ∃ t, exec (.commandProcessorTakeover m) s = .next t
          ∧ ModTurns s { t with rets := s.rets } m { s.mod m with activeCp := other } [] ∧ seen t)
  ∧ ∀ (s : State) (m : Nat), (s.mod m).hostUp = true →
    let x := s.mod m
    (∀ key img, 0 < key → key < 256 → img.length = 1168 → fieldLE img 0 2 = 1 → fieldLE img 4 4 = 0 →
      let kem := (img.drop 8).take 1088
      (fieldLE img 2 2 = 1 → ∃ t, exec (.loadKey m key img) s = .next t ∧ ModTurns s t m { x with keys := mdel x.keys key } [.status 0])
      ∧ (fieldLE img 2 2 = 0 → kem ∉ x.kemUsed →
        (∀ k, unwrapped (serialOf x m) x.boots key kem (img.drop 0x448) = some k → ∃ t, exec (.loadKey m key img) s = .next t
          ∧ ModTurns s t m { x with keys := mput x.keys key k, kemUsed := x.kemUsed ++ [kem] } [.status 0])
        ∧ (unwrapped (serialOf x m) x.boots key kem (img.drop 0x448) = none →
          exec (.loadKey m key img) s = .next (tell (.status 0x13) s))))
    ∧ (∀ key img, key = 0 ∨ 256 ≤ key ∨ img.length ≠ 1168 ∨ fieldLE img 0 2 ≠ 1 ∨ 2 ≤ fieldLE img 2 2 ∨ fieldLE img 4 4 ≠ 0
        ∨ (fieldLE img 2 2 = 0 ∧ (img.drop 8).take 1088 ∈ x.kemUsed) → exec (.loadKey m key img) s = .next (tell (.status 0x13) s))
    ∧ (∀ img i t, mget? x.regions 0xFFFF = none → createNode m 0xFFFF true img s = (0, i, t) →
      exec (.createRoot m img) s = .next (tell (.data (bytesLE 2 i)) (tell (.status 0) t))
      ∧ img.length = 128 ∧ mget? x.regions i = none ∧ (t.mod m).regions = mput x.regions i (newRegion s.nextId (rcbOf img 0xFFFF 0)))
    ∧ (∀ img st i t, createNode m 0xFFFF true img s = (st, i, t) → st ≠ 0 → exec (.createRoot m img) s = .next (tell (.status st) s))
    ∧ (∀ root r, mget? x.regions root = some r → r.rcb.parent = 0xFFFF → smem x.dying root = true →
      (∀ c ∈ x.cmds, c.root ≠ root) → nodeBusy s m root = false →
      ∃ t, exec (.destroyRoot m root) s = .next t
        ∧ { t with mods := s.mods, cores := s.cores, rets := s.rets, rawFrames := s.rawFrames, hostOut := s.hostOut } = s
        ∧ t.hostOut = s.hostOut ++ [.status 0] ∧ (∀ i, i ≠ m → t.mod i = s.mod i) ∧ t.rawFrames = (freeFrames m root s).rawFrames
        ∧ t.mod m = { x with
            regions := x.regions.filter (fun e => !(subtree s m root).contains e.1)
            handlers := x.handlers.filter (fun e => !(subtree s m root).contains e.1), queueTurn := mdel x.queueTurn root
            queues := x.queues.filter (fun e => e.1 / 64 != root), dying := sdel x.dying root, attached := sdel x.attached root }
        ∧ ∀ k e, e ∈ (t.core k).tlb → e.root = rootKey m root → overlaps e.base e.size 0 (2 ^ 57) = false)
    ∧ (∀ root r, mget? x.regions root = some r → r.rcb.parent = 0xFFFF → smem x.dying root = true →
      (∃ c ∈ x.cmds, c.root = root) ∨ nodeBusy s m root = true → exec (.destroyRoot m root) s = .next s)
    ∧ (∀ root, mget? x.regions root = none → exec (.destroyRoot m root) s = .next (tell (.status 0x13) s))
    ∧ (∀ root queue pidx q, mget? x.queues (cqKey root queue) = some q → q.state ≠ 0 → (pidx - q.cidx).toNat ≤ 2 ^ q.log2n →
      ∃ u q', exec (.restartQueue m root queue pidx) s = .next (tell (.status 0) (writeQcb m root q' u))
        ∧ ModTurns s u m { x with queues := mput x.queues (cqKey root queue) q', doorbells := mput x.doorbells q.doorbell pidx } []
        ∧ { q' with posters := q.posters } = { q with state := 0, pidx := pidx })
    ∧ (∀ pa key bs, isDevice pa = false →
      (hostRange s m pa key bs.length true = 0 → exec (.hostRmaWrite m pa key bs) s = .next (tell (.status 0) (writeKey s key pa bs)))
      ∧ (hostRange s m pa key bs.length true ≠ 0 → exec (.hostRmaWrite m pa key bs) s = .next (tell (.status 0x13) s)))
    ∧ (∀ pa key n, isDevice pa = false →
      (hostRange s m pa key n false = 0 → exec (.hostRmaRead m pa key n) s = .next (tell (.data (readKey s key pa n)) s))
      ∧ (hostRange s m pa key n false ≠ 0 → exec (.hostRmaRead m pa key n) s = .next (tell (.status 0x13) s)))
    ∧ (∀ root r, mget? x.regions root = some r → r.rcb.parent = 0xFFFF → ∃ t, exec (.debugAttach m root) s = .next t
      ∧ ModTurns s t m { x with attached := sadd x.attached root } [.status 0])
    ∧ (∀ gid g, mget? s.groups gid = some g → g.m = m →
      (smem x.attached g.root = true → g.phase = .running → exec (.debugHalt m gid) s = .next (tell (.status 0)
        (beginHalt gid (fun y => { y with forced := true, debug := true }) (settlePort ⟨g.core, .execute⟩ (settlePort ⟨g.core, .access⟩ s)))))
      ∧ (smem x.attached g.root = true → g.phase = .halting → exec (.debugHalt m gid) s = .next (tell (.status 0x12) s))
      ∧ (smem x.attached g.root = false → exec (.debugHalt m gid) s = .next (tell (.status 0x11) s)))
    ∧ ∀ gid im, mget? s.groups gid = none → mget? x.saved gid = some im →
      (smem x.attached im.group.root = false →
        (∀ o n, exec (.debugReadImage m gid o n) s = .next (tell (.status 0x11) s))
        ∧ (∀ o bs, exec (.debugWriteImage m gid o bs) s = .next (tell (.status 0x11) s))
        ∧ exec (.debugResume m gid) s = .next (tell (.status 0x11) s) ∧ exec (.debugDiscard m gid) s = .next (tell (.status 0x11) s))
      ∧ (smem x.attached im.group.root = true → im.group.phase ≠ .lost →
        (∀ o n, o + n ≤ (imageBytes gid im).length → exec (.debugReadImage m gid o n) s = .next
          (tell (.data (((imageBytes gid im).drop o).take n)) (tell (.status 0) s)))
        ∧ (∀ o bs im', o + bs.length ≤ partsSize (imageParts gid im) → writeParts o bs 0 (imageParts gid im) im = some im' →
          ∃ t, exec (.debugWriteImage m gid o bs) s = .next t ∧ ModTurns s t m { x with saved := mput x.saved gid im' } [.status 0])
        ∧ (∀ o bs, writeParts o bs 0 (imageParts gid im) im = none → exec (.debugWriteImage m gid o bs) s = .next (tell (.status 0x13) s))
        ∧ (im.debug = true → exec (.debugDiscard m gid) s = .next (tell (.status 0) (discardSaved m gid s))
          ∧ ∃ t im', exec (.debugResume m gid) s = .next t ∧ ModTurns s t m { x with saved := mput x.saved gid im' } [.status 0]
            ∧ im'.debug = false ∧ im'.halted = false ∧ im'.group.halt = none ∧ im'.threads = im.threads ∧ im'.sws = im.sws
            ∧ im'.queues = im.queues ∧ im'.spad = im.spad ∧ im'.bank = im.bank)
        ∧ (im.debug = false → im.halted = true →
          exec (.debugDiscard m gid) s = .next (tell (.status 0x11) s) ∧ exec (.debugResume m gid) s = .next (tell (.status 0x11) s)))

/-- spec/12 R269, R277 to R286, 14 R322 to R326, R331, R332, R334, R369, 16 R387, R388, R390: what the engines and the endpoint do when nothing of
it is faulty: the operation at the head of the MX queue or the chain at the head of the Sparge engine is performed, and then its flags are
ORed into FPFLAGS and its tag counts one less; the oldest work request of a queue leaves it, stamped when it is ordered, and its packets of at
most 256 bytes enter the fabric; a packet places its bytes or performs its atomic at the target; a send completion, the bytes of a READ, the old
value of an ATOMIC and an NFLUSH take one off their tag. A tag that counts less lets the threads go on whose wait it ends. The group ends when
nothing of it is left (reapGroup). -/
def Obligations.EnginesAndPackets : Prop :=
  (∀ (s : State) (gid n : Nat) (g : Group), mget? s.groups gid = some g →
    let t := tagDown gid n s
    { t with groups := s.groups, threads := s.threads, sws := s.sws } = s ∧ (∀ k, { t.sw k with order := (s.sw k).order } = s.sw k)
    ∧ ∃ g', mget? t.groups gid = some g' ∧ { g' with tags := g.tags } = g ∧ tagCount g' n = tagCount g n - 1
      ∧ (∀ k, k ≠ n → tagCount g' k = tagCount g k) ∧ (∀ j, j ≠ gid → mget? t.groups j = mget? s.groups j)
      ∧ (∀ k all m, k / 2048 = gid → (s.thread k).wait = .tags all m → tagsMet (tagsReg g') m all = true →
          t.thread k = { s.thread k with pc := (s.thread k).nextPc, pos := none, wait := .none })
      ∧ ∀ k, (k / 2048 ≠ gid ∨ ∀ all m, (s.thread k).wait = .tags all m → tagsMet (tagsReg g') m all = false) → t.thread k = s.thread k)
  ∧ (∀ (s : State) (core : Nat) (o : MxOp) rest, (s.core core).mxq = o :: rest →
    let banks := mxBankWrites s core o
    let rows := mxstRows s core o
    let stores := mxStores o rows
    mxFound s core o stores = none → (∀ op ∈ o.after, mget? s.flight op = none) →
    ∃ v t fl, exec (.mxOperationComplete core) s = .next (reapGroup o.gid (tagDown o.gid o.tag
        (clearPending (swKey o.gid o.warp o.slice) o.op (mergeFlags (swKey o.gid o.warp o.slice) fl t))))
      ∧ fl = (rows.map (·.2.2) ++ banks.map (·.2.2)).foldl (· ||| ·) 0
      ∧ { v with cores := s.cores } = s ∧ (∀ k, k ≠ core → v.core k = s.core k)
      ∧ { v.core core with bank := (s.core core).bank } = { s.core core with mxn := (s.ret (coreRet core)).alarm, mxq := rest }
      ∧ (∀ i j, i < 64 → j < o.n →
        (o.sub = 0 → bankWord v core (accWord o i j) = (mxmaElem s core o i j).1)
        ∧ (o.accInt = true → (mxmaElem s core o i j).1 = updateInt32 (if o.ovw then 0 else bankWord s core (accWord o i j))
            (((upFrom 0 64).map (fun k => intOf o.aType o.asgn (mxA s core o i k) * intOf o.bType o.bsgn (mxB s core o k j))).foldl (· + ·) 0))
        ∧ (o.sub = 1 → bankWord v core (accWord o i j) =
            BitVec.ofNat 32 (scratchElem s core (mxPlace o.a0 o.a1 (i / 16) (i % 16) (4 * j)) j 32))
        ∧ (o.sub = 3 → bankWord v core (accWord o i j) = 0))
      ∧ (∀ k, (o.sub = 2 ∨ ∀ i j, i < 64 → j < o.n → k ≠ accWord o i j) → bankWord v core k = bankWord s core k)
      ∧ OnlyStores v { t with threads := s.threads } ∧ t.mem = (stores.foldl (fun y p => writeKey y 0 (scratchPa core p.1) p.2) v).mem
      ∧ (o.sub ≠ 2 ∨ mxReg o.a0 = false → t.threads = s.threads)
      ∧ (o.sub = 2 → mxReg o.a0 = true → ∀ r ∈ rows, ∀ j < o.n * typeBits o.oType / 32,
          readCode (t.thread (thKey (swKey o.gid o.warp o.slice) r.1)) (mxCode o o.a0 r.1 + j) = BitVec.ofNat 32 (r.2.1 / 2 ^ (32 * j))))
  ∧ (∀ (s : State) (core : Nat) (o : CopyOp) rest (g : Group), (s.core core).copyq = o :: rest → mget? s.groups o.gid = some g →
    writesDone s o.after = true →
    let r := copyChain (agentOf s core g) chainSteps o s
    let t := { r.s with free := r.s.free + 1 }
    (r.found = none → exec (.copyComplete core) s = .next (reapGroup o.gid (tagDown o.gid o.tag
      (mergeFlags (swKey o.gid o.warp o.slice) r.fl (updCore core (fun c => { c with copyq := rest }) t)))))
    ∧ ∀ f, r.found = some f → exec (.copyComplete core) s = .next (takeFault
        ⟨f.1, o.gid, o.warp, o.slice.code, 0xFF, false, o.pc.toNat, none, f.2.1, f.2.2⟩
        (updCore core (fun c => { c with copyq := c.copyq.filter (fun p => p.gid != o.gid) }) t)))
  ∧ (∀ (a : Agent) (n : Nat) (o : CopyOp) (s : State),
    (∀ o' t, copyStep a o s = .more o' t → copyChain a (n + 1) o s = copyChain a n o' t)
    ∧ (∀ fl t, copyStep a o s = .ended fl t → copyChain a (n + 1) o s = ⟨t, fl, none⟩)
    ∧ ∀ f t, copyStep a o s = .fault f t → copyChain a (n + 1) o s = ⟨t, 0, some f⟩)
  ∧ (∀ (s : State) (a : Agent) (o : CopyOp) (bs : List Byte) (was : List Host.Cell), descFault s a o.desc = none →
    (o.done.begun = some (bs, was) ∨ (o.done.begun = none ∧ bs = readRaw s (scratchPa a.core o.desc) 64 ∧ was = s.mem)) →
    let d := o.done
    let c := copyDesc bs
    let crc := d.crc.getD (if bitOf c.flags 2 then d.prev else c.crcIn)
    let status := fun (b : Byte) t => descWrite a.core o.desc 0x17 [b] t
    (c.bad s a.core a.sp.m a.sp.root o.slot d.k = true → copyStep a o s = .ended d.fl (status 3 s))
    ∧ (c.bad s a.core a.sp.m a.sp.root o.slot d.k = false →
      (∀ pa key pa' key', d.unit < c.length / 16 → bitOf c.flags 0 = false → d.rest = [] →
        agentReach s a .read (c.src + 16 * d.unit) 16 0 0 = .ok pa key →
        agentReach s a .write (c.dst + d.out) 16 c.dst (c.dst + c.outLength o.slot) = .ok pa' key' →
        ∃ v, (v = agentRead { s with mem := was } a key pa 16 ∨ v = agentRead s a key pa 16)
          ∧ copyStep a o s = .more { o with done := { d with
              begun := some (bs, was), crc := some (crc32c crc v), unit := d.unit + 1, out := d.out + 16, put := d.put ++ [(pa', key', v)] } }
            (agentWrite a key' pa' v { s with free := s.free + 1 }))
      ∧ (c.length / 16 ≤ d.unit →
        let u := raceUnits a d s
        let t := if bitOf c.flags 1 then descWrite a.core o.desc 0x1C (bytesLE 4 crc) u else u
        (bitOf c.flags 1 = true → bitOf c.flags 5 = true → crc ≠ c.crcExp → copyStep a o s = .ended d.fl (status 2 t))
        ∧ (bitOf c.flags 1 = false ∨ bitOf c.flags 5 = false ∨ crc = c.crcExp → copyStep a o s =
            if bitOf c.flags 3 then .more { o with desc := c.next, done := { CopyAt.start with
              k := d.k + 1, prev := if bitOf c.flags 1 then crc else c.crcOut, fl := d.fl } } (status 1 t)
            else .ended d.fl (status 1 t)))))
  ∧ (∀ (s : State) (ret queue op : Nat) rest (o : WorkOp), mget (s.ret ret).wrq queue [] = op :: rest → mget? s.works op = some o →
    sendsFrom s ret queue = true →
    let popped := updRet ret (fun r => { r with
      wrqTurn := queue, wrq := if rest.isEmpty then mdel r.wrq queue else mput r.wrq queue rest }) s
    let w := o.wr
    let sent := fun (t : State) => exec (.workRequestSend ret queue) s = .next t
    let done := fun (t : State) => updWork op (fun x => { x with injected := true }) t
    (o.err ≠ none → sent popped)
    ∧ (o.err = none →
      (w.opc < 2 → sent (done (sendUnits op (w.length + 1) popped)))
      ∧ (2 ≤ w.opc → w.toPeer = true → sent (done (updWork op (fun x => { x with moved := 0 }) (leavePacket op o [] popped))))
      ∧ (w.opc = 3 → w.toPeer = false → w.laddr % 8 = 0 → w.raddr % 8 = 0 → sent (done (leavePacket op o [] popped)))
      ∧ (w.opc = 3 → w.toPeer = false → w.laddr % 8 ≠ 0 ∨ w.raddr % 8 ≠ 0 → sent (failWork op .remoteError w.raddr 0 popped))
      ∧ (w.opc = 2 → w.toPeer = false → sent (if (packetRoute popped o).isNone then failWork op .remoteError w.raddr 0 popped else done popped))))
  ∧ (∀ (w : WorkReq) (off : Nat), off < w.length →
    off < w.packetEnd off ∧ w.packetEnd off ≤ w.length ∧ w.packetEnd off ≤ off + (if w.toPeer then 4096 else 256)
    ∧ (w.toPeer = false → (w.raddr + (w.packetEnd off - 1)) / 65536 = (w.raddr + off) / 65536))
  ∧ (∀ (s : State) (op fuel : Nat) (o : WorkOp), mget? s.works op = some o →
    let at_ := o.moved + o.taken.length
    (o.err ≠ none ∨ o.wr.length ≤ o.moved → sendUnits op (fuel + 1) s = s)
    ∧ (o.err = none → o.moved < o.wr.length → sendUnits op (fuel + 1) s = sendUnits op fuel (sendUnit op o s))
    ∧ (placeOf s (workAgent s o) .read none (o.wr.laddr + at_) = none → sendUnit op o s = failSend op o .remoteError (o.wr.laddr + at_) 0 s)
    ∧ ∀ pa key, placeOf s (workAgent s o) .read none (o.wr.laddr + at_) = some (pa, key) →
      let n := Nat.min (16 - (o.wr.laddr + at_) % 16) (o.wr.packetEnd o.moved - at_)
      (∀ c x d bs, readUnit s o.ret 0 pa key n (o.wr.laddr + at_) = (some (c, x, d), bs) → sendUnit op o s = failSend op o c x d s)
      ∧ ∀ bs, readUnit s o.ret 0 pa key n (o.wr.laddr + at_) = (none, bs) → bs = readKey s key pa n
          ∧ sendUnit op o s = (if o.moved + (o.taken ++ bs).length = o.wr.packetEnd o.moved then leavePacket op o (o.taken ++ bs) s
            else updWork op (fun x => { x with taken := o.taken ++ bs }) s))
  ∧ (∀ (s : State) (op : Nat) (o : WorkOp) (bs : List Byte) pa key route, mget? s.works op = some o → o.wr.toPeer = false →
    placeOf s (workAgent s o) .write (some o.wr.target) (o.wr.raddr + o.moved) = some (pa, key) → packetRoute s o = some route →
    let w := o.wr
    ∃ t o', leavePacket op o bs s = t ∧ mget? t.works op = some o'
      ∧ { o' with stamp := o.stamp, seq := o.seq } =
          { o with moved := o.moved + bs.length, taken := [], outstanding := o.outstanding + 1, route := some route }
      ∧ (o.moved = 0 → w.ordered = true → w.puts = true →
          o'.stamp = Nat.max (wtime s o.ret) ((s.ret o.ret).lastStamp + 1) ∧ o'.seq = ((s.ret o.ret).lastSeq + 1) % 2 ^ 32
          ∧ (t.ret o.ret).lastStamp = o'.stamp ∧ (t.ret o.ret).lastSeq = o'.seq)
      ∧ (o.moved ≠ 0 ∨ w.ordered = false ∨ w.puts = false → o'.stamp = o.stamp ∧ o'.seq = o.seq ∧ t.rets = s.rets)
      ∧ mget? t.wire s.nextId = some
          { src := o.ret, dst := w.target, ordered := w.ordered, stamp := o'.stamp, seq := o'.seq, pos := o.ret, moved := false
            route := route, crossed := false, placed := 0, body := if w.opc = 3 then .atomic op pa key else .put op pa key bs }
      ∧ (∀ k, k ≠ s.nextId → mget? t.wire k = mget? s.wire k) ∧ t.nextId = s.nextId + 1
      ∧ { t with works := s.works, rets := s.rets, wire := s.wire, nextId := s.nextId } = s)
  ∧ (∀ (s : State) (src force key va fuel pa : Nat) (bs : List Byte),
    writeUnits src force key va fuel pa [] s = (s, none)
    ∧ (bs ≠ [] →
      let span := if smem s.poison (unitBase pa) then Nat.max 16 (unitSize pa) else 16
      let n := Nat.min bs.length (span - pa % span)
      0 < n ∧ (∀ f, packetCause s src force pa key n false va = some f → writeUnits src force key va (fuel + 1) pa bs s = (s, some f))
      ∧ (packetCause s src force pa key n false va = none →
          writeUnits src force key va (fuel + 1) pa bs s = writeUnits src force key va fuel (pa + n) (bs.drop n) (writeKey s key pa (bs.take n)))))
  ∧ (∀ (s : State) (pkt : Nat) (p : Packet), mget? s.wire pkt = some p → atTarget s p = true →
    let u := { s with wire := mdel s.wire pkt }
    (∀ op pa key bs t, p.body = .put op pa key bs →
      (writeUnits p.src (workRoute u op) key (workRaddr u op) bs.length (pa + p.placed) (bs.drop p.placed) u = (t, none) →
        exec (.putPacketPlaced pkt) s = .next (packetDone op (landPacket op pa bs.length t)))
      ∧ ∀ c b d, writeUnits p.src (workRoute u op) key (workRaddr u op) bs.length (pa + p.placed) (bs.drop p.placed) u = (t, some (c, b, d)) →
        exec (.putPacketPlaced pkt) s = .next (packetDone op (failWork op c b d t)))
    ∧ ∀ op pa key o, p.body = .atomic op pa key → mget? s.works op = some o → packetCause u p.src o.wr.route pa key 8 true o.wr.raddr = none →
        let old := BitVec.ofNat 64 (readNat u key pa 8)
        let new := applyAop o.wr.aop true old (BitVec.ofNat 64 o.wr.operand) (BitVec.ofNat 64 o.wr.compare)
        exec (.putPacketPlaced pkt) s = .next (packetDone op (updWork op (fun x => { x with old := some old }) (writeKey u key pa (bytesLE 8 new.toNat)))))
  ∧ (∀ (s : State) (op : Nat) (o : WorkOp), mget? s.works op = some o →
    let less := updWork op (fun x => { x with outstanding := x.outstanding - 1 }) s
    let last := o.outstanding = 1 ∧ o.injected = true ∧ o.wr.opc = 1 ∧ o.wr.toPeer = false ∧ o.err = none
    (¬ last → packetDone op s = reapGroup o.gid (settleWork op less))
    ∧ (last → packetDone op s = reapGroup o.gid (settleWork op (countImm o.wr.target o.wr.cctr o.wr.imm less)))
    ∧ (o.wr.opc < 2 → o.injected = true → o.sent = false → o.err = none → exec (.sendCompletion op) s = .next (reapGroup o.gid (settleWork op
        (tagDown o.gid o.wr.tag (updWork op (fun x => { x with sent := true }) s)))))
    ∧ (∀ t x u, readGoes s o = true → fetchUnits op (o.wr.length + 1) s = t → mget? t.works op = some x → x.err = none →
      landLocal (workAgent s x) (x.taken.length + 1) (x.wr.laddr + x.moved) x.taken t = (u, none) →
      exec (.readLanded op) s = .next (reapGroup x.gid (tagDown x.gid x.wr.tag { u with works := mdel u.works op })))
    ∧ (∀ fuel,
      let at_ := o.moved + o.taken.length
      let n := Nat.min (16 - (o.wr.raddr + at_) % 16) (o.wr.length - at_)
      (o.err ≠ none ∨ o.wr.length ≤ at_ → fetchUnits op (fuel + 1) s = s)
      ∧ ∀ pa key bs, o.err = none → at_ < o.wr.length → o.wr.toPeer = false →
        placeOf s (workAgent s o) .read (some o.wr.target) (o.wr.raddr + at_) = some (pa, key) →
        readUnit s o.ret o.wr.route pa key n (o.wr.raddr + at_) = (none, bs) →
        bs = readKey s key pa n
        ∧ fetchUnits op (fuel + 1) s = fetchUnits op fuel (updWork op (fun x => { x with taken := x.taken ++ bs }) s))
    ∧ ∀ v t, mget? s.flight op = none → o.wr.toPeer = false → o.old = some v → o.err = none → o.orphan = false →
      landLocal (workAgent s o) 9 o.wr.laddr (bytesLE 8 v.toNat) { s with free := s.free + 1 } = (t, none) →
      exec (.atomicLanding op) s = .next (reapGroup o.gid (tagDown o.gid o.wr.tag { t with works := mdel t.works op })))
  ∧ (∀ (s : State) (i : Nat) (imm ret : Nat), mget (countImm ret i imm s |>.ret ret).ccnt i 0 =
      ((mget (s.ret ret).ccnt i 0).extractLsb' 32 32 + BitVec.ofNat 32 imm) ++ ((mget (s.ret ret).ccnt i 0).extractLsb' 0 32 + 1))
  ∧ (∀ (s t : State) (a : Agent) (va fuel n : Nat) (bs : List Byte) pa e, bs ≠ [] → translateNow s a.sp .write va = .ok pa e →
    writeUnit (coreRet a.core) 0 pa (pteKey e) (bs.take (65536 - va % 65536)) va s = (t, n, none) →
    landLocal a (fuel + 1) va bs s = landLocal a fuel (va + n) (bs.drop n) t)
  ∧ ∀ (s : State) (op : Nat) (f : FlushOp), mget? s.flushes op = some f → f.stuck = false → (∀ k ∈ f.covers, placedWholly s k = true) →
      exec (.nflushComplete op) s = .next (reapGroup f.gid (tagDown f.gid f.tag { s with flushes := mdel s.flushes op }))

/-- spec/02 R44, R45, R47, R50 to R54, R56 to R66, 04 R106, 13 R301: RUN_ISSUE at a run boundary completes by issuing the next run of the ready active
slice-warp of the highest effective priority, the least recent among equals, and of it the PC group that issued least recently; a run that
cannot be decoded raises its reason; with nothing ready a cycle passes. A run is ready when it decodes, names no pending register, no full
work-request queue and no queue that it must wait for, and holds nothing that a pending fence holds back. DROVER_SWAP exchanges a stalled
slice-warp, whose latches are lost, for a ready pending one, and PENDING_LONG_WAIT the least recent for one ready and pending for 1,024 cycles,
unless its priority is higher. DECOUPLE_DEADLOCK: two slices that wait for each other's queues for 65,536 cycles are a fault.
GRID_DEPENDENCY_MET: a grid whose dependency is met dispatches, a persistent one with all its groups at once. GROUP_PLACE: a group of the first
region in order comes to the first core window from the cursor that has room, its threads at their entry points. PRIORITY_AGING: a region that
waits for 10 ms rises by a level, up to the cap, and falls back when it no longer waits. Ties are the model's choice (log 16). -/
def Obligations.IssueAndScheduling : Prop :=
  (∀ (s : State) (core : Nat) (sl : Slice),
    let p : Port := ⟨core, sl⟩
    let u := fillActive 8 p (settlePort p s)
    let xs := survey u p
    let v := noteDeadlock p (noteDecoupling p xs (startFetches p xs (noteReady p xs u)))
    let chosen := argMin (fun x => (1000 - x.prio) * 2 ^ 64 + x.sw.lastIssue) (xs.filter (fun x => x.sw.active && x.isReady))
    (s.portRun p ≠ none ∨ (s.core core).dead = true → exec (.runIssue core sl) s = .next { s with ticks := s.ticks + 8 })
    ∧ (s.portRun p = none → (s.core core).dead = false →
      (∀ x pg r, chosen = some x → x.pick = some (pg, .ready r) → (∀ l ∈ pg.lanes, l < 64) →
        ∃ t run, exec (.runIssue core sl) s = .next t ∧ t.portRun p = some run ∧ run.gid = x.h.gid ∧ run.warp = x.h.warp ∧ run.slice = sl
          ∧ run.lanes = laneSet pg.lanes ∧ run.addr = pg.pc ∧ run.header = r.header ∧ run.words = r.words ∧ run.trailers = r.trailers
          ∧ run.pos = pg.pos.getD 0 ∧ run.left = 0 ∧ t.mem = s.mem ∧ t.queues = v.queues ∧ t.groups = v.groups ∧ t.ticks = s.ticks
          ∧ (t.sw (swKey x.h.gid x.h.warp sl)).lastIssue = (v.core core).issueNo + 1
          ∧ ∀ l ∈ pg.lanes, t.thread (thKey (swKey x.h.gid x.h.warp sl) l) =
              { v.thread (thKey (swKey x.h.gid x.h.warp sl) l) with
                lastIssue := (v.core core).issueNo + 1, splitRank := 0, pos := none, passDone := false })
      ∧ (∀ x pg e, chosen = some x → x.pick = some (pg, .stop e) → exec (.runIssue core sl) s = .next (runFault p x.h pg e v))
      ∧ (chosen = none → exec (.runIssue core sl) s = .next { v with ticks := v.ticks + 8 })))
  ∧ (∀ (s : State) (core gid : Nat) (g : Group) (warp : Nat) (sl : Slice) (pg : PcGroup) (r : RunWords),
    decodeRun (fetchWord s core g) g.launch pg.pc.toNat = .ok r →
    let is := (runInstrs 25 0 r.words).filter (fun i => decide (i.1 ≥ pg.pos.getD 0))
    (verdict s core gid g warp sl pg = .ready r ↔
      runPending s (swKey gid warp sl) pg.lanes is = false ∧ queueWaits s gid warp sl g.launch pg.lanes is = []
      ∧ (fencePending s (swKey gid warp sl) = true → ∀ i ∈ is, heldByFence i.2.1 i.2.2 = false)
      ∧ ∀ q ∈ postsOf is, wrqUsed s (coreRet core) q + ((postsOf is).filter (· == q)).length ≤ 64))
  ∧ (∀ (fetch : Nat → Fetched) (l : Launch) (h : Nat) (w : W32), fetch h = .word w →
    (opOf w ≠ 0 → decodeRun fetch l h = .error (.reason 0x06 w))
    ∧ (opOf w = 0 → bitsOf w.toNat 24 20 = 0 ∨ 24 < bitsOf w.toNat 24 20 → decodeRun fetch l h = .error (.reason 0x01 w))
    ∧ (opOf w = 0 → 1 ≤ bitsOf w.toNat 24 20 → bitsOf w.toNat 24 20 ≤ 24 →
        (∃ g ∈ [bitsOf w.toNat 19 15, bitsOf w.toNat 14 10, bitsOf w.toNat 9 5], 24 ≤ g ∧ g ≤ 30) → decodeRun fetch l h = .error (.reason 0x02 w))
    ∧ (opOf w = 0 → 1 ≤ bitsOf w.toNat 24 20 → bitsOf w.toNat 24 20 ≤ 24 →
        (∀ g ∈ [bitsOf w.toNat 19 15, bitsOf w.toNat 14 10, bitsOf w.toNat 9 5], g < 24 ∨ 30 < g) → bitsOf w.toNat 3 0 ≠ 0 →
        decodeRun fetch l h = .error (.reason 0x0C w)))
  ∧ (∀ (s : State) (core : Nat) (sl : Slice) (a b : Seen),
    let p : Port := ⟨core, sl⟩
    let xs := survey s p
    let ka := swKey a.h.gid a.h.warp sl
    let kb := swKey b.h.gid b.h.warp sl
    let swaps := fun (i : Instr) => ∃ t, exec i s = .next t
      ∧ { t with threads := s.threads, sws := s.sws, cores := s.cores, watches := s.watches } = s
      ∧ t.sw ka = { s.sw ka with active := false, pendSince := s.ticks, readySince := none }
      ∧ t.sw kb = { s.sw kb with active := true }
      ∧ (∀ k, k ≠ ka → k ≠ kb → t.sw k = s.sw k) ∧ (∀ k, (t.core k).uncounted = (s.core k).uncounted)
      ∧ (∀ l < a.h.g.launch.visible, t.thread (thKey ka l) = { s.thread (thKey ka l) with latch := [], latchUni := [] })
      ∧ ∀ k, (∀ l < a.h.g.launch.visible, k ≠ thKey ka l) → t.thread k = s.thread k
    s.portRun p = none →
    (argMin (fun x => x.sw.lastIssue) (xs.filter (fun x => x.sw.active && x.stalled s p)) = some a → swapIn xs = some b →
      swaps (.droverSwap core sl))
    ∧ (argMin (fun x => x.sw.lastIssue) (xs.filter (·.sw.active)) = some a →
      swapIn (xs.filter (fun x => match x.sw.readySince with | some t => decide (s.ticks - t ≥ 8192) | none => false)) = some b →
      (a.prio ≤ b.prio → swaps (.pendingLongWait core sl)) ∧ (b.prio < a.prio → exec (.pendingLongWait core sl) s = .next s)))
  ∧ (∀ (s : State) (gid warp : Nat) (g : Group) a x, mget? s.groups gid = some g → g.phase = .running →
    65536 ≤ deadlockCount s (pairKey gid warp) → pairStuck s gid g warp = some (a, x) →
    let lane := Nat.min a.lane x.lane
    exec (.decoupleDeadlock gid warp) s = .next (takeFault ⟨.decoupleDeadlock, gid, warp, 1, lane, false, standingPc s g gid warp .execute,
      some (standingPc s g gid warp .access), 0,
      lane + a.q * 2 ^ 8 + queueLevel s gid warp lane a.q * 2 ^ 16 + x.q * 2 ^ 24 + queueLevel s gid warp lane x.q * 2 ^ 32⟩ s))
  ∧ (∀ (s : State) (m i h : Nat) rest before after_ x t,
    let regions := (s.mod m).regions.map (·.1)
    let u := regions.foldl (fun t j => settleRequest m j t) s
    regionOrder u m (servable u m).length (servable u m) = i :: rest → waitingGrids u m i = before ++ (h, x) :: after_ →
    (∀ e ∈ before, placeNext m e.1 u = none) → placeNext m h u = some t →
    exec (.groupPlace m) s = .next (regions.foldl (fun y j => noteWaiting m j y) (settleRequest m i t)))
  ∧ (∀ (s : State) (m h : Nat) (x : Grid) (r : Region) k vbase off, mget? (s.mod m).grids h = some x →
    mget? (s.mod m).regions x.launch.region = some r →
    findWindow s m x.root x.launch.region x.launch (fromCursor (windowsOf s m x.root x.launch.region) r.cursor) = some (k, vbase, off) →
    x.launch.width ≤ 2 →
    ∃ t g, placeNext m h s = some t ∧ mget? t.groups s.nextId = some g ∧ t.nextId = s.nextId + 1
      ∧ g.m = m ∧ g.grid = h ∧ g.index = x.placed ∧ g.region = x.launch.region ∧ g.root = x.root ∧ g.launch = x.launch ∧ g.core = k
      ∧ g.window = vbase ∧ g.spadOff = off ∧ g.phase = .running ∧ g.tags = [] ∧ g.preq = false ∧ g.halt = none
      ∧ (∀ j, j ≠ s.nextId → mget? t.groups j = mget? s.groups j)
      ∧ (∃ y, mget? (t.mod m).grids h = some y ∧ y = { x with placed := x.placed + 1, state := if x.placed + 1 ≥ x.launch.ngroups then .resident else x.state })
      ∧ (∃ r', mget? (t.mod m).regions x.launch.region = some r' ∧ r'.cursor = vbase + 1)
      ∧ ∀ w sl, (w, sl) ∈ swsOf x.launch → t.sw (swKey s.nextId w sl) = { SliceWarp.start with active := false, pendSince := s.ticks }
          ∧ ∀ l < x.launch.visible, t.thread (thKey (swKey s.nextId w sl) l) =
            { Thread.start with pc := BitVec.ofNat 64 (x.launch.code + 4 * (if sl = .access then x.launch.aentry else x.launch.xentry)) })
  ∧ (∀ (s : State) (m h : Nat) (x : Grid), mget? (s.mod m).grids h = some x → x.state = .waiting → x.status = 0 → dependencyMet s m x = true →
    earlierDispatched s m x = true →
    (x.launch.persistent = false → ∃ t, exec (.gridDependencyMet m h) s = .next t
      ∧ ModTurns s t m { s.mod m with grids := mput (s.mod m).grids h { x with state := .dispatching, dist := 0 } } [])
    ∧ (x.launch.persistent = true → awaitsResume s m x.launch.region = true ∨ higherFirst s m x.launch.region = true →
      exec (.gridDependencyMet m h) s = .next s)
    ∧ (x.launch.persistent = true → awaitsResume s m x.launch.region = false → higherFirst s m x.launch.region = false →
      let u := updGrid m h (fun y => { y with state := .dispatching, dist := 0 }) s
      (∀ t, placeAll m h x.launch.ngroups u = some t → exec (.gridDependencyMet m h) s = .next t)
      ∧ (placeAll m h x.launch.ngroups u = none → exec (.gridDependencyMet m h) s = .next s)))
  ∧ ∀ (s : State) (m i : Nat) (r : Region), mget? (s.mod m).regions i = some r →
      let ages := fun (r' : Region) => ∃ t, exec (.priorityAging m i) s = .next t
        ∧ ModTurns s t m { s.mod m with regions := mput (s.mod m).regions i r' } []
      let u := noteWaiting m i s
      let since := r.waitSince.getD s.ticks
      (regionWaiting s m i = false → ages { r with raised := 0, waitSince := none })
      ∧ (regionWaiting s m i = true →
          (s.ticks - since < 160000000 → ages { r with waitSince := some since })
          ∧ (160000000 ≤ s.ticks - since → effPrio u m i < agingCap u m (rootOf u m i) i →
              ages { r with raised := r.raised + 1, waitSince := some s.ticks })
          ∧ (160000000 ≤ s.ticks - since → agingCap u m (rootOf u m i) i ≤ effPrio u m i → ages { r with waitSince := some s.ticks }))

/-- spec/08 R341, 17 R394, R399, R400, R406 to R413, R419: a group whose deadline has passed is halted by force, and one whose slice-warps have
all reached a listed YIELD is halted cooperatively; its runs leave the ports. After 100 µs of draining what has not returned is given up, its
destinations poisoned. A group that has drained leaves its core: to its image, or, discarded, to nothing; a halted one waits for its domain's
handler grid, which is launched for one group at a time with the record's address as its argument. When the handler grid has finished, DISP
resumes, skips, discards or ends. A saved group is loaded where its member core has room, with its registers as they were saved. A staged
grid whose groups have all exited commits its log and finishes. -/
def Obligations.SavingAndResuming : Prop :=
  (∀ (s : State) (gid : Nat) (g : Machine.Group), mget? s.groups gid = some g →
    let halts := fun (i : Instr) (forced : Bool) => ∃ t, exec i s = .next t
      ∧ mget? t.groups gid = some { g with forced := forced, phase := .halting, drainFrom := some (g.drainFrom.getD s.ticks) }
      ∧ (∀ j, j ≠ gid → mget? t.groups j = mget? s.groups j) ∧ t.mem = s.mem ∧ t.mods = s.mods
      ∧ ∀ sl r, t.portRun ⟨g.core, sl⟩ = some r → r.gid ≠ gid
    let inStore := fun (y : Image) => { y with keyBits := none }
    let keeps := fun (t : State) => ∃ kb, mget? (t.mod g.m).saved gid = some { imageOf s gid g with keyBits := kb }
      ∧ (foldComplete s (coreRet g.core) (coreFold g.core) = true → (s.core g.core).cellarOut ≠ some gid → kb = none)
      ∧ ∀ j, j ≠ gid → (mget? (t.mod g.m).saved j).map inStore = (mget? (s.mod g.m).saved j).map inStore
    (g.phase = .running → g.preq = true → pdlcReg s g = 0 → halts (.pdlcExpiry gid) true)
    ∧ (g.phase = .running → g.preq = true → pdlcReg s g ≠ 0 → exec (.pdlcExpiry gid) s = .next s)
    ∧ (g.phase = .running → groupYields s gid g = true → halts (.saveComplete gid) false)
    ∧ (g.phase = .running → groupYields s gid g = false → exec (.saveComplete gid) s = .next s)
    ∧ (g.phase = .halting → groupBusy s gid = true → exec (.saveComplete gid) s = .next s)
    ∧ (g.phase = .halting → groupBusy s gid = false → g.discard = true →
        ∃ t, exec (.saveComplete gid) s = .next t ∧ mget? t.groups gid = none ∧ (t.mod g.m).saved = (s.mod g.m).saved)
    ∧ (g.phase = .halting → groupBusy s gid = false → g.discard = false →
        let d := domainOf s g.m 8 g.region
        (g.halt = none ∨ g.debug = true → ∃ t, exec (.saveComplete gid) s = .next t ∧ mget? t.groups gid = none ∧ t.mem = s.mem
          ∧ { t.mod g.m with saved := (s.mod g.m).saved } = s.mod g.m ∧ keeps t)
        ∧ (g.halt ≠ none → g.debug = false → mget? (s.mod g.m).handlers d ≠ none → ∃ t, exec (.saveComplete gid) s = .next t
          ∧ mget? t.groups gid = none ∧ t.mem = s.mem
          ∧ { t.mod g.m with saved := (s.mod g.m).saved } = { s.mod g.m with waitingHalts := (s.mod g.m).waitingHalts ++ [gid] } ∧ keeps t))
    ∧ ∀ t0, g.phase = .halting → g.drainFrom = some t0 →
        (s.ticks - t0 < 1600000 → exec (.drainTimeout gid) s = .next s)
        ∧ (1600000 ≤ s.ticks - t0 →
          let a := (s.flight.filter (fun e => e.2.gid == gid)).foldl (fun u e => abandonFlight e.1 e.2 u) s
          let b := (a.longs.filter (fun e => e.2.gid == gid)).foldl (fun u e => abandonLong e.1 e.2 u) a
          let c := (b.works.filter (fun e => e.2.gid == gid && !e.2.sent)).foldl (fun u e => abandonWork e.1 e.2 u) b
          let d := (c.flushes.filter (fun e => e.2.gid == gid)).foldl (fun u e => endTag gid e.2.tag { u with flushes := mdel u.flushes e.1 }) c
          exec (.drainTimeout gid) s = .next (stopCopies gid g.core d)))
  ∧ (∀ (s : State) (op : Nat) (f : Flight), f.kind.acked = true → abandonFlight op f s = s)
  ∧ (∀ (s : State) (op : Nat) (f : Flight), f.dest = .regs → f.kind.acked = false → (f.kind.writes = true → f.performed = true) →
    (f.performed = true → ∀ x ∈ f.lanes, x.err = none) →
    mget? (abandonFlight op f s).flight op = none
    ∧ ∀ x ∈ f.lanes, ∀ c, x.reg ≤ c → c < x.reg + f.words → c < 256 →
        smem ((abandonFlight op f s).thread (thKey (swKey f.gid f.warp f.slice) x.lane)).mainPoison c = true)
  ∧ (∀ (s : State) (gid : Nat) (g : Machine.Group), g.forced = true → ∀ w sl, (w, sl) ∈ swsOf g.launch → ∀ l < g.launch.visible,
    (imageOf s gid g).thread (thKey (swKey gid w sl) l) = savedThread true (s.thread (thKey (swKey gid w sl) l)))
  ∧ (∀ (s : State) (m d i : Nat) (x : Image) (r : Region) (bs : List Byte), mget? (s.mod m).handlers d = none → nextHalted s m d = some (i, x) →
    mget? (s.mod m).regions d = some r →
    let u := updMod m (fun y => { y with waitingHalts := y.waitingHalts.filter (· != i) }) s
    readRecord u m x.group.root r.rcb.handler = some bs →
    (launchStatus u m x.group.root .host bs = 0 → ∃ h g, mget? ((launchHandler m d s).mod m).handlers d = some h
      ∧ mget? ((launchHandler m d s).mod m).grids h = some g ∧ g.launch = { launchOf bs with argp := x.group.recordVa }
      ∧ g.handlerFor = some (i, x.group.recordVa) ∧ g.state = .waiting ∧ g.status = 0 ∧ g.root = x.group.root)
    ∧ (launchStatus u m x.group.root .host bs ≠ 0 → launchHandler m d s = terminateDomain m d u))
  ∧ (∀ (s : State) (m grid : Nat) (x : Grid) gid va d (b : Byte), mget? (s.mod m).grids grid = some x → x.handlerFor = some (gid, va) →
    x.state = .finished → (s.mod m).handlers.find? (fun e => e.2 == grid) = some (d, grid) →
    let u := updGrid m grid (fun y => { y with handlerFor := none }) (updMod m (fun y => { y with handlers := mdel y.handlers d }) s)
    (readVa u m x.root (va + 0x1B) 1 = some [b] → x.status = 0 → exec (.handlerFinish m grid) s = .next (launchHandler m d (dispose m d gid b.toNat u)))
    ∧ (x.status ≠ 0 → exec (.handlerFinish m grid) s = .next (launchHandler m d (terminateDomain m d u))))
  ∧ (∀ (s : State) (m d gid : Nat) (x : Image), mget? (s.mod m).saved gid = some x →
    let gone := x.group.phase = .lost ∨ ∃ a, x.group.halt = some (.sdcDetected, a)
    (¬ gone → ModTurns s (dispose m d gid 1 s) m { s.mod m with saved := mput (s.mod m).saved gid { x with halted := false, group := { x.group with halt := none, recordVa := 0, recordOk := false } } } [])
    ∧ (¬ gone → ModTurns s (dispose m d gid 2 s) m { s.mod m with saved := mput (s.mod m).saved gid (releaseImage s true x) } [])
    ∧ (gone → dispose m d gid 1 s = discardSaved m gid s ∧ dispose m d gid 2 s = discardSaved m gid s)
    ∧ dispose m d gid 3 s = discardSaved m gid s
    ∧ ∀ k, k = 0 ∨ 4 ≤ k → dispose m d gid k s = terminateDomain m d s)
  ∧ (∀ (s : State) (m gid : Nat) (x : Image) k vbase, mget? (s.mod m).saved gid = some x → heldByCkpt s m x.group.region = false →
    x.group.phase ≠ .lost → x.group.launch.persistent = false →
    (x.halted = true ∨ x.debug = true ∨ imageReadable s x = false ∨ resumeWindow s x = none → exec (.groupResume m gid) s = .next s)
    ∧ (x.halted = false → x.debug = false → imageReadable s x = true → resumeWindow s x = some (k, vbase) → x.group.m = m →
      x.group.resumeFault = none →
      ∃ t g, exec (.groupResume m gid) s = .next t ∧ mget? t.groups gid = some g ∧ g.core = k ∧ g.window = vbase ∧ g.phase = .running ∧ g.halt = none
        ∧ g.launch = x.group.launch ∧ g.index = x.group.index ∧ g.spadOff = x.group.spadOff ∧ mget? (t.mod m).saved gid = none
        ∧ ∀ e ∈ x.threads, (x.threads.map (·.1)).Nodup →
          (t.thread e.1).main = e.2.main ∧ (t.thread e.1).opnd = e.2.opnd ∧ (t.thread e.1).pred = e.2.pred ∧ (t.thread e.1).wb = e.2.wb))
  ∧ ∀ (s : State) (m grid : Nat) (x : Grid), mget? (s.mod m).grids grid = some x → x.launch.staged = true → x.state ≠ .finished → x.status = 0 →
    (x.ended ≠ x.launch.ngroups → exec (.stagedCommit m grid) s = .next s)
    ∧ (x.ended = x.launch.ngroups → ∃ t, exec (.stagedCommit m grid) s = .next t
      ∧ mget? (t.mod m).grids grid = some { x with state := .finished, status := 0, log := [] }
      ∧ (x.launch.done = 0 → t.mem = (commitLog x.log s).mem))

/-- spec/02 R39, R40, R42 to R44, 13 R305 to R310, 15 R346, R347, R352, 16 R366 to R368, 17 R422, R423, 18 R437 to R439: the command processor, while
its reticle is in service, takes the command at CIDX of a queue that is ready and whose turn it is, and CIDX moves past it. A reserved code, a
reserved byte and a poster below the command's class are refused; a fence waits for what came before, and a CKPT for another of its region. LAUNCH accepts a grid that passes its checks, after the grid of the queue's last LAUNCH; the region commands
create, change and remove nodes of the root; KEYLOAD loads or erases a key; TOPO and DRAIN queue plane steps; CKPT drains and then writes its
images; EVENT ends when everything before it has. TIMESYNC steps WTIME once, an exchange each PERIOD slews toward the reference, and four misses
double SKEWB, which bounds the skew. The order of the two refusals, what a reserved code meets and the allocation of indices and handles are
the model's choices (log 21, 8). -/
def Obligations.CommandProcessor : Prop :=
  (∀ (s : State) (m root queue code : Nat) (q : CmdQueue) (e : Entry),
    let t := consume m root queue s
    let steps : List (Nat × Nat × List (Nat × Nat) × Instr) :=
      [(1, 0, [(0x10, 8)], .launch m root queue), (2, 1, [(0x10, 10)], .regionCreate m root queue), (3, 1, [(0x10, 10)], .regionModify m root queue),
       (4, 1, [(0x18, 2)], .regionDestroy m root queue), (5, 1, [(0x10, 9), (0x1C, 2)], .topo m root queue),
       (6, 1, [(0x18, 1), (0x1C, 1)], .drain m root queue), (8, 2, [(0x10, 9)], .keyload m root queue),
       (9, 2, [(0x10, 8)], .timesync m root queue), (10, 0, [(0x10, 8)], .event m root queue)]
    Arrives s m root queue code q e →
    mget? (t.mod m).queues (cqKey root queue) = some { q with cidx := q.cidx + 1, posters := mdel q.posters q.cidx.toNat }
    ∧ ∀ x ∈ steps,
      (code = 0 ∨ 10 < code → exec x.2.2.2 s = .next (e.refuse m 0x10 t))
      ∧ (1 ≤ code → code ≤ 10 → code ≠ x.1 → exec x.2.2.2 s = .next s)
      ∧ (code = x.1 → code ≠ 1 → ¬ Clean e x.2.2.1 → exec x.2.2.2 s = .next (e.refuse m 0x10 t))
      ∧ (code = x.1 → Clean e x.2.2.1 → posterClass s m e.who < x.2.1 →
          exec x.2.2.2 s = .next (e.refuse m 0x11 t)))
  ∧ (∀ (s : State) (m root queue : Nat) (q : CmdQueue) (e : Entry) (bs : List Byte),
    let t := consume m root queue s
    Arrives s m root queue 1 q e → Clean e [(0x10, 8)] → readRecord t m root (e.arg 0x10 8) = some bs →
    (launchStatus t m root e.who bs = 0 → ∃ u h g, exec (.launch m root queue) s = .next u ∧ mget? (u.mod m).grids h = some g
      ∧ g.launch = launchOf bs ∧ g.root = root ∧ g.queue = some (cqKey root queue) ∧ g.pred = q.last ∧ g.state = .waiting ∧ g.status = 0
      ∧ g.placed = 0 ∧ g.ended = 0 ∧ g.handlerFor = none
      ∧ mget? (u.mod m).queues (cqKey root queue) = some { q with cidx := q.cidx + 1, posters := mdel q.posters q.cidx.toNat, last := some h }
      ∧ ∀ j, j ≠ h → mget? (u.mod m).grids j = mget? (s.mod m).grids j)
    ∧ (launchStatus t m root e.who bs ≠ 0 → ∃ u, exec (.launch m root queue) s = .next u ∧ (u.mod m).grids = (s.mod m).grids
      ∧ mget? (u.mod m).queues (cqKey root queue) = some { q with cidx := q.cidx + 1, posters := mdel q.posters q.cidx.toNat, last := none }))
  ∧ (∀ (s : State) (m root queue : Nat) (q : CmdQueue) (e : Entry) (bs : List Byte) (r : Region),
    let t := consume m root queue s
    let n := e.arg 0x18 2
    mget? (t.mod m).regions n = some r → (lineage t m 8 n).contains root = true → imageAt t m e = some bs →
    (∀ st i u, Arrives s m root queue 2 q e → Clean e [(0x10, 10)] → 1 ≤ posterClass s m e.who → mayActOn t m n false e.who = true → n ≠ 0xFFFF →
      createNode m n (e.who == .host) bs t = (st, i, u) →
      exec (.regionCreate m root queue) s = .next (e.done m st (if st = 0 then i else 0) u)
      ∧ (st = 0 → mget? (t.mod m).regions i = none ∧ mget? (u.mod m).regions i = some (newRegion t.nextId (rcbOf bs n (r.rcb.depth + 1)))))
    ∧ (∀ st u, Arrives s m root queue 3 q e → Clean e [(0x10, 10)] → 1 ≤ posterClass s m e.who → mayActOn t m n true e.who = true →
      modifyNode m n (e.who == .host) bs t = (st, u) →
      exec (.regionModify m root queue) s = .next (e.done m st 0 u)
      ∧ (st = 0 → mget? (u.mod m).regions n = some { r with rcb := rcbOf bs r.rcb.parent r.rcb.depth }) ∧ (st ≠ 0 → u = t)))
  ∧ (∀ (s : State) (m root queue : Nat) (q : CmdQueue) (e : Entry),
    let t := consume m root queue s
    let n := e.arg 0x18 2
    Arrives s m root queue 4 q e → Clean e [(0x18, 2)] → 1 ≤ posterClass s m e.who → ∀ r, mget? (t.mod m).regions n = some r →
    (r.rcb.parent = 0xFFFF → exec (.regionDestroy m root queue) s = .next (e.refuse m 0x13 t))
    ∧ (r.rcb.parent ≠ 0xFFFF → (lineage t m 8 n).contains root = false ∨ mayActOn t m n true e.who = false →
        exec (.regionDestroy m root queue) s = .next (e.refuse m 0x11 t))
    ∧ (r.rcb.parent ≠ 0xFFFF → (lineage t m 8 n).contains root = true → mayActOn t m n true e.who = true →
      (nodeBusy t m n = true → exec (.regionDestroy m root queue) s = .next (e.refuse m 0x12 t))
      ∧ (nodeBusy t m n = false → exec (.regionDestroy m root queue) s = .next (e.done m 0 0 (removeNodes m n t))
        ∧ ∀ j ∈ subtree t m n, mget? ((removeNodes m n t).mod m).regions j = none)))
  ∧ (∀ (s : State) (m root queue : Nat) (q : CmdQueue) (e : Entry),
    let t := consume m root queue s
    let mask := e.arg 0x18 1
    (Arrives s m root queue 5 q e → Clean e [(0x10, 9), (0x1C, 2)] → 1 ≤ posterClass s m e.who → mask < 16 →
      (topoImage t m root mask (e.arg 0x10 8) = none → exec (.topo m root queue) s = .next (e.refuse m 0x13 t))
      ∧ ∀ recs, topoImage t m root mask (e.arg 0x10 8) = some recs →
        (planesBusy t m mask (recs.map (·.ret)) = true → exec (.topo m root queue) s = .next (e.refuse m 0x12 t))
        ∧ (planesBusy t m mask (recs.map (·.ret)) = false → (∃ r ∈ recs, (t.ret r.ret).tgen.toNat ≠ e.arg 0x1C 2) →
            exec (.topo m root queue) s = .next (e.refuse m 0x14 t))
        ∧ (planesBusy t m mask (recs.map (·.ret)) = false → (∀ r ∈ recs, (t.ret r.ret).tgen.toNat = e.arg 0x1C 2) →
            exec (.topo m root queue) s = .next (beginPlanes m e 5 0 mask recs t)))
    ∧ (Arrives s m root queue 6 q e → Clean e [(0x18, 1), (0x1C, 1)] → 1 ≤ posterClass s m e.who → mask < 16 → e.arg 0x1C 1 < 2 →
      (planesBusy t m mask (servedRets t m) = true → exec (.drain m root queue) s = .next (e.refuse m 0x12 t))
      ∧ (planesBusy t m mask (servedRets t m) = false → exec (.drain m root queue) s = .next (beginPlanes m e 6 (e.arg 0x1C 1) mask [] t))))
  ∧ (∀ (s : State) (m root queue : Nat) (q : CmdQueue) (e : Entry) (w : List Byte),
    let t := consume m root queue s
    Arrives s m root queue 8 q e → Clean e [(0x10, 9)] → posterClass s m e.who = 2 → e.arg 0x10 8 % 16 = 0 →
    readSpan t m root 4 (e.arg 0x10 8) 1168 = some w →
    (loadWrapped m (e.arg 0x18 1) w t = none → exec (.keyload m root queue) s = .next (e.refuse m 0x13 t))
    ∧ ∀ u, loadWrapped m (e.arg 0x18 1) w t = some u → exec (.keyload m root queue) s = .next (e.done m 0 0 u)
      ∧ (fieldLE w 2 2 = 1 → mget? (u.mod m).keys (e.arg 0x18 1) = none)
      ∧ (fieldLE w 2 2 = 0 → (t.mod m).kemUsed.contains ((w.drop 8).take 1088) = false
          ∧ mget? (u.mod m).keys (e.arg 0x18 1)
            = unwrapped (serialOf (t.mod m) m) (t.mod m).boots (e.arg 0x18 1) ((w.drop 8).take 1088) (w.drop 0x448)))
  ∧ (∀ (s : State) (m root queue : Nat) (q : CmdQueue) (e : Entry) (b : List Byte),
    let t := consume m root queue s
    let set := fun (u : State) => updMod m (fun y => { y with sync := { y.sync with role := fieldLE b 0 1, reference := fieldLE b 2 2, period := fieldLE b 0x10 4 } }) u
    Arrives s m root queue 9 q e → Clean e [(0x10, 8)] → posterClass s m e.who = 2 → e.arg 0x10 8 % 64 = 0 →
    readVa t m root (e.arg 0x10 8) 64 = some b → strayBytes b [(0, 1), (2, 2), (8, 12)] = false → fieldLE b 0 1 ≤ 1 → fieldLE b 2 2 ≤ 1023 →
    10 ≤ fieldLE b 0x10 4 → fieldLE b 0x10 4 ≤ 1000000 → (fieldLE b 0 1 = 1 → syncCircuit t m (fieldLE b 2 2) = true) →
    ((t.mod m).sync.done = true → exec (.timesync m root queue) s = .next (e.done m 0 0 (set t)))
    ∧ ((t.mod m).sync.done = false → fieldLE b 0 1 = 1 →
        exec (.timesync m root queue) s = .next (keepCmd m e 9 (fieldLE b 2 2) (fieldLE b 0x10 4) 0 [] [] t))
    ∧ ((t.mod m).sync.done = false → fieldLE b 0 1 = 0 →
        let by_ := (fieldLE b 8 8 : Int) - (wtime t (m * 128 + 79) : Int)
        (by_ ≠ 0 → (t.mod m).regions ≠ [] → exec (.timesync m root queue) s = .next (e.refuse m 0x12 t))
        ∧ (by_ = 0 ∨ (t.mod m).regions = [] → exec (.timesync m root queue) s = .next (e.done m 0 0 (writeSkewb m (set (stepTime m by_ t)))))))
  ∧ (∀ (s : State) (m : Nat) (offset : Int) (rtt : Nat) (c : Cmd),
    let x := s.mod m
    let off := fun (r : Nat) => wtimeGap s (r * 128 + 79) (m * 128 + 79)
    let answers := fun (t : State) => exec (.timesyncExchange m offset rtt) s = .next t
    (x.sync.done = true → periodOver s x = false ∨ (x.sync.role ≠ 0 ∧ syncCircuit s m x.sync.reference = false) → answers s)
    ∧ (x.sync.done = true → periodOver s x = true → x.sync.role = 0 → answers (writeSkewb m (slewModule m 0 s)))
    ∧ (x.sync.done = true → periodOver s x = true → x.sync.role ≠ 0 → syncCircuit s m x.sync.reference = true →
        answers (writeSkewb m (slewModule m (off x.sync.reference) s)))
    ∧ (x.sync.done = false → x.cmds.find? (fun c => c.code == 9) = some c → syncCircuit s m c.arg = true →
        (off c.arg ≠ 0 → x.regions ≠ [] → answers (endCmd m c 0x12 0 s))
        ∧ (off c.arg = 0 ∨ x.regions = [] → answers (endCmd m c 0 0 (writeSkewb m
            (updMod m (fun y => { y with sync := { y.sync with role := 1, reference := c.arg, period := c.arg2 } }) (stepTime m (off c.arg) s)))))))
  ∧ (∀ (s : State) (m r : Nat) (by_ : Int), r ∈ moduleRets m →
    wtime (slewModule m by_ s) r = wtime s r ∧ ((slewModule m by_ s).ret r).slewBy = by_ + wtimeGap s (m * 128 + 79) r)
  ∧ (∀ (s : State) (m : Nat),
    let x := s.mod m
    let misses := fun (y : ModSt) => ∃ t, exec (.timesyncMiss m) s = .next t ∧ ModTurns s t m y []
    x.sync.done = true → periodOver s x = true →
    (x.sync.missed < 3 → misses { x with sync := { x.sync with missed := x.sync.missed + 1, last := s.ticks } })
    ∧ (3 ≤ x.sync.missed → misses { x with
        sync := { x.sync with missed := 0, last := s.ticks }, skewb := BitVec.ofNat 32 (Nat.min 0xFFFFFFFE (2 * x.skewb.toNat)) }))
  ∧ (∀ (s : State) (m : Nat), trueSkew s ≤ 0xFFFFFFFE →
    let b := ((writeSkewb m s).mod m).skewb.toNat
    trueSkew s ≤ b ∧ b ≤ 0xFFFFFFFE ∧ (trueSkew s ≤ skewLimit s m → b ≤ skewLimit s m)
    ∧ ((writeSkewb m s).mod m).sync.done = true ∧ ((writeSkewb m s).mod m).sync.missed = 0)
  ∧ (∀ (s : State) (m epoch : Nat), epoch < 2 ^ 64 →
    wtime (stepTime m ((epoch : Int) - (wtime s (m * 128 + 79) : Int)) s) (m * 128 + 79) = epoch)
  ∧ (∀ (s : State) (m root queue : Nat) (q : CmdQueue) (e : Entry), Arrives s m root queue 10 q e → Clean e [(0x10, 8)] →
    exec (.event m root queue) s = .next (keepCmd m e 10 (e.arg 0x10 4) 0 0 [] [] (consume m root queue s)))
  ∧ (∀ (s : State) (m root queue : Nat) (c : Cmd), (s.mod m).cmds.find? (fun c => c.code == 10 && c.root == root && c.queue == queue) = some c →
    (queueUnfinished s m root queue c.seq = true ∨ inService s (cpRet s m) = false → exec (.eventFinish m root queue) s = .next s)
    ∧ (queueUnfinished s m root queue c.seq = false → inService s (cpRet s m) = true →
        exec (.eventFinish m root queue) s = .next (endCmd m c 0 c.arg s)))
  ∧ (∀ (s : State) (m root queue : Nat), nextCommand s m = some (root, queue) →
    commandReady s m (cqKey root queue) = true ∧ inService s (cpRet s m) = true)
  ∧ (∀ (s : State) (m root queue : Nat) (q : CmdQueue) (bs : List Byte), queue < 64 → commandReady s m (cqKey root queue) = true →
    mget? (s.mod m).queues (cqKey root queue) = some q → readVa s m root (q.slotVa q.cidx.toNat) 64 = some bs →
    q.state = 0 ∧ q.held ≠ 0 ∧ smem (s.mod m).dying root = false
    ∧ (bitOf (fieldLE bs 1 1) 0 = true → queueUnfinished s m root queue s.nextId = false)
    ∧ (fieldLE bs 0 1 = 7 → ∀ c ∈ (s.mod m).cmds, c.code = 7 → c.arg2 ≠ fieldLE bs 0x18 2))
  ∧ ∀ (s : State) (m root queue : Nat) (q : CmdQueue) (e : Entry),
    let mine := (s.mod m).cmds.find? (fun c => c.code == 7 && c.root == root && c.queue == queue && inService s (cpRet s m)
      && c.todo.all (fun g => (mget? s.groups g).isNone))
    (∀ c, mine = some c →
      let bs := ckptBytes c.arg2 c.arg3 (ckptImages s m c.arg2)
      let out := writeSpanKey m c.root (effective s m 7 c.arg2 (·.keyid)) (spanFuel bs.length) c.arg bs s
      (out = none → exec (.ckpt m root queue) s = .next (endCmd m c 0x13 0 s)) ∧ ∀ t, out = some t → exec (.ckpt m root queue) s = .next (endCmd m c 0 0 t))
    ∧ (mine = none → Arrives s m root queue 7 q e → Clean e [(0x10, 10), (0x20, 8)] →
      let t := consume m root queue s
      let i := e.arg 0x18 2
      1 ≤ posterClass s m e.who → (lineage t m 8 i).contains root = true → mget? (t.mod m).regions i ≠ none → mayActOn t m i false e.who = true →
        (e.arg 0x10 8 % 4096 ≠ 0 → exec (.ckpt m root queue) s = .next (e.refuse m 0x13 t))
        ∧ (e.arg 0x10 8 % 4096 = 0 →
          let gs := (t.groups.filter (fun g => g.2.m == m && (lineage t m 8 g.2.region).contains i)).map (·.1)
          exec (.ckpt m root queue) s = .next (keepCmd m e 7 (e.arg 0x10 8) i (e.arg 0x20 8) [] gs (gs.foldl (fun u g => requestWith g false u) t))))

/-- spec/01 R20, R24, R29, R32 to R35, 09 R212, 16 R378, R386, R396, R397, 17 R415 to R417, R424, R425, 18 R448: cold reset leaves a module with its
recorded identity and amendments, no MODID loaded, nothing running, memory empty, a new key 0 and fabric time 0 on each reticle whose stages
pass. The power alarm turns MXN on where no Mash Array operation is in progress, holds new ones at 420 W and clears after 10 µs below the
threshold. A heartbeat resets a count of misses, and the fourth miss opens a vote; a majority declares the sender silent, and it is retired. A
dead core holds nothing and issues nothing. A lane that fails lastingly is fused; a reticle with fewer than 32 complete folds is retired; a fold
moves to a spare fold and a retired site is bound to a spare one. Which stages of bring-up fail, the empty memory (log 5, 7), and how a vote
ends (log 21) are the model's choices. -/
def Obligations.ResetPowerAndFailures : Prop :=
  (∀ (s : State) (m : Nat),
    (1023 < m → exec (.coldReset m) s = .next s)
    ∧ (m ≤ 1023 → ∃ t, exec (.coldReset m) s = .next t
      ∧ (t.mod m).modid = 0 ∧ (t.mod m).booted = true ∧ (t.mod m).regions = [] ∧ (t.mod m).queues = [] ∧ (t.mod m).grids = []
      ∧ (t.mod m).cmds = [] ∧ (t.mod m).saved = [] ∧ (t.mod m).kemUsed = [] ∧ (t.mod m).sync.done = false
      ∧ (∃ b, (t.mod m).boots = b + 1 ∧ (t.mod m).keys = [(0, Config.bootKey (m * 2 ^ 64 + b))])
      ∧ (∀ a, modOf (retOf a) = m → t.byte a = 0)
      ∧ (∀ gid g, mget? t.groups gid = some g → g.m ≠ m)
      ∧ (∀ n ∈ siteList, (t.ret (m * 128 + n)).site = effSite (t.mod m) n)
      ∧ (∀ n ∈ siteList, effSite (t.mod m) n = .inService → stageFailed (t.mod m) n = false →
          wtime t (m * 128 + n) = 0 ∧ (t.ret (m * 128 + n)).plane = 0xFF
          ∧ (t.ret (m * 128 + n)).cartridge = .active ∧ (t.ret (m * 128 + n)).foldMap = (effFolds (t.mod m) n).1
          ∧ ∀ fold < 34, ∀ member < 4, t.core (coreKey (m * 128 + n) fold member) = bootCore (t.mod m) t.ticks n fold member)))
  ∧ (∀ (s : State) (ret : Nat),
    let alarms := fun (i : Instr) (v : Bool) (r : RetSt) => ∃ t, exec i s = .next t ∧ { t with rets := s.rets, cores := s.cores } = s ∧ t.ret ret = r
      ∧ (∀ j, j ≠ ret → t.ret j = s.ret j)
      ∧ ∀ k, t.core k = if k ∈ coresOfRet ret ∧ (s.core k).mxq = [] then { s.core k with mxn := v } else s.core k
    (inService s ret = false → exec (.powerAlarmRaise ret) s = .next s ∧ exec (.powerHold ret) s = .next s)
    ∧ (inService s ret = true → alarms (.powerAlarmRaise ret) true { s.ret ret with alarm := true, belowSince := some s.ticks }
        ∧ alarms (.powerHold ret) true { s.ret ret with alarm := true, belowSince := some s.ticks, hold := true })
    ∧ ((s.ret ret).hold = true → ∃ t, exec (.powerHoldRelease ret) s = .next t ∧ RetTurns s t ret
        { s.ret ret with hold := false, belowSince := if (s.ret ret).threshold ≤ 410 then some s.ticks else (s.ret ret).belowSince } [])
    ∧ ((s.ret ret).hold = false → exec (.powerHoldRelease ret) s = .next s)
    ∧ ∀ t0, (s.ret ret).belowSince = some t0 → (s.ret ret).alarm = true → (s.ret ret).hold = false ∨ 410 < (s.ret ret).threshold →
        (s.ticks - t0 < 160000 → exec (.powerAlarmClear ret) s = .next s)
        ∧ (160000 ≤ s.ticks - t0 → alarms (.powerAlarmClear ret) false { s.ret ret with alarm := false, belowSince := none }))
  ∧ (∀ (s : State) (ret sender : Nat) (majority : Bool),
    (hears s ret sender true = true →
      (∃ t, exec (.heartbeat ret sender true) s = .next t ∧ { t with cores := s.cores } = s ∧ t.core sender = { s.core sender with missed := 0 }
        ∧ ∀ k, k ≠ sender → t.core k = s.core k)
      ∧ ((s.core sender).missed < 3 → ∃ t, exec (.heartbeatMiss ret sender true majority) s = .next t ∧ { t with cores := s.cores } = s
        ∧ t.core sender = { s.core sender with missed := 1 + (s.core sender).missed } ∧ ∀ k, k ≠ sender → t.core k = s.core k)
      ∧ (3 ≤ (s.core sender).missed → exec (.heartbeatMiss ret sender true true) s = .next (retireCore sender s)))
    ∧ (hears s ret sender false = true →
      (∃ t, exec (.heartbeat ret sender false) s = .next t ∧ RetTurns s t ret { s.ret ret with missed := mput (s.ret ret).missed sender 0 } [])
      ∧ (mget (s.ret ret).missed sender 0 < 3 → ∃ t, exec (.heartbeatMiss ret sender false majority) s = .next t
        ∧ RetTurns s t ret { s.ret ret with missed := mput (s.ret ret).missed sender (1 + mget (s.ret ret).missed sender 0) } [])
      ∧ (3 ≤ mget (s.ret ret).missed sender 0 → exec (.heartbeatMiss ret sender false true) s = .next (reticleDies ret sender s))))
  ∧ (∀ (s : State) (k : Nat), ((coreDies k s).core k).dead = true ∧ ((coreDies k s).core k).mxq = [] ∧ ((coreDies k s).core k).bank = []
    ∧ ((coreDies k s).core k).portA = none ∧ ((coreDies k s).core k).portX = none
    ∧ ∀ a, spadPa k 0 ≤ a → a < spadPa k 0 + Config.spadBytes → (coreDies k s).byte a = 0)
  ∧ (∀ (s : State) (ret pkt : Nat) (p : Packet) (u : Nat), mget? s.wire pkt = some p → p.body = .failure u →
    (noticeNext s ret pkt = false → exec (.failureNotice ret pkt) s = .next s)
    ∧ (noticeNext s ret pkt = true →
      let t := takeHeld ret pkt s
      let part := ((t.ret ret).ordBuf.filterMap (fun i => (mget? t.wire i).map (fun q => (i, q)))).filter (fun e =>
        e.2.src == u && e.2.op?.isSome && !holdsWhole t ret e.2)
      exec (.failureNotice ret pkt) s = .next (part.foldl (fun x e => takeHeld ret e.1 x) t)))
  ∧ (∀ (s : State) (core : Nat) (failing : W32), inService s (coreRet core) = true → (s.core core).dead = false →
    let bad := failLanes core ((upFrom 0 32).filter (fun l => bitOf failing.toNat l && bitOf (s.core core).lmap.toNat l))
      (updCore core (fun c => { c with lmapTo := none }) s)
    let new := (s.core core).lmap &&& ~~~((laneSet (bad.2.map (·.1))).setWidth 32)
    (groupsOn s core ≠ [] → exec (.laneSelfTest core failing) s = .next ((groupsOn s core).foldl (fun t e => requestWith e.1 true t)
      (updCore core (fun c => { c with lmapTo := some c.lmap }) s)))
    ∧ (groupsOn s core = [] → bad.2 = [] → exec (.laneSelfTest core failing) s = .next (retireShort (coreRet core) bad.1))
    ∧ (groupsOn s core = [] → bad.2 ≠ [] → (∀ e ∈ bad.2, e.2 = 1) → exec (.laneSelfTest core failing) s =
        .next (retireShort (coreRet core) (fuseLanes core new bad.1))
        ∧ ((fuseLanes core new bad.1).core core).lmap = new ∧ (∀ k, k ≠ core → (fuseLanes core new bad.1).core k = s.core k)
        ∧ (fuseLanes core new bad.1).groups = s.groups ∧ (fuseLanes core new bad.1).mem = s.mem))
  ∧ (∀ (s : State) (ret : Nat),
    (inService s ret = true → completeFolds s ret < 32 → retireShort ret s = retireSite ret s)
    ∧ (inService s ret = false ∨ 32 ≤ completeFolds s ret → retireShort ret s = s)
    ∧ ∀ src, inService s ret = true → (servedRets s (modOf ret)).find? (fun r => r != ret) = some src → retireSite ret s = reticleDies src ret s)
  ∧ (∀ (s : State) (ret fold spare old : Nat), mget? (s.ret ret).foldMap fold = some old → inService s ret = true →
    smem (s.ret ret).spareFolds spare = true → foldComplete s ret spare = true →
    let pairs := (upFrom 0 4).map (fun i => (coreKey ret old i, coreKey ret spare i))
    let gs := pairs.flatMap (fun p => groupsOn s p.1)
    (gs ≠ [] → exec (.foldMigration ret fold spare) s = .next (gs.foldl (fun t e => requestWith e.1 true t) s))
    ∧ (gs = [] → ∃ t, exec (.foldMigration ret fold spare) s = .next t ∧ (t.ret ret).foldMap = mput (s.ret ret).foldMap fold spare
        ∧ (t.ret ret).spareFolds = sdel (s.ret ret).spareFolds spare ∧ t.groups = s.groups))
  ∧ ∀ (s : State) (m ret spare src : Nat),
    let u := m * 128 + ret % 128
    let v := m * 128 + spare % 128
    (servedRets s m).find? (fun r => r != u) = some src →
    let d := if inService s u then reticleDies src u s else s
    (d.ret u).site = .retired → (d.ret u).foldMap ≠ [] →
    let b := bringUp v ((d.ret u).wtOff + slewed d u) (amend m 3 v 0 0 0 d)
    ((d.ret v).site = .spare → exec (.siteRetire m ret spare) s = .next (noteHost m (updRet u (fun r => { r with foldMap := [] })
        (rebindWindows (namedPairs b u v) (joinSite src v b)))))
    ∧ ((∀ n ∈ siteList, (d.ret (m * 128 + n)).site ≠ .spare) → spare % 128 ∈ siteList →
        ∃ t, exec (.siteRetire m ret spare) s = .next t ∧ (t.ret u).foldMap = [] ∧ ∀ k ∈ coresOfRet u, (t.core k).dead = true)

/-- spec/16 R369 to R378, 13 R315, 15 R358, 18 R429: a watermark is the least of its output's inputs and of the stamps held for it, and never falls;
a link direction that has sent nothing for 3,200 ticks sends it. A
link carries ordered packets in key order; one on a cut port, or with a stamp its link had promised not to send, is returned; a full buffer holds
every packet that comes over a link. A receiver applies
the operation of the lowest key below its watermark, wholly. A stall is told to the host and halts no group; the host may cut the port out, at
least 2 × SKEWB + 3,200 ticks later. A barrier tree counts arrivals of its generation and holds those of the next; the root releases every
router of it; a loss ends it. The far end of an optical link of a tree is the model's reading (log 21). -/
def Obligations.OrderingAndTrees : Prop :=
  (∀ (s : State) (ret port : Nat),
    mget (s.ret ret).outWm port 0 ≤ outputWm s ret port
    ∧ (∀ i ∈ inputSet s ret port, outputWm s ret port ≤ Nat.max (mget (s.ret ret).outWm port 0) (inputWm s ret i))
    ∧ (∀ e ∈ heldFor s ret port, outputWm s ret port ≤ Nat.max (mget (s.ret ret).outWm port 0) e.2.stamp)
    ∧ (∀ i, i ≠ 5 → smem (s.ret ret).cutPorts i = true → i ∉ inputSet s ret port)
    ∧ (linkFar s ret port = none → exec (.beaconSend ret port) s = .next s ∧ ∀ stamp, exec (.beaconReceive ret port stamp) s = .next s)
    ∧ ∀ far i, linkFar s ret port = some (far, i) →
        (s.ticks - mget (s.ret ret).sentAt port 0 < 3200 → exec (.beaconSend ret port) s = .next s)
        ∧ (3200 ≤ s.ticks - mget (s.ret ret).sentAt port 0 → ∃ t, exec (.beaconSend ret port) s = .next t ∧ { t with rets := s.rets } = s
          ∧ mget (t.ret far).inWm i 0 = Nat.max (outputWm s ret port) (mget (s.ret far).inWm i 0) ∧ smem (t.ret far).stalled i = false
          ∧ mget (t.ret ret).outWm port 0 = outputWm s ret port ∧ mget (t.ret ret).sentAt port 0 = s.ticks
          ∧ ∀ j, j ≠ ret → j ≠ far → t.ret j = s.ret j)
        ∧ ∀ stamp : W64, let last := mget (s.ret far).outWm i 0
          let wm := Nat.min stamp.toNat (if 3200 ≤ s.ticks - mget (s.ret far).sentAt i 0 then outputWm s far i else last)
          ∃ t, exec (.beaconReceive ret port stamp) s = .next t ∧ { t with rets := s.rets } = s
            ∧ mget (t.ret ret).inWm port 0 = Nat.max wm (mget (s.ret ret).inWm port 0) ∧ smem (t.ret ret).stalled port = false
            ∧ mget (t.ret far).outWm i 0 = Nat.max wm last ∧ ∀ j, j ≠ ret → j ≠ far → t.ret j = s.ret j)
  ∧ (∀ (s : State) (ret port pkt : Nat) (p : Packet), mget? s.wire pkt = some p → p.ordered = true → smem (s.ret p.pos).ordBuf pkt = false →
    ((p.dst = ret ∨ port ≠ 5) → bufferFull s ret p = true → exec (.orderedPacketArrival ret port pkt) s = .next s)
    ∧ ((p.dst = ret ∨ port ≠ 5 → bufferFull s ret p = false) →
      (port = 5 → p.moved = false → p.pos = ret → exec (.orderedPacketArrival ret port pkt) s = .next (arriveAt pkt ret false p s))
      ∧ ∀ far o, port ≠ 5 → linkFar s ret port = some (far, o) → p.moved = true → p.pos = far → nextOut s p = some o →
          let cut := smem (s.ret ret).cutPorts port = true ∨ p.stamp < mget (s.ret ret).inWm port 0
          let t := receiveWm ret port (outputWm s far o) (sentWm far o (outputWm s far o) s)
          ((∃ e ∈ heldFor s far o, e.2.key < p.key) → exec (.orderedPacketArrival ret port pkt) s = .next s)
          ∧ ((∀ e ∈ heldFor s far o, p.key ≤ e.2.key) →
            (cut → exec (.orderedPacketArrival ret port pkt) s = .next (returnPacket pkt p t))
            ∧ (¬ cut → exec (.orderedPacketArrival ret port pkt) s = .next (arriveAt pkt ret (decide (port ≥ 8)) p t)))))
  ∧ (∀ (s : State) (i ret : Nat) (crossed : Bool) (p : Packet),
    mget? (arriveAt i ret crossed p s).wire i = some { p with pos := ret, moved := true, crossed := p.crossed || crossed }
    ∧ (arriveAt i ret crossed p s).mem = s.mem ∧ (p.dst = ret → smem ((arriveAt i ret crossed p s).ret ret).ordBuf i = true)
    ∧ ∀ op, p.op? = some op → p.ordered = true → ∀ e ∈ (returnPacket i p s).wire, e.2.op? ≠ some op)
  ∧ (∀ (s : State) (ret : Nat),
    (nextOrdered s ret = none → exec (.orderedDelivery ret) s = .next s)
    ∧ ∀ i p, nextOrdered s ret = some (i, p) →
        p.stamp < endpointWm s ret ∧ holdsWhole s ret p = true
        ∧ (∀ j q, j ∈ (s.ret ret).ordBuf → mget? s.wire j = some q → q.stamp < endpointWm s ret → holdsWhole s ret q = true → p.key ≤ q.key)
        ∧ ∀ op, p.op? = some op →
            exec (.orderedDelivery ret) s = .next ((heldOf s ret op).foldl (fun t e => performPacket e.2 (takeHeld ret e.1 t)) s))
  ∧ (∀ (s : State) (ret port : Nat),
    (lags s ret port = false → exec (.watermarkStall ret port) s = .next s)
    ∧ ((port = 6 ∨ (linkFar s ret port).isSome = true) → inService s ret = true → lags s ret port = true → smem (s.ret ret).stalled port = false →
      smem (s.ret ret).cutPorts port = false → ∃ t d, exec (.watermarkStall ret port) s = .next t ∧ t.groups = s.groups ∧ t.threads = s.threads
        ∧ smem (t.ret ret).stalled port = true
        ∧ Hears s t [.record (recordBytes (noticeRecord s ret none .watermarkStall 0xFFFF 0
            (if port = 6 then endpointWm s ret else inputWm s ret port) d (s.ret ret).shSeq))])
    ∧ wtime s ret + 2 * (s.mod (modOf ret)).skewb.toNat + 3200 ≤ cutStamp s ret
    ∧ ((lags s ret port = false ∨ port = 5 ∨ port = 6 ∨ smem (s.ret ret).cutPorts port = true) →
        exec (.portCut ret port) s = .next { s with hostOut := s.hostOut ++ [.status 0x13] })
    ∧ (lags s ret port = true → port ≠ 5 → port ≠ 6 → smem (s.ret ret).cutPorts port = false → ∃ t, exec (.portCut ret port) s = .next t
      ∧ { t with rets := s.rets, hostOut := s.hostOut, free := s.free } = s ∧ t.hostOut = s.hostOut ++ [.status 0]
      ∧ t.ret ret = { s.ret ret with cuts := (s.ret ret).cuts ++ [⟨cutStamp s ret, .leave port⟩] } ∧ ∀ j, j ≠ ret → t.ret j = s.ret j))
  ∧ (∀ (s : State) (ret : Nat),
    let due := (s.ret ret).cuts.find? (fun c => decide (c.stamp ≤ wtime s ret))
    let left := fun (c : Cut) => (s.ret ret).cuts.filter (fun d => d != c)
    let turns := fun (r : RetSt) => ∃ t, exec (.topologyCutover ret) s = .next t ∧ RetTurns s t ret r []
    (due = none → exec (.topologyCutover ret) s = .next s)
    ∧ ∀ c, due = some c →
        (∀ port, c.kind = .leave port → lags s ret port = true →
          turns { s.ret ret with cuts := left c, cutPorts := sadd (s.ret ret).cutPorts port })
        ∧ (∀ port, c.kind = .leave port → lags s ret port = false → turns { s.ret ret with cuts := left c })
        ∧ (∀ port, c.kind = .join port →
          turns { s.ret ret with cuts := left c, cutPorts := sdel (s.ret ret).cutPorts port, inWm := mput (s.ret ret).inWm port c.stamp })
        ∧ (c.kind = .mesh → let u := updRet ret (fun r => { r with cuts := left c }) s
          exec (.topologyCutover ret) s = .next
            (rewriteMesh (modOf ret) c.stamp ((servedRets u (modOf ret)).foldl (fun t r => rejoinCut r c.stamp t) u))))
  ∧ (∀ (s : State) (pkt : Nat) (p : Packet) (tree gen input : Nat) (t : Tree), mget? s.wire pkt = some p → p.body = .fbarArrive tree gen input →
    let u := { s with wire := mdel s.wire pkt }
    treeOf s p.dst tree = some t →
    (t.lost = true ∨ bitOf t.down input = false → exec (.fbarArrival pkt) s = .next u)
    ∧ (t.lost = false → bitOf t.down input = true →
      (gen = t.gen → t.count < t.expect → exec (.fbarArrival pkt) s = .next (treeFull p.dst tree (putTree p.dst tree { t with count := t.count + 1 } u)))
      ∧ (gen = (t.gen + 1) % 2 ^ 32 → gen ≠ t.gen →
          exec (.fbarArrival pkt) s = .next (putTree p.dst tree { t with held := t.held ++ [input] } u))
      ∧ (gen ≠ t.gen → gen ≠ (t.gen + 1) % 2 ^ 32 → exec (.fbarArrival pkt) s = .next u)))
  ∧ (∀ (s : State) (ret tree : Nat) (t : Tree), treeOf s ret tree = some t →
    (t.lost = true ∨ t.count ≠ t.expect → treeFull ret tree s = s)
    ∧ (t.lost = false → t.count = t.expect → t.expect ≠ 0 →
      (t.up = 7 → treeFull ret tree s = sendNotice ret 0 (treeRouters s ret tree) (.fbarRelease tree t.gen) s)
      ∧ ∀ p i, t.up ≠ 7 → treeParent s ret tree t.up = some (p, i) → treeFull ret tree s = sendPacket ret p false 0 0 (.fbarArrive tree t.gen i) s))
  ∧ (∀ (s : State) (pkt : Nat) (p : Packet) (tree gen : Nat) (t : Tree), mget? s.wire pkt = some p → p.body = .fbarRelease tree gen →
    treeOf s p.dst tree = some t →
    let u := takeHeld p.dst pkt s
    (noticeNext s p.dst pkt = false → exec (.fbarRelease pkt) s = .next s)
    ∧ (noticeNext s p.dst pkt = true →
      (t.lost = true ∨ t.gen ≠ gen → exec (.fbarRelease pkt) s = .next u)
      ∧ (t.lost = false → t.gen = gen → exec (.fbarRelease pkt) s = .next (treeFull p.dst tree (releaseCores p.dst tree
          (putTree p.dst tree { t with count := t.held.length, gen := (t.gen + 1) % 2 ^ 32, held := [] } u))))))
  ∧ ∀ (s : State) (ret tree gen i : Nat) (p : Packet) (t : Tree), nextOrdered s ret = some (i, p) → p.body = .lost tree gen → treeOf s ret tree = some t →
    (t.gen ≠ gen ∨ t.lost = true → exec (.barrierLost ret tree) s = .next (takeHeld ret i s))
    ∧ (t.gen = gen → t.lost = false → exec (.barrierLost ret tree) s = .next (loseCores ret tree
        (putTree ret tree { t with lost := true, count := 0, held := [] } (takeHeld ret i s))))

/-- spec/13 R316, 15 R353, R355, 16 R375, 18 R427, R428, R430 to R441: a link takes only the flit that it expects next, acknowledges it, and asks
again for one whose CRC fails; the eighth failure in a row takes a mesh link down, at both its ends. What has had no route for 1 ms is returned with
REMOTE_ERROR. The plane steps are taken from the head of a reticle's queue: a plane stops, hands its packets over, is retuned, waits for lock
and resumes, or goes down. A ring that loses lock for longer than 10 µs, or whose heater reaches an end of its range, is retired, and its plane
recovers. A cartridge is powered, checked after 10 ms, drained, and removed. Loads, heater codes, which end of the range is flagged and whether
a lock check passes are free values (log 4). -/
def Obligations.LinksPlanesAndRings : Prop :=
  (∀ (s : State) (ret port seq far o : Nat) (ok : Bool), linkFar s ret port = some (far, o) →
    let snd := (s.ret far).link o
    let counted := updLink ret port (fun l => { l with bits := l.bits + 512 }) s
    let u := updLink far o (fun l => { l with nextSeq := (seq + 1) % 4096, replay := l.replay ++ [seq] }) counted
    let fresh := seq = snd.nextSeq ∧ snd.replay.length < 512
    (¬ fresh → seq ∉ snd.replay → exec (.flitReceive ret port seq ok) s = .next s)
    ∧ (fresh → seq ≠ ((s.ret ret).link port).expectSeq → exec (.flitReceive ret port seq ok) s = .next u)
    ∧ (¬ fresh → seq ∈ snd.replay → seq ≠ ((s.ret ret).link port).expectSeq → exec (.flitReceive ret port seq ok) s = .next counted)
    ∧ (seq = ((s.ret ret).link port).expectSeq → fresh ∨ seq ∈ snd.replay →
      (∃ t, exec (.flitReceive ret port seq true) s = .next t ∧ { t with rets := s.rets } = s
        ∧ ((t.ret ret).link port).expectSeq = (seq + 1) % 4096 ∧ ((t.ret ret).link port).crcRow = 0
        ∧ ((t.ret far).link o).replay = snd.replay.filter (· != seq)
        ∧ ((t.ret far).link o).nextSeq = (if seq = snd.nextSeq ∧ snd.replay.length < 512 then (seq + 1) % 4096 else snd.nextSeq))
      ∧ (fresh → exec (.flitReceive ret port seq false) s = .next (badFlit ret port u))
      ∧ (¬ fresh → exec (.flitReceive ret port seq false) s = .next (badFlit ret port counted))))
  ∧ (∀ (s : State) (ret port : Nat), ((s.ret ret).link port).crcRow < 7 →
    let key := windowKey 2 port
    let l := (s.ret ret).link port
    let ended := l.bits > 10 ^ 12 ∨ mget? (s.ret ret).errWin key = none
    let w := linkWindow ret port (updLink ret port (fun l => { l with crcRow := l.crcRow + 1 }) s)
    let noted := noteError ret 2 port w
    ((w.ret ret).link port = { l with crcRow := l.crcRow + 1, bits := if ended then 0 else l.bits })
    ∧ (ended → mget? (w.ret ret).errWin key = none) ∧ (¬ ended → mget? (w.ret ret).errWin key = mget? (s.ret ret).errWin key)
    ∧ (noted.2 = none → badFlit ret port s = noted.1) ∧ (noted.2 = some 2 → badFlit ret port s = degrade ret port noted.1)
    ∧ (∀ a, noted.2 = some a → a ≠ 2 → badFlit ret port s = takeAction ret none a noted.1))
  ∧ (∀ (s : State) (ret port n : Nat), port < 4 → neighbourRet ret port = some n → (s.ret ret).meshSt port = 0 →
    (s.ret n).meshSt (oppositePort port) = 0 →
    ((degrade ret port s).ret ret).meshSt port = 1 ∧ ((degrade ret port s).ret n).meshSt (oppositePort port) = 1)
  ∧ (∀ (s : State) (ret port n : Nat), 7 ≤ ((s.ret ret).link port).crcRow → port < 4 → neighbourRet ret port = some n →
    ((badFlit ret port s).ret ret).meshSt port = 2 ∧ ((badFlit ret port s).ret n).meshSt (oppositePort port) = 2)
  ∧ (∀ (s : State) (ret port n : Nat), port < 4 → neighbourRet ret port = some n →
    ((portDown ret port s).ret ret).meshSt port = 2 ∧ ((portDown ret port s).ret n).meshSt (oppositePort port) = 2
    ∧ mget? ((portDown ret port s).ret ret).downAt port = some s.ticks ∧ (portDown ret port s).wire = s.wire ∧ (portDown ret port s).mem = s.mem
    ∧ (⟨cutStamp s ret, .mesh⟩ : Cut) ∈ ((portDown ret port s).ret ret).cuts
    ∧ (linkFar s ret port ≠ none → exec (.meshPortDown ret port) s = .next (portDown ret port s))
    ∧ (linkFar s ret port = none → exec (.meshPortDown ret port) s = .next s))
  ∧ (∀ (s : State) (pkt : Nat),
    (∀ p, mget? s.wire pkt = some p →
      let gone := if p.ordered = true then stranded s p = true else routeless s p.src p.dst 0 (some p.route) = true
      (gone → exec (.noRouteTimeout pkt) s = .next (returnPacket pkt p s)) ∧ (¬ gone → exec (.noRouteTimeout pkt) s = .next s))
    ∧ (∀ f, mget? s.wire pkt = none → mget? s.flight pkt = some f → f.performed = false → f.spad = false → mustWait s pkt f = false →
      let lost := fun (t : State) (x : LaneReq) =>
        routeless t (coreRet f.core) (retOf x.pa) 0 (chooseRoute t (coreRet f.core) (retOf x.pa) 0) = true
      let gone := ∃ x ∈ f.lanes, lost s x
      let r := performRouted f f.lanes s
      (gone → exec (.noRouteTimeout pkt) s = .next { r.2 with flight := mput r.2.flight pkt { f with lanes := r.1, performed := true } })
      ∧ (¬ gone → exec (.noRouteTimeout pkt) s = .next s)
      ∧ ∀ t x xs,
          (lost t x → performRouted f (x :: xs) t
            = ({ x with err := some (.remoteError, x.ea, 0) } :: (performRouted f xs t).1, (performRouted f xs t).2))
          ∧ (¬ lost t x → performRouted f (x :: xs) t
            = ((performLane f x t).1 :: (performRouted f xs (performLane f x t).2).1, (performRouted f xs (performLane f x t).2).2)))
    ∧ ∀ w, mget? s.wire pkt = none → mget? s.flight pkt = none → mget? s.works pkt = some w → w.wr.opc = 2 → w.injected = true → w.err = none →
        w.wr.toPeer = false →
        let gone := routeless s w.ret w.wr.target w.wr.route (chooseRoute s w.ret w.wr.target w.wr.route) = true
        (gone → exec (.noRouteTimeout pkt) s = .next (failWork pkt .remoteError w.wr.raddr 0 s)) ∧ (¬ gone → exec (.noRouteTimeout pkt) s = .next s))
  ∧ (∀ (s : State) (ret : Nat), (inService s ret = false → exec (.routeSample ret) s = .next s)
    ∧ (inService s ret = true → ∃ t, exec (.routeSample ret) s = .next t ∧ { t with rets := s.rets, free := s.free } = s
      ∧ { t.ret ret with samples := (s.ret ret).samples } = s.ret ret ∧ (∀ j, j ≠ ret → t.ret j = s.ret j)
      ∧ (∀ p < 4, mget (t.ret ret).samples (8 + p) 0 = (s.ret ret).planeSt p) ∧ ∀ i < 8, mget (t.ret ret).samples i 0 < 16))
  ∧ (∀ (r : RetSt) (p v : Nat), p < 4 → v < 4 → (setPlane p v r).planeSt p = v ∧ (∀ q < 4, q ≠ p → (setPlane p v r).planeSt q = r.planeSt q)
    ∧ (setPlane p v r).tgen = (if r.planeSt p = v then r.tgen else r.tgen + 1))
  ∧ (∀ (s : State) (ret : Nat),
    let next : List PlaneStep × List (List PlaneStep) := match (s.ret ret).planeSteps.drop 1, (s.ret ret).planeNext with
      | [], g :: gs => (g, gs)
      | rest, more => (rest, more)
    let steps := (s.ret ret).planeSteps
    (headStep s ret = none → exec (.planeStop ret) s = .next s ∧ exec (.waitack ret) s = .next s ∧ exec (.retune ret) s = .next s
      ∧ exec (.waitlock ret) s = .next s ∧ exec (.planeResume ret) s = .next s ∧ exec (.planeDown ret) s = .next s)
    ∧ (∀ p, headStep s ret = some (.stop p) → ∃ t, exec (.planeStop ret) s = .next t
      ∧ RetTurns s t ret { setPlane p 1 (s.ret ret) with planeSteps := next.1, planeNext := next.2, stepSince := s.ticks } [])
    ∧ (∀ p, headStep s ret = some (.waitack p) →
      let waits := ∃ e ∈ s.wire, e.2.ordered = true ∧ e.2.moved = true ∧ leavesBy s ret p e.2 = true ∧ nextOut s e.2 ≠ none
      (waits → exec (.waitack ret) s = .next s) ∧ (¬ waits → exec (.waitack ret) s = .next (popStep ret (handOver ret p s))))
    ∧ (∀ p waves ports, headStep s ret = some (.retune p waves ports) → p < 4 → ∃ t, exec (.retune ret) s = .next t
      ∧ { t with rets := s.rets } = s ∧ (t.ret ret).planeSt p = 2 ∧ (t.ret ret).planeSteps = next.1 ∧ (t.ret ret).planeNext = next.2
      ∧ (∀ f < 8, (t.ret ret).link (8 + 8 * p + f) = Link.start)
      ∧ (∀ i < 160, mget (t.ret ret).rings (ringIndex p i) 0 = retunedRing ret p i (mget (s.ret ret).rings (ringIndex p i) 0))
      ∧ (waves = [] → (t.ret ret).portMap = (s.ret ret).portMap)
      ∧ (waves.length = 16 → ports.length = 8 → (∀ f < 8, (t.ret ret).fibre p f = nthD 0 ports f) ∧ ∀ w < 16, (t.ret ret).wave p w = nthD 0 waves w))
    ∧ (∀ p, headStep s ret = some (.waitlock p) →
      let late := 16000000 ≤ s.ticks - (s.ret ret).stepSince
      ((s.ret ret).cartridge ≠ .active ∨ late → exec (.waitlock ret) s = .next s)
      ∧ ((s.ret ret).cartridge = .active → ¬ late → ∃ t, exec (.waitlock ret) s = .next t ∧ { t with rets := s.rets, free := s.free } = s
        ∧ (t.ret ret).planeSteps = next.1 ∧ (t.ret ret).planeNext = next.2 ∧ ∀ i < 160, bitOf (ringOf t ret (ringIndex p i)).toNat 12 = true
          ∧ 0 < (ringOf t ret (ringIndex p i)).toNat % 4096 ∧ (ringOf t ret (ringIndex p i)).toNat % 4096 < 4095))
    ∧ (∀ p rest, steps = .waitlock p :: rest →
      (s.ticks - (s.ret ret).stepSince < 16000000 → exec (.waitlockTimeout ret) s = .next s)
      ∧ (16000000 ≤ s.ticks - (s.ret ret).stepSince → ∃ t, exec (.waitlockTimeout ret) s = .next t
        ∧ { t with rets := s.rets, mods := s.mods } = s ∧ (∀ q more, rest = .resume q :: more → (t.ret ret).planeSteps = .down p :: more)
        ∧ ∀ c ∈ (s.mod (modOf ret)).cmds, c.code = 5 → c.todo.head? = some p → (∃ r ∈ c.recs, r.ret = ret ∧ r.plane = p) →
            { c with failed := true } ∈ (t.mod (modOf ret)).cmds))
    ∧ (∀ p, headStep s ret = some (.resume p) →
      exec (.planeResume ret) s = .next (advanceTopo ret (joinPlane ret p (popStep ret (updRet ret (setPlane p 0) s)))))
    ∧ ∀ p, headStep s ret = some (.down p) →
        exec (.planeDown ret) s = .next (advanceTopo ret (settleCartridge ret (popStep ret (updRet ret (setPlane p 3) s)))))
  ∧ (∀ (s : State) (ret plane port : Nat), 8 + 8 * plane ≤ port → port < 16 + 8 * plane →
    smem ((joinPlane ret plane s).ret ret).cutPorts port = true ∧ (⟨cutStamp s ret, .join port⟩ : Cut) ∈ ((joinPlane ret plane s).ret ret).cuts)
  ∧ (∀ (s : State) (m last p fuel : Nat) (c : Cmd), c.todo = [p] →
    let rets := if c.code = 5 then c.recs.map (·.ret) else servedRets s m
    ((∃ r ∈ rets, stepsLeft s r p = true) → advanceCmd m last (fuel + 1) c s = s)
    ∧ ((∀ r ∈ rets, stepsLeft s r p = false) →
      (c.failed = true → advanceCmd m last (fuel + 1) c s = endCmd m c 0x12 0 s)
      ∧ (c.failed = false → c.code = 5 →
          advanceCmd m last (fuel + 1) c s = endCmd m c 0 ((applyEntries c.recs s).ret last).tgen.toNat (applyEntries c.recs s))
      ∧ (c.failed = false → c.code = 6 → advanceCmd m last (fuel + 1) c s = endCmd m c 0 (s.ret last).tgen.toNat s)))
  ∧ (∀ (s : State) (ret ring : Nat),
    let v := ringOf s ret ring
    let turns := fun (i : Instr) (w : W32) (lost : SMap Nat) => ∃ t, exec i s = .next t
      ∧ RetTurns s t ret { s.ret ret with rings := mput (s.ret ret).rings ring w, lockLostAt := lost } []
    (ring < 640 → bitOf v.toNat 12 = true →
      turns (.ringLockLoss ret ring) ((v &&& ~~~0x1000#32) ||| 0x8000#32) (mput (s.ret ret).lockLostAt ring s.ticks))
    ∧ (bitOf v.toNat 12 = false → exec (.ringLockLoss ret ring) s = .next s)
    ∧ (∀ t0, mget? (s.ret ret).lockLostAt ring = some t0 →
      (s.ticks - t0 ≤ 160000 → v.toNat % 4096 ≠ 0 → v.toNat % 4096 ≠ 4095 →
        turns (.ringLockReturn ret ring) ((v ||| 0x1000#32) &&& ~~~0x8000#32) (mdel (s.ret ret).lockLostAt ring))
      ∧ (160000 < s.ticks - t0 → exec (.ringLockReturn ret ring) s = .next s)
      ∧ (s.ticks - t0 < 160000 → exec (.ringLockTimeout ret ring) s = .next s)
      ∧ (160000 ≤ s.ticks - t0 → ∃ bits : W32, (bits = 0x2000 ∨ bits = 0x4000)
          ∧ exec (.ringLockTimeout ret ring) s = .next (endOfRange ret ring bits { s with free := s.free + 1 })))
    ∧ (ring < 640 → (s.ret ret).cartridge = .active → ∃ bits code : W32, (bits = 0x2000 ∧ code = 0 ∨ bits = 0x4000 ∧ code = 0xFFF)
        ∧ exec (.heaterEndOfRange ret ring) s = .next (endOfRange ret ring bits
            (updRing ret ring (fun w => (w &&& ~~~0xFFF#32) ||| code) { s with free := s.free + 1 })))
    ∧ ((s.ret ret).cartridge ≠ .active → exec (.heaterEndOfRange ret ring) s = .next s)
    ∧ ∀ bits : W32, let u := endOfRange ret ring bits s
        let p := ring / 160
        let recovery : List PlaneStep := [.stop p, .waitack p, .retune p [] [], .waitlock p, .resume p]
        let served := (s.ret ret).planeSt p = 3 ∨ (∃ ws ps, .retune p ws ps ∈ (s.ret ret).allSteps)
          ∨ ∃ c ∈ (s.mod (modOf ret)).cmds, c.code = 5 ∧ (∃ r ∈ c.recs, r.ret = ret ∧ r.plane = p)
            ∧ (p ∈ c.todo.drop 1 ∨ c.todo.head? = some p ∧ stepsLeft s ret p = true)
        (¬ served → (s.ret ret).planeSteps = [] →
            (u.ret ret).planeSteps = recovery ∧ (u.ret ret).planeNext = (s.ret ret).planeNext)
        ∧ (¬ served → (s.ret ret).planeSteps ≠ [] →
            (u.ret ret).planeSteps = (s.ret ret).planeSteps ∧ (u.ret ret).planeNext = (s.ret ret).planeNext ++ [recovery])
        ∧ (served → (u.ret ret).planeSteps = (s.ret ret).planeSteps ∧ (u.ret ret).planeNext = (s.ret ret).planeNext)
        ∧ ringOf u ret ring = v ||| bits ||| 0x8000#32 ∧ mget? (u.ret ret).lockLostAt ring = none)
  ∧ ∀ (s : State) (ret : Nat),
      let c := (s.ret ret).cartridge
      let told := fun (n : Nat) => { s with hostOut := s.hostOut ++ [.status n] }
      (((powerCartridge ret s).ret ret).cartridge = .powered ∧ ((powerCartridge ret s).ret ret).cartSince = s.ticks
        ∧ ∀ p < 4, ∀ i < 160, ringOf (powerCartridge ret s) ret (ringIndex p i) = retunedRing ret p i (ringOf s ret (ringIndex p i)))
      ∧ (c ≠ .absent → ∀ rom, exec (.cartridgeInsert ret rom) s = .next s)
      ∧ (c = .absent → exec (.cartridgeInsert ret true) s = .next (powerCartridge ret s)
          ∧ ∃ t, exec (.cartridgeInsert ret false) s = .next t ∧ RetTurns s t ret { s.ret ret with cartridge := .failed } [])
      ∧ (c ≠ .powered ∨ s.ticks - (s.ret ret).cartSince < 160000000 → exec (.cartridgeLockCheck ret) s = .next s)
      ∧ (c = .powered → 160000000 ≤ s.ticks - (s.ret ret).cartSince → ∃ t, exec (.cartridgeLockCheck ret) s = .next t
        ∧ { t with rets := s.rets, free := s.free } = s ∧ (∀ j, j ≠ ret → t.ret j = s.ret j)
        ∧ (t.ret ret = { s.ret ret with cartridge := .failed }
          ∨ (t.ret ret).cartridge = .active ∧ (t.ret ret).plane = 0xFF
            ∧ ∀ p < 4, ∀ i < 160, bitOf (ringOf t ret (ringIndex p i)).toNat 12 = true))
      ∧ (c ≠ .active → exec (.cartridgeQuiesce ret) s = .next (told 0x13))
      ∧ (c = .active → (s.ret ret).planeSteps ≠ [] → exec (.cartridgeQuiesce ret) s = .next (told 0x12))
      ∧ (c = .active → (s.ret ret).planeSteps = [] → (∃ t, exec (.cartridgeQuiesce ret) s = .next t ∧ { t with rets := s.rets, hostOut := s.hostOut } = s
        ∧ t.hostOut = s.hostOut ++ [.status 0]
        ∧ ((s.ret ret).planeNext = [] →
          (t.ret ret).allSteps = (upFrom 0 4).flatMap (fun p => drainSteps false p ((s.ret ret).planeSt p))
          ∧ (t.ret ret).cartridge = (if (s.ret ret).plane = 0xFF then .safe else .quiescing))))
      ∧ (c = .absent → exec (.cartridgeRemoval ret) s = .next s)
      ∧ (c ≠ .absent →
          let mine := (s.ret ret).allSteps.map PlaneStep.plane
          let u := updRet ret (fun r => { setLstate 0xFF r.mesh r with
            cartridge := .absent, planeSteps := [], planeNext := [], rings := [], lockLostAt := [] }) s
          let w := updMod (modOf ret) (fun x => { x with cmds := x.cmds.map (fun d =>
            if d.code = 5 ∧ d.recs.any (fun r => r.ret == ret && mine.contains r.plane) = true then { d with failed := true } else d) }) u
          exec (.cartridgeRemoval ret) s = .next (advanceTopo ret ((upFrom 0 4).foldl (fun t p => handOver ret p t) w)))
      ∧ (c = .safe → exec (.cartridgePowerUp ret) s = .next { powerCartridge ret s with hostOut := s.hostOut ++ [.status 0] })
      ∧ (c ≠ .safe → exec (.cartridgePowerUp ret) s = .next (told 0x13))

/-- spec/18 R442, R443, R445: a peer's request is performed when its endpoint is in service with an Ethernet link in use, the descriptor and the JOB
match, and every page and place it touches passes; a refused one is answered with an error and changes nothing. An acknowledged packet leaves
the retransmit store, one passed over is sent again at once, one not acknowledged after 64 µs again, and the packet sent 8 times ends its
work request. An echoed mark halves the rate once per round trip. That round trips are told apart by packet numbers, and the shape checks, are the
model's choices (log 21). -/
def Obligations.EthernetPeers : Prop :=
  (∀ (s : State) (ret peer job kind addr len : Nat) (data : List Byte) (imm : W32) (aop : Nat) (operand compare : W64),
    let size := if kind ≤ 1 then data.length else if kind = 3 then 8 else len
    let request := Instr.uePeerRequest ret peer job kind addr len data imm aop operand compare
    let answers := fun (ok : Bool) (bs : List Byte) (t : State) => exec request s = .next { t with hostOut := t.hostOut ++ [.peer ret peer ok bs] }
    (peerAccepted s ret peer job kind addr size aop = none → answers false [] s)
    ∧ ∀ ps, peerAccepted s ret peer job kind addr size aop = some ps →
        let written := ps.foldl (fun t p => writeKey t p.2.2.2 p.2.2.1 ((data.drop p.1).take p.2.1)) s
        (kind = 0 → answers true [] written)
        ∧ (kind = 1 → answers true [] (countImm ret (peerCctr (mget (s.ret ret).peers peer 0)) imm.toNat written))
        ∧ (kind = 2 → answers true (ps.flatMap (fun p => readKey s p.2.2.2 p.2.2.1 p.2.1)) s)
        ∧ (kind = 3 → ∃ pa key, ps = [(0, 8, pa, key)] ∧ answers true (bytesLE 8 (readNat s key pa 8))
            (writeKey s key pa (bytesLE 8 (applyAop aop true (BitVec.ofNat 64 (readNat s key pa 8)) operand compare).toNat))))
  ∧ (∀ (s : State) (ret peer job kind addr len aop : Nat) ps, peerAccepted s ret peer job kind addr len aop = some ps →
    let d := mget (s.ret ret).peers peer 0
    inService s ret = true ∧ ethernetUp (s.ret ret) = true ∧ peer < 4096 ∧ peerValid d = true ∧ peerJob d = job ∧ kind ≤ 3
    ∧ (∃ r, mget? (s.mod (modOf ret)).regions (peerRoot d) = some r) ∧ (kind = 3 → len = 8 ∧ addr % 8 = 0 ∧ ratomAop aop = true)
    ∧ (kind < 3 → 1 ≤ len ∧ len ≤ 0x1000000) ∧ (∀ p ∈ ps, pieceRefused s ret kind p = false)
    ∧ ∀ p ∈ ps, ∃ e, (∀ a ∈ peerRights kind, ∃ pa f, translateNow s ⟨modOf ret, peerRoot d, false, 0, 1023⟩ a (addr + p.1) = .ok pa f)
        ∧ (peerRights kind).head?.map (fun a => translateNow s ⟨modOf ret, peerRoot d, false, 0, 1023⟩ a (addr + p.1)) = some (.ok p.2.2.1 e)
        ∧ pteType e ≠ 3 ∧ p.2.2.2 = pteKey e)
  ∧ (∀ (s : State) (ret peer : Nat) (acked : List Nat),
    let p := uePeer s ret peer
    let got := p.out.filter (fun e => acked.contains e.1)
    let missing := p.out.filter (fun e => !acked.contains e.1 && got.any (fun g => g.2.queue == e.2.queue && decide (e.1 < g.1)))
    let kept := updRet ret (fun r => { r with ue := mput r.ue peer { p with out := p.out.filter (fun e => !acked.contains e.1) } }) s
    exec (.ueSelectiveAck ret peer acked) s = .next (missing.foldl (fun t e => resend ret peer e.1 t) (got.foldl (fun t e => packetDone e.2.op t) kept))
    ∧ ∀ n, n ∈ acked → mget? (uePeer kept ret peer).out n = none)
  ∧ (∀ (s : State) (ret peer n : Nat),
    let p := uePeer s ret peer
    (mget? p.out n = none → exec (.ueRetransmitTimeout ret peer n) s = .next s)
    ∧ ∀ x, mget? p.out n = some x →
        (s.ticks - x.sentAt < 1024000 → exec (.ueRetransmitTimeout ret peer n) s = .next s)
        ∧ (1024000 ≤ s.ticks - x.sentAt → exec (.ueRetransmitTimeout ret peer n) s = .next (resend ret peer n s))
        ∧ (x.sends < 8 → RetTurns s (resend ret peer n s) ret { s.ret ret with
            ue := mput (s.ret ret).ue peer { p with out := mput p.out n { x with sends := x.sends + 1, sentAt := s.ticks } } } [])
        ∧ (8 ≤ x.sends → (∀ e ∈ (uePeer (resend ret peer n s) ret peer).out, e.2.op ≠ x.op)
            ∧ ∀ o, mget? s.works x.op = some o →
              ∃ y, mget? (resend ret peer n s).works x.op = some y ∧ y.err = some (.remoteError, workRaddr s x.op, o.wr.cookie)))
  ∧ ∀ (s : State) (ret peer : Nat),
      let p := uePeer s ret peer
      let halves := fun (rate : Nat) => ∃ t, exec (.ueEcnEcho ret peer) s = .next t
        ∧ RetTurns s t ret { s.ret ret with ue := mput (s.ret ret).ue peer { p with rate := rate / 2, halvedAt := some p.next } } []
      (p.halvedAt = none → halves (100000 * ethernetWaves (s.ret ret)))
      ∧ ∀ n, p.halvedAt = some n →
          ((∀ e ∈ p.out, n ≤ e.1) → halves p.rate) ∧ ((∃ e ∈ p.out, e.1 < n) → exec (.ueEcnEcho ret peer) s = .next s)

/-- spec/10 R224, R241, 09 R213 to R221, 12 R290, 15 R344, R357, 16 R365, 17 R397, R421: an engine moves one unit of the work at its head, once
what it is ordered after has been performed. A corrected error is counted in its window; an uncorrectable one poisons its unit; a line or a
translation that is lost is only fetched again; a mismatch of the array or of a pair marks the operation that will find it. The host reads
registers and table entries. When each of these happens is the agenda's (log 1), the numbers of the registers are the model's (log 20). -/
def Obligations.UnitsErrorsAndHostReads : Prop :=
  (∀ (s : State) (core : Nat),
    ((s.core core).copyq = [] → applyUnit (.copy core) s = s)
    ∧ ∀ o rest g, (s.core core).copyq = o :: rest → mget? s.groups o.gid = some g →
        (writesDone s o.after = false → applyUnit (.copy core) s = s)
        ∧ (∀ o' t, writesDone s o.after = true → copyStep (agentOf s core g) o s = .more o' t →
          applyUnit (.copy core) s = updCore core (fun c => { c with copyq := o' :: rest }) t)
        ∧ ((∀ o' t, copyStep (agentOf s core g) o s ≠ .more o' t) → applyUnit (.copy core) s = s))
  ∧ (∀ (s : State) (op : Nat) (o : WorkOp), mget? s.works op = some o →
    let sends := (mget (s.ret o.ret).wrq o.queue []).head? = some op ∧ sendsFrom s o.ret o.queue = true ∧ o.err = none ∧ o.moved < o.wr.length
    (o.wr.opc < 2 → (sends → applyUnit (.source op) s = sendUnit op o s) ∧ (¬ sends → applyUnit (.source op) s = s))
    ∧ (2 ≤ o.wr.opc → readGoes s o = true → o.moved + o.taken.length < o.wr.length → applyUnit (.source op) s = fetchUnit op o s)
    ∧ (readGoes s o = true → o.taken ≠ [] → applyUnit (.land op) s = landNext op o s)
    ∧ (readGoes s o = false ∨ o.taken = [] → applyUnit (.land op) s = s))
  ∧ (∀ (s : State) (pkt : Nat) (p : Packet), mget? s.wire pkt = some p →
    let next := p.ordered = true ∧ smem (s.ret p.dst).ordBuf pkt = true ∧ ∃ i q, nextOrdered s p.dst = some (i, q) ∧ q.op? ≠ none ∧ q.op? = p.op?
    (atTarget s p = true ∨ next → applyUnit (.place pkt) s = placeUnit pkt p s)
    ∧ (atTarget s p = false → ¬ next → applyUnit (.place pkt) s = s))
  ∧ (∀ (s : State) (ret object : Nat),
    let counts := fun (u : Upset) (kind : Nat) (core : Option Nat) =>
      (inService s ret = false → applyUpset u s = s)
      ∧ (inService s ret = true →
        ((noteError ret kind object s).2 = none → applyUpset u s = (noteError ret kind object s).1)
        ∧ ∀ a, (noteError ret kind object s).2 = some a → applyUpset u s = takeAction ret core a (noteError ret kind object s).1)
    counts (.dramCorrected ret object) 0 none
    ∧ (isSpad (paOf ret (object * 8)) = true → counts (.sramCorrected ret object) 3 (some (coreOfSpad (paOf ret (object * 8)))))
    ∧ (isSpad (paOf ret (object * 8)) = false → counts (.sramCorrected ret object) 3 none))
  ∧ (∀ (s : State) (pa : Nat), inService s (retOf pa) = true → isDram pa = true ∨ isScratch pa = true ∨ isSpad pa = true →
    { applyUpset (.uncorrectable pa) s with poison := s.poison } = s
    ∧ ∀ u, smem (applyUpset (.uncorrectable pa) s).poison u = (smem s.poison u || u == unitBase pa))
  ∧ (∀ (s : State) (core line index : Nat),
    let only := fun (t : State) (c : CoreSt) => { t with cores := s.cores } = s ∧ t.core core = c ∧ ∀ k, k ≠ core → t.core k = s.core k
    only (applyUpset (.l1Line core line) s) { s.core core with l1 := mdel (s.core core).l1 line }
    ∧ only (applyUpset (.codeLine core line) s) { s.core core with l1i := mdel (s.core core).l1i line }
    ∧ only (applyUpset (.tlbEntry core index) s) { s.core core with tlb := (s.core core).tlb.eraseIdx index }
    ∧ applyUpset (.llcLine line) s = { s with llc := mdel s.llc line }
    ∧ (∀ o os, (s.core core).mxq = o :: os →
      only (applyUpset (.residue core) s) { s.core core with mxq := { o with mismatch := true } :: os }
      ∧ ∀ t o' stores, o'.mismatch = true → mxFound t core o' stores ≠ none)
    ∧ ∀ (slice : Slice) (l : Nat), l < 64 →
      only (applyUpset (.pair core slice l) s) { s.core core with differ := sadd (s.core core).differ (slice.code * 64 + l) })
  ∧ (∀ (s : State) (c : Ctx) (go : State → State) (ps : List LanePlan),
    (c.g.launch.protected = false → membersAgree c ps go s = go s)
    ∧ ((∀ p ∈ ps, smem (s.core c.core).differ (c.run.slice.code * 64 + p.lane) = false) → membersAgree c ps go s = go s)
    ∧ (∀ before p after, c.g.launch.protected = true → ps = before ++ p :: after →
        (∀ q ∈ before, smem (s.core c.core).differ (c.run.slice.code * 64 + q.lane) = false) →
        smem (s.core c.core).differ (c.run.slice.code * 64 + p.lane) = true →
        membersAgree c ps go s = faultAt c .sdcDetected (eaBits p.ea).toNat (p.lane % passWidth (s.core c.core) true) p.lane
          (updCore c.core (fun y => { y with differ := y.differ.filter (fun k => k / 64 != c.run.slice.code) }) s)))
  ∧ ∀ (s : State) (ret reg : Nat),
      let r := s.ret ret
      let reads := fun (n size v : Nat) => hostReadReg ret n s = { s with hostOut := s.hostOut ++ [.data (bytesLE size v)] }
      (inService s ret = false ∨ hostValue s ret reg = none → hostReadReg ret reg s = { s with hostOut := s.hostOut ++ [.status 0x13] })
      ∧ (inService s ret = true →
        reads 0x30 4 (r.ways + (if r.cpartTo = none then 0 else 32)) ∧ reads 0x40 8 (lstateReg r) ∧ reads 0x41 8 (wtime s ret)
        ∧ reads 0x42 4 (s.mod (modOf ret)).skewb.toNat ∧ reads 0x43 4 r.wmlim.toNat ∧ reads 0x4000 4 r.policy.toNat
        ∧ reads 0x44 4 ((s.mod (modOf ret)).modid + ret % 128 * 2 ^ 10) ∧ reads 0x6000 4 r.threshold
        ∧ (∀ e < 128, reads (0x1000 + e) 1 (mget r.meshTab e 0).toNat) ∧ (∀ e < 1024, reads (0x2000 + e) 4 (mget r.modTab e 0).toNat)
        ∧ (∀ e < 32, reads (0x3000 + e) 2 (mget r.groupList e 0).toNat) ∧ (∀ e < 640, reads (0x5000 + e) 4 (mget r.rings e 0).toNat)
        ∧ (∀ e < 1024, reads (0x8000 + e) 4 (mget r.endpoint e 0).toNat)
        ∧ (∀ e < 136, reads (0x7000 + e) 4 (s.core (coreKey ret (e / 4) (e % 4))).lmap.toNat)
        ∧ ∀ kind object n since, kind < 2 ^ 32 → mget? r.errWin (windowKey kind object) = some (n, since) →
            reads (2 ^ 64 + windowKey kind object) 8 n)
end

