-- ==== Sys2Proof/Laws/Maps.lean ====
section
/-! SUPPORT. Lookups in the sorted key-value lists after an insertion, a removal, a filter or a map. -/

namespace Sys2Proof.Laws

open Sys2Proof.Machine

variable {α : Type}

theorem mget?_mput (m : SMap α) (i j : Nat) (x : α) : mget? (mput m i x) j = if j = i then some x else mget? m j := by
  induction m with
  | nil => simp [mput, mget?]
  | cons e m ih =>
    obtain ⟨k, v⟩ := e
    unfold mput
    split_ifs with h1 h2 <;> simp only [mget?] <;> split_ifs <;> simp_all

@[simp] theorem mget?_mput_self (m : SMap α) (i : Nat) (x : α) : mget? (mput m i x) i = some x := by simp [mget?_mput]

theorem mget?_mput_ne (m : SMap α) {i j : Nat} (x : α) (h : j ≠ i) : mget? (mput m i x) j = mget? m j := by simp [mget?_mput, h]

theorem mget_mput (m : SMap α) (i j : Nat) (x d : α) : mget (mput m i x) j d = if j = i then x else mget m j d := by
  simp only [mget, mget?_mput]; split_ifs <;> rfl

@[simp] theorem mget_mput_self (m : SMap α) (i : Nat) (x d : α) : mget (mput m i x) i d = x := by simp [mget_mput]

theorem mget_mput_ne (m : SMap α) {i j : Nat} (x d : α) (h : j ≠ i) : mget (mput m i x) j d = mget m j d := by simp [mget_mput, h]

theorem mget?_mdel_ne (m : SMap α) {i j : Nat} (h : j ≠ i) : mget? (mdel m i) j = mget? m j := by
  induction m with
  | nil => rfl
  | cons e m ih =>
    obtain ⟨k, v⟩ := e
    unfold mdel
    split_ifs with h1 <;> simp only [mget?] <;> split_ifs <;> simp_all

theorem mget?_mdel_self (m : SMap α) (i : Nat) : mget? (mdel m i) i = none := by
  induction m with
  | nil => rfl
  | cons e m ih =>
    obtain ⟨k, v⟩ := e
    unfold mdel
    split_ifs with h
    · exact ih
    · rw [mget?, if_neg h, ih]

theorem mget?_map (m : SMap α) (f : Nat × α → α) (i : Nat) :
    mget? (m.map (fun e => (e.1, f e))) i = (mget? m i).map (fun v => f (i, v)) := by
  induction m with
  | nil => rfl
  | cons e m ih =>
    obtain ⟨k, v⟩ := e
    simp only [List.map_cons, mget?]
    split_ifs with h
    · subst h; rfl
    · exact ih

@[simp] theorem smem_sadd_self (m : NSet) (i : Nat) : smem (sadd m i) i = true := by
  induction m with
  | nil => simp [sadd, smem]
  | cons k m ih =>
    unfold sadd
    split_ifs with h1 h2 <;> simp [smem, *]

theorem smem_sdel (m : NSet) (i j : Nat) : smem (sdel m i) j = (decide (j ≠ i) && smem m j) := by
  induction m with
  | nil => simp [sdel, smem]
  | cons k m ih =>
    unfold sdel
    split_ifs with h1
    · subst h1; rw [ih, smem]; by_cases h : j = i <;> simp [h]
    · rw [smem, ih, smem]; by_cases h : j = i
      · subst h; simp [h1]
      · simp [h]

end Sys2Proof.Laws
end

