-- ==== Sys2Proof/Laws/State.lean ====
section
/-! SUPPORT. Every field of the state after each update: one lemma per field per update, so that no proof unfolds a record update. -/

namespace Sys2Proof.Laws

open Sys2Proof Sys2Proof.Machine

@[simp] theorem updCore_agenda (k : Nat) (f : CoreSt → CoreSt) (s : State) : (updCore k f s).agenda = s.agenda := rfl
@[simp] theorem updCore_focus (k : Nat) (f : CoreSt → CoreSt) (s : State) : (updCore k f s).focus = s.focus := rfl
@[simp] theorem updCore_free (k : Nat) (f : CoreSt → CoreSt) (s : State) : (updCore k f s).free = s.free := rfl
@[simp] theorem updCore_nextId (k : Nat) (f : CoreSt → CoreSt) (s : State) : (updCore k f s).nextId = s.nextId := rfl
@[simp] theorem updCore_ticks (k : Nat) (f : CoreSt → CoreSt) (s : State) : (updCore k f s).ticks = s.ticks := rfl
@[simp] theorem updCore_mem (k : Nat) (f : CoreSt → CoreSt) (s : State) : (updCore k f s).mem = s.mem := rfl
@[simp] theorem updCore_poison (k : Nat) (f : CoreSt → CoreSt) (s : State) : (updCore k f s).poison = s.poison := rfl
@[simp] theorem updCore_sectorKey (k : Nat) (f : CoreSt → CoreSt) (s : State) : (updCore k f s).sectorKey = s.sectorKey := rfl
@[simp] theorem updCore_overflow (k : Nat) (f : CoreSt → CoreSt) (s : State) : (updCore k f s).overflow = s.overflow := rfl
@[simp] theorem updCore_rawFrames (k : Nat) (f : CoreSt → CoreSt) (s : State) : (updCore k f s).rawFrames = s.rawFrames := rfl
@[simp] theorem updCore_llc (k : Nat) (f : CoreSt → CoreSt) (s : State) : (updCore k f s).llc = s.llc := rfl
@[simp] theorem updCore_rets (k : Nat) (f : CoreSt → CoreSt) (s : State) : (updCore k f s).rets = s.rets := rfl
@[simp] theorem updCore_mods (k : Nat) (f : CoreSt → CoreSt) (s : State) : (updCore k f s).mods = s.mods := rfl
@[simp] theorem updCore_groups (k : Nat) (f : CoreSt → CoreSt) (s : State) : (updCore k f s).groups = s.groups := rfl
@[simp] theorem updCore_sws (k : Nat) (f : CoreSt → CoreSt) (s : State) : (updCore k f s).sws = s.sws := rfl
@[simp] theorem updCore_threads (k : Nat) (f : CoreSt → CoreSt) (s : State) : (updCore k f s).threads = s.threads := rfl
@[simp] theorem updCore_queues (k : Nat) (f : CoreSt → CoreSt) (s : State) : (updCore k f s).queues = s.queues := rfl
@[simp] theorem updCore_deadlock (k : Nat) (f : CoreSt → CoreSt) (s : State) : (updCore k f s).deadlock = s.deadlock := rfl
@[simp] theorem updCore_flight (k : Nat) (f : CoreSt → CoreSt) (s : State) : (updCore k f s).flight = s.flight := rfl
@[simp] theorem updCore_longs (k : Nat) (f : CoreSt → CoreSt) (s : State) : (updCore k f s).longs = s.longs := rfl
@[simp] theorem updCore_works (k : Nat) (f : CoreSt → CoreSt) (s : State) : (updCore k f s).works = s.works := rfl
@[simp] theorem updCore_flushes (k : Nat) (f : CoreSt → CoreSt) (s : State) : (updCore k f s).flushes = s.flushes := rfl
@[simp] theorem updCore_wire (k : Nat) (f : CoreSt → CoreSt) (s : State) : (updCore k f s).wire = s.wire := rfl
@[simp] theorem updCore_walks (k : Nat) (f : CoreSt → CoreSt) (s : State) : (updCore k f s).walks = s.walks := rfl
@[simp] theorem updCore_watches (k : Nat) (f : CoreSt → CoreSt) (s : State) : (updCore k f s).watches = s.watches := rfl
@[simp] theorem updCore_hostOut (k : Nat) (f : CoreSt → CoreSt) (s : State) : (updCore k f s).hostOut = s.hostOut := rfl

@[simp] theorem updRet_agenda (k : Nat) (f : RetSt → RetSt) (s : State) : (updRet k f s).agenda = s.agenda := rfl
@[simp] theorem updRet_focus (k : Nat) (f : RetSt → RetSt) (s : State) : (updRet k f s).focus = s.focus := rfl
@[simp] theorem updRet_free (k : Nat) (f : RetSt → RetSt) (s : State) : (updRet k f s).free = s.free := rfl
@[simp] theorem updRet_nextId (k : Nat) (f : RetSt → RetSt) (s : State) : (updRet k f s).nextId = s.nextId := rfl
@[simp] theorem updRet_ticks (k : Nat) (f : RetSt → RetSt) (s : State) : (updRet k f s).ticks = s.ticks := rfl
@[simp] theorem updRet_mem (k : Nat) (f : RetSt → RetSt) (s : State) : (updRet k f s).mem = s.mem := rfl
@[simp] theorem updRet_poison (k : Nat) (f : RetSt → RetSt) (s : State) : (updRet k f s).poison = s.poison := rfl
@[simp] theorem updRet_sectorKey (k : Nat) (f : RetSt → RetSt) (s : State) : (updRet k f s).sectorKey = s.sectorKey := rfl
@[simp] theorem updRet_overflow (k : Nat) (f : RetSt → RetSt) (s : State) : (updRet k f s).overflow = s.overflow := rfl
@[simp] theorem updRet_rawFrames (k : Nat) (f : RetSt → RetSt) (s : State) : (updRet k f s).rawFrames = s.rawFrames := rfl
@[simp] theorem updRet_llc (k : Nat) (f : RetSt → RetSt) (s : State) : (updRet k f s).llc = s.llc := rfl
@[simp] theorem updRet_cores (k : Nat) (f : RetSt → RetSt) (s : State) : (updRet k f s).cores = s.cores := rfl
@[simp] theorem updRet_mods (k : Nat) (f : RetSt → RetSt) (s : State) : (updRet k f s).mods = s.mods := rfl
@[simp] theorem updRet_groups (k : Nat) (f : RetSt → RetSt) (s : State) : (updRet k f s).groups = s.groups := rfl
@[simp] theorem updRet_sws (k : Nat) (f : RetSt → RetSt) (s : State) : (updRet k f s).sws = s.sws := rfl
@[simp] theorem updRet_threads (k : Nat) (f : RetSt → RetSt) (s : State) : (updRet k f s).threads = s.threads := rfl
@[simp] theorem updRet_queues (k : Nat) (f : RetSt → RetSt) (s : State) : (updRet k f s).queues = s.queues := rfl
@[simp] theorem updRet_deadlock (k : Nat) (f : RetSt → RetSt) (s : State) : (updRet k f s).deadlock = s.deadlock := rfl
@[simp] theorem updRet_flight (k : Nat) (f : RetSt → RetSt) (s : State) : (updRet k f s).flight = s.flight := rfl
@[simp] theorem updRet_longs (k : Nat) (f : RetSt → RetSt) (s : State) : (updRet k f s).longs = s.longs := rfl
@[simp] theorem updRet_works (k : Nat) (f : RetSt → RetSt) (s : State) : (updRet k f s).works = s.works := rfl
@[simp] theorem updRet_flushes (k : Nat) (f : RetSt → RetSt) (s : State) : (updRet k f s).flushes = s.flushes := rfl
@[simp] theorem updRet_wire (k : Nat) (f : RetSt → RetSt) (s : State) : (updRet k f s).wire = s.wire := rfl
@[simp] theorem updRet_walks (k : Nat) (f : RetSt → RetSt) (s : State) : (updRet k f s).walks = s.walks := rfl
@[simp] theorem updRet_watches (k : Nat) (f : RetSt → RetSt) (s : State) : (updRet k f s).watches = s.watches := rfl
@[simp] theorem updRet_hostOut (k : Nat) (f : RetSt → RetSt) (s : State) : (updRet k f s).hostOut = s.hostOut := rfl

@[simp] theorem updMod_agenda (k : Nat) (f : ModSt → ModSt) (s : State) : (updMod k f s).agenda = s.agenda := rfl
@[simp] theorem updMod_focus (k : Nat) (f : ModSt → ModSt) (s : State) : (updMod k f s).focus = s.focus := rfl
@[simp] theorem updMod_free (k : Nat) (f : ModSt → ModSt) (s : State) : (updMod k f s).free = s.free := rfl
@[simp] theorem updMod_nextId (k : Nat) (f : ModSt → ModSt) (s : State) : (updMod k f s).nextId = s.nextId := rfl
@[simp] theorem updMod_ticks (k : Nat) (f : ModSt → ModSt) (s : State) : (updMod k f s).ticks = s.ticks := rfl
@[simp] theorem updMod_mem (k : Nat) (f : ModSt → ModSt) (s : State) : (updMod k f s).mem = s.mem := rfl
@[simp] theorem updMod_poison (k : Nat) (f : ModSt → ModSt) (s : State) : (updMod k f s).poison = s.poison := rfl
@[simp] theorem updMod_sectorKey (k : Nat) (f : ModSt → ModSt) (s : State) : (updMod k f s).sectorKey = s.sectorKey := rfl
@[simp] theorem updMod_overflow (k : Nat) (f : ModSt → ModSt) (s : State) : (updMod k f s).overflow = s.overflow := rfl
@[simp] theorem updMod_rawFrames (k : Nat) (f : ModSt → ModSt) (s : State) : (updMod k f s).rawFrames = s.rawFrames := rfl
@[simp] theorem updMod_llc (k : Nat) (f : ModSt → ModSt) (s : State) : (updMod k f s).llc = s.llc := rfl
@[simp] theorem updMod_cores (k : Nat) (f : ModSt → ModSt) (s : State) : (updMod k f s).cores = s.cores := rfl
@[simp] theorem updMod_rets (k : Nat) (f : ModSt → ModSt) (s : State) : (updMod k f s).rets = s.rets := rfl
@[simp] theorem updMod_groups (k : Nat) (f : ModSt → ModSt) (s : State) : (updMod k f s).groups = s.groups := rfl
@[simp] theorem updMod_sws (k : Nat) (f : ModSt → ModSt) (s : State) : (updMod k f s).sws = s.sws := rfl
@[simp] theorem updMod_threads (k : Nat) (f : ModSt → ModSt) (s : State) : (updMod k f s).threads = s.threads := rfl
@[simp] theorem updMod_queues (k : Nat) (f : ModSt → ModSt) (s : State) : (updMod k f s).queues = s.queues := rfl
@[simp] theorem updMod_deadlock (k : Nat) (f : ModSt → ModSt) (s : State) : (updMod k f s).deadlock = s.deadlock := rfl
@[simp] theorem updMod_flight (k : Nat) (f : ModSt → ModSt) (s : State) : (updMod k f s).flight = s.flight := rfl
@[simp] theorem updMod_longs (k : Nat) (f : ModSt → ModSt) (s : State) : (updMod k f s).longs = s.longs := rfl
@[simp] theorem updMod_works (k : Nat) (f : ModSt → ModSt) (s : State) : (updMod k f s).works = s.works := rfl
@[simp] theorem updMod_flushes (k : Nat) (f : ModSt → ModSt) (s : State) : (updMod k f s).flushes = s.flushes := rfl
@[simp] theorem updMod_wire (k : Nat) (f : ModSt → ModSt) (s : State) : (updMod k f s).wire = s.wire := rfl
@[simp] theorem updMod_walks (k : Nat) (f : ModSt → ModSt) (s : State) : (updMod k f s).walks = s.walks := rfl
@[simp] theorem updMod_watches (k : Nat) (f : ModSt → ModSt) (s : State) : (updMod k f s).watches = s.watches := rfl
@[simp] theorem updMod_hostOut (k : Nat) (f : ModSt → ModSt) (s : State) : (updMod k f s).hostOut = s.hostOut := rfl

@[simp] theorem updSw_agenda (k : Nat) (f : SliceWarp → SliceWarp) (s : State) : (updSw k f s).agenda = s.agenda := rfl
@[simp] theorem updSw_focus (k : Nat) (f : SliceWarp → SliceWarp) (s : State) : (updSw k f s).focus = s.focus := rfl
@[simp] theorem updSw_free (k : Nat) (f : SliceWarp → SliceWarp) (s : State) : (updSw k f s).free = s.free := rfl
@[simp] theorem updSw_nextId (k : Nat) (f : SliceWarp → SliceWarp) (s : State) : (updSw k f s).nextId = s.nextId := rfl
@[simp] theorem updSw_ticks (k : Nat) (f : SliceWarp → SliceWarp) (s : State) : (updSw k f s).ticks = s.ticks := rfl
@[simp] theorem updSw_mem (k : Nat) (f : SliceWarp → SliceWarp) (s : State) : (updSw k f s).mem = s.mem := rfl
@[simp] theorem updSw_poison (k : Nat) (f : SliceWarp → SliceWarp) (s : State) : (updSw k f s).poison = s.poison := rfl
@[simp] theorem updSw_sectorKey (k : Nat) (f : SliceWarp → SliceWarp) (s : State) : (updSw k f s).sectorKey = s.sectorKey := rfl
@[simp] theorem updSw_overflow (k : Nat) (f : SliceWarp → SliceWarp) (s : State) : (updSw k f s).overflow = s.overflow := rfl
@[simp] theorem updSw_rawFrames (k : Nat) (f : SliceWarp → SliceWarp) (s : State) : (updSw k f s).rawFrames = s.rawFrames := rfl
@[simp] theorem updSw_llc (k : Nat) (f : SliceWarp → SliceWarp) (s : State) : (updSw k f s).llc = s.llc := rfl
@[simp] theorem updSw_cores (k : Nat) (f : SliceWarp → SliceWarp) (s : State) : (updSw k f s).cores = s.cores := rfl
@[simp] theorem updSw_rets (k : Nat) (f : SliceWarp → SliceWarp) (s : State) : (updSw k f s).rets = s.rets := rfl
@[simp] theorem updSw_mods (k : Nat) (f : SliceWarp → SliceWarp) (s : State) : (updSw k f s).mods = s.mods := rfl
@[simp] theorem updSw_groups (k : Nat) (f : SliceWarp → SliceWarp) (s : State) : (updSw k f s).groups = s.groups := rfl
@[simp] theorem updSw_threads (k : Nat) (f : SliceWarp → SliceWarp) (s : State) : (updSw k f s).threads = s.threads := rfl
@[simp] theorem updSw_queues (k : Nat) (f : SliceWarp → SliceWarp) (s : State) : (updSw k f s).queues = s.queues := rfl
@[simp] theorem updSw_deadlock (k : Nat) (f : SliceWarp → SliceWarp) (s : State) : (updSw k f s).deadlock = s.deadlock := rfl
@[simp] theorem updSw_flight (k : Nat) (f : SliceWarp → SliceWarp) (s : State) : (updSw k f s).flight = s.flight := rfl
@[simp] theorem updSw_longs (k : Nat) (f : SliceWarp → SliceWarp) (s : State) : (updSw k f s).longs = s.longs := rfl
@[simp] theorem updSw_works (k : Nat) (f : SliceWarp → SliceWarp) (s : State) : (updSw k f s).works = s.works := rfl
@[simp] theorem updSw_flushes (k : Nat) (f : SliceWarp → SliceWarp) (s : State) : (updSw k f s).flushes = s.flushes := rfl
@[simp] theorem updSw_wire (k : Nat) (f : SliceWarp → SliceWarp) (s : State) : (updSw k f s).wire = s.wire := rfl
@[simp] theorem updSw_walks (k : Nat) (f : SliceWarp → SliceWarp) (s : State) : (updSw k f s).walks = s.walks := rfl
@[simp] theorem updSw_watches (k : Nat) (f : SliceWarp → SliceWarp) (s : State) : (updSw k f s).watches = s.watches := rfl
@[simp] theorem updSw_hostOut (k : Nat) (f : SliceWarp → SliceWarp) (s : State) : (updSw k f s).hostOut = s.hostOut := rfl

@[simp] theorem updTh_agenda (k : Nat) (f : Thread → Thread) (s : State) : (updTh k f s).agenda = s.agenda := rfl
@[simp] theorem updTh_focus (k : Nat) (f : Thread → Thread) (s : State) : (updTh k f s).focus = s.focus := rfl
@[simp] theorem updTh_free (k : Nat) (f : Thread → Thread) (s : State) : (updTh k f s).free = s.free := rfl
@[simp] theorem updTh_nextId (k : Nat) (f : Thread → Thread) (s : State) : (updTh k f s).nextId = s.nextId := rfl
@[simp] theorem updTh_ticks (k : Nat) (f : Thread → Thread) (s : State) : (updTh k f s).ticks = s.ticks := rfl
@[simp] theorem updTh_mem (k : Nat) (f : Thread → Thread) (s : State) : (updTh k f s).mem = s.mem := rfl
@[simp] theorem updTh_poison (k : Nat) (f : Thread → Thread) (s : State) : (updTh k f s).poison = s.poison := rfl
@[simp] theorem updTh_sectorKey (k : Nat) (f : Thread → Thread) (s : State) : (updTh k f s).sectorKey = s.sectorKey := rfl
@[simp] theorem updTh_overflow (k : Nat) (f : Thread → Thread) (s : State) : (updTh k f s).overflow = s.overflow := rfl
@[simp] theorem updTh_rawFrames (k : Nat) (f : Thread → Thread) (s : State) : (updTh k f s).rawFrames = s.rawFrames := rfl
@[simp] theorem updTh_llc (k : Nat) (f : Thread → Thread) (s : State) : (updTh k f s).llc = s.llc := rfl
@[simp] theorem updTh_cores (k : Nat) (f : Thread → Thread) (s : State) : (updTh k f s).cores = s.cores := rfl
@[simp] theorem updTh_rets (k : Nat) (f : Thread → Thread) (s : State) : (updTh k f s).rets = s.rets := rfl
@[simp] theorem updTh_mods (k : Nat) (f : Thread → Thread) (s : State) : (updTh k f s).mods = s.mods := rfl
@[simp] theorem updTh_groups (k : Nat) (f : Thread → Thread) (s : State) : (updTh k f s).groups = s.groups := rfl
@[simp] theorem updTh_sws (k : Nat) (f : Thread → Thread) (s : State) : (updTh k f s).sws = s.sws := rfl
@[simp] theorem updTh_queues (k : Nat) (f : Thread → Thread) (s : State) : (updTh k f s).queues = s.queues := rfl
@[simp] theorem updTh_deadlock (k : Nat) (f : Thread → Thread) (s : State) : (updTh k f s).deadlock = s.deadlock := rfl
@[simp] theorem updTh_flight (k : Nat) (f : Thread → Thread) (s : State) : (updTh k f s).flight = s.flight := rfl
@[simp] theorem updTh_longs (k : Nat) (f : Thread → Thread) (s : State) : (updTh k f s).longs = s.longs := rfl
@[simp] theorem updTh_works (k : Nat) (f : Thread → Thread) (s : State) : (updTh k f s).works = s.works := rfl
@[simp] theorem updTh_flushes (k : Nat) (f : Thread → Thread) (s : State) : (updTh k f s).flushes = s.flushes := rfl
@[simp] theorem updTh_wire (k : Nat) (f : Thread → Thread) (s : State) : (updTh k f s).wire = s.wire := rfl
@[simp] theorem updTh_walks (k : Nat) (f : Thread → Thread) (s : State) : (updTh k f s).walks = s.walks := rfl
@[simp] theorem updTh_watches (k : Nat) (f : Thread → Thread) (s : State) : (updTh k f s).watches = s.watches := rfl
@[simp] theorem updTh_hostOut (k : Nat) (f : Thread → Thread) (s : State) : (updTh k f s).hostOut = s.hostOut := rfl

@[simp] theorem updQ_agenda (k : Nat) (f : Queue → Queue) (s : State) : (updQ k f s).agenda = s.agenda := rfl
@[simp] theorem updQ_focus (k : Nat) (f : Queue → Queue) (s : State) : (updQ k f s).focus = s.focus := rfl
@[simp] theorem updQ_free (k : Nat) (f : Queue → Queue) (s : State) : (updQ k f s).free = s.free := rfl
@[simp] theorem updQ_nextId (k : Nat) (f : Queue → Queue) (s : State) : (updQ k f s).nextId = s.nextId := rfl
@[simp] theorem updQ_ticks (k : Nat) (f : Queue → Queue) (s : State) : (updQ k f s).ticks = s.ticks := rfl
@[simp] theorem updQ_mem (k : Nat) (f : Queue → Queue) (s : State) : (updQ k f s).mem = s.mem := rfl
@[simp] theorem updQ_poison (k : Nat) (f : Queue → Queue) (s : State) : (updQ k f s).poison = s.poison := rfl
@[simp] theorem updQ_sectorKey (k : Nat) (f : Queue → Queue) (s : State) : (updQ k f s).sectorKey = s.sectorKey := rfl
@[simp] theorem updQ_overflow (k : Nat) (f : Queue → Queue) (s : State) : (updQ k f s).overflow = s.overflow := rfl
@[simp] theorem updQ_rawFrames (k : Nat) (f : Queue → Queue) (s : State) : (updQ k f s).rawFrames = s.rawFrames := rfl
@[simp] theorem updQ_llc (k : Nat) (f : Queue → Queue) (s : State) : (updQ k f s).llc = s.llc := rfl
@[simp] theorem updQ_cores (k : Nat) (f : Queue → Queue) (s : State) : (updQ k f s).cores = s.cores := rfl
@[simp] theorem updQ_rets (k : Nat) (f : Queue → Queue) (s : State) : (updQ k f s).rets = s.rets := rfl
@[simp] theorem updQ_mods (k : Nat) (f : Queue → Queue) (s : State) : (updQ k f s).mods = s.mods := rfl
@[simp] theorem updQ_groups (k : Nat) (f : Queue → Queue) (s : State) : (updQ k f s).groups = s.groups := rfl
@[simp] theorem updQ_sws (k : Nat) (f : Queue → Queue) (s : State) : (updQ k f s).sws = s.sws := rfl
@[simp] theorem updQ_threads (k : Nat) (f : Queue → Queue) (s : State) : (updQ k f s).threads = s.threads := rfl
@[simp] theorem updQ_deadlock (k : Nat) (f : Queue → Queue) (s : State) : (updQ k f s).deadlock = s.deadlock := rfl
@[simp] theorem updQ_flight (k : Nat) (f : Queue → Queue) (s : State) : (updQ k f s).flight = s.flight := rfl
@[simp] theorem updQ_longs (k : Nat) (f : Queue → Queue) (s : State) : (updQ k f s).longs = s.longs := rfl
@[simp] theorem updQ_works (k : Nat) (f : Queue → Queue) (s : State) : (updQ k f s).works = s.works := rfl
@[simp] theorem updQ_flushes (k : Nat) (f : Queue → Queue) (s : State) : (updQ k f s).flushes = s.flushes := rfl
@[simp] theorem updQ_wire (k : Nat) (f : Queue → Queue) (s : State) : (updQ k f s).wire = s.wire := rfl
@[simp] theorem updQ_walks (k : Nat) (f : Queue → Queue) (s : State) : (updQ k f s).walks = s.walks := rfl
@[simp] theorem updQ_watches (k : Nat) (f : Queue → Queue) (s : State) : (updQ k f s).watches = s.watches := rfl
@[simp] theorem updQ_hostOut (k : Nat) (f : Queue → Queue) (s : State) : (updQ k f s).hostOut = s.hostOut := rfl

@[simp] theorem updGroup_agenda (k : Nat) (f : Group → Group) (s : State) : (updGroup k f s).agenda = s.agenda := by unfold updGroup; split <;> rfl
@[simp] theorem updGroup_focus (k : Nat) (f : Group → Group) (s : State) : (updGroup k f s).focus = s.focus := by unfold updGroup; split <;> rfl
@[simp] theorem updGroup_free (k : Nat) (f : Group → Group) (s : State) : (updGroup k f s).free = s.free := by unfold updGroup; split <;> rfl
@[simp] theorem updGroup_nextId (k : Nat) (f : Group → Group) (s : State) : (updGroup k f s).nextId = s.nextId := by unfold updGroup; split <;> rfl
@[simp] theorem updGroup_ticks (k : Nat) (f : Group → Group) (s : State) : (updGroup k f s).ticks = s.ticks := by unfold updGroup; split <;> rfl
@[simp] theorem updGroup_mem (k : Nat) (f : Group → Group) (s : State) : (updGroup k f s).mem = s.mem := by unfold updGroup; split <;> rfl
@[simp] theorem updGroup_poison (k : Nat) (f : Group → Group) (s : State) : (updGroup k f s).poison = s.poison := by unfold updGroup; split <;> rfl
@[simp] theorem updGroup_sectorKey (k : Nat) (f : Group → Group) (s : State) : (updGroup k f s).sectorKey = s.sectorKey := by unfold updGroup; split <;> rfl
@[simp] theorem updGroup_overflow (k : Nat) (f : Group → Group) (s : State) : (updGroup k f s).overflow = s.overflow := by unfold updGroup; split <;> rfl
@[simp] theorem updGroup_rawFrames (k : Nat) (f : Group → Group) (s : State) : (updGroup k f s).rawFrames = s.rawFrames := by unfold updGroup; split <;> rfl
@[simp] theorem updGroup_llc (k : Nat) (f : Group → Group) (s : State) : (updGroup k f s).llc = s.llc := by unfold updGroup; split <;> rfl
@[simp] theorem updGroup_cores (k : Nat) (f : Group → Group) (s : State) : (updGroup k f s).cores = s.cores := by unfold updGroup; split <;> rfl
@[simp] theorem updGroup_rets (k : Nat) (f : Group → Group) (s : State) : (updGroup k f s).rets = s.rets := by unfold updGroup; split <;> rfl
@[simp] theorem updGroup_mods (k : Nat) (f : Group → Group) (s : State) : (updGroup k f s).mods = s.mods := by unfold updGroup; split <;> rfl
@[simp] theorem updGroup_sws (k : Nat) (f : Group → Group) (s : State) : (updGroup k f s).sws = s.sws := by unfold updGroup; split <;> rfl
@[simp] theorem updGroup_threads (k : Nat) (f : Group → Group) (s : State) : (updGroup k f s).threads = s.threads := by unfold updGroup; split <;> rfl
@[simp] theorem updGroup_queues (k : Nat) (f : Group → Group) (s : State) : (updGroup k f s).queues = s.queues := by unfold updGroup; split <;> rfl
@[simp] theorem updGroup_deadlock (k : Nat) (f : Group → Group) (s : State) : (updGroup k f s).deadlock = s.deadlock := by unfold updGroup; split <;> rfl
@[simp] theorem updGroup_flight (k : Nat) (f : Group → Group) (s : State) : (updGroup k f s).flight = s.flight := by unfold updGroup; split <;> rfl
@[simp] theorem updGroup_longs (k : Nat) (f : Group → Group) (s : State) : (updGroup k f s).longs = s.longs := by unfold updGroup; split <;> rfl
@[simp] theorem updGroup_works (k : Nat) (f : Group → Group) (s : State) : (updGroup k f s).works = s.works := by unfold updGroup; split <;> rfl
@[simp] theorem updGroup_flushes (k : Nat) (f : Group → Group) (s : State) : (updGroup k f s).flushes = s.flushes := by unfold updGroup; split <;> rfl
@[simp] theorem updGroup_wire (k : Nat) (f : Group → Group) (s : State) : (updGroup k f s).wire = s.wire := by unfold updGroup; split <;> rfl
@[simp] theorem updGroup_walks (k : Nat) (f : Group → Group) (s : State) : (updGroup k f s).walks = s.walks := by unfold updGroup; split <;> rfl
@[simp] theorem updGroup_watches (k : Nat) (f : Group → Group) (s : State) : (updGroup k f s).watches = s.watches := by unfold updGroup; split <;> rfl
@[simp] theorem updGroup_hostOut (k : Nat) (f : Group → Group) (s : State) : (updGroup k f s).hostOut = s.hostOut := by unfold updGroup; split <;> rfl

@[simp] theorem updGrid_agenda (m h : Nat) (f : Grid → Grid) (s : State) : (updGrid m h f s).agenda = s.agenda := by unfold updGrid; split <;> rfl
@[simp] theorem updGrid_focus (m h : Nat) (f : Grid → Grid) (s : State) : (updGrid m h f s).focus = s.focus := by unfold updGrid; split <;> rfl
@[simp] theorem updGrid_free (m h : Nat) (f : Grid → Grid) (s : State) : (updGrid m h f s).free = s.free := by unfold updGrid; split <;> rfl
@[simp] theorem updGrid_nextId (m h : Nat) (f : Grid → Grid) (s : State) : (updGrid m h f s).nextId = s.nextId := by unfold updGrid; split <;> rfl
@[simp] theorem updGrid_ticks (m h : Nat) (f : Grid → Grid) (s : State) : (updGrid m h f s).ticks = s.ticks := by unfold updGrid; split <;> rfl
@[simp] theorem updGrid_mem (m h : Nat) (f : Grid → Grid) (s : State) : (updGrid m h f s).mem = s.mem := by unfold updGrid; split <;> rfl
@[simp] theorem updGrid_poison (m h : Nat) (f : Grid → Grid) (s : State) : (updGrid m h f s).poison = s.poison := by unfold updGrid; split <;> rfl
@[simp] theorem updGrid_sectorKey (m h : Nat) (f : Grid → Grid) (s : State) : (updGrid m h f s).sectorKey = s.sectorKey := by unfold updGrid; split <;> rfl
@[simp] theorem updGrid_overflow (m h : Nat) (f : Grid → Grid) (s : State) : (updGrid m h f s).overflow = s.overflow := by unfold updGrid; split <;> rfl
@[simp] theorem updGrid_rawFrames (m h : Nat) (f : Grid → Grid) (s : State) : (updGrid m h f s).rawFrames = s.rawFrames := by unfold updGrid; split <;> rfl
@[simp] theorem updGrid_llc (m h : Nat) (f : Grid → Grid) (s : State) : (updGrid m h f s).llc = s.llc := by unfold updGrid; split <;> rfl
@[simp] theorem updGrid_cores (m h : Nat) (f : Grid → Grid) (s : State) : (updGrid m h f s).cores = s.cores := by unfold updGrid; split <;> rfl
@[simp] theorem updGrid_rets (m h : Nat) (f : Grid → Grid) (s : State) : (updGrid m h f s).rets = s.rets := by unfold updGrid; split <;> rfl
@[simp] theorem updGrid_groups (m h : Nat) (f : Grid → Grid) (s : State) : (updGrid m h f s).groups = s.groups := by unfold updGrid; split <;> rfl
@[simp] theorem updGrid_sws (m h : Nat) (f : Grid → Grid) (s : State) : (updGrid m h f s).sws = s.sws := by unfold updGrid; split <;> rfl
@[simp] theorem updGrid_threads (m h : Nat) (f : Grid → Grid) (s : State) : (updGrid m h f s).threads = s.threads := by unfold updGrid; split <;> rfl
@[simp] theorem updGrid_queues (m h : Nat) (f : Grid → Grid) (s : State) : (updGrid m h f s).queues = s.queues := by unfold updGrid; split <;> rfl
@[simp] theorem updGrid_deadlock (m h : Nat) (f : Grid → Grid) (s : State) : (updGrid m h f s).deadlock = s.deadlock := by unfold updGrid; split <;> rfl
@[simp] theorem updGrid_flight (m h : Nat) (f : Grid → Grid) (s : State) : (updGrid m h f s).flight = s.flight := by unfold updGrid; split <;> rfl
@[simp] theorem updGrid_longs (m h : Nat) (f : Grid → Grid) (s : State) : (updGrid m h f s).longs = s.longs := by unfold updGrid; split <;> rfl
@[simp] theorem updGrid_works (m h : Nat) (f : Grid → Grid) (s : State) : (updGrid m h f s).works = s.works := by unfold updGrid; split <;> rfl
@[simp] theorem updGrid_flushes (m h : Nat) (f : Grid → Grid) (s : State) : (updGrid m h f s).flushes = s.flushes := by unfold updGrid; split <;> rfl
@[simp] theorem updGrid_wire (m h : Nat) (f : Grid → Grid) (s : State) : (updGrid m h f s).wire = s.wire := by unfold updGrid; split <;> rfl
@[simp] theorem updGrid_walks (m h : Nat) (f : Grid → Grid) (s : State) : (updGrid m h f s).walks = s.walks := by unfold updGrid; split <;> rfl
@[simp] theorem updGrid_watches (m h : Nat) (f : Grid → Grid) (s : State) : (updGrid m h f s).watches = s.watches := by unfold updGrid; split <;> rfl
@[simp] theorem updGrid_hostOut (m h : Nat) (f : Grid → Grid) (s : State) : (updGrid m h f s).hostOut = s.hostOut := by unfold updGrid; split <;> rfl

@[simp] theorem updRegion_agenda (m i : Nat) (f : Region → Region) (s : State) : (updRegion m i f s).agenda = s.agenda := by unfold updRegion; split <;> rfl
@[simp] theorem updRegion_focus (m i : Nat) (f : Region → Region) (s : State) : (updRegion m i f s).focus = s.focus := by unfold updRegion; split <;> rfl
@[simp] theorem updRegion_free (m i : Nat) (f : Region → Region) (s : State) : (updRegion m i f s).free = s.free := by unfold updRegion; split <;> rfl
@[simp] theorem updRegion_nextId (m i : Nat) (f : Region → Region) (s : State) : (updRegion m i f s).nextId = s.nextId := by unfold updRegion; split <;> rfl
@[simp] theorem updRegion_ticks (m i : Nat) (f : Region → Region) (s : State) : (updRegion m i f s).ticks = s.ticks := by unfold updRegion; split <;> rfl
@[simp] theorem updRegion_mem (m i : Nat) (f : Region → Region) (s : State) : (updRegion m i f s).mem = s.mem := by unfold updRegion; split <;> rfl
@[simp] theorem updRegion_poison (m i : Nat) (f : Region → Region) (s : State) : (updRegion m i f s).poison = s.poison := by unfold updRegion; split <;> rfl
@[simp] theorem updRegion_sectorKey (m i : Nat) (f : Region → Region) (s : State) : (updRegion m i f s).sectorKey = s.sectorKey := by unfold updRegion; split <;> rfl
@[simp] theorem updRegion_overflow (m i : Nat) (f : Region → Region) (s : State) : (updRegion m i f s).overflow = s.overflow := by unfold updRegion; split <;> rfl
@[simp] theorem updRegion_rawFrames (m i : Nat) (f : Region → Region) (s : State) : (updRegion m i f s).rawFrames = s.rawFrames := by unfold updRegion; split <;> rfl
@[simp] theorem updRegion_llc (m i : Nat) (f : Region → Region) (s : State) : (updRegion m i f s).llc = s.llc := by unfold updRegion; split <;> rfl
@[simp] theorem updRegion_cores (m i : Nat) (f : Region → Region) (s : State) : (updRegion m i f s).cores = s.cores := by unfold updRegion; split <;> rfl
@[simp] theorem updRegion_rets (m i : Nat) (f : Region → Region) (s : State) : (updRegion m i f s).rets = s.rets := by unfold updRegion; split <;> rfl
@[simp] theorem updRegion_groups (m i : Nat) (f : Region → Region) (s : State) : (updRegion m i f s).groups = s.groups := by unfold updRegion; split <;> rfl
@[simp] theorem updRegion_sws (m i : Nat) (f : Region → Region) (s : State) : (updRegion m i f s).sws = s.sws := by unfold updRegion; split <;> rfl
@[simp] theorem updRegion_threads (m i : Nat) (f : Region → Region) (s : State) : (updRegion m i f s).threads = s.threads := by unfold updRegion; split <;> rfl
@[simp] theorem updRegion_queues (m i : Nat) (f : Region → Region) (s : State) : (updRegion m i f s).queues = s.queues := by unfold updRegion; split <;> rfl
@[simp] theorem updRegion_deadlock (m i : Nat) (f : Region → Region) (s : State) : (updRegion m i f s).deadlock = s.deadlock := by unfold updRegion; split <;> rfl
@[simp] theorem updRegion_flight (m i : Nat) (f : Region → Region) (s : State) : (updRegion m i f s).flight = s.flight := by unfold updRegion; split <;> rfl
@[simp] theorem updRegion_longs (m i : Nat) (f : Region → Region) (s : State) : (updRegion m i f s).longs = s.longs := by unfold updRegion; split <;> rfl
@[simp] theorem updRegion_works (m i : Nat) (f : Region → Region) (s : State) : (updRegion m i f s).works = s.works := by unfold updRegion; split <;> rfl
@[simp] theorem updRegion_flushes (m i : Nat) (f : Region → Region) (s : State) : (updRegion m i f s).flushes = s.flushes := by unfold updRegion; split <;> rfl
@[simp] theorem updRegion_wire (m i : Nat) (f : Region → Region) (s : State) : (updRegion m i f s).wire = s.wire := by unfold updRegion; split <;> rfl
@[simp] theorem updRegion_walks (m i : Nat) (f : Region → Region) (s : State) : (updRegion m i f s).walks = s.walks := by unfold updRegion; split <;> rfl
@[simp] theorem updRegion_watches (m i : Nat) (f : Region → Region) (s : State) : (updRegion m i f s).watches = s.watches := by unfold updRegion; split <;> rfl
@[simp] theorem updRegion_hostOut (m i : Nat) (f : Region → Region) (s : State) : (updRegion m i f s).hostOut = s.hostOut := by unfold updRegion; split <;> rfl

@[simp] theorem setPort_agenda (p : Port) (r : Option Run) (s : State) : (setPort p r s).agenda = s.agenda := rfl
@[simp] theorem setPort_focus (p : Port) (r : Option Run) (s : State) : (setPort p r s).focus = s.focus := rfl
@[simp] theorem setPort_free (p : Port) (r : Option Run) (s : State) : (setPort p r s).free = s.free := rfl
@[simp] theorem setPort_nextId (p : Port) (r : Option Run) (s : State) : (setPort p r s).nextId = s.nextId := rfl
@[simp] theorem setPort_ticks (p : Port) (r : Option Run) (s : State) : (setPort p r s).ticks = s.ticks := rfl
@[simp] theorem setPort_mem (p : Port) (r : Option Run) (s : State) : (setPort p r s).mem = s.mem := rfl
@[simp] theorem setPort_poison (p : Port) (r : Option Run) (s : State) : (setPort p r s).poison = s.poison := rfl
@[simp] theorem setPort_sectorKey (p : Port) (r : Option Run) (s : State) : (setPort p r s).sectorKey = s.sectorKey := rfl
@[simp] theorem setPort_overflow (p : Port) (r : Option Run) (s : State) : (setPort p r s).overflow = s.overflow := rfl
@[simp] theorem setPort_rawFrames (p : Port) (r : Option Run) (s : State) : (setPort p r s).rawFrames = s.rawFrames := rfl
@[simp] theorem setPort_llc (p : Port) (r : Option Run) (s : State) : (setPort p r s).llc = s.llc := rfl
@[simp] theorem setPort_rets (p : Port) (r : Option Run) (s : State) : (setPort p r s).rets = s.rets := rfl
@[simp] theorem setPort_mods (p : Port) (r : Option Run) (s : State) : (setPort p r s).mods = s.mods := rfl
@[simp] theorem setPort_groups (p : Port) (r : Option Run) (s : State) : (setPort p r s).groups = s.groups := rfl
@[simp] theorem setPort_sws (p : Port) (r : Option Run) (s : State) : (setPort p r s).sws = s.sws := rfl
@[simp] theorem setPort_threads (p : Port) (r : Option Run) (s : State) : (setPort p r s).threads = s.threads := rfl
@[simp] theorem setPort_queues (p : Port) (r : Option Run) (s : State) : (setPort p r s).queues = s.queues := rfl
@[simp] theorem setPort_deadlock (p : Port) (r : Option Run) (s : State) : (setPort p r s).deadlock = s.deadlock := rfl
@[simp] theorem setPort_flight (p : Port) (r : Option Run) (s : State) : (setPort p r s).flight = s.flight := rfl
@[simp] theorem setPort_longs (p : Port) (r : Option Run) (s : State) : (setPort p r s).longs = s.longs := rfl
@[simp] theorem setPort_works (p : Port) (r : Option Run) (s : State) : (setPort p r s).works = s.works := rfl
@[simp] theorem setPort_flushes (p : Port) (r : Option Run) (s : State) : (setPort p r s).flushes = s.flushes := rfl
@[simp] theorem setPort_wire (p : Port) (r : Option Run) (s : State) : (setPort p r s).wire = s.wire := rfl
@[simp] theorem setPort_walks (p : Port) (r : Option Run) (s : State) : (setPort p r s).walks = s.walks := rfl
@[simp] theorem setPort_watches (p : Port) (r : Option Run) (s : State) : (setPort p r s).watches = s.watches := rfl
@[simp] theorem setPort_hostOut (p : Port) (r : Option Run) (s : State) : (setPort p r s).hostOut = s.hostOut := rfl

theorem core_updCore (k j : Nat) (f : CoreSt → CoreSt) (s : State) : (updCore k f s).core j = if j = k then f (s.core k) else s.core j := by
  simp only [State.core, updCore, mget_mput]
theorem ret_updRet (k j : Nat) (f : RetSt → RetSt) (s : State) : (updRet k f s).ret j = if j = k then f (s.ret k) else s.ret j := by
  simp only [State.ret, updRet, mget_mput]
theorem mod_updMod (k j : Nat) (f : ModSt → ModSt) (s : State) : (updMod k f s).mod j = if j = k then f (s.mod k) else s.mod j := by
  simp only [State.mod, updMod, mget_mput]
theorem sw_updSw (k j : Nat) (f : SliceWarp → SliceWarp) (s : State) : (updSw k f s).sw j = if j = k then f (s.sw k) else s.sw j := by
  simp only [State.sw, updSw, mget_mput]
theorem thread_updTh (k j : Nat) (f : Thread → Thread) (s : State) : (updTh k f s).thread j = if j = k then f (s.thread k) else s.thread j := by
  simp only [State.thread, updTh, mget_mput]
theorem queue_updQ (k j : Nat) (f : Queue → Queue) (s : State) : (updQ k f s).queue j = if j = k then f (s.queue k) else s.queue j := by
  simp only [State.queue, updQ, mget_mput]

@[simp] theorem core_updCore_self (k : Nat) (f : CoreSt → CoreSt) (s : State) : (updCore k f s).core k = f (s.core k) := by simp [core_updCore]
@[simp] theorem ret_updRet_self (k : Nat) (f : RetSt → RetSt) (s : State) : (updRet k f s).ret k = f (s.ret k) := by simp [ret_updRet]
@[simp] theorem mod_updMod_self (k : Nat) (f : ModSt → ModSt) (s : State) : (updMod k f s).mod k = f (s.mod k) := by simp [mod_updMod]
@[simp] theorem sw_updSw_self (k : Nat) (f : SliceWarp → SliceWarp) (s : State) : (updSw k f s).sw k = f (s.sw k) := by simp [sw_updSw]
@[simp] theorem thread_updTh_self (k : Nat) (f : Thread → Thread) (s : State) : (updTh k f s).thread k = f (s.thread k) := by simp [thread_updTh]
@[simp] theorem queue_updQ_self (k : Nat) (f : Queue → Queue) (s : State) : (updQ k f s).queue k = f (s.queue k) := by simp [queue_updQ]

@[simp] theorem core_updRet (k j : Nat) (f : RetSt → RetSt) (s : State) : (updRet k f s).core j = s.core j := rfl
@[simp] theorem core_updMod (k j : Nat) (f : ModSt → ModSt) (s : State) : (updMod k f s).core j = s.core j := rfl
@[simp] theorem core_updSw (k j : Nat) (f : SliceWarp → SliceWarp) (s : State) : (updSw k f s).core j = s.core j := rfl
@[simp] theorem core_updTh (k j : Nat) (f : Thread → Thread) (s : State) : (updTh k f s).core j = s.core j := rfl
@[simp] theorem core_updQ (k j : Nat) (f : Queue → Queue) (s : State) : (updQ k f s).core j = s.core j := rfl
@[simp] theorem ret_updCore (k j : Nat) (f : CoreSt → CoreSt) (s : State) : (updCore k f s).ret j = s.ret j := rfl
@[simp] theorem ret_updMod (k j : Nat) (f : ModSt → ModSt) (s : State) : (updMod k f s).ret j = s.ret j := rfl
@[simp] theorem ret_updSw (k j : Nat) (f : SliceWarp → SliceWarp) (s : State) : (updSw k f s).ret j = s.ret j := rfl
@[simp] theorem ret_updTh (k j : Nat) (f : Thread → Thread) (s : State) : (updTh k f s).ret j = s.ret j := rfl
@[simp] theorem ret_updQ (k j : Nat) (f : Queue → Queue) (s : State) : (updQ k f s).ret j = s.ret j := rfl
@[simp] theorem mod_updCore (k j : Nat) (f : CoreSt → CoreSt) (s : State) : (updCore k f s).mod j = s.mod j := rfl
@[simp] theorem mod_updRet (k j : Nat) (f : RetSt → RetSt) (s : State) : (updRet k f s).mod j = s.mod j := rfl
@[simp] theorem mod_updSw (k j : Nat) (f : SliceWarp → SliceWarp) (s : State) : (updSw k f s).mod j = s.mod j := rfl
@[simp] theorem mod_updTh (k j : Nat) (f : Thread → Thread) (s : State) : (updTh k f s).mod j = s.mod j := rfl
@[simp] theorem mod_updQ (k j : Nat) (f : Queue → Queue) (s : State) : (updQ k f s).mod j = s.mod j := rfl
@[simp] theorem sw_updCore (k j : Nat) (f : CoreSt → CoreSt) (s : State) : (updCore k f s).sw j = s.sw j := rfl
@[simp] theorem sw_updRet (k j : Nat) (f : RetSt → RetSt) (s : State) : (updRet k f s).sw j = s.sw j := rfl
@[simp] theorem sw_updMod (k j : Nat) (f : ModSt → ModSt) (s : State) : (updMod k f s).sw j = s.sw j := rfl
@[simp] theorem sw_updTh (k j : Nat) (f : Thread → Thread) (s : State) : (updTh k f s).sw j = s.sw j := rfl
@[simp] theorem sw_updQ (k j : Nat) (f : Queue → Queue) (s : State) : (updQ k f s).sw j = s.sw j := rfl
@[simp] theorem thread_updCore (k j : Nat) (f : CoreSt → CoreSt) (s : State) : (updCore k f s).thread j = s.thread j := rfl
@[simp] theorem thread_updRet (k j : Nat) (f : RetSt → RetSt) (s : State) : (updRet k f s).thread j = s.thread j := rfl
@[simp] theorem thread_updMod (k j : Nat) (f : ModSt → ModSt) (s : State) : (updMod k f s).thread j = s.thread j := rfl
@[simp] theorem thread_updSw (k j : Nat) (f : SliceWarp → SliceWarp) (s : State) : (updSw k f s).thread j = s.thread j := rfl
@[simp] theorem thread_updQ (k j : Nat) (f : Queue → Queue) (s : State) : (updQ k f s).thread j = s.thread j := rfl
@[simp] theorem queue_updCore (k j : Nat) (f : CoreSt → CoreSt) (s : State) : (updCore k f s).queue j = s.queue j := rfl
@[simp] theorem queue_updRet (k j : Nat) (f : RetSt → RetSt) (s : State) : (updRet k f s).queue j = s.queue j := rfl
@[simp] theorem queue_updMod (k j : Nat) (f : ModSt → ModSt) (s : State) : (updMod k f s).queue j = s.queue j := rfl
@[simp] theorem queue_updSw (k j : Nat) (f : SliceWarp → SliceWarp) (s : State) : (updSw k f s).queue j = s.queue j := rfl
@[simp] theorem queue_updTh (k j : Nat) (f : Thread → Thread) (s : State) : (updTh k f s).queue j = s.queue j := rfl
@[simp] theorem ret_setPort (p : Port) (r : Option Run) (s : State) (j : Nat) : (setPort p r s).ret j = s.ret j := rfl
@[simp] theorem mod_setPort (p : Port) (r : Option Run) (s : State) (j : Nat) : (setPort p r s).mod j = s.mod j := rfl
@[simp] theorem sw_setPort (p : Port) (r : Option Run) (s : State) (j : Nat) : (setPort p r s).sw j = s.sw j := rfl
@[simp] theorem thread_setPort (p : Port) (r : Option Run) (s : State) (j : Nat) : (setPort p r s).thread j = s.thread j := rfl
@[simp] theorem queue_setPort (p : Port) (r : Option Run) (s : State) (j : Nat) : (setPort p r s).queue j = s.queue j := rfl
@[simp] theorem core_updGroup (k j : Nat) (f : Group → Group) (s : State) : (updGroup k f s).core j = s.core j := by unfold updGroup; split <;> rfl
@[simp] theorem core_updGrid (m h j : Nat) (f : Grid → Grid) (s : State) : (updGrid m h f s).core j = s.core j := by unfold updGrid; split <;> rfl
@[simp] theorem ret_updGroup (k j : Nat) (f : Group → Group) (s : State) : (updGroup k f s).ret j = s.ret j := by unfold updGroup; split <;> rfl
@[simp] theorem ret_updGrid (m h j : Nat) (f : Grid → Grid) (s : State) : (updGrid m h f s).ret j = s.ret j := by unfold updGrid; split <;> rfl
@[simp] theorem mod_updGroup (k j : Nat) (f : Group → Group) (s : State) : (updGroup k f s).mod j = s.mod j := by unfold updGroup; split <;> rfl
@[simp] theorem sw_updGroup (k j : Nat) (f : Group → Group) (s : State) : (updGroup k f s).sw j = s.sw j := by unfold updGroup; split <;> rfl
@[simp] theorem sw_updGrid (m h j : Nat) (f : Grid → Grid) (s : State) : (updGrid m h f s).sw j = s.sw j := by unfold updGrid; split <;> rfl
@[simp] theorem thread_updGroup (k j : Nat) (f : Group → Group) (s : State) : (updGroup k f s).thread j = s.thread j := by unfold updGroup; split <;> rfl
@[simp] theorem thread_updGrid (m h j : Nat) (f : Grid → Grid) (s : State) : (updGrid m h f s).thread j = s.thread j := by unfold updGrid; split <;> rfl
@[simp] theorem queue_updGroup (k j : Nat) (f : Group → Group) (s : State) : (updGroup k f s).queue j = s.queue j := by unfold updGroup; split <;> rfl
@[simp] theorem queue_updGrid (m h j : Nat) (f : Grid → Grid) (s : State) : (updGrid m h f s).queue j = s.queue j := by unfold updGrid; split <;> rfl

theorem groups_updGroup (k j : Nat) (f : Group → Group) (s : State) :
    mget? (updGroup k f s).groups j = if j = k then (mget? s.groups k).map f else mget? s.groups j := by
  unfold updGroup
  split <;> rename_i h
  · simp only [mget?_mput, h]; rfl
  · split_ifs with hj
    · subst hj; simp [h]
    · rfl

end Sys2Proof.Laws
end

