-- ==== Sys2Proof/Laws/Issue.lean ====
section
/-! SUPPORT. What issuing an instruction can do (spec/02 R56 to R58, R62): popping sources, writing results and moving the run on, each said
once. -/

namespace Sys2Proof.Machine

open Sys2Proof Sys2Proof.Laws

/-! ### Calm -/

theorem Calm.refl (s : State) : Calm s s := ⟨rfl, fun _ => rfl⟩

theorem Calm.trans {s t u : State} (h : Calm s t) (g : Calm t u) : Calm s u where
  rest := by
    have e : { u with threads := s.threads, sws := s.sws, queues := s.queues, cores := s.cores, ticks := s.ticks, free := s.free }
        = { ({ u with threads := t.threads, sws := t.sws, queues := t.queues, cores := t.cores, ticks := t.ticks, free := t.free } : State) with
            threads := s.threads, sws := s.sws, queues := s.queues, cores := s.cores, ticks := s.ticks, free := s.free } := rfl
    rw [e, g.rest, h.rest]
  cores k := (g.cores k).trans (h.cores k)

theorem calm_updTh (k : Nat) (f : Thread → Thread) (s : State) : Calm s (updTh k f s) := ⟨rfl, fun _ => rfl⟩
theorem calm_updSw (k : Nat) (f : SliceWarp → SliceWarp) (s : State) : Calm s (updSw k f s) := ⟨rfl, fun _ => rfl⟩
theorem calm_updQ (k : Nat) (f : Queue → Queue) (s : State) : Calm s (updQ k f s) := ⟨rfl, fun _ => rfl⟩
theorem calm_setPort (p : Port) (r : Option Run) (s : State) : Calm s (setPort p r s) where
  rest := rfl
  cores k := by
    simp only [setPort, core_updCore]
    split_ifs with h
    · subst h; cases p.slice <;> rfl
    · rfl

/-- A fold of calm updates is calm. -/
theorem calm_foldl {α : Type} (f : State → α → State) (hf : ∀ s a, Calm s (f s a)) (l : List α) (s : State) : Calm s (l.foldl f s) := by
  induction l generalizing s with
  | nil => exact Calm.refl s
  | cons a l ih => exact (hf s a).trans (ih _)

theorem Calm.mem {s t : State} (h : Calm s t) : t.mem = s.mem := (congrArg State.mem h.rest : _)
theorem Calm.poison {s t : State} (h : Calm s t) : t.poison = s.poison := (congrArg State.poison h.rest : _)
theorem Calm.sectorKey {s t : State} (h : Calm s t) : t.sectorKey = s.sectorKey := (congrArg State.sectorKey h.rest : _)
theorem Calm.rets {s t : State} (h : Calm s t) : t.rets = s.rets := (congrArg State.rets h.rest : _)
theorem Calm.mods {s t : State} (h : Calm s t) : t.mods = s.mods := (congrArg State.mods h.rest : _)
theorem Calm.groups {s t : State} (h : Calm s t) : t.groups = s.groups := (congrArg State.groups h.rest : _)
theorem Calm.hostOut {s t : State} (h : Calm s t) : t.hostOut = s.hostOut := (congrArg State.hostOut h.rest : _)

/-- Memory, keys and the module's key table alone decide what a byte reads as. -/
theorem readByteKey_congr {s t : State} (hm : t.mem = s.mem) (hk : t.sectorKey = s.sectorKey) (hd : t.mods = s.mods) (id a : Nat) :
    readByteKey t id a = readByteKey s id a := by
  unfold readByteKey sectorUnder sectorPlain keyMat State.mod readRaw
  rw [hm, hk, hd]

theorem Calm.sameMemory {s t : State} (h : Calm s t) : SameMemory s t :=
  ⟨fun a => by simp only [State.byte, h.mem], readByteKey_congr h.mem h.sectorKey h.mods, h.poison⟩

/-! ### Counters -/

/-- A counter that changes wakes its watchers; nothing else changes (R263, R395). -/
theorem bumpCounter_spec (k i n : Nat) (s : State) :
    { bumpCounter k i n s with cores := s.cores, watches := s.watches } = s
    ∧ (bumpCounter k i n s).watches.Sublist s.watches
    ∧ ∀ j, ((bumpCounter k i n s).core j).uncounted = (s.core j).uncounted := by
  unfold bumpCounter wakeUnit wakeWatches
  split_ifs
  · exact ⟨rfl, List.Sublist.refl _, fun _ => rfl⟩
  · refine ⟨rfl, List.filter_sublist, fun j => ?_⟩
    simp only [State.core, updCore, mget_mput]
    split_ifs with h
    · subst h; rfl
    · rfl

/-- The counters of a core after an addition to one of them. -/
theorem bumpCounter_core (k i n : Nat) (s : State) : ∃ X : SMap W64, (∀ j, (bumpCounter k i n s).core j = if j = k then { s.core k with counters := X } else s.core j)
    ∧ ∀ m, mget X m 0 = if m = i then mget (s.core k).counters i 0 + BitVec.ofNat 64 n else mget (s.core k).counters m 0 := by
  unfold bumpCounter
  split_ifs with h
  · subst h
    refine ⟨(s.core k).counters, fun j => ?_, fun m => ?_⟩
    · split_ifs with e
      · subst e; rfl
      · rfl
    · split_ifs with e <;> simp [*]
  · refine ⟨mput (s.core k).counters i (mget (s.core k).counters i 0 + BitVec.ofNat 64 n), fun j => ?_, fun m => ?_⟩
    · simp only [wakeUnit, wakeWatches, State.core, updCore, mget_mput]
    · by_cases e : m = i
      · subst e; rw [mget_mput_self, if_pos rfl]
      · rw [mget_mput_ne _ _ _ e, if_neg e]

/-! ### Moving on -/

theorem OnlyMoves.refl (s : State) : OnlyMoves s s := ⟨Calm.refl s, fun _ => rfl, fun _ => rfl, fun _ => rfl⟩

theorem OnlyMoves.trans {s t u : State} (h : OnlyMoves s t) (g : OnlyMoves t u) : OnlyMoves s u :=
  ⟨h.calm.trans g.calm, fun k => (g.threads k).trans (h.threads k), fun k => (g.sws k).trans (h.sws k),
    fun k => (g.queues k).trans (h.queues k)⟩

theorem onlyMoves_foldl {α : Type} (f : State → α → State) (hf : ∀ s a, OnlyMoves s (f s a)) (l : List α) (s : State) :
    OnlyMoves s (l.foldl f s) := by
  induction l generalizing s with
  | nil => exact OnlyMoves.refl s
  | cons a l ih => exact (hf s a).trans (ih _)

/-- An update of a thread that leaves all but where it stands. -/
theorem onlyMoves_updTh (k : Nat) (f : Thread → Thread) (hf : ∀ th, (f th).still = th.still) (s : State) : OnlyMoves s (updTh k f s) :=
  ⟨calm_updTh k f s, fun j => by rw [thread_updTh]; split_ifs with h <;> simp [*], fun _ => rfl, fun _ => rfl⟩

theorem onlyMoves_updSw (k : Nat) (f : SliceWarp → SliceWarp) (hf : ∀ x, (f x).still = x.still) (s : State) : OnlyMoves s (updSw k f s) :=
  ⟨calm_updSw k f s, fun _ => rfl, fun j => by rw [sw_updSw]; split_ifs with h <;> simp [*], fun _ => rfl⟩

theorem onlyMoves_setPort (p : Port) (r : Option Run) (s : State) : OnlyMoves s (setPort p r s) :=
  ⟨calm_setPort p r s, fun _ => rfl, fun _ => rfl, fun _ => rfl⟩

theorem onlyMoves_time (s : State) (a b : Nat) : OnlyMoves s { s with ticks := a, free := b } :=
  ⟨⟨rfl, fun _ => rfl⟩, fun _ => rfl, fun _ => rfl, fun _ => rfl⟩

/-- What later accesses are performed after is no register, and nothing else changes. -/
theorem onlyMoves_orderAfter (k : Nat) (ops : List Nat) (s : State) : OnlyMoves s (orderAfter k ops s) := by
  unfold orderAfter; refine onlyMoves_updSw _ _ ?_ _; intro _; rfl

theorem onlyMoves_acquireSws (ks : List Nat) (s : State) : OnlyMoves s (acquireSws ks s) :=
  onlyMoves_foldl (fun t k => orderAfter k (readsOf t k) t) (fun t k => onlyMoves_orderAfter k _ t) ks s

theorem onlyMoves_pairOrder (b : State) (c : Ctx) (h : Shape) (x : Issue) (s : State) : OnlyMoves s (pairOrder b c h x s) := by
  unfold pairOrder
  split_ifs
  · exact OnlyMoves.refl s
  · exact onlyMoves_orderAfter _ _ _
  · exact onlyMoves_orderAfter _ _ _
  · exact OnlyMoves.refl s

@[simp] theorem thread_pairOrder (b : State) (c : Ctx) (h : Shape) (x : Issue) (s : State) (k : Nat) :
    (pairOrder b c h x s).thread k = s.thread k := by
  unfold pairOrder orderAfter
  split_ifs <;> rfl

theorem onlyMoves_applyTrailers (c : Ctx) (r : Run) (s : State) : OnlyMoves s (applyTrailers c r s) := by
  unfold applyTrailers
  extract_lets names
  split
  · exact OnlyMoves.refl s
  · refine onlyMoves_foldl _ (fun t w => ?_) _ s
    dsimp only
    split
    · refine onlyMoves_updSw _ _ ?_ _; intro _; rfl
    · split
      · refine onlyMoves_updTh _ _ ?_ _; intro _; rfl
      · exact OnlyMoves.refl t

theorem onlyMoves_endRun (c : Ctx) (r : Run) (s : State) : OnlyMoves s (endRun c r s) := by
  unfold endRun
  refine (onlyMoves_applyTrailers c r s).trans (OnlyMoves.trans ?_ (onlyMoves_setPort _ _ _))
  refine onlyMoves_foldl _ (fun t l => ?_) _ _
  refine onlyMoves_updTh _ _ ?_ _; intro _; rfl

/-- The end of an instruction changes only where the threads stand, the port and time. -/
theorem onlyMoves_advance (c : Ctx) (words cycles : Nat) (s : State) : OnlyMoves s (advance c words cycles s) := by
  unfold advance
  dsimp only
  split
  · exact onlyMoves_time _ _ _
  · split_ifs
    · exact onlyMoves_time _ _ _
    · exact (onlyMoves_time _ _ _).trans (onlyMoves_endRun _ _ _)
    · exact (onlyMoves_time _ _ _).trans (onlyMoves_setPort _ _ _)

/-! ### Registers -/

theorem readCode_still {a b : Thread} (h : a.still = b.still) (code : Nat) : readCode a code = readCode b code := by
  have h1 : a.main = b.main := (congrArg Thread.main h : _)
  have h2 : a.opnd = b.opnd := (congrArg Thread.opnd h : _)
  simp only [readCode, h1, h2]

theorem regCode_still {a b : Thread} (h : a.still = b.still) (n : Nat) : regCode a n = regCode b n := by
  have h1 : a.wb = b.wb := (congrArg Thread.wb h : _)
  simp only [regCode, h1]

theorem aside_still {a b : Thread} (h : a.still = b.still) : a.aside = b.aside := by
  have e : ∀ x : Thread, x.aside = { x.still with main := [], opnd := [], mainPoison := [], opndPoison := [] } := fun _ => rfl
  rw [e, e, h]

theorem swAside_still {a b : SliceWarp} (h : a.still = b.still) : a.aside = b.aside := by
  have e : ∀ x : SliceWarp, x.aside = { x.still with uni := [], uniPoison := [] } := fun _ => rfl
  rw [e, e, h]

theorem regCode_aside {a b : Thread} (h : a.aside = b.aside) (n : Nat) : regCode a n = regCode b n := by
  have h1 : a.wb = b.wb := (congrArg Thread.wb h : _)
  simp only [regCode, h1]

/-- A read of a register after a write by code. -/
theorem readCode_writeCode (code j : Nat) (v : W32) (t : Thread) :
    readCode (writeCode code v t) j = if j = code then v else readCode t j := by
  by_cases h : code < 256 <;> by_cases g : j < 256
  · simp [writeCode, readCode, h, g, mget_mput]
  · have : j ≠ code := by omega
    simp [writeCode, readCode, h, g, this]
  · have : j ≠ code := by omega
    simp [writeCode, readCode, h, g, this]
  · have e : (j - 256 = code - 256) ↔ j = code := by omega
    simp [writeCode, readCode, h, g, mget_mput, e]

@[simp] theorem aside_writeCode (code : Nat) (v : W32) (t : Thread) : (writeCode code v t).aside = t.aside := by
  unfold writeCode; split_ifs <;> rfl

end Sys2Proof.Machine
end

