-- ==== Sys2Proof/Laws/Results.lean ====
section
/-! SUPPORT. What popping sources and writing results can do (spec/04 R108, 02 R57, 06 R147), each said once, and what a fixed-latency
instruction leaves: Computes. -/

namespace Sys2Proof.Machine

open Sys2Proof Sys2Proof.Laws

/-! ### Lanes -/

theorem Ctx.th_inj (c : Ctx) {l j : Nat} : c.th l = c.th j ↔ l = j := by simp only [Ctx.th, thKey]; omega

theorem nodup_bitIdx (n i x : Nat) : (bitIdx n i x).Nodup ∧ ∀ k ∈ bitIdx n i x, i ≤ k ∧ k < i + n := by
  induction n generalizing i with
  | zero => simp [bitIdx]
  | succ n ih =>
    obtain ⟨h1, h2⟩ := ih (i + 1)
    unfold bitIdx
    split_ifs with h
    · refine ⟨List.nodup_cons.2 ⟨fun hm => ?_, h1⟩, fun k hk => ?_⟩
      · have := h2 _ hm; omega
      · rcases List.mem_cons.1 hk with rfl | hk
        · omega
        · have := h2 _ hk; omega
    · exact ⟨h1, fun k hk => by have := h2 _ hk; omega⟩

theorem nodup_lanesOf (m : BitVec 64) : (lanesOf m).Nodup := (nodup_bitIdx 64 0 _).1

theorem lt_of_mem_lanesOf {m : BitVec 64} {l : Nat} (h : l ∈ lanesOf m) : l < 64 := by
  have := (nodup_bitIdx 64 0 _).2 _ h; omega

theorem issueLanes_sub (s : State) (c : Ctx) (h : Shape) : ((issueLanes s c h).lanes).Sublist (lanesOf c.run.lanes) := by
  have e : (execLanes s c h.gsel h.gn).Sublist (lanesOf c.run.lanes) := List.filter_sublist
  unfold issueLanes
  dsimp only
  split_ifs
  · exact (List.take_sublist _ _).trans e
  · exact (List.take_sublist _ _).trans e
  · exact e

theorem queueCheck_go {s : State} {c : Ctx} {h : Shape} {x y : Issue} (e : queueCheck s c h x = .go y) : y = x := by
  unfold queueCheck at e
  dsimp only at e
  split at e
  all_goals first | (cases e; done) | skip
  split at e
  · cases e; rfl
  · split_ifs at e <;> cases e; rfl

theorem operandCheck_go {s : State} {c : Ctx} {h : Shape} {x y : Issue} (e : operandCheck s c h x = .go y) : y = x := by
  unfold operandCheck at e
  split at e
  · cases e
  · exact queueCheck_go e

/-- An instruction that may execute has no reason against it, and its lanes are those of R99. -/
theorem check_go {s : State} {c : Ctx} {i : Instr} {h : Shape} {x : Issue} (e : check s c i h = .go x) :
    issueReason s c i h = none ∧ x = issueLanes s c h := by
  unfold check at e
  split at e
  · cases e
  · exact ⟨by assumption, operandCheck_go e⟩

theorem Runs.lanes {s : State} {i : Instr} {c : Ctx} {h : Shape} {x : Issue} (r : Runs s i c h x) : x = issueLanes s c h := (check_go r.2.2).2

theorem Runs.sub {s : State} {i : Instr} {c : Ctx} {h : Shape} {x : Issue} (r : Runs s i c h x) : x.lanes.Sublist (lanesOf c.run.lanes) := by
  rw [r.lanes]; exact issueLanes_sub s c h

theorem Runs.nodup {s : State} {i : Instr} {c : Ctx} {h : Shape} {x : Issue} (r : Runs s i c h x) : x.lanes.Nodup :=
  r.sub.nodup (nodup_lanesOf _)

/-- What issue does when the instruction may execute. -/
theorem issue_runs {s : State} {i : Instr} {c : Ctx} {h : Shape} {x : Issue} (r : Runs s i c h x) (act : Ctx → Shape → Issue → State → State) :
    issue i act s = .next (pairOrder s c h x (act c h x s)) := by
  unfold issue; rw [r.1, r.2.1]; dsimp only; rw [r.2.2]

/-! ### Popping -/

theorem mem_of_mem_dedupe {l : List Nat} {a : Nat} (h : a ∈ dedupe l) : a ∈ l := by
  induction l with
  | nil => simp [dedupe] at h
  | cons b l ih =>
    simp only [dedupe] at h
    simp only [List.mem_cons, List.mem_filter] at h ⊢
    exact h.imp id (fun g => ih g.1)

structure OnlyQueues (s t : State) (K : Nat → Prop) : Prop where
  rest : { t with queues := s.queues } = s
  queues : ∀ k, ¬ K k → t.queue k = s.queue k

theorem OnlyQueues.refl (s : State) (K : Nat → Prop) : OnlyQueues s s K := ⟨rfl, fun _ _ => rfl⟩

theorem OnlyQueues.trans {s t u : State} {K : Nat → Prop} (h : OnlyQueues s t K) (g : OnlyQueues t u K) : OnlyQueues s u K where
  rest := by
    have e : { u with queues := s.queues } = { ({ u with queues := t.queues } : State) with queues := s.queues } := rfl
    rw [e, g.rest, h.rest]
  queues k hk := (g.queues k hk).trans (h.queues k hk)

theorem onlyQueues_updQ (k : Nat) (f : Queue → Queue) (s : State) (K : Nat → Prop) (hk : K k) : OnlyQueues s (updQ k f s) K :=
  ⟨rfl, fun j hj => by
    rw [queue_updQ]
    split_ifs with h
    · subst h; exact absurd hk hj
    · rfl⟩

theorem onlyQueues_foldl {α : Type} (K : Nat → Prop) (f : State → α → State) (l : List α) (hf : ∀ s, ∀ a ∈ l, OnlyQueues s (f s a) K)
    (s : State) : OnlyQueues s (l.foldl f s) K := by
  induction l generalizing s with
  | nil => exact OnlyQueues.refl s K
  | cons a l ih => exact (hf s a (by simp)).trans (ih (fun s b hb => hf s b (by simp [hb])) _)

/-- Popping changes the queues that the sources name, in the lanes that execute, and nothing else. -/
theorem onlyQueues_popReads (c : Ctx) (h : Shape) (x : Issue) (s : State) : OnlyQueues s (popReads c h x.pops s) (usesQueue c h x) := by
  unfold popReads
  refine onlyQueues_foldl _ _ _ (fun t p hp => ?_) s
  refine onlyQueues_foldl _ _ _ (fun u l hl => ?_) t
  refine onlyQueues_updQ _ _ _ _ (.inl ⟨l, hl, ?_⟩)
  simp only [popList, List.mem_map] at hp
  obtain ⟨n, hn, rfl⟩ := hp
  have := mem_of_mem_dedupe hn
  simp only [List.mem_map, List.mem_filter] at this
  obtain ⟨u, ⟨hu, hq⟩, rfl⟩ := this
  exact ⟨u, hu, hq, rfl⟩

theorem OnlyQueues.calm {s t : State} {K : Nat → Prop} (h : OnlyQueues s t K) : Calm s t where
  rest := by rw [← h.rest]
  cores k := by
    have e : t.cores = s.cores := (congrArg State.cores h.rest : _)
    simp only [State.core, e]

theorem OnlyQueues.thread {s t : State} {K : Nat → Prop} (h : OnlyQueues s t K) (k : Nat) : t.thread k = s.thread k := by
  have e : t.threads = s.threads := (congrArg State.threads h.rest : _)
  simp only [State.thread, e]
theorem OnlyQueues.sw {s t : State} {K : Nat → Prop} (h : OnlyQueues s t K) (k : Nat) : t.sw k = s.sw k := by
  have e : t.sws = s.sws := (congrArg State.sws h.rest : _)
  simp only [State.sw, e]

/-! ### Writing one lane -/

/-- Writing words to a name of registers, in one lane. -/
theorem writeWords_reg (c : Ctx) (a l name v : Nat) (hn : name < 80) (n : Nat) (s : State) :
    Calm s (writeWords c a l name v n s)
    ∧ (∀ k, k ≠ c.th l → (writeWords c a l name v n s).thread k = s.thread k)
    ∧ ((writeWords c a l name v n s).thread (c.th l)).aside = (s.thread (c.th l)).aside
    ∧ (∀ code, readCode ((writeWords c a l name v n s).thread (c.th l)) code
        = if regCode (s.thread (c.th l)) name ≤ code ∧ code < regCode (s.thread (c.th l)) name + n
          then BitVec.ofNat 32 (v / 2 ^ (32 * (code - regCode (s.thread (c.th l)) name))) else readCode (s.thread (c.th l)) code)
    ∧ (writeWords c a l name v n s).sws = s.sws ∧ (writeWords c a l name v n s).queues = s.queues := by
  induction n with
  | zero => exact ⟨Calm.refl s, fun _ _ => rfl, rfl, fun code => by rw [if_neg (by omega)]; rfl, rfl, rfl⟩
  | succ n ih =>
    obtain ⟨h1, h2, h3, h4, h5, h6⟩ := ih
    have hw : ∀ k, regCode ((writeWords c a l name v n s).thread (c.th l)) k = regCode (s.thread (c.th l)) k := regCode_aside h3
    simp only [writeWords, if_pos hn]
    refine ⟨h1.trans (calm_updTh _ _ _), fun k hk => ?_, ?_, fun code => ?_, ?_, ?_⟩
    · rw [thread_updTh, if_neg hk, h2 k hk]
    · rw [thread_updTh, if_pos rfl, aside_writeCode, h3]
    · rw [thread_updTh, if_pos rfl, readCode_writeCode, hw, h4]
      by_cases e : code = regCode (s.thread (c.th l)) name + n
      · subst e; simp
      · rw [if_neg e]
        by_cases g : regCode (s.thread (c.th l)) name ≤ code ∧ code < regCode (s.thread (c.th l)) name + n
        · rw [if_pos g, if_pos (by omega)]
        · rw [if_neg g, if_neg (by omega)]
    · exact h5
    · exact h6

/-- Writing words to a uniform name. -/
theorem writeWords_uni (c : Ctx) (a l name v : Nat) (h96 : 96 ≤ name) (h112 : name < 112) (n : Nat) (s : State) :
    Calm s (writeWords c a l name v n s) ∧ (writeWords c a l name v n s).threads = s.threads
    ∧ (∀ k, k ≠ c.sw → (writeWords c a l name v n s).sw k = s.sw k)
    ∧ ((writeWords c a l name v n s).sw c.sw).aside = (s.sw c.sw).aside
    ∧ (∀ i, mget ((writeWords c a l name v n s).sw c.sw).uni i 0
        = if name - 96 ≤ i ∧ i < name - 96 + n then BitVec.ofNat 32 (v / 2 ^ (32 * (i - (name - 96)))) else mget (s.sw c.sw).uni i 0)
    ∧ (writeWords c a l name v n s).queues = s.queues := by
  induction n with
  | zero => exact ⟨Calm.refl s, rfl, fun _ _ => rfl, rfl, fun i => by rw [if_neg (by omega)]; rfl, rfl⟩
  | succ n ih =>
    obtain ⟨h1, h2, h3, h4, h5, h6⟩ := ih
    have hn : ¬ name < 80 := by omega
    simp only [writeWords, if_neg hn, if_pos (And.intro h96 h112)]
    refine ⟨h1.trans (calm_updSw _ _ _), h2, fun k hk => ?_, ?_, fun i => ?_, h6⟩
    · rw [sw_updSw, if_neg hk, h3 k hk]
    · rw [sw_updSw, if_pos rfl, ← h4]; rfl
    · rw [sw_updSw, if_pos rfl]
      dsimp only
      rw [mget_mput, h5]
      by_cases e : i = name - 96 + n
      · subst e; simp
      · rw [if_neg e]
        by_cases g : name - 96 ≤ i ∧ i < name - 96 + n
        · rw [if_pos g, if_pos (by omega)]
        · rw [if_neg g, if_neg (by omega)]

/-- Writing words to any other name: a queue is pushed, or nothing happens. -/
theorem writeWords_other (c : Ctx) (a l name v : Nat) (h80 : ¬ name < 80) (h96 : ¬ (96 ≤ name ∧ name < 112)) (n : Nat) (s : State)
    (K : Nat → Prop) (hk : isQueueName name = true → K (c.q l name)) : OnlyQueues s (writeWords c a l name v n s) K := by
  induction n with
  | zero => exact OnlyQueues.refl s K
  | succ n ih =>
    simp only [writeWords, if_neg h80, if_neg h96]
    split_ifs with hq
    · exact ih
    · exact ih.trans (onlyQueues_updQ _ _ _ _ (hk hq))
    · exact ih

/-! ### Writing all lanes -/

/-- Writing a register name in distinct lanes. -/
theorem foldl_writeWords_reg (c : Ctx) (a name n : Nat) (hn : name < 80) (vals : List (Nat × Nat)) (hd : (vals.map (·.1)).Nodup) (s : State) :
    let t := vals.foldl (fun t p => writeWords c a p.1 name p.2 n t) s
    Calm s t ∧ (∀ k, (∀ p ∈ vals, k ≠ c.th p.1) → t.thread k = s.thread k) ∧ (∀ k, (t.thread k).aside = (s.thread k).aside)
    ∧ (∀ p ∈ vals, ∀ code, readCode (t.thread (c.th p.1)) code
        = if regCode (s.thread (c.th p.1)) name ≤ code ∧ code < regCode (s.thread (c.th p.1)) name + n
          then BitVec.ofNat 32 (p.2 / 2 ^ (32 * (code - regCode (s.thread (c.th p.1)) name))) else readCode (s.thread (c.th p.1)) code)
    ∧ t.sws = s.sws ∧ t.queues = s.queues := by
  induction vals generalizing s with
  | nil => exact ⟨Calm.refl s, fun _ _ => rfl, fun _ => rfl, by simp, rfl, rfl⟩
  | cons q vals ih =>
    simp only [List.map_cons, List.nodup_cons] at hd
    obtain ⟨g1, g2, g3, g4, g5, g6⟩ := writeWords_reg c a q.1 name q.2 hn n s
    obtain ⟨h1, h2, h3, h4, h5, h6⟩ := ih hd.2 (writeWords c a q.1 name q.2 n s)
    simp only [List.foldl_cons]
    have hne : ∀ p ∈ vals, c.th p.1 ≠ c.th q.1 := fun p hp e =>
      hd.1 (List.mem_map.2 ⟨p, hp, c.th_inj.1 e⟩)
    refine ⟨g1.trans h1, fun k hk => ?_, fun k => ?_, fun p hp code => ?_, h5.trans g5, h6.trans g6⟩
    · rw [h2 k (fun p hp => hk p (by simp [hp])), g2 k (hk q (by simp))]
    · rw [h3]
      by_cases e : k = c.th q.1
      · rw [e, g3]
      · rw [g2 k e]
    · rcases List.mem_cons.1 hp with rfl | hp
      · rw [h2 _ (fun r hr e => hne r hr e.symm), g4]
      · rw [h4 p hp code, g2 _ (hne p hp)]

/-- Writing a latch changes only latches. -/
theorem onlyMoves_writeLatch (c : Ctx) (b : Bool) (l v : Nat) (s : State) : OnlyMoves s (writeLatch c b l v s) := by
  unfold writeLatch
  refine OnlyMoves.trans ?_ (onlyMoves_updSw _ _ (fun x => ?_) _)
  · refine onlyMoves_updTh _ _ ?_ _; intro _; rfl
  · unfold latchSeen; dsimp only; split_ifs <;> rfl

theorem onlyMoves_foldLatch (c : Ctx) (b : Bool) (l : List Nat) (v : Nat) (s : State) :
    OnlyMoves s (l.foldl (fun t l => writeLatch c b l v t) s) :=
  onlyMoves_foldl _ (fun t a => onlyMoves_writeLatch c b a v t) _ _

theorem onlyMoves_foldLatch2 (c : Ctx) (b : Bool) (l : List (Nat × Nat)) (s : State) :
    OnlyMoves s (l.foldl (fun t p => writeLatch c b p.1 p.2 t) s) :=
  onlyMoves_foldl (fun t (p : Nat × Nat) => writeLatch c b p.1 p.2 t) (fun t a => onlyMoves_writeLatch c b a.1 a.2 t) _ _

/-! ### Computes -/

theorem Computes.moves {s t u : State} {c : Ctx} {h : Shape} {x : Issue} {f : Nat → Nat} (k : Computes s t c h x f) (m : OnlyMoves t u) :
    Computes s u c h x f where
  calm := k.calm.trans m.calm
  value w a b d l hl i hi := by rw [readCode_still (m.threads _)]; exact k.value w a b d l hl i hi
  uniform w a b d e l hl i hi := by
    have q : (u.sw c.sw).uni = (t.sw c.sw).uni := (congrArg SliceWarp.uni (m.sws c.sw) : _)
    rw [q]; exact k.uniform w a b d e l hl i hi
  others j hj := (m.threads j).trans (k.others j hj)
  aside j := (aside_still (m.threads j)).trans (k.aside j)
  registers l hl code hc := by rw [readCode_still (m.threads _)]; exact k.registers l hl code hc
  flags j := (swAside_still (m.sws j)).trans (k.flags j)
  unis j n hn := by
    have q : (u.sw j).uni = (t.sw j).uni := (congrArg SliceWarp.uni (m.sws j) : _)
    rw [q]; exact k.unis j n hn
  queues j hj := (m.queues j).trans (k.queues j hj)

/-- Popping first changes no result. -/
theorem Computes.pop {s u t : State} {c : Ctx} {h : Shape} {x : Issue} {f : Nat → Nat} (p : OnlyQueues s u (usesQueue c h x))
    (k : Computes u t c h x f) : Computes s t c h x f where
  calm := p.calm.trans k.calm
  value w a b d l hl i hi := by rw [← p.thread]; exact k.value w a b d l hl i hi
  uniform := k.uniform
  others j hj := by rw [k.others j hj, p.thread]
  aside j := by rw [k.aside j, p.thread]
  registers l hl code hc := by
    rw [k.registers l hl code, p.thread]
    unfold writesCode at hc ⊢; rw [p.thread]; exact hc
  flags j := by rw [k.flags j, p.sw]
  unis j n hn := by rw [k.unis j n hn, p.sw]
  queues j hj := (k.queues j hj).trans (p.queues j hj)

/-- Nothing written. -/
theorem computes_none {s : State} {c : Ctx} {h : Shape} {x : Issue} {f : Nat → Nat} (hv : ∀ u, h.write = some u → h.nw = false →
    ¬ u.name < 80 ∧ (96 ≤ u.name → u.name < 112 → x.lanes = [])) : Computes s s c h x f where
  calm := Calm.refl s
  value u a b d := absurd d (hv u a b).1
  uniform u a b d e l hl := by rw [(hv u a b).2 d e] at hl; cases hl
  others _ _ := rfl
  aside _ := rfl
  registers _ _ _ _ := rfl
  flags _ := rfl
  unis _ _ _ := rfl
  queues _ _ := rfl

/-- The results of an instruction, written. -/
theorem computes_putResults (c : Ctx) (h : Shape) (x : Issue) (b : Bool) (f : Nat → Nat) (hd : x.lanes.Nodup) (s : State) :
    Computes s (putResults c h b (x.lanes.map (fun l => (l, f l))) s) c h x f := by
  unfold putResults
  split
  · exact computes_none (fun u e => by simp_all)
  · rename_i u hu
    extract_lets s1 s2
    have lat : OnlyMoves s2 (if b = true then
        match x.lanes.map (fun l => (l, f l)) with
        | (_, v) :: _ => (lanesOf c.run.lanes).foldl (fun t l => writeLatch c true l v t) s2
        | [] => s2
        else (x.lanes.map (fun l => (l, f l))).foldl (fun t p => writeLatch c false p.1 p.2 t) s2) := by
      split_ifs
      · split
        · exact onlyMoves_foldLatch _ _ _ _ _
        · exact OnlyMoves.refl _
      · exact onlyMoves_foldLatch2 _ _ _ _
    refine Computes.moves ?_ lat
    · show Computes s (if h.nw = true then s else _) c h x f
      split_ifs with hnw hun
      · exact computes_none (fun v e g => by simp_all)
      · cases hx : x.lanes with
        | nil => exact computes_none (fun v e _ => by simp_all; omega)
        | cons l ls =>
          simp only [List.map_cons]
          obtain ⟨h1, h2, h3, h4, h5, h6⟩ := writeWords_uni c s1 l u.name (f l) hun.1 hun.2 u.words s
          have eth : ∀ k, (writeWords c s1 l u.name (f l) u.words s).thread k = s.thread k := fun k => by simp only [State.thread, h2]
          refine ⟨h1, fun v e _ g => ?_, fun v e _ g g' j hj k hk => ?_, fun k _ => ?_, fun k => ?_, fun l _ code _ => ?_, fun k => ?_,
            fun k n hn => ?_, fun k _ => ?_⟩
          · rw [hu] at e; cases e; omega
          · rw [hu] at e; cases e
            rw [hx] at hj; cases hj
            rw [h5, if_pos (by omega)]
            congr 4; omega
          · rw [eth]
          · rw [eth]
          · rw [eth]
          · by_cases e : k = c.sw
            · rw [e, h4]
            · rw [h3 k e]
          · by_cases e : k = c.sw
            · subst e
              rw [h5, if_neg]
              rintro ⟨a, b⟩
              rcases hn with hn | hn
              · exact hn rfl
              · exact hn ⟨u, hu, by simpa using hnw, hun.1, hun.2, a, b⟩
            · rw [h3 k e]
          · simp only [State.queue, h6]
      · by_cases h80 : u.name < 80
        · obtain ⟨h1, h2, h3, h4, h5, h6⟩ := foldl_writeWords_reg c s1 u.name u.words h80 (x.lanes.map (fun l => (l, f l)))
            (by rw [List.map_map]; simpa [Function.comp_def] using hd) s
          refine ⟨h1, fun v e _ _ l hl k hk => ?_, fun v e _ g g' => ?_, fun k hk => ?_, h3, fun l hl code hc => ?_, fun k => ?_,
            fun k n _ => ?_, fun k _ => ?_⟩
          · rw [hu] at e; cases e
            rw [h4 (l, f l) (List.mem_map.2 ⟨l, hl, rfl⟩)]
            dsimp only
            rw [if_pos (by omega), Nat.add_sub_cancel_left]
          · rw [hu] at e; cases e; omega
          · rw [h2 k (by simpa using hk)]
          · rw [h4 (l, f l) (List.mem_map.2 ⟨l, hl, rfl⟩), if_neg]
            exact fun q => hc ⟨u, hu, by simpa using hnw, h80, q.1, q.2⟩
          · simp only [State.sw, h5]
          · simp only [State.sw, h5]
          · simp only [State.queue, h6]
        · have q := onlyQueues_foldl (usesQueue c h x) (fun t (p : Nat × Nat) => writeWords c s1 p.1 u.name p.2 u.words t)
            (x.lanes.map (fun l => (l, f l))) (fun t p hp => writeWords_other c s1 p.1 u.name p.2 h80 hun u.words t _ (fun hq => by
              simp only [List.mem_map] at hp
              obtain ⟨l, hl, rfl⟩ := hp
              exact .inr ⟨l, hl, u, hu, hq, rfl⟩)) s
          exact Computes.pop q (computes_none (fun v e _ => by rw [hu] at e; cases e; exact ⟨h80, fun a b => absurd ⟨a, b⟩ hun⟩))

/-- WHAT A FIXED-LATENCY INSTRUCTION DOES when it may execute: its results, and nothing else. -/
theorem compute_result {s : State} {i : Instr} {c : Ctx} {h : Shape} {x : Issue} (r : Runs s i c h x)
    (f : State → Ctx → Shape → Nat → Nat) : ∃ t, compute i f s = .next t ∧ Computes s t c h x (f s c h) := by
  refine ⟨_, issue_runs r _, ?_⟩
  exact Computes.moves (Computes.pop (onlyQueues_popReads c h x s) (computes_putResults c h x x.uniform _ r.nodup _)) ((onlyMoves_advance _ _ _ _).trans (onlyMoves_pairOrder _ _ _ _ _))

end Sys2Proof.Machine
end

