-- ==== Sys2Proof/Laws/Families.lean ====
section
/-! SUPPORT. What each shared frame of instructions leaves when the instruction may execute: one lemma per frame. -/

namespace Sys2Proof.Machine

open Sys2Proof Sys2Proof.Laws

/-! ### Results -/

/-- A frame that computes results and may execute gives them (Gives). -/
theorem gives_compute {i : Instr} {f : State → Ctx → Shape → Nat → Nat} (he : ∀ s, exec i s = compute i f s) : Gives i f := by
  intro s c h x r
  obtain ⟨t, e, k⟩ := compute_result r f
  exact ⟨t, (he s).trans e, k, k.calm.sameMemory⟩

/-- Results put after popping, then the move on. -/
theorem computes_issue {s : State} {i : Instr} {c : Ctx} {h : Shape} {x : Issue} (r : Runs s i c h x) (b : Bool) (f : Nat → Nat) (n k : Nat) :
    Computes s (advance c n k (putResults c h b (x.lanes.map (fun l => (l, f l))) (popReads c h x.pops s))) c h x f :=
  ((computes_putResults c h x b f r.nodup _).pop (onlyQueues_popReads c h x s)).moves (onlyMoves_advance _ _ _ _)

/-- Results put by an instruction that names no queue as a source, then the move on. -/
theorem computes_issue' {s : State} {i : Instr} {c : Ctx} {h : Shape} {x : Issue} (r : Runs s i c h x) (b : Bool) (f : Nat → Nat) (n k : Nat) :
    Computes s (advance c n k (putResults c h b (x.lanes.map (fun l => (l, f l))) s)) c h x f :=
  (computes_putResults c h x b f r.nodup _).moves (onlyMoves_advance _ _ _ _)

/-- A state that agrees but for flags merged into one slice-warp. -/
structure FlagsMerged (sw : Nat) (fl : Fl) (s t : State) : Prop where
  rest : { t with sws := s.sws } = s
  flags : t.sw sw = { s.sw sw with fpflags := (s.sw sw).fpflags ||| fl }
  others : ∀ k, k ≠ sw → t.sw k = s.sw k

theorem flagsMerged_mergeFlags (sw : Nat) (fl : Fl) (s : State) : FlagsMerged sw fl s (mergeFlags sw fl s) :=
  ⟨rfl, by simp [mergeFlags], fun k hk => by simp [mergeFlags, sw_updSw, hk]⟩

theorem FlagsMerged.thread {sw : Nat} {fl : Fl} {s t : State} (m : FlagsMerged sw fl s t) (k : Nat) : t.thread k = s.thread k := by
  have e : t.threads = s.threads := (congrArg State.threads m.rest : _)
  simp only [State.thread, e]
theorem FlagsMerged.queue {sw : Nat} {fl : Fl} {s t : State} (m : FlagsMerged sw fl s t) (k : Nat) : t.queue k = s.queue k := by
  have e : t.queues = s.queues := (congrArg State.queues m.rest : _)
  simp only [State.queue, e]
theorem FlagsMerged.calm {sw : Nat} {fl : Fl} {s t : State} (m : FlagsMerged sw fl s t) : Calm s t where
  rest := by rw [← m.rest]
  cores k := by
    have e : t.cores = s.cores := (congrArg State.cores m.rest : _)
    simp only [State.core, e]
theorem FlagsMerged.uni {sw : Nat} {fl : Fl} {s t : State} (m : FlagsMerged sw fl s t) (k : Nat) : (t.sw k).uni = (s.sw k).uni := by
  by_cases h : k = sw
  · rw [h, m.flags]
  · rw [m.others k h]

theorem Calm.symm {s t : State} (h : Calm s t) : Calm t s where
  rest := by
    have e := h.rest
    conv_rhs => rw [show t = { ({ t with threads := s.threads, sws := s.sws, queues := s.queues, cores := s.cores, ticks := s.ticks, free := s.free }
      : State) with threads := t.threads, sws := t.sws, queues := t.queues, cores := t.cores, ticks := t.ticks, free := t.free } from rfl, e]
  cores k := (h.cores k).symm

/-- Flags merged after results are flags merged before them. -/
theorem Computes.flagged {s t : State} {c : Ctx} {h : Shape} {x : Issue} {f : Nat → Nat} (k : Computes s t c h x f) (fl : Fl) :
    Computes (mergeFlags c.sw fl s) (mergeFlags c.sw fl t) c h x f := by
  have a := flagsMerged_mergeFlags c.sw fl s
  have b := flagsMerged_mergeFlags c.sw fl t
  refine ⟨a.calm.symm.trans (k.calm.trans b.calm), ?_, ?_, ?_, ?_, ?_, ?_, ?_, ?_⟩
  · intro u hu hn hr l hl i hi; rw [a.thread, b.thread]; exact k.value u hu hn hr l hl i hi
  · intro u hu hn h1 h2 l hl i hi; rw [b.uni]; exact k.uniform u hu hn h1 h2 l hl i hi
  · intro j hj; rw [a.thread, b.thread]; exact k.others j hj
  · intro j; rw [a.thread, b.thread]; exact k.aside j
  · intro l hl code hc
    rw [a.thread, b.thread]
    refine k.registers l hl code (fun q => hc ?_)
    unfold writesCode at q ⊢; rw [a.thread]; exact q
  · intro j
    by_cases e : j = c.sw
    · subst e
      have q := k.flags c.sw
      rw [a.flags, b.flags]
      have qf : (t.sw c.sw).fpflags = (s.sw c.sw).fpflags := (congrArg SliceWarp.fpflags q : _)
      rw [qf]
      have q' := congrArg (fun y : SliceWarp => { y with fpflags := (s.sw c.sw).fpflags ||| fl }) q
      exact q'
    · rw [a.others j e, b.others j e]; exact k.flags j
  · intro j n hn; rw [a.uni, b.uni]; exact k.unis j n hn
  · intro j hj; rw [a.queue, b.queue]; exact k.queues j hj

theorem foldl_flags {α : Type} (l : List α) (f : α → Nat × Fl) (a : Fl) :
    (l.map (fun y => (y, f y))).foldl (fun b r => b ||| r.2.2) a = l.foldl (fun b y => b ||| (f y).2) a := by
  induction l generalizing a with
  | nil => rfl
  | cons y l ih => simp only [List.map_cons, List.foldl_cons, ih]

theorem mergeFlags_advance (c : Ctx) (n k : Nat) (fl : Fl) (s t : State) (h : Shape) (x : Issue) (f : Nat → Nat)
    (q : Computes s t c h x f) : Computes (mergeFlags c.sw fl s) (advance c n k (mergeFlags c.sw fl t)) c h x f :=
  (q.flagged fl).moves (onlyMoves_advance _ _ _ _)

/-- A floating-point frame that may execute gives results and flags. -/
theorem givesF_fcompute {i : Instr} {f : State → Ctx → Shape → Nat → Nat × Fl} (he : ∀ s, exec i s = fcompute i f s) : GivesF i f := by
  intro s c h x r
  have q := mergeFlags_advance c (instrWords i) (issueCycles s c x.uniform) (flagsOf x (fun l => (f s c h l).2)) s _ h x _
    ((computes_putResults c h x x.uniform (fun l => (f s c h l).1) r.nodup _).pop (onlyQueues_popReads c h x s))
  have q' := q.moves (onlyMoves_pairOrder s c h x _)
  refine ⟨_, (he s).trans ((issue_runs r _).trans ?_), q', ?_⟩
  · dsimp only
    rw [foldl_flags, List.map_map]
    rfl
  · exact ((flagsMerged_mergeFlags c.sw _ s).calm.trans q'.calm).sameMemory

/-! ### Predicates -/

theorem bitOf_ofNat (n i : Nat) (v : BitVec n) : bitOf v.toNat i = v.getLsbD i := by
  rw [BitVec.getLsbD, bitOf, Nat.testBit, Nat.shiftRight_eq_div_pow, Nat.and_comm, Nat.and_one_is_mod]
  rcases Nat.mod_two_eq_zero_or_one (v.toNat / 2 ^ i) with e | e <;> simp [e]

theorem getLsbD_two_pow (n p q : Nat) : (BitVec.ofNat n (2 ^ p)).getLsbD q = (decide (q < n) && decide (q = p)) := by
  rw [BitVec.getLsbD_ofNat, Nat.testBit_two_pow]
  simp only [eq_comm]

theorem predBit (v : BitVec 24) (p q : Nat) (b : Bool) (hp : p < 24) :
    bitOf (if b then v ||| BitVec.ofNat 24 (2 ^ p) else v &&& ~~~(BitVec.ofNat 24 (2 ^ p))).toNat q
      = if q = p then b else bitOf v.toNat q := by
  rw [bitOf_ofNat, bitOf_ofNat]
  cases b
  · simp only [Bool.false_eq_true, if_false, BitVec.getLsbD_and, BitVec.getLsbD_not, getLsbD_two_pow]
    by_cases e : q = p
    · subst e; simp [hp]
    · simp only [e, decide_false, Bool.and_false, Bool.not_false, Bool.and_true, if_false]
      by_cases g : q < 24
      · simp [g]
      · simp [g, BitVec.getLsbD_of_ge v q (by omega)]
  · simp only [if_true, BitVec.getLsbD_or, getLsbD_two_pow]
    by_cases e : q = p
    · subst e; simp [hp]
    · simp [e]

theorem queues_foldPred (c : Ctx) (p : Nat) (f : Nat → Bool) (lanes : List Nat) (s : State) :
    (lanes.foldl (fun t l => putPred c p l (f l) t) s).queues = s.queues := by
  induction lanes generalizing s with
  | nil => rfl
  | cons l ls ih => rw [List.foldl_cons, ih]; rfl

/-- The predicates of distinct lanes, written. -/
theorem setsPredicate_foldl (c : Ctx) (h : Shape) (p : Nat) (hp : p < 24) (f : Nat → Bool) (lanes : List Nat) (b : Bool) (pops : List Nat) (hd : lanes.Nodup) (s : State) :
    SetsPredicate s (lanes.foldl (fun t l => putPred c p l (f l) t) s) c h ⟨lanes, b, pops⟩ p f := by
  induction lanes generalizing s with
  | nil => exact ⟨Calm.refl s, by simp, by simp, fun _ => rfl, fun _ _ => rfl, fun _ => rfl, fun _ _ => rfl⟩
  | cons l ls ih =>
    simp only [List.nodup_cons] at hd
    have k := ih hd.2 (putPred c p l (f l) s)
    have e1 : ∀ j, j ≠ c.th l → (putPred c p l (f l) s).thread j = s.thread j := fun j hj => by
      simp only [putPred, thread_updTh, if_neg hj]
    have e2 : ∀ q, readPred (putPred c p l (f l) s) c l q = if q = p then f l else readPred s c l q := fun q => by
      simp only [readPred, putPred, thread_updTh, if_true]
      exact predBit _ p q (f l) hp
    have e3 : ∀ j, ((putPred c p l (f l) s).thread j).unpred = (s.thread j).unpred := fun j => by
      by_cases g : j = c.th l
      · subst g; simp only [putPred, thread_updTh, if_true]; rfl
      · rw [e1 j g]
    have hne : ∀ j ∈ ls, c.th j ≠ c.th l := fun j hj e => hd.1 (c.th_inj.1 e ▸ hj)
    have hthr : ((ls.foldl (fun t l => putPred c p l (f l) t) (putPred c p l (f l) s)).thread (c.th l)).still
        = ((putPred c p l (f l) s).thread (c.th l)).still := k.threads _ (fun j hj e => hne j hj e.symm)
    have hl : ∀ q, readPred (ls.foldl (fun t l => putPred c p l (f l) t) (putPred c p l (f l) s)) c l q
        = readPred (putPred c p l (f l) s) c l q := fun q => by
      have e := congrArg Thread.pred hthr
      have e' : ∀ a b : Thread, a.still.pred = b.still.pred → a.pred = b.pred := fun _ _ h => h
      simp only [readPred, e' _ _ e]
    refine ⟨(calm_updTh _ _ _).trans k.calm, ?_, ?_, fun j => (k.rest j).trans (e3 j), fun j hj => ?_, k.sws,
      fun j _ => by simp only [State.queue, queues_foldPred]⟩
    · intro j hj
      rcases List.mem_cons.1 hj with rfl | hj
      · rw [List.foldl_cons, hl, e2, if_pos rfl]
      · exact k.value j hj
    · intro j hj q hq
      rcases List.mem_cons.1 hj with rfl | hj
      · rw [List.foldl_cons, hl, e2, if_neg hq]
      · rw [List.foldl_cons, k.others j hj q hq]
        simp only [readPred]; rw [e1 _ (hne j hj)]
    · rw [List.foldl_cons, k.threads j (fun i hi => hj i (List.mem_cons_of_mem _ hi)), e1 j (hj l (by simp))]

theorem SetsPredicate.moves {s t u : State} {c : Ctx} {h : Shape} {x : Issue} {p : Nat} {f : Nat → Bool} (k : SetsPredicate s t c h x p f)
    (m : OnlyMoves t u) : SetsPredicate s u c h x p f where
  calm := k.calm.trans m.calm
  value l hl := by
    have e : (u.thread (c.th l)).pred = (t.thread (c.th l)).pred := (congrArg Thread.pred (m.threads (c.th l)) : _)
    simp only [readPred, e]; exact k.value l hl
  others l hl q hq := by
    have e : (u.thread (c.th l)).pred = (t.thread (c.th l)).pred := (congrArg Thread.pred (m.threads (c.th l)) : _)
    simp only [readPred, e]; exact k.others l hl q hq
  rest j := by
    have e : ∀ a : Thread, a.unpred = { a.still with pred := 0 } := fun _ => rfl
    rw [e, m.threads j, ← e]; exact k.rest j
  threads j hj := (m.threads j).trans (k.threads j hj)
  sws j := (m.sws j).trans (k.sws j)
  queues j hj := (m.queues j).trans (k.queues j hj)

theorem SetsPredicate.pop {s u t : State} {c : Ctx} {h : Shape} {x : Issue} {p : Nat} {f : Nat → Bool}
    (q : OnlyQueues s u (usesQueue c h x)) (k : SetsPredicate u t c h x p f) : SetsPredicate s t c h x p f where
  calm := q.calm.trans k.calm
  value := k.value
  others l hl i hi := by rw [k.others l hl i hi]; simp only [readPred, q.thread]
  rest j := by rw [k.rest j, q.thread]
  threads j hj := by rw [k.threads j hj, q.thread]
  sws j := by rw [k.sws j, q.sw]
  queues j hj := (k.queues j hj).trans (q.queues j hj)

theorem SetsPredicate.flagged {s t : State} {c : Ctx} {h : Shape} {x : Issue} {p : Nat} {f : Nat → Bool} (k : SetsPredicate s t c h x p f)
    (fl : Fl) : SetsPredicate (mergeFlags c.sw fl s) (mergeFlags c.sw fl t) c h x p f := by
  have a := flagsMerged_mergeFlags c.sw fl s
  have b := flagsMerged_mergeFlags c.sw fl t
  refine ⟨a.calm.symm.trans (k.calm.trans b.calm), ?_, ?_, ?_, ?_, ?_, ?_⟩
  · intro l hl; simp only [readPred, b.thread]; exact k.value l hl
  · intro l hl q hq; simp only [readPred, a.thread, b.thread]; exact k.others l hl q hq
  · intro j; rw [a.thread, b.thread]; exact k.rest j
  · intro j hj; rw [a.thread, b.thread]; exact k.threads j hj
  · intro j
    by_cases e : j = c.sw
    · subst e
      have q := k.sws c.sw
      rw [a.flags, b.flags]
      have qf : (t.sw c.sw).fpflags = (s.sw c.sw).fpflags := (congrArg SliceWarp.fpflags q : _)
      rw [qf]
      exact congrArg (fun y : SliceWarp => { y with fpflags := (s.sw c.sw).fpflags ||| fl }) q
    · rw [a.others j e, b.others j e]; exact k.sws j
  · intro j hj; rw [a.queue, b.queue]; exact k.queues j hj

theorem leastReason_none {l : List Nat} (h : leastReason l = none) : l = [] := by
  cases l with
  | nil => rfl
  | cons a l => simp only [leastReason] at h; split at h <;> simp at h

/-- An instruction that may execute raises no static reason. -/
theorem Runs.static {s : State} {i : Instr} {c : Ctx} {h : Shape} {x : Issue} (r : Runs s i c h x) : staticReasons i = [] := by
  have e := leastReason_none (check_go r.2.2).1
  simp only [List.append_eq_nil_iff] at e
  exact e.1.1

/-- The predicate fields of an instruction that may execute name p0 to p23 (R110). -/
theorem static_preds {i : Instr} {h : Shape} (hs : shape i = some h) (e : staticReasons i = []) {p : Nat} (hp : p ∈ h.preds) : p < 24 := by
  unfold staticReasons at e
  rw [hs] at e
  simp only [List.append_eq_nil_iff, ite_eq_right_iff, Bool.or_eq_true, List.any_eq_true, decide_eq_true_eq] at e
  have := e.1.1.1.1.1.2
  by_contra g
  exact absurd (this (Or.inl (Or.inl (Or.inr ⟨p, hp, by omega⟩)))) (by simp)

/-- A predicate frame that may execute writes its predicate. -/
theorem tests_predicate {i : Instr} {p : Nat} {f : State → Ctx → Shape → Nat → Bool} (he : ∀ s, exec i s = predicate i p f s)
    (hp : ∀ h, shape i = some h → p ∈ h.preds) : Tests i p f := by
  intro s c h x r
  have lt := static_preds r.2.1 r.static (hp h r.2.1)
  have q : SetsPredicate s (advance c (instrWords i) (issueCycles s c false)
      ((x.lanes.map (fun l => (l, f s c h l))).foldl (fun t v => putPred c p v.1 v.2 t) (popReads c h x.pops s))) c h x p (f s c h) := by
    rw [List.foldl_map]
    exact ((setsPredicate_foldl c h p lt (f s c h) x.lanes x.uniform x.pops r.nodup _).pop (onlyQueues_popReads c h x s)).moves (onlyMoves_advance _ _ _ _)
  have q' := q.moves (onlyMoves_pairOrder s c h x _)
  exact ⟨_, (he s).trans (issue_runs r _), q', q'.calm.sameMemory⟩

/-- A floating-point compare that may execute writes its predicate and flags. -/
theorem testsF_fcompare {i : Instr} {p : Nat} {f : FV → FV → Bool × Fl} (he : ∀ s, exec i s = fcompare i p f s)
    (hp : ∀ h, shape i = some h → p ∈ h.preds) :
    TestsF i p (fun s c h l => f (fp32.read (srcN s c h l 0)) (fp32.read (srcN s c h l 1))) := by
  intro s c h x r
  have lt := static_preds r.2.1 r.static (hp h r.2.1)
  let g : Nat → Bool × Fl := fun l => f (fp32.read (srcN s c h l 0)) (fp32.read (srcN s c h l 1))
  have e : ∀ (ls : List Nat) (a : Fl), (ls.map (fun l => (l, g l))).foldl (fun b r => b ||| r.2.2) a = ls.foldl (fun b l => b ||| (g l).2) a := by
    intro ls; induction ls with
    | nil => intro a; rfl
    | cons y ls ih => intro a; simp only [List.map_cons, List.foldl_cons, ih]
  have q := ((setsPredicate_foldl c h p lt (fun l => (g l).1) x.lanes x.uniform x.pops r.nodup _).pop (onlyQueues_popReads c h x s)).flagged
    (flagsOf x (fun l => (g l).2))
  have q' := q.moves ((onlyMoves_advance c (instrWords i) (issueCycles s c false) _).trans (onlyMoves_pairOrder s c h x _))
  refine ⟨_, (he s).trans ((issue_runs r _).trans ?_), q', ((flagsMerged_mergeFlags c.sw _ s).calm.trans q'.calm).sameMemory⟩
  show Host.Outcome.next (pairOrder s c h x (advance c (instrWords i) (issueCycles s c false) (mergeFlags c.sw
    ((x.lanes.map (fun l => (l, g l))).foldl (fun a r => a ||| r.2.2) 0)
    ((x.lanes.map (fun l => (l, g l))).foldl (fun t r => putPred c p r.1 r.2.1 t) (popReads c h x.pops s))))) = _
  rw [e, List.foldl_map]
  rfl

end Sys2Proof.Machine
end

