-- ==== Sys2Proof/Laws/Starts.lean ====
section
/-! SUPPORT. Completion with a plain effect, and the start of long-latency results (spec/02 R58). -/

namespace Sys2Proof.Machine

open Sys2Proof Sys2Proof.Laws

theorem OnlyMoves.completes {s t : State} (m : OnlyMoves s t) (c : Ctx) (h : Shape) (x : Issue) : Completes c h x s t :=
  ⟨m.calm, m.threads, m.sws, fun k _ => m.queues k⟩

theorem Completes.moves {c : Ctx} {h : Shape} {x : Issue} {s t u : State} (k : Completes c h x s t) (m : OnlyMoves t u) : Completes c h x s u :=
  ⟨k.calm.trans m.calm, fun j => (m.threads j).trans (k.threads j), fun j => (m.sws j).trans (k.sws j),
    fun j hj => (m.queues j).trans (k.queues j hj)⟩

theorem OnlyQueues.completes {c : Ctx} {h : Shape} {x : Issue} {s t : State} (q : OnlyQueues s t (usesQueue c h x)) : Completes c h x s t :=
  ⟨q.calm, fun k => by rw [q.thread], fun k => by rw [q.sw], q.queues⟩

/-- An update of one thread commutes with what only queues see. -/
theorem OnlyQueues.updTh {s t : State} {K : Nat → Prop} (q : OnlyQueues s t K) (k : Nat) (f : Thread → Thread) :
    OnlyQueues (Machine.updTh k f s) (Machine.updTh k f t) K where
  rest := by
    have e : t.threads = s.threads := (congrArg State.threads q.rest : _)
    have r := q.rest
    unfold Machine.updTh
    rw [q.thread k, e]
    exact congrArg (fun y : State => { y with threads := mput s.threads k (f (s.thread k)) }) r
  queues j hj := q.queues j hj

theorem OnlyQueues.updSw {s t : State} {K : Nat → Prop} (q : OnlyQueues s t K) (k : Nat) (f : SliceWarp → SliceWarp) :
    OnlyQueues (Machine.updSw k f s) (Machine.updSw k f t) K where
  rest := by
    have e : t.sws = s.sws := (congrArg State.sws q.rest : _)
    have r := q.rest
    unfold Machine.updSw
    rw [q.sw k, e]
    exact congrArg (fun y : State => { y with sws := mput s.sws k (f (s.sw k)) }) r
  queues j hj := q.queues j hj

theorem OnlyQueues.updRet {s t : State} {K : Nat → Prop} (q : OnlyQueues s t K) (k : Nat) (f : RetSt → RetSt) :
    OnlyQueues (Machine.updRet k f s) (Machine.updRet k f t) K where
  rest := by
    have e : t.rets = s.rets := (congrArg State.rets q.rest : _)
    have r := q.rest
    have e2 : t.ret k = s.ret k := by simp only [State.ret, e]
    unfold Machine.updRet
    rw [e2, e]
    exact congrArg (fun y : State => { y with rets := mput s.rets k (f (s.ret k)) }) r
  queues j hj := q.queues j hj

theorem OnlyQueues.foldl {s t : State} {K : Nat → Prop} {α : Type} (g : State → α → State)
    (hg : ∀ s t a, OnlyQueues s t K → OnlyQueues (g s a) (g t a) K) (l : List α) (q : OnlyQueues s t K) : OnlyQueues (l.foldl g s) (l.foldl g t) K := by
  induction l generalizing s t with
  | nil => exact q
  | cons a l ih => exact ih (hg _ _ a q)

/-- A frame whose act has an effect and the move on. -/
theorem effects_issue {i : Instr} {f : Ctx → Shape → Issue → State → State} {act : Ctx → Shape → Issue → State → State}
    (he : ∀ s, exec i s = issue i act s) (ha : ∀ s c h x, Runs s i c h x → Completes c h x (f c h x s) (act c h x s)) : Effects i f :=
  fun s c h x r => ⟨_, (he s).trans (issue_runs r _), (ha s c h x r).moves (onlyMoves_pairOrder s c h x _)⟩

/-! ### Long-latency results -/

/-- What a start changes beside queues: the result in flight and the next free name. -/
structure InFlight (s t : State) (r : Long) (K : Nat → Prop) : Prop where
  calm : Calm s { t with longs := s.longs, nextId := s.nextId }
  now : mget? t.longs s.nextId = some r
  others : ∀ k, k ≠ s.nextId → mget? t.longs k = mget? s.longs k
  threads : t.threads = s.threads
  sws : t.sws = s.sws
  queues : ∀ k, ¬ K k → t.queue k = s.queue k

theorem onlyQueues_reserveQ (c : Ctx) (q op n : Nat) (lanes : List Nat) (s : State) (K : Nat → Prop) (hk : ∀ l ∈ lanes, K (c.q l q)) :
    OnlyQueues s (reserveQ c q op n lanes s) K := by
  unfold reserveQ
  refine onlyQueues_foldl K _ lanes (fun t l hl => ?_) s
  split_ifs
  · exact OnlyQueues.refl _ _
  · exact onlyQueues_updQ _ _ _ _ (hk l hl)

/-- Queues may be reserved after the result is in flight. -/
theorem InFlight.step {s v w : State} {r : Long} {K : Nat → Prop} (k : InFlight s v r K) (o : OnlyQueues v w K) : InFlight s w r K := by
  have e1 : w.longs = v.longs := (congrArg State.longs o.rest : _)
  refine ⟨k.calm.trans ⟨?_, fun j => ?_⟩, ?_, fun j hj => ?_, ?_, ?_, fun j hj => (o.queues j hj).trans (k.queues j hj)⟩
  · have q := o.calm.rest
    exact congrArg (fun y : State => { y with longs := s.longs, nextId := s.nextId }) q
  · exact o.calm.cores j
  · rw [e1]; exact k.now
  · rw [e1]; exact k.others j hj
  · exact ((congrArg State.threads o.rest : _) : w.threads = v.threads).trans k.threads
  · exact ((congrArg State.sws o.rest : _) : w.sws = v.sws).trans k.sws

theorem launchLong_inFlight (c : Ctx) (h : Shape) (kind : Nat) (ready : Bool) (vals : List (Nat × Nat)) (fl : Fl) (s : State) (u : RegUse)
    (hu : h.write = some u) (K : Nat → Prop) (hk : isQueueName u.name = true → ∀ p ∈ vals, K (c.q p.1 u.name)) :
    InFlight s (launchLong c h kind ready vals fl s)
      { kind := kind, gid := c.run.gid, warp := c.run.warp, slice := c.run.slice, core := c.core, runSeq := c.run.seq, dest := destOf u.name
        vals := vals.map (fun p => (p.1, regCode (s.thread (c.th p.1)) u.name, BitVec.ofNat 128 p.2)), words := u.words, flags := fl
        ready := ready } K := by
  unfold launchLong
  rw [hu]
  have base : ∀ r : Long, InFlight s { ({ s with nextId := s.nextId + 1 } : State) with longs := mput s.longs s.nextId r } r K := fun r =>
    ⟨⟨rfl, fun _ => rfl⟩, mget?_mput_self _ _ _, fun k hk => mget?_mput_ne _ _ hk, rfl, rfl, fun _ _ => rfl⟩
  dsimp only [freshId]
  split
  · rename_i q hq
    have hname : isQueueName u.name = true ∧ q = u.name := by
      unfold destOf at hq
      split_ifs at hq with h1 h2 h3
      · cases hq; exact ⟨h3, rfl⟩
    obtain ⟨hn, rfl⟩ := hname
    refine (base _).step (onlyQueues_reserveQ c u.name _ u.words (vals.map (·.1)) _ K ?_)
    intro l hl
    obtain ⟨p, hp, rfl⟩ := List.mem_map.1 hl
    exact hk hn p hp
  · exact base _

/-- Moving on keeps a result in flight as it is. -/
theorem OnlyMoves.longs {s t : State} (m : OnlyMoves s t) : t.longs = s.longs := (congrArg State.longs m.calm.rest : _)
theorem OnlyMoves.nextId {s t : State} (m : OnlyMoves s t) : t.nextId = s.nextId := (congrArg State.nextId m.calm.rest : _)

theorem InFlight.starts {s v t : State} {c : Ctx} {h : Shape} {x : Issue} {kind : Nat} {ready : Bool} {f : Nat → Nat} {fl : Fl} {u : RegUse}
    (hu : h.write = some u) {r : Long} (hr : r = { kind := kind, gid := c.run.gid, warp := c.run.warp, slice := c.run.slice, core := c.core
                                                   runSeq := c.run.seq, dest := destOf u.name
                                                   vals := x.lanes.map (fun l => (l, regCode (s.thread (c.th l)) u.name, BitVec.ofNat 128 (f l)))
                                                   words := u.words, flags := fl, ready := ready })
    (k : InFlight s v r (usesQueue c h x)) (m : OnlyMoves v t) : Starts s t c h x kind ready f fl where
  calm := by
    refine k.calm.trans ⟨?_, m.calm.cores⟩
    exact congrArg (fun y : State => { y with longs := s.longs, nextId := s.nextId }) m.calm.rest
  flight u' hu' _ := by rw [hu] at hu'; cases hu'; rw [m.longs, k.now, hr]
  others j hj := by rw [m.longs, k.others j hj]
  threads j := by rw [m.threads j]; simp only [State.thread, k.threads]
  sws j := by rw [m.sws j]; simp only [State.sw, k.sws]
  queues j hj := (m.queues j).trans (k.queues j hj)

theorem Starts.pop {s v t : State} {c : Ctx} {h : Shape} {x : Issue} {kind : Nat} {ready : Bool} {f : Nat → Nat} {fl : Fl}
    (q : OnlyQueues s v (usesQueue c h x)) (k : Starts v t c h x kind ready f fl) : Starts s t c h x kind ready f fl := by
  have e1 : v.longs = s.longs := (congrArg State.longs q.rest : _)
  have e2 : v.nextId = s.nextId := (congrArg State.nextId q.rest : _)
  have c1 := k.calm
  rw [e1, e2] at c1
  refine ⟨q.calm.trans c1, ?_, ?_, fun j => by rw [k.threads j, q.thread], fun j => by rw [k.sws j, q.sw],
    fun j hj => (k.queues j hj).trans (q.queues j hj)⟩
  · intro u hu hx
    have := k.flight u hu hx
    rw [e2] at this
    simpa only [q.thread] using this
  · intro j hj
    rw [k.others j (by rw [e2]; exact hj), e1]

/-- With no lane, or no destination, nothing starts. -/
theorem OnlyMoves.starts {s t : State} {c : Ctx} {h : Shape} {x : Issue} {kind : Nat} {ready : Bool} {f : Nat → Nat} {fl : Fl}
    (hn : h.write = none ∨ x.lanes = []) (m : OnlyMoves s t) : Starts s t c h x kind ready f fl where
  calm := by
    refine ⟨?_, m.calm.cores⟩
    exact congrArg (fun y : State => { y with longs := s.longs, nextId := s.nextId }) m.calm.rest
  flight u hu hx := by rcases hn with hn | hn <;> simp_all
  others j _ := by rw [m.longs]
  threads := m.threads
  sws := m.sws
  queues j _ := m.queues j

theorem Starts.moves {s t u : State} {c : Ctx} {h : Shape} {x : Issue} {kind : Nat} {ready : Bool} {f : Nat → Nat} {fl : Fl}
    (k : Starts s t c h x kind ready f fl) (m : OnlyMoves t u) : Starts s u c h x kind ready f fl where
  calm := by
    refine k.calm.trans ⟨?_, m.calm.cores⟩
    exact congrArg (fun y : State => { y with longs := s.longs, nextId := s.nextId }) m.calm.rest
  flight v hv hx := by rw [m.longs]; exact k.flight v hv hx
  others j hj := by rw [m.longs]; exact k.others j hj
  threads j := (m.threads j).trans (k.threads j)
  sws j := (m.sws j).trans (k.sws j)
  queues j hj := (m.queues j).trans (k.queues j hj)

theorem Starts.sameMemory {s t : State} {c : Ctx} {h : Shape} {x : Issue} {kind : Nat} {ready : Bool} {f : Nat → Nat} {fl : Fl}
    (k : Starts s t c h x kind ready f fl) : SameMemory s t := k.calm.sameMemory

/-- A long-latency frame that may execute begins. -/
theorem begins_longLatency {i : Instr} {kind : Nat} {f : State → Ctx → Shape → Nat → Nat × Fl} (he : ∀ s, exec i s = longLatency i kind f s) :
    Begins i kind f := by
  intro s c h x r
  have e : ∀ (ls : List Nat) (a : Fl),
      (ls.map (fun l => (l, f s c h l))).foldl (fun b y => b ||| y.2.2) a = ls.foldl (fun b l => b ||| (f s c h l).2) a :=
    fun ls a => foldl_flags ls (f s c h) a
  have q := onlyQueues_popReads c h x s
  refine ⟨_, (he s).trans (issue_runs r _), ?_⟩
  suffices hs : Starts s (advance c (instrWords i) (issueCycles s c x.uniform)
      (if x.lanes.isEmpty = true then popReads c h x.pops s
       else launchLong c h kind true (x.lanes.map (fun l => (l, (f s c h l).1))) (flagsOf x (fun l => (f s c h l).2)) (popReads c h x.pops s)))
      c h x kind true (fun l => (f s c h l).1) (flagsOf x (fun l => (f s c h l).2)) by
    have g : ∀ (t : State), Starts s t c h x kind true (fun l => (f s c h l).1) (flagsOf x (fun l => (f s c h l).2)) →
      Starts s t c h x kind true (fun l => (f s c h l).1) (flagsOf x (fun l => (f s c h l).2)) ∧ SameMemory s t := fun t k => ⟨k, k.sameMemory⟩
    apply g
    dsimp only
    rw [e, List.map_map]
    exact hs.moves (onlyMoves_pairOrder s c h x _)
  refine Starts.pop q ?_
  cases hw : h.write with
  | none =>
    have hl : ∀ vals fl (t : State), launchLong c h kind true vals fl t = t := fun vals fl t => by unfold launchLong; rw [hw]
    simp only [hl, ite_self]
    exact (onlyMoves_advance _ _ _ _).starts (Or.inl hw)
  | some u =>
    by_cases hx : x.lanes = []
    · simp only [hx, List.isEmpty_nil, if_true]
      exact (onlyMoves_advance _ _ _ _).starts (Or.inr hx)
    · rw [if_neg (by simpa using hx)]
      refine InFlight.starts hw ?_ (launchLong_inFlight c h kind true _ _ _ u hw _ ?_) (onlyMoves_advance _ _ _ _)
      · simp only [List.map_map, Function.comp_def]
      · intro hq p hp
        obtain ⟨l, hl, rfl⟩ := List.mem_map.1 hp
        exact .inr ⟨l, hl, u, hw, hq, rfl⟩

end Sys2Proof.Machine
end

