-- ==== Sys2Proof/Laws/Meet.lean ====
section
/-! SUPPORT. Waking, waiting and meetings (spec/08 R192 to R196): what parking a thread, waking one and settling a slice-warp can change. -/

namespace Sys2Proof.Machine

open Sys2Proof Sys2Proof.Laws

/-- A map that keeps every key and changes listed values alone. -/
theorem mget?_mapIf {α : Type} (m : SMap α) (p : Nat → α → Bool) (f : α → α) (i : Nat) :
    mget? (m.map (fun e => if p e.1 e.2 then (e.1, f e.2) else e)) i = (mget? m i).map (fun v => if p i v then f v else v) := by
  induction m with
  | nil => rfl
  | cons e m ih =>
    obtain ⟨k, v⟩ := e
    simp only [List.map_cons]
    by_cases hp : p k v = true
    · simp only [hp, if_true, mget?]
      by_cases h : i = k
      · subst h; simp [hp]
      · simp only [h, if_false]; exact ih
    · rw [if_neg hp]
      simp only [mget?]
      by_cases h : i = k
      · subst h; simp [hp]
      · simp only [h, if_false]; exact ih

theorem OnlyMeets.refl (s : State) : OnlyMeets s s := ⟨Calm.refl s, fun _ => rfl, fun _ => rfl, fun _ => rfl⟩
theorem OnlyMeets.trans {s t u : State} (h : OnlyMeets s t) (g : OnlyMeets t u) : OnlyMeets s u :=
  ⟨h.calm.trans g.calm, fun k => (g.threads k).trans (h.threads k), fun k => (g.sws k).trans (h.sws k),
    fun k => (g.queues k).trans (h.queues k)⟩
theorem OnlyMoves.meets {s t : State} (m : OnlyMoves s t) : OnlyMeets s t where
  calm := m.calm
  threads k := by
    have e : ∀ a : Thread, a.unheld = { a.still with mr := 0, wait := .none, nextPc := 0 } := fun _ => rfl
    rw [e, m.threads k, ← e]
  sws k := by
    have e : ∀ a : SliceWarp, a.unmasked = { a.still with masks := [] } := fun _ => rfl
    rw [e, m.sws k, ← e]
  queues := m.queues

theorem onlyMeets_foldl {α : Type} (f : State → α → State) (hf : ∀ s a, OnlyMeets s (f s a)) (l : List α) (s : State) :
    OnlyMeets s (l.foldl f s) := by
  induction l generalizing s with
  | nil => exact OnlyMeets.refl s
  | cons a l ih => exact (hf s a).trans (ih _)

theorem onlyMeets_updTh (k : Nat) (f : Thread → Thread) (hf : ∀ th, (f th).unheld = th.unheld) (s : State) : OnlyMeets s (updTh k f s) :=
  ⟨calm_updTh k f s, fun j => by rw [thread_updTh]; split_ifs with h <;> simp [*], fun _ => rfl, fun _ => rfl⟩
theorem onlyMeets_updSw (k : Nat) (f : SliceWarp → SliceWarp) (hf : ∀ x, (f x).unmasked = x.unmasked) (s : State) : OnlyMeets s (updSw k f s) :=
  ⟨calm_updSw k f s, fun _ => rfl, fun j => by rw [sw_updSw]; split_ifs with h <;> simp [*], fun _ => rfl⟩

/-! ### Each of the steps of settling -/

/-- A thread waits in WAITM. -/
def Thread.inWaitm (th : Thread) : Prop := ∃ j, th.wait = .waitm j

/-- What settling does to where one thread waits: nothing, or it goes on from WAITM, or it was not there and does not come there. -/
def Thread.goesOn (a b : Thread) : Prop :=
  (b.wait = a.wait ∧ b.pc = a.pc ∧ b.nextPc = a.nextPc) ∨ (a.inWaitm ∧ ¬ b.inWaitm ∧ b.pc = a.nextPc)
    ∨ (¬ a.inWaitm ∧ ¬ b.inWaitm ∧ b.pc = a.pc)

theorem Thread.goesOn_trans {a b c : Thread} (h : a.goesOn b) (g : b.goesOn c) : a.goesOn c := by
  rcases h with ⟨h1, h2, h3⟩ | ⟨h1, h2, h3⟩ | ⟨h1, h2, h3⟩
  · have e : b.inWaitm ↔ a.inWaitm := by unfold Thread.inWaitm; rw [h1]
    rcases g with ⟨g1, g2, g3⟩ | ⟨g1, g2, g3⟩ | ⟨g1, g2, g3⟩
    · exact Or.inl ⟨g1.trans h1, g2.trans h2, g3.trans h3⟩
    · exact Or.inr (Or.inl ⟨e.1 g1, g2, g3.trans h3⟩)
    · exact Or.inr (Or.inr ⟨fun q => g1 (e.2 q), g2, g3.trans h2⟩)
  · rcases g with ⟨g1, g2, g3⟩ | ⟨g1, g2, g3⟩ | ⟨g1, g2, g3⟩
    · exact Or.inr (Or.inl ⟨h1, fun q => h2 (by unfold Thread.inWaitm at q ⊢; rwa [g1] at q), g2.trans h3⟩)
    · exact absurd g1 h2
    · exact Or.inr (Or.inl ⟨h1, g2, g3.trans h3⟩)
  · rcases g with ⟨g1, g2, g3⟩ | ⟨g1, g2, g3⟩ | ⟨g1, g2, g3⟩
    · exact Or.inr (Or.inr ⟨h1, fun q => h2 (by unfold Thread.inWaitm at q ⊢; rwa [g1] at q), g2.trans h3⟩)
    · exact absurd g1 h2
    · exact Or.inr (Or.inr ⟨h1, g2, g3.trans h3⟩)

/-- What holding a thread, releasing a mask and waking waiters can do: meetings alone change; a mask of the slice-warp is as it was or empty;
a meeting register that is not valid stays so; threads in WAITM stay or go on. -/
structure Settles (sw : Nat) (s t : State) : Prop where
  meets : OnlyMeets s t
  masks : ∀ k, mget (t.sw sw).masks k 0 = mget (s.sw sw).masks k 0 ∨ mget (t.sw sw).masks k 0 = 0
  mr : ∀ k, (s.thread k).mr.getLsbD 0 = false → (t.thread k).mr.getLsbD 0 = false
  wait : ∀ k, (s.thread k).goesOn (t.thread k)

theorem Settles.refl (sw : Nat) (s : State) : Settles sw s s :=
  ⟨OnlyMeets.refl s, fun _ => Or.inl rfl, fun _ h => h, fun _ => Or.inl ⟨rfl, rfl, rfl⟩⟩

theorem Settles.trans {sw : Nat} {s t u : State} (h : Settles sw s t) (g : Settles sw t u) : Settles sw s u where
  meets := h.meets.trans g.meets
  masks k := by
    rcases g.masks k with e | e
    · rw [e]; exact h.masks k
    · exact Or.inr e
  mr k e := g.mr k (h.mr k e)
  wait k := Thread.goesOn_trans (h.wait k) (g.wait k)

theorem settles_foldl {α : Type} (sw : Nat) (f : State → α → State) (hf : ∀ s a, Settles sw s (f s a)) (l : List α) (s : State) :
    Settles sw s (l.foldl f s) := by
  induction l generalizing s with
  | nil => exact Settles.refl sw s
  | cons a l ih => exact (hf s a).trans (ih _)

/-- Releasing one held thread, or holding one. -/
theorem settles_updTh (sw k : Nat) (f : Thread → Thread) (s : State) (h1 : (f (s.thread k)).unheld = (s.thread k).unheld)
    (h2 : (s.thread k).mr.getLsbD 0 = false → (f (s.thread k)).mr.getLsbD 0 = false) (h3 : (s.thread k).goesOn (f (s.thread k))) :
    Settles sw s (updTh k f s) where
  meets := ⟨calm_updTh k f s, fun j => by rw [thread_updTh]; split_ifs with h <;> simp [*], fun _ => rfl, fun _ => rfl⟩
  masks _ := Or.inl rfl
  mr j h := by
    rw [thread_updTh]
    split_ifs with e
    · exact h2 (e ▸ h)
    · exact h
  wait j := by
    rw [thread_updTh]
    split_ifs with e
    · rw [e]; exact h3
    · exact Or.inl ⟨rfl, rfl, rfl⟩

theorem settles_holdThreads (gid warp : Nat) (sl : Slice) (g : Group) (sw : Nat) (s : State) : Settles sw s (holdThreads gid warp sl g s) := by
  unfold holdThreads
  refine settles_foldl _ _ (fun t l => ?_) _ _
  dsimp only
  split_ifs with h
  · simp only [Bool.and_eq_true, beq_iff_eq] at h
    have hw := h.1.1.1.1.2
    refine settles_updTh _ _ _ _ rfl (fun h => h) (Or.inr (Or.inr ⟨?_, ?_, rfl⟩))
    · rintro ⟨j, hj⟩; rw [hw] at hj; cases hj
    · rintro ⟨j, hj⟩; cases hj
  · exact Settles.refl _ _

theorem settles_wakeWhere (gid warp : Nat) (sl : Slice) (k sw : Nat) (s : State) : Settles sw s (wakeWhere gid warp sl (fun w => w == .waitm k) s) := by
  have hm := fun j => mget?_mapIf s.threads (fun i th => decide (i / 64 = swKey gid warp sl) && (th.wait == .waitm k)) wakeThread j
  have et : ∀ j, (wakeWhere gid warp sl (fun w => w == .waitm k) s).thread j = s.thread j
      ∨ ((wakeWhere gid warp sl (fun w => w == .waitm k) s).thread j = wakeThread (s.thread j) ∧ (s.thread j).wait = .waitm k) := by
    intro j
    have := hm j
    have e : (wakeWhere gid warp sl (fun w => w == .waitm k) s).threads
        = s.threads.map (fun e => if (decide (e.1 / 64 = swKey gid warp sl) && (e.2.wait == .waitm k)) = true then (e.1, wakeThread e.2) else e) := by
      unfold wakeWhere
      simp only [Bool.and_eq_true, decide_eq_true_eq]
    simp only [State.thread, mget, e, this]
    cases hs : mget? s.threads j with
    | none => left; rfl
    | some v =>
      simp only [Option.map_some, Option.getD_some]
      split_ifs with h
      · right; simp only [Bool.and_eq_true, beq_iff_eq] at h; exact ⟨rfl, h.2⟩
      · left; rfl
  refine ⟨⟨⟨rfl, fun _ => rfl⟩, fun j => ?_, fun _ => rfl, fun _ => rfl⟩, fun _ => Or.inl rfl, fun j h => ?_, fun j => ?_⟩
  · rcases et j with e | ⟨e, _⟩
    · rw [e]
    · rw [e]; rfl
  · rcases et j with e | ⟨e, _⟩ <;> rw [e] <;> exact h
  · rcases et j with e | ⟨e, hw⟩
    · rw [e]; exact Or.inl ⟨rfl, rfl, rfl⟩
    · rw [e]; exact Or.inr (Or.inl ⟨⟨k, hw⟩, (by rintro ⟨i, hi⟩; cases hi), rfl⟩)

theorem OnlyMoves.settles {s t : State} (m : OnlyMoves s t) (sw : Nat) (h : t.threads = s.threads) (g : ∀ k, (t.sw k).masks = (s.sw k).masks) :
    Settles sw s t where
  meets := m.meets
  masks k := Or.inl (by rw [g])
  mr k e := by simp only [State.thread, h] at e ⊢; exact e
  wait k := Or.inl (by simp only [State.thread, h]; exact ⟨trivial, trivial, trivial⟩)

theorem settles_acquireSws (ks : List Nat) (sw : Nat) (s : State) : Settles sw s (acquireSws ks s) :=
  settles_foldl sw (fun t k => orderAfter k (readsOf t k) t) (fun t k => (onlyMoves_orderAfter k _ t).settles sw rfl
    (fun j => by unfold orderAfter; rw [sw_updSw]; split_ifs with h <;> simp [*])) ks s

theorem settles_releaseWaitm (gid warp : Nat) (sl : Slice) (k sw : Nat) (s : State) : Settles sw s (releaseWaitm gid warp sl k s) := by
  unfold releaseWaitm
  dsimp only
  split_ifs
  · exact Settles.refl _ _
  · exact (settles_wakeWhere _ _ _ _ _ _).trans (settles_acquireSws _ _ _)

theorem settles_releaseMask (gid warp : Nat) (sl : Slice) (k : Nat) (s : State) :
    Settles (swKey gid warp sl) s (releaseMask gid warp sl k s) := by
  unfold releaseMask
  dsimp only
  split_ifs with h
  · exact Settles.refl _ _
  · simp only [Bool.or_eq_true, List.isEmpty_iff, List.any_eq_true, bne_iff_ne, ne_eq, not_or, not_exists, not_and, not_not] at h
    have base : Settles (swKey gid warp sl) s (updSw (swKey gid warp sl) (fun x => { x with masks := mput x.masks k 0 }) s) := by
      refine ⟨onlyMeets_updSw _ _ (by intro _; rfl) _, fun j => ?_, fun _ h => h, fun _ => Or.inl ⟨rfl, rfl, rfl⟩⟩
      rw [sw_updSw, if_pos rfl]; dsimp only; rw [mget_mput]; split_ifs
      · exact Or.inr rfl
      · exact Or.inl rfl
    refine base.trans ?_
    have key : ∀ (ls : List Nat) (t : State), (∀ l, (t.thread (thKey (swKey gid warp sl) l)).wait = .none ∨ (t.thread (thKey (swKey gid warp sl) l)).wait = .held
          ∨ l ∉ ls) →
        Settles (swKey gid warp sl) t (ls.foldl (fun t l =>
          updTh (thKey (swKey gid warp sl) l) (fun th => { th with wait := .none, mr := th.mr &&& ~~~(1 : W64) }) t) t) := by
      intro ls
      induction ls with
      | nil => intro t _; exact Settles.refl _ _
      | cons l ls ih =>
        intro t ht
        refine Settles.trans (settles_updTh _ _ _ t rfl (fun h => ?_) (Or.inr (Or.inr ⟨?_, ?_, rfl⟩))) (ih _ (fun j => ?_))
        · simp
        · rintro ⟨j, hj⟩
          rcases ht l with e | e | e
          · rw [e] at hj; cases hj
          · rw [e] at hj; cases hj
          · simp at e
        · rintro ⟨j, hj⟩; cases hj
        · rw [thread_updTh]
          split_ifs
          · left; rfl
          · rcases ht j with e | e | e
            · exact Or.inl e
            · exact Or.inr (Or.inl e)
            · exact Or.inr (Or.inr (fun q => e (by simp [q])))
    refine key _ _ (fun l => ?_)
    by_cases hl : l ∈ lanesOf (mget (s.sw (swKey gid warp sl)).masks k 0)
    · exact Or.inr (Or.inl (h.2 l hl))
    · exact Or.inr (Or.inr hl)

/-- SETTLING (R192, R195, R196), said once. -/
theorem settles_settle (gid warp : Nat) (sl : Slice) (s : State) : Settles (swKey gid warp sl) s (settle gid warp sl s) := by
  unfold settle
  split
  · exact Settles.refl _ _
  · exact (settles_holdThreads _ _ _ _ _ _).trans (settles_foldl _ _ (fun t k =>
      (settles_releaseMask gid warp sl k t).trans (settles_releaseWaitm gid warp sl k _ _)) _ _)

/-! ### Parking -/

theorem parkWait_thread (c : Ctx) (lanes : List Nat) (w : Wait) (s : State) (k : Nat) :
    (parkWait c lanes w s).thread k = if ∃ l ∈ lanes, k = c.th l
      then { s.thread k with pc := c.run.addr, pos := some c.run.pos, nextPc := nextHeader c.run, wait := w } else s.thread k := by
  unfold parkWait
  induction lanes generalizing s with
  | nil => simp
  | cons l ls ih =>
    rw [List.foldl_cons, ih]
    by_cases h : k = c.th l
    · subst h
      have e2 : (∃ j ∈ l :: ls, c.th l = c.th j) := ⟨l, by simp, rfl⟩
      rw [if_pos e2, thread_updTh, if_pos rfl]
      split_ifs <;> rfl
    · have e : (∃ j ∈ l :: ls, k = c.th j) ↔ ∃ j ∈ ls, k = c.th j := by
        simp only [List.mem_cons, exists_eq_or_imp, h, false_or]
      simp only [e, thread_updTh, if_neg h]

theorem calm_parkWait (c : Ctx) (lanes : List Nat) (w : Wait) (s : State) : Calm s (parkWait c lanes w s) :=
  calm_foldl _ (fun t _ => calm_updTh _ _ t) lanes s

theorem parkWait_sws (c : Ctx) (lanes : List Nat) (w : Wait) (s : State) :
    (parkWait c lanes w s).sws = s.sws ∧ (parkWait c lanes w s).queues = s.queues := by
  unfold parkWait
  induction lanes generalizing s with
  | nil => exact ⟨rfl, rfl⟩
  | cons l ls ih => rw [List.foldl_cons]; exact ih _

/-- PARKING after an instruction has completed. -/
theorem Completes.parks {c : Ctx} {h : Shape} {x : Issue} {s t : State} (k : Completes c h x s t) (lanes : List Nat) (w : Wait) :
    Parks c h x lanes w s (parkWait c lanes w t) := by
  obtain ⟨e1, e2⟩ := parkWait_sws c lanes w t
  refine ⟨k.calm.trans (calm_parkWait _ _ _ _), fun l hl => ?_, fun j hj => ?_, fun j => ?_, fun j => ?_, fun j hj => ?_⟩
  · rw [parkWait_thread, if_pos ⟨l, hl, rfl⟩]; exact ⟨rfl, rfl, rfl, rfl⟩
  · rw [parkWait_thread, if_neg (by rintro ⟨l, hl, e⟩; exact hj l hl e)]; exact k.threads j
  · have q : ∀ a : Thread, a.quiet = { a.still with wait := .none, nextPc := 0 } := fun _ => rfl
    rw [parkWait_thread]
    split_ifs
    · have := k.threads j
      rw [q (s.thread j), ← this]; rfl
    · rw [q, q, k.threads j]
  · simp only [State.sw, e1]; exact k.sws j
  · simp only [State.queue, e2]; exact k.queues j hj

theorem onlyMeets_parkWait (c : Ctx) (lanes : List Nat) (w : Wait) (s : State) : OnlyMeets s (parkWait c lanes w s) := by
  obtain ⟨e1, e2⟩ := parkWait_sws c lanes w s
  refine ⟨calm_parkWait _ _ _ _, fun j => ?_, fun j => ?_, fun j => ?_⟩
  · rw [parkWait_thread]; split_ifs <;> rfl
  · simp only [State.sw, e1]
  · simp only [State.queue, e2]

end Sys2Proof.Machine
end

