-- ==== Sys2Proof/Laws/Branch.lean ====
section
/-! SUPPORT. Where threads stand after an instruction (spec/02 R56, R59, R97): those that left the run keep the place they were given. -/

namespace Sys2Proof.Machine

open Sys2Proof Sys2Proof.Laws

theorem portRun_setPort (p : Port) (r : Option Run) (s : State) : (setPort p r s).portRun p = r := by
  cases p with
  | mk k sl => cases sl <;> simp [setPort, State.portRun]

theorem threads_setPort (p : Port) (r : Option Run) (s : State) : (setPort p r s).threads = s.threads := rfl

/-- A thread stands where it stood. -/
def Thread.stands (a b : Thread) : Prop := b.pc = a.pc ∧ b.pos = a.pos

theorem applyTrailers_stands (c : Ctx) (r : Run) (s : State) (k : Nat) : (s.thread k).stands ((applyTrailers c r s).thread k) := by
  unfold applyTrailers
  extract_lets names
  split
  · exact ⟨rfl, rfl⟩
  · have key : ∀ (ws : List (Nat × Option Nat × List Nat)) (t : State), (s.thread k).stands (t.thread k) → (s.thread k).stands
        ((ws.foldl (fun t w => match w.2.1 with
          | none =>
            let un := (names.filter (fun n => decide (96 ≤ n))).map (· - 96)
            updSw c.sw (fun x => { x with uniPending := x.uniPending ++ (awaits un w.2.2).map (fun k => (k, w.1)) }) t
          | some l =>
            if hasLane (r.lanes ||| r.left) l then
              updTh (c.th l) (fun th =>
                let codes := (names.filter (fun n => decide (n < 80))).map (regCode th)
                { th with pending := th.pending ++ (awaits codes w.2.2).map (fun k => (k, w.1)) }) t
            else t) t).thread k) := by
      intro ws
      induction ws with
      | nil => intro t h; exact h
      | cons w ws ih =>
        intro t h
        rw [List.foldl_cons]
        apply ih
        split
        · exact h
        · split
          · rw [thread_updTh]; split_ifs with e
            · subst e; exact h
            · exact h
          · exact h
    exact key _ s ⟨rfl, rfl⟩

theorem foldUpd_thread (c : Ctx) (f : Thread → Thread) (lanes : List Nat) (hd : lanes.Nodup) (s : State) (k : Nat) :
    (lanes.foldl (fun t l => updTh (c.th l) f t) s).thread k = if ∃ l ∈ lanes, k = c.th l then f (s.thread k) else s.thread k := by
  induction lanes generalizing s with
  | nil => simp
  | cons l ls ih =>
    simp only [List.nodup_cons] at hd
    rw [List.foldl_cons, ih hd.2]
    by_cases h : k = c.th l
    · subst h
      have e1 : ¬ ∃ j ∈ ls, c.th l = c.th j := by
        rintro ⟨j, hj, e⟩; exact hd.1 (c.th_inj.1 e ▸ hj)
      have e2 : ∃ j ∈ l :: ls, c.th l = c.th j := ⟨l, by simp, rfl⟩
      rw [if_neg e1, if_pos e2, thread_updTh, if_pos rfl]
    · have e : (∃ j ∈ l :: ls, k = c.th j) ↔ ∃ j ∈ ls, k = c.th j := by
        simp only [List.mem_cons, exists_eq_or_imp, h, false_or]
      simp only [e, thread_updTh, if_neg h]

theorem foldUpd_rest (c : Ctx) (f : Nat → Thread → Thread) (lanes : List Nat) (s : State) :
    { (lanes.foldl (fun t l => updTh (c.th l) (f l) t) s) with threads := s.threads } = s := by
  induction lanes generalizing s with
  | nil => rfl
  | cons l ls ih =>
    rw [List.foldl_cons]
    have := ih (updTh (c.th l) (f l) s)
    exact congrArg (fun y : State => { y with threads := s.threads }) this

/-- The end of a run moves its own threads alone. -/
theorem endRun_stands (c : Ctx) (r : Run) (s : State) (k : Nat) (hk : ∀ l ∈ lanesOf r.lanes, k ≠ c.th l) :
    (s.thread k).stands ((endRun c r s).thread k) := by
  unfold endRun
  have h := applyTrailers_stands c r s k
  unfold Thread.stands at h ⊢
  simp only [State.thread, threads_setPort]
  have e := foldUpd_thread c (fun th => { th with pc := nextHeader r, pos := none, latch := [], latchUni := [] }) (lanesOf r.lanes)
    (nodup_lanesOf _) (applyTrailers c r s) k
  rw [if_neg (by rintro ⟨l, hl, q⟩; exact hk l hl q)] at e
  simp only [State.thread] at e h
  rw [e]; exact h

/-- Moving on leaves the threads that are not in the run on the port where they stood. -/
theorem advance_stands (c : Ctx) (n k : Nat) (s : State) (j : Nat)
    (hj : ∀ r, s.portRun ⟨c.core, c.run.slice⟩ = some r → ∀ l ∈ lanesOf r.lanes, j ≠ c.th l) :
    (s.thread j).stands ((advance c n k s).thread j) := by
  unfold advance
  have ht : ({ s with ticks := s.ticks + 8 * k, free := s.free + 1 } : State).portRun ⟨c.core, c.run.slice⟩ = s.portRun ⟨c.core, c.run.slice⟩ := rfl
  dsimp only
  rw [ht]
  cases hr : s.portRun ⟨c.core, c.run.slice⟩ with
  | none => exact ⟨rfl, rfl⟩
  | some r =>
    dsimp only
    split_ifs
    · exact ⟨rfl, rfl⟩
    · exact endRun_stands c { r with pos := c.run.pos + n } _ j (hj r hr)
    · exact ⟨rfl, rfl⟩

/-! ### Leaving the run -/

theorem getLsbD_laneSet (ls : List Nat) (l : Nat) (hl : l < 64) : (laneSet ls).getLsbD l = decide (l ∈ ls) := by
  induction ls with
  | nil => simp [laneSet]
  | cons j ls ih =>
    rw [laneSet, BitVec.getLsbD_or, ih, laneBit, getLsbD_two_pow]
    by_cases h : l = j
    · subst h; simp [hl]
    · simp [h, hl]

theorem mem_bitIdx (n i x k : Nat) : k ∈ bitIdx n i x ↔ i ≤ k ∧ k < i + n ∧ bitOf x k = true := by
  induction n generalizing i with
  | zero => simp [bitIdx]; omega
  | succ n ih =>
    unfold bitIdx
    split_ifs with h
    · rw [List.mem_cons, ih]
      constructor
      · rintro (rfl | ⟨a, b, c⟩)
        · exact ⟨le_refl _, by omega, h⟩
        · exact ⟨by omega, by omega, c⟩
      · rintro ⟨a, b, c⟩
        by_cases e : k = i
        · exact Or.inl e
        · exact Or.inr ⟨by omega, by omega, c⟩
    · rw [ih]
      constructor
      · rintro ⟨a, b, c⟩; exact ⟨by omega, by omega, c⟩
      · rintro ⟨a, b, c⟩
        have : k ≠ i := fun e => h (e ▸ c)
        exact ⟨by omega, by omega, c⟩

theorem mem_lanesOf (m : BitVec 64) (l : Nat) : l ∈ lanesOf m ↔ l < 64 ∧ m.getLsbD l = true := by
  rw [lanesOf, mem_bitIdx, bitOf_ofNat]; simp

theorem not_mem_leave (m : BitVec 64) (ls : List Nat) (l : Nat) (h : l ∈ ls) : l ∉ lanesOf (m &&& ~~~laneSet ls) := by
  rw [mem_lanesOf]
  rintro ⟨h64, e⟩
  rw [BitVec.getLsbD_and, BitVec.getLsbD_not, getLsbD_laneSet ls l h64] at e
  simp [h] at e

/-- After lanes have left, the run on the port holds none of them. -/
theorem portRun_leaveRun (c : Ctx) (ls : List Nat) (s : State) (r : Run) (hr : (leaveRun c ls s).portRun ⟨c.core, c.run.slice⟩ = some r) :
    ∀ l ∈ ls, l ∉ lanesOf r.lanes := by
  unfold leaveRun at hr
  split at hr
  · rename_i h; rw [h] at hr; cases hr
  · rw [portRun_setPort] at hr
    cases hr
    exact fun l hl => not_mem_leave _ _ _ hl

theorem onlyMoves_leaveRun (c : Ctx) (ls : List Nat) (s : State) : OnlyMoves s (leaveRun c ls s) := by
  unfold leaveRun
  split
  · exact OnlyMoves.refl s
  · exact onlyMoves_setPort _ _ _

theorem threads_leaveRun (c : Ctx) (ls : List Nat) (s : State) : (leaveRun c ls s).threads = s.threads := by
  unfold leaveRun; split <;> rfl

theorem foldPairs_thread (c : Ctx) (f : W64 → Thread → Thread) (ts : List (Nat × W64)) (hd : (ts.map (·.1)).Nodup) (s : State) :
    ∀ p ∈ ts, (ts.foldl (fun t p => updTh (c.th p.1) (f p.2) t) s).thread (c.th p.1) = f p.2 (s.thread (c.th p.1)) := by
  have other : ∀ (us : List (Nat × W64)) (t : State) (k : Nat), (∀ q ∈ us, k ≠ c.th q.1) →
      (us.foldl (fun t p => updTh (c.th p.1) (f p.2) t) t).thread k = t.thread k := by
    intro us
    induction us with
    | nil => intro t k _; rfl
    | cons q us ih =>
      intro t k hk
      rw [List.foldl_cons, ih _ _ (fun r hr => hk r (by simp [hr])), thread_updTh, if_neg (hk q (by simp))]
  induction ts generalizing s with
  | nil => simp
  | cons q ts ih =>
    simp only [List.map_cons, List.nodup_cons] at hd
    have hne : ∀ p ∈ ts, c.th q.1 ≠ c.th p.1 := fun p hp e => hd.1 (List.mem_map.2 ⟨p, hp, (c.th_inj.1 e).symm⟩)
    intro p hp
    rw [List.foldl_cons]
    rcases List.mem_cons.1 hp with rfl | hp
    · rw [other ts _ _ (fun r hr => hne r hr), thread_updTh, if_pos rfl]
    · rw [ih hd.2 _ p hp, thread_updTh, if_neg (fun e => hne p hp e.symm)]

/-- BRANCHING, then moving on (R189, R190): each lane stands at its target, and nothing else changes. -/
theorem branchTo_advance (c : Ctx) (ts : List (Nat × W64)) (rank : W64 → Nat) (n : Nat) (s : State) (hd : (ts.map (·.1)).Nodup) :
    OnlyMoves s (advance c 1 n (branchTo c ts rank s))
    ∧ ∀ p ∈ ts, ((advance c 1 n (branchTo c ts rank s)).thread (c.th p.1)).pc = p.2
        ∧ ((advance c 1 n (branchTo c ts rank s)).thread (c.th p.1)).pos = none := by
  have base : OnlyMoves s (ts.foldl (fun t p => updTh (c.th p.1) (fun th =>
      { th with pc := p.2, pos := none, latch := [], latchUni := [], splitRank := (64 - c.run.pos) * 64 + 1 + rank p.2 }) t) s) := by
    refine onlyMoves_foldl _ (fun t p => ?_) _ _
    refine onlyMoves_updTh _ _ ?_ _; intro _; rfl
  refine ⟨(base.trans (onlyMoves_leaveRun c _ _)).trans (onlyMoves_advance _ _ _ _), fun p hp => ?_⟩
  have hl : ∀ r, (branchTo c ts rank s).portRun ⟨c.core, c.run.slice⟩ = some r → ∀ l ∈ lanesOf r.lanes, c.th p.1 ≠ c.th l := by
    intro r hr l hl e
    obtain ⟨u, hu⟩ : ∃ u, branchTo c ts rank s = leaveRun c (ts.map (·.1)) u := ⟨_, rfl⟩
    rw [hu] at hr
    have h1 := portRun_leaveRun c (ts.map (·.1)) u r
    have h1 := h1 hr
    have h2 : p.1 ∈ ts.map (·.1) := List.mem_map_of_mem hp
    rw [c.th_inj.1 e] at h2
    exact h1 l h2 hl
  have hs := advance_stands c 1 n (branchTo c ts rank s) (c.th p.1) hl
  have ht : (branchTo c ts rank s).thread (c.th p.1) = { s.thread (c.th p.1) with
      pc := p.2, pos := none, latch := [], latchUni := [], splitRank := (64 - c.run.pos) * 64 + 1 + rank p.2 } := by
    unfold branchTo
    simp only [State.thread, threads_leaveRun]
    exact foldPairs_thread c (fun a th => { th with pc := a, pos := none, latch := [], latchUni := [], splitRank := (64 - c.run.pos) * 64 + 1 + rank a })
      ts hd s p hp
  rw [Thread.stands, ht] at hs
  exact hs

end Sys2Proof.Machine
end

