-- ==== Sys2Proof/Laws/Exec.lean ====
section
/-! SUPPORT. The arm of each instruction: exec of it is its meaning. -/

namespace Sys2Proof.Machine

open Sys2Proof

@[simp] theorem exec_nop (w : RWord) (s : State) : exec (.nop w) s = execNop w s := rfl
@[simp] theorem exec_add (w : RWord) (s : State) : exec (.add w) s = execAdd w s := rfl
@[simp] theorem exec_sub (w : RWord) (s : State) : exec (.sub w) s = execSub w s := rfl
@[simp] theorem exec_addi (w : RWord) (s : State) : exec (.addi w) s = execAddi w s := rfl
@[simp] theorem exec_addl (w : RWord) (ctl : W32) (s : State) : exec (.addl w ctl) s = execAddl w ctl s := rfl
@[simp] theorem exec_mul (w : RWord) (s : State) : exec (.mul w) s = execMul w s := rfl
@[simp] theorem exec_mulh (w : RWord) (s : State) : exec (.mulh w) s = execMulh w s := rfl
@[simp] theorem exec_mulhu (w : RWord) (s : State) : exec (.mulhu w) s = execMulhu w s := rfl
@[simp] theorem exec_madd (w : RWord) (s : State) : exec (.madd w) s = execMadd w s := rfl
@[simp] theorem exec_div (w : RWord) (s : State) : exec (.div w) s = execDiv w s := rfl
@[simp] theorem exec_divu (w : RWord) (s : State) : exec (.divu w) s = execDivu w s := rfl
@[simp] theorem exec_rem (w : RWord) (s : State) : exec (.rem w) s = execRem w s := rfl
@[simp] theorem exec_remu (w : RWord) (s : State) : exec (.remu w) s = execRemu w s := rfl
@[simp] theorem exec_abs (w : RWord) (s : State) : exec (.abs w) s = execAbs w s := rfl
@[simp] theorem exec_and (w : RWord) (s : State) : exec (.and w) s = execAnd w s := rfl
@[simp] theorem exec_or (w : RWord) (s : State) : exec (.or w) s = execOr w s := rfl
@[simp] theorem exec_xor (w : RWord) (s : State) : exec (.xor w) s = execXor w s := rfl
@[simp] theorem exec_andn (w : RWord) (s : State) : exec (.andn w) s = execAndn w s := rfl
@[simp] theorem exec_shl (w : RWord) (s : State) : exec (.shl w) s = execShl w s := rfl
@[simp] theorem exec_shr (w : RWord) (s : State) : exec (.shr w) s = execShr w s := rfl
@[simp] theorem exec_sar (w : RWord) (s : State) : exec (.sar w) s = execSar w s := rfl
@[simp] theorem exec_rot (w : RWord) (s : State) : exec (.rot w) s = execRot w s := rfl
@[simp] theorem exec_shli (w : RWord) (s : State) : exec (.shli w) s = execShli w s := rfl
@[simp] theorem exec_shri (w : RWord) (s : State) : exec (.shri w) s = execShri w s := rfl
@[simp] theorem exec_sari (w : RWord) (s : State) : exec (.sari w) s = execSari w s := rfl
@[simp] theorem exec_min (w : RWord) (s : State) : exec (.min w) s = execMin w s := rfl
@[simp] theorem exec_max (w : RWord) (s : State) : exec (.max w) s = execMax w s := rfl
@[simp] theorem exec_minu (w : RWord) (s : State) : exec (.minu w) s = execMinu w s := rfl
@[simp] theorem exec_maxu (w : RWord) (s : State) : exec (.maxu w) s = execMaxu w s := rfl
@[simp] theorem exec_clz (w : SWord) (s : State) : exec (.clz w) s = execClz w s := rfl
@[simp] theorem exec_ctz (w : SWord) (s : State) : exec (.ctz w) s = execCtz w s := rfl
@[simp] theorem exec_popc (w : SWord) (s : State) : exec (.popc w) s = execPopc w s := rfl
@[simp] theorem exec_brev (w : SWord) (s : State) : exec (.brev w) s = execBrev w s := rfl
@[simp] theorem exec_bfx (w : RWord) (ctl : W32) (s : State) : exec (.bfx w ctl) s = execBfx w ctl s := rfl
@[simp] theorem exec_bfi (w : RWord) (ctl : W32) (s : State) : exec (.bfi w ctl) s = execBfi w ctl s := rfl
@[simp] theorem exec_sel (w : RWord) (ctl : W32) (s : State) : exec (.sel w ctl) s = execSel w ctl s := rfl
@[simp] theorem exec_mov (w : RWord) (s : State) : exec (.mov w) s = execMov w s := rfl
@[simp] theorem exec_movl (w : RWord) (ctl : W32) (s : State) : exec (.movl w ctl) s = execMovl w ctl s := rfl
@[simp] theorem exec_lea (w : RWord) (ctl : W32) (s : State) : exec (.lea w ctl) s = execLea w ctl s := rfl
@[simp] theorem exec_addc (w : RWord) (s : State) : exec (.addc w) s = execAddc w s := rfl
@[simp] theorem exec_subb (w : RWord) (s : State) : exec (.subb w) s = execSubb w s := rfl
@[simp] theorem exec_cmpeq (w : RWord) (s : State) : exec (.cmpeq w) s = execCmpeq w s := rfl
@[simp] theorem exec_cmpne (w : RWord) (s : State) : exec (.cmpne w) s = execCmpne w s := rfl
@[simp] theorem exec_cmplt (w : RWord) (s : State) : exec (.cmplt w) s = execCmplt w s := rfl
@[simp] theorem exec_cmple (w : RWord) (s : State) : exec (.cmple w) s = execCmple w s := rfl
@[simp] theorem exec_cmpltu (w : RWord) (s : State) : exec (.cmpltu w) s = execCmpltu w s := rfl
@[simp] theorem exec_cmpleu (w : RWord) (s : State) : exec (.cmpleu w) s = execCmpleu w s := rfl
@[simp] theorem exec_cmpeqi (w : RWord) (s : State) : exec (.cmpeqi w) s = execCmpeqi w s := rfl
@[simp] theorem exec_cmplti (w : RWord) (s : State) : exec (.cmplti w) s = execCmplti w s := rfl
@[simp] theorem exec_pand (w : RWord) (s : State) : exec (.pand w) s = execPand w s := rfl
@[simp] theorem exec_por (w : RWord) (s : State) : exec (.por w) s = execPor w s := rfl
@[simp] theorem exec_pxor (w : RWord) (s : State) : exec (.pxor w) s = execPxor w s := rfl
@[simp] theorem exec_pmov (w : RWord) (s : State) : exec (.pmov w) s = execPmov w s := rfl
@[simp] theorem exec_wbase (w : RWord) (s : State) : exec (.wbase w) s = execWbase w s := rfl
@[simp] theorem exec_rds (w : RWord) (ctl : W32) (s : State) : exec (.rds w ctl) s = execRds w ctl s := rfl
@[simp] theorem exec_wrs (w : RWord) (ctl : W32) (s : State) : exec (.wrs w ctl) s = execWrs w ctl s := rfl
@[simp] theorem exec_fcmpeq (w : RWord) (s : State) : exec (.fcmpeq w) s = execFcmpeq w s := rfl
@[simp] theorem exec_fcmplt (w : RWord) (s : State) : exec (.fcmplt w) s = execFcmplt w s := rfl
@[simp] theorem exec_fcmple (w : RWord) (s : State) : exec (.fcmple w) s = execFcmple w s := rfl
@[simp] theorem exec_fcmpun (w : RWord) (s : State) : exec (.fcmpun w) s = execFcmpun w s := rfl
@[simp] theorem exec_fadd (w : RWord) (s : State) : exec (.fadd w) s = execFadd w s := rfl
@[simp] theorem exec_fsub (w : RWord) (s : State) : exec (.fsub w) s = execFsub w s := rfl
@[simp] theorem exec_fmul (w : RWord) (s : State) : exec (.fmul w) s = execFmul w s := rfl
@[simp] theorem exec_ffma (w : RWord) (s : State) : exec (.ffma w) s = execFfma w s := rfl
@[simp] theorem exec_fmin (w : RWord) (s : State) : exec (.fmin w) s = execFmin w s := rfl
@[simp] theorem exec_fmax (w : RWord) (s : State) : exec (.fmax w) s = execFmax w s := rfl
@[simp] theorem exec_fneg (w : RWord) (s : State) : exec (.fneg w) s = execFneg w s := rfl
@[simp] theorem exec_fabs (w : RWord) (s : State) : exec (.fabs w) s = execFabs w s := rfl
@[simp] theorem exec_frcp (w : RWord) (s : State) : exec (.frcp w) s = execFrcp w s := rfl
@[simp] theorem exec_frsq (w : RWord) (s : State) : exec (.frsq w) s = execFrsq w s := rfl
@[simp] theorem exec_fexp2 (w : RWord) (s : State) : exec (.fexp2 w) s = execFexp2 w s := rfl
@[simp] theorem exec_flog2 (w : RWord) (s : State) : exec (.flog2 w) s = execFlog2 w s := rfl
@[simp] theorem exec_fsin (w : RWord) (s : State) : exec (.fsin w) s = execFsin w s := rfl
@[simp] theorem exec_fcos (w : RWord) (s : State) : exec (.fcos w) s = execFcos w s := rfl
@[simp] theorem exec_ftanh (w : RWord) (s : State) : exec (.ftanh w) s = execFtanh w s := rfl
@[simp] theorem exec_fsqrt (w : RWord) (s : State) : exec (.fsqrt w) s = execFsqrt w s := rfl
@[simp] theorem exec_frnd (w : RWord) (s : State) : exec (.frnd w) s = execFrnd w s := rfl
@[simp] theorem exec_fcvt (w : RWord) (ctl : W32) (s : State) : exec (.fcvt w ctl) s = execFcvt w ctl s := rfl
@[simp] theorem exec_hadd2 (w : RWord) (s : State) : exec (.hadd2 w) s = execHadd2 w s := rfl
@[simp] theorem exec_hmul2 (w : RWord) (s : State) : exec (.hmul2 w) s = execHmul2 w s := rfl
@[simp] theorem exec_hfma2 (w : RWord) (s : State) : exec (.hfma2 w) s = execHfma2 w s := rfl
@[simp] theorem exec_badd2 (w : RWord) (s : State) : exec (.badd2 w) s = execBadd2 w s := rfl
@[simp] theorem exec_bmul2 (w : RWord) (s : State) : exec (.bmul2 w) s = execBmul2 w s := rfl
@[simp] theorem exec_bfma2 (w : RWord) (s : State) : exec (.bfma2 w) s = execBfma2 w s := rfl
@[simp] theorem exec_idot4 (w : RWord) (ctl : W32) (s : State) : exec (.idot4 w ctl) s = execIdot4 w ctl s := rfl
@[simp] theorem exec_tdot4 (w : RWord) (s : State) : exec (.tdot4 w) s = execTdot4 w s := rfl
@[simp] theorem exec_fflagRd (w : SWord) (s : State) : exec (.fflagRd w) s = execFflagRd w s := rfl
@[simp] theorem exec_fflagClr (w : SWord) (s : State) : exec (.fflagClr w) s = execFflagClr w s := rfl
@[simp] theorem exec_fsetrm (w : RWord) (s : State) : exec (.fsetrm w) s = execFsetrm w s := rfl
@[simp] theorem exec_fcvts (w : RWord) (ctl : W32) (s : State) : exec (.fcvts w ctl) s = execFcvts w ctl s := rfl
@[simp] theorem exec_bra (w : JWord) (s : State) : exec (.bra w) s = execBra w s := rfl
@[simp] theorem exec_call (w : JWord) (s : State) : exec (.call w) s = execCall w s := rfl
@[simp] theorem exec_jmpr (w : RWord) (s : State) : exec (.jmpr w) s = execJmpr w s := rfl
@[simp] theorem exec_meet (w : MJWord) (s : State) : exec (.meet w) s = execMeet w s := rfl
@[simp] theorem exec_leave (w : MJWord) (s : State) : exec (.leave w) s = execLeave w s := rfl
@[simp] theorem exec_waitm (w : MJWord) (s : State) : exec (.waitm w) s = execWaitm w s := rfl
@[simp] theorem exec_mrd (w : KWord) (s : State) : exec (.mrd w) s = execMrd w s := rfl
@[simp] theorem exec_mwr (w : KWord) (s : State) : exec (.mwr w) s = execMwr w s := rfl
@[simp] theorem exec_mand (w : KWord) (s : State) : exec (.mand w) s = execMand w s := rfl
@[simp] theorem exec_mor (w : KWord) (s : State) : exec (.mor w) s = execMor w s := rfl
@[simp] theorem exec_mcnt (w : KWord) (s : State) : exec (.mcnt w) s = execMcnt w s := rfl
@[simp] theorem exec_exit (w : RWord) (s : State) : exec (.exit w) s = execExit w s := rfl
@[simp] theorem exec_shfli (w : RWord) (s : State) : exec (.shfli w) s = execShfli w s := rfl
@[simp] theorem exec_shflu (w : RWord) (s : State) : exec (.shflu w) s = execShflu w s := rfl
@[simp] theorem exec_shfld (w : RWord) (s : State) : exec (.shfld w) s = execShfld w s := rfl
@[simp] theorem exec_shflx (w : RWord) (s : State) : exec (.shflx w) s = execShflx w s := rfl
@[simp] theorem exec_voteAll (w : SWord) (s : State) : exec (.voteAll w) s = execVoteAll w s := rfl
@[simp] theorem exec_voteAny (w : SWord) (s : State) : exec (.voteAny w) s = execVoteAny w s := rfl
@[simp] theorem exec_voteBallot (w : SWord) (s : State) : exec (.voteBallot w) s = execVoteBallot w s := rfl
@[simp] theorem exec_reduxAdd (w : SWord) (s : State) : exec (.reduxAdd w) s = execReduxAdd w s := rfl
@[simp] theorem exec_reduxMin (w : SWord) (s : State) : exec (.reduxMin w) s = execReduxMin w s := rfl
@[simp] theorem exec_reduxMax (w : SWord) (s : State) : exec (.reduxMax w) s = execReduxMax w s := rfl
@[simp] theorem exec_reduxAnd (w : SWord) (s : State) : exec (.reduxAnd w) s = execReduxAnd w s := rfl
@[simp] theorem exec_reduxOr (w : SWord) (s : State) : exec (.reduxOr w) s = execReduxOr w s := rfl
@[simp] theorem exec_reduxXor (w : SWord) (s : State) : exec (.reduxXor w) s = execReduxXor w s := rfl
@[simp] theorem exec_reduxMinu (w : SWord) (s : State) : exec (.reduxMinu w) s = execReduxMinu w s := rfl
@[simp] theorem exec_reduxMaxu (w : SWord) (s : State) : exec (.reduxMaxu w) s = execReduxMaxu w s := rfl
@[simp] theorem exec_elect (w : RWord) (s : State) : exec (.elect w) s = execElect w s := rfl
@[simp] theorem exec_qpopp (w : SWord) (s : State) : exec (.qpopp w) s = execQpopp w s := rfl
@[simp] theorem exec_qpeek (w : SWord) (s : State) : exec (.qpeek w) s = execQpeek w s := rfl
@[simp] theorem exec_qlevel (w : SWord) (s : State) : exec (.qlevel w) s = execQlevel w s := rfl
@[simp] theorem exec_qflush (w : SWord) (s : State) : exec (.qflush w) s = execQflush w s := rfl
@[simp] theorem exec_qclose (w : SWord) (s : State) : exec (.qclose w) s = execQclose w s := rfl
@[simp] theorem exec_ld (w : RWord) (ctl : W32) (s : State) : exec (.ld w ctl) s = execLd w ctl s := rfl
@[simp] theorem exec_st (w : RWord) (ctl : W32) (s : State) : exec (.st w ctl) s = execSt w ctl s := rfl
@[simp] theorem exec_lds (w : RWord) (ctl : W32) (s : State) : exec (.lds w ctl) s = execLds w ctl s := rfl
@[simp] theorem exec_sts (w : RWord) (ctl : W32) (s : State) : exec (.sts w ctl) s = execSts w ctl s := rfl
@[simp] theorem exec_atom (w : RWord) (ctl : W32) (s : State) : exec (.atom w ctl) s = execAtom w ctl s := rfl
@[simp] theorem exec_atoms (w : RWord) (ctl : W32) (s : State) : exec (.atoms w ctl) s = execAtoms w ctl s := rfl
@[simp] theorem exec_fence (w : KWord) (s : State) : exec (.fence w) s = execFence w s := rfl
@[simp] theorem exec_acq (w : KWord) (s : State) : exec (.acq w) s = execAcq w s := rfl
@[simp] theorem exec_rel (w : KWord) (s : State) : exec (.rel w) s = execRel w s := rfl
@[simp] theorem exec_waita (w : RWord) (ctl : W32) (s : State) : exec (.waita w ctl) s = execWaita w ctl s := rfl
@[simp] theorem exec_cinv (w : CWord) (ctl : W32) (s : State) : exec (.cinv w ctl) s = execCinv w ctl s := rfl
@[simp] theorem exec_cwb (w : CWord) (ctl : W32) (s : State) : exec (.cwb w ctl) s = execCwb w ctl s := rfl
@[simp] theorem exec_cpf (w : CWord) (ctl : W32) (s : State) : exec (.cpf w ctl) s = execCpf w ctl s := rfl
@[simp] theorem exec_czero (w : CWord) (ctl : W32) (s : State) : exec (.czero w ctl) s = execCzero w ctl s := rfl
@[simp] theorem exec_cpart (w : CWord) (ctl : W32) (s : State) : exec (.cpart w ctl) s = execCpart w ctl s := rfl
@[simp] theorem exec_copy (w : XCWord) (ctl : W32) (s : State) : exec (.copy w ctl) s = execCopy w ctl s := rfl
@[simp] theorem exec_mxma (w : XWord) (ctl : W32) (s : State) : exec (.mxma w ctl) s = execMxma w ctl s := rfl
@[simp] theorem exec_mxld (w : XWord) (ctl : W32) (s : State) : exec (.mxld w ctl) s = execMxld w ctl s := rfl
@[simp] theorem exec_mxst (w : XWord) (ctl : W32) (s : State) : exec (.mxst w ctl) s = execMxst w ctl s := rfl
@[simp] theorem exec_mxz (w : XWord) (ctl : W32) (s : State) : exec (.mxz w ctl) s = execMxz w ctl s := rfl
@[simp] theorem exec_ofence (w : XWord) (ctl : W32) (s : State) : exec (.ofence w ctl) s = execOfence w ctl s := rfl
@[simp] theorem exec_twany (w : SWord) (s : State) : exec (.twany w) s = execTwany w s := rfl
@[simp] theorem exec_twall (w : SWord) (s : State) : exec (.twall w) s = execTwall w s := rfl
@[simp] theorem exec_tffr (w : SWord) (s : State) : exec (.tffr w) s = execTffr w s := rfl
@[simp] theorem exec_tclr (w : SWord) (s : State) : exec (.tclr w) s = execTclr w s := rfl
@[simp] theorem exec_ttest (w : SWord) (s : State) : exec (.ttest w) s = execTtest w s := rfl
@[simp] theorem exec_rput (w : XWord) (ctl : W32) (s : State) : exec (.rput w ctl) s = execRput w ctl s := rfl
@[simp] theorem exec_rget (w : XWord) (ctl : W32) (s : State) : exec (.rget w ctl) s = execRget w ctl s := rfl
@[simp] theorem exec_ratom (w : XWord) (ctl : W32) (s : State) : exec (.ratom w ctl) s = execRatom w ctl s := rfl
@[simp] theorem exec_npost (w : XWord) (ctl : W32) (s : State) : exec (.npost w ctl) s = execNpost w ctl s := rfl
@[simp] theorem exec_nflush (w : XWord) (ctl : W32) (s : State) : exec (.nflush w ctl) s = execNflush w ctl s := rfl
@[simp] theorem exec_lgrid (w : XWord) (ctl : W32) (s : State) : exec (.lgrid w ctl) s = execLgrid w ctl s := rfl
@[simp] theorem exec_etrig (w : XWord) (ctl : W32) (s : State) : exec (.etrig w ctl) s = execEtrig w ctl s := rfl
@[simp] theorem exec_dist (w : XWord) (ctl : W32) (s : State) : exec (.dist w ctl) s = execDist w ctl s := rfl
@[simp] theorem exec_bar (w : SWord) (s : State) : exec (.bar w) s = execBar w s := rfl
@[simp] theorem exec_bara (w : SWord) (s : State) : exec (.bara w) s = execBara w s := rfl
@[simp] theorem exec_barw (w : SWord) (s : State) : exec (.barw w) s = execBarw w s := rfl
@[simp] theorem exec_fbar (w : SWord) (s : State) : exec (.fbar w) s = execFbar w s := rfl
@[simp] theorem exec_cwait (w : SWord) (s : State) : exec (.cwait w) s = execCwait w s := rfl
@[simp] theorem exec_trap (w : SWord) (s : State) : exec (.trap w) s = execTrap w s := rfl
@[simp] theorem exec_yield (w : SWord) (s : State) : exec (.yield w) s = execYield w s := rfl
@[simp] theorem exec_time (w : SWord) (s : State) : exec (.time w) s = execTime w s := rfl
@[simp] theorem exec_sleep (w : SWord) (s : State) : exec (.sleep w) s = execSleep w s := rfl
@[simp] theorem exec_bkpt (w : SWord) (s : State) : exec (.bkpt w) s = execBkpt w s := rfl
@[simp] theorem exec_runIssue (core : Nat) (slice : Slice) (s : State) : exec (.runIssue core slice) s = execRunIssue core slice s := rfl
@[simp] theorem exec_droverSwap (core : Nat) (slice : Slice) (s : State) : exec (.droverSwap core slice) s = execDroverSwap core slice s := rfl
@[simp] theorem exec_pendingLongWait (core : Nat) (slice : Slice) (s : State) : exec (.pendingLongWait core slice) s = execPendingLongWait core slice s := rfl
@[simp] theorem exec_groupPlace (m : Nat) (s : State) : exec (.groupPlace m) s = execGroupPlace m s := rfl
@[simp] theorem exec_gridDependencyMet (m : Nat) (grid : Nat) (s : State) : exec (.gridDependencyMet m grid) s = execGridDependencyMet m grid s := rfl
@[simp] theorem exec_priorityAging (m : Nat) (region : Nat) (s : State) : exec (.priorityAging m region) s = execPriorityAging m region s := rfl
@[simp] theorem exec_decoupleDeadlock (gid : Nat) (warp : Nat) (s : State) : exec (.decoupleDeadlock gid warp) s = execDecoupleDeadlock gid warp s := rfl
@[simp] theorem exec_loadLanding (op : Nat) (s : State) : exec (.loadLanding op) s = execLoadLanding op s := rfl
@[simp] theorem exec_atomicLanding (op : Nat) (s : State) : exec (.atomicLanding op) s = execAtomicLanding op s := rfl
@[simp] theorem exec_storeAck (op : Nat) (s : State) : exec (.storeAck op) s = execStoreAck op s := rfl
@[simp] theorem exec_homeAccess (op : Nat) (s : State) : exec (.homeAccess op) s = execHomeAccess op s := rfl
@[simp] theorem exec_translationWalk (op : Nat) (s : State) : exec (.translationWalk op) s = execTranslationWalk op s := rfl
@[simp] theorem exec_divisionLanding (op : Nat) (s : State) : exec (.divisionLanding op) s = execDivisionLanding op s := rfl
@[simp] theorem exec_specialFunctionLanding (op : Nat) (s : State) : exec (.specialFunctionLanding op) s = execSpecialFunctionLanding op s := rfl
@[simp] theorem exec_mxOperationComplete (core : Nat) (s : State) : exec (.mxOperationComplete core) s = execMxOperationComplete core s := rfl
@[simp] theorem exec_copyComplete (core : Nat) (s : State) : exec (.copyComplete core) s = execCopyComplete core s := rfl
@[simp] theorem exec_workRequestSend (ret : Nat) (queue : Nat) (s : State) : exec (.workRequestSend ret queue) s = execWorkRequestSend ret queue s := rfl
@[simp] theorem exec_sendCompletion (op : Nat) (s : State) : exec (.sendCompletion op) s = execSendCompletion op s := rfl
@[simp] theorem exec_readLanded (op : Nat) (s : State) : exec (.readLanded op) s = execReadLanded op s := rfl
@[simp] theorem exec_nflushComplete (op : Nat) (s : State) : exec (.nflushComplete op) s = execNflushComplete op s := rfl
@[simp] theorem exec_putPacketPlaced (pkt : Nat) (s : State) : exec (.putPacketPlaced pkt) s = execPutPacketPlaced pkt s := rfl
@[simp] theorem exec_lgridResult (op : Nat) (s : State) : exec (.lgridResult op) s = execLgridResult op s := rfl
@[simp] theorem exec_distResult (op : Nat) (s : State) : exec (.distResult op) s = execDistResult op s := rfl
@[simp] theorem exec_errorReturn (op : Nat) (s : State) : exec (.errorReturn op) s = execErrorReturn op s := rfl
@[simp] theorem exec_waitaWake (gid : Nat) (warp : Nat) (slice : Slice) (s : State) : exec (.waitaWake gid warp slice) s = execWaitaWake gid warp slice s := rfl
@[simp] theorem exec_waitaTimeout (gid : Nat) (warp : Nat) (slice : Slice) (s : State) : exec (.waitaTimeout gid warp slice) s = execWaitaTimeout gid warp slice s := rfl
@[simp] theorem exec_sleepExpiry (gid : Nat) (warp : Nat) (slice : Slice) (s : State) : exec (.sleepExpiry gid warp slice) s = execSleepExpiry gid warp slice s := rfl
@[simp] theorem exec_cwaitReturn (gid : Nat) (warp : Nat) (slice : Slice) (s : State) : exec (.cwaitReturn gid warp slice) s = execCwaitReturn gid warp slice s := rfl
@[simp] theorem exec_cpartComplete (ret : Nat) (s : State) : exec (.cpartComplete ret) s = execCpartComplete ret s := rfl
@[simp] theorem exec_pdlcExpiry (gid : Nat) (s : State) : exec (.pdlcExpiry gid) s = execPdlcExpiry gid s := rfl
@[simp] theorem exec_drainTimeout (gid : Nat) (s : State) : exec (.drainTimeout gid) s = execDrainTimeout gid s := rfl
@[simp] theorem exec_saveComplete (gid : Nat) (s : State) : exec (.saveComplete gid) s = execSaveComplete gid s := rfl
@[simp] theorem exec_handlerFinish (m : Nat) (grid : Nat) (s : State) : exec (.handlerFinish m grid) s = execHandlerFinish m grid s := rfl
@[simp] theorem exec_groupResume (m : Nat) (gid : Nat) (s : State) : exec (.groupResume m gid) s = execGroupResume m gid s := rfl
@[simp] theorem exec_stagedCommit (m : Nat) (grid : Nat) (s : State) : exec (.stagedCommit m grid) s = execStagedCommit m grid s := rfl
@[simp] theorem exec_launch (m : Nat) (root : Nat) (queue : Nat) (s : State) : exec (.launch m root queue) s = execLaunch m root queue s := rfl
@[simp] theorem exec_regionCreate (m : Nat) (root : Nat) (queue : Nat) (s : State) : exec (.regionCreate m root queue) s = execRegionCreate m root queue s := rfl
@[simp] theorem exec_regionModify (m : Nat) (root : Nat) (queue : Nat) (s : State) : exec (.regionModify m root queue) s = execRegionModify m root queue s := rfl
@[simp] theorem exec_regionDestroy (m : Nat) (root : Nat) (queue : Nat) (s : State) : exec (.regionDestroy m root queue) s = execRegionDestroy m root queue s := rfl
@[simp] theorem exec_topo (m : Nat) (root : Nat) (queue : Nat) (s : State) : exec (.topo m root queue) s = execTopo m root queue s := rfl
@[simp] theorem exec_drain (m : Nat) (root : Nat) (queue : Nat) (s : State) : exec (.drain m root queue) s = execDrain m root queue s := rfl
@[simp] theorem exec_ckpt (m : Nat) (root : Nat) (queue : Nat) (s : State) : exec (.ckpt m root queue) s = execCkpt m root queue s := rfl
@[simp] theorem exec_keyload (m : Nat) (root : Nat) (queue : Nat) (s : State) : exec (.keyload m root queue) s = execKeyload m root queue s := rfl
@[simp] theorem exec_timesync (m : Nat) (root : Nat) (queue : Nat) (s : State) : exec (.timesync m root queue) s = execTimesync m root queue s := rfl
@[simp] theorem exec_event (m : Nat) (root : Nat) (queue : Nat) (s : State) : exec (.event m root queue) s = execEvent m root queue s := rfl
@[simp] theorem exec_eventFinish (m : Nat) (root : Nat) (queue : Nat) (s : State) : exec (.eventFinish m root queue) s = execEventFinish m root queue s := rfl
@[simp] theorem exec_doorbellWrite (m : Nat) (door : Nat) (pidx : W32) (s : State) : exec (.doorbellWrite m door pidx) s = execDoorbellWrite m door pidx s := rfl
@[simp] theorem exec_coreCounterWrite (core : Nat) (idx : Nat) (value : W64) (s : State) : exec (.coreCounterWrite core idx value) s = execCoreCounterWrite core idx value s := rfl
@[simp] theorem exec_registerWrite (ret : Nat) (loc : Nat) (size : Nat) (value : BitVec 256) (s : State) : exec (.registerWrite ret loc size value) s = execRegisterWrite ret loc size value s := rfl
@[simp] theorem exec_endpointTableWrite (ret : Nat) (queue : Nat) (value : W32) (s : State) : exec (.endpointTableWrite ret queue value) s = execEndpointTableWrite ret queue value s := rfl
@[simp] theorem exec_peerDescriptorWrite (ret : Nat) (peer : Nat) (value : BitVec 256) (s : State) : exec (.peerDescriptorWrite ret peer value) s = execPeerDescriptorWrite ret peer value s := rfl
@[simp] theorem exec_barrierTreeWrite (ret : Nat) (tree : Nat) (value : BitVec 128) (s : State) : exec (.barrierTreeWrite ret tree value) s = execBarrierTreeWrite ret tree value s := rfl
@[simp] theorem exec_errorPolicyWrite (m : Nat) (idx : Nat) (value : BitVec 128) (s : State) : exec (.errorPolicyWrite m idx value) s = execErrorPolicyWrite m idx value s := rfl
@[simp] theorem exec_wpartWrite (ret : Nat) (ways : Nat) (s : State) : exec (.wpartWrite ret ways) s = execWpartWrite ret ways s := rfl
@[simp] theorem exec_readIdentity (m : Nat) (s : State) : exec (.readIdentity m) s = execReadIdentity m s := rfl
@[simp] theorem exec_writeModid (m : Nat) (modid : Nat) (s : State) : exec (.writeModid m modid) s = execWriteModid m modid s := rfl
@[simp] theorem exec_extendMeasurement (ret : Nat) (idx : Nat) (value : BitVec 256) (s : State) : exec (.extendMeasurement ret idx value) s = execExtendMeasurement ret idx value s := rfl
@[simp] theorem exec_attestationRequest (ret : Nat) (nonce : BitVec 256) (s : State) : exec (.attestationRequest ret nonce) s = execAttestationRequest ret nonce s := rfl
@[simp] theorem exec_loadKey (m : Nat) (key : Nat) (image : List Byte) (s : State) : exec (.loadKey m key image) s = execLoadKey m key image s := rfl
@[simp] theorem exec_createRoot (m : Nat) (image : List Byte) (s : State) : exec (.createRoot m image) s = execCreateRoot m image s := rfl
@[simp] theorem exec_destroyRoot (m : Nat) (root : Nat) (s : State) : exec (.destroyRoot m root) s = execDestroyRoot m root s := rfl
@[simp] theorem exec_restartQueue (m : Nat) (root : Nat) (queue : Nat) (pidx : W32) (s : State) : exec (.restartQueue m root queue pidx) s = execRestartQueue m root queue pidx s := rfl
@[simp] theorem exec_debugHalt (m : Nat) (gid : Nat) (s : State) : exec (.debugHalt m gid) s = execDebugHalt m gid s := rfl
@[simp] theorem exec_debugReadImage (m : Nat) (gid : Nat) (offset : Nat) (len : Nat) (s : State) : exec (.debugReadImage m gid offset len) s = execDebugReadImage m gid offset len s := rfl
@[simp] theorem exec_debugWriteImage (m : Nat) (gid : Nat) (offset : Nat) (data : List Byte) (s : State) : exec (.debugWriteImage m gid offset data) s = execDebugWriteImage m gid offset data s := rfl
@[simp] theorem exec_debugResume (m : Nat) (gid : Nat) (s : State) : exec (.debugResume m gid) s = execDebugResume m gid s := rfl
@[simp] theorem exec_debugDiscard (m : Nat) (gid : Nat) (s : State) : exec (.debugDiscard m gid) s = execDebugDiscard m gid s := rfl
@[simp] theorem exec_debugAttach (m : Nat) (root : Nat) (s : State) : exec (.debugAttach m root) s = execDebugAttach m root s := rfl
@[simp] theorem exec_hostRmaWrite (m : Nat) (pa : Nat) (key : Nat) (data : List Byte) (s : State) : exec (.hostRmaWrite m pa key data) s = execHostRmaWrite m pa key data s := rfl
@[simp] theorem exec_hostRmaRead (m : Nat) (pa : Nat) (key : Nat) (len : Nat) (s : State) : exec (.hostRmaRead m pa key len) s = execHostRmaRead m pa key len s := rfl
@[simp] theorem exec_coldReset (m : Nat) (s : State) : exec (.coldReset m) s = execColdReset m s := rfl
@[simp] theorem exec_commandProcessorTakeover (m : Nat) (s : State) : exec (.commandProcessorTakeover m) s = execCommandProcessorTakeover m s := rfl
@[simp] theorem exec_powerAlarmRaise (ret : Nat) (s : State) : exec (.powerAlarmRaise ret) s = execPowerAlarmRaise ret s := rfl
@[simp] theorem exec_powerHold (ret : Nat) (s : State) : exec (.powerHold ret) s = execPowerHold ret s := rfl
@[simp] theorem exec_powerHoldRelease (ret : Nat) (s : State) : exec (.powerHoldRelease ret) s = execPowerHoldRelease ret s := rfl
@[simp] theorem exec_powerAlarmClear (ret : Nat) (s : State) : exec (.powerAlarmClear ret) s = execPowerAlarmClear ret s := rfl
@[simp] theorem exec_heartbeat (ret : Nat) (sender : Nat) (isCore : Bool) (s : State) : exec (.heartbeat ret sender isCore) s = execHeartbeat ret sender isCore s := rfl
@[simp] theorem exec_heartbeatMiss (ret : Nat) (sender : Nat) (isCore : Bool) (majority : Bool) (s : State) : exec (.heartbeatMiss ret sender isCore majority) s = execHeartbeatMiss ret sender isCore majority s := rfl
@[simp] theorem exec_failureNotice (ret : Nat) (pkt : Nat) (s : State) : exec (.failureNotice ret pkt) s = execFailureNotice ret pkt s := rfl
@[simp] theorem exec_laneSelfTest (core : Nat) (failing : W32) (s : State) : exec (.laneSelfTest core failing) s = execLaneSelfTest core failing s := rfl
@[simp] theorem exec_foldMigration (ret : Nat) (fold : Nat) (spare : Nat) (s : State) : exec (.foldMigration ret fold spare) s = execFoldMigration ret fold spare s := rfl
@[simp] theorem exec_siteRetire (m : Nat) (ret : Nat) (spare : Nat) (s : State) : exec (.siteRetire m ret spare) s = execSiteRetire m ret spare s := rfl
@[simp] theorem exec_shootdown (m : Nat) (root : Nat) (va : Nat) (size : Nat) (s : State) : exec (.shootdown m root va size) s = execShootdown m root va size s := rfl
@[simp] theorem exec_timesyncExchange (m : Nat) (offset : Int) (rtt : Nat) (s : State) : exec (.timesyncExchange m offset rtt) s = execTimesyncExchange m offset rtt s := rfl
@[simp] theorem exec_timesyncMiss (m : Nat) (s : State) : exec (.timesyncMiss m) s = execTimesyncMiss m s := rfl
@[simp] theorem exec_orderedPacketArrival (ret : Nat) (port : Nat) (pkt : Nat) (s : State) : exec (.orderedPacketArrival ret port pkt) s = execOrderedPacketArrival ret port pkt s := rfl
@[simp] theorem exec_orderedDelivery (ret : Nat) (s : State) : exec (.orderedDelivery ret) s = execOrderedDelivery ret s := rfl
@[simp] theorem exec_beaconSend (ret : Nat) (port : Nat) (s : State) : exec (.beaconSend ret port) s = execBeaconSend ret port s := rfl
@[simp] theorem exec_beaconReceive (ret : Nat) (port : Nat) (stamp : W64) (s : State) : exec (.beaconReceive ret port stamp) s = execBeaconReceive ret port stamp s := rfl
@[simp] theorem exec_watermarkStall (ret : Nat) (port : Nat) (s : State) : exec (.watermarkStall ret port) s = execWatermarkStall ret port s := rfl
@[simp] theorem exec_portCut (ret : Nat) (port : Nat) (s : State) : exec (.portCut ret port) s = execPortCut ret port s := rfl
@[simp] theorem exec_topologyCutover (ret : Nat) (s : State) : exec (.topologyCutover ret) s = execTopologyCutover ret s := rfl
@[simp] theorem exec_fbarArrival (pkt : Nat) (s : State) : exec (.fbarArrival pkt) s = execFbarArrival pkt s := rfl
@[simp] theorem exec_fbarRelease (pkt : Nat) (s : State) : exec (.fbarRelease pkt) s = execFbarRelease pkt s := rfl
@[simp] theorem exec_barrierLost (ret : Nat) (tree : Nat) (s : State) : exec (.barrierLost ret tree) s = execBarrierLost ret tree s := rfl
@[simp] theorem exec_flitReceive (ret : Nat) (port : Nat) (seq : Nat) (crcOk : Bool) (s : State) : exec (.flitReceive ret port seq crcOk) s = execFlitReceive ret port seq crcOk s := rfl
@[simp] theorem exec_meshPortDown (ret : Nat) (port : Nat) (s : State) : exec (.meshPortDown ret port) s = execMeshPortDown ret port s := rfl
@[simp] theorem exec_noRouteTimeout (pkt : Nat) (s : State) : exec (.noRouteTimeout pkt) s = execNoRouteTimeout pkt s := rfl
@[simp] theorem exec_routeSample (ret : Nat) (s : State) : exec (.routeSample ret) s = execRouteSample ret s := rfl
@[simp] theorem exec_planeStop (ret : Nat) (s : State) : exec (.planeStop ret) s = execPlaneStop ret s := rfl
@[simp] theorem exec_waitack (ret : Nat) (s : State) : exec (.waitack ret) s = execWaitack ret s := rfl
@[simp] theorem exec_retune (ret : Nat) (s : State) : exec (.retune ret) s = execRetune ret s := rfl
@[simp] theorem exec_waitlock (ret : Nat) (s : State) : exec (.waitlock ret) s = execWaitlock ret s := rfl
@[simp] theorem exec_waitlockTimeout (ret : Nat) (s : State) : exec (.waitlockTimeout ret) s = execWaitlockTimeout ret s := rfl
@[simp] theorem exec_planeResume (ret : Nat) (s : State) : exec (.planeResume ret) s = execPlaneResume ret s := rfl
@[simp] theorem exec_planeDown (ret : Nat) (s : State) : exec (.planeDown ret) s = execPlaneDown ret s := rfl
@[simp] theorem exec_ringLockLoss (ret : Nat) (ring : Nat) (s : State) : exec (.ringLockLoss ret ring) s = execRingLockLoss ret ring s := rfl
@[simp] theorem exec_ringLockReturn (ret : Nat) (ring : Nat) (s : State) : exec (.ringLockReturn ret ring) s = execRingLockReturn ret ring s := rfl
@[simp] theorem exec_ringLockTimeout (ret : Nat) (ring : Nat) (s : State) : exec (.ringLockTimeout ret ring) s = execRingLockTimeout ret ring s := rfl
@[simp] theorem exec_heaterEndOfRange (ret : Nat) (ring : Nat) (s : State) : exec (.heaterEndOfRange ret ring) s = execHeaterEndOfRange ret ring s := rfl
@[simp] theorem exec_cartridgeInsert (ret : Nat) (romOk : Bool) (s : State) : exec (.cartridgeInsert ret romOk) s = execCartridgeInsert ret romOk s := rfl
@[simp] theorem exec_cartridgeLockCheck (ret : Nat) (s : State) : exec (.cartridgeLockCheck ret) s = execCartridgeLockCheck ret s := rfl
@[simp] theorem exec_cartridgeQuiesce (ret : Nat) (s : State) : exec (.cartridgeQuiesce ret) s = execCartridgeQuiesce ret s := rfl
@[simp] theorem exec_cartridgeRemoval (ret : Nat) (s : State) : exec (.cartridgeRemoval ret) s = execCartridgeRemoval ret s := rfl
@[simp] theorem exec_cartridgePowerUp (ret : Nat) (s : State) : exec (.cartridgePowerUp ret) s = execCartridgePowerUp ret s := rfl
@[simp] theorem exec_uePeerRequest (ret : Nat) (peer : Nat) (job : Nat) (kind : Nat) (addr : Nat) (len : Nat) (data : List Byte) (imm : W32) (aop : Nat) (operand : W64) (compare : W64) (s : State) : exec (.uePeerRequest ret peer job kind addr len data imm aop operand compare) s = execUePeerRequest ret peer job kind addr len data imm aop operand compare s := rfl
@[simp] theorem exec_ueSelectiveAck (ret : Nat) (peer : Nat) (acked : List Nat) (s : State) : exec (.ueSelectiveAck ret peer acked) s = execUeSelectiveAck ret peer acked s := rfl
@[simp] theorem exec_ueRetransmitTimeout (ret : Nat) (peer : Nat) (seq : Nat) (s : State) : exec (.ueRetransmitTimeout ret peer seq) s = execUeRetransmitTimeout ret peer seq s := rfl
@[simp] theorem exec_ueEcnEcho (ret : Nat) (peer : Nat) (s : State) : exec (.ueEcnEcho ret peer) s = execUeEcnEcho ret peer s := rfl
@[simp] theorem exec_hostPortLinkDown (m : Nat) (s : State) : exec (.hostPortLinkDown m) s = execHostPortLinkDown m s := rfl
@[simp] theorem exec_hostPortLinkUp (m : Nat) (s : State) : exec (.hostPortLinkUp m) s = execHostPortLinkUp m s := rfl

end Sys2Proof.Machine
end

