-- ==== Sys2Proof/Laws/Memory.lean ====
section
/-! SUPPORT. Memory: what a store reads as, what it leaves, and the canonical form that every operation over memory keeps. -/

namespace Sys2Proof.Laws

open Sys2Proof Sys2Proof.Machine

/-- The byte stored reads back, and every other byte reads as before. -/
theorem cellGet_cellPut (m : List Host.Cell) (a b : Nat) (v : Byte) : cellGet (cellPut m a v) b = if b = a then v else cellGet m b := by
  have del : ∀ m : List Host.Cell, cellGet (cellDel m a) b = if b = a then 0 else cellGet m b := by
    intro m
    induction m with
    | nil => simp [cellDel, cellGet]
    | cons e m ih =>
      obtain ⟨k, x⟩ := e
      unfold cellDel
      split_ifs at ih ⊢ with h1 h2 h3
      · exact ih
      · rw [ih, cellGet, if_neg (by omega)]
      · rw [cellGet, if_neg (by omega), ih]
      · rw [cellGet, cellGet, ih]
  have ins : ∀ m : List Host.Cell, cellGet (cellIns m a v) b = if b = a then v else cellGet m b := by
    intro m
    induction m with
    | nil => by_cases h : b = a <;> simp [cellIns, cellGet, h]
    | cons e m ih =>
      obtain ⟨k, x⟩ := e
      unfold cellIns
      by_cases hb : b = a
      · subst hb
        rw [if_pos rfl] at ih ⊢
        split_ifs with h1 h2
        · rw [cellGet, if_pos rfl]
        · rw [cellGet, if_pos rfl]
        · rw [cellGet, if_neg h1, ih]
      · rw [if_neg hb] at ih ⊢
        split_ifs with h1 h2
        · rw [cellGet, if_neg hb, cellGet, if_neg (by omega)]
        · rw [cellGet, if_neg hb]
        · rw [cellGet, ih, cellGet]
  unfold cellPut
  by_cases h : v = 0
  · rw [if_pos h, del, h]
  · rw [if_neg h, ins]

theorem wf_one (k : Nat) (x : Byte) : Memory.wf [(k, x)] = true ↔ x ≠ 0 := by rw [Memory.wf, bne_iff_ne]

theorem wf_two (j k : Nat) (y x : Byte) (m : List Host.Cell) :
    Memory.wf ((j, y) :: (k, x) :: m) = true ↔ y ≠ 0 ∧ j < k ∧ Memory.wf ((k, x) :: m) = true := by
  rw [Memory.wf, Bool.and_eq_true, Bool.and_eq_true, bne_iff_ne, decide_eq_true_eq, and_assoc]

theorem wf_tail {e : Host.Cell} {m : List Host.Cell} (h : Memory.wf (e :: m) = true) : Memory.wf m = true := by
  obtain ⟨k, x⟩ := e
  cases m with
  | nil => rfl
  | cons e m => obtain ⟨k', x'⟩ := e; exact ((wf_two k k' x x' m).1 h).2.2

theorem wf_head {k : Nat} {x : Byte} {m : List Host.Cell} (h : Memory.wf ((k, x) :: m) = true) : x ≠ 0 := by
  cases m with
  | nil => exact (wf_one k x).1 h
  | cons e m => obtain ⟨k', x'⟩ := e; exact ((wf_two k k' x x' m).1 h).1

/-- In canonical form the first address is below every other. -/
theorem wf_below {k : Nat} {x : Byte} {m : List Host.Cell} (h : Memory.wf ((k, x) :: m) = true) : ∀ e ∈ m, k < e.1 := by
  induction m generalizing k x with
  | nil => intro e he; cases he
  | cons e m ih =>
    obtain ⟨k', x'⟩ := e
    have h2 := ((wf_two k k' x x' m).1 h).2
    intro y hy
    rcases List.mem_cons.1 hy with rfl | hy
    · exact h2.1
    · exact Nat.lt_trans h2.1 (ih h2.2 y hy)

theorem wf_cons {k : Nat} {x : Byte} {m : List Host.Cell} (hx : x ≠ 0) (hm : Memory.wf m = true) (hk : ∀ e ∈ m, k < e.1) :
    Memory.wf ((k, x) :: m) = true := by
  cases m with
  | nil => exact (wf_one k x).2 hx
  | cons e m => obtain ⟨k', x'⟩ := e; exact (wf_two k k' x x' m).2 ⟨hx, hk _ List.mem_cons_self, hm⟩

/-- A selection of the entries of a memory in canonical form is in canonical form. -/
theorem wf_filter {m : List Host.Cell} (h : Memory.wf m = true) (p : Host.Cell → Bool) : Memory.wf (m.filter p) = true := by
  induction m with
  | nil => rfl
  | cons e m ih =>
    obtain ⟨k, x⟩ := e
    rw [List.filter_cons]
    split_ifs
    · exact wf_cons (wf_head h) (ih (wf_tail h)) (fun e he => wf_below h e (List.mem_filter.1 he).1)
    · exact ih (wf_tail h)

theorem cellDel_eq (m : List Host.Cell) (a : Nat) : cellDel m a = m.filter (fun e => a != e.1) := by
  induction m with
  | nil => rfl
  | cons e m ih =>
    obtain ⟨k, x⟩ := e
    unfold cellDel
    rw [List.filter_cons]
    by_cases h : a = k
    · subst h; simpa using ih
    · simp [h, ih]

theorem mem_cellIns (m : List Host.Cell) (a : Nat) (v : Byte) : ∀ e ∈ cellIns m a v, e = (a, v) ∨ e ∈ m := by
  induction m with
  | nil => intro e he; simpa [cellIns] using he
  | cons e m ih =>
    obtain ⟨k, x⟩ := e
    intro y hy
    unfold cellIns at hy
    split_ifs at hy with h1 h2
    · rcases List.mem_cons.1 hy with rfl | hy
      · exact .inl rfl
      · exact .inr (List.mem_cons_of_mem _ hy)
    · rcases List.mem_cons.1 hy with rfl | hy
      · exact .inl rfl
      · exact .inr hy
    · rcases List.mem_cons.1 hy with rfl | hy
      · exact .inr List.mem_cons_self
      · rcases ih y hy with h | h
        · exact .inl h
        · exact .inr (List.mem_cons_of_mem _ h)

/-- A store keeps the canonical form. -/
theorem wf_cellPut {m : List Host.Cell} (h : Memory.wf m = true) (a : Nat) (v : Byte) : Memory.wf (cellPut m a v) = true := by
  unfold cellPut
  split_ifs with hv
  · rw [cellDel_eq]; exact wf_filter h _
  · induction m with
    | nil => exact (wf_one a v).2 hv
    | cons e m ih =>
      obtain ⟨k, x⟩ := e
      unfold cellIns
      split_ifs with h1 h2
      · exact wf_cons hv (wf_tail h) (fun e he => by rw [h1]; exact wf_below h e he)
      · exact (wf_two a k v x m).2 ⟨hv, h2, h⟩
      · refine wf_cons (wf_head h) (ih (wf_tail h)) (fun e he => ?_)
        rcases mem_cellIns m a v e he with rfl | he
        · show k < a; omega
        · exact wf_below h e he

theorem wf_cellsPut {m : List Host.Cell} (h : Memory.wf m = true) (a : Nat) (bs : List Byte) : Memory.wf (cellsPut m a bs) = true := by
  induction bs generalizing m a with
  | nil => exact h
  | cons b bs ih => exact ih (wf_cellPut h a b) (a + 1)

/-- Bytes stored read back, and every byte outside them reads as before. -/
theorem cellGet_cellsPut (m : List Host.Cell) (a : Nat) (bs : List Byte) (b : Nat) :
    cellGet (cellsPut m a bs) b = if a ≤ b ∧ b < a + bs.length then bs.getD (b - a) 0 else cellGet m b := by
  induction bs generalizing m a with
  | nil =>
    rw [if_neg (by simp only [List.length_nil]; omega)]
    rfl
  | cons v bs ih =>
    rw [cellsPut, ih, cellGet_cellPut]
    simp only [List.length_cons]
    by_cases hb : b = a
    · subst hb
      rw [if_neg (by omega), if_pos rfl, if_pos (by omega), Nat.sub_self]
      rfl
    · by_cases hr : a + 1 ≤ b ∧ b < a + 1 + bs.length
      · rw [if_pos hr, if_pos (by omega)]
        obtain ⟨n, rfl⟩ : ∃ n, b = a + 1 + n := ⟨b - (a + 1), by omega⟩
        rw [show a + 1 + n - (a + 1) = n by omega, show a + 1 + n - a = n + 1 by omega]
        rfl
      · rw [if_neg hr, if_neg hb, if_neg (by omega)]

/-- What keeps the canonical form of memory. -/
def KeepsWf (s t : State) : Prop := Memory.wf s.mem = true → Memory.wf t.mem = true

theorem keepsWf_of_mem {s t : State} (h : t.mem = s.mem) : KeepsWf s t := fun w => by rw [h]; exact w
theorem KeepsWf.trans {s t u : State} (h : KeepsWf s t) (g : KeepsWf t u) : KeepsWf s u := fun w => g (h w)

theorem keepsWf_foldl {α : Type} (f : State → α → State) (hf : ∀ s a, KeepsWf s (f s a)) (l : List α) (s : State) : KeepsWf s (l.foldl f s) := by
  induction l generalizing s with
  | nil => exact fun w => w
  | cons a l ih => exact (hf s a).trans (ih (f s a))

theorem keepsWf_writeRaw (s : State) (a : Nat) (bs : List Byte) : KeepsWf s (writeRaw s a bs) := fun w => wf_cellsPut w a bs

theorem keepsWf_rekeySector (s : State) (id sec : Nat) : KeepsWf s (rekeySector s id sec) := by
  unfold rekeySector
  split
  · exact keepsWf_of_mem rfl
  · split
    · exact keepsWf_of_mem rfl
    · split_ifs
      · exact keepsWf_of_mem rfl
      · generalize bytesLE 32 _ = bs
        exact fun w => wf_cellsPut (m := s.mem) w _ bs

theorem mem_noteOverflow (b s : State) (sec : Nat) : (noteOverflow b s sec).mem = s.mem := by
  unfold noteOverflow
  dsimp only
  split_ifs <;> rfl

theorem mem_llcFill (line : Nat) (d : Bool) (s : State) : (llcFill line d s).mem = s.mem := by
  unfold llcFill
  dsimp only
  split_ifs <;> rfl

/-- A write under a key keeps the canonical form of memory. -/
theorem keepsWf_writeKey (s : State) (id a : Nat) (bs : List Byte) : KeepsWf s (writeKey s id a bs) := by
  obtain ⟨c, e, hc⟩ : ∃ c : State, writeKey s id a bs =
      (if isDram a then
        let secs := (unitsOf a bs.length).map (· / 32)
        let put := writeRaw (secs.foldl (fun t sec => rekeySector t id sec) c) a bs
        let put := secs.foldl (fun t sec => llcFill (sec / 4) true t) put
        secs.foldl (fun t sec => noteOverflow s t sec) put
      else writeRaw c a bs) ∧ c.mem = s.mem := ⟨_, rfl, rfl⟩
  rw [e]
  refine (keepsWf_of_mem hc).trans ?_
  split_ifs
  · dsimp only
    obtain ⟨k, hk⟩ : ∃ k, ((unitsOf a bs.length).map (· / 32)).foldl (fun t sec => rekeySector t id sec) c = k := ⟨_, rfl⟩
    have h1 : KeepsWf c k := by rw [← hk]; exact keepsWf_foldl _ (fun t sec => keepsWf_rekeySector t id sec) _ _
    rw [hk]
    refine h1.trans (KeepsWf.trans (KeepsWf.trans ?_ (keepsWf_foldl _ (fun t sec => keepsWf_of_mem (mem_llcFill (sec / 4) true t)) _ _))
      (keepsWf_foldl _ (fun t sec => keepsWf_of_mem (mem_noteOverflow s t sec)) _ _))
    exact fun w => wf_cellsPut (m := k.mem) w a bs
  · exact keepsWf_writeRaw c a bs

/-- A device agent's write keeps the canonical form of memory. -/
theorem keepsWf_writeVa {s t : State} {m root va : Nat} {bs : List Byte} (h : writeVa s m root va bs = some t) : KeepsWf s t := by
  unfold writeVa at h
  split at h
  · split_ifs at h
    cases h
    exact keepsWf_writeKey _ _ _ _
  · cases h

/-- Memory right after reset is in canonical form. -/
theorem wf_reset : Memory.wf State.reset.mem = true := rfl

end Sys2Proof.Laws
end

