-- ==== Sys2Proof/Laws/Stores.lean ====
section
/-! SUPPORT. What a write to memory leaves as it was, and what the ends of groups and grids and the records of faults leave. -/

namespace Sys2Proof.Machine

open Sys2Proof Sys2Proof.Laws

theorem onlyStores_refl (s : State) : OnlyStores s s := rfl
theorem OnlyStores.trans {s t u : State} (h : OnlyStores s t) (g : OnlyStores t u) : OnlyStores s u := Eq.trans g h

theorem onlyStores_foldl {α : Type} (f : State → α → State) (hf : ∀ s a, OnlyStores s (f s a)) (l : List α) (s : State) :
    OnlyStores s (l.foldl f s) := by
  induction l generalizing s with
  | nil => rfl
  | cons a l ih => exact (hf s a).trans (ih (f s a))

theorem onlyStores_rekeySector (s : State) (id sec : Nat) : OnlyStores s (rekeySector s id sec) := by
  unfold rekeySector
  split
  · rfl
  · split
    · rfl
    · split_ifs
      · rfl
      · generalize bytesLE 32 _ = bs
        rfl

theorem onlyStores_noteOverflow (b s : State) (sec : Nat) : OnlyStores s (noteOverflow b s sec) := by
  unfold noteOverflow
  dsimp only
  split_ifs <;> rfl

theorem onlyStores_llcFill (line : Nat) (d : Bool) (s : State) : OnlyStores s (llcFill line d s) := by
  unfold llcFill
  dsimp only
  split_ifs <;> rfl

theorem onlyStores_writeKey (s : State) (id a : Nat) (bs : List Byte) : OnlyStores s (writeKey s id a bs) := by
  obtain ⟨c, e, hc⟩ : ∃ c : State, writeKey s id a bs =
      (if isDram a then
        let secs := (unitsOf a bs.length).map (· / 32)
        let put := writeRaw (secs.foldl (fun t sec => rekeySector t id sec) c) a bs
        let put := secs.foldl (fun t sec => llcFill (sec / 4) true t) put
        secs.foldl (fun t sec => noteOverflow s t sec) put
      else writeRaw c a bs) ∧ OnlyStores s c := ⟨_, rfl, rfl⟩
  rw [e]
  refine hc.trans ?_
  split_ifs
  · dsimp only
    obtain ⟨k, hk⟩ : ∃ k, ((unitsOf a bs.length).map (· / 32)).foldl (fun t sec => rekeySector t id sec) c = k := ⟨_, rfl⟩
    have h1 : OnlyStores c k := by rw [← hk]; exact onlyStores_foldl _ (fun t sec => onlyStores_rekeySector t id sec) _ _
    rw [hk]
    have h2 : OnlyStores k (writeRaw k a bs) := rfl
    exact ((h1.trans h2).trans (onlyStores_foldl _ (fun t sec => onlyStores_llcFill (sec / 4) true t) _ _)).trans
      (onlyStores_foldl _ (fun t sec => onlyStores_noteOverflow s t sec) _ _)
  · rfl

theorem onlyStores_writeVa {s t : State} {m root va : Nat} {bs : List Byte} (h : writeVa s m root va bs = some t) : OnlyStores s t := by
  unfold writeVa at h
  split at h
  · split_ifs at h
    cases h
    exact onlyStores_writeKey _ _ _ _
  · cases h

theorem onlyStores_appendRecord (s : State) (m root frq : Nat) (bs : List Byte) : OnlyStores s (appendRecord s m root frq bs).1 := by
  unfold appendRecord
  split
  · rfl
  · extract_lets base k pidx cidx dropped used va
    clear_value base k pidx cidx dropped used va
    split_ifs
    · split
      · rename_i h; exact onlyStores_writeVa h
      · rfl
    · split
      · rfl
      · rename_i h
        split
        · rename_i g; exact (onlyStores_writeVa h).trans (onlyStores_writeVa g)
        · rfl

/-- Every field but memory and what goes with it is as it was. -/
theorem OnlyStores.field {α : Type} {s t : State} (h : OnlyStores s t) (f : State → α) (hf : ∀ x, f x.unstored = f x) : f t = f s := by
  rw [← hf t, ← hf s, h]

theorem OnlyStores.groups {s t : State} (h : OnlyStores s t) : t.groups = s.groups := h.field (·.groups) (fun _ => rfl)
theorem OnlyStores.threads {s t : State} (h : OnlyStores s t) : t.threads = s.threads := h.field (·.threads) (fun _ => rfl)
theorem OnlyStores.sws {s t : State} (h : OnlyStores s t) : t.sws = s.sws := h.field (·.sws) (fun _ => rfl)
theorem OnlyStores.queues {s t : State} (h : OnlyStores s t) : t.queues = s.queues := h.field (·.queues) (fun _ => rfl)
theorem OnlyStores.mods {s t : State} (h : OnlyStores s t) : t.mods = s.mods := h.field (·.mods) (fun _ => rfl)
theorem OnlyStores.cores {s t : State} (h : OnlyStores s t) : t.cores = s.cores := h.field (·.cores) (fun _ => rfl)
theorem OnlyStores.rets {s t : State} (h : OnlyStores s t) : t.rets = s.rets := h.field (·.rets) (fun _ => rfl)
theorem OnlyStores.flight {s t : State} (h : OnlyStores s t) : t.flight = s.flight := h.field (·.flight) (fun _ => rfl)
theorem OnlyStores.hostOut {s t : State} (h : OnlyStores s t) : t.hostOut = s.hostOut := h.field (·.hostOut) (fun _ => rfl)
theorem OnlyStores.nextId {s t : State} (h : OnlyStores s t) : t.nextId = s.nextId := h.field (·.nextId) (fun _ => rfl)

/-- A record is told to the host, and beside that only memory changes. -/
theorem postRecord_stores (m root region : Nat) (r : Record) (s : State) :
    OnlyStores { s with hostOut := s.hostOut ++ [HostMsg.record (recordBytes r)] } (postRecord m root region r s).1 := by
  unfold postRecord tell
  dsimp only
  have g : ∀ u : State, OnlyStores s u → OnlyStores { s with hostOut := s.hostOut ++ [HostMsg.record (recordBytes r)] } { u with hostOut := u.hostOut ++ [HostMsg.record (recordBytes r)] } := by
    intro u h
    rw [h.hostOut]
    exact congrArg (fun y : State => { y with hostOut := s.hostOut ++ [HostMsg.record (recordBytes r)] }) h
  refine g _ ?_
  split
  · exact onlyStores_appendRecord _ _ _ _ _
  · rfl

theorem hears_refl (s : State) : Hears s s [] := ⟨[], by simp⟩
theorem hears_of_eq {s t : State} (h : t.hostOut = s.hostOut) : Hears s t [] := ⟨[], by simp [h]⟩
theorem Hears.trans {s t u : State} {a b : List HostMsg} (h : Hears s t a) (g : Hears t u b) : Hears s u a := by
  obtain ⟨x, hx⟩ := h
  obtain ⟨y, hy⟩ := g
  exact ⟨x ++ (b ++ y), by rw [hy, hx]; simp⟩

theorem hears_foldl {α : Type} (f : State → α → State) (hf : ∀ s a, Hears s (f s a) []) (l : List α) (s : State) : Hears s (l.foldl f s) [] := by
  induction l generalizing s with
  | nil => exact hears_refl s
  | cons a l ih => exact (hf s a).trans (ih (f s a))

theorem hears_postRecord (m root region : Nat) (r : Record) (s : State) : Hears s (postRecord m root region r s).1 [HostMsg.record (recordBytes r)] :=
  ⟨[], by rw [(postRecord_stores m root region r s).hostOut]; simp⟩

end Sys2Proof.Machine
end

