-- ==== Sys2Proof/Laws/Landing.lean ====
section
/-! SUPPORT. Landing a result (spec/02 R58): what it writes, and what it leaves as it was. -/

namespace Sys2Proof.Machine

open Sys2Proof Sys2Proof.Laws

/-- What landing the lanes of a result does before it is marked as no longer awaited: Lands without its last part. -/
structure Lands0 (s t : State) (k : Nat) (dest : Dest) (n : Nat) (vals : List (Nat × Nat × Nat)) (fl : BitVec 5) : Prop where
  rest : { t with threads := s.threads, sws := s.sws, queues := s.queues, cores := s.cores, deadlock := s.deadlock
                  flight := s.flight, longs := s.longs, watches := s.watches } = s
  flight : t.flight = s.flight
  longs : t.longs = s.longs
  cores : ∀ j, (t.core j).uncounted = (s.core j).uncounted
  value : dest = .regs → (vals.map (·.1)).Nodup → ∀ v ∈ vals, ∀ j < n,
    readCode (t.thread (thKey k v.1)) (v.2.1 + j) = BitVec.ofNat 32 (v.2.2 / 2 ^ (32 * j))
  registers : ∀ l code, (dest = .regs → ∀ v ∈ vals, v.1 = l → code < v.2.1 ∨ v.2.1 + n ≤ code) →
    readCode (t.thread (thKey k l)) code = readCode (s.thread (thKey k l)) code
  uniform : ∀ u v, dest = .uni u → vals = [v] → ∀ j < n, mget (t.sw k).uni (u + j) 0 = BitVec.ofNat 32 (v.2.2 / 2 ^ (32 * j))
  unis : ∀ j, (∀ u, dest = .uni u → j < u ∨ u + n ≤ j) → mget (t.sw k).uni j 0 = mget (s.sw k).uni j 0
  fpflags : (t.sw k).fpflags = (s.sw k).fpflags ||| fl
  fence : (t.sw k).fence = (s.sw k).fence
  aside : ∀ j, (t.thread j).unlanded = (s.thread j).unlanded ∧ (t.sw j).unlanded = (s.sw j).unlanded
  others : ∀ j, ((∀ v ∈ vals, j ≠ thKey k v.1) → t.thread j = s.thread j) ∧ (j ≠ k → t.sw j = s.sw j)
  queues : (∀ q, dest ≠ .queue q) → t.queues = s.queues

theorem length_upFrom (lo n : Nat) : (upFrom lo n).length = n := by
  induction n generalizing lo with
  | zero => rfl
  | succ n ih => simp [upFrom, ih]

theorem getD_upFrom (lo n i : Nat) (h : i < n) : (upFrom lo n).getD i 0 = lo + i := by
  induction n generalizing lo i with
  | zero => omega
  | succ n ih =>
    cases i with
    | zero => rfl
    | succ i => rw [upFrom, List.getD_cons_succ, ih _ _ (by omega)]; omega

theorem length_valueWords (v n : Nat) : (valueWords v n).length = n := by simp [valueWords, length_upFrom]

theorem getD_valueWords (v n i : Nat) (h : i < n) : (valueWords v n).getD i 0 = BitVec.ofNat 32 (v / 2 ^ (32 * i)) := by
  have e := getD_upFrom 0 n i h
  rw [Nat.zero_add] at e
  rw [List.getD_eq_getElem _ _ (by simpa [length_upFrom] using h)] at e
  rw [valueWords, List.getD_eq_getElem _ _ (by simpa [length_upFrom] using h), List.getElem_map, e]

/-- Consecutive registers of one thread take words; nothing else changes. -/
theorem landRegs_spec (key reg : Nat) (ws : List W32) (s : State) :
    { landRegs key reg ws s with threads := s.threads } = s
    ∧ (∀ j, j ≠ key → (landRegs key reg ws s).thread j = s.thread j)
    ∧ (∀ j, ((landRegs key reg ws s).thread j).unlanded = (s.thread j).unlanded)
    ∧ (∀ code, readCode ((landRegs key reg ws s).thread key) code =
        if reg ≤ code ∧ code < reg + ws.length then ws.getD (code - reg) 0 else readCode (s.thread key) code) := by
  induction ws generalizing reg s with
  | nil => exact ⟨rfl, fun _ _ => rfl, fun _ => rfl, fun code => by rw [if_neg (by simp)]; rfl⟩
  | cons w ws ih =>
    have e : landRegs key reg (w :: ws) s = landRegs key (reg + 1) ws (updTh key (writeCode reg w) s) := rfl
    rw [e]
    obtain ⟨h1, h2, h3, h4⟩ := ih (reg + 1) (updTh key (writeCode reg w) s)
    refine ⟨?_, fun j hj => ?_, fun j => ?_, fun code => ?_⟩
    · have := congrArg (fun y : State => { y with threads := s.threads }) h1
      exact this
    · rw [h2 j hj, thread_updTh, if_neg hj]
    · rw [h3, thread_updTh]
      split_ifs with g
      · subst g; unfold writeCode; split_ifs <;> rfl
      · rfl
    · rw [h4, thread_updTh, if_pos rfl, readCode_writeCode]
      simp only [List.length_cons]
      by_cases hc : code = reg
      · subst hc
        rw [if_neg (by omega), if_pos rfl, if_pos (by omega), Nat.sub_self]; rfl
      · by_cases hr : reg + 1 ≤ code ∧ code < reg + 1 + ws.length
        · rw [if_pos hr, if_pos (by omega)]
          obtain ⟨n, rfl⟩ : ∃ n, code = reg + 1 + n := ⟨code - (reg + 1), by omega⟩
          rw [show reg + 1 + n - (reg + 1) = n by omega, show reg + 1 + n - reg = n + 1 by omega]
          rfl
        · rw [if_neg hr, if_neg hc, if_neg (by omega)]

/-- Consecutive uniform registers take words; nothing else changes. -/
theorem landUni_spec (k n : Nat) (ws : List W32) (s : State) :
    { landUni k n ws s with sws := s.sws } = s
    ∧ (∀ j, j ≠ k → (landUni k n ws s).sw j = s.sw j)
    ∧ (∀ j, { (landUni k n ws s).sw j with uni := [], uniPoison := [] } = { s.sw j with uni := [], uniPoison := [] })
    ∧ (∀ i, mget ((landUni k n ws s).sw k).uni i 0 = if n ≤ i ∧ i < n + ws.length then ws.getD (i - n) 0 else mget (s.sw k).uni i 0) := by
  induction ws generalizing n s with
  | nil => exact ⟨rfl, fun _ _ => rfl, fun _ => rfl, fun i => by rw [if_neg (by simp)]; rfl⟩
  | cons w ws ih =>
    have e : landUni k n (w :: ws) s = landUni k (n + 1) ws
      (updSw k (fun x => { x with uni := mput x.uni n w, uniPoison := sdel x.uniPoison n }) s) := rfl
    rw [e]
    obtain ⟨h1, h2, h3, h4⟩ := ih (n + 1) (updSw k (fun x => { x with uni := mput x.uni n w, uniPoison := sdel x.uniPoison n }) s)
    refine ⟨?_, fun j hj => ?_, fun j => ?_, fun i => ?_⟩
    · have := congrArg (fun y : State => { y with sws := s.sws }) h1
      exact this
    · rw [h2 j hj, sw_updSw, if_neg hj]
    · rw [h3 j, sw_updSw]
      split_ifs with g
      · subst g; rfl
      · rfl
    · rw [h4, sw_updSw, if_pos rfl]
      dsimp only
      rw [mget_mput]
      simp only [List.length_cons]
      by_cases hc : i = n
      · subst hc
        rw [if_neg (by omega), if_pos rfl, if_pos (by omega), Nat.sub_self]; rfl
      · by_cases hr : n + 1 ≤ i ∧ i < n + 1 + ws.length
        · rw [if_pos hr, if_pos (by omega)]
          obtain ⟨m, rfl⟩ : ∃ m, i = n + 1 + m := ⟨i - (n + 1), by omega⟩
          rw [show n + 1 + m - (n + 1) = m by omega, show n + 1 + m - n = m + 1 by omega]
          rfl
        · rw [if_neg hr, if_neg hc, if_neg (by omega)]

/-- What a queue does when a result lands in it: only queues, counters and the deadlock counter change. -/
theorem landQueue_spec (core gid warp lane q op : Nat) (es : List QEntry) (b : Bool) (s : State) :
    { landQueue core gid warp lane q op es b s with queues := s.queues, cores := s.cores, deadlock := s.deadlock, watches := s.watches } = s
    ∧ ∀ j, ((landQueue core gid warp lane q op es b s).core j).uncounted = (s.core j).uncounted := by
  unfold landQueue
  dsimp only
  split_ifs
  · exact ⟨rfl, fun _ => rfl⟩
  · obtain ⟨h1, _, h3⟩ := bumpCounter_spec core 7 1 { s with deadlock := mdel s.deadlock (pairKey gid warp) }
    exact ⟨(congrArg (fun y : State => { y with queues := s.queues, deadlock := s.deadlock }) h1 : _), fun j => h3 j⟩
  · exact ⟨rfl, fun _ => rfl⟩

theorem lands0_drop (s : State) (k n : Nat) (vals : List (Nat × Nat × Nat)) : Lands0 s s k .drop n vals 0 :=
  ⟨rfl, rfl, rfl, fun _ => rfl, fun e => (by cases e), fun _ _ _ => rfl, fun _ _ e => (by cases e), fun _ _ => rfl, by simp, rfl,
    fun _ => ⟨rfl, rfl⟩, fun _ => ⟨fun _ => rfl, fun _ => rfl⟩, fun _ => rfl⟩

/-- A result whose destination is a queue. -/
theorem lands0_queue {s u : State} (k q n : Nat)
    (g : { u with queues := s.queues, cores := s.cores, deadlock := s.deadlock, watches := s.watches } = s)
    (gc : ∀ j, (u.core j).uncounted = (s.core j).uncounted) (vals : List (Nat × Nat × Nat)) : Lands0 s u k (.queue q) n vals 0 := by
  have e1 : u.threads = s.threads := (congrArg State.threads g : _)
  have e2 : u.sws = s.sws := (congrArg State.sws g : _)
  have eth : ∀ j, u.thread j = s.thread j := fun j => by simp only [State.thread, e1]
  have esw : ∀ j, u.sw j = s.sw j := fun j => by simp only [State.sw, e2]
  refine ⟨?_, (congrArg State.flight g : _), (congrArg State.longs g : _), gc, fun e => (by cases e), fun l code _ => by rw [eth],
    fun _ _ e => (by cases e), fun j _ => by rw [esw], by rw [esw]; simp, by rw [esw], fun j => by rw [eth, esw]; exact ⟨rfl, rfl⟩,
    fun j => ⟨fun _ => eth j, fun _ => esw j⟩, fun e => absurd rfl (e q)⟩
  exact (congrArg (fun y : State => { y with threads := s.threads, sws := s.sws, queues := s.queues, cores := s.cores, deadlock := s.deadlock
                                             flight := s.flight, longs := s.longs, watches := s.watches }) g : _)

theorem queue_foldl {α : Type} (f : State → α → State)
    (hf : ∀ s a, { f s a with queues := s.queues, cores := s.cores, deadlock := s.deadlock, watches := s.watches } = s
      ∧ ∀ j, ((f s a).core j).uncounted = (s.core j).uncounted) (l : List α) (s : State) :
    { l.foldl f s with queues := s.queues, cores := s.cores, deadlock := s.deadlock, watches := s.watches } = s
    ∧ ∀ j, ((l.foldl f s).core j).uncounted = (s.core j).uncounted := by
  induction l generalizing s with
  | nil => exact ⟨rfl, fun _ => rfl⟩
  | cons a l ih =>
    refine ⟨?_, fun j => ((ih (f s a)).2 j).trans ((hf s a).2 j)⟩
    have h := congrArg (fun y : State => { y with queues := s.queues, cores := s.cores, deadlock := s.deadlock, watches := s.watches }) (ih (f s a)).1
    exact h.trans (hf s a).1

/-- A result whose destination is uniform registers. -/
theorem lands0_uni (s : State) (k u n : Nat) (vals : List (Nat × Nat × Nat)) :
    Lands0 s (vals.foldl (fun t v => landUni k u (valueWords v.2.2 n) t) s) k (.uni u) n vals 0 := by
  have all : ∀ (vals : List (Nat × Nat × Nat)) (s : State), let t := vals.foldl (fun t v => landUni k u (valueWords v.2.2 n) t) s
      { t with sws := s.sws } = s ∧ (∀ j, j ≠ k → t.sw j = s.sw j)
      ∧ (∀ j, { t.sw j with uni := [], uniPoison := [] } = { s.sw j with uni := [], uniPoison := [] })
      ∧ (∀ i, i < u ∨ u + n ≤ i → mget (t.sw k).uni i 0 = mget (s.sw k).uni i 0) := by
    intro vals
    induction vals with
    | nil => intro s; exact ⟨rfl, fun _ _ => rfl, fun _ => rfl, fun _ _ => rfl⟩
    | cons v vals ih =>
      intro s
      obtain ⟨h1, h2, h3, h4⟩ := landUni_spec k u (valueWords v.2.2 n) s
      obtain ⟨g1, g2, g3, g4⟩ := ih (landUni k u (valueWords v.2.2 n) s)
      rw [length_valueWords] at h4
      refine ⟨?_, fun j hj => (g2 j hj).trans (h2 j hj), fun j => (g3 j).trans (h3 j), fun i hi => ?_⟩
      · exact (congrArg (fun y : State => { y with sws := s.sws }) g1 : _).trans h1
      · exact (g4 i hi).trans ((h4 i).trans (if_neg (by omega)))
  obtain ⟨h1, h2, h3, h4⟩ := all vals s
  obtain ⟨t, ht⟩ : ∃ t, vals.foldl (fun t v => landUni k u (valueWords v.2.2 n) t) s = t := ⟨_, rfl⟩
  rw [ht] at h1 h2 h3 h4 ⊢
  have e1 : t.threads = s.threads := (congrArg State.threads h1 : _)
  have e2 : t.cores = s.cores := (congrArg State.cores h1 : _)
  have eth : ∀ j, t.thread j = s.thread j := fun j => by simp only [State.thread, e1]
  refine ⟨?_, (congrArg State.flight h1 : _), (congrArg State.longs h1 : _), fun j => ?_, fun e => (by cases e), fun l code _ => by rw [eth],
    fun u' v e hv j hj => ?_, fun j hj => h4 j (hj u rfl),
    by rw [show (t.sw k).fpflags = (s.sw k).fpflags from (congrArg SliceWarp.fpflags (h3 k) : _)]; simp, (congrArg SliceWarp.fence (h3 k) : _),
    fun j => ⟨by rw [eth], (congrArg SliceWarp.unlanded (h3 j) : _)⟩, fun j => ⟨fun _ => eth j, h2 j⟩,
    fun _ => (congrArg State.queues h1 : _)⟩
  · exact (congrArg (fun y : State => { y with threads := s.threads, sws := s.sws, queues := s.queues, cores := s.cores, deadlock := s.deadlock
                                               flight := s.flight, longs := s.longs, watches := s.watches }) h1 : _)
  · simp only [State.core, e2]
  · cases e
    subst hv
    have := (landUni_spec k u (valueWords v.2.2 n) s).2.2.2 (u + j)
    rw [length_valueWords, if_pos (by omega), Nat.add_sub_cancel_left, getD_valueWords _ _ _ hj] at this
    rw [← ht]
    exact this

theorem thKey_inj (k : Nat) {a b : Nat} : thKey k a = thKey k b ↔ a = b := by simp only [thKey]; omega

/-- A result whose destination is registers of each lane. -/
theorem lands0_regs (s : State) (k n : Nat) (vals : List (Nat × Nat × Nat)) :
    Lands0 s (vals.foldl (fun t v => landRegs (thKey k v.1) v.2.1 (valueWords v.2.2 n) t) s) k .regs n vals 0 := by
  have all : ∀ (vals : List (Nat × Nat × Nat)) (s : State),
      let t := vals.foldl (fun t v => landRegs (thKey k v.1) v.2.1 (valueWords v.2.2 n) t) s
      { t with threads := s.threads } = s ∧ (∀ j, (∀ v ∈ vals, j ≠ thKey k v.1) → t.thread j = s.thread j)
      ∧ (∀ j, (t.thread j).unlanded = (s.thread j).unlanded)
      ∧ (∀ l code, (∀ v ∈ vals, v.1 = l → code < v.2.1 ∨ v.2.1 + n ≤ code) →
          readCode (t.thread (thKey k l)) code = readCode (s.thread (thKey k l)) code)
      ∧ ((vals.map (·.1)).Nodup → ∀ v ∈ vals, ∀ j < n, readCode (t.thread (thKey k v.1)) (v.2.1 + j) = BitVec.ofNat 32 (v.2.2 / 2 ^ (32 * j))) := by
    intro vals
    induction vals with
    | nil => intro s; exact ⟨rfl, fun _ _ => rfl, fun _ => rfl, fun _ _ _ => rfl, fun _ v hv => absurd hv List.not_mem_nil⟩
    | cons w vals ih =>
      intro s
      obtain ⟨h1, h2, h3, h4⟩ := landRegs_spec (thKey k w.1) w.2.1 (valueWords w.2.2 n) s
      obtain ⟨g1, g2, g3, g4, g5⟩ := ih (landRegs (thKey k w.1) w.2.1 (valueWords w.2.2 n) s)
      rw [length_valueWords] at h4
      refine ⟨?_, fun j hj => ?_, fun j => (g3 j).trans (h3 j), fun l code hl => ?_, fun hd v hv j hj => ?_⟩
      · exact (congrArg (fun y : State => { y with threads := s.threads }) g1 : _).trans h1
      · exact (g2 j (fun v hv => hj v (List.mem_cons_of_mem _ hv))).trans (h2 j (hj w List.mem_cons_self))
      · refine (g4 l code (fun v hv => hl v (List.mem_cons_of_mem _ hv))).trans ?_
        by_cases hw : w.1 = l
        · subst hw
          rw [h4, if_neg]
          have := hl w List.mem_cons_self rfl
          omega
        · rw [h2 _ (fun e => hw ((thKey_inj k).1 e).symm)]
      · rw [List.map_cons, List.nodup_cons] at hd
        rcases List.mem_cons.1 hv with rfl | hv
        · refine (congrArg (readCode · (v.2.1 + j)) (g2 (thKey k v.1) (fun y hy e => hd.1 ?_))).trans ?_
          · rw [(thKey_inj k).1 e]; exact List.mem_map_of_mem hy
          · rw [h4, if_pos (by omega), Nat.add_sub_cancel_left, getD_valueWords _ _ _ hj]
        · exact g5 hd.2 v hv j hj
  obtain ⟨h1, h2, h3, h4, h5⟩ := all vals s
  obtain ⟨t, ht⟩ : ∃ t, vals.foldl (fun t v => landRegs (thKey k v.1) v.2.1 (valueWords v.2.2 n) t) s = t := ⟨_, rfl⟩
  rw [ht] at h1 h2 h3 h4 h5 ⊢
  have e1 : t.sws = s.sws := (congrArg State.sws h1 : _)
  have e2 : t.cores = s.cores := (congrArg State.cores h1 : _)
  have esw : ∀ j, t.sw j = s.sw j := fun j => by simp only [State.sw, e1]
  refine ⟨?_, (congrArg State.flight h1 : _), (congrArg State.longs h1 : _), fun j => ?_, fun _ => h5, fun l code hl => h4 l code (hl rfl),
    fun _ _ e => (by cases e), fun j _ => by rw [esw], by rw [esw]; simp, by rw [esw], fun j => ⟨h3 j, by rw [esw]⟩, fun j => ⟨h2 j, fun _ => esw j⟩,
    fun _ => (congrArg State.queues h1 : _)⟩
  · exact (congrArg (fun y : State => { y with threads := s.threads, sws := s.sws, queues := s.queues, cores := s.cores, deadlock := s.deadlock
                                               flight := s.flight, longs := s.longs, watches := s.watches }) h1 : _)
  · simp only [State.core, e2]

/-- Threads of which a property of key and thread holds change; an unlisted thread does not have it, or does not change. -/
theorem mget_mapIf {α : Type} (m : SMap α) (p : Nat → α → Prop) [∀ i x, Decidable (p i x)] (f : α → α) (d : α) (j : Nat)
    (h : p j d → f d = d) : mget (m.map (fun e => if p e.1 e.2 then (e.1, f e.2) else e)) j d = if p j (mget m j d) then f (mget m j d) else mget m j d := by
  induction m with
  | nil =>
    show d = if p j d then f d else d
    split_ifs with g
    · rw [h g]
    · rfl
  | cons e m ih =>
    obtain ⟨k, v⟩ := e
    rw [List.map_cons]
    by_cases hj : j = k
    · subst hj
      have e : mget ((j, v) :: m) j d = v := by simp [mget, mget?]
      rw [e]
      by_cases g : p j v
      · rw [if_pos g, if_pos g]; simp [mget, mget?]
      · rw [if_neg g, if_neg g]; simp [mget, mget?]
    · have e : ∀ (w : α) (n : SMap α), mget ((k, w) :: n) j d = mget n j d := by intro w n; simp [mget, mget?, hj]
      rw [e, ← ih]
      by_cases g : p k v
      · rw [if_pos g, e]
      · rw [if_neg g, e]

/-- A thread after a result is no longer awaited. -/
theorem thread_clearPending (k op j : Nat) (s : State) :
    (clearPending k op s).thread j =
      if j / 64 = k then { s.thread j with pending := (s.thread j).pending.filter (fun p => p.2 != op) } else s.thread j :=
  mget_mapIf s.threads (fun i _ => i / 64 = k) (fun th => { th with pending := th.pending.filter (fun p => p.2 != op) }) Thread.start j (fun _ => rfl)

/-- A result lands and is no longer awaited; flags may be raised on the way. -/
theorem Lands0.lands {s u t : State} {op k n : Nat} {dest : Dest} {vals : List (Nat × Nat × Nat)} {fl : BitVec 5}
    (h : Lands0 s u k dest n vals fl)
    (hv : ∀ v ∈ vals, v.1 < 64) (e : t = clearPending k op u) :
    Lands s t op k dest n vals ∧ (t.sw k).fpflags = (s.sw k).fpflags ||| fl ∧ t.flight = s.flight ∧ t.longs = s.longs := by
  subst e
  have th := thread_clearPending k op
  have rc : ∀ j code, readCode ((clearPending k op u).thread j) code = readCode (u.thread j) code := by
    intro j code; rw [th]; split_ifs <;> rfl
  have sw : ∀ j, (clearPending k op u).sw j = if j = k then { u.sw k with uniPending := (u.sw k).uniPending.filter (fun p => p.2 != op) } else u.sw j := by
    intro j
    have : (clearPending k op u).sw j = (updSw k (fun x => { x with uniPending := x.uniPending.filter (fun p => p.2 != op) }) u).sw j := rfl
    rw [this, sw_updSw]
  have uni : ∀ j, ((clearPending k op u).sw j).uni = (u.sw j).uni := by
    intro j; rw [sw]; split_ifs with g
    · rw [g]
    · rfl
  refine ⟨?_, by rw [sw, if_pos rfl]; exact h.fpflags, h.flight, h.longs⟩
  refine ⟨?_, fun j => (congrArg CoreSt.unlined (h.cores j) : _), fun hd hn v hm j hj => by rw [rc]; exact h.value hd hn v hm j hj, fun l code hl => by rw [rc]; exact h.registers l code hl,
    fun y v hd hm j hj => by rw [uni]; exact h.uniform y v hd hm j hj, fun j hj => by rw [uni]; exact h.unis j hj, fun l hl => ?_, fun j => ?_,
    fun j => ⟨fun hj => ?_, fun hj => ?_⟩, fun j => ?_, h.queues⟩
  · exact h.rest
  · rw [th, if_pos (by simp only [thKey]; omega)]
    simp [List.mem_filter]
  · rw [th, sw]
    refine ⟨?_, ?_⟩
    · rw [← (h.aside j).1]; split_ifs <;> rfl
    · rw [← (h.aside j).2]; split_ifs with g
      · rw [g]; rfl
      · rfl
  · rw [th, if_neg hj]
    exact (h.others j).1 (fun v hm e => hj (by rw [e]; simp only [thKey]; have := hv v hm; omega))
  · rw [sw, if_neg hj, (h.others j).2 hj]
  · rw [show (clearPending k op u).core j = u.core j from rfl, sw]
    refine ⟨Or.inl ?_, Or.inl (congrArg CoreSt.l1 (h.cores j) : _)⟩
    split_ifs with g
    · subst g; exact h.fence
    · rw [(h.others j).2 g]

/-- The flags of a result are raised as it lands. -/
theorem Lands0.merge {s u : State} {k n : Nat} {dest : Dest} {vals : List (Nat × Nat × Nat)} (h : Lands0 s u k dest n vals 0) (fl : BitVec 5) :
    Lands0 s (mergeFlags k fl u) k dest n vals fl := by
  have sw : ∀ j, (mergeFlags k fl u).sw j = if j = k then { u.sw k with fpflags := (u.sw k).fpflags ||| fl } else u.sw j := fun j => sw_updSw k j _ u
  have uni : ∀ j, ((mergeFlags k fl u).sw j).uni = (u.sw j).uni := by
    intro j; rw [sw]; split_ifs with g
    · rw [g]
    · rfl
  refine ⟨h.rest, h.flight, h.longs, h.cores, h.value, h.registers, fun y v hd hm j hj => by rw [uni]; exact h.uniform y v hd hm j hj,
    fun j hj => by rw [uni]; exact h.unis j hj, ?_, by rw [sw, if_pos rfl]; exact h.fence, fun j => ⟨(h.aside j).1, ?_⟩, fun j => ⟨(h.others j).1, fun hj => ?_⟩, h.queues⟩
  · have := h.fpflags
    rw [sw, if_pos rfl]
    dsimp only
    rw [this]; simp
  · rw [← (h.aside j).2, sw]
    split_ifs with g
    · rw [g]; rfl
    · rfl
  · rw [sw, if_neg hj]; exact (h.others j).2 hj

theorem groupExited_congr {s t : State} (h : ∀ j, (t.thread j).exited = (s.thread j).exited) (gid : Nat) (g : Group) :
    groupExited t gid g = groupExited s gid g := by
  unfold groupExited swExited
  simp only [h]

/-- A group some thread of which goes on does not end. -/
theorem reapGroup_stays {s : State} {gid : Nat} (h : ∀ g, mget? s.groups gid = some g → groupExited s gid g = false) : reapGroup gid s = s := by
  unfold reapGroup
  split
  · rfl
  · rename_i g hg
    rw [if_neg]
    rw [h g hg]
    simp

theorem Lands.exited {s t : State} {op k n : Nat} {dest : Dest} {vals : List (Nat × Nat × Nat)} (h : Lands s t op k dest n vals) (j : Nat) :
    (t.thread j).exited = (s.thread j).exited :=
  (congrArg Thread.exited (h.aside j).1 : _)

theorem sameMemory_of {s t : State} (hm : t.mem = s.mem) (hk : t.sectorKey = s.sectorKey) (hd : t.mods = s.mods) (hp : t.poison = s.poison) :
    SameMemory s t := ⟨fun a => by simp only [State.byte, hm], readByteKey_congr hm hk hd, hp⟩

theorem Lands.sameMemory {s t : State} {op k n : Nat} {dest : Dest} {vals : List (Nat × Nat × Nat)} (h : Lands s t op k dest n vals) : SameMemory s t :=
  sameMemory_of (congrArg State.mem h.rest : _) (congrArg State.sectorKey h.rest : _) (congrArg State.mods h.rest : _) (congrArg State.poison h.rest : _)

/-! ### Fences that end and groups that go on -/

theorem FencesEnd.refl (s : State) : FencesEnd s s :=
  ⟨rfl, fun _ => rfl, fun _ => .inl rfl, fun _ => rfl, fun _ => .inl rfl⟩

theorem FencesEnd.trans {s t u : State} (a : FencesEnd s t) (b : FencesEnd t u) : FencesEnd s u where
  rest := (congrArg (fun y : State => { y with sws := s.sws, cores := s.cores }) b.rest : _).trans a.rest
  sws k := (congrArg (fun y : SliceWarp => { y with fence := (s.sw k).fence }) (b.sws k) : _).trans (a.sws k)
  fences k := by rcases b.fences k with h | h
                 · rw [h]; exact a.fences k
                 · exact .inr h
  cores k := (congrArg (fun y : CoreSt => { y with l1 := (s.core k).l1 }) (b.cores k) : _).trans (a.cores k)
  l1 k := by rcases b.l1 k with h | h
             · rw [h]; exact a.l1 k
             · exact .inr h

/-- The end of one fence (R233, R261). -/
theorem endFence_ends (k core : Nat) (s : State) : FencesEnd s (endFence k core s) := by
  have one : FencesEnd s (updSw k (fun x => { x with fence := none }) s) := by
    refine ⟨rfl, fun j => ?_, fun j => ?_, fun _ => rfl, fun _ => .inl rfl⟩
    · rw [sw_updSw]; split_ifs with g
      · subst g; rfl
      · rfl
    · rw [sw_updSw]; split_ifs
      · exact .inr rfl
      · exact .inl rfl
  have two : ∀ t : State, FencesEnd t (updCore core (fun k => { k with l1 := [] }) t) := by
    intro t
    refine ⟨rfl, fun _ => rfl, fun _ => .inl rfl, fun j => ?_, fun j => ?_⟩
    · rw [core_updCore]; split_ifs with g
      · subst g; rfl
      · rfl
    · rw [core_updCore]; split_ifs
      · exact .inr rfl
      · exact .inl rfl
  unfold endFence
  split
  · exact FencesEnd.refl s
  · dsimp only; split_ifs
    · exact one.trans (two _)
    · exact one

/-- What the end of the fences that wait for nothing does (R261). -/
theorem settleFences_ends (s : State) : FencesEnd s (settleFences s) := by
  have all : ∀ (l : SMap SliceWarp) (t : State), FencesEnd t (l.foldl (fun t e =>
      match e.2.fence, mget? s.groups (e.1 / 32) with
      | some f, some g => if f.ops.any (fun o => (mget? s.flight o).isSome) then t else endFence e.1 g.core t
      | _, _ => t) t) := by
    intro l
    induction l with
    | nil => exact fun t => FencesEnd.refl t
    | cons e l ih =>
      intro t
      rw [List.foldl_cons]
      refine FencesEnd.trans ?_ (ih _)
      split
      · split_ifs
        · exact FencesEnd.refl t
        · exact endFence_ends _ _ t
      · exact FencesEnd.refl t
  exact all s.sws s

/-- A request leaves the list of what is in flight. -/
theorem dropFlight_ends (op : Nat) (s : State) : FencesEnd { s with flight := mdel s.flight op } (dropFlight op s) := settleFences_ends _

/-- A result lands after a request has left. -/
theorem FencesEnd.lands {s u t : State} {f : SMap Flight} {op k n : Nat} {dest : Dest} {vals : List (Nat × Nat × Nat)}
    (a : FencesEnd { s with flight := f } u) (h : Lands u t op k dest n vals) : Lands s t op k dest n vals := by
  have et : u.threads = s.threads := (congrArg State.threads a.rest : _)
  have eth : ∀ j, u.thread j = s.thread j := fun j => by simp only [State.thread, et]
  have esw : ∀ j, { u.sw j with fence := (s.sw j).fence } = s.sw j := a.sws
  have eun : ∀ j, (u.sw j).uni = (s.sw j).uni := fun j => (congrArg SliceWarp.uni (esw j) : _)
  refine ⟨?_, fun j => (h.cores j).trans (congrArg CoreSt.unlined (a.cores j) : _), h.value, fun l code hl => ?_, h.uniform, fun j hj => ?_, h.awaited,
    fun j => ⟨?_, ?_⟩, fun j => ⟨fun hj => ?_, fun hj => ?_⟩, fun j => ⟨?_, ?_⟩, fun hq => ?_⟩
  · have e1 := (congrArg (fun y : State => { y with threads := s.threads, sws := s.sws, queues := s.queues, cores := s.cores
                                                    deadlock := s.deadlock, flight := s.flight, longs := s.longs, watches := s.watches }) h.rest : _)
    have e2 := (congrArg (fun y : State => { y with threads := s.threads, queues := s.queues
                                                    deadlock := s.deadlock, flight := s.flight, longs := s.longs, watches := s.watches }) a.rest : _)
    exact e1.trans e2
  · rw [h.registers l code hl, eth]
  · rw [h.unis j hj, eun]
  · rw [(h.aside j).1, eth]
  · exact (h.aside j).2.trans (congrArg SliceWarp.unlanded (esw j) : _)
  · rw [(h.others j).1 hj, eth]
  · exact (congrArg (fun y : SliceWarp => { y with fence := (s.sw j).fence }) ((h.others j).2 hj) : _).trans (esw j)
  · rcases (h.fences j).1 with e | e
    · rw [e]; exact a.fences j
    · exact .inr e
  · rcases (h.fences j).2 with e | e
    · rw [e]; exact a.l1 j
    · exact .inr e
  · rw [h.queues hq]; exact (congrArg State.queues a.rest : _)

/-- Where no group of a core is about to end, the test of its groups changes nothing (R48). -/
theorem reapCore_stays {s : State} {core : Nat} (h : NoneEnds s core) : reapCore core s = s := by
  have all : ∀ l : List Nat, (∀ gid ∈ l, gid ∈ (s.core core).groups) → l.foldl (fun t gid => reapGroup gid t) s = s := by
    intro l
    induction l with
    | nil => exact fun _ => rfl
    | cons gid l ih =>
      intro hl
      have e : reapGroup gid s = s := by
        unfold reapGroup
        split
        · rfl
        · rename_i g hg
          rw [if_neg]
          intro c
          simp only [Bool.and_eq_true, beq_iff_eq] at c
          have := h gid (hl gid List.mem_cons_self) g hg c.1
          rw [this] at c
          exact absurd c.2 (by simp)
      rw [List.foldl_cons, e]
      exact ih (fun x hx => hl x (List.mem_cons_of_mem _ hx))
  exact all _ (fun _ hx => hx)

/-- No group of a core ends after a step that lets no thread exit and leaves the groups as they are. -/
theorem NoneEnds.of_same {s t : State} {core : Nat} (h : NoneEnds s core) (hc : (t.core core).groups = (s.core core).groups)
    (hg : t.groups = s.groups) (he : ∀ j, (t.thread j).exited = (s.thread j).exited) : NoneEnds t core := by
  intro gid hm g e hp
  rw [groupExited_congr he]
  exact h gid (hc ▸ hm) g (hg ▸ e) hp

end Sys2Proof.Machine
end

