-- ==== Sys2Proof/Laws/Sends.lean ====
section
/-! SUPPORT. What sending requests can do (spec/11 R253): each gathered set of lanes becomes one operation in flight. -/

namespace Sys2Proof.Machine

open Sys2Proof Sys2Proof.Laws

/-! ### Gathering -/

theorem mem_dedupe {l : List Nat} {a : Nat} : a ∈ dedupe l ↔ a ∈ l := by
  refine ⟨mem_of_mem_dedupe, fun h => ?_⟩
  induction l with
  | nil => exact h
  | cons b l ih =>
    simp only [dedupe, List.mem_cons, List.mem_filter]
    by_cases e : a = b
    · exact Or.inl e
    · rcases List.mem_cons.1 h with h | h
      · exact Or.inl h
      · exact Or.inr ⟨ih h, by simpa using e⟩

/-- Gathered sets: each holds parts of one place, all of them, and no others. -/
theorem mem_gather {key : LaneReq → Nat} {rs ls : List LaneReq} (h : ls ∈ gather key rs) :
    ls ≠ [] ∧ (∀ r ∈ ls, r ∈ rs) ∧ ∀ r ∈ ls, ∀ q ∈ ls, key r = key q := by
  simp only [gather, List.mem_map] at h
  obtain ⟨k, hk, rfl⟩ := h
  rw [mem_dedupe, List.mem_map] at hk
  obtain ⟨r, hr, rfl⟩ := hk
  refine ⟨?_, ?_, ?_⟩
  · intro e
    have : r ∈ List.filter (fun x => key x == key r) rs := List.mem_filter.2 ⟨hr, by simp⟩
    rw [e] at this; simp at this
  · intro q hq; exact (List.mem_filter.1 hq).1
  · intro q hq p hp
    have a := (List.mem_filter.1 hq).2
    have b := (List.mem_filter.1 hp).2
    simp only [beq_iff_eq] at a b
    rw [a, b]

theorem gather_covers (key : LaneReq → Nat) {rs : List LaneReq} {r : LaneReq} (h : r ∈ rs) : ∃ ls ∈ gather key rs, r ∈ ls := by
  refine ⟨rs.filter (fun x => key x == key r), ?_, List.mem_filter.2 ⟨h, by simp⟩⟩
  simp only [gather, List.mem_map]
  exact ⟨key r, mem_dedupe.2 (List.mem_map_of_mem h), rfl⟩

/-! ### Sending -/

/-- Sets of lanes are in flight under new names, each as base says, and nothing else has changed. -/
structure Sent (s t : State) (base : Flight) (gs : List (List LaneReq)) : Prop where
  rest : { t with flight := s.flight, nextId := s.nextId } = s
  count : t.nextId = s.nextId + gs.length
  other : ∀ k, (k < s.nextId ∨ t.nextId ≤ k) → mget? t.flight k = mget? s.flight k
  each : ∀ n ls, gs[n]? = some ls → ∃ f, mget? t.flight (s.nextId + n) = some f ∧ f.lanes = ls ∧ { f with lanes := [], key := 0, cached := false } = base

theorem sent_nil (s : State) (base : Flight) : Sent s s base [] := ⟨rfl, rfl, fun _ _ => rfl, by simp⟩

theorem sent_cons {s t u : State} {base f : Flight} {gs : List (List LaneReq)} {ls : List LaneReq}
    (ht : t = { s with nextId := s.nextId + 1, flight := mput s.flight s.nextId f }) (hl : f.lanes = ls)
    (hb : { f with lanes := [], key := 0, cached := false } = base) (k : Sent t u base gs) : Sent s u base (ls :: gs) where
  rest := by
    have := k.rest
    rw [ht] at this
    exact congrArg (fun y : State => { y with flight := s.flight, nextId := s.nextId }) this
  count := by rw [k.count, ht]; simp only [List.length_cons]; omega
  other j hj := by
    have hc := k.count
    rw [k.other j (by rw [ht]; simp only; omega), ht]
    exact mget?_mput_ne _ _ (by rcases hj with h | h <;> (rw [ht] at hc; simp only at hc; omega))
  each n ls' hn := by
    cases n with
    | zero =>
      simp only [List.getElem?_cons_zero, Option.some.injEq] at hn
      subst hn
      refine ⟨f, ?_, hl, hb⟩
      rw [k.other _ (by rw [ht]; simp only; omega), ht]
      simp
    | succ n =>
      simp only [List.getElem?_cons_succ] at hn
      obtain ⟨g, h1, h2, h3⟩ := k.each n ls' hn
      refine ⟨g, ?_, h2, h3⟩
      rw [← h1, ht]
      congr 1; simp only; omega

theorem sent_sendGathered (f : Flight) (oks : List (Nat × Int × Nat × Nat)) (cacheable : Nat → Bool) (gs : List (List LaneReq)) (s : State) :
    Sent s (sendGathered f oks cacheable gs s).2 { f with lanes := [], key := 0, cached := false } gs := by
  induction gs generalizing s with
  | nil => exact sent_nil s _
  | cons ls gs ih =>
    unfold sendGathered
    simp only [sendRequests, freshId]
    refine sent_cons (ls := ls) rfl ?_ ?_ (ih _)
    · rfl
    · rfl

theorem sent_sendRequests (f : Flight) (gs : List (List LaneReq)) (s : State) :
    Sent s (sendRequests f gs s).2 { f with lanes := [], key := 0, cached := false } gs := by
  induction gs generalizing s with
  | nil => exact sent_nil s _
  | cons ls gs ih =>
    unfold sendRequests
    simp only [freshId]
    refine sent_cons (ls := ls) rfl ?_ ?_ (ih _)
    · rfl
    · rfl

/-! ### OnlySends -/

theorem onlySends_refl (K : Nat → Prop) (s : State) : OnlySends K s s :=
  ⟨rfl, List.Sublist.refl _, fun _ => rfl, fun _ => rfl, fun _ => rfl, fun _ _ => rfl, fun _ _ => rfl, le_refl _⟩

theorem OnlySends.trans {K : Nat → Prop} {s t u : State} (h : OnlySends K s t) (g : OnlySends K t u) : OnlySends K s u where
  rest := by
    have e := congrArg (fun y : State => { y with cores := s.cores, threads := s.threads, sws := s.sws, queues := s.queues, flight := s.flight
                                                  nextId := s.nextId, ticks := s.ticks, free := s.free
                                                  watches := s.watches }) g.rest
    exact e.trans h.rest
  woken := g.woken.trans h.woken
  cores k := (g.cores k).trans (h.cores k)
  threads k := (g.threads k).trans (h.threads k)
  sws k := (g.sws k).trans (h.sws k)
  queues k hk := (g.queues k hk).trans (h.queues k hk)
  earlier k hk := (g.earlier k (lt_of_lt_of_le hk h.later)).trans (h.earlier k hk)
  later := h.later.trans g.later

theorem swUnsent_still {a b : SliceWarp} (h : a.still = b.still) : a.unsent = b.unsent := by
  have e : ∀ x : SliceWarp, x.unsent = { x.still with unack := 0, fence := none } := fun _ => rfl
  rw [e, e, h]
theorem coreUnsent_still {a b : CoreSt} (h : a.still = b.still) : a.unsent = b.unsent := by
  have e : ∀ x : CoreSt, x.unsent = { x.still with l1 := [], counters := [], walkFaults := [] } := fun _ => rfl
  rw [e, e, h]

theorem OnlyMoves.sends {s t : State} (m : OnlyMoves s t) (K : Nat → Prop) : OnlySends K s t where
  rest := by
    have e := congrArg (fun y : State => { y with flight := s.flight, nextId := s.nextId }) m.calm.rest
    have w : t.watches = s.watches := (congrArg State.watches m.calm.rest : _)
    exact (congrArg (fun y : State => { y with watches := s.watches }) e : _).trans rfl
  woken := by rw [show t.watches = s.watches from (congrArg State.watches m.calm.rest : _)]
  cores k := coreUnsent_still (m.calm.cores k)
  threads := m.threads
  sws k := swUnsent_still (m.sws k)
  queues k _ := m.queues k
  earlier k _ := by
    have e : t.flight = s.flight := (congrArg State.flight m.calm.rest : _)
    rw [e]
  later := le_of_eq m.nextId.symm

theorem OnlyQueues.sends {s t : State} {K : Nat → Prop} (q : OnlyQueues s t K) : OnlySends K s t where
  rest := by
    have e := congrArg (fun y : State => { y with cores := s.cores, threads := s.threads, sws := s.sws, queues := s.queues, flight := s.flight
                                                  nextId := s.nextId, ticks := s.ticks, free := s.free
                                                  watches := s.watches }) q.rest
    exact e
  woken := by rw [show t.watches = s.watches from (congrArg State.watches q.rest : _)]
  cores k := coreUnsent_still (q.calm.cores k)
  threads k := by rw [q.thread]
  sws k := by rw [q.sw]
  queues := q.queues
  earlier k _ := by
    have e : t.flight = s.flight := (congrArg State.flight q.rest : _)
    rw [e]
  later := by
    have e : t.nextId = s.nextId := (congrArg State.nextId q.rest : _)
    rw [e]

theorem Sent.sends {s t : State} {base : Flight} {gs : List (List LaneReq)} (k : Sent s t base gs) (K : Nat → Prop) : OnlySends K s t where
  rest := by
    have e := congrArg (fun y : State => { y with cores := s.cores, threads := s.threads, sws := s.sws, queues := s.queues, ticks := s.ticks
                                                  free := s.free, watches := s.watches }) k.rest
    exact e
  woken := by rw [show t.watches = s.watches from (congrArg State.watches k.rest : _)]
  cores j := by have e : t.cores = s.cores := (congrArg State.cores k.rest : _); simp only [State.core, e]
  threads j := by have e : t.threads = s.threads := (congrArg State.threads k.rest : _); simp only [State.thread, e]
  sws j := by have e : t.sws = s.sws := (congrArg State.sws k.rest : _); simp only [State.sw, e]
  queues j _ := by have e : t.queues = s.queues := (congrArg State.queues k.rest : _); simp only [State.queue, e]
  earlier j hj := k.other j (Or.inl hj)
  later := by rw [k.count]; omega

/-- An update of one core that keeps all but L1, counters, walks and ports. -/
theorem onlySends_updCore (K : Nat → Prop) (k : Nat) (f : CoreSt → CoreSt) (hf : ∀ x, (f x).unsent = x.unsent) (s : State) : OnlySends K s (updCore k f s) where
  rest := rfl
  woken := List.Sublist.refl _
  cores j := by rw [core_updCore]; split_ifs with h
                · subst h; exact hf _
                · rfl
  threads _ := rfl
  sws _ := rfl
  queues _ _ := rfl
  earlier _ _ := rfl
  later := le_refl _

/-- An update of one slice-warp that keeps all but its stores and its fence. -/
theorem onlySends_updSw (K : Nat → Prop) (k : Nat) (f : SliceWarp → SliceWarp) (hf : ∀ x, (f x).unsent = x.unsent) (s : State) :
    OnlySends K s (updSw k f s) where
  rest := rfl
  woken := List.Sublist.refl _
  cores _ := rfl
  threads _ := rfl
  sws j := by rw [sw_updSw]; split_ifs with h
              · subst h; exact hf _
              · rfl
  queues _ _ := rfl
  earlier _ _ := rfl
  later := le_refl _

theorem onlySends_foldl {α : Type} (K : Nat → Prop) (f : State → α → State) (l : List α) (hf : ∀ s, ∀ a ∈ l, OnlySends K s (f s a)) (s : State) :
    OnlySends K s (l.foldl f s) := by
  induction l generalizing s with
  | nil => exact onlySends_refl K s
  | cons a l ih => exact (hf s a (by simp)).trans (ih (fun s b hb => hf s b (by simp [hb])) _)

theorem onlySends_l1Drop (K : Nat → Prop) (core pa : Nat) (s : State) : OnlySends K s (l1Drop core pa s) := by
  unfold l1Drop
  refine onlySends_updCore K _ _ ?_ _; intro _; rfl

theorem onlySends_l1Store (K : Nat → Prop) (core key pa policy : Nat) (bs : List Byte) (s : State) : OnlySends K s (l1Store core key pa policy bs s) := by
  unfold l1Store
  split
  · exact onlySends_refl K s
  · split_ifs
    · exact onlySends_l1Drop K _ _ _
    · refine onlySends_updCore K _ _ ?_ _; intro _; rfl

theorem onlySends_dropWalkFaults (K : Nat → Prop) (c : Ctx) (s : State) : OnlySends K s (dropWalkFaults c s) := by
  unfold dropWalkFaults
  refine onlySends_updCore K _ _ ?_ _; intro _; rfl

theorem onlySends_endFence (K : Nat → Prop) (k core : Nat) (s : State) : OnlySends K s (endFence k core s) := by
  unfold endFence
  split
  · exact onlySends_refl K s
  · dsimp only
    have h1 : OnlySends K s (updSw k (fun x => { x with fence := none }) s) := by
      refine onlySends_updSw K _ _ ?_ _; intro _; rfl
    split_ifs
    · refine h1.trans ?_
      refine onlySends_updCore K _ _ ?_ _; intro _; rfl
    · exact h1

theorem OnlySends.mem {K : Nat → Prop} {s t : State} (h : OnlySends K s t) : t.mem = s.mem := (congrArg State.mem h.rest : _)
theorem OnlySends.sameMemory {K : Nat → Prop} {s t : State} (h : OnlySends K s t) : SameMemory s t :=
  ⟨fun a => by simp only [State.byte, h.mem], readByteKey_congr h.mem (congrArg State.sectorKey h.rest : _) (congrArg State.mods h.rest : _),
    (congrArg State.poison h.rest : _)⟩

/-! ### Requests -/

/-- Steps after sending that keep what is in flight. -/
theorem Sent.requests {s u t : State} {base : Flight} {gs : List (List LaneReq)} {reqs : List LaneReq} {together : LaneReq → LaneReq → Prop}
    (k : Sent s u base gs) (h1 : ∀ r ∈ reqs, ∃ ls ∈ gs, r ∈ ls)
    (h2 : ∀ ls ∈ gs, ls ≠ [] ∧ (∀ r ∈ ls, r ∈ reqs) ∧ ∀ r ∈ ls, ∀ q ∈ ls, together r q) (ef : t.flight = u.flight) (en : t.nextId = u.nextId) :
    Requests s t base reqs together where
  each r hr := by
    obtain ⟨ls, hls, hr⟩ := h1 r hr
    obtain ⟨n, hn⟩ := List.mem_iff_getElem?.1 hls
    obtain ⟨f, a, b, _⟩ := k.each n ls hn
    have hlt : n < gs.length := (List.getElem?_eq_some_iff.1 hn).1
    exact ⟨s.nextId + n, f, by omega, by rw [en, k.count]; omega, by rw [ef, a], by rw [b]; exact hr⟩
  only op h0 h3 := by
    rw [en, k.count] at h3
    obtain ⟨n, rfl⟩ : ∃ n, op = s.nextId + n := ⟨op - s.nextId, by omega⟩
    have hlt : n < gs.length := by omega
    obtain ⟨f, a, b, d⟩ := k.each n gs[n] (List.getElem?_eq_getElem hlt)
    obtain ⟨x, y, z⟩ := h2 gs[n] (List.getElem_mem hlt)
    exact ⟨f, by rw [ef, a], d, by rw [b]; exact x, by rw [b]; exact y, by rw [b]; exact z⟩

/-! ### What sources read -/

/-- Two states in which every source reads the same. -/
structure Alike (s t : State) : Prop where
  threads : t.threads = s.threads
  queues : t.queues = s.queues
  free : t.free = s.free
  ticks : t.ticks = s.ticks
  uni : ∀ k, (t.sw k).uni = (s.sw k).uni
  hist : ∀ k, (t.sw k).latchHist = (s.sw k).latchHist
  lmap : ∀ k, (t.core k).lmap = (s.core k).lmap

theorem Alike.refl (s : State) : Alike s s := ⟨rfl, rfl, rfl, rfl, fun _ => rfl, fun _ => rfl, fun _ => rfl⟩
theorem Alike.trans {s t u : State} (h : Alike s t) (g : Alike t u) : Alike s u :=
  ⟨g.threads.trans h.threads, g.queues.trans h.queues, g.free.trans h.free, g.ticks.trans h.ticks, fun k => (g.uni k).trans (h.uni k),
    fun k => (g.hist k).trans (h.hist k), fun k => (g.lmap k).trans (h.lmap k)⟩

theorem Alike.thread {s t : State} (a : Alike s t) (k : Nat) : t.thread k = s.thread k := by simp only [State.thread, a.threads]
theorem Alike.queue {s t : State} (a : Alike s t) (k : Nat) : t.queue k = s.queue k := by simp only [State.queue, a.queues]

theorem Alike.queueNow {s t : State} (a : Alike s t) (k : Nat) : t.queueNow k = s.queueNow k := by
  simp only [State.queueNow, a.queue, a.ticks]

theorem Alike.special {s t : State} (a : Alike s t) (c : Ctx) (l n : Nat) : readSpecial t c l n = readSpecial s c l n := by
  have e : passWidth (t.core c.core) c.g.launch.protected = passWidth (s.core c.core) c.g.launch.protected := by
    unfold passWidth goodLanes; rw [a.lmap]
  unfold readSpecial
  rw [e]

theorem Alike.words {s t : State} (a : Alike s t) (c : Ctx) (l : Nat) (u : RegUse) (off n : Nat) : readWords t c l u off n = readWords s c l u off n := by
  induction n with
  | zero => rfl
  | succ n ih =>
    have e : ∀ k, readLatch t c l k = readLatch s c l k := fun k => by unfold readLatch; rw [a.thread, a.hist, a.free]
    simp only [readWords, ih, a.thread, e, a.queueNow, a.uni, a.special]

theorem Alike.srcN {s t : State} (a : Alike s t) (c : Ctx) (h : Shape) (l i : Nat) : Machine.srcN t c h l i = Machine.srcN s c h l i := by
  unfold Machine.srcN readUse
  split
  · exact a.words _ _ _ _ _
  · rfl

theorem Alike.execLanes {s t : State} (a : Alike s t) (c : Ctx) (g : Nat) (gn : Bool) : Machine.execLanes t c g gn = Machine.execLanes s c g gn := by
  unfold Machine.execLanes guardTrue; simp only [a.thread]

theorem alike_updCore (k : Nat) (f : CoreSt → CoreSt) (hf : ∀ x, (f x).lmap = x.lmap) (s : State) : Alike s (updCore k f s) :=
  ⟨rfl, rfl, rfl, rfl, fun _ => rfl, fun _ => rfl, fun j => by rw [core_updCore]; split_ifs with h
                                                               · subst h; exact hf _
                                                               · rfl⟩

theorem alike_dropWalkFaults (c : Ctx) (s : State) : Alike s (dropWalkFaults c s) := by
  unfold dropWalkFaults; refine alike_updCore _ _ ?_ _; intro _; rfl

/-- What an ordered instruction does when it may execute. -/
theorem issueOrdered_runs {chk : State → Ctx → Shape → Issue → Check} {s : State} {i : Instr} {c : Ctx} {h : Shape} {x : Issue}
    (r : RunsOrdered chk s i c h x) (act : Ctx → Shape → Issue → State → State) :
    issueOrdered chk i act s = .next (pairOrder s c h x (act c h x s)) := by
  obtain ⟨h1, h2, h3, h4, h6⟩ := r
  unfold issueOrdered
  rw [h1, h2]
  dsimp only
  rw [h3]
  dsimp only
  rw [h4]
  simp only [Bool.false_eq_true, if_false]
  rw [h6]

/-- Settling plans that all go on. -/
theorem settlePlans_ok {c : Ctx} {ps : List LanePlan} (hp : ∀ p ∈ ps, ∃ pa e, p.plan = .ok pa e) (s : State) (go : State → State) :
    settlePlans c ps s go = go (dropWalkFaults c s) := by
  unfold settlePlans
  split
  · rfl
  · rename_i p h
    obtain ⟨pa, e, q⟩ := hp p (List.mem_of_find?_eq_some h)
    have := List.find?_some h
    rw [q] at this; simp at this

theorem settleQueued_ok {c : Ctx} {ps : List LanePlan} (hp : ∀ p ∈ ps, ∃ pa e, p.plan = .ok pa e) (s : State) (go : State → State) :
    settleQueued c ps s go = go (dropWalkFaults c s) := by
  unfold settleQueued
  split
  · rename_i p h
    obtain ⟨pa, e, q⟩ := hp p (List.mem_of_find?_eq_some h)
    have := List.find?_some h
    rw [q] at this; simp at this
  · have h2 : ps.any (fun p => p.plan == .miss) = false := by
      rw [List.any_eq_false]
      intro p h
      obtain ⟨pa, e, q⟩ := hp p h
      rw [q]; simp
    rw [h2]; rfl

/-- With plans that all go on, no queue entry is marked. -/
theorem markFaulted_ok {c : Ctx} {d : Dest} {n : Nat} {ps : List LanePlan} (hp : ∀ p ∈ ps, ∃ pa e, p.plan = .ok pa e) (s : State) :
    markFaulted c d n ps s = s := by
  unfold markFaulted
  split
  · induction ps generalizing s with
    | nil => rfl
    | cons p ps ih =>
      obtain ⟨pa, e, q⟩ := hp p (by simp)
      rw [List.foldl_cons, q]
      exact ih (fun y hy => hp y (by simp [hy])) s
  · rfl

theorem onlyQueues_reserveFor (c : Ctx) (d : Dest) (n : Nat) (ops : List Nat) (gs : List (List LaneReq)) (s : State) (K : Nat → Prop)
    (hk : ∀ q, d = .queue q → ∀ ls ∈ gs, ∀ r ∈ ls, K (c.q r.lane q)) : OnlyQueues s (reserveFor c d n ops gs s) K := by
  unfold reserveFor
  split
  · rename_i q
    refine onlyQueues_foldl K _ _ (fun t p hp => ?_) s
    refine onlyQueues_reserveQ c q _ _ _ _ _ (fun l hl => ?_)
    obtain ⟨r, hr, rfl⟩ := List.mem_map.1 hl
    exact hk q rfl p.2 (List.of_mem_zip hp).2 r hr
  · exact OnlyQueues.refl _ _

theorem requestKey_place (oks : List (Nat × Int × Nat × Nat)) {r q : LaneReq} (h : requestKey oks r = requestKey oks q) :
    requestUnit r.pa = requestUnit q.pa := by
  unfold requestKey at h
  have a : ∀ e, pteKey e < 256 := fun e => by unfold pteKey bitsOf; exact Nat.mod_lt _ (by norm_num)
  have b : ∀ v : Bool, b2n v < 2 := fun v => by cases v <;> simp [b2n]
  have a1 := a (leafOf oks r.lane)
  have a2 := a (leafOf oks q.lane)
  have b1 := b (pteC (leafOf oks r.lane))
  have b2 := b (pteC (leafOf oks q.lane))
  omega

theorem mem_okPlans {ps : List LanePlan} {p : Nat × Int × Nat × Nat} (h : p ∈ okPlans ps) :
    ∃ y ∈ ps, y.lane = p.1 ∧ y.ea = p.2.1 ∧ y.plan = .ok p.2.2.1 p.2.2.2 := by
  simp only [okPlans, List.mem_filterMap] at h
  obtain ⟨y, hy, e⟩ := h
  refine ⟨y, hy, ?_⟩
  split at e
  · cases e; exact ⟨rfl, rfl, by assumption⟩
  · cases e

/-- A fold whose steps keep a part of the state keeps it. -/
theorem foldl_keep {α β : Type} (g : State → β) (f : State → α → State) (hf : ∀ s a, g (f s a) = g s) (l : List α) (s : State) :
    g (l.foldl f s) = g s := by
  induction l generalizing s with
  | nil => rfl
  | cons a l ih => rw [List.foldl_cons, ih, hf]

theorem laneReq_alike {s t : State} (a : Alike s t) (c : Ctx) (n : Nat) (p : Nat × Int × Nat × Nat) (d k : Nat) : laneReq t c n p d k = laneReq s c n p d k := by
  unfold laneReq; rw [a.thread]

theorem isQ_of_dest {n q : Nat} (h : destOf n = .queue q) : isQueueName n = true ∧ q = n := by
  unfold destOf at h
  split_ifs at h with h1 h2 h3
  cases h; exact ⟨h3, rfl⟩

end Sys2Proof.Machine
end

