-- ==== Sys2Proof/Laws/Settle.lean ====
section
/-! SUPPORT. What settling a slice-warp does to its masks and threads (spec/08 R192, R195), in full: settle_spec. -/

namespace Sys2Proof.Machine

open Sys2Proof Sys2Proof.Laws

/-- A thread is as it was, or it was in no wait at its meeting label and is held now. -/
def Holds (a b : Thread) : Prop := b = a ∨ (a.wait = .none ∧ mrLabel a = some a.pc ∧ b = { a with wait := .held })

/-- HOLDING (R192): threads alone change, each as Holds says. -/
theorem holdThreads_spec (gid warp : Nat) (sl : Slice) (g : Group) (s : State) :
    (∀ k, Holds (s.thread k) ((holdThreads gid warp sl g s).thread k)) ∧ (holdThreads gid warp sl g s).sws = s.sws
    ∧ (holdThreads gid warp sl g s).groups = s.groups := by
  unfold holdThreads
  generalize upFrom 0 g.launch.visible = ls
  have key : ∀ (ls : List Nat) (f : State → Nat → State) (hf : ∀ t l, (∀ k, Holds (t.thread k) ((f t l).thread k)) ∧ (f t l).sws = t.sws ∧ (f t l).groups = t.groups)
      (s : State), (∀ k, Holds (s.thread k) ((ls.foldl f s).thread k)) ∧ (ls.foldl f s).sws = s.sws ∧ (ls.foldl f s).groups = s.groups := by
    intro ls f hf
    induction ls with
    | nil => intro s; exact ⟨fun _ => .inl rfl, rfl, rfl⟩
    | cons l ls ih =>
      intro s
      obtain ⟨a1, a2, a3⟩ := hf s l
      obtain ⟨b1, b2, b3⟩ := ih (f s l)
      refine ⟨fun k => ?_, b2.trans a2, b3.trans a3⟩
      rw [List.foldl_cons]
      rcases b1 k with e | ⟨e1, e2, e3⟩
      · rw [e]; exact a1 k
      · rcases a1 k with e | ⟨d1, d2, d3⟩
        · rw [e] at e1 e2 e3; exact .inr ⟨e1, e2, e3⟩
        · rw [d3] at e1; cases e1
  refine key _ _ (fun t l => ?_) s
  dsimp only
  split_ifs with h
  · simp only [Bool.and_eq_true, beq_iff_eq] at h
    refine ⟨fun k => ?_, rfl, rfl⟩
    rw [thread_updTh]
    split_ifs with e
    · subst e; exact .inr ⟨h.1.1.1.1.2, h.1.2, rfl⟩
    · exact .inl rfl
  · exact ⟨fun _ => .inl rfl, rfl, rfl⟩

/-- Releasing held threads one by one. -/
theorem foldRelease_thread (sw : Nat) (ls : List Nat) (s : State) (hd : ls.Nodup) (i : Nat) :
    (ls.foldl (fun t l => updTh (thKey sw l) (fun th => { th with wait := .none, mr := th.mr &&& ~~~(1 : W64) }) t) s).thread i
      = if ∃ l ∈ ls, i = thKey sw l then { s.thread i with wait := .none, mr := (s.thread i).mr &&& ~~~(1 : W64) } else s.thread i := by
  induction ls generalizing s with
  | nil => simp
  | cons l ls ih =>
    simp only [List.nodup_cons] at hd
    rw [List.foldl_cons, ih _ hd.2]
    by_cases h : i = thKey sw l
    · subst h
      have e1 : ¬ ∃ j ∈ ls, thKey sw l = thKey sw j := by
        rintro ⟨j, hj, e⟩; exact hd.1 (by have : l = j := by simp only [thKey] at e; omega
                                          rw [this]; exact hj)
      rw [if_neg e1, if_pos ⟨l, by simp, rfl⟩, thread_updTh, if_pos rfl]
    · have e : (∃ j ∈ l :: ls, i = thKey sw j) ↔ ∃ j ∈ ls, i = thKey sw j := by
        simp only [List.mem_cons, exists_eq_or_imp, h, false_or]
      simp only [e, thread_updTh, if_neg h]

theorem foldRelease_sws (sw : Nat) (ls : List Nat) (s : State) :
    (ls.foldl (fun t l => updTh (thKey sw l) (fun th => { th with wait := .none, mr := th.mr &&& ~~~(1 : W64) }) t) s).sws = s.sws
    ∧ (ls.foldl (fun t l => updTh (thKey sw l) (fun th => { th with wait := .none, mr := th.mr &&& ~~~(1 : W64) }) t) s).groups = s.groups := by
  induction ls generalizing s with
  | nil => exact ⟨rfl, rfl⟩
  | cons l ls ih => rw [List.foldl_cons]; exact ih _

theorem lanesOf_ne_nil {m : BitVec 64} (h : m ≠ 0) : lanesOf m ≠ [] := by
  intro e
  apply h
  ext i hi
  have := (mem_lanesOf m i)
  rw [e] at this
  simp at this
  simp only [BitVec.getLsbD_eq_getElem hi, BitVec.ofNat_eq_ofNat] at this ⊢
  simpa using this hi

/-- RELEASING A MASK (R192): the mask was not full and nothing changes, or it is empty now and its threads are free. -/
theorem releaseMask_spec (gid warp : Nat) (sl : Slice) (k : Nat) (s : State) :
    let sw := swKey gid warp sl
    let t := releaseMask gid warp sl k s
    (∀ j, j ≠ k → mget (t.sw sw).masks j 0 = mget (s.sw sw).masks j 0)
    ∧ ((t = s ∧ (mget (s.sw sw).masks k 0 ≠ 0 → ∃ l ∈ lanesOf (mget (s.sw sw).masks k 0), (s.thread (thKey sw l)).wait ≠ .held))
      ∨ (mget (t.sw sw).masks k 0 = 0 ∧ mget (s.sw sw).masks k 0 ≠ 0 ∧ (∀ l ∈ lanesOf (mget (s.sw sw).masks k 0), (s.thread (thKey sw l)).wait = .held)
        ∧ ∀ i, t.thread i = if ∃ l ∈ lanesOf (mget (s.sw sw).masks k 0), i = thKey sw l
            then { s.thread i with wait := .none, mr := (s.thread i).mr &&& ~~~(1 : W64) } else s.thread i)) := by
  intro sw t
  show (∀ j, j ≠ k → mget ((releaseMask gid warp sl k s).sw sw).masks j 0 = _) ∧ ((releaseMask gid warp sl k s = s ∧ _) ∨ _)
  simp only [t]
  unfold releaseMask
  dsimp only
  split_ifs with h
  · refine ⟨fun _ _ => rfl, .inl ⟨rfl, fun hm => ?_⟩⟩
    simp only [Bool.or_eq_true, List.isEmpty_iff, List.any_eq_true, bne_iff_ne, ne_eq] at h
    rcases h with h | h
    · exact absurd h (lanesOf_ne_nil hm)
    · exact h
  · simp only [Bool.or_eq_true, List.isEmpty_iff, List.any_eq_true, bne_iff_ne, ne_eq, not_or, not_exists, not_and, not_not] at h
    have e1 := (foldRelease_sws sw (lanesOf (mget (s.sw sw).masks k 0)) (updSw sw (fun x => { x with masks := mput x.masks k 0 }) s)).1
    refine ⟨fun j hj => ?_, .inr ⟨?_, fun hm => h.1 ?_, h.2, fun i => ?_⟩⟩
    · simp only [State.sw, sw] at e1 ⊢; rw [e1]
      show mget ((updSw (swKey gid warp sl) _ s).sw (swKey gid warp sl)).masks j 0 = _
      rw [sw_updSw, if_pos rfl]; dsimp only; rw [mget_mput_ne _ _ _ hj]; rfl
    · simp only [State.sw, sw] at e1 ⊢; rw [e1]
      show mget ((updSw (swKey gid warp sl) _ s).sw (swKey gid warp sl)).masks k 0 = _
      rw [sw_updSw, if_pos rfl]; dsimp only; rw [mget_mput_self]
    · have : mget (s.sw sw).masks k 0 = 0 := hm
      simp only [sw] at this; rw [this]; rfl
    · have := foldRelease_thread sw (lanesOf (mget (s.sw sw).masks k 0)) (updSw sw (fun x => { x with masks := mput x.masks k 0 }) s) (nodup_lanesOf _) i
      exact this

theorem wakeWhere_thread (gid warp : Nat) (sl : Slice) (k : Nat) (s : State) (i : Nat) :
    (wakeWhere gid warp sl (fun w => w == .waitm k) s).thread i
      = if i / 64 = swKey gid warp sl ∧ (s.thread i).wait = .waitm k then wakeThread (s.thread i) else s.thread i := by
  have hm := mget?_mapIf s.threads (fun i th => decide (i / 64 = swKey gid warp sl) && (th.wait == .waitm k)) wakeThread i
  have e : (wakeWhere gid warp sl (fun w => w == .waitm k) s).threads
      = s.threads.map (fun e => if (decide (e.1 / 64 = swKey gid warp sl) && (e.2.wait == .waitm k)) = true then (e.1, wakeThread e.2) else e) := by
    unfold wakeWhere
    simp only [Bool.and_eq_true, decide_eq_true_eq]
  simp only [State.thread, mget, e, hm]
  have key : ∀ o : Option Thread, (Option.map (fun v => if (decide (i / 64 = swKey gid warp sl) && v.wait == Wait.waitm k) = true then wakeThread v else v) o).getD Thread.start
      = if i / 64 = swKey gid warp sl ∧ (o.getD Thread.start).wait = Wait.waitm k then wakeThread (o.getD Thread.start) else o.getD Thread.start := by
    intro o
    cases o with
    | none => rw [if_neg (by simp [Thread.start])]; rfl
    | some v =>
      simp only [Option.map_some, Option.getD_some, Bool.and_eq_true, decide_eq_true_eq, beq_iff_eq]
  exact key _

theorem acquireSws_threads (ks : List Nat) (s : State) : (acquireSws ks s).threads = s.threads ∧ (acquireSws ks s).groups = s.groups
    ∧ ∀ j, ((acquireSws ks s).sw j).masks = (s.sw j).masks := by
  unfold acquireSws
  induction ks generalizing s with
  | nil => exact ⟨rfl, rfl, fun _ => rfl⟩
  | cons k ks ih =>
    rw [List.foldl_cons]
    obtain ⟨a, b, c⟩ := ih (orderAfter k (readsOf s k) s)
    refine ⟨a.trans rfl, b.trans rfl, fun j => (c j).trans ?_⟩
    unfold orderAfter; rw [sw_updSw]; split_ifs with h <;> simp [*]

/-- RELEASING WAITM (R195): no change, or every thread of the mask waits and all that wait go on. -/
theorem releaseWaitm_spec (gid warp : Nat) (sl : Slice) (k : Nat) (s : State) :
    let sw := swKey gid warp sl
    let t := releaseWaitm gid warp sl k s
    (∀ j, (t.sw j).masks = (s.sw j).masks) ∧ ((∀ i, t.thread i = s.thread i)
      ∧ (∀ l, l < 64 → l ∈ lanesOf (mget (s.sw sw).masks k 0) → (∀ j ∈ lanesOf (mget (s.sw sw).masks k 0), (s.thread (thKey sw j)).wait = .waitm k) → False)
      ∨ (∀ j ∈ lanesOf (mget (s.sw sw).masks k 0), (s.thread (thKey sw j)).wait = .waitm k)
        ∧ ∀ i, t.thread i = if i / 64 = sw ∧ (s.thread i).wait = .waitm k then wakeThread (s.thread i) else s.thread i) := by
  intro sw t
  simp only [t]
  unfold releaseWaitm
  dsimp only
  split_ifs with h
  · refine ⟨fun _ => rfl, .inl ⟨fun _ => rfl, fun l hl hm ha => ?_⟩⟩
    simp only [Bool.or_eq_true, List.any_eq_true, bne_iff_ne, ne_eq, Option.isNone_iff_eq_none] at h
    rcases h with ⟨j, hj, e⟩ | h
    · exact e (ha j hj)
    · have := List.find?_eq_none.1 h l (by
        have : ∀ n a, a < n → ∀ b, b + a ∈ upFrom b n := by
          intro n; induction n with
          | zero => intro a ha; omega
          | succ n ih =>
            intro a ha b
            simp only [upFrom, List.mem_cons]
            cases a with
            | zero => left; omega
            | succ a => right; have := ih a (by omega) (b + 1); rwa [show b + 1 + a = b + (a + 1) by omega] at this
        have := this 64 l hl 0; simpa using this)
      rw [ha l hm] at this; simp at this
  · simp only [Bool.or_eq_true, List.any_eq_true, bne_iff_ne, ne_eq, not_or, not_exists, not_and, not_not] at h
    obtain ⟨a1, _, a3⟩ := acquireSws_threads [swKey gid warp sl] (wakeWhere gid warp sl (fun w => w == .waitm k) s)
    refine ⟨fun j => (a3 j).trans rfl, .inr ⟨h.1, fun i => ?_⟩⟩
    have := wakeWhere_thread gid warp sl k s i
    simp only [State.thread, a1] at this ⊢
    exact this

/-- What settling keeps of the masks and threads at its start, as it goes through the masks. -/
structure Kept (sw : Nat) (ks : List Nat) (s t : State) : Prop where
  mask : ∀ k, mget (t.sw sw).masks k 0 = mget (s.sw sw).masks k 0 ∨
    (mget (t.sw sw).masks k 0 = 0 ∧ mget (s.sw sw).masks k 0 ≠ 0 ∧ ∀ l ∈ lanesOf (mget (s.sw sw).masks k 0), (s.thread (thKey sw l)).wait = .held
      ∧ (t.thread (thKey sw l)).wait = .none ∧ (t.thread (thKey sw l)).mr.getLsbD 0 = false ∧ (t.thread (thKey sw l)).pc = (s.thread (thKey sw l)).pc)
  thread : ∀ i, t.thread i = s.thread i
    ∨ ((s.thread i).wait = .held ∧ t.thread i = { s.thread i with wait := .none, mr := (s.thread i).mr &&& ~~~(1 : W64) }
      ∧ ∃ k l, i = thKey sw l ∧ l ∈ lanesOf (mget (s.sw sw).masks k 0) ∧ mget (t.sw sw).masks k 0 = 0)
    ∨ (∃ k ∈ ks, (s.thread i).wait = .waitm k ∧ t.thread i = wakeThread (s.thread i)
      ∧ ((∀ l ∈ lanesOf (mget (s.sw sw).masks k 0), (s.thread (thKey sw l)).wait = .waitm k)
        ∨ ∀ l ∈ lanesOf (mget (s.sw sw).masks k 0), (s.thread (thKey sw l)).wait = .held))

theorem Kept.refl (sw : Nat) (ks : List Nat) (s : State) : Kept sw ks s s := ⟨fun _ => .inl rfl, fun _ => .inl rfl⟩

/-- One step keeps it. -/
theorem Kept.step {gid warp : Nat} {sl : Slice} {ks : List Nat} {s t : State} (k : Nat) (hk : k ∈ ks) (h : Kept (swKey gid warp sl) ks s t) :
    Kept (swKey gid warp sl) ks s (releaseWaitm gid warp sl k (releaseMask gid warp sl k t)) := by
  have a := releaseMask_spec gid warp sl k t
  have b := releaseWaitm_spec gid warp sl k (releaseMask gid warp sl k t)
  dsimp only at a b
  set sw := swKey gid warp sl
  set u := releaseMask gid warp sl k t
  set v := releaseWaitm gid warp sl k u
  -- threads of u
  have hu : Kept sw ks s u := by
    rcases a.2 with ⟨e, _⟩ | ⟨a1, a2, a3, a4⟩
    · rw [e]; exact h
    · have hs : mget (t.sw sw).masks k 0 = mget (s.sw sw).masks k 0 := by
        rcases h.mask k with e | ⟨e, _⟩
        · exact e
        · exact absurd e a2
      have hl : ∀ l ∈ lanesOf (mget (s.sw sw).masks k 0), t.thread (thKey sw l) = s.thread (thKey sw l) ∧ (s.thread (thKey sw l)).wait = .held := by
        intro l hl
        rw [← hs] at hl
        have w := a3 l hl
        rcases h.thread (thKey sw l) with e | ⟨_, e, _⟩ | ⟨_, _, _, e, _⟩
        · rw [e] at w; exact ⟨e, w⟩
        · rw [e] at w; cases w
        · rw [e] at w; cases w
      refine ⟨fun j => ?_, fun i => ?_⟩
      · by_cases hj : j = k
        · subst hj
          right
          refine ⟨a1, hs ▸ a2, fun l hm => ?_⟩
          obtain ⟨e1, e2⟩ := hl l hm
          have e3 := a4 (thKey sw l)
          rw [hs, if_pos ⟨l, hm, rfl⟩, e1] at e3
          rw [e3]; exact ⟨e2, rfl, by simp, rfl⟩
        · rw [a.1 j hj]
          rcases h.mask j with e | ⟨e1, e2, e3⟩
          · left; exact e
          · right
            refine ⟨e1, e2, fun l hm => ?_⟩
            obtain ⟨d1, d2, d3, d4⟩ := e3 l hm
            have e4 := a4 (thKey sw l)
            split_ifs at e4 with q
            · obtain ⟨l', hl', e5⟩ := q
              have := a3 l' hl'
              rw [← e5, d2] at this; cases this
            · rw [e4]; exact ⟨d1, d2, d3, d4⟩
      · have e4 := a4 i
        split_ifs at e4 with q
        · obtain ⟨l, hm, rfl⟩ := q
          rw [hs] at hm
          obtain ⟨e1, e2⟩ := hl l hm
          right; left
          rw [e4, e1]; exact ⟨e2, rfl, k, l, rfl, hm, a1⟩
        · rw [e4]
          rcases h.thread i with e | ⟨e1, e2, k', l, e3, e5, e6⟩ | e
          · exact .inl e
          · refine .inr (.inl ⟨e1, e2, k', l, e3, e5, ?_⟩)
            by_cases hj : k' = k
            · rw [hj]; exact a1
            · rw [a.1 k' hj]; exact e6
          · exact .inr (.inr e)
  -- threads of v
  have hvm : ∀ j, mget (v.sw sw).masks j 0 = mget (u.sw sw).masks j 0 := fun j => by rw [b.1]
  rcases b.2 with ⟨b1, _⟩ | ⟨b1, b2⟩
  · refine ⟨fun j => ?_, fun i => ?_⟩
    · rw [hvm]
      have := hu.mask j
      simpa only [b1] using this
    · rw [b1]; simp only [hvm]; exact hu.thread i
  · refine ⟨fun j => ?_, fun i => ?_⟩
    · rw [hvm]
      rcases hu.mask j with e | ⟨e1, e2, e3⟩
      · left; exact e
      · right
        refine ⟨e1, e2, fun l hm => ?_⟩
        obtain ⟨d1, d2, d3, d4⟩ := e3 l hm
        rw [b2, if_neg (by rw [d2]; simp)]; exact ⟨d1, d2, d3, d4⟩
    · rw [b2]
      split_ifs with q
      · have w : ∀ i, (u.thread i).wait = .waitm k → u.thread i = s.thread i := by
          intro i q
          rcases hu.thread i with e | ⟨_, e, _⟩ | ⟨_, _, _, e, _⟩
          · exact e
          · rw [e] at q; cases q
          · rw [e] at q; cases q
        right; right
        refine ⟨k, hk, (w i q.2) ▸ q.2, by rw [w i q.2], ?_⟩
        rcases hu.mask k with e | ⟨_, _, e3⟩
        · left
          intro l hm
          rw [← e] at hm
          have := b1 l hm
          rw [← w _ this]; exact this
        · right; exact fun l hm => (e3 l hm).1
      · simp only [hvm]; exact hu.thread i

theorem kept_foldl {gid warp : Nat} {sl : Slice} (ns ks : List Nat) (hs : ∀ k ∈ ks, k ∈ ns) {s t : State} (h : Kept (swKey gid warp sl) ns s t) :
    Kept (swKey gid warp sl) ns s (ks.foldl (fun t k => releaseWaitm gid warp sl k (releaseMask gid warp sl k t)) t) := by
  induction ks generalizing t with
  | nil => exact h
  | cons k ks ih => rw [List.foldl_cons]; exact ih (fun j hj => hs j (by simp [hj])) (h.step k (hs k (by simp)))

/-- A step at a mask all of whose threads are held releases it. -/
theorem step_full {gid warp : Nat} {sl : Slice} (k : Nat) (t : State)
    (h : mget (t.sw (swKey gid warp sl)).masks k 0 = 0 ∨ ∀ l ∈ lanesOf (mget (t.sw (swKey gid warp sl)).masks k 0), (t.thread (thKey (swKey gid warp sl) l)).wait = .held) :
    mget ((releaseWaitm gid warp sl k (releaseMask gid warp sl k t)).sw (swKey gid warp sl)).masks k 0 = 0 := by
  have a := releaseMask_spec gid warp sl k t
  have b := releaseWaitm_spec gid warp sl k (releaseMask gid warp sl k t)
  dsimp only at a b
  rw [b.1]
  rcases a.2 with ⟨e, a1⟩ | ⟨a1, _⟩
  · rw [e]
    by_contra hm
    rcases h with h | h
    · exact hm h
    · obtain ⟨l, hl, e⟩ := a1 hm; exact e (h l hl)
  · exact a1

theorem step_waitm {gid warp : Nat} {sl : Slice} (k : Nat) (t : State) (l : Nat) (hl : l < 64)
    (hm : l ∈ lanesOf (mget (t.sw (swKey gid warp sl)).masks k 0))
    (ha : ∀ j ∈ lanesOf (mget (t.sw (swKey gid warp sl)).masks k 0), (t.thread (thKey (swKey gid warp sl) j)).wait = .waitm k) :
    (releaseWaitm gid warp sl k (releaseMask gid warp sl k t)).thread (thKey (swKey gid warp sl) l) = wakeThread (t.thread (thKey (swKey gid warp sl) l)) := by
  have a := releaseMask_spec gid warp sl k t
  have b := releaseWaitm_spec gid warp sl k (releaseMask gid warp sl k t)
  dsimp only at a b
  rcases a.2 with ⟨e, _⟩ | ⟨_, _, a3, _⟩
  · rw [e] at b ⊢
    rcases b.2 with ⟨_, b1⟩ | ⟨_, b2⟩
    · exact (b1 l hl hm ha).elim
    · rw [b2, if_pos ⟨by simp only [thKey]; omega, ha l hm⟩]
  · have := a3 l hm; rw [ha l hm] at this; cases this

/-- What settling a slice-warp does, in full. -/
theorem settle_spec (gid warp : Nat) (sl : Slice) (s : State) :
    let sw := swKey gid warp sl
    let t := settle gid warp sl s
    (∀ k, mget (t.sw sw).masks k 0 = mget (s.sw sw).masks k 0 ∨
      (mget (t.sw sw).masks k 0 = 0 ∧ mget (s.sw sw).masks k 0 ≠ 0 ∧ ∀ l ∈ lanesOf (mget (s.sw sw).masks k 0),
        ((s.thread (thKey sw l)).wait = .held ∨ mrLabel (s.thread (thKey sw l)) = some (t.thread (thKey sw l)).pc)
        ∧ (t.thread (thKey sw l)).wait = .none ∧ (t.thread (thKey sw l)).mr.getLsbD 0 = false))
    ∧ (∀ k < 12, (mget? s.groups gid).isSome → mget (s.sw sw).masks k 0 ≠ 0 → (∀ l ∈ lanesOf (mget (s.sw sw).masks k 0), (s.thread (thKey sw l)).wait = .held)
      → (∀ n, n ≠ k → mget (s.sw sw).masks n 0 = 0) → mget (t.sw sw).masks k 0 = 0)
    ∧ (∀ k l, l ∈ lanesOf (mget (s.sw sw).masks k 0) → (s.thread (thKey sw l)).wait = .waitm k →
      (∃ j ∈ lanesOf (mget (s.sw sw).masks k 0), (s.thread (thKey sw j)).wait ≠ .waitm k) → t.thread (thKey sw l) = s.thread (thKey sw l))
    ∧ (∀ k < 12, (mget? s.groups gid).isSome → ∀ l ∈ lanesOf (mget (s.sw sw).masks k 0), (∀ j ∈ lanesOf (mget (s.sw sw).masks k 0), (s.thread (thKey sw j)).wait = .waitm k)
      → t.thread (thKey sw l) = wakeThread (s.thread (thKey sw l))) := by
  intro sw t
  simp only [t]
  unfold settle
  split
  · rename_i hg
    exact ⟨fun _ => .inl rfl, fun _ _ h => absurd h (by simp [hg]), fun _ _ _ _ _ => rfl, fun _ _ h => absurd h (by simp [hg])⟩
  · rename_i g hg
    obtain ⟨o1, o2, o3⟩ := holdThreads_spec gid warp sl g s
    set h := holdThreads gid warp sl g s
    have em : ∀ k, mget (h.sw sw).masks k 0 = mget (s.sw sw).masks k 0 := fun k => by simp only [State.sw, o2]
    have wm : ∀ i k, (s.thread i).wait = .waitm k → h.thread i = s.thread i := by
      intro i k e
      rcases o1 i with a | ⟨a, _⟩
      · exact a
      · rw [a] at e; cases e
    have wm' : ∀ i k, (h.thread i).wait = .waitm k → (s.thread i).wait = .waitm k := by
      intro i k e
      rcases o1 i with a | ⟨_, _, a⟩
      · rw [← a]; exact e
      · rw [a] at e; cases e
    have wh : ∀ i, (s.thread i).wait = .held → h.thread i = s.thread i := by
      intro i e
      rcases o1 i with a | ⟨a, _⟩
      · exact a
      · rw [a] at e; cases e
    have cut : ∀ k < 12, ∃ pre post, upFrom 0 12 = pre ++ k :: post ∧ k ∉ pre := fun k hk =>
      ⟨_, _, (by decide : ∀ k < 12, upFrom 0 12 = (upFrom 0 12).take k ++ k :: (upFrom 0 12).drop (k + 1) ∧ k ∉ (upFrom 0 12).take k) k hk⟩
    have K := kept_foldl (gid := gid) (warp := warp) (sl := sl) _ (upFrom 0 12) (fun _ h => h) (Kept.refl sw _ h)
    refine ⟨fun k => ?_, fun k hk _ hn hh hz => ?_, fun k l hl hw hj => ?_, fun k hk _ l hl hw => ?_⟩
    · rcases K.mask k with e | ⟨e1, e2, e3⟩
      · left; rw [← em]; exact e
      · right
        refine ⟨e1, em k ▸ e2, fun l hl => ?_⟩
        rw [← em] at hl
        obtain ⟨d1, d2, d3, d4⟩ := e3 l hl
        refine ⟨?_, d2, d3⟩
        rcases o1 (thKey sw l) with a | ⟨_, a, b⟩
        · left; rw [← a]; exact d1
        · right; rw [a, d4, b]
    · obtain ⟨pre, post, e, hpre⟩ := cut k hk
      rw [e, List.foldl_append, List.foldl_cons]
      have P := kept_foldl (gid := gid) (warp := warp) (sl := sl) _ pre (fun _ h => h) (Kept.refl sw _ h)
      set t1 := pre.foldl (fun t k => releaseWaitm gid warp sl k (releaseMask gid warp sl k t)) h
      have z := step_full (gid := gid) (warp := warp) (sl := sl) k t1 (by
        rcases P.mask k with e | ⟨e, _⟩
        · by_cases hz1 : mget (t1.sw sw).masks k 0 = 0
          · left; exact hz1
          right
          intro l hl
          have hl' : l ∈ lanesOf (mget (s.sw sw).masks k 0) := by rw [← em, ← e]; exact hl
          have w := hh l hl'
          have w2 := wh _ w
          rcases P.thread (thKey sw l) with a | ⟨_, _, k', l', a1, a2, a3⟩ | ⟨k', _, a, _⟩
          · show (t1.thread (thKey sw l)).wait = _
            rw [a, w2]; exact w
          · exfalso
            by_cases hkk : k' = k
            · rw [hkk] at a3; exact hz1 a3
            · rw [em, hz k' hkk] at a2; simp [mem_lanesOf] at a2
          · rw [w2, w] at a; cases a
        · left; exact e)
      have Q := kept_foldl (gid := gid) (warp := warp) (sl := sl) _ post (fun _ h => h) (Kept.refl sw _ (releaseWaitm gid warp sl k (releaseMask gid warp sl k t1)))
      rcases Q.mask k with a | ⟨a, _⟩
      · rw [a]; exact z
      · exact a
    · rcases K.thread (thKey sw l) with a | ⟨a, _⟩ | ⟨k', _, a, _, c⟩
      · rw [a, wm _ _ hw]
      · rw [wm _ _ hw, hw] at a; cases a
      · rw [wm _ _ hw, hw] at a
        cases a
        obtain ⟨j, hj1, hj2⟩ := hj
        rw [em] at c
        rcases c with c | c
        · exact absurd (wm' _ _ (c j hj1)) hj2
        · have := c l hl; rw [wm _ _ hw, hw] at this; cases this
    · obtain ⟨pre, post, e, hpre⟩ := cut k hk
      rw [e, List.foldl_append, List.foldl_cons]
      have P := kept_foldl (gid := gid) (warp := warp) (sl := sl) _ pre (fun _ h => h) (Kept.refl sw _ h)
      set t1 := pre.foldl (fun t k => releaseWaitm gid warp sl k (releaseMask gid warp sl k t)) h
      have hmask : mget (t1.sw sw).masks k 0 = mget (s.sw sw).masks k 0 := by
        rcases P.mask k with e | ⟨_, _, e⟩
        · rw [e, em]
        · have := (e l (em k ▸ hl)).1; rw [wm _ _ (hw l hl), hw l hl] at this; cases this
      have hth : ∀ j ∈ lanesOf (mget (s.sw sw).masks k 0), t1.thread (thKey sw j) = s.thread (thKey sw j) := by
        intro j hj
        have w := hw j hj
        rcases P.thread (thKey sw j) with a | ⟨a, _⟩ | ⟨k', a0, a, _⟩
        · rw [a, wm _ _ w]
        · rw [wm _ _ w, w] at a; cases a
        · rw [wm _ _ w, w] at a; cases a; exact absurd a0 hpre
      have z := step_waitm (gid := gid) (warp := warp) (sl := sl) k t1 l (lt_of_mem_lanesOf hl) (hmask ▸ hl)
        (fun j hj => by have := hth j (hmask ▸ hj); show (t1.thread (thKey sw j)).wait = _; rw [this]; exact hw j (hmask ▸ hj))
      have Q := kept_foldl (gid := gid) (warp := warp) (sl := sl) _ post (fun _ h => h) (Kept.refl sw _ (releaseWaitm gid warp sl k (releaseMask gid warp sl k t1)))
      have z' : (releaseWaitm gid warp sl k (releaseMask gid warp sl k t1)).thread (thKey sw l) = wakeThread (s.thread (thKey sw l)) := z.trans (by rw [show t1.thread (thKey (swKey gid warp sl) l) = _ from hth l hl])
      rcases Q.thread (thKey sw l) with a | ⟨a, _⟩ | ⟨_, _, a, _⟩
      · rw [a, z']
      · rw [z'] at a; cases a
      · rw [z'] at a; cases a
theorem pairOrder_masks (b : State) (c : Ctx) (h : Shape) (x : Issue) (s : State) (k : Nat) : ((pairOrder b c h x s).sw k).masks = (s.sw k).masks := by
  have := (onlyMoves_pairOrder b c h x s).sws k
  exact (congrArg SliceWarp.masks this : _)

/-- The masks that an instruction names exist (R116 reason 0x24). -/
theorem Runs.masks_lt {i : Instr} {s : State} {c : Ctx} {h : Shape} {x : Issue} (r : Runs s i c h x) : ∀ k ∈ h.masks, k < 12 := by
  have e := r.static
  intro k hk
  by_contra hc
  simp only [staticReasons, r.2.1] at e
  simp only [List.append_eq_nil_iff] at e
  have e2 := e.1.1.1.1.1.2
  rw [if_pos] at e2
  · cases e2
  · simp only [Bool.or_eq_true, List.any_eq_true, decide_eq_true_eq]
    left; right; exact ⟨k, hk, by omega⟩

/-- The group of the run in progress. -/
theorem Runs.group {i : Instr} {s : State} {c : Ctx} {h : Shape} {x : Issue} (r : Runs s i c h x) : mget? s.groups c.run.gid = some c.g := by
  have e := r.1
  unfold ctx? at e
  split at e
  · cases e
  · split at e
    · cases e
    · rename_i hg
      simp only [Option.some.injEq] at e
      subst e; exact hg

end Sys2Proof.Machine
end

