-- ==== Sys2Proof/WellFormed.lean ====
section
/-! DEFINITION. Well-formed instructions: those whose words raise no reason of spec/04 R116 by themselves. -/

namespace Sys2Proof

/-- An instruction whose words no encoding check of R116 turns away, whatever the state. -/
def wellFormed (i : Instr) : Bool := (Machine.staticReasons i).isEmpty

/-- The reason code that the words of an ill-formed instruction raise (R116, R117). -/
def illFormedReason (i : Instr) : Option Nat := Machine.leastReason (Machine.staticReasons i)

end Sys2Proof
end

