-- ==== Sys2Proof/Tests/Slice0.lean ====
section
/-! SUPPORT. Tests. Words and results come from the examples of spec/ (the rule is named at each test); the theorems witness_<Statement> give,
for each statement with hypotheses, states and operands that meet them. -/

namespace Sys2Proof.Tests

set_option Elab.async false

open Sys2Proof Sys2Proof.Machine

/-- The state after reset with an instruction placed at the port of core 0's execute slice: one warp of 16 lanes, its group named 1. -/
def demo (i : Instr) : Machine.State := State.reset.withFetchWord (32 * (encode i).length) (ofBytesLE (wordBytes (encode i)))

/-- An instruction may execute here, for the lanes of an Issue for which p holds. -/
def fits (s : Machine.State) (i : Instr) (p : Ctx → Shape → Issue → Prop) [∀ c h x, Decidable (p c h x)] : Bool :=
  match ctx? s, shape i with
  | some c, some h =>
    match check s c i h with
    | .go x => decide (p c h x)
    | _ => false
  | _, _ => false

theorem fits_runs {s : Machine.State} {i : Instr} {p : Ctx → Shape → Issue → Prop} [∀ c h x, Decidable (p c h x)]
    (h : fits s i p = true) : ∃ c sh x, Runs s i c sh x ∧ p c sh x := by
  unfold fits at h
  split at h
  · rename_i c sh hc hs
    split at h
    · rename_i x hx
      exact ⟨c, sh, x, ⟨hc, hs, hx⟩, of_decide_eq_true h⟩
    · simp at h
  · simp at h

/-- As fits for an instruction that a fence holds back. -/
def fitsOrdered (chk : Machine.State → Ctx → Shape → Issue → Check) (s : Machine.State) (i : Instr)
    (p : Machine.State → Ctx → Shape → Issue → Prop) [∀ u c h x, Decidable (p u c h x)] : Bool :=
  match ctx? s, shape i with
  | some c, some h =>
    match chk s c h (issueLanes s c h) with
    | .go x => issueReason s c i h == none && fencePending s c.sw == false && decide (p s c h x)
    | _ => false
  | _, _ => false

theorem fits_ordered {chk : Machine.State → Ctx → Shape → Issue → Check} {s : Machine.State} {i : Instr}
    {p : Machine.State → Ctx → Shape → Issue → Prop} [∀ u c h x, Decidable (p u c h x)] (h : fitsOrdered chk s i p = true) :
    ∃ u c sh x, u = s ∧ RunsOrdered chk u i c sh x ∧ p u c sh x := by
  unfold fitsOrdered at h
  split at h
  · rename_i c sh hc hs
    split at h
    · rename_i x hx
      simp only [Bool.and_eq_true, beq_iff_eq] at h
      exact ⟨s, c, sh, x, rfl, ⟨hc, hs, h.1.1, h.1.2, hx⟩, of_decide_eq_true h.2⟩
    · simp at h
  · simp at h

theorem each_runs {is : List Instr} {f : Instr → Machine.State} {p : Instr → Ctx → Shape → Issue → Prop} [∀ i c h x, Decidable (p i c h x)]
    (h : ∀ i ∈ is, fits (f i) i (p i) = true) : ∀ i ∈ is, ∃ c sh x, Runs (f i) i c sh x ∧ p i c sh x := fun i hi => fits_runs (h i hi)

theorem each_ordered {chk : Machine.State → Ctx → Shape → Issue → Check} {is : List Instr} {f : Instr → Machine.State}
    {p : Instr → Machine.State → Ctx → Shape → Issue → Prop} [∀ i u c h x, Decidable (p i u c h x)]
    (h : ∀ i ∈ is, fitsOrdered chk (f i) i (p i) = true) : ∀ i ∈ is, ∃ u c sh x, u = (f i) ∧ RunsOrdered chk u i c sh x ∧ p i u c sh x :=
  fun i hi => fits_ordered (h i hi)

/-- An instruction may execute where it is placed. -/
def starts (i : Instr) : Bool := fits (demo i) i (fun _ _ x => x.lanes ≠ [])

theorem starts_run {is : List Instr} (h : is.all starts = true) : ∀ i ∈ is, ∃ c sh x, Runs (demo i) i c sh x ∧ x.lanes ≠ [] :=
  fun i hi => fits_runs (List.all_eq_true.mp h i hi)

/-- Operand fields of the tests: D = v2, A = v4, B = v6. -/
def r3 : RWord := ⟨2, 4, 6, false, 0, false⟩
/-- D = v2, A = v4. -/
def r2 : RWord := ⟨2, 4, 0, false, 0, false⟩
/-- A = v4 alone. -/
def ra : RWord := ⟨0, 4, 0, false, 0, false⟩
/-- D = v2 alone. -/
def rd : RWord := ⟨2, 0, 0, false, 0, false⟩
/-- No operand. -/
def r0 : RWord := ⟨0, 0, 0, false, 0, false⟩
/-- D = v2, A = v4, in the short form. -/
def s2 : SWord := ⟨2, 4, false, 0, false⟩
/-- D alone. -/
def sd : SWord := ⟨2, 0, false, 0, false⟩
/-- A alone. -/
def sa : SWord := ⟨0, 4, false, 0, false⟩
/-- No operand. -/
def s0 : SWord := ⟨0, 0, false, 0, false⟩
/-- A = s0 and B = s2, uniform registers. -/
def x2 : XWord := ⟨96, 98, 0, false⟩
/-- A = s0. -/
def x1 : XWord := ⟨96, 0, 0, false⟩
/-- No operand. -/
def x0 : XWord := ⟨0, 0, 0, false⟩
/-- Lane masks: D = v2, mask 0. -/
def k2 : KWord := ⟨2, 0, 0, false, 0, false⟩
/-- A = v4, mask 0. -/
def ka : KWord := ⟨0, 4, 0, false, 0, false⟩
/-- No operand. -/
def k0 : KWord := ⟨0, 0, 0, false, 0, false⟩
/-- The next word. -/
def j1 : JWord := ⟨1, false, 0, false⟩
/-- Mask 0, the next word. -/
def m1 : MJWord := ⟨0, 1, false, 0, false⟩
/-- Mask 0. -/
def m0 : MJWord := ⟨0, 0, false, 0, false⟩
/-- A = v4, B = v6, a cache operation. -/
def c2 : CWord := ⟨4, 6, false, 0, false⟩

/-! ### Machines -/

/-- The slice-warp of the instruction placed by demo. -/
def sw1 : Nat := swKey 1 0 .execute

/-- Every lane holds these main registers. -/
def withRegs (rs : SMap W32) (s : Machine.State) : Machine.State :=
  (upFrom 0 16).foldl (fun t l => updTh (thKey sw1 l) (fun th => { th with main := rs }) t) s

/-- The uniform registers of the slice-warp. -/
def withUnis (rs : SMap W32) (s : Machine.State) : Machine.State := updSw sw1 (fun x => { x with uni := rs }) s

/-- The launch FLAGS of the group. -/
def withFlags (n : Nat) (s : Machine.State) : Machine.State :=
  updGroup 1 (fun g => { g with launch := { g.launch with flags := n, slip := 4, aregs := 4 } }) s

/-- The queue of a name holds one READY entry in every lane. -/
def withQueue (q : Nat) (v : W32) (s : Machine.State) : Machine.State :=
  (upFrom 0 16).foldl (fun t l => updQ (qKey 1 0 l q) (fun _ => ⟨[.ready v], false⟩) t) s

/-- A root region under key id 1: its page table at 0x1000 of reticle 0, FLAGS as given, fault records at 0x10000. -/
def rootRcb (flags : Nat) : Rcb where
  parent := 0xFFFF
  depth := 0
  prio := 4
  flags := flags
  inherit := 0x3FF
  keyid := 1
  ptroot := 0x1000
  winset := 0
  wincount := 0
  spadlim := 0
  waylim := 0
  barlim := 0
  gmin := 0
  deadline := 0
  fpolicy := 0
  frq := 0
  handler := 0
  modlo := 0
  modhi := 1023
  netf := 3
  cqtab := 0

/-- A leaf that maps 1 GiB at virtual address 0 to 0x4000_0000 of reticle 0: R, W, X, cacheable, key id 1 (R349). -/
def leaf1 : Nat := 0x4000 * 2 ^ 19 + 2 ^ 11 + 0xF3

/-- Module 0 up, its reticles 0 and 1 in service, the root region and its page table in place, and the leaf in the TLB of core 0. -/
def mapped (flags : Nat) (s : Machine.State) : Machine.State :=
  let s := updRet 0 (fun r => { r with site := .inService, foldMap := [(0, 0)] }) s
  let s := updRet 1 (fun r => { r with site := .inService }) s
  let s := updMod 0 (fun m => { m with booted := true, hostUp := true, keys := [(1, 7)], regions := [(0, ⟨0, rootRcb flags, 0, none, 0, 0, none⟩)] }) s
  let s := writeRaw s 0x1000 (bytesLE 8 0x2001)
  let s := writeRaw s 0x2000 (bytesLE 8 0x3001)
  let s := writeRaw s 0x3000 (bytesLE 8 leaf1)
  let s := { s with sectorKey := [(0x80, 7), (0x100, 7), (0x180, 7)] }
  updCore 0 (fun c => { c with tlb := [⟨0, 0, 0x40000000, leaf1⟩] }) s

/-- A plan goes on. -/
def planned (p : LanePlan) : Prop := ∃ pa e, p.plan = .ok pa e
/-- A plan goes on, as a test. -/
def isPlanned (p : Plan) : Bool :=
  match p with
  | .ok _ _ => true
  | _ => false

theorem isPlanned_ok {p : Plan} (h : isPlanned p = true) : ∃ pa e, p = .ok pa e := by
  unfold isPlanned at h
  split at h
  · exact ⟨_, _, rfl⟩
  · simp at h

theorem all_planned {ps : List LanePlan} (h : ps.all (fun p => isPlanned p.plan) = true) : ∀ p ∈ ps, ∃ pa e, p.plan = .ok pa e :=
  fun p hp => isPlanned_ok (List.all_eq_true.mp h p hp)

/-! ### Statements about instructions -/

def integerArithmetic : List Instr :=
  [.add r3, .sub r3, .mul r3, .addi r3, .addl r2 0, .mulh r3, .mulhu r3, .madd r3, .abs r2, .min r3, .max r3, .minu r3, .maxu r3]
theorem witness_IntegerArithmetic : ∀ i ∈ integerArithmetic, ∃ c sh x, Runs (demo i) i c sh x ∧ x.lanes ≠ [] := starts_run (by decide)

def logicAndShifts : List Instr :=
  [.and r3, .or r3, .xor r3, .andn r3, .shl r3, .shr r3, .sar r3, .rot r3, .shli r3, .shri r3, .sari r3]
theorem witness_LogicAndShifts : ∀ i ∈ logicAndShifts, ∃ c sh x, Runs (demo i) i c sh x ∧ x.lanes ≠ [] := starts_run (by decide)

def bitCounts : List Instr :=
  [.clz s2, .ctz s2, .popc s2, .brev s2]
theorem witness_BitCounts : ∀ i ∈ bitCounts, ∃ c sh x, Runs (demo i) i c sh x ∧ x.lanes ≠ [] := starts_run (by decide)

def fieldsMovesAndAddresses : List Instr :=
  [.bfx r2 0x300, .bfi r2 0x300, .sel r3 0, .mov r2, .movl rd 7, .addc r3, .subb r3, .lea r3 0, .idot4 r3 0]
theorem witness_FieldsMovesAndAddresses : ∀ i ∈ fieldsMovesAndAddresses, ∃ c sh x, Runs (demo i) i c sh x ∧ x.lanes ≠ [] := starts_run (by decide)

def comparesAndPredicates : List Instr :=
  [.cmpeq r3, .cmpne r3, .cmplt r3, .cmple r3, .cmpltu r3, .cmpleu r3, .cmpeqi r3, .cmplti r3, .pand r3, .por r3, .pxor r3, .pmov
   r2]
theorem witness_ComparesAndPredicates : ∀ i ∈ comparesAndPredicates, ∃ c sh x, Runs (demo i) i c sh x ∧ x.lanes ≠ [] := starts_run (by decide)

def divisions : List Instr :=
  [.div r3, .rem r3, .divu r3, .remu r3]
theorem witness_Divisions : ∀ i ∈ divisions, ∃ c sh x, Runs (demo i) i c sh x ∧ x.lanes ≠ [] := starts_run (by decide)

def specialFunctions : List Instr :=
  [.frcp r2, .frsq r2, .fexp2 r2, .flog2 r2, .fsin r2, .fcos r2, .ftanh r2, .fsqrt r2]
theorem witness_SpecialFunctions : ∀ i ∈ specialFunctions, ∃ c sh x, Runs (demo i) i c sh x ∧ x.lanes ≠ [] := starts_run (by decide)

def floatingArithmetic : List Instr :=
  [.fadd r3, .fsub r3, .fmul r3, .ffma r3, .fmin r3, .fmax r3, .fneg r2, .fabs r2, .frnd r2]
theorem witness_FloatingArithmetic : ∀ i ∈ floatingArithmetic, ∃ c sh x, Runs (demo i) i c sh x ∧ x.lanes ≠ [] := starts_run (by decide)

def packedDotsAndConversions : List Instr :=
  [.hadd2 r3, .hmul2 r3, .hfma2 r3, .badd2 r3, .bmul2 r3, .bfma2 r3, .tdot4 r3, .fcvt r2 0, .fcvts r2 0]
theorem witness_PackedDotsAndConversions : ∀ i ∈ packedDotsAndConversions, ∃ c sh x, Runs (demo i) i c sh x ∧ x.lanes ≠ [] := starts_run (by decide)

def floatingCompares : List Instr :=
  [.fcmpeq r3, .fcmplt r3, .fcmple r3, .fcmpun r3]
theorem witness_FloatingCompares : ∀ i ∈ floatingCompares, ∃ c sh x, Runs (demo i) i c sh x ∧ x.lanes ≠ [] := starts_run (by decide)

def specialReads : List Instr :=
  [.rds rd 0, .time sd, .mrd k2, .mcnt k2, .tffr s2, .ttest s2]
theorem witness_SpecialReads : ∀ i ∈ specialReads, ∃ c sh x, Runs (demo i) i c sh x ∧ x.lanes ≠ [] := starts_run (by decide)

def exchanges : List Instr :=
  [.shfli r3, .shflu r3, .shfld r3, .shflx r3, .voteBallot s2, .reduxAdd s2, .reduxMin s2, .reduxMax s2, .reduxMinu s2, .reduxMaxu
   s2, .reduxAnd s2, .reduxOr s2, .reduxXor s2]
theorem witness_Exchanges : ∀ i ∈ exchanges, ∃ c sh x, Runs (demo i) i c sh x ∧ x.lanes ≠ [] := starts_run (by decide)

def votesAndElection : List Instr :=
  [.voteAll s2, .voteAny s2, .elect rd]
theorem witness_VotesAndElection : ∀ i ∈ votesAndElection, ∃ c sh x, Runs (demo i) i c sh x ∧ x.lanes ≠ [] := starts_run (by decide)

def controlRegisters : List Instr :=
  [.nop r0, .wbase ⟨0, 0, 1, false, 0, false⟩, .fsetrm ⟨0, 0, 1, false, 0, false⟩, .wrs ra 0, .fflagRd sd, .fflagClr s0]
theorem witness_ControlRegisters : ∀ i ∈ controlRegisters, ∃ c sh x, Runs (demo i) i c sh x ∧ x.lanes ≠ [] := starts_run (by decide)

def branches : List Instr :=
  [.bra j1, .call j1, .jmpr ra]
theorem witness_Branches : ∀ i ∈ branches, ∃ c sh x, Runs (demo i) i c sh x ∧ x.lanes ≠ [] := starts_run (by decide)

def meetings : List Instr :=
  [.meet m1, .leave m0, .waitm m0, .mwr ka, .mand ka, .mor ka]
theorem witness_Meetings : ∀ i ∈ meetings, ∃ c sh x, Runs (demo i) i c sh x ∧ x.lanes ≠ [] := starts_run (by decide)

/-- A word of the 0x1F group with a reserved B (R156). -/
theorem witness_BitCounts_reserved : ∃ c, ctx? (State.reset.withFetchWord 32 0x3E000040) = some c ∧ bitsOf c.word.toNat 31 25 = 0x1F
    ∧ 4 ≤ bitsOf c.word.toNat 10 4 ∧ (State.reset.withFetchWord 32 0x3E000040).agenda = [] := by decide

/-- Reads of queue q0 (88) in a decoupled grid: an entry is there. -/
def queueDemo (i : Instr) : Machine.State := withQueue 88 5 (withFlags 1 (demo i))
theorem witness_QueueReads : ∀ i ∈ ([.qpeek ⟨2, 88, false, 0, false⟩, .qlevel ⟨2, 88, false, 0, false⟩] : List Instr),
    ∃ c h x, Runs (queueDemo i) i c h x ∧ x.lanes.length = 16 :=
  each_runs (by decide +kernel)
theorem witness_QueueOperations : ∀ i ∈ ([.qpopp ⟨2, 88, false, 0, false⟩, .qflush ⟨0, 88, false, 0, false⟩, .qclose ⟨0, 92, false, 0, false⟩] : List Instr),
    ∃ c h x, Runs (queueDemo i) i c h x ∧ x.lanes.length = 16 :=
  each_runs (by decide +kernel)

/-- No special function is in flight, and no enabled flag is raised, where FFLAG, WAITM and EXIT run. -/
theorem witness_delivery : ∀ i ∈ ([.fflagRd sd, .fflagClr s0, .waitm m0, .exit r0] : List Instr), ∃ c h x, Runs (demo i) i c h x
    ∧ sfuPending (demo i) c.run.gid c.run.warp c.run.slice = false ∧ fpTest (demo i) c = 0 ∧ x.lanes ≠ [] :=
  each_runs (by decide +kernel)

/-- A request in flight of the slice-warp of demo. -/
def flight1 (kind : ReqKind) : Flight where
  kind := kind
  gid := 1
  warp := 0
  slice := .execute
  core := 0
  pc := 0
  runSeq := 0
  size := 4
  words := 1
  sx := false
  aop := 0
  wide := false
  dest := .drop
  lanes := [⟨0, 0, 0x40000000, 2, 5, 0, none, none⟩]
  key := 1
  cached := false
  stream := false
  spad := false
  m := 0
  root := 0
  region := 0
  grid := 1
  staged := false
  after := []
  performed := false

theorem witness_Loads : ∃ u c h x, u = (mapped 0 (demo (.ld r3 0))) ∧ RunsOrdered queueCheck u (.ld r3 0) c h x
    ∧ x.lanes ≠ [] ∧ (accessPlans u c h x 0 false .read).all (fun p => isPlanned p.plan) = true := fits_ordered (by decide +kernel)
theorem witness_Loads_lds : ∃ u c h x, u = (demo (.lds r3 0)) ∧ RunsOrdered queueCheck u (.lds r3 0) c h x
    ∧ x.lanes ≠ [] ∧ (accessPlans u c h x 0 true .read).all (fun p => isPlanned p.plan) = true := fits_ordered (by decide +kernel)

theorem witness_Stores : ∃ u c h x, u = (mapped 0 (demo (.st r3 0))) ∧ RunsOrdered queueCheck u (.st r3 0) c h x
    ∧ c.g.launch.protected = false ∧ x.lanes ≠ [] ∧ (accessPlans u c h x 0 false .write).all (fun p => isPlanned p.plan) = true
    ∧ ((mapped 0 (demo (.st r3 0))).sw c.sw).unack + (gather (requestKey (okPlans (accessPlans u c h x 0 false .write)))
        ((okPlans (accessPlans u c h x 0 false .write)).map (fun p => laneReq (mapped 0 (demo (.st r3 0))) c 127 p 0 0))).length ≤ 255 :=
  fits_ordered (by decide +kernel)
theorem witness_Stores_sts : ∃ u c h x, u = (demo (.sts r3 0)) ∧ RunsOrdered queueCheck u (.sts r3 0) c h x
    ∧ c.g.launch.protected = false ∧ x.lanes ≠ [] ∧ (accessPlans u c h x 0 true .write).all (fun p => isPlanned p.plan) = true
    ∧ ((demo (.sts r3 0)).sw c.sw).unack + (gather (requestKey (okPlans (accessPlans u c h x 0 true .write)))
        ((okPlans (accessPlans u c h x 0 true .write)).map (fun p => laneReq (demo (.sts r3 0)) c 127 p 0 0))).length ≤ 255 :=
  fits_ordered (by decide +kernel)
/-- At UNACK = 255 the store waits. -/
def fullDemo : Machine.State := updSw sw1 (fun x => { x with unack := 255 }) (demo (.sts r3 0))
theorem witness_Stores_full : ∃ u c h x, u = fullDemo ∧ RunsOrdered queueCheck u (.sts r3 0) c h x
    ∧ c.g.launch.protected = false ∧ (accessPlans u c h x 0 true .write).all (fun p => isPlanned p.plan) = true
    ∧ 255 < (fullDemo.sw c.sw).unack + (gather (requestKey (okPlans (accessPlans u c h x 0 true .write)))
        ((okPlans (accessPlans u c h x 0 true .write)).map (fun p => laneReq fullDemo c 127 p 0 0))).length :=
  fits_ordered (by decide +kernel)

/-- The plans of an atomic at its address, as Atomics states them. -/
def atomPlans (u : Machine.State) (c : Ctx) (h : Shape) (x : Issue) (scratch : Bool) (n : Nat) : List LanePlan :=
  x.lanes.map (fun l =>
    if scratch then lanePlan u c h l (((srcN u c h l 0 % 2 ^ 32 : Nat) : Int)) (fun _ => planSpad u c .both (((srcN u c h l 0 % 2 ^ 32 : Nat) : Int)) n)
    else lanePlan u c h l ((srcN u c h l 0 : Nat) : Int) (fun _ => planVirtual u c .both (BitVec.ofNat 64 (srcN u c h l 0)) n))
theorem witness_Atomics : ∃ u c h x, u = (mapped 0 (demo (.atom r3 0))) ∧ RunsOrdered queueCheck u (.atom r3 0) c h x
    ∧ c.g.launch.protected = false ∧ x.lanes ≠ [] ∧ (atomPlans u c h x false 4).all (fun p => isPlanned p.plan) = true := fits_ordered (by decide +kernel)
/-- REL and ACQ. -/
theorem witness_Atomics_atoms : ∃ u c h x, u = (demo (.atoms r3 6)) ∧ RunsOrdered queueCheck u (.atoms r3 6) c h x
    ∧ acRel 6 = true ∧ acAcq 6 = true ∧ releaseDone u c (mcScope 6) = true
    ∧ c.g.launch.protected = false ∧ x.lanes ≠ [] ∧ (atomPlans u c h x true 4).all (fun p => isPlanned p.plan) = true := fits_ordered (by decide +kernel)

theorem witness_Fences : ∀ i ∈ ([.fence k0, .acq k0, .rel k0] : List Instr), ∃ u c h x, u = (demo i) ∧ RunsOrdered operandCheck u i c h x
    ∧ x.lanes ≠ [] ∧ sfuPending u c.run.gid c.run.warp c.run.slice = false ∧ fpTest u c = 0 ∧ releaseOps u c 0 = [] := each_ordered (by decide +kernel)
/-- With a load in flight the fence waits. -/
def loadOut (i : Instr) : Machine.State := { demo i with flight := [(2, flight1 .load)] }
theorem witness_Fences_wait : ∀ i ∈ ([.fence k0, .acq k0, .rel k0] : List Instr), ∃ u c h x, u = (loadOut i) ∧ RunsOrdered operandCheck u i c h x
    ∧ x.lanes ≠ [] ∧ sfuPending u c.run.gid c.run.warp c.run.slice = false ∧ fpTest u c = 0 ∧ releaseOps u c 0 ≠ [] ∧ readsInFlight u c ≠ [] :=
  each_ordered (by decide +kernel)

/-- A slice and the other slice of its thread, at core scope; each scope around the slice holds it. -/
theorem witness_Fences_scopes : canSynchronise (mapped 0 (demo (.nop r0))) (.slice 1 0 0 .execute) 4 (.slice 1 0 0 .access) 4 = true
    ∧ inScope (mapped 0 (demo (.nop r0))) 1 (.slice 1 0 0 .execute) (.slice 1 0 0 .access) = true
    ∧ (mget? (mapped 0 (demo (.nop r0))).groups 1).isSome = true
    ∧ (Party.ret? (mapped 0 (demo (.nop r0))) (.slice 1 0 0 .access)).all (inService (mapped 0 (demo (.nop r0)))) = true := by decide +kernel

theorem witness_WaitOnAddress : ∃ u c h x, u = (mapped 0 (demo (.waita r2 64))) ∧ RunsOrdered queueCheck u (.waita r2 64) c h x
    ∧ x.lanes ≠ [] ∧ h.reads.find? (poisonedUse u c (electedLane x)) = none
    ∧ isPlanned (planVirtual u c .read (BitVec.ofInt 64 (eaVirtual 64 (srcN u c h (electedLane x) 0) (srcN u c h (electedLane x) 1))) 4) = true :=
  fits_ordered (by decide +kernel)

/-- What an access to the line of a cache operation is planned as. -/
def linePlan (u : Machine.State) (c : Ctx) (h : Shape) (x : Issue) (acc : Access) : Plan :=
  planVirtual u c acc (BitVec.ofInt 64 (eaVirtual 0 (srcN u c h (electedLane x) 0) (srcN u c h (electedLane x) 1))) 0
/-- The physical address of a plan. -/
def planPa (p : Plan) : Nat :=
  match p with
  | .ok pa _ => pa
  | _ => 0
theorem witness_CacheOperations : ∀ i ∈ ([.cinv c2 0, .cwb c2 0, .czero c2 0] : List Instr), ∃ u c h x,
    u = (mapped 0 (demo i)) ∧ RunsOrdered queueCheck u i c h x ∧ x.lanes ≠ [] ∧ h.reads.find? (poisonedUse u c (electedLane x)) = none
    ∧ isPlanned (linePlan u c h x .either) = true ∧ isPlanned (linePlan u c h x .write) = true ∧ l1Kind (planPa (linePlan u c h x .either)) = true
    ∧ ((mapped 0 (demo i)).sw c.sw).unack < 255 := each_ordered (by decide +kernel)
/-- The same page mapped to scratchpad, which L1 does not hold. -/
def leaf2 : Nat := 0xA000000 * 2 ^ 19 + 2 ^ 11 + 0x73
def mappedSpad (s : Machine.State) : Machine.State :=
  updCore 0 (fun c => { c with tlb := [⟨0, 0, 0x40000000, leaf2⟩] }) (writeRaw (mapped 0 s) 0x3000 (bytesLE 8 leaf2))
theorem witness_CacheOperations_spad : ∀ i ∈ ([.cinv c2 0, .cwb c2 0] : List Instr), ∃ u c h x,
    u = (mappedSpad (demo i)) ∧ RunsOrdered queueCheck u i c h x ∧ x.lanes ≠ [] ∧ h.reads.find? (poisonedUse u c (electedLane x)) = none
    ∧ isPlanned (linePlan u c h x .either) = true ∧ l1Kind (planPa (linePlan u c h x .either)) = false := each_ordered (by decide +kernel)
theorem witness_CacheOperations_cpf : ∃ u c h x, u = (mapped 0 (demo (.cpf c2 0))) ∧ RunsOrdered operandCheck u (.cpf c2 0) c h x ∧ x.lanes ≠ [] :=
  fits_ordered (by decide +kernel)
/-- CPART in a supervisor region, of n ways. -/
def cpartDemo (n : W32) : Machine.State := withRegs [(4, n)] (mapped 1 (demo (.cpart ⟨4, 112, false, 0, false⟩ 0)))
theorem witness_CacheOperations_cpart : ∃ u c h x, u = (cpartDemo 8) ∧ RunsOrdered operandCheck u (.cpart ⟨4, 112, false, 0, false⟩ 0) c h x
    ∧ x.lanes ≠ [] ∧ srcN u c h (electedLane x) 0 = 8 ∧ releaseDone u c 6 = true ∧ ((cpartDemo 8).ret c.ret).cpartTo = none :=
  fits_ordered (by decide +kernel)
theorem witness_CacheOperations_cpart_low : ∃ u c h x, u = (cpartDemo 3) ∧ RunsOrdered operandCheck u (.cpart ⟨4, 112, false, 0, false⟩ 0) c h x
    ∧ x.lanes ≠ [] ∧ srcN u c h (electedLane x) 0 = 3 := fits_ordered (by decide +kernel)
theorem witness_CacheOperations_cpart_high : ∃ u c h x, u = (cpartDemo 17) ∧ RunsOrdered operandCheck u (.cpart ⟨4, 112, false, 0, false⟩ 0) c h x
    ∧ x.lanes ≠ [] ∧ srcN u c h (electedLane x) 0 = 17 := fits_ordered (by decide +kernel)

/-- Tag 0 has one operation. -/
def tagDemo (i : Instr) : Machine.State := updGroup 1 (fun g => { g with tags := [(0, 1)] }) (withRegs [(4, 1)] (demo i))
theorem witness_TagWaits : ∀ i ∈ ([.twany sa, .twall sa, .tclr sa] : List Instr), ∃ c h x, Runs (demo i) i c h x ∧ x.lanes ≠ []
    ∧ src64 (demo i) c h 0 0 = 0 ∧ tagsReg c.g &&& 0 = 0 := each_runs (by decide +kernel)
theorem witness_TagWaits_wait : ∀ i ∈ ([.twany sa, .twall sa] : List Instr), ∃ c h x, Runs (tagDemo i) i c h x ∧ x.lanes ≠ []
    ∧ src64 (tagDemo i) c h (electedLane x) 0 = 1 ∧ tagsReg c.g &&& 1 = 0 := each_runs (by decide +kernel)

theorem witness_SleepAndYield : ∃ c h x, Runs (demo (.sleep sa)) (.sleep sa) c h x ∧ x.lanes ≠ [] ∧ (src32 (demo (.sleep sa)) c h (electedLane x) 0).toNat = 0 :=
  fits_runs (by decide +kernel)
theorem witness_SleepAndYield_sleep : ∃ c h x, Runs (withRegs [(4, 1)] (demo (.sleep sa))) (.sleep sa) c h x ∧ x.lanes ≠ []
    ∧ (src32 (withRegs [(4, 1)] (demo (.sleep sa))) c h (electedLane x) 0).toNat ≠ 0 ∧ c.g.preq = false := fits_runs (by decide +kernel)
/-- A YIELD at word 1 of CODE = 0x10080, listed as the one safe point of its side tables, with the request raised (R341, R362, R363). -/
def yieldDemo : Machine.State :=
  let s := mapped 0 (demo (.yield s0))
  let s := updGroup 1 (fun g => { g with preq := true, launch := { g.launch with code := 0x10080 } }) s
  let s := setPort ⟨0, .execute⟩ ((s.portRun ⟨0, .execute⟩).map (fun r => { r with addr := 0x10080 })) s
  writeRaw (writeRaw s 0x40010000 (bytesLE 2 1 ++ bytesLE 2 0 ++ bytesLE 4 1 ++ bytesLE 8 0x100 ++ bytesLE 8 0x180)) 0x40010180
    (bytesLE 4 1) |> fun s => writeRaw s 0x40010200 (bytesLE 4 1)
theorem witness_SleepAndYield_yield : ∃ c h x, Runs (demo (.yield s0)) (.yield s0) c h x ∧ x.lanes ≠ [] ∧ c.g.preq = false := fits_runs (by decide +kernel)
theorem witness_SleepAndYield_listed : ∃ c h x, Runs yieldDemo (.yield s0) c h x ∧ x.lanes ≠ [] ∧ c.g.preq = true
    ∧ liveMask yieldDemo c.g ((c.pc - BitVec.ofNat 64 c.g.launch.code).toNat / 4) ≠ none := fits_runs (by decide +kernel)

theorem witness_BarrierArrivals : ∀ i ∈ ([.bar s2, .bara s2, .barw sd] : List Instr), ∃ u c h x, u = (demo i) ∧ RunsOrdered operandCheck u i c h x ∧ x.lanes ≠ []
    ∧ (slotOf c.g 2).fabric = false ∧ (slotOf c.g 2).lost = false ∧ releaseDone u c 3 = true ∧ (src32 u c h (electedLane x) 0).toNat < 4096
    ∧ (slotOf c.g 2).count = 0 ∧ (slotOf c.g 2).arrived = 0
    ∧ sfuPending u c.run.gid c.run.warp c.run.slice = false ∧ fpTest u c = 0 := each_ordered (by decide +kernel)
/-- A barrier tree 0 of root region 0 at reticle 0. -/
def treeDemo : Machine.State :=
  updRet 0 (fun r => { r with trees := [(0, ⟨7, 1, 0, 6, 1, 0, 0, [], false⟩)] }) (demo (.fbar s2))
theorem witness_BarrierArrivals_fbar : ∃ u c h x e, u = treeDemo ∧ RunsOrdered operandCheck u (.fbar s2) c h x ∧ x.lanes ≠ []
    ∧ (src32 u c h (electedLane x) 0).toNat = 0 ∧ (slotOf c.g 2).lost = false ∧ (slotOf c.g 2).count = 0 ∧ (slotOf c.g 2).fabric = false
    ∧ treeOf u c.ret 0 = some e ∧ e.rootreg = c.g.root ∧ e.lost = false ∧ releaseDone u c e.scope = true := by
  obtain ⟨u, c, h, x, hu, hr, hp⟩ := @fits_ordered operandCheck treeDemo (.fbar s2) (fun u c h x => x.lanes ≠ []
    ∧ (src32 u c h (electedLane x) 0).toNat = 0 ∧ (slotOf c.g 2).lost = false ∧ (slotOf c.g 2).count = 0 ∧ (slotOf c.g 2).fabric = false
    ∧ treeOf u c.ret 0 = some ⟨7, 1, 0, 6, 1, 0, 0, [], false⟩ ∧ 0 = c.g.root ∧ releaseDone u c 6 = true) _ (by decide +kernel)
  exact ⟨u, c, h, x, _, hu, hr, hp.1, hp.2.1, hp.2.2.1, hp.2.2.2.1, hp.2.2.2.2.1, hp.2.2.2.2.2.1, hp.2.2.2.2.2.2.1, rfl, hp.2.2.2.2.2.2.2⟩

/-- CWAIT on the counter at scratchpad address 0, whose value 0 is not above the threshold 0, and is above −1. -/
theorem witness_CounterWaits : ∃ u c h x, u = (demo (.cwait s2)) ∧ RunsOrdered operandCheck u (.cwait s2) c h x ∧ x.lanes ≠ []
    ∧ src32 u c h (electedLane x) 0 = 0 ∧ cwaitMember c.core 0 = c.core ∧ cwaitDead u c.core 0 = none
    ∧ cwaitMet u c.core 0 (src32 u c h (electedLane x) 1) = true := fits_ordered (by decide +kernel)
theorem witness_CounterWaits_wait : ∃ u c h x, u = (withRegs [(2, 0xFFFFFFFF)] (demo (.cwait s2))) ∧ RunsOrdered operandCheck u (.cwait s2) c h x ∧ x.lanes ≠ []
    ∧ src32 u c h (electedLane x) 0 = 0 ∧ cwaitMember c.core 0 = c.core ∧ cwaitDead u c.core 0 = none
    ∧ cwaitMet u c.core 0 (src32 u c h (electedLane x) 1) = false := fits_ordered (by decide +kernel)
/-- The remote form: completion counter 5 of the reticle, whose endpoint queue is bound to root region 0. -/
def remoteDemo : Machine.State :=
  updRet 0 (fun r => { r with endpoint := [(5, 0x1000)] }) (withRegs [(4, 0x80000005)] (demo (.cwait s2)))
theorem witness_CounterWaits_remote : ∃ u c h x, u = remoteDemo ∧ RunsOrdered operandCheck u (.cwait s2) c h x ∧ x.lanes ≠ []
    ∧ src32 u c h (electedLane x) 0 = 0x80000005 ∧ endpointRoot u c.ret 5 = some c.g.root := fits_ordered (by decide +kernel)

theorem witness_Traps : ∀ i ∈ ([.trap sa, .bkpt s0] : List Instr), ∃ c h x, Runs (demo i) i c h x ∧ x.lanes ≠ [] := starts_run (by decide)
/-- Under a guard that is false in every lane nothing executes. -/
theorem witness_Traps_none : ∀ i ∈ ([.trap ⟨0, 4, false, 1, false⟩, .bkpt ⟨0, 0, false, 1, false⟩] : List Instr), ∃ c h x, Runs (demo i) i c h x ∧ x.lanes = [] :=
  each_runs (by decide +kernel)

/-- N = 16 in s4, which the MX control words name; LENGTH = 64 for the requests. -/
def mxDemo (i : Instr) : Machine.State := withUnis [(4, 16)] (demo i)
/-- The elected lane's captured operands of MXMA, MXLD, MXST and MXZ pass their checks. -/
def mxReady (s : Machine.State) (c : Ctx) (o : MxOp) : Prop :=
  mxFault s c o = none ∧ (s.core c.core).mxq.length < 4 ∧ (s.ret c.ret).hold = false ∧ tagFull s c.run.gid o.tag = false
theorem witness_MatrixOperations_mxma : ∃ c h x, Runs (mxDemo (.mxma x2 0x40000)) (.mxma x2 0x40000) c h x ∧ x.lanes ≠ []
    ∧ mxReady (mxDemo (.mxma x2 0x40000)) c (mxCapture (mxDemo (.mxma x2 0x40000)) c 0 (srcN (mxDemo (.mxma x2 0x40000)) c h (electedLane x) 2)
      (pairWords (mxDemo (.mxma x2 0x40000)) c h (electedLane x) 0) (pairWords (mxDemo (.mxma x2 0x40000)) c h (electedLane x) 1) 0 0x40000) :=
  @fits_runs _ _ _ (fun _ _ _ => by unfold mxReady; infer_instance) (by decide +kernel)
theorem witness_MatrixOperations_mxld : ∃ c h x, Runs (mxDemo (.mxld x1 0x40000)) (.mxld x1 0x40000) c h x ∧ x.lanes ≠ []
    ∧ mxReady (mxDemo (.mxld x1 0x40000)) c (mxCapture (mxDemo (.mxld x1 0x40000)) c 1 (srcN (mxDemo (.mxld x1 0x40000)) c h (electedLane x) 1)
      (pairWords (mxDemo (.mxld x1 0x40000)) c h (electedLane x) 0) (0, 0) 0 0x40000) :=
  @fits_runs _ _ _ (fun _ _ _ => by unfold mxReady; infer_instance) (by decide +kernel)
theorem witness_MatrixOperations_mxst : ∃ c h x, Runs (mxDemo (.mxst x1 0x40000)) (.mxst x1 0x40000) c h x ∧ x.lanes ≠ []
    ∧ mxReady (mxDemo (.mxst x1 0x40000)) c (mxCapture (mxDemo (.mxst x1 0x40000)) c 2 (srcN (mxDemo (.mxst x1 0x40000)) c h (electedLane x) 1)
      (pairWords (mxDemo (.mxst x1 0x40000)) c h (electedLane x) 0) (0, 0) 0 0x40000) :=
  @fits_runs _ _ _ (fun _ _ _ => by unfold mxReady; infer_instance) (by decide +kernel)
theorem witness_MatrixOperations_mxz : ∃ c h x, Runs (mxDemo (.mxz x0 0x40000)) (.mxz x0 0x40000) c h x ∧ x.lanes ≠ []
    ∧ mxReady (mxDemo (.mxz x0 0x40000)) c (mxCapture (mxDemo (.mxz x0 0x40000)) c 3 (srcN (mxDemo (.mxz x0 0x40000)) c h (electedLane x) 0)
      (0, 0) (0, 0) 0 0x40000) :=
  @fits_runs _ _ _ (fun _ _ _ => by unfold mxReady; infer_instance) (by decide +kernel)
theorem witness_MatrixOperations_ofence : ∃ c h x, Runs (demo (.ofence x0 0)) (.ofence x0 0) c h x ∧ x.lanes ≠ []
    ∧ spadStoresOut (demo (.ofence x0 0)) c = false := fits_runs (by decide +kernel)

theorem witness_Copies : ∃ u c h x, u = (demo (.copy ⟨0, 96, 0, 0, false⟩ 0)) ∧ RunsOrdered operandCheck u (.copy ⟨0, 96, 0, 0, false⟩ 0) c h x ∧ x.lanes ≠ []
    ∧ descriptorFault u c (srcN u c h (electedLane x) 0) = none ∧ (u.core c.core).copyq.length < 8 ∧ tagFull u c.run.gid 0 = false :=
  fits_ordered (by decide +kernel)

/-- LENGTH in s4, which PREG names; queue 0 of the endpoint is bound to root region 0. -/
def netDemo (i : Instr) : Machine.State :=
  updRet 0 (fun r => { r with endpoint := [(0, 0x1000)] }) (withUnis [(4, 8)] (mapped 0 (demo i)))
/-- The checks of a direct request whose address fields are 0 (R329). -/
def netReady (u : Machine.State) (c : Ctx) (wr : WorkReq) : Prop :=
  1 ≤ wr.length ∧ wr.length ≤ 0x1000000 ∧ wr.ordered = false ∧ wr.landing = 0 ∧ wr.laddr % 8 = 0 ∧ wr.raddr % 8 = 0
  ∧ isPlanned (planVirtual u c .both (BitVec.ofNat 64 wr.laddr) 0) = true ∧ isPlanned (planVirtual u c .read (BitVec.ofNat 64 wr.laddr) 0) = true
  ∧ isPlanned (planVirtual u c .write (BitVec.ofNat 64 wr.raddr) 0) = true ∧ isPlanned (planVirtual u c .read (BitVec.ofNat 64 wr.raddr) 0) = true
  ∧ endpointRoot (dropWalkFaults c u) c.ret 0 = some c.g.root ∧ tagFull (dropWalkFaults c u) c.run.gid wr.tag = false
  ∧ wrqUsed (dropWalkFaults c u) c.ret 0 < 64
theorem witness_NetworkPosts_rput : ∃ u c h x, u = (netDemo (.rput x2 0x800000)) ∧ RunsOrdered operandCheck u (.rput x2 0x800000) c h x ∧ x.lanes ≠ []
    ∧ netReady u c (directRequest u c h (electedLane x) 0 0x800000) :=
  @fits_ordered _ _ _ _ (fun _ _ _ _ => by unfold netReady; infer_instance) (by decide +kernel)
theorem witness_NetworkPosts_rget : ∃ u c h x, u = (netDemo (.rget x2 0x800000)) ∧ RunsOrdered operandCheck u (.rget x2 0x800000) c h x ∧ x.lanes ≠ []
    ∧ netReady u c (directRequest u c h (electedLane x) 2 0x800000) :=
  @fits_ordered _ _ _ _ (fun _ _ _ _ => by unfold netReady; infer_instance) (by decide +kernel)
theorem witness_NetworkPosts_ratom : ∃ u c h x, u = (netDemo (.ratom x2 0x800000)) ∧ RunsOrdered operandCheck u (.ratom x2 0x800000) c h x ∧ x.lanes ≠ []
    ∧ netReady u c (directRequest u c h (electedLane x) 3 0x800000) :=
  @fits_ordered _ _ _ _ (fun _ _ _ _ => by unfold netReady; infer_instance) (by decide +kernel)
/-- A WRITE of one byte to reticle 0 stands in scratchpad at address 0. -/
def npostDemo : Machine.State := writeRaw (netDemo (.npost x1 0)) (scratchPa 0 4) [1]
theorem witness_NetworkPosts_npost : ∃ u c h x, u = npostDemo ∧ RunsOrdered operandCheck u (.npost x1 0) c h x ∧ x.lanes ≠ []
    ∧ srcN u c h (electedLane x) 0 = 0 ∧ descriptorFault u c 0 = none ∧ spadStoresOut u c = false
    ∧ (u.core (memberCore c.core 0)).dead = false ∧ poisonedIn u (scratchPa c.core 0) 64 = none
    ∧ (workReq (readRaw u (scratchPa c.core 0) 64)).bad = false ∧ targetDenied u c (workReq (readRaw u (scratchPa c.core 0) 64)) = false
    ∧ endpointRoot u c.ret 0 = some c.g.root ∧ tagFull u c.run.gid 0 = false ∧ wrqUsed u c.ret 0 < 64 := fits_ordered (by decide +kernel)
theorem witness_WorkRequestsEntered : ∃ c h x, Runs (demo (.nop r0)) (.nop r0) c h x ∧ mget? (demo (.nop r0)).groups c.run.gid = some c.g :=
  fits_runs (by decide +kernel)

/-- A WRITE to reticle 0 of the slice-warp, still on its way. -/
def work1 : WorkOp where
  wr := workReq (bytesLE 4 0 ++ bytesLE 4 1 ++ bytesLE 56 0)
  gid := 1
  warp := 0
  slice := .execute
  core := 0
  m := 0
  root := 0
  region := 0
  pc := 0
  queue := 0
  ret := 0
  after := []
  moved := 0
  taken := []
  route := none
  injected := false
  outstanding := 0
  sent := false
  err := none
  old := none
  orphan := false
  stamp := 0
  seq := 0
theorem witness_NetworkFlushes : ∃ u c h x, u = (demo (.nflush x1 0)) ∧ RunsOrdered operandCheck u (.nflush x1 0) c h x ∧ x.lanes ≠ []
    ∧ bitOf (srcN u c h (electedLane x) 0) 31 = false ∧ bitsOf (srcN u c h (electedLane x) 0) 30 17 = 0 ∧ tagFull u c.run.gid 0 = false ∧ u.works = [] :=
  fits_ordered (by decide +kernel)
def flushDemo : Machine.State := { demo (.nflush x1 0) with works := [(2, work1)] }
theorem witness_NetworkFlushes_wait : ∃ u c h x, u = flushDemo ∧ RunsOrdered operandCheck u (.nflush x1 0) c h x ∧ x.lanes ≠ []
    ∧ srcN u c h (electedLane x) 0 = 0 ∧ tagFull u c.run.gid 0 = false ∧ (u.works.filter (fun e => e.2.gid == c.run.gid && e.2.warp == c.run.warp
      && e.2.slice == c.run.slice && e.2.wr.puts && e.2.wr.target == 0 && !placedWholly u e.1)).map (·.1) ≠ [] := fits_ordered (by decide +kernel)

theorem witness_LaunchingInstructions_lgrid : ∃ u c h x, u = (demo (.lgrid x2 0)) ∧ RunsOrdered operandCheck u (.lgrid x2 0) c h x ∧ x.lanes ≠ []
    ∧ releaseDone u c 7 = true ∧ srcN u c h (electedLane x) 0 % 128 = 0
    ∧ lgridQueue u c.g.m c.g.root (srcN u c h (electedLane x) 1 % 2 ^ 32) = .inl 0x11 := fits_ordered (by decide +kernel)
/-- Command queue 0 of root region 0: 16 entries at virtual address 0x8000, empty. -/
def queue1 : CmdQueue := ⟨0x7000, 0x8000, 4, 0, 0, 0, 0, [], none⟩
def lgridDemo : Machine.State := updMod 0 (fun m => { m with queues := [(0, queue1)] }) (mapped 0 (demo (.lgrid x2 0)))
theorem witness_LaunchingInstructions_posted : ∃ u c h x, u = lgridDemo ∧ RunsOrdered operandCheck u (.lgrid x2 0) c h x ∧ x.lanes ≠ []
    ∧ releaseDone u c 7 = true ∧ srcN u c h (electedLane x) 0 % 128 = 0
    ∧ lgridQueue u c.g.m c.g.root (srcN u c h (electedLane x) 1 % 2 ^ 32) = .inr queue1
    ∧ (writeVa u c.g.m c.g.root (queue1.slotVa queue1.pidx.toNat) (launchBytes 0)).isSome = true := fits_ordered (by decide +kernel)
theorem witness_LaunchingInstructions_etrig : ∃ u c h x, u = (demo (.etrig x0 0)) ∧ RunsOrdered operandCheck u (.etrig x0 0) c h x ∧ x.lanes ≠ []
    ∧ releaseDone u c 7 = true := fits_ordered (by decide +kernel)
/-- DIST in a persistent grid. -/
theorem witness_LaunchingInstructions_dist : ∃ u c h x, u = (withFlags 16 (demo (.dist x1 0))) ∧ RunsOrdered operandCheck u (.dist x1 0) c h x ∧ x.lanes ≠ [] :=
  fits_ordered (by decide +kernel)

/-! ### Faults -/

/-- A resident grid of root region 0. -/
def grid1 : Grid where
  launch := placedLaunch
  root := 0
  queue := none
  pred := none
  post := 0
  state := .resident
  status := 0
  placed := 1
  ended := 0
  triggered := []
  gone := []
  dist := 0
  retries := 0
  log := []
  handlerFor := none
/-- A fault of the group of demo. -/
def fault1 : FaultInfo := ⟨.trap, 1, 0, 1, 0xFF, true, 4, none, 0, 9⟩
/-- FPOLICY as given, with a fault record queue of 16 records at 0x20000 whose header is at 0x10000, in scratchpad. -/
def faultDemo (policy frq : Nat) : Machine.State :=
  let s := mappedSpad (demo (.nop r0))
  let s := updMod 0 (fun m => { m with
    regions := [(0, ⟨0, { rootRcb 0 with fpolicy := policy, frq := frq }, 0, none, 0, 0, none⟩)], grids := [(1, grid1)] }) s
  writeRaw s (spadBase + 0x10000) (bytesLE 8 0x20000 ++ bytesLE 8 4)
/-- The outcome of the first record of the fault. -/
def posted (s : Machine.State) (f : FaultInfo) (g : Group) : Option Nat :=
  (postRecord g.m g.root g.region (faultRecord s f g (s.core g.core).seq 0) (coreSeq g.core s).2).2
/-- A fault taken under FPOLICY 1 with its record in the ring at 0x20000, and one under FPOLICY 0 with none. -/
theorem witness_FaultTaken : ∃ g, mget? (faultDemo 1 0x10000).groups 1 = some g ∧ g.halt = none ∧ g.discard = false ∧ g.launch.staged = false
    ∧ posted (faultDemo 1 0x10000) fault1 g = some 0x20000 := ⟨_, rfl, rfl, rfl, by decide +kernel, by decide +kernel⟩
theorem witness_FaultTaken_policy : mget? ((faultDemo 1 0x10000).mod 0).grids 1 = some grid1 ∧ grid1.handlerFor = none
    ∧ (mget? ((faultDemo 1 0x10000).mod 0).regions (domainOf (faultDemo 1 0x10000) 0 8 0)).map (·.rcb.fpolicy) = some 1 := by decide +kernel
/-- Under FPOLICY 0. -/
theorem witness_FaultTaken_ends : ∃ g, mget? (faultDemo 0 0).groups 1 = some g ∧ g.halt = none ∧ g.discard = false ∧ g.launch.staged = false
    ∧ fault1.cause ≠ .breakpoint ∧ (mget? ((faultDemo 0 0).mod 0).regions (domainOf (faultDemo 0 0) 0 8 0)).map (·.rcb.fpolicy) = some 0
    ∧ mget? ((faultDemo 0 0).mod 0).grids 1 = some grid1 ∧ grid1.state ≠ .finished ∧ g.grid = 1 :=
  ⟨_, rfl, rfl, rfl, by decide +kernel, by decide, by decide +kernel, by decide +kernel, by decide, by decide +kernel⟩
/-- A queue whose header no page maps: the record is written nowhere. -/
theorem witness_FaultTaken_unwritten : ∃ g, mget? (faultDemo 1 0x80000000).groups 1 = some g ∧ posted (faultDemo 1 0x80000000) fault1 g = none :=
  ⟨_, rfl, by decide +kernel⟩
/-- A group that halts already. -/
theorem witness_FaultTaken_second : ∃ g, mget? (updGroup 1 (fun g => { g with discard := true }) (faultDemo 0 0)).groups 1 = some g ∧ g.discard = true :=
  ⟨_, rfl, rfl⟩
/-- CPART outside a supervisor region: 0x41; WRS of an H register in any: 0x41. -/
theorem witness_ReasonCodes : ∀ i ∈ ([.cpart ⟨4, 112, false, 0, false⟩ 0, .rds rd (BitVec.ofNat 32 0x22), .wrs ra (BitVec.ofNat 32 0x43)] : List Instr),
    ∃ c h, ctx? (demo i) = some c ∧ shape i = some h ∧ (spaceOf (demo i) c.g).sup = false ∧ staticReasons i ++ dynamicReasons (demo i) c h = []
      ∧ issueReason (demo i) c i h = some 0x41 := by
  intro i hi
  simp only [List.mem_cons, List.not_mem_nil, or_false] at hi
  obtain rfl | rfl | rfl := hi <;> exact ⟨_, _, rfl, rfl, by decide +kernel, by decide +kernel, by decide +kernel⟩

/-- What decides an access: the plan of its first lane. -/
def firstPlan (ps : List LanePlan) : Option Plan := ps.head?.map (·.plan)
theorem first_split {ps : List LanePlan} {p : Plan} (h : firstPlan ps = some p) : ∃ q rest, ps = [] ++ q :: rest ∧ q.plan = p := by
  cases ps with
  | nil => simp [firstPlan] at h
  | cons q rest => exact ⟨q, rest, rfl, by simpa [firstPlan] using h⟩
/-- A load and a store at an odd address of the scratchpad form, and at one past its 22 bits. -/
theorem witness_AccessFaults : ∃ u c h x, u = (withRegs [(4, 1)] (demo (.lds r3 0x40))) ∧ RunsOrdered queueCheck u (.lds r3 0x40) c h x
    ∧ firstPlan (accessPlans u c h x 0x40 true .read) = some (.bad .alignment 0) := fits_ordered (by decide +kernel)
theorem witness_AccessFaults_sts : ∃ u c h x, u = (withRegs [(4, 0x400000)] (demo (.sts r3 0x40))) ∧ RunsOrdered queueCheck u (.sts r3 0x40) c h x
    ∧ firstPlan (accessPlans u c h x 0x40 true .write) = some (.bad .scratchBounds 0) := fits_ordered (by decide +kernel)
theorem witness_AccessFaults_atoms : ∃ u c h x, u = (withRegs [(4, 1)] (demo (.atoms r3 0))) ∧ RunsOrdered queueCheck u (.atoms r3 0) c h x
    ∧ acRel 0 = false ∧ firstPlan (atomPlans u c h x true 4) = some (.bad .alignment 0) := fits_ordered (by decide +kernel)
/-- A core whose TLB is empty: a load, a store and an atomic by virtual address miss. -/
theorem witness_AccessFaults_miss : ∃ u c h x, u = (demo (.ld r3 0)) ∧ RunsOrdered queueCheck u (.ld r3 0) c h x
    ∧ firstPlan (accessPlans u c h x 0 false .read) = some .miss := fits_ordered (by decide +kernel)
theorem witness_AccessFaults_st : ∃ u c h x, u = (demo (.st r3 0)) ∧ RunsOrdered queueCheck u (.st r3 0) c h x
    ∧ firstPlan (accessPlans u c h x 0 false .write) = some .miss := fits_ordered (by decide +kernel)
theorem witness_AccessFaults_atom : ∃ u c h x, u = (demo (.atom r3 0)) ∧ RunsOrdered queueCheck u (.atom r3 0) c h x
    ∧ firstPlan (atomPlans u c h x false 4) = some .miss := fits_ordered (by decide +kernel)

/-- The same warp decoupled, the instruction at the access slice, whose queue dq0 (88) the execute slice reads. -/
def accessDemo (i : Instr) : Machine.State :=
  withFlags 1 ({ State.reset with focus := ⟨0, .access⟩ }.withFetchWord (32 * (encode i).length) (ofBytesLE (wordBytes (encode i))))
/-- A load to a queue at an odd address. -/
def dqLoad : Instr := .lds ⟨88, 4, 6, false, 0, false⟩ 0x40
def withAccess (f : Thread → Thread) (s : Machine.State) : Machine.State :=
  (upFrom 0 16).foldl (fun t l => updTh (thKey (swKey 1 0 .access) l) f t) s
theorem witness_QueuedAccessFaults : ∃ u c h x, u = (withAccess (fun th => { th with main := [(4, 1)] }) (accessDemo dqLoad)) ∧ RunsOrdered queueCheck u dqLoad c h x
    ∧ (∀ p ∈ accessPlans u c h x 0x40 true .read, p.plan = .bad .alignment 0) ∧ x.lanes.length = 16 := fits_ordered (by decide +kernel)
theorem witness_QueuedAccessFaults_good : ∃ u c h x, u = (accessDemo dqLoad) ∧ RunsOrdered queueCheck u dqLoad c h x
    ∧ (accessPlans u c h x 0x40 true .read).all (fun p => isPlanned p.plan) = true ∧ x.lanes.length = 16 := fits_ordered (by decide +kernel)
theorem witness_QueuedAccessFaults_poison : ∃ u c h x, u = (withAccess (fun th => { th with mainPoison := [4] }) (accessDemo dqLoad)) ∧ RunsOrdered queueCheck u dqLoad c h x
    ∧ firstPlan (accessPlans u c h x 0x40 true .read) = some (.bad .poisonRead 4) := fits_ordered (by decide +kernel)

/-! ### Decoding, steps and memory -/

theorem witness_DecodingKeepsEveryBit : decode (wordBytes [0x0A142FD0#32] ++ [1, 2]) = .ok (.addi ⟨5, 5, 0x7D, false, 0, false⟩, [1, 2]) := by decide
theorem witness_EncodingRoundTrip : (Instr.addl r2 7).isEvent = false := rfl

/-- The cases of a step: an instruction, the two reserved encodings, no run, each kind of move, and a placed word. -/
theorem witness_StepRunsTheDecodedInstruction : ∃ c, ctx? (demo (.nop r0)) = some c ∧ (demo (.nop r0)).agenda = []
    ∧ decodeWords c.word (nthD 0 c.run.words (c.run.pos + 1)) = .ok (.nop r0) := ⟨_, rfl, rfl, by decide⟩
theorem witness_Step_reservedOpcode : ∃ c, ctx? (State.reset.withFetchWord 32 0xBE000000) = some c
    ∧ decodeWords c.word (nthD 0 c.run.words (c.run.pos + 1)) = .error .reservedOpcode := ⟨_, rfl, by decide⟩
theorem witness_Step_reservedSubop : ∃ c, ctx? (State.reset.withFetchWord 32 0x3E000040) = some c
    ∧ decodeWords c.word (nthD 0 c.run.words (c.run.pos + 1)) = .error .reservedSubop := ⟨_, rfl, by decide⟩
theorem witness_Step_idle : State.reset.agenda = [] ∧ ctx? State.reset = none := ⟨rfl, rfl⟩
/-- Agendas whose first move is an event, a port, idle cycles, a unit, an error of the hardware and a read of the host, its link up or down. -/
theorem witness_Step_moves : ∀ mv ∈ ([.event (.nop r0), .port ⟨0, .access⟩, .idle 3, .unit (.copy 0),
    .upset (.llcLine 0), .hostRead 0 0x41] : List Move), ∃ rest, { State.reset with agenda := [mv] }.agenda = mv :: rest := by
  intro mv _; exact ⟨[], rfl⟩
theorem witness_Step_link : ((updMod 0 (fun m => { m with hostUp := true }) State.reset).mod (modOf 0)).hostUp = true
    ∧ (State.reset.mod (modOf 0)).hostUp = false := by decide
theorem witness_Step_placed : decodeTableWord 64 0x000000070C0A0000 = some (.addl ⟨2, 64, 0, false, 0, false⟩ 7) := by decide

theorem witness_MemoryWrites (o : Obligations.MemoryWrites) :
    Memory.wf (writeKey (mapped 0 State.reset) 1 0x2010 [5, 0, 7]).mem = true :=
  (o (mapped 0 State.reset) 1 0x2010 [5, 0, 7] (by decide) (fun _ => by decide +kernel) (fun h => by revert h; decide)).2.2.2.2.2 (by decide +kernel)
theorem witness_MemoryWrites_spad (o : Obligations.MemoryWrites) :
    Memory.wf (writeKey (mapped 0 State.reset) 1 (spadBase + 0x880) [5, 0, 7, 1]).mem = true :=
  (o (mapped 0 State.reset) 1 (spadBase + 0x880) [5, 0, 7, 1] (by decide) (fun h => by revert h; decide)
    (fun _ b h1 h2 => by
      have h1 : 0xA0000000880 ≤ b := h1
      have h2 : b < 0xA0000000884 := h2
      unfold isDram localOf
      exact decide_eq_false (by omega))).2.2.2.2.2 (by decide +kernel)

/-! ### Steps of the machine. An argument o : Obligations.X only has Lean check that the hypotheses met are the statement's own. -/

/-- A machine with one request in flight, named 2. -/
def flying (f : Flight) : Machine.State := { mapped 0 (demo (.nop r0)) with flight := [(2, f)] }

/-- No group of a core is about to end, as a test. -/
def running (s : Machine.State) (core : Nat) : Bool :=
  (s.core core).groups.all (fun gid => match mget? s.groups gid with | some g => !groupExited s gid g | none => true)
theorem none_ends {s : Machine.State} {core : Nat} (h : running s core = true) : NoneEnds s core := by
  intro gid hg g hs _
  have := List.all_eq_true.mp h gid hg
  simpa [hs] using this

theorem witness_HomeAccesses (o : Obligations.HomeAccesses) : ∃ t, exec (.homeAccess 2) (flying (flight1 .load)) = .next t :=
  (o.1 (flying (flight1 .load)) 2 (flight1 .load) rfl rfl (by decide +kernel) (by decide +kernel) (by decide +kernel)).imp fun _ h => h.1
/-- No cause is found at the home. -/
theorem witness_HomeAccesses_kinds : ∀ k ∈ ([.load, .store, .atomic, .czero, .cwb, .waita] : List ReqKind), ∀ x ∈ (flight1 k).lanes,
    homeCause (flying (flight1 k)) (flight1 k) x = none ∧ (flight1 k).staged = false ∧ isDevice x.pa = false := by decide +kernel
/-- A retired site is a cause. -/
theorem witness_HomeAccesses_cause : ∃ e, homeCause (demo (.nop r0)) (flight1 .load) ⟨0, 0, 0x40000000, 2, 5, 0, none, none⟩ = some e := by
  refine ⟨_, Option.eq_some_of_isSome (by decide +kernel)⟩

/-- The request has been performed: its one lane holds a result or an error. -/
def done1 (kind : ReqKind) (res : Option W128) (err : Option (Cause × W64 × Nat)) : Flight :=
  { flight1 kind with performed := true, lanes := [⟨0, 0, 0x40000000, 2, 5, 0, res, err⟩], dest := .regs }
/-- A long-latency result of v2 in lane 0. -/
def long1 (kind : Nat) (ready : Bool) : Long := ⟨kind, 1, 0, .execute, 0, 0, .regs, [(0, 2, 9)], 1, 1, ready⟩
def landing (g : Long) : Machine.State :=
  updMod 0 (fun m => { m with grids := [(1, grid1)] }) { mapped 0 (demo (.nop r0)) with longs := [(2, g)] }

theorem witness_LoadLandings_load (o : Obligations.LoadLandings) : ∃ t, exec (.loadLanding 2) (flying (done1 .load (some 7) none)) = .next t :=
  (((o (flying (done1 .load (some 7) none)) 2).1 (done1 .load (some 7) none) _ rfl rfl (none_ends (by decide +kernel)) (by decide +kernel)
    (by decide +kernel) (by decide +kernel) (by decide +kernel)).1 rfl).imp fun _ h => h.1
theorem witness_LoadLandings_atomic (o : Obligations.LoadLandings) : ∃ t, exec (.atomicLanding 2) (flying (done1 .atomic (some 7) none)) = .next t :=
  (((o (flying (done1 .atomic (some 7) none)) 2).1 (done1 .atomic (some 7) none) _ rfl rfl (none_ends (by decide +kernel)) (by decide +kernel)
    (by decide +kernel) (by decide +kernel) (by decide +kernel)).2 rfl).imp fun _ h => h.1
theorem landing_lands (o : Obligations.LoadLandings) (k : Nat) (hk : k < 4) :
    (k = 0 → ∃ t, exec (.divisionLanding 2) (landing (long1 k true)) = .next t)
    ∧ (k = 1 → ∃ t, exec (.specialFunctionLanding 2) (landing (long1 k true)) = .next t)
    ∧ (k = 2 → ∃ t, exec (.lgridResult 2) (landing (long1 k true)) = .next t) ∧ (k = 3 → ∃ t, exec (.distResult 2) (landing (long1 k true)) = .next t) := by
  have h := (o (landing (long1 k true)) 2).2.1 (long1 k true) _ rfl rfl (by revert k; decide +kernel) rfl (by revert k; decide +kernel)
    (by revert k; decide +kernel) (by simp [long1])
  exact ⟨fun e => (h.1 e).imp fun _ h => h.1, fun e => (h.2.1 e).imp fun _ h => h.1, fun e => (h.2.2.1 e).imp fun _ h => h.1,
    fun e => (h.2.2.2 e).imp fun _ h => h.1⟩
theorem witness_LoadLandings_longs (o : Obligations.LoadLandings) : ∃ t, exec (.divisionLanding 2) (landing (long1 0 true)) = .next t :=
  (landing_lands o 0 (by decide)).1 rfl
/-- A DIST not yet applied. -/
theorem witness_LoadLandings_dist (o : Obligations.LoadLandings) : ∃ t, exec (.distResult 2) (landing (long1 3 false)) = .next t :=
  ⟨_, (o (landing (long1 3 false)) 2).2.2 (long1 3 false) _ grid1 0 2 9 [] rfl rfl (by decide +kernel) rfl rfl rfl⟩

theorem witness_Acknowledgements_store (o : Obligations.AcknowledgementsErrorsAndWalks) : ∃ t, exec (.storeAck 2) (flying (done1 .store none none)) = .next t :=
  (o.1 (flying (done1 .store none none)) 2 (done1 .store none none) _ rfl rfl (.inl rfl) rfl (by decide +kernel)
    (none_ends (by decide +kernel))).elim fun _ h => ⟨_, h.2⟩
/-- An error found at the home of the lane. -/
def failed (k : ReqKind) : Flight := done1 k none (some (.uncorrectable, 0x40, 3))
/-- The only request of its instruction, and one of two of which the other has not been performed. -/
theorem witness_Acknowledgements_error (o : Obligations.AcknowledgementsErrorsAndWalks) :
    ∀ k ∈ ([.load, .store, .waita] : List ReqKind), ∃ t, exec (.errorReturn 2) (flying (failed k)) = .next t := by
  intro k hk
  have alone : ∀ k ∈ ([.load, .store, .waita] : List ReqKind), siblings (flying (failed k)) (failed k) = [(2, failed k)] := by decide +kernel
  have hs := alone k hk
  refine ⟨_, (o.2.1 (flying (failed k)) 2 (failed k) rfl rfl rfl).2 (by rw [hs]; simp [failed, done1]) (2, failed k) (by rw [hs]; simp)
    ⟨0, 0, 0x40000000, 2, 5, 0, none, some (.uncorrectable, 0x40, 3)⟩ (List.mem_singleton.mpr rfl) _ rfl ?_⟩
  rw [hs]
  intro z hz a ha _
  obtain rfl := List.mem_singleton.mp hz
  exact .inr (List.mem_singleton.mp ha)
theorem witness_Acknowledgements_errorWaits (o : Obligations.AcknowledgementsErrorsAndWalks) :
    exec (.errorReturn 2) { flying (failed .load) with flight := [(2, failed .load), (3, flight1 .load)] }
      = .next { flying (failed .load) with flight := [(2, failed .load), (3, flight1 .load)] } :=
  (o.2.1 { flying (failed .load) with flight := [(2, failed .load), (3, flight1 .load)] } 2 (failed .load) rfl rfl rfl).1
    ⟨(3, flight1 .load), by decide +kernel, rfl⟩
theorem witness_Acknowledgements_workError (o : Obligations.AcknowledgementsErrorsAndWalks) :
    ∃ t, exec (.errorReturn 2) { demo (.nop r0) with works := [(2, { work1 with err := some (.remoteError, 0, 0) })] } = .next t :=
  ⟨_, o.2.2.2.1 _ 2 { work1 with err := some (.remoteError, 0, 0) } _ _ _ rfl rfl rfl⟩
/-- A walk of core 0 for an address that the page table maps, and one for an address that it does not. -/
def walking (va : Nat) : Machine.State := { mapped 0 State.reset with walks := [(2, ⟨[0], 0, 0, va⟩)] }
theorem witness_Acknowledgements_walk (o : Obligations.AcknowledgementsErrorsAndWalks) : ∃ t, exec (.translationWalk 2) (walking 0) = .next t :=
  ((o.2.2.2.2.1 (walking 0) 2 _ rfl (by decide +kernel) (by decide +kernel)).1 0 0x40000000 leaf1 (by decide +kernel)).imp fun _ h => h.1
theorem witness_Acknowledgements_walkCause (o : Obligations.AcknowledgementsErrorsAndWalks) : ∃ t, exec (.translationWalk 2) (walking 0x40000000) = .next t :=
  ((o.2.2.2.2.1 (walking 0x40000000) 2 _ rfl (by decide +kernel) (by decide +kernel)).2 .translation (by decide +kernel)).imp fun _ h => h.1

/-- Lane 0 of the slice-warp waits. -/
def waits (w : Wait) (s : Machine.State) : Machine.State := updTh (thKey sw1 0) (fun th => { th with wait := w }) s
theorem witness_WaitsEnding (o : Obligations.WaitsEnding) : ∃ g, mget? (waits (.waita 0 0) (demo (.nop r0))).groups 1 = some g
    ∧ (∃ t, exec (.waitaWake 1 0 .execute) (waits (.waita 0 0) (demo (.nop r0))) = .next t)
    ∧ (∃ t, exec (.waitaTimeout 1 0 .execute) (waits (.waita 0 0) (demo (.nop r0))) = .next t)
    ∧ ∃ t, exec (.sleepExpiry 1 0 .execute) (waits (.waita 0 0) (demo (.nop r0))) = .next t :=
  have h := o (waits (.waita 0 0) (demo (.nop r0))) 1 0 .execute _ rfl
  ⟨_, rfl, h.1.imp fun _ h => h.1, h.2.1.imp fun _ h => h.1, h.2.2.1.imp fun _ h => h.1⟩
theorem witness_WaitsEnding_cwait (o : Obligations.WaitsEnding) : ∃ t, exec (.cwaitReturn 1 0 .execute) (waits (.cwait 0 0) (demo (.nop r0))) = .next t :=
  ((o (waits (.cwait 0 0) (demo (.nop r0))) 1 0 .execute _ rfl).2.2.2.1 0 0 0 (by decide) (by decide +kernel) (fun j h => by omega)).2
    (by decide +kernel) (by decide +kernel) |>.imp fun _ h => h.1
theorem witness_WaitsEnding_cwaitDead (o : Obligations.WaitsEnding) :
    ∃ t, exec (.cwaitReturn 1 0 .execute) (updCore 1 (fun c => { c with dead := true }) (waits (.cwait 0x100000 0) (demo (.nop r0)))) = .next t :=
  ⟨_, ((o (updCore 1 (fun c => { c with dead := true }) (waits (.cwait 0x100000 0) (demo (.nop r0)))) 1 0 .execute _ rfl).2.2.2.1 0 0x100000 0 (by decide)
    (by decide +kernel) (fun j h => by omega)).1 .coreLost 0x100000 (coreCode 1) (by decide +kernel)⟩
theorem witness_WaitsEnding_waita (o : Obligations.WaitsEnding) : ∃ t, exec (.loadLanding 2) (flying (done1 .waita (some 7) none)) = .next t :=
  ((o (flying (done1 .waita (some 7) none)) 1 0 .execute _ rfl).2.2.2.2.1 2 (done1 .waita (some 7) none) _ [] rfl rfl rfl (by decide +kernel)
    (by decide +kernel) rfl rfl rfl rfl).1 (by decide) |>.imp fun _ h => h.1
theorem witness_WaitsEnding_waitaSame (o : Obligations.WaitsEnding) : ∃ t, exec (.loadLanding 2) (flying (done1 .waita (some 0) none)) = .next t :=
  ((o (flying (done1 .waita (some 0) none)) 1 0 .execute _ rfl).2.2.2.2.1 2 (done1 .waita (some 0) none) _ [] rfl rfl rfl (by decide +kernel)
    (by decide +kernel) rfl rfl rfl rfl).2 (by decide) |>.imp fun _ h => h.1
theorem witness_WaitsEnding_cpart (o : Obligations.WaitsEnding) :
    ∃ t, exec (.cpartComplete 0) (updRet 0 (fun r => { r with cpartTo := some 8 }) (demo (.nop r0))) = .next t :=
  ((o (updRet 0 (fun r => { r with cpartTo := some 8 }) (demo (.nop r0))) 1 0 .execute _ rfl).2.2.2.2.2 0 8 (by decide +kernel)).imp fun _ h => h.1

/-- exec answers a next state. -/
def goes (i : Instr) (s : Machine.State) : Prop := ∃ t, exec i s = .next t

/-- Module 0 with its host link up and command queue 0. -/
def hostDemo : Machine.State := updMod 0 (fun m => { m with queues := [(0, queue1)] }) (mapped 0 State.reset)

theorem witness_HostRegistersAndTables (o : Obligations.HostRegistersAndTables) :
    goes (.doorbellWrite 0 0 16) hostDemo ∧ goes (.coreCounterWrite 135 7 9) hostDemo ∧ goes (.registerWrite 0 0x41 8 5) hostDemo
    ∧ goes (.registerWrite 0 0x107F 8 5) hostDemo ∧ goes (.registerWrite 0 0x6000 8 415) hostDemo ∧ goes (.registerWrite 0 0x6000 8 416) hostDemo
    ∧ goes (.registerWrite 0 (0x3000 + 31) 8 5) hostDemo ∧ goes (.registerWrite 0 (deviceBase + 0x100000 + 8 * 1023) 8 5) hostDemo
    ∧ goes (.endpointTableWrite 0 1023 0x1000) hostDemo ∧ goes (.peerDescriptorWrite 0 4095 1) hostDemo
    ∧ goes (.barrierTreeWrite 0 255 0x70000007) hostDemo ∧ goes (.barrierTreeWrite 0 0 0) hostDemo ∧ goes (.wpartWrite 0 4) hostDemo
    ∧ goes (.extendMeasurement 0 7 1) hostDemo ∧ goes (.attestationRequest 0 1) hostDemo := by
  have h := o hostDemo 0 rfl
  have r := h.2.2.2.1 0 rfl rfl
  obtain ⟨r1, r2, r3, _, r5, _, _, r8, r9, _, r11, r12⟩ := r
  refine ⟨?_, ?_, ?_, ?_, ?_, ?_, ?_, ?_, ?_, ?_, ?_, ?_, ?_, ?_, ?_⟩
  · obtain ⟨t, _, ht, _⟩ := h.1 0 16 0 queue1 (by decide) (by decide +kernel) rfl (by decide)
    exact ⟨t, ht⟩
  · exact (h.2.1 135 7 9 (by decide) (by decide +kernel) (by decide) (by decide)).imp fun _ h => h.1
  · exact (r1 8 5).1.imp fun _ h => h.1
  · exact ((r1 8 5).2.2.2.1 127 (by decide)).imp fun _ h => h.1
  · exact ((r1 8 415).2.2.2.2.2.2.2.2.2.1 (by decide) (by decide)).imp fun _ h => h.1
  · exact ⟨_, (r1 8 416).2.2.2.2.2.2.2.2.2.2 (.inr (by decide))⟩
  · exact ⟨_, (r1 8 5).2.2.2.2.2.2.1 31 (by decide) (by decide +kernel)⟩
  · exact (r2 1023 5 (by decide)).imp fun _ h => h.1
  · exact (r3 1023 0x1000 (by decide) (by decide +kernel)).imp fun _ h => h.1
  · obtain ⟨t, _, ht, _⟩ := r5 4095 1 (by decide) (fun _ _ h => absurd h (by simp [hostDemo, mapped, updMod, updRet, updCore, writeRaw, State.reset]))
    exact ⟨t, ht⟩
  · obtain ⟨t, _, ht, _⟩ := (r8 255 0x70000007 (by decide) (by decide +kernel)).1 (.inr (by decide +kernel))
    exact ⟨t, ht⟩
  · obtain ⟨t, _, ht, _⟩ := (r8 0 0 (by decide) (by decide +kernel)).1 (.inl (by decide))
    exact ⟨t, ht⟩
  · exact ⟨_, r9 4 (by decide) (by decide) (by decide +kernel) (by decide +kernel)⟩
  · exact (r11 7 1 (by decide) (by decide)).imp fun _ h => h.1
  · exact ⟨_, (r12 1).1⟩
/-- A tree entry whose SCOPE is below 5 is refused. -/
theorem witness_HostRegistersAndTables_scope (o : Obligations.HostRegistersAndTables) : goes (.barrierTreeWrite 0 0 0x40000007) hostDemo := by
  obtain ⟨_, _, _, _, _, _, _, r8, _⟩ := (o hostDemo 0 rfl).2.2.2.1 0 rfl rfl
  exact ⟨_, (r8 0 0x40000007 (by decide) (by decide +kernel)).2 (by decide) (by decide +kernel)⟩
/-- A table entry in use: a work request to peer 3 in queue 0, and a tree that has counted an arrival; a partition in progress. -/
def busyDemo : Machine.State :=
  let s := { hostDemo with works := [(2, { work1 with wr := { work1.wr with target := 0x80000003 } })] }
  updRet 0 (fun r => { r with wrq := [(0, [2])], trees := [(0, ⟨7, 1, 0, 6, 2, 1, 0, [], false⟩)], cpartTo := some 8 }) s
theorem witness_HostRegistersAndTables_busy (o : Obligations.HostRegistersAndTables) :
    goes (.endpointTableWrite 0 0 0) busyDemo ∧ goes (.peerDescriptorWrite 0 3 1) busyDemo ∧ goes (.barrierTreeWrite 0 0 0) busyDemo
    ∧ goes (.wpartWrite 0 4) busyDemo := by
  obtain ⟨_, _, _, r4, _, r6, r7, _, _, r10, _⟩ := (o busyDemo 0 rfl).2.2.2.1 0 rfl rfl
  exact ⟨⟨_, r4 0 0 (by decide) (by decide +kernel)⟩, ⟨_, r6 3 1 2 _ (by decide) (List.mem_cons_self) rfl rfl rfl⟩,
    ⟨_, r7 0 0 (by decide) (by decide +kernel)⟩, ⟨_, r10 4 (by decide) (by decide) (.inl (by decide +kernel))⟩⟩
/-- A reticle out of service, and the module's tables. -/
theorem witness_HostRegistersAndTables_module (o : Obligations.HostRegistersAndTables) :
    goes (.registerWrite 2 0x41 8 5) hostDemo ∧ goes (.errorPolicyWrite 0 0 0x00000000000000000000000500000000) hostDemo
    ∧ goes (.errorPolicyWrite 0 0 1) hostDemo ∧ goes (.readIdentity 0) hostDemo ∧ goes (.writeModid 0 1023) hostDemo := by
  have h := o hostDemo 0 rfl
  have p := h.2.2.2.2.1
  have w := h.2.2.2.2.2.2.2 1023 (by decide) (by decide) rfl
  refine ⟨⟨_, (h.2.2.1 2 rfl (by decide +kernel)).1 0x41 8 5⟩, ?_, ⟨_, (p 0 1 ⟨0, 0, 4, 86400000⟩ (by decide +kernel)).2 (.inl (by decide))⟩, ⟨_, h.2.2.2.2.2.1.1⟩,
    ⟨_, w.1 (by decide +kernel)⟩⟩
  obtain ⟨t, _, ht, _⟩ := (p 0 0x00000000000000000000000500000000 ⟨0, 0, 4, 86400000⟩ (by decide +kernel)).1 (by decide) (by decide)
  exact ⟨t, ht⟩
/-- No region exists: the module id may change, and a wafer group list entry too. -/
def freshDemo : Machine.State := updMod 0 (fun m => { m with booted := true, hostUp := true }) (updRet 0 (fun r => { r with site := .inService }) State.reset)
theorem witness_HostRegistersAndTables_fresh (o : Obligations.HostRegistersAndTables) :
    goes (.writeModid 0 0) freshDemo ∧ goes (.writeModid 0 7) freshDemo ∧ goes (.registerWrite 0 0x301F 8 5) freshDemo := by
  have h := o freshDemo 0 rfl
  exact ⟨(h.2.2.2.2.2.2.1 (by decide) (by decide +kernel)).imp fun _ h => h.1, ((h.2.2.2.2.2.2.2 7 (by decide) (by decide) rfl).2 (by decide +kernel)).imp fun _ h => h.1,
    (((h.2.2.2.1 0 rfl rfl).1 8 5).2.2.2.2.2.1 31 (by decide) (by decide +kernel)).imp fun _ h => h.1⟩

/-- A saved group 1 of root region 0, halted for debug or not. -/
def image1 (debug : Bool) : Image where
  group := placedGroup 0
  sws := []
  threads := []
  queues := []
  spad := []
  spadPoison := []
  bank := []
  copies := []
  forced := true
  halted := true
  debug := debug
  key := 1
  keyBits := some 7
  member := 0
  stamp := 0
  ret := 0
/-- A root region of which something or nothing is left, its destruction begun; a stopped queue; a saved group. -/
def manageDemo : Machine.State :=
  updMod 0 (fun m => { m with dying := [0], queues := [(0, { queue1 with state := 1 })], saved := [(1, image1 true)] })
    (updRet 79 (fun r => { r with site := .inService }) hostDemo)
/-- Byte 0x2000 of the command processor's reticle. -/
def cpByte : Nat := paOf 79 0x2000
theorem witness_HostManagementAndDebug_down (o : Obligations.HostManagementAndDebug) : goes (.loadKey 0 1 []) State.reset ∧ goes (.hostPortLinkDown 0) hostDemo :=
  ⟨⟨_, (o.1 State.reset 0 rfl).2.1 1 []⟩, (o.2.1 hostDemo 0).imp fun _ h => h.1⟩
theorem witness_HostManagementAndDebug_link (o : Obligations.HostManagementAndDebug) :
    goes (.hostPortLinkUp 0) (updRet 79 (fun r => { r with site := .inService }) hostDemo)
    ∧ goes (.commandProcessorTakeover 0) (updRet 87 (fun r => { r with site := .inService }) hostDemo) :=
  ⟨((o.2.2.1 (updRet 79 (fun r => { r with site := .inService }) hostDemo) 0).1 (by decide +kernel) (by decide +kernel)).imp fun _ h => h.1,
    ((o.2.2.1 (updRet 87 (fun r => { r with site := .inService }) hostDemo) 0).2 87 (.inl (by decide +kernel)) (by decide +kernel)).imp fun _ h => h.1⟩
/-- A key image that erases key 255, and one that loads key 1 (R352): KIND 1, ERASE in [31:16]. -/
def keyImage (erase : Nat) : List Byte := bytesLE 2 1 ++ bytesLE 2 erase ++ List.replicate 1164 0
/-- The image of a root region (R346): key 1, its page table at 0x1000, the command queue table absent. -/
def rootImage (bytes : List Byte) : List Byte := bytes ++ List.replicate (128 - bytes.length) 0
theorem witness_HostManagementAndDebug (o : Obligations.HostManagementAndDebug) :
    goes (.loadKey 0 255 (keyImage 1)) manageDemo ∧ goes (.loadKey 0 256 []) manageDemo ∧ goes (.createRoot 0 []) manageDemo
    ∧ goes (.destroyRoot 0 0) manageDemo ∧ goes (.destroyRoot 0 9) manageDemo ∧ goes (.restartQueue 0 0 0 16) manageDemo
    ∧ goes (.hostRmaWrite 0 cpByte 1 [1]) manageDemo ∧ goes (.hostRmaRead 0 cpByte 1 4) manageDemo ∧ goes (.debugAttach 0 0) manageDemo := by
  have h := o.2.2.2 manageDemo 0 rfl
  refine ⟨((h.1 255 (keyImage 1) (by decide) (by decide) (by decide +kernel) (by decide +kernel) (by decide +kernel)).1 (by decide +kernel)).imp fun _ h => h.1,
    ⟨_, h.2.1 256 [] (.inr (.inl (by decide)))⟩, ?_, ?_, ⟨_, h.2.2.2.2.2.2.1 9 (by decide +kernel)⟩, ?_,
    ⟨_, (h.2.2.2.2.2.2.2.2.1 cpByte 1 [1] (by decide)).1 (by decide +kernel)⟩, ⟨_, (h.2.2.2.2.2.2.2.2.2.1 cpByte 1 4 (by decide)).1 (by decide +kernel)⟩, ?_⟩
  · have hs : (createNode 0 0xFFFF true [] manageDemo).1 ≠ 0 := by decide +kernel
    exact ⟨_, h.2.2.2.1 [] _ _ _ rfl hs⟩
  · exact (h.2.2.2.2.1 0 _ rfl rfl (by decide +kernel) (by decide +kernel) (by decide +kernel)).imp fun _ h => h.1
  · obtain ⟨u, q, hu, _⟩ := h.2.2.2.2.2.2.2.1 0 0 16 _ rfl (by decide) (by decide)
    exact ⟨_, hu⟩
  · exact (h.2.2.2.2.2.2.2.2.2.2.1 0 _ rfl rfl).imp fun _ h => h.1
/-- A host access under a key that is not loaded. -/
theorem witness_HostManagementAndDebug_refused (o : Obligations.HostManagementAndDebug) :
    goes (.hostRmaWrite 0 cpByte 2 [1]) manageDemo ∧ goes (.hostRmaRead 0 cpByte 2 4) manageDemo :=
  have h := o.2.2.2 manageDemo 0 rfl
  ⟨⟨_, (h.2.2.2.2.2.2.2.2.1 cpByte 2 [1] (by decide)).2 (by decide +kernel)⟩, ⟨_, (h.2.2.2.2.2.2.2.2.2.1 cpByte 2 4 (by decide)).2 (by decide +kernel)⟩⟩
/-- A root that something still runs in: a grid. -/
theorem witness_HostManagementAndDebug_busy (o : Obligations.HostManagementAndDebug) :
    goes (.destroyRoot 0 0) (updMod 0 (fun m => { m with dying := [0], grids := [(1, grid1)] }) (mapped 0 (demo (.nop r0)))) :=
  ⟨_, (o.2.2.2 (updMod 0 (fun m => { m with dying := [0], grids := [(1, grid1)] }) (mapped 0 (demo (.nop r0)))) 0 rfl).2.2.2.2.2.1 0 _ rfl rfl (by decide +kernel) (.inr (by decide +kernel))⟩
/-- The debugger is attached to the root of the running group of demo, or is not. -/
def debugDemo (attached : NSet) : Machine.State := updMod 0 (fun m => { m with attached := attached }) (mapped 0 (demo (.nop r0)))
theorem witness_HostManagementAndDebug_halt (o : Obligations.HostManagementAndDebug) :
    goes (.debugHalt 0 1) (debugDemo [0]) ∧ goes (.debugHalt 0 1) (debugDemo [])
    ∧ goes (.debugHalt 0 1) (updGroup 1 (fun g => { g with phase := .halting }) (debugDemo [0])) :=
  ⟨⟨_, ((o.2.2.2 (debugDemo [0]) 0 rfl).2.2.2.2.2.2.2.2.2.2.2.1 1 _ rfl rfl).1 (by decide +kernel) rfl⟩,
    ⟨_, ((o.2.2.2 (debugDemo []) 0 rfl).2.2.2.2.2.2.2.2.2.2.2.1 1 _ rfl rfl).2.2 (by decide +kernel)⟩,
    ⟨_, ((o.2.2.2 (updGroup 1 (fun g => { g with phase := .halting }) (debugDemo [0])) 0 rfl).2.2.2.2.2.2.2.2.2.2.2.1 1 _ rfl rfl).2.1 (by decide +kernel) rfl⟩⟩
/-- A saved group whose root the debugger is attached to. -/
def imageDemo (debug : Bool) : Machine.State := updMod 0 (fun m => { m with attached := [0], saved := [(1, image1 debug)] }) hostDemo
theorem witness_HostManagementAndDebug_image (o : Obligations.HostManagementAndDebug) :
    goes (.debugReadImage 0 1 0 0) (imageDemo true) ∧ goes (.debugWriteImage 0 1 0 []) (imageDemo true) ∧ goes (.debugDiscard 0 1) (imageDemo true)
    ∧ goes (.debugResume 0 1) (imageDemo true) ∧ goes (.debugResume 0 1) (imageDemo false) ∧ goes (.debugResume 0 1) manageDemo := by
  have h := ((o.2.2.2 (imageDemo true) 0 rfl).2.2.2.2.2.2.2.2.2.2.2.2 1 (image1 true) rfl rfl).2 (by decide +kernel) (by decide)
  have h' := ((o.2.2.2 (imageDemo false) 0 rfl).2.2.2.2.2.2.2.2.2.2.2.2 1 (image1 false) rfl rfl).2 (by decide +kernel) (by decide)
  have n := ((o.2.2.2 manageDemo 0 rfl).2.2.2.2.2.2.2.2.2.2.2.2 1 (image1 true) rfl rfl).1 (by decide +kernel)
  refine ⟨⟨_, h.1 0 0 (Nat.zero_le _)⟩, ?_, ⟨_, (h.2.2.2.1 rfl).1⟩, ?_, ⟨_, (h'.2.2.2.2 rfl rfl).2⟩, ⟨_, n.2.2.1⟩⟩
  · obtain ⟨im', hw⟩ : ∃ im', writeParts 0 [] 0 (imageParts 1 (image1 true)) (image1 true) = some im' := Option.isSome_iff_exists.mp (by decide +kernel)
    exact (h.2.1 0 [] im' (Nat.zero_le _) hw).imp fun _ h => h.1
  · obtain ⟨t, _, ht, _⟩ := (h.2.2.2.1 rfl).2
    exact ⟨t, ht⟩

theorem pair_none {α β : Type} {x : α × Option β} (h : x.2 = none) : x = (x.1, none) := Prod.ext rfl h
theorem pair_some {α β : Type} {x : α × Option β} {b : β} (h : x.2 = some b) : x = (x.1, some b) := Prod.ext rfl h
theorem some_of {α : Type} {x : Option α} (h : x.isSome = true) : ∃ a, x = some a := Option.isSome_iff_exists.mp h

/-- A Mash Array operation at the head of core 0's queue: MXMA, MXLD, MXST or MXZ of 16 columns, its operands in scratchpad. -/
def mxOp1 (sub : Nat) : MxOp := ⟨2, sub, 1, 0, .execute, 0, 0, 0, 0, 0x100, 0, 16, 0, 0, [], [], false⟩
def mxQueued (sub : Nat) : Machine.State := updCore 0 (fun c => { c with mxq := [mxOp1 sub] }) (demo (.nop r0))
theorem witness_Engines_mx (o : Obligations.EnginesAndPackets) : goes (.mxOperationComplete 0) (mxQueued 1) ∧ goes (.mxOperationComplete 0) (mxQueued 3) := by
  obtain ⟨_, t, _, h, _⟩ := o.2.1 (mxQueued 1) 0 (mxOp1 1) [] rfl (by decide +kernel) (fun _ h => by cases h)
  obtain ⟨_, t', _, h', _⟩ := o.2.1 (mxQueued 3) 0 (mxOp1 3) [] rfl (by decide +kernel) (fun _ h => by cases h)
  exact ⟨⟨_, h⟩, ⟨_, h'⟩⟩
theorem witness_Engines_mxma : ∀ sub ∈ [0, 2], mxFound (mxQueued sub) 0 (mxOp1 sub) (mxStores (mxOp1 sub) (mxstRows (mxQueued sub) 0 (mxOp1 sub))) = none := by
  decide +kernel

/-- The elected copy of 16 bytes from virtual address 0 to 64, its descriptor at scratchpad address 0x800 as given. -/
def copyBytes (flags : Nat) : List Byte := bytesLE 8 0 ++ bytesLE 8 64 ++ bytesLE 4 16 ++ bytesLE 2 flags ++ bytesLE 42 0
def copyOp1 (d : CopyAt) : CopyOp := ⟨2, 1, 0, .execute, 0, 0, 0, 0x800, [], d⟩
def copying (desc : List Byte) : Machine.State :=
  writeRaw (updCore 0 (fun c => { c with copyq := [copyOp1 CopyAt.start] }) (mappedSpad (demo (.nop r0)))) (scratchPa 0 0x800) desc
def agent1 : Agent := ⟨0, ⟨0, 0, false, 0, 1023⟩, 1, false, 0⟩
/-- The descriptor is bad, or is in the scratchpad of a dead member: a status ends the chain, or a cause is found. -/
theorem witness_Engines_copy (o : Obligations.EnginesAndPackets) : goes (.copyComplete 0) (copying (copyBytes 4)) :=
  ⟨_, (o.2.2.1 (copying (copyBytes 4)) 0 _ [] _ rfl rfl (by decide +kernel)).1 (by decide +kernel)⟩
theorem witness_Engines_copyFault (o : Obligations.EnginesAndPackets) : goes (.copyComplete 0) (updCore 0 (fun c => { c with dead := true }) (copying (copyBytes 0))) := by
  have h := (o.2.2.1 (updCore 0 (fun c => { c with dead := true }) (copying (copyBytes 0))) 0 _ [] _ rfl rfl (by decide +kernel)).2
  exact ⟨_, h _ (Option.eq_some_of_isSome (by decide +kernel))⟩
/-- Good descriptors, without a CRC and with one, and a bad one. -/
theorem witness_Engines_descriptors : ∀ b ∈ [(copyBytes 0, false), (copyBytes 0x22, false), (copyBytes 4, true)],
    descFault (copying b.1) agent1 0x800 = none
    ∧ (copyDesc (readRaw (copying b.1) (scratchPa 0 0x800) 64)).bad (copying b.1) 0 0 0 0 0 = b.2 := by decide +kernel
theorem witness_Engines_unit : ∃ pa key pa' key', bitOf (copyDesc (copyBytes 0)).flags 0 = false ∧ 0 < (copyDesc (copyBytes 0)).length / 16
    ∧ agentReach (copying (copyBytes 0)) agent1 .read 0 16 0 0 = .ok pa key ∧ agentReach (copying (copyBytes 0)) agent1 .write 64 16 64 80 = .ok pa' key' :=
  ⟨spadBase, 1, spadBase + 64, 1, by decide +kernel, by decide +kernel, by decide +kernel, by decide +kernel⟩

/-- A work request of core 0's group: 8 bytes between virtual addresses 0 and 256. -/
def request (opc flags length target : Nat) : WorkOp :=
  { work1 with wr := ⟨opc, flags, 0, 0, length, 0, 256, target, 0, 0, 0, 0, 0, 0⟩ }
/-- It is the oldest of queue 0. -/
def requestDemo (o : WorkOp) : Machine.State :=
  updRet 0 (fun r => { r with wrq := [(0, [2])] }) { mapped 0 (demo (.nop r0)) with works := [(2, o)], nextId := 4 }
/-- A WRITE, a READ, an ATOMIC, and a READ from a peer over an Ethernet link in use. -/
theorem witness_Engines_send (o : Obligations.EnginesAndPackets) :
    goes (.workRequestSend 0 0) (requestDemo (request 0 1 8 0)) ∧ goes (.workRequestSend 0 0) (requestDemo (request 2 0 8 0))
    ∧ goes (.workRequestSend 0 0) (requestDemo (request 3 0 8 0)) := by
  have h := fun (w : WorkOp) (e : sendsFrom (requestDemo w) 0 0 = true) => (o.2.2.2.2.2.1 (requestDemo w) 0 0 2 [] w rfl rfl e).2
  exact ⟨⟨_, (h (request 0 1 8 0) (by decide +kernel) rfl).1 (by decide)⟩, ⟨_, (h (request 2 0 8 0) (by decide +kernel) rfl).2.2.2.2 rfl (by decide)⟩,
    ⟨_, (h (request 3 0 8 0) (by decide +kernel) rfl).2.2.1 rfl (by decide) (by decide) (by decide)⟩⟩
def peerSend : Machine.State := updRet 0 (fun r => { r with portMap := [(0, 2 * 2 ^ 19), (8, 0x80)] }) (requestDemo (request 2 0 8 0x80000003))
theorem witness_Engines_sendPeer (o : Obligations.EnginesAndPackets) : goes (.workRequestSend 0 0) peerSend :=
  ⟨_, ((o.2.2.2.2.2.1 peerSend 0 0 2 [] _ rfl rfl (by decide +kernel)).2 rfl).2.1 (by decide) (by decide)⟩
theorem witness_Engines_sendFails (o : Obligations.EnginesAndPackets) :
    goes (.workRequestSend 0 0) (requestDemo { request 3 0 8 0 with wr := ⟨3, 0, 0, 0, 8, 4, 256, 0, 0, 0, 0, 0, 0, 0⟩ })
    ∧ goes (.workRequestSend 0 0) (requestDemo { request 0 0 8 0 with err := some (.remoteError, 0, 0) }) := by
  have h := fun (w : WorkOp) (e : sendsFrom (requestDemo w) 0 0 = true) => o.2.2.2.2.2.1 (requestDemo w) 0 0 2 [] w rfl rfl e
  exact ⟨⟨_, ((h { request 3 0 8 0 with wr := ⟨3, 0, 0, 0, 8, 4, 256, 0, 0, 0, 0, 0, 0, 0⟩ } (by decide +kernel)).2 rfl).2.2.2.1 rfl (by decide) (.inl (by decide))⟩,
    ⟨_, (h { request 0 0 8 0 with err := some (.remoteError, 0, 0) } (by decide +kernel)).1 (by decide)⟩⟩
/-- The units of a source: its place, and what is read there. -/
theorem witness_Engines_sendUnit : let s := requestDemo (request 0 0 8 0)
    mget? s.works 2 = some (request 0 0 8 0) ∧ (request 0 0 8 0).err = none ∧ (request 0 0 8 0).moved < (request 0 0 8 0).wr.length
    ∧ placeOf s (workAgent s (request 0 0 8 0)) .read none 0 = some (0x40000000, 1) ∧ (readUnit s 0 0 0x40000000 1 8 0).1 = none
    ∧ placeOf s (workAgent s (request 0 0 8 0)) .read none 0x40000000 = none
    ∧ (readUnit { s with poison := [0x40000000] } 0 0 0x40000000 1 8 0).1.isSome = true := by decide +kernel
/-- A packet that leaves for this reticle: its place there and its route, the request ordered or not, at its start or later. -/
theorem witness_Engines_leave : let s := requestDemo (request 0 0 8 0)
    mget? s.works 2 = some (request 0 0 8 0) ∧ (request 0 0 8 0).wr.toPeer = false
    ∧ placeOf s (workAgent s (request 0 0 8 0)) .write (some 0) 256 = some (0x40000100, 1) ∧ packetRoute s (request 0 0 8 0) = some .mesh
    ∧ (request 0 1 8 0).wr.ordered = true ∧ (request 0 0 8 0).wr.ordered = false ∧ (request 0 0 8 0).wr.puts = true := by decide +kernel
theorem witness_Engines_packetEnd : 0 < (request 0 0 8 0).wr.length ∧ (request 0 0 8 0).wr.toPeer = false := by decide

/-- A packet 3 of work request 2 at reticle 0. -/
def packetDemo (o : WorkOp) (b : Body) : Machine.State :=
  { mapped 0 (demo (.nop r0)) with works := [(2, o)], wire := [(3, ⟨0, 0, false, 0, 0, 0, true, .mesh, false, 0, b⟩)] }
theorem witness_Engines_placed (o : Obligations.EnginesAndPackets) :
    goes (.putPacketPlaced 3) (packetDemo (request 0 0 8 0) (.put 2 0x40000100 1 [1])) ∧ goes (.putPacketPlaced 3) (packetDemo (request 0 0 8 0) (.put 2 0x40000100 9 [1]))
    ∧ goes (.putPacketPlaced 3) (packetDemo (request 3 0 8 0) (.atomic 2 0x40000100 1)) := by
  have h := fun (w : WorkOp) (b : Body) (e : atTarget (packetDemo w b) ⟨0, 0, false, 0, 0, 0, true, .mesh, false, 0, b⟩ = true) =>
    o.2.2.2.2.2.2.2.2.2.2.1 (packetDemo w b) 3 ⟨0, 0, false, 0, 0, 0, true, .mesh, false, 0, b⟩ rfl e
  exact ⟨⟨_, ((h (request 0 0 8 0) (.put 2 0x40000100 1 [1]) (by decide +kernel)).1 2 _ 1 [1] _ rfl).1 (pair_none (by decide +kernel))⟩,
    ⟨_, ((h (request 0 0 8 0) (.put 2 0x40000100 9 [1]) (by decide +kernel)).1 2 _ 9 [1] _ rfl).2 .permission 256 0 (pair_some (by decide +kernel))⟩,
    ⟨_, (h (request 3 0 8 0) (.atomic 2 0x40000100 1) (by decide +kernel)).2 2 _ 1 _ rfl rfl (by decide +kernel)⟩⟩
/-- A piece of a packet, good and bad. -/
theorem witness_Engines_writeUnits : packetCause (mapped 0 (demo (.nop r0))) 0 0 0x40000100 1 1 false 256 = none
    ∧ (packetCause (mapped 0 (demo (.nop r0))) 0 0 0x40000100 9 1 false 256).isSome = true := by decide +kernel
/-- Requests that have left the queue. -/
def gone (o : WorkOp) : Machine.State := { mapped 0 (demo (.nop r0)) with works := [(2, { o with injected := true })] }
theorem witness_Engines_ends (o : Obligations.EnginesAndPackets) :
    goes (.sendCompletion 2) (gone (request 0 0 8 0)) ∧ goes (.readLanded 2) (gone (request 2 0 8 0))
    ∧ goes (.atomicLanding 2) (gone { request 3 0 8 0 with old := some 7 }) := by
  have h := fun w : WorkOp => o.2.2.2.2.2.2.2.2.2.2.2.1 (gone w) 2 { w with injected := true } rfl
  refine ⟨⟨_, (h (request 0 0 8 0)).2.2.1 (by decide) rfl rfl rfl⟩, ?_,
    ⟨_, (h { request 3 0 8 0 with old := some 7 }).2.2.2.2.2 7 _ rfl (by decide) rfl rfl rfl (pair_none (by decide +kernel))⟩⟩
  obtain ⟨x, hx⟩ := some_of (x := mget? (fetchUnits 2 9 (gone (request 2 0 8 0))).works 2) (by decide +kernel)
  have hp : ∀ y, mget? (fetchUnits 2 9 (gone (request 2 0 8 0))).works 2 = some y → y.err = none
      ∧ (landLocal (workAgent (gone (request 2 0 8 0)) y) (y.taken.length + 1) (y.wr.laddr + y.moved) y.taken (fetchUnits 2 9 (gone (request 2 0 8 0)))).2 = none := by
    decide +kernel
  exact ⟨_, (h (request 2 0 8 0)).2.2.2.1 _ x _ (by decide +kernel) rfl hx (hp x hx).1 (pair_none (hp x hx).2)⟩
theorem witness_Engines_fetch : let s := gone (request 2 0 8 0)
    placeOf s (workAgent s (request 2 0 8 0)) .read (some 0) 256 = some (0x40000100, 1) ∧ (readUnit s 0 0 0x40000100 1 8 256).1 = none := by decide +kernel
theorem witness_Engines_packetDone : (request 0 0 8 0).outstanding ≠ 1 ∧ { request 1 0 8 0 with outstanding := 1 }.wr.opc = 1
    ∧ { request 1 0 8 0 with outstanding := 1 }.wr.toPeer = false ∧ (request 1 0 8 0).err = none := by decide
theorem witness_Engines_landing : translateNow (gone work1) agent1.sp .write 0 = .ok 0x40000000 leaf1
    ∧ (writeUnit 0 0 0x40000000 (pteKey leaf1) [1, 2] 0 (gone work1)).2 = (2, none) := by decide +kernel
theorem witness_Engines_nflush (o : Obligations.EnginesAndPackets) :
    goes (.nflushComplete 4) { gone { work1 with sent := true } with flushes := [(4, ⟨1, 0, .execute, 0, [2], false⟩)] } :=
  ⟨_, o.2.2.2.2.2.2.2.2.2.2.2.2.2.2 { gone { work1 with sent := true } with flushes := [(4, ⟨1, 0, .execute, 0, [2], false⟩)] } 4 _ rfl rfl (by decide +kernel)⟩
theorem witness_Engines_tagDown : ∃ g, mget? (tagDemo (.nop r0)).groups 1 = some g ∧ tagCount g 0 = 1 := ⟨_, rfl, rfl⟩

/-! #### Issue and dispatch -/

/-- A run of one word: NOP, or what is given. -/
def runBytes (w : W32) : List Byte := bytesLE 4 0x00100440 ++ bytesLE 4 w.toNat
/-- The group of demo at the boundary of a run: its threads stand at virtual address 0, where the bytes given lie. -/
def boundary (warps : Nat) (bs : List Byte) : Machine.State :=
  let s := setPort ⟨0, .execute⟩ none (mapped 0 (demo (.nop r0)))
  writeRaw (updGroup 1 (fun g => { g with launch := { g.launch with warps := warps } }) s) 0x40000000 bs
/-- What the port of the execute slice sees and chooses. -/
def chosen (s : Machine.State) : Option Seen :=
  let u := fillActive 8 ⟨0, .execute⟩ (settlePort ⟨0, .execute⟩ s)
  argMin (fun x => (1000 - x.prio) * 2 ^ 64 + x.sw.lastIssue) ((survey u ⟨0, .execute⟩).filter (fun x => x.sw.active && x.isReady))
/-- It picks a ready run, or one that cannot be decoded, of lanes below 64. -/
def picks (s : Machine.State) (ready : Bool) : Bool :=
  match (chosen s).bind (·.pick) with
  | some (pg, .ready _) => ready && pg.lanes.all (· < 64)
  | some (_, .stop _) => !ready
  | _ => false
theorem picks_ready {s : Machine.State} (h : picks s true = true) : ∃ x pg r, chosen s = some x ∧ x.pick = some (pg, .ready r) ∧ ∀ l ∈ pg.lanes, l < 64 := by
  unfold picks at h
  cases hc : chosen s with
  | none => simp [hc] at h
  | some x =>
    simp only [hc, Option.bind_some] at h
    split at h
    · rename_i pg r hp
      exact ⟨x, pg, r, rfl, hp, by simpa using h⟩
    · simp at h
    · simp at h
theorem picks_stop {s : Machine.State} (h : picks s false = true) : ∃ x pg e, chosen s = some x ∧ x.pick = some (pg, .stop e) := by
  unfold picks at h
  cases hc : chosen s with
  | none => simp [hc] at h
  | some x =>
    simp only [hc, Option.bind_some] at h
    split at h
    · simp at h
    · rename_i pg e hp
      exact ⟨x, pg, e, rfl, hp⟩
    · simp at h
theorem witness_Issue_run (o : Obligations.IssueAndScheduling) : goes (.runIssue 0 .execute) (boundary 1 (runBytes 0x04000000))
    ∧ goes (.runIssue 0 .execute) (boundary 1 []) ∧ goes (.runIssue 0 .execute) State.reset ∧ goes (.runIssue 0 .execute) (demo (.nop r0)) := by
  have h := fun s => o.1 s 0 .execute
  refine ⟨?_, ?_, ⟨_, ((h State.reset).2 rfl rfl).2.2 rfl⟩, ⟨_, (h (demo (.nop r0))).1 (.inl (by decide +kernel))⟩⟩
  · obtain ⟨x, pg, r, hx, hp, hl⟩ := picks_ready (s := boundary 1 (runBytes 0x04000000)) (by decide +kernel)
    obtain ⟨t, _, ht, _⟩ := ((h (boundary 1 (runBytes 0x04000000))).2 (by decide +kernel) (by decide +kernel)).1 x pg r hx hp hl
    exact ⟨t, ht⟩
  · obtain ⟨x, pg, e, hx, hp⟩ := picks_stop (s := boundary 1 []) (by decide +kernel)
    exact ⟨_, ((h (boundary 1 [])).2 (by decide +kernel) (by decide +kernel)).2.1 x pg e hx hp⟩
/-- Headers: one with 24 words passes the checks on its own fields; 0 and 25 words, a guard slot of 24, a reserved bit and an instruction do not. -/
theorem witness_Issue_headers : (opOf 0x01800000 = 0 ∧ bitsOf (0x01800000 : W32).toNat 24 20 = 24) ∧ bitsOf (0x01900000 : W32).toNat 24 20 = 25
    ∧ opOf 0x04000000 ≠ 0 ∧ 24 ∈ [bitsOf (0x001C0000 : W32).toNat 19 15, bitsOf (0x001C0000 : W32).toNat 14 10, bitsOf (0x001C0000 : W32).toNat 9 5]
    ∧ (∀ g ∈ [bitsOf (0x00100001 : W32).toNat 19 15, bitsOf (0x00100001 : W32).toNat 14 10, bitsOf (0x00100001 : W32).toNat 9 5], g < 24 ∨ 30 < g)
    ∧ bitsOf (0x00100001 : W32).toNat 3 0 ≠ 0 := by decide
theorem witness_Issue_verdict : ∃ g r, mget? (boundary 1 (runBytes 0x04000000)).groups 1 = some g
    ∧ decodeRun (fetchWord (boundary 1 (runBytes 0x04000000)) 0 g) g.launch 0 = .ok r := by
  refine ⟨_, ⟨0x00100440, [0x04000000], []⟩, rfl, by decide +kernel⟩
/-- Two warps: the first active and waiting in SLEEP, or idle; the second pending, ready since tick 0 or not. -/
def twoWarps (wait : Wait) (ticks : Nat) : Machine.State :=
  let s := boundary 2 (runBytes 0x04000000)
  let s := (upFrom 0 16).foldl (fun t l => updTh (thKey sw1 l) (fun th => { th with wait := wait }) t) s
  { updSw (swKey 1 1 .execute) (fun x => { x with active := false, readySince := some 0 }) s with ticks := ticks }
/-- The active slice-warps that a test keeps, the least recent of them. -/
def outgoing (s : Machine.State) (test : Seen → Bool) : Option Seen := argMin (fun x => x.sw.lastIssue) ((survey s ⟨0, .execute⟩).filter test)
theorem witness_Issue_swap (o : Obligations.IssueAndScheduling) : goes (.droverSwap 0 .execute) (twoWarps (.sleep 9) 0) := by
  obtain ⟨a, ha⟩ := some_of (x := outgoing (twoWarps (.sleep 9) 0) (fun x => x.sw.active && x.stalled (twoWarps (.sleep 9) 0) ⟨0, .execute⟩)) (by decide +kernel)
  obtain ⟨b, hb⟩ := some_of (x := swapIn (survey (twoWarps (.sleep 9) 0) ⟨0, .execute⟩)) (by decide +kernel)
  exact ((o.2.2.2.1 (twoWarps (.sleep 9) 0) 0 .execute a b (by decide +kernel)).1 ha hb).imp fun _ h => h.1
/-- The pending slice-warps that have been ready for 1,024 cycles. -/
def longReady (s : Machine.State) : Option Seen :=
  swapIn ((survey s ⟨0, .execute⟩).filter (fun x => match x.sw.readySince with | some t => decide (s.ticks - t ≥ 8192) | none => false))
theorem witness_Issue_longWait (o : Obligations.IssueAndScheduling) : goes (.pendingLongWait 0 .execute) (twoWarps .none 8192) := by
  obtain ⟨a, ha⟩ := some_of (x := outgoing (twoWarps .none 8192) (·.sw.active)) (by decide +kernel)
  obtain ⟨b, hb⟩ := some_of (x := longReady (twoWarps .none 8192)) (by decide +kernel)
  have h := (o.2.2.2.1 (twoWarps .none 8192) 0 .execute a b (by decide +kernel)).2 ha hb
  by_cases hp : a.prio ≤ b.prio
  · exact (h.1 hp).imp fun _ h => h.1
  · exact ⟨_, h.2 (by omega)⟩
/-- The execute slice waits for q0, which the access slice fills, and the access slice, at 0x40, waits for q4, which the execute slice fills. -/
def stuck : Machine.State :=
  let s := withFlags 1 (boundary 1 (runBytes (packR 0x23 ⟨2, 88, 0, false, 0, false⟩)))
  let s := writeRaw s 0x40000040 (runBytes (packR 0x23 ⟨2, 92, 0, false, 0, false⟩))
  { withAccess (fun th => { th with pc := 0x40 }) s with deadlock := [(pairKey 1 0, 0, some 0)], ticks := 65536 * 8 }
theorem witness_Issue_deadlock (o : Obligations.IssueAndScheduling) : goes (.decoupleDeadlock 1 0) stuck := by
  obtain ⟨⟨a, x⟩, hp⟩ := some_of (x := pairStuck stuck 1 ((mget? stuck.groups 1).getD (placedGroup 0)) 0) (by decide +kernel)
  exact ⟨_, o.2.2.2.2.1 stuck 1 0 _ a x rfl rfl (by decide +kernel) hp⟩

/-- A region whose budget is the one core window of core 0, its record at virtual address 0 and its leaf at 0x5000; a grid of one group. -/
def placeDemo (state : GridState) (flags : Nat) : Machine.State :=
  let s := [0, 1, 2, 3].foldl (fun t k => updCore k (fun c => { c with lmap := 0xFFFFFFFF, wcode := 0 }) t) (mapped 0 State.reset)
  let s := writeRaw (writeRaw s 0x40000008 (bytesLE 8 0x5000)) 0x5000 (bytesLE 8 (0xA000000 * 2 ^ 19 + 2 ^ 11 + 0x37))
  updMod 0 (fun m => { m with
    regions := [(0, ⟨0, { rootRcb 0 with wincount := 1, barlim := 32 }, 0, none, 0, 0, none⟩)]
    grids := [(1, { grid1 with state := state, placed := 0, launch := { placedLaunch with flags := flags } })] }) s
theorem witness_Issue_place (o : Obligations.IssueAndScheduling) : goes (.groupPlace 0) (placeDemo .dispatching 0) := by
  have hr : regionOrder (settleRequest 0 0 (placeDemo .dispatching 0)) 0 (servable (settleRequest 0 0 (placeDemo .dispatching 0)) 0).length
      (servable (settleRequest 0 0 (placeDemo .dispatching 0)) 0) = 0 :: [] := by decide +kernel
  have hw : (waitingGrids (settleRequest 0 0 (placeDemo .dispatching 0)) 0 0).map (·.1) = [1] := by decide +kernel
  obtain ⟨⟨h, x⟩, hx⟩ : ∃ e, waitingGrids (settleRequest 0 0 (placeDemo .dispatching 0)) 0 0 = [e] :=
    List.length_eq_one_iff.mp (by simpa using congrArg List.length hw)
  obtain rfl : h = 1 := by rw [hx] at hw; simpa using hw
  obtain ⟨t, ht⟩ := some_of (x := placeNext 0 1 (settleRequest 0 0 (placeDemo .dispatching 0))) (by decide +kernel)
  exact ⟨_, o.2.2.2.2.2.1 (placeDemo .dispatching 0) 0 0 1 [] [] [] x t hr hx (fun e he => absurd he (by simp)) ht⟩
theorem witness_Issue_window (o : Obligations.IssueAndScheduling) : ∃ t, placeNext 0 1 (placeDemo .dispatching 0) = some t := by
  obtain ⟨⟨k, v, f⟩, hw⟩ := some_of (x := findWindow (placeDemo .dispatching 0) 0 0 0 placedLaunch
    (fromCursor (windowsOf (placeDemo .dispatching 0) 0 0 0) 0)) (by decide +kernel)
  obtain ⟨t, _, h, _⟩ := o.2.2.2.2.2.2.1 (placeDemo .dispatching 0) 0 1 _ _ k v f rfl rfl hw (by decide)
  exact ⟨t, h⟩
theorem witness_Issue_dependency (o : Obligations.IssueAndScheduling) :
    goes (.gridDependencyMet 0 1) (placeDemo .waiting 0) ∧ goes (.gridDependencyMet 0 1) (placeDemo .waiting 16) := by
  refine ⟨((o.2.2.2.2.2.2.2.1 (placeDemo .waiting 0) 0 1 _ rfl rfl rfl (by decide +kernel) (by decide +kernel)).1 rfl).imp fun _ h => h.1, ?_⟩
  have h := (o.2.2.2.2.2.2.2.1 (placeDemo .waiting 16) 0 1 _ rfl rfl rfl (by decide +kernel) (by decide +kernel)).2.2 rfl (by decide +kernel) (by decide +kernel)
  cases hp : placeAll 0 1 1 (updGrid 0 1 (fun y => { y with state := .dispatching, dist := 0 }) (placeDemo .waiting 16)) with
  | none => exact ⟨_, h.2 hp⟩
  | some t => exact ⟨_, h.1 t hp⟩
/-- A region of a higher priority has a group to place: a persistent grid waits for it. -/
def outranked : Machine.State := updMod 0 (fun m => { m with
  regions := m.regions ++ [(1, ⟨0, { rootRcb 0 with parent := 0, prio := 9, wincount := 1, barlim := 32 }, 0, none, 0, 0, none⟩)]
  grids := m.grids ++ [(2, { grid1 with state := .dispatching, placed := 0, launch := { placedLaunch with region := 1 } })] }) (placeDemo .waiting 16)
theorem witness_Issue_outranked (o : Obligations.IssueAndScheduling) : goes (.gridDependencyMet 0 1) outranked :=
  ⟨_, (o.2.2.2.2.2.2.2.1 outranked 0 1 _ rfl rfl rfl (by decide +kernel) (by decide +kernel)).2.1 rfl (.inr (by decide +kernel))⟩
/-- A region whose fold is not complete: it waits, since a tick, if it has a group to place. -/
def aging (state : GridState) (since : Option Nat) (ticks : Nat) : Machine.State :=
  { updRegion 0 0 (fun r => { r with waitSince := since }) (updCore 3 (fun c => { c with lmap := 0 }) (placeDemo state 0)) with ticks := ticks }
theorem witness_Issue_aging (o : Obligations.IssueAndScheduling) :
    goes (.priorityAging 0 0) (aging .resident none 0) ∧ goes (.priorityAging 0 0) (aging .dispatching none 0)
    ∧ goes (.priorityAging 0 0) (aging .dispatching (some 0) 159999999) ∧ goes (.priorityAging 0 0) (aging .dispatching (some 0) 160000000) := by
  have h := fun s => o.2.2.2.2.2.2.2.2 s 0 0
  exact ⟨((h (aging .resident none 0) _ rfl).1 (by decide +kernel)).imp fun _ h => h.1,
    (((h (aging .dispatching none 0) _ rfl).2 (by decide +kernel)).1 (by decide)).imp fun _ h => h.1,
    (((h (aging .dispatching (some 0) 159999999) _ rfl).2 (by decide +kernel)).1 (by decide)).imp fun _ h => h.1,
    (((h (aging .dispatching (some 0) 160000000) _ rfl).2 (by decide +kernel)).2.2 (by decide) (by decide +kernel)).imp fun _ h => h.1⟩
/-- A group of a higher effective priority is on a core of the budget: the region rises. -/
def rising : Machine.State :=
  let s := updMod 0 (fun m => { m with regions := m.regions ++ [(1, ⟨0, { rootRcb 0 with parent := 0, prio := 9 }, 0, none, 0, 0, none⟩)] }) (aging .dispatching (some 0) 160000000)
  { s with groups := [(1, { placedGroup 0 with region := 1 })] }
theorem witness_Issue_rising (o : Obligations.IssueAndScheduling) : goes (.priorityAging 0 0) rising :=
  (((o.2.2.2.2.2.2.2.2 rising 0 0 _ rfl).2 (by decide +kernel)).2.1 (by decide) (by decide +kernel)).imp fun _ h => h.1

/-! #### Saving and resuming -/

/-- The group of demo, changed, with its grid. -/
def saving (f : Machine.Group → Machine.Group) : Machine.State :=
  updGroup 1 f (updMod 0 (fun m => { m with grids := [(1, grid1)] }) (mapped 0 (demo (.nop r0))))
/-- All its lanes wait in a listed YIELD. -/
def yielding : Machine.State :=
  (upFrom 0 16).foldl (fun t l => updTh (thKey sw1 l) (fun th => { th with wait := .yield 0 0 }) t) (saving (fun g => { g with preq := true }))
theorem witness_Saving_request (o : Obligations.SavingAndResuming) :
    goes (.pdlcExpiry 1) (saving (fun g => { g with preq := true })) ∧ goes (.pdlcExpiry 1) (saving (fun g => { g with preq := true, pdlcFrom := some (0, 9) }))
    ∧ goes (.saveComplete 1) yielding ∧ goes (.saveComplete 1) (saving id) := by
  refine ⟨((o.1 (saving (fun g => { g with preq := true })) 1 _ rfl).1 rfl rfl rfl).imp fun _ h => h.1,
    ⟨_, (o.1 (saving (fun g => { g with preq := true, pdlcFrom := some (0, 9) })) 1 _ rfl).2.1 rfl rfl (by decide)⟩,
    ((o.1 yielding 1 _ rfl).2.2.1 rfl (by decide +kernel)).imp fun _ h => h.1, ⟨_, (o.1 (saving id) 1 _ rfl).2.2.2.1 rfl (by decide +kernel)⟩⟩
/-- The group has stopped issuing at tick 0; what it waits for, if anything, and what it leaves its core for. -/
def halting (f : Machine.Group → Machine.Group) (tick : Nat) (long : SMap Long) : Machine.State :=
  { saving (fun g => f { g with phase := .halting, drainFrom := some 0 }) with ticks := tick, longs := long }
/-- A halt for TRAP, recorded. -/
def haltFrame : Cause × Nat × Nat × Nat × Bool := (.trap, 1, 0, sw1, true)
theorem witness_Saving_drained (o : Obligations.SavingAndResuming) :
    goes (.saveComplete 1) (halting id 0 [(2, long1 2 false)]) ∧ goes (.saveComplete 1) (halting (fun g => { g with discard := true }) 0 [])
    ∧ goes (.saveComplete 1) (halting id 0 [])
    ∧ goes (.saveComplete 1) (updMod 0 (fun m => { m with handlers := [(0, 5)] }) (halting (fun g => { g with halt := some haltFrame }) 0 []))
    ∧ goes (.drainTimeout 1) (halting id 1599999 []) ∧ goes (.drainTimeout 1) (halting id 1600000 [(2, long1 2 false)]) := by
  have h := fun s => o.1 s 1
  refine ⟨⟨_, (h (halting id 0 [(2, long1 2 false)]) _ rfl).2.2.2.2.1 rfl (by decide +kernel)⟩,
    ((h (halting (fun g => { g with discard := true }) 0 []) _ rfl).2.2.2.2.2.1 rfl (by decide +kernel) rfl).imp fun _ h => h.1,
    (((h (halting id 0 []) _ rfl).2.2.2.2.2.2.1 rfl (by decide +kernel) rfl).1 (.inl rfl)).imp fun _ h => h.1,
    (((h (updMod 0 (fun m => { m with handlers := [(0, 5)] }) (halting (fun g => { g with halt := some haltFrame }) 0 [])) _ rfl).2.2.2.2.2.2.1
      rfl (by decide +kernel) rfl).2 (by simp) rfl (by decide +kernel)).imp fun _ h => h.1,
    ⟨_, ((h (halting id 1599999 []) _ rfl).2.2.2.2.2.2.2 0 rfl rfl).1 (by decide)⟩,
    ⟨_, ((h (halting id 1600000 [(2, long1 2 false)]) _ rfl).2.2.2.2.2.2.2 0 rfl rfl).2 (by decide)⟩⟩
theorem witness_Saving_abandoned : (∃ f : Flight, f.dest = .regs ∧ f.kind.acked = false ∧ (f.kind.writes = true → f.performed = true)
    ∧ (f.performed = true → ∀ x ∈ f.lanes, x.err = none) ∧ ∃ x ∈ f.lanes, ∃ c, x.reg ≤ c ∧ c < x.reg + f.words ∧ c < 256)
    ∧ (flight1 .store).kind.acked = true :=
  ⟨⟨{ flight1 .load with dest := .regs }, rfl, rfl, by decide, by decide, _, List.mem_cons_self, 2, by decide⟩, rfl⟩
/-- A handler's launch record at virtual address 256 (R42): one group of one warp with 16 registers, or what the bytes say. -/
def handlerRecord (groups : Nat) : List Byte := bytesLE 16 0 ++ bytesLE 4 groups ++ bytesLE 4 0x10000001 ++ bytesLE 104 0
/-- A halted group in the saved set of root region 0, which waits for its handler. -/
def handling (groups : Nat) : Machine.State :=
  updMod 0 (fun m => { m with
    regions := [(0, ⟨0, { rootRcb 0 with wincount := 1, barlim := 32, handler := 256 }, 0, none, 0, 0, none⟩)]
    saved := [(1, image1 false)], waitingHalts := [1] }) (writeRaw (placeDemo .resident 0) 0x40000100 (handlerRecord groups))
theorem witness_Saving_launch : ∀ n ∈ [0, 1], (nextHalted (handling n) 0 0).isSome = true ∧
    let u := updMod 0 (fun y => { y with waitingHalts := y.waitingHalts.filter (· != 1) }) (handling n)
    readRecord u 0 0 256 = some (handlerRecord n) ∧ (launchStatus u 0 0 .host (handlerRecord n) = 0 ↔ n = 1) := by decide +kernel
/-- A handler grid has ended, with DISP in the primary record at virtual address 0. -/
def handled (status disp : Nat) : Machine.State :=
  updMod 0 (fun m => { m with grids := [(5, { grid1 with handlerFor := some (1, 0), state := .finished, status := status })], handlers := [(0, 5)]
                              saved := [(1, image1 false)] })
    (writeRaw (mapped 0 State.reset) 0x4000001B [BitVec.ofNat 8 disp])
theorem witness_Saving_finish (o : Obligations.SavingAndResuming) : goes (.handlerFinish 0 5) (handled 0 1) ∧ goes (.handlerFinish 0 5) (handled 9 1) :=
  ⟨⟨_, (o.2.2.2.2.2.1 (handled 0 1) 0 5 _ 1 0 0 1 rfl rfl rfl rfl).1 (by decide +kernel) rfl⟩,
    ⟨_, (o.2.2.2.2.2.1 (handled 9 1) 0 5 _ 1 0 0 1 rfl rfl rfl rfl).2 (by decide)⟩⟩
theorem witness_Saving_dispose : ¬ ((image1 false).group.phase = .lost ∨ ∃ a, (image1 false).group.halt = some (.sdcDetected, a)) := by
  simp [image1, placedGroup]
/-- A saved group of the region of placeDemo. -/
def resuming (x : Image) : Machine.State := updMod 0 (fun m => { m with saved := [(1, x)] }) (placeDemo .resident 0)
theorem witness_Saving_resume (o : Obligations.SavingAndResuming) :
    goes (.groupResume 0 1) (resuming (image1 false)) ∧ goes (.groupResume 0 1) (resuming { image1 false with halted := false }) := by
  have h := fun x k v hx hp hl => o.2.2.2.2.2.2.2.1 (resuming x) 0 1 x k v rfl hx hp hl
  obtain ⟨⟨k, v⟩, hw⟩ := some_of (x := resumeWindow (resuming { image1 false with halted := false }) { image1 false with halted := false }) (by decide +kernel)
  refine ⟨⟨_, (h (image1 false) 0 0 (by decide +kernel) (by decide) rfl).1 (.inl rfl)⟩, ?_⟩
  obtain ⟨t, _, ht, _⟩ := (h { image1 false with halted := false } k v (by decide +kernel) (by decide) rfl).2 rfl rfl (by decide +kernel) hw rfl rfl
  exact ⟨t, ht⟩
/-- A staged grid of one group that has or has not exited. -/
def stagedDemo (ended : Nat) : Machine.State :=
  updMod 0 (fun m => { m with grids := [(1, { grid1 with ended := ended, launch := { placedLaunch with flags := 2 } })] }) (mapped 0 State.reset)
theorem witness_Saving_staged (o : Obligations.SavingAndResuming) : goes (.stagedCommit 0 1) (stagedDemo 0) ∧ goes (.stagedCommit 0 1) (stagedDemo 1) :=
  ⟨⟨_, (o.2.2.2.2.2.2.2.2 (stagedDemo 0) 0 1 _ rfl (by decide +kernel) (by decide +kernel) rfl).1 (by decide +kernel)⟩,
    ((o.2.2.2.2.2.2.2.2 (stagedDemo 1) 0 1 _ rfl (by decide +kernel) (by decide +kernel) rfl).2 rfl).imp fun _ h => h.1⟩

/-! #### The command processor -/

/-- Command queue 0 of root region 0, at virtual address 0x8000, its QCB at an address that nothing maps, with one command posted. -/
def cmdQueue (who : Poster) : CmdQueue := ⟨0x80000000, 0x8000, 4, 0, 1, 0, 0, [(0, who)], none⟩
/-- A command: its code and flags, and the operands at 0x10, 0x18 and 0x20 (R307). No completion word. -/
def cmdBytes (code a b c : Nat) : List Byte := bytesLE 8 code ++ bytesLE 8 0 ++ bytesLE 8 a ++ bytesLE 8 b ++ bytesLE 32 c
/-- The entry that a step reads. -/
def entryOf (who : Poster) (bs : List Byte) : Entry := ⟨0, 0, 0, who, bs⟩
/-- Region 0 with one window. -/
def region0 : Region := ⟨0, { rootRcb 0 with wincount := 1, barlim := 32, gmin := 16 }, 0, none, 0, 0, none⟩
/-- Region 1, its child, which inherits everything. -/
def region1 : Region := ⟨1, { rootRcb 0 with parent := 0, depth := 1, inherit := 0, ptroot := 0 }, 0, none, 0, 0, none⟩
/-- It is posted; operand images lie at virtual address 0x400; reticle 79 is in service and shares a trained circuit with reticle 79 of module 1. -/
def cmdDemo (who : Poster) (bs image : List Byte) : Machine.State :=
  let s := writeRaw (writeRaw (placeDemo .finished 0) 0x40008000 bs) 0x40000400 image
  let s := updRet 79 (fun r => { r with site := .inService, plane := 0, portMap := [(0, 2 ^ 19 + 79 * 2 ^ 10 + 1), (8, 0x80)] }) s
  let s := updRet 207 (fun r => { r with site := .inService, plane := 0, portMap := [(0, 2 ^ 19 + 79 * 2 ^ 10), (8, 0x80)] }) s
  let s := updMod 1 (fun m => { m with booted := true }) s
  updMod 0 (fun m => { m with
    queues := [(0, cmdQueue who)], kemUsed := []
    regions := [(0, region0), (1, region1)] }) s
/-- What the tests of Arrives say of a command. -/
def isPosted (s : Machine.State) (code : Nat) (bs : List Byte) : Bool :=
  readVa s 0 0 0x8000 64 == some bs && fieldLE bs 0 1 == code && nextCommand s 0 == some (0, 0)
theorem arrives {s : Machine.State} {who : Poster} {code : Nat} {bs : List Byte} (hq : (s.mod 0).queues = [(0, cmdQueue who)])
    (h : isPosted s code bs = true) : Arrives s 0 0 0 code (cmdQueue who) (entryOf who bs) := by
  simp only [isPosted, Bool.and_eq_true, beq_iff_eq] at h
  exact ⟨by rw [hq]; rfl, h.2, h.1.1, rfl, h.1.2⟩
theorem cmd_arrives {who : Poster} {code : Nat} {bs image : List Byte} (h : isPosted (cmdDemo who bs image) code bs = true) :
    Arrives (cmdDemo who bs image) 0 0 0 code (cmdQueue who) (entryOf who bs) := arrives rfl h

theorem witness_Commands_frame (o : Obligations.CommandProcessor) :
    goes (.launch 0 0 0) (cmdDemo .host (cmdBytes 0 0 0 0) []) ∧ goes (.keyload 0 0 0) (cmdDemo .host (cmdBytes 11 0 0 0) [])
    ∧ goes (.launch 0 0 0) (cmdDemo .host (cmdBytes 2 0 0 0) []) ∧ goes (.regionCreate 0 0 0) (cmdDemo .host (cmdBytes 0x202 0 0 0) [])
    ∧ goes (.regionCreate 0 0 0) (cmdDemo (.kernel 0) (cmdBytes 2 0 0 0) []) := by
  have h := fun who bs code ha => (o.1 (cmdDemo who bs []) 0 0 0 code (cmdQueue who) (entryOf who bs) ha).2
  refine ⟨⟨_, (h .host _ 0 (cmd_arrives (by decide +kernel)) (1, 0, [(0x10, 8)], .launch 0 0 0) (by simp)).1 (.inl rfl)⟩,
    ⟨_, (h .host _ 11 (cmd_arrives (by decide +kernel)) (8, 2, [(0x10, 9)], .keyload 0 0 0) (by simp)).1 (.inr (by decide))⟩,
    ⟨_, (h .host _ 2 (cmd_arrives (by decide +kernel)) (1, 0, [(0x10, 8)], .launch 0 0 0) (by simp)).2.1 (by decide) (by decide) (by decide)⟩,
    ⟨_, (h .host _ 2 (cmd_arrives (by decide +kernel)) (2, 1, [(0x10, 10)], .regionCreate 0 0 0) (by simp)).2.2.1 rfl (by decide) (by unfold Clean; decide +kernel)⟩,
    ⟨_, (h (.kernel 0) _ 2 (cmd_arrives (by decide +kernel)) (2, 1, [(0x10, 10)], .regionCreate 0 0 0) (by simp)).2.2.2 rfl (by unfold Clean; decide +kernel)
      (by decide +kernel)⟩⟩
/-- A LAUNCH of the record at virtual address 0x400. -/
def launchDemo (groups : Nat) : Machine.State := cmdDemo .host (cmdBytes 1 0x400 0 0) (handlerRecord groups)
theorem witness_Commands_launch (o : Obligations.CommandProcessor) : goes (.launch 0 0 0) (launchDemo 1) ∧ goes (.launch 0 0 0) (launchDemo 0) := by
  have h := fun n ha hc => o.2.1 (launchDemo n) 0 0 0 (cmdQueue .host) (entryOf .host (cmdBytes 1 0x400 0 0)) (handlerRecord n) ha hc
  obtain ⟨u, _, _, hu, _⟩ := (h 1 (cmd_arrives (by decide +kernel)) (by unfold Clean; decide +kernel) (by decide +kernel)).1 (by decide +kernel)
  exact ⟨⟨u, hu⟩, ((h 0 (cmd_arrives (by decide +kernel)) (by unfold Clean; decide +kernel) (by decide +kernel)).2 (by decide +kernel)).imp fun _ h => h.1⟩
/-- REGION_CREATE of a child of region 0 that inherits everything, REGION_MODIFY of region 1 to the same. -/
def regionDemo (code region : Nat) : Machine.State := cmdDemo .host (cmdBytes code 0x400 region 0) (List.replicate 128 0)
theorem triple {α β γ : Type} (x : α × β × γ) : x = (x.1, x.2.1, x.2.2) := rfl
theorem witness_Commands_create (o : Obligations.CommandProcessor) : goes (.regionCreate 0 0 0) (regionDemo 2 0) :=
  ⟨_, ((o.2.2.1 (regionDemo 2 0) 0 0 0 (cmdQueue .host) (entryOf .host (cmdBytes 2 0x400 0 0)) (List.replicate 128 0) region0 (by decide +kernel) (by decide +kernel)
    (by decide +kernel)).1 _ _ _ (cmd_arrives (by decide +kernel)) (by unfold Clean; decide +kernel) (by decide +kernel) (by decide +kernel)
    (by decide +kernel) (triple _)).1⟩
theorem witness_Commands_created : (createNode 0 0 true (List.replicate 128 0) (consume 0 0 0 (regionDemo 2 0))).1 = 0
    ∧ (modifyNode 0 1 true (List.replicate 128 0) (consume 0 0 0 (regionDemo 3 1))).1 = 0 := by decide +kernel
theorem witness_Commands_modify (o : Obligations.CommandProcessor) : goes (.regionModify 0 0 0) (regionDemo 3 1) :=
  ⟨_, ((o.2.2.1 (regionDemo 3 1) 0 0 0 (cmdQueue .host) (entryOf .host (cmdBytes 3 0x400 1 0)) (List.replicate 128 0) region1 (by decide +kernel) (by decide +kernel)
    (by decide +kernel)).2 _ _ (cmd_arrives (by decide +kernel)) (by unfold Clean; decide +kernel) (by decide +kernel) (by decide +kernel) (Prod.mk.eta).symm).1⟩
/-- REGION_DESTROY of the root, of a node with a grid, of one without. -/
def destroyDemo (region : Nat) (grids : SMap Grid) : Machine.State :=
  updMod 0 (fun m => { m with grids := grids }) (cmdDemo .host (cmdBytes 4 0 region 0) [])
theorem witness_Commands_destroy (o : Obligations.CommandProcessor) : goes (.regionDestroy 0 0 0) (destroyDemo 0 [])
    ∧ goes (.regionDestroy 0 0 0) (destroyDemo 1 [(1, { grid1 with launch := { placedLaunch with region := 1 } })]) ∧ goes (.regionDestroy 0 0 0) (destroyDemo 1 []) := by
  have h := fun region grids r ha hc hp hr =>
    o.2.2.2.1 (destroyDemo region grids) 0 0 0 (cmdQueue .host) (entryOf .host (cmdBytes 4 0 region 0)) ha hc hp r hr
  exact ⟨⟨_, (h 0 [] region0 (arrives rfl (by decide +kernel)) (by unfold Clean; decide +kernel) (by decide +kernel) (by decide +kernel)).1 rfl⟩,
    ⟨_, ((h 1 [(1, { grid1 with launch := { placedLaunch with region := 1 } })] region1 (arrives rfl (by decide +kernel)) (by unfold Clean; decide +kernel)
      (by decide +kernel) (by decide +kernel)).2.2 (by decide) (by decide +kernel) (by decide +kernel)).1 (by decide +kernel)⟩,
    ⟨_, (((h 1 [] region1 (arrives rfl (by decide +kernel)) (by unfold Clean; decide +kernel) (by decide +kernel) (by decide +kernel)).2.2 (by decide)
      (by decide +kernel) (by decide +kernel)).2 (by decide +kernel)).1⟩⟩
/-- A supervisor of region 1 that names a region of which it is no ancestor: itself. -/
def supDemo : Machine.State := updRegion 0 1 (fun r => { r with rcb := { r.rcb with flags := 1 } }) (cmdDemo (.kernel 1) (cmdBytes 4 0 1 0) [])
theorem witness_Commands_destroyDenied (o : Obligations.CommandProcessor) : goes (.regionDestroy 0 0 0) supDemo :=
  ⟨_, (o.2.2.2.1 supDemo 0 0 0 (cmdQueue (.kernel 1)) (entryOf (.kernel 1) (cmdBytes 4 0 1 0)) (arrives rfl (by decide +kernel))
    (by unfold Clean; decide +kernel) (by decide +kernel) { region1 with rcb := { region1.rcb with flags := 1 } } (by decide +kernel)).2.1 (by decide)
    (.inr (by decide +kernel))⟩
/-- A wavelength assignment of plane 0 of reticle 0 that leaves every wavelength and port unused (R437), or one of version 0. -/
def assignment (version : Nat) : List Byte := bytesLE 2 version ++ bytesLE 2 1 ++ bytesLE 12 0 ++ bytesLE 96 0
/-- TOPO of plane 0 under a generation, or DRAIN of plane 0; a step of the plane is queued at reticles 0 and 79, or not. -/
def planeDemo (code version tgen : Nat) (steps : List PlaneStep) : Machine.State :=
  updRet 79 (fun r => { r with planeSteps := steps }) <| updRet 0 (fun r => { r with planeSteps := steps }) (cmdDemo .host (cmdBytes code (if code = 5 then 0x400 else 0) (1 + tgen * 2 ^ 32) 0) (assignment version))
/-- Its entry. -/
def planeEntry (code tgen : Nat) : Entry := entryOf .host (cmdBytes code (if code = 5 then 0x400 else 0) (1 + tgen * 2 ^ 32) 0)
/-- It arrives, clean. -/
def planePosted (code version tgen : Nat) (steps : List PlaneStep) : Bool :=
  isPosted (planeDemo code version tgen steps) code (planeEntry code tgen).bs
  && !strayBytes (planeEntry code tgen).bs ([(0, 2), (8, 8)] ++ (if code = 5 then [(0x10, 9), (0x1C, 2)] else [(0x18, 1), (0x1C, 1)]))
  && decide (fieldLE (planeEntry code tgen).bs 1 1 < 2)
/-- The record of the assignment. -/
def rec1 : TopoRec := ⟨0, 0, List.replicate 16 0, List.replicate 8 0, []⟩
theorem witness_Commands_topo (o : Obligations.CommandProcessor) : goes (.topo 0 0 0) (planeDemo 5 0 0 []) ∧ goes (.topo 0 0 0) (planeDemo 5 1 0 [.stop 0])
    ∧ goes (.topo 0 0 0) (planeDemo 5 1 1 []) ∧ goes (.topo 0 0 0) (planeDemo 5 1 0 []) := by
  have h := fun version tgen steps (hp : planePosted 5 version tgen steps = true) hc hm =>
    (o.2.2.2.2.1 (planeDemo 5 version tgen steps) 0 0 0 (cmdQueue .host) (planeEntry 5 tgen)).1
    (arrives rfl (by simp only [planePosted, Bool.and_eq_true] at hp; exact hp.1.1))
    (by simp only [planePosted, Bool.and_eq_true, Bool.not_eq_true', decide_eq_true_eq] at hp; exact ⟨hp.1.2, hp.2⟩)
    hc hm
  refine ⟨⟨_, (h 0 0 [] (by decide +kernel) (by decide +kernel) (by decide +kernel)).1 (by decide +kernel)⟩,
    ⟨_, ((h 1 0 [.stop 0] (by decide +kernel) (by decide +kernel) (by decide +kernel)).2 [rec1] (by decide +kernel)).1 (by decide +kernel)⟩,
    ⟨_, ((h 1 1 [] (by decide +kernel) (by decide +kernel) (by decide +kernel)).2 [rec1] (by decide +kernel)).2.1 (by decide +kernel)
      ⟨rec1, List.mem_cons_self, by decide +kernel⟩⟩,
    ⟨_, ((h 1 0 [] (by decide +kernel) (by decide +kernel) (by decide +kernel)).2 [rec1] (by decide +kernel)).2.2 (by decide +kernel)
      (by simp only [List.mem_singleton, forall_eq]; decide +kernel)⟩⟩
theorem witness_Commands_drain (o : Obligations.CommandProcessor) :
    goes (.drain 0 0 0) (planeDemo 6 0 1 [.stop 0]) ∧ goes (.drain 0 0 0) (planeDemo 6 0 1 []) := by
  have h := fun steps (hp : planePosted 6 0 1 steps = true) hc hm hr =>
    (o.2.2.2.2.1 (planeDemo 6 0 1 steps) 0 0 0 (cmdQueue .host) (planeEntry 6 1)).2
    (arrives rfl (by simp only [planePosted, Bool.and_eq_true] at hp; exact hp.1.1))
    (by simp only [planePosted, Bool.and_eq_true, Bool.not_eq_true', decide_eq_true_eq] at hp; exact ⟨hp.1.2, hp.2⟩)
    hc hm hr
  exact ⟨⟨_, (h [.stop 0] (by decide +kernel) (by decide +kernel) (by decide +kernel) (by decide +kernel)).1 (by decide +kernel)⟩,
    ⟨_, (h [] (by decide +kernel) (by decide +kernel) (by decide +kernel) (by decide +kernel)).2 (by decide +kernel)⟩⟩

/-- KEYLOAD of key 255 from an image that erases it or is bad. -/
def keyDemo (erase : Nat) : Machine.State := cmdDemo .host (cmdBytes 8 0x400 255 0) (keyImage erase)
theorem witness_Commands_keyload (o : Obligations.CommandProcessor) : goes (.keyload 0 0 0) (keyDemo 1) ∧ goes (.keyload 0 0 0) (keyDemo 2) := by
  have h := fun n ha hc hp ha' hr => o.2.2.2.2.2.1 (keyDemo n) 0 0 0 (cmdQueue .host) (entryOf .host (cmdBytes 8 0x400 255 0)) (keyImage n) ha hc hp ha' hr
  obtain ⟨u, hu⟩ := some_of (x := loadWrapped 0 255 (keyImage 1) (consume 0 0 0 (keyDemo 1))) (by decide +kernel)
  exact ⟨⟨_, ((h 1 (cmd_arrives (by decide +kernel)) (by unfold Clean; decide +kernel) rfl (by decide +kernel) (by decide +kernel)).2 u hu).1⟩,
    ⟨_, (h 2 (cmd_arrives (by decide +kernel)) (by unfold Clean; decide +kernel) rfl (by decide +kernel) (by decide +kernel)).1 (by decide +kernel)⟩⟩

/-- A TIMESYNC parameter block (R367): a reference, or a follower of module 1, with a period of 1,000 µs. -/
def syncBlock (role epoch : Nat) : List Byte := bytesLE 2 role ++ bytesLE 2 role ++ bytesLE 4 0 ++ bytesLE 8 epoch ++ bytesLE 48 1000
/-- TIMESYNC, before or after the first synchronisation, with region nodes or without their being live for another step. -/
def syncDemo (role epoch : Nat) (done : Bool) : Machine.State :=
  updMod 0 (fun m => { m with sync := { m.sync with done := done } }) (cmdDemo .host (cmdBytes 9 0x400 0 0) (syncBlock role epoch))
/-- The block passes its checks. -/
def syncOk (role epoch : Nat) (done : Bool) : Bool :=
  let b := syncBlock role epoch
  let t := consume 0 0 0 (syncDemo role epoch done)
  isPosted (syncDemo role epoch done) 9 (cmdBytes 9 0x400 0 0)
  && (readVa t 0 0 0x400 64 == some b && (strayBytes b [(0, 1), (2, 2), (8, 12)] == false && (decide (fieldLE b 0 1 ≤ 1) && (decide (fieldLE b 2 2 ≤ 1023)
    && (decide (10 ≤ fieldLE b 0x10 4) && (decide (fieldLE b 0x10 4 ≤ 1000000) && decide (fieldLE b 0 1 = 1 → syncCircuit t 0 (fieldLE b 2 2) = true)))))))
theorem witness_Commands_timesync (o : Obligations.CommandProcessor) : goes (.timesync 0 0 0) (syncDemo 0 0 true) ∧ goes (.timesync 0 0 0) (syncDemo 1 0 false)
    ∧ goes (.timesync 0 0 0) (syncDemo 0 5 false) ∧ goes (.timesync 0 0 0) (syncDemo 0 0 false) := by
  have h := fun role epoch done (hp : syncOk role epoch done = true) ha => by
    simp only [syncOk, Bool.and_eq_true, beq_iff_eq, decide_eq_true_eq] at hp
    exact o.2.2.2.2.2.2.1 (syncDemo role epoch done) 0 0 0 (cmdQueue .host) (entryOf .host (cmdBytes 9 0x400 0 0)) (syncBlock role epoch)
      (arrives rfl hp.1) (by unfold Clean; decide +kernel) rfl ha hp.2.1 hp.2.2.1 hp.2.2.2.1 hp.2.2.2.2.1 hp.2.2.2.2.2.1 hp.2.2.2.2.2.2.1 hp.2.2.2.2.2.2.2
  refine ⟨⟨_, (h 0 0 true (by decide +kernel) (by decide +kernel)).1 (by decide +kernel)⟩,
    ⟨_, (h 1 0 false (by decide +kernel) (by decide +kernel)).2.1 (by decide +kernel) (by decide +kernel)⟩,
    ⟨_, ((h 0 5 false (by decide +kernel) (by decide +kernel)).2.2 (by decide +kernel) (by decide +kernel)).1 (by decide +kernel) (by decide +kernel)⟩,
    ⟨_, ((h 0 0 false (by decide +kernel) (by decide +kernel)).2.2 (by decide +kernel) (by decide +kernel)).2 (.inl (by decide +kernel))⟩⟩
/-- A command that is kept, of queue 0 of root 0. -/
def kept (code arg arg2 arg3 : Nat) (todo : List Nat) : Cmd := ⟨0, 0, 0, code, 0, arg, arg2, arg3, 1, .host, [], todo, false⟩
/-- A follower of module 1, or of module 2, to which no circuit leads; a TIMESYNC kept; exchanges missed. -/
def exchangeDemo (ref missed : Nat) (cmds : List Cmd) (done : Bool) : Machine.State :=
  updMod 0 (fun m => { m with cmds := cmds, sync := { m.sync with role := 1, reference := ref, missed := missed, done := done } }) (cmdDemo .host [] [])
theorem witness_Commands_exchange (o : Obligations.CommandProcessor) : goes (.timesyncExchange 0 4 9) (exchangeDemo 2 0 [] true)
    ∧ goes (.timesyncExchange 0 4 9) (updMod 0 (fun m => { m with sync := { m.sync with role := 0 } }) (exchangeDemo 0 0 [] true))
    ∧ goes (.timesyncExchange 0 4 9) (exchangeDemo 1 0 [] true) ∧ goes (.timesyncExchange 0 0 9) (exchangeDemo 1 0 [kept 9 1 1000 0 []] false) := by
  have h := fun s c => o.2.2.2.2.2.2.2.1 s 0 4 9 c
  exact ⟨⟨_, (h (exchangeDemo 2 0 [] true) (kept 9 1 1000 0 [])).1 rfl (.inr ⟨by decide, by decide +kernel⟩)⟩,
    ⟨_, (h (updMod 0 (fun m => { m with sync := { m.sync with role := 0 } }) (exchangeDemo 0 0 [] true)) (kept 9 1 1000 0 [])).2.1 rfl (by decide +kernel) rfl⟩,
    ⟨_, (h (exchangeDemo 1 0 [] true) (kept 9 1 1000 0 [])).2.2.1 rfl (by decide +kernel) (by decide) (by decide +kernel)⟩,
    ⟨_, ((o.2.2.2.2.2.2.2.1 (exchangeDemo 1 0 [kept 9 1 1000 0 []] false) 0 0 9 (kept 9 1 1000 0 [])).2.2.2 rfl rfl (by decide +kernel)).2 (.inl (by decide +kernel))⟩⟩
/-- The reference has moved away from the follower while it holds regions. -/
def apartDemo : Machine.State := updRet 207 (fun r => { r with wtOff := 1000 }) (exchangeDemo 1 0 [kept 9 1 1000 0 []] false)
theorem witness_Commands_apart (o : Obligations.CommandProcessor) : goes (.timesyncExchange 0 0 9) apartDemo :=
  ⟨_, ((o.2.2.2.2.2.2.2.1 apartDemo 0 0 9 (kept 9 1 1000 0 [])).2.2.2 rfl rfl (by decide +kernel)).1 (by decide +kernel) (by decide +kernel)⟩
theorem witness_Commands_miss (o : Obligations.CommandProcessor) : goes (.timesyncMiss 0) (exchangeDemo 1 2 [] true) ∧ goes (.timesyncMiss 0) (exchangeDemo 1 3 [] true) :=
  ⟨((o.2.2.2.2.2.2.2.2.2.1 (exchangeDemo 1 2 [] true) 0 rfl (by decide +kernel)).1 (by decide +kernel)).imp fun _ h => h.1,
    ((o.2.2.2.2.2.2.2.2.2.1 (exchangeDemo 1 3 [] true) 0 rfl (by decide +kernel)).2 (by decide +kernel)).imp fun _ h => h.1⟩
theorem witness_Commands_skew : trueSkew (cmdDemo .host [] []) ≤ 320 ∧ inService (cmdDemo .host [] []) (0 * 128 + 79) = true := by decide +kernel
/-- An EVENT is read, and finishes when nothing earlier of its queue is left. -/
theorem witness_Commands_event (o : Obligations.CommandProcessor) : goes (.event 0 0 0) (cmdDemo .host (cmdBytes 10 7 0 0) [])
    ∧ goes (.eventFinish 0 0 0) (exchangeDemo 1 0 [{ kept 7 0 0 0 [] with seq := 0 }, kept 10 7 0 0 []] true)
    ∧ goes (.eventFinish 0 0 0) (exchangeDemo 1 0 [kept 10 7 0 0 []] true) := by
  have h := o.2.2.2.2.2.2.2.2.2.2.2.2
  exact ⟨⟨_, h.1 (cmdDemo .host (cmdBytes 10 7 0 0) []) 0 0 0 (cmdQueue .host) (entryOf .host (cmdBytes 10 7 0 0)) (cmd_arrives (by decide +kernel))
      (by unfold Clean; decide +kernel)⟩,
    ⟨_, (h.2.1 (exchangeDemo 1 0 [{ kept 7 0 0 0 [] with seq := 0 }, kept 10 7 0 0 []] true) 0 0 0 (kept 10 7 0 0 []) (by decide +kernel)).1 (.inl (by decide +kernel))⟩,
    ⟨_, (h.2.1 (exchangeDemo 1 0 [kept 10 7 0 0 []] true) 0 0 0 (kept 10 7 0 0 []) (by decide +kernel)).2 (by decide +kernel) (by decide +kernel)⟩⟩
/-- A CKPT alone. -/
def ckptDemo0 (code : Nat) : Machine.State := cmdDemo .host (cmdBytes code 0x1000 0 1) []
/-- A queue of which a command is next, a fence among them. -/
theorem witness_Commands_next : nextCommand (cmdDemo .host (cmdBytes 1 0x400 0 0) []) 0 = some (0, 0)
    ∧ commandReady (cmdDemo .host (cmdBytes 0x101 0x400 0 0) []) 0 (cqKey 0 0) = true
    ∧ bitOf (fieldLE (cmdBytes 0x101 0x400 0 0) 1 1) 0 = true ∧ commandReady (ckptDemo0 7) 0 (cqKey 0 0) = true := by decide +kernel
/-- What a CKPT under way that waits for nothing any more writes. -/
def ckptOut (c : Cmd) : Option Machine.State :=
  let s := exchangeDemo 1 0 [c] true
  let bs := ckptBytes c.arg2 c.arg3 (ckptImages s 0 c.arg2)
  writeSpanKey 0 c.root (effective s 0 7 c.arg2 (·.keyid)) (spanFuel bs.length) c.arg bs s
/-- To virtual address 0x1000, and to one that nothing maps. -/
theorem witness_Commands_ckptEnd (o : Obligations.CommandProcessor) : goes (.ckpt 0 0 0) (exchangeDemo 1 0 [kept 7 0x1000 0 0 []] true)
    ∧ goes (.ckpt 0 0 0) (exchangeDemo 1 0 [kept 7 0x80000000 0 0 []] true) := by
  have h := fun c => (o.2.2.2.2.2.2.2.2.2.2.2.2.2.2.2.2 (exchangeDemo 1 0 [c] true) 0 0 0 (cmdQueue .host) (entryOf .host [])).1 c
  obtain ⟨t, ht⟩ := some_of (x := ckptOut (kept 7 0x1000 0 0 [])) (by decide +kernel)
  have hn : ckptOut (kept 7 0x80000000 0 0 []) = none := Option.not_isSome_iff_eq_none.mp (by decide +kernel)
  exact ⟨⟨_, (h (kept 7 0x1000 0 0 []) (by decide +kernel)).2 t ht⟩, ⟨_, (h (kept 7 0x80000000 0 0 []) (by decide +kernel)).1 hn⟩⟩
/-- A CKPT of region 0 to an address, while another one of it is under way or not. -/
def ckptDemo (dest : Nat) (cmds : List Cmd) : Machine.State := updMod 0 (fun m => { m with cmds := cmds }) (cmdDemo .host (cmdBytes 7 dest 0 1) [])
theorem witness_Commands_ckpt (o : Obligations.CommandProcessor) : goes (.ckpt 0 0 0) (ckptDemo 0x1001 []) ∧ goes (.ckpt 0 0 0) (ckptDemo 0x1000 []) := by
  have h := fun d cs => (o.2.2.2.2.2.2.2.2.2.2.2.2.2.2.2.2 (ckptDemo d cs) 0 0 0 (cmdQueue .host) (entryOf .host (cmdBytes 7 d 0 1))).2
  exact ⟨⟨_, (h 0x1001 [] (by decide +kernel) (arrives rfl (by decide +kernel)) (by unfold Clean; decide +kernel) (by decide +kernel) (by decide +kernel)
      (by decide +kernel) (by decide +kernel)).1 (by decide +kernel)⟩,
    ⟨_, (h 0x1000 [] (by decide +kernel) (arrives rfl (by decide +kernel)) (by unfold Clean; decide +kernel) (by decide +kernel) (by decide +kernel)
      (by decide +kernel) (by decide +kernel)).2 (by decide +kernel)⟩⟩
/-- Another one of the region is under way: the queue is not ready. -/
theorem witness_Commands_ckptWaits : commandReady (ckptDemo 0x1000 [{ kept 7 0 0 0 [] with queue := 1 }]) 0 (cqKey 0 0) = false := by decide +kernel

/-! #### Reset, power, failures -/

/-- Reticles 39, 40 and 41 of module 0 alone in service, west to east, their mesh tables leading to one another. -/
def fabric : Machine.State :=
  let on := fun (n : Nat) (tab : SMap (BitVec 8)) (s : Machine.State) => updRet n (fun r => { r with site := .inService, meshTab := tab }) s
  on 39 [(40, 0xA0), (41, 0xA0)] (on 40 [(39, 0xE0), (41, 0xA0)] (on 41 [(39, 0xE0), (40, 0xE0)] (siteList.foldl (fun s n => updRet n (fun r => { r with site := .dead }) s) (updMod 0 (fun m => { m with booted := true }) State.reset))))
/-- Core 0 of reticle 40, its lanes good. -/
def core40 : Nat := coreKey 40 0 0
theorem witness_Reset_cold (o : Obligations.ResetPowerAndFailures) : goes (.coldReset 1024) State.reset ∧ goes (.coldReset 1023) State.reset :=
  ⟨⟨_, (o.1 State.reset 1024).1 (by decide)⟩, ((o.1 State.reset 1023).2 (by decide)).imp fun _ h => h.1⟩
/-- The power state of reticle 40. -/
def powered (alarm hold : Bool) (since : Option Nat) (tick : Nat) : Machine.State :=
  { updRet 40 (fun r => { r with alarm := alarm, hold := hold, belowSince := since }) fabric with ticks := tick }
theorem witness_Reset_power (o : Obligations.ResetPowerAndFailures) : goes (.powerAlarmRaise 5) fabric ∧ goes (.powerAlarmRaise 40) fabric ∧ goes (.powerHold 40) fabric
    ∧ goes (.powerHoldRelease 40) (powered true true none 0) ∧ goes (.powerHoldRelease 40) fabric
    ∧ goes (.powerAlarmClear 40) (powered true false (some 0) 159999) ∧ goes (.powerAlarmClear 40) (powered true false (some 0) 160000) := by
  have h := fun s => o.2.1 s 40
  exact ⟨⟨_, ((o.2.1 fabric 5).1 (by decide +kernel)).1⟩, ((h fabric).2.1 (by decide +kernel)).1.imp fun _ h => h.1,
    ((h fabric).2.1 (by decide +kernel)).2.imp fun _ h => h.1, ((h (powered true true none 0)).2.2.1 (by decide +kernel)).imp fun _ h => h.1,
    ⟨_, (h fabric).2.2.2.1 (by decide +kernel)⟩,
    ⟨_, ((h (powered true false (some 0) 159999)).2.2.2.2 0 (by decide +kernel) (by decide +kernel) (by decide +kernel)).1 (by decide)⟩,
    ((h (powered true false (some 0) 160000)).2.2.2.2 0 (by decide +kernel) (by decide +kernel) (by decide +kernel)).2 (by decide) |>.imp fun _ h => h.1⟩
/-- Beats that core 0 and the Shepherd of reticle 41 have missed. -/
def missing (n : Nat) : Machine.State := updCore core40 (fun c => { c with missed := n }) (updRet 40 (fun r => { r with missed := [(41, n)] }) fabric)
theorem witness_Reset_heartbeat (o : Obligations.ResetPowerAndFailures) : goes (.heartbeat 40 core40 true) (missing 2) ∧ goes (.heartbeatMiss 40 core40 true false) (missing 2)
    ∧ goes (.heartbeatMiss 40 core40 true true) (missing 3) ∧ goes (.heartbeat 40 41 false) (missing 2) ∧ goes (.heartbeatMiss 40 41 false false) (missing 2)
    ∧ goes (.heartbeatMiss 40 41 false true) (missing 3) := by
  have c := fun n b => (o.2.2.1 (missing n) 40 core40 b).1
  have r := fun n b => (o.2.2.1 (missing n) 40 41 b).2
  exact ⟨(c 2 true (by decide +kernel)).1.imp fun _ h => h.1, ((c 2 false (by decide +kernel)).2.1 (by decide +kernel)).imp fun _ h => h.1,
    ⟨_, (c 3 true (by decide +kernel)).2.2 (by decide +kernel)⟩, (r 2 true (by decide +kernel)).1.imp fun _ h => h.1,
    ((r 2 false (by decide +kernel)).2.1 (by decide +kernel)).imp fun _ h => h.1, ⟨_, (r 3 true (by decide +kernel)).2.2 (by decide +kernel)⟩⟩
/-- A packet of the ordered class at the router of reticle 40, held for its endpoint or not. -/
def heldDemo (body : Body) (held : NSet) : Machine.State :=
  updRet 40 (fun r => { r with ordBuf := held, inWm := [(1, 9), (3, 9)] }) { fabric with wire := [(3, ⟨41, 40, true, 0, 0, 40, true, .mesh, false, 0, body⟩)], nextId := 4 }
theorem witness_Reset_notice (o : Obligations.ResetPowerAndFailures) :
    goes (.failureNotice 40 3) (heldDemo (.failure 39) []) ∧ goes (.failureNotice 40 3) (heldDemo (.failure 39) [3]) :=
  ⟨⟨_, (o.2.2.2.2.1 (heldDemo (.failure 39) []) 40 3 _ 39 rfl rfl).1 (by decide +kernel)⟩,
    ⟨_, (o.2.2.2.2.1 (heldDemo (.failure 39) [3]) 40 3 _ 39 rfl rfl).2 (by decide +kernel)⟩⟩
/-- Core 0 of reticle 40 with its 32 lanes, a group on it or none; one error of KIND 1 is lasting. -/
def selfTest (groups : SMap Machine.Group) : Machine.State :=
  updMod 0 (fun m => { m with policyTab := [(1, ⟨1, 1, 1, 1000⟩)] }) (updCore core40 (fun c => { c with lmap := 0xFFFFFFFF }) { fabric with groups := groups })
theorem witness_Reset_lanes (o : Obligations.ResetPowerAndFailures) : goes (.laneSelfTest core40 1) (selfTest [(1, placedGroup core40)])
    ∧ goes (.laneSelfTest core40 0) (selfTest []) ∧ goes (.laneSelfTest core40 0x80000000) (selfTest []) := by
  have h := fun gs v => o.2.2.2.2.2.1 (selfTest gs) core40 v
  exact ⟨⟨_, (h [(1, placedGroup core40)] 1 (by decide +kernel) (by decide +kernel)).1 (by decide +kernel)⟩,
    ⟨_, (h [] 0 (by decide +kernel) (by decide +kernel)).2.1 (by decide +kernel) (by decide +kernel)⟩,
    ⟨_, ((h [] 0x80000000 (by decide +kernel) (by decide +kernel)).2.2 (by decide +kernel) (by decide +kernel) (by decide +kernel)).1⟩⟩
/-- Reticle 40 with fold 0 and spare fold 32. -/
def foldDemo (groups : SMap Machine.Group) : Machine.State :=
  (upFrom 0 4).foldl (fun t i => updCore (coreKey 40 32 i) (fun c => { c with lmap := 0xFFFFFFFF }) t)
    (updRet 40 (fun r => { r with foldMap := [(0, 0)], spareFolds := [32] }) { fabric with groups := groups })
theorem witness_Reset_fold (o : Obligations.ResetPowerAndFailures) :
    goes (.foldMigration 40 0 32) (foldDemo [(1, placedGroup core40)]) ∧ goes (.foldMigration 40 0 32) (foldDemo []) := by
  have h := fun gs => o.2.2.2.2.2.2.2.1 (foldDemo gs) 40 0 32 0
  exact ⟨⟨_, (h [(1, placedGroup core40)] (by decide +kernel) (by decide +kernel) (by decide +kernel) (by decide +kernel)).1 (by decide +kernel)⟩,
    ((h [] (by decide +kernel) (by decide +kernel) (by decide +kernel) (by decide +kernel)).2 (by decide +kernel)).imp fun _ h => h.1⟩
theorem witness_Reset_short : inService fabric 40 = true ∧ completeFolds fabric 40 < 32 ∧ inService fabric 5 = false
    ∧ (servedRets fabric 0).find? (fun r => r != 40) = some 39 := by decide +kernel
/-- Reticle 40 has died; site 2 is a spare or is not. -/
def retireDemo (site : Site) : Machine.State := updRet 2 (fun r => { r with site := site }) (updRet 40 (fun r => { r with site := .retired, foldMap := [(0, 0)] }) fabric)
theorem witness_Reset_retire (o : Obligations.ResetPowerAndFailures) : goes (.siteRetire 0 40 2) (retireDemo .spare) ∧ goes (.siteRetire 0 40 2) (retireDemo .dead) := by
  have h := fun x => o.2.2.2.2.2.2.2.2 (retireDemo x) 0 40 2 39
  exact ⟨⟨_, (h .spare (by decide +kernel) (by decide +kernel) (by decide +kernel)).1 (by decide +kernel)⟩,
    ((h .dead (by decide +kernel) (by decide +kernel) (by decide +kernel)).2 (by decide +kernel) (by decide +kernel)).imp fun _ h => h.1⟩

/-! #### Ordering and trees -/

theorem witness_Ordering_beacons (o : Obligations.OrderingAndTrees) : goes (.beaconSend 40 0) fabric ∧ goes (.beaconReceive 40 0 5) fabric
    ∧ goes (.beaconSend 40 1) fabric ∧ goes (.beaconSend 40 1) { fabric with ticks := 3200 } ∧ goes (.beaconReceive 40 1 5) fabric := by
  have n := ((o.1 fabric 40 0).2.2.2.2.1 (by decide +kernel))
  have y := ((o.1 fabric 40 1).2.2.2.2.2 41 3 (by decide +kernel))
  have z := ((o.1 { fabric with ticks := 3200 } 40 1).2.2.2.2.2 41 3 (by decide +kernel))
  exact ⟨⟨_, n.1⟩, ⟨_, n.2 5⟩, ⟨_, y.1 (by decide +kernel)⟩, (z.2.1 (by decide +kernel)).imp fun _ h => h.1, (y.2.2 5).imp fun _ h => h.1⟩
theorem witness_Ordering_watermark : 3 ∈ inputSet fabric 40 1 ∧ (∃ e, e ∈ heldFor { fabric with
      wire := [(3, ⟨39, 41, true, 0, 0, 40, true, .mesh, false, 0, .failure 2⟩)] } 40 1)
    ∧ smem ((updRet 40 (fun r => { r with cutPorts := [3] }) fabric).ret 40).cutPorts 3 = true :=
  ⟨by decide +kernel, ⟨(3, ⟨39, 41, true, 0, 0, 40, true, .mesh, false, 0, .failure 2⟩), by decide +kernel⟩, by decide +kernel⟩
/-- A packet 3 of the ordered class at a router; more packets; what is cut, held and watermarked at reticle 40. -/
def arriving (p : Packet) (more : SMap Packet) (cut : NSet) : Machine.State :=
  updRet 40 (fun r => { r with cutPorts := cut }) { fabric with wire := [(3, p)] ++ more }
/-- From reticle 39 to 40 or 41. -/
def packet (dst seq pos : Nat) (moved : Bool) : Packet := ⟨39, dst, true, 1, seq, pos, moved, .mesh, false, 0, .failure 2⟩
/-- A WRITE of some bytes. -/
def bigPacket (bs : List Byte) : Packet := { packet 40 0 40 true with body := .put 9 0 0 bs }
/-- The delivery buffer of reticle 40 holds it. -/
def bufferDemo (bs : List Byte) : Machine.State :=
  updRet 40 (fun r => { r with ordBuf := [4] }) (arriving (packet 40 1 40 false) [(4, bigPacket bs)] [])
theorem big_full (bs : List Byte) (h : bs.length = 4000000) : bufferFull (bufferDemo bs) 40 (packet 40 1 40 false) = true := by
  have hb : packetBytes (bigPacket bs) = 4266752 := by simp only [packetBytes, bigPacket, h]; decide
  have hl : ((bufferDemo bs).ret 40).ordBuf.filterMap (mget? (bufferDemo bs).wire) = [bigPacket bs] := by
    have h : ((bufferDemo bs).ret 40).ordBuf = [4] := by simp [bufferDemo, Sys2Proof.Laws.ret_updRet]
    rw [h]; rfl
  simp only [bufferFull, hl, List.map_cons, List.map_nil, hb]
  decide
theorem witness_Ordering_bufferFull (o : Obligations.OrderingAndTrees) : ∃ bs, goes (.orderedPacketArrival 40 5 3) (bufferDemo bs) := by
  have h : ∀ bs : List Byte, bs.length = 4000000 → goes (.orderedPacketArrival 40 5 3) (bufferDemo bs) := fun bs hb =>
    ⟨_, (o.2.1 (bufferDemo bs) 40 5 3 (packet 40 1 40 false) rfl rfl (by simp [bufferDemo, packet, smem, Sys2Proof.Laws.ret_updRet])).1 (.inl rfl) (big_full bs hb)⟩
  exact ⟨_, h _ (List.length_replicate (n := 4000000) (a := 0))⟩
theorem witness_Ordering_arrivals (o : Obligations.OrderingAndTrees) : goes (.orderedPacketArrival 39 5 3) (arriving (packet 40 1 39 false) [] [])
    ∧ goes (.orderedPacketArrival 40 3 3) (arriving (packet 41 1 39 true) [(4, packet 41 0 39 true)] [])
    ∧ goes (.orderedPacketArrival 40 3 3) (arriving (packet 41 1 39 true) [] [3]) ∧ goes (.orderedPacketArrival 40 3 3) (arriving (packet 41 1 39 true) [] []) := by
  have h := fun m c hb hf => ((o.2.1 (arriving (packet 41 1 39 true) m c) 40 3 3 (packet 41 1 39 true) rfl rfl hb).2 hf).2 39 1 (by decide)
  refine ⟨⟨_, ((o.2.1 (arriving (packet 40 1 39 false) [] []) 39 5 3 (packet 40 1 39 false) rfl rfl (by decide +kernel)).2 (fun h => absurd h (by decide))).1
    rfl rfl rfl⟩, ?_, ?_, ?_⟩
  · exact ⟨_, (h [(4, packet 41 0 39 true)] [] (by decide +kernel) (fun _ => by decide +kernel) (by decide +kernel) rfl rfl (by decide +kernel)).1 (by decide +kernel)⟩
  · exact ⟨_, ((h [] [3] (by decide +kernel) (fun _ => by decide +kernel) (by decide +kernel) rfl rfl (by decide +kernel)).2 (by decide +kernel)).1
      (.inl (by decide +kernel))⟩
  · exact ⟨_, ((h [] [] (by decide +kernel) (fun _ => by decide +kernel) (by decide +kernel) rfl rfl (by decide +kernel)).2 (by decide +kernel)).2 (by decide +kernel)⟩
theorem witness_Ordering_delivery (o : Obligations.OrderingAndTrees) :
    goes (.orderedDelivery 40) fabric ∧ goes (.orderedDelivery 40) (heldDemo (.put 9 0 0 [1]) [3]) :=
  ⟨⟨_, (o.2.2.2.1 fabric 40).1 (by decide +kernel)⟩,
    ⟨_, ((o.2.2.2.1 (heldDemo (.put 9 0 0 [1]) [3]) 40).2 3 ⟨41, 40, true, 0, 0, 40, true, .mesh, false, 0, .put 9 0 0 [1]⟩ (by decide +kernel)).2.2.2 9 rfl⟩⟩
/-- Reticle 40 long after its inputs last moved. -/
def late : Machine.State := updMod 0 (fun m => { m with skewb := 0 }) { fabric with ticks := 100000000 }
theorem witness_Ordering_stall (o : Obligations.OrderingAndTrees) : goes (.watermarkStall 40 1) (updRet 40 (fun r => { r with inWm := [(1, 2 ^ 60)] }) late)
    ∧ goes (.watermarkStall 40 1) late ∧ goes (.portCut 40 6) late ∧ goes (.portCut 40 1) late := by
  have h := fun s p => o.2.2.2.2.1 s 40 p
  refine ⟨⟨_, (h (updRet 40 (fun r => { r with inWm := [(1, 2 ^ 60)] }) late) 1).1 (by decide +kernel)⟩, ?_,
    ⟨_, (h late 6).2.2.2.1 (.inr (.inr (.inl rfl)))⟩, ((h late 1).2.2.2.2 (by decide +kernel) (by decide) (by decide) (by decide +kernel)).imp fun _ h => h.1⟩
  obtain ⟨t, _, ht, _⟩ := (h late 1).2.1 (.inr (by decide +kernel)) (by decide +kernel) (by decide +kernel) (by decide +kernel) (by decide +kernel)
  exact ⟨t, ht⟩
/-- A cut-over that is due at reticle 40. -/
def cutDemo (s : Machine.State) (k : CutKind) : Machine.State := updRet 40 (fun r => { r with cuts := [⟨0, k⟩] }) s
theorem witness_Ordering_cuts (o : Obligations.OrderingAndTrees) : goes (.topologyCutover 40) fabric ∧ goes (.topologyCutover 40) (cutDemo late (.leave 1))
    ∧ goes (.topologyCutover 40) (cutDemo (updRet 40 (fun r => { r with inWm := [(1, 2 ^ 60)] }) late) (.leave 1)) ∧ goes (.topologyCutover 40) (cutDemo late (.join 8))
    ∧ goes (.topologyCutover 40) (cutDemo fabric .mesh) := by
  have h := fun s => o.2.2.2.2.2.1 s 40
  exact ⟨⟨_, (h fabric).1 (by decide +kernel)⟩, (((h (cutDemo late (.leave 1))).2 ⟨0, .leave 1⟩ (by decide +kernel)).1 1 rfl (by decide +kernel)).imp fun _ h => h.1,
    (((h (cutDemo (updRet 40 (fun r => { r with inWm := [(1, 2 ^ 60)] }) late) (.leave 1))).2 ⟨0, .leave 1⟩ (by decide +kernel)).2.1 1 rfl (by decide +kernel)).imp
      fun _ h => h.1,
    (((h (cutDemo late (.join 8))).2 ⟨0, .join 8⟩ (by decide +kernel)).2.2.1 8 rfl).imp fun _ h => h.1,
    ⟨_, ((h (cutDemo fabric .mesh)).2 ⟨0, .mesh⟩ (by decide +kernel)).2.2.2 rfl⟩⟩
/-- Tree 0 at reticle 40, whose parent is reticle 39 or which is the root, with arrivals from the east and from its own cores. -/
def tree40 (up count : Nat) (lost : Bool) : Tree := ⟨up, 0x22, 0, 8, 2, count, 7, [], lost⟩
def barrierDemo (t : Tree) (body : Body) (held : NSet) : Machine.State :=
  updRet 40 (fun r => { r with trees := [(0, t)] }) (updRet 39 (fun r => { r with trees := [(0, ⟨7, 2, 0, 8, 1, 0, 7, [], false⟩)] }) (heldDemo body held))
theorem witness_Ordering_arrivalsAtTrees (o : Obligations.OrderingAndTrees) : goes (.fbarArrival 3) (barrierDemo (tree40 7 1 true) (.fbarArrive 0 7 1) [])
    ∧ goes (.fbarArrival 3) (barrierDemo (tree40 7 1 false) (.fbarArrive 0 7 1) []) ∧ goes (.fbarArrival 3) (barrierDemo (tree40 7 1 false) (.fbarArrive 0 8 1) [])
    ∧ goes (.fbarArrival 3) (barrierDemo (tree40 7 1 false) (.fbarArrive 0 9 1) []) := by
  have h := fun lost gen => o.2.2.2.2.2.2.1 (barrierDemo (tree40 7 1 lost) (.fbarArrive 0 gen 1) []) 3
    ⟨41, 40, true, 0, 0, 40, true, .mesh, false, 0, .fbarArrive 0 gen 1⟩ 0 gen 1 (tree40 7 1 lost) rfl rfl rfl
  exact ⟨⟨_, (h true 7).1 (.inl rfl)⟩, ⟨_, ((h false 7).2 rfl (by decide)).1 rfl (by decide)⟩, ⟨_, ((h false 8).2 rfl (by decide)).2.1 (by decide) (by decide)⟩,
    ⟨_, ((h false 9).2 rfl (by decide)).2.2 (by decide) (by decide)⟩⟩
theorem witness_Ordering_full : (tree40 7 2 false).count = (tree40 7 2 false).expect ∧ (tree40 7 2 false).expect ≠ 0 ∧ (tree40 3 2 false).up ≠ 7
    ∧ treeParent (barrierDemo (tree40 3 2 false) (.fbarArrive 0 7 1) []) 40 0 3 = some (39, 1) := by decide +kernel
theorem witness_Ordering_release (o : Obligations.OrderingAndTrees) : goes (.fbarRelease 3) (barrierDemo (tree40 7 2 false) (.fbarRelease 0 7) [])
    ∧ goes (.fbarRelease 3) (barrierDemo (tree40 7 2 false) (.fbarRelease 0 6) [3]) ∧ goes (.fbarRelease 3) (barrierDemo (tree40 7 2 false) (.fbarRelease 0 7) [3]) := by
  have h := fun gen held => o.2.2.2.2.2.2.2.2.1 (barrierDemo (tree40 7 2 false) (.fbarRelease 0 gen) held) 3
    ⟨41, 40, true, 0, 0, 40, true, .mesh, false, 0, .fbarRelease 0 gen⟩ 0 gen (tree40 7 2 false) rfl rfl rfl
  exact ⟨⟨_, (h 7 []).1 (by decide +kernel)⟩, ⟨_, ((h 6 [3]).2 (by decide +kernel)).1 (.inr (by decide))⟩,
    ⟨_, ((h 7 [3]).2 (by decide +kernel)).2 rfl rfl⟩⟩
theorem witness_Ordering_lost (o : Obligations.OrderingAndTrees) : goes (.barrierLost 40 0) (barrierDemo (tree40 7 1 false) (.lost 0 6) [3])
    ∧ goes (.barrierLost 40 0) (barrierDemo (tree40 7 1 false) (.lost 0 7) [3]) := by
  have h := fun gen hn => o.2.2.2.2.2.2.2.2.2 (barrierDemo (tree40 7 1 false) (.lost 0 gen) [3]) 40 0 gen 3
    ⟨41, 40, true, 0, 0, 40, true, .mesh, false, 0, .lost 0 gen⟩ (tree40 7 1 false) hn rfl rfl
  exact ⟨⟨_, (h 6 (by decide +kernel)).1 (.inl (by decide))⟩, ⟨_, (h 7 (by decide +kernel)).2 rfl rfl⟩⟩

/-! #### Links, planes and rings -/

/-- The link from reticle 41 to reticle 40: the sender's next flit and the flits not acknowledged, the flit that the receiver expects. -/
def flits (next : Nat) (replay : List Nat) (expect row : Nat) : Machine.State :=
  updRet 40 (fun r => { r with links := [(1, ⟨0, expect, [], row, 0⟩)] }) (updRet 41 (fun r => { r with links := [(3, ⟨next, 0, replay, 0, 0⟩)] }) fabric)
theorem witness_Links_flits (o : Obligations.LinksPlanesAndRings) : goes (.flitReceive 40 1 5 true) (flits 0 [] 0 0) ∧ goes (.flitReceive 40 1 0 true) (flits 0 [] 3 0)
    ∧ goes (.flitReceive 40 1 1 true) (flits 2 [1] 3 0) ∧ goes (.flitReceive 40 1 4095 true) (flits 4095 [] 4095 0)
    ∧ goes (.flitReceive 40 1 4095 false) (flits 4095 [] 4095 0) ∧ goes (.flitReceive 40 1 0 false) (flits 1 [0] 0 0) := by
  have h := fun n r e seq ok hl => o.1 (flits n r e 0) 40 1 seq 41 3 ok hl
  refine ⟨⟨_, (h 0 [] 0 5 true (by decide +kernel)).1 (by decide +kernel) (by decide +kernel)⟩,
    ⟨_, (h 0 [] 3 0 true (by decide +kernel)).2.1 (by decide +kernel) (by decide +kernel)⟩,
    ⟨_, (h 2 [1] 3 1 true (by decide +kernel)).2.2.1 (by decide +kernel) (by decide +kernel) (by decide +kernel)⟩, ?_,
    ⟨_, ((h 4095 [] 4095 4095 false (by decide +kernel)).2.2.2 (by decide +kernel) (.inl (by decide +kernel))).2.1 (by decide +kernel)⟩,
    ⟨_, ((h 1 [0] 0 0 false (by decide +kernel)).2.2.2 (by decide +kernel) (.inr (by decide +kernel))).2.2 (by decide +kernel)⟩⟩
  exact ((h 4095 [] 4095 4095 true (by decide +kernel)).2.2.2 (by decide +kernel) (.inl (by decide +kernel))).1.imp fun _ h => h.1
theorem witness_Links_rows : (((flits 0 [] 0 6).ret 40).link 1).crcRow < 7 ∧ 7 ≤ (((flits 0 [] 0 7).ret 40).link 1).crcRow ∧ neighbourRet 40 1 = some 41 := by decide +kernel
theorem witness_Links_port (o : Obligations.LinksPlanesAndRings) : goes (.meshPortDown 40 1) fabric ∧ goes (.meshPortDown 40 0) fabric :=
  ⟨⟨_, (o.2.2.2.2.1 fabric 40 1 41 (by decide) (by decide +kernel)).2.2.2.2.2.2.1 (by decide +kernel)⟩,
    ⟨_, (o.2.2.2.2.1 fabric 40 0 31 (by decide) (by decide +kernel)).2.2.2.2.2.2.2 (by decide +kernel)⟩⟩
/-- A link that is up at both ends, and a window of bits that has ended. -/
theorem witness_Links_degrade : (fabric.ret 40).meshSt 1 = 0 ∧ (fabric.ret 41).meshSt (oppositePort 1) = 0 ∧ mget? (fabric.ret 40).errWin (windowKey 2 1) = none := by
  decide +kernel
/-- The link between reticles 40 and 41 is down, or up. -/
def downDemo (down : Bool) (s : Machine.State) : Machine.State :=
  if down then updRet 40 (fun r => { r with mesh := 0x08 }) (updRet 41 (fun r => { r with mesh := 0x80 }) s) else s
/-- A packet from reticle 40 to reticle 41, ordered or not. -/
def strandedDemo (ordered down : Bool) : Machine.State :=
  downDemo down { fabric with wire := [(3, ⟨40, 41, ordered, 0, 0, 40, true, .mesh, false, 0, .put 9 0 0 [1]⟩)] }
theorem witness_Links_noRoute (o : Obligations.LinksPlanesAndRings) : goes (.noRouteTimeout 3) (strandedDemo true true) ∧ goes (.noRouteTimeout 3) (strandedDemo false true)
    ∧ goes (.noRouteTimeout 3) (strandedDemo true false) ∧ goes (.noRouteTimeout 3) (strandedDemo false false) := by
  have h := fun b d hw => (o.2.2.2.2.2.1 (strandedDemo b d) 3).1 ⟨40, 41, b, 0, 0, 40, true, .mesh, false, 0, .put 9 0 0 [1]⟩ hw
  exact ⟨⟨_, (h true true rfl).1 (by decide +kernel)⟩, ⟨_, (h false true rfl).1 (by decide +kernel)⟩, ⟨_, (h true false rfl).2 (by decide +kernel)⟩,
    ⟨_, (h false false rfl).2 (by decide +kernel)⟩⟩
/-- A load of core 0 of reticle 40 from an address of reticle 41. -/
def farLoad : Flight := { flight1 .load with core := core40, lanes := [⟨0, 0, paOf 41 0x100, 2, 5, 0, none, none⟩] }
theorem witness_Links_noRouteLoad (o : Obligations.LinksPlanesAndRings) : goes (.noRouteTimeout 2) (downDemo true { fabric with flight := [(2, farLoad)] })
    ∧ goes (.noRouteTimeout 2) (downDemo false { fabric with flight := [(2, farLoad)] }) := by
  have h := fun d hw hf hm => (o.2.2.2.2.2.1 (downDemo d { fabric with flight := [(2, farLoad)] }) 2).2.1 farLoad hw hf rfl rfl hm
  exact ⟨⟨_, (h true rfl rfl (by decide +kernel)).1 (by decide +kernel)⟩, ⟨_, (h false rfl rfl (by decide +kernel)).2.1 (by decide +kernel)⟩⟩
/-- A READ of reticle 41 posted at reticle 40. -/
def farRead : WorkOp := { work1 with ret := 40, injected := true, wr := { work1.wr with opc := 2, target := 41 } }
theorem witness_Links_noRouteRead (o : Obligations.LinksPlanesAndRings) : goes (.noRouteTimeout 2) (downDemo true { fabric with works := [(2, farRead)] })
    ∧ goes (.noRouteTimeout 2) (downDemo false { fabric with works := [(2, farRead)] }) := by
  have h := fun d hw hf hr => (o.2.2.2.2.2.1 (downDemo d { fabric with works := [(2, farRead)] }) 2).2.2 farRead hw hf hr rfl rfl rfl (by decide +kernel)
  exact ⟨⟨_, (h true rfl rfl rfl).1 (by decide +kernel)⟩, ⟨_, (h false rfl rfl rfl).2 (by decide +kernel)⟩⟩
theorem witness_Links_sample (o : Obligations.LinksPlanesAndRings) : goes (.routeSample 5) fabric ∧ goes (.routeSample 40) fabric :=
  ⟨⟨_, (o.2.2.2.2.2.2.1 fabric 5).1 (by decide +kernel)⟩, ((o.2.2.2.2.2.2.1 fabric 40).2 (by decide +kernel)).imp fun _ h => h.1⟩
/-- Reticle 79 of module 0 and reticle 79 of module 1 share a trained circuit; a plane step is queued at the first; its cartridge is in a state. -/
def optic (steps : List PlaneStep) (c : Cartridge) : Machine.State :=
  let s := updRet 79 (fun r => { r with site := .inService, plane := 0, portMap := [(0, 2 ^ 19 + 79 * 2 ^ 10 + 1), (8, 0x80)], planeSteps := steps, cartridge := c })
    (updMod 1 (fun m => { m with booted := true }) (updMod 0 (fun m => { m with booted := true }) State.reset))
  updRet 207 (fun r => { r with site := .inService, plane := 0, portMap := [(0, 2 ^ 19 + 79 * 2 ^ 10), (8, 0x80)] }) s
/-- An ordered packet that leaves by it. -/
def opticWaits : Machine.State :=
  { optic [.waitack 0] .active with wire := [(3, ⟨79, 207, true, 0, 0, 79, true, .own 0, false, 0, .put 9 0 0 [1]⟩)] }
theorem witness_Links_noStep (o : Obligations.LinksPlanesAndRings) : goes (.planeStop 40) fabric :=
  ⟨_, ((o.2.2.2.2.2.2.2.2.1 fabric 40).1 (by decide +kernel)).1⟩
theorem witness_Links_steps (o : Obligations.LinksPlanesAndRings) : goes (.planeStop 79) (optic [.stop 0] .active) ∧ goes (.waitack 79) opticWaits
    ∧ goes (.waitack 79) (optic [.waitack 0] .active) ∧ goes (.retune 79) (optic [.retune 0 [] []] .active)
    ∧ goes (.retune 79) (optic [.retune 3 (List.replicate 16 0) (List.replicate 8 0)] .active) ∧ goes (.waitlock 79) (optic [.waitlock 0] .failed)
    ∧ goes (.waitlock 79) (optic [.waitlock 0] .active) ∧ goes (.planeResume 79) (optic [.resume 0] .active) ∧ goes (.planeDown 79) (optic [.down 0] .active) := by
  have h := fun ss c => (o.2.2.2.2.2.2.2.2.1 (optic ss c) 79).2
  exact ⟨((h [.stop 0] .active).1 0 (by decide +kernel)).imp fun _ h => h.1,
    ⟨_, (((o.2.2.2.2.2.2.2.2.1 opticWaits 79).2.2.1 0 (by decide +kernel)).1 ⟨(3, ⟨79, 207, true, 0, 0, 79, true, .own 0, false, 0, .put 9 0 0 [1]⟩), by decide +kernel⟩)⟩,
    ⟨_, ((h [.waitack 0] .active).2.1 0 (by decide +kernel)).2 (by decide +kernel)⟩,
    ((h [.retune 0 [] []] .active).2.2.1 0 [] [] (by decide +kernel) (by decide)).imp fun _ h => h.1,
    ((h [.retune 3 (List.replicate 16 0) (List.replicate 8 0)] .active).2.2.1 3 (List.replicate 16 0) (List.replicate 8 0) (by decide +kernel) (by decide)).imp fun _ h => h.1,
    ⟨_, ((h [.waitlock 0] .failed).2.2.2.1 0 (by decide +kernel)).1 (.inl (by decide +kernel))⟩,
    (((h [.waitlock 0] .active).2.2.2.1 0 (by decide +kernel)).2 (by decide +kernel) (by decide +kernel)).imp fun _ h => h.1,
    ⟨_, (h [.resume 0] .active).2.2.2.2.2.1 0 (by decide +kernel)⟩, ⟨_, (h [.down 0] .active).2.2.2.2.2.2 0 (by decide +kernel)⟩⟩
/-- A TOPO of plane 0 of reticle 79 is under way, its WAITLOCK begun at tick 0. -/
def waitlockDemo (tick : Nat) : Machine.State :=
  { updMod 0 (fun m => { m with cmds := [{ kept 5 0 0 0 [0] with recs := [{ rec1 with ret := 79 }] }] }) (optic [.waitlock 0, .resume 0] .active) with ticks := tick }
theorem witness_Links_waitlock (o : Obligations.LinksPlanesAndRings) : goes (.waitlockTimeout 79) (waitlockDemo 15999999) ∧ goes (.waitlockTimeout 79) (waitlockDemo 16000000) := by
  have h := fun t hp => (o.2.2.2.2.2.2.2.2.1 (waitlockDemo t) 79).2.2.2.2.2.1 0 [.resume 0] hp
  exact ⟨⟨_, (h 15999999 rfl).1 (by decide +kernel)⟩, ((h 16000000 rfl).2 (by decide +kernel)).imp fun _ h => h.1⟩
theorem witness_Links_advance : (∃ r ∈ [79], stepsLeft (waitlockDemo 0) r 0 = true) ∧ (∀ r ∈ [79], stepsLeft (waitlockDemo 0) r 1 = false)
    ∧ 0 ∈ (waitlockDemo 0 |>.mod 0).cmds.flatMap (·.todo) := by decide +kernel
/-- A ring of reticle 79: its word, when its lock was lost, and the time. -/
def ringDemo (w : W32) (lost : SMap Nat) (tick : Nat) : Machine.State :=
  { updRet 79 (fun r => { r with rings := [(639, w)], lockLostAt := lost }) (optic [] .active) with ticks := tick }
theorem witness_Links_rings (o : Obligations.LinksPlanesAndRings) : goes (.ringLockLoss 79 639) (ringDemo 0x1001 [] 0) ∧ goes (.ringLockLoss 79 639) (ringDemo 1 [] 0)
    ∧ goes (.ringLockReturn 79 639) (ringDemo 0x8001 [(639, 0)] 160000) ∧ goes (.ringLockReturn 79 639) (ringDemo 0x8001 [(639, 0)] 160001)
    ∧ goes (.ringLockTimeout 79 639) (ringDemo 0x8001 [(639, 0)] 159999) ∧ goes (.ringLockTimeout 79 639) (ringDemo 0x8001 [(639, 0)] 160000)
    ∧ goes (.heaterEndOfRange 79 639) (ringDemo 0x1001 [] 0) ∧ goes (.heaterEndOfRange 79 639) (optic [] .safe) := by
  have h := fun s => o.2.2.2.2.2.2.2.2.2.2.2.1 s 79 639
  refine ⟨((h (ringDemo 0x1001 [] 0)).1 (by decide) (by decide +kernel)).imp fun _ h => h.1, ⟨_, (h (ringDemo 1 [] 0)).2.1 (by decide +kernel)⟩,
    (((h (ringDemo 0x8001 [(639, 0)] 160000)).2.2.1 0 (by decide +kernel)).1 (by decide +kernel) (by decide +kernel) (by decide +kernel)).imp fun _ h => h.1,
    ⟨_, ((h (ringDemo 0x8001 [(639, 0)] 160001)).2.2.1 0 (by decide +kernel)).2.1 (by decide +kernel)⟩,
    ⟨_, ((h (ringDemo 0x8001 [(639, 0)] 159999)).2.2.1 0 (by decide +kernel)).2.2.1 (by decide +kernel)⟩, ?_, ?_,
    ⟨_, (h (optic [] .safe)).2.2.2.2.1 (by decide +kernel)⟩⟩
  · obtain ⟨_, _, ht⟩ := ((h (ringDemo 0x8001 [(639, 0)] 160000)).2.2.1 0 (by decide +kernel)).2.2.2 (by decide +kernel)
    exact ⟨_, ht⟩
  · obtain ⟨_, _, _, ht⟩ := (h (ringDemo 0x1001 [] 0)).2.2.2.1 (by decide) (by decide +kernel)
    exact ⟨_, ht⟩
theorem witness_Links_recovery : ((ringDemo 0x1001 [] 0).ret 79).planeSt 3 ≠ 3 ∧ ((ringDemo 0x1001 [] 0).ret 79).planeSteps = []
    ∧ ((ringDemo 0x1001 [] 0).mod (modOf 79)).cmds = [] := by decide +kernel
/-- The cartridge of reticle 79, powered since tick 0, at a time. -/
def cartDemo (c : Cartridge) (steps : List PlaneStep) (tick : Nat) : Machine.State := { optic steps c with ticks := tick }
theorem witness_Links_cartridge (o : Obligations.LinksPlanesAndRings) : goes (.cartridgeInsert 79 true) (cartDemo .safe [] 0) ∧ goes (.cartridgeInsert 79 true) (cartDemo .absent [] 0)
    ∧ goes (.cartridgeInsert 79 false) (cartDemo .absent [] 0) ∧ goes (.cartridgeLockCheck 79) (cartDemo .powered [] 159999999)
    ∧ goes (.cartridgeLockCheck 79) (cartDemo .powered [] 160000000) ∧ goes (.cartridgeQuiesce 79) (cartDemo .safe [] 0)
    ∧ goes (.cartridgeQuiesce 79) (cartDemo .active [.stop 0] 0) ∧ goes (.cartridgeQuiesce 79) (cartDemo .active [] 0)
    ∧ goes (.cartridgeRemoval 79) (cartDemo .absent [] 0) ∧ goes (.cartridgeRemoval 79) (cartDemo .active [] 0)
    ∧ goes (.cartridgePowerUp 79) (cartDemo .safe [] 0) ∧ goes (.cartridgePowerUp 79) (cartDemo .active [] 0) := by
  have h := fun c ss t => (o.2.2.2.2.2.2.2.2.2.2.2.2 (cartDemo c ss t) 79).2
  refine ⟨⟨_, (h .safe [] 0).1 (by decide +kernel) true⟩, ⟨_, ((h .absent [] 0).2.1 (by decide +kernel)).1⟩,
    ((h .absent [] 0).2.1 (by decide +kernel)).2.imp fun _ h => h.1, ⟨_, (h .powered [] 159999999).2.2.1 (.inr (by decide +kernel))⟩,
    ((h .powered [] 160000000).2.2.2.1 (by decide +kernel) (by decide +kernel)).imp fun _ h => h.1, ⟨_, (h .safe [] 0).2.2.2.2.1 (by decide +kernel)⟩,
    ⟨_, (h .active [.stop 0] 0).2.2.2.2.2.1 (by decide +kernel) (by decide +kernel)⟩,
    ((h .active [] 0).2.2.2.2.2.2.1 (by decide +kernel) (by decide +kernel)).imp fun _ h => h.1,
    ⟨_, (h .absent [] 0).2.2.2.2.2.2.2.1 (by decide +kernel)⟩, ⟨_, (h .active [] 0).2.2.2.2.2.2.2.2.1 (by decide +kernel)⟩,
    ⟨_, (h .safe [] 0).2.2.2.2.2.2.2.2.2.1 (by decide +kernel)⟩, ⟨_, (h .active [] 0).2.2.2.2.2.2.2.2.2.2 (by decide +kernel)⟩⟩

/-! #### Ethernet peers -/

/-- Reticle 0 with an Ethernet link and the descriptor of peer 3: valid, JOB 5, root region 0; what it has sent to the peer. -/
def peerDemo (p : UePeer) (tick : Nat) : Machine.State :=
  { updRet 0 (fun r => { r with portMap := [(0, 2 * 2 ^ 19), (8, 0x80)], peers := [(3, 5 * 2 ^ 32 + 1)], ue := [(3, p)] }) (mapped 0 State.reset) with
    works := [(2, work1)], ticks := tick }
/-- Nothing sent. -/
def peer0 : UePeer := ⟨0, [], 0, none⟩
/-- A request of 8 bytes at virtual address 0x400. -/
def pieces1 : List (Nat × Nat × Nat × Nat) := [(0, 8, 0x40000400, 1)]
theorem witness_Peers_request (o : Obligations.EthernetPeers) : goes (.uePeerRequest 0 3 4 0 0x400 0 [1, 2, 3, 4, 5, 6, 7, 8] 0 0 0 0) (peerDemo peer0 0)
    ∧ goes (.uePeerRequest 0 3 5 0 0x400 0 [1, 2, 3, 4, 5, 6, 7, 8] 0 0 0 0) (peerDemo peer0 0)
    ∧ goes (.uePeerRequest 0 3 5 1 0x400 0 [1, 2, 3, 4, 5, 6, 7, 8] 9 0 0 0) (peerDemo peer0 0) ∧ goes (.uePeerRequest 0 3 5 2 0x400 8 [] 0 0 0 0) (peerDemo peer0 0)
    ∧ goes (.uePeerRequest 0 3 5 3 0x400 8 [] 0 0 1 0) (peerDemo peer0 0) := by
  have h := fun job kind len data => o.1 (peerDemo peer0 0) 0 3 job kind 0x400 len data 9 0 1 0
  have g := fun job kind len data imm operand => o.1 (peerDemo peer0 0) 0 3 job kind 0x400 len data imm 0 operand 0
  refine ⟨⟨_, (g 4 0 0 [1, 2, 3, 4, 5, 6, 7, 8] 0 0).1 (by decide +kernel)⟩, ⟨_, ((g 5 0 0 [1, 2, 3, 4, 5, 6, 7, 8] 0 0).2 pieces1 (by decide +kernel)).1 rfl⟩,
    ⟨_, ((g 5 1 0 [1, 2, 3, 4, 5, 6, 7, 8] 9 0).2 pieces1 (by decide +kernel)).2.1 rfl⟩, ⟨_, ((g 5 2 8 [] 0 0).2 pieces1 (by decide +kernel)).2.2.1 rfl⟩, ?_⟩
  obtain ⟨_, _, _, ht⟩ := ((g 5 3 8 [] 0 1).2 pieces1 (by decide +kernel)).2.2.2 rfl
  exact ⟨_, ht⟩
/-- Packets 7 and 9 of work request 2 to peer 3, sent so often, last at tick 0. -/
def peer1 (sends : Nat) (halved : Option Nat) : UePeer := ⟨10, [(7, ⟨2, 0, sends, 0, []⟩), (9, ⟨2, 0, sends, 0, []⟩)], 800, halved⟩
theorem witness_Peers_packets (o : Obligations.EthernetPeers) : goes (.ueSelectiveAck 0 3 [9]) (peerDemo (peer1 1 none) 0)
    ∧ goes (.ueRetransmitTimeout 0 3 8) (peerDemo (peer1 1 none) 0) ∧ goes (.ueRetransmitTimeout 0 3 7) (peerDemo (peer1 1 none) 1023999)
    ∧ goes (.ueRetransmitTimeout 0 3 7) (peerDemo (peer1 8 none) 1024000) := by
  have h := fun p t n => o.2.2.2.1 (peerDemo p t) 0 3 n
  exact ⟨⟨_, (o.2.2.1 (peerDemo (peer1 1 none) 0) 0 3 [9]).1⟩, ⟨_, (h (peer1 1 none) 0 8).1 (by decide +kernel)⟩,
    ⟨_, ((h (peer1 1 none) 1023999 7).2 ⟨2, 0, 1, 0, []⟩ (by decide +kernel)).1 (by decide +kernel)⟩,
    ⟨_, ((h (peer1 8 none) 1024000 7).2 ⟨2, 0, 8, 0, []⟩ (by decide +kernel)).2.1 (by decide +kernel)⟩⟩
theorem witness_Peers_sends : (⟨2, 0, 7, 0, []⟩ : UePkt).sends < 8 ∧ 8 ≤ (⟨2, 0, 8, 0, []⟩ : UePkt).sends ∧ (mget? (peerDemo (peer1 8 none) 0).works 2).isSome = true := by decide +kernel
theorem witness_Peers_ecn (o : Obligations.EthernetPeers) : goes (.ueEcnEcho 0 3) (peerDemo (peer1 1 none) 0) ∧ goes (.ueEcnEcho 0 3) (peerDemo (peer1 1 (some 7)) 0)
    ∧ goes (.ueEcnEcho 0 3) (peerDemo (peer1 1 (some 8)) 0) := by
  have h := fun p => o.2.2.2.2 (peerDemo p 0) 0 3
  exact ⟨((h (peer1 1 none)).1 (by decide +kernel)).imp fun _ h => h.1,
    (((h (peer1 1 (some 7))).2 7 (by decide +kernel)).1 (by decide +kernel)).imp fun _ h => h.1,
    ⟨_, ((h (peer1 1 (some 8))).2 8 (by decide +kernel)).2 (by decide +kernel)⟩⟩

/-! #### Units, errors and reads -/

/-- A COPY at the head of core 0's engine: its next step goes on, or ends it, and it waits for a write. -/
theorem witness_Units_copy : (copying (copyBytes 0)).groups.map (·.1) = [1] ∧ ((copying (copyBytes 0)).core 0).copyq = [copyOp1 CopyAt.start]
    ∧ (∀ b ∈ [(copyBytes 0, true), (copyBytes 4, false)],
        (match copyStep agent1 (copyOp1 CopyAt.start) (copying b.1) with | .more _ _ => true | _ => false) = b.2)
    ∧ writesDone (copying (copyBytes 0)) [] = true
    ∧ writesDone { copying (copyBytes 0) with flight := [(9, flight1 .store)] } [9] = false := by decide +kernel
/-- A WRITE that its queue sends, and a READ that has returned in part. -/
theorem witness_Units_source : (mget ((requestDemo (request 0 0 8 0)).ret 0).wrq 0 []).head? = some 2 ∧ sendsFrom (requestDemo (request 0 0 8 0)) 0 0 = true
    ∧ readGoes (gone (request 2 0 8 0)) { request 2 0 8 0 with injected := true } = true
    ∧ readGoes (gone (request 2 0 8 0)) { request 2 0 8 0 with injected := true, taken := [1] } = true
    ∧ readGoes (gone (request 0 0 8 0)) (request 0 0 8 0) = false := by decide +kernel
theorem witness_Units_place : atTarget (packetDemo (request 0 0 8 0) (.put 2 0x40000100 1 [1])) ⟨0, 0, false, 0, 0, 0, true, .mesh, false, 0, .put 2 0x40000100 1 [1]⟩ = true
    ∧ (nextOrdered (heldDemo (.put 9 0 0 [1]) [3]) 40).isSome = true
    ∧ atTarget (heldDemo (.put 9 0 0 [1]) []) ⟨41, 40, true, 0, 0, 40, true, .mesh, false, 0, .put 9 0 0 [1]⟩ = false := by decide +kernel
/-- Errors at a reticle in service: below the count of their policy, and above it. -/
theorem witness_Errors_counted : inService fabric 40 = true ∧ inService fabric 5 = false ∧ (noteError 40 0 7 fabric).2 = none
    ∧ (noteError 40 0 7 (updMod 0 (fun m => { m with policyTab := [(0, ⟨0, 1, 1, 1000⟩)] }) fabric)).2.isSome = true
    ∧ isSpad (paOf 40 (0x14000000000 * 8)) = true ∧ isSpad (paOf 40 0) = false ∧ isDram (paOf 40 0x100) = true ∧ inService fabric (retOf (paOf 40 0x100)) = true := by
  decide +kernel
theorem witness_Errors_pair : ∃ u c h x, u = updGroup 1 (fun g => { g with launch := { g.launch with flags := 4 } })
      (updCore 0 (fun k => { k with differ := [65] }) (demo (.sts r3 0))) ∧ RunsOrdered queueCheck u (.sts r3 0) c h x ∧ c.g.launch.protected = true
    ∧ smem (u.core c.core).differ (c.run.slice.code * 64 + 0) = false ∧ smem (u.core c.core).differ (c.run.slice.code * 64 + 1) = true := fits_ordered (by decide +kernel)
theorem witness_Reads : inService fabric 40 = true ∧ hostValue fabric 40 0x41 ≠ none ∧ hostValue fabric 40 0x10 = none
    ∧ mget? ((updRet 40 (fun r => { r with errWin := [(windowKey 2 9, 4, 0)] }) fabric).ret 40).errWin (windowKey 2 9) = some (4, 0) := by decide +kernel

/-! ### Words of the spec's examples -/

theorem test_decode_integer : decodeWords 0x0A142FD0 0 = .ok (.addi ⟨5, 5, 0x7D, false, 0, false⟩)
    ∧ decodeWords 0x080B8022 0 = .ok (.sub ⟨2, 112, 2, false, 1, false⟩) ∧ decodeWords 0x18141060 0 = .ok (.divu ⟨5, 2, 6, false, 0, false⟩)
    ∧ decodeWords 0x0E1C1020 0 = .ok (.mul ⟨7, 2, 2, false, 0, false⟩) ∧ decodeWords 0x07871630 0 = .ok (.add ⟨97, 98, 99, false, 0, false⟩) := by decide
theorem test_decode_integerLong : decodeWords 0x401C2000 0x0988 = .ok (.bfx ⟨7, 4, 0, false, 0, false⟩ 0x0988)
    ∧ decodeWords 0x4A284030 0xFFFF0300 = .ok (.lea ⟨10, 8, 3, false, 0, false⟩ 0xFFFF0300)
    ∧ decodeWords 0x0C243800 0x00010000 = .ok (.addl ⟨9, 7, 0, false, 0, false⟩ 0x00010000)
    ∧ decodeWords 0x5E041000 0 = .ok (.cmplti ⟨1, 2, 0, false, 0, false⟩) := by decide
theorem test_decode_vector : decodeWords 0x86181030 0 = .ok (.ffma ⟨6, 2, 3, false, 0, false⟩) ∧ decodeWords 0xA0041020 0 = .ok (.frnd ⟨1, 2, 2, false, 0, false⟩)
    ∧ decodeWords 0xB6000010 0 = .ok (.fsetrm ⟨0, 0, 1, false, 0, false⟩) ∧ decodeWords 0xA2242000 0x2225 = .ok (.fcvt ⟨9, 4, 0, false, 0, false⟩ 0x2225)
    ∧ decodeWords 0x80001038 0 = .ok (.fadd ⟨0, 2, 3, true, 0, false⟩) ∧ decodeWords 0x84128032 0 = .ok (.fmul ⟨4, 80, 3, false, 1, false⟩) := by decide
theorem test_decode_flow : decodeWords 0xCA400000 0 = .ok (.waitm ⟨2, 0, false, 0, false⟩) ∧ decodeWords 0xD6040610 0 = .ok (.shflx ⟨1, 0, 97, false, 0, false⟩)
    ∧ decodeWords 0xFE000010 0 = .ok (.yield ⟨0, 0, false, 0, false⟩) ∧ decodeWords 0xFE030830 0 = .ok (.sleep ⟨0, 97, false, 0, false⟩)
    ∧ decodeWords 0xFE000040 0 = .ok (.bkpt ⟨0, 0, false, 0, false⟩) ∧ decodeWords 0xFF880020 0 = .ok (.time ⟨98, 0, false, 0, false⟩) := by decide
theorem test_decode_memory : decodeWords 0xE0203700 0x00010440 = .ok (.ld ⟨8, 6, 112, false, 0, false⟩ 0x00010440)
    ∧ decodeWords 0xE5641840 0xFFFE0030 = .ok (.lds ⟨89, 3, 4, false, 0, false⟩ 0xFFFE0030)
    ∧ decodeWords 0xE8083030 0x00008602 = .ok (.atom ⟨2, 6, 3, false, 0, false⟩ 0x00008602)
    ∧ decodeWords 0xEC000140 0 = .ok (.acq ⟨0, 0, 4, false, 0, false⟩) := by decide
theorem test_decode_matrix : decodeWords 0xF4032664 0x00080805 = .ok (.mxma ⟨100, 102, 2, false⟩ 0x00080805)
    ∧ decodeWords 0xF40B5004 0x01880806 = .ok (.mxst ⟨106, 0, 2, false⟩ 0x01880806) ∧ decodeWords 0xF4100000 0 = .ok (.ofence ⟨0, 0, 0, false⟩ 0) := by decide
theorem test_decode_counters : decodeWords 0xFC038000 0 = .ok (.bar ⟨0, 112, false, 0, false⟩) ∧ decodeWords 0xFC0C0020 0 = .ok (.barw ⟨3, 0, false, 0, false⟩)
    ∧ decodeWords 0xFC171030 0 = .ok (.fbar ⟨5, 98, false, 0, false⟩) ∧ decodeWords 0xFD8F2040 0 = .ok (.cwait ⟨99, 100, false, 0, false⟩)
    ∧ decodeWords 0xF6033010 0 = .ok (.twall ⟨0, 102, false, 0, false⟩) := by decide
theorem test_decode_launch : decodeWords 0xFA032660 0x01400000 = .ok (.lgrid ⟨100, 102, 0, false⟩ 0x01400000) := by decide
/-- R111, R112, R116: reserved opcodes and sub-operations, and words that are no instruction. -/
theorem test_decode_refused : decodeWords 0x00617FF0 0 = .error .headerOrTrailer ∧ decodeWords 0x0223FFF0 0 = .error .headerOrTrailer
    ∧ decodeWords 0xFE0007F0 0 = .error .reservedSubop ∧ decodeWords 0x7E000000 0 = .error .reservedOpcode := by decide
/-- A sequence of bytes gives the instruction and the rest (R104): the LD of the run of the worked example after R122, and one that ends early. -/
theorem test_decode_bytes : decode [0x00, 0x37, 0x20, 0xE0, 0x40, 0x04, 0x01, 0x00, 0x99] = .ok (.ld ⟨8, 6, 112, false, 0, false⟩ 0x00010440, [0x99])
    ∧ decode [0x00, 0x37, 0x20, 0xE0] = .error .truncated := by decide

/-! ### Ill-formed instructions, each refused with its reason (R116) -/

theorem test_illFormed : [(Instr.frcp r3, 0x23), (.pand ⟨24, 0, 0, false, 0, false⟩, 0x24), (.add ⟨112, 4, 6, false, 0, false⟩, 0x25),
      (.ld ⟨2, 4, 6, true, 0, false⟩ 0, 0x26), (.ld ⟨2, 5, 6, false, 0, false⟩ 0, 0x27), (.shli ⟨2, 4, 32, false, 0, false⟩, 0x28),
      (.add ⟨2, 4, 6, false, 0, true⟩, 0x2A)].all (fun e => !wellFormed e.1 && illFormedReason e.1 == some e.2) = true := by decide
theorem test_wellFormed : [Instr.frcp r2, .pand ⟨23, 0, 0, false, 0, false⟩, .add r3, .ld r3 0, .shli ⟨2, 4, 31, false, 0, false⟩].all wellFormed = true := by decide

/-! ### Values of the spec's examples, each after one step -/

/-- Main register of lane 0 after one instruction over main registers. -/
def after (i : Instr) (rs : SMap W32) (reg : Nat) : Nat :=
  match step (withRegs rs (demo i)) with
  | .next t => (mget (t.thread (thKey sw1 0)).main reg 0).toNat
  | _ => 0
/-- R152. -/
theorem test_mulh : after (.mulh r3) [(4, 0xFFFFFFFE), (6, 3)] 2 = 0xFFFFFFFF ∧ after (.mulhu r3) [(4, 0xFFFFFFFE), (6, 3)] 2 = 2
    ∧ after (.mul r3) [(4, 0xFFFFFFFE), (6, 3)] 2 = 0xFFFFFFFA := by decide +kernel
/-- R160. -/
theorem test_addc : after (.addc r3) [(4, 0xFFFFFFFF), (5, 1), (6, 1)] 2 = 0 ∧ after (.addc r3) [(4, 0xFFFFFFFF), (5, 1), (6, 1)] 3 = 2 := by decide +kernel
/-- R153: the table of special cases. -/
theorem test_division : divWord 0xFFFFFFF9 2 = 0xFFFFFFFD ∧ remWord 0xFFFFFFF9 2 = 0xFFFFFFFF ∧ divuWord 0xFFFFFFF9 2 = 0x7FFFFFFC ∧ remuWord 7 0xFFFFFFFE = 7
    ∧ divWord 5 0 = 0xFFFFFFFF ∧ remWord 5 0 = 5 ∧ divWord 0x80000000 0xFFFFFFFF = 0x80000000 ∧ remWord 0x80000000 0xFFFFFFFF = 0 := by decide
/-- R171: one rounding, exact here, where the product rounded first would give 0x3A000000. -/
theorem test_ffma : after (.ffma r3) [(2, 0xBF800000), (4, 0x3F800800), (6, 0x3F800800)] 2 = 0x3A000400 := by decide +kernel
/-- R180. -/
theorem test_tdot4 : after (.tdot4 r3) [(2, 0x3F000000), (4, 0x60606060), (6, 0x6040B060)] 2 = 0xBFA00000 := by decide +kernel
/-- R76: bf16 under RNE and RUP. -/
theorem test_bf16 : (bf16.write 0 false (fp32.read 0x3F808000)).1 = 0x3F80 ∧ (bf16.write 0 false (fp32.read 0x3F818000)).1 = 0x3F82
    ∧ (bf16.write 0 false (fp32.read 0x3F800001)).1 = 0x3F80 := by decide +kernel
/-- R78, R80: values of tf8 codes, and the codes of values. -/
theorem test_tf8 : (fp32.write 0 false (tf8Read 0x5A)).1 = 0x3F500000 ∧ (fp32.write 0 false (tf8Read 0xB6)).1 = 0xC1400000
    ∧ (tf8Write true (.ofInt 100 0)).1 = 0x19 ∧ (tf8Write true (.ofInt 63 (-4))).1 = 0x30 ∧ (tf8Write true (.ofInt 49152 0)).1 = 0x07
    ∧ (tf8Write true (.ofInt 100000 0)).1 = 0x03 ∧ (tf8Write true (.ofInt (-3) (-20))).1 = 0x81 ∧ (tf8Write true (.ofInt (-3) (-21))).1 = 0 := by decide +kernel
/-- R422. -/
theorem test_crc64 : crc64 [0x31, 0x32, 0x33, 0x34, 0x35, 0x36, 0x37, 0x38, 0x39] = 0x995DC9BBDF1939FA := by decide +kernel
/-- R349: the fields of a core-window leaf. -/
theorem test_pte : ptePa 0x0158D0000F001837 = 0x2B1A0001E00000 ∧ pteKey 0x0158D0000F001837 = 3 ∧ pteType 0x0158D0000F001837 = 1 := by decide +kernel
/-- R207: an address of DRAM. -/
theorem test_address : paOf (5 * 128 + 49) 0x3456789A0 = 0x2B1003456789A0 ∧ retOf 0x2B1003456789A0 = 5 * 128 + 49 := by decide +kernel
/-- R402: the CORE code of reticle 40, fold 3, member 1. -/
theorem test_coreCode : coreCode (coreKey 40 3 1) = 0x21A8 := by decide +kernel

end Sys2Proof.Tests
end

section
/-! The values after reset (spec/01 R27, R29, 05 R136, R138, R140, 15 R354, R357): every lookup in State.reset finds nothing listed, and an
unlisted place stands at its reset value. -/

namespace Sys2Proof.Proofs

open Sys2Proof Sys2Proof.Machine Sys2Proof.Laws

/-- No sector of DRAM stands under a key after reset, so every key reads zeros. -/
theorem readByteKey_reset (id a : Nat) : readByteKey State.reset id a = 0 := by
  unfold readByteKey
  split <;> rfl

/-- Neither an offset nor a correction moves fabric time at tick 0. -/
theorem wtime_reset (r : Nat) : wtime State.reset r = 0 := rfl

/-- A thread that has written no register reads zero in each of them. -/
theorem readCode_start (code : Nat) : readCode Thread.start code = 0 := by
  unfold readCode
  split <;> rfl

/-- Settles O44: each lookup meets an empty map, and answers the reset value of what it looks for. -/
theorem resetValues : Obligations.ResetValues := by
  unfold Obligations.ResetValues
  refine ⟨fun _ => rfl, readByteKey_reset, rfl, fun r => ?_, fun k => ⟨rfl, rfl, fun _ => rfl⟩, fun m => ⟨rfl, rfl⟩, fun k code => ?_, fun k => ?_,
    fun k => ⟨rfl, rfl⟩⟩
  case _ => exact ⟨wtime_reset r, rfl, rfl, rfl, rfl, rfl, rfl, fun _ => ⟨rfl, rfl, rfl⟩⟩
  case _ => exact ⟨readCode_start code, rfl, rfl, rfl⟩
  case _ => exact ⟨rfl, rfl, rfl, rfl, rfl, rfl⟩

end Sys2Proof.Proofs
end

section
/-! Frames of steps that change one module, or reticles alone, and folds that change every member of a list once. -/

namespace Sys2Proof.Proofs

open Sys2Proof Sys2Proof.Machine Sys2Proof.Laws

theorem mem_upFrom {lo n i : Nat} : i ∈ upFrom lo n ↔ lo ≤ i ∧ i < lo + n := by
  induction n generalizing lo with
  | zero => simp [upFrom]
  | succ n ih => rw [upFrom, List.mem_cons, ih]; omega

theorem modTurns_updMod (m : Nat) (f : ModSt → ModSt) (s : State) : ModTurns s (updMod m f s) m (f (s.mod m)) [] where
  rest := rfl
  value := mod_updMod_self m f s
  others j h := by rw [mod_updMod, if_neg h]
  told := (List.append_nil _).symm

/-- An answer to the host comes after what it was told before. -/
theorem modTurns_tell {s t : State} {m : Nat} {x : ModSt} {msgs : List HostMsg} (h : ModTurns s t m x msgs) (msg : HostMsg) :
    ModTurns s (tell msg t) m x (msgs ++ [msg]) where
  rest := h.rest
  value := h.value
  others := h.others
  told := by rw [show (tell msg t).hostOut = t.hostOut ++ [msg] from rfl, h.told, List.append_assoc]

theorem retTurns_updRet (r : Nat) (f : RetSt → RetSt) (s : State) : RetTurns s (updRet r f s) r (f (s.ret r)) [] where
  rest := rfl
  value := ret_updRet_self r f s
  others j h := by rw [ret_updRet, if_neg h]
  told := (List.append_nil _).symm

/-- Nothing but the reticles differs. -/
def OnlyRets (s t : State) : Prop := { t with rets := s.rets } = s

theorem OnlyRets.trans {s t u : State} (h : OnlyRets s t) (g : OnlyRets t u) : OnlyRets s u :=
  Eq.trans (congrArg (fun y : State => { y with rets := s.rets }) g) h

theorem onlyRets_updRet (r : Nat) (f : RetSt → RetSt) (s : State) : OnlyRets s (updRet r f s) := rfl

theorem onlyRets_foldl {α : Type} (f : State → α → State) (hf : ∀ s a, OnlyRets s (f s a)) (l : List α) (s : State) : OnlyRets s (l.foldl f s) := by
  induction l generalizing s with
  | nil => rfl
  | cons a l ih => exact (hf s a).trans (ih _)

theorem OnlyRets.field {α : Type} {s t : State} (h : OnlyRets s t) (g : State → α) (hg : ∀ x : State, g { x with rets := s.rets } = g x) : g t = g s := by
  rw [← hg t, h]

/-- Reticles that a fold changes one by one, a change twice being the change once, are each changed, and no other. -/
theorem ret_foldl_updRet (f : Nat → RetSt → RetSt) (hf : ∀ r x, f r (f r x) = f r x) (l : List Nat) (s : State) (j : Nat) :
    (l.foldl (fun t r => updRet r (f r) t) s).ret j = if j ∈ l then f j (s.ret j) else s.ret j := by
  induction l generalizing s with
  | nil => rfl
  | cons a l ih =>
    rw [List.foldl_cons, ih, ret_updRet]
    by_cases h : j = a
    · subst h; simp [hf]
    · simp [h]

/-- Cores that a fold changes one by one, a change twice being the change once, are each changed, and no other. -/
theorem core_foldl {f : State → Nat → State} {g : CoreSt → CoreSt} (hg : ∀ x, g (g x) = g x)
    (hf : ∀ s a j, (f s a).core j = if j = a then g (s.core a) else s.core j) (l : List Nat) (s : State) (j : Nat) :
    (l.foldl f s).core j = if j ∈ l then g (s.core j) else s.core j := by
  induction l generalizing s with
  | nil => rfl
  | cons a l ih =>
    rw [List.foldl_cons, ih, hf]
    by_cases h : j = a
    · subst h; simp [hg]
    · simp [h]

theorem core_foldl_updCore (f : CoreSt → CoreSt) (hf : ∀ x, f (f x) = f x) (l : List Nat) (s : State) (j : Nat) :
    (l.foldl (fun t k => updCore k f t) s).core j = if j ∈ l then f (s.core j) else s.core j :=
  core_foldl hf (fun t a k => core_updCore a k f t) l s j

end Sys2Proof.Proofs
end

section
/-! What reaches what over the links (spec/18 R447): the reticles, and which modules have come up with which stages failed, decide it alone. -/

namespace Sys2Proof.Proofs

open Sys2Proof Sys2Proof.Machine Sys2Proof.Laws

/-- Two states in which the same reticles are in service with the same links. -/
structure SameLinks (s t : State) : Prop where
  ret : ∀ r, t.ret r = s.ret r
  booted : ∀ m, (t.mod m).booted = (s.mod m).booted
  failed : ∀ m n, stageFailed (t.mod m) n = stageFailed (s.mod m) n

theorem sameLinks_updMod (m : Nat) (f : ModSt → ModSt) (s : State) (hb : (f (s.mod m)).booted = (s.mod m).booted)
    (hf : ∀ n, stageFailed (f (s.mod m)) n = stageFailed (s.mod m) n) : SameLinks s (updMod m f s) where
  ret _ := rfl
  booted j := by
    rw [mod_updMod]
    split_ifs with h
    · rw [hb, h]
    · rfl
  failed j n := by
    rw [mod_updMod]
    split_ifs with h
    · rw [hf, h]
    · rfl

section
variable {s t : State} (h : SameLinks s t)
include h

theorem inService_congr (r : Nat) : inService t r = inService s r := by
  simp only [inService, h.ret, h.booted, h.failed]

theorem circuitUp_congr (r p f : Nat) : circuitUp t r p f = circuitUp s r p f := by
  simp only [circuitUp, h.ret, inService_congr h]

theorem linkFar_congr (r p : Nat) : linkFar t r p = linkFar s r p := by
  simp only [linkFar, opticalFar, circuitUp_congr h, h.ret, inService_congr h]

theorem meshDist_congr (rets : List Nat) (dst n : Nat) : meshDist t rets dst n = meshDist s rets dst n := by
  induction n with
  | zero => rfl
  | succ n ih => simp only [meshDist, ih, linkFar_congr h]

theorem servedRets_congr (m : Nat) : servedRets t m = servedRets s m := by
  simp only [servedRets, funext (inService_congr h)]

end

/-- LSTATE.HOST of a reticle, as the active command processor's links and the host's link make it (R447). -/
def reached (s : State) (m r : Nat) : Bool :=
  (s.mod m).hostUp && inService s (cpRet s m) && inService s r && (mget? (meshDist s (servedRets s m) (cpRet s m) 31) r).isSome

theorem onlyRets_noteHost (m : Nat) (s : State) : OnlyRets s (noteHost m s) := onlyRets_foldl _ (fun t r => onlyRets_updRet r _ t) _ s

theorem mem_moduleRets {m r : Nat} : r ∈ moduleRets m ↔ ∃ n ∈ siteList, m * 128 + n = r := List.mem_map

theorem ret_noteHost (m : Nat) (s : State) (r : Nat) :
    (noteHost m s).ret r = if r ∈ moduleRets m then { s.ret r with host := reached s m r } else s.ret r :=
  ret_foldl_updRet (fun r x => { x with host := reached s m r }) (fun _ _ => rfl) (moduleRets m) s r

/-- The reticles of a module tell the host's link as it stands after a change of the module that leaves the links as they are. -/
theorem noteHost_updMod (m : Nat) (f : ModSt → ModSt) (s : State) (hl : SameLinks s (updMod m f s)) :
    ModTurns s { noteHost m (updMod m f s) with rets := s.rets } m (f (s.mod m)) []
    ∧ ∀ r, ((∀ n ∈ siteList, r ≠ m * 128 + n) → (noteHost m (updMod m f s)).ret r = s.ret r)
      ∧ ∀ n ∈ siteList, r = m * 128 + n → (noteHost m (updMod m f s)).ret r = { s.ret r with
          host := ((noteHost m (updMod m f s)).mod m).hostUp && inService s (cpRet (noteHost m (updMod m f s)) m) && inService s r
            && (mget? (meshDist s (servedRets s m) (cpRet (noteHost m (updMod m f s)) m) 31) r).isSome } := by
  have frame : { noteHost m (updMod m f s) with rets := s.rets } = updMod m f s := onlyRets_noteHost m (updMod m f s)
  have hm : (noteHost m (updMod m f s)).mod m = (updMod m f s).mod m := (onlyRets_noteHost m _).field (fun x => x.mod m) (fun _ => rfl)
  refine ⟨by rw [frame]; exact modTurns_updMod m f s, fun r => ⟨fun h => ?_, fun n hn e => ?_⟩⟩
  · rw [ret_noteHost, if_neg fun hr => ?_]
    · rfl
    · obtain ⟨n, hn, e⟩ := mem_moduleRets.mp hr
      exact h n hn e.symm
  · rw [ret_noteHost, if_pos (mem_moduleRets.mpr ⟨n, hn, e.symm⟩), reached, inService_congr hl, inService_congr hl, servedRets_congr hl,
      meshDist_congr hl, cpRet, cpRet, hm]
    rfl

end Sys2Proof.Proofs
end

section
/-! Requests of the host (spec/18 R447, R448): keys, roots, queues, memory and images of saved groups. -/

namespace Sys2Proof.Proofs

open Sys2Proof Sys2Proof.Machine Sys2Proof.Laws

@[simp] theorem hostReq_of_down {s : State} {m : Nat} (go : State → State) (h : (s.mod m).hostUp = false) : hostReq m go s = .next s := by
  simp [hostReq, h]

@[simp] theorem hostReq_of_up {s : State} {m : Nat} (go : State → State) (h : (s.mod m).hostUp = true) : hostReq m go s = .next (go s) := by
  simp [hostReq, h]

theorem modTurns_answer (m : Nat) (f : ModSt → ModSt) (s : State) (code : Nat) :
    ModTurns s (answer code (updMod m f s)) m (f (s.mod m)) [.status code] :=
  modTurns_tell (modTurns_updMod m f s) (.status code)

/-! ### Keys (15 R352) -/

/-- A wrapped key with a legal header for a loadable key id. -/
def WrapHeader (key : Nat) (w : List Byte) : Prop := 0 < key ∧ key < 256 ∧ w.length = 1168 ∧ fieldLE w 0 2 = 1 ∧ fieldLE w 4 4 = 0

theorem loadWrapped_erase {m key : Nat} {w : List Byte} (s : State) (h : WrapHeader key w) (e : fieldLE w 2 2 = 1) :
    loadWrapped m key w s = some (updMod m (fun y => { y with keys := mdel y.keys key }) s) := by
  obtain ⟨hk, hk', hl, hv, hr⟩ := h
  have hg : ¬ (key = 0 ∨ key > 255 ∨ w.length ≠ 1168 ∨ fieldLE w 0 2 ≠ 1 ∨ fieldLE w 2 2 ≥ 2 ∨ fieldLE w 4 4 ≠ 0) := by omega
  simp only [loadWrapped, if_neg hg, if_pos e]

theorem loadWrapped_fresh {m key : Nat} {w : List Byte} (s : State) (h : WrapHeader key w) (e : fieldLE w 2 2 = 0)
    (hu : (w.drop 8).take 1088 ∉ (s.mod m).kemUsed) :
    loadWrapped m key w s =
      (unwrapped (serialOf (s.mod m) m) (s.mod m).boots key ((w.drop 8).take 1088) (w.drop 0x448)).map (fun k =>
        updMod m (fun y => { y with keys := mput y.keys key k, kemUsed := y.kemUsed ++ [(w.drop 8).take 1088] }) s) := by
  obtain ⟨hk, hk', hl, hv, hr⟩ := h
  have hg : ¬ (key = 0 ∨ key > 255 ∨ w.length ≠ 1168 ∨ fieldLE w 0 2 ≠ 1 ∨ fieldLE w 2 2 ≥ 2 ∨ fieldLE w 4 4 ≠ 0) := by omega
  unfold loadWrapped
  dsimp only
  rw [if_neg hg, if_neg (by omega), if_neg (by simpa using hu)]
  cases unwrapped (serialOf (s.mod m) m) (s.mod m).boots key ((w.drop 8).take 1088) (w.drop 0x448) <;> rfl

theorem loadWrapped_refused {m key : Nat} {w : List Byte} {s : State}
    (h : key = 0 ∨ 256 ≤ key ∨ w.length ≠ 1168 ∨ fieldLE w 0 2 ≠ 1 ∨ 2 ≤ fieldLE w 2 2 ∨ fieldLE w 4 4 ≠ 0
      ∨ (fieldLE w 2 2 = 0 ∧ (w.drop 8).take 1088 ∈ (s.mod m).kemUsed)) :
    loadWrapped m key w s = none := by
  simp only [loadWrapped]
  split_ifs with hg he hu
  · rfl
  · omega
  · rfl
  · exfalso
    rcases h with h | h | h | h | h | h | h
    any_goals omega
    exact hu (by simpa using h.2)

theorem exec_loadKey_taken {s t : State} {m key : Nat} {img : List Byte} (hu : (s.mod m).hostUp = true) (h : loadWrapped m key img s = some t) :
    exec (.loadKey m key img) s = .next (answer 0 t) := by
  simp [execLoadKey, hu, h]

theorem exec_loadKey_refused {s : State} {m key : Nat} {img : List Byte} (hu : (s.mod m).hostUp = true) (h : loadWrapped m key img s = none) :
    exec (.loadKey m key img) s = .next (answer 0x13 s) := by
  simp [execLoadKey, hu, h]

/-! ### Roots (02 R40) -/

theorem freeIndex_free {x : ModSt} {fuel a i : Nat} (h : freeIndex x fuel a = some i) : mget? x.regions i = none := by
  induction fuel generalizing a with
  | zero => simp [freeIndex] at h
  | succ n ih =>
    unfold freeIndex at h
    split_ifs at h with he
    · cases h; simpa using he
    · exact ih h

/-- Taking the queues of a root leaves every region as it was. -/
theorem regions_takeQueues (m root : Nat) (qs : List (Nat × CmdQueue)) (s : State) :
    ((takeQueues m root qs s).mod m).regions = (s.mod m).regions := by
  rw [takeQueues, mod_updMod_self]
  generalize hx : ({ s.mod m with queues := (s.mod m).queues.filter (fun e => e.1 / 64 != root) } : ModSt) = x
  have hr : x.regions = (s.mod m).regions := by subst hx; rfl
  rw [← hr]
  clear hx hr
  induction qs generalizing x with
  | nil => rfl
  | cons q qs ih =>
    rw [List.foldl_cons, ih]
    split <;> rfl

/-- A root made from an image takes a free index, and stands there as the image says. -/
theorem createNode_root {m i : Nat} {img : List Byte} {s t : State} (hp : mget? (s.mod m).regions 0xFFFF = none)
    (h : createNode m 0xFFFF true img s = (0, i, t)) :
    img.length = 128 ∧ mget? (s.mod m).regions i = none
    ∧ (t.mod m).regions = mput (s.mod m).regions i (newRegion s.nextId (rcbOf img 0xFFFF 0)) := by
  simp only [createNode, hp, Bool.not_true, Bool.false_and, Bool.false_eq_true, if_false, freshId] at h
  split at h
  · cases h
  rename_i j hj
  split_ifs at h with hg
  · cases h
  split at h
  · cases h
  split_ifs at h
  · simp only [Prod.mk.injEq, true_and] at h
    obtain ⟨rfl, rfl⟩ := h
    refine ⟨?_, freeIndex_free hj, ?_⟩
    · by_contra hl; exact hg (.inl hl)
    · rw [regions_takeQueues, mod_updMod_self]; rfl
  · cases h

theorem lineage_congr {s t : State} {m : Nat} (h : (t.mod m).regions = (s.mod m).regions) (n i : Nat) : lineage t m n i = lineage s m n i := by
  induction n generalizing i with
  | zero => rfl
  | succ n ih => simp only [lineage, h, ih]

theorem subtree_congr {s t : State} {m : Nat} (h : (t.mod m).regions = (s.mod m).regions) (i : Nat) : subtree t m i = subtree s m i := by
  simp only [subtree, h, lineage_congr h]

/-- A shootdown changes cores and reticles alone. -/
theorem shootdown_frame (m root va size : Nat) (s : State) : { shootdown m root va size s with cores := s.cores, rets := s.rets } = s := rfl

/-- A lookup after a map that keeps the keys. -/
theorem mget?_map_keys {α : Type} (x : SMap α) (g : Nat × α → Nat × α) (k : Nat) (hg : ∀ e, (g e).1 = e.1) :
    mget? (x.map g) k = (mget? x k).map (fun v => (g (k, v)).2) := by
  have h : x.map g = x.map (fun e => (e.1, (g e).2)) := List.map_congr_left fun e _ => Prod.ext (hg e) rfl
  rw [h, mget?_map x (fun e => (g e).2)]

/-- No core keeps a translation of the range that a shootdown names. -/
theorem shootdown_tlb {m root va size k : Nat} {s : State} {e : TlbEntry} (h : e ∈ ((shootdown m root va size s).core k).tlb)
    (hr : e.root = rootKey m root) : overlaps e.base e.size va size = false := by
  simp only [shootdown, shootRange, State.core, mget] at h
  rw [mget?_map_keys] at h
  case hg => exact fun _ => rfl
  rcases hc : mget? (takeKey (cpRet s m) 0 s).2.2.cores k with _ | c
  · rw [hc] at h; simp [CoreSt.reset] at h
  · rw [hc] at h
    simp only [Option.map_some, Option.getD_some, List.mem_filter] at h
    simpa [hr] using h.2

/-- What a module loses with a root of it. -/
def withoutRoot (s : State) (m root : Nat) (x : ModSt) : ModSt :=
  { x with
    regions := x.regions.filter (fun e => !(subtree s m root).contains e.1)
    handlers := x.handlers.filter (fun e => !(subtree s m root).contains e.1), queueTurn := mdel x.queueTurn root
    queues := x.queues.filter (fun e => e.1 / 64 != root), dying := sdel x.dying root, attached := sdel x.attached root }

/-- The last step of a root's destroy: it waits for commands and grids of the root, and then the root goes with its translations. -/
theorem dropRoot_waits {m root : Nat} {s : State} (h : (∃ c ∈ (s.mod m).cmds, c.root = root) ∨ nodeBusy s m root = true) : dropRoot m root s = s := by
  rw [dropRoot, if_pos]
  rcases h with ⟨c, hc, e⟩ | h
  · simp only [Bool.or_eq_true, List.any_eq_true]; exact .inl ⟨c, hc, by simpa using e⟩
  · simp [h]

theorem dropRoot_done {m root : Nat} {s : State} (hc : ∀ c ∈ (s.mod m).cmds, c.root ≠ root) (hb : nodeBusy s m root = false) :
    ∃ v, dropRoot m root s = answer 0 (shootdown m root 0 (2 ^ 57) v) ∧ { v with mods := s.mods, rawFrames := s.rawFrames } = s
      ∧ v.rawFrames = (freeFrames m root s).rawFrames ∧ (∀ i, i ≠ m → v.mod i = s.mod i) ∧ v.mod m = withoutRoot s m root (s.mod m) := by
  have hg : ¬ ((s.mod m).cmds.any (fun c => c.root == root) || nodeBusy s m root) = true := by
    simpa [hb] using hc
  rw [dropRoot, if_neg hg]
  refine ⟨_, rfl, rfl, rfl, fun i hi => ?_, ?_⟩
  · rw [mod_updMod, if_neg hi, mod_updMod, if_neg hi]; rfl
  · rw [mod_updMod_self, mod_updMod_self, subtree_congr (s := s)]
    · rfl
    · rw [mod_updMod_self]; rfl

/-! ### Queues and images -/

theorem exec_destroyRoot_unknown {s : State} {m root : Nat} (hu : (s.mod m).hostUp = true) (h : mget? (s.mod m).regions root = none) :
    exec (.destroyRoot m root) s = .next (answer 0x13 s) := by
  simp [execDestroyRoot, hu, h]

/-- A destroy under way goes on with its last step. -/
theorem exec_destroyRoot_dying {s : State} {m root : Nat} {r : Region} (hu : (s.mod m).hostUp = true) (h : mget? (s.mod m).regions root = some r)
    (hp : r.rcb.parent = 0xFFFF) (hd : smem (s.mod m).dying root = true) : exec (.destroyRoot m root) s = .next (dropRoot m root s) := by
  simp [execDestroyRoot, hu, h, hp, hd]

/-- What a debugger that is attached may act on: an image that is there, and is not LOST. -/
theorem quiesced_image {s : State} {m gid : Nat} {im : Image} (hg : mget? s.groups gid = none) (hi : mget? (s.mod m).saved gid = some im) :
    quiesced s m gid = if smem (s.mod m).attached im.group.root = false then .inl 0x11 else if im.group.phase = .lost then .inl 0x17 else .inr im := by
  simp [quiesced, hg, hi, attachedTo]

/-- Released from debug, an image is no longer halted, and holds what it held. -/
theorem releaseImage_noSkip (s : State) (im : Image) :
    let x := releaseImage s false im
    x.halted = false ∧ x.group.halt = none ∧ x.threads = im.threads ∧ x.sws = im.sws ∧ x.queues = im.queues ∧ x.spad = im.spad ∧ x.bank = im.bank :=
  ⟨rfl, rfl, rfl, rfl, rfl, rfl, rfl⟩

end Sys2Proof.Proofs
end

section
/-! The port of the host, each request's outcome, and the obligation they make up. -/

namespace Sys2Proof.Proofs

open Sys2Proof Sys2Proof.Machine Sys2Proof.Laws

/-- HOST_PORT_LINK_DOWN changes LSTATE.HOST of the module's reticles and nothing else of the reticles. -/
theorem exec_hostPortLinkDown_turns (s : State) (m : Nat) : ∃ t, exec (.hostPortLinkDown m) s = .next t ∧ { t with mods := s.mods, rets := s.rets } = s
    ∧ ModTurns s { t with rets := s.rets } m { s.mod m with hostUp := false } []
    ∧ (∀ n ∈ siteList, t.ret (m * 128 + n) = { s.ret (m * 128 + n) with host := false })
    ∧ ∀ r, (∀ n ∈ siteList, r ≠ m * 128 + n) → t.ret r = s.ret r := by
  obtain ⟨u, hu⟩ : ∃ u, u = updMod m (fun x => { x with hostUp := false }) s := ⟨_, rfl⟩
  obtain ⟨t, ht⟩ : ∃ t, t = (moduleRets m).foldl (fun t r => updRet r (fun x => { x with host := false }) t) u := ⟨_, rfl⟩
  have run : exec (.hostPortLinkDown m) s = .next t := by rw [exec_hostPortLinkDown, execHostPortLinkDown, ht, hu, moduleRets]
  have frame : { t with rets := u.rets } = u := by rw [ht]; exact onlyRets_foldl _ (fun t r => onlyRets_updRet r _ t) _ u
  have ret : ∀ r, t.ret r = if r ∈ moduleRets m then { u.ret r with host := false } else u.ret r := by
    rw [ht]; exact ret_foldl_updRet (fun _ x => { x with host := false }) (fun _ _ => rfl) _ u
  subst hu
  refine ⟨t, run, congrArg (fun y : State => { y with mods := s.mods }) frame, ?_, fun n hn => ?_, fun r hr => ?_⟩
  · have turns := modTurns_updMod m (fun x => { x with hostUp := false }) s
    rw [← frame] at turns
    exact turns
  · rw [ret, if_pos (mem_moduleRets.mpr ⟨n, hn, rfl⟩)]
    rfl
  · rw [ret, if_neg fun h => ?_]
    · rfl
    · obtain ⟨n, hn, e⟩ := mem_moduleRets.mp h
      exact hr n hn e.symm

theorem takeover_eq {s : State} {m other : Nat} (h : ((s.mod m).activeCp = 79 ∧ other = 87) ∨ ((s.mod m).activeCp = 87 ∧ other = 79))
    (hi : inService s (m * 128 + other) = true) : takeover m s = noteHost m (updMod m (fun x => { x with activeCp := other }) s) := by
  have ho : (if (s.mod m).activeCp = 79 then 87 else 79) = other := by
    rcases h with ⟨h, rfl⟩ | ⟨h, rfl⟩ <;> simp [h]
  simp only [takeover, ho, hi, if_true]

/-- A queue that has stopped runs again from the host's PIDX; its posters before that PIDX stay. -/
theorem exec_restartQueue_runs {s : State} {m root queue : Nat} {pidx : W32} {q : CmdQueue} (hu : (s.mod m).hostUp = true)
    (h : mget? (s.mod m).queues (cqKey root queue) = some q) (hst : q.state ≠ 0) (hle : (pidx - q.cidx).toNat ≤ 2 ^ q.log2n) :
    ∃ u q', exec (.restartQueue m root queue pidx) s = .next (tell (.status 0) (writeQcb m root q' u))
      ∧ ModTurns s u m { s.mod m with
          queues := mput (s.mod m).queues (cqKey root queue) q', doorbells := mput (s.mod m).doorbells q.doorbell pidx } []
      ∧ { q' with posters := q.posters } = { q with state := 0, pidx := pidx } := by
  let q' : CmdQueue := { q with
    state := 0, pidx := pidx
    posters := q.posters.filter (fun e => decide ((BitVec.ofNat 32 e.1 - q.cidx).toNat < (pidx - q.cidx).toNat)) }
  let f : ModSt → ModSt := fun x =>
    { x with queues := mput x.queues (cqKey root queue) q', doorbells := mput x.doorbells q.doorbell pidx }
  refine ⟨updMod m f s, q', ?_, modTurns_updMod m f s, rfl⟩
  have hg : ¬ (q.state = 0 ∨ (pidx - q.cidx).toNat > 2 ^ q.log2n) := by omega
  simp only [exec_restartQueue, execRestartQueue, hostReq_of_up _ hu, h, if_neg hg]
  rfl

/-- Settles O51, request by request: with the link down no request reaches the module; with it up each one has its lemma. -/
theorem hostManagementAndDebug : Obligations.HostManagementAndDebug := by
  unfold Obligations.HostManagementAndDebug
  refine ⟨fun s m hd => ?_, fun s m => exec_hostPortLinkDown_turns s m, fun s m => ⟨fun hb hi => ?_, fun other ho hi => ?_⟩, fun s m hu => ?_⟩
  · exact ⟨fun _ _ => by simp [execDoorbellWrite, hd], fun _ _ => by simp [execLoadKey, hd], fun _ => by simp [execCreateRoot, hd],
      fun _ => by simp [execDestroyRoot, hd], fun _ _ _ => by simp [execHostRmaWrite, hd], fun _ _ _ => by simp [execHostRmaRead, hd],
      fun _ => by simp [execDebugHalt, hd], fun _ => by simp [execDebugAttach, hd]⟩
  · exact ⟨noteHost m (updMod m (fun x => { x with hostUp := true }) s), by simp [execHostPortLinkUp, hb, hi],
      noteHost_updMod m _ s (sameLinks_updMod m _ s rfl fun _ => rfl)⟩
  · exact ⟨_, by rw [exec_commandProcessorTakeover, execCommandProcessorTakeover, takeover_eq ho hi],
      noteHost_updMod m _ s (sameLinks_updMod m _ s rfl fun _ => rfl)⟩
  refine ⟨fun key img hk hk' hl hv hr => ⟨fun he => ?_, fun h0 hn => ⟨fun k hw => ?_, fun hw => ?_⟩⟩, fun key img h => ?_,
    fun img i t hp h => ?_, fun img st i t h hst => ?_, fun root r h hp hd hc hb => ?_, fun root r h hp hd hw => ?_, fun root h => ?_,
    fun root queue pidx q h hst hle => ?_, fun pa key bs hd => ?_, fun pa key n hd => ?_, fun root r h hp => ?_, fun gid g hg hm => ?_,
    fun gid im hg hi => ?_⟩
  -- keys
  · exact ⟨_, exec_loadKey_taken hu (loadWrapped_erase s ⟨hk, hk', hl, hv, hr⟩ he), modTurns_answer m _ s 0⟩
  · exact ⟨_, exec_loadKey_taken hu ((loadWrapped_fresh s ⟨hk, hk', hl, hv, hr⟩ h0 hn).trans (by rw [hw]; rfl)), modTurns_answer m _ s 0⟩
  · exact exec_loadKey_refused hu ((loadWrapped_fresh s ⟨hk, hk', hl, hv, hr⟩ h0 hn).trans (by rw [hw]; rfl))
  · exact exec_loadKey_refused hu (loadWrapped_refused h)
  -- roots
  · exact ⟨by simp [execCreateRoot, hu, h, answer], createNode_root hp h⟩
  · simp [execCreateRoot, hu, h, hst, answer]
  · obtain ⟨v, e, hv, hraw, ho, hm⟩ := dropRoot_done hc hb
    refine ⟨_, (exec_destroyRoot_dying hu h hp hd).trans (congrArg _ e), ?_, ?_, ho, hraw, hm, fun k e he hr => shootdown_tlb he hr⟩
    · exact (congrArg (fun y : State => { y with mods := s.mods, cores := s.cores, rets := s.rets, rawFrames := s.rawFrames, hostOut := s.hostOut })
        (shootdown_frame m root 0 (2 ^ 57) v)).trans (congrArg (fun y : State => { y with cores := s.cores, rets := s.rets, hostOut := s.hostOut }) hv)
    · have told : v.hostOut = s.hostOut := (congrArg State.hostOut hv :)
      rw [← told]
      rfl
  · exact (exec_destroyRoot_dying hu h hp hd).trans (congrArg _ (dropRoot_waits hw))
  · exact exec_destroyRoot_unknown hu h
  -- queues
  · exact exec_restartQueue_runs hu h hst hle
  -- memory
  · refine ⟨fun h0 => ?_, fun hn => ?_⟩
    · simp [execHostRmaWrite, hu, h0, hd, answer]
    · simp [execHostRmaWrite, hu, hn, answer]
  · refine ⟨fun h0 => ?_, fun hn => ?_⟩
    · simp [execHostRmaRead, hu, h0, hd]
    · simp [execHostRmaRead, hu, hn, answer]
  -- debugging
  · exact ⟨answer 0 (updMod m (fun x => { x with attached := sadd x.attached root }) s), by simp [execDebugAttach, hu, h, hp],
      modTurns_answer m _ s 0⟩
  · refine ⟨fun ha hp => ?_, fun ha hp => ?_, fun ha => ?_⟩
    · simp [execDebugHalt, hu, hg, hm, attachedTo, ha, hp, answer]
    · simp [execDebugHalt, hu, hg, hm, attachedTo, ha, hp, answer]
    · simp [execDebugHalt, hu, hg, attachedTo, ha, answer]
  · have hq := quiesced_image hg hi
    refine ⟨fun ha => ?_, fun ha hl => ?_⟩
    · rw [if_pos ha] at hq
      refine ⟨fun o n => ?_, fun o bs => ?_, ?_, ?_⟩
      · simp [execDebugReadImage, hu, hq, answer]
      · simp [execDebugWriteImage, hu, hq, answer]
      · simp [execDebugResume, hu, hq, answer]
      · simp [execDebugDiscard, hu, hq, answer]
    · rw [if_neg (by simp [ha]), if_neg hl] at hq
      refine ⟨fun o n hle => ?_, fun o bs im' hle hw => ?_, fun o bs hw => ?_, fun hb => ⟨?_, ?_⟩, fun hb hh => ⟨?_, ?_⟩⟩
      · simp [execDebugReadImage, hu, hq, answer, hle]
      · exact ⟨_, by simp [execDebugWriteImage, hu, hq, hle, hw], modTurns_answer m (fun z => { z with saved := mput z.saved gid im' }) s 0⟩
      · simp [execDebugWriteImage, hu, hq, hw, answer]
      · simp [execDebugDiscard, hu, hq, hb, answer]
      · refine ⟨_, { releaseImage s false im with debug := false }, ?_, modTurns_answer m (fun z => { z with saved := mput z.saved gid _ }) s 0, rfl, ?_⟩
        · simp [execDebugResume, hu, hq, hb]
        · exact releaseImage_noSkip s im
      · simp [execDebugDiscard, hu, hq, hb, answer]
      · simp [execDebugResume, hu, hq, hb, hh, answer]

end Sys2Proof.Proofs
end

section
/-! Folds of steps: what each step keeps the fold keeps, and what the step of one member brings about stays when no other step undoes it. -/

namespace Sys2Proof.Proofs

open Sys2Proof Sys2Proof.Machine Sys2Proof.Laws

/-- What the step of one member of a list brings about, under an invariant, and no other step undoes, holds after the fold. -/
theorem foldl_reaches {α : Type} {I P : State → Prop} {f : State → α → State} {n : α} {l : List α} (hI : ∀ s, ∀ a ∈ l, I s → I (f s a))
    (hn : ∀ s, I s → P (f s n)) (hk : ∀ s, ∀ a ∈ l, a ≠ n → P s → P (f s a)) {s : State} (hs : I s) (h : P s ∨ n ∈ l) : P (l.foldl f s) := by
  induction l generalizing s with
  | nil => simpa using h
  | cons a l ih =>
    rw [List.foldl_cons]
    refine ih (fun s b hb => hI s b (.tail a hb)) (fun s b hb => hk s b (.tail a hb)) (hI s a (.head l) hs) ?_
    by_cases e : a = n
    · subst e; exact .inl (hn s hs)
    · exact h.imp (hk s a (.head l) e) fun hm => (List.mem_cons.mp hm).resolve_left (Ne.symm e)

theorem cellGet_filter (m : List Host.Cell) (p : Nat → Bool) (a : Nat) : cellGet (m.filter (fun e => p e.1)) a = if p a then cellGet m a else 0 := by
  induction m with
  | nil => simp [cellGet]
  | cons e m ih =>
    obtain ⟨k, v⟩ := e
    by_cases hk : a = k
    · subst hk
      cases hp : p a <;> simp [hp, cellGet, ih]
    · cases hp : p k <;> simp [hp, cellGet, ih, hk]

theorem mem_of_mget? {α : Type} {x : SMap α} {i : Nat} {v : α} (h : mget? x i = some v) : (i, v) ∈ x := by
  induction x with
  | nil => simp [mget?] at h
  | cons e x ih =>
    obtain ⟨k, w⟩ := e
    rw [mget?] at h
    split_ifs at h with hk
    · cases h; subst hk; exact .head x
    · exact .tail _ (ih h)

end Sys2Proof.Proofs
end

section
/-! Cold reset (spec/01 R32 to R35, 18 R448): what the module holds afterwards, and each of its sites brought up or left. -/

namespace Sys2Proof.Proofs

open Sys2Proof Sys2Proof.Machine Sys2Proof.Laws

theorem siteList_lt : ∀ n ∈ siteList, n < 128 := by decide

theorem modOf_site {m n : Nat} (h : n < 128) : modOf (m * 128 + n) = m := by unfold modOf; omega

/-- What bring-up gives a reticle and the rest of a cold reset leaves alone. -/
def upFields (r : RetSt) : Site × BitVec 8 × Cartridge × SMap Nat × Int × Int := (r.site, r.plane, r.cartridge, r.foldMap, r.wtOff, r.slewBy)

/-- A change of one reticle that keeps what bring-up gave keeps it in every reticle. -/
theorem upFields_updRet {f : RetSt → RetSt} (hf : ∀ x, upFields (f x) = upFields x) (r j : Nat) (s : State) :
    upFields ((updRet r f s).ret j) = upFields (s.ret j) := by
  rw [ret_updRet]
  split_ifs with h
  · rw [hf, h]
  · rfl

theorem upFields_setLstate_mesh (b : BitVec 8) (r : RetSt) : upFields (setLstate r.plane b r) = upFields r := by
  unfold setLstate
  split_ifs <;> rfl

/-- Only reticles change, and none in what bring-up gave it. -/
structure KeepsUp (s t : State) : Prop where
  frame : OnlyRets s t
  fields : ∀ j, upFields (t.ret j) = upFields (s.ret j)

theorem KeepsUp.trans {s t u : State} (h : KeepsUp s t) (g : KeepsUp t u) : KeepsUp s u :=
  ⟨h.frame.trans g.frame, fun j => (g.fields j).trans (h.fields j)⟩

theorem keepsUp_updRet (r : Nat) (f : RetSt → RetSt) (s : State) (hf : ∀ x, upFields (f x) = upFields x) : KeepsUp s (updRet r f s) :=
  ⟨rfl, fun j => upFields_updRet hf r j s⟩

theorem keepsUp_foldl {α : Type} (f : State → α → State) (l : List α) (s : State) (hf : ∀ s a, KeepsUp s (f s a)) : KeepsUp s (l.foldl f s) := by
  induction l generalizing s with
  | nil => exact ⟨rfl, fun _ => rfl⟩
  | cons a l ih => exact (hf s a).trans (ih _)

theorem keepsUp_absentPorts (r : Nat) (s : State) : KeepsUp s (absentPorts r s) := by
  unfold absentPorts
  exact keepsUp_updRet r _ s fun x => upFields_setLstate_mesh _ x

theorem keepsUp_noteHost (m : Nat) (s : State) : KeepsUp s (noteHost m s) :=
  keepsUp_foldl _ _ s fun t r => keepsUp_updRet r _ t fun _ => rfl

theorem keepsUp_rewriteMesh (m tc : Nat) (s : State) : KeepsUp s (rewriteMesh m tc s) := by
  unfold rewriteMesh
  dsimp only
  refine KeepsUp.trans (keepsUp_foldl _ _ s ?_) (KeepsUp.trans (keepsUp_foldl _ _ _ ?_) (keepsUp_noteHost m _))
  · exact fun t r => keepsUp_updRet r _ t fun _ => rfl
  · exact fun t d => keepsUp_foldl _ _ t fun u r => keepsUp_updRet r _ u fun _ => rfl

/-- A site after a cold reset that found the effective identity x: in its state, and when it is in service and no stage failed, up. -/
def SiteBooted (x : ModSt) (ticks m n : Nat) (s : State) : Prop :=
  (s.ret (m * 128 + n)).site = effSite x n
  ∧ (effSite x n = .inService → stageFailed x n = false →
    upFields (s.ret (m * 128 + n)) = (.inService, 0xFF, .active, (effFolds x n).1, -(ticks : Int), 0)
    ∧ ∀ fold < 34, ∀ member < 4, s.core (coreKey (m * 128 + n) fold member) = bootCore x ticks n fold member)

theorem siteBooted_congr {x : ModSt} {ticks m n : Nat} {s t : State} (hr : ∀ j, upFields (t.ret j) = upFields (s.ret j)) (hc : t.cores = s.cores)
    (h : SiteBooted x ticks m n s) : SiteBooted x ticks m n t := by
  obtain ⟨hs, hu⟩ := h
  have site : (t.ret (m * 128 + n)).site = (s.ret (m * 128 + n)).site := congrArg (·.1) (hr (m * 128 + n))
  refine ⟨site.trans hs, fun hi hf => ?_⟩
  obtain ⟨hu, hk⟩ := hu hi hf
  refine ⟨(hr _).trans hu, fun fold hfold member hm => ?_⟩
  rw [← hk fold hfold member hm, State.core, hc, State.core]

/-- The cores of a reticle as their Shepherds bring them up, one by one. -/
def startCores (x : ModSt) (ticks ret : Nat) (cs : List Nat) (s : State) : State :=
  cs.foldl (fun t c => updCore (coreKey ret (c / 4) (c % 4)) (fun _ => bootCore x ticks (ret % 128) (c / 4) (c % 4)) t) s

theorem bringUp_eq (ret : Nat) (offset : Int) (s : State) :
    ∃ r, upFields r = (.inService, 0xFF, .active, (effFolds (s.mod (modOf ret)) (ret % 128)).1, offset, 0)
      ∧ bringUp ret offset s = startCores (s.mod (modOf ret)) s.ticks ret (upFrom 0 136) (updRet ret (fun _ => r) { s with free := s.free + 1 }) :=
  ⟨_, rfl, rfl⟩

/-- Starting cores keeps whatever a change of a core keeps. -/
theorem startCores_keeps {α : Type} (g : State → α) (hg : ∀ k f t, g (updCore k f t) = g t) (x : ModSt) (ticks ret : Nat) (cs : List Nat) (s : State) :
    g (startCores x ticks ret cs s) = g s := foldl_keep g _ (fun _ _ => hg _ _ _) cs s

theorem startCores_other {x : ModSt} {ticks ret k : Nat} {cs : List Nat} {s : State} (h : ∀ c ∈ cs, k ≠ coreKey ret (c / 4) (c % 4)) :
    (startCores x ticks ret cs s).core k = s.core k :=
  List.foldlRecOn (motive := fun t : State => t.core k = s.core k) cs _ rfl fun t ht c hc => by rw [core_updCore, if_neg (h c hc), ht]

theorem startCores_core {x : ModSt} {ticks ret fold member : Nat} {cs : List Nat} (s : State) (hm : member < 4) (hc : fold * 4 + member ∈ cs) :
    (startCores x ticks ret cs s).core (coreKey ret fold member) = bootCore x ticks (ret % 128) fold member := by
  refine foldl_reaches (I := fun _ => True) (n := fold * 4 + member)
    (P := fun t => t.core (coreKey ret fold member) = bootCore x ticks (ret % 128) fold member)
    (fun _ _ _ h => h) (fun t _ => ?_) (fun t c _ hne h => ?_) trivial (.inr hc)
  · rw [show (fold * 4 + member) / 4 = fold by omega, show (fold * 4 + member) % 4 = member by omega, core_updCore_self]
  · have hk : coreKey ret fold member ≠ coreKey ret (c / 4) (c % 4) := by unfold coreKey; omega
    rw [core_updCore, if_neg hk, h]

/-- One site changes at a time: its reticle, its cores and the count of free values; the modules, memory, the groups and the clock stay. -/
structure OnlySite (r : Nat) (s t : State) : Prop where
  mods : t.mods = s.mods
  ticks : t.ticks = s.ticks
  mem : t.mem = s.mem
  groups : t.groups = s.groups
  rets : ∀ j, j ≠ r → t.ret j = s.ret j
  cores : ∀ k, k / 256 ≠ r → t.core k = s.core k

theorem onlySite_bringUp (ret : Nat) (offset : Int) (s : State) : OnlySite ret s (bringUp ret offset s) := by
  obtain ⟨r, -, e⟩ := bringUp_eq ret offset s
  rw [e]
  refine ⟨startCores_keeps State.mods (fun _ _ _ => rfl) _ _ _ _ _, startCores_keeps State.ticks (fun _ _ _ => rfl) _ _ _ _ _,
    startCores_keeps State.mem (fun _ _ _ => rfl) _ _ _ _ _, startCores_keeps State.groups (fun _ _ _ => rfl) _ _ _ _ _, fun j hj => ?_, fun k hk => ?_⟩
  · rw [startCores_keeps (fun t => t.ret j) (fun _ _ _ => rfl), ret_updRet, if_neg hj]; rfl
  · rw [startCores_other fun c hc => ?_]
    · rfl
    · have := mem_upFrom.mp hc
      unfold coreKey; omega

theorem bringUp_ret (ret : Nat) (offset : Int) (s : State) :
    upFields ((bringUp ret offset s).ret ret) = (.inService, 0xFF, .active, (effFolds (s.mod (modOf ret)) (ret % 128)).1, offset, 0) := by
  obtain ⟨r, hr, e⟩ := bringUp_eq ret offset s
  rw [e, startCores_keeps (fun t => t.ret ret) (fun _ _ _ => rfl), ret_updRet_self, hr]

theorem bringUp_core (ret : Nat) (offset : Int) (s : State) {fold member : Nat} (hf : fold < 34) (hm : member < 4) :
    (bringUp ret offset s).core (coreKey ret fold member) = bootCore (s.mod (modOf ret)) s.ticks (ret % 128) fold member := by
  obtain ⟨r, -, e⟩ := bringUp_eq ret offset s
  rw [e]
  exact startCores_core _ hm (mem_upFrom.mpr (by omega))

theorem onlySite_bootSite (x : ModSt) (m n : Nat) (short : Bool) (s : State) : OnlySite (m * 128 + n) s (bootSite x m n short s) := by
  unfold bootSite
  by_cases h : effSite x n = .inService ∧ stageFailed x n = false
  · rw [if_pos h]
    exact onlySite_bringUp _ _ s
  · rw [if_neg h]
    exact ⟨rfl, rfl, rfl, rfl, fun j hj => by rw [ret_updRet, if_neg hj], fun _ _ => rfl⟩

/-- The step of a site brings it into the state of the effective identity. -/
theorem siteBooted_bootSite {x : ModSt} {m n : Nat} {s : State} (hn : n < 128) (hx : s.mod m = x) (short : Bool) :
    SiteBooted x s.ticks m n (bootSite x m n short s) := by
  have hr : (m * 128 + n) % 128 = n := by omega
  unfold bootSite
  by_cases h : effSite x n = .inService ∧ stageFailed x n = false
  · rw [if_pos h]
    have up := bringUp_ret (m * 128 + n) (-(s.ticks : Int)) s
    rw [modOf_site hn, hx, hr] at up
    refine ⟨(congrArg (·.1) up).trans h.1.symm, fun _ _ => ⟨up, fun fold hf member hm => ?_⟩⟩
    rw [bringUp_core _ _ s hf hm, modOf_site hn, hx, hr]
  · rw [if_neg h]
    exact ⟨by rw [ret_updRet_self], fun hi hf => absurd ⟨hi, hf⟩ h⟩

/-- The step of another site leaves a site as it was. -/
theorem OnlySite.siteBooted {x : ModSt} {ticks m n a : Nat} {s t : State} (hs : OnlySite (m * 128 + a) s t) (ha : a ≠ n)
    (h : SiteBooted x ticks m n s) : SiteBooted x ticks m n t := by
  obtain ⟨hsite, hu⟩ := h
  rw [SiteBooted, hs.rets _ (by omega)]
  refine ⟨hsite, fun hi hf => ⟨(hu hi hf).1, fun fold hfold member hm => ?_⟩⟩
  rw [hs.cores _ (by unfold coreKey; omega)]
  exact (hu hi hf).2 fold hfold member hm

/-- Fabric time is 0 at the tick of which an offset is the opposite, when nothing is being slewed. -/
theorem wtime_zero {s : State} {r : Nat} (ho : (s.ret r).wtOff = -(s.ticks : Int)) (hs : (s.ret r).slewBy = 0) : wtime s r = 0 := by
  have h : slewed s r = 0 := by simp only [slewed, hs]; simp; omega
  rw [wtime, ho, h]
  simp [zextInt]

/-- Amendments of a module are all that writing some of them changes. -/
theorem amend_foldl (m : Nat) (l : List Nat) (s : State) : ∃ as, (l.foldl (fun t n => amend m 2 (m * 128 + n) 0 0 0 t) s).mod m = { s.mod m with amendments := as } := by
  refine List.foldlRecOn (motive := fun t : State => ∃ as, t.mod m = { s.mod m with amendments := as }) _ _ ⟨_, rfl⟩ fun t ⟨as, h⟩ n _ => ?_
  rw [amend, mod_updMod_self, h]
  exact ⟨_, rfl⟩

end Sys2Proof.Proofs
end

section
/-! The stages of a cold reset one after another, and what the module is after the last of them. -/

namespace Sys2Proof.Proofs

open Sys2Proof Sys2Proof.Machine Sys2Proof.Laws

/-- The packets of other modules that the module holds, or that go to it, return to their sources. -/
def returnForeign (m : Nat) (s : State) : State :=
  ((s.wire.filter (fun e => modOf e.2.src != m && (modOf e.2.dst == m || modOf e.2.pos == m))).map (·.1)).foldl
    (fun t i => match mget? t.wire i with | some p => returnPacket i p t | none => t) s

/-- The amendments that retire the sites with too few folds. -/
def amendShort (m : Nat) (short : List Nat) (s : State) : State := short.foldl (fun t n => amend m 2 (m * 128 + n) 0 0 0 t) s

/-- Every site through its bring-up. -/
def bootSites (m : Nat) (short : List Nat) (s : State) : State := siteList.foldl (fun t n => bootSite (s.mod m) m n (short.contains n) t) s

/-- The mesh and the host's port of a module whose sites are up. -/
def joinMesh (m : Nat) (s : State) : State :=
  let t := (servedRets s m).foldl (fun t r => absentPorts r t) s
  let cp := if inService t (m * 128 + 79) then 79 else 87
  rewriteMesh m 0 (updMod m (fun y => { y with activeCp := cp, hostUp := inService t (m * 128 + cp) }) t)

theorem exec_coldReset_stages {m : Nat} (hm : m ≤ 1023) (s : State) : ∃ (u : State) (short : List Nat), exec (.coldReset m) s =
    .next (joinMesh m (bootSites m short (amendShort m short (updMod m (bootMod m) (dropModule m u))))) := by
  refine ⟨returnForeign m s, shortSites ((updMod m (bootMod m) (dropModule m (returnForeign m s))).mod m), ?_⟩
  rw [exec_coldReset, execColdReset, if_neg (by omega)]
  unfold joinMesh bootSites amendShort returnForeign
  rfl

/-- A change of a module keeps memory, the groups and the clock. -/
theorem amendShort_keeps {α : Type} (g : State → α) (hg : ∀ m f t, g (updMod m f t) = g t) (m : Nat) (short : List Nat) (s : State) :
    g (amendShort m short s) = g s := foldl_keep g _ (fun _ _ => hg _ _ _) short s

theorem bootSites_keeps {α : Type} (g : State → α) (hg : ∀ r s t, OnlySite r s t → g t = g s) (m : Nat) (short : List Nat) (s : State) :
    g (bootSites m short s) = g s := foldl_keep g _ (fun t n => hg _ _ _ (onlySite_bootSite _ m n _ t)) siteList s

theorem siteBooted_bootSites {m n : Nat} (short : List Nat) (s : State) (hn : n ∈ siteList) :
    SiteBooted (s.mod m) s.ticks m n (bootSites m short s) := by
  refine foldl_reaches (I := fun t => t.mods = s.mods ∧ t.ticks = s.ticks) (P := SiteBooted (s.mod m) s.ticks m n) (n := n)
    (fun t a _ h => ?_) (fun t h => ?_) (fun t a _ ha h => ?_) ⟨rfl, rfl⟩ (.inr hn)
  · have one := onlySite_bootSite (s.mod m) m a (short.contains a) t
    exact ⟨one.mods.trans h.1, one.ticks.trans h.2⟩
  · rw [← h.2]
    exact siteBooted_bootSite (siteList_lt n hn) (by rw [State.mod, h.1, State.mod]) _
  · exact (onlySite_bootSite _ m a _ t).siteBooted ha h

/-- Joining the mesh changes reticles in their mesh fields and LSTATE, and the module in its active command processor and its host's link. -/
theorem joinMesh_spec (m : Nat) (s : State) :
    (∃ cp up, (joinMesh m s).mod m = { s.mod m with activeCp := cp, hostUp := up }) ∧ (∀ j, upFields ((joinMesh m s).ret j) = upFields (s.ret j))
    ∧ (joinMesh m s).cores = s.cores ∧ (joinMesh m s).ticks = s.ticks ∧ (joinMesh m s).mem = s.mem ∧ (joinMesh m s).groups = s.groups := by
  unfold joinMesh
  dsimp only
  have k := keepsUp_foldl (fun t r => absentPorts r t) (servedRets s m) s fun t r => keepsUp_absentPorts r t
  generalize (servedRets s m).foldl (fun t r => absentPorts r t) s = t at k
  generalize (if inService t (m * 128 + 79) = true then 79 else 87) = cp
  generalize inService t (m * 128 + cp) = up
  have w := keepsUp_rewriteMesh m 0 (updMod m (fun y => { y with activeCp := cp, hostUp := up }) t)
  refine ⟨⟨cp, up, ?_⟩, fun j => (w.fields j).trans (k.fields j), ?_, ?_, ?_, ?_⟩
  · rw [w.frame.field (fun x => x.mod m) (fun _ => rfl), mod_updMod_self, k.frame.field (fun x => x.mod m) (fun _ => rfl)]
  · exact (w.frame.field State.cores fun _ => rfl).trans (k.frame.field State.cores fun _ => rfl)
  · exact (w.frame.field State.ticks fun _ => rfl).trans (k.frame.field State.ticks fun _ => rfl)
  · exact (w.frame.field State.mem fun _ => rfl).trans (k.frame.field State.mem fun _ => rfl)
  · exact (w.frame.field State.groups fun _ => rfl).trans (k.frame.field State.groups fun _ => rfl)

theorem byte_dropModule {m a : Nat} (h : modOf (retOf a) = m) (s : State) : cellGet (dropModule m s).mem a = 0 := by
  refine (cellGet_filter s.mem (fun k => !(modOf (retOf k) == m)) a).trans ?_
  rw [if_neg (by simp [h])]

theorem groups_dropModule {m gid : Nat} {g : Group} {s : State} (h : mget? (dropModule m s).groups gid = some g) : g.m ≠ m := by
  have := (List.mem_filter.mp (mem_of_mget? h)).2
  simpa using this

/-- What a cold reset makes of a module. -/
theorem exec_coldReset_boots {m : Nat} (hm : m ≤ 1023) (s : State) : ∃ t x as cp up, exec (.coldReset m) s = .next t
    ∧ t.mod m = { bootMod m x with amendments := as, activeCp := cp, hostUp := up }
    ∧ (∀ a, modOf (retOf a) = m → t.byte a = 0) ∧ (∀ gid g, mget? t.groups gid = some g → g.m ≠ m)
    ∧ ∀ n ∈ siteList, SiteBooted (t.mod m) t.ticks m n t := by
  obtain ⟨u, short, run⟩ := exec_coldReset_stages hm s
  obtain ⟨as, hx⟩ := amend_foldl m short (updMod m (bootMod m) (dropModule m u))
  have hmem : (amendShort m short (updMod m (bootMod m) (dropModule m u))).mem = (dropModule m u).mem := amendShort_keeps State.mem (fun _ _ _ => rfl) _ _ _
  have hgrp : (amendShort m short (updMod m (bootMod m) (dropModule m u))).groups = (dropModule m u).groups :=
    amendShort_keeps State.groups (fun _ _ _ => rfl) _ _ _
  rw [mod_updMod_self] at hx
  change (amendShort m short (updMod m (bootMod m) (dropModule m u))).mod m = _ at hx
  generalize amendShort m short (updMod m (bootMod m) (dropModule m u)) = v at run hx hmem hgrp
  have sites := fun n hn => siteBooted_bootSites (m := m) (n := n) short v hn
  have wmods : (bootSites m short v).mods = v.mods := bootSites_keeps State.mods (fun _ _ _ h => h.mods) m short v
  have wmem : (bootSites m short v).mem = v.mem := bootSites_keeps State.mem (fun _ _ _ h => h.mem) m short v
  have wgrp : (bootSites m short v).groups = v.groups := bootSites_keeps State.groups (fun _ _ _ h => h.groups) m short v
  have wticks : (bootSites m short v).ticks = v.ticks := bootSites_keeps State.ticks (fun _ _ _ h => h.ticks) m short v
  generalize bootSites m short v = w at run sites wmods wmem wgrp wticks
  obtain ⟨⟨cp, up, hmod⟩, hfields, hcores, hticks, hjmem, hjgrp⟩ := joinMesh_spec m w
  have hwm : w.mod m = v.mod m := by rw [State.mod, wmods, State.mod]
  rw [hwm] at hmod
  refine ⟨_, (dropModule m u).mod m, as, cp, up, run, by rw [hmod, hx], fun a ha => ?_, fun gid g hg => ?_, fun n hn => ?_⟩
  · rw [State.byte, hjmem, wmem, hmem]
    exact byte_dropModule ha u
  · rw [hjgrp, wgrp, hgrp] at hg
    exact groups_dropModule hg
  · rw [hticks, wticks, hmod]
    exact siteBooted_congr hfields hcores (sites n hn)

end Sys2Proof.Proofs
end

section
/-! What the Shepherds do (spec/01 R24, R29; 16 R396; 17 R415, R416, R424, R425; 09 R212): power, heartbeats, deaths, fused lanes, moved folds. -/

namespace Sys2Proof.Proofs

open Sys2Proof Sys2Proof.Machine Sys2Proof.Laws

/-! ### Power (R29) -/

/-- MXN of a core whose array is idle takes a value. -/
def idleMxn (v : Bool) (c : CoreSt) : CoreSt := if c.mxq = [] then { c with mxn := v } else c

theorem idleMxn_idem (v : Bool) (c : CoreSt) : idleMxn v (idleMxn v c) = idleMxn v c := by
  by_cases h : c.mxq = [] <;> simp [idleMxn, h]

/-- A core whose MXN has the value already, or whose array works, is left as it is: the value is idleMxn's all the same. -/
theorem core_settleStep (v : Bool) (s : State) (a j : Nat) :
    (if (s.core a).mxq.isEmpty && (s.core a).mxn != v then updCore a (fun c => { c with mxn := v }) s else s).core j
      = if j = a then idleMxn v (s.core a) else s.core j := by
  by_cases hj : j = a
  · subst hj
    rw [if_pos rfl, idleMxn]
    by_cases hq : (s.core j).mxq = []
    · rw [if_pos hq]
      by_cases hv : (s.core j).mxn = v
      · subst hv
        rw [if_neg (by simp)]
      · rw [if_pos (by simp [hq, hv]), core_updCore_self]
    · simp [hq]
  · rw [if_neg hj]
    split_ifs
    · rw [core_updCore, if_neg hj]
    · rfl

theorem core_settleMxn (ret : Nat) (v : Bool) (s : State) (k : Nat) :
    (settleMxn ret v s).core k = if k ∈ coresOfRet ret ∧ (s.core k).mxq = [] then { s.core k with mxn := v } else s.core k := by
  have h := core_foldl (idleMxn_idem v) (core_settleStep v) (coresOfRet ret) s k
  refine h.trans ?_
  by_cases hk : k ∈ coresOfRet ret <;> by_cases hq : (s.core k).mxq = [] <;> simp [hk, hq, idleMxn]

theorem settleMxn_frame (ret : Nat) (v : Bool) (s : State) : { settleMxn ret v s with cores := s.cores } = s :=
  List.foldlRecOn (motive := fun t : State => { t with cores := s.cores } = s) (coresOfRet ret) _ rfl fun t ht a _ => by
    split_ifs
    · exact ht
    · exact ht

/-- The alarm of a reticle turns: its record becomes r, and MXN of its idle cores becomes v. -/
def AlarmTurns (s t : State) (ret : Nat) (v : Bool) (r : RetSt) : Prop :=
  { t with rets := s.rets, cores := s.cores } = s ∧ t.ret ret = r ∧ (∀ j, j ≠ ret → t.ret j = s.ret j)
  ∧ ∀ k, t.core k = if k ∈ coresOfRet ret ∧ (s.core k).mxq = [] then { s.core k with mxn := v } else s.core k

theorem alarmTurns_settle (ret : Nat) (v : Bool) (f : RetSt → RetSt) (s : State) :
    AlarmTurns s (settleMxn ret v (updRet ret f s)) ret v (f (s.ret ret)) := by
  have frame := settleMxn_frame ret v (updRet ret f s)
  have cores := core_settleMxn ret v (updRet ret f s)
  generalize settleMxn ret v (updRet ret f s) = t at frame cores
  have rets : t.rets = (updRet ret f s).rets := (congrArg State.rets frame :)
  refine ⟨(congrArg (fun y : State => { y with rets := s.rets }) frame :), ?_, fun j hj => ?_, cores⟩
  · rw [State.ret, rets]; exact ret_updRet_self ret f s
  · rw [State.ret, rets]; exact (ret_updRet ret j f s).trans (if_neg hj)

/-- A further change of the reticle's own record. -/
theorem AlarmTurns.updRet {s t : State} {ret : Nat} {v : Bool} {r : RetSt} (h : AlarmTurns s t ret v r) (f : RetSt → RetSt) :
    AlarmTurns s (updRet ret f t) ret v (f r) := by
  obtain ⟨frame, value, others, cores⟩ := h
  refine ⟨frame, by rw [ret_updRet_self, value], fun j hj => ?_, cores⟩
  rw [ret_updRet, if_neg hj, others j hj]

/-! ### Heartbeats (R396) -/

theorem setMissed_core (ret sender n : Nat) (s : State) :
    { setMissed ret sender n true s with cores := s.cores } = s ∧ (setMissed ret sender n true s).core sender = { s.core sender with missed := n }
    ∧ ∀ k, k ≠ sender → (setMissed ret sender n true s).core k = s.core k :=
  ⟨rfl, core_updCore_self sender (fun c => { c with missed := n }) s,
    fun k hk => (core_updCore sender k (fun c => { c with missed := n }) s).trans (if_neg hk)⟩

theorem setMissed_ret (ret sender n : Nat) (s : State) :
    RetTurns s (setMissed ret sender n false s) ret { s.ret ret with missed := mput (s.ret ret).missed sender n } [] :=
  retTurns_updRet ret (fun r => { r with missed := mput r.missed sender n }) s

/-! ### Deaths (R415, R416) -/

/-- A notice puts packets on the fabric, under a key of its source: memory and the cores stay. -/
theorem sendNotice_keeps {α : Type} (g : State → α) (hr : ∀ r f t, g (updRet r f t) = g t)
    (hw : ∀ (t : State) w n, g { t with wire := w, nextId := n } = g t) (src a : Nat) (ds : List Nat) (b : Body) (s : State) :
    g (sendNotice src a ds b s) = g s := by
  unfold sendNotice
  exact (foldl_keep g _ (fun t d => hw t _ _) ds _).trans (hr _ _ s)

/-- The core dies once its groups are lost, and only notices of lost trees follow. -/
theorem coreDies_ends (k : Nat) (s : State) : ∃ u : State, (coreDies k s).core k = deadCore (u.core k)
    ∧ (coreDies k s).mem = (zeroRange (spadPa k 0) Config.spadBytes u).mem := by
  unfold coreDies
  dsimp only
  generalize dropWalks (· == k) _ = u
  refine ⟨u, (foldl_keep (fun t => t.core k) _ (fun t e => ?_) _ _).trans ?_, (foldl_keep State.mem _ (fun t e => ?_) _ _).trans rfl⟩
  · exact sendNotice_keeps (fun t => t.core k) (fun _ _ _ => rfl) (fun _ _ _ => rfl) _ _ _ _ t
  · exact core_updCore_self k deadCore u
  · exact sendNotice_keeps State.mem (fun _ _ _ => rfl) (fun _ _ _ => rfl) _ _ _ _ t

theorem byte_zeroRange {lo n a : Nat} (h : lo ≤ a) (h' : a < lo + n) (s : State) : cellGet (zeroRange lo n s).mem a = 0 := by
  refine (cellGet_filter s.mem (fun k => !(decide (lo ≤ k) && decide (k < lo + n))) a).trans ?_
  rw [if_neg (by simp [h, h'])]

/-! ### Lanes (R34, R424) -/

theorem noteError_keeps {α : Type} (g : State → α) (hr : ∀ r f t, g (updRet r f t) = g t) (ret kind object : Nat) (s : State) :
    g (noteError ret kind object s).1 = g s := by
  unfold noteError
  split
  · rfl
  · dsimp only
    exact hr _ _ s

theorem failLanes_keeps {α : Type} (g : State → α) (hr : ∀ r f t, g (updRet r f t) = g t) (core : Nat) (ls : List Nat) (s : State) :
    g (failLanes core ls s).1 = g s := by
  induction ls generalizing s with
  | nil => rfl
  | cons l ls ih => exact (ih _).trans (noteError_keeps g hr _ _ _ s)

/-- Fusing lanes amends the identity, tells the host, and takes the lanes out of the core's LMAP. -/
theorem fuseLanes_spec (core : Nat) (new : W32) (s : State) :
    (fuseLanes core new s).core core = { s.core core with lmap := new, lmapTo := none } ∧ (∀ k, k ≠ core → (fuseLanes core new s).core k = s.core k)
    ∧ (fuseLanes core new s).groups = s.groups ∧ (fuseLanes core new s).mem = s.mem := by
  refine ⟨core_updCore_self core _ _, fun k hk => ?_, rfl, rfl⟩
  exact (core_updCore core k _ _).trans (if_neg hk)

/-- Lanes fused after a self-test: the windows of the errors are reticle state, and nothing else of the core or of another changes. -/
theorem fuseLanes_failLanes (core : Nat) (new : W32) (ls : List Nat) (s : State) :
    let t := fuseLanes core new (failLanes core ls (updCore core (fun c => { c with lmapTo := none }) s)).1
    (t.core core).lmap = new ∧ (∀ k, k ≠ core → t.core k = s.core k) ∧ t.groups = s.groups ∧ t.mem = s.mem := by
  intro t
  obtain ⟨hcore, hothers, hgroups, hmem⟩ := fuseLanes_spec core new (failLanes core ls (updCore core (fun c => { c with lmapTo := none }) s)).1
  refine ⟨by rw [hcore], fun k hk => ?_, ?_, ?_⟩
  · rw [hothers k hk, failLanes_keeps (fun t => t.core k) fun _ _ _ => rfl, core_updCore, if_neg hk]
  · rw [hgroups, failLanes_keeps State.groups fun _ _ _ => rfl]; rfl
  · rw [hmem, failLanes_keeps State.mem fun _ _ _ => rfl]; rfl

theorem takeAction_fuse (ret : Nat) (core : Option Nat) (s : State) : takeAction ret core 1 s = s := by
  cases core <;> rfl

/-- When every failure found lasting is one to fuse, the lanes are fused and nothing else is done to the core. -/
theorem exec_laneSelfTest_fuses {s : State} {core : Nat} {failing : W32} (hi : inService s (coreRet core) = true) (hd : (s.core core).dead = false)
    (hg : groupsOn s core = []) {bad : State × List (Nat × Nat)}
    (hb : failLanes core ((upFrom 0 32).filter (fun l => bitOf failing.toNat l && bitOf (s.core core).lmap.toNat l))
      (updCore core (fun c => { c with lmapTo := none }) s) = bad) (ha : ∀ e ∈ bad.2, e.2 = 1) :
    exec (.laneSelfTest core failing) s = .next (retireShort (coreRet core) (if bad.2 = [] then bad.1 else
      fuseLanes core ((s.core core).lmap &&& ~~~((laneSet (bad.2.map (·.1))).setWidth 32)) bad.1)) := by
  have hf : bad.2.filter (fun e => e.2 == 1) = bad.2 := List.filter_eq_self.mpr fun e he => by simp [ha e he]
  have acts : ∀ t : State, bad.2.foldl (fun t e => takeAction (coreRet core) (some core) e.2 t) t = t := fun t =>
    List.foldlRecOn (motive := fun u => u = t) bad.2 _ rfl fun u hu e he => by rw [ha e he, takeAction_fuse, hu]
  rw [exec_laneSelfTest, execLaneSelfTest]
  dsimp only
  rw [if_neg (by simp [hi, hd]), if_neg (by simp [hg]), hb]
  rw [hf, acts]
  by_cases h : bad.2 = [] <;> simp [h]

end Sys2Proof.Proofs
end

section
/-! Moved folds and retired sites (spec/09 R212; 17 R425), and the obligation that the Shepherds' steps make up. -/

namespace Sys2Proof.Proofs

open Sys2Proof Sys2Proof.Machine Sys2Proof.Laws

/-! ### Fold migration (R212) -/

/-- The named and the spare folds of a reticle, and the groups of the pod. -/
def foldsAndGroups (ret : Nat) (s : State) : SMap Nat × NSet × SMap Group := ((s.ret ret).foldMap, (s.ret ret).spareFolds, s.groups)

theorem foldsAndGroups_updRet {f : RetSt → RetSt} (hf : ∀ x, (f x).foldMap = x.foldMap ∧ (f x).spareFolds = x.spareFolds) (r ret : Nat) (s : State) :
    foldsAndGroups ret (updRet r f s) = foldsAndGroups ret s := by
  simp only [foldsAndGroups, ret_updRet, updRet_groups]
  split_ifs with h
  · subst h; rw [(hf _).1, (hf _).2]
  · rfl

theorem foldsAndGroups_updMod (m ret : Nat) (f : ModSt → ModSt) (s : State) : foldsAndGroups ret (updMod m f s) = foldsAndGroups ret s := rfl

theorem foldsAndGroups_writeKey (ret id a : Nat) (bs : List Byte) (s : State) : foldsAndGroups ret (writeKey s id a bs) = foldsAndGroups ret s := by
  have h := onlyStores_writeKey s id a bs
  simp only [foldsAndGroups, State.ret, h.rets, h.groups]

theorem foldsAndGroups_shootRange (ret m root va size : Nat) (s : State) : foldsAndGroups ret (shootRange m root va size s) = foldsAndGroups ret s := by
  simp only [foldsAndGroups, shootRange, State.ret, mget]
  rw [mget?_map_keys]
  case hg => exact fun _ => rfl
  cases mget? s.rets ret <;> rfl

theorem foldsAndGroups_rebindEntry (ret : Nat) (pairs : List (Nat × Nat)) (m root key va : Nat) (s : State) :
    foldsAndGroups ret (rebindEntry pairs m root key va s) = foldsAndGroups ret s := by
  unfold rebindEntry
  split
  · rfl
  · dsimp only
    split
    · rfl
    · exact (foldsAndGroups_shootRange _ _ _ _ _ _).trans (foldsAndGroups_writeKey _ _ _ _ s)

theorem foldsAndGroups_rebindWindows (ret : Nat) (pairs : List (Nat × Nat)) (s : State) :
    foldsAndGroups ret (rebindWindows pairs s) = foldsAndGroups ret s :=
  foldl_keep _ _ (fun t _ => foldl_keep _ _ (fun u _ => foldl_keep _ _ (fun v _ => foldsAndGroups_rebindEntry ret pairs _ _ _ _ v) _ u) _ t) _ s

theorem foldsAndGroups_moveCore (ret old new : Nat) (s : State) : foldsAndGroups ret (moveCore old new s) = foldsAndGroups ret s := by
  unfold moveCore
  dsimp only
  split_ifs <;> rfl

theorem foldsAndGroups_noticeHost (ret r : Nat) (k : Option Nat) (c : Cause) (g a d : Nat) (s : State) :
    foldsAndGroups ret (noticeHost r k c g a d s) = foldsAndGroups ret s :=
  foldsAndGroups_updRet (f := fun c => { c with shSeq := (c.shSeq + 1) % 2 ^ 32 }) (fun _ => ⟨rfl, rfl⟩) r ret s

/-- A fold moves once no group is on its cores: the name goes to the spare fold, which is spare no longer. -/
theorem exec_foldMigration_moves {s : State} {ret fold spare old : Nat} (h : mget? (s.ret ret).foldMap fold = some old)
    (hi : inService s ret = true) (hs : smem (s.ret ret).spareFolds spare = true) (hc : foldComplete s ret spare = true)
    (hg : ((upFrom 0 4).map (fun i => (coreKey ret old i, coreKey ret spare i))).flatMap (fun p => groupsOn s p.1) = []) :
    ∃ t, exec (.foldMigration ret fold spare) s = .next t
      ∧ foldsAndGroups ret t = (mput (s.ret ret).foldMap fold spare, sdel (s.ret ret).spareFolds spare, s.groups) := by
  rw [exec_foldMigration, execFoldMigration]
  simp only [h, hi, hs, hc, Bool.true_eq_false, or_self, if_false, hg, List.isEmpty_nil, Bool.not_true, Bool.false_eq_true]
  refine ⟨_, rfl, ?_⟩
  generalize (upFrom 0 4).map (fun i => (coreKey ret old i, coreKey ret spare i)) = pairs
  have moved : foldsAndGroups ret (pairs.foldl (fun t p => moveCore p.1 p.2 t) (amend (modOf ret) 1 ret old 0 spare s)) = foldsAndGroups ret s := by
    rw [foldl_keep (foldsAndGroups ret) (fun t (p : Nat × Nat) => moveCore p.1 p.2 t)]
    · exact foldsAndGroups_updMod _ ret _ s
    · intro t p
      exact foldsAndGroups_moveCore ret p.1 p.2 t
  rw [foldsAndGroups_noticeHost]
  refine (foldsAndGroups_rebindWindows ret pairs _).trans ?_
  generalize pairs.foldl (fun t p => moveCore p.1 p.2 t) (amend (modOf ret) 1 ret old 0 spare s) = u at moved
  simp only [foldsAndGroups, Prod.mk.injEq] at moved
  obtain ⟨hm, hsp, hgr⟩ := moved
  simp only [foldsAndGroups, ret_updRet_self, updRet_groups, hm, hsp, hgr]

/-! ### Retired sites (R20, R24, R425) -/

theorem retireSite_eq {s : State} {ret src : Nat} (hi : inService s ret = true) (h : (servedRets s (modOf ret)).find? (fun r => r != ret) = some src) :
    retireSite ret s = reticleDies src ret s := by
  simp [retireSite, h, hi]

section
variable {s d : State} {m ret spare src : Nat}

/-- A retired site that still has its named folds is bound to a spare site. -/
theorem exec_siteRetire_binds (h : (servedRets s m).find? (fun r => r != m * 128 + ret % 128) = some src)
    (hd : (if inService s (m * 128 + ret % 128) then reticleDies src (m * 128 + ret % 128) s else s) = d)
    (hr : (d.ret (m * 128 + ret % 128)).site = .retired) (hf : (d.ret (m * 128 + ret % 128)).foldMap ≠ [])
    (hv : (d.ret (m * 128 + spare % 128)).site = .spare) :
    let u := m * 128 + ret % 128
    let v := m * 128 + spare % 128
    let b := bringUp v ((d.ret u).wtOff + slewed d u) (amend m 3 v 0 0 0 d)
    exec (.siteRetire m ret spare) s = .next (noteHost m (updRet u (fun r => { r with foldMap := [] }) (rebindWindows (namedPairs b u v) (joinSite src v b)))) := by
  intro u v b
  rw [exec_siteRetire, execSiteRetire]
  dsimp only
  rw [h]
  dsimp only
  rw [hd, if_neg (by simp [hr, hf]), if_pos hv]

/-- With no spare site left the cores of a retired site are lost for good. -/
theorem exec_siteRetire_loses (h : (servedRets s m).find? (fun r => r != m * 128 + ret % 128) = some src)
    (hd : (if inService s (m * 128 + ret % 128) then reticleDies src (m * 128 + ret % 128) s else s) = d)
    (hr : (d.ret (m * 128 + ret % 128)).site = .retired) (hf : (d.ret (m * 128 + ret % 128)).foldMap ≠ [])
    (hv : ∀ n ∈ siteList, (d.ret (m * 128 + n)).site ≠ .spare) (hn : spare % 128 ∈ siteList) :
    ∃ t, exec (.siteRetire m ret spare) s = .next t ∧ (t.ret (m * 128 + ret % 128)).foldMap = []
      ∧ ∀ k ∈ coresOfRet (m * 128 + ret % 128), (t.core k).dead = true := by
  rw [exec_siteRetire, execSiteRetire]
  dsimp only
  rw [h]
  dsimp only
  rw [hd, if_neg (by simp [hr, hf]), if_neg (hv _ hn), if_neg (by simpa using hv)]
  refine ⟨_, rfl, ?_, fun k hk => ?_⟩
  · rw [foldl_keep (fun t : State => (t.ret (m * 128 + ret % 128)).foldMap) (fun t k => updCore k (fun c => { c with dead := true }) t) fun _ _ => rfl,
      ret_updRet_self]
  · rw [core_foldl_updCore (fun c => { c with dead := true }) (fun _ => rfl), if_pos hk]

end

end Sys2Proof.Proofs
end

section
/-! The obligation over cold reset, power and failures, from the lemmas of its parts. -/

namespace Sys2Proof.Proofs

open Sys2Proof Sys2Proof.Machine Sys2Proof.Laws

/-- A core's beat, heard or missing. -/
theorem exec_heartbeat_core {s : State} {ret sender : Nat} (h : hears s ret sender true = true) :
    exec (.heartbeat ret sender true) s = .next (setMissed ret sender 0 true s)
    ∧ ((s.core sender).missed < 3 → ∀ v, exec (.heartbeatMiss ret sender true v) s = .next (setMissed ret sender (1 + (s.core sender).missed) true s))
    ∧ (3 ≤ (s.core sender).missed → exec (.heartbeatMiss ret sender true true) s = .next (retireCore sender s)) := by
  refine ⟨by simp [execHeartbeat, h], fun hn v => ?_, fun hn => ?_⟩
  · simp [execHeartbeatMiss, h, show 1 + (s.core sender).missed < 4 by omega]
  · simp [execHeartbeatMiss, h, show ¬ 1 + (s.core sender).missed < 4 by omega]

/-- A neighbour's beat, heard or missing. -/
theorem exec_heartbeat_ret {s : State} {ret sender : Nat} (h : hears s ret sender false = true) :
    exec (.heartbeat ret sender false) s = .next (setMissed ret sender 0 false s)
    ∧ (mget (s.ret ret).missed sender 0 < 3 → ∀ v,
        exec (.heartbeatMiss ret sender false v) s = .next (setMissed ret sender (1 + mget (s.ret ret).missed sender 0) false s))
    ∧ (3 ≤ mget (s.ret ret).missed sender 0 → exec (.heartbeatMiss ret sender false true) s = .next (reticleDies ret sender s)) := by
  refine ⟨by simp [execHeartbeat, h], fun hn v => ?_, fun hn => ?_⟩
  · simp [execHeartbeatMiss, h, show 1 + mget (s.ret ret).missed sender 0 < 4 by omega]
  · simp [execHeartbeatMiss, h, show ¬ 1 + mget (s.ret ret).missed sender 0 < 4 by omega]

/-- A dead core holds nothing. -/
theorem coreDies_holds_nothing (s : State) (k : Nat) : ((coreDies k s).core k).dead = true ∧ ((coreDies k s).core k).mxq = []
    ∧ ((coreDies k s).core k).bank = [] ∧ ((coreDies k s).core k).portA = none ∧ ((coreDies k s).core k).portX = none
    ∧ ∀ a, spadPa k 0 ≤ a → a < spadPa k 0 + Config.spadBytes → (coreDies k s).byte a = 0 := by
  obtain ⟨u, hc, hm⟩ := coreDies_ends k s
  rw [hc]
  refine ⟨rfl, rfl, rfl, rfl, rfl, fun a hl hh => ?_⟩
  rw [State.byte, hm]
  exact byte_zeroRange hl hh u

/-- Settles O56, part by part: cold reset, power, heartbeats, deaths, notices, lanes, folds and sites. -/
theorem resetPowerAndFailures : Obligations.ResetPowerAndFailures := by
  unfold Obligations.ResetPowerAndFailures
  refine ⟨fun s m => ⟨fun hm => ?_, fun hm => ?_⟩, fun s ret => ⟨fun hi => ?_, fun hi => ⟨?_, ?_⟩, fun hh => ?_, fun hh => ?_,
    fun t0 hb ha ho => ⟨fun hw => ?_, fun hw => ?_⟩⟩, fun s ret sender v => ⟨fun h => ?_, fun h => ?_⟩, coreDies_holds_nothing,
    fun s ret pkt p u hp hb => ⟨fun hn => ?_, fun hn => ?_⟩, fun s core failing hi hd => ⟨fun hg => ?_, fun hg hb => ?_, fun hg hb ha => ?_⟩,
    fun s ret => ⟨fun hi hc => ?_, fun hc => ?_, fun src hi h => retireSite_eq hi h⟩, fun s ret fold spare old h hi hs hc => ⟨fun hg => ?_, fun hg => ?_⟩,
    fun s m ret spare src => ?_⟩
  -- cold reset
  · rw [exec_coldReset, execColdReset, if_pos (by omega)]
  · obtain ⟨t, x, as, cp, up, run, hmod, hmem, hgroups, sites⟩ := exec_coldReset_boots hm s
    refine ⟨t, run, by rw [hmod]; rfl, by rw [hmod]; rfl, by rw [hmod]; rfl, by rw [hmod]; rfl, by rw [hmod]; rfl, by rw [hmod]; rfl, by rw [hmod]; rfl,
      by rw [hmod]; rfl, by rw [hmod]; rfl, ⟨x.boots, by rw [hmod]; rfl, by rw [hmod]; rfl⟩, hmem, hgroups, fun n hn => (sites n hn).1,
      fun n hn he hf => ?_⟩
    obtain ⟨hup, hcores⟩ := (sites n hn).2 he hf
    simp only [upFields, Prod.mk.injEq] at hup
    obtain ⟨-, hplane, hcart, hfolds, hoff, hslew⟩ := hup
    exact ⟨wtime_zero hoff hslew, hplane, hcart, hfolds, hcores⟩
  -- power
  · exact ⟨by simp [execPowerAlarmRaise, hi], by simp [execPowerHold, hi]⟩
  · exact ⟨raiseAlarm ret s, by simp [execPowerAlarmRaise, hi], alarmTurns_settle ret true _ s⟩
  · exact ⟨updRet ret (fun r => { r with hold := true }) (raiseAlarm ret s), by simp [execPowerHold, hi], (alarmTurns_settle ret true _ s).updRet _⟩
  · exact ⟨_, by rw [exec_powerHoldRelease, execPowerHoldRelease, if_pos hh], retTurns_updRet ret _ s⟩
  · simp [execPowerHoldRelease, hh]
  · simp [execPowerAlarmClear, hb, hw]
  · refine ⟨_, ?_, alarmTurns_settle ret false (fun x => { x with alarm := false, belowSince := none }) s⟩
    have due : ¬ ((s.ret ret).alarm = false ∨ ((s.ret ret).hold = true ∧ (s.ret ret).threshold ≤ 410) ∨ s.ticks - t0 < 160000) := by
      rw [ha]
      rcases ho with ho | ho
      · simp [ho]; omega
      · simp; omega
    simp only [exec_powerAlarmClear, execPowerAlarmClear, hb, if_neg due]
  -- heartbeats
  · obtain ⟨beat, miss, vote⟩ := exec_heartbeat_core h
    exact ⟨⟨_, beat, setMissed_core ret sender 0 s⟩, fun hn => ⟨_, miss hn v, setMissed_core ret sender _ s⟩, vote⟩
  · obtain ⟨beat, miss, vote⟩ := exec_heartbeat_ret h
    exact ⟨⟨_, beat, setMissed_ret ret sender 0 s⟩, fun hn => ⟨_, miss hn v, setMissed_ret ret sender _ s⟩, vote⟩
  -- failure notices
  · simp [execFailureNotice, hp, hb, hn]
  · simp [execFailureNotice, hp, hb, hn]
  -- lanes
  · simp [execLaneSelfTest, hi, hd, hg]
  · rw [exec_laneSelfTest_fuses hi hd hg rfl (by simp [hb]), if_pos hb]
  · exact ⟨by rw [exec_laneSelfTest_fuses hi hd hg rfl ha, if_neg hb], fuseLanes_failLanes core _ _ s⟩
  -- folds
  · simp [retireShort, hi, hc]
  · rw [retireShort, if_neg]
    rcases hc with hc | hc
    · simp [hc]
    · simp; omega
  · rw [exec_foldMigration, execFoldMigration]
    simp only [h, hi, hs, hc, Bool.true_eq_false, or_self, if_false]
    rw [if_pos (by simpa using hg)]
  · obtain ⟨t, run, ht⟩ := exec_foldMigration_moves h hi hs hc hg
    simp only [foldsAndGroups, Prod.mk.injEq] at ht
    exact ⟨t, run, ht⟩
  -- sites
  · intro u v hsrc d hr hf b
    exact ⟨fun hv => exec_siteRetire_binds hsrc rfl hr hf hv, fun hv hn => exec_siteRetire_loses hsrc rfl hr hf hv hn⟩

end Sys2Proof.Proofs
end

section
/-! Results that land (spec/02 R58): of loads and atomics from their requests, and of divisions, special functions, LGRID and DIST. -/

namespace Sys2Proof.Proofs

open Sys2Proof Sys2Proof.Machine Sys2Proof.Laws

/-- One lane's value enters a destination that is no queue: v is the lane, its first register and the value (R58). -/
def landValue (k : Nat) (dest : Dest) (n : Nat) (s : State) (v : Nat × Nat × Nat) : State :=
  match dest with
  | .regs => landRegs (thKey k v.1) v.2.1 (valueWords v.2.2 n) s
  | .uni u => landUni k u (valueWords v.2.2 n) s
  | _ => s

theorem lands0_values {dest : Dest} (hq : ∀ q, dest ≠ .queue q) (s : State) (k n : Nat) (vals : List (Nat × Nat × Nat)) :
    Lands0 s (vals.foldl (landValue k dest n) s) k dest n vals 0 := by
  cases dest with
  | queue q => exact absurd rfl (hq q)
  | regs => exact lands0_regs s k n vals
  | uni u => exact lands0_uni s k u n vals
  | drop =>
    rw [show vals.foldl (landValue k .drop n) s = s from foldl_keep id _ (fun _ _ => rfl) vals s]
    exact lands0_drop s k n vals

/-! ### Requests (R252, R254, R258) -/

/-- The value of one lane of a request that has returned without an error, and the register it goes to. -/
def landedLane (f : Flight) (x : LaneReq) : Option (Nat × Nat × Nat) :=
  if x.err = none then x.res.map (fun v => (x.lane, x.reg, loadValue f v)) else none

theorem landLane_value {f : Flight} (hq : ∀ q, f.dest ≠ .queue q) (op : Nat) (x : LaneReq) (s : State) :
    landLane op f x s = (landedLane f x).elim s (landValue (swKey f.gid f.warp f.slice) f.dest f.words s) := by
  unfold landLane landedLane landValue
  rcases x.err with - | e <;> rcases x.res with - | v
  case none.none => rfl
  all_goals
    cases hd : f.dest
    case queue q => exact absurd hd (hq q)
    all_goals rfl

theorem foldl_landLane {f : Flight} (hq : ∀ q, f.dest ≠ .queue q) (op : Nat) (s : State) :
    f.lanes.foldl (fun t x => landLane op f x t) s
      = (f.lanes.filterMap (landedLane f)).foldl (landValue (swKey f.gid f.warp f.slice) f.dest f.words) s := by
  rw [List.foldl_filterMap]
  refine List.foldl_ext _ _ s fun t x _ => ?_
  rw [landLane_value hq]
  cases landedLane f x <;> rfl

theorem landLane_queue {q : Nat} {f : Flight} (hd : f.dest = .queue q) (op : Nat) (x : LaneReq) (s : State) :
    { landLane op f x s with queues := s.queues, cores := s.cores, deadlock := s.deadlock, watches := s.watches } = s
    ∧ ∀ j, ((landLane op f x s).core j).uncounted = (s.core j).uncounted := by
  unfold landLane
  rw [hd]
  rcases x.err with - | e <;> rcases x.res with - | v
  case none.none => exact ⟨rfl, fun _ => rfl⟩
  all_goals exact landQueue_spec _ _ _ _ _ _ _ _ s

/-- The lanes of a request that has returned land, each in its destination. -/
theorem lands0_landLanes (op : Nat) (f : Flight) (s : State) :
    Lands0 s (f.lanes.foldl (fun t x => landLane op f x t) s) (swKey f.gid f.warp f.slice) f.dest f.words (f.lanes.filterMap (landedLane f)) 0 := by
  by_cases hq : ∃ q, f.dest = .queue q
  · obtain ⟨q, hd⟩ := hq
    obtain ⟨rest, cores⟩ := queue_foldl (fun t x => landLane op f x t) (fun t x => landLane_queue hd op x t) f.lanes s
    rw [hd]
    exact lands0_queue _ q _ rest cores _
  · have hq : ∀ q, f.dest ≠ .queue q := not_exists.mp hq
    rw [foldl_landLane hq]
    exact lands0_values hq s _ _ _

theorem landedLane_lane {f : Flight} (hl : ∀ x ∈ f.lanes, x.lane < 64) : ∀ v ∈ f.lanes.filterMap (landedLane f), v.1 < 64 := by
  intro v hv
  obtain ⟨x, hx, e⟩ := List.mem_filterMap.mp hv
  unfold landedLane at e
  split_ifs at e
  obtain ⟨r, -, rfl⟩ := Option.map_eq_some_iff.mp e
  exact hl x hx

/-- A request of a group that is there lands: it leaves the flight, fences that waited for it may end, and no group ends. -/
theorem landRequest_lands {s : State} {op : Nat} {f : Flight} {g : Group} (hg : mget? s.groups f.gid = some g) (hn : NoneEnds s f.core)
    (hl : ∀ x ∈ f.lanes, x.lane < 64) :
    let t := landRequest op f s
    let k := swKey f.gid f.warp f.slice
    t.flight = mdel s.flight op ∧ t.longs = s.longs ∧ (t.sw k).fpflags = (s.sw k).fpflags
    ∧ Lands s t op k f.dest f.words (f.lanes.filterMap (landedLane f)) := by
  have ends := dropFlight_ends op s
  obtain ⟨u, hu⟩ : ∃ u, dropFlight op s = u := ⟨_, rfl⟩
  rw [hu] at ends
  have hgu : u.groups = s.groups := (congrArg State.groups ends.rest :)
  obtain ⟨lands, hfp, hflight, hlongs⟩ := (lands0_landLanes op f u).lands (landedLane_lane hl) (op := op) rfl
  generalize hv : clearPending (swKey f.gid f.warp f.slice) op (f.lanes.foldl (fun t x => landLane op f x t) u) = v at lands hfp hflight hlongs
  have all := ends.lands lands
  have hv' : landRequest op f s = v := by
    have stays : reapCore f.core v = v := by
      refine reapCore_stays (hn.of_same ?_ (congrArg State.groups all.rest :) all.exited)
      exact (congrArg CoreSt.groups (all.cores f.core) :)
    unfold landRequest
    simp only [hu, hgu, hg, hv, stays]
  rw [hv']
  refine ⟨hflight.trans (congrArg State.flight ends.rest :), hlongs.trans (congrArg State.longs ends.rest :), ?_, all⟩
  exact hfp.trans (BitVec.or_zero.trans (congrArg SliceWarp.fpflags (ends.sws (swKey f.gid f.warp f.slice)) :))

/-- A request served from L1 is the request as the instruction issued it, performed, with its lanes' bytes from the line. -/
theorem l1Hit_same {s : State} {op : Nat} {f h : Flight} (e : l1Hit s op f = some h) :
    f.kind = .load ∧ h.kind = f.kind ∧ h.gid = f.gid ∧ h.warp = f.warp ∧ h.slice = f.slice ∧ h.core = f.core := by
  unfold l1Hit at e
  split at e
  · cases e
  · split_ifs at e with hc
    obtain ⟨ln, -, rfl⟩ := Option.map_eq_some_iff.mp e
    simp only [Bool.and_eq_true, beq_iff_eq] at hc
    exact ⟨hc.1.1.1.1, rfl, rfl, rfl, rfl, rfl⟩

/-! ### Long-latency results (R58, R154, R169, R337, R339) -/

/-- The lanes of a result of long latency land. -/
def landLongLanes (op : Nat) (g : Long) (s : State) : State :=
  g.vals.foldl (fun t v =>
    let ws := valueWords v.2.2.toNat g.words
    match g.dest with
    | .drop => t
    | .regs => landRegs (thKey (swKey g.gid g.warp g.slice) v.1) v.2.1 ws t
    | .uni n => landUni (swKey g.gid g.warp g.slice) n ws t
    | .queue q => landQueue g.core g.gid g.warp v.1 q op (ws.map .ready) false t) s

/-- A lane's result of long latency, as its destination takes it. -/
def longValues (g : Long) : List (Nat × Nat × Nat) := g.vals.map (fun v => (v.1, v.2.1, v.2.2.toNat))

/-- What lands after an operation has left its list lands after the state before. -/
theorem lands_longs {s t : State} {l : SMap Long} {op k n : Nat} {dest : Dest} {vals : List (Nat × Nat × Nat)}
    (h : Lands { s with longs := l } t op k dest n vals) : Lands s t op k dest n vals :=
  { h with rest := (congrArg (fun y : State => { y with longs := s.longs }) h.rest :) }

theorem lands0_long (op : Nat) (g : Long) (s : State) :
    Lands0 s (landLongLanes op g s) (swKey g.gid g.warp g.slice) g.dest g.words (longValues g) 0 := by
  unfold landLongLanes
  by_cases hq : ∃ q, g.dest = .queue q
  · obtain ⟨q, hd⟩ := hq
    rw [hd]
    obtain ⟨rest, cores⟩ := queue_foldl _ (fun t (v : Nat × Nat × W128) =>
      landQueue_spec g.core g.gid g.warp v.1 q op ((valueWords v.2.2.toNat g.words).map .ready) false t) g.vals s
    exact lands0_queue _ q _ rest cores _
  · have hq : ∀ q, g.dest ≠ .queue q := not_exists.mp hq
    have all := lands0_values hq s (swKey g.gid g.warp g.slice) g.words (longValues g)
    rw [longValues, List.foldl_map] at all
    cases hd : g.dest with
    | queue q => exact absurd hd (hq q)
    | _ => rw [hd] at all; exact all

theorem landLong_of_group {s : State} {g : Long} {gr : Group} (op : Nat) (hg : mget? s.groups g.gid = some gr) :
    landLong op g s = reapGroup g.gid (clearPending (swKey g.gid g.warp g.slice) op
      (mergeFlags (swKey g.gid g.warp g.slice) g.flags (landLongLanes op g { s with longs := mdel s.longs op }))) := by
  simp only [landLong, hg]
  rfl

/-- A result of a group that is there and goes on lands, with its flags. -/
theorem landLong_lands {s : State} {op : Nat} {g : Long} {gr : Group} (hg : mget? s.groups g.gid = some gr) (he : groupExited s g.gid gr = false)
    (hl : ∀ v ∈ g.vals, v.1 < 64) :
    let t := landLong op g s
    let k := swKey g.gid g.warp g.slice
    t.longs = mdel s.longs op ∧ t.flight = s.flight ∧ (t.sw k).fpflags = (s.sw k).fpflags ||| g.flags
    ∧ Lands s t op k g.dest g.words (longValues g) := by
  obtain ⟨u, hu⟩ : ∃ u, landLongLanes op g { s with longs := mdel s.longs op } = u := ⟨_, rfl⟩
  have merged := (hu ▸ lands0_long op g { s with longs := mdel s.longs op }).merge g.flags
  obtain ⟨lands, hfp, hflight, hlongs⟩ := merged.lands (op := op) (List.forall_mem_map.mpr hl) rfl
  generalize hv : clearPending (swKey g.gid g.warp g.slice) op (mergeFlags (swKey g.gid g.warp g.slice) g.flags u) = v at lands hfp hflight hlongs
  have all := lands_longs lands
  have hv' : landLong op g s = v := by
    have stays : reapGroup g.gid v = v := by
      refine reapGroup_stays fun x hx => ?_
      rw [(congrArg State.groups all.rest :), hg] at hx
      cases hx
      rw [groupExited_congr all.exited, he]
    rw [landLong_of_group op hg, hu, hv, stays]
  rw [hv']
  exact ⟨hlongs, hflight, hfp, all⟩

theorem landKind_ready {s : State} {op : Nat} {g : Long} (h : mget? s.longs op = some g) (hr : g.ready = true) (hu : unitBusy s op g = false)
    (hd : destMeets s op g.gid g.warp g.slice g.runSeq g.dest (g.vals.map (fun v => (v.1, v.2.1))) g.words = false) :
    landKind g.kind op s = .next (landLong op g s) := by
  simp [landKind, h, hr, hu, hd]

/-- A DIST not yet applied is applied at the counter of its grid. -/
theorem applyDist_counts {s : State} {op : Nat} {g : Long} {gr : Group} {d : Grid} {l reg : Nat} {v : W128} {rest : List (Nat × Nat × W128)}
    (hg : mget? s.groups g.gid = some gr) (hd : mget? (s.mod gr.m).grids gr.grid = some d) (hv : g.vals = (l, reg, v) :: rest) :
    applyDist op g s = updGrid gr.m gr.grid (fun y => { y with dist := y.dist + v.setWidth 64 })
      { s with longs := mput s.longs op { g with ready := true, vals := g.vals.map (fun p => (p.1, p.2.1, d.dist.setWidth 128)) } } := by
  simp only [applyDist, hg, hd, hv, BitVec.ofNat_toNat]

/-- Settles O47: a request lands as landRequest_lands says, a result of long latency as landLong_lands says. -/
theorem loadLandings : Obligations.LoadLandings := by
  unfold Obligations.LoadLandings
  intro s op
  refine ⟨?_, ?_, ?_⟩
  · intro f g hf hg hn h hp hr ha hl lands
    have same : (f.kind = .atomic → h = f) ∧ h.kind = f.kind ∧ h.gid = f.gid ∧ h.warp = f.warp ∧ h.slice = f.slice ∧ h.core = f.core := by
      rcases hit : l1Hit s op f with - | x
      · simp [h, hit]
      · obtain ⟨isLoad, all⟩ := l1Hit_same hit
        simpa [h, hit, isLoad] using all
    obtain ⟨atomic, hkind, hgid, hwarp, hslice, hcore⟩ := same
    rw [← hgid] at hg
    rw [← hcore] at hn
    obtain ⟨flight, longs, fp, all⟩ := landRequest_lands (op := op) hg hn hl
    have done : ∀ i, exec i s = .next (landRequest op h s) → lands i := fun i run =>
      ⟨_, run, flight, longs, all.sameMemory, by rw [← hgid, ← hwarp, ← hslice]; exact fp, by rw [← hgid, ← hwarp, ← hslice]; exact all⟩
    refine ⟨fun isLoad => done _ ?_, fun isAtomic => done _ ?_⟩
    · simp only [exec_loadLanding, execLoadLanding, hf]
      rw [if_neg (by simp [h, hp, hr, ha]), hkind, isLoad]
    · have e := atomic isAtomic
      rw [e] at hp hr ha
      have lands : landAtomic op f s = landRequest op f s := if_neg (by simp [isAtomic, hp, hr, ha])
      simp only [exec_atomicLanding, execAtomicLanding, hf, lands, e]
  · intro g gr hop hg he hr hu hd hl k lands
    obtain ⟨longs, flight, fp, all⟩ := landLong_lands (op := op) hg he hl
    have run := landKind_ready hop hr hu hd
    have done : ∀ i, exec i s = landKind g.kind op s → lands i := fun i e => ⟨_, e.trans run, longs, flight, all.sameMemory, fp, all⟩
    refine ⟨fun hk => done _ ?_, fun hk => done _ ?_, fun hk => done _ ?_, fun hk => done _ ?_⟩
    · rw [hk]; rfl
    · rw [hk]; rfl
    · rw [hk]; rfl
    · simp [execDistResult, hop, hk, hr]
  · intro g gr d l reg v rest hop hg hd hk hr hv
    simp only [exec_distResult, execDistResult, hop]
    rw [if_pos ⟨hk, hr⟩, applyDist_counts hg hd hv]

end Sys2Proof.Proofs
end

section
/-! The frame of a command step (spec/13 R306 to R310): what taking a command changes, and which of the refusals meets it. -/

namespace Sys2Proof.Proofs

open Sys2Proof Sys2Proof.Machine Sys2Proof.Laws

theorem mods_getD_writeVa (m root va : Nat) (bs : List Byte) (s : State) : ((writeVa s m root va bs).getD s).mods = s.mods := by
  cases h : writeVa s m root va bs with
  | none => rfl
  | some t => exact (onlyStores_writeVa h).mods

/-- A word that the device writes where it is asked for changes no module. -/
theorem mods_asked (c : Prop) [Decidable c] (m root va : Nat) (bs : List Byte) (s : State) :
    (if c then s else (writeVa s m root va bs).getD s).mods = s.mods := by
  split_ifs
  · rfl
  · exact mods_getD_writeVa m root va bs s

theorem mods_answerLgrid (op status handle : Nat) (s : State) : (answerLgrid op status handle s).mods = s.mods := by
  unfold answerLgrid
  split <;> rfl

/-- A completion word is memory, and the answer to an LGRID a result in flight. -/
theorem mods_finishCmd (m root cpl : Nat) (who : Poster) (status result : Nat) (s : State) : (finishCmd m root cpl who status result s).mods = s.mods := by
  have word := mods_asked (cpl = 0 ∨ cpl % 8 ≠ 0) m root cpl (bytesLE 4 status ++ bytesLE 4 result) s
  unfold finishCmd
  cases who with
  | lgrid _ op => exact (mods_answerLgrid _ _ _ _).trans word
  | host => exact word
  | kernel _ => exact word

@[simp] theorem mod_done (e : Entry) (m status result : Nat) (s : State) (j : Nat) : (e.done m status result s).mod j = s.mod j := by
  simp only [State.mod, Entry.done, mods_finishCmd]

@[simp] theorem mod_refuse (e : Entry) (m status : Nat) (s : State) (j : Nat) : (e.refuse m status s).mod j = s.mod j := mod_done e m status 0 s j

@[simp] theorem mod_writeQcb (m root : Nat) (q : CmdQueue) (s : State) (j : Nat) : (writeQcb m root q s).mod j = s.mod j := by
  simp only [State.mod, writeQcb, mods_getD_writeVa]

/-- A queue whose command at CIDX has been taken. -/
def afterCommand (q : CmdQueue) : CmdQueue := { q with cidx := q.cidx + 1, posters := mdel q.posters q.cidx.toNat }

section
variable {s : State} {m root queue code : Nat} {q : CmdQueue} {e : Entry}

/-- Taking a command changes the queue and whose turn is next, and no more of the module. -/
theorem mod_consume (h : mget? (s.mod m).queues (cqKey root queue) = some q) :
    (consume m root queue s).mod m = { s.mod m with
      rootTurn := root, queueTurn := mput (s.mod m).queueTurn root queue, queues := mput (s.mod m).queues (cqKey root queue) (afterCommand q) } := by
  simp only [consume, mod_updMod_self, h, mod_writeQcb]
  rfl

theorem stray_iff (e : Entry) (used : List (Nat × Nat)) :
    (strayBytes e.bs ([(0, 2), (8, 8)] ++ used) || decide (fieldLE e.bs 1 1 ≥ 2)) = true ↔ ¬ Clean e used := by
  simp only [Clean, Bool.or_eq_true, decide_eq_true_eq, not_and_or, Bool.not_eq_false, not_lt]

/-- What a command step does with the command that stands at CIDX. -/
theorem takeCommand_arrives (a : Arrives s m root queue code q e) (c lowest : Nat) (used : List (Nat × Nat)) (stray go : Entry → State → State) :
    takeCommand c lowest used m root queue stray go s =
      let t := consume m root queue s
      if code = 0 ∨ code > 10 then e.refuse m 0x10 t
      else if code ≠ c then s
      else if strayBytes e.bs ([(0, 2), (8, 8)] ++ used) || decide (fieldLE e.bs 1 1 ≥ 2) then stray e t
      else if posterClass s m e.who < lowest then e.refuse m 0x11 t
      else go e t := by
  obtain ⟨held, turn, read, entry, hcode⟩ := a
  have who : mget q.posters q.cidx.toNat .host = e.who := (congrArg Entry.who entry).symm
  rw [who] at entry
  simp only [takeCommand, held, turn, read, hcode, ← entry, who, ne_eq, not_true_eq_false, if_false]

/-- A command that nothing refuses is performed. -/
theorem takeCommand_go (a : Arrives s m root queue code q e) {lowest : Nat} {used : List (Nat × Nat)} (stray go : Entry → State → State)
    (hc : 1 ≤ code ∧ code ≤ 10) (hu : Clean e used) (hp : lowest ≤ posterClass s m e.who) :
    takeCommand code lowest used m root queue stray go s = go e (consume m root queue s) := by
  rw [takeCommand_arrives a]
  dsimp only
  rw [if_neg (by omega), if_neg (by simp), if_neg (by rw [stray_iff, not_not]; exact hu), if_neg (by omega)]

end

/-- The steps that take one command each: its code, the least class of its poster, the operand bytes it uses, and the step. CKPT, which may end
an earlier one first, is not among them. -/
def commandSteps (m root queue : Nat) : List (Nat × Nat × List (Nat × Nat) × Instr) :=
  [(1, 0, [(0x10, 8)], .launch m root queue), (2, 1, [(0x10, 10)], .regionCreate m root queue), (3, 1, [(0x10, 10)], .regionModify m root queue),
   (4, 1, [(0x18, 2)], .regionDestroy m root queue), (5, 1, [(0x10, 9), (0x1C, 2)], .topo m root queue),
   (6, 1, [(0x18, 1), (0x1C, 1)], .drain m root queue), (8, 2, [(0x10, 9)], .keyload m root queue),
   (9, 2, [(0x10, 8)], .timesync m root queue), (10, 0, [(0x10, 8)], .event m root queue)]

/-- Each of them is a command step, and but for LAUNCH a stray byte is refused with RESERVED. -/
theorem exec_commandStep (m root queue : Nat) (s : State) : ∀ x ∈ commandSteps m root queue,
    ∃ stray go, exec x.2.2.2 s = .next (takeCommand x.1 x.2.1 x.2.2.1 m root queue stray go s) ∧ 1 ≤ x.1 ∧ x.1 ≤ 10
      ∧ (x.1 ≠ 1 → stray = Entry.refuse m 0x10) := by
  have launch : ∃ stray go, exec (.launch m root queue) s = .next (takeCommand 1 0 [(0x10, 8)] m root queue stray go s) := ⟨_, _, rfl⟩
  obtain ⟨stray, go, run⟩ := launch
  simp only [commandSteps, List.forall_mem_cons]
  refine ⟨⟨stray, go, run, by omega, by omega, fun h => absurd rfl h⟩, ?_⟩
  refine ⟨?_, ?_, ?_, ?_, ?_, ?_, ?_, ?_, fun _ h => absurd h List.not_mem_nil⟩
  all_goals exact ⟨_, _, rfl, by omega, by omega, fun _ => rfl⟩

/-- The frame of every command step (R306, R307, R309): a reserved code, another code, a stray byte, and a poster below the class. -/
theorem exec_commandStep_frame {s : State} {m root queue code : Nat} {q : CmdQueue} {e : Entry} (a : Arrives s m root queue code q e) :
    ∀ x ∈ commandSteps m root queue,
      (code = 0 ∨ 10 < code → exec x.2.2.2 s = .next (e.refuse m 0x10 (consume m root queue s)))
      ∧ (1 ≤ code → code ≤ 10 → code ≠ x.1 → exec x.2.2.2 s = .next s)
      ∧ (code = x.1 → code ≠ 1 → ¬ Clean e x.2.2.1 → exec x.2.2.2 s = .next (e.refuse m 0x10 (consume m root queue s)))
      ∧ (code = x.1 → Clean e x.2.2.1 → posterClass s m e.who < x.2.1 → exec x.2.2.2 s = .next (e.refuse m 0x11 (consume m root queue s))) := by
  intro x hx
  obtain ⟨stray, go, run, hlo, hhi, hstray⟩ := exec_commandStep m root queue s x hx
  rw [run, takeCommand_arrives a]
  dsimp only
  refine ⟨fun hr => ?_, fun h1 h10 hne => ?_, fun hc h1 hu => ?_, fun hc hu hp => ?_⟩
  · rw [if_pos hr]
  · rw [if_neg (by omega), if_pos hne]
  · rw [if_neg (by omega), if_neg (not_not.mpr hc), if_pos ((stray_iff e _).mpr hu), hstray (hc ▸ h1)]
  · rw [if_neg (by omega), if_neg (not_not.mpr hc), if_neg (by rw [stray_iff, not_not]; exact hu), if_pos hp]

end Sys2Proof.Proofs
end

section
/-! LAUNCH, and the region commands (spec/02 R39, R40, R42 to R45; 15 R346, R347). -/

namespace Sys2Proof.Proofs

open Sys2Proof Sys2Proof.Machine Sys2Proof.Laws

section
variable {s : State} {m root queue code : Nat} {q : CmdQueue} {e : Entry}

theorem arrives_root (a : Arrives s m root queue code q e) : e.root = root := congrArg Entry.root a.entry

theorem arrives_queue (a : Arrives s m root queue code q e) : e.queue = queue := congrArg Entry.queue a.entry

/-- The queue of a command that has been taken. -/
theorem queue_consume (a : Arrives s m root queue code q e) :
    mget? ((consume m root queue s).mod m).queues (cqKey root queue) = some (afterCommand q) := by
  rw [mod_consume a.held]
  exact mget?_mput_self _ _ _

theorem grids_consume (a : Arrives s m root queue code q e) : ((consume m root queue s).mod m).grids = (s.mod m).grids := by
  rw [mod_consume a.held]

end

/-! ### LAUNCH -/

theorem mod_noteLaunch {s : State} {m k : Nat} {q : CmdQueue} (h : mget? (s.mod m).queues k = some q) (last : Option Nat) :
    (noteLaunch m k last s).mod m = { s.mod m with queues := mput (s.mod m).queues k { q with last := last } } := by
  simp only [noteLaunch, h, mod_updMod_self]

/-- A grid that has just been accepted: WAITING, none of its groups placed (R44). -/
def acceptedGrid (root k post : Nat) (pred : Option Nat) (l : Launch) : Grid :=
  { launch := l, root := root, queue := some k, pred := pred, post := post, state := .waiting, status := 0, placed := 0, ended := 0
    triggered := [], gone := [], dist := 0, retries := 0, log := [], handlerFor := none }

/-- A LAUNCH whose record passes its checks is accepted: the module holds its grid, and its queue names it as the last. -/
theorem doLaunch_accepts {t : State} {m : Nat} {q : CmdQueue} {e : Entry} {bs : List Byte} (hr : readRecord t m e.root (e.arg 0x10 8) = some bs)
    (hs : launchStatus t m e.root e.who bs = 0) (hq : mget? (t.mod m).queues (cqKey e.root e.queue) = some q) :
    ∃ h, let y := (doLaunch m e t).mod m
      y.grids = mput (t.mod m).grids h (acceptedGrid e.root (cqKey e.root e.queue) t.nextId q.last (launchOf bs))
      ∧ y.queues = mput (t.mod m).queues (cqKey e.root e.queue) { q with last := some h } := by
  refine ⟨freshHandle (t.mod m) ((t.mod m).grids.length + 2) (t.mod m).nextHandle, ?_⟩
  simp only [doLaunch, hr, hs, ne_eq, not_true_eq_false, if_false, hq, acceptGrid, freshId, mod_done]
  rw [mod_noteLaunch (q := q)]
  · rw [mod_updMod_self]
    exact ⟨rfl, rfl⟩
  · rw [mod_updMod_self]
    exact hq

/-- A LAUNCH whose record fails a check creates no grid, and its queue has no last one (R45). -/
theorem doLaunch_refuses {t : State} {m : Nat} {q : CmdQueue} {e : Entry} {bs : List Byte} (hr : readRecord t m e.root (e.arg 0x10 8) = some bs)
    (hs : launchStatus t m e.root e.who bs ≠ 0) (hq : mget? (t.mod m).queues (cqKey e.root e.queue) = some q) :
    (doLaunch m e t).mod m = { t.mod m with queues := mput (t.mod m).queues (cqKey e.root e.queue) { q with last := none } } := by
  simp only [doLaunch, hr, ne_eq, hs, not_false_eq_true, if_true, refuseLaunch, mod_refuse]
  rw [mod_noteLaunch (q := q)]
  · simp only [State.mod, mods_asked]
  · simpa only [State.mod, mods_asked] using hq

/-- LAUNCH (R42 to R45): the grid of a record that passes its checks waits, after the grid of the queue's last LAUNCH. -/
theorem exec_launch_spec {s : State} {m root queue : Nat} {q : CmdQueue} {e : Entry} {bs : List Byte} (a : Arrives s m root queue 1 q e)
    (hc : Clean e [(0x10, 8)]) (hr : readRecord (consume m root queue s) m root (e.arg 0x10 8) = some bs) :
    (launchStatus (consume m root queue s) m root e.who bs = 0 → ∃ u h g, exec (.launch m root queue) s = .next u ∧ mget? (u.mod m).grids h = some g
      ∧ g.launch = launchOf bs ∧ g.root = root ∧ g.queue = some (cqKey root queue) ∧ g.pred = q.last ∧ g.state = .waiting ∧ g.status = 0
      ∧ g.placed = 0 ∧ g.ended = 0 ∧ g.handlerFor = none
      ∧ mget? (u.mod m).queues (cqKey root queue) = some { afterCommand q with last := some h }
      ∧ ∀ j, j ≠ h → mget? (u.mod m).grids j = mget? (s.mod m).grids j)
    ∧ (launchStatus (consume m root queue s) m root e.who bs ≠ 0 → ∃ u, exec (.launch m root queue) s = .next u ∧ (u.mod m).grids = (s.mod m).grids
      ∧ mget? (u.mod m).queues (cqKey root queue) = some { afterCommand q with last := none }) := by
  have run : exec (.launch m root queue) s = .next (doLaunch m e (consume m root queue s)) := by
    rw [exec_launch, execLaunch, takeCommand_go a _ _ (by omega) hc (Nat.zero_le _)]
  have hq := queue_consume a
  have hg := grids_consume a
  obtain rfl := arrives_root a
  obtain rfl := arrives_queue a
  refine ⟨fun hs => ?_, fun hs => ?_⟩
  · obtain ⟨h, grids, queues⟩ := doLaunch_accepts hr hs hq
    refine ⟨_, h, _, run, by rw [grids]; exact mget?_mput_self _ _ _, rfl, rfl, rfl, rfl, rfl, rfl, rfl, rfl, rfl, ?_, fun j hj => ?_⟩
    · rw [queues]; exact mget?_mput_self _ _ _
    · rw [grids, mget?_mput_ne _ _ hj, hg]
  · refine ⟨_, run, ?_, ?_⟩
    · rw [doLaunch_refuses hr hs hq]; exact hg
    · rw [doLaunch_refuses hr hs hq]; exact mget?_mput_self _ _ _

/-! ### Regions -/

/-- A node made under a parent takes a free index, and stands there as the image says, one deeper than its parent (R39, R346). -/
theorem createNode_child {m n st i : Nat} {host : Bool} {bs : List Byte} {t u : State} {r : Region} (hr : mget? (t.mod m).regions n = some r)
    (hn : n ≠ 0xFFFF) (h : createNode m n host bs t = (st, i, u)) (hst : st = 0) :
    mget? (t.mod m).regions i = none ∧ mget? (u.mod m).regions i = some (newRegion t.nextId (rcbOf bs n (r.rcb.depth + 1))) := by
  simp only [createNode, hr, freshId, if_neg hn] at h
  split_ifs at h
  · cases h; cases hst
  split at h
  · cases h; cases hst
  rename_i j hj
  split_ifs at h
  · cases h; cases hst
  · simp only [Prod.mk.injEq] at h
    obtain ⟨-, rfl, rfl⟩ := h
    refine ⟨freeIndex_free hj, ?_⟩
    rw [mod_updMod_self]
    exact mget?_mput_self _ _ _

/-- A shootdown leaves the modules as they are. -/
@[simp] theorem mod_shootdown (m root va size : Nat) (s : State) (j : Nat) : (shootdown m root va size s).mod j = s.mod j := rfl

/-- A node that takes an image keeps its place in the tree (R347); a refused change changes nothing. -/
theorem modifyNode_spec {m n st : Nat} {host : Bool} {bs : List Byte} {t u : State} {r : Region} (hr : mget? (t.mod m).regions n = some r)
    (h : modifyNode m n host bs t = (st, u)) :
    (st = 0 → mget? (u.mod m).regions n = some { r with rcb := rcbOf bs r.rcb.parent r.rcb.depth }) ∧ (st ≠ 0 → u = t) := by
  obtain ⟨v, hv⟩ : ∃ v, updRegion m n (fun y => { y with rcb := rcbOf bs y.rcb.parent y.rcb.depth }) t = v := ⟨_, rfl⟩
  have changed : mget? (v.mod m).regions n = some { r with rcb := rcbOf bs r.rcb.parent r.rcb.depth } := by
    rw [← hv]
    simp only [updRegion, hr, mod_updMod_self, mget?_mput_self]
  obtain ⟨shoot, fold, keeps⟩ : ∃ shoot : State → State,
      (∀ w, (if bitOf (fieldLE bs 0x06 2) 1 then shootdown m (rootOf t m n) 0 (2 ^ 57) w else w) = shoot w) ∧ ∀ w, (shoot w).mod m = w.mod m := by
    refine ⟨_, fun _ => rfl, fun w => ?_⟩
    split_ifs <;> rfl
  have refused : ∀ {k : Nat}, k ≠ 0 → (k, t) = (st, u) →
      (st = 0 → mget? (u.mod m).regions n = some { r with rcb := rcbOf bs r.rcb.parent r.rcb.depth }) ∧ (st ≠ 0 → u = t) := by
    rintro k hk ⟨⟩
    exact ⟨fun e => absurd e hk, fun _ => rfl⟩
  simp only [modifyNode, hr, hv, fold] at h
  split_ifs at h
  · exact refused (by decide) h
  · exact refused (by decide) h
  · split at h
    · exact refused (by decide) h
    · split_ifs at h
      · exact refused (by decide) h
      · cases h
        exact ⟨fun _ => by rw [keeps, regions_takeQueues]; exact changed, fun e => absurd rfl e⟩
      · exact refused (by decide) h
  · cases h
    exact ⟨fun _ => by rw [keeps]; exact changed, fun e => absurd rfl e⟩

/-- Nothing of a subtree stays when its node is removed (R40). -/
theorem removeNodes_gone {m n j : Nat} {t : State} (h : j ∈ subtree t m n) : mget? ((removeNodes m n t).mod m).regions j = none := by
  rw [removeNodes, mod_shootdown, mod_updMod_self]
  by_contra hc
  obtain ⟨r, hr⟩ := Option.ne_none_iff_exists'.mp hc
  have := (List.mem_filter.mp (mem_of_mget? hr)).2
  simp [h] at this

section
variable {s : State} {m root queue : Nat} {q : CmdQueue} {e : Entry} {r : Region}

theorem exec_regionCreate_spec {st i : Nat} {u : State} {bs : List Byte} (a : Arrives s m root queue 2 q e) (hc : Clean e [(0x10, 10)])
    (hp : 1 ≤ posterClass s m e.who) (hr : mget? ((consume m root queue s).mod m).regions (e.arg 0x18 2) = some r)
    (hl : (lineage (consume m root queue s) m 8 (e.arg 0x18 2)).contains root = true) (hb : imageAt (consume m root queue s) m e = some bs)
    (ha : mayActOn (consume m root queue s) m (e.arg 0x18 2) false e.who = true) (hn : e.arg 0x18 2 ≠ 0xFFFF)
    (h : createNode m (e.arg 0x18 2) (e.who == .host) bs (consume m root queue s) = (st, i, u)) :
    exec (.regionCreate m root queue) s = .next (e.done m st (if st = 0 then i else 0) u) := by
  rw [exec_regionCreate, execRegionCreate, takeCommand_go a _ _ (by omega) hc hp, doRegionCreate, arrives_root a]
  simp only [if_neg hn, hl, hr, ha, hb, h, Bool.not_true, Option.isNone_some, Bool.or_self, Bool.false_eq_true, if_false]

theorem exec_regionModify_spec {st : Nat} {u : State} {bs : List Byte} (a : Arrives s m root queue 3 q e) (hc : Clean e [(0x10, 10)])
    (hp : 1 ≤ posterClass s m e.who) (hr : mget? ((consume m root queue s).mod m).regions (e.arg 0x18 2) = some r)
    (hl : (lineage (consume m root queue s) m 8 (e.arg 0x18 2)).contains root = true) (hb : imageAt (consume m root queue s) m e = some bs)
    (ha : mayActOn (consume m root queue s) m (e.arg 0x18 2) true e.who = true)
    (h : modifyNode m (e.arg 0x18 2) (e.who == .host) bs (consume m root queue s) = (st, u)) :
    exec (.regionModify m root queue) s = .next (e.done m st 0 u) := by
  rw [exec_regionModify, execRegionModify, takeCommand_go a _ _ (by omega) hc hp, doRegionModify, arrives_root a]
  simp only [hl, hr, ha, hb, h, Bool.not_true, Option.isNone_some, Bool.or_self, Bool.false_eq_true, if_false]

/-- REGION_DESTROY (R40): what it refuses a poster, and what it removes. -/
theorem exec_regionDestroy_spec (a : Arrives s m root queue 4 q e) (hc : Clean e [(0x18, 2)]) (hp : 1 ≤ posterClass s m e.who)
    (hr : mget? ((consume m root queue s).mod m).regions (e.arg 0x18 2) = some r) :
    exec (.regionDestroy m root queue) s =
      let t := consume m root queue s
      .next (if r.rcb.parent = 0xFFFF then e.refuse m 0x13 t
        else if (lineage t m 8 (e.arg 0x18 2)).contains root = false ∨ mayActOn t m (e.arg 0x18 2) true e.who = false then e.refuse m 0x11 t
        else if nodeBusy t m (e.arg 0x18 2) = true then e.refuse m 0x12 t
        else e.done m 0 0 (removeNodes m (e.arg 0x18 2) t)) := by
  rw [exec_regionDestroy, execRegionDestroy, takeCommand_go a _ _ (by omega) hc hp, doRegionDestroy, arrives_root a]
  simp only [hr, beq_iff_eq, Option.isNone_some, Bool.or_false, Bool.or_eq_true, Bool.not_eq_true']

end

end Sys2Proof.Proofs
end

section
/-! TOPO, DRAIN, KEYLOAD, EVENT and CKPT (spec/13 R308; 15 R352; 17 R422, R423; 18 R437 to R439), and whose turn it is (13 R306, R308). -/

namespace Sys2Proof.Proofs

open Sys2Proof Sys2Proof.Machine Sys2Proof.Laws

section
variable {s : State} {m root queue : Nat} {q : CmdQueue} {e : Entry}

/-! ### TOPO and DRAIN -/

theorem exec_topo_spec (a : Arrives s m root queue 5 q e) (hc : Clean e [(0x10, 9), (0x1C, 2)]) (hp : 1 ≤ posterClass s m e.who)
    (hm : e.arg 0x18 1 < 16) :
    let t := consume m root queue s
    let mask := e.arg 0x18 1
    (topoImage t m root mask (e.arg 0x10 8) = none → exec (.topo m root queue) s = .next (e.refuse m 0x13 t))
    ∧ ∀ recs, topoImage t m root mask (e.arg 0x10 8) = some recs →
      (planesBusy t m mask (recs.map (·.ret)) = true → exec (.topo m root queue) s = .next (e.refuse m 0x12 t))
      ∧ (planesBusy t m mask (recs.map (·.ret)) = false → (∃ r ∈ recs, (t.ret r.ret).tgen.toNat ≠ e.arg 0x1C 2) →
          exec (.topo m root queue) s = .next (e.refuse m 0x14 t))
      ∧ (planesBusy t m mask (recs.map (·.ret)) = false → (∀ r ∈ recs, (t.ret r.ret).tgen.toNat = e.arg 0x1C 2) →
          exec (.topo m root queue) s = .next (beginPlanes m e 5 0 mask recs t)) := by
  intro t mask
  have run : exec (.topo m root queue) s = .next (doTopo m e t) := by
    rw [exec_topo, execTopo, takeCommand_go a _ _ (by omega) hc hp]
  have stale : ∀ recs : List TopoRec, (recs.map (·.ret)).any (fun r => (t.ret r).tgen.toNat != e.arg 0x1C 2) = true
      ↔ ∃ r ∈ recs, (t.ret r.ret).tgen.toNat ≠ e.arg 0x1C 2 := fun recs => by simp
  have small : ¬ mask ≥ 16 := by omega
  rw [run, doTopo, arrives_root a]
  simp only [if_neg small, t, mask] at stale ⊢
  refine ⟨fun h => ?_, fun recs h => ⟨fun hb => ?_, fun hb hs => ?_, fun hb hs => ?_⟩⟩
  · rw [h]
  · simp only [h, hb, if_true]
  · simp only [h, hb, Bool.false_eq_true, if_false, if_pos ((stale recs).mpr hs)]
  · have fresh : ¬ ∃ r ∈ recs, ((consume m root queue s).ret r.ret).tgen.toNat ≠ e.arg 0x1C 2 := by simpa using hs
    simp only [h, hb, Bool.false_eq_true, if_false, if_neg (mt (stale recs).mp fresh)]

theorem exec_drain_spec (a : Arrives s m root queue 6 q e) (hc : Clean e [(0x18, 1), (0x1C, 1)]) (hp : 1 ≤ posterClass s m e.who)
    (hm : e.arg 0x18 1 < 16) (hr : e.arg 0x1C 1 < 2) :
    exec (.drain m root queue) s =
      let t := consume m root queue s
      .next (if planesBusy t m (e.arg 0x18 1) (servedRets t m) = true then e.refuse m 0x12 t
        else beginPlanes m e 6 (e.arg 0x1C 1) (e.arg 0x18 1) [] t) := by
  rw [exec_drain, execDrain, takeCommand_go a _ _ (by omega) hc hp, doDrain]
  dsimp only
  rw [if_neg (by omega)]

/-! ### KEYLOAD -/

theorem exec_keyload_spec {w : List Byte} (a : Arrives s m root queue 8 q e) (hc : Clean e [(0x10, 9)]) (hp : posterClass s m e.who = 2)
    (ha : e.arg 0x10 8 % 16 = 0) (hw : readSpan (consume m root queue s) m root 4 (e.arg 0x10 8) 1168 = some w) :
    exec (.keyload m root queue) s =
      let t := consume m root queue s
      .next (match loadWrapped m (e.arg 0x18 1) w t with
        | none => e.refuse m 0x13 t
        | some u => e.done m 0 0 u) := by
  rw [exec_keyload, execKeyload, takeCommand_go a _ _ (by omega) hc (le_of_eq hp.symm), doKeyload, arrives_root a]
  cases taken : loadWrapped m (e.arg 0x18 1) w (consume m root queue s) <;>
    simp only [ha, ne_eq, not_true_eq_false, if_false, hw, taken]

/-- A wrapped key that is taken has a legal header, and if it is no erasure a KEM text that no key has come under. -/
theorem loadWrapped_taken {key : Nat} {w : List Byte} {t u : State} (h : loadWrapped m key w t = some u) :
    WrapHeader key w ∧ fieldLE w 2 2 < 2 ∧ (fieldLE w 2 2 = 0 → (w.drop 8).take 1088 ∉ (t.mod m).kemUsed) := by
  have hn : ¬ (key = 0 ∨ 256 ≤ key ∨ w.length ≠ 1168 ∨ fieldLE w 0 2 ≠ 1 ∨ 2 ≤ fieldLE w 2 2 ∨ fieldLE w 4 4 ≠ 0
      ∨ (fieldLE w 2 2 = 0 ∧ (w.drop 8).take 1088 ∈ (t.mod m).kemUsed)) := fun bad => by
    rw [loadWrapped_refused bad] at h; cases h
  push Not at hn
  obtain ⟨h1, h2, h3, h4, h5, h6, h7⟩ := hn
  exact ⟨⟨by omega, h2, h3, h4, h6⟩, h5, h7⟩

/-- What a wrapped key that is taken leaves under its key id (R352). -/
theorem loadWrapped_key {key : Nat} {w : List Byte} {t u : State} (h : loadWrapped m key w t = some u) :
    (fieldLE w 2 2 = 1 → mget? (u.mod m).keys key = none)
    ∧ (fieldLE w 2 2 = 0 → (t.mod m).kemUsed.contains ((w.drop 8).take 1088) = false
        ∧ mget? (u.mod m).keys key = unwrapped (serialOf (t.mod m) m) (t.mod m).boots key ((w.drop 8).take 1088) (w.drop 0x448)) := by
  obtain ⟨header, -, unused⟩ := loadWrapped_taken h
  refine ⟨fun h1 => ?_, fun h0 => ?_⟩
  · rw [loadWrapped_erase t header h1] at h
    cases h
    rw [mod_updMod_self]
    exact mget?_mdel_self _ _
  · rw [loadWrapped_fresh t header h0 (unused h0)] at h
    obtain ⟨k, hk, rfl⟩ := Option.map_eq_some_iff.mp h
    rw [mod_updMod_self, hk]
    exact ⟨by simpa using unused h0, mget?_mput_self _ _ _⟩

/-! ### EVENT -/

theorem exec_event_spec (a : Arrives s m root queue 10 q e) (hc : Clean e [(0x10, 8)]) :
    exec (.event m root queue) s = .next (keepCmd m e 10 (e.arg 0x10 4) 0 0 [] [] (consume m root queue s)) := by
  rw [exec_event, execEvent, takeCommand_go a _ _ (by omega) hc (Nat.zero_le _)]

theorem exec_eventFinish_spec {c : Cmd} (h : (s.mod m).cmds.find? (fun c => c.code == 10 && c.root == root && c.queue == queue) = some c) :
    exec (.eventFinish m root queue) s =
      .next (if queueUnfinished s m root queue c.seq = true ∨ inService s (cpRet s m) = false then s else endCmd m c 0 c.arg s) := by
  simp only [exec_eventFinish, execEventFinish, h, Bool.or_eq_true, Bool.not_eq_true']
  split_ifs <;> rfl

/-! ### Turns -/

theorem mem_of_argMin {α : Type} {f : α → Nat} {l : List α} {x : α} (h : argMin f l = some x) : x ∈ l := by
  induction l generalizing x with
  | nil => cases h
  | cons a l ih =>
    unfold argMin at h
    split at h
    · cases h; exact .head l
    · rename_i y hy
      split_ifs at h
      · cases h; exact .tail a (ih hy)
      · cases h; exact .head l

/-- A queue whose turn it is has a command ready, and the command processor's site is in service (R30, R308). -/
theorem nextCommand_ready (h : nextCommand s m = some (root, queue)) : commandReady s m (cqKey root queue) = true ∧ inService s (cpRet s m) = true := by
  unfold nextCommand at h
  dsimp only at h
  split_ifs at h with hi
  split at h
  · cases h
  · obtain ⟨x, hx, e⟩ := Option.map_eq_some_iff.mp h
    cases e
    obtain ⟨k, hk, rfl⟩ := List.mem_map.mp (mem_of_argMin hx)
    obtain ⟨hk, hroot⟩ := List.mem_filter.mp hk
    have key : cqKey root (k % 64) = k := by
      have : k / 64 = root := by simpa using hroot
      unfold cqKey; omega
    rw [key]
    exact ⟨(List.mem_filter.mp hk).2, by simpa using hi⟩

/-- What a queue that has a command ready to read does not wait for (R306, R308, R423). -/
theorem commandReady_waits {bs : List Byte} (hq : queue < 64) (h : commandReady s m (cqKey root queue) = true)
    (held : mget? (s.mod m).queues (cqKey root queue) = some q) (read : readVa s m root (q.slotVa q.cidx.toNat) 64 = some bs) :
    q.state = 0 ∧ q.held ≠ 0 ∧ smem (s.mod m).dying root = false
    ∧ (bitOf (fieldLE bs 1 1) 0 = true → queueUnfinished s m root queue s.nextId = false)
    ∧ (fieldLE bs 0 1 = 7 → ∀ c ∈ (s.mod m).cmds, c.code = 7 → c.arg2 ≠ fieldLE bs 0x18 2) := by
  have hroot : cqKey root queue / 64 = root := by unfold cqKey; omega
  have hqueue : cqKey root queue % 64 = queue := by unfold cqKey; omega
  simp only [commandReady, held, hroot, hqueue, read, Bool.and_eq_true, beq_iff_eq, bne_iff_ne, ne_eq, Bool.not_eq_true',
    Bool.and_eq_false_iff, decide_eq_false_iff_not] at h
  obtain ⟨⟨⟨state, some_⟩, living⟩, fence, ckpt⟩ := h
  refine ⟨state, some_, living, fun hf => fence.resolve_left (by simp [hf]), fun h7 c hc hcode harg => ?_⟩
  rcases ckpt with h10 | hw
  · omega
  · simp only [ckptWaits, h7, beq_self_eq_true, Bool.true_and, List.any_eq_false] at hw
    exact hw c hc (by simp [hcode, harg])

/-! ### CKPT -/

/-- The CKPT of a queue that can finish: none of its groups is on a core any more. -/
def drainedCkpt (s : State) (m root queue : Nat) : Option Cmd :=
  (s.mod m).cmds.find? (fun c => c.code == 7 && c.root == root && c.queue == queue && inService s (cpRet s m)
    && c.todo.all (fun g => (mget? s.groups g).isNone))

theorem exec_ckpt_finishes {c : Cmd} (h : drainedCkpt s m root queue = some c) : exec (.ckpt m root queue) s = .next (finishCkpt m c s) := by
  unfold drainedCkpt at h
  simp only [exec_ckpt, execCkpt, h]

theorem exec_ckpt_begins (hn : drainedCkpt s m root queue = none) (a : Arrives s m root queue 7 q e) (hc : Clean e [(0x10, 10), (0x20, 8)])
    (hp : 1 ≤ posterClass s m e.who) (hl : (lineage (consume m root queue s) m 8 (e.arg 0x18 2)).contains root = true)
    (hr : mget? ((consume m root queue s).mod m).regions (e.arg 0x18 2) ≠ none)
    (ha : mayActOn (consume m root queue s) m (e.arg 0x18 2) false e.who = true) :
    exec (.ckpt m root queue) s =
      let t := consume m root queue s
      let i := e.arg 0x18 2
      let gs := (t.groups.filter (fun g => g.2.m == m && (lineage t m 8 g.2.region).contains i)).map (·.1)
      .next (if e.arg 0x10 8 % 4096 ≠ 0 then e.refuse m 0x13 t
        else keepCmd m e 7 (e.arg 0x10 8) i (e.arg 0x20 8) [] gs (gs.foldl (fun u g => requestWith g false u) t)) := by
  obtain ⟨r, hr⟩ := Option.ne_none_iff_exists'.mp hr
  unfold drainedCkpt at hn
  simp only [exec_ckpt, execCkpt, hn]
  rw [takeCommand_go a _ _ (by omega) hc hp, beginCkpt, arrives_root a]
  simp only [hl, hr, ha, Bool.not_true, Option.isNone_some, Bool.or_self, Bool.false_eq_true, if_false]

end

end Sys2Proof.Proofs
end

section
/-! TIMESYNC (spec/16 R366 to R368): the step of WTIME, the slew toward the reference, and the bound that SKEWB publishes. -/

namespace Sys2Proof.Proofs

open Sys2Proof Sys2Proof.Machine Sys2Proof.Laws

/-! ### The first synchronisation -/

/-- Reticles that a fold changes, each once, are each changed by its own step. -/
theorem ret_foldl_once (f : Nat → RetSt → RetSt) {l : List Nat} (hl : l.Nodup) (s : State) (j : Nat) :
    (l.foldl (fun t r => updRet r (f r) t) s).ret j = if j ∈ l then f j (s.ret j) else s.ret j := by
  induction l generalizing s with
  | nil => rfl
  | cons a l ih =>
    obtain ⟨ha, hl⟩ := List.nodup_cons.mp hl
    rw [List.foldl_cons, ih hl, ret_updRet]
    by_cases h : j = a
    · subst h; simp [ha]
    · simp [h]

theorem nodup_moduleRets (m : Nat) : (moduleRets m).Nodup :=
  (show siteList.Nodup by decide).map fun a b h => by simpa using h

/-- Reticle 79 keeps a module's time (R366). -/
theorem keeper_mem_moduleRets (m : Nat) : m * 128 + 79 ∈ moduleRets m := mem_moduleRets.mpr ⟨79, by decide, rfl⟩

theorem onlyRets_stepTime (m : Nat) (by_ : Int) (s : State) : OnlyRets s (stepTime m by_ s) := onlyRets_foldl _ (fun t r => onlyRets_updRet r _ t) _ s

theorem ret_stepTime (m : Nat) (by_ : Int) (s : State) (r : Nat) :
    (stepTime m by_ s).ret r = if r ∈ moduleRets m then { s.ret r with wtOff := (s.ret r).wtOff + by_ } else s.ret r :=
  ret_foldl_once (fun _ x => { x with wtOff := x.wtOff + by_ }) (nodup_moduleRets m) s r

/-- A step by the difference to an epoch makes the module's time that epoch. -/
theorem wtime_stepTime {epoch : Nat} (h : epoch < 2 ^ 64) (m : Nat) (s : State) :
    wtime (stepTime m ((epoch : Int) - (wtime s (m * 128 + 79) : Int)) s) (m * 128 + 79) = epoch := by
  obtain ⟨by_, hby⟩ : ∃ by_ : Int, (epoch : Int) - (wtime s (m * 128 + 79) : Int) = by_ := ⟨_, rfl⟩
  have ticks : (stepTime m by_ s).ticks = s.ticks := (onlyRets_stepTime m by_ s).field State.ticks fun _ => rfl
  have ret := ret_stepTime m by_ s (m * 128 + 79)
  rw [if_pos (keeper_mem_moduleRets m)] at ret
  have slew : slewed (stepTime m by_ s) (m * 128 + 79) = slewed s (m * 128 + 79) := by simp only [slewed, ret, ticks]
  rw [hby, wtime, slew, ret, ticks]
  rw [wtime] at hby
  unfold zextInt at hby ⊢
  dsimp only
  omega

/-! ### Slews -/

/-- A slew that has just begun has corrected nothing. -/
theorem slewed_begun {s : State} {r : Nat} (h : (s.ret r).slewFrom = s.ticks) : slewed s r = 0 := by
  unfold slewed
  simp only [h, Nat.sub_self, Nat.zero_div, Nat.cast_zero, neg_zero]
  split_ifs <;> omega

/-- A reticle whose slew changes over: what the old one has corrected stays (R367). -/
theorem ret_startSlew (r : Nat) (by_ : Int) (s : State) : (startSlew r by_ s).ret r =
    { s.ret r with wtOff := (s.ret r).wtOff + slewed s r, slewBy := by_, slewFrom := s.ticks } := ret_updRet_self r _ s

theorem wtime_startSlew (r : Nat) (by_ : Int) (s : State) : wtime (startSlew r by_ s) r = wtime s r := by
  have begun : slewed (startSlew r by_ s) r = 0 := slewed_begun (by rw [ret_startSlew]; rfl)
  have ticks : (startSlew r by_ s).ticks = s.ticks := rfl
  rw [wtime, wtime, begun, ret_startSlew, ticks, add_zero, add_assoc]

/-- A slew at another reticle leaves this one's time and its slew. -/
theorem startSlew_other {r j : Nat} (h : j ≠ r) (by_ : Int) (s : State) : (startSlew r by_ s).ret j = s.ret j := by
  rw [startSlew, ret_updRet, if_neg h]

/-- Every reticle of a module slews to where reticle 79 will be, from the time it has (R367). -/
theorem slewModule_spec {m r : Nat} (by_ : Int) (s : State) (h : r ∈ moduleRets m) :
    wtime (slewModule m by_ s) r = wtime s r ∧ ((slewModule m by_ s).ret r).slewBy = by_ + wtimeGap s (m * 128 + 79) r := by
  unfold slewModule
  refine foldl_reaches (I := fun t => wtime t r = wtime s r) (n := r)
    (P := fun t => wtime t r = wtime s r ∧ (t.ret r).slewBy = by_ + wtimeGap s (m * 128 + 79) r)
    (fun t a _ ht => ?_) (fun t ht => ⟨?_, ?_⟩) (fun t a _ ha ht => ?_) rfl (.inr h)
  · by_cases e : r = a
    · subst e; rw [wtime_startSlew, ht]
    · rw [← ht, wtime, wtime, slewed, slewed, startSlew_other e]; rfl
  · rw [wtime_startSlew, ht]
  · rw [ret_startSlew]
  · rw [startSlew_other (Ne.symm ha), ← ht.1, wtime, wtime, slewed, slewed, startSlew_other (Ne.symm ha)]
    exact ⟨rfl, ht.2⟩

/-! ### SKEWB -/

@[simp] theorem mod_free (n : Nat) (s : State) (j : Nat) : ({ s with free := n } : State).mod j = s.mod j := rfl

theorem skewLimit_le (s : State) (m : Nat) : skewLimit s m ≤ 0xFFFFFFFE := by
  unfold skewLimit
  dsimp only
  split_ifs <;> omega

/-- What the Shepherd writes bounds the true skew, within the limit where the skew is (R368). -/
theorem writeSkewb_bounds {s : State} (h : trueSkew s ≤ 0xFFFFFFFE) (m : Nat) :
    let b := ((writeSkewb m s).mod m).skewb.toNat
    trueSkew s ≤ b ∧ b ≤ 0xFFFFFFFE ∧ (trueSkew s ≤ skewLimit s m → b ≤ skewLimit s m) := by
  have hlim := skewLimit_le s m
  obtain ⟨top, htop⟩ : ∃ top, (if trueSkew s ≤ skewLimit s m then skewLimit s m else 0xFFFFFFFE) = top := ⟨_, rfl⟩
  have hv : ((writeSkewb m s).mod m).skewb = BitVec.ofNat 32 (trueSkew s + Config.choice s.free % (top + 1 - trueSkew s)) := by
    rw [← htop]
    simp only [writeSkewb, Nat.min_eq_left h, mod_free, mod_updMod_self]
  have hle : trueSkew s ≤ top ∧ top ≤ 0xFFFFFFFE ∧ (trueSkew s ≤ skewLimit s m → top = skewLimit s m) := by
    rw [← htop]
    split_ifs <;> omega
  have hmod := Nat.mod_lt (Config.choice s.free) (show 0 < top + 1 - trueSkew s by omega)
  dsimp only
  rw [hv, BitVec.toNat_ofNat, Nat.mod_eq_of_lt (by omega)]
  omega

theorem writeSkewb_sync (m : Nat) (s : State) : ((writeSkewb m s).mod m).sync.done = true ∧ ((writeSkewb m s).mod m).sync.missed = 0 := by
  simp only [writeSkewb, mod_free, mod_updMod_self, and_self]

/-! ### The command, the exchange and the miss -/

/-- A parameter block of a TIMESYNC that passes its checks (R366, R367). -/
structure SyncBlock (t : State) (m : Nat) (b : List Byte) : Prop where
  stray : strayBytes b [(0, 1), (2, 2), (8, 12)] = false
  role : fieldLE b 0 1 ≤ 1
  reference : fieldLE b 2 2 ≤ 1023
  least : 10 ≤ fieldLE b 0x10 4
  most : fieldLE b 0x10 4 ≤ 1000000
  circuit : fieldLE b 0 1 = 1 → syncCircuit t m (fieldLE b 2 2) = true

theorem SyncBlock.passes {t : State} {m : Nat} {b : List Byte} (h : SyncBlock t m b) :
    (strayBytes b [(0, 1), (2, 2), (8, 12)] || decide (fieldLE b 0 1 > 1) || decide (fieldLE b 2 2 > 1023) || decide (fieldLE b 0x10 4 < 10)
      || decide (fieldLE b 0x10 4 > 1000000) || (fieldLE b 0 1 == 1 && !syncCircuit t m (fieldLE b 2 2))) = false := by
  obtain ⟨stray, role, reference, least, most, circuit⟩ := h
  have led : (fieldLE b 0 1 == 1 && !syncCircuit t m (fieldLE b 2 2)) = false := by
    by_cases h1 : fieldLE b 0 1 = 1
    · rw [circuit h1]; simp
    · simp [h1]
  simp only [stray, led, Bool.false_or, Bool.or_false, Bool.or_eq_false_iff, decide_eq_false_iff_not]
  omega

/-- A module takes its role, its reference and its period from a parameter block. -/
def takeRole (m : Nat) (b : List Byte) (u : State) : State :=
  updMod m (fun y => { y with sync := { y.sync with role := fieldLE b 0 1, reference := fieldLE b 2 2, period := fieldLE b 0x10 4 } }) u

theorem exec_timesync_spec {s : State} {m root queue : Nat} {q : CmdQueue} {e : Entry} {b : List Byte} (a : Arrives s m root queue 9 q e)
    (hc : Clean e [(0x10, 8)]) (hp : posterClass s m e.who = 2) (ha : e.arg 0x10 8 % 64 = 0)
    (hb : readVa (consume m root queue s) m root (e.arg 0x10 8) 64 = some b) (ok : SyncBlock (consume m root queue s) m b) :
    exec (.timesync m root queue) s =
      let t := consume m root queue s
      let by_ := (fieldLE b 8 8 : Int) - (wtime t (m * 128 + 79) : Int)
      .next (if (t.mod m).sync.done = true then e.done m 0 0 (takeRole m b t)
        else if fieldLE b 0 1 = 1 then keepCmd m e 9 (fieldLE b 2 2) (fieldLE b 0x10 4) 0 [] [] t
        else if by_ ≠ 0 ∧ (t.mod m).regions ≠ [] then e.refuse m 0x12 t
        else e.done m 0 0 (writeSkewb m (takeRole m b (stepTime m by_ t)))) := by
  rw [exec_timesync, execTimesync, takeCommand_go a _ _ (by omega) hc (le_of_eq hp.symm), doTimesync, arrives_root a]
  simp only [ha, ne_eq, not_true_eq_false, if_false, hb, ok.passes, Bool.false_eq_true]
  rfl

/-- TIMESYNC_EXCHANGE after the first: each PERIOD a follower with a circuit to its reference slews, and a reference slews its own reticles. -/
theorem exec_timesyncExchange_later {s : State} {m : Nat} (offset : Int) (rtt : Nat) (h : (s.mod m).sync.done = true) :
    exec (.timesyncExchange m offset rtt) s =
      let y := (s.mod m).sync
      .next (if periodOver s (s.mod m) = false then s
        else if y.role = 0 then writeSkewb m (slewModule m 0 s)
        else if syncCircuit s m y.reference = true then
          writeSkewb m (slewModule m (wtimeGap s (y.reference * 128 + 79) (m * 128 + 79)) s)
        else s) := by
  simp only [exec_timesyncExchange, execTimesyncExchange, h, if_true]
  split_ifs <;> rfl

/-- The first exchange of a follower whose TIMESYNC waits steps its time to its reference's. -/
theorem exec_timesyncExchange_first {s : State} {m : Nat} {c : Cmd} (offset : Int) (rtt : Nat) (h : (s.mod m).sync.done = false)
    (hc : (s.mod m).cmds.find? (fun c => c.code == 9) = some c) (hl : syncCircuit s m c.arg = true) :
    exec (.timesyncExchange m offset rtt) s =
      let off := wtimeGap s (c.arg * 128 + 79) (m * 128 + 79)
      .next (if off ≠ 0 ∧ (s.mod m).regions ≠ [] then endCmd m c 0x12 0 s
        else endCmd m c 0 0 (writeSkewb m (updMod m
          (fun y => { y with sync := { y.sync with role := 1, reference := c.arg, period := c.arg2 } }) (stepTime m off s)))) := by
  simp only [exec_timesyncExchange, execTimesyncExchange, h, hc, hl, Bool.false_eq_true, Bool.true_eq_false, if_false]
  split_ifs <;> rfl

/-- A missed exchange is counted, and the fourth in a row doubles SKEWB (R368). -/
theorem exec_timesyncMiss_spec {s : State} {m : Nat} (hd : (s.mod m).sync.done = true) (hp : periodOver s (s.mod m) = true) :
    let x := s.mod m
    let misses := fun (y : ModSt) => ∃ t, exec (.timesyncMiss m) s = .next t ∧ ModTurns s t m y []
    (x.sync.missed < 3 → misses { x with sync := { x.sync with missed := x.sync.missed + 1, last := s.ticks } })
    ∧ (3 ≤ x.sync.missed → misses { x with
        sync := { x.sync with missed := 0, last := s.ticks }, skewb := BitVec.ofNat 32 (Nat.min 0xFFFFFFFE (2 * x.skewb.toNat)) }) := by
  intro x misses
  refine ⟨fun h => ?_, fun h => ?_⟩
  · have few : (s.mod m).sync.missed + 1 < 4 := Nat.succ_lt_succ h
    refine ⟨_, ?_, modTurns_updMod m (fun y => { y with
      skewb := x.skewb, sync := { y.sync with missed := x.sync.missed + 1, last := s.ticks } }) s⟩
    simp only [exec_timesyncMiss, execTimesyncMiss, hd, hp, if_pos few]
    rfl
  · have many : ¬ (s.mod m).sync.missed + 1 < 4 := Nat.not_lt.mpr (Nat.succ_le_succ h)
    refine ⟨_, ?_, modTurns_updMod m (fun y => { y with
      skewb := BitVec.ofNat 32 (Nat.min 0xFFFFFFFE (2 * x.skewb.toNat)), sync := { y.sync with missed := 0, last := s.ticks } }) s⟩
    simp only [exec_timesyncMiss, execTimesyncMiss, hd, hp, if_neg many]
    rfl

end Sys2Proof.Proofs
end

section
/-! The obligation over the command processor, from the lemmas of its commands. -/

namespace Sys2Proof.Proofs

open Sys2Proof Sys2Proof.Machine Sys2Proof.Laws

/-- Settles O55, command by command: takeCommand_arrives gives the frame, and each command has its lemma. -/
theorem commandProcessor : Obligations.CommandProcessor := by
  unfold Obligations.CommandProcessor
  refine ⟨?frame, ?launch, ?regions, ?destroy, ?planes, ?keyload, ?timesync, ?exchange, fun s m r by_ => slewModule_spec by_ s,
    fun s m => exec_timesyncMiss_spec, ?skewb, fun s m epoch h => wtime_stepTime h m s, fun s m root queue q e => exec_event_spec,
    ?finish, fun s m root queue => nextCommand_ready, fun s m root queue q bs => commandReady_waits, ?ckpt⟩
  case frame =>
    intro s m root queue code q e t steps a
    exact ⟨queue_consume a, exec_commandStep_frame a⟩
  case launch =>
    intro s m root queue q e bs t a hc hr
    exact exec_launch_spec a hc hr
  case regions =>
    intro s m root queue q e bs r t n hr hl hb
    refine ⟨fun st i u a hc hp ha hn h => ⟨?_, createNode_child hr hn h⟩, fun st u a hc hp ha h => ⟨?_, modifyNode_spec hr h⟩⟩
    · exact exec_regionCreate_spec a hc hp hr hl hb ha hn h
    · exact exec_regionModify_spec a hc hp hr hl hb ha h
  case destroy =>
    intro s m root queue q e t n a hc hp r hr
    have run := exec_regionDestroy_spec a hc hp hr
    dsimp only at run
    refine ⟨fun h => ?_, fun h hd => ?_, fun h hl ha => ⟨fun hb => ?_, fun hb => ⟨?_, fun j => removeNodes_gone⟩⟩⟩
    · rw [run, if_pos h]
    · rw [run, if_neg h, if_pos hd]
    · rw [run, if_neg h, if_neg (not_or.mpr ⟨ne_false_of_eq_true hl, ne_false_of_eq_true ha⟩), if_pos hb]
    · rw [run, if_neg h, if_neg (not_or.mpr ⟨ne_false_of_eq_true hl, ne_false_of_eq_true ha⟩), if_neg (ne_true_of_eq_false hb)]
  case planes =>
    intro s m root queue q e t mask
    refine ⟨fun a hc hp hm => exec_topo_spec a hc hp hm, fun a hc hp hm hr => ?_⟩
    have run := exec_drain_spec a hc hp hm hr
    exact ⟨fun hb => run.trans (congrArg _ (if_pos hb)), fun hb => run.trans (congrArg _ (if_neg (ne_true_of_eq_false hb)))⟩
  case keyload =>
    intro s m root queue q e w t a hc hp ha hw
    have run := exec_keyload_spec a hc hp ha hw
    refine ⟨fun h => ?_, fun u h => ⟨?_, loadWrapped_key h⟩⟩
    · simp only [t] at h
      simp only [run, h, t]
    · simp only [t] at h
      simp only [run, h]
  case timesync =>
    intro s m root queue q e b t set a hc hp ha hb stray role reference least most circuit
    have run := exec_timesync_spec a hc hp ha hb ⟨stray, role, reference, least, most, circuit⟩
    dsimp only at run
    refine ⟨fun hd => ?_, fun hd h1 => ?_, fun hd h0 => ?_⟩
    · rw [run, if_pos hd]; rfl
    · rw [run, if_neg (ne_true_of_eq_false hd), if_pos h1]
    · rw [run, if_neg (ne_true_of_eq_false hd), if_neg (by omega)]
      exact ⟨fun hn hr => congrArg _ (if_pos ⟨hn, hr⟩), fun h => congrArg _ (if_neg (by tauto))⟩
  case exchange =>
    intro s m offset rtt c x off answers
    have later := fun hd => exec_timesyncExchange_later (s := s) (m := m) offset rtt hd
    dsimp only at later
    refine ⟨fun hd h => ?_, fun hd hp hr => ?_, fun hd hp hr hl => ?_, fun hd hc hl => ?_⟩
    · refine (later hd).trans ?_
      by_cases hp : periodOver s (s.mod m) = false
      · rw [if_pos hp]
      · obtain ⟨hr, hl⟩ := h.resolve_left hp
        rw [if_neg hp, if_neg hr, if_neg (ne_true_of_eq_false hl)]
    · refine (later hd).trans ?_
      rw [if_neg (ne_false_of_eq_true hp), if_pos hr]
    · refine (later hd).trans ?_
      rw [if_neg (ne_false_of_eq_true hp), if_neg hr, if_pos hl]
    · have run := exec_timesyncExchange_first offset rtt hd hc hl
      exact ⟨fun hn hr => run.trans (congrArg _ (if_pos ⟨hn, hr⟩)), fun h => run.trans (congrArg _ (if_neg (by tauto)))⟩
  case skewb =>
    intro s m h b
    obtain ⟨low, high, limit⟩ := writeSkewb_bounds h m
    exact ⟨low, high, limit, writeSkewb_sync m s⟩
  case finish =>
    intro s m root queue c hc
    have run := exec_eventFinish_spec hc
    refine ⟨fun h => run.trans (congrArg _ (if_pos h)), fun hu hi => run.trans (congrArg _ (if_neg ?_))⟩
    simp [hu, hi]
  case ckpt =>
    intro s m root queue q e mine
    refine ⟨fun c hc => ?_, fun hn a hc => ?_⟩
    · intro bs out
      have run := exec_ckpt_finishes (s := s) (root := root) (queue := queue) hc
      refine ⟨fun h => run.trans ?_, fun t h => run.trans ?_⟩
      · simp only [out, bs] at h
        simp only [finishCkpt, h]
      · simp only [out, bs] at h
        simp only [finishCkpt, h]
    · intro t i hp hl hr ha
      have run := exec_ckpt_begins hn a hc hp hl hr ha
      exact ⟨fun h => run.trans (congrArg _ (if_pos h)), fun h => run.trans (congrArg _ (if_neg (not_not.mpr h)))⟩

end Sys2Proof.Proofs
end

section
/-! The Drovers (spec/02 R56 to R64; 13 R301, R302): what the notes at a run boundary and the issue of a run leave as they are. -/

namespace Sys2Proof.Proofs

open Sys2Proof Sys2Proof.Machine Sys2Proof.Laws

/-- Nothing differs but threads, slice-warps, cores, regions in a module, walks begun, deadlock counters, watches, and names and free choices:
memory, queues, groups, operations in flight and the clock are as they were. -/
def OnlyDrover (s t : State) : Prop :=
  { t with
    threads := s.threads, sws := s.sws, cores := s.cores, mods := s.mods, walks := s.walks, deadlock := s.deadlock, watches := s.watches
    nextId := s.nextId, free := s.free } = s

theorem OnlyDrover.refl (s : State) : OnlyDrover s s := rfl

theorem OnlyDrover.trans {s t u : State} (h : OnlyDrover s t) (g : OnlyDrover t u) : OnlyDrover s u :=
  Eq.trans (congrArg (fun y : State => { y with
    threads := s.threads, sws := s.sws, cores := s.cores, mods := s.mods, walks := s.walks, deadlock := s.deadlock, watches := s.watches
    nextId := s.nextId, free := s.free }) g) h

theorem onlyDrover_foldl {α : Type} (f : State → α → State) (hf : ∀ s a, OnlyDrover s (f s a)) (l : List α) (s : State) : OnlyDrover s (l.foldl f s) := by
  induction l generalizing s with
  | nil => rfl
  | cons a l ih => exact (hf s a).trans (ih _)

theorem OnlyDrover.mem {s t : State} (h : OnlyDrover s t) : t.mem = s.mem := (congrArg State.mem h :)
theorem OnlyDrover.queues {s t : State} (h : OnlyDrover s t) : t.queues = s.queues := (congrArg State.queues h :)
theorem OnlyDrover.groups {s t : State} (h : OnlyDrover s t) : t.groups = s.groups := (congrArg State.groups h :)
theorem OnlyDrover.ticks {s t : State} (h : OnlyDrover s t) : t.ticks = s.ticks := (congrArg State.ticks h :)

/-! ### The notes at a run boundary -/

theorem onlyDrover_updTh (k : Nat) (f : Thread → Thread) (s : State) : OnlyDrover s (updTh k f s) := rfl
theorem onlyDrover_updSw (k : Nat) (f : SliceWarp → SliceWarp) (s : State) : OnlyDrover s (updSw k f s) := rfl
theorem onlyDrover_updCore (k : Nat) (f : CoreSt → CoreSt) (s : State) : OnlyDrover s (updCore k f s) := rfl

theorem onlyDrover_updRegion (m i : Nat) (f : Region → Region) (s : State) : OnlyDrover s (updRegion m i f s) := by
  unfold updRegion
  split <;> rfl

theorem onlyDrover_noteWaiting (m i : Nat) (s : State) : OnlyDrover s (noteWaiting m i s) := by
  unfold noteWaiting
  split_ifs <;> exact onlyDrover_updRegion m i _ s

theorem onlyDrover_bumpCounter (k i n : Nat) (s : State) : OnlyDrover s (bumpCounter k i n s) := by
  unfold bumpCounter
  split_ifs <;> rfl

theorem onlyDrover_settle (gid warp : Nat) (sl : Slice) (s : State) : OnlyDrover s (settle gid warp sl s) := by
  have hold : ∀ g t, OnlyDrover t (holdThreads gid warp sl g t) := fun g t => onlyDrover_foldl _ (fun u l => by dsimp only; split_ifs <;> rfl) _ t
  have mask : ∀ k t, OnlyDrover t (releaseMask gid warp sl k t) := fun k t => by
    unfold releaseMask
    dsimp only
    split_ifs
    · rfl
    · refine (onlyDrover_updSw _ _ t).trans (onlyDrover_foldl _ (fun u l => ?_) _ _)
      exact onlyDrover_updTh _ _ u
  have waitm : ∀ k t, OnlyDrover t (releaseWaitm gid warp sl k t) := fun k t => by
    unfold releaseWaitm
    dsimp only
    split_ifs
    · rfl
    · have woken : OnlyDrover t (wakeWhere gid warp sl (fun w => w == .waitm k) t) := rfl
      refine woken.trans (onlyDrover_foldl _ (fun u j => ?_) _ _)
      exact onlyDrover_updSw _ _ u
  unfold settle
  split
  · rfl
  · exact (hold _ s).trans (onlyDrover_foldl _ (fun t k => (mask k t).trans (waitm k _)) _ _)

theorem onlyDrover_settlePort (p : Port) (s : State) : OnlyDrover s (settlePort p s) := by
  refine onlyDrover_foldl _ (fun t h => ?_) _ s
  exact onlyDrover_settle h.gid h.warp p.slice t

theorem onlyDrover_fillActive (n : Nat) (p : Port) (s : State) : OnlyDrover s (fillActive n p s) := by
  induction n generalizing s with
  | zero => rfl
  | succ n ih =>
    unfold fillActive
    dsimp only
    split_ifs
    · rfl
    · split
      · rfl
      · exact (onlyDrover_updSw _ _ s).trans (ih _)

theorem onlyDrover_noteReady (p : Port) (xs : List Seen) (s : State) : OnlyDrover s (noteReady p xs s) := by
  refine OnlyDrover.trans (onlyDrover_foldl _ (fun t x => ?_) xs s) (onlyDrover_foldl _ (fun t r => ?_) _ _)
  · exact onlyDrover_updSw _ _ t
  · exact onlyDrover_noteWaiting _ _ t

theorem onlyDrover_startWalk (core m root va : Nat) (s : State) : OnlyDrover s (startWalk core m root va s) := by
  unfold startWalk
  split
  · split_ifs <;> rfl
  · rfl

theorem onlyDrover_startFetches (p : Port) (xs : List Seen) (s : State) : OnlyDrover s (startFetches p xs s) := by
  refine onlyDrover_foldl _ (fun t x => onlyDrover_foldl _ (fun u g => ?_) _ t) _ s
  split
  · exact onlyDrover_startWalk _ _ _ _ u
  · rfl

theorem onlyDrover_noteDecoupling (p : Port) (xs : List Seen) (s : State) : OnlyDrover s (noteDecoupling p xs s) := by
  refine onlyDrover_foldl _ (fun t x => ?_) _ s
  refine OnlyDrover.trans (onlyDrover_foldl _ (fun u i => ?_) _ t) (onlyDrover_updSw _ _ _)
  exact onlyDrover_bumpCounter _ _ _ u

theorem onlyDrover_noteDeadlock (p : Port) (s : State) : OnlyDrover s (noteDeadlock p s) := by
  refine onlyDrover_foldl _ (fun t h => ?_) _ s
  by_cases hd : (!h.g.launch.decoupled) = true
  · rw [if_pos hd]
    rfl
  · rw [if_neg hd]
    dsimp only
    split <;> rfl

/-- The state at a run boundary in which the Drover of a port looks at its slice-warps: meetings are tested, and the active set is full (R64). -/
def surveyed (p : Port) (s : State) : State := fillActive 8 p (settlePort p s)

/-- What the Drover notes of what it sees: readiness, walks for code, waits for queues, deadlock counters. -/
def noted (p : Port) (xs : List Seen) (u : State) : State := noteDeadlock p (noteDecoupling p xs (startFetches p xs (noteReady p xs u)))

theorem onlyDrover_surveyed (p : Port) (s : State) : OnlyDrover s (surveyed p s) :=
  (onlyDrover_settlePort p s).trans (onlyDrover_fillActive 8 p _)

theorem onlyDrover_noted (p : Port) (xs : List Seen) (u : State) : OnlyDrover u (noted p xs u) :=
  (((onlyDrover_noteReady p xs u).trans (onlyDrover_startFetches p xs _)).trans (onlyDrover_noteDecoupling p xs _)).trans (onlyDrover_noteDeadlock p _)

/-! ### The issue of a run -/

/-- The code of a run has been fetched, and the core has counted the run. -/
def fetched (p : Port) (h : Held) (pg : PcGroup) (r : RunWords) (s : State) : State :=
  bumpCounter p.core (match p.slice with | .access => 1 | .execute => 2) 1
    (updCore p.core (fun c => { c with issueNo := (s.core p.core).issueNo + 1 })
      ((upFrom 0 (1 + r.words.length + r.trailers.length)).foldl (fun t i => fillFetch p.core h.g (pg.pc.toNat + 4 * i) t) { s with nextId := s.nextId + 1 }))

/-- The threads of a PC group and their slice-warp have issued the run of number n (R61). -/
def marked (k n : Nat) (lanes : List Nat) (s : State) : State :=
  updSw k (fun x => { x with lastIssue := n, readySince := none })
    (lanes.foldl (fun t l => updTh (thKey k l) (fun th => { th with lastIssue := n, splitRank := 0, pos := none, passDone := false }) t) s)

/-- The run that a PC group begins. -/
def newRun (p : Port) (h : Held) (pg : PcGroup) (r : RunWords) (seq : Nat) (skip : BitVec 64) : Run :=
  ⟨h.gid, h.warp, p.slice, laneSet pg.lanes, pg.pc, r.header, r.words, pg.pos.getD 0, r.trailers, seq, 0, skip,
    postsOf ((runInstrs 25 0 r.words).filter (fun i => decide (i.1 ≥ pg.pos.getD 0)))⟩

/-- A port takes a run: the deadlock counter of its pair returns to zero (R301). -/
def ported (p : Port) (h : Held) (run : Run) (v : State) : State :=
  setPort p (some run) { v with deadlock := mdel v.deadlock (pairKey h.gid h.warp), free := v.free + 1 }

theorem onlyDrover_ported (p : Port) (h : Held) (run : Run) (v : State) : OnlyDrover v (ported p h run v) := rfl
theorem portRun_ported (p : Port) (h : Held) (run : Run) (v : State) : (ported p h run v).portRun p = some run := portRun_setPort p _ _
theorem sw_ported (p : Port) (h : Held) (run : Run) (v : State) (k : Nat) : (ported p h run v).sw k = v.sw k := rfl
theorem thread_ported (p : Port) (h : Held) (run : Run) (v : State) (k : Nat) : (ported p h run v).thread k = v.thread k := rfl

theorem beginRun_eq (p : Port) (h : Held) (pg : PcGroup) (r : RunWords) (s : State) :
    let k := swKey h.gid h.warp p.slice
    let u := fetched p h pg r s
    beginRun p h pg r s = noteWaiting h.g.m h.g.region
      (ported p h (newRun p h pg r s.nextId (laneSet (pg.lanes.filter (fun l => (u.thread (thKey k l)).passDone))))
        (marked k ((s.core p.core).issueNo + 1) pg.lanes u)) := rfl

end Sys2Proof.Proofs
end

section
/-! RUN_ISSUE (spec/02 R56, R60 to R63; 04 R106; 14 R330): which run a port issues, what makes a run ready, and what keeps a header from
decoding. -/

namespace Sys2Proof.Proofs

open Sys2Proof Sys2Proof.Machine Sys2Proof.Laws

theorem threads_bumpCounter (k i n : Nat) (s : State) : (bumpCounter k i n s).threads = s.threads := (congrArg State.threads (bumpCounter_spec k i n s).1 :)

theorem onlyDrover_fillFetch (core : Nat) (g : Machine.Group) (va : Nat) (s : State) : OnlyDrover s (fillFetch core g va s) := by
  unfold fillFetch
  split
  · split_ifs <;> rfl
  · rfl

theorem threads_fillFetch (core : Nat) (g : Machine.Group) (va : Nat) (s : State) : (fillFetch core g va s).threads = s.threads := by
  unfold fillFetch
  split
  · split_ifs <;> rfl
  · rfl

section
variable (p : Port) (h : Held) (pg : PcGroup) (r : RunWords) (s : State)

theorem onlyDrover_fetched : OnlyDrover s (fetched p h pg r s) := by
  have named : OnlyDrover s { s with nextId := s.nextId + 1 } := rfl
  refine OnlyDrover.trans (OnlyDrover.trans (named.trans (onlyDrover_foldl _ (fun t i => ?_) _ _)) (onlyDrover_updCore _ _ _)) (onlyDrover_bumpCounter _ _ _ _)
  exact onlyDrover_fillFetch _ _ _ t

theorem threads_fetched : (fetched p h pg r s).threads = s.threads := by
  refine (threads_bumpCounter _ _ _ _).trans ((updCore_threads _ _ _).trans ((foldl_keep State.threads _ (fun t i => ?_) _ _).trans rfl))
  exact threads_fillFetch _ _ _ t

theorem onlyDrover_marked (k n : Nat) (lanes : List Nat) : OnlyDrover s (marked k n lanes s) := by
  refine OnlyDrover.trans (onlyDrover_foldl _ (fun t l => ?_) lanes s) (onlyDrover_updSw _ _ _)
  exact onlyDrover_updTh _ _ t

/-- Every thread that issues is marked, and stands where it stood. -/
theorem thread_marked {l : Nat} (k n : Nat) {lanes : List Nat} (hl : l ∈ lanes) :
    (marked k n lanes s).thread (thKey k l) = { s.thread (thKey k l) with lastIssue := n, splitRank := 0, pos := none, passDone := false } := by
  rw [marked, thread_updSw]
  refine foldl_reaches (n := l)
    (I := fun t => { t.thread (thKey k l) with lastIssue := n, splitRank := 0, pos := none, passDone := false }
      = { s.thread (thKey k l) with lastIssue := n, splitRank := 0, pos := none, passDone := false })
    (P := fun t => t.thread (thKey k l) = { s.thread (thKey k l) with lastIssue := n, splitRank := 0, pos := none, passDone := false })
    (fun t a _ ht => ?_) (fun t ht => ?_) (fun t a _ ha ht => ?_) rfl (.inr hl)
  · rw [thread_updTh]
    split_ifs with e
    · rw [← e]; exact ht
    · exact ht
  · rw [thread_updTh, if_pos rfl]; exact ht
  · rw [thread_updTh, if_neg (fun e => ha ((thKey_inj k).mp e).symm), ht]

theorem lastIssue_marked (k n : Nat) (lanes : List Nat) : ((marked k n lanes s).sw k).lastIssue = n := by
  rw [marked, sw_updSw, if_pos rfl]

theorem onlyDrover_beginRun : OnlyDrover s (beginRun p h pg r s) := by
  rw [beginRun_eq]
  exact (((onlyDrover_fetched p h pg r s).trans (onlyDrover_marked _ _ _ _)).trans (onlyDrover_ported _ _ _ _)).trans (onlyDrover_noteWaiting _ _ _)

theorem keeps_noteWaiting {α : Type} (g : State → α) (hg : ∀ m f t, g (updMod m f t) = g t) (m i : Nat) (t : State) : g (noteWaiting m i t) = g t := by
  have region : ∀ f, g (updRegion m i f t) = g t := fun f => by
    unfold updRegion
    split
    · exact hg _ _ _
    · rfl
  unfold noteWaiting
  split_ifs <;> exact region _

/-- A run that begins stands on its port, and its slice-warp and threads have issued last (R56, R61). -/
theorem beginRun_spec :
    let t := beginRun p h pg r s
    let k := swKey h.gid h.warp p.slice
    let n := (s.core p.core).issueNo + 1
    (∃ skip, t.portRun p = some (newRun p h pg r s.nextId skip)) ∧ (t.sw k).lastIssue = n
    ∧ ∀ l ∈ pg.lanes, t.thread (thKey k l) = { s.thread (thKey k l) with lastIssue := n, splitRank := 0, pos := none, passDone := false } := by
  intro t k n
  have e : t = _ := beginRun_eq p h pg r s
  rw [e]
  refine ⟨⟨_, (keeps_noteWaiting (fun t : State => t.portRun p) (fun _ _ _ => rfl) _ _ _).trans (portRun_ported _ _ _ _)⟩, ?_, fun l hl => ?_⟩
  · rw [keeps_noteWaiting (fun t : State => t.sw k) (fun _ _ _ => rfl), sw_ported]
    exact lastIssue_marked _ _ _ _
  · rw [keeps_noteWaiting (fun t : State => t.thread (thKey k l)) (fun _ _ _ => rfl), thread_ported]
    refine (thread_marked _ k n hl).trans ?_
    simp only [State.thread, threads_fetched]

end

/-! ### What a run boundary does -/

/-- The slice-warp that a port issues of those it sees: ready and active, of the highest priority, the least recent among equals (R62). -/
def chosen (xs : List Seen) : Option Seen :=
  argMin (fun x => (1000 - x.prio) * 2 ^ 64 + x.sw.lastIssue) (xs.filter (fun x => x.sw.active && x.isReady))

theorem exec_runIssue_spec {s : State} {core : Nat} {sl : Slice} :
    let p : Port := ⟨core, sl⟩
    let xs := survey (surveyed p s) p
    let v := noted p xs (surveyed p s)
    (s.portRun p ≠ none ∨ (s.core core).dead = true → exec (.runIssue core sl) s = .next { s with ticks := s.ticks + 8 })
    ∧ (s.portRun p = none → (s.core core).dead = false →
      (∀ x pg r, chosen xs = some x → x.pick = some (pg, .ready r) → exec (.runIssue core sl) s = .next (beginRun p x.h pg r v))
      ∧ (∀ x pg e, chosen xs = some x → x.pick = some (pg, .stop e) → exec (.runIssue core sl) s = .next (runFault p x.h pg e v))
      ∧ (chosen xs = none → exec (.runIssue core sl) s = .next { v with ticks := v.ticks + 8 })) := by
  intro p xs v
  refine ⟨fun h => ?_, fun hp hd => ⟨fun x pg r hc hk => ?_, fun x pg e hc hk => ?_, fun hc => ?_⟩⟩
  · have busy : ((s.portRun p).isSome || (s.core core).dead) = true := by
      simpa [Option.isSome_iff_ne_none] using h
    simp only [exec_runIssue, execRunIssue, p] at busy ⊢
    rw [if_pos busy]
  all_goals
    simp only [p] at hp
    simp only [chosen, xs, surveyed, p] at hc
    simp only [exec_runIssue, execRunIssue, hp, hd, Option.isSome_none, Bool.or_self, Bool.false_eq_true, if_false, hc]
  · rw [hk]; rfl
  · rw [hk]; rfl
  · rfl

/-! ### Ready runs (R60, R261, R330) -/

theorem verdict_ready_iff {s : State} {core gid : Nat} {g : Machine.Group} {warp : Nat} {sl : Slice} {pg : PcGroup} {r : RunWords}
    (h : decodeRun (fetchWord s core g) g.launch pg.pc.toNat = .ok r) :
    let is := (runInstrs 25 0 r.words).filter (fun i => decide (i.1 ≥ pg.pos.getD 0))
    (verdict s core gid g warp sl pg = .ready r ↔
      runPending s (swKey gid warp sl) pg.lanes is = false ∧ queueWaits s gid warp sl g.launch pg.lanes is = []
      ∧ (fencePending s (swKey gid warp sl) = true → ∀ i ∈ is, heldByFence i.2.1 i.2.2 = false)
      ∧ ∀ q ∈ postsOf is, wrqUsed s (coreRet core) q + ((postsOf is).filter (· == q)).length ≤ 64) := by
  intro is
  have held : (fencePending s (swKey gid warp sl) && is.any (fun i => heldByFence i.2.1 i.2.2)) = false
      ↔ (fencePending s (swKey gid warp sl) = true → ∀ i ∈ is, heldByFence i.2.1 i.2.2 = false) := by
    cases fencePending s (swKey gid warp sl) <;> simp
  have room : (postsOf is).any (fun q => decide (wrqUsed s (coreRet core) q + ((postsOf is).filter (· == q)).length > 64)) = false
      ↔ ∀ q ∈ postsOf is, wrqUsed s (coreRet core) q + ((postsOf is).filter (· == q)).length ≤ 64 := by
    simp
  rw [← held, ← room]
  simp only [verdict, h, is]
  split_ifs with hb
  · simp only [Bool.or_eq_true, Bool.not_eq_true', List.isEmpty_eq_false_iff] at hb
    simp only [false_iff]
    rintro ⟨pend, qs, fence, net⟩
    simp only [pend, qs, fence, net, Bool.false_eq_true, ne_eq, not_true_eq_false, or_self] at hb
  · simp only [Bool.or_eq_true, Bool.not_eq_true', not_or, Bool.not_eq_true, Bool.not_eq_false, List.isEmpty_iff] at hb
    obtain ⟨⟨⟨pend, net⟩, fence⟩, qs⟩ := hb
    exact iff_of_true rfl ⟨pend, qs, fence, net⟩

/-! ### Headers that do not decode (R106, R116) -/

theorem decodeRun_bad_header {fetch : Nat → Fetched} {l : Launch} {h : Nat} {w : W32} (hw : fetch h = .word w) :
    (opOf w ≠ 0 → decodeRun fetch l h = .error (.reason 0x06 w))
    ∧ (opOf w = 0 → bitsOf w.toNat 24 20 = 0 ∨ 24 < bitsOf w.toNat 24 20 → decodeRun fetch l h = .error (.reason 0x01 w))
    ∧ (opOf w = 0 → 1 ≤ bitsOf w.toNat 24 20 → bitsOf w.toNat 24 20 ≤ 24 →
        (∃ g ∈ [bitsOf w.toNat 19 15, bitsOf w.toNat 14 10, bitsOf w.toNat 9 5], 24 ≤ g ∧ g ≤ 30) → decodeRun fetch l h = .error (.reason 0x02 w))
    ∧ (opOf w = 0 → 1 ≤ bitsOf w.toNat 24 20 → bitsOf w.toNat 24 20 ≤ 24 →
        (∀ g ∈ [bitsOf w.toNat 19 15, bitsOf w.toNat 14 10, bitsOf w.toNat 9 5], g < 24 ∨ 30 < g) → bitsOf w.toNat 3 0 ≠ 0 →
        decodeRun fetch l h = .error (.reason 0x0C w)) := by
  have got : (fetch h).get = .ok w := by rw [hw]; rfl
  have slot : ∀ gs : List Nat, gs.any (fun g => decide (24 ≤ g) && decide (g ≤ 30)) = true ↔ ∃ g ∈ gs, 24 ≤ g ∧ g ≤ 30 := fun gs => by simp
  unfold decodeRun
  rw [got]
  dsimp only
  refine ⟨fun ho => if_pos ho, fun ho hn => ?_, fun ho h1 h24 hg => ?_, fun ho h1 h24 hg hz => ?_⟩
  · rw [if_neg (not_not.mpr ho), if_pos hn]
  · rw [if_neg (not_not.mpr ho), if_neg (by omega), if_pos ((slot _).mpr hg)]
  · rw [if_neg (not_not.mpr ho), if_neg (by omega), if_neg (mt (slot _).mp ?_), if_pos hz]
    rintro ⟨g, hm, hlo, hhi⟩
    have := hg g hm
    omega

end Sys2Proof.Proofs
end

section
/-! Exchanges of slice-warps (spec/02 R64), deadlock (13 R301), dispatch (02 R44, R45, R50, R53) and ageing (R66). -/

namespace Sys2Proof.Proofs

open Sys2Proof Sys2Proof.Machine Sys2Proof.Laws

/-! ### Exchanges -/

/-- What the Drover sees of a slice-warp is the slice-warp (R64). -/
theorem sw_of_survey {s : State} {p : Port} {x : Seen} (h : x ∈ survey s p) : x.sw = s.sw (swKey x.h.gid x.h.warp p.slice) := by
  obtain ⟨y, -, rfl⟩ := List.mem_map.mp h
  rfl

/-- The slice-warp that a swap takes is pending. -/
theorem mem_of_swapIn {xs : List Seen} {b : Seen} (h : swapIn xs = some b) : b ∈ xs ∧ b.sw.active = false := by
  obtain ⟨hm, hp⟩ := List.mem_filter.mp (mem_of_argMin h)
  simp only [Bool.and_eq_true, Bool.not_eq_true'] at hp
  exact ⟨hm, hp.1⟩

/-- An active slice-warp is another than one that is pending. -/
theorem swKey_ne_of_active {s : State} {p : Port} {a b : Seen} (ha : a ∈ survey s p) (hb : b ∈ survey s p) (haa : a.sw.active = true)
    (hba : b.sw.active = false) : swKey a.h.gid a.h.warp p.slice ≠ swKey b.h.gid b.h.warp p.slice := by
  intro e
  rw [sw_of_survey ha, e, ← sw_of_survey hb, hba] at haa
  cases haa

/-- The latches of a slice-warp that leaves the active set are lost (R57, R64). -/
def unlatched (k n : Nat) (s : State) : State := (upFrom 0 n).foldl (fun t l => updTh (thKey k l) (fun th => { th with latch := [], latchUni := [] }) t) s

theorem unlatched_spec (k n : Nat) (s : State) :
    { unlatched k n s with threads := s.threads } = s
    ∧ (∀ l < n, (unlatched k n s).thread (thKey k l) = { s.thread (thKey k l) with latch := [], latchUni := [] })
    ∧ ∀ j, (∀ l < n, j ≠ thKey k l) → (unlatched k n s).thread j = s.thread j := by
  refine ⟨?_, fun l hl => ?_, fun j hj => ?_⟩
  · exact List.foldlRecOn (motive := fun t : State => { t with threads := s.threads } = s) (upFrom 0 n) _ rfl fun t ht l _ => ht
  · refine foldl_reaches (n := l) (I := fun t => { t.thread (thKey k l) with latch := [], latchUni := [] } = { s.thread (thKey k l) with latch := [], latchUni := [] })
      (P := fun t => t.thread (thKey k l) = { s.thread (thKey k l) with latch := [], latchUni := [] }) (fun t a _ ht => ?_) (fun t ht => ?_)
      (fun t a _ ha ht => ?_) rfl (.inr (mem_upFrom.mpr (by omega)))
    · rw [thread_updTh]
      split_ifs with e
      · rw [← e]; exact ht
      · exact ht
    · rw [thread_updTh, if_pos rfl]; exact ht
    · rw [thread_updTh, if_neg (fun e => ha ((thKey_inj k).mp e).symm), ht]
  · refine List.foldlRecOn (motive := fun t : State => t.thread j = s.thread j) (upFrom 0 n) _ rfl fun t ht l hl => ?_
    rw [thread_updTh, if_neg (hj l (by have := mem_upFrom.mp hl; omega)), ht]

/-- Two different slice-warps change sets: the one that leaves loses its latches and stands pending from now, the other becomes active. -/
theorem swapSws_spec {p : Port} {out into : Held} (s : State)
    (hne : swKey out.gid out.warp p.slice ≠ swKey into.gid into.warp p.slice) :
    let t := swapSws p out into s
    let ka := swKey out.gid out.warp p.slice
    let kb := swKey into.gid into.warp p.slice
    { t with threads := s.threads, sws := s.sws, cores := s.cores, watches := s.watches } = s
    ∧ t.sw ka = { s.sw ka with active := false, pendSince := s.ticks, readySince := none } ∧ t.sw kb = { s.sw kb with active := true }
    ∧ (∀ k, k ≠ ka → k ≠ kb → t.sw k = s.sw k) ∧ (∀ k, (t.core k).uncounted = (s.core k).uncounted)
    ∧ (∀ l < out.g.launch.visible, t.thread (thKey ka l) = { s.thread (thKey ka l) with latch := [], latchUni := [] })
    ∧ ∀ k, (∀ l < out.g.launch.visible, k ≠ thKey ka l) → t.thread k = s.thread k := by
  intro t ka kb
  obtain ⟨u, hu⟩ : ∃ u, unlatched ka out.g.launch.visible s = u := ⟨_, rfl⟩
  obtain ⟨frame, latches, others⟩ := hu ▸ unlatched_spec ka out.g.launch.visible s
  obtain ⟨v, hv⟩ : ∃ v, updSw kb (fun x => { x with active := true })
      (updSw ka (fun x => { x with active := false, pendSince := u.ticks, readySince := none }) u) = v := ⟨_, rfl⟩
  have ht : t = bumpCounter p.core 3 1 v := by rw [← hv, ← hu]; rfl
  have hsw : ∀ k, v.sw k = if k = kb then { u.sw kb with active := true }
      else if k = ka then { u.sw ka with active := false, pendSince := u.ticks, readySince := none } else u.sw k := fun k => by
    rw [← hv, sw_updSw, sw_updSw, sw_updSw, if_neg (Ne.symm hne)]
  have usw : ∀ k, u.sw k = s.sw k := fun k => by rw [State.sw, State.sw, (congrArg State.sws frame :)]
  have uticks : u.ticks = s.ticks := (congrArg State.ticks frame :)
  have vthread : ∀ k, v.thread k = u.thread k := fun k => by rw [← hv]; rfl
  obtain ⟨count, -, cores⟩ := bumpCounter_spec p.core 3 1 v
  have tsw : ∀ k, t.sw k = v.sw k := fun k => by rw [ht, State.sw, State.sw, (congrArg State.sws count :)]
  have tthread : ∀ k, t.thread k = u.thread k := fun k => by rw [ht, ← vthread, State.thread, State.thread, threads_bumpCounter]
  refine ⟨?_, ?_, ?_, fun k hka hkb => ?_, fun k => ?_, fun l hl => ?_, fun k hk => ?_⟩
  · rw [ht]
    have swapped : { v with threads := s.threads, sws := s.sws } = s := by rw [← hv]; exact congrArg (fun y : State => { y with sws := s.sws }) frame
    exact (congrArg (fun y : State => { y with threads := s.threads, sws := s.sws, cores := s.cores, watches := s.watches }) count).trans
      (congrArg (fun y : State => { y with cores := s.cores, watches := s.watches }) swapped)
  · rw [tsw, hsw, if_neg hne, if_pos rfl, usw, uticks]
  · rw [tsw, hsw, if_pos rfl, usw]
  · rw [tsw, hsw, if_neg hkb, if_neg hka, usw]
  · rw [ht, cores]
    have : v.core k = s.core k := by rw [← hv]; exact (congrArg (fun y : State => y.core k) frame :)
    rw [this]
  · rw [tthread]; exact latches l hl
  · rw [tthread]; exact others k hk

theorem exec_droverSwap_swaps {s : State} {core : Nat} {sl : Slice} {a b : Seen} (hp : s.portRun ⟨core, sl⟩ = none)
    (ha : argMin (fun x => x.sw.lastIssue) ((survey s ⟨core, sl⟩).filter (fun x => x.sw.active && x.stalled s ⟨core, sl⟩)) = some a)
    (hb : swapIn (survey s ⟨core, sl⟩) = some b) :
    exec (.droverSwap core sl) s = .next (swapSws ⟨core, sl⟩ a.h b.h s)
    ∧ swKey a.h.gid a.h.warp sl ≠ swKey b.h.gid b.h.warp sl := by
  obtain ⟨hm, hact⟩ := List.mem_filter.mp (mem_of_argMin ha)
  obtain ⟨hbm, hbact⟩ := mem_of_swapIn hb
  refine ⟨?_, swKey_ne_of_active hm hbm ?_ hbact⟩
  · simp only [exec_droverSwap, execDroverSwap, hp, Option.isSome_none, Bool.false_eq_true, if_false, ha, hb]
  · simp only [Bool.and_eq_true] at hact
    exact hact.1

/-- Ready without issuing for 1,024 cycles (R64). -/
def longReady (s : State) (x : Seen) : Bool := match x.sw.readySince with | some t => decide (s.ticks - t ≥ 8192) | none => false

theorem exec_pendingLongWait_spec {s : State} {core : Nat} {sl : Slice} {a b : Seen} (hp : s.portRun ⟨core, sl⟩ = none)
    (ha : argMin (fun x => x.sw.lastIssue) ((survey s ⟨core, sl⟩).filter (·.sw.active)) = some a)
    (hb : swapIn ((survey s ⟨core, sl⟩).filter (longReady s)) = some b) :
    exec (.pendingLongWait core sl) s = .next (if a.prio > b.prio then s else swapSws ⟨core, sl⟩ a.h b.h s)
    ∧ swKey a.h.gid a.h.warp sl ≠ swKey b.h.gid b.h.warp sl := by
  obtain ⟨hm, hact⟩ := List.mem_filter.mp (mem_of_argMin ha)
  obtain ⟨hbm, hbact⟩ := mem_of_swapIn hb
  refine ⟨?_, swKey_ne_of_active hm (List.mem_filter.mp hbm).1 hact hbact⟩
  have run : exec (.pendingLongWait core sl) s = if (s.portRun ⟨core, sl⟩).isSome then .next s else
    match argMin (fun x => x.sw.lastIssue) ((survey s ⟨core, sl⟩).filter (·.sw.active)), swapIn ((survey s ⟨core, sl⟩).filter (longReady s)) with
    | some a, some b => if a.prio > b.prio then .next s else .next (swapSws ⟨core, sl⟩ a.h b.h s)
    | _, _ => .next s := rfl
  rw [run, hp, ha, hb]
  simp only [Option.isSome_none, Bool.false_eq_true, if_false]
  split_ifs <;> rfl

/-! ### Deadlock -/

theorem exec_decoupleDeadlock_spec {s : State} {gid warp : Nat} {g : Machine.Group} {a x : QWait} (hg : mget? s.groups gid = some g)
    (hr : g.phase = .running) (hc : 65536 ≤ deadlockCount s (pairKey gid warp)) (hs : pairStuck s gid g warp = some (a, x)) :
    let lane := Nat.min a.lane x.lane
    exec (.decoupleDeadlock gid warp) s = .next (takeFault ⟨.decoupleDeadlock, gid, warp, 1, lane, false, standingPc s g gid warp .execute,
      some (standingPc s g gid warp .access), 0,
      lane + a.q * 2 ^ 8 + queueLevel s gid warp lane a.q * 2 ^ 16 + x.q * 2 ^ 24 + queueLevel s gid warp lane x.q * 2 ^ 32⟩ s) := by
  have due : ¬ (g.phase ≠ .running ∨ deadlockCount s (pairKey gid warp) < 65536) := not_or.mpr ⟨not_not.mpr hr, by omega⟩
  simp only [exec_decoupleDeadlock, execDecoupleDeadlock, hg, if_neg due, hs]

/-! ### Changes of one grid or one region -/

theorem mput_mput {α : Type} (x : SMap α) (i : Nat) (a b : α) : mput (mput x i a) i b = mput x i b := by
  induction x with
  | nil => simp [mput]
  | cons e x ih =>
    obtain ⟨k, v⟩ := e
    rw [mput, mput]
    split_ifs with h1 h2
    · simp [mput]
    · simp [mput]
    · rw [mput, if_neg h1, if_neg h2, ih]

theorem updGrid_of {s : State} {m h : Nat} {x : Grid} (hx : mget? (s.mod m).grids h = some x) (f : Grid → Grid) :
    updGrid m h f s = updMod m (fun y => { y with grids := mput y.grids h (f x) }) s := by
  simp only [updGrid, hx]

theorem updRegion_of {s : State} {m i : Nat} {r : Region} (hr : mget? (s.mod m).regions i = some r) (f : Region → Region) :
    updRegion m i f s = updMod m (fun y => { y with regions := mput y.regions i (f r) }) s := by
  simp only [updRegion, hr]

theorem modTurns_trans {s t u : State} {m : Nat} {x y : ModSt} (h : ModTurns s t m x []) (g : ModTurns t u m y []) : ModTurns s u m y [] where
  rest := (congrArg (fun z : State => { z with mods := s.mods, hostOut := s.hostOut }) g.rest :).trans h.rest
  value := g.value
  others j hj := (g.others j hj).trans (h.others j hj)
  told := by rw [g.told, h.told, List.append_nil, List.append_nil]

theorem modTurns_updRegion {s : State} {m i : Nat} {r : Region} (hr : mget? (s.mod m).regions i = some r) (f : Region → Region) :
    ModTurns s (updRegion m i f s) m { s.mod m with regions := mput (s.mod m).regions i (f r) } [] := by
  rw [updRegion_of hr]
  exact modTurns_updMod m _ s

/-! ### Dependencies -/

section
variable {s : State} {m h : Nat} {x : Grid} (hx : mget? (s.mod m).grids h = some x) (hw : x.state = .waiting) (h0 : x.status = 0)
  (hd : dependencyMet s m x = true) (he : earlierDispatched s m x = true)
include hx hw h0 hd he

/-- GRID_DEPENDENCY_MET of a grid whose dependency is met (R44, R45, R53). -/
theorem exec_gridDependencyMet_spec : exec (.gridDependencyMet m h) s =
    let u := updGrid m h (fun y => { y with state := .dispatching, dist := 0 }) s
    .next (if x.launch.persistent = false then u
      else if awaitsResume s m x.launch.region = true ∨ higherFirst s m x.launch.region = true then s
      else (placeAll m h x.launch.ngroups u).getD s) := by
  have ready : ¬ (x.state ≠ .waiting ∨ x.status ≠ 0 ∨ dependencyMet s m x = false ∨ earlierDispatched s m x = false) := by simp [hw, h0, hd, he]
  simp only [exec_gridDependencyMet, execGridDependencyMet, hx, if_neg ready, Bool.not_eq_true', Bool.or_eq_true]
  split_ifs <;> rfl

end

theorem modTurns_dispatching {s : State} {m h : Nat} {x : Grid} (hx : mget? (s.mod m).grids h = some x) :
    ModTurns s (updGrid m h (fun y => { y with state := .dispatching, dist := 0 }) s) m
      { s.mod m with grids := mput (s.mod m).grids h { x with state := .dispatching, dist := 0 } } [] := by
  rw [updGrid_of hx]
  exact modTurns_updMod m _ s

/-! ### The dispatcher (R50) -/

/-- The first grid that has room is placed: those before it have none. -/
theorem placeFirst_append {m h : Nat} {u t : State} {before after_ : List Nat} (hb : ∀ j ∈ before, placeNext m j u = none)
    (hp : placeNext m h u = some t) : placeFirst m (before ++ h :: after_) u = some t := by
  induction before with
  | nil => simp only [List.nil_append, placeFirst, hp]
  | cons j before ih =>
    rw [List.cons_append, placeFirst, hb j (.head _)]
    exact ih fun k hk => hb k (.tail _ hk)

/-- GROUP_PLACE offers a placement to the first region in order, and what it places is placed (R50, R51). -/
theorem exec_groupPlace_spec {s t : State} {m i h : Nat} {x : Grid} {rest : List Nat} {before after_ : List (Nat × Grid)} {u : State}
    (hu : ((s.mod m).regions.map (·.1)).foldl (fun t j => settleRequest m j t) s = u)
    (ho : regionOrder u m (servable u m).length (servable u m) = i :: rest) (hg : waitingGrids u m i = before ++ (h, x) :: after_)
    (hb : ∀ e ∈ before, placeNext m e.1 u = none) (hp : placeNext m h u = some t) :
    exec (.groupPlace m) s = .next (((s.mod m).regions.map (·.1)).foldl (fun y j => noteWaiting m j y) (settleRequest m i t)) := by
  have first : placeFirst m ((waitingGrids u m i).map (·.1)) u = some t := by
    rw [hg, List.map_append, List.map_cons]
    exact placeFirst_append (List.forall_mem_map.mpr hb) hp
  simp only [exec_groupPlace, execGroupPlace, hu, ho, offer, first]

/-! ### Ageing (R66) -/

section
variable {s : State} {m i : Nat} {r : Region} (hr : mget? (s.mod m).regions i = some r)
include hr

/-- A region that waits no more has lost its raise. -/
theorem exec_priorityAging_idle (hw : regionWaiting s m i = false) : ∃ t, exec (.priorityAging m i) s = .next t
    ∧ ModTurns s t m { s.mod m with regions := mput (s.mod m).regions i { r with raised := 0, waitSince := none } } [] := by
  have note : noteWaiting m i s = updRegion m i (fun y => { y with raised := 0, waitSince := none }) s := if_neg (ne_true_of_eq_false hw)
  have turns := modTurns_updRegion hr (fun y => { y with raised := 0, waitSince := none })
  rw [← note] at turns
  have held : mget? ((noteWaiting m i s).mod m).regions i = some { r with raised := 0, waitSince := none } := by
    rw [turns.value]; exact mget?_mput_self _ _ _
  exact ⟨noteWaiting m i s, by simp only [exec_priorityAging, execPriorityAging, held], turns⟩

/-- A region that waits: it rises by a level each 10 ms, up to the cap. -/
theorem exec_priorityAging_waiting (hw : regionWaiting s m i = true) :
    let u := noteWaiting m i s
    let since := r.waitSince.getD s.ticks
    let up := if effPrio u m i < agingCap u m (rootOf u m i) i then r.raised + 1 else r.raised
    let r' := if s.ticks - since < 160000000 then { r with waitSince := some since } else { r with raised := up, waitSince := some s.ticks }
    ∃ t, exec (.priorityAging m i) s = .next t ∧ ModTurns s t m { s.mod m with regions := mput (s.mod m).regions i r' } [] := by
  intro u since up r'
  have note : u = updRegion m i (fun y => { y with waitSince := some (y.waitSince.getD s.ticks) }) s := if_pos hw
  have turns := modTurns_updRegion hr (fun y => { y with waitSince := some (y.waitSince.getD s.ticks) })
  rw [← note] at turns
  have held : mget? (u.mod m).regions i = some { r with waitSince := some since } := by
    rw [turns.value]; exact mget?_mput_self _ _ _
  have ticks : u.ticks = s.ticks := by rw [note]; exact updRegion_ticks _ _ _ _
  have run : exec (.priorityAging m i) s = .next (if s.ticks - since < 160000000 then u
      else updRegion m i (fun y => { y with raised := up, waitSince := some s.ticks }) u) := by
    simp only [exec_priorityAging, execPriorityAging]
    rw [show noteWaiting m i s = u from rfl, held]
    simp only [ticks]
    by_cases early : s.ticks - since < 160000000
    · simp only [since] at early ⊢
      rw [if_pos early, if_pos early]
    · simp only [since] at early ⊢
      rw [if_neg early, if_neg early]
  refine ⟨_, run, ?_⟩
  simp only [r']
  split_ifs
  · exact turns
  · have risen := modTurns_trans turns (modTurns_updRegion held (fun y => { y with raised := up, waitSince := some s.ticks }))
    rw [turns.value] at risen
    simpa only [mput_mput] using risen

end

end Sys2Proof.Proofs
end

section
/-! Placing the next group of a grid (spec/02 R47, R51, R52; 05 R123), and the obligation over issue and scheduling. -/

namespace Sys2Proof.Proofs

open Sys2Proof Sys2Proof.Machine Sys2Proof.Laws

/-! ### The threads of a new group (R123) -/

theorem swKey_inj {gid w w' : Nat} {sl sl' : Slice} (h : swKey gid w sl = swKey gid w' sl') : w = w' ∧ sl = sl' := by
  unfold swKey at h
  cases sl <;> cases sl' <;> simp only [Slice.code, reduceCtorEq, and_false, and_true] at h ⊢ <;> omega

theorem visible_le {l : Launch} (h : l.width ≤ 2) : l.visible ≤ 64 := by
  have hw : 2 ^ l.width ≤ 2 ^ 2 := Nat.pow_le_pow_right (by omega) h
  unfold Launch.visible Launch.lanes
  split_ifs <;> omega

/-- A slice-warp at its start, pending from now. -/
def newSw (now : Nat) : SliceWarp := { SliceWarp.start with active := false, pendSince := now }

/-- A thread at its slice's entry point. -/
def newThread (l : Launch) (sl : Slice) : Thread :=
  { Thread.start with pc := BitVec.ofNat 64 (l.code + 4 * (if sl = .access then l.aentry else l.xentry)) }

/-- One slice-warp of a new group starts. -/
def startSw (gid : Nat) (l : Launch) (now : Nat) (s : State) (p : Nat × Slice) : State :=
  (threadsOf gid p.1 p.2 l).foldl (fun u i => updTh i (fun _ => newThread l p.2) u) (updSw (swKey gid p.1 p.2) (fun _ => newSw now) s)

theorem startThreads_eq (gid : Nat) (l : Launch) (s : State) : startThreads gid l s = (swsOf l).foldl (startSw gid l s.ticks) s := by
  refine List.foldl_ext _ _ s fun t p _ => ?_
  obtain ⟨w, sl⟩ := p
  cases sl <;> rfl

/-- Threads of a slice-warp that start, each once, have started, and no other thread has. -/
theorem thread_foldl_const (k : Nat) (th : Thread) (ls : List Nat) (s : State) (j : Nat) :
    ((ls.map (thKey k)).foldl (fun u i => updTh i (fun _ => th) u) s).thread j = if j ∈ ls.map (thKey k) then th else s.thread j := by
  induction ls generalizing s with
  | nil => rfl
  | cons l ls ih =>
    rw [List.map_cons, List.foldl_cons, ih, thread_updTh]
    by_cases h : j = thKey k l
    · simp [h]
    · simp [h]

section
variable (gid : Nat) (l : Launch) (now : Nat) (s : State) (p : Nat × Slice)

theorem startSw_frame : { startSw gid l now s p with threads := s.threads, sws := s.sws } = s := by
  refine List.foldlRecOn (motive := fun t : State => { t with threads := s.threads, sws := s.sws } = s) _ _ rfl fun t ht i _ => ht

theorem sw_startSw (k : Nat) : (startSw gid l now s p).sw k = if k = swKey gid p.1 p.2 then newSw now else s.sw k := by
  rw [startSw, foldl_keep (fun t : State => t.sw k) (fun u i => updTh i (fun _ => newThread l p.2) u) (fun _ _ => rfl), sw_updSw]

theorem thread_startSw (j : Nat) :
    (startSw gid l now s p).thread j = if j ∈ threadsOf gid p.1 p.2 l then newThread l p.2 else s.thread j := thread_foldl_const _ _ _ _ j

end

theorem mem_threadsOf {gid w j : Nat} {sl : Slice} {l : Launch} : j ∈ threadsOf gid w sl l ↔ ∃ i < l.visible, j = thKey (swKey gid w sl) i := by
  simp only [threadsOf, List.mem_map, mem_upFrom]
  constructor
  · rintro ⟨i, hi, rfl⟩
    exact ⟨i, by omega, rfl⟩
  · rintro ⟨i, hi, rfl⟩
    exact ⟨i, by omega, rfl⟩

/-- A new group's slice-warps and threads stand at their start; nothing else changes. -/
theorem startThreads_spec {gid : Nat} {l : Launch} (hv : l.visible ≤ 64) (s : State) :
    { startThreads gid l s with threads := s.threads, sws := s.sws } = s
    ∧ ∀ w sl, (w, sl) ∈ swsOf l → (startThreads gid l s).sw (swKey gid w sl) = newSw s.ticks
      ∧ ∀ i < l.visible, (startThreads gid l s).thread (thKey (swKey gid w sl) i) = newThread l sl := by
  rw [startThreads_eq]
  generalize s.ticks = now
  refine ⟨?_, fun w sl hm => ?_⟩
  · refine List.foldlRecOn (motive := fun t : State => { t with threads := s.threads, sws := s.sws } = s) _ _ rfl fun t ht p _ => ?_
    exact (congrArg (fun y : State => { y with threads := s.threads, sws := s.sws }) (startSw_frame gid l now t p)).trans ht
  · refine foldl_reaches (n := (w, sl)) (I := fun _ => True)
      (P := fun t => t.sw (swKey gid w sl) = newSw now ∧ ∀ i < l.visible, t.thread (thKey (swKey gid w sl) i) = newThread l sl)
      (fun _ _ _ h => h) (fun t _ => ⟨?_, fun i hi => ?_⟩) (fun t p _ hp ht => ⟨?_, fun i hi => ?_⟩) trivial (.inr hm)
    · rw [sw_startSw, if_pos rfl]
    · rw [thread_startSw, if_pos (mem_threadsOf.mpr ⟨i, hi, rfl⟩)]
    · rw [sw_startSw, ht.1, ite_self]
    · have other : thKey (swKey gid w sl) i ∉ threadsOf gid p.1 p.2 l := fun hj => by
        obtain ⟨j, hj, e⟩ := mem_threadsOf.mp hj
        have : swKey gid w sl = swKey gid p.1 p.2 := by unfold thKey at e; omega
        obtain ⟨rfl, rfl⟩ := swKey_inj this
        exact hp rfl
      rw [thread_startSw, if_neg other, ht.2 i hi]

/-! ### A group comes to its core (R41, R51, R52) -/

/-- A core that takes a group changes, and what its scratchpad held is gone: nothing else differs. -/
theorem bringGroup_frame (k gid m root h width : Nat) (s : State) :
    { bringGroup k gid m root h width s with cores := s.cores, mem := s.mem, poison := s.poison } = s := by
  unfold bringGroup takeCore
  dsimp only
  split_ifs <;> rfl

/-- The group that the next placement makes, on a core that it was brought to. -/
def newGroup (u : State) (m h : Nat) (x : Grid) (k vbase off : Nat) : Machine.Group :=
  { m := m, grid := h, index := x.placed, region := x.launch.region, root := x.root, launch := x.launch, core := k, window := vbase, spadOff := off
    phase := .running, tags := [], preq := false, drain := false, pdlcFrom := none
    slots := (((freeSlots u k).take x.launch.bars).zip (upFrom 0 x.launch.bars)).map (fun p => (p.2, { Slot.start with phys := p.1 }))
    acc := [], triggered := false, placedAt := u.ticks, halt := none, recordVa := 0, recordOk := false, haltPc := 0, forced := false
    debug := false, discard := false, drainFrom := none, resumeFault := none, stopped := [], exitAfter := none }

/-- What a placed group is of its grid and its place. -/
structure PlacedAs (g : Machine.Group) (m h : Nat) (x : Grid) (k vbase off : Nat) : Prop where
  m : g.m = m
  grid : g.grid = h
  index : g.index = x.placed
  region : g.region = x.launch.region
  root : g.root = x.root
  launch : g.launch = x.launch
  core : g.core = k
  window : g.window = vbase
  spadOff : g.spadOff = off
  phase : g.phase = .running
  tags : g.tags = []
  preq : g.preq = false
  halt : g.halt = none

/-- A grid of `n` groups with one group more placed: it is RESIDENT after its last (R50). -/
def placedGrid (n : Nat) (x : Grid) : Grid := { x with placed := x.placed + 1, state := if x.placed + 1 ≥ n then .resident else x.state }

theorem placeGroup_spec {s : State} {m h : Nat} {x : Grid} (hx : mget? (s.mod m).grids h = some x) (hw : x.launch.width ≤ 2) (k vbase off : Nat) :
    ∃ g, PlacedAs g m h x k vbase off
      ∧ (let t := placeGroup m h x k vbase off s
        t.groups = mput s.groups s.nextId g ∧ t.nextId = s.nextId + 1
        ∧ t.mod m = { s.mod m with grids := mput (s.mod m).grids h (placedGrid x.launch.ngroups x) }
        ∧ ∀ w sl, (w, sl) ∈ swsOf x.launch → t.sw (swKey s.nextId w sl) = newSw s.ticks
          ∧ ∀ i < x.launch.visible, t.thread (thKey (swKey s.nextId w sl) i) = newThread x.launch sl) := by
  obtain ⟨u, hu⟩ : ∃ u, bringGroup k s.nextId m x.root h x.launch.width { s with nextId := s.nextId + 1 } = u := ⟨_, rfl⟩
  have brought := bringGroup_frame k s.nextId m x.root h x.launch.width { s with nextId := s.nextId + 1 }
  rw [hu] at brought
  obtain ⟨g, e, hg⟩ : ∃ g, placeGroup m h x k vbase off s
      = updGrid m h (placedGrid x.launch.ngroups) (startThreads s.nextId x.launch { u with groups := mput u.groups s.nextId g })
      ∧ PlacedAs g m h x k vbase off := by
    refine ⟨newGroup u m h x k vbase off, ?_, rfl, rfl, rfl, rfl, rfl, rfl, rfl, rfl, rfl, rfl, rfl, rfl, rfl⟩
    rw [← hu]
    rfl
  refine ⟨g, hg, ?_⟩
  rw [e]
  obtain ⟨v, hv⟩ : ∃ v, startThreads s.nextId x.launch { u with groups := mput u.groups s.nextId g } = v := ⟨_, rfl⟩
  obtain ⟨frame, started⟩ := hv ▸ startThreads_spec (gid := s.nextId) (visible_le hw) { u with groups := mput u.groups s.nextId g }
  have vmods : v.mods = s.mods := (congrArg State.mods frame :).trans (congrArg State.mods brought :)
  have vgroups : v.groups = mput s.groups s.nextId g :=
    (congrArg State.groups frame :).trans (congrArg (fun y : State => mput y.groups s.nextId g) brought :)
  have vnext : v.nextId = s.nextId + 1 := (congrArg State.nextId frame :).trans (congrArg State.nextId brought :)
  have uticks : u.ticks = s.ticks := (congrArg State.ticks brought :)
  have vmod : v.mod m = s.mod m := by rw [State.mod, State.mod, vmods]
  rw [hv, updGrid_of (x := x) (by rw [vmod]; exact hx)]
  refine ⟨vgroups, vnext, by rw [mod_updMod_self, vmod], fun w sl hm => ?_⟩
  rw [← uticks]
  exact started w sl hm

/-- The next group of a grid comes to the first window from the cursor that has room (R51). -/
theorem placeNext_spec {s : State} {m h : Nat} {x : Grid} {r : Region} {k vbase off : Nat} (hx : mget? (s.mod m).grids h = some x)
    (hr : mget? (s.mod m).regions x.launch.region = some r)
    (hf : findWindow s m x.root x.launch.region x.launch (fromCursor (windowsOf s m x.root x.launch.region) r.cursor) = some (k, vbase, off))
    (hw : x.launch.width ≤ 2) :
    ∃ t g, placeNext m h s = some t ∧ PlacedAs g m h x k vbase off ∧ t.groups = mput s.groups s.nextId g ∧ t.nextId = s.nextId + 1
      ∧ mget? (t.mod m).grids h = some (placedGrid x.launch.ngroups x) ∧ (∃ r', mget? (t.mod m).regions x.launch.region = some r' ∧ r'.cursor = vbase + 1)
      ∧ ∀ w sl, (w, sl) ∈ swsOf x.launch → t.sw (swKey s.nextId w sl) = newSw s.ticks
        ∧ ∀ i < x.launch.visible, t.thread (thKey (swKey s.nextId w sl) i) = newThread x.launch sl := by
  obtain ⟨u, hu⟩ : ∃ u, updMod m (fun y => { y with turn := (s.mod m).turn + 1 }) s = u := ⟨_, rfl⟩
  have umod : u.mod m = { s.mod m with turn := (s.mod m).turn + 1 } := by rw [← hu, mod_updMod_self]
  have ux : mget? (u.mod m).grids h = some x := by rw [umod]; exact hx
  obtain ⟨g, placed, groups, next, mod, started⟩ := placeGroup_spec ux hw k vbase off
  obtain ⟨v, hv⟩ : ∃ v, placeGroup m h x k vbase off u = v := ⟨_, rfl⟩
  rw [hv] at groups next mod started
  have vr : mget? (v.mod m).regions x.launch.region = some r := by rw [mod, umod]; exact hr
  refine ⟨updRegion m x.launch.region (fun r => { r with
      cursor := vbase + 1, served := (s.mod m).turn + 1, request := usedRequest u k r.request }) v, g, ?_, placed, ?_, ?_, ?_, ?_, ?_⟩
  · simp only [placeNext, hx, hr, hf, hu, hv]
  · rw [updRegion_groups, groups, ← hu]; rfl
  · rw [updRegion_nextId, next, ← hu]; rfl
  · rw [updRegion_of vr, mod_updMod_self, mod]
    exact mget?_mput_self _ _ _
  · rw [updRegion_of vr, mod_updMod_self]
    exact ⟨_, mget?_mput_self _ _ _, rfl⟩
  · rw [updRegion_of vr]
    have unext : u.nextId = s.nextId := by rw [← hu]; rfl
    have uticks : u.ticks = s.ticks := by rw [← hu]; rfl
    rw [← unext, ← uticks]
    exact started

/-! ### The obligation -/

/-- Settles O53, step by step: each step of the Drovers and of the dispatcher has its lemma. -/
theorem issueAndScheduling : Obligations.IssueAndScheduling := by
  unfold Obligations.IssueAndScheduling
  refine ⟨?issue, fun s core gid g warp sl pg r h => verdict_ready_iff h, fun fetch l h w hw => decodeRun_bad_header hw, ?exchange,
    fun s gid warp g a x hg hr hc hs => exec_decoupleDeadlock_spec hg hr hc hs, ?place, ?placed, ?dependency, ?aging⟩
  case issue =>
    intro s core sl p u xs v chosen
    obtain ⟨busy, boundary⟩ := exec_runIssue_spec (s := s) (core := core) (sl := sl)
    refine ⟨busy, fun hp hd => ?_⟩
    obtain ⟨runs, stops, idle⟩ := boundary hp hd
    refine ⟨fun x pg r hc hk _ => ?_, stops, idle⟩
    have before : OnlyDrover s v := (onlyDrover_surveyed p s).trans (onlyDrover_noted p xs u)
    have begun := onlyDrover_beginRun p x.h pg r v
    obtain ⟨⟨skip, run⟩, last, threads⟩ := beginRun_spec p x.h pg r v
    exact ⟨_, _, runs x pg r hc hk, run, rfl, rfl, rfl, rfl, rfl, rfl, rfl, rfl, rfl, rfl, begun.mem.trans before.mem, begun.queues, begun.groups,
      begun.ticks.trans before.ticks, last, threads⟩
  case exchange =>
    intro s core sl a b p xs ka kb swaps hp
    have done : ∀ i, exec i s = .next (swapSws p a.h b.h s) ∧ ka ≠ kb → swaps i := fun i ⟨run, hne⟩ => ⟨_, run, swapSws_spec s hne⟩
    refine ⟨fun ha hb => done _ (exec_droverSwap_swaps hp ha hb), fun ha hb => ?_⟩
    obtain ⟨run, hne⟩ := exec_pendingLongWait_spec hp ha hb
    exact ⟨fun h => done _ ⟨run.trans (congrArg _ (if_neg (by omega))), hne⟩, fun h => run.trans (congrArg _ (if_pos h))⟩
  case place =>
    intro s m i h rest before after_ x t regions u ho hg hb hp
    exact exec_groupPlace_spec rfl ho hg hb hp
  case placed =>
    intro s m h x r k vbase off hx hr hf hw
    obtain ⟨t, g, run, as, groups, next, grid, cursor, started⟩ := placeNext_spec hx hr hf hw
    refine ⟨t, g, run, by rw [groups]; exact mget?_mput_self _ _ _, next, as.m, as.grid, as.index, as.region, as.root, as.launch, as.core, as.window,
      as.spadOff, as.phase, as.tags, as.preq, as.halt, fun j hj => by rw [groups]; exact mget?_mput_ne _ _ hj, ⟨_, grid, rfl⟩, cursor, started⟩
  case dependency =>
    intro s m h x hx hw h0 hd he
    have run := exec_gridDependencyMet_spec hx hw h0 hd he
    dsimp only at run
    refine ⟨fun hp => ⟨_, run.trans (congrArg _ (if_pos hp)), modTurns_dispatching hx⟩, fun hp h => ?_, fun hp ha hh => ?_⟩
    · rw [run, if_neg (ne_false_of_eq_true hp), if_pos h]
    · rw [run, if_neg (ne_false_of_eq_true hp), if_neg (not_or.mpr ⟨ne_true_of_eq_false ha, ne_true_of_eq_false hh⟩)]
      refine ⟨fun t ht => ?_, fun ht => ?_⟩
      · rw [ht]; rfl
      · rw [ht]; rfl
  case aging =>
    intro s m i r hr ages u since
    refine ⟨fun hw => exec_priorityAging_idle hr hw, fun hw => ?_⟩
    have aged := exec_priorityAging_waiting hr hw
    dsimp only at aged
    refine ⟨fun h => ?_, fun h hc => ?_, fun h hc => ?_⟩
    · rw [if_pos h] at aged
      exact aged
    · rw [if_neg (Nat.not_lt.mpr h), if_pos hc] at aged
      exact aged
    · rw [if_neg (Nat.not_lt.mpr h), if_neg (Nat.not_lt.mpr hc)] at aged
      exact aged

end Sys2Proof.Proofs
end

section
/-! Decoding and encoding (spec/04 R97 to R103, R111). The fields that a decoder takes from a word are the whole word, so what each row of the
opcode map reads is what the encoder lays out for it. -/

namespace Sys2Proof.Proofs

open Sys2Proof Sys2Proof.Machine Sys2Proof.Laws

/-! ### A word is its fields (R98, R101) -/

theorem bit1_extract (w : W32) (i : Nat) : bit1 (w.extractLsb' i 1 == 1#1) = w.extractLsb' i 1 := by
  generalize w.extractLsb' i 1 = b
  revert b
  decide

theorem extract_op {op : BitVec 7} {w : W32} (h : opOf w = op.toNat) : op = w.extractLsb' 25 7 := by
  apply BitVec.eq_of_toNat_eq
  rw [← h, opOf, BitVec.extractLsb'_toNat, Nat.shiftRight_eq_div_pow]
  omega

section
variable {op : BitVec 7} {w : W32} (h : opOf w = op.toNat)
include h

theorem packR_unpackR : packR op (unpackR w) = w := by
  rw [extract_op h]
  simp (disch := decide) only [packR, unpackR, dOf, aOf, bOf, nwOf, gselOf, gnOf, bit1_extract, BitVec.extractLsb'_append_extractLsb'_eq_extractLsb']
  exact BitVec.extractLsb'_eq_self

theorem packJ_unpackJ : packJ op (unpackJ w) = w := by
  rw [extract_op h]
  simp (disch := decide) only [packJ, unpackJ, nwOf, gselOf, gnOf, bit1_extract, BitVec.extractLsb'_append_extractLsb'_eq_extractLsb']
  exact BitVec.extractLsb'_eq_self

theorem packMJ_unpackMJ : packMJ op (unpackMJ w) = w := by
  rw [extract_op h]
  simp (disch := decide) only [packMJ, unpackMJ, nwOf, gselOf, gnOf, bit1_extract, BitVec.extractLsb'_append_extractLsb'_eq_extractLsb']
  exact BitVec.extractLsb'_eq_self

theorem packXC_unpackXC : packXC op (unpackXC w) = w := by
  rw [extract_op h]
  simp (disch := decide) only [packXC, unpackXC, dOf, aOf, bOf, gnOf, bit1_extract, BitVec.extractLsb'_append_extractLsb'_eq_extractLsb']
  exact BitVec.extractLsb'_eq_self

theorem packS_unpackS {sub : BitVec 7} (hs : (bOf w).toNat = sub.toNat) : packS op sub (unpackS w) = w := by
  rw [extract_op h, ← BitVec.eq_of_toNat_eq hs]
  simp (disch := decide) only [packS, unpackS, dOf, aOf, bOf, nwOf, gselOf, gnOf, bit1_extract, BitVec.extractLsb'_append_extractLsb'_eq_extractLsb']
  exact BitVec.extractLsb'_eq_self

theorem packK_unpackK {sub : BitVec 3} (hs : (w.extractLsb' 8 3).toNat = sub.toNat) : packK op sub (unpackK w) = w := by
  rw [extract_op h, ← BitVec.eq_of_toNat_eq hs]
  simp (disch := decide) only [packK, unpackK, dOf, aOf, nwOf, gselOf, gnOf, bit1_extract, BitVec.extractLsb'_append_extractLsb'_eq_extractLsb']
  exact BitVec.extractLsb'_eq_self

theorem packC_unpackC {sub : BitVec 7} (hs : (dOf w).toNat = sub.toNat) : packC op sub (unpackC w) = w := by
  rw [extract_op h, ← BitVec.eq_of_toNat_eq hs]
  simp (disch := decide) only [packC, unpackC, dOf, aOf, bOf, nwOf, gselOf, gnOf, bit1_extract, BitVec.extractLsb'_append_extractLsb'_eq_extractLsb']
  exact BitVec.extractLsb'_eq_self

theorem packX_unpackX {sub : BitVec 7} (hs : (dOf w).toNat = sub.toNat) : packX op sub (unpackX w) = w := by
  rw [extract_op h, ← BitVec.eq_of_toNat_eq hs]
  simp (disch := decide) only [packX, unpackX, dOf, aOf, bOf, gnOf, bit1_extract, BitVec.extractLsb'_append_extractLsb'_eq_extractLsb']
  exact BitVec.extractLsb'_eq_self

end

/-! ### The words of a row (R106, R111) -/

/-- Of a word and the word after it, those that decoding reads: both where the opcode has a two-word form. -/
def wordsRead (w x : W32) : List W32 := if formWords (opOf w) = 2 then [w, x] else [w]

section
variable {i : Instr} {op : BitVec 7} {u w x : W32}

theorem encode_short (he : encode i = [u]) (hu : u = w) (hf : formWords (opOf w) = 1) : encode i = wordsRead w x := by
  rw [he, hu, wordsRead, hf, if_neg (by decide)]

theorem encode_long (he : encode i = [u, x]) (hu : u = w) (hf : formWords (opOf w) = 2) : encode i = wordsRead w x := by
  rw [he, hu, wordsRead, hf, if_pos rfl]

theorem encode_unpackR {c : RWord → Instr} (he : ∀ v, encode (c v) = [packR op v]) (hf : formWords op.toNat = 1)
    (e : opOf w = op.toNat) : encode (c (unpackR w)) = wordsRead w x :=
  encode_short (he _) (packR_unpackR e) (e ▸ hf)
theorem encode_unpackR_long {c : RWord → W32 → Instr} (he : ∀ v y, encode (c v y) = [packR op v, y]) (hf : formWords op.toNat = 2)
    (e : opOf w = op.toNat) : encode (c (unpackR w) x) = wordsRead w x :=
  encode_long (he _ _) (packR_unpackR e) (e ▸ hf)
theorem encode_unpackJ {c : JWord → Instr} (he : ∀ v, encode (c v) = [packJ op v]) (hf : formWords op.toNat = 1)
    (e : opOf w = op.toNat) : encode (c (unpackJ w)) = wordsRead w x :=
  encode_short (he _) (packJ_unpackJ e) (e ▸ hf)
theorem encode_unpackMJ {c : MJWord → Instr} (he : ∀ v, encode (c v) = [packMJ op v]) (hf : formWords op.toNat = 1)
    (e : opOf w = op.toNat) : encode (c (unpackMJ w)) = wordsRead w x :=
  encode_short (he _) (packMJ_unpackMJ e) (e ▸ hf)
theorem encode_unpackXC {c : XCWord → W32 → Instr} (he : ∀ v y, encode (c v y) = [packXC op v, y]) (hf : formWords op.toNat = 2)
    (e : opOf w = op.toNat) : encode (c (unpackXC w) x) = wordsRead w x :=
  encode_long (he _ _) (packXC_unpackXC e) (e ▸ hf)
theorem encode_unpackS {c : SWord → Instr} {sub : BitVec 7} (he : ∀ v, encode (c v) = [packS op sub v]) (hf : formWords op.toNat = 1)
    (e : opOf w = op.toNat) (hs : (bOf w).toNat = sub.toNat) : encode (c (unpackS w)) = wordsRead w x :=
  encode_short (he _) (packS_unpackS e hs) (e ▸ hf)
theorem encode_unpackK {c : KWord → Instr} {sub : BitVec 3} (he : ∀ v, encode (c v) = [packK op sub v]) (hf : formWords op.toNat = 1)
    (e : opOf w = op.toNat) (hs : (w.extractLsb' 8 3).toNat = sub.toNat) : encode (c (unpackK w)) = wordsRead w x :=
  encode_short (he _) (packK_unpackK e hs) (e ▸ hf)
theorem encode_unpackC {c : CWord → W32 → Instr} {sub : BitVec 7} (he : ∀ v y, encode (c v y) = [packC op sub v, y]) (hf : formWords op.toNat = 2)
    (e : opOf w = op.toNat) (hs : (dOf w).toNat = sub.toNat) : encode (c (unpackC w) x) = wordsRead w x :=
  encode_long (he _ _) (packC_unpackC e hs) (e ▸ hf)
theorem encode_unpackX {c : XWord → W32 → Instr} {sub : BitVec 7} (he : ∀ v y, encode (c v y) = [packX op sub v, y]) (hf : formWords op.toNat = 2)
    (e : opOf w = op.toNat) (hs : (dOf w).toNat = sub.toNat) : encode (c (unpackX w) x) = wordsRead w x :=
  encode_long (he _ _) (packX_unpackX e hs) (e ▸ hf)

end

/-- The encoder lays out the words from which an instruction was decoded, row by row of the opcode map. -/
theorem encode_of_decodeWords {w x : W32} {i : Instr} (h : decodeWords w x = .ok i) : encode i = wordsRead w x := by
  unfold decodeWords at h
  split at h
  -- The rows that an opcode alone names, each in one of the five layouts without a sub-operation.
  any_goals (cases h <;> first
    | exact encode_unpackR (fun _ => rfl) rfl ‹_›
    | exact encode_unpackR_long (fun _ _ => rfl) rfl ‹_›
    | exact encode_unpackJ (fun _ => rfl) rfl ‹_›
    | exact encode_unpackMJ (fun _ => rfl) rfl ‹_›
    | exact encode_unpackXC (fun _ _ => rfl) rfl ‹_›)
  -- The opcodes with sub-operations, which stand in B, in B[6:4] or in D.
  all_goals
    simp only [decodeSub1F, decodeSub5A, decodeSub66, decodeSub6C, decodeSub6D, decodeSub6F, decodeSub76, decodeSub78, decodeSub7A, decodeSub7B,
      decodeSub7C, decodeSub7D, decodeSub7E, decodeSub7F] at h
    split at h <;> cases h
  all_goals first
    | exact encode_unpackS (fun _ => rfl) rfl ‹opOf w = _› ‹_›
    | exact encode_unpackK (fun _ => rfl) rfl ‹opOf w = _› ‹_›
    | exact encode_unpackC (fun _ _ => rfl) rfl ‹opOf w = _› ‹_›
    | exact encode_unpackX (fun _ _ => rfl) rfl ‹opOf w = _› ‹_›

/-- What is decoded has words, so it is no step of the machine. -/
theorem isEvent_of_decodeWords {w x : W32} {i : Instr} (h : decodeWords w x = .ok i) : i.isEvent = false := by
  rw [Instr.isEvent, encode_of_decodeWords h, wordsRead]
  split <;> rfl

/-! ### Bytes (R97) -/

/-- Four bytes are the bytes of the word that they spell. -/
theorem wordBytes_of_bytes (b0 b1 b2 b3 : Byte) : wordBytes [b3 ++ b2 ++ b1 ++ b0] = [b0, b1, b2, b3] := by
  simp (disch := decide) only [wordBytes, BitVec.extractLsb'_append_eq_of_le, BitVec.extractLsb'_append_eq_of_add_le,
    BitVec.extractLsb'_eq_self, Nat.reduceSub]

theorem wordBytes_cons (w : W32) (ws : List W32) : wordBytes (w :: ws) = wordBytes [w] ++ wordBytes ws := rfl

/-- Bytes that decode are those of the words read, and the rest. -/
theorem decode_ok {bs rest : List Byte} {i : Instr} (h : decode bs = .ok (i, rest)) :
    ∃ w x, decodeWords w x = .ok i ∧ bs = wordBytes (wordsRead w x) ++ rest := by
  unfold decode at h
  split at h
  case h_2 => cases h
  case h_1 b0 b1 b2 b3 tail =>
    dsimp only at h
    split at h
    case isTrue two =>
      split at h
      case h_2 => cases h
      case h_1 c0 c1 c2 c3 tail' =>
        split at h <;> cases h
        refine ⟨_, _, ‹_›, ?_⟩
        rw [wordsRead, if_pos two, wordBytes_cons, wordBytes_of_bytes, wordBytes_of_bytes]
        rfl
    case isFalse one =>
      split at h <;> cases h
      refine ⟨_, _, ‹_›, ?_⟩
      rw [wordsRead, if_neg one, wordBytes_of_bytes]
      rfl

/-! ### The obligations -/

/-- Each row has its lemma of the words that the encoder lays out, and a step of the machine has none. -/
theorem decode_encode (i : Instr) : RoundTrip.Statement i := by
  cases i with
  | nop w => exact RoundTrip.nop w | add w => exact RoundTrip.add w | sub w => exact RoundTrip.sub w | addi w => exact RoundTrip.addi w
  | addl w ctl => exact RoundTrip.addl w ctl | mul w => exact RoundTrip.mul w | mulh w => exact RoundTrip.mulh w
  | mulhu w => exact RoundTrip.mulhu w | madd w => exact RoundTrip.madd w | div w => exact RoundTrip.div w | divu w => exact RoundTrip.divu w
  | rem w => exact RoundTrip.rem w | remu w => exact RoundTrip.remu w | abs w => exact RoundTrip.abs w | and w => exact RoundTrip.and w
  | or w => exact RoundTrip.or w | xor w => exact RoundTrip.xor w | andn w => exact RoundTrip.andn w | shl w => exact RoundTrip.shl w
  | shr w => exact RoundTrip.shr w | sar w => exact RoundTrip.sar w | rot w => exact RoundTrip.rot w | shli w => exact RoundTrip.shli w
  | shri w => exact RoundTrip.shri w | sari w => exact RoundTrip.sari w | min w => exact RoundTrip.min w | max w => exact RoundTrip.max w
  | minu w => exact RoundTrip.minu w | maxu w => exact RoundTrip.maxu w | clz w => exact RoundTrip.clz w | ctz w => exact RoundTrip.ctz w
  | popc w => exact RoundTrip.popc w | brev w => exact RoundTrip.brev w | bfx w ctl => exact RoundTrip.bfx w ctl
  | bfi w ctl => exact RoundTrip.bfi w ctl | sel w ctl => exact RoundTrip.sel w ctl | mov w => exact RoundTrip.mov w
  | movl w ctl => exact RoundTrip.movl w ctl | lea w ctl => exact RoundTrip.lea w ctl | addc w => exact RoundTrip.addc w
  | subb w => exact RoundTrip.subb w | cmpeq w => exact RoundTrip.cmpeq w | cmpne w => exact RoundTrip.cmpne w | cmplt w => exact RoundTrip.cmplt w
  | cmple w => exact RoundTrip.cmple w | cmpltu w => exact RoundTrip.cmpltu w | cmpleu w => exact RoundTrip.cmpleu w
  | cmpeqi w => exact RoundTrip.cmpeqi w | cmplti w => exact RoundTrip.cmplti w | pand w => exact RoundTrip.pand w | por w => exact RoundTrip.por w
  | pxor w => exact RoundTrip.pxor w | pmov w => exact RoundTrip.pmov w | wbase w => exact RoundTrip.wbase w
  | rds w ctl => exact RoundTrip.rds w ctl | wrs w ctl => exact RoundTrip.wrs w ctl | fcmpeq w => exact RoundTrip.fcmpeq w
  | fcmplt w => exact RoundTrip.fcmplt w | fcmple w => exact RoundTrip.fcmple w | fcmpun w => exact RoundTrip.fcmpun w
  | fadd w => exact RoundTrip.fadd w | fsub w => exact RoundTrip.fsub w | fmul w => exact RoundTrip.fmul w | ffma w => exact RoundTrip.ffma w
  | fmin w => exact RoundTrip.fmin w | fmax w => exact RoundTrip.fmax w | fneg w => exact RoundTrip.fneg w | fabs w => exact RoundTrip.fabs w
  | frcp w => exact RoundTrip.frcp w | frsq w => exact RoundTrip.frsq w | fexp2 w => exact RoundTrip.fexp2 w | flog2 w => exact RoundTrip.flog2 w
  | fsin w => exact RoundTrip.fsin w | fcos w => exact RoundTrip.fcos w | ftanh w => exact RoundTrip.ftanh w | fsqrt w => exact RoundTrip.fsqrt w
  | frnd w => exact RoundTrip.frnd w | fcvt w ctl => exact RoundTrip.fcvt w ctl | hadd2 w => exact RoundTrip.hadd2 w
  | hmul2 w => exact RoundTrip.hmul2 w | hfma2 w => exact RoundTrip.hfma2 w | badd2 w => exact RoundTrip.badd2 w
  | bmul2 w => exact RoundTrip.bmul2 w | bfma2 w => exact RoundTrip.bfma2 w | idot4 w ctl => exact RoundTrip.idot4 w ctl
  | tdot4 w => exact RoundTrip.tdot4 w | fflagRd w => exact RoundTrip.fflagRd w | fflagClr w => exact RoundTrip.fflagClr w
  | fsetrm w => exact RoundTrip.fsetrm w | fcvts w ctl => exact RoundTrip.fcvts w ctl | bra w => exact RoundTrip.bra w
  | call w => exact RoundTrip.call w | jmpr w => exact RoundTrip.jmpr w | meet w => exact RoundTrip.meet w | leave w => exact RoundTrip.leave w
  | waitm w => exact RoundTrip.waitm w | mrd w => exact RoundTrip.mrd w | mwr w => exact RoundTrip.mwr w | mand w => exact RoundTrip.mand w
  | mor w => exact RoundTrip.mor w | mcnt w => exact RoundTrip.mcnt w | exit w => exact RoundTrip.exit w | shfli w => exact RoundTrip.shfli w
  | shflu w => exact RoundTrip.shflu w | shfld w => exact RoundTrip.shfld w | shflx w => exact RoundTrip.shflx w
  | voteAll w => exact RoundTrip.voteAll w | voteAny w => exact RoundTrip.voteAny w | voteBallot w => exact RoundTrip.voteBallot w
  | reduxAdd w => exact RoundTrip.reduxAdd w | reduxMin w => exact RoundTrip.reduxMin w | reduxMax w => exact RoundTrip.reduxMax w
  | reduxAnd w => exact RoundTrip.reduxAnd w | reduxOr w => exact RoundTrip.reduxOr w | reduxXor w => exact RoundTrip.reduxXor w
  | reduxMinu w => exact RoundTrip.reduxMinu w | reduxMaxu w => exact RoundTrip.reduxMaxu w | elect w => exact RoundTrip.elect w
  | qpopp w => exact RoundTrip.qpopp w | qpeek w => exact RoundTrip.qpeek w | qlevel w => exact RoundTrip.qlevel w
  | qflush w => exact RoundTrip.qflush w | qclose w => exact RoundTrip.qclose w | ld w ctl => exact RoundTrip.ld w ctl
  | st w ctl => exact RoundTrip.st w ctl | lds w ctl => exact RoundTrip.lds w ctl | sts w ctl => exact RoundTrip.sts w ctl
  | atom w ctl => exact RoundTrip.atom w ctl | atoms w ctl => exact RoundTrip.atoms w ctl | fence w => exact RoundTrip.fence w
  | acq w => exact RoundTrip.acq w | rel w => exact RoundTrip.rel w | waita w ctl => exact RoundTrip.waita w ctl
  | cinv w ctl => exact RoundTrip.cinv w ctl | cwb w ctl => exact RoundTrip.cwb w ctl | cpf w ctl => exact RoundTrip.cpf w ctl
  | czero w ctl => exact RoundTrip.czero w ctl | cpart w ctl => exact RoundTrip.cpart w ctl | copy w ctl => exact RoundTrip.copy w ctl
  | mxma w ctl => exact RoundTrip.mxma w ctl | mxld w ctl => exact RoundTrip.mxld w ctl | mxst w ctl => exact RoundTrip.mxst w ctl
  | mxz w ctl => exact RoundTrip.mxz w ctl | ofence w ctl => exact RoundTrip.ofence w ctl | twany w => exact RoundTrip.twany w
  | twall w => exact RoundTrip.twall w | tffr w => exact RoundTrip.tffr w | tclr w => exact RoundTrip.tclr w | ttest w => exact RoundTrip.ttest w
  | rput w ctl => exact RoundTrip.rput w ctl | rget w ctl => exact RoundTrip.rget w ctl | ratom w ctl => exact RoundTrip.ratom w ctl
  | npost w ctl => exact RoundTrip.npost w ctl | nflush w ctl => exact RoundTrip.nflush w ctl | lgrid w ctl => exact RoundTrip.lgrid w ctl
  | etrig w ctl => exact RoundTrip.etrig w ctl | dist w ctl => exact RoundTrip.dist w ctl | bar w => exact RoundTrip.bar w
  | bara w => exact RoundTrip.bara w | barw w => exact RoundTrip.barw w | fbar w => exact RoundTrip.fbar w | cwait w => exact RoundTrip.cwait w
  | trap w => exact RoundTrip.trap w | yield w => exact RoundTrip.yield w | time w => exact RoundTrip.time w | sleep w => exact RoundTrip.sleep w
  | bkpt w => exact RoundTrip.bkpt w
  | _ => exact RoundTrip.step_ rfl

/-- Settles O40, instruction by instruction. -/
theorem encodingRoundTrip : Obligations.EncodingRoundTrip := by
  unfold Obligations.EncodingRoundTrip
  exact decode_encode

/-- Settles O41: the bytes are those of the words read, and the encoder lays out the words read. -/
theorem decodingKeepsEveryBit : Obligations.DecodingKeepsEveryBit := by
  unfold Obligations.DecodingKeepsEveryBit
  intro bs rest i h
  obtain ⟨w, x, hd, hb⟩ := decode_ok h
  exact ⟨by rw [encode_of_decodeWords hd, hb], isEvent_of_decodeWords hd⟩

/-- Settles O42, by evaluating the decoder on each word. -/
theorem specWordsDecode : Obligations.SpecWordsDecode := by
  unfold Obligations.SpecWordsDecode
  decide

end Sys2Proof.Proofs
end

section
/-! The reason codes of an instruction (spec/04 R116, R117; 05 R133): every frame of instructions raises the least reason before it does
anything else. -/

namespace Sys2Proof.Proofs

open Sys2Proof Sys2Proof.Machine Sys2Proof.Laws

/-! ### Frames (R117) -/

/-- An outcome for an instruction that takes the fault of its reason code, where one applies. -/
def ReasonTaken (i : Instr) (s : State) (o : Host.Outcome State Fault Refusal) : Prop :=
  ∀ c h r, ctx? s = some c → shape i = some h → issueReason s c i h = some r → o = .next (reasonAt c r s)

section
variable {i : Instr} {s : State}

theorem reasonTaken_of_no_shape {o : Host.Outcome State Fault Refusal} (e : shape i = none) : ReasonTaken i s o := by
  intro c h r _ hs _
  rw [e] at hs
  cases hs

theorem reasonTaken_issue {act} : ReasonTaken i s (issue i act s) := by
  intro c h r hc hs hr
  simp only [issue, hc, hs, check, hr]

theorem reasonTaken_issueOrdered {chk act} : ReasonTaken i s (issueOrdered chk i act s) := by
  intro c h r hc hs hr
  simp only [issueOrdered, hc, hs, hr]

theorem reasonTaken_compute {f} : ReasonTaken i s (compute i f s) := reasonTaken_issue
theorem reasonTaken_alu1 {f} : ReasonTaken i s (alu1 i f s) := reasonTaken_compute
theorem reasonTaken_alu2 {f} : ReasonTaken i s (alu2 i f s) := reasonTaken_compute
theorem reasonTaken_alu3 {f} : ReasonTaken i s (alu3 i f s) := reasonTaken_compute
theorem reasonTaken_longLatency {k f} : ReasonTaken i s (longLatency i k f s) := reasonTaken_issue
theorem reasonTaken_sfu {f} : ReasonTaken i s (sfu i f s) := reasonTaken_longLatency
theorem reasonTaken_predicate {p f} : ReasonTaken i s (predicate i p f s) := reasonTaken_issue
theorem reasonTaken_compareOp {p f} : ReasonTaken i s (compareOp i p f s) := reasonTaken_predicate
theorem reasonTaken_fcompare {p f} : ReasonTaken i s (fcompare i p f s) := reasonTaken_issue
theorem reasonTaken_fcompute {f} : ReasonTaken i s (fcompute i f s) := reasonTaken_issue
theorem reasonTaken_fp2 {f} : ReasonTaken i s (fp2 i f s) := reasonTaken_fcompute
theorem reasonTaken_packed2 {f} : ReasonTaken i s (packed2 i f s) := reasonTaken_fcompute
theorem reasonTaken_packed3 {f} : ReasonTaken i s (packed3 i f s) := reasonTaken_fcompute
theorem reasonTaken_flagRead {f} : ReasonTaken i s (flagRead i f s) := reasonTaken_issue
theorem reasonTaken_maskWrite {k f} : ReasonTaken i s (maskWrite i k f s) := reasonTaken_issue
theorem reasonTaken_shuffle {f} : ReasonTaken i s (shuffle i f s) := reasonTaken_issue
theorem reasonTaken_vote {w f} : ReasonTaken i s (vote i w f s) := reasonTaken_issue
theorem reasonTaken_redux {f} : ReasonTaken i s (redux i f s) := reasonTaken_issue
theorem reasonTaken_tagWait {b} : ReasonTaken i s (tagWait i b s) := reasonTaken_issue
theorem reasonTaken_cacheLine {w ctl acc act} : ReasonTaken i s (cacheLine i w ctl acc act s) := reasonTaken_issueOrdered
theorem reasonTaken_directPost {n ctl} : ReasonTaken i s (directPost i n ctl s) := reasonTaken_issueOrdered
theorem reasonTaken_arrive {w b} : ReasonTaken i s (arrive i w b s) := reasonTaken_issueOrdered

end

/-- Every instruction stands in one of the frames, and a step of the machine has no shape. -/
theorem reasonTaken_exec (i : Instr) (s : State) : ReasonTaken i s (exec i s) := by
  cases i
  -- The arm of each row is its meaning, which is its frame with the instruction's own act.
  all_goals delta exec; dsimp only
  case nop | wbase | wrs | fsetrm | bra | call | jmpr | meet | leave | waitm | mrd | mcnt | exit | voteBallot | elect | qpopp | qpeek | qlevel
      | qflush | qclose | mxma | mxld | mxst | mxz | ofence | tffr | tclr | ttest | trap | yield | sleep | bkpt => exact reasonTaken_issue
  case sel | movl | lea | addc | subb | rds | time => exact reasonTaken_compute
  case addi | addl | abs | shli | shri | sari | clz | ctz | popc | brev | bfx | mov => exact reasonTaken_alu1
  case add | sub | mul | mulh | mulhu | and | or | xor | andn | shl | shr | sar | rot | min | max | minu | maxu | bfi => exact reasonTaken_alu2
  case madd | idot4 => exact reasonTaken_alu3
  case div | divu | rem | remu => exact reasonTaken_longLatency
  case frcp | frsq | fexp2 | flog2 | fsin | fcos | ftanh | fsqrt => exact reasonTaken_sfu
  case cmpeqi | cmplti | pand | por | pxor | pmov => exact reasonTaken_predicate
  case cmpeq | cmpne | cmplt | cmple | cmpltu | cmpleu => exact reasonTaken_compareOp
  case fcmpeq | fcmplt | fcmple | fcmpun => exact reasonTaken_fcompare
  case ffma | fneg | fabs | frnd | fcvt | tdot4 | fcvts => exact reasonTaken_fcompute
  case fadd | fsub | fmul | fmin | fmax => exact reasonTaken_fp2
  case hadd2 | hmul2 | badd2 | bmul2 => exact reasonTaken_packed2
  case hfma2 | bfma2 => exact reasonTaken_packed3
  case fflagRd | fflagClr => exact reasonTaken_flagRead
  case mwr | mand | mor => exact reasonTaken_maskWrite
  case shfli | shflu | shfld | shflx => exact reasonTaken_shuffle
  case voteAll | voteAny => exact reasonTaken_vote
  case reduxAdd | reduxMin | reduxMax | reduxAnd | reduxOr | reduxXor | reduxMinu | reduxMaxu => exact reasonTaken_redux
  case twany | twall => exact reasonTaken_tagWait
  case ld | st | lds | sts | atom | atoms | fence | acq | rel | waita | cpf | cpart | copy | npost | nflush | lgrid | etrig | dist | barw | fbar
      | cwait => exact reasonTaken_issueOrdered
  case cinv | cwb | czero => exact reasonTaken_cacheLine
  case rput | rget | ratom => exact reasonTaken_directPost
  case bar | bara => exact reasonTaken_arrive
  all_goals exact reasonTaken_of_no_shape rfl

/-! ### The least reason (R116, R117) -/

theorem leastReason_eq_min? (l : List Nat) : leastReason l = l.min? := by
  induction l with
  | nil => rfl
  | cons a l ih => cases e : l.min? <;> simp [leastReason, ih, e, List.min?_cons, min_def]

theorem leastReason_eq_some_iff {l : List Nat} {r : Nat} : leastReason l = some r ↔ r ∈ l ∧ ∀ n ∈ l, r ≤ n := by
  rw [leastReason_eq_min?, List.min?_eq_some_iff]

/-- An instruction with no reason but that of its own entry has that reason. -/
theorem issueReason_of_entry {s : State} {c : Ctx} {i : Instr} {h : Shape} {r : Nat} (he : entryReasons s c i = [r])
    (hn : staticReasons i ++ dynamicReasons s c h = []) : issueReason s c i h = some r := by
  rw [issueReason, hn, he]
  rfl

/-- Settles O37: the frames take the reason, the reason is the least, and the entries of CPART, RDS and WRS give 0x41. -/
theorem reasonCodes : Obligations.ReasonCodes := by
  unfold Obligations.ReasonCodes
  refine ⟨fun i s c h r hc hs hr => reasonTaken_exec i s c h r hc hs hr, fun i s c h r => leastReason_eq_some_iff, rfl, ?privileges⟩
  case privileges =>
    intro s c h denied
    refine ⟨fun user => ⟨fun w ctl => ?cpart, fun w ctl reg => ?rds, fun w ctl cl => ?wrsS⟩, fun w ctl cl => ?wrsH⟩
    all_goals refine issueReason_of_entry ?_
    case cpart => simp [entryReasons, user]
    case rds => simp [entryReasons, user, reg]
    case wrsS => simp [entryReasons, user, cl]
    case wrsH => simp [entryReasons, cl]

end Sys2Proof.Proofs
end

section
/-! What a step runs (spec/04 R111, R116; 02 R56): the focus port's decoded instruction, or the next move of the agenda, and the instruction
placed from outside. -/

namespace Sys2Proof.Proofs

open Sys2Proof Sys2Proof.Machine Sys2Proof.Laws

theorem step_of_agenda_nil {s : State} (h : s.agenda = []) : step s = issueFocus s := by rw [step, h]

theorem issueFocus_instr {s : State} {c : Ctx} {i : Instr} (hc : ctx? s = some c)
    (hd : decodeWords c.word (nthD 0 c.run.words (c.run.pos + 1)) = .ok i) : issueFocus s = exec i s := by
  simp only [issueFocus, hc, hd]

/-! ### An instruction placed from outside (log 2) -/

/-- A word of the table is decoded from the words that its bits hold. -/
theorem decodeTableWord_ok {nbits w : Nat} {i : Instr} (h : decodeTableWord nbits w = some i) :
    let ws := wordsRead (BitVec.ofNat 32 (w % 2 ^ nbits)) (BitVec.ofNat 32 (w % 2 ^ nbits / 2 ^ 32))
    decodeWords (nthD 0 ws 0) (nthD 0 ws 1) = .ok i := by
  unfold decodeTableWord at h
  dsimp only at h ⊢
  generalize BitVec.ofNat 32 (w % 2 ^ nbits) = w0 at *
  generalize BitVec.ofNat 32 (w % 2 ^ nbits / 2 ^ 32) = w1 at *
  simp only [wordBytes, decode, bytes_word, wordsRead] at h ⊢
  split at h
  case h_2 => cases h
  case h_1 e =>
    cases h
    split_ifs at e ⊢ <;> split at e <;> cases e <;> assumption

theorem ctx?_group {s : State} {c : Ctx} (h : ctx? s = some c) : mget? s.groups c.run.gid = some c.g := by
  unfold ctx? at h
  split at h
  · cases h
  · split at h <;> cases h
    assumption

theorem ctx?_setPort {t : State} {p : Port} {r : Run} {g : Machine.Group} (hp : t.focus = p) (hg : mget? t.groups r.gid = some g) :
    ctx? (setPort p (some r) t) = some ⟨p.core, r, g⟩ := by
  subst hp
  have hr : (setPort t.focus (some r) t).portRun (setPort t.focus (some r) t).focus = some r := portRun_setPort _ _ _
  have hg' : mget? (setPort t.focus (some r) t).groups r.gid = some g := hg
  simp only [ctx?, hr, hg']
  rfl

theorem ctx?_withFetchWord (s : State) (nbits w : Nat) : ∃ c, ctx? (s.withFetchWord nbits w) = some c ∧ c.run.pos = 0
    ∧ c.run.words = wordsRead (BitVec.ofNat 32 (w % 2 ^ nbits)) (BitVec.ofNat 32 (w % 2 ^ nbits / 2 ^ 32)) := by
  unfold State.withFetchWord
  dsimp only
  split
  case h_1 c h => exact ⟨_, ctx?_setPort (g := c.g) rfl (ctx?_group h :), rfl, rfl⟩
  case h_2 h => exact ⟨_, ctx?_setPort rfl (mget?_mput_self _ _ _), rfl, rfl⟩

theorem agenda_withFetchWord (s : State) (nbits w : Nat) : (s.withFetchWord nbits w).agenda = [] := by
  unfold State.withFetchWord
  dsimp only
  split <;> rfl

/-- A placed word is run by the very next step. -/
theorem step_withFetchWord {s : State} {nbits w : Nat} {i : Instr} (h : decodeTableWord nbits w = some i) :
    step (s.withFetchWord nbits w) = exec i (s.withFetchWord nbits w) := by
  obtain ⟨c, hc, pos, words⟩ := ctx?_withFetchWord s nbits w
  have hd := decodeTableWord_ok h
  rw [← words] at hd
  refine (step_of_agenda_nil (agenda_withFetchWord s nbits w)).trans (issueFocus_instr hc ?_)
  rw [Ctx.word, pos]
  exact hd

/-- Settles O43: an empty agenda leaves the step to the focus port, and any other gives its first move. -/
theorem stepRunsTheDecodedInstruction : Obligations.StepRunsTheDecodedInstruction := by
  unfold Obligations.StepRunsTheDecodedInstruction
  refine ⟨?decoded, ?reserved, ?noRun, ?event, ?port, ?idle, ?unit, ?upset, ?hostRead, fun s nbits w i h => step_withFetchWord h⟩
  case decoded =>
    intro s c i ha hc hd
    rw [step_of_agenda_nil ha, issueFocus_instr hc hd]
  case reserved =>
    intro s c ha hc
    constructor <;> intro hd <;> simp only [step_of_agenda_nil ha, issueFocus, hc, hd]
  case noRun =>
    intro s ha hc
    simp only [step_of_agenda_nil ha, issueFocus, hc]
  case hostRead =>
    intro s ret reg rest ha
    have read : step s = hostReq (modOf ret) (hostReadReg ret reg) { s with agenda := rest } := by rw [step, ha]
    rw [read]
    exact ⟨fun up => hostReq_of_up _ up, fun down => hostReq_of_down _ down⟩
  case event | port | idle | unit | upset =>
    intro s mv rest ha
    rw [step, ha]

end Sys2Proof.Proofs
end

section
/-! The values of the scalar instructions (spec/06 R152 to R161): each word that the model computes is the one its rule names, as a sum, a
quotient, a shift, a field or a count of the source words. -/

namespace Sys2Proof.Proofs

open Sys2Proof Sys2Proof.Machine Sys2Proof.Laws

/-! ### Products, magnitudes and extremes (R152) -/

/-- Bits 63 to 32 of a 64-bit integer are its floor by 2^32. -/
theorem extractLsb'_ofInt_64 (p : Int) : (BitVec.ofInt 64 p).extractLsb' 32 32 = BitVec.ofInt 32 (p / 2 ^ 32) := by
  apply BitVec.eq_of_toNat_eq
  rw [BitVec.extractLsb'_toNat, BitVec.toNat_ofInt, BitVec.toNat_ofInt, Nat.shiftRight_eq_div_pow]
  omega

theorem mulh_eq_extract (a b : W32) :
    BitVec.ofInt 32 (a.toInt * b.toInt / 2 ^ 32) = (a.signExtend 64 * b.signExtend 64).extractLsb' 32 32 := by
  rw [BitVec.signExtend, BitVec.signExtend, ← BitVec.ofInt_mul, extractLsb'_ofInt_64]

theorem mulhu_eq_extract (a b : W32) :
    BitVec.ofNat 32 (a.toNat * b.toNat / 2 ^ 32) = (a.zeroExtend 64 * b.zeroExtend 64).extractLsb' 32 32 := by
  change _ = (a.setWidth 64 * b.setWidth 64).extractLsb' 32 32
  rw [← BitVec.ofNat_toNat, ← BitVec.ofNat_toNat, ← BitVec.ofNat_mul, ← BitVec.ofInt_natCast 64, extractLsb'_ofInt_64, ← BitVec.ofInt_natCast]
  rfl

theorem abs_eq_ofInt (a : W32) : (if a.msb then -a else a) = BitVec.ofInt 32 |a.toInt| := by
  rw [BitVec.msb_eq_toInt]
  split
  case isTrue h => rw [abs_of_neg (by simpa using h), BitVec.ofInt_neg, BitVec.ofInt_toInt]
  case isFalse h => rw [abs_of_nonneg (by simpa using h), BitVec.ofInt_toInt]

theorem ite_sle (a b x y : W32) : (if a.sle b then x else y) = if a.toInt ≤ b.toInt then x else y := by
  simp only [BitVec.sle_iff_toInt_le]

theorem ite_ule (a b x y : W32) : (if a.ule b then x else y) = if a.toNat ≤ b.toNat then x else y := by
  simp only [BitVec.ule_iff_le, BitVec.le_def]

/-! ### Shifts (R155): the amount is not reduced, so from 32 on only zeros or signs remain -/

theorem shlWord_eq_mul (a : W32) (n : Nat) : shlWord a n = BitVec.ofNat 32 (a.toNat * 2 ^ n) := by
  apply BitVec.eq_of_toNat_eq
  unfold shlWord
  split
  case isTrue h => rw [BitVec.toNat_ofNat, Nat.mod_eq_zero_of_dvd (Dvd.dvd.mul_left (pow_dvd_pow 2 h) _)]; rfl
  case isFalse => rw [BitVec.toNat_shiftLeft, BitVec.toNat_ofNat, Nat.shiftLeft_eq]

theorem shrWord_eq_div (a : W32) (n : Nat) : shrWord a n = BitVec.ofNat 32 (a.toNat / 2 ^ n) := by
  apply BitVec.eq_of_toNat_eq
  have lt : a.toNat / 2 ^ n < 2 ^ 32 := (Nat.div_le_self _ _).trans_lt a.isLt
  rw [BitVec.toNat_ofNat, Nat.mod_eq_of_lt lt]
  unfold shrWord
  split
  case isTrue h => exact (Nat.div_eq_of_lt (a.isLt.trans_le (Nat.pow_le_pow_right two_pos h))).symm
  case isFalse => rw [BitVec.toNat_ushiftRight, Nat.shiftRight_eq_div_pow]

theorem sarWord_eq_div (a : W32) (n : Nat) : sarWord a n = BitVec.ofInt 32 (a.toInt / 2 ^ n) := by
  unfold sarWord
  split
  case isFalse => rw [BitVec.sshiftRight, Int.shiftRight_eq_div_pow, Nat.cast_pow, Nat.cast_ofNat]
  case isTrue h =>
    have le : (2 : Int) ^ 32 ≤ 2 ^ n := pow_le_pow_right₀ (by decide) h
    have lo := a.le_toInt
    have hi := a.toInt_lt
    rw [BitVec.msb_eq_toInt]
    split
    case isTrue neg => rw [Int.ediv_eq_neg_one_of_neg_of_le (by simpa using neg) (by omega)]; rfl
    case isFalse pos => rw [Int.ediv_eq_zero_of_lt (by simpa using pos) (by omega)]; rfl

theorem rotateLeft_eq_or (a : W32) (n : Nat) : a.rotateLeft (n % 32) = a <<< (n % 32) ||| a >>> (32 - n % 32) := by
  rw [BitVec.rotateLeft_eq_rotateLeftAux_of_lt (Nat.mod_lt n (by decide)), BitVec.rotateLeftAux]

/-! ### Counts of bits (R156) -/

theorem bitIdx_eq_filter (n i x : Nat) : bitIdx n i x = (List.range' i n).filter (bitOf x) := by
  induction n generalizing i with
  | zero => rfl
  | succ n ih => rw [bitIdx, ih, List.range'_succ, List.filter_cons]

/-- The lowest one bit of a number is the first index at which a bit is one. -/
theorem head?_bitIdx (n x : Nat) : (bitIdx n 0 x).head? = (List.range n).find? (bitOf x) := by
  rw [bitIdx_eq_filter, List.head?_filter, List.range_eq_range']

theorem popcount_eq_countP (n x : Nat) : popcount n x = (List.range n).countP (bitOf x) := by
  induction n generalizing x with
  | zero => rfl
  | succ n ih =>
    have next : bitOf x ∘ Nat.succ = bitOf (x / 2) := by
      funext i
      simp only [Function.comp, bitOf, Nat.pow_succ', Nat.div_div_eq_div_mul]
    rw [popcount, ih, List.range_succ_eq_map, List.countP_cons, List.countP_map, next, Nat.add_comm]
    rcases Nat.mod_two_eq_zero_or_one x with e | e <;> simp [bitOf, e]

theorem clzWord_eq_find (a : W32) :
    clzWord a = BitVec.ofNat 32 (((List.range 32).find? (fun i => a.getLsbD (31 - i))).getD 32) := by
  unfold clzWord
  split
  case isTrue h => subst h; decide
  case isFalse h =>
    have ne : a.toNat ≠ 0 := fun e => h (BitVec.eq_of_toNat_eq e)
    have lt : a.toNat.log2 < 32 := (Nat.log2_lt ne).2 a.isLt
    have first : (List.range 32).find? (fun i => a.getLsbD (31 - i)) = some (31 - a.toNat.log2) := by
      rw [List.find?_range_eq_some]
      refine ⟨?_, by simp; omega, fun j hj => ?_⟩
      · rw [show 31 - (31 - a.toNat.log2) = a.toNat.log2 by omega]
        exact Nat.testBit_log2 ne
      · rw [Bool.not_eq_true', BitVec.getLsbD]
        exact Nat.testBit_lt_two_pow ((Nat.log2_lt ne).1 (by omega))
    rw [first, Option.getD_some]

theorem ctzWord_eq_find (a : W32) : ctzWord a = BitVec.ofNat 32 (((List.range 32).find? (fun i => a.getLsbD i)).getD 32) := by
  rw [ctzWord, List.headD_eq_head?_getD, head?_bitIdx, funext (bitOf_ofNat 32 · a)]

theorem popcountWord_eq_countP {n : Nat} (v : BitVec n) : popcount n v.toNat = (List.range n).countP (fun i => v.getLsbD i) := by
  rw [popcount_eq_countP, funext (bitOf_ofNat n · v)]

/-! ### Fields and addresses (R157, R160) -/

/-- A field of a word, masked, is the number that its bits spell. -/
theorem toNat_field (a : W32) (pos len : Nat) :
    (a >>> pos &&& BitVec.ofNat 32 (2 ^ len - 1)).toNat = a.toNat / 2 ^ pos % 2 ^ len := by
  have lt : a.toNat / 2 ^ pos < 2 ^ 32 := (Nat.div_le_self _ _).trans_lt a.isLt
  calc (a >>> pos &&& BitVec.ofNat 32 (2 ^ len - 1)).toNat
      = a.toNat / 2 ^ pos &&& (2 ^ len - 1) % 2 ^ 32 := by
        rw [BitVec.toNat_and, BitVec.toNat_ushiftRight, BitVec.toNat_ofNat, Nat.shiftRight_eq_div_pow]
    _ = (a.toNat / 2 ^ pos &&& 2 ^ len - 1) % 2 ^ 32 := by rw [Nat.and_mod_two_pow, Nat.mod_eq_of_lt lt]
    _ = a.toNat / 2 ^ pos % 2 ^ len := by
        rw [Nat.and_two_pow_sub_one_eq_mod, Nat.mod_eq_of_lt ((Nat.mod_le _ _).trans_lt lt)]

theorem ofNat_zextInt (x : Int) (n : Nat) : BitVec.ofNat n (zextInt x n) = BitVec.ofInt n x := by
  rw [zextInt, ← BitVec.toNat_ofInt, BitVec.ofNat_toNat, BitVec.setWidth_eq]

theorem bfxWord_eq_field (ctl a : W32) :
    bfxWord ctl a =
      let f := a >>> bitsOf ctl.toNat 4 0 &&& BitVec.ofNat 32 (2 ^ bitsOf ctl.toNat 10 5 - 1)
      if bitOf ctl.toNat 11 then BitVec.ofInt 32 (sextInt f.toNat (bitsOf ctl.toNat 10 5)) else f := by
  unfold bfxWord
  dsimp only
  rw [← toNat_field]
  split
  · exact ofNat_zextInt _ 32
  · rw [BitVec.ofNat_toNat, BitVec.setWidth_eq]

theorem leaWord_eq_scaled (ctl : W32) (a : W64) (b : W32) :
    leaWord ctl a b = a + b.signExtend 64 * BitVec.ofNat 64 (2 ^ bitsOf ctl.toNat 10 8) + BitVec.ofInt 64 (mcOffset ctl) := by
  have pow (n : Nat) : BitVec.twoPow 64 n = BitVec.ofNat 64 (2 ^ n) := BitVec.eq_of_toNat_eq (BitVec.toNat_twoPow 64 n)
  rw [leaWord, BitVec.shiftLeft_eq_mul_twoPow, pow]

/-! ### Quotients and remainders (R153) -/

theorem divWord_eq (a b : W32) : divWord a b =
    if b = 0 then 0xFFFFFFFF else if a = 0x80000000 ∧ b = 0xFFFFFFFF then 0x80000000 else BitVec.ofInt 32 (a.toInt.tdiv b.toInt) := by
  unfold divWord
  split_ifs with zero most
  · rfl
  · obtain ⟨rfl, rfl⟩ := most
    decide
  · rfl

theorem remWord_eq (a b : W32) : remWord a b =
    if b = 0 then a else if a = 0x80000000 ∧ b = 0xFFFFFFFF then 0 else BitVec.ofInt 32 (a.toInt - a.toInt.tdiv b.toInt * b.toInt) := by
  unfold remWord
  split_ifs with zero most
  · rfl
  · obtain ⟨rfl, rfl⟩ := most
    decide
  · rfl

end Sys2Proof.Proofs
end

section
/-! The integer, predicate, division and field instructions (spec/06 R152 to R162): each stands in a frame of Families and Starts with the
word of the section before. -/

namespace Sys2Proof.Proofs

open Sys2Proof Sys2Proof.Machine Sys2Proof.Laws

/-! ### Frames with the word of a rule -/

section
variable {i : Instr}

theorem gives1_alu1 {f g : W32 → W32} (he : ∀ s, exec i s = alu1 i f s) (hf : ∀ a, f a = g a) : Gives1 i g :=
  gives_compute fun s => by rw [he, funext hf, alu1]

theorem gives2_alu2 {f g : W32 → W32 → W32} (he : ∀ s, exec i s = alu2 i f s) (hf : ∀ a b, f a b = g a b) : Gives2 i g :=
  gives_compute fun s => by rw [he, funext₂ hf, alu2]

/-- A compare or a predicate instruction names its destination as its first predicate field (R161, R162). -/
theorem tests_first {p : Nat} {f : State → Ctx → Shape → Nat → Bool} (he : ∀ s, exec i s = predicate i p f s)
    (first : (shape i).map (·.preds.head?) = some (some p)) : Tests i p f := by
  refine tests_predicate he fun h shaped => List.mem_of_mem_head? ?_
  rw [shaped] at first
  exact Option.some.inj first

theorem tests_compareOp {p : BitVec 7} {f g : W32 → W32 → Bool} (he : ∀ s, exec i s = compareOp i p f s) (hf : ∀ a b, f a b = g a b)
    (first : (shape i).map (·.preds.head?) = some (some p.toNat)) : Tests i p.toNat (fun s c h l => g (src32 s c h l 0) (src32 s c h l 1)) :=
  tests_first (fun s => by rw [he, funext₂ hf, compareOp]) first

theorem begins_division {f g : W32 → W32 → W32}
    (he : ∀ s, exec i s = longLatency i 0 (fun s c h l => ((f (src32 s c h l 0) (src32 s c h l 1)).toNat, 0)) s)
    (hf : ∀ a b, f a b = g a b) : Begins i 0 (fun s c h l => ((g (src32 s c h l 0) (src32 s c h l 1)).toNat, 0)) :=
  begins_longLatency fun s => by rw [he, funext₂ hf]

end

/-- Settles O1: each is a frame of one result, with the word that R152 names. -/
theorem integerArithmetic : Obligations.IntegerArithmetic := by
  unfold Obligations.IntegerArithmetic
  intro w lit
  exact ⟨gives2_alu2 (exec_add w) fun _ _ => rfl, gives2_alu2 (exec_sub w) fun _ _ => rfl, gives2_alu2 (exec_mul w) fun _ _ => rfl,
    gives1_alu1 (exec_addi w) fun _ => rfl, gives1_alu1 (exec_addl w lit) fun _ => rfl, gives2_alu2 (exec_mulh w) mulh_eq_extract,
    gives2_alu2 (exec_mulhu w) mulhu_eq_extract, gives_compute (exec_madd w), gives1_alu1 (exec_abs w) abs_eq_ofInt,
    gives2_alu2 (exec_min w) fun a b => ite_sle a b a b, gives2_alu2 (exec_max w) fun a b => ite_sle b a a b,
    gives2_alu2 (exec_minu w) fun a b => ite_ule a b a b, gives2_alu2 (exec_maxu w) fun a b => ite_ule b a a b⟩

/-- Settles O2: the shifts by their whole amount, and the rotation by it modulo 32. -/
theorem logicAndShifts : Obligations.LogicAndShifts := by
  unfold Obligations.LogicAndShifts
  intro w
  exact ⟨gives2_alu2 (exec_and w) fun _ _ => rfl, gives2_alu2 (exec_or w) fun _ _ => rfl, gives2_alu2 (exec_xor w) fun _ _ => rfl,
    gives2_alu2 (exec_andn w) fun _ _ => rfl, gives2_alu2 (exec_shl w) fun a b => shlWord_eq_mul a b.toNat,
    gives2_alu2 (exec_shr w) fun a b => shrWord_eq_div a b.toNat, gives2_alu2 (exec_sar w) fun a b => sarWord_eq_div a b.toNat,
    gives2_alu2 (exec_rot w) fun a b => rotateLeft_eq_or a b.toNat, gives1_alu1 (exec_shli w) fun a => shlWord_eq_mul a w.b.toNat,
    gives1_alu1 (exec_shri w) fun a => shrWord_eq_div a w.b.toNat, gives1_alu1 (exec_sari w) fun a => sarWord_eq_div a w.b.toNat⟩

/-! ### The group of opcode 0x1F (R111, R156) -/

theorem opOf_eq_bitsOf (w : W32) : opOf w = bitsOf w.toNat 31 25 := by
  have := w.isLt
  rw [opOf, bitsOf]
  omega

theorem toNat_bOf (w : W32) : (bOf w).toNat = bitsOf w.toNat 10 4 := by
  rw [bOf, BitVec.extractLsb'_toNat, Nat.shiftRight_eq_div_pow, bitsOf]

theorem decodeWords_1F {w : W32} (x : W32) (h : bitsOf w.toNat 31 25 = 0x1F) : decodeWords w x = decodeSub1F w := by
  simp only [decodeWords, opOf_eq_bitsOf, h]

theorem decodeSub1F_reserved {w : W32} (h : 4 ≤ bitsOf w.toNat 10 4) : decodeSub1F w = .error .reservedSubop := by
  rw [← toNat_bOf] at h
  unfold decodeSub1F
  split
  case h_5 => rfl
  all_goals omega

/-- Settles O3: the counts as R156 words them, B as the sub-operation, and the reason of a reserved one. -/
theorem bitCounts : Obligations.BitCounts := by
  unfold Obligations.BitCounts
  refine ⟨fun w => ?counts, fun w x op => ?group, rfl, fun s c agenda ctx op sub => ?reserved⟩
  case counts =>
    exact ⟨gives1_alu1 (exec_clz w) clzWord_eq_find, gives1_alu1 (exec_ctz w) ctzWord_eq_find,
      gives1_alu1 (exec_popc w) fun a => congrArg _ (popcountWord_eq_countP a), gives1_alu1 (exec_brev w) fun _ => rfl⟩
  case group =>
    rw [decodeWords_1F x op]
    refine ⟨?_, ?_, ?_, ?_⟩ <;> intro sub <;> simp only [decodeSub1F, toNat_bOf, sub]
  case reserved =>
    have reserved := (decodeWords_1F (nthD 0 c.run.words (c.run.pos + 1)) op).trans (decodeSub1F_reserved sub)
    rw [step_of_agenda_nil agenda, issueFocus, ctx]
    simp only [reserved]

/-- Settles O4: BFX and LEA as fields and scaled sums; the others' words are the rules' own. -/
theorem fieldsMovesAndAddresses : Obligations.FieldsMovesAndAddresses := by
  unfold Obligations.FieldsMovesAndAddresses
  intro w ctl
  refine ⟨gives1_alu1 (exec_bfx w ctl) (bfxWord_eq_field ctl), gives2_alu2 (exec_bfi w ctl) fun _ _ => rfl, gives_compute (exec_sel w ctl),
    gives1_alu1 (exec_mov w) fun _ => rfl, gives_compute (exec_movl w ctl), gives_compute (exec_addc w), gives_compute (exec_subb w),
    gives_compute fun s => ?lea, gives_compute (exec_idot4 w ctl)⟩
  case lea => simp only [exec_lea, execLea, leaWord_eq_scaled]

/-! ### Compares and predicates (R161, R162) -/

theorem beq_signExtend (a : W32) (b : BitVec 7) : (a == b.signExtend 32) = decide (a.toInt = b.toInt) := by
  rw [← BitVec.toInt_signExtend_of_le (x := b) (show 7 ≤ 32 by decide), Bool.beq_eq_decide_eq]
  exact decide_eq_decide.2 BitVec.toInt_inj.symm

theorem slt_signExtend (a : W32) (b : BitVec 7) : a.slt (b.signExtend 32) = decide (a.toInt < b.toInt) := by
  rw [BitVec.slt, BitVec.toInt_signExtend_of_le (by decide)]

/-- Settles O5: each writes its first predicate field, with the test that R161 or R162 names. -/
theorem comparesAndPredicates : Obligations.ComparesAndPredicates := by
  unfold Obligations.ComparesAndPredicates
  intro w
  refine ⟨tests_compareOp (exec_cmpeq w) Bool.beq_eq_decide_eq rfl,
    tests_compareOp (g := fun a b => decide (a ≠ b)) (exec_cmpne w) (fun _ _ => ?ne) rfl,
    tests_compareOp (exec_cmplt w) (fun _ _ => rfl) rfl, tests_compareOp (exec_cmple w) (fun _ _ => rfl) rfl,
    tests_compareOp (exec_cmpltu w) (fun _ _ => rfl) rfl, tests_compareOp (exec_cmpleu w) (fun _ _ => rfl) rfl,
    tests_first (fun _ => ?eqi) rfl, tests_first (fun _ => ?lti) rfl, tests_first (exec_pand w) rfl, tests_first (exec_por w) rfl,
    tests_first (fun _ => ?xor) rfl, tests_first (exec_pmov w) rfl⟩
  case ne => rw [bne, Bool.beq_eq_decide_eq, decide_not]
  case eqi => simp only [exec_cmpeqi, execCmpeqi, beq_signExtend]
  case lti => simp only [exec_cmplti, execCmplti, slt_signExtend]
  case xor => simp only [exec_pxor, execPxor, Bool.bne_eq_xor]

/-- Settles O6: each begins a result of kind 0 with the word that the table of R153 names. -/
theorem divisions : Obligations.Divisions := by
  unfold Obligations.Divisions
  intro w
  exact ⟨begins_division (exec_div w) divWord_eq, begins_division (exec_rem w) remWord_eq, begins_division (exec_divu w) fun _ _ => rfl,
    begins_division (exec_remu w) fun _ _ => rfl⟩

end Sys2Proof.Proofs
end

section
/-! Reads of special places (spec/06 R164, 08 R198, 14 R320, R321, R342, 16 R392) and writes of special registers (06 R163, R165; 07 R183,
R184). -/

namespace Sys2Proof.Proofs

open Sys2Proof Sys2Proof.Machine Sys2Proof.Laws

/-! ### Tags under a mask (R134, R392) -/

theorem getLsbD_tagsReg {g : Machine.Group} {n : Nat} (h : n < 64) : (tagsReg g).getLsbD n = (mget g.tags n 0 == 0) := by
  rw [tagsReg, getLsbD_laneSet _ _ h]
  simp [mem_upFrom, h, beq_eq_decide]

theorem lowestLane_eq_find (v : W64) : lowestLane v = (List.range 64).find? (fun n => v.getLsbD n) := by
  rw [lowestLane, lanesOf, head?_bitIdx, funext (bitOf_ofNat 64 · v)]

theorem lowestLane_tags (g : Machine.Group) (v : W64) :
    lowestLane (tagsReg g &&& v) = (List.range 64).find? (fun n => mget g.tags n 0 == 0 && v.getLsbD n) := by
  rw [lowestLane_eq_find]
  refine congrArg (List.find? · _) (funext fun n => ?_)
  rw [BitVec.getLsbD_and]
  by_cases h : n < 64
  · rw [getLsbD_tagsReg h]
  · rw [BitVec.getLsbD_of_ge v n (by omega), Bool.and_false, Bool.and_false]

theorem onlyMoves_tagAcquire (c : Ctx) (v : W64) (s : State) : OnlyMoves s (tagAcquire c v s) := by
  unfold tagAcquire
  split
  · exact .refl s
  · exact onlyMoves_acquireSws _ s

/-! ### Reads -/

theorem b2n_mul (b : Bool) (n : Nat) : b2n b * n = if b then n else 0 := by
  cases b <;> simp [b2n]

/-- A frame whose act computes results gives them. -/
theorem gives_issue {i : Instr} {act : Ctx → Shape → Issue → State → State} {f : State → Ctx → Shape → Nat → Nat}
    (he : ∀ s, exec i s = issue i act s) (ha : ∀ s c h x, Runs s i c h x → Computes s (act c h x s) c h x (f s c h)) : Gives i f := by
  intro s c h x r
  have computed := (ha s c h x r).moves (onlyMoves_pairOrder s c h x _)
  exact ⟨_, (he s).trans (issue_runs r act), computed, computed.calm.sameMemory⟩

/-- Settles O11: each puts the value it reads; TTEST acquires beside it, which only orders what follows. -/
theorem specialReads : Obligations.SpecialReads := by
  unfold Obligations.SpecialReads
  intro w v k ctl
  refine ⟨gives_compute (exec_rds w ctl), gives_compute (exec_time v), gives_issue (exec_mrd k) fun s c h x r => computes_issue' r _ _ _ _,
    gives_issue (exec_mcnt k) fun s c h x r => ?mcnt, gives_issue (exec_tffr v) fun s c h x r => ?tffr,
    gives_issue (exec_ttest v) fun s c h x r => (computes_issue' r _ _ _ _).moves (onlyMoves_tagAcquire _ _ _),
    gives_issue (exec_qpeek v) fun s c h x r => computes_issue' r _ _ _ _, gives_issue (exec_qlevel v) fun s c h x r => ?qlevel⟩
  case mcnt =>
    simp only [popcountWord_eq_countP]
    exact computes_issue' r _ _ _ _
  case tffr =>
    simp only [lowestLane_tags]
    exact computes_issue' r _ _ _ _
  case qlevel =>
    simp only [b2n_mul]
    exact computes_issue' r _ _ _ _

/-! ### Writes of special registers -/

/-- What a write of a system register does, register by register (R165). -/
theorem sysregWrite_eq (c : Ctx) (n : Nat) (v : W32) (s : State) : sysregWrite c n v s =
    if n = 0x000 then updSw c.sw (fun y => { y with fpflags := v.extractLsb' 0 5 }) s
    else if n = 0x001 then updSw c.sw (fun y => { y with fpen := v.extractLsb' 0 5 }) s
    else if n = 0x002 then updSw c.sw (fun y => { y with frm := v.extractLsb' 0 2 }) s
    else if n = 0x043 ∧ 3200 ≤ v.toNat then updRet c.ret (fun r => { r with wmlim := v }) s
    else s := by
  unfold sysregWrite putWmlim
  split
  case h_1 | h_2 | h_3 => simp
  case h_4 =>
    split
    case isTrue low => simp [Nat.not_le.2 low]
    case isFalse high => simp [Nat.not_lt.1 high]
  case h_5 not0 not1 not2 not43 => rw [if_neg not0, if_neg not1, if_neg not2, if_neg fun e => not43 e.1]

/-- A write of a system register commutes with what only queues see. -/
theorem onlyQueues_sysregWrite {s t : State} {K : Nat → Prop} (q : OnlyQueues s t K) (c : Ctx) (n : Nat) (v : W32) :
    OnlyQueues (sysregWrite c n v s) (sysregWrite c n v t) K := by
  unfold sysregWrite putWmlim
  split
  case h_1 | h_2 | h_3 => exact q.updSw _ _
  case h_5 => exact q
  case h_4 =>
    split
    · exact q
    · exact q.updRet _ _

/-- A change that only moves threads on may come before results. -/
theorem computes_after_moves {s u t : State} {c : Ctx} {h : Shape} {x : Issue} {f : Nat → Nat} (m : OnlyMoves s u) (k : Computes u t c h x f) :
    Computes s t c h x f where
  calm := m.calm.trans k.calm
  value w a b d l hl i hi := by rw [← regCode_still (m.threads _)]; exact k.value w a b d l hl i hi
  uniform := k.uniform
  others j hj := (k.others j hj).trans (m.threads j)
  aside j := (k.aside j).trans (aside_still (m.threads j))
  registers l hl code hc := by
    rw [k.registers l hl code, readCode_still (m.threads _)]
    simpa only [writesCode, regCode_still (m.threads _)] using hc
  flags j := (k.flags j).trans (swAside_still (m.sws j))
  unis j n hn := by
    have same : (u.sw j).uni = (s.sw j).uni := (congrArg SliceWarp.uni (m.sws j) : _)
    rw [k.unis j n hn, same]
  queues j hj := (k.queues j hj).trans (m.queues j)

/-- With no special function in flight, a read of FPFLAGS gives them as they were and makes its change first (R183). -/
theorem flagRead_computes {i : Instr} {s : State} {c : Ctx} {h : Shape} {x : Issue} (r : Runs s i c h x) (g : SliceWarp → SliceWarp)
    (landed : sfuPending s c.run.gid c.run.warp c.run.slice = false) :
    ∃ t, flagRead i g s = .next t ∧ SameMemory s t
      ∧ Computes (if x.lanes = [] then s else updSw c.sw g s) t c h x (fun _ => (s.sw c.sw).fpflags.toNat) := by
  have before : Calm s (if x.lanes = [] then s else updSw c.sw g s) := by
    split
    · exact .refl s
    · exact calm_updSw _ _ s
  have computed := (computes_putResults c h x x.uniform (fun _ => (s.sw c.sw).fpflags.toNat) r.nodup
    (if x.lanes = [] then s else updSw c.sw g s)).moves ((onlyMoves_advance c 1 1 _).trans (onlyMoves_pairOrder s c h x _))
  refine ⟨_, (issue_runs r _).trans ?_, (before.trans computed.calm).sameMemory, computed⟩
  simp only [landed, List.isEmpty_iff, Bool.false_eq_true, if_false]

/-- Settles O15: beside its own effect each only moves on; WRS also pops its source, and FFLAG puts what it reads. -/
theorem controlRegisters : Obligations.ControlRegisters := by
  unfold Obligations.ControlRegisters
  intro w v ctl
  refine ⟨effects_issue (exec_nop w) fun s c h x _ => (onlyMoves_advance ..).completes c h x,
    effects_issue (exec_wbase w) fun s c h x _ => (onlyMoves_advance ..).completes c h x,
    effects_issue (exec_fsetrm w) fun s c h x _ => ?fsetrm, effects_issue (exec_wrs w ctl) fun s c h x _ => ?wrs,
    fun s c h x landed => ⟨fun r => ?read, fun r => flagRead_computes r _ landed⟩⟩
  case fsetrm =>
    simp only [List.isEmpty_iff]
    exact (onlyMoves_advance ..).completes c h x
  case wrs =>
    have popped := onlyQueues_popReads c h x s
    obtain ⟨lanes, uniform, pops⟩ := x
    cases lanes with
    | nil => exact popped.completes.moves (onlyMoves_advance ..)
    | cons l ls =>
      simp only [← sysregWrite_eq]
      exact (onlyQueues_sysregWrite popped c _ _).completes.moves (onlyMoves_advance ..)
  case read =>
    obtain ⟨t, next, memory, computed⟩ := flagRead_computes r (fun y => y) landed
    refine ⟨t, next, computes_after_moves ?_ computed, memory⟩
    split
    · exact .refl s
    · exact onlyMoves_updSw _ _ (fun _ => rfl) s

end Sys2Proof.Proofs
end

section
/-! The fp32, packed, dot-product, conversion and special-function instructions (spec/07 R167 to R182): each stands in a frame of Families or
Starts, under FRM of its slice-warp where its rule names a mode, and a compare raises NV as the table of R174 says. -/

namespace Sys2Proof.Proofs

open Sys2Proof Sys2Proof.Machine Sys2Proof.Laws

/-! ### Frames under FRM (R130, R167) -/

section
variable {i : Instr} {f : Nat → Nat → Nat → Nat × Fl}

theorem givesF_fp2 (he : ∀ s, exec i s = fp2 i f s) :
    GivesF i (fun s c h l => f (s.sw c.sw).frm.toNat (srcN s c h l 0) (srcN s c h l 1)) :=
  givesF_fcompute he

theorem givesF_packed2 (he : ∀ s, exec i s = packed2 i f s) :
    GivesF i (fun s c h l => packed (fun a b _ => f (s.sw c.sw).frm.toNat a b) (srcN s c h l 0) (srcN s c h l 1) 0) :=
  givesF_fcompute he

theorem givesF_packed3 {fmt : Fmt} (he : ∀ s, exec i s = packed3 i fmt s) :
    GivesF i (fun s c h l => packed (fmt.fma (s.sw c.sw).frm.toNat) (srcN s c h l 0) (srcN s c h l 1) (srcN s c h l 2)) :=
  givesF_fcompute he

/-- A special function begins a result of kind 1, under FRM as it stands at issue (R169). -/
theorem begins_sfu {g : Nat → W32 → Nat × Fl} (he : ∀ s, exec i s = sfu i g s) :
    Begins i 1 (fun s c h l => g (s.sw c.sw).frm.toNat (src32 s c h l 0)) :=
  begins_longLatency he

end

/-! ### The flags of a compare (R174) -/

/-- A signalling NaN is a NaN. -/
theorem isNan_of_isSig {a : FV} (h : a.isSig = true) : a.isNan = true := by
  cases a with
  | nan => rfl
  | inf | zero | fin => exact h

theorem nanFlag_false (a b : FV) : nanFlag false a b = flIf (a.isSig || b.isSig) flNV := by
  rw [nanFlag, Bool.false_and, Bool.or_false]

theorem nanFlag_true (a b : FV) : nanFlag true a b = flIf (a.isNan || b.isNan) flNV := by
  have absorbed : (a.isSig || b.isSig || (a.isNan || b.isNan)) = (a.isNan || b.isNan) := by
    rw [Bool.or_eq_right_iff_imp, Bool.or_eq_true, Bool.or_eq_true]
    exact Or.imp isNan_of_isSig isNan_of_isSig
  rw [nanFlag, Bool.true_and, absorbed]

/-- A compare names its destination as its first predicate field, and raises the flags of one column of the table of R174. -/
theorem testsF_compare {i : Instr} {p : Nat} {any : Bool} {test : FV → FV → Bool} {fl : FV → FV → Fl}
    (he : ∀ s, exec i s = fcompare i p (fun a b => (test a b, nanFlag any a b)) s) (raised : ∀ a b, nanFlag any a b = fl a b)
    (first : (shape i).map (·.preds.head?) = some (some p)) :
    TestsF i p (fun s c h l => (test (fp32.read (srcN s c h l 0)) (fp32.read (srcN s c h l 1)),
      fl (fp32.read (srcN s c h l 0)) (fp32.read (srcN s c h l 1)))) := by
  refine testsF_fcompare (f := fun a b => (test a b, fl a b)) (fun s => ?_) fun h shaped => List.mem_of_mem_head? ?_
  · simp only [he, raised]
  · rw [shaped] at first
    exact Option.some.inj first

/-! ### The obligations

A frame under (e :) takes its operation from the equation of exec: the statement shows that operation only with its operands filled in. -/

/-- Settles O7: each begins a result of kind 1; FSQRT alone hands FRM on to its value. -/
theorem specialFunctions : Obligations.SpecialFunctions := by
  unfold Obligations.SpecialFunctions
  intro w
  exact ⟨begins_sfu (exec_frcp w), begins_sfu (exec_frsq w), begins_sfu (exec_fexp2 w), begins_sfu (exec_flog2 w),
    begins_sfu (exec_fsin w), begins_sfu (exec_fcos w), begins_sfu (exec_ftanh w), begins_sfu (exec_fsqrt w)⟩

/-- Settles O8: two-source operations under FRM; FFMA with D as its third source; FNEG, FABS and FRND of A alone. -/
theorem floatingArithmetic : Obligations.FloatingArithmetic := by
  unfold Obligations.FloatingArithmetic
  intro w
  exact ⟨givesF_fp2 (exec_fadd w), givesF_fp2 (exec_fsub w), givesF_fp2 (exec_fmul w), givesF_fcompute (exec_ffma w),
    (givesF_fp2 (exec_fmin w) :), (givesF_fp2 (exec_fmax w) :), givesF_fcompute (exec_fneg w), givesF_fcompute (exec_fabs w),
    givesF_fcompute (exec_frnd w)⟩

/-- Settles O9: the packed instructions in their frames of two and three sources; TDOT4, FCVT and FCVTS give their words and flags. -/
theorem packedDotsAndConversions : Obligations.PackedDotsAndConversions := by
  unfold Obligations.PackedDotsAndConversions
  intro w ctl
  exact ⟨givesF_packed2 (exec_hadd2 w), givesF_packed2 (exec_hmul2 w), givesF_packed3 (exec_hfma2 w), givesF_packed2 (exec_badd2 w),
    givesF_packed2 (exec_bmul2 w), givesF_packed3 (exec_bfma2 w), givesF_fcompute (exec_tdot4 w), givesF_fcompute (exec_fcvt w ctl),
    givesF_fcompute (exec_fcvts w ctl)⟩

/-- Settles O10: FCMPLT and FCMPLE raise NV on any NaN, which takes in the signalling ones; FCMPEQ and FCMPUN on those alone. -/
theorem floatingCompares : Obligations.FloatingCompares := by
  unfold Obligations.FloatingCompares
  intro w
  exact ⟨(testsF_compare (exec_fcmpeq w) nanFlag_false rfl :), (testsF_compare (exec_fcmplt w) nanFlag_true rfl :),
    (testsF_compare (exec_fcmple w) nanFlag_true rfl :), (testsF_compare (exec_fcmpun w) nanFlag_false rfl :)⟩

end Sys2Proof.Proofs
end

section
/-! Exchanges between the lanes of a slice-warp (spec/08 R199 to R202): shuffles, ballots and reductions put results, votes and the election
write a predicate, each from the lanes that execute. -/

namespace Sys2Proof.Proofs

open Sys2Proof Sys2Proof.Machine Sys2Proof.Laws

/-! ### Frames -/

section
variable {i : Instr}

/-- A shuffle gives each lane A of its source lane when that lane is one of W and executes, else its own (R199). -/
theorem gives_shuffle {src : Nat → Nat → Int} (he : ∀ s, exec i s = shuffle i src s) :
    Gives i (fun s c h l =>
      let y := src l (srcN s c h l 1)
      if 0 ≤ y ∧ y < c.width ∧ y.toNat ∈ (issueLanes s c h).lanes then srcN s c h y.toNat 0 else srcN s c h l 0) := by
  refine gives_issue he fun s c h x r => ?_
  have computed := computes_issue r false (fun l =>
    let y := src l (srcN s c h l 1)
    srcN s c h (if 0 ≤ y ∧ y < c.width ∧ x.lanes.contains y.toNat = true then y.toNat else l) 0) 1 (issueCycles s c false)
  simpa only [r.lanes, List.contains_iff_mem, apply_ite (srcN s c h · 0)] using computed

/-- A reduction gives each lane the combination of A over the executing lanes, in their order (R201). -/
theorem gives_redux {f g : W32 → W32 → W32} (he : ∀ s, exec i s = redux i f s) (hf : ∀ a b, f a b = g a b) :
    Gives i (fun s c h _ =>
      (match ((issueLanes s c h).lanes).map (fun l => src32 s c h l 0) with
       | [] => 0
       | y :: ys => ys.foldl g y).toNat) := by
  refine gives_issue he fun s c h x r => ?_
  rw [← r.lanes, ← funext₂ hf]
  exact computes_issue r false _ 1 _

/-- A frame that writes its first predicate field in each lane, and then moves on, writes that predicate. -/
theorem tests_putPred {p : Nat} {f : State → Ctx → Shape → Nat → Bool} {act : Ctx → Shape → Issue → State → State}
    (he : ∀ s, exec i s = issue i act s) (first : (shape i).map (·.preds.head?) = some (some p))
    (ha : ∀ s c h x, Runs s i c h x → ∃ cycles, act c h x s = advance c 1 cycles (x.lanes.foldl (fun t l => putPred c p l (f s c h l) t) s)) :
    Tests i p f := by
  intro s c h x r
  obtain ⟨cycles, acts⟩ := ha s c h x r
  have named : p ∈ h.preds := by
    rw [r.2.1] at first
    exact List.mem_of_mem_head? (Option.some.inj first)
  have sets := ((setsPredicate_foldl c h p (static_preds r.2.1 r.static named) (f s c h) x.lanes x.uniform x.pops r.nodup s).moves
    (onlyMoves_advance c 1 cycles _)).moves (onlyMoves_pairOrder s c h x _)
  rw [← acts] at sets
  exact ⟨_, (he s).trans (issue_runs r act), sets, sets.calm.sameMemory⟩

/-- A vote writes one outcome, over the executing lanes, to predicate D of each (R200). -/
theorem tests_vote {v : SWord} {f : List Bool → Bool} (he : ∀ s, exec i s = vote i v f s)
    (first : (shape i).map (·.preds.head?) = some (some v.d.toNat)) :
    Tests i v.d.toNat (fun s c h _ => f ((issueLanes s c h).lanes.map (fun l => readPred s c l v.a.toNat))) :=
  tests_putPred he first fun s c h x r => ⟨issueCycles s c false, by rw [← r.lanes]⟩

end

/-! ### The obligations -/

/-- Settles O12: a source lane that executes is a member of the executing lanes, and a reduction's extremes are those of the integers. -/
theorem exchanges : Obligations.Exchanges := by
  unfold Obligations.Exchanges
  intro w v
  refine ⟨gives_shuffle (exec_shfli w), gives_shuffle (exec_shflu w), gives_shuffle (exec_shfld w), gives_shuffle (exec_shflx w),
    gives_issue (exec_voteBallot v) fun s c h x r => ?ballot, gives_redux (exec_reduxAdd v) fun _ _ => rfl,
    gives_redux (exec_reduxMin v) fun a b => ite_sle a b a b, gives_redux (exec_reduxMax v) fun a b => ite_sle b a a b,
    gives_redux (exec_reduxMinu v) fun a b => ite_ule a b a b, gives_redux (exec_reduxMaxu v) fun a b => ite_ule b a a b,
    gives_redux (exec_reduxAnd v) fun _ _ => rfl, gives_redux (exec_reduxOr v) fun _ _ => rfl, gives_redux (exec_reduxXor v) fun _ _ => rfl⟩
  case ballot =>
    simp only [← r.lanes]
    exact computes_issue' r x.uniform _ 1 _

/-- Settles O13: the votes are over the predicates of the executing lanes, and the lowest of these is the head of their list. -/
theorem votesAndElection : Obligations.VotesAndElection := by
  unfold Obligations.VotesAndElection
  intro w v
  refine ⟨?all, ?any, tests_putPred (exec_elect w) rfl fun s c h x r => ⟨1, ?elect⟩⟩
  case all => simpa [List.all_eq] using tests_vote (exec_voteAll v) rfl
  case any => simpa [List.any_eq] using tests_vote (exec_voteAny v) rfl
  case elect => simp only [← r.lanes, Bool.beq_eq_decide_eq]

end Sys2Proof.Proofs
end

section
/-! Branches and calls (spec/08 R189, R190; 04 R102): where the executing lanes go, and o15 of a call. -/

namespace Sys2Proof.Proofs

open Sys2Proof Sys2Proof.Machine Sys2Proof.Laws

/-- Each of some lanes is given a target of its own, once. -/
theorem nodup_targets {lanes : List Nat} (h : lanes.Nodup) (f : Nat → W64) : ((lanes.map (fun l => (l, f l))).map (·.1)).Nodup := by
  simpa only [List.map_map, Function.comp_def, List.map_id'] using h

/-- BRANCHING to the end of the instruction: all that changes is where threads stand, and each lane stands at its target. -/
theorem branchTo_issued (b : State) (c : Ctx) (h : Shape) (x : Issue) {lanes : List Nat} (hd : lanes.Nodup) (f : Nat → W64) (rank : W64 → Nat)
    (n : Nat) (s : State) :
    let t := pairOrder b c h x (advance c 1 n (branchTo c (lanes.map (fun l => (l, f l))) rank s))
    OnlyMoves s t ∧ ∀ l ∈ lanes, (t.thread (c.th l)).pc = f l ∧ (t.thread (c.th l)).pos = none := by
  obtain ⟨moves, stand⟩ := branchTo_advance c (lanes.map (fun l => (l, f l))) rank n s (nodup_targets hd f)
  refine ⟨moves.trans (onlyMoves_pairOrder b c h x _), fun l hl => ?_⟩
  rw [thread_pairOrder]
  exact stand (l, f l) (List.mem_map_of_mem hl)

/-- An offset in words is a quarter of the offset in bytes. -/
theorem setWidth_shiftRight_two (a : W64) : (a >>> 2).setWidth 32 = BitVec.ofNat 32 (a.toNat / 4) := by
  apply BitVec.eq_of_toNat_eq
  rw [BitVec.toNat_setWidth, BitVec.toNat_ushiftRight, Nat.shiftRight_eq_div_pow, BitVec.toNat_ofNat]

/-- The low word of a source, scaled, is the word that R189 adds to CODE. -/
theorem ofNat_code_add (code n : Nat) :
    BitVec.ofNat 64 code + BitVec.ofNat 64 (4 * (n % 2 ^ 32)) = BitVec.ofNat 64 (code + 4 * (BitVec.ofNat 32 n).toNat) := by
  rw [BitVec.toNat_ofNat, BitVec.ofNat_add]

/-- A register written with one value in distinct lanes: those threads have it, and all else is as it was. -/
theorem foldl_writeCode (c : Ctx) (code : Nat) (v : W32) {lanes : List Nat} (hd : lanes.Nodup) (s : State) :
    let t := lanes.foldl (fun t l => updTh (c.th l) (writeCode code v) t) s
    { t with threads := s.threads } = s ∧ (∀ l ∈ lanes, t.thread (c.th l) = writeCode code v (s.thread (c.th l)))
    ∧ (∀ k, (∀ l ∈ lanes, k ≠ c.th l) → t.thread k = s.thread k) ∧ (∀ k, (t.thread k).aside = (s.thread k).aside) := by
  have written := foldUpd_thread c (writeCode code v) lanes hd s
  refine ⟨foldUpd_rest c (fun _ => writeCode code v) lanes s, fun l hl => ?_, fun k hk => ?_, fun k => ?_⟩
  · rw [written, if_pos ⟨l, hl, rfl⟩]
  · rw [written, if_neg fun ⟨l, hl, e⟩ => hk l hl e]
  · rw [written]
    split
    · exact aside_writeCode code v _
    · rfl

/-- Where threads alone differ, all else is as it was. -/
theorem unchanged_of_threads {s t : State} (h : { t with threads := s.threads } = s) :
    Calm s t ∧ (∀ k, t.sw k = s.sw k) ∧ ∀ k, t.queue k = s.queue k := by
  have cores : t.cores = s.cores := (congrArg State.cores h : _)
  have sws : t.sws = s.sws := (congrArg State.sws h : _)
  have queues : t.queues = s.queues := (congrArg State.queues h : _)
  exact ⟨⟨by rw [← h], fun k => by rw [State.core, cores, State.core]⟩, fun k => by rw [State.sw, sws, State.sw],
    fun k => by rw [State.queue, queues, State.queue]⟩

/-- Settles O16: each branches to its targets; a call has written o15 of its lanes before, and JMPR has popped its source. -/
theorem branches : Obligations.Branches := by
  unfold Obligations.Branches
  intro j w s c h x
  refine ⟨fun r => ?bra, fun r => ?call, fun r => ?jmpr⟩
  case bra =>
    obtain ⟨moves, stand⟩ := branchTo_issued s c h x r.nodup (fun _ => relTarget c j.off.toInt) (fun _ => 0) 1 s
    exact ⟨_, (exec_bra j s).trans (issue_runs r _), moves, moves.calm.sameMemory, stand⟩
  case call =>
    obtain ⟨rest, linked, others, aside⟩ :=
      foldl_writeCode c 271 (((nextHeader c.run - BitVec.ofNat 64 c.g.launch.code) >>> 2).setWidth 32) r.nodup s
    obtain ⟨linking, sws, queues⟩ := unchanged_of_threads rest
    obtain ⟨moves, stand⟩ := branchTo_issued s c h x r.nodup (fun _ => relTarget c j.off.toInt) (fun _ => 0) (issueCycles s c false) _
    have calm := linking.trans moves.calm
    refine ⟨_, (exec_call j s).trans (issue_runs r _), calm, calm.sameMemory, stand, fun l hl k => ?_, fun k hk => ?_, fun k => ?_,
      fun k => ?_, fun k => ?_⟩
    · rw [readCode_still (moves.threads _), linked l hl, readCode_writeCode, setWidth_shiftRight_two]
    · rw [moves.threads, others k hk]
    · rw [aside_still (moves.threads k), aside]
    · rw [moves.sws, sws]
    · rw [moves.queues, queues]
  case jmpr =>
    have scaled (l : Nat) := ofNat_code_add c.g.launch.code (srcN s c h l 0)
    obtain ⟨moves, stand⟩ := branchTo_issued s c h x r.nodup (fun l => BitVec.ofNat 64 (c.g.launch.code + 4 * (src32 s c h l 0).toNat)) _
      (issueCycles s c false) (popReads c h x.pops s)
    have popped := (onlyQueues_popReads c h x s).completes.moves moves
    refine ⟨_, (exec_jmpr w s).trans ((issue_runs r _).trans ?_), popped, popped.calm.sameMemory, stand⟩
    simp only [scaled]
    rfl

end Sys2Proof.Proofs
end

section
/-! Meetings and lane masks (spec/08 R191 to R195, R198): what an instruction writes to masks and meeting registers, and what the test of the
release conditions after it leaves of them. -/

namespace Sys2Proof.Proofs

open Sys2Proof Sys2Proof.Machine Sys2Proof.Laws

/-! ### Masks and meeting registers -/

theorem wait_still {a b : Thread} (h : a.still = b.still) : a.wait = b.wait := (congrArg Thread.wait h : _)
theorem mr_still {a b : Thread} (h : a.still = b.still) : a.mr = b.mr := (congrArg Thread.mr h : _)

theorem getMask_moves {s t : State} (m : OnlyMoves s t) (c : Ctx) (k : Nat) : getMask t c k = getMask s c k := by
  have same : (t.sw c.sw).masks = (s.sw c.sw).masks := (congrArg SliceWarp.masks (m.sws c.sw) : _)
  rw [getMask, same, getMask]

theorem getMask_putMask (c : Ctx) (k n : Nat) (v : W64) (s : State) :
    getMask (putMask c k v s) c n = if n = k then v &&& BitVec.ofNat 64 (2 ^ c.width - 1) else getMask s c n := by
  rw [getMask, putMask, sw_updSw_self, mget_mput, getMask]

theorem onlyMeets_putMask (c : Ctx) (k : Nat) (v : W64) (s : State) : OnlyMeets s (putMask c k v s) := by
  refine onlyMeets_updSw _ _ ?_ s
  intro _; rfl

/-- The meeting registers of some lanes changed, as MEET and LEAVE do. -/
def putMr (c : Ctx) (f : W64 → W64) (lanes : List Nat) (s : State) : State :=
  lanes.foldl (fun t l => updTh (c.th l) (fun th => { th with mr := f th.mr }) t) s

section
variable (c : Ctx) (f : W64 → W64) (lanes : List Nat) (s : State)

theorem onlyMeets_putMr : OnlyMeets s (putMr c f lanes s) := by
  refine onlyMeets_foldl _ (fun t l => onlyMeets_updTh _ _ ?_ t) lanes s
  intro _; rfl

theorem getMask_putMr (k : Nat) : getMask (putMr c f lanes s) c k = getMask s c k :=
  foldl_keep (fun t => getMask t c k) (fun t l => updTh (c.th l) (fun th => { th with mr := f th.mr }) t) (fun _ _ => rfl) lanes s

variable {lanes}

theorem thread_putMr_mem (distinct : lanes.Nodup) {l : Nat} (hl : l ∈ lanes) :
    (putMr c f lanes s).thread (c.th l) = { s.thread (c.th l) with mr := f (s.thread (c.th l)).mr } := by
  rw [putMr, foldUpd_thread c _ lanes distinct, if_pos ⟨l, hl, rfl⟩]

theorem thread_putMr_not_mem (distinct : lanes.Nodup) {l : Nat} (hl : l ∉ lanes) :
    (putMr c f lanes s).thread (c.th l) = s.thread (c.th l) := by
  rw [putMr, foldUpd_thread c _ lanes distinct, if_neg fun ⟨j, hj, e⟩ => hl (c.th_inj.1 e ▸ hj)]

end

/-! ### Lanes of masks -/

theorem mem_lanesOf_iff_hasLane {m : BitVec 64} {l : Nat} (hl : l < 64) : l ∈ lanesOf m ↔ hasLane m l = true := by
  rw [mem_lanesOf, hasLane, bitOf_ofNat, and_iff_right hl]

theorem lane_lt_of_runs {s : State} {i : Instr} {c : Ctx} {h : Shape} {x : Issue} (r : Runs s i c h x) {l : Nat} (hl : l ∈ x.lanes) : l < 64 :=
  lt_of_mem_lanesOf (r.sub.subset hl)

/-- A mask without some lanes holds none of them. -/
theorem not_mem_of_mem_lanesOf_without {m low : BitVec 64} {ls : List Nat} {l : Nat} (hl : l ∈ lanesOf (m &&& ~~~laneSet ls &&& low)) :
    l ∉ ls := by
  obtain ⟨lt, bit⟩ := (mem_lanesOf _ l).1 hl
  simp only [BitVec.getLsbD_and, BitVec.getLsbD_not, getLsbD_laneSet ls l lt] at bit
  simp_all

/-! ### The test of the release conditions (R192) -/

/-- Mask j, given the value v by an instruction: it is v still, or its release has ended it and the meeting registers of its threads, each
of which was held; and it is released at once when all its threads were held and every other mask is empty. -/
def MaskSettled (c : Ctx) (s t : State) (j : Nat) (v : W64) : Prop :=
  (getMask t c j = v ∨ getMask t c j = 0 ∧ v ≠ 0 ∧ ∀ l ∈ lanesOf v,
    ((s.thread (c.th l)).wait = .held ∨ mrLabel (s.thread (c.th l)) = some (t.thread (c.th l)).pc) ∧ (t.thread (c.th l)).wait = .none
      ∧ (t.thread (c.th l)).mr.getLsbD 0 = false)
  ∧ (v ≠ 0 → (∀ l ∈ lanesOf v, (s.thread (c.th l)).wait = .held) → (∀ n ≠ j, getMask s c n = 0) → getMask t c j = 0)

/-- A lane that a mask was written without is not in it after the test. -/
theorem hasLane_of_maskSettled {c : Ctx} {s t : State} {j : Nat} {m low : W64} {ls : List Nat}
    (mask : MaskSettled c s t j (m &&& ~~~laneSet ls &&& low)) {l : Nat} (hl : l ∈ ls) (lt : l < 64) : hasLane (getMask t c j) l = false := by
  rw [← Bool.not_eq_true, ← mem_lanesOf_iff_hasLane lt]
  intro listed
  rcases mask.1 with value | ⟨zero, -⟩
  · rw [value] at listed
    exact not_mem_of_mem_lanesOf_without listed hl
  · rw [zero, mem_lanesOf] at listed
    simp at listed

/-- The end of an instruction that tests the release conditions of its slice-warp. -/
def settled (s : State) (c : Ctx) (h : Shape) (x : Issue) (u : State) : State :=
  pairOrder s c h x (settle c.run.gid c.run.warp c.run.slice u)

section
variable {i : Instr} {s u : State} {c : Ctx} {h : Shape} {x : Issue}

theorem onlyMeets_settled (meets : OnlyMeets s u) : OnlyMeets s (settled s c h x u) :=
  (meets.trans (settles_settle _ _ _ u).meets).trans (onlyMoves_pairOrder s c h x _).meets

theorem getMask_settled (k : Nat) : getMask (settled s c h x u) c k = getMask (settle c.run.gid c.run.warp c.run.slice u) c k :=
  getMask_moves (onlyMoves_pairOrder s c h x _) c k

theorem thread_settled (k : Nat) : (settled s c h x u).thread k = (settle c.run.gid c.run.warp c.run.slice u).thread k :=
  thread_pairOrder s c h x _ k

theorem mr_settled {k : Nat} (clear : (u.thread k).mr.getLsbD 0 = false) : ((settled s c h x u).thread k).mr.getLsbD 0 = false := by
  rw [thread_settled]
  exact (settles_settle _ _ _ u).mr k clear

/-- The group of the instruction is there while the release conditions are tested. -/
theorem group_live (r : Runs s i c h x) (meets : OnlyMeets s u) : (mget? u.groups c.run.gid).isSome = true := by
  rw [meets.calm.groups, r.group]
  rfl

/-- The mask field of an instruction is one of its masks (R110). -/
theorem mask_named (r : Runs s i c h x) {k : Nat} (first : (shape i).map (·.masks.head?) = some (some k)) : k ∈ h.masks := by
  rw [r.2.1] at first
  exact List.mem_of_mem_head? (Option.some.inj first)

/-- SETTLING after an instruction that wrote v to mask j and left the other masks and the threads of j as they were. -/
theorem maskSettled_settled (r : Runs s i c h x) (meets : OnlyMeets s u) {j : Nat} {v : W64} (named : j ∈ h.masks)
    (masks : ∀ n, getMask u c n = getMask (putMask c j v s) c n)
    (same : ∀ l ∈ lanesOf (v &&& BitVec.ofNat 64 (2 ^ c.width - 1)),
      (u.thread (c.th l)).wait = (s.thread (c.th l)).wait ∧ (u.thread (c.th l)).mr = (s.thread (c.th l)).mr) :
    MaskSettled c s (settled s c h x u) j (v &&& BitVec.ofNat 64 (2 ^ c.width - 1)) := by
  obtain ⟨ends, released, -, -⟩ := settle_spec c.run.gid c.run.warp c.run.slice u
  have written : getMask u c j = v &&& BitVec.ofNat 64 (2 ^ c.width - 1) := by rw [masks, getMask_putMask, if_pos rfl]
  have others {n : Nat} (hn : n ≠ j) : getMask u c n = getMask s c n := by rw [masks, getMask_putMask, if_neg hn]
  rw [← written] at same ⊢
  simp only [MaskSettled, getMask_settled, thread_settled]
  constructor
  · rcases ends j with kept | ⟨zero, nonzero, held⟩
    · exact .inl kept
    · refine .inr ⟨zero, nonzero, fun l hl => ?_⟩
      obtain ⟨wait, mr⟩ := same l hl
      have label : mrLabel (u.thread (c.th l)) = mrLabel (s.thread (c.th l)) := by rw [mrLabel, mr, mrLabel]
      rw [← wait, ← label]
      exact held l hl
  · intro nonzero held alone
    exact released j (r.masks_lt j named) (group_live r meets) nonzero (fun l hl => (same l hl).1.trans (held l hl))
      fun n hn => (others hn).trans (alone n hn)

end

/-! ### Arriving at WAITM (R185, R195) -/

/-- A delivery point with nothing to deliver goes on (R185). -/
theorem deliver_of_quiet {c : Ctx} {s : State} (landed : sfuPending s c.run.gid c.run.warp c.run.slice = false) (quiet : fpTest s c = 0)
    (act : State → State) : deliver c s act = act s := by
  rw [deliver, landed, if_neg Bool.false_ne_true, if_neg (not_not.2 quiet)]

/-- The executing lanes of mask k wait in WAITM. -/
def arrived (c : Ctx) (x : Issue) (k : Nat) (s : State) : State :=
  parkWait c (x.lanes.filter (hasLane (getMask s c k))) (.waitm k) (advance c 1 1 s)

section
variable (c : Ctx) (x : Issue) (k : Nat) (s : State)

theorem onlyMeets_arrived : OnlyMeets s (arrived c x k s) :=
  (onlyMoves_advance c 1 1 s).meets.trans (onlyMeets_parkWait c _ _ _)

theorem masks_arrived (n : Nat) : mget ((arrived c x k s).sw c.sw).masks n 0 = getMask s c n := by
  rw [← getMask_moves (onlyMoves_advance c 1 1 s), arrived, State.sw, (parkWait_sws c _ _ _).1]
  rfl

variable {c x k s}

theorem thread_arrived_mem {l : Nat} (hl : l ∈ x.lanes) (hm : hasLane (getMask s c k) l = true) :
    ((arrived c x k s).thread (c.th l)).wait = .waitm k ∧ ((arrived c x k s).thread (c.th l)).nextPc = nextHeader c.run := by
  rw [arrived, parkWait_thread, if_pos ⟨l, List.mem_filter.2 ⟨hl, hm⟩, rfl⟩]
  exact ⟨rfl, rfl⟩

theorem wait_arrived_not_mem {l : Nat} (hl : l ∉ x.lanes) : ((arrived c x k s).thread (c.th l)).wait = (s.thread (c.th l)).wait := by
  rw [arrived, parkWait_thread, if_neg fun ⟨j, hj, e⟩ => hl (c.th_inj.1 e ▸ (List.mem_filter.1 hj).1)]
  exact wait_still ((onlyMoves_advance c 1 1 s).threads _)

end

/-! ### The instructions -/

section
variable {s : State} {c : Ctx} {h : Shape} {x : Issue}

/-- MEET (R191): the mask has the executing lanes in place of those of the run, and each of these the label. -/
theorem meet_runs {m : MJWord} (r : Runs s (.meet m) c h x) :
    ∃ t, exec (.meet m) s = .next t ∧ OnlyMeets s t ∧ SameMemory s t
      ∧ getMask t c m.k.toNat = ((getMask s c m.k.toNat &&& ~~~c.run.lanes) ||| laneSet x.lanes) &&& BitVec.ofNat 64 (2 ^ c.width - 1)
      ∧ ∀ l ∈ x.lanes, (t.thread (c.th l)).mr = relTarget c m.off.toInt ||| 1 := by
  let masked := putMask c m.k.toNat ((getMask s c m.k.toNat &&& ~~~c.run.lanes) ||| laneSet x.lanes) s
  let labelled := putMr c (fun _ => relTarget c m.off.toInt ||| 1) x.lanes masked
  have moves : OnlyMoves labelled (pairOrder s c h x (advance c 1 1 labelled)) :=
    (onlyMoves_advance c 1 1 labelled).trans (onlyMoves_pairOrder s c h x _)
  have meets := ((onlyMeets_putMask c _ _ s).trans (onlyMeets_putMr c _ x.lanes masked)).trans moves.meets
  refine ⟨_, (exec_meet m s).trans (issue_runs r _), meets, meets.calm.sameMemory, (getMask_moves moves c _).trans ?_, fun l hl => ?_⟩
  · rw [getMask_putMr, getMask_putMask, if_pos rfl]
  · exact (mr_still (moves.threads _)).trans (congrArg Thread.mr (thread_putMr_mem c _ masked r.nodup hl))

/-- LEAVE (R194): the executing lanes are in the mask no longer, and their meeting registers are not valid. -/
theorem leave_runs {m : MJWord} (r : Runs s (.leave m) c h x) :
    ∃ t, exec (.leave m) s = .next t ∧ OnlyMeets s t ∧ SameMemory s t
      ∧ MaskSettled c s t m.k.toNat (getMask s c m.k.toNat &&& ~~~laneSet x.lanes &&& BitVec.ofNat 64 (2 ^ c.width - 1))
      ∧ ∀ l ∈ x.lanes, hasLane (getMask t c m.k.toNat) l = false ∧ (t.thread (c.th l)).mr.getLsbD 0 = false := by
  let masked := putMask c m.k.toNat (getMask s c m.k.toNat &&& ~~~laneSet x.lanes) s
  let cleared := putMr c (fun v => v &&& ~~~1) x.lanes masked
  have moves := onlyMoves_advance c 1 1 cleared
  have meets := ((onlyMeets_putMask c _ _ s).trans (onlyMeets_putMr c _ x.lanes masked)).trans moves.meets
  have mask := maskSettled_settled r meets (mask_named r rfl) (fun n => (getMask_moves moves c n).trans (getMask_putMr ..)) fun l hl => by
      have stays := thread_putMr_not_mem c (fun v => v &&& ~~~1) masked r.nodup (not_mem_of_mem_lanesOf_without hl)
      exact ⟨(wait_still (moves.threads _)).trans (congrArg Thread.wait stays), (mr_still (moves.threads _)).trans (congrArg Thread.mr stays)⟩
  refine ⟨settled s c h x (advance c 1 1 cleared), (exec_leave m s).trans (issue_runs r _), onlyMeets_settled meets,
    (onlyMeets_settled meets).calm.sameMemory, mask, fun l hl => ⟨hasLane_of_maskSettled mask hl (lane_lt_of_runs r hl), mr_settled ?_⟩⟩
  rw [mr_still (moves.threads _), thread_putMr_mem c _ masked r.nodup hl]
  simp

/-- WAITM (R195): the executing lanes of the mask wait, and go on at the next run when every thread of the mask is there. -/
theorem waitm_runs {m : MJWord} (landed : sfuPending s c.run.gid c.run.warp c.run.slice = false) (quiet : fpTest s c = 0)
    (r : Runs s (.waitm m) c h x) :
    ∃ t, exec (.waitm m) s = .next t ∧ OnlyMeets s t ∧ SameMemory s t
      ∧ ∀ l ∈ x.lanes, hasLane (getMask s c m.k.toNat) l = true →
        ((∃ j ∈ lanesOf (getMask s c m.k.toNat), j ∉ x.lanes ∧ (s.thread (c.th j)).wait ≠ .waitm m.k.toNat) →
          (t.thread (c.th l)).wait = .waitm m.k.toNat ∧ (t.thread (c.th l)).nextPc = nextHeader c.run)
        ∧ ((∀ j ∈ lanesOf (getMask s c m.k.toNat), j ∈ x.lanes ∨ (s.thread (c.th j)).wait = .waitm m.k.toNat) →
          (t.thread (c.th l)).wait = .none ∧ (t.thread (c.th l)).pc = nextHeader c.run ∧ (t.thread (c.th l)).pos = none) := by
  have meets := onlyMeets_arrived c x m.k.toNat s
  have mask : mget ((arrived c x m.k.toNat s).sw (swKey c.run.gid c.run.warp c.run.slice)).masks m.k.toNat 0 = getMask s c m.k.toNat :=
    masks_arrived c x m.k.toNat s m.k.toNat
  obtain ⟨-, -, stay, go⟩ := settle_spec c.run.gid c.run.warp c.run.slice (arrived c x m.k.toNat s)
  have stay := stay m.k.toNat
  have go := go m.k.toNat (r.masks_lt _ (mask_named r rfl)) (group_live r meets)
  rw [mask] at stay go
  refine ⟨settled s c h x (arrived c x m.k.toNat s), (exec_waitm m s).trans ((issue_runs r _).trans ?_), onlyMeets_settled meets,
    (onlyMeets_settled meets).calm.sameMemory, fun l hl hm => ?_⟩
  · rw [deliver_of_quiet landed quiet]
    rfl
  · have listed := (mem_lanesOf_iff_hasLane (lane_lt_of_runs r hl)).2 hm
    obtain ⟨wait, next⟩ := thread_arrived_mem hl hm
    rw [thread_settled]
    refine ⟨fun ⟨j, hj, absent, elsewhere⟩ => ?stays, fun all => ?goes⟩
    case stays =>
      rw [Ctx.th, Ctx.sw, stay l listed wait ⟨j, hj, (wait_arrived_not_mem absent).symm ▸ elsewhere⟩]
      exact ⟨wait, next⟩
    case goes =>
      have woken := go l listed fun j hj => by
        by_cases executes : j ∈ x.lanes
        · exact (thread_arrived_mem executes ((mem_lanesOf_iff_hasLane (lt_of_mem_lanesOf hj)).1 hj)).1
        · exact (wait_arrived_not_mem executes).trans ((all j hj).resolve_left executes)
      rw [Ctx.th, Ctx.sw, woken]
      exact ⟨rfl, next, rfl⟩

/-- MWR, MAND, MOR (R198): the elected thread writes the mask, and the conditions are tested; with no such thread nothing is written. -/
theorem maskWrite_runs {i : Instr} {k : Nat} {f : W64 → W64 → W64} (he : exec i s = maskWrite i k f s)
    (first : (shape i).map (·.masks.head?) = some (some k)) (r : Runs s i c h x) :
    ∃ t, exec i s = .next t ∧ OnlyMeets s t ∧ SameMemory s t
      ∧ (∀ l, x.lanes.head? = some l → MaskSettled c s t k (f (getMask s c k) (src64 s c h l 0) &&& BitVec.ofNat 64 (2 ^ c.width - 1)))
      ∧ (x.lanes = [] → OnlyMoves s t) := by
  refine ⟨_, he.trans (issue_runs r _), ?_⟩
  obtain ⟨lanes, uniform, pops⟩ := x
  cases lanes with
  | nil =>
    have moves := (onlyMoves_advance c 1 1 s).trans (onlyMoves_pairOrder s c h ⟨[], uniform, pops⟩ _)
    exact ⟨moves.meets, moves.calm.sameMemory, nofun, fun _ => moves⟩
  | cons l ls =>
    have moves := onlyMoves_advance c 1 1 (putMask c k (f (getMask s c k) (src64 s c h l 0)) s)
    have meets := (onlyMeets_putMask c k _ s).trans moves.meets
    refine ⟨onlyMeets_settled meets, (onlyMeets_settled meets).calm.sameMemory, fun l' hl => ?_, nofun⟩
    cases hl
    exact maskSettled_settled r meets (mask_named r first) (getMask_moves moves c) fun j _ =>
      ⟨wait_still (moves.threads _), mr_still (moves.threads _)⟩

end

/-- Settles O17: each instruction by its own lemma, over the one test of the release conditions. -/
theorem meetings : Obligations.Meetings := by
  unfold Obligations.Meetings
  intro m k s c h x
  exact ⟨meet_runs, leave_runs, waitm_runs, maskWrite_runs (exec_mwr k s) rfl,
    maskWrite_runs (exec_mand k s) rfl, maskWrite_runs (exec_mor k s) rfl⟩

end Sys2Proof.Proofs
end

section
/-! The end of a slice by EXIT (spec/02 R48; 08 R189, R196; 13 R297): each executing lane ends its thread, leaves every mask and closes the
queues it fills. -/

namespace Sys2Proof.Proofs

open Sys2Proof Sys2Proof.Machine Sys2Proof.Laws

/-! ### Changes made once or more than once -/

/-- A fold each of whose steps makes one change at the keys of its member, a change twice being the change once, makes it at the keys of
all its members. -/
theorem foldl_changes {α κ β : Type} {get : State → κ → β} {f : State → α → State} {at_ : α → κ → Prop} [∀ a k, Decidable (at_ a k)]
    {g : β → β} (hg : ∀ y, g (g y) = g y) (hf : ∀ s a k, get (f s a) k = if at_ a k then g (get s k) else get s k)
    (l : List α) (s : State) (k : κ) :
    get (l.foldl f s) k = if ∃ a ∈ l, at_ a k then g (get s k) else get s k := by
  induction l generalizing s with
  | nil => simp
  | cons a l ih =>
    rw [List.foldl_cons, ih, hf]
    by_cases here : at_ a k
    · simp [here, hg]
    · simp [here]

/-! ### One thread ends -/

/-- A thread that has ended its slice. -/
def endThread (th : Thread) : Thread := { th with exited := true, mr := th.mr &&& ~~~(1 : W64), latch := [], latchUni := [] }

theorem endThread_endThread (th : Thread) : endThread (endThread th) = endThread th := by
  simp [endThread, BitVec.and_assoc]

/-- A queue closed (R297). -/
def closeQueue (q : Queue) : Queue := { q with closed := true }

/-- What EXIT changes of its slice-warp and thread in one lane, before the queues. -/
def exitLane (c : Ctx) (l : Nat) (s : State) : State :=
  updSw c.sw (fun x => { x with masks := x.masks.map (fun e => (e.1, e.2 &&& ~~~laneBit l)) }) (updTh (c.th l) endThread s)

theorem exitThread_eq (c : Ctx) (l : Nat) (s : State) : exitThread c l s =
    if c.g.launch.decoupled then (producedQueues c.run.slice).foldl (fun t q => updQ (c.q l q) closeQueue t) (exitLane c l s) else exitLane c l s := rfl

/-- Beside the queues, an ending thread changes what exitLane says. -/
theorem onlyQueues_exitThread (c : Ctx) (l : Nat) (s : State) : OnlyQueues (exitLane c l s) (exitThread c l s) (fun _ => True) := by
  rw [exitThread_eq]
  split
  · exact onlyQueues_foldl _ _ _ (fun t q _ => onlyQueues_updQ _ _ t _ trivial) _
  · exact .refl _ _

theorem calm_exitThread (c : Ctx) (l : Nat) (s : State) : Calm s (exitThread c l s) :=
  ((calm_updTh _ _ s).trans (calm_updSw _ _ _)).trans (onlyQueues_exitThread c l s).calm

theorem thread_exitThread (c : Ctx) (l : Nat) (s : State) (k : Nat) :
    (exitThread c l s).thread k = if k = c.th l then endThread (s.thread k) else s.thread k := by
  rw [(onlyQueues_exitThread c l s).thread, exitLane, thread_updSw, thread_updTh]
  split
  · rename_i e; rw [e]
  · rfl

theorem unmasked_exitThread (c : Ctx) (l : Nat) (s : State) (k : Nat) : ((exitThread c l s).sw k).unmasked = (s.sw k).unmasked := by
  rw [(onlyQueues_exitThread c l s).sw, exitLane, sw_updSw]
  split
  · rename_i e; rw [e]; rfl
  · rfl

theorem hasLane_and_not_laneBit (m : BitVec 64) {l j : Nat} (hj : j < 64) :
    hasLane (m &&& ~~~laneBit l) j = if l = j then false else hasLane m j := by
  simp only [hasLane, bitOf_ofNat, BitVec.getLsbD_and, BitVec.getLsbD_not, laneBit, getLsbD_two_pow, hj, decide_true, Bool.true_and, eq_comm]
  split <;> simp [*]

theorem getMask_exitThread (c : Ctx) (l : Nat) (s : State) (k : Nat) : getMask (exitThread c l s) c k = getMask s c k &&& ~~~laneBit l := by
  rw [getMask, (onlyQueues_exitThread c l s).sw, exitLane, sw_updSw_self, sw_updTh, getMask, mget, mget?_map, mget]
  cases mget? (s.sw c.sw).masks k with
  | none => exact (BitVec.zero_and).symm
  | some m => rfl

theorem queue_exitThread (c : Ctx) (l : Nat) (s : State) (k : Nat) : (exitThread c l s).queue k =
    if c.g.launch.decoupled = true ∧ ∃ q ∈ producedQueues c.run.slice, k = c.q l q then closeQueue (s.queue k) else s.queue k := by
  rw [exitThread_eq]
  by_cases decoupled : c.g.launch.decoupled = true
  · rw [if_pos decoupled]
    simp only [decoupled, true_and]
    refine (foldl_changes (get := State.queue) (at_ := fun q k => k = c.q l q) (g := closeQueue) (fun _ => rfl) (fun t q k => ?_) _ _ k)
    rw [queue_updQ]
    split
    · rename_i e; rw [e]
    · rfl
  · simp only [decoupled]
    rfl

/-! ### All the lanes end -/

/-- The state after EXIT of some lanes, before what follows is tested. -/
def exitLanes (c : Ctx) (lanes : List Nat) (s : State) : State :=
  advance c 1 1 (leaveRun c lanes (lanes.foldl (fun t l => exitThread c l t) s))

section
variable (c : Ctx) (lanes : List Nat) (s : State)

/-- After the lanes have ended, where threads stand alone changes. -/
theorem onlyMoves_exitLanes : OnlyMoves (lanes.foldl (fun t l => exitThread c l t) s) (exitLanes c lanes s) :=
  (onlyMoves_leaveRun c lanes _).trans (onlyMoves_advance c 1 1 _)

theorem calm_exitLanes : Calm s (exitLanes c lanes s) :=
  (calm_foldl _ (fun t l => calm_exitThread c l t) lanes s).trans (onlyMoves_exitLanes c lanes s).calm

theorem still_exitLanes (k : Nat) :
    ((exitLanes c lanes s).thread k).still = (if ∃ l ∈ lanes, k = c.th l then endThread (s.thread k) else s.thread k).still := by
  rw [(onlyMoves_exitLanes c lanes s).threads, foldl_changes (get := State.thread) (at_ := fun l k => k = c.th l) endThread_endThread
    fun t l k => thread_exitThread c l t k]

theorem unmasked_exitLanes (k : Nat) : ((exitLanes c lanes s).sw k).unmasked = (s.sw k).unmasked :=
  ((onlyMoves_exitLanes c lanes s).meets.sws k).trans
    (foldl_keep (fun t => (t.sw k).unmasked) _ (fun t l => unmasked_exitThread c l t k) lanes s)

theorem hasLane_exitLanes (k : Nat) {j : Nat} (hj : j < 64) :
    hasLane (getMask (exitLanes c lanes s) c k) j = (hasLane (getMask s c k) j && decide (j ∉ lanes)) := by
  rw [getMask_moves (onlyMoves_exitLanes c lanes s), foldl_changes (get := fun t k => hasLane (getMask t c k) j) (at_ := fun l _ => l = j)
    (g := fun _ => false) (fun _ => rfl) fun t l k => by rw [getMask_exitThread, hasLane_and_not_laneBit _ hj]]
  by_cases here : j ∈ lanes <;> simp [here]

theorem queue_exitLanes (k : Nat) : (exitLanes c lanes s).queue k =
    if c.g.launch.decoupled = true ∧ ∃ l ∈ lanes, ∃ q ∈ producedQueues c.run.slice, k = c.q l q then { s.queue k with closed := true }
    else s.queue k := by
  rw [(onlyMoves_exitLanes c lanes s).queues, foldl_changes (get := State.queue) (g := closeQueue) (fun _ => rfl) fun t l k => queue_exitThread c l t k]
  exact if_congr ⟨fun ⟨l, hl, d, q⟩ => ⟨d, l, hl, q⟩, fun ⟨d, l, hl, q⟩ => ⟨l, hl, d, q⟩⟩ rfl rfl

end

/-! ### The obligation -/

/-- An instruction that names no queue makes no order at pair scope. -/
theorem pairOrder_of_no_queue {b : State} {c : Ctx} {h : Shape} {x : Issue} (reads : h.reads = []) (write : h.write = none) (queue : h.queue = none)
    (s : State) : pairOrder b c h x s = s := by
  have pops : popsQueue h = false := by rw [popsQueue, popList, reads, queue]; rfl
  have pushes : pushOf h = none := by rw [pushOf, write]
  rw [pairOrder, pops, pushes]
  exact ite_self s

/-- EXIT that may execute, at a delivery point with nothing to deliver (R185, R189). -/
theorem exec_exit_runs {w : RWord} {s : State} {c : Ctx} {h : Shape} {x : Issue} (r : Runs s (.exit w) c h x)
    (landed : sfuPending s c.run.gid c.run.warp c.run.slice = false) (quiet : fpTest s c = 0) :
    exec (.exit w) s
      = .next (reapGroup c.run.gid (testSlots c.run.gid (settle c.run.gid c.run.warp c.run.slice (exitLanes c x.lanes s)))) := by
  have shaped := Option.some.inj r.2.1
  rw [exec_exit, execExit, issue_runs r, pairOrder_of_no_queue (by rw [← shaped]; rfl) (by rw [← shaped]; rfl) (by rw [← shaped]; rfl)]
  simp only [deliver_of_quiet landed quiet, ite_self]
  rfl

/-- Settles O24: an ended thread differs from what it was in what EXIT changes alone, and every mask and queue from the lanes that end. -/
theorem exits : Obligations.Exits := by
  unfold Obligations.Exits
  intro w s c h x r landed quiet
  have still := still_exitLanes c x.lanes s
  refine ⟨_, exec_exit_runs r landed quiet, calm_exitLanes c x.lanes s, fun l hl => ?ends, fun k hk => ?others, fun k code => ?registers,
    fun k => ?preds, unmasked_exitLanes c x.lanes s, fun k l => hasLane_exitLanes c x.lanes s k, queue_exitLanes c x.lanes s⟩
  case ends =>
    have here := still (c.th l)
    rw [if_pos ⟨l, hl, rfl⟩] at here
    refine ⟨(congrArg Thread.exited here : _), ?_⟩
    rw [mr_still here]
    simp [endThread]
  case others => rw [still, if_neg fun ⟨l, hl, e⟩ => hk l hl e]
  case registers =>
    rw [readCode_still (still k)]
    split <;> rfl
  case preds =>
    refine (congrArg Thread.pred (still k) :).trans ?_
    split <;> rfl

end Sys2Proof.Proofs
end

section
/-! Writes of memory at a home (spec/09 R204, R215, R219, R221): a sector made to stand under a key, the bytes written over it, and the units
that lose their poison. -/

namespace Sys2Proof.Proofs

open Sys2Proof Sys2Proof.Machine Sys2Proof.Laws

/-! ### Bytes of numbers (R7) -/

theorem length_bytesLE (n x : Nat) : (bytesLE n x).length = n := by
  induction n generalizing x with
  | zero => rfl
  | succ n ih => rw [bytesLE, List.length_cons, ih]

theorem getD_bytesLE {n i : Nat} (x : Nat) (h : i < n) : (bytesLE n x).getD i 0 = BitVec.ofNat 8 (x / 256 ^ i) := by
  induction n generalizing x i with
  | zero => omega
  | succ n ih =>
    cases i with
    | zero => simp [bytesLE]
    | succ i => rw [bytesLE, List.getD_cons_succ, ih _ (by omega), Nat.div_div_eq_div_mul, Nat.pow_succ']

/-- A byte of a sector, as its little-endian bytes hold it. -/
theorem getD_bytesLE_toNat {n i w : Nat} (v : BitVec w) (h : i < n) : (bytesLE n v.toNat).getD i 0 = v.extractLsb' (8 * i) 8 := by
  apply BitVec.eq_of_toNat_eq
  rw [getD_bytesLE _ h, BitVec.toNat_ofNat, BitVec.extractLsb'_toNat, Nat.shiftRight_eq_div_pow, Nat.pow_mul]

/-! ### Sectors (R206, R219) -/

/-- A sector lies in one reticle, and in its DRAM or outside it. -/
theorem retOf_of_sector {a b : Nat} (h : a / 32 = b / 32) : retOf a = retOf b := by unfold retOf; omega

theorem isDram_of_sector {a b : Nat} (h : a / 32 = b / 32) : isDram a = isDram b := by
  unfold isDram localOf
  exact decide_eq_decide.mpr (by omega)

/-- A byte read depends on no more of memory than its own byte and, in DRAM, its sector and the key that the sector stands under. -/
theorem readByteKey_local {s t : State} (hd : t.mods = s.mods) (id : Nat) {b : Nat} (own : cellGet t.mem b = cellGet s.mem b)
    (key : isDram b = true → mget? t.sectorKey (b / 32) = mget? s.sectorKey (b / 32))
    (sector : isDram b = true → ∀ c, c / 32 = b / 32 → cellGet t.mem c = cellGet s.mem c) : readByteKey t id b = readByteKey s id b := by
  unfold readByteKey
  split
  case isFalse => exact own
  case isTrue dram =>
    have plain : sectorPlain t (b / 32) = sectorPlain s (b / 32) := by
      refine congrArg (fun bs => BitVec.ofNat 256 (ofBytesLE bs)) (List.map_congr_left fun c hc => sector dram c ?_)
      have := mem_upFrom.mp hc
      omega
    have under (mat : Option (BitVec 512)) : sectorUnder t mat (b / 32) = sectorUnder s mat (b / 32) := by
      unfold sectorUnder
      rw [key dram, plain]
    have mat : keyMat t (retOf b) id = keyMat s (retOf b) id := by rw [keyMat, keyMat, State.mod, State.mod, hd]
    rw [key dram, own, mat, under]

/-- Under the key that its sector stands under, a byte reads as it is held. -/
theorem readByteKey_keyed {s : State} {id a : Nat} (dram : isDram a = true)
    (same : mget? s.sectorKey (a / 32) = keyMat s (retOf a) id) : readByteKey s id a = cellGet s.mem a := by
  unfold readByteKey
  rw [if_pos dram, same]
  cases e : keyMat s (retOf a) id with
  | none => rfl
  | some k => exact if_pos rfl

/-- A byte written raw reads back, and every other is as before. -/
theorem cellGet_writeRaw (s : State) (a : Nat) (bs : List Byte) (b : Nat) :
    cellGet (writeRaw s a bs).mem b = if a ≤ b ∧ b < a + bs.length then bs.getD (b - a) 0 else cellGet s.mem b :=
  cellGet_cellsPut s.mem a bs b

/-! ### A sector comes under a key (R219) -/

section

variable {s : State} {id a : Nat} {k : BitVec 512} (loaded : keyMat s (retOf a) id = some k)
include loaded

/-- The sector stands under the key, and every other sector under the key it had. -/
theorem sectorKey_rekeySector (j : Nat) :
    mget? (rekeySector s id (a / 32)).sectorKey j = if j = a / 32 then some k else mget? s.sectorKey j := by
  unfold rekeySector
  rw [retOf_of_sector (show a / 32 * 32 / 32 = a / 32 by omega), loaded]
  dsimp only
  split
  · exact mget?_mput s.sectorKey _ j k
  · split
    case h_2.isTrue stands same =>
      subst same
      split_ifs with h
      · rw [h, stands]
      · rfl
    · exact mget?_mput s.sectorKey _ j k

/-- The bytes of the sector become what the key read there, and every other byte is as before. -/
theorem cellGet_rekeySector (dram : isDram a = true) (b : Nat) :
    cellGet (rekeySector s id (a / 32)).mem b = if b / 32 = a / 32 then readByteKey s id b else cellGet s.mem b := by
  have reads : b / 32 = a / 32 → isDram b = true ∧ keyMat s (retOf b) id = some k := fun h =>
    ⟨(isDram_of_sector h).trans dram, by rw [retOf_of_sector h, loaded]⟩
  unfold rekeySector
  rw [retOf_of_sector (show a / 32 * 32 / 32 = a / 32 by omega), loaded]
  dsimp only
  split
  case h_1 fresh =>
    split_ifs with h
    · simp [readByteKey, (reads h).1, h, fresh]
    · rfl
  case h_2 k' stands =>
    split
    case isTrue same =>
      split_ifs with h
      · rw [readByteKey_keyed (reads h).1 (by rw [h, stands, (reads h).2, same])]
      · rfl
    case isFalse other =>
      refine (cellGet_writeRaw s _ _ b).trans ?_
      rw [length_bytesLE]
      by_cases h : b / 32 = a / 32
      · rw [if_pos (by omega), if_pos h, getD_bytesLE_toNat _ (by omega), show b - a / 32 * 32 = b % 32 by omega]
        simp [readByteKey, (reads h).1, (reads h).2, h, stands, Ne.symm other]
      · rw [if_neg (by omega), if_neg h]

end

/-! ### What follows a write -/

/-- Memory, the keys of its sectors and its poison. -/
def stored (s : State) : List Host.Cell × SMap (BitVec 512) × NSet := (s.mem, s.sectorKey, s.poison)

theorem stored_llcFill (line : Nat) (d : Bool) (s : State) : stored (llcFill line d s) = stored s := by
  unfold llcFill
  dsimp only
  split <;> rfl

theorem stored_noteOverflow (before s : State) (sec : Nat) : stored (noteOverflow before s sec) = stored s := by
  unfold noteOverflow
  dsimp only
  split
  · rfl
  · split <;> rfl

theorem poison_rekeySector (s : State) (id sec : Nat) : (rekeySector s id sec).poison = s.poison := by
  unfold rekeySector
  split
  · rfl
  · split
    · rfl
    · split
      · rfl
      · generalize bytesLE 32 _ = bs
        rfl

/-- The units that a write covers whole lose their poison, and its watches are dropped (R215, R221, R263). -/
def clearUnits (s : State) (a n : Nat) : State :=
  { wakeWatches a n s with poison := (unitsOf a n).foldl (fun p u =>
      if decide (a ≤ u) && decide (u + unitSize a ≤ a + n) then sdel p u else p) s.poison }

theorem writeKey_eq (s : State) (id a : Nat) (bs : List Byte) : writeKey s id a bs =
    if isDram a then
      let secs := (unitsOf a bs.length).map (· / 32)
      let put := writeRaw (secs.foldl (fun t sec => rekeySector t id sec) (clearUnits s a bs.length)) a bs
      let put := secs.foldl (fun t sec => llcFill (sec / 4) true t) put
      secs.foldl (fun t sec => noteOverflow s t sec) put
    else writeRaw (clearUnits s a bs.length) a bs := rfl

/-- Nothing after the clearing of units touches poison. -/
theorem poison_writeKey (s : State) (id a : Nat) (bs : List Byte) : (writeKey s id a bs).poison = (clearUnits s a bs.length).poison := by
  rw [writeKey_eq]
  split
  case isFalse => rfl
  case isTrue =>
    refine (congrArg (·.2.2) ((foldl_keep stored _ (stored_noteOverflow s) _ _).trans
      (foldl_keep stored _ (fun t sec => stored_llcFill (sec / 4) true t) _ _)) :).trans ?_
    exact foldl_keep State.poison _ (fun t sec => poison_rekeySector t id sec) _ _

/-- Members that a test chooses leave a set, and no others. -/
theorem smem_foldl_sdel (c : Nat → Bool) (l : List Nat) (p : NSet) (u : Nat) :
    smem (l.foldl (fun p u => if c u then sdel p u else p) p) u = (smem p u && !(l.contains u && c u)) := by
  induction l generalizing p with
  | nil => simp
  | cons v l ih =>
    rw [List.foldl_cons, ih, List.contains_cons]
    by_cases e : u = v
    · subst e
      cases c u <;> simp [smem_sdel]
    · cases c v <;> simp [smem_sdel, e, beq_false_of_ne e]

/-! ### A write under a key -/

/-- A write within one sector touches one unit. -/
theorem unitsOf_sector {a n : Nat} (dram : isDram a = true) (hn : n ≠ 0) (one : a / 32 = (a + n - 1) / 32) : unitsOf a n = [a / 32 * 32] := by
  have count : ceilDiv (a + n - a / 32 * 32) 32 = 1 := by unfold ceilDiv; omega
  simp [unitsOf, unitBase, unitSize, dram, count, upFrom]

/-- Within one sector of DRAM, the sector comes under the key and the bytes are written over it. -/
theorem stored_writeKey_dram {s : State} (id : Nat) {a : Nat} {bs : List Byte} (dram : isDram a = true) (hbs : bs ≠ [])
    (one : a / 32 = (a + bs.length - 1) / 32) :
    stored (writeKey s id a bs) = stored (writeRaw (rekeySector (clearUnits s a bs.length) id (a / 32)) a bs) := by
  rw [writeKey_eq, if_pos dram, unitsOf_sector dram (by simpa using hbs) one]
  simp only [List.map_cons, List.map_nil, List.foldl_cons, List.foldl_nil]
  rw [stored_noteOverflow, stored_llcFill, show a / 32 * 32 / 32 = a / 32 by omega]

theorem mods_writeKey (s : State) (id a : Nat) (bs : List Byte) : (writeKey s id a bs).mods = s.mods := (onlyStores_writeKey s id a bs).mods

section

variable {s : State} {id a : Nat} {k : BitVec 512} {bs : List Byte} (dram : isDram a = true) (hbs : bs ≠ [])
  (one : a / 32 = (a + bs.length - 1) / 32) (loaded : keyMat s (retOf a) id = some k)
include dram hbs one loaded

/-- What memory holds after a write in DRAM. -/
theorem cellGet_writeKey_dram (b : Nat) : cellGet (writeKey s id a bs).mem b =
    if a ≤ b ∧ b < a + bs.length then bs.getD (b - a) 0 else if b / 32 = a / 32 then readByteKey s id b else cellGet s.mem b := by
  have e := congrArg Prod.fst (stored_writeKey_dram (s := s) id dram hbs one)
  have same : readByteKey (clearUnits s a bs.length) id b = readByteKey s id b := readByteKey_congr rfl rfl rfl id b
  rw [show (writeKey s id a bs).mem = _ from e]
  refine (cellGet_writeRaw _ a bs b).trans ?_
  rw [cellGet_rekeySector (s := clearUnits s a bs.length) loaded dram, same]
  rfl

theorem sectorKey_writeKey_dram (j : Nat) :
    mget? (writeKey s id a bs).sectorKey j = if j = a / 32 then some k else mget? s.sectorKey j := by
  have e := congrArg (·.2.1) (stored_writeKey_dram (s := s) id dram hbs one)
  rw [show (writeKey s id a bs).sectorKey = _ from e]
  exact sectorKey_rekeySector (s := clearUnits s a bs.length) loaded j

/-- Under the key of the write its bytes read back, and the rest of the sector reads as before. -/
theorem readByteKey_writeKey_sector {b : Nat} (h : b / 32 = a / 32) :
    readByteKey (writeKey s id a bs) id b = if a ≤ b ∧ b < a + bs.length then bs.getD (b - a) 0 else readByteKey s id b := by
  have key : keyMat (writeKey s id a bs) (retOf b) id = some k := by
    rw [retOf_of_sector h, keyMat, State.mod, mods_writeKey]
    exact loaded
  rw [readByteKey_keyed ((isDram_of_sector h).trans dram) (by rw [key, sectorKey_writeKey_dram dram hbs one loaded, if_pos h]),
    cellGet_writeKey_dram dram hbs one loaded, if_pos h]

/-- Every other sector reads as before under every key. -/
theorem readByteKey_writeKey_other (any : Nat) {b : Nat} (h : b / 32 ≠ a / 32) :
    readByteKey (writeKey s id a bs) any b = readByteKey s any b := by
  have off (c : Nat) (hc : c / 32 = b / 32) : cellGet (writeKey s id a bs).mem c = cellGet s.mem c := by
    rw [cellGet_writeKey_dram dram hbs one loaded, if_neg (by omega), if_neg (by omega)]
  exact readByteKey_local (mods_writeKey s id a bs) any (off b rfl)
    (fun _ => by rw [sectorKey_writeKey_dram dram hbs one loaded, if_neg h]) fun _ => off

end

/-- Outside DRAM a write puts its bytes under every key, and every other byte reads as before: no sector of DRAM holds any of them. -/
theorem readByteKey_writeKey_raw {s : State} (id : Nat) {a : Nat} {bs : List Byte} (raw : isDram a = false)
    (range : ∀ b, a ≤ b → b < a + bs.length → isDram b = false) (any b : Nat) :
    readByteKey (writeKey s id a bs) any b = if a ≤ b ∧ b < a + bs.length then bs.getD (b - a) 0 else readByteKey s any b := by
  have e : writeKey s id a bs = writeRaw (clearUnits s a bs.length) a bs := by rw [writeKey_eq, raw]; rfl
  have held (c : Nat) : cellGet (writeKey s id a bs).mem c = if a ≤ c ∧ c < a + bs.length then bs.getD (c - a) 0 else cellGet s.mem c := by
    rw [e]
    exact cellGet_writeRaw _ a bs c
  split
  case isTrue h => rw [readByteKey, range b h.1 h.2, if_neg Bool.false_ne_true, held, if_pos h]
  case isFalse h =>
    refine readByteKey_local (mods_writeKey s id a bs) any (by rw [held, if_neg h]) (fun _ => by rw [e]; rfl) fun dram c hc => ?_
    rw [held, if_neg]
    rintro ⟨lo, hi⟩
    exact Bool.false_ne_true ((range c lo hi).symm.trans ((isDram_of_sector hc).trans dram))

/-- Settles O45: in DRAM the one sector comes under the key before it is written; elsewhere the bytes are only put. -/
theorem memoryWrites : Obligations.MemoryWrites := by
  unfold Obligations.MemoryWrites
  intro s id a bs hbs hdram hraw t
  have reads : (∀ b, readByteKey t id b = if a ≤ b ∧ b < a + bs.length then bs.getD (b - a) 0 else readByteKey s id b)
      ∧ ∀ any b, b / 32 ≠ a / 32 → b < a ∨ a + bs.length ≤ b → readByteKey t any b = readByteKey s any b := by
    cases dram : isDram a with
    | true =>
      obtain ⟨known, one⟩ := hdram dram
      obtain ⟨k, loaded⟩ := Option.isSome_iff_exists.mp known
      have other (any b : Nat) := readByteKey_writeKey_other dram hbs one loaded any (b := b)
      refine ⟨fun b => ?_, fun any b h _ => other any b h⟩
      by_cases h : b / 32 = a / 32
      · exact readByteKey_writeKey_sector dram hbs one loaded h
      · rw [if_neg (by omega)]
        exact other id b h
    | false =>
      have all := readByteKey_writeKey_raw (s := s) id dram (hraw dram)
      exact ⟨all id, fun any b _ out => (all any b).trans (if_neg (by omega))⟩
  refine ⟨fun k hk => ?written, fun b out => ?_, reads.2, fun u => ?poison, onlyStores_writeKey s id a bs, keepsWf_writeKey s id a bs⟩
  case written => rw [reads.1, if_pos (by omega), Nat.add_sub_cancel_left]
  case poison =>
    rw [show t.poison = _ from poison_writeKey s id a bs, clearUnits, smem_foldl_sdel, Bool.and_assoc]
  · rw [reads.1, if_neg (by omega)]

end Sys2Proof.Proofs
end

section
/-! Requests performed at their homes (spec/09 R222; 10 R226, R235; 11 R251, R252, R258, R259): what each kind does there, and what no request
touches. -/

namespace Sys2Proof.Proofs

open Sys2Proof Sys2Proof.Machine Sys2Proof.Laws

/-! ### Atomic operations (R258) -/

theorem zextInt_natCast (x n : Nat) : zextInt (x : Int) n = x % 2 ^ n := by
  rw [zextInt, ← Int.natCast_emod, Int.toNat_natCast]

/-- The signed reading of all the bits of a word. -/
theorem sextInt_toNat {w : Nat} (hw : 0 < w) (x : BitVec w) : sextInt x.toNat w = x.toInt := by
  have half : 2 * 2 ^ (w - 1) = 2 ^ w := mul_pow_sub_one hw.ne' 2
  have sign : x.toNat < 2 ^ (w - 1) ↔ 2 * x.toNat < 2 ^ w := by omega
  simp only [sextInt, Nat.mod_eq_of_lt x.isLt, sign, BitVec.toInt_eq_toNat_cond]

/-- The operand of an atomic at its width, in 64 bits. -/
theorem zextInt_setWidth {w : Nat} (hw : w ≤ 64) (x : BitVec w) : zextInt (x.setWidth 64).toNat w = x.toNat := by
  have wide : x.toNat < 2 ^ 64 := x.isLt.trans_le (Nat.pow_le_pow_right two_pos hw)
  rw [zextInt_natCast, BitVec.toNat_setWidth, Nat.mod_eq_of_lt wide, Nat.mod_eq_of_lt x.isLt]

/-- The integer operations of an atomic of either width are those of its words. -/
theorem applyAop_integer {w : Nat} {wide : Bool} (hw : (if wide then 64 else 32) = w) (o y c : BitVec w) :
    let aop := fun n => applyAop n wide (o.setWidth 64) (y.setWidth 64) (c.setWidth 64)
    aop 0 = (o + y).setWidth 64 ∧ aop 2 = (if o.toInt ≤ y.toInt then o else y).setWidth 64
    ∧ aop 3 = (if o.toInt ≥ y.toInt then o else y).setWidth 64 ∧ aop 4 = (if o.toNat ≤ y.toNat then o else y).setWidth 64
    ∧ aop 5 = (if o.toNat ≥ y.toNat then o else y).setWidth 64 ∧ aop 8 = (o &&& y).setWidth 64 ∧ aop 9 = (o ||| y).setWidth 64
    ∧ aop 10 = (o ^^^ y).setWidth 64 ∧ aop 11 = y.setWidth 64 ∧ aop 12 = (if o = c then y else o).setWidth 64 := by
  have fits : 0 < w ∧ w ≤ 64 := by split_ifs at hw <;> omega
  have choose (p : Prop) [Decidable p] (a b : BitVec w) : (if p then a else b).setWidth 64 = if p then a.setWidth 64 else b.setWidth 64 :=
    apply_ite _ p a b
  simp only [applyAop, hw, zextInt_setWidth fits.2, sextInt_toNat fits.1, BitVec.ofNat_toNat, choose, BitVec.toNat_inj, BitVec.setWidth_and,
    BitVec.setWidth_or, BitVec.setWidth_xor, ← BitVec.toNat_add, and_self]

/-- The fp32 addition of an atomic, under the nearest-even mode. -/
theorem applyAop_fadd (o y c : W32) :
    applyAop 1 false (o.setWidth 64) (y.setWidth 64) (c.setWidth 64) = BitVec.ofNat 64 (fp32.add 0 o.toNat y.toNat).1 := by
  have narrow := zextInt_setWidth (w := 32) (by decide)
  simp only [applyAop, Bool.false_eq_true, if_false, narrow]

/-! ### What a request leaves -/

/-- Operations in flight, groups, and the registers and queues of their threads. -/
def working (s : State) : SMap Flight × SMap Thread × SMap SliceWarp × SMap Queue × SMap Group :=
  (s.flight, s.threads, s.sws, s.queues, s.groups)

theorem working_of_onlyStores {s t : State} (h : OnlyStores s t) : working t = working s := by
  simp only [working, h.flight, h.threads, h.sws, h.queues, h.groups]

theorem working_writeQcb (m root : Nat) (q : CmdQueue) (s : State) : working (writeQcb m root q s) = working s := by
  unfold writeQcb
  cases e : writeVa s m root (q.qcb + 16) (bytesLE 4 q.cidx.toNat ++ bytesLE 4 q.state) with
  | none => rfl
  | some t => exact working_of_onlyStores (onlyStores_writeVa e)

theorem working_stopQueue (m k st : Nat) (s : State) : working (stopQueue m k st s) = working s := by
  unfold stopQueue
  split
  · rfl
  · exact working_writeQcb m _ _ _

theorem working_postTo (m k : Nat) (pidx : W32) (who : Poster) (s : State) : working (postTo m k pidx who s) = working s := by
  unfold postTo
  split
  · rfl
  · dsimp only
    split
    · exact working_stopQueue m k 2 _
    · rfl

theorem working_ringDoorbell (m n : Nat) (pidx : W32) (who : Poster) (s : State) : working (ringDoorbell m n pidx who s) = working s := by
  have rung : working (if mget (s.mod m).doorbells n 0 = pidx then s
      else wakeDoorbell m n (updMod m (fun x => { x with doorbells := mput x.doorbells n pidx }) s)) = working s := by split <;> rfl
  unfold ringDoorbell
  dsimp only
  split
  · exact (working_postTo m _ pidx who _).trans rung
  · exact rung

theorem working_deviceChanged (pa : Nat) (before s : State) : working (deviceChanged pa before s) = working s := by
  unfold deviceChanged
  split <;> rfl

theorem working_deviceWrite (pa n v : Nat) (who : Poster) (s : State) : working (deviceWrite pa n v who s) = working s := by
  unfold deviceWrite
  dsimp only
  rw [working_deviceChanged]
  split
  · exact working_ringDoorbell _ _ _ who s
  · split
    · rfl
    · split <;> rfl

theorem working_writeHome (f : Flight) (pa : Nat) (bs : List Byte) (s : State) : working (writeHome f pa bs s) = working s := by
  unfold writeHome
  split
  · exact working_deviceWrite pa _ _ _ s
  · split
    · simp only [working, logWrite, updGrid_flight, updGrid_threads, updGrid_sws, updGrid_queues, updGrid_groups]
    · exact working_of_onlyStores (onlyStores_writeKey s f.key pa bs)

/-! ### One lane (R252, R258, R259) -/

/-- A cause found at the home is kept, and the lane has no effect. -/
theorem performLane_cause {s : State} {f : Flight} {x : LaneReq} {e : Cause × W64 × Nat} (h : homeCause s f x = some e) :
    performLane f x s = ({ x with err := some e }, s) := by
  unfold performLane
  rw [h]

theorem working_performLane (f : Flight) (x : LaneReq) (s : State) : working (performLane f x s).2 = working s := by
  unfold performLane
  split
  · rfl
  · dsimp only
    split
    · rfl
    · cases f.kind with
      | load | waita | cwb => rfl
      | store | czero | atomic => exact working_writeHome f x.pa _ s

theorem working_performLanes (f : Flight) (xs : List LaneReq) (s : State) : working (performLanes f xs s).2 = working s := by
  induction xs generalizing s with
  | nil => rfl
  | cons x xs ih => exact (ih _).trans (working_performLane f x s)

section

variable {s : State} {f : Flight} {x : LaneReq} (clean : homeCause s f x = none) (direct : f.staged = false)
include clean direct

/-- The log of a staged grid alone can be full, so a lane without a cause does what its kind says. -/
theorem performLane_reads (h : f.kind = .load ∨ f.kind = .waita) :
    performLane f x s = ({ x with res := some (BitVec.ofNat 128 (readHome s f x.pa f.size)) }, s) := by
  rcases h with h | h <;> simp [performLane, clean, logged, direct, h]

theorem performLane_store (h : f.kind = .store) : performLane f x s = (x, writeHome f x.pa (bytesLE f.size x.data.toNat) s) := by
  simp [performLane, clean, logged, direct, h]

theorem performLane_czero (h : f.kind = .czero) : performLane f x s = (x, writeHome f x.pa (List.replicate 128 0) s) := by
  simp [performLane, clean, logged, direct, h]

theorem performLane_atomic (h : f.kind = .atomic) :
    let old := readHome s f x.pa f.size
    performLane f x s = ({ x with res := some (BitVec.ofNat 128 old) },
      writeHome f x.pa (bytesLE f.size (applyAop f.aop f.wide (BitVec.ofNat 64 old) (x.data.extractLsb' 0 64) x.cmp).toNat) s) := by
  simp [performLane, clean, logged, direct, h]

/-- A write-back cleans a line of the last-level cache, and no byte of memory changes. -/
theorem performLane_cwb (h : f.kind = .cwb) : (performLane f x s).1 = x ∧ SameMemory s (performLane f x s).2 := by
  simp only [performLane, clean, logged, direct, h, Bool.false_and, Bool.false_eq_true, if_false]
  exact ⟨trivial, sameMemory_of rfl rfl rfl rfl⟩

end

/-- Outside the device registers a request that is not staged reads the bytes of memory under its key. -/
theorem readHome_memory (s : State) {f : Flight} {pa : Nat} (n : Nat) (hd : isDevice pa = false) (direct : f.staged = false) :
    readHome s f pa n = readNat s f.key pa n := by
  simp [readHome, hd, logged, direct, readNat, readKey]

theorem writeHome_memory (s : State) {f : Flight} {pa : Nat} (bs : List Byte) (hd : isDevice pa = false) (direct : f.staged = false) :
    writeHome f pa bs s = writeKey s f.key pa bs := by
  simp [writeHome, hd, logged, direct]

/-! ### After the lanes (R213, R227, R263) -/

/-- Nothing but the caches and the watches differs. -/
def OnlyCaches (s t : State) : Prop := { t with llc := s.llc, cores := s.cores, watches := s.watches } = s

theorem OnlyCaches.trans {s t u : State} (h : OnlyCaches s t) (g : OnlyCaches t u) : OnlyCaches s u :=
  Eq.trans (congrArg (fun y : State => { y with llc := s.llc, cores := s.cores, watches := s.watches }) g) h

theorem OnlyCaches.working {s t : State} (h : OnlyCaches s t) : working t = working s := (congrArg Proofs.working h :)

theorem OnlyCaches.sameMemory {s t : State} (h : OnlyCaches s t) : SameMemory s t :=
  sameMemory_of (congrArg State.mem h :) (congrArg State.sectorKey h :) (congrArg State.mods h :) (congrArg State.poison h :)

theorem onlyCaches_llcFill (line : Nat) (d : Bool) (s : State) : OnlyCaches s (llcFill line d s) := by
  unfold llcFill
  dsimp only
  split <;> rfl

theorem onlyCaches_l1Drop (core pa : Nat) (s : State) : OnlyCaches s (l1Drop core pa s) := rfl

theorem onlyCaches_l1Fill (core key pa : Nat) (stream : Bool) (s : State) : OnlyCaches s (l1Fill core key pa stream s) := by
  unfold l1Fill
  dsimp only
  split <;> rfl

theorem onlyCaches_addWatch (pa sw : Nat) (s : State) : OnlyCaches s (addWatch pa sw s) := rfl

/-- A performed request leaves its line in the caches and its watch; nothing else follows it. -/
theorem onlyCaches_afterHome (f : Flight) (s : State) : OnlyCaches s (afterHome f s) := by
  unfold afterHome
  split
  case h_1 => rfl
  case h_2 x _ _ =>
    generalize hu : (if isDram x.pa && x.err.isNone && (mget? s.llc (x.pa / 128)).isNone then llcFill (x.pa / 128) false s else s) = u
    have filled : OnlyCaches s u := by
      rw [← hu]
      split
      · exact onlyCaches_llcFill _ _ s
      · rfl
    refine filled.trans ?_
    dsimp only
    cases f.kind with
    | load =>
      dsimp only
      split
      · split
        · exact onlyCaches_l1Fill _ _ _ _ u
        · rfl
      · rfl
    | atomic => dsimp only; split <;> rfl
    | waita =>
      dsimp only
      split
      · exact onlyCaches_addWatch _ _ u
      · rfl
    | store | czero | cwb => rfl

/-! ### The request (R222) -/

/-- A request that nothing holds has its lanes performed in order. -/
theorem exec_homeAccess_performs {s : State} {op : Nat} {f : Flight} (hf : mget? s.flight op = some f) (fresh : f.performed = false)
    (ordered : awaitsOrder s f = false) (free : mustWait s op f = false)
    (reaches : ∀ x ∈ f.lanes, f.spad = true ∨ (heldByCpart s x.pa = false ∧ pathHeld s (coreRet f.core) (retOf x.pa) 0 = false)) :
    let f' := { f with lanes := (performLanes f f.lanes s).1, performed := true }
    let u := (performLanes f f.lanes s).2
    exec (.homeAccess op) s = .next (afterHome f' { u with flight := mput u.flight op f' }) := by
  have passes : f.lanes.any (fun x => !f.spad && (heldByCpart s x.pa || pathHeld s (coreRet f.core) (retOf x.pa) 0)) = false := by
    rw [List.any_eq_false]
    intro x hx
    rcases reaches x hx with h | ⟨h, g⟩
    · simp [h]
    · simp [h, g]
  simp [execHomeAccess, hf, fresh, ordered, free, passes]

/-- Settles O46: the request first, then one lane of each kind, then the operations of an atomic at both widths. -/
theorem homeAccesses : Obligations.HomeAccesses := by
  unfold Obligations.HomeAccesses
  refine ⟨fun s op f hf fresh ordered free reaches => ?request, fun _ _ => rfl,
    fun s f x => ⟨fun _ => rfl, fun _ => performLane_cause, fun clean direct => ?kinds, fun hd direct => ?memory⟩,
    fun o y c => ?narrow, fun o y c => ?wide⟩
  case request =>
    let f' : Flight := { f with lanes := (performLanes f f.lanes s).1, performed := true }
    let u := (performLanes f f.lanes s).2
    let v : State := { u with flight := mput u.flight op f' }
    have after : OnlyCaches v (afterHome f' v) := onlyCaches_afterHome f' v
    obtain ⟨flight, threads, sws, queues, groups⟩ : u.flight = s.flight ∧ u.threads = s.threads ∧ u.sws = s.sws ∧ u.queues = s.queues
        ∧ u.groups = s.groups := by simpa [working] using working_performLanes f f.lanes s
    have listed : (afterHome f' v).flight = mput s.flight op f' := by
      rw [← flight]
      exact (congrArg State.flight after :)
    refine ⟨afterHome f' v, exec_homeAccess_performs hf fresh ordered free reaches, by rw [listed, mget?_mput_self], fun k hk => ?_,
      (congrArg State.threads after :).trans threads, (congrArg State.sws after :).trans sws, (congrArg State.queues after :).trans queues,
      (congrArg State.groups after :).trans groups, after.sameMemory⟩
    rw [listed, mget?_mput_ne _ _ hk]
  case kinds =>
    exact ⟨performLane_reads clean direct, performLane_store clean direct, performLane_czero clean direct, performLane_atomic clean direct,
      performLane_cwb clean direct⟩
  case memory => exact ⟨readHome_memory s f.size hd direct, fun bs => writeHome_memory s bs hd direct⟩
  case narrow =>
    obtain ⟨add, smin, smax, umin, umax, and, or, xor, exch, cas⟩ := applyAop_integer (w := 32) (wide := false) rfl o y c
    exact ⟨add, smin, smax, umin, umax, and, or, xor, exch, cas, applyAop_fadd o y c⟩
  case wide => simpa only [BitVec.setWidth_eq] using applyAop_integer (w := 64) (wide := true) rfl o y c

end Sys2Proof.Proofs
end

section
/-! One unit of an engine (spec/10 R224, R241): when the copy engine and the endpoint move the next unit of their work, and when they leave
the machine as it is. -/

namespace Sys2Proof.Proofs

open Sys2Proof Sys2Proof.Machine Sys2Proof.Laws

/-! ### The copy engine (R224, R325) -/

section
variable {s : State} {core : Nat}

theorem moveCopy_idle (idle : (s.core core).copyq = []) : moveCopy core s = s := by simp [moveCopy, idle]

variable {o : CopyOp} {rest : List CopyOp} {g : Group} (head : (s.core core).copyq = o :: rest) (group : mget? s.groups o.gid = some g)
include head group

theorem moveCopy_waits (wait : writesDone s o.after = false) : moveCopy core s = s := by simp [moveCopy, head, group, wait]

theorem moveCopy_goes_on {o' : CopyOp} {t : State} (done : writesDone s o.after = true) (more : copyStep (agentOf s core g) o s = .more o' t) :
    moveCopy core s = updCore core (fun c => { c with copyq := o' :: rest }) t := by
  simp [moveCopy, head, group, done, more]

/-- What ends a chain is left to COPY_COMPLETE. -/
theorem moveCopy_at_end (last : ∀ o' t, copyStep (agentOf s core g) o s ≠ .more o' t) : moveCopy core s = s := by
  cases step : copyStep (agentOf s core g) o s with
  | more o' t => exact absurd step (last o' t)
  | ended fl t => simp [moveCopy, head, group, step]
  | fault f t => simp [moveCopy, head, group, step]

end

/-! ### The endpoint (R311, R332, R374) -/

section
variable {s : State} {op : Nat} {o : WorkOp} (work : mget? s.works op = some o)
include work

/-- The source of a WRITE or a post is read while its work request is at the head of a queue that sends. -/
theorem moveSource_write (write : o.wr.opc < 2) :
    moveSource op s = if (mget (s.ret o.ret).wrq o.queue []).head? = some op ∧ sendsFrom s o.ret o.queue = true ∧ o.err = none
        ∧ o.moved < o.wr.length then sendUnit op o s else s := by
  simp [moveSource, work, write]

theorem moveSource_read (read : 2 ≤ o.wr.opc) (goes : readGoes s o = true) (left : o.moved + o.taken.length < o.wr.length) :
    moveSource op s = fetchUnit op o s := by
  simp [moveSource, work, show ¬ o.wr.opc < 2 by omega, goes, left]

theorem moveLand_lands (goes : readGoes s o = true) (some_taken : o.taken ≠ []) : moveLand op s = landNext op o s := by
  simp [moveLand, work, goes, some_taken]

theorem moveLand_waits (waits : readGoes s o = false ∨ o.taken = []) : moveLand op s = s := by
  rcases waits with h | h <;> simp [moveLand, work, h]

end

/-- A held packet of the ordered operation that is next in key order (R374). -/
def NextInOrder (s : State) (pkt : Nat) (p : Packet) : Prop :=
  p.ordered = true ∧ smem (s.ret p.dst).ordBuf pkt = true ∧ ∃ i q, nextOrdered s p.dst = some (i, q) ∧ q.op? ≠ none ∧ q.op? = p.op?

theorem placesNow_iff (s : State) (pkt : Nat) (p : Packet) : placesNow s pkt p = true ↔ atTarget s p = true ∨ NextInOrder s pkt p := by
  unfold placesNow NextInOrder
  cases nextOrdered s p.dst with
  | none => simp
  | some e =>
    obtain ⟨i, q⟩ := e
    simp [Option.isSome_iff_ne_none, and_assoc]

theorem movePlace_places {s : State} {pkt : Nat} {p : Packet} (wire : mget? s.wire pkt = some p) (now : atTarget s p = true ∨ NextInOrder s pkt p) :
    movePlace pkt s = placeUnit pkt p s := by
  simp [movePlace, wire, (placesNow_iff s pkt p).mpr now]

theorem movePlace_waits {s : State} {pkt : Nat} {p : Packet} (wire : mget? s.wire pkt = some p) (far : atTarget s p = false)
    (later : ¬ NextInOrder s pkt p) : movePlace pkt s = s := by
  have waits : ¬ placesNow s pkt p = true := by simp [placesNow_iff, far, later]
  simp [movePlace, wire, waits]

end Sys2Proof.Proofs
end

section
/-! Errors of the hardware (spec/09 R213 to R221; 12 R290; 15 R357; 17 R397, R421; log 29): what is counted, poisoned, given up or marked. -/

namespace Sys2Proof.Proofs

open Sys2Proof Sys2Proof.Machine Sys2Proof.Laws

/-! ### Corrected errors (R357, R397) -/

theorem corrected_out_of_service {s : State} {ret : Nat} (kind object : Nat) (core : Option Nat) (out : inService s ret = false) :
    corrected ret kind object core s = s := by
  simp [corrected, out]

section
variable {s : State} {ret kind object : Nat} (core : Option Nat) (serves : inService s ret = true)
include serves

theorem corrected_below_count (below : (noteError ret kind object s).2 = none) :
    corrected ret kind object core s = (noteError ret kind object s).1 := by
  rw [corrected, if_pos serves]
  split
  · next h => simp [h] at below
  · next h => rw [h]

theorem corrected_lasting {a : Nat} (lasting : (noteError ret kind object s).2 = some a) :
    corrected ret kind object core s = takeAction ret core a (noteError ret kind object s).1 := by
  rw [corrected, if_pos serves]
  split
  · next h =>
    obtain rfl : _ = a := by simpa [h] using lasting
    rw [h]
  · next h => simp [h] at lasting

end

/-- A corrected error of a reticle in service is counted, and one that makes the count has its action taken. -/
theorem applyUpset_counts {s : State} {u : Upset} {ret kind object : Nat} {core : Option Nat}
    (h : applyUpset u s = corrected ret kind object core s) :
    (inService s ret = false → applyUpset u s = s)
    ∧ (inService s ret = true →
      ((noteError ret kind object s).2 = none → applyUpset u s = (noteError ret kind object s).1)
      ∧ ∀ a, (noteError ret kind object s).2 = some a → applyUpset u s = takeAction ret core a (noteError ret kind object s).1) := by
  rw [h]
  exact ⟨corrected_out_of_service kind object core, fun serves => ⟨corrected_below_count core serves, fun _ => corrected_lasting core serves⟩⟩

theorem sramCorrected_spad (s : State) {ret object : Nat} (spad : isSpad (paOf ret (object * 8)) = true) :
    applyUpset (.sramCorrected ret object) s = corrected ret 3 object (some (coreOfSpad (paOf ret (object * 8)))) s := by
  simp [applyUpset, wordCore, spad]

theorem sramCorrected_elsewhere (s : State) {ret object : Nat} (elsewhere : isSpad (paOf ret (object * 8)) = false) :
    applyUpset (.sramCorrected ret object) s = corrected ret 3 object none s := by
  simp [applyUpset, wordCore, elsewhere]

/-! ### Uncorrectable errors (R215, R221) -/

theorem smem_sadd (m : NSet) (i j : Nat) : smem (sadd m i) j = (smem m j || j == i) := by
  induction m with
  | nil => simp [sadd, smem, beq_eq_decide]
  | cons k m ih =>
    unfold sadd
    split_ifs with same below
    · subst same
      by_cases h : j = i <;> simp [smem, h]
    · simp [smem, beq_eq_decide, Bool.or_comm]
    · simp [smem, ih, Bool.or_assoc]

/-- A byte touches the one unit that holds it. -/
theorem unitsOf_byte (pa : Nat) : unitsOf pa 1 = [unitBase pa] := by
  have count : ceilDiv (pa + 1 - unitBase pa) (unitSize pa) = 1 := by
    unfold ceilDiv unitBase unitSize
    split <;> omega
  simp [unitsOf, count, upFrom]

theorem uncorrectable_poisons {s : State} {pa : Nat} (serves : inService s (retOf pa) = true)
    (memory : isDram pa = true ∨ isScratch pa = true ∨ isSpad pa = true) :
    applyUpset (.uncorrectable pa) s = { s with poison := sadd s.poison (unitBase pa) } := by
  have kept : (isDram pa || isScratch pa || isSpad pa) = true := by simpa [or_assoc] using memory
  simp [applyUpset, serves, kept, poisonUnits, unitsOf_byte]

/-! ### What one core loses or marks (R213, R221, R290, R421) -/

/-- From s to t the one core changes, to c. -/
def OnlyCore (s t : State) (core : Nat) (c : CoreSt) : Prop :=
  { t with cores := s.cores } = s ∧ t.core core = c ∧ ∀ k, k ≠ core → t.core k = s.core k

theorem onlyCore_updCore (core : Nat) (f : CoreSt → CoreSt) (s : State) : OnlyCore s (updCore core f s) core (f (s.core core)) :=
  ⟨rfl, core_updCore_self core f s, fun k hk => by rw [core_updCore, if_neg hk]⟩

theorem onlyCore_markMismatch {s : State} {core : Nat} {o : MxOp} {os : List MxOp} (head : (s.core core).mxq = o :: os) :
    OnlyCore s (markMismatch core s) core { s.core core with mxq := { o with mismatch := true } :: os } := by
  have h : OnlyCore s (markMismatch core s) core _ := onlyCore_updCore core _ s
  simpa only [head] using h

theorem onlyCore_pair (s : State) (core : Nat) (slice : Slice) {l : Nat} (hl : l < 64) :
    OnlyCore s (applyUpset (.pair core slice l) s) core
      { s.core core with differ := sadd (s.core core).differ (slice.code * 64 + l) } := by
  simp only [applyUpset, Nat.mod_eq_of_lt hl]
  exact onlyCore_updCore core _ s

/-- An operation of the array with a residue mismatch does not end without a cause (R289, R290). -/
theorem mxFound_of_mismatch (s : State) (core : Nat) {o : MxOp} (stores : List (Nat × List Byte)) (h : o.mismatch = true) :
    mxFound s core o stores ≠ none := by
  unfold mxFound
  dsimp only
  split
  · simp
  · split
    · simp
    · simp [h]

/-! ### The members of a pair (R143, R421) -/

section
variable {s : State} {c : Ctx} (go : State → State) {ps : List LanePlan}

theorem membersAgree_unprotected (h : c.g.launch.protected = false) : membersAgree c ps go s = go s := by simp [membersAgree, h]

theorem membersAgree_alike (alike : ∀ p ∈ ps, smem (s.core c.core).differ (c.run.slice.code * 64 + p.lane) = false) :
    membersAgree c ps go s = go s := by
  have found : ps.find? (fun p => smem (s.core c.core).differ (c.run.slice.code * 64 + p.lane)) = none :=
    List.find?_eq_none.mpr (fun p hp => by simp [alike p hp])
  simp [membersAgree, found]

/-- The lowest lane that differs is reported, by its logical lane (log 26). -/
theorem membersAgree_differ {before after : List LanePlan} {p : LanePlan} (guarded : c.g.launch.protected = true) (split : ps = before ++ p :: after)
    (alike : ∀ q ∈ before, smem (s.core c.core).differ (c.run.slice.code * 64 + q.lane) = false)
    (differs : smem (s.core c.core).differ (c.run.slice.code * 64 + p.lane) = true) :
    membersAgree c ps go s = faultAt c .sdcDetected (eaBits p.ea).toNat (p.lane % passWidth (s.core c.core) true) p.lane
      (updCore c.core (fun y => { y with differ := y.differ.filter (fun k => k / 64 != c.run.slice.code) }) s) := by
  have found : ps.find? (fun p => smem (s.core c.core).differ (c.run.slice.code * 64 + p.lane)) = some p :=
    List.find?_eq_some_iff_append.mpr ⟨differs, before, after, split, fun q hq => by simp [alike q hq]⟩
  simp [membersAgree, guarded, found]

end

end Sys2Proof.Proofs
end

section
/-! Reads of the host (spec/15 R344; 16 R365; log 20): what stands under each number of a register, a table entry or an error counter. -/

namespace Sys2Proof.Proofs

open Sys2Proof Sys2Proof.Machine Sys2Proof.Laws

/-! ### The numbers of a reticle -/

section
variable (s : State) (ret : Nat) {e : Nat}

theorem hostValue_sysreg {reg : Nat} (h : reg < 0x1000) : hostValue s ret reg = hostSysreg s ret reg := by rw [hostValue, if_pos h]

theorem hostValue_meshTab (h : e < 128) : hostValue s ret (0x1000 + e) = some (bytesLE 1 (mget (s.ret ret).meshTab e 0).toNat) := by
  simp (disch := omega) only [hostValue, if_pos, if_neg, Nat.add_sub_cancel_left]

theorem hostValue_modTab (h : e < 1024) : hostValue s ret (0x2000 + e) = some (bytesLE 4 (mget (s.ret ret).modTab e 0).toNat) := by
  simp (disch := omega) only [hostValue, if_pos, if_neg, Nat.add_sub_cancel_left]

theorem hostValue_groupList (h : e < 32) : hostValue s ret (0x3000 + e) = some (bytesLE 2 (mget (s.ret ret).groupList e 0).toNat) := by
  simp (disch := omega) only [hostValue, if_pos, if_neg, Nat.add_sub_cancel_left]

theorem hostValue_rings (h : e < 640) : hostValue s ret (0x5000 + e) = some (bytesLE 4 (mget (s.ret ret).rings e 0).toNat) := by
  simp (disch := omega) only [hostValue, if_pos, if_neg, Nat.add_sub_cancel_left]

theorem hostValue_lmap (h : e < 136) : hostValue s ret (0x7000 + e) = some (bytesLE 4 (s.core (coreKey ret (e / 4) (e % 4))).lmap.toNat) := by
  simp (disch := omega) only [hostValue, indexedCore, if_pos, if_neg, Nat.add_sub_cancel_left]

theorem hostValue_endpoint (h : e < 1024) : hostValue s ret (0x8000 + e) = some (bytesLE 4 (mget (s.ret ret).endpoint e 0).toNat) := by
  simp (disch := omega) only [hostValue, if_pos, if_neg, Nat.add_sub_cancel_left]

theorem hostValue_errWin {key n since : Nat} (counted : mget? (s.ret ret).errWin key = some (n, since)) :
    hostValue s ret (2 ^ 64 + key) = some (bytesLE 8 n) := by
  simp (disch := omega) only [hostValue, if_pos, if_neg, Nat.add_sub_cancel_left, counted]

end

/-! ### The answer -/

section
variable {s : State} {ret reg : Nat}

/-- A read that cannot be performed is answered with a status (log 12). -/
theorem hostReadReg_refused (h : inService s ret = false ∨ hostValue s ret reg = none) :
    hostReadReg ret reg s = { s with hostOut := s.hostOut ++ [.status 0x13] } := by
  rcases h with h | h <;> simp [hostReadReg, h, answer, Machine.tell]

theorem hostReadReg_answers {bs : List Byte} (serves : inService s ret = true) (value : hostValue s ret reg = some bs) :
    hostReadReg ret reg s = { s with hostOut := s.hostOut ++ [.data bs] } := by
  simp [hostReadReg, serves, value, Machine.tell]

end

end Sys2Proof.Proofs
end

section
/-! The obligation over engine units, errors of the hardware and reads of the host, from the lemmas of its parts. -/

namespace Sys2Proof.Proofs

open Sys2Proof Sys2Proof.Machine Sys2Proof.Laws

/-- Settles O60, part by part: units of engines, counted errors (log 29), poison, what a core loses or marks, pairs (log 26), and reads of the
host (log 12, 20). -/
theorem unitsErrorsAndHostReads : Obligations.UnitsErrorsAndHostReads := by
  unfold Obligations.UnitsErrorsAndHostReads
  refine ⟨fun s core => ⟨moveCopy_idle, fun o rest g head group => ?copy⟩, fun s op o work => ?endpoint, fun s pkt p wire => ?place,
    fun s ret object => ?corrected, fun s pa serves memory => ?uncorrectable, fun s core line index => ?core, fun s c go ps => ?pair,
    fun s ret reg => ⟨hostReadReg_refused, fun serves => ?reads⟩⟩
  case copy =>
    exact ⟨moveCopy_waits head group, fun o' t => moveCopy_goes_on head group, moveCopy_at_end head group⟩
  case endpoint =>
    refine ⟨fun write => ⟨fun sends => ?_, fun stays => ?_⟩, moveSource_read work, moveLand_lands work, moveLand_waits work⟩
    · exact (moveSource_write work write).trans (if_pos sends)
    · exact (moveSource_write work write).trans (if_neg stays)
  case place => exact ⟨movePlace_places wire, movePlace_waits wire⟩
  case corrected =>
    exact ⟨applyUpset_counts rfl, fun spad => applyUpset_counts (sramCorrected_spad s spad),
      fun elsewhere => applyUpset_counts (sramCorrected_elsewhere s elsewhere)⟩
  case uncorrectable =>
    rw [uncorrectable_poisons serves memory]
    exact ⟨rfl, smem_sadd s.poison (unitBase pa)⟩
  case core =>
    exact ⟨onlyCore_updCore core _ s, onlyCore_updCore core _ s, onlyCore_updCore core _ s, rfl,
      fun o os head => ⟨onlyCore_markMismatch head, fun t o' stores => mxFound_of_mismatch t core stores⟩,
      fun slice l hl => onlyCore_pair s core slice hl⟩
  case pair =>
    exact ⟨membersAgree_unprotected go, membersAgree_alike go, fun before p after guarded split => membersAgree_differ go guarded split⟩
  case reads =>
    have ways : hostValue s ret 0x30 = some (bytesLE 4 ((s.ret ret).ways + (if (s.ret ret).cpartTo = none then 0 else 32))) := by
      cases h : (s.ret ret).cpartTo <;> simp [hostValue_sysreg, hostSysreg, b2n, h]
    exact ⟨hostReadReg_answers serves ways, hostReadReg_answers serves rfl, hostReadReg_answers serves rfl, hostReadReg_answers serves rfl,
      hostReadReg_answers serves rfl, hostReadReg_answers serves rfl, hostReadReg_answers serves rfl, hostReadReg_answers serves rfl,
      fun e he => hostReadReg_answers serves (hostValue_meshTab s ret he), fun e he => hostReadReg_answers serves (hostValue_modTab s ret he),
      fun e he => hostReadReg_answers serves (hostValue_groupList s ret he), fun e he => hostReadReg_answers serves (hostValue_rings s ret he),
      fun e he => hostReadReg_answers serves (hostValue_endpoint s ret he), fun e he => hostReadReg_answers serves (hostValue_lmap s ret he),
      fun kind object n since _ counted => hostReadReg_answers serves (hostValue_errWin s ret counted)⟩

end Sys2Proof.Proofs
end

section
/-! What an access that is issued sends (spec/11 R250 to R259): its requests, beside steps that send nothing. -/

namespace Sys2Proof.Proofs

open Sys2Proof Sys2Proof.Machine Sys2Proof.Laws

/-! ### Steps that send nothing -/

/-- A step that sends no request and changes no more than one that sends may change. -/
structure SendsNothing (K : Nat → Prop) (s t : State) : Prop where
  sends : OnlySends K s t
  flight : t.flight = s.flight
  nextId : t.nextId = s.nextId

section
variable {K : Nat → Prop} {s t u : State}

theorem SendsNothing.refl (s : State) : SendsNothing K s s := ⟨onlySends_refl K s, rfl, rfl⟩

theorem SendsNothing.trans (h : SendsNothing K s t) (g : SendsNothing K t u) : SendsNothing K s u :=
  ⟨h.sends.trans g.sends, g.flight.trans h.flight, g.nextId.trans h.nextId⟩

theorem sendsNothing_foldl {α : Type} (f : State → α → State) (l : List α) (hf : ∀ s, ∀ a ∈ l, SendsNothing K s (f s a)) (s : State) :
    SendsNothing K s (l.foldl f s) := by
  induction l generalizing s with
  | nil => exact SendsNothing.refl s
  | cons a l ih => exact (hf s a (.head l)).trans (ih (fun s b hb => hf s b (.tail a hb)) _)

theorem sendsNothing_of_moves (m : OnlyMoves s t) : SendsNothing K s t :=
  ⟨m.sends K, (congrArg State.flight m.calm.rest :), m.nextId⟩

theorem sendsNothing_of_queues (q : OnlyQueues s t K) : SendsNothing K s t :=
  ⟨q.sends, (congrArg State.flight q.rest :), (congrArg State.nextId q.rest :)⟩

theorem sendsNothing_stall (s : State) : SendsNothing K s (stall s) := sendsNothing_of_moves (onlyMoves_time s _ s.free)

theorem sendsNothing_dropWalkFaults (c : Ctx) (s : State) : SendsNothing K s (dropWalkFaults c s) :=
  ⟨onlySends_dropWalkFaults K c s, rfl, rfl⟩

theorem sendsNothing_l1Drop (core pa : Nat) (s : State) : SendsNothing K s (l1Drop core pa s) := ⟨onlySends_l1Drop K core pa s, rfl, rfl⟩

theorem sendsNothing_l1Store (core key pa policy : Nat) (bs : List Byte) (s : State) : SendsNothing K s (l1Store core key pa policy bs s) := by
  refine ⟨onlySends_l1Store K core key pa policy bs s, ?_, ?_⟩ <;>
  · unfold l1Store
    split
    · rfl
    · split_ifs <;> rfl

theorem sendsNothing_updSw (k : Nat) (f : SliceWarp → SliceWarp) (hf : ∀ x, (f x).unsent = x.unsent) (s : State) :
    SendsNothing K s (updSw k f s) := ⟨onlySends_updSw K k f hf s, rfl, rfl⟩

theorem sendsNothing_addUnack (c : Ctx) (n : Nat) (s : State) : SendsNothing K s (addUnack c n s) :=
  sendsNothing_updSw c.sw (fun x => { x with unack := x.unack + n }) (fun _ => rfl) s

theorem sendsNothing_startFence (c : Ctx) (scope : Nat) (ops : List Nat) (acq : Bool) (s : State) :
    SendsNothing K s (startFence c scope ops acq s) :=
  sendsNothing_updSw c.sw (fun x => { x with fence := some ⟨scope, ops, acq⟩ }) (fun _ => rfl) s

theorem sendsNothing_endFence (k core : Nat) (s : State) : SendsNothing K s (endFence k core s) :=
  ⟨onlySends_endFence K k core s, (congrArg State.flight (endFence_ends k core s).rest :), (congrArg State.nextId (endFence_ends k core s).rest :)⟩

/-- A counter is no request; its watchers wake (R263). -/
theorem sendsNothing_bumpCounter (k i n : Nat) (s : State) : SendsNothing K s (bumpCounter k i n s) := by
  obtain ⟨rest, woken, cores⟩ := bumpCounter_spec k i n s
  have keeps : ∀ {α : Type} (g : State → α) (_ : ∀ y : State, g { y with cores := s.cores, watches := s.watches } = g y),
      g (bumpCounter k i n s) = g s := fun g hg => (hg _).symm.trans (congrArg g rest)
  have threads := keeps State.threads fun _ => rfl
  have sws := keeps State.sws fun _ => rfl
  have queues := keeps State.queues fun _ => rfl
  have flight := keeps State.flight fun _ => rfl
  have nextId := keeps State.nextId fun _ => rfl
  refine ⟨⟨?_, woken, fun j => ?_, fun j => ?_, fun j => ?_, fun j _ => ?_, fun j _ => ?_, le_of_eq nextId.symm⟩, flight, nextId⟩
  · exact (congrArg (fun y : State => { y with threads := s.threads, sws := s.sws, queues := s.queues, flight := s.flight, nextId := s.nextId
                                               ticks := s.ticks, free := s.free }) rest :)
  · exact (congrArg (fun y : CoreSt => { y.still with l1 := [], counters := [], walkFaults := [] }) (cores j) :)
  · simp only [State.thread, threads]
  · simp only [State.sw, sws]
  · simp only [State.queue, queues]
  · rw [flight]

theorem SendsNothing.exited (h : SendsNothing K s t) (k : Nat) : (t.thread k).exited = (s.thread k).exited :=
  (congrArg Thread.exited (h.sends.threads k) :)

end

/-! ### Requests and what goes with them -/

/-- Gathered sets of lanes are sent, each as base says; what goes before and after sends nothing. -/
def Issues (K : Nat → Prop) (s t : State) (base : Flight) (gs : List (List LaneReq)) : Prop :=
  ∃ p u, SendsNothing K s p ∧ Sent p u base gs ∧ SendsNothing K u t

section
variable {K : Nat → Prop} {s t u : State} {base : Flight} {gs : List (List LaneReq)} {reqs : List LaneReq} {together : LaneReq → LaneReq → Prop}

theorem Issues.before (h : SendsNothing K s t) (i : Issues K t u base gs) : Issues K s u base gs := by
  obtain ⟨p, v, before, sent, after⟩ := i
  exact ⟨p, v, h.trans before, sent, after⟩

theorem Issues.after (i : Issues K s t base gs) (h : SendsNothing K t u) : Issues K s u base gs := by
  obtain ⟨p, v, before, sent, after⟩ := i
  exact ⟨p, v, before, sent, after.trans h⟩

theorem Issues.sends (i : Issues K s t base gs) : OnlySends K s t := by
  obtain ⟨p, v, before, sent, after⟩ := i
  exact (before.sends.trans (sent.sends K)).trans after.sends

theorem Issues.nextId (i : Issues K s t base gs) : t.nextId = s.nextId + gs.length := by
  obtain ⟨p, v, before, sent, after⟩ := i
  rw [after.nextId, sent.count, before.nextId]

theorem Issues.requests (i : Issues K s t base gs) (covers : ∀ r ∈ reqs, ∃ ls ∈ gs, r ∈ ls)
    (parts : ∀ ls ∈ gs, ls ≠ [] ∧ (∀ r ∈ ls, r ∈ reqs) ∧ ∀ r ∈ ls, ∀ q ∈ ls, together r q) : Requests s t base reqs together := by
  obtain ⟨p, v, before, sent, after⟩ := i
  obtain ⟨each, only⟩ := sent.requests covers parts after.flight after.nextId
  rw [before.nextId] at each only
  exact ⟨each, only⟩

/-- The requests of gathered lanes: one for each line or bank word, under one key id and caching (R253). -/
theorem Issues.gathered {oks : List (Nat × Int × Nat × Nat)} (i : Issues K s t base (gather (requestKey oks) reqs)) :
    Requests s t base reqs (fun r q => requestUnit r.pa = requestUnit q.pa) := by
  refine i.requests (fun r hr => gather_covers _ hr) fun ls hls => ?_
  obtain ⟨some_lane, sub, alike⟩ := mem_gather hls
  exact ⟨some_lane, sub, fun r hr q hq => requestKey_place oks (alike r hr q hq)⟩

/-- What has been sent to read is in flight: a later acquire of the slice-warp waits for it (R233). -/
theorem Issues.mem_readsOf (i : Issues K s t base gs) (reads : base.kind = .load ∨ base.kind = .atomic ∨ base.kind = .waita) {op : Nat}
    (first : s.nextId ≤ op) (last : op < t.nextId) : op ∈ readsOf t (swKey base.gid base.warp base.slice) := by
  obtain ⟨p, v, before, sent, after⟩ := i
  rw [after.nextId, sent.count] at last
  rw [← before.nextId] at first
  obtain ⟨n, rfl⟩ := Nat.exists_eq_add_of_le first
  obtain ⟨f, found, -, rfl⟩ := sent.each n _ (List.getElem?_eq_getElem (by omega))
  rw [← after.flight] at found
  refine List.mem_map.mpr ⟨(_, f), List.mem_filter.mpr ⟨mem_of_mget? found, ?_⟩, rfl⟩
  simpa [or_assoc] using reads

end

end Sys2Proof.Proofs
end

section
/-! Plans of lanes at issue (spec/11 R250 to R252), and which of them decides what an access does. -/

namespace Sys2Proof.Proofs

open Sys2Proof Sys2Proof.Machine Sys2Proof.Laws

/-! ### Lanes of plans -/

@[simp] theorem lane_lanePlan (s : State) (c : Ctx) (h : Shape) (l : Nat) (ea : Int) (p : Unit → Plan) : (lanePlan s c h l ea p).lane = l := by
  unfold lanePlan
  split <;> rfl

theorem lane_of_accessPlans {s : State} {c : Ctx} {h : Shape} {x : Issue} {ctl : W32} {scratch : Bool} {acc : Access} :
    ∀ p ∈ accessPlans s c h x ctl scratch acc, p.lane ∈ x.lanes := by
  intro p hp
  obtain ⟨l, hl, rfl⟩ := List.mem_map.mp hp
  cases scratch <;> simpa using hl

/-- The plans of an atomic's lanes (R258). -/
def atomicPlans (s : State) (c : Ctx) (h : Shape) (x : Issue) (ctl : W32) (scratch : Bool) : List LanePlan :=
  x.lanes.map (fun l =>
    let n := if acWide ctl then 8 else 4
    let eaV : Int := ((BitVec.ofNat 64 (srcN s c h l 0) + BitVec.ofInt 64 (mcOffset ctl)).toNat : Int)
    let eaS : Int := ((srcN s c h l 0 % 2 ^ 32 : Nat) : Int) + mcOffset ctl
    if scratch then lanePlan s c h l eaS (fun _ => planSpad s c .both eaS n)
    else lanePlan s c h l eaV (fun _ => planVirtual s c .both (BitVec.ofInt 64 eaV) n))

theorem lane_of_atomicPlans {s : State} {c : Ctx} {h : Shape} {x : Issue} {ctl : W32} {scratch : Bool} :
    ∀ p ∈ atomicPlans s c h x ctl scratch, p.lane ∈ x.lanes := by
  intro p hp
  obtain ⟨l, hl, rfl⟩ := List.mem_map.mp hp
  cases scratch <;> simpa using hl

theorem lane_of_okPlans {ps : List LanePlan} {lanes : List Nat} (hl : ∀ p ∈ ps, p.lane ∈ lanes) : ∀ q ∈ okPlans ps, q.1 ∈ lanes := by
  intro q hq
  obtain ⟨p, hp, lane, -⟩ := mem_okPlans hq
  exact lane ▸ hl p hp

/-! ### The lane that decides -/

/-- The first element of a list that has a property. -/
theorem find?_split {α : Type} {F : α → Bool} {front rest : List α} {p : α} (before : ∀ q ∈ front, F q = false) (here : F p = true) :
    (front ++ p :: rest).find? F = some p :=
  List.find?_eq_some_iff_append.mpr ⟨here, front, rest, rfl, fun q hq => by simp [before q hq]⟩

/-- The state in which the walks that some plans need have begun (R218). -/
def startWalks (c : Ctx) (ps : List LanePlan) (s : State) : State :=
  ps.foldl (fun t q => if q.plan = .miss then startWalk c.core c.g.m c.g.root q.ea.toNat t else t) s

section
variable {c : Ctx} {front rest : List LanePlan} {p : LanePlan} {s : State} {go : State → State} {cause : Cause} {d : Nat}

theorem settlePlans_bad (before : ∀ q ∈ front, ∃ pa e, q.plan = .ok pa e) (here : p.plan = .bad cause d) :
    settlePlans c (front ++ p :: rest) s go
      = faultAt c cause (if cause = .poisonRead then 0 else (eaBits p.ea).toNat) d p.lane (dropWalkFaults c s) := by
  unfold settlePlans
  rw [find?_split]
  case before =>
    intro q hq
    obtain ⟨pa, e, hok⟩ := before q hq
    simp [hok]
  case here => simp [here]
  simp [here]

theorem settlePlans_miss (before : ∀ q ∈ front, ∃ pa e, q.plan = .ok pa e) (here : p.plan = .miss) :
    settlePlans c (front ++ p :: rest) s go = stall (startWalks c (front ++ p :: rest) s) := by
  unfold settlePlans
  rw [find?_split]
  case before =>
    intro q hq
    obtain ⟨pa, e, hok⟩ := before q hq
    simp [hok]
  case here => simp [here]
  simp [here, startWalks]

theorem settleQueued_poison (before : ∀ q ∈ front, ∀ k, q.plan ≠ .bad .poisonRead k) (here : p.plan = .bad .poisonRead d) :
    settleQueued c (front ++ p :: rest) s go = faultAt c .poisonRead 0 d p.lane s := by
  unfold settleQueued
  rw [find?_split]
  case before =>
    intro q hq
    split
    · next k hk => exact absurd hk (before q hq k)
    · rfl
  case here => simp [here]
  simp [here]

theorem settleQueued_go {ps : List LanePlan} (goes : ∀ p ∈ ps, p.plan ≠ .miss ∧ ∀ d, p.plan ≠ .bad .poisonRead d) :
    settleQueued c ps s go = go (dropWalkFaults c s) := by
  unfold settleQueued
  split
  · next p found =>
    have poisoned := List.find?_some found
    split at poisoned
    · next k hk => exact absurd hk ((goes p (List.mem_of_find?_eq_some found)).2 k)
    · cases poisoned
  · have none_miss : ps.any (fun p => p.plan == .miss) = false := List.any_eq_false.mpr fun p hp => by simpa using (goes p hp).1
    rw [if_neg (by simp [none_miss])]

end

/-- Where the pairs of a protected grid agree, an access goes on (R143, R421). -/
theorem membersAgree_of_pairs {s : State} {c : Ctx} {x : Issue} {ps : List LanePlan} (go : State → State) (agree : PairsAgree s c x)
    (lanes : ∀ p ∈ ps, p.lane ∈ x.lanes) : membersAgree c ps go (dropWalkFaults c s) = go (dropWalkFaults c s) := by
  by_cases guarded : c.g.launch.protected = true
  · refine membersAgree_alike go fun p hp => ?_
    simpa [dropWalkFaults] using agree guarded p.lane (lanes p hp)
  · exact membersAgree_unprotected go (by simpa using guarded)

end Sys2Proof.Proofs
end

section
/-! Loads at issue (spec/11 R253 to R255): what they send, and the queue entries of lanes that send nothing. -/

namespace Sys2Proof.Proofs

open Sys2Proof Sys2Proof.Machine Sys2Proof.Laws

/-- A name of the destination that is a queue is one that the instruction pushes. -/
theorem usesQueue_of_dest {c : Ctx} {h : Shape} {x : Issue} {u : RegUse} {q l : Nat} (write : h.write = some u) (dest : destOf u.name = .queue q)
    (hl : l ∈ x.lanes) : usesQueue c h x (c.q l q) := by
  obtain ⟨queue, rfl⟩ := isQ_of_dest dest
  exact .inr ⟨l, hl, u, write, queue, rfl⟩

section
variable {K : Nat → Prop} {c : Ctx} {d : Dest}

theorem sendsNothing_pushFaulted {q l : Nat} (own : K (c.q l q)) (words : Nat) (cause : Cause) (ea : W64) (s : State) :
    SendsNothing K s (pushFaulted c q words l cause ea s) := by
  unfold pushFaulted
  split_ifs
  · exact sendsNothing_bumpCounter _ _ _ s
  · exact sendsNothing_of_queues (onlyQueues_updQ _ _ s K own)

/-- The entry of one lane whose access was refused (R255). -/
def markLane (c : Ctx) (q words : Nat) (s : State) (p : LanePlan) : State :=
  match p.plan with
  | .bad cause _ => pushFaulted c q words p.lane cause (eaBits p.ea) s
  | _ => s

theorem markFaulted_queue (c : Ctx) (q words : Nat) (ps : List LanePlan) (s : State) :
    markFaulted c (.queue q) words ps s = ps.foldl (markLane c q words) s := rfl

theorem sendsNothing_markLane {q : Nat} {p : LanePlan} (own : K (c.q p.lane q)) (words : Nat) (s : State) :
    SendsNothing K s (markLane c q words s p) := by
  unfold markLane
  split
  · exact sendsNothing_pushFaulted own _ _ _ s
  · exact SendsNothing.refl s

theorem sendsNothing_markFaulted {ps : List LanePlan} (own : ∀ q, d = .queue q → ∀ p ∈ ps, K (c.q p.lane q)) (words : Nat) (s : State) :
    SendsNothing K s (markFaulted c d words ps s) := by
  cases d with
  | queue q => exact sendsNothing_foldl _ ps (fun t p hp => sendsNothing_markLane (own q rfl p hp) words t) s
  | _ => exact SendsNothing.refl s

theorem queue_bumpCounter (k i n : Nat) (s : State) (j : Nat) : (bumpCounter k i n s).queue j = s.queue j := by
  have queues : (bumpCounter k i n s).queues = s.queues := (congrArg State.queues (bumpCounter_spec k i n s).1 :)
  simp only [State.queue, queues]

/-- A lane's entry of a refused access stays as others are added. -/
theorem entries_markLane (q words : Nat) (p : LanePlan) (k : Nat) {e : QEntry} {s : State} (held : e ∈ (s.queue k).entries) :
    e ∈ ((markLane c q words s p).queue k).entries := by
  unfold markLane pushFaulted
  split
  · split_ifs
    · rwa [queue_bumpCounter]
    · rw [queue_updQ]
      split_ifs with own
      · subst own; exact List.mem_append_left _ held
      · exact held
  · exact held

theorem markFaulted_mem {q words : Nat} {ps : List LanePlan} {p : LanePlan} {cause : Cause} {detail : Nat} {s : State} (hp : p ∈ ps)
    (refused : p.plan = .bad cause detail) (consumed : consumerGone s c p.lane q = false) (some_word : words ≠ 0) :
    QEntry.faulted cause (eaBits p.ea) c.pc ∈ ((markFaulted c (.queue q) words ps s).queue (c.q p.lane q)).entries := by
  rw [markFaulted_queue]
  refine foldl_reaches (I := fun t => consumerGone t c p.lane q = false)
    (P := fun t => QEntry.faulted cause (eaBits p.ea) c.pc ∈ (t.queue (c.q p.lane q)).entries) (n := p) (fun t y _ ht => ?_) (fun t ht => ?_)
    (fun t y _ _ ht => entries_markLane q words y _ ht) consumed (.inr hp)
  · have kept := (sendsNothing_markLane (K := fun _ => True) (c := c) (q := q) (p := y) trivial words t).exited
    unfold consumerGone at ht ⊢
    rw [kept, ht]
  · simp [markLane, refused, pushFaulted, ht, some_word]

end

theorem sizeWords_pos (sz : Nat) : sizeWords sz ≠ 0 := by
  unfold sizeWords
  split_ifs <;> decide

/-- The requests of a load's lanes. -/
def loadReqs (s : State) (c : Ctx) (w : RWord) (ps : List LanePlan) : List LaneReq := (okPlans ps).map (fun p => laneReq s c w.d.toNat p 0 0)

/-- A load's request before its lanes (R254). -/
def loadBase (s : State) (c : Ctx) (w : RWord) (ctl : W32) (scratch : Bool) : Flight :=
  { baseFlight s c .load (2 ^ mcSize ctl) (sizeWords (mcSize ctl)) (destOf w.d.toNat) scratch with
    sx := mcSx ctl, stream := mcPolicy ctl == 1 }

/-- A load's leaf lets its line into L1 (R213, R249). -/
def loadCacheable (ctl : W32) (scratch : Bool) (e : Nat) : Bool := !scratch && effPolicy (mcPolicy ctl) e != 2 && decide (mcScope ctl ≤ 4)

/-- A load whose plans are settled has sent its requests, and its queues have the entries that these will fill (R253, R255). -/
def sentLoads (w : RWord) (ctl : W32) (scratch : Bool) (c : Ctx) (h : Shape) (x : Issue) (ps : List LanePlan) (s : State) : State :=
  let gs := gather (requestKey (okPlans ps)) (loadReqs s c w ps)
  let sent := sendGathered (loadBase s c w ctl scratch) (okPlans ps) (loadCacheable ctl scratch) gs (popReads c h x.pops s)
  reserveFor c (destOf w.d.toNat) (sizeWords (mcSize ctl)) sent.1 gs sent.2

/-- A load whose plans are settled goes on: refused lanes have their entries, and what it may not cache leaves L1. -/
def sendLoads (i : Instr) (w : RWord) (ctl : W32) (scratch : Bool) (c : Ctx) (h : Shape) (x : Issue) (ps : List LanePlan) (s : State) : State :=
  advance c (instrWords i) (issueCycles s c x.uniform)
    ((okPlans ps).foldl (fun u p => if l1Kind p.2.2.1 && !loadCacheable ctl scratch p.2.2.2 then l1Drop c.core p.2.2.1 u else u)
      (markFaulted c (destOf w.d.toNat) (sizeWords (mcSize ctl)) ps (sentLoads w ctl scratch c h x ps s)))

section
variable {i : Instr} {w : RWord} {ctl : W32} {scratch : Bool} {c : Ctx} {h : Shape} {x : Issue} {ps : List LanePlan} {s : State} {q : Nat}

theorem loadAct_eq : loadAct i w ctl scratch c h x s =
    let ps := accessPlans s c h x ctl scratch .read
    match destOf w.d.toNat with
    | .queue _ => settleQueued c ps s (sendLoads i w ctl scratch c h x ps)
    | _ => settlePlans c ps s (sendLoads i w ctl scratch c h x ps) := rfl

theorem loadAct_queued (dest : destOf w.d.toNat = .queue q) : loadAct i w ctl scratch c h x s =
    settleQueued c (accessPlans s c h x ctl scratch .read) s (sendLoads i w ctl scratch c h x (accessPlans s c h x ctl scratch .read)) := by
  rw [loadAct_eq, dest]

theorem loadAct_direct (dest : ∀ q, destOf w.d.toNat ≠ .queue q) : loadAct i w ctl scratch c h x s =
    settlePlans c (accessPlans s c h x ctl scratch .read) s (sendLoads i w ctl scratch c h x (accessPlans s c h x ctl scratch .read)) := by
  rw [loadAct_eq]
  cases hd : destOf w.d.toNat with
  | queue q => exact absurd hd (dest q)
  | _ => rfl

theorem loadAct_goes (ok : ∀ p ∈ accessPlans s c h x ctl scratch .read, ∃ pa e, p.plan = .ok pa e) : loadAct i w ctl scratch c h x s =
    sendLoads i w ctl scratch c h x (accessPlans s c h x ctl scratch .read) (dropWalkFaults c s) := by
  by_cases dest : ∃ q, destOf w.d.toNat = .queue q
  · obtain ⟨q, dest⟩ := dest
    rw [loadAct_queued dest, settleQueued_ok ok]
  · rw [loadAct_direct (not_exists.mp dest), settlePlans_ok ok]

/-- What the destination of the instruction's shape is. -/
def WritesD (h : Shape) (w : RWord) : Prop := ∃ u, h.write = some u ∧ u.name = w.d.toNat

theorem usesQueue_of_lane (dest : WritesD h w) {l : Nat} (queue : destOf w.d.toNat = .queue q) (hl : l ∈ x.lanes) : usesQueue c h x (c.q l q) := by
  obtain ⟨u, write, name⟩ := dest
  exact usesQueue_of_dest write (name ▸ queue) hl

theorem issues_sentLoads (dest : WritesD h w) (lanes : ∀ p ∈ ps, p.lane ∈ x.lanes) :
    Issues (usesQueue c h x) s (sentLoads w ctl scratch c h x ps s) (loadBase s c w ctl scratch)
      (gather (requestKey (okPlans ps)) (loadReqs s c w ps)) := by
  refine ⟨_, _, sendsNothing_of_queues (onlyQueues_popReads c h x s),
    sent_sendGathered (loadBase s c w ctl scratch) (okPlans ps) (loadCacheable ctl scratch) _ _, ?_⟩
  refine sendsNothing_of_queues (onlyQueues_reserveFor c _ _ _ _ _ _ fun q queue ls hls r hr => ?_)
  obtain ⟨p, hp, rfl⟩ := List.mem_map.mp ((mem_gather hls).2.1 r hr)
  exact usesQueue_of_lane dest queue (lane_of_okPlans lanes p hp)

theorem issues_sendLoads (dest : WritesD h w) (lanes : ∀ p ∈ ps, p.lane ∈ x.lanes) :
    Issues (usesQueue c h x) s (sendLoads i w ctl scratch c h x ps s) (loadBase s c w ctl scratch)
      (gather (requestKey (okPlans ps)) (loadReqs s c w ps)) := by
  refine (issues_sentLoads dest lanes).after (SendsNothing.trans ?_ (sendsNothing_of_moves (onlyMoves_advance _ _ _ _)))
  refine (sendsNothing_markFaulted (fun q queue p hp => usesQueue_of_lane dest queue (lanes p hp)) _ _).trans
    (sendsNothing_foldl _ _ (fun t p _ => ?_) _)
  split_ifs
  · exact sendsNothing_l1Drop _ _ t
  · exact SendsNothing.refl t

/-- A load that goes on sends its requests and nothing else (R253, R254). -/
theorem load_issued (dest : WritesD h w) (lanes : ∀ p ∈ ps, p.lane ∈ x.lanes) :
    let t := pairOrder s c h x (sendLoads i w ctl scratch c h x ps (dropWalkFaults c s))
    OnlySends (usesQueue c h x) s t ∧ SameMemory s t
      ∧ Requests s t (loadBase s c w ctl scratch) (loadReqs s c w ps) (fun r q => requestUnit r.pa = requestUnit q.pa) := by
  intro t
  have issued : Issues (usesQueue c h x) s t (loadBase s c w ctl scratch) (gather (requestKey (okPlans ps)) (loadReqs s c w ps)) :=
    ((issues_sendLoads dest lanes).before (sendsNothing_dropWalkFaults c s)).after (sendsNothing_of_moves (onlyMoves_pairOrder s c h x _))
  exact ⟨issued.sends, issued.sends.sameMemory, issued.gathered⟩

/-- The queue of a lane whose access was refused has an entry FAULTED (R252, R255). -/
theorem load_marks (dest : WritesD h w) (queue : destOf w.d.toNat = .queue q) (lanes : ∀ p ∈ ps, p.lane ∈ x.lanes) {p : LanePlan} {cause : Cause}
    {detail : Nat} (hp : p ∈ ps) (refused : p.plan = .bad cause detail) (consumed : consumerGone s c p.lane q = false) :
    QEntry.faulted cause (eaBits p.ea) c.pc ∈
      ((pairOrder s c h x (sendLoads i w ctl scratch c h x ps (dropWalkFaults c s))).queue (c.q p.lane q)).entries := by
  have sent := (issues_sentLoads (c := c) (x := x) (scratch := scratch) (ctl := ctl) (s := dropWalkFaults c s) dest lanes).sends
  have stays : consumerGone (sentLoads w ctl scratch c h x ps (dropWalkFaults c s)) c p.lane q = false :=
    (congrArg Thread.exited (sent.threads _) :).trans consumed
  have drops : ∀ k t, ((okPlans ps).foldl (fun u p => if l1Kind p.2.2.1 && !loadCacheable ctl scratch p.2.2.2 then l1Drop c.core p.2.2.1 u else u)
      t).queue k = t.queue k := fun k t => foldl_keep (State.queue · k) _ (fun t p => by split_ifs <;> rfl) _ t
  rw [(onlyMoves_pairOrder s c h x _).queues, sendLoads, (onlyMoves_advance _ _ _ _).queues, drops, queue]
  exact markFaulted_mem hp refused stays (sizeWords_pos _)

end

end Sys2Proof.Proofs
end

section
/-! Loads that go on, and accesses that stop (spec/11 R250 to R255, 09 R218). -/

namespace Sys2Proof.Proofs

open Sys2Proof Sys2Proof.Machine Sys2Proof.Laws

section
variable {i : Instr} {w : RWord} {ctl : W32} {scratch : Bool} {s : State} {c : Ctx} {h : Shape} {x : Issue}

theorem writesD_load (shaped : shape i = some (shLoad scratch w ctl)) (r : RunsOrdered queueCheck s i c h x) : WritesD h w := by
  obtain ⟨-, shape_h, -⟩ := r
  cases shaped.symm.trans shape_h
  exact ⟨_, rfl, rfl⟩

/-- A load all of whose lanes can be performed sends their requests (R253). -/
theorem load_runs (he : exec i s = issueOrdered queueCheck i (loadAct i w ctl scratch) s) (shaped : shape i = some (shLoad scratch w ctl))
    (r : RunsOrdered queueCheck s i c h x) (ok : ∀ p ∈ accessPlans s c h x ctl scratch .read, ∃ pa e, p.plan = .ok pa e) :
    ∃ t, exec i s = .next t ∧ OnlySends (usesQueue c h x) s t ∧ SameMemory s t
      ∧ Requests s t (loadBase s c w ctl scratch) (loadReqs s c w (accessPlans s c h x ctl scratch .read))
        (fun r q => requestUnit r.pa = requestUnit q.pa) := by
  rw [he, issueOrdered_runs r, loadAct_goes ok]
  exact ⟨_, rfl, load_issued (writesD_load shaped r) lane_of_accessPlans⟩

/-- A load to a dq of which no lane misses or reads poison sends the lanes that can be performed; the others have entries FAULTED (R252, R255). -/
theorem load_queued_runs {q : Nat} (he : exec i s = issueOrdered queueCheck i (loadAct i w ctl scratch) s)
    (shaped : shape i = some (shLoad scratch w ctl)) (r : RunsOrdered queueCheck s i c h x) (queue : destOf w.d.toNat = .queue q)
    (goes : ∀ p ∈ accessPlans s c h x ctl scratch .read, p.plan ≠ .miss ∧ ∀ d, p.plan ≠ .bad .poisonRead d) :
    ∃ t, exec i s = .next t ∧ OnlySends (usesQueue c h x) s t ∧ SameMemory s t
      ∧ Requests s t (loadBase s c w ctl scratch) (loadReqs s c w (accessPlans s c h x ctl scratch .read))
        (fun r q => requestUnit r.pa = requestUnit q.pa)
      ∧ ∀ p ∈ accessPlans s c h x ctl scratch .read, ∀ cause d, p.plan = .bad cause d → consumerGone s c p.lane q = false →
          QEntry.faulted cause (eaBits p.ea) c.pc ∈ (t.queue (c.q p.lane q)).entries := by
  have dest := writesD_load shaped r
  rw [he, issueOrdered_runs r, loadAct_queued queue, settleQueued_go goes]
  obtain ⟨sends, memory, requests⟩ := load_issued dest lane_of_accessPlans
  exact ⟨_, rfl, sends, memory, requests, fun p hp cause d refused consumed => load_marks dest queue lane_of_accessPlans hp refused consumed⟩

/-- To a dq the first lane that reads poison is taken at the instruction (R252). -/
theorem load_queued_poison {q : Nat} (he : exec i s = issueOrdered queueCheck i (loadAct i w ctl scratch) s) (r : RunsOrdered queueCheck s i c h x)
    (queue : destOf w.d.toNat = .queue q) {front rest : List LanePlan} {p : LanePlan} {d : Nat}
    (split : accessPlans s c h x ctl scratch .read = front ++ p :: rest) (here : p.plan = .bad .poisonRead d)
    (before : ∀ y ∈ front, ∀ k, y.plan ≠ .bad .poisonRead k) :
    exec i s = .next (pairOrder s c h x (faultAt c .poisonRead 0 d p.lane s)) := by
  rw [he, issueOrdered_runs r, loadAct_queued queue, split, settleQueued_poison before here]

/-- An access whose plans are settled lane by lane is decided by the first that cannot go on (R251). -/
theorem access_stops {act : Ctx → Shape → Issue → State → State} {ps : List LanePlan} {go : State → State}
    (he : exec i s = issueOrdered queueCheck i act s) (settles : act c h x s = settlePlans c ps s go) (r : RunsOrdered queueCheck s i c h x)
    (front : List LanePlan) (p : LanePlan) (rest : List LanePlan) (split : ps = front ++ p :: rest)
    (before : ∀ q ∈ front, ∃ pa e, q.plan = .ok pa e) :
    (∀ cause d, p.plan = .bad cause d →
      exec i s = .next (pairOrder s c h x
        (faultAt c cause (if cause = .poisonRead then 0 else (eaBits p.ea).toNat) d p.lane (dropWalkFaults c s))))
    ∧ (p.plan = .miss → exec i s = .next (pairOrder s c h x (stall (startWalks c ps s)))) := by
  rw [he, issueOrdered_runs r, settles, split]
  exact ⟨fun cause d here => by rw [settlePlans_bad before here], fun here => by rw [settlePlans_miss before here]⟩

end

/-! ### Checks of an address (R250, R251) -/

theorem planVirtual_misaligned {s : State} {c : Ctx} {ea : W64} {k : Nat} (acc : Access) (sized : k ≠ 0) (odd : ea.toNat % k ≠ 0) :
    planVirtual s c acc ea k = .bad .alignment 0 := if_pos ⟨sized, odd⟩

theorem planSpad_outside {s : State} {c : Ctx} {ea : Int} (acc : Access) (k : Nat) (out : ea < 0 ∨ 0x3FFFFF < ea) :
    planSpad s c acc ea k = .bad .scratchBounds 0 := if_pos out

theorem planSpad_misaligned {s : State} {c : Ctx} {ea : Int} {k : Nat} (acc : Access) (low : 0 ≤ ea) (high : ea ≤ 0x3FFFFF)
    (odd : ea.toNat % k ≠ 0) : planSpad s c acc ea k = .bad .alignment 0 := by
  unfold planSpad
  rw [if_neg (by omega)]
  exact if_pos odd

/-! ### Walks (R218) -/

theorem mem_of_smem {m : NSet} {i : Nat} (h : smem m i = true) : i ∈ m := by
  induction m with
  | nil => cases h
  | cons k m ih =>
    rw [smem, Bool.or_eq_true, decide_eq_true_eq] at h
    exact List.mem_cons.mpr (h.imp id ih)

theorem headD_sadd (m : NSet) (i : Nat) : (sadd m i).headD 0 = m.headD 0 ∨ (sadd m i).headD 0 = i := by
  cases m with
  | nil => exact .inr rfl
  | cons k m =>
    unfold sadd
    split_ifs
    · exact .inl rfl
    · exact .inr rfl
    · exact .inl rfl

/-- A miss has begun a walk of its reticle for its page, or joined one. -/
theorem startWalk_walks (core m root va : Nat) (s : State) : ∃ y ∈ (startWalk core m root va s).walks, core ∈ y.2.cores ∧ y.2.ret = coreRet core
    ∧ y.2.m = m ∧ y.2.root = root ∧ y.2.va / 65536 = va / 65536 := by
  unfold startWalk
  split
  · next w found =>
    have same := List.find?_some found
    simp only [Bool.and_eq_true, beq_iff_eq] at same
    obtain ⟨⟨⟨ret, module⟩, region⟩, page⟩ := same
    split_ifs with joined
    · exact ⟨w, List.mem_of_find?_eq_some found, mem_of_smem joined, ret, module, region, page⟩
    · refine ⟨_, mem_of_mget? (mget?_mput_self s.walks w.1 _), mem_of_smem (smem_sadd_self _ _), ?_, module, region, page⟩
      rcases headD_sadd w.2.cores core with first | first
      · exact (congrArg coreRet first).trans ret
      · exact congrArg coreRet first
  · exact ⟨_, mem_of_mget? (mget?_mput_self s.walks s.nextId _), List.mem_singleton.mpr rfl, rfl, rfl, rfl, rfl⟩

/-! ### The obligations -/

/-- Settles O18: a load whose plans all go on sends what load_runs says. -/
theorem loads : Obligations.Loads := by
  unfold Obligations.Loads
  intro w ctl s c h x load
  exact ⟨load_runs rfl rfl, load_runs rfl rfl⟩

/-- Settles O39: POISON_READ first; else each lane sends its request or has its entry. -/
theorem queuedAccessFaults : Obligations.QueuedAccessFaults := by
  unfold Obligations.QueuedAccessFaults
  intro w ctl s c h x q load
  have both : ∀ i scratch, exec i s = issueOrdered queueCheck i (loadAct i w ctl scratch) s → shape i = some (shLoad scratch w ctl) → load i scratch :=
    fun i scratch he shaped r queue =>
      ⟨fun front p rest d split here before => load_queued_poison he r queue split here before, by
        rw [← queue]; exact load_queued_runs he shaped r queue⟩
  exact ⟨both _ false rfl rfl, both _ true rfl rfl⟩

end Sys2Proof.Proofs
end

section
/-! Stores and atomics at issue (spec/11 R256 to R259): what they send, UNACK, and the acquire of ACQ. -/

namespace Sys2Proof.Proofs

open Sys2Proof Sys2Proof.Machine Sys2Proof.Laws

theorem unack_of_moves {s t : State} (m : OnlyMoves s t) (k : Nat) : (t.sw k).unack = (s.sw k).unack := (congrArg SliceWarp.unack (m.sws k) :)

theorem fence_of_moves {s t : State} (m : OnlyMoves s t) (k : Nat) : (t.sw k).fence = (s.sw k).fence := (congrArg SliceWarp.fence (m.sws k) :)

theorem ticks_pairOrder (b : State) (c : Ctx) (h : Shape) (x : Issue) (s : State) : (pairOrder b c h x s).ticks = s.ticks := by
  unfold pairOrder orderAfter
  split_ifs <;> rfl

theorem threads_pairOrder (b : State) (c : Ctx) (h : Shape) (x : Issue) (s : State) : (pairOrder b c h x s).threads = s.threads := by
  unfold pairOrder orderAfter
  split_ifs <;> rfl

theorem sws_l1Store (core key pa policy : Nat) (bs : List Byte) (s : State) : (l1Store core key pa policy bs s).sws = s.sws := by
  unfold l1Store
  split
  · rfl
  · split_ifs <;> rfl

/-- Popping sources and sending requests leave the slice-warps alone. -/
theorem sws_sent {c : Ctx} {h : Shape} {x : Issue} {s u : State} {base : Flight} {gs : List (List LaneReq)}
    (sent : Sent (popReads c h x.pops s) u base gs) : u.sws = s.sws :=
  (congrArg State.sws sent.rest :).trans (congrArg State.sws (onlyQueues_popReads c h x s).rest :)

/-! ### Stores (R253, R256, R257) -/

/-- The requests of a store's lanes, with the bytes of D. -/
def storeReqs (s : State) (c : Ctx) (h : Shape) (ctl : W32) (ps : List LanePlan) : List LaneReq :=
  (okPlans ps).map (fun p => laneReq s c 127 p (srcN s c h p.1 2 % 2 ^ (8 * 2 ^ mcSize ctl)) 0)

/-- The requests of a store, gathered. -/
def storeGroups (s : State) (c : Ctx) (h : Shape) (ctl : W32) (ps : List LanePlan) : List (List LaneReq) :=
  gather (requestKey (okPlans ps)) (storeReqs s c h ctl ps)

/-- A store whose plans are settled goes on, where UNACK has room for its requests: L1 follows it, but not one to a staged grid's log. -/
def sendStores (i : Instr) (ctl : W32) (scratch : Bool) (c : Ctx) (h : Shape) (x : Issue) (ps : List LanePlan) (s : State) : State :=
  if (s.sw c.sw).unack + (storeGroups s c h ctl ps).length > 255 then stall s
  else
    let base := baseFlight s c .store (2 ^ mcSize ctl) 0 .drop scratch
    let t := (sendGathered base (okPlans ps) (fun e => effPolicy (mcPolicy ctl) e != 2) (storeGroups s c h ctl ps) (popReads c h x.pops s)).2
    let t := if c.g.launch.staged then t else
      (storeReqs s c h ctl ps).foldl (fun u r =>
        l1Store c.core (pteKey (leafOf (okPlans ps) r.lane)) r.pa (effPolicy (mcPolicy ctl) (leafOf (okPlans ps) r.lane))
          (bytesLE (2 ^ mcSize ctl) r.data.toNat) u) t
    advance c (instrWords i) (issueCycles s c x.uniform) (addUnack c (storeGroups s c h ctl ps).length t)

section
variable {i : Instr} {w : RWord} {ctl : W32} {scratch : Bool} {c : Ctx} {h : Shape} {x : Issue} {ps : List LanePlan} {s : State}

theorem storeAct_eq : storeAct i ctl scratch c h x s =
    settlePlans c (accessPlans s c h x ctl scratch .write) s
      (membersAgree c (accessPlans s c h x ctl scratch .write) (sendStores i ctl scratch c h x (accessPlans s c h x ctl scratch .write))) := rfl

theorem storeReqs_dropWalkFaults : storeReqs (dropWalkFaults c s) c h ctl ps = storeReqs s c h ctl ps := by
  have alike := alike_dropWalkFaults c s
  simp only [storeReqs, laneReq_alike alike, alike.srcN]

theorem storeGroups_dropWalkFaults : storeGroups (dropWalkFaults c s) c h ctl ps = storeGroups s c h ctl ps :=
  congrArg (gather (requestKey (okPlans ps))) storeReqs_dropWalkFaults

theorem sendStores_waits (full : 255 < (s.sw c.sw).unack + (storeGroups s c h ctl ps).length) :
    sendStores i ctl scratch c h x ps s = stall s := if_pos full

theorem sendStores_sends (room : (s.sw c.sw).unack + (storeGroups s c h ctl ps).length ≤ 255) :
    let t := sendStores i ctl scratch c h x ps s
    Issues (usesQueue c h x) s t (baseFlight s c .store (2 ^ mcSize ctl) 0 .drop scratch) (storeGroups s c h ctl ps)
      ∧ (t.sw c.sw).unack = (s.sw c.sw).unack + (storeGroups s c h ctl ps).length := by
  have sent := sent_sendGathered (baseFlight s c .store (2 ^ mcSize ctl) 0 .drop scratch) (okPlans ps)
    (fun e => effPolicy (mcPolicy ctl) e != 2) (storeGroups s c h ctl ps) (popReads c h x.pops s)
  have sws := sws_sent sent
  unfold sendStores
  rw [if_neg (by omega)]
  refine ⟨⟨_, _, sendsNothing_of_queues (onlyQueues_popReads c h x s), sent, SendsNothing.trans ?_
    ((sendsNothing_addUnack c _ _).trans (sendsNothing_of_moves (onlyMoves_advance _ _ _ _)))⟩, (unack_of_moves (onlyMoves_advance _ _ _ _) _).trans ?_⟩
  · split_ifs
    · exact SendsNothing.refl _
    · exact sendsNothing_foldl _ _ (fun u r _ => sendsNothing_l1Store _ _ _ _ _ u) _
  · rw [addUnack, sw_updSw_self]
    refine congrArg (fun m : SMap SliceWarp => (mget m c.sw SliceWarp.start).unack + _) (Eq.trans ?_ sws)
    split_ifs
    · rfl
    · exact foldl_keep State.sws _ (fun u r => sws_l1Store _ _ _ _ _ u) _ _

/-- A store that goes on or waits for room in UNACK (R253, R257). -/
theorem store_runs (he : exec i s = issueOrdered queueCheck i (storeAct i ctl scratch) s) (r : RunsOrdered queueCheck s i c h x)
    (ok : ∀ p ∈ accessPlans s c h x ctl scratch .write, ∃ pa e, p.plan = .ok pa e) (agree : PairsAgree s c x) :
    let gs := storeGroups s c h ctl (accessPlans s c h x ctl scratch .write)
    ((s.sw c.sw).unack + gs.length ≤ 255 →
      ∃ t, exec i s = .next t ∧ OnlySends (usesQueue c h x) s t ∧ SameMemory s t
        ∧ Requests s t (baseFlight s c .store (2 ^ mcSize ctl) 0 .drop scratch) (storeReqs s c h ctl (accessPlans s c h x ctl scratch .write))
            (fun r q => requestUnit r.pa = requestUnit q.pa)
        ∧ t.nextId = s.nextId + gs.length ∧ (t.sw c.sw).unack = (s.sw c.sw).unack + gs.length)
    ∧ (255 < (s.sw c.sw).unack + gs.length → ∃ t, exec i s = .next t ∧ OnlySends (fun _ => False) s t ∧ SameMemory s t
        ∧ t.nextId = s.nextId ∧ t.threads = s.threads ∧ (t.sw c.sw).unack = (s.sw c.sw).unack) := by
  intro gs
  rw [he, issueOrdered_runs r, storeAct_eq, settlePlans_ok ok, membersAgree_of_pairs _ agree lane_of_accessPlans]
  have same : storeGroups (dropWalkFaults c s) c h ctl (accessPlans s c h x ctl scratch .write) = gs := storeGroups_dropWalkFaults
  have moves := fun u => onlyMoves_pairOrder s c h x u
  refine ⟨fun room => ?_, fun full => ?_⟩
  · obtain ⟨issued, unack⟩ := sendStores_sends (i := i) (scratch := scratch) (x := x) (s := dropWalkFaults c s) (same ▸ room)
    rw [same] at issued unack
    have all := (issued.before (sendsNothing_dropWalkFaults c s)).after (sendsNothing_of_moves (moves _))
    exact ⟨_, rfl, all.sends, all.sends.sameMemory, all.gathered, all.nextId, (unack_of_moves (moves _) _).trans unack⟩
  · rw [sendStores_waits (same ▸ full)]
    have quiet := fun K => ((sendsNothing_dropWalkFaults (K := K) c s).trans (sendsNothing_stall _)).trans (sendsNothing_of_moves (moves _))
    exact ⟨_, rfl, (quiet _).sends, (quiet fun _ => True).sends.sameMemory, (quiet fun _ => True).nextId, threads_pairOrder _ _ _ _ _,
      unack_of_moves (moves _) _⟩

end

/-- Settles O19: a store sends, or waits for room in UNACK. -/
theorem stores : Obligations.Stores := by
  unfold Obligations.Stores
  intro w ctl s c h x store
  have both : ∀ i scratch, exec i s = issueOrdered queueCheck i (storeAct i ctl scratch) s → store i scratch :=
    fun i scratch he r ok agree => store_runs he r ok agree
  exact ⟨both _ false rfl, both _ true rfl⟩

/-! ### Atomics (R258, R259) -/

section
variable {aop : Nat} {reqs : List LaneReq}

theorem atomicGroups_cover {r : LaneReq} (hr : r ∈ reqs) : ∃ ls ∈ atomicGroups aop reqs, r ∈ ls := by
  unfold atomicGroups
  split_ifs
  · exact ⟨[r], List.mem_map_of_mem hr, List.mem_singleton.mpr rfl⟩
  · exact gather_covers _ hr

theorem atomicGroups_parts {ls : List LaneReq} (h : ls ∈ atomicGroups aop reqs) : ls ≠ [] ∧ (∀ r ∈ ls, r ∈ reqs)
    ∧ ∀ r ∈ ls, ∀ q ∈ ls, if aop = 11 ∨ aop = 12 then r = q else r.pa = q.pa := by
  unfold atomicGroups at h
  split_ifs at h ⊢
  · obtain ⟨r, hr, rfl⟩ := List.mem_map.mp h
    simp [hr]
  · exact mem_gather h

end

/-- The requests of an atomic's lanes, with their operands. -/
def atomicReqs (s : State) (c : Ctx) (h : Shape) (w : RWord) (ps : List LanePlan) : List LaneReq :=
  (okPlans ps).map (fun p => laneReq s c w.d.toNat p (srcN s c h p.1 1) (srcN s c h p.1 2))

/-- An atomic's request before its lanes. -/
def atomicBase (s : State) (c : Ctx) (w : RWord) (ctl : W32) (scratch : Bool) : Flight :=
  { baseFlight s c .atomic (if acWide ctl then 8 else 4) (if acWide ctl then 2 else 1) (destOf w.d.toNat) scratch with
    aop := acAop ctl, wide := acWide ctl }

/-- An atomic whose plans are settled has sent its requests; the lines leave L1. -/
def sentAtomics (w : RWord) (ctl : W32) (scratch : Bool) (c : Ctx) (h : Shape) (x : Issue) (ps : List LanePlan) (s : State) : State :=
  let gs := atomicGroups (acAop ctl) (atomicReqs s c h w ps)
  let sent := sendGathered (atomicBase s c w ctl scratch) (okPlans ps) (fun _ => false) gs (popReads c h x.pops s)
  let words := if acWide ctl then 2 else 1
  (okPlans ps).foldl (fun u p => if l1Kind p.2.2.1 then l1Drop c.core p.2.2.1 u else u)
    (markFaulted c (destOf w.d.toNat) words ps (reserveFor c (destOf w.d.toNat) words sent.1 gs sent.2))

/-- An atomic whose plans are settled goes on, with the acquire of ACQ. -/
def sendAtomics (i : Instr) (w : RWord) (ctl : W32) (scratch : Bool) (c : Ctx) (h : Shape) (x : Issue) (ps : List LanePlan) (s : State) : State :=
  let t := sentAtomics w ctl scratch c h x ps s
  advance c (instrWords i) (issueCycles s c x.uniform) (if acAcq ctl then startFence c (mcScope ctl) (readsBefore t c) true t else t)

section
variable {i : Instr} {w : RWord} {ctl : W32} {scratch : Bool} {c : Ctx} {h : Shape} {x : Issue} {ps : List LanePlan} {s : State} {q : Nat}

theorem atomAct_eq : atomAct i w ctl scratch c h x s =
    let ps := atomicPlans s c h x ctl scratch
    if acRel ctl && !releaseDone s c (mcScope ctl) then stall s
    else match destOf w.d.toNat with
      | .queue _ => settleQueued c ps s (membersAgree c ps (sendAtomics i w ctl scratch c h x ps))
      | _ => settlePlans c ps s (membersAgree c ps (sendAtomics i w ctl scratch c h x ps)) := rfl

theorem atomAct_waits (rel : acRel ctl = true) (pending : releaseDone s c (mcScope ctl) = false) : atomAct i w ctl scratch c h x s = stall s := by
  rw [atomAct_eq, if_pos (by simp [rel, pending])]

theorem atomAct_direct (released : acRel ctl = true → releaseDone s c (mcScope ctl) = true) (dest : ∀ q, destOf w.d.toNat ≠ .queue q) :
    atomAct i w ctl scratch c h x s = settlePlans c (atomicPlans s c h x ctl scratch) s
      (membersAgree c (atomicPlans s c h x ctl scratch) (sendAtomics i w ctl scratch c h x (atomicPlans s c h x ctl scratch))) := by
  rw [atomAct_eq, if_neg (by cases hr : acRel ctl <;> simp_all)]
  cases hd : destOf w.d.toNat with
  | queue q => exact absurd hd (dest q)
  | _ => rfl

theorem atomAct_goes (released : acRel ctl = true → releaseDone s c (mcScope ctl) = true)
    (ok : ∀ p ∈ atomicPlans s c h x ctl scratch, ∃ pa e, p.plan = .ok pa e) (agree : PairsAgree s c x) :
    atomAct i w ctl scratch c h x s = sendAtomics i w ctl scratch c h x (atomicPlans s c h x ctl scratch) (dropWalkFaults c s) := by
  rw [← membersAgree_of_pairs (sendAtomics i w ctl scratch c h x _) agree lane_of_atomicPlans]
  by_cases dest : ∃ q, destOf w.d.toNat = .queue q
  · obtain ⟨q, dest⟩ := dest
    rw [atomAct_eq, if_neg (by cases hr : acRel ctl <;> simp_all), dest]
    exact settleQueued_ok ok s _
  · rw [atomAct_direct released (not_exists.mp dest), settlePlans_ok ok]

theorem writesD_atomic (shaped : shape i = some (shAtom scratch w ctl)) (r : RunsOrdered queueCheck s i c h x) : WritesD h w := by
  obtain ⟨-, shape_h, -⟩ := r
  cases shaped.symm.trans shape_h
  exact ⟨_, rfl, rfl⟩

theorem atomicReqs_dropWalkFaults : atomicReqs (dropWalkFaults c s) c h w ps = atomicReqs s c h w ps := by
  have alike := alike_dropWalkFaults c s
  simp only [atomicReqs, laneReq_alike alike, alike.srcN]

theorem issues_sentAtomics (dest : WritesD h w) (lanes : ∀ p ∈ ps, p.lane ∈ x.lanes) :
    Issues (usesQueue c h x) s (sentAtomics w ctl scratch c h x ps s) (atomicBase s c w ctl scratch)
      (atomicGroups (acAop ctl) (atomicReqs s c h w ps)) := by
  refine ⟨_, _, sendsNothing_of_queues (onlyQueues_popReads c h x s),
    sent_sendGathered (atomicBase s c w ctl scratch) (okPlans ps) (fun _ => false) _ _, SendsNothing.trans ?_
    ((sendsNothing_markFaulted (fun q queue p hp => usesQueue_of_lane dest queue (lanes p hp)) _ _).trans (sendsNothing_foldl _ _ (fun t p _ => ?_) _))⟩
  · refine sendsNothing_of_queues (onlyQueues_reserveFor c _ _ _ _ _ _ fun q queue ls hls r hr => ?_)
    obtain ⟨p, hp, rfl⟩ := List.mem_map.mp ((atomicGroups_parts hls).2.1 r hr)
    exact usesQueue_of_lane dest queue (lane_of_okPlans lanes p hp)
  · split_ifs
    · exact sendsNothing_l1Drop _ _ t
    · exact SendsNothing.refl t

theorem issues_sendAtomics (dest : WritesD h w) (lanes : ∀ p ∈ ps, p.lane ∈ x.lanes) :
    Issues (usesQueue c h x) s (sendAtomics i w ctl scratch c h x ps s) (atomicBase s c w ctl scratch)
      (atomicGroups (acAop ctl) (atomicReqs s c h w ps)) := by
  refine (issues_sentAtomics dest lanes).after (SendsNothing.trans ?_ (sendsNothing_of_moves (onlyMoves_advance _ _ _ _)))
  split_ifs
  · exact sendsNothing_startFence _ _ _ _ _
  · exact SendsNothing.refl _

/-- The acquire of an atomic with ACQ waits for what the atomic has sent (R258). -/
theorem fence_sendAtomics (acq : acAcq ctl = true) : ((sendAtomics i w ctl scratch c h x ps s).sw c.sw).fence =
    some ⟨mcScope ctl, readsBefore (sentAtomics w ctl scratch c h x ps s) c, true⟩ := by
  unfold sendAtomics
  rw [fence_of_moves (onlyMoves_advance _ _ _ _), if_pos acq, startFence, sw_updSw_self]

/-- An atomic that has to release waits, and sends nothing (R258). -/
theorem atomic_waits (he : exec i s = issueOrdered queueCheck i (atomAct i w ctl scratch) s) (r : RunsOrdered queueCheck s i c h x)
    (rel : acRel ctl = true) (pending : releaseDone s c (mcScope ctl) = false) : ∃ t, exec i s = .next t ∧ OnlySends (fun _ => False) s t
      ∧ SameMemory s t ∧ t.nextId = s.nextId ∧ t.threads = s.threads ∧ t.ticks = s.ticks + 8 := by
  rw [he, issueOrdered_runs r, atomAct_waits rel pending]
  have quiet := (sendsNothing_stall (K := fun _ => False) s).trans (sendsNothing_of_moves (onlyMoves_pairOrder s c h x _))
  exact ⟨_, rfl, quiet.sends, quiet.sends.sameMemory, quiet.nextId, threads_pairOrder _ _ _ _ _, ticks_pairOrder _ _ _ _ _⟩

/-- An atomic whose release is done sends one request for each location, or each lane, and begins its acquire (R258, R259). -/
theorem atomic_runs (he : exec i s = issueOrdered queueCheck i (atomAct i w ctl scratch) s) (shaped : shape i = some (shAtom scratch w ctl))
    (r : RunsOrdered queueCheck s i c h x) (released : acRel ctl = true → releaseDone s c (mcScope ctl) = true)
    (ok : ∀ p ∈ atomicPlans s c h x ctl scratch, ∃ pa e, p.plan = .ok pa e) (agree : PairsAgree s c x) :
    let reqs := atomicReqs s c h w (atomicPlans s c h x ctl scratch)
    ∃ t, exec i s = .next t ∧ OnlySends (usesQueue c h x) s t ∧ SameMemory s t
      ∧ Requests s t (atomicBase s c w ctl scratch) reqs (fun r q => if acAop ctl = 11 ∨ acAop ctl = 12 then r = q else r.pa = q.pa)
      ∧ t.nextId = s.nextId + (atomicGroups (acAop ctl) reqs).length
      ∧ (acAcq ctl = true → ∃ f, (t.sw c.sw).fence = some f ∧ f.scope = mcScope ctl ∧ f.acquire = true
        ∧ ∀ op, s.nextId ≤ op → op < t.nextId → op ∈ f.ops) := by
  intro reqs
  rw [he, issueOrdered_runs r, atomAct_goes released ok agree]
  have same : atomicReqs (dropWalkFaults c s) c h w (atomicPlans s c h x ctl scratch) = reqs := atomicReqs_dropWalkFaults
  have dest := writesD_atomic shaped r
  have moves := fun u => onlyMoves_pairOrder s c h x u
  have sent := issues_sentAtomics (c := c) (x := x) (ctl := ctl) (scratch := scratch) (s := dropWalkFaults c s)
    (ps := atomicPlans s c h x ctl scratch) dest lane_of_atomicPlans
  have issued := issues_sendAtomics (i := i) (c := c) (x := x) (ctl := ctl) (scratch := scratch) (s := dropWalkFaults c s)
    (ps := atomicPlans s c h x ctl scratch) dest lane_of_atomicPlans
  rw [same] at sent issued
  have all := (issued.before (sendsNothing_dropWalkFaults c s)).after (sendsNothing_of_moves (moves _))
  refine ⟨_, rfl, all.sends, all.sends.sameMemory, all.requests (fun r hr => atomicGroups_cover hr) (fun ls hls => atomicGroups_parts hls), all.nextId,
    fun acq => ⟨_, (fence_of_moves (moves _) _).trans (fence_sendAtomics acq), rfl, rfl, fun op first last => ?_⟩⟩
  exact List.mem_append_left _ (sent.mem_readsOf (.inr (.inl rfl)) first (by rw [sent.nextId]; rw [all.nextId] at last; exact last))

end

/-- Settles O20: an atomic waits for its release, or sends what atomic_runs says. -/
theorem atomics : Obligations.Atomics := by
  unfold Obligations.Atomics
  intro w ctl s c h x atom
  have both : ∀ i scratch, exec i s = issueOrdered queueCheck i (atomAct i w ctl scratch) s → shape i = some (shAtom scratch w ctl) →
      atom i scratch (atomicPlans s c h x ctl scratch) :=
    fun i scratch he shaped r => ⟨atomic_waits he r, atomic_runs he shaped r⟩
  exact ⟨both _ false rfl rfl, both _ true rfl rfl⟩

/-- Settles O38: the plans of each access are settled in order, and an address is checked before it is translated. -/
theorem accessFaults : Obligations.AccessFaults := by
  unfold Obligations.AccessFaults
  intro w ctl s c h x stops n atomPlans
  have store : ∀ i scratch, exec i s = issueOrdered queueCheck i (storeAct i ctl scratch) s → stops i (accessPlans s c h x ctl scratch .write) :=
    fun i scratch he => access_stops he storeAct_eq
  refine ⟨store _ false rfl, store _ true rfl, fun direct => ?_, fun acc ea k => planVirtual_misaligned acc, fun acc ea k => planSpad_outside acc k,
    fun acc ea k => planSpad_misaligned acc, fun core m root va => startWalk_walks core m root va s⟩
  have load : ∀ i scratch, exec i s = issueOrdered queueCheck i (loadAct i w ctl scratch) s → stops i (accessPlans s c h x ctl scratch .read) :=
    fun i scratch he => access_stops he (loadAct_direct direct)
  refine ⟨load _ false rfl, load _ true rfl, fun released => ?_⟩
  have atomic : ∀ i scratch, exec i s = issueOrdered queueCheck i (atomAct i w ctl scratch) s → stops i (atomicPlans s c h x ctl scratch) :=
    fun i scratch he => access_stops he (atomAct_direct released direct)
  exact ⟨atomic _ false rfl, atomic _ true rfl⟩

end Sys2Proof.Proofs
end

section
/-! Fences and the scopes of synchronisation (spec/11 R260, spec/10 R228 to R233). -/

namespace Sys2Proof.Proofs

open Sys2Proof Sys2Proof.Machine Sys2Proof.Laws

/-! ### Fences -/

/-- What a fence does once its delivery point lets it go. -/
def fenced (scope : Nat) (ops : List Nat) (acq : Bool) (c : Ctx) (s : State) : State :=
  advance c 1 1 (if ops.isEmpty then endFence c.sw c.core (startFence c scope ops acq s) else startFence c scope ops acq s)

section
variable {scope : Nat} {ops : List Nat} {rel acq : Bool} {c : Ctx} {h : Shape} {x : Issue} {s : State}

theorem fenceAct_goes (lanes : x.lanes ≠ []) (landed : sfuPending s c.run.gid c.run.warp c.run.slice = false) (quiet : fpTest s c = 0) :
    fenceAct scope rel acq c h x s = fenced scope (if rel then releaseOps s c scope else readsBefore s c) acq c s := by
  unfold fenceAct
  rw [if_neg (by simpa using lanes), deliver_of_quiet landed quiet]
  rfl

theorem sendsNothing_fenced {K : Nat → Prop} : SendsNothing K s (fenced scope ops acq c s) := by
  unfold fenced
  refine SendsNothing.trans ?_ (sendsNothing_of_moves (onlyMoves_advance _ _ _ _))
  split_ifs
  · exact (sendsNothing_startFence _ _ _ _ _).trans (sendsNothing_endFence _ _ _)
  · exact sendsNothing_startFence _ _ _ _ _

theorem l1_of_moves {t : State} (m : OnlyMoves s t) (k : Nat) : (t.core k).l1 = (s.core k).l1 := (congrArg CoreSt.l1 (m.calm.cores k) :)

/-- With operations to wait for, the fence waits for them. -/
theorem fence_fenced (some_op : ops ≠ []) : ((fenced scope ops acq c s).sw c.sw).fence = some ⟨scope, ops, acq⟩ := by
  unfold fenced
  rw [fence_of_moves (onlyMoves_advance _ _ _ _), if_neg (by simpa using some_op), startFence, sw_updSw_self]

theorem endFence_startFence : endFence c.sw c.core (startFence c scope ops acq s) =
    let u := updSw c.sw (fun x => { x with fence := none }) (startFence c scope ops acq s)
    if acq && decide (scope ≥ 4) then updCore c.core (fun k => { k with l1 := [] }) u else u := by
  unfold endFence
  rw [startFence, sw_updSw_self]

/-- With none, the fence is complete, and an acquire at core scope or wider has emptied L1 (R233). -/
theorem fenced_complete : ((fenced scope [] acq c s).sw c.sw).fence = none
    ∧ (acq = true → 4 ≤ scope → ((fenced scope [] acq c s).core c.core).l1 = []) := by
  unfold fenced
  rw [fence_of_moves (onlyMoves_advance _ _ _ _), l1_of_moves (onlyMoves_advance _ _ _ _), List.isEmpty_nil, if_pos rfl, endFence_startFence]
  refine ⟨?_, fun isAcq wide => ?_⟩
  · dsimp only
    split_ifs
    · exact congrArg SliceWarp.fence (sw_updSw_self c.sw (fun x => { x with fence := none }) _)
    · rw [sw_updSw_self]
  · rw [isAcq, decide_eq_true wide]
    exact congrArg CoreSt.l1 (core_updCore_self c.core (fun k => { k with l1 := [] }) _)

end

/-- A fence that may execute in some lane, at a delivery point with nothing to deliver (R260). -/
theorem fence_runs {i : Instr} {scope : Nat} {rel acq : Bool} {s : State} {c : Ctx} {h : Shape} {x : Issue}
    (he : exec i s = issueOrdered operandCheck i (fenceAct scope rel acq) s) (r : RunsOrdered operandCheck s i c h x) (lanes : x.lanes ≠ [])
    (landed : sfuPending s c.run.gid c.run.warp c.run.slice = false) (quiet : fpTest s c = 0) :
    let ops := if rel then releaseOps s c scope else readsBefore s c
    ∃ t, exec i s = .next t ∧ OnlySends (usesQueue c h x) s t ∧ SameMemory s t ∧ t.flight = s.flight ∧ t.nextId = s.nextId
      ∧ (ops ≠ [] → (t.sw c.sw).fence = some ⟨scope, ops, acq⟩)
      ∧ (ops = [] → (t.sw c.sw).fence = none ∧ (acq = true → 4 ≤ scope → (t.core c.core).l1 = [])) := by
  intro ops
  have goes : fenceAct scope rel acq c h x s = fenced scope ops acq c s := fenceAct_goes lanes landed quiet
  have moves := onlyMoves_pairOrder s c h x (fenced scope ops acq c s)
  have all : SendsNothing (usesQueue c h x) s _ := sendsNothing_fenced.trans (sendsNothing_of_moves moves)
  refine ⟨_, he.trans ((issueOrdered_runs r _).trans (by rw [goes])), all.sends, all.sends.sameMemory, all.flight, all.nextId, ?_, ?_⟩
  · intro some_op
    rw [fence_of_moves moves, fence_fenced some_op]
  · intro none_op
    rw [fence_of_moves moves, l1_of_moves moves, none_op]
    exact fenced_complete

/-! ### Scopes (R228 to R230) -/

section
variable {s : State} {gid warp lane : Nat} {slice : Slice} {g : Group} {b : Party}

theorem core?_slice (hg : mget? s.groups gid = some g) : (Party.slice gid warp lane slice).core? s = some g.core := by
  simp [Party.core?, hg]

theorem ret?_slice (hg : mget? s.groups gid = some g) : (Party.slice gid warp lane slice).ret? s = some (coreRet g.core) := by
  simp [Party.ret?, core?_slice hg]

theorem mod?_slice (hg : mget? s.groups gid = some g) : (Party.slice gid warp lane slice).mod? s = some (modOf (coreRet g.core)) := by
  simp [Party.mod?, ret?_slice hg]

theorem ret?_of_core? {k : Nat} (h : b.core? s = some k) : b.ret? s = some (coreRet k) := by
  cases b with
  | endpoint | walkers => cases h
  | _ => exact congrArg (Option.map coreRet) h

theorem mod?_of_ret? {r : Nat} (h : b.ret? s = some r) : b.mod? s = some (modOf r) := by
  cases b with
  | commandProcessor => cases h
  | _ => exact congrArg (Option.map modOf) h

/-- What lies within a scope around a slice lies within the next scope (R228). -/
theorem inScope_succ (hg : mget? s.groups gid = some g) (serves : ∀ r, b.ret? s = some r → inService s r = true) {n : Nat} (small : n < 10)
    (inside : inScope s n (.slice gid warp lane slice) b = true) : inScope s (n + 1) (.slice gid warp lane slice) b = true := by
  have core := core?_slice (warp := warp) (lane := lane) (slice := slice) hg
  have ret := ret?_slice (warp := warp) (lane := lane) (slice := slice) hg
  have mod := mod?_slice (warp := warp) (lane := lane) (slice := slice) hg
  interval_cases n
  · -- slice to lane
    cases of_decide_eq_true inside
    simp [inScope]
  · -- lane to warp
    cases b with
    | slice => simp_all [inScope]
    | _ => simp [inScope] at inside
  · -- warp to group
    cases b with
    | slice => simp_all [inScope]
    | _ => simp [inScope] at inside
  · -- group to core
    cases b with
    | slice gid' =>
      obtain rfl : gid = gid' := by simpa [inScope] using inside
      simp [inScope, core?_slice hg]
    | _ => simp [inScope] at inside
  · -- core to fold
    simp only [inScope, core, Option.isSome_some, Bool.true_and, beq_iff_eq] at inside ⊢
    rw [← inside]
  · -- fold to reticle
    cases hb : b.core? s with
    | none => simp [inScope, core, hb] at inside
    | some k =>
      have fold : g.core / 4 = k / 4 := by simpa [inScope, core, hb] using inside
      have reticle : g.core / 256 = k / 256 := by omega
      simp [inScope, ret, ret?_of_core? hb, coreRet, reticle]
  · -- reticle to wafer
    have same : some (coreRet g.core) = b.ret? s := by simpa [inScope, ret] using inside
    simp [inScope, sameWafer, mod, mod?_of_ret? same.symm, ← same, serves _ same.symm]
  · -- wafer to wafer group
    simp_all [inScope]
  · -- wafer group to pod
    cases hb : b.mod? s with
    | none => simp [inScope, sameWafer, mod, ret, hb] at inside
    | some m => simp [inScope, hb]
  · -- pod to system
    cases b with
    | peer => cases inside
    | host => rfl
    | _ => exact inside

/-- What lies within a scope around a slice lies within every wider one. -/
theorem inScope_mono (hg : mget? s.groups gid = some g) (serves : ∀ r, b.ret? s = some r → inService s r = true) {inner outer : Nat}
    (wider : inner ≤ outer) (last : outer ≤ 10) (inside : inScope s inner (.slice gid warp lane slice) b = true) :
    inScope s outer (.slice gid warp lane slice) b = true := by
  induction outer, wider using Nat.le_induction with
  | base => exact inside
  | succ n _ ih => exact inScope_succ hg serves (by omega) (ih (by omega))

end

/-- Settles O21: a fence by fence_runs; the scopes around a slice grow by inScope_mono. -/
theorem fences : Obligations.Fences := by
  unfold Obligations.Fences
  intro k s c h x fence
  have each : ∀ i rel acq, exec i s = issueOrdered operandCheck i (fenceAct k.k.toNat rel acq) s → fence i rel acq :=
    fun i rel acq he r => fence_runs he r
  refine ⟨⟨each _ _ _ rfl, each _ _ _ rfl, each _ _ _ rfl⟩, fun a b release acquire sync => ?_, fun gid warp lane slice b inner outer known serves => ?_,
    fun gid warp lane gid' warp' lane' slice slice' g g' hg hg' => ?_⟩
  · simpa [canSynchronise] using sync
  · obtain ⟨g, hg⟩ := Option.isSome_iff_exists.mp known
    exact inScope_mono hg serves
  · refine ⟨?_, ?_, ?_, ?_, ?_, ?_, ?_, ?_, ?_, fun code wide => ?_⟩
    · simp [inScope]
    · simp [inScope, and_assoc]
    · simp [inScope]
    · simp [inScope]
    · simp [inScope, core?_slice hg, core?_slice hg']
    · simp [inScope, core?_slice hg, core?_slice hg']
    · simp [inScope, ret?_slice hg, ret?_slice hg']
    · simp [inScope, sameWafer, mod?_slice hg, mod?_slice hg', ret?_slice hg']
    · simp [inScope, mod?_slice hg']
    · obtain ⟨n, rfl⟩ := Nat.exists_eq_add_of_le' wide
      rfl

end Sys2Proof.Proofs
end

section
/-! WAITA and the cache operations at issue (spec/11 R262, R265, R266). -/

namespace Sys2Proof.Proofs

open Sys2Proof Sys2Proof.Machine Sys2Proof.Laws

/-- One request, of one lane. -/
theorem Issues.single {K : Nat → Prop} {s t : State} {base : Flight} {r : LaneReq} (i : Issues K s t base [[r]]) :
    Requests s t base [r] (fun _ _ => True) :=
  i.requests (fun q hq => ⟨[r], List.mem_singleton.mpr rfl, hq⟩)
    fun ls hls => by rw [List.mem_singleton.mp hls]; exact ⟨List.cons_ne_nil _ _, fun _ hq => hq, fun _ _ _ _ => trivial⟩

/-- Steps that leave memory as it was, one after the other. -/
theorem sameMemory_trans {s t u : State} (h : SameMemory s t) (g : SameMemory t u) : SameMemory s u := by
  obtain ⟨bytes, keyed, poison⟩ := h
  obtain ⟨bytes', keyed', poison'⟩ := g
  exact ⟨fun a => (bytes' a).trans (bytes a), fun id a => (keyed' id a).trans (keyed id a), poison'.trans poison⟩

/-- The order between the slices of a pair leaves waiting threads as they are. -/
theorem parks_pairOrder {c : Ctx} {h : Shape} {x : Issue} {lanes : List Nat} {w : Wait} {s t : State} (p : Parks c h x lanes w s t) (b : State) :
    Parks c h x lanes w s (pairOrder b c h x t) := by
  obtain ⟨calm, -, sws, queues⟩ := onlyMoves_pairOrder b c h x t
  exact ⟨p.calm.trans calm, by simpa only [thread_pairOrder] using p.waits, by simpa only [thread_pairOrder] using p.others,
    by simpa only [thread_pairOrder] using p.rest, fun k => (sws k).trans (p.sws k), fun k hk => (queues k).trans (p.queues k hk)⟩

/-- A lane with no poisoned source has the plan of its access. -/
theorem plan_lanePlan {s : State} {c : Ctx} {h : Shape} {l : Nat} {ea : Int} {p : Unit → Plan} (clean : h.reads.find? (poisonedUse s c l) = none) :
    lanePlan s c h l ea p = ⟨l, ea, p ()⟩ := by
  simp only [lanePlan, clean]

/-! ### WAITA (R262) -/

section
variable {c : Ctx} {h : Shape} {x : Issue} {ctl : W32} {r : LaneReq} {oks : List (Nat × Int × Nat × Nat)} {s : State}

/-- WAITA's read has been sent. -/
def sentWaita (ctl : W32) (r : LaneReq) (oks : List (Nat × Int × Nat × Nat)) (c : Ctx) (h : Shape) (x : Issue) (s : State) : List Nat × State :=
  sendGathered (baseFlight s c .waita (sizeBytes (mcSize ctl)) 0 .drop false) oks (fun _ => false) [[r]] (popReads c h x.pops s)

/-- WAITA whose lane is settled: its read is sent, and the lanes that execute wait. -/
def parkedWaita (ctl : W32) (r : LaneReq) (oks : List (Nat × Int × Nat × Nat)) (c : Ctx) (h : Shape) (x : Issue) (s : State) : State :=
  parkWait c (execLanes s c h.gsel h.gn) (.waitaRead ((sentWaita ctl r oks c h x s).1.headD 0)) (advance c 2 1 (sentWaita ctl r oks c h x s).2)

theorem op_sentWaita : (sentWaita ctl r oks c h x s).1.headD 0 = s.nextId :=
  (congrArg State.nextId (onlyQueues_popReads c h x s).rest :)

theorem issues_sentWaita : Issues (usesQueue c h x) s (sentWaita ctl r oks c h x s).2
    (baseFlight s c .waita (2 ^ mcSize ctl) 0 .drop false) [[r]] :=
  ⟨_, _, sendsNothing_of_queues (onlyQueues_popReads c h x s), sent_sendGathered (baseFlight s c .waita (sizeBytes (mcSize ctl)) 0 .drop false) _ _ _ _,
    SendsNothing.refl _⟩

theorem parks_parkedWaita : Parks c h x (execLanes s c h.gsel h.gn) (.waitaRead s.nextId) (advance c 2 1 (sentWaita ctl r oks c h x s).2)
    (parkedWaita ctl r oks c h x s) := by
  rw [← op_sentWaita]
  exact ((OnlyMoves.refl _).completes c h x).parks _ _

end

/-- Settles O22: the read is sent before the lanes park. -/
theorem waitOnAddress : Obligations.WaitOnAddress := by
  unfold Obligations.WaitOnAddress
  intro w ctl s c h x l ls pa e ea r lanes clean plan
  have alike := alike_dropWalkFaults c s
  have run : exec (.waita w ctl) s = .next (pairOrder s c h x
      (parkedWaita ctl (laneReq s c 127 (l, ea, pa, e) s.ticks (srcN s c h l 2)) [(l, ea, pa, e)] c h x (dropWalkFaults c s))) := by
    rw [exec_waita, execWaita, issueOrdered_runs r]
    simp only [lanes, plan_lanePlan clean]
    rw [show planVirtual s c .read (BitVec.ofInt 64 (eaVirtual ctl (srcN s c h l 0) (srcN s c h l 1))) (sizeBytes (mcSize ctl)) = .ok pa e from plan,
      settlePlans_ok (by simp)]
    simp only [okPlans, List.filterMap_cons, List.filterMap_nil, List.map_cons, List.map_nil, alike.srcN, laneReq_alike alike]
    rfl
  have issued := ((issues_sentWaita (ctl := ctl) (r := laneReq s c 127 (l, ea, pa, e) s.ticks (srcN s c h l 2)) (oks := [(l, ea, pa, e)])
    (c := c) (h := h) (x := x) (s := dropWalkFaults c s)).before (sendsNothing_dropWalkFaults c s)).after
      (sendsNothing_of_moves (onlyMoves_advance c 2 1 _))
  have parks := parks_parkedWaita (ctl := ctl) (r := laneReq s c 127 (l, ea, pa, e) s.ticks (srcN s c h l 2)) (oks := [(l, ea, pa, e)])
    (c := c) (h := h) (x := x) (s := dropWalkFaults c s)
  rw [alike.execLanes] at parks
  have parked := parks_pairOrder parks s
  exact ⟨_, _, run, sameMemory_trans issued.sends.sameMemory parked.calm.sameMemory, issued.sends, issued.single, parked⟩

/-! ### One line (R265) -/

section
variable {i : Instr} {w : CWord} {ctl : W32} {acc : Access} {act : Ctx → Nat → Nat → Nat → Int → (State → State) → State → State}
  {kind : ReqKind} {s : State} {c : Ctx} {h : Shape} {x : Issue} {l : Nat} {ls : List Nat} {pa e : Nat} {ea : Int}

/-- A line operation that may execute and whose lane translates does its act. -/
theorem cacheLine_runs (he : exec i s = cacheLine i w ctl acc act s) (r : RunsOrdered queueCheck s i c h x) (lanes : x.lanes = l :: ls)
    (clean : h.reads.find? (poisonedUse s c l) = none)
    (plan : planVirtual s c acc (BitVec.ofInt 64 (eaVirtual ctl (srcN s c h l 0) (if w.b.toNat = 112 then 0 else srcN s c h l 1))) 0 = .ok pa e) :
    exec i s = .next (pairOrder s c h x
      (act c l pa e (eaVirtual ctl (srcN s c h l 0) (if w.b.toNat = 112 then 0 else srcN s c h l 1)) (popReads c h x.pops) (dropWalkFaults c s))) := by
  rw [he, cacheLine, issueOrdered_runs r]
  simp only [lanes, plan_lanePlan clean, plan]
  rw [settlePlans_ok (by simp)]

/-- CINV: the line leaves the core's L1 (R265). -/
def cinvLine (c : Ctx) (_ pa _ : Nat) (_ : Int) (pop : State → State) (s : State) : State :=
  advance c 2 1 (if l1Kind pa then l1Drop c.core pa (pop s) else pop s)

/-- CWB: a line that caches keep is written back (R265). -/
def cwbLine (c : Ctx) (l pa e : Nat) (ea : Int) (pop : State → State) (s : State) : State :=
  if l1Kind pa then lineRequest c .cwb l pa e ea pop s else advance c 2 1 (pop s)

theorem exec_cinv_line : exec (.cinv w ctl) s = cacheLine (.cinv w ctl) w ctl .either cinvLine s := rfl

theorem exec_cwb_line : exec (.cwb w ctl) s = cacheLine (.cwb w ctl) w ctl .either cwbLine s := rfl

theorem exec_czero_line : exec (.czero w ctl) s = cacheLine (.czero w ctl) w ctl .write (fun c => lineRequest c .czero) s := rfl

/-- With room in UNACK the request of a line operation is sent and counted (R257). -/
theorem lineRequest_sends (room : (s.sw c.sw).unack < 255) :
    let t := lineRequest c kind l pa e ea (popReads c h x.pops) s
    Issues (usesQueue c h x) s t (baseFlight s c kind 128 0 .drop false) [[laneReq s c 127 (l, ea, lineBase pa, e) 0 0]]
      ∧ (t.sw c.sw).unack = (s.sw c.sw).unack + 1 := by
  have sent := sent_sendRequests { baseFlight s c kind 128 0 .drop false with key := pteKey e, cached := l1Kind pa && pteC e }
    [[laneReq s c 127 (l, ea, lineBase pa, e) 0 0]] (popReads c h x.pops s)
  have sws := sws_sent sent
  unfold lineRequest
  rw [if_neg (by omega)]
  refine ⟨⟨_, _, sendsNothing_of_queues (onlyQueues_popReads c h x s), sent, SendsNothing.trans ?_
    ((sendsNothing_addUnack c 1 _).trans (sendsNothing_of_moves (onlyMoves_advance _ _ _ _)))⟩, (unack_of_moves (onlyMoves_advance _ _ _ _) _).trans ?_⟩
  · split_ifs
    · exact sendsNothing_l1Store _ _ _ _ _ _
    · exact SendsNothing.refl _
  · rw [addUnack, sw_updSw_self]
    refine congrArg (fun m : SMap SliceWarp => (mget m c.sw SliceWarp.start).unack + _) (Eq.trans ?_ sws)
    split_ifs
    · exact sws_l1Store _ _ _ _ _ _
    · rfl

/-- CWB and CZERO send one request of the line. -/
theorem line_runs (he : exec i s = .next (pairOrder s c h x (lineRequest c kind l pa e ea (popReads c h x.pops) (dropWalkFaults c s))))
    (room : (s.sw c.sw).unack < 255) :
    ∃ t, exec i s = .next t ∧ OnlySends (usesQueue c h x) s t ∧ SameMemory s t
      ∧ Requests s t (baseFlight s c kind 128 0 .drop false) [laneReq s c 127 (l, ea, pa / 128 * 128, e) 0 0] (fun _ _ => True)
      ∧ (t.sw c.sw).unack = (s.sw c.sw).unack + 1 := by
  have moves := fun u => onlyMoves_pairOrder s c h x u
  obtain ⟨issued, unack⟩ := lineRequest_sends (kind := kind) (c := c) (h := h) (x := x) (l := l) (pa := pa) (e := e) (ea := ea)
    (s := dropWalkFaults c s) room
  have all := (issued.before (sendsNothing_dropWalkFaults c s)).after (sendsNothing_of_moves (moves _))
  exact ⟨_, he, all.sends, all.sends.sameMemory, all.single, (unack_of_moves (moves _) _).trans unack⟩

/-- Popping sources leaves L1 as it was. -/
theorem l1_popped : ((popReads c h x.pops (dropWalkFaults c s)).core c.core).l1 = (s.core c.core).l1 := by
  have cores : (popReads c h x.pops (dropWalkFaults c s)).cores = (dropWalkFaults c s).cores :=
    (congrArg State.cores (onlyQueues_popReads c h x _).rest :)
  refine (congrArg (fun m : SMap CoreSt => (mget m c.core CoreSt.reset).l1) cores).trans ?_
  exact (congrArg CoreSt.l1 (core_updCore_self c.core (fun k => { k with walkFaults := k.walkFaults.filter (fun w => w.1 != rootKey c.g.m c.g.root) }) s) :)

/-- CINV: the line has left the core's L1, and no other. -/
theorem l1_invalidated {t u : State} (moves : OnlyMoves (if l1Kind pa then l1Drop c.core pa u else u) t) (same : (u.core c.core).l1 = (s.core c.core).l1) :
    (l1Kind pa = true → mget? (t.core c.core).l1 (pa / 128) = none)
      ∧ ∀ k, k ≠ pa / 128 ∨ l1Kind pa = false → mget? (t.core c.core).l1 k = mget? (s.core c.core).l1 k := by
  rw [l1_of_moves moves, ← same]
  cases hk : l1Kind pa with
  | false => exact ⟨fun no => by simp at no, fun k _ => rfl⟩
  | true =>
    have dropped : ((l1Drop c.core pa u).core c.core).l1 = mdel (u.core c.core).l1 (pa / 128) := by rw [l1Drop, core_updCore_self]
    rw [if_pos rfl, dropped]
    exact ⟨fun _ => mget?_mdel_self _ _, fun k other => mget?_mdel_ne _ (other.resolve_right (by simp))⟩

/-- Popping sources at a line operation, and what it moves after. -/
theorem sendsNothing_popped {u : State} (moves : OnlyMoves (popReads c h x.pops (dropWalkFaults c s)) u) : SendsNothing (usesQueue c h x) s u :=
  ((sendsNothing_dropWalkFaults c s).trans (sendsNothing_of_queues (onlyQueues_popReads c h x _))).trans (sendsNothing_of_moves moves)

/-- CINV sends nothing. -/
theorem cinv_runs (he : exec i s = .next (pairOrder s c h x (cinvLine c l pa e ea (popReads c h x.pops) (dropWalkFaults c s)))) :
    ∃ t, exec i s = .next t ∧ OnlySends (usesQueue c h x) s t ∧ SameMemory s t ∧ t.flight = s.flight
      ∧ (l1Kind pa = true → mget? (t.core c.core).l1 (pa / 128) = none)
      ∧ ∀ k, k ≠ pa / 128 ∨ l1Kind pa = false → mget? (t.core c.core).l1 k = mget? (s.core c.core).l1 k := by
  have popped : SendsNothing (usesQueue c h x) s _ := sendsNothing_popped (OnlyMoves.refl _)
  have moves := fun u => (onlyMoves_advance c 2 1 u).trans (onlyMoves_pairOrder s c h x _)
  have all : SendsNothing (usesQueue c h x) s (pairOrder s c h x (cinvLine c l pa e ea (popReads c h x.pops) (dropWalkFaults c s))) := by
    refine popped.trans (SendsNothing.trans ?_ (sendsNothing_of_moves (moves _)))
    split_ifs
    · exact sendsNothing_l1Drop _ _ _
    · exact SendsNothing.refl _
  exact ⟨_, he, all.sends, all.sends.sameMemory, all.flight, l1_invalidated (moves _) l1_popped⟩

/-- A line that caches do not keep is not written back. -/
theorem cwb_uncached (he : exec i s = .next (pairOrder s c h x (cwbLine c l pa e ea (popReads c h x.pops) (dropWalkFaults c s))))
    (uncached : l1Kind pa = false) : ∃ t, exec i s = .next t ∧ OnlySends (usesQueue c h x) s t ∧ SameMemory s t ∧ t.flight = s.flight := by
  have line : cwbLine c l pa e ea (popReads c h x.pops) (dropWalkFaults c s) = advance c 2 1 (popReads c h x.pops (dropWalkFaults c s)) := by
    rw [cwbLine, uncached, if_neg Bool.false_ne_true]
  have all : SendsNothing (usesQueue c h x) s _ := sendsNothing_popped ((onlyMoves_advance c 2 1 _).trans (onlyMoves_pairOrder s c h x _))
  exact ⟨_, he.trans (by rw [line]), all.sends, all.sends.sameMemory, all.flight⟩

end

/-! ### CPF and CPART (R265, R266) -/

/-- A step that sends nothing does so beside any state of the last-level caches. -/
theorem SendsNothing.beside {K : Nat → Prop} {s t : State} (h : SendsNothing K s t) (llc : SMap Bool) :
    SendsNothing K { s with llc := llc } { t with llc := llc } := by
  obtain ⟨⟨rest, woken, cores, threads, sws, queues, earlier, later⟩, flight, nextId⟩ := h
  exact ⟨⟨(congrArg (fun y : State => { y with llc := llc }) rest :), woken, cores, threads, sws, queues, earlier, later⟩, flight, nextId⟩

theorem sendsNothing_l1Fill {K : Nat → Prop} (core key pa : Nat) (stream : Bool) (s : State) : SendsNothing K s (l1Fill core key pa stream s) := by
  unfold l1Fill
  dsimp only
  split
  · exact sendsNothing_l1Drop _ _ s
  · refine ⟨onlySends_updCore K _ _ ?_ s, rfl, rfl⟩
    exact fun _ => rfl

theorem llcFill_eq (line : Nat) (d : Bool) (s : State) : ∃ llc, llcFill line d s = { s with llc := llc } := by
  unfold llcFill
  dsimp only
  split
  · exact ⟨_, rfl⟩
  · exact ⟨_, rfl⟩

theorem llcFill_beside (line : Nat) (d : Bool) (s : State) (llc : SMap Bool) : { llcFill line d s with llc := llc } = { s with llc := llc } := by
  obtain ⟨filled, fills⟩ := llcFill_eq line d s
  rw [fills]

section
variable {c : Ctx} {h : Shape} {x : Issue} {ctl : W32} {s : State}

/-- CPF of the lowest lane: a line that can be read goes into the caches. -/
def prefetched (ctl : W32) (c : Ctx) (pa e : Nat) (t : State) : State :=
  let filled := if isDram pa && (mget? t.llc (pa / 128)).isNone then llcFill (pa / 128) false t else t
  let blocked := (unperformed filled c.core (lineBase pa) 128 none).any (fun f => f.2.kind == .atomic || !f.2.cached)
  if mcScope ctl ≤ 4 && pteC e && !blocked then l1Fill c.core (pteKey e) pa (mcPolicy ctl == 1) filled else filled

theorem sendsNothing_prefetched {K : Nat → Prop} (pa e : Nat) (t : State) : SendsNothing K t { prefetched ctl c pa e t with llc := t.llc } := by
  unfold prefetched
  generalize hu : (if isDram pa && (mget? t.llc (pa / 128)).isNone then llcFill (pa / 128) false t else t) = u
  have filled : { u with llc := t.llc } = t := by
    rw [← hu]
    split
    · exact llcFill_beside _ _ _ _
    · rfl
  have step : SendsNothing K u (if mcScope ctl ≤ 4 && pteC e && !(unperformed u c.core (lineBase pa) 128 none).any (fun f => f.2.kind == .atomic || !f.2.cached)
      then l1Fill c.core (pteKey e) pa (mcPolicy ctl == 1) u else u) := by
    split_ifs
    · exact sendsNothing_l1Fill _ _ _ _ u
    · exact SendsNothing.refl u
  have beside := step.beside t.llc
  rw [filled] at beside
  exact beside

theorem llc_popReads : (popReads c h x.pops s).llc = s.llc := (congrArg State.llc (onlyQueues_popReads c h x s).rest :)

/-- What CPF does. -/
def cpfAct (ctl : W32) (c : Ctx) (h : Shape) (x : Issue) (s : State) : State :=
  match x.lanes with
  | [] => advance c 2 1 s
  | l :: _ =>
    let t := popReads c h x.pops s
    match translateNow s (spaceOf s c.g) .read (eaVirtual ctl (srcN s c h l 0) (srcN s c h l 1)).toNat with
    | .ok pa e =>
      if l1Kind pa && reachable s pa && (poisonedIn s (lineBase pa) 128).isNone then advance c 2 1 (prefetched ctl c pa e t) else advance c 2 1 t
    | _ => advance c 2 1 t

theorem exec_cpf_act (w : CWord) : exec (.cpf w ctl) s = issueOrdered operandCheck (.cpf w ctl) (cpfAct ctl) s := rfl

/-- CPF sends nothing, and no memory but a cache differs (R265). -/
theorem sendsNothing_cpfAct : SendsNothing (usesQueue c h x) s { cpfAct ctl c h x s with llc := s.llc } := by
  have moves := fun u : State => sendsNothing_of_moves (K := usesQueue c h x) (onlyMoves_advance c 2 1 u)
  have pops := sendsNothing_of_queues (onlyQueues_popReads c h x s)
  have popped : SendsNothing (usesQueue c h x) s { advance c 2 1 (popReads c h x.pops s) with llc := s.llc } :=
    (pops.trans (moves _)).beside s.llc
  have filled : ∀ pa e, SendsNothing (usesQueue c h x) s { advance c 2 1 (prefetched ctl c pa e (popReads c h x.pops s)) with llc := s.llc } := by
    intro pa e
    have fill := sendsNothing_prefetched (K := usesQueue c h x) (c := c) (ctl := ctl) pa e (popReads c h x.pops s)
    rw [llc_popReads] at fill
    exact (pops.trans fill).trans ((moves _).beside s.llc)
  unfold cpfAct
  cases x.lanes with
  | nil => exact (moves s).beside s.llc
  | cons l ls =>
    dsimp only
    split
    · split_ifs
      · exact filled _ _
      · exact popped
    · exact popped

/-- CPF moves nothing but caches. -/
theorem cpf_runs {w : CWord} (r : RunsOrdered operandCheck s (.cpf w ctl) c h x) : ∃ t, exec (.cpf w ctl) s = .next t
    ∧ OnlySends (usesQueue c h x) s { t with llc := s.llc } ∧ SameMemory s t ∧ t.flight = s.flight := by
  have all := sendsNothing_cpfAct (ctl := ctl) (c := c) (h := h) (x := x) (s := s)
  have after := all.trans ((sendsNothing_of_moves (onlyMoves_pairOrder s c h x _)).beside s.llc)
  exact ⟨_, (exec_cpf_act w).trans (issueOrdered_runs r _), after.sends, after.sends.sameMemory, after.flight⟩

/-- A change of partition begins, unless the count of ways is what it was. -/
def cpartBegins (c : Ctx) (n : Nat) (s : State) : State :=
  if n = (s.ret c.ret).ways then s else updRet c.ret (fun r => { r with cpartTo := some n }) s

/-- CPART with a count of ways of 4 to 16, once a release at reticle scope is done and no change of partition is in progress. -/
theorem cpart_runs {w : CWord} {l : Nat} {ls : List Nat} (r : RunsOrdered operandCheck s (.cpart w ctl) c h x) (lanes : x.lanes = l :: ls)
    (low : 4 ≤ srcN s c h l 0) (high : srcN s c h l 0 ≤ 16) (released : releaseDone s c 6 = true) (idle : (s.ret c.ret).cpartTo = none) :
    ∃ t, exec (.cpart w ctl) s = .next t ∧ SameMemory s t ∧ t.flight = s.flight
      ∧ OnlySends (usesQueue c h x) (cpartBegins c (srcN s c h l 0) s) t := by
  have run : exec (.cpart w ctl) s = .next (pairOrder s c h x (advance c 2 1 (cpartBegins c (srcN s c h l 0) s))) := by
    rw [exec_cpart, execCpart, issueOrdered_runs r]
    simp only [lanes]
    rw [if_neg (by omega), if_neg (by simp [released, idle]), ← apply_ite (advance c 2 1)]
    rfl
  have moves := (onlyMoves_advance c 2 1 (cpartBegins c (srcN s c h l 0) s)).trans (onlyMoves_pairOrder s c h x _)
  have begins : { cpartBegins c (srcN s c h l 0) s with rets := s.rets } = s := by
    unfold cpartBegins
    split_ifs <;> rfl
  have kept : SameMemory s (cpartBegins c (srcN s c h l 0) s) := sameMemory_of (congrArg State.mem begins :) (congrArg State.sectorKey begins :)
    (congrArg State.mods begins :) (congrArg State.poison begins :)
  have all := sendsNothing_of_moves (K := usesQueue c h x) moves
  exact ⟨_, run, sameMemory_trans kept all.sends.sameMemory, all.flight.trans (congrArg State.flight begins :), all.sends⟩

/-- A count of ways outside 4 to 16 is reason 0x28 (R266). -/
theorem cpart_refused {w : CWord} {l : Nat} {ls : List Nat} (r : RunsOrdered operandCheck s (.cpart w ctl) c h x) (lanes : x.lanes = l :: ls)
    (outside : srcN s c h l 0 < 4 ∨ 16 < srcN s c h l 0) : exec (.cpart w ctl) s = .next (pairOrder s c h x (reasonAt c 0x28 s)) := by
  rw [exec_cpart, execCpart, issueOrdered_runs r]
  simp only [lanes]
  rw [if_pos outside]

end

/-- Settles O23: each operation by the lemma that says what it sends; CPF beside the last-level caches; CPART by its conditions. -/
theorem cacheOperations : Obligations.CacheOperations := by
  unfold Obligations.CacheOperations
  intro w ctl s c h x l ls pa e ea runs planned line
  refine ⟨?_, ?_, ?_, ?_, cpf_runs, ?_⟩
  · rintro ⟨run, lanes⟩ ⟨clean, plan⟩
    exact cinv_runs (cacheLine_runs exec_cinv_line run lanes clean plan)
  · rintro ⟨run, lanes⟩ ⟨clean, plan⟩ cached room
    exact line_runs ((cacheLine_runs exec_cwb_line run lanes clean plan).trans (by rw [cwbLine, if_pos cached])) room
  · rintro ⟨run, lanes⟩ ⟨clean, plan⟩ uncached
    exact cwb_uncached (cacheLine_runs exec_cwb_line run lanes clean plan) uncached
  · rintro ⟨run, lanes⟩ ⟨clean, plan⟩ room
    have performed := cacheLine_runs exec_czero_line run lanes clean plan
    exact line_runs performed room
  · rintro ⟨run, lanes⟩
    exact ⟨cpart_refused run lanes, cpart_runs run lanes⟩

end Sys2Proof.Proofs
end

section
/-! Requests that end by their acknowledgement or their error (spec/11 R251, R252, R257; spec/14 R335). -/

namespace Sys2Proof.Proofs

open Sys2Proof Sys2Proof.Machine Sys2Proof.Laws

/-! ### Acknowledgements (R257) -/

section
variable {s : State} {op : Nat} {f : Flight} {g : Group}

theorem acked_iff (kind : ReqKind) : kind.acked = true ↔ kind = .store ∨ kind = .czero ∨ kind = .cwb := by
  cases kind <;> decide

theorem groups_dropFlight : (dropFlight op s).groups = s.groups := (congrArg State.groups (dropFlight_ends op s).rest :)

theorem ackStore_eq (known : mget? s.groups f.gid = some g) :
    ackStore op f s = updSw (swKey f.gid f.warp f.slice) (fun x => { x with unack := x.unack - 1 }) (dropFlight op s) := by
  unfold ackStore
  simp only [groups_dropFlight, known]

/-- An acknowledgement ends no thread, so no group of its core ends. -/
theorem noneEnds_ackStore (known : mget? s.groups f.gid = some g) (hn : NoneEnds s f.core) : NoneEnds (ackStore op f s) f.core := by
  have ends := dropFlight_ends op s
  rw [ackStore_eq known]
  refine hn.of_same (congrArg CoreSt.groups (ends.cores f.core) :) (congrArg State.groups ends.rest :) fun j => ?_
  exact (congrArg (fun m : SMap Thread => (mget m j Thread.start).exited) (congrArg State.threads ends.rest :) :)

theorem storeAck_runs (flying : mget? s.flight op = some f) (known : mget? s.groups f.gid = some g) (acked : f.kind.acked = true)
    (done : f.performed = true) (clean : raisesError f = false) (hn : NoneEnds s f.core) :
    exec (.storeAck op) s = .next (updSw (swKey f.gid f.warp f.slice) (fun x => { x with unack := x.unack - 1 }) (dropFlight op s)) := by
  rw [exec_storeAck, execStoreAck, flying]
  simp only [acked, done, clean]
  rw [if_neg (by decide), reapCore_stays (noneEnds_ackStore known hn), ackStore_eq known]

end

/-! ### Errors of requests (R251, R252) -/

/-- The least element by a measure, of a list that has one. -/
theorem argMin_spec {α : Type} {m : α → Nat} {l : List α} (hl : l ≠ []) : ∃ x, argMin m l = some x ∧ x ∈ l ∧ ∀ y ∈ l, m x ≤ m y := by
  induction l with
  | nil => exact absurd rfl hl
  | cons a l ih =>
    rcases eq_or_ne l [] with rfl | rest
    · exact ⟨a, rfl, .head _, by simp⟩
    · obtain ⟨z, hz, mem, least⟩ := ih rest
      by_cases less : m z < m a
      · exact ⟨z, by simp [argMin, hz, less], .tail a mem, List.forall_mem_cons.mpr ⟨less.le, least⟩⟩
      · exact ⟨a, by simp [argMin, hz, less], .head _, List.forall_mem_cons.mpr ⟨le_rfl, fun y hy => (not_lt.mp less).trans (least y hy)⟩⟩

section
variable {s : State} {op : Nat} {f : Flight} {g : Group}

/-- The fault of an instruction is that of its lowest lane that found one. -/
theorem errorInfo_lowest {y : Nat × Flight} {x : LaneReq} {e : Cause × W64 × Nat} (hy : y ∈ siblings s f) (hx : x ∈ y.2.lanes) (he : x.err = some e)
    (lowest : ∀ z ∈ siblings s f, ∀ a ∈ z.2.lanes, a.err.isSome = true → x.lane < a.lane ∨ a = x) :
    errorInfo s f = some ⟨e.1, f.gid, f.warp, f.slice.code, x.lane, f.kind == .waita, f.pc.toNat, none, e.2.1.toNat, e.2.2⟩ := by
  have failed : x ∈ (siblings s f).flatMap (fun e => e.2.lanes.filter (fun x => x.err.isSome)) :=
    List.mem_flatMap.mpr ⟨y, hy, List.mem_filter.mpr ⟨hx, by simp [he]⟩⟩
  obtain ⟨a, first, mem, least⟩ := argMin_spec (m := LaneReq.lane) (List.ne_nil_of_mem failed)
  obtain ⟨z, hz, ha⟩ := List.mem_flatMap.mp mem
  obtain ⟨ha, err⟩ := List.mem_filter.mp ha
  have same : a = x := (lowest z hz a ha err).resolve_left (least x failed).not_gt
  unfold errorInfo
  rw [first, same]
  simp [he]

/-- The error waits for every request of its instruction. -/
theorem errorReturn_waits (flying : mget? s.flight op = some f) (pending : ∃ e ∈ siblings s f, e.2.performed = false) :
    exec (.errorReturn op) s = .next s := by
  rw [exec_errorReturn, execErrorReturn, flying]
  simp only [returnError]
  obtain ⟨e, he, unperformed⟩ := pending
  rw [if_pos (by simpa using .inr ⟨e.1, e.2, he, unperformed⟩)]

theorem errorReturn_faults (flying : mget? s.flight op = some f) (done : f.performed = true) (failed : raisesError f = true)
    (all : ∀ e ∈ siblings s f, e.2.performed = true) {i : FaultInfo} (info : errorInfo s f = some i) :
    exec (.errorReturn op) s = .next (reapCore f.core (takeFault i
      (((siblings s f).filter (fun e => raisesError e.2)).foldl (fun t e => endFaulty e.1 e.2 t) s))) := by
  rw [exec_errorReturn, execErrorReturn, flying]
  simp only [returnError, info]
  rw [if_neg (by simpa [done, failed] using all)]

/-- A store or line operation that found an error ends as by its acknowledgement. -/
theorem endFaulty_acked (known : mget? s.groups f.gid = some g) (acked : f.kind.acked = true) :
    endFaulty op f s = updSw (swKey f.gid f.warp f.slice) (fun x => { x with unack := x.unack - 1 }) (dropFlight op s) := by
  rw [endFaulty, if_pos acked, ackStore_eq known]

theorem endFaulty_waita (waita : f.kind = .waita) : endFaulty op f s = dropFlight op s := by
  rw [endFaulty, waita, if_neg (by decide), if_pos rfl]

/-- A load or an atomic that found an error lands in the lanes that found none. -/
theorem endFaulty_lands (reads : f.kind = .load ∨ f.kind = .atomic) (lanes : ∀ y ∈ f.lanes, y.lane < 64) :
    (endFaulty op f s).flight = mdel s.flight op ∧ (endFaulty op f s).longs = s.longs
      ∧ Lands s (endFaulty op f s) op (swKey f.gid f.warp f.slice) f.dest f.words (f.lanes.filterMap (landedLane f)) := by
  have ends := dropFlight_ends op s
  have cleared : endFaulty op f s = clearPending (swKey f.gid f.warp f.slice) op (f.lanes.foldl (fun t x => landLane op f x t) (dropFlight op s)) := by
    rcases reads with kind | kind <;> rw [endFaulty, kind, if_neg (by decide), if_neg (by decide)]
  obtain ⟨lands, -, flight, longs⟩ := (lands0_landLanes op f (dropFlight op s)).lands (landedLane_lane lanes) cleared
  exact ⟨flight.trans (congrArg State.flight ends.rest :), longs.trans (congrArg State.longs ends.rest :), ends.lands lands⟩

/-- The error of a work request is taken as a fault of its group (R335). -/
theorem errorReturn_work {o : WorkOp} {c : Cause} {a d : Nat} (landed : mget? s.flight op = none) (working : mget? s.works op = some o)
    (failed : o.err = some (c, a, d)) :
    exec (.errorReturn op) s = .next (reapGroup o.gid (takeFault ⟨c, o.gid, o.warp, o.slice.code, 0xFF, false, o.pc.toNat, none, a, d⟩
      { s with
        works := mdel s.works op
        flushes := s.flushes.map (fun e => (e.1, if e.2.covers.contains op then { e.2 with stuck := true } else e.2)) })) := by
  rw [exec_errorReturn, execErrorReturn, landed]
  simp only [working]
  rw [returnWork, failed]

end

end Sys2Proof.Proofs
end

section
/-! Walks that end and shootdowns (spec/09 R217, R218). -/

namespace Sys2Proof.Proofs

open Sys2Proof Sys2Proof.Machine Sys2Proof.Laws

/-! ### Folds over cores -/

/-- Each of a list of cores changes as f says, once; the others stay. -/
theorem core_foldl_once {step : State → Nat → State} {f : CoreSt → CoreSt} (each : ∀ u k j, (step u k).core j = if j = k then f (u.core k) else u.core j)
    {l : List Nat} (once : l.Nodup) (s : State) (j : Nat) : (l.foldl step s).core j = if j ∈ l then f (s.core j) else s.core j := by
  induction l generalizing s with
  | nil => simp
  | cons k l ih =>
    obtain ⟨fresh, once⟩ := List.nodup_cons.mp once
    rw [List.foldl_cons, ih once, each]
    by_cases same : j = k
    · subst same
      simp [fresh]
    · simp [same]

/-- A property that every step of a fold keeps. -/
theorem foldl_preserves {α β : Type} {P : β → Prop} {step : β → α → β} (keeps : ∀ b a, P b → P (step b a)) (l : List α) {b : β} (h : P b) :
    P (l.foldl step b) := by
  induction l generalizing b with
  | nil => exact h
  | cons a l ih => exact ih (keeps b a h)

/-! ### The end of a walk (R217, R218) -/

section
variable {s t : State} {e : TlbEntry} {k : Nat}

/-- Only the walk caches of reticles differ. -/
structure OnlyWalkCaches (s t : State) : Prop where
  rest : { t with rets := s.rets } = s
  rets : ∀ r, { t.ret r with walkCache := (s.ret r).walkCache } = s.ret r

theorem onlyWalkCaches_fill (ret m root va : Nat) (s : State) : OnlyWalkCaches s (fillWalkCache ret m root va s) := by
  unfold fillWalkCache
  split
  · exact ⟨rfl, fun _ => rfl⟩
  · refine ⟨rfl, fun r => ?_⟩
    rw [ret_updRet]
    split_ifs with same
    · rw [same]
    · rfl

/-- Cores and the L2 TLBs of reticles differ. -/
structure OnlyTlbs (s t : State) : Prop where
  rest : { t with cores := s.cores, rets := s.rets } = s
  rets : ∀ r, { t.ret r with tlb2 := (s.ret r).tlb2 } = s.ret r

theorem onlyTlbs_fillTlb (k : Nat) (e : TlbEntry) (s : State) : OnlyTlbs s (fillTlb k e s) := by
  refine ⟨rfl, fun r => ?_⟩
  rw [fillTlb, ret_updRet]
  split_ifs with same
  · rw [same]; rfl
  · rfl

theorem OnlyTlbs.trans {u : State} (h : OnlyTlbs s t) (g : OnlyTlbs t u) : OnlyTlbs s u :=
  ⟨(congrArg (fun y : State => { y with cores := s.cores, rets := s.rets }) g.rest :).trans h.rest,
    fun r => (congrArg (fun y : RetSt => { y with tlb2 := (s.ret r).tlb2 }) (g.rets r) :).trans (h.rets r)⟩

/-- A core with an entry in its L1 TLB. -/
def tlbFilled (e : TlbEntry) (c : CoreSt) : CoreSt := { c with tlb := tlbAdd 64 e c.tlb }

theorem core_fillTlb (e : TlbEntry) (s : State) (k j : Nat) : (fillTlb k e s).core j = if j = k then tlbFilled e (s.core k) else s.core j :=
  core_updCore k j (tlbFilled e) s

/-- The leaf stands first in the L2 TLB of the fold. -/
theorem foldTlb_fillTlb (e : TlbEntry) (s : State) (k : Nat) : (foldTlb (fillTlb k e s) k).head? = some e := by
  rw [foldTlb, fillTlb, ret_updRet_self]
  simp [tlbAdd]

/-- A leaf that stands first in the L2 TLB of a fold stays first as it enters other folds, or the same again. -/
theorem foldTlb_fillTlb_keeps (e : TlbEntry) (i : Nat) (first : (foldTlb s k).head? = some e) : (foldTlb (fillTlb i e s) k).head? = some e := by
  rw [foldTlb, fillTlb, ret_updRet]
  split_ifs with ret
  · simp only [mget_mput]
    split_ifs with fold
    · simp [tlbAdd]
    · rw [← ret]; exact first
  · exact first

/-- A leaf that enters the TLBs of a list of cores stands first in the L2 TLB of the fold of each. -/
theorem foldTlb_foldl {l : List Nat} (member : k ∈ l) (s : State) : (foldTlb (l.foldl (fun u k => fillTlb k e u) s) k).head? = some e := by
  obtain ⟨before, after, rfl⟩ := List.append_of_mem member
  rw [List.foldl_append, List.foldl_cons]
  exact foldl_preserves (P := fun u => (foldTlb u k).head? = some e) (fun u i first => foldTlb_fillTlb_keeps e i first) after (foldTlb_fillTlb e _ k)

theorem onlyTlbs_foldl (e : TlbEntry) (l : List Nat) (s : State) : OnlyTlbs s (l.foldl (fun u k => fillTlb k e u) s) :=
  foldl_preserves (P := OnlyTlbs s) (fun u k h => h.trans (onlyTlbs_fillTlb k e u)) l ⟨rfl, fun _ => rfl⟩

end

/-- The walk has left, and its path stands in the walk cache. -/
def walkLeft (op : Nat) (w : Walk) (s : State) : State := fillWalkCache w.ret w.m w.root w.va { s with walks := mdel s.walks op }

/-- The leaf of a walk enters the TLBs of the cores that wait for it. -/
def walkFound (op : Nat) (w : Walk) (base size e : Nat) (s : State) : State :=
  { w.cores.foldl (fun u k => fillTlb k ⟨rootKey w.m w.root, base, size, e⟩ u) (walkLeft op w s) with free := (walkLeft op w s).free + 1 }

/-- The cause of a walk is left for the accesses that missed. -/
def walkFailed (op : Nat) (w : Walk) (cause : Cause) (s : State) : State :=
  { w.cores.foldl (fun u k =>
      updCore k (fun c => { c with walkFaults := (rootKey w.m w.root, w.va / 65536, cause) :: c.walkFaults }) u) (walkLeft op w s) with
    free := (walkLeft op w s).free + 1 }

section
variable {s : State} {op : Nat} {w : Walk}

theorem exec_translationWalk_eq (walking : mget? s.walks op = some w) (walker : hasWalker s op w = true) : exec (.translationWalk op) s =
    match walkWith s (heldEntry s w.ret w.m w.root w.va) w.m w.root w.va with
    | .leaf base size e => .next (walkFound op w base size e s)
    | .bad cause => .next (walkFailed op w cause s) := by
  rw [exec_translationWalk, execTranslationWalk, walking]
  dsimp only
  rw [if_neg (by simp [walker])]
  rfl

/-- What the end of a walk leaves as it was. -/
def WalkFrame (op : Nat) (w : Walk) (s t : State) : Prop :=
  { t with walks := s.walks, cores := s.cores, rets := s.rets, free := s.free } = s
    ∧ t.walks = mdel s.walks op ∧ ∀ k, k ∉ w.cores → t.core k = s.core k

theorem onlyWalkCaches_walkLeft (op : Nat) (w : Walk) (s : State) : OnlyWalkCaches { s with walks := mdel s.walks op } (walkLeft op w s) :=
  onlyWalkCaches_fill _ _ _ _ _

theorem core_walkLeft (op : Nat) (w : Walk) (s : State) (k : Nat) : (walkLeft op w s).core k = s.core k :=
  congrArg (fun m : SMap CoreSt => mget m k CoreSt.reset) (congrArg State.cores (onlyWalkCaches_walkLeft op w s).rest :)

theorem core_walkFound (once : w.cores.Nodup) (base size e k : Nat) : (walkFound op w base size e s).core k =
    if k ∈ w.cores then tlbFilled ⟨rootKey w.m w.root, base, size, e⟩ (s.core k) else s.core k := by
  have all := core_foldl_once (core_fillTlb ⟨rootKey w.m w.root, base, size, e⟩) once (walkLeft op w s) k
  rw [core_walkLeft] at all
  exact all

theorem walkFound_spec (once : w.cores.Nodup) (base size e : Nat) :
    let t := walkFound op w base size e s
    WalkFrame op w s t ∧ (∀ r, { t.ret r with tlb2 := (s.ret r).tlb2, walkCache := (s.ret r).walkCache } = s.ret r)
      ∧ ∀ k ∈ w.cores, t.core k = { s.core k with tlb := tlbAdd 64 ⟨rootKey w.m w.root, base, size, e⟩ (s.core k).tlb }
        ∧ (foldTlb t k).head? = some ⟨rootKey w.m w.root, base, size, e⟩ := by
  have left := onlyWalkCaches_walkLeft op w s
  have tlbs := onlyTlbs_foldl ⟨rootKey w.m w.root, base, size, e⟩ w.cores (walkLeft op w s)
  refine ⟨⟨?_, ?_, fun k other => ?_⟩, fun r => ?_, fun k waits => ⟨?_, foldTlb_foldl waits _⟩⟩
  · exact (congrArg (fun y : State => { y with walks := s.walks, cores := s.cores, rets := s.rets, free := s.free }) tlbs.rest :).trans
      (congrArg (fun y : State => { y with walks := s.walks, cores := s.cores, rets := s.rets, free := s.free }) left.rest :)
  · exact (congrArg State.walks tlbs.rest :).trans (congrArg State.walks left.rest :)
  · rw [core_walkFound once, if_neg other]
  · exact (congrArg (fun y : RetSt => { y with tlb2 := (s.ret r).tlb2, walkCache := (s.ret r).walkCache }) (tlbs.rets r) :).trans
      (congrArg (fun y : RetSt => { y with tlb2 := (s.ret r).tlb2 }) (left.rets r) :)
  · rw [core_walkFound once, if_pos waits]; rfl

/-- What a cause that is left for the accesses that missed leaves of a core. -/
def causeLeft (w : Walk) (cause : Cause) (c : CoreSt) : CoreSt :=
  { c with walkFaults := (rootKey w.m w.root, w.va / 65536, cause) :: c.walkFaults }

theorem core_walkFailed (once : w.cores.Nodup) (cause : Cause) (k : Nat) : (walkFailed op w cause s).core k =
    if k ∈ w.cores then causeLeft w cause (s.core k) else s.core k := by
  have all := core_foldl_once (fun u k j => core_updCore k j (causeLeft w cause) u) once (walkLeft op w s) k
  rw [core_walkLeft] at all
  exact all

theorem onlyCores_foldl (f : CoreSt → CoreSt) (l : List Nat) (s : State) : { l.foldl (fun u k => updCore k f u) s with cores := s.cores } = s :=
  foldl_preserves (step := fun u k => updCore k f u) (P := fun u : State => { u with cores := s.cores } = s) (fun _ _ h => h) l rfl

theorem walkFailed_spec (once : w.cores.Nodup) (cause : Cause) :
    let t := walkFailed op w cause s
    WalkFrame op w s t ∧ (∀ r, { t.ret r with walkCache := (s.ret r).walkCache } = s.ret r)
      ∧ ∀ k ∈ w.cores, t.core k = { s.core k with walkFaults := (rootKey w.m w.root, w.va / 65536, cause) :: (s.core k).walkFaults } := by
  have left := onlyWalkCaches_walkLeft op w s
  have cores := onlyCores_foldl (causeLeft w cause) w.cores (walkLeft op w s)
  refine ⟨⟨?_, ?_, fun k other => ?_⟩, fun r => ?_, fun k waits => ?_⟩
  · exact (congrArg (fun y : State => { y with walks := s.walks, cores := s.cores, rets := s.rets, free := s.free }) cores :).trans
      (congrArg (fun y : State => { y with walks := s.walks, cores := s.cores, rets := s.rets, free := s.free }) left.rest :)
  · exact (congrArg State.walks cores :).trans (congrArg State.walks left.rest :)
  · rw [core_walkFailed once, if_neg other]
  · have same : (walkFailed op w cause s).ret r = (walkLeft op w s).ret r :=
      (congrArg (fun m : SMap RetSt => mget m r (RetSt.unlisted r)) (congrArg State.rets cores :) :)
    rw [same]
    exact left.rets r
  · rw [core_walkFailed once, if_pos waits]; rfl

end

/-! ### Shootdowns (R218) -/

/-- A lookup after a map that keeps the keys and the default. -/
theorem mget_map_fixed {α : Type} (x : SMap α) (g : α → α) (d : α) (fixed : g d = d) (k : Nat) :
    mget (x.map (fun e => (e.1, g e.2))) k d = g (mget x k d) := by
  rw [mget, mget?_map x (fun e => g e.2), mget]
  cases mget? x k with
  | none => exact fixed.symm
  | some v => rfl

/-- A translation that a shootdown leaves. -/
def keepsTlb (m root va size : Nat) (t : TlbEntry) : Bool := !(t.root == rootKey m root && overlaps t.base t.size va size)

/-- A core after a shootdown. -/
def shotCore (m root va size : Nat) (c : CoreSt) : CoreSt :=
  { c with
    tlb := c.tlb.filter (keepsTlb m root va size)
    walkFaults := c.walkFaults.filter (fun t => !(t.1 == rootKey m root && overlaps (t.2.1 * 65536) 65536 va size)) }

/-- A reticle after a shootdown. -/
def shotRet (m root va size : Nat) (r : RetSt) : RetSt :=
  { r with
    tlb2 := r.tlb2.map (fun f => (f.1, f.2.filter (keepsTlb m root va size)))
    walkCache := r.walkCache.filter (fun w => w.root != rootKey m root) }

section
variable {m root va size : Nat} {s : State}

theorem keepsTlb_iff {x : TlbEntry} :
    keepsTlb m root va size x = true ↔ ¬ (x.root = rootKey m root ∧ overlaps x.base x.size va size = true) := by
  simp [keepsTlb, imp_iff_not_or]

theorem core_shootdown (k : Nat) : (shootdown m root va size s).core k = shotCore m root va size (s.core k) :=
  mget_map_fixed s.cores (shotCore m root va size) CoreSt.reset rfl k

theorem ret_shootdown (r : Nat) : (shootdown m root va size s).ret r = shotRet m root va size ((takeKey (cpRet s m) 0 s).2.2.ret r) :=
  mget_map_fixed (takeKey (cpRet s m) 0 s).2.2.rets (shotRet m root va size) (RetSt.unlisted r) rfl r

/-- Starting a shootdown takes a stamp of the ordered class. -/
theorem ret_takeKey (ret atLeast r : Nat) (s : State) : ∃ stamp seq, (takeKey ret atLeast s).2.2.ret r = { s.ret r with lastStamp := stamp, lastSeq := seq } := by
  simp only [takeKey, ret_updRet]
  split_ifs with same
  · exact ⟨_, _, by rw [same]⟩
  · exact ⟨_, _, rfl⟩

theorem shootdown_cores (k : Nat) :
    { (shootdown m root va size s).core k with tlb := (s.core k).tlb, walkFaults := (s.core k).walkFaults } = s.core k
      ∧ ∀ x, x ∈ ((shootdown m root va size s).core k).tlb ↔
        x ∈ (s.core k).tlb ∧ ¬ (x.root = rootKey m root ∧ overlaps x.base x.size va size = true) := by
  rw [core_shootdown]
  exact ⟨rfl, fun x => List.mem_filter.trans (and_congr_right fun _ => keepsTlb_iff)⟩

theorem shootdown_rets (r : Nat) :
    let t := shootdown m root va size s
    { t.ret r with tlb2 := (s.ret r).tlb2, walkCache := (s.ret r).walkCache, lastStamp := (s.ret r).lastStamp, lastSeq := (s.ret r).lastSeq } = s.ret r
      ∧ (∀ w, w ∈ (t.ret r).walkCache ↔ w ∈ (s.ret r).walkCache ∧ w.root ≠ rootKey m root)
      ∧ ∀ f x, x ∈ mget (t.ret r).tlb2 f [] ↔
        x ∈ mget (s.ret r).tlb2 f [] ∧ ¬ (x.root = rootKey m root ∧ overlaps x.base x.size va size = true) := by
  obtain ⟨stamp, seq, taken⟩ := ret_takeKey (cpRet s m) 0 r s
  intro t
  rw [ret_shootdown, taken]
  refine ⟨rfl, fun w => List.mem_filter.trans (and_congr_right fun _ => bne_iff_ne), fun f x => ?_⟩
  have fold := mget_map_fixed (s.ret r).tlb2 (List.filter (keepsTlb m root va size)) [] rfl f
  rw [shotRet, fold]
  exact List.mem_filter.trans (and_congr_right fun _ => keepsTlb_iff)

end

/-- Settles O48: requests by their acknowledgement or error, walks by the folds over the cores that wait, and shootdowns core by core and reticle by
reticle. -/
theorem acknowledgementsErrorsAndWalks : Obligations.AcknowledgementsErrorsAndWalks := by
  unfold Obligations.AcknowledgementsErrorsAndWalks
  refine ⟨fun s op f g flying known kind done clean quiet => ?_, fun s op f flying done failed => ⟨errorReturn_waits flying, fun all y hy x hx e he lowest => ?_⟩,
    fun s op f g known => ⟨fun kind => ?_, fun waita => ?_, endFaulty_lands⟩, fun s op o c a d => errorReturn_work,
    fun s op w walking walker once => ⟨fun base size e leaf => ?_, fun cause bad => ?_⟩,
    fun s m root va size => ⟨_, exec_shootdown _ _ _ _ _, shootdown_frame m root va size s, shootdown_cores, shootdown_rets⟩⟩
  · exact ⟨_, dropFlight_ends op s, storeAck_runs flying known ((acked_iff _).mpr kind) done clean quiet⟩
  · exact errorReturn_faults flying done failed all (errorInfo_lowest hy hx he lowest)
  · exact ⟨_, dropFlight_ends op s, endFaulty_acked known ((acked_iff _).mpr kind)⟩
  · rw [endFaulty_waita waita]; exact dropFlight_ends op s
  · exact ⟨_, (exec_translationWalk_eq walking walker).trans (by rw [leaf]), walkFound_spec once base size e⟩
  · exact ⟨_, (exec_translationWalk_eq walking walker).trans (by rw [bad]), walkFailed_spec once cause⟩

end Sys2Proof.Proofs
end

section
/-! What ends a wait (spec/11 R262, R263, R266; spec/14 R343; spec/16 R389). -/

namespace Sys2Proof.Proofs

open Sys2Proof Sys2Proof.Machine Sys2Proof.Laws

/-! ### Threads that go on -/

section
variable {s t : State} {gid warp : Nat} {sl : Slice} {test : Wait → Bool} {p : Wait → Prop}

/-- The threads of a slice-warp whose wait satisfies a test go on; one that does not wait does not. -/
theorem thread_wakeWhere (idle : test .none = false) (j : Nat) : (wakeWhere gid warp sl test s).thread j =
    if j / 64 = swKey gid warp sl ∧ test (s.thread j).wait = true then wakeThread (s.thread j) else s.thread j :=
  mget_mapIf s.threads (fun j th => j / 64 = swKey gid warp sl ∧ test th.wait = true) wakeThread Thread.start j
    fun ⟨_, started⟩ => absurd (idle.symm.trans started) Bool.false_ne_true

theorem wakes_wakeWhere (holds : ∀ w, test w = true ↔ p w) (idle : ¬ p .none) : Wakes s (wakeWhere gid warp sl test s) (swKey gid warp sl) p := by
  have idle : test .none = false := Bool.eq_false_iff.mpr fun started => idle ((holds _).mp started)
  refine ⟨fun j own waits => ?_, fun j other => ?_⟩
  · rw [thread_wakeWhere idle, if_pos ⟨own, (holds _).mpr waits⟩]; rfl
  · rw [thread_wakeWhere idle, if_neg (by simpa [holds] using other)]

theorem wakes_of_threads {k : Nat} {u : State} (h : Wakes s t k p) (same : u.threads = t.threads) : Wakes s u k p := by
  have each : ∀ j, u.thread j = t.thread j := fun j => congrArg (fun m : SMap Thread => mget m j Thread.start) same
  exact ⟨fun j own waits => (each j).trans (h.go j own waits), fun j other => (each j).trans (h.stay j other)⟩

theorem wakes_of_start {k : Nat} {u : State} (same : ∀ j, u.thread j = s.thread j) (h : Wakes u t k p) : Wakes s t k p := by
  obtain ⟨go, stay⟩ := h
  simp only [same] at go stay
  exact ⟨go, stay⟩

/-- The wait of WAITA ends, and its watch with it where no other thread of the slice-warp watches the unit. -/
theorem waita_ends (holds : ∀ w, test w = true ↔ p w) (idle : ¬ p .none) :
    let t := dropWatches gid warp sl (wakeWhere gid warp sl test s)
    { t with threads := s.threads, watches := s.watches } = s ∧ Wakes s t (swKey gid warp sl) p
      ∧ (∀ y ∈ t.watches, y ∈ s.watches) ∧ ∀ y ∈ s.watches, y.sw ≠ swKey gid warp sl → y ∈ t.watches :=
  ⟨rfl, wakes_of_threads (wakes_wakeWhere holds idle) rfl, fun _ hy => (List.mem_filter.mp hy).1,
    fun _ hy other => List.mem_filter.mpr ⟨hy, by simp [other]⟩⟩

end

/-! ### The tests (R262, R263, R343) -/

section
variable {s : State} {g : Group}

theorem watchOver_iff {k : Nat} {preq : Bool} (w : Wait) : watchOver s k preq w = true ↔
    ∃ since base, w = .waita since base ∧ (preq = true ∨ runningCounter s base = true ∨ ∀ y ∈ s.watches, y.sw = k → y.base ≠ base) := by
  cases w with
  | waita since base => simp [watchOver, or_assoc]
  | _ => simp [watchOver]

theorem watchExpired_iff (w : Wait) : watchExpired s w = true ↔ ∃ since base, w = .waita since base ∧ 8 * 2 ^ 20 ≤ s.ticks - since := by
  cases w with
  | waita since base => simp [watchExpired]
  | _ => simp [watchExpired]

theorem sleepOver_iff (w : Wait) : sleepOver s g w = true ↔ ∃ target, w = .sleep target ∧ (target ≤ wtime s (coreRet g.core) ∨ g.preq = true) := by
  cases w with
  | sleep target => simp [sleepOver]
  | _ => simp [sleepOver]

end

/-! ### CWAIT (R389) -/

/-- A wait of CWAIT. -/
def isCwait (w : Wait) : Bool := match w with | .cwait _ _ => true | _ => false

theorem isCwait_iff (w : Wait) : isCwait w = true ↔ ∃ sel thr, w = .cwait sel thr := by
  cases w with
  | cwait sel thr => simp [isCwait]
  | _ => simp [isCwait]

theorem find?_upFrom {test : Nat → Bool} {l n lo : Nat} (low : lo ≤ l) (high : l < lo + n) (here : test l = true)
    (before : ∀ j, lo ≤ j → j < l → test j = false) : (upFrom lo n).find? test = some l := by
  induction n generalizing lo with
  | zero => omega
  | succ n ih =>
    rw [upFrom, List.find?_cons]
    rcases low.eq_or_lt with rfl | less
    · rw [here]
    · rw [before lo le_rfl less]
      exact ih less (by omega) fun j hj => before j (by omega)

section
variable {s : State} {gid warp : Nat} {sl : Slice} {g : Group} {l : Nat} {sel thr : W32}

theorem cwaitMet_iff {core : Nat} : cwaitMet s core sel thr = true ↔
    if bitOf sel.toNat 31 then ((mget (s.ret (coreRet core)).ccnt (bitsOf sel.toNat 9 0) 0).extractLsb' 0 32 - thr).toNat < 2 ^ 31
    else sextInt (ofBytesLE (readRaw s (scratchPa core (bitsOf sel.toNat 21 0)) 8)) 64 ≤ thr.toInt := by
  unfold cwaitMet
  split_ifs <;> exact decide_eq_true_iff

/-- The first thread in CWAIT decides: what its counter reads, or that it cannot be read. -/
theorem cwaitReturn_cases (known : mget? s.groups gid = some g) (low : l < 64) (waits : (s.thread (thKey (swKey gid warp sl) l)).wait = .cwait sel thr)
    (first : ∀ j < l, ∀ a b, (s.thread (thKey (swKey gid warp sl) j)).wait ≠ .cwait a b) :
    (∀ cause addr d, cwaitDead s g.core sel = some (cause, addr, d) →
      exec (.cwaitReturn gid warp sl) s = .next (waitFault cause gid warp sl l addr d s))
    ∧ (cwaitDead s g.core sel = none → cwaitMet s g.core sel thr = true → exec (.cwaitReturn gid warp sl) s =
      .next (cwaitAcquire g.core (swKey gid warp sl) (wakeWhere gid warp sl (fun w => w == .cwait sel thr) s))) := by
  have found : waiting? s gid warp sl isCwait = some l :=
    find?_upFrom l.zero_le (by omega) (by rw [waits]; rfl) fun j _ hj => by
      rw [← Bool.not_eq_true, isCwait_iff]
      exact fun ⟨a, b, e⟩ => first j hj a b e
  rw [exec_cwaitReturn, execCwaitReturn]
  split
  case h_2 missing => exact (missing g l known found).elim
  case h_1 g' l' known' found' =>
    cases known.symm.trans known'
    cases found.symm.trans found'
    split
    case h_2 other => exact (other sel thr waits).elim
    case h_1 sel' thr' waits' =>
      cases waits.symm.trans waits'
      refine ⟨fun cause addr d dead => ?_, fun alive met => ?_⟩
      · rw [dead]
      · rw [alive]
        exact if_pos met

theorem cwaitAcquire_eq {core k : Nat} : cwaitAcquire core k s =
    updSw k (fun x => { x with order := dedupe (alive s x.order ++ readsOf s k) }) (updCore core (fun c => { c with l1 := [] }) s) := rfl

/-- CWAIT whose condition holds: the core's L1 is emptied, and what the slice-warp issues next follows its loads in flight. -/
theorem cwaitAcquire_spec :
    let k := swKey gid warp sl
    let t := cwaitAcquire g.core k (wakeWhere gid warp sl (fun w => w == .cwait sel thr) s)
    { t with threads := s.threads, cores := s.cores, sws := s.sws } = s
      ∧ (∀ j, { t.sw j with order := (s.sw j).order } = s.sw j) ∧ (∀ o ∈ readsOf s k, o ∈ (t.sw k).order)
      ∧ Wakes s t k (fun w => w = .cwait sel thr) ∧ t.core g.core = { s.core g.core with l1 := [] } ∧ ∀ j, j ≠ g.core → t.core j = s.core j := by
  refine ⟨rfl, fun j => ?_, fun o ho => ?_, ?_, ?_, fun j other => ?_⟩
  · rw [cwaitAcquire_eq, sw_updSw]
    split_ifs with same
    · rw [same]; rfl
    · rfl
  · rw [cwaitAcquire_eq, sw_updSw_self]
    exact mem_dedupe.mpr (List.mem_append_right _ ho)
  · exact wakes_of_threads (wakes_wakeWhere (fun w => beq_iff_eq) nofun) rfl
  · exact core_updCore_self g.core (fun k => { k with l1 := [] }) _
  · exact (core_updCore g.core j (fun k => { k with l1 := [] }) (wakeWhere gid warp sl (fun w => w == .cwait sel thr) s)).trans (if_neg other)

end

/-! ### The landing of WAITA's read (R262) -/

section
variable {s : State} {op : Nat} {f : Flight} {x : LaneReq} {rest : List LaneReq}

theorem exec_loadLanding_waita (flying : mget? s.flight op = some f) (kind : f.kind = .waita) (done : f.performed = true)
    (clean : raisesError f = false) (ready : landsAfter s op f = false) : exec (.loadLanding op) s = .next (landWaita op f s) := by
  have missed : l1Hit s op f = none := by
    unfold l1Hit
    cases f.lanes with
    | nil => rfl
    | cons y ys => simp [kind]
  rw [exec_loadLanding, execLoadLanding, flying]
  simp only [missed, Option.getD_none]
  rw [if_neg (by simp [done, clean, ready])]
  simp only [kind]

/-- What leaves the flight changes no thread. -/
theorem dropFlight_threads (op : Nat) (s : State) : (dropFlight op s).threads = s.threads := (congrArg State.threads (dropFlight_ends op s).rest :)

theorem dropFlight_thread (op : Nat) (s : State) (j : Nat) : (dropFlight op s).thread j = s.thread j :=
  congrArg (fun m : SMap Thread => mget m j Thread.start) (dropFlight_threads op s)

theorem fencesEnd_landed (threads : SMap Thread) (op : Nat) (s : State) :
    FencesEnd { s with flight := mdel s.flight op } { { dropFlight op s with threads := threads } with threads := s.threads } := by
  have same : { dropFlight op s with threads := s.threads } = dropFlight op s :=
    (congrArg (fun m => { dropFlight op s with threads := m }) (dropFlight_threads op s).symm :)
  exact same ▸ dropFlight_ends op s

theorem landWaita_other (lanes : f.lanes = x :: rest) (other : x.res ≠ some (x.cmp.setWidth 128)) :
    landWaita op f s = wakeWhere f.gid f.warp f.slice (fun w => w == .waitaRead op) (dropFlight op s) := by
  rw [landWaita, lanes]
  exact if_neg other

/-- WAITA's threads watch: its read found the value it compares. -/
def watching (op : Nat) (f : Flight) (x : LaneReq) (s : State) : State :=
  { s with threads := s.threads.map (fun e =>
      if e.1 / 64 = swKey f.gid f.warp f.slice ∧ e.2.wait = .waitaRead op
      then (e.1, { e.2 with wait := .waita x.data.toNat (watchUnit x.pa).1 }) else e) }

theorem landWaita_same (lanes : f.lanes = x :: rest) (same : x.res = some (x.cmp.setWidth 128)) :
    landWaita op f s = watching op f x (dropFlight op s) := by
  rw [landWaita, lanes]
  exact if_pos same

theorem thread_watching (j : Nat) : (watching op f x s).thread j = if j / 64 = swKey f.gid f.warp f.slice ∧ (s.thread j).wait = .waitaRead op then
    { s.thread j with wait := .waita x.data.toNat (watchUnit x.pa).1 } else s.thread j :=
  mget_mapIf s.threads (fun j th => j / 64 = swKey f.gid f.warp f.slice ∧ th.wait = .waitaRead op)
    (fun th => { th with wait := .waita x.data.toNat (watchUnit x.pa).1 }) Thread.start j fun ⟨_, started⟩ => nomatch started

end

/-! ### A partition in progress (R266) -/

/-- An address lies in one of a list of ranges. -/
def inRanges (ranges : List (Nat × Nat)) (a : Nat) : Prop := ∃ r ∈ ranges, r.1 ≤ a ∧ a < r.1 + r.2

theorem byte_zeroRange_outside {lo n a : Nat} (outside : ¬ (lo ≤ a ∧ a < lo + n)) (s : State) : (zeroRange lo n s).byte a = s.byte a := by
  refine (cellGet_filter s.mem (fun k => !(decide (lo ≤ k) && decide (k < lo + n))) a).trans ?_
  rw [if_pos (by simpa [not_and_or] using not_and_or.mp outside)]
  rfl

/-- The bytes of a list of ranges are forgotten, and no other. -/
theorem byte_zeroRanges (ranges : List (Nat × Nat)) (a : Nat) (s : State) :
    let t := ranges.foldl (fun t r => zeroRange r.1 r.2 t) s
    (inRanges ranges a → t.byte a = 0) ∧ (¬ inRanges ranges a → t.byte a = s.byte a) := by
  refine ⟨fun inside => ?_, fun outside => ?_⟩
  · obtain ⟨r, hr, low, high⟩ := inside
    refine foldl_reaches (I := fun _ => True) (P := fun t => t.byte a = 0) (f := fun (t : State) (r : Nat × Nat) => zeroRange r.1 r.2 t) (n := r)
      (fun _ _ _ _ => trivial) (fun t _ => byte_zeroRange low high t) (fun t q _ _ zero => ?_) trivial (.inr hr)
    by_cases covered : q.1 ≤ a ∧ a < q.1 + q.2
    · exact byte_zeroRange covered.1 covered.2 t
    · exact (byte_zeroRange_outside covered t).trans zero
  · induction ranges generalizing s with
    | nil => rfl
    | cons r ranges ih =>
      have later := ih (zeroRange r.1 r.2 s) fun ⟨q, hq, inside⟩ => outside ⟨q, .tail r hq, inside⟩
      exact later.trans (byte_zeroRange_outside (fun inside => outside ⟨r, .head ranges, inside⟩) s)

theorem inRanges_waysMoved {ret old new a : Nat} : inRanges (waysMoved ret old new) a ↔ ∃ w, Nat.min old new ≤ w ∧ w < Nat.max old new
    ∧ paOf ret (scratchBase + (15 - w) * 0x600000) ≤ a ∧ a < paOf ret (scratchBase + (15 - w) * 0x600000) + 0x600000 := by
  have last : Nat.min old new + (Nat.max old new - Nat.min old new) = Nat.max old new :=
    Nat.add_sub_cancel' (min_le_max (a := old) (b := new))
  simp only [inRanges, waysMoved, List.mem_map, mem_upFrom, last]
  constructor
  · rintro ⟨_, ⟨w, ⟨low, high⟩, rfl⟩, inside⟩
    exact ⟨w, low, high, inside⟩
  · rintro ⟨w, low, high, inside⟩
    exact ⟨_, ⟨w, ⟨low, high⟩, rfl⟩, inside⟩

section
variable {s : State} {ret n : Nat}

/-- The ways that move have been emptied, and the lines of scratch that is gone have left every L1. -/
def waysEmptied (ret n : Nat) (s : State) : State :=
  let moved := waysMoved ret (s.ret ret).ways n
  let kept := if n < (s.ret ret).ways then evictWays ret s else s
  let zeroed := moved.foldl (fun t r => zeroRange r.1 r.2 t) kept
  let gone := fun (line : Nat) => moved.any (fun r => decide (r.1 ≤ line * 128) && decide (line * 128 < r.1 + r.2))
  if n > (s.ret ret).ways then
    { zeroed with cores := zeroed.cores.map (fun e => (e.1, { e.2 with l1 := e.2.l1.filter (fun ln => !gone ln.1) })) }
  else zeroed

theorem setWays_eq : setWays ret n s = updRet ret (fun r => { r with ways := n, cpartTo := none }) (waysEmptied ret n s) := rfl

theorem byte_waysEmptied (a : Nat) :
    (inRanges (waysMoved ret (s.ret ret).ways n) a → (waysEmptied ret n s).byte a = 0)
      ∧ (¬ inRanges (waysMoved ret (s.ret ret).ways n) a → (waysEmptied ret n s).byte a = s.byte a) := by
  have kept : (if n < (s.ret ret).ways then evictWays ret s else s).byte a = s.byte a := by
    split_ifs <;> rfl
  have zeroed : (waysEmptied ret n s).byte a = ((waysMoved ret (s.ret ret).ways n).foldl (fun t r => zeroRange r.1 r.2 t)
      (if n < (s.ret ret).ways then evictWays ret s else s)).byte a := by
    unfold waysEmptied
    split_ifs <;> rfl
  rw [zeroed, ← kept]
  exact byte_zeroRanges _ a _

/-- Emptying ways keeps whatever neither memory, caches nor the free choices are part of. -/
theorem waysEmptied_keeps {α : Type} (g : State → α) (hm : ∀ (t : State) mem poison, g { t with mem := mem, poison := poison } = g t)
    (hc : ∀ (t : State) cores, g { t with cores := cores } = g t) (hl : ∀ (t : State) llc free, g { t with llc := llc, free := free } = g t) :
    g (waysEmptied ret n s) = g s := by
  have kept : g (if n < (s.ret ret).ways then evictWays ret s else s) = g s := by
    split_ifs
    · exact hl s _ _
    · rfl
  have zeroed := fun ranges u => foldl_keep g (fun (t : State) (r : Nat × Nat) => zeroRange r.1 r.2 t) (fun t r => hm t _ _) ranges u
  unfold waysEmptied
  dsimp only
  generalize (if n < (s.ret ret).ways then evictWays ret s else s) = u at kept ⊢
  split_ifs
  · exact ((hc _ _).trans (zeroed _ _)).trans kept
  · exact (zeroed _ _).trans kept

theorem setWays_spec :
    let t := setWays ret n s
    t.ret ret = { s.ret ret with ways := n, cpartTo := none } ∧ (∀ r, r ≠ ret → t.ret r = s.ret r)
      ∧ t.threads = s.threads ∧ t.sws = s.sws ∧ t.queues = s.queues ∧ t.groups = s.groups ∧ t.mods = s.mods
      ∧ ∀ a,
        let moved := ∃ w, Nat.min (s.ret ret).ways n ≤ w ∧ w < Nat.max (s.ret ret).ways n
          ∧ paOf ret (scratchBase + (15 - w) * 0x600000) ≤ a ∧ a < paOf ret (scratchBase + (15 - w) * 0x600000) + 0x600000
        (moved → t.byte a = 0) ∧ (¬ moved → t.byte a = s.byte a) := by
  have keeps : ∀ {α : Type} (g : State → α) (_ : ∀ (t : State) mem poison, g { t with mem := mem, poison := poison } = g t)
      (_ : ∀ (t : State) cores, g { t with cores := cores } = g t) (_ : ∀ (t : State) llc free, g { t with llc := llc, free := free } = g t),
      g (waysEmptied ret n s) = g s := fun g => waysEmptied_keeps g
  have rets := fun r => keeps (fun t => t.ret r) (fun _ _ _ => rfl) (fun _ _ => rfl) (fun _ _ _ => rfl)
  rw [setWays_eq]
  refine ⟨?_, fun r other => ?_, keeps State.threads (fun _ _ _ => rfl) (fun _ _ => rfl) (fun _ _ _ => rfl),
    keeps State.sws (fun _ _ _ => rfl) (fun _ _ => rfl) (fun _ _ _ => rfl), keeps State.queues (fun _ _ _ => rfl) (fun _ _ => rfl) (fun _ _ _ => rfl),
    keeps State.groups (fun _ _ _ => rfl) (fun _ _ => rfl) (fun _ _ _ => rfl), keeps State.mods (fun _ _ _ => rfl) (fun _ _ => rfl) (fun _ _ _ => rfl),
    fun a => ?_⟩
  · rw [ret_updRet_self, rets]
  · rw [ret_updRet, if_neg other, rets]
  · have bytes := byte_waysEmptied (s := s) (ret := ret) (n := n) a
    rw [inRanges_waysMoved] at bytes
    exact bytes

end

/-- Settles O49: threads go on by wakes_wakeWhere; a partition takes its count by setWays_spec. -/
theorem waitsEnding : Obligations.WaitsEnding := by
  unfold Obligations.WaitsEnding
  intro s gid warp sl g known k
  refine ⟨?_, ?_, ?_, fun l sel thr low waits first => ?_, fun op f x rest flying kind done clean ready hgid hwarp hsl lanes => ?_, fun ret n goal => ?_⟩
  · refine ⟨_, ?_, waita_ends watchOver_iff nofun⟩
    rw [exec_waitaWake, execWaitaWake, known]
  · exact ⟨_, exec_waitaTimeout _ _ _ _, waita_ends watchExpired_iff nofun⟩
  · refine ⟨wakeWhere gid warp sl (sleepOver s g) s, ?_, rfl, wakes_wakeWhere sleepOver_iff nofun⟩
    rw [exec_sleepExpiry, execSleepExpiry, known]
  · obtain ⟨dies, goes⟩ := cwaitReturn_cases known low waits first
    exact ⟨dies, fun alive met => ⟨_, goes alive (cwaitMet_iff.mpr met), cwaitAcquire_spec⟩⟩
  · subst hgid hwarp hsl
    have lands := exec_loadLanding_waita flying kind done clean ready
    have threads := dropFlight_thread op s
    refine ⟨fun other => ⟨_, lands.trans (congrArg Host.Outcome.next (landWaita_other lanes other)), fencesEnd_landed _ op s, ?_⟩,
      fun same => ⟨_, lands.trans (congrArg Host.Outcome.next (landWaita_same lanes same)), fencesEnd_landed _ op s, fun j => ?_⟩⟩
    · exact wakes_of_start threads (wakes_wakeWhere (fun w => beq_iff_eq) nofun)
    · rw [thread_watching, threads]
  · refine ⟨_, ?_, setWays_spec⟩
    rw [exec_cpartComplete, execCpartComplete, goal]

end Sys2Proof.Proofs
end

section
/-! The Mash Array at issue (spec/12 R268, R276, R283 to R286): an operation that passes its checks takes its place and its tag. -/

namespace Sys2Proof.Proofs

open Sys2Proof Sys2Proof.Machine Sys2Proof.Laws

/-- Two updates of one group are one. -/
theorem updGroup_updGroup (gid : Nat) (f g : Machine.Group → Machine.Group) (s : State) :
    updGroup gid f (updGroup gid g s) = updGroup gid (fun x => f (g x)) s := by
  cases known : mget? s.groups gid with
  | none => simp [updGroup, known]
  | some x => simp [updGroup, known, mput_mput]

/-- An operation is queued: it takes its place and its tag, and its tile units are recorded (R286). -/
def mxQueued (c : Ctx) (o : MxOp) (s : State) : State :=
  updGroup c.run.gid (fun g => putTag o.tag (tagCount g o.tag + 1) { g with acc := (upFrom o.aoff (o.n / 2)).foldl sadd g.acc })
    (updCore c.core (fun k => { k with mxq := k.mxq ++ [{ o with op := s.nextId }] }) { s with nextId := s.nextId + 1 })

theorem sameMemory_mxQueued (c : Ctx) (o : MxOp) (s : State) : SameMemory s (mxQueued c o s) :=
  sameMemory_of (updGroup_mem _ _ _) (updGroup_sectorKey _ _ _) (updGroup_mods _ _ _) (updGroup_poison _ _ _)

section
variable {s : State} {i : Instr} {c : Ctx} {h : Shape} {x : Issue} {l : Nat} {ls : List Nat} {o : MxOp}

theorem mxQueue_ready (lanes : x.lanes = l :: ls) (clean : mxFault s c o = none) (room : (s.core c.core).mxq.length < 4)
    (power : (s.ret c.ret).hold = false) (tag : tagFull s c.run.gid o.tag = false) :
    mxQueue i c x o s = advance c (instrWords i) 1 (mxQueued c o s) := by
  have free : ¬ ((decide ((s.core c.core).mxq.length ≥ 4) || (s.ret c.ret).hold || tagFull s c.run.gid o.tag) = true) := by
    simp [power, tag, room]
  unfold mxQueue
  simp only [lanes, clean]
  rw [if_neg free]
  exact congrArg (advance c (instrWords i) 1) (updGroup_updGroup _ _ _ _)

/-- What an instruction of the array leaves when the operation that it captures passes its checks. -/
theorem mx_runs {captured : State → Ctx → Shape → Issue → MxOp}
    (he : exec i s = issue i (fun c h x s => mxQueue i c x (captured s c h x) s) s) (r : Runs s i c h x) (same : captured s c h x = o)
    (lanes : x.lanes = l :: ls)
    (ready : mxFault s c o = none ∧ (s.core c.core).mxq.length < 4 ∧ (s.ret c.ret).hold = false ∧ tagFull s c.run.gid o.tag = false) :
    ∃ t, exec i s = .next t ∧ SameMemory s t ∧ Completes c h x (mxQueued c o s) t := by
  obtain ⟨clean, room, power, tag⟩ := ready
  have moves := (onlyMoves_advance c (instrWords i) 1 (mxQueued c o s)).trans (onlyMoves_pairOrder s c h x _)
  refine ⟨_, (he.trans (issue_runs r _)).trans ?_, sameMemory_trans (sameMemory_mxQueued c o s) moves.calm.sameMemory, moves.completes c h x⟩
  rw [same, mxQueue_ready lanes clean room power tag]

/-- OFENCE with nothing outstanding goes on. -/
theorem ofence_runs {w : XWord} {ctl : W32} (r : Runs s (.ofence w ctl) c h x)
    (landed : x.lanes = [] ∨ spadStoresOut s c = false ∧ registersOut s c = false) :
    ∃ t, exec (.ofence w ctl) s = .next t ∧ SameMemory s t ∧ Completes c h x s t := by
  have goes : ¬ ((!x.lanes.isEmpty && (spadStoresOut s c || registersOut s c)) = true) := by
    rcases landed with none | ⟨stores, registers⟩
    · simp [none]
    · simp [stores, registers]
  have moves := (onlyMoves_advance c 2 1 s).trans (onlyMoves_pairOrder s c h x _)
  refine ⟨_, ((exec_ofence w ctl s).trans (issue_runs r _)).trans ?_, moves.calm.sameMemory, moves.completes c h x⟩
  rw [if_neg goes]

end

/-- Settles O30: each instruction queues what it captures, by mx_runs. -/
theorem matrixOperations : Obligations.MatrixOperations := by
  unfold Obligations.MatrixOperations
  intro w ctl s c h x l ls ready queued
  have elected : x.lanes = l :: ls → electedLane x = l := fun lanes => by rw [electedLane, lanes, List.headD_cons]
  refine ⟨fun lanes r => mx_runs (exec_mxma w ctl s) r ?_ lanes, fun lanes r => mx_runs (exec_mxld w ctl s) r ?_ lanes,
    fun lanes r => mx_runs (exec_mxst w ctl s) r ?_ lanes, fun lanes r => mx_runs (exec_mxz w ctl s) r ?_ lanes, ofence_runs⟩ <;>
  rw [elected lanes]

end Sys2Proof.Proofs
end

section
/-! Tags that count less (spec/16 R390 to R392): the threads whose wait ends go on, and their slice-warps acquire. -/

namespace Sys2Proof.Proofs

open Sys2Proof Sys2Proof.Machine Sys2Proof.Laws

theorem updGroup_known {s : State} {gid : Nat} {g : Machine.Group} (known : mget? s.groups gid = some g) (f : Machine.Group → Machine.Group) :
    updGroup gid f s = { s with groups := mput s.groups gid (f g) } := by rw [updGroup, known]

theorem tagCount_putTag (n k j : Nat) (g : Machine.Group) : tagCount (putTag n k g) j = if j = n then k else tagCount g j := by
  unfold tagCount putTag mget
  dsimp only
  by_cases here : j = n
  · subst here
    rw [if_pos rfl]
    split_ifs with zero
    · rw [mget?_mdel_self, zero]; rfl
    · rw [mget?_mput_self]; rfl
  · rw [if_neg here]
    split_ifs
    · rw [mget?_mdel_ne _ here]
    · rw [mget?_mput_ne _ _ here]

/-- Nothing but what later accesses of slice-warps are performed after differs. -/
structure OnlyOrders (s t : State) : Prop where
  rest : { t with sws := s.sws } = s
  sws : ∀ k, { t.sw k with order := (s.sw k).order } = s.sw k

theorem onlyOrders_refl (s : State) : OnlyOrders s s := ⟨rfl, fun _ => rfl⟩

theorem OnlyOrders.trans {s t u : State} (h : OnlyOrders s t) (g : OnlyOrders t u) : OnlyOrders s u where
  rest := (congrArg (fun y : State => { y with sws := s.sws }) g.rest :).trans h.rest
  sws k := (congrArg (fun y : SliceWarp => { y with order := (s.sw k).order }) (g.sws k) :).trans (h.sws k)

theorem onlyOrders_orderAfter (k : Nat) (ops : List Nat) (s : State) : OnlyOrders s (orderAfter k ops s) where
  rest := rfl
  sws j := by
    unfold orderAfter
    rw [sw_updSw]
    split_ifs with here
    · rw [here]
    · rfl

theorem onlyOrders_acquireSws (ks : List Nat) (s : State) : OnlyOrders s (acquireSws ks s) := by
  unfold acquireSws
  induction ks generalizing s with
  | nil => exact onlyOrders_refl s
  | cons k ks ih => exact (onlyOrders_orderAfter k (readsOf s k) s).trans (ih _)

/-- A thread of a group waits for tags, and its condition holds (R392). -/
def tagWaitOver (gid : Nat) (g : Machine.Group) (j : Nat) (th : Thread) : Bool :=
  j / 2048 == gid && match th.wait with | .tags all m => tagsMet (tagsReg g) m all | _ => false

section
variable {s : State} {gid n : Nat} {g : Machine.Group}

theorem tagWaitOver_of_waits {j : Nat} {th : Thread} {all : Bool} {m : W64} (own : j / 2048 = gid) (waits : th.wait = .tags all m)
    (met : tagsMet (tagsReg g) m all = true) : tagWaitOver gid g j th = true := by
  simp [tagWaitOver, own, waits, met]

theorem tagWaitOver_eq_false {j : Nat} {th : Thread}
    (stays : j / 2048 ≠ gid ∨ ∀ all m, th.wait = .tags all m → tagsMet (tagsReg g) m all = false) : tagWaitOver gid g j th = false := by
  unfold tagWaitOver
  rcases stays with other | unmet
  · simp [other]
  · cases waits : th.wait with
    | tags all m => simp [unmet all m waits]
    | _ => simp

/-- Threads whose wait for tags is over go on. -/
def tagWaitersGone (gid : Nat) (g : Machine.Group) (s : State) : State :=
  { s with threads := s.threads.map (fun e => if tagWaitOver gid g e.1 e.2 = true then (e.1, wakeThread e.2) else e) }

theorem settleTags_known (known : mget? s.groups gid = some g) : ∃ ks, settleTags gid s = acquireSws ks (tagWaitersGone gid g s) :=
  ⟨_, by rw [settleTags, known]; rfl⟩

theorem thread_tagWaitersGone (j : Nat) : (tagWaitersGone gid g s).thread j =
    if tagWaitOver gid g j (s.thread j) = true then wakeThread (s.thread j) else s.thread j :=
  mget_mapIf s.threads (fun j th => tagWaitOver gid g j th = true) wakeThread Thread.start j fun met => by
    simp [tagWaitOver, Thread.start] at met

/-- One off a tag's count, and the threads whose wait it ends go on. -/
theorem tagDown_spec (known : mget? s.groups gid = some g) :
    let t := tagDown gid n s
    { t with groups := s.groups, threads := s.threads, sws := s.sws } = s ∧ (∀ k, { t.sw k with order := (s.sw k).order } = s.sw k)
    ∧ ∃ g', mget? t.groups gid = some g' ∧ { g' with tags := g.tags } = g ∧ tagCount g' n = tagCount g n - 1
      ∧ (∀ k, k ≠ n → tagCount g' k = tagCount g k) ∧ (∀ j, j ≠ gid → mget? t.groups j = mget? s.groups j)
      ∧ (∀ k all m, k / 2048 = gid → (s.thread k).wait = .tags all m → tagsMet (tagsReg g') m all = true →
          t.thread k = { s.thread k with pc := (s.thread k).nextPc, pos := none, wait := .none })
      ∧ ∀ k, (k / 2048 ≠ gid ∨ ∀ all m, (s.thread k).wait = .tags all m → tagsMet (tagsReg g') m all = false) → t.thread k = s.thread k := by
  let less := putTag n (tagCount g n - 1) g
  let u : State := { s with groups := mput s.groups gid less }
  have group : mget? u.groups gid = some less := mget?_mput_self _ _ _
  obtain ⟨ks, settled⟩ := settleTags_known group
  have e : tagDown gid n s = acquireSws ks (tagWaitersGone gid less u) := by rw [tagDown, updGroup_known known, settled]
  have orders := onlyOrders_acquireSws ks (tagWaitersGone gid less u)
  have groups : (tagDown gid n s).groups = u.groups := e ▸ (congrArg State.groups orders.rest :)
  have thread : ∀ k, (tagDown gid n s).thread k = if tagWaitOver gid less k (s.thread k) = true then wakeThread (s.thread k) else s.thread k :=
    fun k => ((congrArg (fun y : State => y.thread k) (e ▸ orders.rest :) :)).trans (thread_tagWaitersGone (s := u) k)
  refine ⟨?_, fun k => ?_, less, groups ▸ group, rfl, ?_, fun k other => ?_, fun j other => ?_, fun k all m own waits met => ?_, fun k stays => ?_⟩
  · rw [e]
    exact (congrArg (fun y : State => { y with groups := s.groups, threads := s.threads, sws := s.sws }) orders.rest :)
  · rw [e]
    exact orders.sws k
  · rw [tagCount_putTag, if_pos rfl]
  · rw [tagCount_putTag, if_neg other]
  · rw [groups, mget?_mput_ne _ _ other]
  · rw [thread, if_pos (tagWaitOver_of_waits own waits met)]
    rfl
  · rw [thread, if_neg (by rw [tagWaitOver_eq_false stays]; exact Bool.false_ne_true)]

end

end Sys2Proof.Proofs
end

section
/-! The Mash Array performs the operation at the head of its queue (spec/12 R269, R277 to R282): the words of the bank, the bytes of scratchpad and
the registers that it writes. -/

namespace Sys2Proof.Proofs

open Sys2Proof Sys2Proof.Machine Sys2Proof.Laws

/-! ### Tiles (R267) -/

theorem upFrom_eq_range' (lo n : Nat) : upFrom lo n = List.range' lo n := by
  induction n generalizing lo with
  | zero => rfl
  | succ n ih => rw [upFrom, ih, List.range'_succ]

theorem mem_tileIdx {n i j : Nat} : (i, j) ∈ tileIdx n ↔ i < 64 ∧ j < n := by
  simp only [tileIdx, List.mem_flatMap, List.mem_map, mem_upFrom, Prod.mk.injEq]
  constructor
  · rintro ⟨j, column, i, row, rfl, rfl⟩
    omega
  · rintro ⟨row, column⟩
    exact ⟨j, by omega, i, by omega, rfl, rfl⟩

theorem accWord_inj {o : MxOp} {i j i' j' : Nat} (hi : i < 64) (hi' : i' < 64) : accWord o i j = accWord o i' j' ↔ i = i' ∧ j = j' := by
  unfold accWord
  omega

/-! ### The bank -/

/-- Nothing but the accumulator bank of a core differs. -/
structure OnlyBank (core : Nat) (s t : State) : Prop where
  rest : { t with cores := s.cores } = s
  others : ∀ k, k ≠ core → t.core k = s.core k
  own : { t.core core with bank := (s.core core).bank } = s.core core

theorem OnlyBank.trans {core : Nat} {s t u : State} (h : OnlyBank core s t) (g : OnlyBank core t u) : OnlyBank core s u where
  rest := (congrArg (fun y : State => { y with cores := s.cores }) g.rest :).trans h.rest
  others k other := (g.others k other).trans (h.others k other)
  own := (congrArg (fun y : CoreSt => { y with bank := (s.core core).bank }) g.own :).trans h.own

theorem onlyBank_putBank (core k : Nat) (v : W32) (s : State) : OnlyBank core s (putBank core k v s) where
  rest := rfl
  others j other := (core_updCore core j _ s).trans (if_neg other)
  own := congrArg (fun y : CoreSt => { y with bank := (s.core core).bank }) (core_updCore_self core _ s)

theorem bankWord_putBank (core k j : Nat) (v : W32) (s : State) :
    bankWord (putBank core k v s) core j = if j = k then v else bankWord s core j := by
  unfold bankWord putBank mget
  rw [core_updCore_self]
  by_cases here : j = k
  · subst here
    rw [if_pos rfl]
    dsimp only
    split_ifs with zero
    · rw [mget?_mdel_self, zero]; rfl
    · rw [mget?_mput_self]; rfl
  · rw [if_neg here]
    dsimp only
    split_ifs
    · rw [mget?_mdel_ne _ here]
    · rw [mget?_mput_ne _ _ here]

/-- Words written to the bank of a core, in order. -/
def bankWritten (core : Nat) (banks : List (Nat × W32 × Fl)) (s : State) : State := banks.foldl (fun t p => putBank core p.1 p.2.1 t) s

theorem onlyBank_bankWritten (core : Nat) (banks : List (Nat × W32 × Fl)) (s : State) : OnlyBank core s (bankWritten core banks s) := by
  unfold bankWritten
  induction banks generalizing s with
  | nil => exact ⟨rfl, fun _ _ => rfl, rfl⟩
  | cons p banks ih => exact (onlyBank_putBank core p.1 p.2.1 s).trans (ih _)

/-- A word reads as v after words were written, of which those in its place are v, when it is v before or is written at all. -/
theorem bankWord_bankWritten {core k : Nat} {v : W32} {banks : List (Nat × W32 × Fl)} {s : State} (same : ∀ p ∈ banks, p.1 = k → p.2.1 = v)
    (some_v : bankWord s core k = v ∨ ∃ p ∈ banks, p.1 = k) : bankWord (bankWritten core banks s) core k = v := by
  unfold bankWritten
  induction banks generalizing s with
  | nil => simpa using some_v
  | cons p banks ih =>
    refine ih (fun q hq => same q (List.mem_cons_of_mem _ hq)) ?_
    rw [bankWord_putBank]
    by_cases here : k = p.1
    · exact .inl (by rw [if_pos here, same p List.mem_cons_self here.symm])
    · rw [if_neg here]
      refine some_v.imp_right ?_
      rintro ⟨q, hq, rfl⟩
      exact ⟨q, (List.mem_cons.mp hq).resolve_left fun e => here (e ▸ rfl), rfl⟩

/-! ### What an operation writes to the bank (R277, R278, R281) -/

section
variable {s u : State} {core : Nat} {o : MxOp}

theorem mxBankWrites_mma (sub : o.sub = 0) :
    mxBankWrites s core o = (tileIdx o.n).map (fun p => (accWord o p.1 p.2, mxmaElem s core o p.1 p.2)) := by simp only [mxBankWrites, sub]

theorem mxBankWrites_load (sub : o.sub = 1) : mxBankWrites s core o = (tileIdx o.n).map (fun p => (accWord o p.1 p.2,
    BitVec.ofNat 32 (scratchElem s core (mxPlace o.a0 o.a1 (p.1 / 16) (p.1 % 16) (4 * p.2)) p.2 32), 0)) := by simp only [mxBankWrites, sub]

theorem mxBankWrites_zero (sub : o.sub = 3) : mxBankWrites s core o = (tileIdx o.n).map (fun p => (accWord o p.1 p.2, 0, 0)) := by
  simp only [mxBankWrites, sub]

theorem mem_mxBankWrites {p : Nat × W32 × Fl} (hp : p ∈ mxBankWrites s core o) :
    o.sub ≠ 2 ∧ ∃ i j, i < 64 ∧ j < o.n ∧ p.1 = accWord o i j := by
  have tile : ∀ {f : Nat × Nat → W32 × Fl}, p ∈ (tileIdx o.n).map (fun q => (accWord o q.1 q.2, f q)) →
      ∃ i j, i < 64 ∧ j < o.n ∧ p.1 = accWord o i j := by
    intro f hp
    obtain ⟨⟨i, j⟩, inside, rfl⟩ := List.mem_map.mp hp
    obtain ⟨row, column⟩ := mem_tileIdx.mp inside
    exact ⟨i, j, row, column, rfl⟩
  unfold mxBankWrites at hp
  split at hp
  next sub => exact ⟨by omega, tile hp⟩
  next sub => exact ⟨by omega, tile hp⟩
  next sub => exact ⟨by omega, tile hp⟩
  next => cases hp

/-- A whole tile is written: each of its words is the one of its element. -/
theorem bankWord_tile {f : Nat × Nat → W32 × Fl} (writes : mxBankWrites s core o = (tileIdx o.n).map (fun p => (accWord o p.1 p.2, f p)))
    {i j : Nat} (hi : i < 64) (hj : j < o.n) : bankWord (bankWritten core (mxBankWrites s core o) u) core (accWord o i j) = (f (i, j)).1 := by
  rw [writes]
  refine bankWord_bankWritten (fun p hp here => ?_) (.inr ⟨_, List.mem_map_of_mem (mem_tileIdx.mpr ⟨hi, hj⟩), rfl⟩)
  obtain ⟨⟨i', j'⟩, inside, rfl⟩ := List.mem_map.mp hp
  obtain ⟨rfl, rfl⟩ := (accWord_inj (mem_tileIdx.mp inside).1 hi).mp here
  rfl

/-- The words of the bank after the operation: those of its tile as its instruction says, the others as they were. -/
theorem bankWord_performed (same : ∀ k, bankWord u core k = bankWord s core k) :
    let v := bankWritten core (mxBankWrites s core o) u
    (∀ i j, i < 64 → j < o.n →
      (o.sub = 0 → bankWord v core (accWord o i j) = (mxmaElem s core o i j).1)
      ∧ (o.accInt = true → (mxmaElem s core o i j).1 = updateInt32 (if o.ovw then 0 else bankWord s core (accWord o i j))
          (((upFrom 0 64).map (fun k => intOf o.aType o.asgn (mxA s core o i k) * intOf o.bType o.bsgn (mxB s core o k j))).foldl (· + ·) 0))
      ∧ (o.sub = 1 → bankWord v core (accWord o i j) =
          BitVec.ofNat 32 (scratchElem s core (mxPlace o.a0 o.a1 (i / 16) (i % 16) (4 * j)) j 32))
      ∧ (o.sub = 3 → bankWord v core (accWord o i j) = 0))
    ∧ ∀ k, (o.sub = 2 ∨ ∀ i j, i < 64 → j < o.n → k ≠ accWord o i j) → bankWord v core k = bankWord s core k := by
  refine ⟨fun i j hi hj => ⟨fun sub => bankWord_tile (mxBankWrites_mma sub) hi hj, fun int => ?_,
    fun sub => bankWord_tile (mxBankWrites_load sub) hi hj, fun sub => bankWord_tile (mxBankWrites_zero sub) hi hj⟩, fun k outside => ?_⟩
  · unfold mxmaElem
    rw [if_pos int, List.foldl_map, List.foldl_map]
  · refine bankWord_bankWritten (fun p hp here => ?_) (.inl (same k))
    obtain ⟨sub, i, j, hi, hj, place⟩ := mem_mxBankWrites hp
    exact (outside.resolve_left sub i j hi hj (here.symm.trans place)).elim

end

/-! ### What it writes to registers (R280) -/

section
variable {s u : State} {core : Nat} {o : MxOp}

/-- Words written to registers of lanes, in order. -/
def regsWritten (o : MxOp) (regs : List (Nat × Nat × List W32)) (s : State) : State :=
  regs.foldl (fun t p => landRegs (thKey (swKey o.gid o.warp o.slice) p.1) p.2.1 p.2.2 t) s

theorem regsWritten_rest (regs : List (Nat × Nat × List W32)) : { regsWritten o regs u with threads := u.threads } = u := by
  unfold regsWritten
  induction regs generalizing u with
  | nil => rfl
  | cons p regs ih =>
    exact (congrArg (fun y : State => { y with threads := u.threads }) ih :).trans (landRegs_spec _ p.2.1 p.2.2 u).1

theorem mxRegs_eq_nil {rows : List (Nat × Nat × Fl)} (h : o.sub ≠ 2 ∨ mxReg o.a0 = false) : mxRegs o rows = [] := by
  rw [mxRegs, if_neg]
  rintro ⟨sub, reg⟩
  rcases h with h | h
  · exact h sub
  · rw [reg] at h; cases h

theorem nodup_mxstRows : ((mxstRows s core o).map (·.1)).Nodup := by
  unfold mxstRows
  split_ifs
  · rw [List.map_map]
    exact (List.map_id _).symm ▸ upFrom_eq_range' _ _ ▸ List.nodup_range'
  · exact List.nodup_nil

/-- Each row that an MXST writes to registers stands in those of its lane. -/
theorem readCode_regsWritten (sub : o.sub = 2) (reg : mxReg o.a0 = true) {r : Nat × Nat × Fl} (hr : r ∈ mxstRows s core o) {j : Nat}
    (hj : j < o.n * typeBits o.oType / 32) :
    readCode ((regsWritten o (mxRegs o (mxstRows s core o)) u).thread (thKey (swKey o.gid o.warp o.slice) r.1)) (mxCode o o.a0 r.1 + j)
      = BitVec.ofNat 32 (r.2.1 / 2 ^ (32 * j)) := by
  let vals := (mxstRows s core o).map (fun r => (r.1, mxCode o o.a0 r.1, r.2.1))
  have lands := (lands0_regs u (swKey o.gid o.warp o.slice) (o.n * typeBits o.oType / 32) vals).value rfl
    (by rw [List.map_map]; exact nodup_mxstRows) _ (List.mem_map_of_mem hr) j hj
  rw [List.foldl_map] at lands
  rw [mxRegs, if_pos ⟨sub, reg⟩, regsWritten, List.foldl_map]
  exact lands

end

/-! ### The operation (R282, R286) -/

section
variable {s : State} {core : Nat} {o : MxOp} {rest : List MxOp}

/-- The operation at the head has left the queue, and the array takes the width that the power alarm asks for. -/
def mxHeadGone (core : Nat) (rest : List MxOp) (s : State) : State :=
  updCore core (fun c => { c with mxq := rest }) (updCore core (fun c => { c with mxn := (s.ret (coreRet core)).alarm }) s)

/-- Words written to scratchpad for a core, in order. -/
def scratchWritten (core : Nat) (stores : List (Nat × List Byte)) (s : State) : State :=
  stores.foldl (fun y p => writeKey y 0 (scratchPa core p.1) p.2) s

theorem core_mxHeadGone (k : Nat) : (mxHeadGone core rest s).core k =
    if k = core then { s.core core with mxn := (s.ret (coreRet core)).alarm, mxq := rest } else s.core k := by
  unfold mxHeadGone
  rw [core_updCore, core_updCore_self, core_updCore]
  split_ifs <;> rfl

theorem bankWord_mxHeadGone (k : Nat) : bankWord (mxHeadGone core rest s) core k = bankWord s core k := by
  rw [bankWord, core_mxHeadGone, if_pos rfl]
  rfl

/-- What the array finds does not depend on its width. -/
theorem mxFound_mxn (alarm : Bool) (stores : List (Nat × List Byte)) :
    mxFound (updCore core (fun c => { c with mxn := alarm }) s) core o stores = mxFound s core o stores := by
  have dead : ∀ k, ((updCore core (fun c => { c with mxn := alarm }) s).core k).dead = (s.core k).dead := fun k => by
    rw [core_updCore]
    split_ifs with here
    · rw [here]
    · rfl
  unfold mxFound
  simp only [dead, updCore_poison]

/-- The writes of an operation, all of them. -/
theorem mxPerform_all (banks : List (Nat × W32 × Fl)) (stores : List (Nat × List Byte)) (regs : List (Nat × Nat × List W32)) :
    mxPerform core o banks stores regs (fun _ => true) s = regsWritten o regs (scratchWritten core stores (bankWritten core banks s)) := by
  unfold mxPerform
  simp only [if_true]
  rfl

/-- Beside the bank, only the queue and the width of the core change. -/
theorem bankWritten_frame (banks : List (Nat × W32 × Fl)) :
    let v := bankWritten core banks (mxHeadGone core rest s)
    { v with cores := s.cores } = s ∧ (∀ k, k ≠ core → v.core k = s.core k)
      ∧ { v.core core with bank := (s.core core).bank } = { s.core core with mxn := (s.ret (coreRet core)).alarm, mxq := rest } := by
  have frame := onlyBank_bankWritten core banks (mxHeadGone core rest s)
  have own := frame.own
  rw [core_mxHeadGone, if_pos rfl] at own
  refine ⟨(congrArg (fun y : State => { y with cores := s.cores }) frame.rest :), fun k other => ?_, own⟩
  rw [frame.others k other, core_mxHeadGone, if_neg other]

theorem onlyStores_scratchWritten (stores : List (Nat × List Byte)) : OnlyStores s (scratchWritten core stores s) := by
  unfold scratchWritten
  refine onlyStores_foldl _ (fun y p => ?_) stores s
  exact onlyStores_writeKey y 0 (scratchPa core p.1) p.2

/-- Beside memory, only registers of the lanes change, and those only when the operation writes to registers. -/
theorem regsWritten_frame {v : State} (rows : List (Nat × Nat × Fl)) (stores : List (Nat × List Byte)) (same : v.threads = s.threads) :
    let t := regsWritten o (mxRegs o rows) (scratchWritten core stores v)
    OnlyStores v { t with threads := s.threads } ∧ t.mem = (scratchWritten core stores v).mem
      ∧ (o.sub ≠ 2 ∨ mxReg o.a0 = false → t.threads = s.threads) := by
  have stored := onlyStores_scratchWritten (core := core) (s := v) stores
  have threads : (scratchWritten core stores v).threads = s.threads := stored.threads.trans same
  have kept := regsWritten_rest (o := o) (u := scratchWritten core stores v) (mxRegs o rows)
  refine ⟨?_, (congrArg State.mem kept :), fun none => ?_⟩
  · rw [← threads, kept]
    exact stored
  · rw [mxRegs_eq_nil none]
    exact threads

/-- An operation that finds nothing wrong is performed wholly, and ends. -/
theorem mxOperationComplete_runs (head : (s.core core).mxq = o :: rest) (clean : mxFound s core o (mxStores o (mxstRows s core o)) = none)
    (free : ∀ op ∈ o.after, mget? s.flight op = none) :
    let banks := mxBankWrites s core o
    let rows := mxstRows s core o
    let t := regsWritten o (mxRegs o rows) (scratchWritten core (mxStores o rows) (bankWritten core banks (mxHeadGone core rest s)))
    exec (.mxOperationComplete core) s = .next (reapGroup o.gid (tagDown o.gid o.tag
      (clearPending (swKey o.gid o.warp o.slice) o.op
        (mergeFlags (swKey o.gid o.warp o.slice) ((rows.map (·.2.2) ++ banks.map (·.2.2)).foldl (· ||| ·) 0) t)))) := by
  intro banks rows t
  have ready : (alive s o.after).isEmpty = true := by
    rw [alive, List.isEmpty_iff, List.filter_eq_nil_iff]
    exact fun op hop => by simp [free op hop]
  rw [exec_mxOperationComplete, execMxOperationComplete, head]
  dsimp only
  rw [if_neg (by simp [ready]), mxFound_mxn, clean, mxPerform_all, List.foldl_append, List.foldl_map, List.foldl_map]
  rfl

end

end Sys2Proof.Proofs
end

section
/-! The Sparge engine (spec/14 R322 to R326): one step on a COPY, the chain of its steps, and its end. -/

namespace Sys2Proof.Proofs

open Sys2Proof Sys2Proof.Machine Sys2Proof.Laws

/-! ### One unit (R324) -/

section
variable {s : State} {a : Agent} {o : CopyOp}

/-- Where an engine reaches does not depend on the free choices made so far. -/
theorem agentReach_free (n : Nat) (acc : Access) (va k lo hi : Nat) :
    agentReach { s with free := n } a acc va k lo hi = agentReach s a acc va k lo hi := rfl

theorem length_agentRead (key pa n : Nat) : (agentRead s a key pa n).length = n := length_bytesLE n _

/-- One whole unit that waits is written at its place. -/
theorem flushUnits_one {p : CopyAt} {lo hi n pa key : Nat} (whole : p.rest.length = 16) (place : agentReach s a .write (lo + p.out) 16 lo hi = .ok pa key) :
    flushUnits a lo hi (n + 2) ⟨s, p⟩ = (⟨agentWrite a key pa p.rest s, { p with
      out := p.out + 16, rest := [], crc := p.crc.map (fun v => crc32c v p.rest), put := p.put ++ [(pa, key, p.rest)] }⟩, none) := by
  have all : p.rest.take 16 = p.rest := List.take_of_length_le whole.le
  have none_left : p.rest.drop 16 = [] := List.drop_of_length_le whole.le
  rw [flushUnits, if_neg (by rw [whole]; decide), place]
  dsimp only
  rw [flushUnits, if_pos (by rw [none_left]; exact Nat.zero_lt_succ _), all, none_left]

/-- A unit that is not converted is read, with its old value or its new one, and written. -/
theorem copyUnit_plain {slot : W64} {c : CopyDesc} {was : List Host.Cell} {p : CopyAt} {pa key pa' key' : Nat} (plain : bitOf c.flags 0 = false)
    (empty : p.rest = []) (source : agentReach s a .read (c.src + 16 * p.unit) 16 0 0 = .ok pa key)
    (place : agentReach s a .write (c.dst + p.out) 16 c.dst (c.dst + c.outLength slot) = .ok pa' key') :
    ∃ v, (v = agentRead { s with mem := was } a key pa 16 ∨ v = agentRead s a key pa 16)
      ∧ copyUnit a slot c was ⟨s, p⟩ = (⟨agentWrite a key' pa' v { s with free := s.free + 1 }, { p with
          unit := p.unit + 1, out := p.out + 16, crc := p.crc.map (fun x => crc32c x v), put := p.put ++ [(pa', key', v)] }⟩, none) := by
  let v := agentRead (if Config.choice s.free % 2 = 0 then { s with mem := was } else s) a key pa 16
  refine ⟨v, ?_, ?_⟩
  · by_cases old : Config.choice s.free % 2 = 0
    · exact .inl (congrArg (agentRead · a key pa 16) (if_pos old))
    · exact .inr (congrArg (agentRead · a key pa 16) (if_neg old))
  · unfold copyUnit
    rw [source]
    dsimp only
    rw [plain, empty, if_neg Bool.false_ne_true]
    dsimp only
    rw [List.nil_append]
    refine (flushUnits_one (n := 6) (pa := pa') (key := key') ?_ ?_).trans ?_
    · exact length_agentRead key pa 16
    · exact (agentReach_free _ _ _ _ _ _).trans place
    · rw [show p.fl ||| 0 = p.fl by simp, ← empty]

end

/-! ### One step (R323, R324) -/

section
variable {s : State} {a : Agent} {o : CopyOp} {bs : List Byte} {was : List Host.Cell}

/-- The CRC of a descriptor so far: its seed, before its first unit. -/
def crcSoFar (d : CopyAt) (c : CopyDesc) : Nat := d.crc.getD (if bitOf c.flags 2 then d.prev else c.crcIn)

/-- The engine's step at a descriptor that it can read, by what the descriptor is and how far the engine has come. -/
theorem copyStep_eq (clean : descFault s a o.desc = none)
    (start : o.done.begun = some (bs, was) ∨ (o.done.begun = none ∧ bs = readRaw s (scratchPa a.core o.desc) 64 ∧ was = s.mem)) :
    copyStep a o s =
      if (copyDesc bs).bad s a.core a.sp.m a.sp.root o.slot o.done.k = true then .ended o.done.fl (descWrite a.core o.desc 0x17 [3] s)
      else if o.done.unit < (copyDesc bs).length / 16 then
        match copyUnit a o.slot (copyDesc bs) was ⟨s, { o.done with begun := some (bs, was), crc := some (crcSoFar o.done (copyDesc bs)) }⟩ with
        | (r, some f) => .fault f (keepSome a r.p r.s)
        | (r, none) => .more { o with done := r.p } r.s
      else copyDone a o (copyDesc bs) (crcSoFar o.done (copyDesc bs)) s := by
  have read : o.done.begun.getD (readRaw s (scratchPa a.core o.desc) 64, s.mem) = (bs, was) := by
    rcases start with begun | ⟨fresh, rfl, rfl⟩
    · rw [begun]; rfl
    · rw [fresh]; rfl
  unfold copyStep
  rw [clean]
  dsimp only
  rw [read]
  rfl

theorem copyStep_unit (clean : descFault s a o.desc = none)
    (start : o.done.begun = some (bs, was) ∨ (o.done.begun = none ∧ bs = readRaw s (scratchPa a.core o.desc) 64 ∧ was = s.mem))
    (good : (copyDesc bs).bad s a.core a.sp.m a.sp.root o.slot o.done.k = false) {pa key pa' key' : Nat} (left : o.done.unit < (copyDesc bs).length / 16)
    (plain : bitOf (copyDesc bs).flags 0 = false) (empty : o.done.rest = [])
    (source : agentReach s a .read ((copyDesc bs).src + 16 * o.done.unit) 16 0 0 = .ok pa key)
    (place : agentReach s a .write ((copyDesc bs).dst + o.done.out) 16 (copyDesc bs).dst ((copyDesc bs).dst + (copyDesc bs).outLength o.slot)
      = .ok pa' key') :
    ∃ v, (v = agentRead { s with mem := was } a key pa 16 ∨ v = agentRead s a key pa 16)
      ∧ copyStep a o s = .more { o with done := { o.done with
          begun := some (bs, was), crc := some (crc32c (crcSoFar o.done (copyDesc bs)) v), unit := o.done.unit + 1, out := o.done.out + 16
          put := o.done.put ++ [(pa', key', v)] } } (agentWrite a key' pa' v { s with free := s.free + 1 }) := by
  obtain ⟨v, old_or_new, moved⟩ := copyUnit_plain (slot := o.slot) (was := was)
    (p := { o.done with begun := some (bs, was), crc := some (crcSoFar o.done (copyDesc bs)) }) plain empty source place
  refine ⟨v, old_or_new, ?_⟩
  rw [copyStep_eq clean start, good, if_neg Bool.false_ne_true, if_pos left, moved]
  rfl

theorem copyStep_done (clean : descFault s a o.desc = none)
    (start : o.done.begun = some (bs, was) ∨ (o.done.begun = none ∧ bs = readRaw s (scratchPa a.core o.desc) 64 ∧ was = s.mem))
    (good : (copyDesc bs).bad s a.core a.sp.m a.sp.root o.slot o.done.k = false) (all : (copyDesc bs).length / 16 ≤ o.done.unit) :
    copyStep a o s = copyDone a o (copyDesc bs) (crcSoFar o.done (copyDesc bs)) s := by
  rw [copyStep_eq clean start, good, if_neg Bool.false_ne_true, if_neg all.not_gt]

/-- A descriptor whose units are all moved ends the chain when its CRC is not the one expected, or when no other follows. -/
theorem copyDone_cases (c : CopyDesc) (crc : Nat) :
    let status := fun (b : Byte) t => descWrite a.core o.desc 0x17 [b] t
    let u := raceUnits a o.done s
    let t := if bitOf c.flags 1 then descWrite a.core o.desc 0x1C (bytesLE 4 crc) u else u
    (bitOf c.flags 1 = true → bitOf c.flags 5 = true → crc ≠ c.crcExp → copyDone a o c crc s = .ended o.done.fl (status 2 t))
    ∧ (bitOf c.flags 1 = false ∨ bitOf c.flags 5 = false ∨ crc = c.crcExp → copyDone a o c crc s =
        if bitOf c.flags 3 then .more { o with desc := c.next, done := { CopyAt.start with
          k := o.done.k + 1, prev := if bitOf c.flags 1 then crc else c.crcOut, fl := o.done.fl } } (status 1 t)
        else .ended o.done.fl (status 1 t)) := by
  refine ⟨fun computes expects wrong => ?_, fun right => ?_⟩
  · exact if_pos (by simp [computes, expects, wrong])
  · refine if_neg ?_
    rcases right with off | off | same
    · simp [off]
    · simp [off]
    · simp [same]

end

/-! ### The chain and its end (R325, R326) -/

section
variable {s t : State} {a : Agent} {o : CopyOp} {n : Nat}

theorem copyChain_more {o' : CopyOp} (h : copyStep a o s = .more o' t) : copyChain a (n + 1) o s = copyChain a n o' t := by rw [copyChain, h]
theorem copyChain_ended {fl : Fl} (h : copyStep a o s = .ended fl t) : copyChain a (n + 1) o s = ⟨t, fl, none⟩ := by rw [copyChain, h]
theorem copyChain_fault {f : Cause × Nat × Nat} (h : copyStep a o s = .fault f t) : copyChain a (n + 1) o s = ⟨t, 0, some f⟩ := by rw [copyChain, h]

/-- The chain at the head of the engine runs to its end: its flags and its tag, or the fault that stopped it. -/
theorem copyComplete_runs {core : Nat} {rest : List CopyOp} {g : Machine.Group} (head : (s.core core).copyq = o :: rest)
    (group : mget? s.groups o.gid = some g) (ready : writesDone s o.after = true) :
    let r := copyChain (agentOf s core g) chainSteps o s
    let t := { r.s with free := r.s.free + 1 }
    (r.found = none → exec (.copyComplete core) s = .next (reapGroup o.gid (tagDown o.gid o.tag
      (mergeFlags (swKey o.gid o.warp o.slice) r.fl (updCore core (fun c => { c with copyq := rest }) t)))))
    ∧ ∀ f, r.found = some f → exec (.copyComplete core) s = .next (takeFault
        ⟨f.1, o.gid, o.warp, o.slice.code, 0xFF, false, o.pc.toNat, none, f.2.1, f.2.2⟩
        (updCore core (fun c => { c with copyq := c.copyq.filter (fun p => p.gid != o.gid) }) t)) := by
  rw [exec_copyComplete, execCopyComplete, head]
  dsimp only
  rw [group]
  dsimp only
  rw [if_neg (by simp [ready])]
  generalize copyChain (agentOf s core g) chainSteps o s = r
  refine ⟨fun clean => ?_, fun f found => ?_⟩
  · rw [clean]
  · rw [found]

end

end Sys2Proof.Proofs
end

section
/-! The network endpoint at the source (spec/14 R311, R331, R369): a work request leaves its queue, its source is read unit by unit, and its packets
enter the fabric. -/

namespace Sys2Proof.Proofs

open Sys2Proof Sys2Proof.Machine Sys2Proof.Laws

theorem updWork_known {s : State} {op : Nat} {o : WorkOp} (known : mget? s.works op = some o) (f : WorkOp → WorkOp) :
    updWork op f s = { s with works := mput s.works op (f o) } := by rw [updWork, known]

/-! ### A work request leaves its queue (R311, R331) -/

section
variable {s : State} {ret queue op : Nat} {rest : List Nat} {o : WorkOp}

/-- The head of a queue has left it, and the next turn is the one after that queue's (R311). -/
def headSent (ret queue : Nat) (rest : List Nat) (s : State) : State :=
  updRet ret (fun r => { r with wrqTurn := queue, wrq := if rest.isEmpty then mdel r.wrq queue else mput r.wrq queue rest }) s

theorem workRequestSend_runs (head : mget (s.ret ret).wrq queue [] = op :: rest) (known : mget? s.works op = some o)
    (now : sendsFrom s ret queue = true) : exec (.workRequestSend ret queue) s =
      .next (if o.err.isSome = true then headSent ret queue rest s else sendRequest op o (headSent ret queue rest s)) := by
  rw [exec_workRequestSend, execWorkRequestSend, head]
  dsimp only
  rw [if_neg (by simp [now]), known]
  rfl

theorem sendRequest_write (write : o.wr.opc < 2) : sendRequest op o s =
    updWork op (fun x => { x with injected := true }) (sendUnits op (o.wr.length + 1) s) := if_pos write

theorem sendRequest_peer (other : 2 ≤ o.wr.opc) (peer : o.wr.toPeer = true) : sendRequest op o s =
    updWork op (fun x => { x with injected := true }) (updWork op (fun x => { x with moved := 0 }) (leavePacket op o [] s)) :=
  (if_neg other.not_gt).trans (if_pos peer)

theorem sendRequest_fabric (other : 2 ≤ o.wr.opc) (fabric : o.wr.toPeer = false) : sendRequest op o s =
    if o.wr.opc = 3 then
      (if o.wr.laddr % 8 ≠ 0 ∨ o.wr.raddr % 8 ≠ 0 then failWork op .remoteError o.wr.raddr 0 s
        else updWork op (fun x => { x with injected := true }) (leavePacket op o [] s))
    else if (packetRoute s o).isNone = true then failWork op .remoteError o.wr.raddr 0 s
    else updWork op (fun x => { x with injected := true }) s :=
  (if_neg other.not_gt).trans (if_neg (by rw [fabric]; exact Bool.false_ne_true))

theorem sendRequest_atomic (atomic : o.wr.opc = 3) (fabric : o.wr.toPeer = false) (hl : o.wr.laddr % 8 = 0) (hr : o.wr.raddr % 8 = 0) :
    sendRequest op o s = updWork op (fun x => { x with injected := true }) (leavePacket op o [] s) := by
  rw [sendRequest_fabric (by omega) fabric, if_pos atomic, if_neg (by omega)]

theorem sendRequest_misaligned (atomic : o.wr.opc = 3) (fabric : o.wr.toPeer = false) (odd : o.wr.laddr % 8 ≠ 0 ∨ o.wr.raddr % 8 ≠ 0) :
    sendRequest op o s = failWork op .remoteError o.wr.raddr 0 s := by
  rw [sendRequest_fabric (by omega) fabric, if_pos atomic, if_pos odd]

theorem sendRequest_read (read : o.wr.opc = 2) (fabric : o.wr.toPeer = false) :
    sendRequest op o s = if (packetRoute s o).isNone = true then failWork op .remoteError o.wr.raddr 0 s
      else updWork op (fun x => { x with injected := true }) s := by
  rw [sendRequest_fabric (by omega) fabric, if_neg (by omega)]

end

/-! ### Packets and units (R224, R331) -/

/-- A packet has a byte, at most 256 or for a peer 4,096, and at a fabric target lies in one page. -/
theorem packetEnd_spec {w : WorkReq} {off : Nat} (inside : off < w.length) :
    off < w.packetEnd off ∧ w.packetEnd off ≤ w.length ∧ w.packetEnd off ≤ off + (if w.toPeer then 4096 else 256)
    ∧ (w.toPeer = false → (w.raddr + (w.packetEnd off - 1)) / 65536 = (w.raddr + off) / 65536) := by
  unfold WorkReq.packetEnd
  simp only [Nat.min_def]
  cases w.toPeer
  · simp only [Bool.false_eq_true, if_false, forall_const]
    split_ifs <;> omega
  · simp only [if_true, Bool.true_eq_false, false_implies, and_true]
    split_ifs <;> omega

section
variable {s : State} {op fuel : Nat} {o : WorkOp}

theorem sendUnits_stops (known : mget? s.works op = some o) (stop : o.err ≠ none ∨ o.wr.length ≤ o.moved) : sendUnits op (fuel + 1) s = s := by
  rw [sendUnits, known]
  refine if_pos ?_
  rcases stop with failed | sent
  · simp [Option.isSome_iff_ne_none, failed]
  · simp [sent]

theorem sendUnits_goes_on (known : mget? s.works op = some o) (clean : o.err = none) (left : o.moved < o.wr.length) :
    sendUnits op (fuel + 1) s = sendUnits op fuel (sendUnit op o s) := by
  rw [sendUnits, known]
  exact if_neg (by simp [clean, left])

theorem sendUnit_no_place (none_there : placeOf s (workAgent s o) .read none (o.wr.laddr + (o.moved + o.taken.length)) = none) :
    sendUnit op o s = failSend op o .remoteError (o.wr.laddr + (o.moved + o.taken.length)) 0 s := by
  unfold sendUnit
  dsimp only
  rw [none_there]

/-- A unit that is read without a cause has the bytes that memory holds there. -/
theorem readUnit_bytes {ret force pa key n va : Nat} {bs : List Byte} (clean : readUnit s ret force pa key n va = (none, bs)) :
    bs = readKey s key pa n := by
  unfold readUnit at clean
  split at clean
  · simp at clean
  · split_ifs at clean
    · simp at clean
    · split at clean
      · simp at clean
      · exact (Prod.mk.inj clean).2.symm

theorem sendUnit_reads {pa key : Nat} (place : placeOf s (workAgent s o) .read none (o.wr.laddr + (o.moved + o.taken.length)) = some (pa, key)) :
    let at_ := o.moved + o.taken.length
    let n := Nat.min (16 - (o.wr.laddr + at_) % 16) (o.wr.packetEnd o.moved - at_)
    (∀ c x d bs, readUnit s o.ret 0 pa key n (o.wr.laddr + at_) = (some (c, x, d), bs) → sendUnit op o s = failSend op o c x d s)
    ∧ ∀ bs, readUnit s o.ret 0 pa key n (o.wr.laddr + at_) = (none, bs) → bs = readKey s key pa n
        ∧ sendUnit op o s = (if o.moved + (o.taken ++ bs).length = o.wr.packetEnd o.moved then leavePacket op o (o.taken ++ bs) s
          else updWork op (fun x => { x with taken := o.taken ++ bs }) s) := by
  unfold sendUnit
  dsimp only
  rw [place]
  dsimp only
  refine ⟨fun c x d bs failed => ?_, fun bs clean => ⟨readUnit_bytes clean, ?_⟩⟩
  · rw [failed]
  · rw [clean]

end

/-! ### A packet leaves (R331, R369) -/

section
variable {s : State} {op : Nat} {o : WorkOp}

theorem stampWork_unordered (known : mget? s.works op = some o) (plain : o.wr.ordered = false ∨ o.wr.puts = false) : stampWork op s = s := by
  rw [stampWork, known]
  refine if_pos ?_
  rcases plain with h | h <;> simp [h]

/-- The next stamp of a reticle as an ordered source (R369). -/
def nextStamp (s : State) (ret : Nat) : Nat := Nat.max (wtime s ret) ((s.ret ret).lastStamp + 1)
/-- Its next sequence number (R369). -/
def nextSeq (s : State) (ret : Nat) : Nat := ((s.ret ret).lastSeq + 1) % 2 ^ 32

/-- A reticle has taken its next order key. -/
def keyTaken (ret : Nat) (s : State) : State := updRet ret (fun x => { x with lastStamp := nextStamp s ret, lastSeq := nextSeq s ret }) s

theorem lastStamp_keyTaken (ret : Nat) : ((keyTaken ret s).ret ret).lastStamp = nextStamp s ret := by rw [keyTaken, ret_updRet_self]
theorem lastSeq_keyTaken (ret : Nat) : ((keyTaken ret s).ret ret).lastSeq = nextSeq s ret := by rw [keyTaken, ret_updRet_self]

theorem takeKey_zero (ret : Nat) : takeKey ret 0 s = (nextStamp s ret, nextSeq s ret, keyTaken ret s) := by
  unfold takeKey keyTaken nextStamp nextSeq
  dsimp only
  rw [show Nat.max 0 (Nat.max (wtime s ret) ((s.ret ret).lastStamp + 1)) = Nat.max (wtime s ret) ((s.ret ret).lastStamp + 1) from Nat.zero_max _]

theorem stampWork_ordered (known : mget? s.works op = some o) (ordered : o.wr.ordered = true) (puts : o.wr.puts = true)
    (fabric : o.wr.toPeer = false) : stampWork op s = { keyTaken o.ret s with
      works := mput s.works op { o with stamp := nextStamp s o.ret, seq := nextSeq s o.ret } } := by
  rw [stampWork, known]
  dsimp only
  rw [if_neg (by simp [ordered, puts, fabric]), takeKey_zero]
  exact updWork_known (s := keyTaken o.ret s) known _

/-- The stamp that a work request's packet leaves with: its source's next order key for the first packet of an ordered put, else the one that it
has (R369). -/
theorem stamped_spec (known : mget? s.works op = some o) (fabric : o.wr.toPeer = false) :
    ∃ (t : State) (stamp seq : Nat), (if o.moved = 0 then stampWork op s else s) = t
      ∧ mget? t.works op = some { o with stamp := stamp, seq := seq } ∧ { t with works := s.works, rets := s.rets } = s
      ∧ (o.moved = 0 → o.wr.ordered = true → o.wr.puts = true →
          stamp = nextStamp s o.ret ∧ seq = nextSeq s o.ret ∧ (t.ret o.ret).lastStamp = stamp ∧ (t.ret o.ret).lastSeq = seq)
      ∧ (o.moved ≠ 0 ∨ o.wr.ordered = false ∨ o.wr.puts = false → stamp = o.stamp ∧ seq = o.seq ∧ t.rets = s.rets) := by
  by_cases plain : o.moved ≠ 0 ∨ o.wr.ordered = false ∨ o.wr.puts = false
  · refine ⟨s, o.stamp, o.seq, ?_, known, rfl, fun fresh ordered puts => ?_, fun _ => ⟨rfl, rfl, rfl⟩⟩
    · split_ifs with fresh
      · exact stampWork_unordered known (plain.resolve_left fun later => later fresh)
      · rfl
    · simp [fresh, ordered, puts] at plain
  · push Not at plain
    obtain ⟨fresh, ordered, puts⟩ := plain
    rw [Bool.ne_false_iff] at ordered puts
    refine ⟨_, _, _, (if_pos fresh).trans (stampWork_ordered known ordered puts fabric), mget?_mput_self _ _ _, rfl, fun _ _ _ => ⟨rfl, rfl, ?_, ?_⟩,
      fun plain => ?_⟩
    · exact lastStamp_keyTaken o.ret
    · exact lastSeq_keyTaken o.ret
    · simp [fresh, ordered, puts] at plain

theorem leavePacket_spec {bs : List Byte} {pa key : Nat} {route : Route} (known : mget? s.works op = some o) (fabric : o.wr.toPeer = false)
    (place : placeOf s (workAgent s o) .write (some o.wr.target) (o.wr.raddr + o.moved) = some (pa, key)) (routed : packetRoute s o = some route) :
    let w := o.wr
    ∃ t o', leavePacket op o bs s = t ∧ mget? t.works op = some o'
      ∧ { o' with stamp := o.stamp, seq := o.seq } =
          { o with moved := o.moved + bs.length, taken := [], outstanding := o.outstanding + 1, route := some route }
      ∧ (o.moved = 0 → w.ordered = true → w.puts = true →
          o'.stamp = Nat.max (wtime s o.ret) ((s.ret o.ret).lastStamp + 1) ∧ o'.seq = ((s.ret o.ret).lastSeq + 1) % 2 ^ 32
          ∧ (t.ret o.ret).lastStamp = o'.stamp ∧ (t.ret o.ret).lastSeq = o'.seq)
      ∧ (o.moved ≠ 0 ∨ w.ordered = false ∨ w.puts = false → o'.stamp = o.stamp ∧ o'.seq = o.seq ∧ t.rets = s.rets)
      ∧ mget? t.wire s.nextId = some
          { src := o.ret, dst := w.target, ordered := w.ordered, stamp := o'.stamp, seq := o'.seq, pos := o.ret, moved := false
            route := route, crossed := false, placed := 0, body := if w.opc = 3 then .atomic op pa key else .put op pa key bs }
      ∧ (∀ k, k ≠ s.nextId → mget? t.wire k = mget? s.wire k) ∧ t.nextId = s.nextId + 1
      ∧ { t with works := s.works, rets := s.rets, wire := s.wire, nextId := s.nextId } = s := by
  obtain ⟨v, stamp, seq, stamped, work, rest, fresh, later⟩ := stamped_spec known fabric
  have wire : v.wire = s.wire := (congrArg State.wire rest :)
  have next : v.nextId = s.nextId := (congrArg State.nextId rest :)
  let sent : WorkOp := { o with
    stamp := stamp, seq := seq, moved := o.moved + bs.length, taken := [], outstanding := o.outstanding + 1, route := some route }
  let packet : Packet :=
    { src := o.ret, dst := o.wr.target, ordered := o.wr.ordered, stamp := stamp, seq := seq, pos := o.ret, moved := false
      route := route, crossed := false, placed := 0, body := if o.wr.opc = 3 then .atomic op pa key else .put op pa key bs }
  refine ⟨{ v with works := mput v.works op sent, nextId := v.nextId + 1, wire := mput v.wire v.nextId packet }, sent, ?_, mget?_mput_self _ _ _, rfl,
    fresh, later, ?_, fun k other => ?_, congrArg (· + 1) next, ?_⟩
  · unfold leavePacket
    dsimp only
    rw [if_neg (by rw [fabric]; exact Bool.false_ne_true), place, routed]
    dsimp only
    rw [stamped, updWork_known work]
    dsimp only
    rw [mget?_mput_self]
    rfl
  · rw [← next]
    exact mget?_mput_self _ _ _
  · rw [← wire]
    exact mget?_mput_ne _ _ (next ▸ other)
  · exact (congrArg (fun y : State => { y with works := s.works, rets := s.rets, wire := s.wire, nextId := s.nextId }) rest :)

end

end Sys2Proof.Proofs
end

section
/-! The network endpoint at the target and back at the source (spec/14 R331, R332, R334; 16 R387, R388): packets take effect, and what completes
takes one off its tag. -/

namespace Sys2Proof.Proofs

open Sys2Proof Sys2Proof.Machine Sys2Proof.Laws

/-! ### Bytes placed unit by unit (R224, R221) -/

section
variable {s t : State} {src force key va fuel pa : Nat} {bs : List Byte}

/-- How much of some bytes is written at once: up to the end of an aligned unit, or of a poisoned sector (R221). -/
def unitRoom (s : State) (pa : Nat) (bs : List Byte) : Nat :=
  let span := if smem s.poison (unitBase pa) then Nat.max 16 (unitSize pa) else 16
  Nat.min bs.length (span - pa % span)

theorem unitRoom_pos (some_left : bs ≠ []) : 0 < unitRoom s pa bs := by
  have span : 0 < (if smem s.poison (unitBase pa) then Nat.max 16 (unitSize pa) else 16) := by
    split_ifs
    · exact Nat.lt_of_lt_of_le (by decide) (Nat.le_max_left 16 (unitSize pa))
    · decide
  exact Nat.lt_min.mpr ⟨List.length_pos_iff.mpr some_left, Nat.sub_pos_of_lt (Nat.mod_lt pa span)⟩

theorem writeUnit_cause {f : Cause × Nat × Nat} (cause : packetCause s src force pa key (unitRoom s pa bs) false va = some f) :
    writeUnit src force pa key bs va s = (s, 0, some f) := by
  unfold unitRoom at cause
  unfold writeUnit
  dsimp only at cause ⊢
  rw [cause]

theorem writeUnit_writes (clean : packetCause s src force pa key (unitRoom s pa bs) false va = none) :
    writeUnit src force pa key bs va s = (writeKey s key pa (bs.take (unitRoom s pa bs)), unitRoom s pa bs, none) := by
  unfold unitRoom at clean ⊢
  unfold writeUnit
  dsimp only at clean ⊢
  rw [clean]

theorem writeUnits_nil : writeUnits src force key va fuel pa [] s = (s, none) := by cases fuel <;> rfl

theorem writeUnits_cause {f : Cause × Nat × Nat} (some_left : bs ≠ [])
    (cause : packetCause s src force pa key (unitRoom s pa bs) false va = some f) :
    writeUnits src force key va (fuel + 1) pa bs s = (s, some f) := by
  rw [writeUnits, if_neg (by simpa using some_left), writeUnit_cause cause]

theorem writeUnits_writes (some_left : bs ≠ []) (clean : packetCause s src force pa key (unitRoom s pa bs) false va = none) :
    writeUnits src force key va (fuel + 1) pa bs s = writeUnits src force key va fuel (pa + unitRoom s pa bs) (bs.drop (unitRoom s pa bs))
      (writeKey s key pa (bs.take (unitRoom s pa bs))) := by
  rw [writeUnits, if_neg (by simpa using some_left), writeUnit_writes clean]

theorem landLocal_lands {a : Agent} {n e : Nat} (some_left : bs ≠ []) (place : translateNow s a.sp .write va = .ok pa e)
    (written : writeUnit (coreRet a.core) 0 pa (pteKey e) (bs.take (65536 - va % 65536)) va s = (t, n, none)) :
    landLocal a (fuel + 1) va bs s = landLocal a fuel (va + n) (bs.drop n) t := by
  have landed : landUnit a va bs s = (t, n, none) := by rw [landUnit, place]; exact written
  rw [landLocal, if_neg (by simpa using some_left), landed]

end

/-! ### A packet at its target (R235, R258, R331) -/

section
variable {s : State} {pkt : Nat} {p : Packet}

theorem putPacketPlaced_performs (known : mget? s.wire pkt = some p) (here : atTarget s p = true) :
    exec (.putPacketPlaced pkt) s = .next (performPacket p { s with wire := mdel s.wire pkt }) := by
  rw [exec_putPacketPlaced, execPutPacketPlaced, known]
  exact if_pos here

theorem performPacket_placed {op pa key : Nat} {bs : List Byte} {t : State} (body : p.body = .put op pa key bs)
    (written : writeUnits p.src (workRoute s op) key (workRaddr s op) bs.length (pa + p.placed) (bs.drop p.placed) s = (t, none)) :
    performPacket p s = packetDone op (landPacket op pa bs.length t) := by
  rw [performPacket, body]
  dsimp only
  rw [written]

theorem performPacket_failed {op pa key b d : Nat} {c : Cause} {bs : List Byte} {t : State} (body : p.body = .put op pa key bs)
    (written : writeUnits p.src (workRoute s op) key (workRaddr s op) bs.length (pa + p.placed) (bs.drop p.placed) s = (t, some (c, b, d))) :
    performPacket p s = packetDone op (failWork op c b d t) := by
  rw [performPacket, body]
  dsimp only
  rw [written]

theorem performPacket_atomic {op pa key : Nat} {o : WorkOp} (body : p.body = .atomic op pa key) (known : mget? s.works op = some o)
    (clean : packetCause s p.src o.wr.route pa key 8 true o.wr.raddr = none) :
    performPacket p s = packetDone op (updWork op (fun x => { x with old := some (BitVec.ofNat 64 (readNat s key pa 8)) })
      (writeKey s key pa (bytesLE 8 (applyAop o.wr.aop true (BitVec.ofNat 64 (readNat s key pa 8)) (BitVec.ofNat 64 o.wr.operand)
        (BitVec.ofNat 64 o.wr.compare)).toNat))) := by
  rw [performPacket, body]
  dsimp only
  rw [known]
  dsimp only
  rw [clean]

/-- Every field of reticles is as it was after the watchers of a device register wake. -/
theorem ret_deviceChanged (pa : Nat) (before : State) (ret : Nat) : (deviceChanged pa before s).ret ret = s.ret ret := by
  unfold deviceChanged
  split_ifs <;> rfl

theorem ccnt_countImm (i imm ret : Nat) : mget (countImm ret i imm s |>.ret ret).ccnt i 0 =
    ((mget (s.ret ret).ccnt i 0).extractLsb' 32 32 + BitVec.ofNat 32 imm) ++ ((mget (s.ret ret).ccnt i 0).extractLsb' 0 32 + 1) := by
  unfold countImm
  dsimp only
  rw [ret_deviceChanged, ret_updRet_self]
  exact mget_mput_self _ _ _ _

end

/-! ### Completions (R332, R334, R390) -/

section
variable {s : State} {op : Nat} {o : WorkOp}

/-- A packet less of a work request; the last one of a WRITE_IMM advances its counter (R388). -/
theorem packetDone_known (known : mget? s.works op = some o) :
    let less := updWork op (fun x => { x with outstanding := x.outstanding - 1 }) s
    let last := o.outstanding = 1 ∧ o.injected = true ∧ o.wr.opc = 1 ∧ o.wr.toPeer = false ∧ o.err = none
    (¬ last → packetDone op s = reapGroup o.gid (settleWork op less))
    ∧ (last → packetDone op s = reapGroup o.gid (settleWork op (countImm o.wr.target o.wr.cctr o.wr.imm less))) := by
  intro less last
  have same : (o.outstanding = 1 ∧ o.injected = true ∧ o.wr.opc = 1 ∧ o.wr.toPeer = false ∧ o.err.isNone = true) ↔ last := by
    simp only [last, Option.isNone_iff_eq_none]
  rw [packetDone, known]
  refine ⟨fun more => ?_, fun done => ?_⟩
  · dsimp only
    rw [if_neg (same.not.mpr more)]
  · dsimp only
    rw [if_pos (same.mpr done)]

theorem sendCompletion_runs (known : mget? s.works op = some o) (puts : o.wr.opc < 2) (left : o.injected = true) (fresh : o.sent = false)
    (clean : o.err = none) : exec (.sendCompletion op) s =
      .next (reapGroup o.gid (settleWork op (tagDown o.gid o.wr.tag (updWork op (fun x => { x with sent := true }) s)))) := by
  rw [exec_sendCompletion, execSendCompletion, known]
  exact if_neg (by simp [puts, left, fresh, clean])

theorem readLanded_runs {t u : State} {x : WorkOp} (known : mget? s.works op = some o) (goes : readGoes s o = true)
    (fetched : fetchUnits op (o.wr.length + 1) s = t) (still : mget? t.works op = some x) (clean : x.err = none)
    (landed : landLocal (workAgent s x) (x.taken.length + 1) (x.wr.laddr + x.moved) x.taken t = (u, none)) :
    exec (.readLanded op) s = .next (reapGroup x.gid (tagDown x.gid x.wr.tag { u with works := mdel u.works op })) := by
  subst fetched
  rw [exec_readLanded, execReadLanded, known]
  dsimp only
  rw [if_neg (by simp [goes]), still]
  dsimp only
  rw [if_neg (by simp [clean]), landed]
  rfl

theorem fetchUnits_stops {fuel : Nat} (known : mget? s.works op = some o) (stop : o.err ≠ none ∨ o.wr.length ≤ o.moved + o.taken.length) :
    fetchUnits op (fuel + 1) s = s := by
  rw [fetchUnits, known]
  refine if_pos ?_
  rcases stop with failed | all
  · simp [Option.isSome_iff_ne_none, failed]
  · simp [all]

theorem fetchUnits_reads {fuel pa key : Nat} {bs : List Byte} (known : mget? s.works op = some o) (clean : o.err = none)
    (left : o.moved + o.taken.length < o.wr.length) (fabric : o.wr.toPeer = false)
    (place : placeOf s (workAgent s o) .read (some o.wr.target) (o.wr.raddr + (o.moved + o.taken.length)) = some (pa, key))
    (read : readUnit s o.ret o.wr.route pa key
      (Nat.min (16 - (o.wr.raddr + (o.moved + o.taken.length)) % 16) (o.wr.length - (o.moved + o.taken.length)))
      (o.wr.raddr + (o.moved + o.taken.length)) = (none, bs)) :
    fetchUnits op (fuel + 1) s = fetchUnits op fuel (updWork op (fun x => { x with taken := x.taken ++ bs }) s) := by
  have unit : fetchUnit op o s = updWork op (fun x => { x with taken := x.taken ++ bs }) s := by
    unfold fetchUnit
    dsimp only
    rw [if_neg (by rw [fabric]; exact Bool.false_ne_true), place]
    dsimp only
    rw [read]
  rw [fetchUnits, known]
  dsimp only
  rw [if_neg (by simp [clean, left]), unit]

theorem atomicLanding_runs {v : W64} {t : State} (known : mget? s.works op = some o) (no_request : mget? s.flight op = none)
    (fabric : o.wr.toPeer = false) (old : o.old = some v) (clean : o.err = none) (owned : o.orphan = false)
    (landed : landLocal (workAgent s o) 9 o.wr.laddr (bytesLE 8 v.toNat) { s with free := s.free + 1 } = (t, none)) :
    exec (.atomicLanding op) s = .next (reapGroup o.gid (tagDown o.gid o.wr.tag { t with works := mdel t.works op })) := by
  rw [exec_atomicLanding, execAtomicLanding, no_request, known]
  dsimp only
  unfold landOld
  dsimp only
  rw [if_neg (by rw [fabric]; exact Bool.false_ne_true), old, clean]
  dsimp only
  rw [if_neg (by rw [owned]; exact Bool.false_ne_true), landed]
  rfl

theorem nflushComplete_runs {f : FlushOp} (known : mget? s.flushes op = some f) (free : f.stuck = false)
    (placed : ∀ k ∈ f.covers, placedWholly s k = true) :
    exec (.nflushComplete op) s = .next (reapGroup f.gid (tagDown f.gid f.tag { s with flushes := mdel s.flushes op })) := by
  rw [exec_nflushComplete, execNflushComplete, known]
  exact if_pos (by simpa [free] using placed)

end

end Sys2Proof.Proofs
end

section
/-! The obligation over the engines and the endpoint, from the lemmas of its parts. -/

namespace Sys2Proof.Proofs

open Sys2Proof Sys2Proof.Machine Sys2Proof.Laws

/-- Settles O52: the array by mxOperationComplete_runs, the Sparge engine by copyStep_unit and copyComplete_runs, the endpoint by leavePacket_spec and
the lemmas on units, packets and completions. -/
theorem enginesAndPackets : Obligations.EnginesAndPackets := by
  unfold Obligations.EnginesAndPackets
  refine ⟨fun s gid n g => tagDown_spec, fun s core o rest head => ?_, fun s core o rest g => copyComplete_runs,
    fun a n o s => ⟨fun o' t => copyChain_more, fun fl t => copyChain_ended, fun f t => copyChain_fault⟩, fun s a o bs was clean start => ?_,
    fun s ret queue op rest o head known now => ?_, fun w off => packetEnd_spec, fun s op fuel o known => ?_,
    fun s op o bs pa key route => leavePacket_spec, fun s src force key va fuel pa bs => ?_, fun s pkt p known here => ?_,
    fun s op o known => ?_, fun s i imm ret => ccnt_countImm i imm ret, fun s t a va fuel n bs pa e => landLocal_lands,
    fun s op f => nflushComplete_runs⟩
  · intro banks rows stores clean free
    obtain ⟨others, cores, own⟩ := bankWritten_frame (s := s) (core := core) (rest := rest) banks
    obtain ⟨words, outside⟩ := bankWord_performed (o := o) (bankWord_mxHeadGone (s := s) (core := core) (rest := rest))
    obtain ⟨memory, bytes, threads⟩ := regsWritten_frame (s := s) (core := core) (o := o) (v := bankWritten core banks (mxHeadGone core rest s))
      rows stores (congrArg State.threads others :)
    exact ⟨_, _, _, mxOperationComplete_runs head clean free, rfl, others, cores, own, words, outside, memory, bytes, threads,
      fun sub reg r hr j hj => readCode_regsWritten sub reg hr hj⟩
  · intro d c crc status
    refine ⟨fun bad => ?_, fun good => ⟨fun pa key pa' key' left plain empty => copyStep_unit clean start good left plain empty, fun all => ?_⟩⟩
    · exact (copyStep_eq clean start).trans (if_pos bad)
    · rw [copyStep_done clean start good all]
      exact copyDone_cases c crc
  · intro popped w sent done
    have runs := workRequestSend_runs head known now
    refine ⟨fun failed => runs.trans (congrArg Host.Outcome.next (if_pos (Option.isSome_iff_ne_none.mpr failed))), fun clean => ?_⟩
    have goes : ∀ {t : State}, sendRequest op o popped = t → sent t := fun e =>
      runs.trans (congrArg Host.Outcome.next ((if_neg (by simp [clean])).trans e))
    exact ⟨fun write => goes (sendRequest_write write), fun other peer => goes (sendRequest_peer other peer),
      fun atomic fabric hl hr => goes (sendRequest_atomic atomic fabric hl hr), fun atomic fabric odd => goes (sendRequest_misaligned atomic fabric odd),
      fun read fabric => goes (sendRequest_read read fabric)⟩
  · exact ⟨sendUnits_stops known, sendUnits_goes_on known, sendUnit_no_place, fun pa key => sendUnit_reads⟩
  · exact ⟨writeUnits_nil, fun some_left => ⟨unitRoom_pos some_left, fun f => writeUnits_cause some_left, writeUnits_writes some_left⟩⟩
  · have performs : ∀ {t : State}, performPacket p { s with wire := mdel s.wire pkt } = t → exec (.putPacketPlaced pkt) s = .next t := fun e =>
      (putPacketPlaced_performs known here).trans (congrArg Host.Outcome.next e)
    exact ⟨fun op pa key bs t body => ⟨fun placed => performs (performPacket_placed body placed),
      fun c b d failed => performs (performPacket_failed body failed)⟩,
      fun op pa key o body work clean => performs (performPacket_atomic body work clean)⟩
  · obtain ⟨more, last⟩ := packetDone_known known
    exact ⟨more, last, sendCompletion_runs known, fun t x u => readLanded_runs known,
      fun fuel => ⟨fetchUnits_stops known, fun pa key bs clean left fabric place read =>
        ⟨readUnit_bytes read, fetchUnits_reads known clean left fabric place read⟩⟩, fun v t => atomicLanding_runs known⟩

end Sys2Proof.Proofs
end

section
/-! What entering a work request does (spec/13 R312, 14 R329, R332): the request stands at the end of its queue, unsent, and counts one on its tag. -/

namespace Sys2Proof.Proofs

open Sys2Proof Sys2Proof.Machine Sys2Proof.Laws

/-- The operation that a work request enters as (R329): nothing of it is sent, and it comes after what its slice-warp has in flight. -/
def enteredOp (c : Ctx) (q : Nat) (wr : WorkReq) (s : State) : WorkOp where
  wr := wr
  gid := c.run.gid
  warp := c.run.warp
  slice := c.run.slice
  core := c.core
  m := c.g.m
  root := c.g.root
  region := c.g.region
  pc := c.pc
  queue := q
  ret := c.ret
  after := ownWrites s c ++ orderNow s c
  moved := 0
  taken := []
  route := none
  injected := false
  outstanding := 0
  sent := false
  err := none
  old := none
  orphan := false
  stamp := 0
  seq := 0

/-- A work request stands at the end of a queue of a reticle. -/
def putLast (q op : Nat) (r : RetSt) : RetSt := { r with wrq := mput r.wrq q (mget r.wrq q [] ++ [op]) }

/-- The request stands at the end of its queue and is in flight; its tag has not counted it yet. -/
def queuedRequest (c : Ctx) (q : Nat) (wr : WorkReq) (s : State) : State :=
  { updRet c.ret (putLast q s.nextId) s with
    nextId := s.nextId + 1
    works := mput s.works s.nextId (enteredOp c q wr s) }

theorem ret_queuedRequest (c : Ctx) (q : Nat) (wr : WorkReq) (s : State) (j : Nat) : (queuedRequest c q wr s).ret j =
    if j = c.ret then putLast q s.nextId (s.ret c.ret) else s.ret j :=
  ret_updRet c.ret j (putLast q s.nextId) s

theorem enterRequest_known {c : Ctx} {g : Machine.Group} {s : State} (q : Nat) (wr : WorkReq) (known : mget? s.groups c.run.gid = some g) :
    enterRequest c q wr s =
      { queuedRequest c q wr s with groups := mput s.groups c.run.gid (putTag wr.tag (tagCount g wr.tag + 1) g) } :=
  updGroup_known (s := queuedRequest c q wr s) known _

/-- Settles O33: the state after enterRequest_known, read field by field. -/
theorem workRequestsEntered : Obligations.WorkRequestsEntered := by
  unfold Obligations.WorkRequestsEntered
  intro c q wr s g known
  rw [enterRequest_known q wr known]
  have queued := ret_queuedRequest c q wr s
  refine ⟨?_, rfl, ⟨enteredOp c q wr s, mget?_mput_self .., rfl, rfl, rfl, rfl, rfl, rfl⟩, fun k other => mget?_mput_ne _ _ other,
    ⟨putTag wr.tag (tagCount g wr.tag + 1) g, mget?_mput_self .., ?_, rfl, fun n other => ?_⟩,
    rfl, rfl, rfl, rfl, rfl, rfl, rfl, fun k other => mget?_mput_ne _ _ other, fun k other => (queued k).trans (if_neg other)⟩
  · exact (congrArg (fun r : RetSt => mget r.wrq q []) ((queued c.ret).trans (if_pos rfl))).trans (mget_mput_self ..)
  · rw [tagCount_putTag, if_pos rfl]
  · rw [tagCount_putTag, if_neg other]

end Sys2Proof.Proofs
end

section
/-! Device registers (spec/15 R361; 13 R306; 16 R388, R395): where they stand, whom a change wakes, and what a host write of one changes. -/

namespace Sys2Proof.Proofs

open Sys2Proof Sys2Proof.Machine Sys2Proof.Laws

/-! ### Answers -/

theorem retTurns_tell {s t : State} {r : Nat} {x : RetSt} {msgs : List HostMsg} (h : RetTurns s t r x msgs) (msg : HostMsg) :
    RetTurns s (tell msg t) r x (msgs ++ [msg]) where
  rest := h.rest
  value := h.value
  others := h.others
  told := by rw [show (tell msg t).hostOut = t.hostOut ++ [msg] from rfl, h.told, List.append_assoc]

theorem retTurns_answer (r : Nat) (f : RetSt → RetSt) (s : State) (code : Nat) :
    RetTurns s (answer code (updRet r f s)) r (f (s.ret r)) [.status code] :=
  retTurns_tell (retTurns_updRet r f s) (.status code)

/-- An answer alone changes no reticle. -/
theorem retTurns_answer_same (r : Nat) (s : State) (code : Nat) : RetTurns s (answer code s) r (s.ret r) [.status code] where
  rest := rfl
  value := rfl
  others _ _ := rfl
  told := rfl

/-- The state with the watches given. -/
def setWatches (ws : List Watch) (s : State) : State := { s with watches := ws }

theorem setWatches_answer (code : Nat) (s : State) (ws : List Watch) : setWatches ws (answer code s) = answer code (setWatches ws s) := rfl

/-! ### Addresses (R206, R207) -/

section
variable {o : Nat} (ret : Nat) (inside : o < 0x1000000)
include inside

theorem retOf_device : retOf (paOf ret (deviceBase + o)) = ret := by
  unfold retOf paOf deviceBase; omega

theorem localOf_device : localOf (paOf ret (deviceBase + o)) = deviceBase + o := by
  unfold localOf paOf deviceBase; omega

theorem deviceOffset : localOf (paOf ret (deviceBase + o)) - deviceBase = o := by
  rw [localOf_device ret inside, Nat.add_sub_cancel_left]

end

/-- A register at a multiple of 8 is an aligned word. -/
theorem device_mod_eight {o : Nat} (ret : Nat) (aligned : o % 8 = 0) : paOf ret (deviceBase + o) % 8 = 0 := by
  unfold paOf deviceBase; omega

theorem device_word {o : Nat} (ret : Nat) (aligned : o % 8 = 0) : paOf ret (deviceBase + o) / 8 * 8 = paOf ret (deviceBase + o) := by
  have := device_mod_eight ret aligned
  omega

/-! ### Watches (R262, R263) -/

theorem mem_wakeWatches {a n : Nat} {s : State} {w : Watch} :
    w ∈ (wakeWatches a n s).watches ↔ w ∈ s.watches ∧ overlaps w.base w.size a n = false := by
  simp [wakeWatches]

theorem mem_deviceChanged {pa : Nat} {b s : State} {w : Watch} : w ∈ (deviceChanged pa b s).watches ↔
    w ∈ s.watches ∧ (deviceWord b pa = deviceWord s pa ∨ overlaps w.base w.size (pa / 8 * 8) 8 = false) := by
  unfold deviceChanged
  split_ifs with same
  · simp [same]
  · simp [same, mem_wakeWatches]

/-- A change of a register's value changes nothing but watches. -/
theorem setWatches_deviceChanged (pa : Nat) (b s : State) (ws : List Watch) : setWatches ws (deviceChanged pa b s) = setWatches ws s := by
  unfold deviceChanged
  split <;> rfl

theorem mods_deviceChanged (pa : Nat) (b s : State) : (deviceChanged pa b s).mods = s.mods := by
  unfold deviceChanged
  split <;> rfl

/-! ### Doorbells (13 R306) -/

theorem deviceWord_doorbell {door : Nat} (inside : door < 4096) (s : State) (ret : Nat) :
    deviceWord s (paOf ret (deviceBase + 8 * door)) = (mget (s.mod (modOf ret)).doorbells door 0).setWidth 64 := by
  have at_ : 8 * door < 0x1000000 := by omega
  have index : 8 * door / 8 = door := by omega
  simp only [deviceWord, deviceOffset ret at_, retOf_device ret at_, index, if_pos (show 8 * door < 0x8000 by omega)]

/-- The posters of a queue after a post: the agent of every command that PIDX passes first (R306). -/
def newPosters (q : CmdQueue) (pidx : W32) (who : Poster) : SMap Poster :=
  ((upFrom 0 (pidx - q.cidx).toNat).map (fun i => (q.cidx.toNat + i) % 2 ^ 32)).foldl
    (fun p i => if (mget? p i).isSome then p else mput p i who) q.posters

theorem mget?_foldl_unlisted {α : Type} (x : α) (l : List Nat) (m : SMap α) (j : Nat) :
    mget? (l.foldl (fun p i => if (mget? p i).isSome then p else mput p i x) m) j = if j ∈ l ∧ mget? m j = none then some x else mget? m j := by
  induction l generalizing m with
  | nil => simp
  | cons i l ih =>
    rw [List.foldl_cons, ih]
    by_cases listed : (mget? m i).isSome
    · have ne : mget? m j = none → j ≠ i := fun none_ e => by simp [← e, none_] at listed
      by_cases none_ : mget? m j = none <;> simp [listed, none_, ne]
    · have none_ : mget? m i = none := by simpa using listed
      by_cases e : j = i
      · subst e; simp [none_]
      · simp [none_, mget?_mput_ne, e]

theorem newPosters_fresh {q : CmdQueue} {pidx : W32} {i : Nat} (who : Poster)
    (passed : ∃ j, j < (pidx - q.cidx).toNat ∧ i = (q.cidx.toNat + j) % 2 ^ 32) (unlisted : mget? q.posters i = none) :
    mget? (newPosters q pidx who) i = some who := by
  obtain ⟨j, below, e⟩ := passed
  have member : i ∈ (upFrom 0 (pidx - q.cidx).toNat).map (fun i => (q.cidx.toNat + i) % 2 ^ 32) :=
    List.mem_map.mpr ⟨j, mem_upFrom.mpr (by omega), e.symm⟩
  exact (mget?_foldl_unlisted who _ q.posters i).trans (if_pos ⟨member, unlisted⟩)

theorem newPosters_kept {q : CmdQueue} {pidx : W32} {i : Nat} (who : Poster)
    (h : (∀ j, j < (pidx - q.cidx).toNat → i ≠ (q.cidx.toNat + j) % 2 ^ 32) ∨ mget? q.posters i ≠ none) :
    mget? (newPosters q pidx who) i = mget? q.posters i := by
  refine (mget?_foldl_unlisted who _ q.posters i).trans (if_neg ?_)
  rintro ⟨member, unlisted⟩
  obtain ⟨j, below, e⟩ := List.mem_map.mp member
  rcases h with never | listed
  · exact never j (by have := mem_upFrom.mp below; omega) e.symm
  · exact listed unlisted

/-- A queue after a post that fits its ring. -/
def postedQueue (q : CmdQueue) (pidx : W32) (who : Poster) : CmdQueue := { q with pidx := pidx, posters := newPosters q pidx who }

/-- A command queue of a module becomes q. -/
def putQueue (k : Nat) (q : CmdQueue) (x : ModSt) : ModSt := { x with queues := mput x.queues k q }

theorem postTo_fits {s : State} {m k : Nat} {q : CmdQueue} {pidx : W32} (who : Poster) (known : mget? (s.mod m).queues k = some q)
    (fits : (pidx - q.cidx).toNat ≤ 2 ^ q.log2n) :
    postTo m k pidx who s = updMod m (putQueue k (postedQueue q pidx who)) s := by
  simp only [postTo, known, Nat.min_eq_left fits, if_neg (Nat.not_lt.mpr fits)]
  rfl

/-- A doorbell register takes a value. -/
def putDoorbell (door : Nat) (pidx : W32) (x : ModSt) : ModSt := { x with doorbells := mput x.doorbells door pidx }

section
variable {s : State} {m door k : Nat} {q : CmdQueue} {pidx : W32}

/-- The host's write of a doorbell that a queue names. -/
def rung (m door : Nat) (pidx : W32) (s : State) : State :=
  deviceChanged (paOf (m * 128 + 79) (deviceBase + 8 * door)) s (deviceChanged (paOf (m * 128 + 87) (deviceBase + 8 * door)) s
    (ringDoorbell m door pidx .host s))

theorem exec_doorbellWrite_rung (up : (s.mod m).hostUp = true) (names : doorQueue s m door = some k) :
    exec (.doorbellWrite m door pidx) s = .next (answer 0 (rung m door pidx s)) := by
  simp only [exec_doorbellWrite, execDoorbellWrite, hostReq_of_up _ up, hostDoorbell, names, rung]

variable (names : doorQueue s m door = some k) (known : mget? (s.mod m).queues k = some q) (fits : (pidx - q.cidx).toNat ≤ 2 ^ q.log2n)
include names known fits

theorem ringDoorbell_same (who : Poster) (same : mget (s.mod m).doorbells door 0 = pidx) :
    ringDoorbell m door pidx who s = updMod m (putQueue k (postedQueue q pidx who)) s := by
  simp only [ringDoorbell, if_pos same, names, postTo_fits who known fits]

theorem ringDoorbell_changed (who : Poster) (changed : mget (s.mod m).doorbells door 0 ≠ pidx) :
    ringDoorbell m door pidx who s = updMod m (putQueue k (postedQueue q pidx who))
      (wakeDoorbell m door (updMod m (putDoorbell door pidx) s)) := by
  have turned : (wakeDoorbell m door (updMod m (putDoorbell door pidx) s)).mod m = putDoorbell door pidx (s.mod m) := mod_updMod_self ..
  have queues : ((wakeDoorbell m door (updMod m (putDoorbell door pidx) s)).mod m).queues = (s.mod m).queues := by rw [turned]; rfl
  have still : doorQueue (wakeDoorbell m door (updMod m (putDoorbell door pidx) s)) m door = some k := by
    rw [← names, doorQueue, doorQueue, queues]
  rw [ringDoorbell, if_neg changed]
  change (match doorQueue (wakeDoorbell m door (updMod m (putDoorbell door pidx) s)) m door with
    | some k => postTo m k pidx who _
    | none => _) = _
  rw [still]
  exact postTo_fits who ((congrArg (mget? · k) queues).trans known) fits

/-- The register and the queue turn, and nothing else but watches. -/
theorem modTurns_rung : ModTurns s (setWatches s.watches (answer 0 (rung m door pidx s))) m { s.mod m with
    doorbells := if mget (s.mod m).doorbells door 0 = pidx then (s.mod m).doorbells else mput (s.mod m).doorbells door pidx
    queues := mput (s.mod m).queues k (postedQueue q pidx .host) } [.status 0] := by
  rw [setWatches_answer, rung, setWatches_deviceChanged, setWatches_deviceChanged]
  by_cases same : mget (s.mod m).doorbells door 0 = pidx
  · rw [if_pos same, ringDoorbell_same names known fits .host same]
    exact modTurns_answer m (putQueue k (postedQueue q pidx .host)) s 0
  · rw [if_neg same, ringDoorbell_changed names known fits .host same]
    have turned := mod_updMod_self m (putDoorbell door pidx) s
    have both := modTurns_tell (modTurns_trans (modTurns_updMod m (putDoorbell door pidx) s)
      (modTurns_updMod m (putQueue k (postedQueue q pidx .host)) (updMod m (putDoorbell door pidx) s))) (.status 0)
    rw [turned] at both
    exact both

/-- A changed doorbell wakes its watchers at both of its places. -/
theorem mem_watches_rung (inside : door < 4096) {w : Watch} : w ∈ (rung m door pidx s).watches ↔ w ∈ s.watches
    ∧ (mget (s.mod m).doorbells door 0 = pidx ∨ ∀ r ∈ [79, 87], overlaps w.base w.size (paOf (m * 128 + r) (deviceBase + 8 * door)) 8 = false) := by
  have word := fun r => device_word (m * 128 + r) (show 8 * door % 8 = 0 by omega)
  rw [rung, mem_deviceChanged, mem_deviceChanged, word, word]
  by_cases same : mget (s.mod m).doorbells door 0 = pidx
  · have kept : ∀ u : State, u.mods = (ringDoorbell m door pidx .host s).mods → ∀ r, modOf r = m →
        deviceWord s (paOf r (deviceBase + 8 * door)) = deviceWord u (paOf r (deviceBase + 8 * door)) := by
      intro u e r at_
      have turned : u.mod m = putQueue k (postedQueue q pidx .host) (s.mod m) := by
        rw [State.mod, e, ringDoorbell_same names known fits .host same]
        exact mod_updMod_self ..
      rw [deviceWord_doorbell inside, deviceWord_doorbell inside, at_, turned, putQueue]
    have high := kept _ rfl (m * 128 + 87) (by unfold modOf; omega)
    have low := kept (deviceChanged (paOf (m * 128 + 87) (deviceBase + 8 * door)) s (ringDoorbell m door pidx .host s))
      (mods_deviceChanged ..) (m * 128 + 79) (by unfold modOf; omega)
    have watches : (ringDoorbell m door pidx .host s).watches = s.watches := by rw [ringDoorbell_same names known fits .host same, updMod_watches]
    rw [watches]
    exact ⟨fun ⟨⟨here, _⟩, _⟩ => ⟨here, .inl same⟩, fun ⟨here, _⟩ => ⟨⟨here, .inl high⟩, .inl low⟩⟩
  · have woken : w ∈ (ringDoorbell m door pidx .host s).watches ↔ (w ∈ s.watches
        ∧ overlaps w.base w.size (paOf (m * 128 + 87) (deviceBase + 8 * door)) 8 = false)
        ∧ overlaps w.base w.size (paOf (m * 128 + 79) (deviceBase + 8 * door)) 8 = false := by
      rw [ringDoorbell_changed names known fits .host same, updMod_watches, wakeDoorbell, wakeUnit, wakeUnit, mem_wakeWatches, mem_wakeWatches,
        word, word, updMod_watches]
    rw [woken]
    simp only [same, false_or, List.forall_mem_cons, List.not_mem_nil, IsEmpty.forall_iff, implies_true, and_true]
    exact ⟨fun ⟨⟨⟨⟨here, high⟩, low⟩, _⟩, _⟩ => ⟨here, low, high⟩, fun ⟨here, low, high⟩ => ⟨⟨⟨⟨here, high⟩, low⟩, .inr high⟩, .inr low⟩⟩

end

end Sys2Proof.Proofs
end

section
/-! Host writes of event counters, completion counters and numbered registers (spec/15 R353 to R361; 16 R388, R395; log 20). -/

namespace Sys2Proof.Proofs

open Sys2Proof Sys2Proof.Machine Sys2Proof.Laws

/-- A write of a whole word at offset 0 leaves nothing of the old word. -/
theorem mergeWord_whole (old : W64) (v : Nat) : mergeWord old 0 8 v = BitVec.ofNat 64 v := by
  have mask : BitVec.ofNat 64 ((2 ^ (8 * 8) - 1) * 2 ^ (8 * 0)) = BitVec.allOnes 64 := by decide
  rw [mergeWord, mask]
  simp only [BitVec.not_allOnes, BitVec.and_zero, BitVec.zero_or, BitVec.and_allOnes, Nat.mul_zero, Nat.pow_zero, Nat.mul_one]

/-! ### Core event counters (16 R395) -/

/-- The offset of an event counter of a core in the device registers (R361). -/
def counterOffset (core idx : Nat) : Nat := 0x200000 + 64 * (coreFold core * 4 + coreMember core) + 8 * idx

theorem counterOffset_bounds {core idx : Nat} (fold : coreFold core < 34) (h : idx < 8) :
    0x200000 ≤ counterOffset core idx ∧ counterOffset core idx < 0x202200 := by
  unfold counterOffset coreMember
  omega

/-- The core and the counter that an offset names. -/
theorem counterOffset_names {core idx : Nat} (h : idx < 8) :
    coreKey (coreRet core) ((counterOffset core idx - 0x200000) / 64 / 4) ((counterOffset core idx - 0x200000) / 64 % 4) = core
    ∧ counterOffset core idx % 64 / 8 = idx ∧ counterOffset core idx % 8 = 0 := by
  unfold counterOffset coreKey coreRet coreMember coreFold
  omega

/-- Counter idx of a core reads value from now on (R395): CYCLES counts on from it. -/
def putCounter (idx : Nat) (value cycles : W64) (x : CoreSt) : CoreSt :=
  { x with counters := mput x.counters idx (if idx = 0 then value - cycles else value) }

theorem deviceWrite_counter {s : State} {core idx : Nat} (value : W64) (who : Poster) (fold : coreFold core < 34) (h : idx < 8) :
    deviceWrite (paOf (coreRet core) (deviceBase + counterOffset core idx)) 8 value.toNat who s =
      deviceChanged (paOf (coreRet core) (deviceBase + counterOffset core idx)) s (updCore core (putCounter idx value (cyclesOn s core)) s) := by
  obtain ⟨low, high⟩ := counterOffset_bounds fold h
  obtain ⟨names, counter, aligned⟩ := counterOffset_names (core := core) h
  have inside : counterOffset core idx < 0x1000000 := by omega
  simp only [deviceWrite, deviceOffset _ inside, retOf_device _ inside, device_mod_eight _ aligned, mergeWord_whole, BitVec.ofNat_toNat,
    BitVec.setWidth_eq, if_neg (show ¬ counterOffset core idx < 0x8000 by omega), if_neg (show ¬ counterOffset core idx < 0x102000 by omega),
    if_pos high, names, counter]
  rfl

theorem cyclesOn_updCore {f : CoreSt → CoreSt} (hf : ∀ x, (f x).dead = x.dead) (core : Nat) (s : State) (k : Nat) :
    cyclesOn (updCore core f s) k = cyclesOn s k := by
  have dead : ((updCore core f s).core k).dead = (s.core k).dead := by
    rw [core_updCore]; split_ifs with e
    · rw [hf, e]
    · rfl
  rw [cyclesOn, dead, updCore_ticks]
  rfl

/-- A counter that is written reads the value, and every other one what it read. -/
theorem coreCounter_putCounter (s : State) (core idx : Nat) (value : W64) (k i : Nat) :
    coreCounter (updCore core (putCounter idx value (cyclesOn s core)) s) k i = if k = core ∧ i = idx then value else coreCounter s k i := by
  have cycles := cyclesOn_updCore (f := putCounter idx value (cyclesOn s core)) (fun _ => rfl) core s k
  unfold coreCounter
  rw [cycles, core_updCore]
  by_cases here : k = core
  · subst here
    rw [if_pos rfl, putCounter, mget_mput]
    by_cases same : i = idx
    · subst same
      by_cases zero : i = 0 <;> simp [zero]
    · simp [same]
  · simp [here]

theorem uncounted_putCounter (s : State) (core idx : Nat) (value cycles : W64) (k : Nat) :
    ((updCore core (putCounter idx value cycles) s).core k).uncounted = (s.core k).uncounted := by
  rw [core_updCore]; split_ifs with e
  · rw [e]; rfl
  · rfl

theorem exec_coreCounterWrite_runs {s : State} {core idx : Nat} (value : W64) (up : (s.mod (modOf (coreRet core))).hostUp = true)
    (serves : inService s (coreRet core) = true) (h : idx < 8) (fold : coreFold core < 34) :
    exec (.coreCounterWrite core idx value) s = .next (answer 0 (deviceChanged (paOf (coreRet core) (deviceBase + counterOffset core idx)) s
      (updCore core (putCounter idx value (cyclesOn s core)) s))) := by
  have kept : ¬ (idx ≥ 8 ∨ coreFold core ≥ Config.folds ∨ inService s (coreRet core) = false) := by
    rw [serves, Config.folds]; simp; omega
  have place : deviceBase + 0x200000 + 64 * (coreFold core * 4 + coreMember core) + 8 * idx = deviceBase + counterOffset core idx := by
    unfold counterOffset; omega
  rw [exec_coreCounterWrite, execCoreCounterWrite, hostReq_of_up _ up, if_neg kept, place, deviceWrite_counter value .host fold h]

/-! ### Completion counters (16 R388) -/

section
variable {s : State} {ret q : Nat}

/-- A completion counter takes a value. -/
def putCounted (q : Nat) (w : W64) (r : RetSt) : RetSt := { r with ccnt := mput r.ccnt q w }

theorem deviceWord_ccnt (s : State) (ret : Nat) (h : q < 1024) : deviceWord s (paOf ret (deviceBase + (0x100000 + 8 * q))) = mget (s.ret ret).ccnt q 0 := by
  have inside : 0x100000 + 8 * q < 0x1000000 := by omega
  have index : (0x100000 + 8 * q - 0x100000) / 8 = q := by omega
  simp only [deviceWord, deviceOffset _ inside, retOf_device _ inside, if_neg (show ¬ 0x100000 + 8 * q < 0x8000 by omega),
    if_pos (show 0x100000 + 8 * q < 0x102000 by omega), index]

theorem deviceWrite_ccnt (who : Poster) (v : Nat) (h : q < 1024) : deviceWrite (paOf ret (deviceBase + (0x100000 + 8 * q))) 8 v who s =
    deviceChanged (paOf ret (deviceBase + (0x100000 + 8 * q))) s (updRet ret (putCounted q (BitVec.ofNat 64 v)) s) := by
  have inside : 0x100000 + 8 * q < 0x1000000 := by omega
  have index : (0x100000 + 8 * q - 0x100000) / 8 = q := by omega
  simp only [deviceWrite, deviceOffset _ inside, retOf_device _ inside, device_mod_eight ret (show (0x100000 + 8 * q) % 8 = 0 by omega), mergeWord_whole,
    if_neg (show ¬ 0x100000 + 8 * q < 0x8000 by omega), if_pos (show 0x100000 + 8 * q < 0x102000 by omega), index]
  rfl

theorem deviceAssigned_ccnt (h : q < 1024) : deviceAssigned (paOf ret (deviceBase + (0x100000 + 8 * q))) = true := by
  have inside : 0x100000 + 8 * q < 0x1000000 := by omega
  simp only [deviceAssigned, deviceClass, deviceOffset _ inside, if_neg (show ¬ 0x100000 + 8 * q < 0x8000 by omega),
    if_pos (show 0x100000 ≤ 0x100000 + 8 * q ∧ 0x100000 + 8 * q < 0x102000 by omega)]
  simp; omega

theorem hostDevice_ccnt (v : Nat) (h : q < 1024) : hostDevice (paOf ret (deviceBase + (0x100000 + 8 * q))) 8 v s =
    answer 0 (deviceChanged (paOf ret (deviceBase + (0x100000 + 8 * q))) s (updRet ret (putCounted q (BitVec.ofNat 64 v)) s)) := by
  have inside : 0x100000 + 8 * q < 0x1000000 := by omega
  have aligned := device_mod_eight ret (show (0x100000 + 8 * q) % 8 = 0 by omega)
  simp only [hostDevice, deviceOffset _ inside, deviceAssigned_ccnt h, aligned, ← deviceWrite_ccnt .host v h]
  rw [if_neg (by simp), if_neg (by omega), if_neg (by omega)]

end

/-! ### Numbered registers (15 R353 to R357; log 20) -/

section
variable {s : State} {ret : Nat} {size : Nat} {v : BitVec 256}

theorem exec_registerWrite_refused {loc : Nat} (up : (s.mod (modOf ret)).hostUp = true) (out : inService s ret = false) :
    exec (.registerWrite ret loc size v) s = .next (tell (.status 0x13) s) := by
  simp [execRegisterWrite, up, out, answer]

theorem exec_registerWrite_number {loc : Nat} (up : (s.mod (modOf ret)).hostUp = true) (serves : inService s ret = true) (below : loc < deviceBase) :
    exec (.registerWrite ret loc size v) s = .next (hostRegister ret loc (v.toNat % 2 ^ (8 * size)) s) := by
  have outside : ¬ (deviceBase ≤ loc ∧ loc < deviceBase + 0x1000000) := fun h => absurd h.1 (by omega)
  simp [execRegisterWrite, up, serves, outside]

theorem exec_registerWrite_ccnt {q : Nat} (up : (s.mod (modOf ret)).hostUp = true) (serves : inService s ret = true) (h : q < 1024) :
    exec (.registerWrite ret (deviceBase + 0x100000 + 8 * q) 8 v) s = .next (answer 0 (deviceChanged
      (paOf ret (deviceBase + 0x100000 + 8 * q)) s (updRet ret (putCounted q (v.extractLsb' 0 64)) s))) := by
  have inside : deviceBase ≤ deviceBase + 0x100000 + 8 * q ∧ deviceBase + 0x100000 + 8 * q < deviceBase + 0x1000000 := by omega
  have low : BitVec.ofNat 64 (v.toNat % 2 ^ (8 * 8)) = v.extractLsb' 0 64 := by
    apply BitVec.eq_of_toNat_eq; simp
  rw [exec_registerWrite, execRegisterWrite, hostReq_of_up _ up, serves, if_neg (by decide), if_pos inside, Nat.add_assoc, hostDevice_ccnt _ h, low]

end

section
variable (s : State) (ret n : Nat)

theorem hostRegister_wtime : hostRegister ret 0x41 n s = answer 0 (startSlew ret (((n % 2 ^ 64 : Nat) : Int) - (wtime s ret : Int)) s) := rfl

theorem hostRegister_skewb : hostRegister ret 0x42 n s = answer 0 (updMod (modOf ret) (fun x => { x with skewb := BitVec.ofNat 32 n }) s) := rfl

theorem hostRegister_wmlim : hostRegister ret 0x43 n s = answer 0 (putWmlim ret (BitVec.ofNat 32 n) s) := rfl

theorem hostRegister_policy : hostRegister ret 0x4000 n s = answer 0 (updRet ret (fun r => { r with
    policy := BitVec.ofNat 32 (bitsOf n 15 4 * 16 + (if n % 4 = 3 then r.policy.toNat % 4 else n % 4)) }) s) := rfl

variable {e : Nat}

theorem hostRegister_meshTab (h : e < 128) : hostRegister ret (0x1000 + e) n s =
    answer 0 (updRet ret (fun r => { r with meshTab := mput r.meshTab e (BitVec.ofNat 8 n) }) s) := by
  simp (disch := omega) only [hostRegister, plainRegister, if_pos, if_neg, Nat.add_sub_cancel_left]

theorem hostRegister_modTab (h : e < 1024) : hostRegister ret (0x2000 + e) n s =
    answer 0 (updRet ret (fun r => { r with modTab := mput r.modTab e (BitVec.ofNat 32 (n % 2 ^ 25)) }) s) := by
  simp (disch := omega) only [hostRegister, plainRegister, if_pos, if_neg, Nat.add_sub_cancel_left]

theorem hostRegister_rings (h : e < 640) : hostRegister ret (0x5000 + e) n s =
    answer 0 (updRing ret e (fun v => v &&& ~~~(BitVec.ofNat 32 (bitsOf n 14 13 * 2 ^ 13))) s) := by
  simp (disch := omega) only [hostRegister, plainRegister, if_pos, if_neg, Nat.add_sub_cancel_left]

theorem hostRegister_groupList (h : e < 32) (empty : (s.mod (modOf ret)).regions = []) : hostRegister ret (0x3000 + e) n s =
    answer 0 (updRet ret (fun r => { r with
      groupList := mput r.groupList e (BitVec.ofNat 16 (n % 1024 + bitsOf n 15 15 * 0x8000)) }) s) := by
  simp (disch := omega) only [hostRegister, if_pos, if_neg, Nat.add_sub_cancel_left, empty, ne_eq, not_true_eq_false, if_false]

/-- The wafer group list does not change while a region stands (R359). -/
theorem hostRegister_groupList_refused (h : e < 32) (held : (s.mod (modOf ret)).regions ≠ []) :
    hostRegister ret (0x3000 + e) n s = answer 0x13 s := by
  simp (disch := omega) only [hostRegister, if_pos, if_neg, held, ne_eq, not_false_eq_true, if_true]

variable {n}

theorem hostRegister_threshold (low : 300 ≤ n) (high : n ≤ 415) :
    hostRegister ret 0x6000 n s = answer 0 (updRet ret (fun r => { r with threshold := n }) s) :=
  if_neg (show ¬ (n < 300 ∨ n > 415) by omega)

theorem hostRegister_threshold_refused (h : n < 300 ∨ 415 < n) : hostRegister ret 0x6000 n s = answer 0x13 s := if_pos h

end

theorem retTurns_putWmlim (s : State) (ret : Nat) (v : W32) :
    RetTurns s (answer 0 (putWmlim ret v s)) ret (if v.toNat < 3200 then s.ret ret else { s.ret ret with wmlim := v }) [.status 0] := by
  unfold putWmlim
  split_ifs
  · exact retTurns_answer_same ret s 0
  · exact retTurns_answer ret _ s 0

end Sys2Proof.Proofs
end

section
/-! Host writes of tables (spec/15 R353 to R359; 16 R358; 18 R444), measurements and reports (18 R449, R450), the identity (01 R31 to R35), and the
obligation that they make up. -/

namespace Sys2Proof.Proofs

open Sys2Proof Sys2Proof.Machine Sys2Proof.Laws

/-! ### Lengths of tables and reports -/

theorem length_padTo {n : Nat} {bs : List Byte} (h : bs.length ≤ n) : (padTo n bs).length = n := by
  rw [padTo, List.length_append, List.length_replicate]; omega

theorem length_padTo_take (n : Nat) (bs : List Byte) : (padTo n (bs.take n)).length = n := length_padTo (List.length_take_le n bs)

theorem length_flatMap_const {α β : Type} {f : α → List β} {n : Nat} (l : List α) (h : ∀ a, (f a).length = n) : (l.flatMap f).length = l.length * n := by
  induction l with
  | nil => simp
  | cons a l ih => rw [List.flatMap_cons, List.length_append, h, ih, List.length_cons, Nat.succ_mul, Nat.add_comm]

theorem length_siteRecord (n : Nat) (st : Site) (folds : SMap Nat × NSet) : (siteRecord n st folds).length = 64 :=
  length_padTo (by simp [length_bytesLE, length_upFrom])

theorem length_lmapEntry (v : W32) : (lmapEntry v).length = 4 := length_bytesLE 4 _

theorem length_identityTable (serial : Nat) (site : Nat → Site) (folds : Nat → SMap Nat × NSet) (lmap : Nat → Nat → Nat → W32) :
    (identityTable serial site folds lmap).length = 0xC7C0 + 2420 := by
  have sites : (siteList.flatMap (fun n => siteRecord n (site n) (folds n))).length = 84 * 64 :=
    length_flatMap_const siteList fun n => length_siteRecord n _ _
  have cores : (siteList.flatMap (fun n => (upFrom 0 136).flatMap (fun c => lmapEntry (lmap n (c / 4) (c % 4))))).length = 84 * (136 * 4) :=
    length_flatMap_const siteList fun n => (length_flatMap_const _ fun c => length_lmapEntry _).trans (by rw [length_upFrom])
  have header : (padTo 0x40 (padTo 0x10 (bytesLE 2 1 ++ bytesLE 2 84) ++ bytesLE 16 serial)).length = 0x40 :=
    length_padTo (by rw [List.length_append, length_padTo (by simp [length_bytesLE]), length_bytesLE]; omega)
  rw [identityTable, List.length_append, length_padTo_take, length_padTo]
  rw [List.length_append, List.length_append, sites, cores, header]

theorem length_attestation (s : State) (ret : Nat) (nonce : BitVec 256) : (attestation s ret nonce).length = 7696 := by
  have meas : ((upFrom 0 8).flatMap (fun i => bytesLE 32 (mget (s.ret ret).meas i 0).toNat)).length = 8 * 32 :=
    length_flatMap_const _ fun i => length_bytesLE 32 _
  have head : (padTo 8 (bytesLE 2 1 ++ bytesLE 1 (ret % 128))).length = 8 := length_padTo (by simp [length_bytesLE])
  simp only [attestation, List.length_append, length_padTo_take, meas, head, length_bytesLE]

/-! ### Peer descriptors (18 R444) -/

/-- The bits of a peer descriptor that are not reserved. -/
def peerFields : BitVec 256 :=
  1 ||| (0xFFF <<< 16) ||| (0xFFFFFF <<< 32) ||| (0x3FF <<< 64) ||| (((2 ^ 128 - 1 : Nat) : BitVec 256) <<< 128)

/-- A field of n bits at a place of a word. -/
theorem getLsbD_field (w n k i : Nat) : (BitVec.ofNat w (2 ^ n - 1) <<< k).getLsbD i = (decide (i < w) && decide (k ≤ i ∧ i < k + n)) := by
  rw [BitVec.getLsbD_shiftLeft, BitVec.getLsbD_ofNat, Nat.testBit_two_pow_sub_one, Bool.eq_iff_iff]
  simp only [Bool.and_eq_true, Bool.not_eq_true', decide_eq_true_eq, decide_eq_false_iff_not]
  omega

theorem peerFields_eq : peerFields = BitVec.ofNat 256 (2 ^ 1 - 1) <<< 0 ||| BitVec.ofNat 256 (2 ^ 12 - 1) <<< 16 ||| BitVec.ofNat 256 (2 ^ 24 - 1) <<< 32
    ||| BitVec.ofNat 256 (2 ^ 10 - 1) <<< 64 ||| BitVec.ofNat 256 (2 ^ 128 - 1) <<< 128 := by decide

theorem getLsbD_peerFields {i : Nat} (h : i < 256) : peerFields.getLsbD i =
    decide (i = 0 ∨ (16 ≤ i ∧ i < 28) ∨ (32 ≤ i ∧ i < 56) ∨ (64 ≤ i ∧ i < 74) ∨ 128 ≤ i) := by
  simp only [peerFields_eq, BitVec.getLsbD_or, getLsbD_field, h, decide_true, Bool.true_and]
  rw [Bool.eq_iff_iff]
  simp only [Bool.or_eq_true, decide_eq_true_eq, and_true]
  omega

/-- A descriptor of a peer becomes v, its reserved bits ignored. -/
def putDescriptor (p : Nat) (v : BitVec 256) (r : RetSt) : RetSt := { r with peers := mput r.peers p (v &&& peerFields) }

/-- The watchers of some words of a descriptor are woken. -/
def wakeWords (base : Nat) (words : List Nat) (b s : State) : State := words.foldl (fun u i => deviceChanged (base + 8 * i) b u) s

theorem setWatches_wakeWords (base : Nat) (words : List Nat) (b s : State) (ws : List Watch) :
    setWatches ws (wakeWords base words b s) = setWatches ws s :=
  foldl_keep (setWatches ws) _ (fun u i => setWatches_deviceChanged (base + 8 * i) b u ws) words s

/-- Where the descriptor of a peer stands (R361). -/
def peerBase (ret p : Nat) : Nat := paOf ret (deviceBase + 0x300000 + 32 * p)

section
variable {s : State} {ret p : Nat} {v : BitVec 256}

theorem writePeer_idle (serves : inService s ret = true) (h : p < 4096)
    (idle : ∀ op o, (op, o) ∈ s.works → o.ret = ret → o.wr.toPeer = true → o.wr.peer ≠ p) :
    ∃ t, writePeer ret p v s = answer 0 t ∧ RetTurns s (setWatches s.watches (answer 0 t)) ret (putDescriptor p v (s.ret ret)) [.status 0] := by
  have free : s.works.any (fun e => e.2.ret == ret && e.2.wr.toPeer && e.2.wr.peer == p) = false := by
    rw [List.any_eq_false]
    rintro ⟨op, o⟩ member
    have := idle op o member
    simpa using this
  refine ⟨wakeWords (peerBase ret p) (upFrom 0 4) s (updRet ret (putDescriptor p v) s), ?_, ?_⟩
  · rw [writePeer, free, if_neg (by rw [serves]; simp; omega), if_neg (by decide)]
    rfl
  · rw [setWatches_answer, setWatches_wakeWords]
    exact retTurns_answer ret (putDescriptor p v) s 0

theorem writePeer_busy {op : Nat} {o : WorkOp} (serves : inService s ret = true) (h : p < 4096) (member : (op, o) ∈ s.works) (mine : o.ret = ret)
    (toPeer : o.wr.toPeer = true) (peer : o.wr.peer = p) : writePeer ret p v s = answer 0x12 s := by
  have busy : s.works.any (fun e => e.2.ret == ret && e.2.wr.toPeer && e.2.wr.peer == p) = true :=
    List.any_eq_true.mpr ⟨(op, o), member, by simp [mine, toPeer, peer]⟩
  rw [writePeer, busy, if_neg (by rw [serves]; simp; omega), if_pos rfl]

end

/-! ### Barrier trees (15 R358) -/

/-- A router's entry for a tree before the host has written it. -/
def oldTree (s : State) (ret tree : Nat) : Tree := mget (s.ret ret).trees tree ⟨0, 0, 0, 0, 0, 0, 0, [], false⟩

/-- The entry that a host write makes of an old one: a reserved code of UP or SCOPE leaves the field (log 21). -/
def writtenTree (old : Tree) (v : Nat) : Tree where
  up := if bitsOf v 2 0 = 5 ∨ bitsOf v 2 0 = 6 then old.up else bitsOf v 2 0
  down := bitsOf v 8 3
  rootreg := bitsOf v 27 16
  scope := if bitsOf v 31 28 > 10 then old.scope else bitsOf v 31 28
  expect := bitsOf v 63 32
  count := 0
  gen := old.gen
  held := []
  lost := false

section
variable {s : State} {ret tree : Nat} {v : BitVec 128}

theorem exec_barrierTreeWrite_busy (up : (s.mod (modOf ret)).hostUp = true) (serves : inService s ret = true) (h : tree < 256)
    (busy : treeBusy s ret tree = true) : exec (.barrierTreeWrite ret tree v) s = .next (tell (.status 0x12) s) := by
  rw [exec_barrierTreeWrite, execBarrierTreeWrite, hostReq_of_up _ up, if_neg (by rw [serves]; simp; omega), if_pos busy]
  rfl

variable (up : (s.mod (modOf ret)).hostUp = true) (serves : inService s ret = true) (h : tree < 256) (idle : treeBusy s ret tree = false)
include up serves h idle

theorem exec_barrierTreeWrite_taken (legal : v.toNat % 2 ^ 64 = 0 ∨ 5 ≤ (writtenTree (oldTree s ret tree) v.toNat).scope) :
    exec (.barrierTreeWrite ret tree v) s = .next (answer 0 (putTree ret tree (writtenTree (oldTree s ret tree) v.toNat) s)) := by
  have kept : ¬ (v.toNat % 2 ^ 64 ≠ 0 ∧ (writtenTree (oldTree s ret tree) v.toNat).scope < 5) := by omega
  rw [exec_barrierTreeWrite, execBarrierTreeWrite, hostReq_of_up _ up, if_neg (by rw [serves]; simp; omega), if_neg (by simp [idle])]
  exact congrArg Host.Outcome.next (if_neg kept)

theorem exec_barrierTreeWrite_refused (some_ : v.toNat % 2 ^ 64 ≠ 0) (low : (writtenTree (oldTree s ret tree) v.toNat).scope < 5) :
    exec (.barrierTreeWrite ret tree v) s = .next (tell (.status 0x13) s) := by
  rw [exec_barrierTreeWrite, execBarrierTreeWrite, hostReq_of_up _ up, if_neg (by rw [serves]; simp; omega), if_neg (by simp [idle])]
  exact congrArg Host.Outcome.next (if_pos ⟨some_, low⟩)

end

/-- An entry of zeros is absent. -/
theorem treeOf_zeros {s : State} {ret tree v : Nat} (old : Tree) (zeros : v % 2 ^ 64 = 0) :
    treeOf (answer 0 (putTree ret tree (writtenTree old v) s)) ret tree = none := by
  have scope : (writtenTree old v).scope = 0 := by
    have code : bitsOf v 31 28 = 0 := by unfold bitsOf; omega
    rw [writtenTree, code]; rfl
  have entry : mget? ((answer 0 (putTree ret tree (writtenTree old v) s)).ret ret).trees tree = some (writtenTree old v) := by
    rw [show (answer 0 (putTree ret tree (writtenTree old v) s)).ret ret = (putTree ret tree (writtenTree old v) s).ret ret from rfl, putTree,
      ret_updRet_self, mget?_mput_self]
  rw [treeOf, entry]
  simp [scope]

/-! ### The module's number (01 R31) -/

/-- A module takes a number, and keeps its serial identity (R356). -/
def numbered (serial n : Nat) (x : ModSt) : ModSt := { x with modid := n, identity := { x.identity with serial := some serial } }

section
variable {s : State} {m : Nat}

theorem exec_writeModid_same (up : (s.mod m).hostUp = true) (h : m < 1024) (empty : (s.mod m).regions = []) :
    exec (.writeModid m m) s = .next (answer 0 (updMod m (numbered (serialOf (s.mod m) m) m) s)) := by
  rw [exec_writeModid, execWriteModid, hostReq_of_up _ up, if_neg (by simp; omega), if_neg (by simp [empty]), if_pos rfl]
  rfl

variable {n : Nat} (up : (s.mod m).hostUp = true) (h : n < 1024) (other : n ≠ m) (unused : mget? s.mods n = none)
include up h unused

theorem exec_writeModid_held (held : (s.mod m).regions ≠ []) : exec (.writeModid m n) s = .next (tell (.status 0x12) s) := by
  rw [exec_writeModid, execWriteModid, hostReq_of_up _ up, if_neg (by simp [unused]; omega), if_pos held]
  rfl

include other

theorem exec_writeModid_moves (empty : (s.mod m).regions = []) :
    exec (.writeModid m n) s = .next (answer 0 (updMod n (numbered (serialOf (s.mod m) m) n) (renameModule m n s))) := by
  rw [exec_writeModid, execWriteModid, hostReq_of_up _ up, if_neg (by simp [unused]; omega), if_neg (by simp [empty]), if_neg other]
  rfl

end

end Sys2Proof.Proofs
end

section
/-! The obligation over the host's registers and tables, from the lemmas of its parts. -/

namespace Sys2Proof.Proofs

open Sys2Proof Sys2Proof.Machine Sys2Proof.Laws

/-! ### Frames of the written counters -/

/-- A change of a register's value changes nothing but watches. -/
theorem deviceChanged_eq (pa : Nat) (b s : State) : ∃ ws, deviceChanged pa b s = setWatches ws s := by
  unfold deviceChanged
  split
  · exact ⟨s.watches, rfl⟩
  · exact ⟨_, rfl⟩

/-- A written event counter reads the value, every other one what it read, and nothing else differs but watches. -/
theorem coreCounterWrite_turns (s : State) (core idx : Nat) (value : W64) (ws : List Watch) :
    let t := answer 0 (setWatches ws (updCore core (putCounter idx value (cyclesOn s core)) s))
    { t with cores := s.cores, watches := s.watches, hostOut := s.hostOut } = s ∧ t.hostOut = s.hostOut ++ [.status 0]
    ∧ (∀ k, (t.core k).uncounted = (s.core k).uncounted)
    ∧ ∀ k i, coreCounter t k i = if k = core ∧ i = idx then value else coreCounter s k i :=
  ⟨rfl, rfl, uncounted_putCounter s core idx value (cyclesOn s core), coreCounter_putCounter s core idx value⟩

/-- A host write of a doorbell that a queue names: the register and the queue turn, and a changed register wakes its watchers (R306, R361). -/
theorem doorbellWrite_turns {s : State} {m door k : Nat} {q : CmdQueue} {pidx : W32} (up : (s.mod m).hostUp = true) (inside : door < 4096)
    (names : doorQueue s m door = some k) (known : mget? (s.mod m).queues k = some q) (fits : (pidx - q.cidx).toNat ≤ 2 ^ q.log2n) :
    ∃ t, exec (.doorbellWrite m door pidx) s = .next (answer 0 t) ∧ ModTurns s (setWatches s.watches (answer 0 t)) m { s.mod m with
        doorbells := if mget (s.mod m).doorbells door 0 = pidx then (s.mod m).doorbells else mput (s.mod m).doorbells door pidx
        queues := mput (s.mod m).queues k (postedQueue q pidx .host) } [.status 0]
      ∧ ∀ w, w ∈ t.watches ↔ w ∈ s.watches ∧ (mget (s.mod m).doorbells door 0 = pidx
          ∨ ∀ r ∈ [79, 87], overlaps w.base w.size (paOf (m * 128 + r) (deviceBase + 8 * door)) 8 = false) :=
  ⟨rung m door pidx s, exec_doorbellWrite_rung up names, modTurns_rung names known fits, fun _ => mem_watches_rung names known fits inside⟩

/-- A host write of a completion counter: it turns, and a changed one wakes its watchers (R361, R388). -/
theorem ccntWrite_turns {s : State} {ret q : Nat} {v : BitVec 256} (up : (s.mod (modOf ret)).hostUp = true) (serves : inService s ret = true)
    (h : q < 1024) : ∃ t, exec (.registerWrite ret (deviceBase + 0x100000 + 8 * q) 8 v) s = .next (answer 0 t)
      ∧ RetTurns s (setWatches s.watches (answer 0 t)) ret (putCounted q (v.extractLsb' 0 64) (s.ret ret)) [.status 0]
      ∧ ∀ w, w ∈ t.watches ↔ w ∈ s.watches ∧ (mget (s.ret ret).ccnt q 0 = v.extractLsb' 0 64
          ∨ overlaps w.base w.size (paOf ret (deviceBase + 0x100000 + 8 * q)) 8 = false) := by
  refine ⟨_, exec_registerWrite_ccnt up serves h, ?_, fun w => ?_⟩
  · rw [setWatches_answer, setWatches_deviceChanged]
    exact retTurns_answer ret (putCounted q (v.extractLsb' 0 64)) s 0
  · have counted : mget ((updRet ret (putCounted q (v.extractLsb' 0 64)) s).ret ret).ccnt q 0 = v.extractLsb' 0 64 := by
      rw [ret_updRet_self, putCounted, mget_mput_self]
    rw [mem_deviceChanged, Nat.add_assoc, device_word ret (show (0x100000 + 8 * q) % 8 = 0 by omega), deviceWord_ccnt s ret h,
      deviceWord_ccnt _ ret h, counted, updRet_watches]

/-- Settles O50, request by request. Refused requests are answered with a status where the spec names none (log 12); the rest of the entry of a
tree and of the Error Policy Table is as log 21, 29 and 31 say. -/
theorem hostRegistersAndTables : Obligations.HostRegistersAndTables := by
  unfold Obligations.HostRegistersAndTables
  intro s m up
  refine ⟨fun door pidx k q inside names known fits => ?doorbell, fun core idx value at_ serves h fold => ?counter, fun ret at_ out => ?refused,
    fun ret at_ serves => ?served, fun i v p known => ?policy, ?identity, fun h empty => ?own, fun n h other unused => ?moved⟩
  case doorbell =>
    obtain ⟨t, runs, turns, watched⟩ := doorbellWrite_turns up inside names known fits
    exact ⟨answer 0 t, newPosters q pidx .host, runs, turns, fun i => newPosters_fresh .host, fun i => newPosters_kept .host, watched⟩
  case counter =>
    subst at_
    have runs := exec_coreCounterWrite_runs value up serves h fold
    obtain ⟨ws, changed⟩ := deviceChanged_eq (paOf (coreRet core) (deviceBase + counterOffset core idx)) s
      (updCore core (putCounter idx value (cyclesOn s core)) s)
    rw [changed] at runs
    exact ⟨_, runs, coreCounterWrite_turns s core idx value ws⟩
  case refused =>
    subst at_
    exact ⟨fun loc size v => exec_registerWrite_refused up out, fun q v => by simp [execEndpointTableWrite, up, out, answer],
      fun p v => by simp [execPeerDescriptorWrite, up, writePeer, out, answer], fun tree v => by simp [execBarrierTreeWrite, up, out, answer]⟩
  case served =>
    subst at_
    refine ⟨fun size v => ?numbers, fun q v h => ?ccnt, fun q v h empty => ?endpoint, fun q v h used => ?endpointBusy, fun p v h idle => ?peer,
      fun p v op o h member mine toPeer peer => ?peerBusy, fun tree v h busy => exec_barrierTreeWrite_busy up serves h busy,
      fun tree v h idle => ⟨fun legal => ?tree, fun some_ low => exec_barrierTreeWrite_refused up serves h idle some_ low⟩,
      fun n low high free unmapped => ?wpart, fun n low high held => ?wpartBusy, fun i value low high => ?measurement,
      fun nonce => ⟨?report, length_attestation s ret nonce⟩⟩
    case numbers =>
      have numbered : ∀ {loc : Nat}, loc < deviceBase → ∀ {t : State}, hostRegister ret loc (v.toNat % 2 ^ (8 * size)) s = t →
          exec (.registerWrite ret loc size v) s = .next t := fun below _ e =>
        (exec_registerWrite_number up serves below).trans (congrArg Host.Outcome.next e)
      have below : ∀ {loc : Nat}, loc < 0x8000 → loc < deviceBase := fun h => by unfold deviceBase; omega
      refine ⟨⟨_, numbered (below (by omega)) (hostRegister_wtime s ret _), wtime_startSlew ret _ s, retTurns_answer ret _ s 0⟩,
        ⟨_, numbered (below (by omega)) (hostRegister_skewb s ret _), modTurns_answer _ _ s 0⟩,
        ⟨_, numbered (below (by omega)) (hostRegister_wmlim s ret _), ?_⟩,
        fun e h => ⟨_, numbered (below (by omega)) (hostRegister_meshTab s ret _ h), retTurns_answer ret _ s 0⟩,
        fun e h => ⟨_, numbered (below (by omega)) (hostRegister_modTab s ret _ h), retTurns_answer ret _ s 0⟩,
        fun e h empty => ⟨_, numbered (below (by omega)) (hostRegister_groupList s ret _ h empty), retTurns_answer ret _ s 0⟩,
        fun e h held => numbered (below (by omega)) (hostRegister_groupList_refused s ret _ h held),
        ⟨_, numbered (below (by omega)) (hostRegister_policy s ret _), retTurns_answer ret _ s 0⟩,
        fun e h => ⟨_, numbered (below (by omega)) (hostRegister_rings s ret _ h), retTurns_answer ret _ s 0⟩,
        fun low high => ⟨_, numbered (below (by omega)) (hostRegister_threshold s ret low high), retTurns_answer ret _ s 0⟩,
        fun h => numbered (below (by omega)) (hostRegister_threshold_refused s ret h)⟩
      have wmlim := retTurns_putWmlim s ret (BitVec.ofNat 32 (v.toNat % 2 ^ (8 * size)))
      rwa [BitVec.toNat_ofNat] at wmlim
    case ccnt =>
      obtain ⟨t, runs, turns, watched⟩ := ccntWrite_turns (v := v) up serves h
      exact ⟨answer 0 t, runs, turns, watched⟩
    case endpoint =>
      refine ⟨answer 0 (updRet ret (fun r => { r with endpoint := mput r.endpoint q (v &&& 0x1FFF) }) s), ?_, retTurns_answer ret _ s 0⟩
      simp [execEndpointTableWrite, up, serves, empty, h]
    case endpointBusy => simp [execEndpointTableWrite, up, serves, used, answer, h]
    case peer =>
      obtain ⟨t, written, turns⟩ := writePeer_idle (v := v) serves h idle
      refine ⟨answer 0 t, v &&& peerFields, ?_, turns, fun i h => by rw [BitVec.getLsbD_and, getLsbD_peerFields h]⟩
      rw [exec_peerDescriptorWrite, execPeerDescriptorWrite, hostReq_of_up _ up, written]
    case peerBusy =>
      rw [exec_peerDescriptorWrite, execPeerDescriptorWrite, hostReq_of_up _ up, writePeer_busy serves h member mine toPeer peer]
      rfl
    case tree =>
      exact ⟨_, writtenTree (oldTree s ret tree) v.toNat, exec_barrierTreeWrite_taken up serves h idle legal, retTurns_answer ret _ s 0,
        rfl, rfl, rfl, rfl, rfl, rfl, rfl, rfl, rfl, treeOf_zeros _⟩
    case wpart => simp [execWpartWrite, up, serves, free, unmapped, answer, Nat.not_lt.mpr low, Nat.not_lt.mpr high]
    case wpartBusy =>
      have held : ((s.ret ret).cpartTo.isSome || scratchMapped s ret) = true := by
        rcases held with taken | mapped
        · simp [Option.isSome_iff_ne_none.mpr taken]
        · simp [mapped]
      simp only [exec_wpartWrite, execWpartWrite, hostReq_of_up _ up, held, if_true, if_neg (show ¬ (n < 4 ∨ n > 16 ∨ inService s ret = false) by
        rw [serves]; simp; omega)]
      rfl
    case measurement =>
      refine ⟨answer 0 (updRet ret (fun r => { r with meas := mput r.meas i (sha3 (bytesLE 32 (mget (s.ret ret).meas i 0).toNat
        ++ bytesLE 32 (sha3 (bytesLE 32 value.toNat)).toNat)) }) s), ?_, retTurns_answer ret _ s 0⟩
      simp [execExtendMeasurement, up, serves, Nat.not_lt.mpr low, Nat.not_lt.mpr high]
    case report => simp [execAttestationRequest, up, serves]
  case policy =>
    refine ⟨fun kind action => ?_, fun differs => ?_⟩
    · refine ⟨answer 0 (updMod m (fun x => { x with
        policyTab := mput x.policyTab i { p with count := bitsOf v.toNat 63 32, window := bitsOf v.toNat 127 64 } }) s), _, ?_,
        modTurns_answer m _ s 0, rfl⟩
      simp [execErrorPolicyWrite, up, known, kind, action]
    · simp only [exec_errorPolicyWrite, execErrorPolicyWrite, hostReq_of_up _ up, known, if_pos differs]
      rfl
  case identity => exact ⟨by simp [execReadIdentity, up], length_identityTable ..⟩
  case own => exact ⟨_, exec_writeModid_same up h empty, modTurns_answer m (numbered (serialOf (s.mod m) m) m) s 0⟩
  case moved =>
    refine ⟨exec_writeModid_held up h unused, fun empty => ⟨_, exec_writeModid_moves up h other unused empty, ?_, ?_, rfl⟩⟩
    · exact congrArg ModSt.modid (mod_updMod_self n (numbered (serialOf (s.mod m) m) n) (renameModule m n s))
    · exact congrArg (serialOf · n) (mod_updMod_self n (numbered (serialOf (s.mod m) m) n) (renameModule m n s))

end Sys2Proof.Proofs
end


section
/-! The two-bit fields of planes and mesh ports (spec/05 R139), and the links of a router (18 R427, R428): what a change of one shows at each end. -/

namespace Sys2Proof.Proofs

open Sys2Proof Sys2Proof.Machine Sys2Proof.Laws

/-! ### Two-bit fields -/

theorem bitsOf_putTwo (b : BitVec 8) {p q v : Nat} (hp : p < 4) (hq : q < 4) (hv : v < 4) :
    bitsOf (putTwo b p v).toNat (2 * q + 1) (2 * q) = if q = p then v else bitsOf b.toNat (2 * q + 1) (2 * q) := by
  have bound := b.isLt
  unfold putTwo bitsOf
  rw [BitVec.toNat_ofNat]
  generalize b.toNat = n at bound ⊢
  interval_cases p <;> interval_cases q <;> norm_num <;> omega

/-- A field that has its value already leaves the byte as it is. -/
theorem putTwo_same (b : BitVec 8) (p : Nat) : putTwo b p (bitsOf b.toNat (2 * p + 1) (2 * p)) = b := by
  have small : bitsOf b.toNat (2 * p + 1) (2 * p) < 4 := by
    rw [bitsOf, show 2 * p + 1 + 1 - 2 * p = 2 by omega]; omega
  have within : bitsOf b.toNat (2 * p + 1) (2 * p) * 2 ^ (2 * p) ≤ b.toNat := by
    rw [bitsOf, ← Nat.le_div_iff_mul_le (by positivity)]
    exact Nat.mod_le _ _
  rw [putTwo, Nat.mod_eq_of_lt small, Nat.sub_add_cancel within]
  exact BitVec.ofNat_toNat ..

theorem putTwo_eq_self_iff (b : BitVec 8) {p v : Nat} (hp : p < 4) (hv : v < 4) : putTwo b p v = b ↔ bitsOf b.toNat (2 * p + 1) (2 * p) = v := by
  refine ⟨fun e => ?_, fun e => e ▸ putTwo_same b p⟩
  have field := bitsOf_putTwo b hp hp hv
  rwa [if_pos rfl, e] at field

/-! ### LSTATE (R139) -/

/-- The two bytes change at one instant, and TGEN counts once if either differs. -/
theorem setLstate_eq (plane mesh : BitVec 8) (r : RetSt) : setLstate plane mesh r =
    { r with plane := plane, mesh := mesh, tgen := if plane = r.plane ∧ mesh = r.mesh then r.tgen else r.tgen + 1 } := by
  unfold setLstate
  split_ifs with same
  · rw [same.1, same.2]
  · rfl

theorem setPlane_eq (p v : Nat) (r : RetSt) : setPlane p v r =
    { r with plane := putTwo r.plane p v, tgen := if putTwo r.plane p v = r.plane then r.tgen else r.tgen + 1 } := by
  rw [setPlane, setLstate_eq]; simp only [and_true]

theorem setMesh_eq (p v : Nat) (r : RetSt) : setMesh p v r =
    { r with mesh := putTwo r.mesh p v, tgen := if putTwo r.mesh p v = r.mesh then r.tgen else r.tgen + 1 } := by
  rw [setMesh, setLstate_eq]; simp only [true_and]

section
variable {p v : Nat} (r : RetSt) (hp : p < 4) (hv : v < 4)
include hp hv

theorem planeSt_setPlane {q : Nat} (hq : q < 4) : (setPlane p v r).planeSt q = if q = p then v else r.planeSt q := by
  rw [setPlane_eq]; exact bitsOf_putTwo r.plane hp hq hv

theorem meshSt_setMesh {q : Nat} (hq : q < 4) : (setMesh p v r).meshSt q = if q = p then v else r.meshSt q := by
  rw [setMesh_eq]; exact bitsOf_putTwo r.mesh hp hq hv

theorem tgen_setPlane : (setPlane p v r).tgen = if r.planeSt p = v then r.tgen else r.tgen + 1 := by
  rw [setPlane_eq]; simp only [putTwo_eq_self_iff r.plane hp hv]; rfl

end

/-! ### Neighbours (01 R17) -/

theorem oppositePort_lt (port : Nat) : oppositePort port < 4 := Nat.mod_lt _ (by decide)

/-- A site is no neighbour of itself. -/
theorem neighbourRet_ne {ret port n : Nat} (near : neighbourRet ret port = some n) : n ≠ ret := by
  obtain ⟨site, found, rfl⟩ := Option.map_eq_some_iff.mp near
  have moved : site ≠ ret % 128 := by
    obtain ⟨there, -⟩ := Option.filter_eq_some_iff.mp found
    rintro rfl
    split at there
    · split_ifs at there with above
      have := Option.some.inj there; omega
    · split_ifs at there
      have := Option.some.inj there; omega
    · have := Option.some.inj there; omega
    · split_ifs at there with right
      have := Option.some.inj there; omega
    · cases there
  have below : site < 128 := by
    obtain ⟨-, present⟩ := Option.filter_eq_some_iff.mp found
    exact siteList_lt site (by simpa [presentSite] using present)
  unfold modOf
  omega

/-! ### A mesh port goes down (18 R428) -/

/-- One end of a mesh link reads 2 from a time on. -/
def closePort (ticks ret port : Nat) (s : State) : State :=
  updRet ret (fun x => { setMesh port 2 x with downAt := mput x.downAt port ticks }) s

section
variable {s : State} {ret port n : Nat}

theorem portDown_eq (near : neighbourRet ret port = some n) : portDown ret port s =
    noteHost (modOf ret) (addCut ret (cutStamp s ret) .mesh (closePort s.ticks ret port (closePort s.ticks n (oppositePort port)
      { s with free := s.free + 1 }))) := by
  rw [portDown, near]; rfl

theorem meshSt_noteHost (m : Nat) (s : State) (r p : Nat) : ((noteHost m s).ret r).meshSt p = (s.ret r).meshSt p := by
  rw [ret_noteHost]; split_ifs <;> rfl

theorem meshSt_addCut (r stamp : Nat) (k : CutKind) (s : State) (j p : Nat) : ((addCut r stamp k s).ret j).meshSt p = (s.ret j).meshSt p := by
  rw [addCut, ret_updRet]; split_ifs with e
  · rw [e]; rfl
  · rfl

theorem meshSt_closePort_self (ticks : Nat) (h : port < 4) : ((closePort ticks ret port s).ret ret).meshSt port = 2 := by
  rw [closePort, ret_updRet_self]
  exact (meshSt_setMesh (s.ret ret) h (by decide) h).trans (if_pos rfl)

theorem meshSt_closePort_other (ticks : Nat) {j : Nat} (h : j ≠ ret) (p : Nat) :
    ((closePort ticks ret port s).ret j).meshSt p = (s.ret j).meshSt p := by
  rw [closePort, ret_updRet, if_neg h]

variable (h : port < 4) (near : neighbourRet ret port = some n)
include h near

theorem meshSt_portDown : ((portDown ret port s).ret ret).meshSt port = 2 ∧ ((portDown ret port s).ret n).meshSt (oppositePort port) = 2 := by
  rw [portDown_eq near]
  simp only [meshSt_noteHost, meshSt_addCut, meshSt_closePort_self _ h, meshSt_closePort_other _ (neighbourRet_ne near),
    meshSt_closePort_self _ (oppositePort_lt port), and_self]

omit h

theorem ret_portDown : ∃ b, (portDown ret port s).ret ret = { setMesh port 2 (s.ret ret) with
    downAt := mput (s.ret ret).downAt port s.ticks, cuts := (s.ret ret).cuts ++ [⟨cutStamp s ret, .mesh⟩], host := b } := by
  have here : (closePort s.ticks n (oppositePort port) { s with free := s.free + 1 }).ret ret = s.ret ret := by
    rw [closePort, ret_updRet, if_neg (neighbourRet_ne near).symm]; rfl
  have cuts : (setMesh port 2 (s.ret ret)).cuts = (s.ret ret).cuts := by rw [setMesh_eq]
  rw [portDown_eq near, ret_noteHost, addCut, ret_updRet_self, closePort, ret_updRet_self, here]
  simp only [cuts]
  split_ifs
  · exact ⟨_, rfl⟩
  · exact ⟨_, rfl⟩

/-- No packet and no byte of memory changes. -/
theorem wire_mem_portDown : (portDown ret port s).wire = s.wire ∧ (portDown ret port s).mem = s.mem := by
  rw [portDown_eq near, (onlyRets_noteHost _ _).field State.wire fun _ => rfl, (onlyRets_noteHost _ _).field State.mem fun _ => rfl]
  exact ⟨rfl, rfl⟩

end

theorem exec_meshPortDown_goes {s : State} {ret port : Nat} (h : port < 4) (linked : linkFar s ret port ≠ none) :
    exec (.meshPortDown ret port) s = .next (portDown ret port s) :=
  if_pos ⟨h, Option.isSome_iff_ne_none.mpr linked⟩

theorem exec_meshPortDown_stays {s : State} {ret port : Nat} (apart : linkFar s ret port = none) :
    exec (.meshPortDown ret port) s = .next s := by
  simp [execMeshPortDown, apart]

/-! ### Degraded links (R357) -/

/-- An end of a link in full use is marked degraded. -/
def markPort (ret port : Nat) (s : State) : State := if (s.ret ret).meshSt port = 0 then updRet ret (setMesh port 1) s else s

section
variable {s : State} {ret port n : Nat}

theorem degrade_eq (h : port < 4) (near : neighbourRet ret port = some n) :
    degrade ret port s = markPort ret port (markPort n (oppositePort port) s) := by
  rw [degrade, if_pos h, near]; rfl

theorem ret_markPort_other {j : Nat} (h : j ≠ ret) : (markPort ret port s).ret j = s.ret j := by
  unfold markPort; split_ifs
  · rw [ret_updRet, if_neg h]
  · rfl

theorem meshSt_markPort (h : port < 4) (up : (s.ret ret).meshSt port = 0) : ((markPort ret port s).ret ret).meshSt port = 1 := by
  rw [markPort, if_pos up, ret_updRet_self, meshSt_setMesh _ h (by decide) h, if_pos rfl]

theorem meshSt_degrade (h : port < 4) (near : neighbourRet ret port = some n) (up : (s.ret ret).meshSt port = 0)
    (farUp : (s.ret n).meshSt (oppositePort port) = 0) :
    ((degrade ret port s).ret ret).meshSt port = 1 ∧ ((degrade ret port s).ret n).meshSt (oppositePort port) = 1 := by
  rw [degrade_eq h near]
  constructor
  · exact meshSt_markPort h (by rw [ret_markPort_other (neighbourRet_ne near).symm]; exact up)
  · rw [ret_markPort_other (neighbourRet_ne near)]
    exact meshSt_markPort (oppositePort_lt port) farUp

end

end Sys2Proof.Proofs
end

section
/-! Flits (spec/18 R427): a link takes the one that it expects next, and counts the ones whose CRC fails. -/

namespace Sys2Proof.Proofs

open Sys2Proof Sys2Proof.Machine Sys2Proof.Laws

/-! ### The link at a port -/

section
variable (ret port : Nat) (f : Link → Link) (s : State)

theorem link_updLink (r p : Nat) : ((updLink ret port f s).ret r).link p = if r = ret ∧ p = port then f ((s.ret ret).link port) else (s.ret r).link p := by
  rw [updLink, ret_updRet]
  by_cases here : r = ret
  · subst here
    by_cases same : p = port
    · subst same; simp only [if_true, and_self, RetSt.link, mget_mput_self]
    · simp only [if_true, same, and_false, if_false, RetSt.link, mget_mput_ne _ _ _ same]
  · simp only [here, false_and, if_false]

theorem link_updLink_self : ((updLink ret port f s).ret ret).link port = f ((s.ret ret).link port) := by simp [link_updLink]

theorem meshSt_updLink (r p : Nat) : ((updLink ret port f s).ret r).meshSt p = (s.ret r).meshSt p := by
  rw [updLink, ret_updRet]; split_ifs with e
  · rw [e]; rfl
  · rfl

theorem errWin_updLink (r : Nat) : ((updLink ret port f s).ret r).errWin = (s.ret r).errWin := by
  rw [updLink, ret_updRet]; split_ifs with e
  · rw [e]
  · rfl

variable {f}

/-- What a change of a link keeps, every link keeps. -/
theorem link_updLink_keeps {β : Type} (g : Link → β) (hf : ∀ l, g (f l) = g l) (r p : Nat) :
    g (((updLink ret port f s).ret r).link p) = g ((s.ret r).link p) := by
  rw [link_updLink]; split_ifs with here
  · obtain ⟨rfl, rfl⟩ := here; exact hf _
  · rfl

end

/-! ### Flits that arrive -/

/-- The far end sends the flit for the first time: it is next, and there is room to keep it until it is acknowledged. -/
abbrev FreshFlit (s : State) (far o seq : Nat) : Prop := seq = ((s.ret far).link o).nextSeq ∧ ((s.ret far).link o).replay.length < 512

/-- A flit's bits count in the window of its link. -/
def countFlit (ret port : Nat) (s : State) : State := updLink ret port (fun l => { l with bits := l.bits + 512 }) s

/-- A flit is sent for the first time, and kept until it is acknowledged. -/
def sendFlit (far o seq : Nat) (s : State) : State :=
  updLink far o (fun l => { l with nextSeq := (seq + 1) % 4096, replay := l.replay ++ [seq] }) s

/-- A flit that is taken is acknowledged: the far end keeps it no longer. -/
def takeFlit (ret port far o seq : Nat) (s : State) : State :=
  updLink ret port (fun l => { l with expectSeq := (seq + 1) % 4096, crcRow := 0 })
    (updLink far o (fun l => { l with replay := l.replay.filter (· != seq) }) s)

/-- A flit has crossed a link, before its receiver looks at it. -/
def arriveFlit (ret port far o seq : Nat) (s : State) : State :=
  if FreshFlit s far o seq then sendFlit far o seq (countFlit ret port s) else countFlit ret port s

section
variable {s : State} {ret port far o seq : Nat}

/-- A flit in transit keeps what its sending does not change. -/
theorem link_arriveFlit_keeps {β : Type} (g : Link → β) (hb : ∀ (l : Link) n, g { l with bits := n } = g l)
    (hs : ∀ (l : Link) n q, g { l with nextSeq := n, replay := q } = g l) (r p : Nat) :
    g (((arriveFlit ret port far o seq s).ret r).link p) = g ((s.ret r).link p) := by
  have counted : g (((countFlit ret port s).ret r).link p) = g ((s.ret r).link p) := link_updLink_keeps ret port s g (fun l => hb l _) r p
  unfold arriveFlit
  split_ifs
  · exact (link_updLink_keeps far o (countFlit ret port s) g (fun l => hs l _ _) r p).trans counted
  · exact counted

/-- The sender's link with a flit in transit. -/
theorem link_arriveFlit_sender : (((arriveFlit ret port far o seq s).ret far).link o).nextSeq =
      (if FreshFlit s far o seq then (seq + 1) % 4096 else ((s.ret far).link o).nextSeq)
    ∧ (((arriveFlit ret port far o seq s).ret far).link o).replay =
      (if FreshFlit s far o seq then ((s.ret far).link o).replay ++ [seq] else ((s.ret far).link o).replay) := by
  have replay : (((countFlit ret port s).ret far).link o).replay = ((s.ret far).link o).replay :=
    link_updLink_keeps (f := fun l => { l with bits := l.bits + 512 }) ret port s Link.replay (fun _ => rfl) far o
  have next : (((countFlit ret port s).ret far).link o).nextSeq = ((s.ret far).link o).nextSeq :=
    link_updLink_keeps (f := fun l => { l with bits := l.bits + 512 }) ret port s Link.nextSeq (fun _ => rfl) far o
  unfold arriveFlit
  split_ifs
  · rw [sendFlit, link_updLink_self]
    exact ⟨rfl, congrArg (· ++ [seq]) replay⟩
  · exact ⟨next, replay⟩

theorem onlyRets_arriveFlit : OnlyRets s (arriveFlit ret port far o seq s) := by
  unfold arriveFlit
  split_ifs <;> rfl

/-- A flit that no sender has is not there; another is taken, asked for again or left as the receiver expects it (R427). -/
theorem exec_flitReceive_linked (ok : Bool) (linked : linkFar s ret port = some (far, o)) : exec (.flitReceive ret port seq ok) s =
    if ¬ FreshFlit s far o seq ∧ seq ∉ ((s.ret far).link o).replay then .next s
    else if seq ≠ ((s.ret ret).link port).expectSeq then .next (arriveFlit ret port far o seq s)
    else if ok then .next (takeFlit ret port far o seq (arriveFlit ret port far o seq s))
    else .next (badFlit ret port (arriveFlit ret port far o seq s)) := by
  have expect : (((arriveFlit ret port far o seq s).ret ret).link port).expectSeq = ((s.ret ret).link port).expectSeq :=
    link_arriveFlit_keeps Link.expectSeq (fun _ _ => rfl) (fun _ _ _ => rfl) ret port
  have test : (seq == ((s.ret far).link o).nextSeq && decide (((s.ret far).link o).replay.length < 512)) = decide (FreshFlit s far o seq) := by
    rw [Bool.decide_and]; rfl
  rw [← expect, exec_flitReceive, execFlitReceive, linked]
  dsimp only
  rw [test]
  by_cases fresh : FreshFlit s far o seq
  · rw [decide_eq_true fresh, arriveFlit, if_pos fresh,
      if_neg (show ¬ (¬ FreshFlit s far o seq ∧ seq ∉ ((s.ret far).link o).replay) from fun h => h.1 fresh)]
    rfl
  · rw [decide_eq_false fresh, arriveFlit, if_neg fresh]
    by_cases kept : seq ∈ ((s.ret far).link o).replay
    · rw [if_neg (show ¬ (¬ FreshFlit s far o seq ∧ seq ∉ ((s.ret far).link o).replay) from fun h => h.2 kept), if_neg (by simpa using kept)]
      rfl
    · rw [if_pos (show ¬ FreshFlit s far o seq ∧ seq ∉ ((s.ret far).link o).replay from ⟨fresh, kept⟩), if_pos (by simpa using kept)]

/-- A flit that is taken: the link expects the one after it, and the far end keeps it no longer. -/
theorem takeFlit_arrived : OnlyRets s (takeFlit ret port far o seq (arriveFlit ret port far o seq s))
    ∧ (((takeFlit ret port far o seq (arriveFlit ret port far o seq s)).ret ret).link port).expectSeq = (seq + 1) % 4096
    ∧ (((takeFlit ret port far o seq (arriveFlit ret port far o seq s)).ret ret).link port).crcRow = 0
    ∧ (((takeFlit ret port far o seq (arriveFlit ret port far o seq s)).ret far).link o).replay = ((s.ret far).link o).replay.filter (· != seq)
    ∧ (((takeFlit ret port far o seq (arriveFlit ret port far o seq s)).ret far).link o).nextSeq =
        (if FreshFlit s far o seq then (seq + 1) % 4096 else ((s.ret far).link o).nextSeq) := by
  obtain ⟨next, replay⟩ := link_arriveFlit_sender (s := s) (ret := ret) (port := port) (far := far) (o := o) (seq := seq)
  have arrived : OnlyRets s (arriveFlit ret port far o seq s) := onlyRets_arriveFlit
  generalize arriveFlit ret port far o seq s = w at next replay arrived ⊢
  have kept : ∀ {β : Type} (g : Link → β), (∀ (l : Link) n k, g { l with expectSeq := n, crcRow := k } = g l) →
      g (((takeFlit ret port far o seq w).ret far).link o) = g { (w.ret far).link o with replay := ((w.ret far).link o).replay.filter (· != seq) } := by
    intro β g hg
    rw [takeFlit, link_updLink_keeps ret port _ g (fun l => hg l _ _), link_updLink_self]
  refine ⟨arrived.trans rfl, ?_, ?_, ?_, ?_⟩
  · rw [takeFlit, link_updLink_self]
  · rw [takeFlit, link_updLink_self]
  · rw [kept Link.replay fun _ _ _ => rfl]
    dsimp only
    rw [replay]
    split_ifs <;> simp
  · rw [kept Link.nextSeq fun _ _ _ => rfl]
    exact next

end

/-! ### Flits whose CRC fails (R357, R427) -/

/-- A failure counts in the row of a link. -/
def missFlit (ret port : Nat) (s : State) : State := updLink ret port (fun l => { l with crcRow := l.crcRow + 1 }) s

/-- What a count of errors of a link brings about: nothing, a degraded link, or another action of the Error Policy Table. -/
def settleNoted (ret port : Nat) (noted : State × Option Nat) : State :=
  match noted.2 with
  | some 2 => degrade ret port noted.1
  | some a => takeAction ret none a noted.1
  | none => noted.1

section
variable {s : State} {ret port : Nat}

theorem badFlit_eq : badFlit ret port s =
    let t := settleNoted ret port (noteError ret 2 port (linkWindow ret port (missFlit ret port s)))
    if 7 ≤ ((s.ret ret).link port).crcRow ∧ port < 4 then updLink ret port (fun l => { l with crcRow := 0 }) (portDown ret port t) else t := by
  have row : ((s.ret ret).link port).crcRow + 1 ≥ 8 ↔ 7 ≤ ((s.ret ret).link port).crcRow := by omega
  simp only [← row]
  rfl

theorem badFlit_below (h : ((s.ret ret).link port).crcRow < 7) :
    badFlit ret port s = settleNoted ret port (noteError ret 2 port (linkWindow ret port (missFlit ret port s))) := by
  rw [badFlit_eq]
  exact if_neg (by omega)

theorem meshSt_badFlit {n : Nat} (row : 7 ≤ ((s.ret ret).link port).crcRow) (h : port < 4) (near : neighbourRet ret port = some n) :
    ((badFlit ret port s).ret ret).meshSt port = 2 ∧ ((badFlit ret port s).ret n).meshSt (oppositePort port) = 2 := by
  rw [badFlit_eq]
  dsimp only
  rw [if_pos ⟨row, h⟩, meshSt_updLink, meshSt_updLink]
  exact meshSt_portDown h near

theorem settleNoted_other (t : State) {a : Nat} (h : a ≠ 2) : settleNoted ret port (t, some a) = takeAction ret none a t := by
  unfold settleNoted
  split
  · rename_i e; exact absurd (Option.some.inj e) h
  · rename_i e; rw [← Option.some.inj e]
  · rename_i e; cases e

/-- The error window of a link is over, or none is open (R357). -/
abbrev WindowOver (s : State) (ret port : Nat) : Prop :=
  ((s.ret ret).link port).bits > 10 ^ 12 ∨ mget? (s.ret ret).errWin (windowKey 2 port) = none

theorem windowOver_iff : (((s.ret ret).link port).bits > 10 ^ 12 ∨ (mget? (s.ret ret).errWin (windowKey 2 port)).isNone = true) ↔ WindowOver s ret port := by
  rw [Option.isNone_iff_eq_none]

theorem linkWindow_over (ended : WindowOver s ret port) :
    ((linkWindow ret port s).ret ret).link port = { (s.ret ret).link port with bits := 0 }
    ∧ mget? ((linkWindow ret port s).ret ret).errWin (windowKey 2 port) = none := by
  rw [linkWindow, if_pos (windowOver_iff.mpr ended), link_updLink_self, errWin_updLink, ret_updRet_self]
  exact ⟨rfl, mget?_mdel_self ..⟩

theorem linkWindow_open (open_ : ¬ WindowOver s ret port) : linkWindow ret port s = s := by
  rw [linkWindow, if_neg fun h => open_ (windowOver_iff.mp h)]

/-- The window of a link after a failure has counted. -/
theorem linkWindow_missFlit :
    (((linkWindow ret port (missFlit ret port s)).ret ret).link port = { (s.ret ret).link port with
      crcRow := ((s.ret ret).link port).crcRow + 1, bits := if WindowOver s ret port then 0 else ((s.ret ret).link port).bits })
    ∧ (WindowOver s ret port → mget? ((linkWindow ret port (missFlit ret port s)).ret ret).errWin (windowKey 2 port) = none)
    ∧ (¬ WindowOver s ret port → mget? ((linkWindow ret port (missFlit ret port s)).ret ret).errWin (windowKey 2 port)
        = mget? (s.ret ret).errWin (windowKey 2 port)) := by
  have link : ((missFlit ret port s).ret ret).link port = { (s.ret ret).link port with crcRow := ((s.ret ret).link port).crcRow + 1 } :=
    link_updLink_self ..
  have errWin : ((missFlit ret port s).ret ret).errWin = (s.ret ret).errWin := errWin_updLink ..
  have ended : WindowOver (missFlit ret port s) ret port ↔ WindowOver s ret port := by rw [WindowOver, link, errWin]
  by_cases w : WindowOver s ret port
  · obtain ⟨bits, gone⟩ := linkWindow_over (ended.mpr w)
    rw [link] at bits
    exact ⟨by rw [bits, if_pos w], fun _ => gone, fun h => absurd w h⟩
  · rw [linkWindow_open fun h => w (ended.mp h), errWin]
    exact ⟨by rw [link, if_neg w], fun h => absurd h w, fun _ => rfl⟩

end

end Sys2Proof.Proofs
end

section
/-! What has had no route for a millisecond (spec/18 R428, R431), and the samples of the route selector (18 R430). -/

namespace Sys2Proof.Proofs

open Sys2Proof Sys2Proof.Machine Sys2Proof.Laws

/-! ### No route -/

section
variable {s : State} {pkt : Nat}

/-- A packet has had no way for a millisecond: an ordered one out of its router, another to its target. -/
def packetLost (s : State) (p : Packet) : Bool := if p.ordered then stranded s p else routeless s p.src p.dst 0 (some p.route)

theorem exec_noRouteTimeout_packet {p : Packet} (known : mget? s.wire pkt = some p) :
    exec (.noRouteTimeout pkt) s = .next (if packetLost s p then returnPacket pkt p s else s) := by
  rw [exec_noRouteTimeout, execNoRouteTimeout, known]
  exact (apply_ite Host.Outcome.next (packetLost s p = true) (returnPacket pkt p s) s).symm

/-- The target of a lane of a request has had no route for a millisecond. -/
def laneLost (f : Flight) (s : State) (x : LaneReq) : Bool :=
  routeless s (coreRet f.core) (retOf x.pa) 0 (chooseRoute s (coreRet f.core) (retOf x.pa) 0)

theorem performRouted_lost {f : Flight} {x : LaneReq} (xs : List LaneReq) {t : State} (lost : laneLost f t x = true) :
    performRouted f (x :: xs) t
      = ({ x with err := some (.remoteError, x.ea, 0) } :: (performRouted f xs t).1, (performRouted f xs t).2) := by
  rw [laneLost] at lost
  simp only [performRouted, lost, if_true]

theorem performRouted_reached {f : Flight} {x : LaneReq} (xs : List LaneReq) {t : State} (reached : ¬ laneLost f t x = true) :
    performRouted f (x :: xs) t
      = ((performLane f x t).1 :: (performRouted f xs (performLane f x t).2).1, (performRouted f xs (performLane f x t).2).2) := by
  rw [laneLost] at reached
  simp only [performRouted, reached]
  rfl

section
variable {f : Flight} (none_ : mget? s.wire pkt = none) (known : mget? s.flight pkt = some f)
include none_ known

theorem exec_noRouteTimeout_flight (unperformed : f.performed = false) (fabric : f.spad = false) (free : mustWait s pkt f = false)
    (gone : ∃ x ∈ f.lanes, laneLost f s x = true) : exec (.noRouteTimeout pkt) s =
      .next { (performRouted f f.lanes s).2 with
        flight := mput (performRouted f f.lanes s).2.flight pkt { f with lanes := (performRouted f f.lanes s).1, performed := true } } := by
  have lost : f.lanes.any (fun x => routeless s (coreRet f.core) (retOf x.pa) 0 (chooseRoute s (coreRet f.core) (retOf x.pa) 0)) = true :=
    List.any_eq_true.mpr gone
  rw [exec_noRouteTimeout, execNoRouteTimeout, none_, known]
  simp only [unperformed, fabric, free, lost]
  rfl

theorem exec_noRouteTimeout_flight_waits (served : ¬ ∃ x ∈ f.lanes, laneLost f s x = true) : exec (.noRouteTimeout pkt) s = .next s := by
  have kept : f.lanes.any (fun x => routeless s (coreRet f.core) (retOf x.pa) 0 (chooseRoute s (coreRet f.core) (retOf x.pa) 0)) = false :=
    Bool.eq_false_iff.mpr fun h => served (List.any_eq_true.mp h)
  rw [exec_noRouteTimeout, execNoRouteTimeout, none_, known]
  simp only [kept, Bool.not_false, Bool.or_true, Bool.true_or, if_true]

end

section
variable {w : WorkOp} (noPacket : mget? s.wire pkt = none) (noFlight : mget? s.flight pkt = none) (known : mget? s.works pkt = some w)
include noPacket noFlight known

theorem exec_noRouteTimeout_read (read : w.wr.opc = 2) (sent : w.injected = true) (clean : w.err = none) (fabric : w.wr.toPeer = false) :
    exec (.noRouteTimeout pkt) s = .next (if routeless s w.ret w.wr.target w.wr.route (chooseRoute s w.ret w.wr.target w.wr.route) = true
      then failWork pkt .remoteError w.wr.raddr 0 s else s) := by
  rw [exec_noRouteTimeout, execNoRouteTimeout, noPacket, noFlight, known]
  simp only [read, sent, clean, fabric, Option.isNone_none, true_and]
  split_ifs <;> rfl

end

end

/-! ### Samples (R430) -/

/-- A list of entries under distinct keys holds each of them, before what follows. -/
theorem mget?_map_keyed {α : Type} {key : Nat → Nat} (hk : ∀ i j, key i = key j → i = j) (f : Nat → α) (l : List Nat) (m : SMap α) (j : Nat) :
    mget? (l.map (fun i => (key i, f i)) ++ m) (key j) = if j ∈ l then some (f j) else mget? m (key j) := by
  induction l with
  | nil => rfl
  | cons i l ih =>
    rw [List.map_cons, List.cons_append, mget?, ih]
    by_cases same : j = i
    · subst same; simp
    · have other : key j ≠ key i := fun e => same (hk j i e)
      simp [same, other]

theorem mget?_map_elsewhere {α : Type} {key : Nat → Nat} (f : Nat → α) {l : List Nat} (m : SMap α) {k : Nat} (h : ∀ i ∈ l, k ≠ key i) :
    mget? (l.map (fun i => (key i, f i)) ++ m) k = mget? m k := by
  induction l with
  | nil => rfl
  | cons i l ih =>
    rw [List.map_cons, List.cons_append, mget?, if_neg (h i (.head l)), ih fun j hj => h j (.tail i hj)]

/-- A sample of a reticle: its loads, free values (log 4), and the states that its planes publish. -/
def sampled (ret free : Nat) (r : RetSt) : SMap Nat :=
  (upFrom 0 8).map (fun i => (i, Config.load (ret * 8 + i) free % 16)) ++ (upFrom 0 4).map (fun p => (8 + p, r.planeSt p))

theorem sampled_load (ret free : Nat) (r : RetSt) {i : Nat} (h : i < 8) : mget (sampled ret free r) i 0 < 16 := by
  have listed : mget? (sampled ret free r) i = some (Config.load (ret * 8 + i) free % 16) :=
    (mget?_map_keyed (key := id) (fun _ _ e => e) (fun i => Config.load (ret * 8 + i) free % 16) (upFrom 0 8) _ i).trans
      (if_pos (mem_upFrom.mpr (by omega)))
  rw [mget, listed]
  exact Nat.mod_lt _ (by decide)

theorem sampled_plane (ret free : Nat) (r : RetSt) {p : Nat} (h : p < 4) : mget (sampled ret free r) (8 + p) 0 = r.planeSt p := by
  have past : mget? (sampled ret free r) (8 + p) = mget? ((upFrom 0 4).map (fun p => (8 + p, r.planeSt p)) ++ []) (8 + p) :=
    mget?_map_elsewhere (key := id) (fun i => Config.load (ret * 8 + i) free % 16) _
      (fun i hi => by have := mem_upFrom.mp hi; simp only [id]; omega)
  have listed := mget?_map_keyed (key := fun p => 8 + p) (fun _ _ e => by omega) r.planeSt (upFrom 0 4) [] p
  rw [mget, past, listed, if_pos (mem_upFrom.mpr (by omega))]
  rfl

theorem exec_routeSample_out {s : State} {ret : Nat} (out : inService s ret = false) : exec (.routeSample ret) s = .next s := if_pos out

theorem exec_routeSample_runs {s : State} {ret : Nat} (serves : inService s ret = true) : exec (.routeSample ret) s =
    .next (updRet ret (fun r => { r with samples := sampled ret s.free (s.ret ret) }) { s with free := s.free + 1 }) := by
  rw [exec_routeSample, execRouteSample, serves]
  rfl

/-- A sample of a reticle in service. -/
theorem routeSample_turns {s : State} {ret : Nat} (serves : inService s ret = true) : ∃ t, exec (.routeSample ret) s = .next t
      ∧ { t with rets := s.rets, free := s.free } = s
      ∧ t.ret ret = { s.ret ret with samples := sampled ret s.free (s.ret ret) } ∧ ∀ j, j ≠ ret → t.ret j = s.ret j :=
  ⟨_, exec_routeSample_runs serves, rfl, ret_updRet_self ret (fun r => { r with samples := sampled ret s.free (s.ret ret) }) _, fun j other =>
    (ret_updRet ret j (fun r => { r with samples := sampled ret s.free (s.ret ret) }) _).trans (if_neg other)⟩

end Sys2Proof.Proofs
end

section
/-! The plane steps (spec/13 R316; 18 R436 to R440): what each step leaves of its plane, and what comes after it in the queue of its reticle. -/

namespace Sys2Proof.Proofs

open Sys2Proof Sys2Proof.Machine Sys2Proof.Laws

/-! ### Maps filled key by key -/

theorem mget?_filter {α : Type} (m : SMap α) (p : Nat → Bool) (i : Nat) : mget? (m.filter (fun e => p e.1)) i = if p i then mget? m i else none := by
  induction m with
  | nil => simp [mget?]
  | cons e m ih =>
    obtain ⟨k, v⟩ := e
    by_cases keep : p k = true
    · rw [List.filter_cons_of_pos (by simpa using keep), mget?, mget?, ih]
      by_cases here : i = k
      · subst here; simp [keep]
      · simp [here]
    · rw [List.filter_cons_of_neg (by simpa using keep), ih, mget?]
      by_cases here : i = k
      · subst here; simp [keep]
      · simp [here]

/-- Entries under distinct keys that a fold changes one by one are each changed once. -/
theorem mget_foldl_changed {α : Type} {key : Nat → Nat} (hk : ∀ i j, key i = key j → i = j) (f : Nat → α → α) (d : α) {l : List Nat}
    (once : l.Nodup) (m : SMap α) (j : Nat) :
    mget (l.foldl (fun m i => mput m (key i) (f i (mget m (key i) d))) m) (key j) d = if j ∈ l then f j (mget m (key j) d) else mget m (key j) d := by
  induction l generalizing m with
  | nil => rfl
  | cons i l ih =>
    obtain ⟨fresh, once⟩ := List.nodup_cons.mp once
    rw [List.foldl_cons, ih once]
    by_cases same : j = i
    · subst same; simp [fresh]
    · have other : key j ≠ key i := fun e => same (hk j i e)
      simp [same, mget_mput_ne _ _ _ other]

theorem mget_foldl_elsewhere {α : Type} {key : Nat → Nat} (f : Nat → α → α) (d : α) {l : List Nat} {k : Nat} (h : ∀ i ∈ l, k ≠ key i) (m : SMap α) :
    mget (l.foldl (fun m i => mput m (key i) (f i (mget m (key i) d))) m) k d = mget m k d := by
  induction l generalizing m with
  | nil => rfl
  | cons i l ih => rw [List.foldl_cons, ih fun j hj => h j (.tail i hj), mget_mput_ne _ _ _ (h i (.head l))]

theorem nodup_upFrom (lo n : Nat) : (upFrom lo n).Nodup := by
  induction n generalizing lo with
  | zero => exact List.nodup_nil
  | succ n ih => exact List.nodup_cons.mpr ⟨fun h => by have := mem_upFrom.mp h; omega, ih (lo + 1)⟩

/-- A list put under keys in a row reads back element by element, and nothing else changes. -/
theorem mget_foldl_zip {α : Type} (k lo : Nat) (xs : List α) (d : α) (m : SMap α) (j : Nat) :
    mget (((upFrom lo xs.length).zip xs).foldl (fun m e => mput m (k + e.1) e.2) m) (k + j) d =
      if lo ≤ j ∧ j < lo + xs.length then nthD d xs (j - lo) else mget m (k + j) d := by
  induction xs generalizing lo m with
  | nil => simp [upFrom]
  | cons x xs ih =>
    rw [List.length_cons, upFrom, List.zip_cons_cons, List.foldl_cons, ih]
    by_cases first : j = lo
    · subst first; simp [nthD]
    · rw [mget_mput_ne _ _ _ (by omega)]
      by_cases inside : lo + 1 ≤ j ∧ j < lo + 1 + xs.length
      · rw [if_pos inside, if_pos (by omega), show j - lo = j - (lo + 1) + 1 by omega, nthD]
      · rw [if_neg inside, if_neg (by omega)]

/-! ### The rings of a plane (15 R355) -/

theorem ringIndex_injective (p : Nat) : ∀ i j, ringIndex p i = ringIndex p j → i = j := by
  unfold ringIndex; omega

theorem ringIndex_ne {p q i j : Nat} (h : q ≠ p) (hi : i < 160) (hj : j < 160) : ringIndex q i ≠ ringIndex p j := by
  unfold ringIndex; omega

/-- Some rings of a plane, changed one by one. -/
def changedRings (p : Nat) (f : Nat → W32 → W32) (l : List Nat) (m : SMap W32) : SMap W32 :=
  l.foldl (fun m i => mput m (ringIndex p i) (f i (mget m (ringIndex p i) 0))) m

theorem mget_changedRings (p : Nat) (f : Nat → W32 → W32) (m : SMap W32) {i : Nat} (h : i < 160) :
    mget (changedRings p f (upFrom 0 160) m) (ringIndex p i) 0 = f i (mget m (ringIndex p i) 0) := by
  rw [changedRings, mget_foldl_changed (ringIndex_injective p) f 0 (nodup_upFrom 0 160), if_pos (mem_upFrom.mpr (by omega))]

theorem mget_changedRings_other {p q : Nat} (f : Nat → W32 → W32) (m : SMap W32) {i : Nat} (h : i < 160) (other : q ≠ p) :
    mget (changedRings p f (upFrom 0 160) m) (ringIndex q i) 0 = mget m (ringIndex q i) 0 := by
  rw [changedRings, mget_foldl_elsewhere f 0 fun j hj => ringIndex_ne other h (by have := mem_upFrom.mp hj; omega)]

/-- Every ring of a plane, changed. -/
@[irreducible] def planeRings (p : Nat) (f : Nat → W32 → W32) (m : SMap W32) : SMap W32 := changedRings p f (upFrom 0 160) m

theorem mget_planeRings (p : Nat) (f : Nat → W32 → W32) (m : SMap W32) {i : Nat} (h : i < 160) :
    mget (planeRings p f m) (ringIndex p i) 0 = f i (mget m (ringIndex p i) 0) := by
  unfold planeRings
  exact mget_changedRings p f m h

theorem mget_planeRings_other {p q : Nat} (f : Nat → W32 → W32) (m : SMap W32) {i : Nat} (h : i < 160) (other : q ≠ p) :
    mget (planeRings p f m) (ringIndex q i) 0 = mget m (ringIndex q i) 0 := by
  unfold planeRings
  exact mget_changedRings_other f m h other

/-- A reticle with the rings of a plane changed. -/
def ringsChanged (p : Nat) (f : Nat → W32 → W32) (r : RetSt) : RetSt :=
  { r with rings := planeRings p f r.rings, lockLostAt := r.lockLostAt.filter (fun e => e.1 / 160 != p) }

theorem updRings_eq (ret p : Nat) (f : Nat → W32 → W32) (s : State) : updRings ret p f s = updRet ret (ringsChanged p f) s := by
  unfold updRings ringsChanged planeRings
  rfl

theorem ret_updRings (ret p : Nat) (f : Nat → W32 → W32) (s : State) (j : Nat) :
    (updRings ret p f s).ret j = if j = ret then ringsChanged p f (s.ret ret) else s.ret j := by
  rw [updRings_eq, ret_updRet]

theorem ringOf_updRings (ret p : Nat) (f : Nat → W32 → W32) (s : State) {i : Nat} (h : i < 160) :
    ringOf (updRings ret p f s) ret (ringIndex p i) = f i (ringOf s ret (ringIndex p i)) := by
  rw [ringOf, ret_updRings, if_pos rfl, ringsChanged, mget_planeRings p f _ h, ringOf]

theorem ringOf_updRings_other (ret : Nat) {p q : Nat} (f : Nat → W32 → W32) (s : State) {i : Nat} (h : i < 160) (other : q ≠ p) :
    ringOf (updRings ret p f s) ret (ringIndex q i) = ringOf s ret (ringIndex q i) := by
  rw [ringOf, ret_updRings, if_pos rfl, ringsChanged, mget_planeRings_other f _ h other, ringOf]

/-- Planes whose rings change one after another have each its rings changed once. -/
theorem ringOf_foldl_updRings (ret : Nat) (f : Nat → Nat → W32 → W32) {l : List Nat} (once : l.Nodup) (s : State) (p : Nat) {i : Nat} (h : i < 160) :
    ringOf (l.foldl (fun t p => updRings ret p (f p) t) s) ret (ringIndex p i) =
      if p ∈ l then f p i (ringOf s ret (ringIndex p i)) else ringOf s ret (ringIndex p i) := by
  induction l generalizing s with
  | nil => rfl
  | cons q l ih =>
    obtain ⟨fresh, once⟩ := List.nodup_cons.mp once
    rw [List.foldl_cons, ih once]
    by_cases same : p = q
    · subst same; simp [fresh, ringOf_updRings, h]
    · simp [same, ringOf_updRings_other ret _ s h same]

/-! ### The queue of steps (R316) -/

/-- The steps that are queued once the one at the head is done: after the last one of a plane those of the next plane. -/
def nextSteps (r : RetSt) : List PlaneStep × List (List PlaneStep) :=
  match r.planeSteps.drop 1, r.planeNext with
  | [], g :: gs => (g, gs)
  | rest, more => (rest, more)

/-- A reticle after the step at the head of its queue is done. -/
def popped (ticks : Nat) (r : RetSt) : RetSt := { r with planeSteps := (nextSteps r).1, planeNext := (nextSteps r).2, stepSince := ticks }

theorem popStep_eq (ret : Nat) (s : State) : popStep ret s = updRet ret (popped s.ticks) s := by
  unfold popStep
  congr 1
  funext r
  unfold popped nextSteps
  generalize r.planeSteps.drop 1 = rest
  generalize r.planeNext = next
  cases rest <;> cases next <;> rfl

theorem ret_popStep (ret : Nat) (s : State) (j : Nat) : (popStep ret s).ret j = if j = ret then popped s.ticks (s.ret ret) else s.ret j := by
  rw [popStep_eq, ret_updRet]

/-- Steps queued alike are followed alike. -/
theorem nextSteps_congr {r q : RetSt} (steps : q.planeSteps = r.planeSteps) (next : q.planeNext = r.planeNext) : nextSteps q = nextSteps r := by
  rw [nextSteps, nextSteps, steps, next]

/-! ### The steps (R440) -/

section
variable {s : State} {ret p : Nat}

/-- With no step queued none of them does anything. -/
theorem exec_planeSteps_none (empty : headStep s ret = none) :
    exec (.planeStop ret) s = .next s ∧ exec (.waitack ret) s = .next s ∧ exec (.retune ret) s = .next s
      ∧ exec (.waitlock ret) s = .next s ∧ exec (.planeResume ret) s = .next s ∧ exec (.planeDown ret) s = .next s := by
  simp [execPlaneStop, execWaitack, execRetune, execWaitlock, execPlaneResume, execPlaneDown, empty]

theorem exec_planeStop_head (head : headStep s ret = some (.stop p)) :
    exec (.planeStop ret) s = .next (popStep ret (updRet ret (setPlane p 1) s)) := by
  rw [exec_planeStop, execPlaneStop, head]

/-- A plane that stops is draining, and its step is done. -/
theorem retTurns_planeStop : RetTurns s (popStep ret (updRet ret (setPlane p 1) s)) ret { setPlane p 1 (s.ret ret) with
    planeSteps := (nextSteps (s.ret ret)).1, planeNext := (nextSteps (s.ret ret)).2, stepSince := s.ticks } [] where
  rest := rfl
  value := by
    have same : nextSteps (setPlane p 1 (s.ret ret)) = nextSteps (s.ret ret) := nextSteps_congr (by rw [setPlane_eq]) (by rw [setPlane_eq])
    rw [ret_popStep, if_pos rfl, ret_updRet_self, popped, same]
    rfl
  others j h := by rw [ret_popStep, if_neg h, ret_updRet, if_neg h]
  told := (List.append_nil _).symm

/-- An ordered packet in the plane's router has yet to leave by it. -/
def leavesFirst (s : State) (ret p : Nat) : Bool :=
  s.wire.any (fun e => e.2.ordered && e.2.moved && leavesBy s ret p e.2 && (nextOut s e.2).isSome)

theorem leavesFirst_iff : leavesFirst s ret p = true ↔
    ∃ e ∈ s.wire, e.2.ordered = true ∧ e.2.moved = true ∧ leavesBy s ret p e.2 = true ∧ nextOut s e.2 ≠ none := by
  simp [leavesFirst, and_assoc, Option.isSome_iff_ne_none]

theorem exec_waitack_head (head : headStep s ret = some (.waitack p)) :
    exec (.waitack ret) s = .next (if leavesFirst s ret p then s else popStep ret (handOver ret p s)) := by
  rw [exec_waitack, execWaitack, head]
  exact (apply_ite Host.Outcome.next (leavesFirst s ret p = true) s _).symm

/-- The assignment of a RETUNE in the port map of a reticle (R437); its plane's links start anew. -/
def loadPlane (p : Nat) (waves ports : List Nat) (r : RetSt) : RetSt :=
  let r := { r with links := r.links.filter (fun e => e.1 / 8 != p + 1) }
  if waves.isEmpty then r
  else { r with portMap := ((upFrom 0 8).zip ports ++ (upFrom 8 16).zip waves).foldl (fun pm e => mput pm (p * 32 + e.1) e.2) r.portMap }

/-- What RETUNE does. -/
def retunePlane (ret p : Nat) (waves ports : List Nat) (s : State) : State :=
  popStep ret (updRings ret p (retunedRing ret p) (updRet ret (fun r => setPlane p 2 (loadPlane p waves ports r)) s))

theorem exec_retune_head {waves ports : List Nat} (head : headStep s ret = some (.retune p waves ports)) :
    exec (.retune ret) s = .next (retunePlane ret p waves ports s) := by
  rw [exec_retune, execRetune, head]; rfl

section
variable {waves ports : List Nat}

theorem loadPlane_eq (r : RetSt) : ∃ pm, loadPlane p waves ports r = { r with links := r.links.filter (fun e => e.1 / 8 != p + 1), portMap := pm }
    ∧ (waves = [] → pm = r.portMap)
    ∧ (waves.length = 16 → ports.length = 8 → (∀ f < 8, mget pm (p * 32 + f) 0 = nthD 0 ports f) ∧ ∀ w < 16, mget pm (p * 32 + 8 + w) 0 = nthD 0 waves w) := by
  by_cases empty : waves = []
  · exact ⟨r.portMap, by rw [loadPlane, empty]; rfl, fun _ => rfl, fun sixteen => by simp [empty] at sixteen⟩
  · refine ⟨_, by rw [loadPlane, if_neg (by simpa using empty)], fun h => absurd h empty, fun sixteen eight => ?_⟩
    have ports_ := fun m j => mget_foldl_zip (p * 32) 0 ports 0 m j
    have waves_ := fun m j => mget_foldl_zip (p * 32) 8 waves 0 m j
    rw [eight] at ports_
    rw [sixteen] at waves_
    rw [List.foldl_append]
    refine ⟨fun f hf => ?_, fun w hw => ?_⟩
    · rw [waves_, if_neg (by omega), ports_, if_pos (by omega), Nat.sub_zero]
    · rw [Nat.add_assoc, waves_, if_pos (by omega), Nat.add_sub_cancel_left]

/-- What RETUNE leaves of its reticle. -/
theorem ret_retunePlane : ∃ pm, (retunePlane ret p waves ports s).ret ret = { setPlane p 2 (s.ret ret) with
      planeSteps := (nextSteps (s.ret ret)).1, planeNext := (nextSteps (s.ret ret)).2, stepSince := s.ticks
      links := (s.ret ret).links.filter (fun e => e.1 / 8 != p + 1), portMap := pm
      rings := planeRings p (retunedRing ret p) (s.ret ret).rings
      lockLostAt := (s.ret ret).lockLostAt.filter (fun e => e.1 / 160 != p) }
    ∧ (waves = [] → pm = (s.ret ret).portMap)
    ∧ (waves.length = 16 → ports.length = 8 → (∀ f < 8, mget pm (p * 32 + f) 0 = nthD 0 ports f) ∧ ∀ w < 16, mget pm (p * 32 + 8 + w) 0 = nthD 0 waves w) := by
  obtain ⟨pm, loaded, maps⟩ := loadPlane_eq (p := p) (waves := waves) (ports := ports) (s.ret ret)
  refine ⟨pm, ?_, maps⟩
  rw [retunePlane, updRings_eq, ret_popStep, if_pos rfl, ret_updRet_self, ret_updRet_self, loaded, setPlane_eq, setPlane_eq]
  rfl

theorem onlyRets_retunePlane : OnlyRets s (retunePlane ret p waves ports s) := rfl

/-- A link of a plane that is retuned starts anew. -/
theorem link_filter (m : SMap Link) {f : Nat} (h : f < 8) :
    mget (m.filter (fun e => e.1 / 8 != p + 1)) (8 + 8 * p + f) Link.start = Link.start := by
  have here : ((8 + 8 * p + f) / 8 != p + 1) = false := by
    rw [bne_eq_false_iff_eq]; omega
  rw [mget, mget?_filter m (fun k => k / 8 != p + 1), here]
  rfl

end

/-! ### WAITLOCK (R316, R435) -/

/-- A ring that holds lock, its heater at neither end. -/
theorem lockedRing_locked (s : State) (ret ring : Nat) (old : W32) : bitOf (lockedRing s ret ring old).toNat 12 = true
    ∧ 0 < (lockedRing s ret ring old).toNat % 4096 ∧ (lockedRing s ret ring old).toNat % 4096 < 4095 := by
  have code : 1 + Config.heaterCode (ret * 640 + ring) (s.free + 1) % 4094 < 4095 := by omega
  have low : (lockedRing s ret ring old).toNat % 2 ^ 12 = 1 + Config.heaterCode (ret * 640 + ring) (s.free + 1) % 4094 := by
    have lock : (0x1000#32).toNat % 2 ^ 12 = 0 := rfl
    rw [lockedRing, BitVec.toNat_or, Nat.or_mod_two_pow, lock, Nat.or_zero, BitVec.toNat_ofNat]
    omega
  refine ⟨?_, by omega, by omega⟩
  rw [bitOf_ofNat, lockedRing, BitVec.getLsbD_or]
  simp

/-- What WAITLOCK does. -/
def lockPlane (ret p : Nat) (s : State) : State :=
  popStep ret { updRings ret p (fun i => lockedRing s ret (ringIndex p i)) s with free := s.free + 1 }

theorem exec_waitlock_waits (head : headStep s ret = some (.waitlock p))
    (h : (s.ret ret).cartridge ≠ .active ∨ 16000000 ≤ s.ticks - (s.ret ret).stepSince) : exec (.waitlock ret) s = .next s := by
  rw [exec_waitlock, execWaitlock, head]
  exact if_neg fun ⟨active, early⟩ => h.elim (· active) fun late => by omega

theorem exec_waitlock_locks (head : headStep s ret = some (.waitlock p)) (active : (s.ret ret).cartridge = .active)
    (early : ¬ 16000000 ≤ s.ticks - (s.ret ret).stepSince) : exec (.waitlock ret) s = .next (lockPlane ret p s) := by
  rw [exec_waitlock, execWaitlock, head]
  exact if_pos ⟨active, by omega⟩

theorem ret_lockPlane : (lockPlane ret p s).ret ret = popped s.ticks ((updRings ret p (fun i => lockedRing s ret (ringIndex p i)) s).ret ret) := by
  rw [lockPlane, ret_popStep, if_pos rfl]; rfl

theorem steps_lockPlane : ((lockPlane ret p s).ret ret).planeSteps = (nextSteps (s.ret ret)).1
    ∧ ((lockPlane ret p s).ret ret).planeNext = (nextSteps (s.ret ret)).2 := by
  have same : nextSteps ((updRings ret p (fun i => lockedRing s ret (ringIndex p i)) s).ret ret) = nextSteps (s.ret ret) :=
    nextSteps_congr (by rw [ret_updRings, if_pos rfl, ringsChanged]) (by rw [ret_updRings, if_pos rfl, ringsChanged])
  rw [ret_lockPlane, popped, same]
  exact ⟨rfl, rfl⟩

theorem ringOf_lockPlane {i : Nat} (h : i < 160) :
    ringOf (lockPlane ret p s) ret (ringIndex p i) = lockedRing s ret (ringIndex p i) (ringOf s ret (ringIndex p i)) := by
  rw [ringOf, ret_lockPlane]
  exact ringOf_updRings ret p _ s h

/-! ### WAITLOCK_TIMEOUT (R316) -/

/-- The steps that are left when a plane has not locked: DOWN takes the place of WAITLOCK and of its RESUME. -/
def stepsAfterTimeout (p : Nat) (rest : List PlaneStep) : List PlaneStep :=
  .down p :: (match rest with | .resume _ :: more => more | _ => rest)

/-- A TOPO that retunes the plane at the reticle now has failed. -/
def failTopo (ret p : Nat) (c : Cmd) : Cmd :=
  if c.code = 5 ∧ c.todo.head? = some p ∧ c.recs.any (fun r => r.ret == ret && r.plane == p) = true then { c with failed := true } else c

theorem failTopo_running {c : Cmd} (code : c.code = 5) (now : c.todo.head? = some p) (named : ∃ r ∈ c.recs, r.ret = ret ∧ r.plane = p) :
    failTopo ret p c = { c with failed := true } :=
  if_pos ⟨code, now, List.any_eq_true.mpr (by simpa using named)⟩

variable {rest : List PlaneStep} (head : (s.ret ret).planeSteps = .waitlock p :: rest)
include head

theorem exec_waitlockTimeout_early (early : s.ticks - (s.ret ret).stepSince < 16000000) : exec (.waitlockTimeout ret) s = .next s := by
  rw [exec_waitlockTimeout, execWaitlockTimeout, head]
  exact if_pos early

theorem exec_waitlockTimeout_late (late : 16000000 ≤ s.ticks - (s.ret ret).stepSince) : exec (.waitlockTimeout ret) s =
    .next (updMod (modOf ret) (fun x => { x with cmds := x.cmds.map (failTopo ret p) })
      (updRet ret (fun r => { r with planeSteps := stepsAfterTimeout p rest, stepSince := s.ticks }) s)) := by
  rw [exec_waitlockTimeout, execWaitlockTimeout, head]
  exact if_neg (by omega)

end

/-! ### What RETUNE and WAITLOCK leave -/

section
variable {s : State} {ret p : Nat}

/-- A RETUNE of one of the four planes. -/
theorem retunePlane_leaves {waves ports : List Nat} (hp : p < 4) : OnlyRets s (retunePlane ret p waves ports s)
    ∧ ((retunePlane ret p waves ports s).ret ret).planeSt p = 2
    ∧ ((retunePlane ret p waves ports s).ret ret).planeSteps = (nextSteps (s.ret ret)).1
    ∧ ((retunePlane ret p waves ports s).ret ret).planeNext = (nextSteps (s.ret ret)).2
    ∧ (∀ f < 8, ((retunePlane ret p waves ports s).ret ret).link (8 + 8 * p + f) = Link.start)
    ∧ (∀ i < 160, mget ((retunePlane ret p waves ports s).ret ret).rings (ringIndex p i) 0
        = retunedRing ret p i (mget (s.ret ret).rings (ringIndex p i) 0))
    ∧ (waves = [] → ((retunePlane ret p waves ports s).ret ret).portMap = (s.ret ret).portMap)
    ∧ (waves.length = 16 → ports.length = 8 → (∀ f < 8, ((retunePlane ret p waves ports s).ret ret).fibre p f = nthD 0 ports f)
        ∧ ∀ w < 16, ((retunePlane ret p waves ports s).ret ret).wave p w = nthD 0 waves w) := by
  obtain ⟨pm, leaves, kept, loaded⟩ := ret_retunePlane (s := s) (ret := ret) (p := p) (waves := waves) (ports := ports)
  have state : (setPlane p 2 (s.ret ret)).planeSt p = 2 := by rw [planeSt_setPlane _ hp (by decide) hp, if_pos rfl]
  refine ⟨onlyRets_retunePlane, ?_⟩
  rw [leaves]
  exact ⟨state, rfl, rfl, fun f hf => link_filter _ hf, fun i hi => mget_planeRings p _ _ hi, kept, loaded⟩

/-- A plane that has not locked in time. -/
theorem waitlockTimeout_turns {rest : List PlaneStep} (head : (s.ret ret).planeSteps = .waitlock p :: rest)
    (late : 16000000 ≤ s.ticks - (s.ret ret).stepSince) : ∃ t, exec (.waitlockTimeout ret) s = .next t
      ∧ { t with rets := s.rets, mods := s.mods } = s ∧ (t.ret ret).planeSteps = stepsAfterTimeout p rest
      ∧ ∀ c ∈ (s.mod (modOf ret)).cmds, failTopo ret p c ∈ (t.mod (modOf ret)).cmds := by
  refine ⟨_, exec_waitlockTimeout_late head late, rfl, ?_, fun c member => ?_⟩
  · exact congrArg RetSt.planeSteps (ret_updRet_self ret (fun r => { r with planeSteps := stepsAfterTimeout p rest, stepSince := s.ticks }) s)
  · rw [mod_updMod_self]
    exact List.mem_map_of_mem member

/-- A plane that locks in time. -/
theorem lockPlane_leaves : { lockPlane ret p s with rets := s.rets, free := s.free } = s
    ∧ ((lockPlane ret p s).ret ret).planeSteps = (nextSteps (s.ret ret)).1
    ∧ ((lockPlane ret p s).ret ret).planeNext = (nextSteps (s.ret ret)).2
    ∧ ∀ i < 160, bitOf (ringOf (lockPlane ret p s) ret (ringIndex p i)).toNat 12 = true
      ∧ 0 < (ringOf (lockPlane ret p s) ret (ringIndex p i)).toNat % 4096
      ∧ (ringOf (lockPlane ret p s) ret (ringIndex p i)).toNat % 4096 < 4095 := by
  obtain ⟨steps, next⟩ := steps_lockPlane (s := s) (ret := ret) (p := p)
  refine ⟨rfl, steps, next, fun i hi => ?_⟩
  rw [ringOf_lockPlane hi]
  exact lockedRing_locked ..

end

/-! ### RESUME and DOWN -/

section
variable {s : State} {ret p : Nat}

theorem exec_planeResume_head (head : headStep s ret = some (.resume p)) :
    exec (.planeResume ret) s = .next (advanceTopo ret (joinPlane ret p (popStep ret (updRet ret (setPlane p 0) s)))) := by
  rw [exec_planeResume, execPlaneResume, head]

theorem exec_planeDown_head (head : headStep s ret = some (.down p)) :
    exec (.planeDown ret) s = .next (advanceTopo ret (settleCartridge ret (popStep ret (updRet ret (setPlane p 3) s)))) := by
  rw [exec_planeDown, execPlaneDown, head]

/-- An optical input is to join the input sets at a stamp (16 R375). -/
def joinPort (ret stamp : Nat) (s : State) (port : Nat) : State :=
  addCut ret stamp (.join port) (updRet ret (fun r => { r with cutPorts := sadd r.cutPorts port }) s)

theorem ret_joinPort (stamp port : Nat) : (joinPort ret stamp s port).ret ret =
    { s.ret ret with cutPorts := sadd (s.ret ret).cutPorts port, cuts := (s.ret ret).cuts ++ [⟨stamp, .join port⟩] } := by
  rw [joinPort, addCut, ret_updRet_self, ret_updRet_self]

theorem joinPlane_eq (plane : Nat) : joinPlane ret plane s =
    (upFrom (8 + 8 * plane) 8).foldl (joinPort ret (cutStamp s ret)) { s with free := s.free + 1 } := by
  unfold joinPlane joinPort
  rfl

/-- Every optical input of a plane that resumes is cut out until its stamp. -/
theorem joinPlane_joins {plane port : Nat} (low : 8 + 8 * plane ≤ port) (high : port < 16 + 8 * plane) :
    smem ((joinPlane ret plane s).ret ret).cutPorts port = true ∧ (⟨cutStamp s ret, .join port⟩ : Cut) ∈ ((joinPlane ret plane s).ret ret).cuts := by
  rw [joinPlane_eq]
  refine foldl_reaches (I := fun _ => True) (n := port)
    (P := fun t => smem (t.ret ret).cutPorts port = true ∧ (⟨cutStamp s ret, .join port⟩ : Cut) ∈ (t.ret ret).cuts) (fun _ _ _ _ => trivial) (fun t _ => ?_) (fun t q _ _ joined => ?_) trivial
    (.inr (mem_upFrom.mpr (by omega)))
  · rw [ret_joinPort]
    exact ⟨smem_sadd_self .., List.mem_append_right _ (List.mem_singleton.mpr rfl)⟩
  · rw [ret_joinPort]
    exact ⟨by rw [smem_sadd, joined.1]; rfl, List.mem_append_left _ joined.2⟩

/-! ### TOPO and DRAIN go on (R438, R439) -/

/-- The reticles whose steps a TOPO or DRAIN waits for. -/
def waitedRets (s : State) (m : Nat) (c : Cmd) : List Nat := if c.code = 5 then c.recs.map (·.ret) else servedRets s m

section
variable {m last fuel : Nat} {c : Cmd} (lastPlane : c.todo = [p])
include lastPlane

theorem advanceCmd_waits (left : ∃ r ∈ waitedRets s m c, stepsLeft s r p = true) : advanceCmd m last (fuel + 1) c s = s := by
  rw [advanceCmd, lastPlane]
  exact if_pos (List.any_eq_true.mpr left)

theorem advanceCmd_last (done : ∀ r ∈ waitedRets s m c, stepsLeft s r p = false) : advanceCmd m last (fuel + 1) c s =
    if c.failed then endCmd m c 0x12 0 s
    else endCmd m c 0 (((if c.code = 5 then applyEntries c.recs s else s).ret last).tgen.toNat) (if c.code = 5 then applyEntries c.recs s else s) := by
  rw [advanceCmd, lastPlane]
  exact if_neg (by simpa [waitedRets] using done)

end

end

end Sys2Proof.Proofs
end

section
/-! Rings that lose lock (spec/15 R355; 18 R435, R436), and the life of a cartridge (18 R441). -/

namespace Sys2Proof.Proofs

open Sys2Proof Sys2Proof.Machine Sys2Proof.Laws

/-! ### One ring -/

section
variable {s : State} {ret ring : Nat}

/-- A ring's entry changes, and with it what is known of its lost lock; nothing else differs. -/
theorem retTurns_ring (f : W32 → W32) (g : SMap Nat → SMap Nat) :
    RetTurns s (updRet ret (fun r => { r with lockLostAt := g r.lockLostAt }) (updRing ret ring f s)) ret { s.ret ret with
      rings := mput (s.ret ret).rings ring (f (ringOf s ret ring)), lockLostAt := g (s.ret ret).lockLostAt } [] where
  rest := rfl
  value := by rw [ret_updRet_self, updRing, ret_updRet_self]; rfl
  others j h := by rw [ret_updRet, if_neg h, updRing, ret_updRet, if_neg h]
  told := (List.append_nil _).symm

theorem exec_ringLockLoss_runs (h : ring < 640) (locked : bitOf (ringOf s ret ring).toNat 12 = true) : exec (.ringLockLoss ret ring) s =
    .next (updRet ret (fun r => { r with lockLostAt := mput r.lockLostAt ring s.ticks })
      (updRing ret ring (fun v => (v &&& ~~~0x1000#32) ||| 0x8000#32) s)) := by
  rw [exec_ringLockLoss, execRingLockLoss, if_neg (by simp [locked]; omega)]

theorem exec_ringLockLoss_unlocked (unlocked : bitOf (ringOf s ret ring).toNat 12 = false) : exec (.ringLockLoss ret ring) s = .next s :=
  if_pos (.inr unlocked)

section
variable {t0 : Nat} (lost : mget? (s.ret ret).lockLostAt ring = some t0)
include lost

theorem exec_ringLockReturn_runs (soon : s.ticks - t0 ≤ 160000) (low : (ringOf s ret ring).toNat % 4096 ≠ 0)
    (high : (ringOf s ret ring).toNat % 4096 ≠ 4095) : exec (.ringLockReturn ret ring) s =
      .next (updRet ret (fun r => { r with lockLostAt := mdel r.lockLostAt ring })
        (updRing ret ring (fun v => (v ||| 0x1000#32) &&& ~~~0x8000#32) s)) := by
  rw [exec_ringLockReturn, execRingLockReturn, lost]
  exact if_neg (by omega)

theorem exec_ringLockReturn_late (late : 160000 < s.ticks - t0) : exec (.ringLockReturn ret ring) s = .next s := by
  rw [exec_ringLockReturn, execRingLockReturn, lost]
  exact if_pos (.inl late)

theorem exec_ringLockTimeout_early (early : s.ticks - t0 < 160000) : exec (.ringLockTimeout ret ring) s = .next s := by
  rw [exec_ringLockTimeout, execRingLockTimeout, lost]
  exact if_pos early

/-- Which end of the range is flagged is a free choice (log 4). -/
theorem exec_ringLockTimeout_late (late : 160000 ≤ s.ticks - t0) : ∃ bits : W32, (bits = 0x2000 ∨ bits = 0x4000)
    ∧ exec (.ringLockTimeout ret ring) s = .next (endOfRange ret ring bits { s with free := s.free + 1 }) := by
  refine ⟨if Config.choice s.free % 2 = 0 then 0x2000 else 0x4000, by split_ifs <;> simp, ?_⟩
  rw [exec_ringLockTimeout, execRingLockTimeout, lost]
  exact if_neg (by omega)

end

theorem exec_heaterEndOfRange_runs (h : ring < 640) (active : (s.ret ret).cartridge = .active) :
    ∃ bits code : W32, (bits = 0x2000 ∧ code = 0 ∨ bits = 0x4000 ∧ code = 0xFFF)
      ∧ exec (.heaterEndOfRange ret ring) s = .next (endOfRange ret ring bits
          (updRing ret ring (fun w => (w &&& ~~~0xFFF#32) ||| code) { s with free := s.free + 1 })) := by
  refine ⟨if Config.choice s.free % 2 = 0 then 0x2000 else 0x4000, if Config.choice s.free % 2 = 0 then 0 else 0xFFF, by split_ifs <;> simp, ?_⟩
  rw [exec_heaterEndOfRange, execHeaterEndOfRange, if_neg (by simp [active]; omega)]

theorem exec_heaterEndOfRange_idle (idle : (s.ret ret).cartridge ≠ .active) : exec (.heaterEndOfRange ret ring) s = .next s := if_pos (.inr idle)

end

/-! ### Steps behind a queue (R316, R436) -/

/-- The queue of a reticle with the steps of a plane behind it. -/
def pushed (ticks : Nat) (ss : List PlaneStep) (r : RetSt) : RetSt :=
  if ss.isEmpty then r
  else if r.planeSteps.isEmpty then { r with planeSteps := ss, stepSince := ticks }
  else { r with planeNext := r.planeNext ++ [ss] }

theorem pushSteps_eq (ret : Nat) (ss : List PlaneStep) (s : State) : pushSteps ret ss s = updRet ret (pushed s.ticks ss) s := rfl

theorem pushed_first {ss : List PlaneStep} {r : RetSt} (some_ : ss ≠ []) (empty : r.planeSteps = []) (ticks : Nat) :
    pushed ticks ss r = { r with planeSteps := ss, stepSince := ticks } := by
  rw [pushed, if_neg (by simpa using some_), if_pos (by simp [empty])]

theorem pushed_behind {ss : List PlaneStep} {r : RetSt} (some_ : ss ≠ []) (busy : r.planeSteps ≠ []) (ticks : Nat) :
    pushed ticks ss r = { r with planeNext := r.planeNext ++ [ss] } := by
  rw [pushed, if_neg (by simpa using some_), if_neg (by simpa using busy)]

/-- Steps that are queued change nothing but the queue. -/
theorem pushed_keeps {β : Type} (g : RetSt → β) (hg : ∀ (r : RetSt) a b c, g { r with planeSteps := a, planeNext := b, stepSince := c } = g r)
    (ticks : Nat) (ss : List PlaneStep) (r : RetSt) : g (pushed ticks ss r) = g r := by
  unfold pushed
  split_ifs
  · rfl
  · exact hg r ss r.planeNext ticks
  · exact hg r r.planeSteps (r.planeNext ++ [ss]) r.stepSince

/-- Nothing is queued behind an empty queue. -/
def InLine (r : RetSt) : Prop := r.planeSteps = [] → r.planeNext = []

/-- Steps that are queued come after all that are. -/
theorem allSteps_pushed {r : RetSt} (inLine : InLine r) (ticks : Nat) (ss : List PlaneStep) :
    (pushed ticks ss r).allSteps = r.allSteps ++ ss ∧ InLine (pushed ticks ss r) := by
  by_cases none_ : ss = []
  · subst none_; exact ⟨(List.append_nil _).symm, inLine⟩
  · by_cases empty : r.planeSteps = []
    · rw [pushed_first none_ empty]
      exact ⟨by simp [RetSt.allSteps, empty, inLine empty], fun e => absurd e none_⟩
    · rw [pushed_behind none_ empty]
      exact ⟨by simp [RetSt.allSteps], fun e => absurd e empty⟩

/-! ### The end of a heater's range (R435, R436) -/

/-- The steps by which a plane recovers. -/
def recoverySteps (p : Nat) : List PlaneStep := [.stop p, .waitack p, .retune p [] [], .waitlock p, .resume p]

/-- A recovery of a plane is needless: the plane is down, a RETUNE of it is queued, or a TOPO has it still to do. -/
def Served (s : State) (ret p : Nat) : Prop :=
  (s.ret ret).planeSt p = 3 ∨ (∃ ws ps, .retune p ws ps ∈ (s.ret ret).allSteps)
  ∨ ∃ c ∈ (s.mod (modOf ret)).cmds, c.code = 5 ∧ (∃ r ∈ c.recs, r.ret = ret ∧ r.plane = p)
    ∧ (p ∈ c.todo.drop 1 ∨ c.todo.head? = some p ∧ stepsLeft s ret p = true)

section
variable {s : State} {ret p : Nat}

theorem retune_queued_iff (steps : List PlaneStep) :
    steps.any (fun x => match x with | .retune q _ _ => q == p | _ => false) = true ↔ ∃ ws ps, .retune p ws ps ∈ steps := by
  rw [List.any_eq_true]
  constructor
  · rintro ⟨x, member, same⟩
    cases x with
    | retune q ws ps => exact ⟨ws, ps, by rw [← eq_of_beq same]; exact member⟩
    | _ => simp at same
  · rintro ⟨ws, ps, member⟩
    exact ⟨_, member, beq_self_eq_true p⟩

theorem topo_queued_iff :
    (s.mod (modOf ret)).cmds.any (fun c => c.code == 5 && c.recs.any (fun r => r.ret == ret && r.plane == p)
      && ((c.todo.drop 1).contains p || (c.todo.head? == some p && stepsLeft s ret p))) = true ↔
    ∃ c ∈ (s.mod (modOf ret)).cmds, c.code = 5 ∧ (∃ r ∈ c.recs, r.ret = ret ∧ r.plane = p)
      ∧ (p ∈ c.todo.drop 1 ∨ c.todo.head? = some p ∧ stepsLeft s ret p = true) := by
  simp [and_assoc]

theorem queueRecovery_served (served : Served s ret p) : queueRecovery ret p s = s := by
  refine if_pos ?_
  rw [Bool.or_eq_true, Bool.or_eq_true, beq_iff_eq]
  rcases served with down | queued | topo
  · exact .inr down
  · exact .inl (.inl ((retune_queued_iff _).mpr queued))
  · exact .inl (.inr (topo_queued_iff.mpr topo))

theorem queueRecovery_needed (needed : ¬ Served s ret p) : queueRecovery ret p s = pushSteps ret (recoverySteps p) s := by
  refine if_neg fun h => needed ?_
  rw [Bool.or_eq_true, Bool.or_eq_true, beq_iff_eq] at h
  rcases h with (queued | topo) | down
  · exact .inr (.inl ((retune_queued_iff _).mp queued))
  · exact .inr (.inr (topo_queued_iff.mp topo))
  · exact .inl down

/-- What a recovery changes of its reticle: the queue of steps, if it is needed. -/
theorem ret_queueRecovery : (Served s ret p → (queueRecovery ret p s).ret ret = s.ret ret)
    ∧ (¬ Served s ret p → (queueRecovery ret p s).ret ret = pushed s.ticks (recoverySteps p) (s.ret ret)) :=
  ⟨fun served => by rw [queueRecovery_served served], fun needed => by rw [queueRecovery_needed needed, pushSteps_eq, ret_updRet_self]⟩

end

section
variable {s : State} {ret : Nat} {ring : Nat}

/-- The entry of a ring at an end of its range, in its reticle. -/
def flagged (ring : Nat) (bits : W32) (r : RetSt) : RetSt :=
  { r with rings := mput r.rings ring (mget r.rings ring 0 ||| bits ||| 0x8000#32), lockLostAt := mdel r.lockLostAt ring }

/-- A ring at an end of its range is retired. -/
def flagRing (ret ring : Nat) (bits : W32) (s : State) : State :=
  updRet ret (fun r => { r with lockLostAt := mdel r.lockLostAt ring }) (updRing ret ring (fun v => v ||| bits ||| 0x8000#32) s)

theorem endOfRange_eq (bits : W32) : endOfRange ret ring bits s = queueRecovery ret (ring / 160) (flagRing ret ring bits s) := rfl

theorem ret_flagRing (bits : W32) : (flagRing ret ring bits s).ret ret = flagged ring bits (s.ret ret) := by
  rw [flagRing, ret_updRet_self, updRing, ret_updRet_self]; rfl

theorem served_flagRing (bits : W32) (p : Nat) : Served (flagRing ret ring bits s) ret p ↔ Served s ret p := by
  have left : stepsLeft (flagRing ret ring bits s) ret p = stepsLeft s ret p := by rw [stepsLeft, ret_flagRing]; rfl
  rw [Served, Served, left, ret_flagRing]
  rfl

/-- A ring at an end of its range is retired, and its plane recovers unless that is needless (R436). -/
theorem endOfRange_turns (bits : W32) :
    (¬ Served s ret (ring / 160) → (s.ret ret).planeSteps = [] →
        ((endOfRange ret ring bits s).ret ret).planeSteps = recoverySteps (ring / 160)
        ∧ ((endOfRange ret ring bits s).ret ret).planeNext = (s.ret ret).planeNext)
    ∧ (¬ Served s ret (ring / 160) → (s.ret ret).planeSteps ≠ [] →
        ((endOfRange ret ring bits s).ret ret).planeSteps = (s.ret ret).planeSteps
        ∧ ((endOfRange ret ring bits s).ret ret).planeNext = (s.ret ret).planeNext ++ [recoverySteps (ring / 160)])
    ∧ (Served s ret (ring / 160) → ((endOfRange ret ring bits s).ret ret).planeSteps = (s.ret ret).planeSteps
        ∧ ((endOfRange ret ring bits s).ret ret).planeNext = (s.ret ret).planeNext)
    ∧ ringOf (endOfRange ret ring bits s) ret ring = ringOf s ret ring ||| bits ||| 0x8000#32
    ∧ mget? ((endOfRange ret ring bits s).ret ret).lockLostAt ring = none := by
  obtain ⟨kept, queued⟩ := ret_queueRecovery (s := flagRing ret ring bits s) (ret := ret) (p := ring / 160)
  rw [served_flagRing, ← endOfRange_eq, ret_flagRing] at kept queued
  have steps : recoverySteps (ring / 160) ≠ [] := by simp [recoverySteps]
  have ringAndLock : ∀ {r : RetSt}, (endOfRange ret ring bits s).ret ret = r → r.rings = (flagged ring bits (s.ret ret)).rings →
      r.lockLostAt = (flagged ring bits (s.ret ret)).lockLostAt →
      ringOf (endOfRange ret ring bits s) ret ring = ringOf s ret ring ||| bits ||| 0x8000#32
        ∧ mget? ((endOfRange ret ring bits s).ret ret).lockLostAt ring = none := by
    intro r e rings lost
    rw [ringOf, e, rings, lost]
    exact ⟨mget_mput_self .., mget?_mdel_self ..⟩
  refine ⟨fun needed empty => ?_, fun needed busy => ?_, fun served => ?_, ?_⟩
  · rw [queued needed, pushed_first (r := flagged ring bits (s.ret ret)) steps empty]
    exact ⟨rfl, rfl⟩
  · rw [queued needed, pushed_behind (r := flagged ring bits (s.ret ret)) steps busy]
    exact ⟨rfl, rfl⟩
  · rw [kept served]
    exact ⟨rfl, rfl⟩
  · by_cases served : Served s ret (ring / 160)
    · exact ringAndLock (kept served) rfl rfl
    · exact ringAndLock (queued served) (pushed_keeps RetSt.rings (fun _ _ _ _ => rfl) _ _ _)
        (pushed_keeps RetSt.lockLostAt (fun _ _ _ _ => rfl) _ _ _)

end

/-! ### The cartridge (R441) -/

section
variable {s : State} {ret : Nat}

/-- The rings of all four planes, changed. -/
def allRings (ret : Nat) (f : Nat → Nat → W32 → W32) (s : State) : State := (upFrom 0 4).foldl (fun t p => updRings ret p (f p) t) s

theorem ringOf_allRings (f : Nat → Nat → W32 → W32) {p i : Nat} (hp : p < 4) (hi : i < 160) :
    ringOf (allRings ret f s) ret (ringIndex p i) = f p i (ringOf s ret (ringIndex p i)) := by
  rw [allRings, ringOf_foldl_updRings ret f (nodup_upFrom 0 4) s p hi, if_pos (mem_upFrom.mpr (by omega))]

theorem onlyRets_updRings (p : Nat) (f : Nat → W32 → W32) (s : State) : OnlyRets s (updRings ret p f s) := by
  rw [updRings_eq]; exact onlyRets_updRet ret _ s

theorem onlyRets_allRings (f : Nat → Nat → W32 → W32) (s : State) : OnlyRets s (allRings ret f s) :=
  onlyRets_foldl _ (fun t p => onlyRets_updRings p (f p) t) _ s

theorem ret_allRings_other (f : Nat → Nat → W32 → W32) {j : Nat} (h : j ≠ ret) : (allRings ret f s).ret j = s.ret j :=
  foldl_keep (fun t : State => t.ret j) _ (fun t p => by rw [ret_updRings, if_neg h]) _ s

/-- A cartridge takes a state. -/
def putCartridge (c : Cartridge) (since : Nat) (r : RetSt) : RetSt := { r with cartridge := c, cartSince := since }

theorem powerCartridge_eq : powerCartridge ret s = updRet ret (putCartridge .powered s.ticks) (allRings ret (retunedRing ret) s) := by
  have ticks : (allRings ret (retunedRing ret) s).ticks = s.ticks := (onlyRets_allRings _ s).field State.ticks fun _ => rfl
  rw [← ticks]
  rfl

theorem ringOf_powerCartridge {p i : Nat} (hp : p < 4) (hi : i < 160) :
    ringOf (powerCartridge ret s) ret (ringIndex p i) = retunedRing ret p i (ringOf s ret (ringIndex p i)) := by
  rw [powerCartridge_eq, ringOf, ret_updRet_self, putCartridge]
  exact ringOf_allRings (retunedRing ret) hp hi

theorem cartridge_powerCartridge : ((powerCartridge ret s).ret ret).cartridge = .powered ∧ ((powerCartridge ret s).ret ret).cartSince = s.ticks := by
  rw [powerCartridge_eq, ret_updRet_self]
  exact ⟨rfl, rfl⟩

theorem hostOut_powerCartridge : (powerCartridge ret s).hostOut = s.hostOut := by
  have frame : OnlyRets s (powerCartridge ret s) := by
    rw [powerCartridge_eq]; exact (onlyRets_allRings _ s).trans (onlyRets_updRet ret _ _)
  exact frame.field State.hostOut fun _ => rfl

/-- A cartridge takes a state, and the time stands. -/
def turnCartridge (c : Cartridge) (r : RetSt) : RetSt := { r with cartridge := c }

/-- A cartridge whose lock check passes is in use, with all planes down (R441). -/
def activated (r : RetSt) : RetSt := { setLstate 0xFF r.mesh r with cartridge := .active }

theorem activated_eq (r : RetSt) : (activated r).cartridge = .active ∧ (activated r).plane = 0xFF ∧ (activated r).rings = r.rings := by
  rw [activated, setLstate_eq]
  exact ⟨rfl, rfl, rfl⟩

/-- A lock check passes or fails by a free choice (log 4). -/
theorem exec_cartridgeLockCheck_runs (powered : (s.ret ret).cartridge = .powered) (late : 160000000 ≤ s.ticks - (s.ret ret).cartSince) :
    exec (.cartridgeLockCheck ret) s = .next { updRet ret activated (allRings ret (fun p i => lockedRing s ret (ringIndex p i)) s) with free := s.free + 1 }
    ∨ exec (.cartridgeLockCheck ret) s = .next { updRet ret (turnCartridge .failed) s with free := s.free + 1 } := by
  rw [exec_cartridgeLockCheck, execCartridgeLockCheck, if_neg (by simp [powered]; omega)]
  split_ifs
  · exact .inl rfl
  · exact .inr rfl

theorem exec_cartridgeLockCheck_waits (h : (s.ret ret).cartridge ≠ .powered ∨ s.ticks - (s.ret ret).cartSince < 160000000) :
    exec (.cartridgeLockCheck ret) s = .next s := if_pos h

theorem cartridgeLockCheck_turns (powered : (s.ret ret).cartridge = .powered) (late : 160000000 ≤ s.ticks - (s.ret ret).cartSince) :
    ∃ t, exec (.cartridgeLockCheck ret) s = .next t
      ∧ { t with rets := s.rets, free := s.free } = s ∧ (∀ j, j ≠ ret → t.ret j = s.ret j)
      ∧ (t.ret ret = { s.ret ret with cartridge := .failed }
        ∨ (t.ret ret).cartridge = .active ∧ (t.ret ret).plane = 0xFF
          ∧ ∀ p < 4, ∀ i < 160, bitOf (ringOf t ret (ringIndex p i)).toNat 12 = true) := by
  rcases exec_cartridgeLockCheck_runs powered late with locks | fails
  · have frame := onlyRets_allRings (ret := ret) (fun p i => lockedRing s ret (ringIndex p i)) s
    have other := fun j h => ret_allRings_other (s := s) (ret := ret) (fun p i => lockedRing s ret (ringIndex p i)) (j := j) h
    have rings := fun p hp i hi => ringOf_allRings (s := s) (ret := ret) (fun p i => lockedRing s ret (ringIndex p i)) (p := p) (i := i) hp hi
    generalize allRings ret (fun p i => lockedRing s ret (ringIndex p i)) s = u at locks frame other rings
    have turned : ({ updRet ret activated u with free := s.free + 1 } : State).ret ret = activated (u.ret ret) := ret_updRet_self ret activated u
    obtain ⟨active, down, kept⟩ := activated_eq (u.ret ret)
    refine ⟨_, locks, (congrArg (fun x : State => { x with free := s.free }) frame :), fun j h => ?_,
      .inr ⟨by rw [turned, active], by rw [turned, down], fun p hp i hi => ?_⟩⟩
    · exact ((ret_updRet ret j activated u).trans (if_neg h)).trans (other j h)
    · rw [ringOf, turned, kept, ← ringOf, rings p hp i hi]
      exact (lockedRing_locked s ret (ringIndex p i) _).1
  · exact ⟨_, fails, rfl, fun j h => (ret_updRet ret j (turnCartridge .failed) s).trans (if_neg h),
      .inl (ret_updRet_self ret (turnCartridge .failed) s)⟩

/-- The steps by which a plane is drained down. -/
def drainDown (s : State) (ret p : Nat) : List PlaneStep := drainSteps false p ((s.ret ret).planeSt p)

/-- The queue of a reticle that has its planes drained down. -/
theorem pushSteps_foldl (g : Nat → List PlaneStep) (l : List Nat) {s : State} (inLine : InLine (s.ret ret)) :
    ((l.foldl (fun t p => pushSteps ret (g p) t) s).ret ret).allSteps = (s.ret ret).allSteps ++ l.flatMap g := by
  induction l generalizing s with
  | nil => exact (List.append_nil _).symm
  | cons p l ih =>
    have here : (pushSteps ret (g p) s).ret ret = pushed s.ticks (g p) (s.ret ret) := by rw [pushSteps_eq, ret_updRet_self]
    obtain ⟨steps, inLine⟩ := allSteps_pushed inLine s.ticks (g p)
    rw [← here] at steps inLine
    rw [List.foldl_cons, ih inLine, steps, List.flatMap_cons, List.append_assoc]

/-- The planes of a cartridge drain. -/
def drainPlanes (ret : Nat) (s : State) : State :=
  (upFrom 0 4).foldl (fun t p => pushSteps ret (drainDown s ret p) t) (updRet ret (turnCartridge .quiescing) s)

theorem drainPlanes_keeps {β : Type} (g : RetSt → β) (hg : ∀ (r : RetSt) a b c, g { r with planeSteps := a, planeNext := b, stepSince := c } = g r) :
    g ((drainPlanes ret s).ret ret) = g { s.ret ret with cartridge := .quiescing } := by
  have start : (updRet ret (turnCartridge .quiescing) s).ret ret = { s.ret ret with cartridge := .quiescing } := ret_updRet_self ..
  rw [← start]
  exact foldl_keep (fun t : State => g (t.ret ret)) _
    (fun t p => by rw [pushSteps_eq, ret_updRet_self]; exact pushed_keeps g hg _ _ _) _ _

theorem onlyRets_drainPlanes : OnlyRets s (drainPlanes ret s) :=
  (onlyRets_updRet ret _ s).trans (onlyRets_foldl _ (fun t _ => onlyRets_updRet ret _ t) _ _)

theorem allSteps_drainPlanes (empty : (s.ret ret).planeSteps = []) (noNext : (s.ret ret).planeNext = []) :
    ((drainPlanes ret s).ret ret).allSteps = (upFrom 0 4).flatMap (drainDown s ret) := by
  have start : (updRet ret (turnCartridge .quiescing) s).ret ret = { s.ret ret with cartridge := .quiescing } := ret_updRet_self ..
  rw [drainPlanes, pushSteps_foldl (drainDown s ret) (upFrom 0 4) (by rw [start]; exact fun _ => noNext), start]
  simp [RetSt.allSteps, empty, noNext]

/-- Planes that are all down have no step to take. -/
theorem drainDown_down (down : (s.ret ret).plane = 0xFF) : (upFrom 0 4).flatMap (drainDown s ret) = [] := by
  rw [List.flatMap_eq_nil_iff]
  intro p hp
  have small : p < 4 := by have := mem_upFrom.mp hp; omega
  have state : (s.ret ret).planeSt p = 3 := by
    rw [RetSt.planeSt, down]
    interval_cases p <;> rfl
  rw [drainDown, state]
  rfl

theorem ret_settleCartridge : (settleCartridge ret s).ret ret =
    if (s.ret ret).cartridge = .quiescing ∧ (s.ret ret).plane = 0xFF ∧ (s.ret ret).allSteps.isEmpty = true then { s.ret ret with cartridge := .safe }
    else s.ret ret := ret_updRet_self ..

theorem exec_cartridgeQuiesce_runs (active : (s.ret ret).cartridge = .active) (empty : (s.ret ret).planeSteps = []) :
    exec (.cartridgeQuiesce ret) s = .next (tell (.status 0) (settleCartridge ret (drainPlanes ret s))) := by
  rw [exec_cartridgeQuiesce, execCartridgeQuiesce, if_neg (by simp [active]), if_neg (by simp [empty])]
  rfl

theorem cartridgeQuiesce_turns (active : (s.ret ret).cartridge = .active) (empty : (s.ret ret).planeSteps = []) :
    ∃ t, exec (.cartridgeQuiesce ret) s = .next t ∧ { t with rets := s.rets, hostOut := s.hostOut } = s ∧ t.hostOut = s.hostOut ++ [.status 0]
      ∧ ((s.ret ret).planeNext = [] → (t.ret ret).allSteps = (upFrom 0 4).flatMap (drainDown s ret)
          ∧ (t.ret ret).cartridge = (if (s.ret ret).plane = 0xFF then .safe else .quiescing)) := by
  have frame : OnlyRets s (settleCartridge ret (drainPlanes ret s)) := onlyRets_drainPlanes.trans (onlyRets_updRet ret _ _)
  refine ⟨_, exec_cartridgeQuiesce_runs active empty, (congrArg (fun x : State => { x with hostOut := s.hostOut }) frame :),
    congrArg (· ++ [HostMsg.status 0]) (frame.field State.hostOut fun _ => rfl), fun noNext => ?_⟩
  have steps := allSteps_drainPlanes empty noNext
  have state : ((drainPlanes ret s).ret ret).cartridge = .quiescing := drainPlanes_keeps RetSt.cartridge fun _ _ _ _ => rfl
  have plane : ((drainPlanes ret s).ret ret).plane = (s.ret ret).plane := drainPlanes_keeps RetSt.plane fun _ _ _ _ => rfl
  have settled := ret_settleCartridge (s := drainPlanes ret s) (ret := ret)
  have same : (tell (.status 0) (settleCartridge ret (drainPlanes ret s))).ret ret = (settleCartridge ret (drainPlanes ret s)).ret ret := rfl
  rw [same, settled, state, plane, steps]
  by_cases down : (s.ret ret).plane = 0xFF
  · rw [if_pos ⟨rfl, down, by rw [drainDown_down down]; rfl⟩, if_pos down]
    exact ⟨steps, rfl⟩
  · rw [if_neg fun h => down h.2.1, if_neg down]
    exact ⟨steps, state⟩

end

end Sys2Proof.Proofs
end

section
/-! Links, plane steps, rings and cartridges: the obligation itself. -/

namespace Sys2Proof.Proofs

open Sys2Proof Sys2Proof.Machine Sys2Proof.Laws

/-- Settles O58, clause by clause: flits and their links, what has no route, samples, the plane steps, rings and cartridges. Loads, heater codes, the
end of a range that is flagged and a passed lock check are free values (log 4); the statuses, the windows and what a failed WAITLOCK brings about are
the model's choices of log 12, 25, 28 and 29. -/
theorem linksPlanesAndRings : Obligations.LinksPlanesAndRings := by
  unfold Obligations.LinksPlanesAndRings
  refine ⟨?flits, ?window, ?degraded, ?row, ?down, ?noRoute, ?sample, ?field, ?steps, ?join, ?cmd, ?ring, ?cartridge⟩
  case flits =>
    intro s ret port seq far o ok linked snd counted u fresh
    have sent : fresh → arriveFlit ret port far o seq s = u := fun new => if_pos new
    have again : ¬ fresh → arriveFlit ret port far o seq s = counted := fun old => if_neg old
    refine ⟨fun old gone => ?_, fun new other => ?_, fun old kept other => ?_, fun next there => ⟨?_, fun new => ?_, fun old => ?_⟩⟩
    · exact (exec_flitReceive_linked ok linked).trans (if_pos ⟨old, gone⟩)
    · rw [exec_flitReceive_linked ok linked, if_neg fun h => h.1 new, if_pos other, sent new]
    · rw [exec_flitReceive_linked ok linked, if_neg fun h => h.2 kept, if_pos other, again old]
    · have taken := (exec_flitReceive_linked true linked).trans ((if_neg fun h => there.elim h.1 h.2).trans ((if_neg (not_not_intro next)).trans (if_pos rfl)))
      exact ⟨_, taken, takeFlit_arrived⟩
    · rw [exec_flitReceive_linked false linked, if_neg fun h => h.1 new, if_neg (not_not_intro next), sent new]
      rfl
    · rw [exec_flitReceive_linked false linked, if_neg fun h => h.2 (there.resolve_left old), if_neg (not_not_intro next), again old]
      rfl
  case window =>
    intro s ret port below key l ended w noted
    obtain ⟨link, closes, stays⟩ := linkWindow_missFlit (s := s) (ret := ret) (port := port)
    have settled : ∀ {a}, noted.2 = a → badFlit ret port s = settleNoted ret port (noted.1, a) := fun e => e ▸ badFlit_below below
    exact ⟨link, closes, stays, settled, settled, fun a e other => (settled e).trans (settleNoted_other _ other)⟩
  case degraded => exact fun s ret port n h near up farUp => meshSt_degrade h near up farUp
  case row => exact fun s ret port n row h near => meshSt_badFlit row h near
  case down =>
    intro s ret port n h near
    obtain ⟨b, here⟩ := ret_portDown (s := s) near
    obtain ⟨wire, mem⟩ := wire_mem_portDown (s := s) near
    obtain ⟨self, other⟩ := meshSt_portDown (s := s) h near
    exact ⟨self, other, by rw [here]; exact mget?_mput_self .., wire, mem, by rw [here]; exact List.mem_append_right _ (.head _),
      exec_meshPortDown_goes h, exec_meshPortDown_stays⟩
  case noRoute =>
    intro s pkt
    refine ⟨fun p known => ?_, fun f noPacket known unperformed fabric free => ?_, fun w noPacket noFlight known read sent clean fabric => ?_⟩
    · have runs := exec_noRouteTimeout_packet known
      have lost : packetLost s p = true ↔ (if p.ordered = true then stranded s p = true else routeless s p.src p.dst 0 (some p.route) = true) := by
        unfold packetLost; split_ifs <;> rfl
      exact ⟨fun gone => by rw [runs, if_pos (lost.mpr gone)], fun held => by rw [runs, if_neg (mt lost.mp held)]⟩
    · exact ⟨exec_noRouteTimeout_flight noPacket known unperformed fabric free, exec_noRouteTimeout_flight_waits noPacket known,
        fun t x xs => ⟨performRouted_lost xs, performRouted_reached xs⟩⟩
    · have runs := exec_noRouteTimeout_read noPacket noFlight known read sent clean fabric
      exact ⟨fun gone => runs.trans (congrArg _ (if_pos gone)), fun held => runs.trans (congrArg _ (if_neg held))⟩
  case sample =>
    intro s ret
    refine ⟨exec_routeSample_out, fun serves => ?_⟩
    obtain ⟨t, runs, frame, here, others⟩ := routeSample_turns serves
    refine ⟨t, runs, frame, by rw [here], others, fun p hp => ?_, fun i hi => ?_⟩
    · rw [here]; exact sampled_plane _ _ _ hp
    · rw [here]; exact sampled_load _ _ _ hi
  case field =>
    exact fun r p v hp hv => ⟨(planeSt_setPlane r hp hv hp).trans (if_pos rfl),
      fun q hq other => (planeSt_setPlane r hp hv hq).trans (if_neg other), tgen_setPlane r hp hv⟩
  case steps =>
    intro s ret
    refine ⟨exec_planeSteps_none, fun p head => ?stop, fun p head => ?waitack, fun p waves ports head hp => ?retune, fun p head => ?waitlock,
      fun p rest head => ?timeout, fun p head => exec_planeResume_head head, fun p head => exec_planeDown_head head⟩
    case stop => exact ⟨_, exec_planeStop_head head, retTurns_planeStop⟩
    case waitack =>
      have runs := exec_waitack_head head
      exact ⟨fun waits => by rw [runs, if_pos (leavesFirst_iff.mpr waits)], fun left => by rw [runs, if_neg (mt leavesFirst_iff.mp left)]⟩
    case retune => exact ⟨_, exec_retune_head head, retunePlane_leaves hp⟩
    case waitlock => exact ⟨exec_waitlock_waits head, fun active early => ⟨_, exec_waitlock_locks head active early, lockPlane_leaves⟩⟩
    case timeout =>
      refine ⟨exec_waitlockTimeout_early head, fun late => ?_⟩
      obtain ⟨t, runs, frame, steps, failed⟩ := waitlockTimeout_turns head late
      refine ⟨t, runs, frame, fun q more resumes => by rw [steps, resumes]; rfl, fun c member code now named => ?_⟩
      rw [← failTopo_running code now named]
      exact failed c member
  case join => exact fun s ret plane port low high => joinPlane_joins low high
  case cmd =>
    intro s m last p fuel c lastPlane rets
    refine ⟨advanceCmd_waits lastPlane, fun done => ?_⟩
    have ends := advanceCmd_last (last := last) (fuel := fuel) lastPlane done
    exact ⟨fun failed => by rw [ends, failed]; rfl, fun kept code => by rw [ends, kept, code]; rfl, fun kept code => by rw [ends, kept, code]; rfl⟩
  case ring =>
    intro s ret ring v turns
    refine ⟨fun inside locked => ⟨_, exec_ringLockLoss_runs inside locked, retTurns_ring _ (fun m => mput m ring s.ticks)⟩,
      exec_ringLockLoss_unlocked, fun t0 lost => ⟨fun soon low high => ⟨_, exec_ringLockReturn_runs lost soon low high, retTurns_ring _ (fun m => mdel m ring)⟩,
        exec_ringLockReturn_late lost, exec_ringLockTimeout_early lost, exec_ringLockTimeout_late lost⟩,
      exec_heaterEndOfRange_runs, exec_heaterEndOfRange_idle, fun bits => endOfRange_turns bits⟩
  case cartridge =>
    intro s ret c told
    obtain ⟨powered, since⟩ := cartridge_powerCartridge (s := s) (ret := ret)
    refine ⟨⟨powered, since, fun p hp i hi => ringOf_powerCartridge hp hi⟩, fun there rom => if_pos there, fun absent => ⟨?rom, ?noRom⟩,
      exec_cartridgeLockCheck_waits, cartridgeLockCheck_turns, fun idle => if_pos idle, fun active busy => ?busy, cartridgeQuiesce_turns,
      fun absent => if_pos absent, fun there => if_neg there, fun safe => ?safe, fun other => if_neg other⟩
    case rom => exact (if_neg (not_not_intro absent)).trans (if_pos rfl)
    case noRom =>
      exact ⟨_, (if_neg (not_not_intro absent)).trans (if_neg Bool.false_ne_true), retTurns_updRet (f := turnCartridge .failed) ..⟩
    case busy => exact (if_neg (not_not_intro active)).trans (if_pos busy)
    case safe =>
      rw [exec_cartridgePowerUp, execCartridgePowerUp, if_pos safe, ← hostOut_powerCartridge (s := s) (ret := ret)]
      rfl

end Sys2Proof.Proofs
end

section
/-! The queue instructions that act on queues (spec/14 R320; 13 R297, R300): what each does to the queues of the lanes that execute, and what it leaves. -/

namespace Sys2Proof.Proofs

open Sys2Proof Sys2Proof.Machine Sys2Proof.Laws

/-! ### One queue of each lane -/

section
variable (c : Ctx) (q : Nat) (f : Queue → Queue)

theorem ctx_q_inj {l j : Nat} : c.q l q = c.q j q ↔ l = j := by
  unfold Ctx.q qKey; omega

/-- Queue q of each lane, changed. -/
def updLaneQueues (lanes : List Nat) (s : State) : State := lanes.foldl (fun t l => updQ (c.q l q) f t) s

theorem updLaneQueues_rest (lanes : List Nat) (s : State) : { updLaneQueues c q f lanes s with queues := s.queues } = s :=
  (onlyQueues_foldl (fun _ => True) (fun t l => updQ (c.q l q) f t) lanes (fun t _ _ => onlyQueues_updQ _ f t _ trivial) s).rest

theorem queue_updLaneQueues {lanes : List Nat} (distinct : lanes.Nodup) (s : State) (k : Nat) :
    (updLaneQueues c q f lanes s).queue k = if ∃ l ∈ lanes, k = c.q l q then f (s.queue k) else s.queue k := by
  induction lanes generalizing s with
  | nil => simp [updLaneQueues]
  | cons l ls ih =>
    obtain ⟨fresh, distinct⟩ := List.nodup_cons.mp distinct
    have later : (updLaneQueues c q f (l :: ls) s).queue k = _ := ih distinct (updQ (c.q l q) f s)
    rw [later, queue_updQ]
    by_cases here : k = c.q l q
    · have once : ¬ ∃ j ∈ ls, k = c.q j q := fun ⟨j, hj, e⟩ => fresh ((ctx_q_inj c q).mp (here.symm.trans e) ▸ hj)
      simp [here, fresh, ctx_q_inj] at once ⊢
    · simp [here]

theorem queue_updLaneQueues_lane {lanes : List Nat} (distinct : lanes.Nodup) (s : State) {l : Nat} (mem : l ∈ lanes) :
    (updLaneQueues c q f lanes s).queue (c.q l q) = f (s.queue (c.q l q)) := by
  rw [queue_updLaneQueues c q f distinct, if_pos ⟨l, mem, rfl⟩]

theorem queue_updLaneQueues_other {lanes : List Nat} (distinct : lanes.Nodup) (s : State) {k : Nat} (other : ¬ ∃ l ∈ lanes, k = c.q l q) :
    (updLaneQueues c q f lanes s).queue k = s.queue k := by
  rw [queue_updLaneQueues c q f distinct, if_neg other]

theorem updQ_putPreds (k p : Nat) (v : Nat → Bool) (lanes : List Nat) (s : State) :
    updQ k f (lanes.foldl (fun t l => putPred c p l (v l) t) s) = lanes.foldl (fun t l => putPred c p l (v l) t) (updQ k f s) := by
  induction lanes generalizing s with
  | nil => rfl
  | cons l lanes ih => exact ih (putPred c p l (v l) s)

/-- Predicates and queues are written beside each other. -/
theorem updLaneQueues_putPreds (p : Nat) (v : Nat → Bool) (lanes ls : List Nat) (s : State) :
    updLaneQueues c q f ls (lanes.foldl (fun t l => putPred c p l (v l) t) s) = lanes.foldl (fun t l => putPred c p l (v l) t) (updLaneQueues c q f ls s) := by
  induction ls generalizing s with
  | nil => rfl
  | cons j ls ih => exact (congrArg (updLaneQueues c q f ls) (updQ_putPreds c f (c.q j q) p v lanes s)).trans (ih _)

end

/-! ### QFLUSH (R300) -/

/-- A queue whose entries are discarded. -/
def emptied (q : Queue) : Queue := { q with entries := [] }

/-- QFLUSH of queue q in some lanes. -/
def flushLanes (c : Ctx) (q : Nat) (lanes : List Nat) (s : State) : State :=
  lanes.foldl (fun t l => bumpCounter c.core 7 (silentEntries (t.queue (c.q l q))) (updQ (c.q l q) emptied t)) s

/-- The silent faults among the entries that QFLUSH discards. -/
def silentSum (c : Ctx) (q : Nat) (lanes : List Nat) (s : State) : Nat := (lanes.map (fun l => silentEntries (s.queue (c.q l q)))).sum

/-- What QFLUSH does: to queues, to the counter of silent faults of its core, and to nothing else but the watches that the count wakes. -/
structure Flushes (c : Ctx) (q : Nat) (lanes : List Nat) (s t : State) : Prop where
  rest : { t with queues := s.queues, cores := s.cores, watches := s.watches } = s
  watches : t.watches.Sublist s.watches
  queues : ∀ k, t.queue k = if ∃ l ∈ lanes, k = c.q l q then emptied (s.queue k) else s.queue k
  cores : ∀ k, k ≠ c.core → t.core k = s.core k
  core : t.core c.core = { s.core c.core with counters := (t.core c.core).counters }
  counters : ∀ k, k ≠ 7 → mget (t.core c.core).counters k 0 = mget (s.core c.core).counters k 0
  silent : mget (t.core c.core).counters 7 0 = mget (s.core c.core).counters 7 0 + BitVec.ofNat 64 (silentSum c q lanes s)

/-- Other lanes still hold what they held. -/
theorem silentSum_bumped (c : Ctx) (q l n : Nat) {ls : List Nat} (fresh : l ∉ ls) (s : State) :
    silentSum c q ls (bumpCounter c.core 7 n (updQ (c.q l q) emptied s)) = silentSum c q ls s := by
  unfold silentSum
  congr 1
  refine List.map_congr_left fun j hj => ?_
  have other : c.q j q ≠ c.q l q := fun e => fresh ((ctx_q_inj c q).mp e ▸ hj)
  rw [queue_bumpCounter, queue_updQ, if_neg other]

theorem flushes_flushLanes (c : Ctx) (q : Nat) {lanes : List Nat} (distinct : lanes.Nodup) (s : State) :
    Flushes c q lanes s (flushLanes c q lanes s) := by
  induction lanes generalizing s with
  | nil => exact ⟨rfl, List.Sublist.refl _, fun k => by simp [flushLanes], fun _ _ => rfl, rfl, fun _ _ => rfl, by simp [flushLanes, silentSum]⟩
  | cons l ls ih =>
    obtain ⟨fresh, distinct⟩ := List.nodup_cons.mp distinct
    have later := ih distinct (bumpCounter c.core 7 (silentEntries (s.queue (c.q l q))) (updQ (c.q l q) emptied s))
    obtain ⟨rest, watches, -⟩ := bumpCounter_spec c.core 7 (silentEntries (s.queue (c.q l q))) (updQ (c.q l q) emptied s)
    obtain ⟨X, cores, counters⟩ := bumpCounter_core c.core 7 (silentEntries (s.queue (c.q l q))) (updQ (c.q l q) emptied s)
    have sum := silentSum_bumped c q l (silentEntries (s.queue (c.q l q))) fresh s
    have queues := queue_bumpCounter c.core 7 (silentEntries (s.queue (c.q l q))) (updQ (c.q l q) emptied s)
    change Flushes c q (l :: ls) s (flushLanes c q ls (bumpCounter c.core 7 (silentEntries (s.queue (c.q l q))) (updQ (c.q l q) emptied s)))
    generalize bumpCounter c.core 7 (silentEntries (s.queue (c.q l q))) (updQ (c.q l q) emptied s) = u at *
    have here := cores c.core
    rw [if_pos rfl, core_updQ] at here
    refine ⟨?_, later.watches.trans watches, fun k => ?_, fun k hk => ?_, ?_, fun k hk => ?_, ?_⟩
    · have e := later.rest
      have e' := congrArg (fun v : State => { v with queues := s.queues }) rest
      rw [← e] at e'
      exact e'
    · rw [later.queues, queues, queue_updQ]
      by_cases first : k = c.q l q
      · simp [first, emptied]
      · simp [first]
    · rw [later.cores k hk, cores, if_neg hk, core_updQ]
    · rw [later.core, here]
    · rw [later.counters k hk, here, counters, if_neg hk, core_updQ]
    · rw [later.silent, here, counters, if_pos rfl, core_updQ, sum, silentSum, silentSum, List.map_cons, List.sum_cons, BitVec.ofNat_add, BitVec.add_assoc]

/-! ### The instructions -/

/-- What an instruction leaves whose act changes some of the state and then moves on. -/
theorem runs_moves {i : Instr} {act : Ctx → Shape → Issue → State → State} {s : State} {c : Ctx} {h : Shape} {x : Issue} {u : State} {words cycles : Nat}
    (he : exec i s = issue i act s) (r : Runs s i c h x) (acts : act c h x s = advance c words cycles u) (same : SameMemory s u) :
    ∃ t, exec i s = .next t ∧ SameMemory s t ∧ OnlyMoves u t := by
  have moves := (onlyMoves_advance c words cycles u).trans (onlyMoves_pairOrder s c h x _)
  exact ⟨_, (he.trans (issue_runs r _)).trans (by rw [acts]), sameMemory_trans same moves.calm.sameMemory, moves⟩

theorem sameMemory_updLaneQueues (c : Ctx) (q : Nat) (f : Queue → Queue) (lanes : List Nat) (s : State) : SameMemory s (updLaneQueues c q f lanes s) :=
  have rest := updLaneQueues_rest c q f lanes s
  sameMemory_of (congrArg State.mem rest :) (congrArg State.sectorKey rest :) (congrArg State.mods rest :) (congrArg State.poison rest :)

theorem Flushes.sameMemory {c : Ctx} {q : Nat} {lanes : List Nat} {s t : State} (f : Flushes c q lanes s t) : SameMemory s t :=
  sameMemory_of (congrArg State.mem f.rest :) (congrArg State.sectorKey f.rest :) (congrArg State.mods f.rest :) (congrArg State.poison f.rest :)

/-- Settles O14: QPOPP writes its predicates beside the queues that it pops, QFLUSH by flushes_flushLanes, QCLOSE changes queues alone. -/
theorem queueOperations : Obligations.QueueOperations := by
  unfold Obligations.QueueOperations
  intro v s c h x q ours
  refine ⟨fun r => ?qpopp, fun r => ?qflush, fun r => ?qclose⟩
  case qpopp =>
    have small : v.d.toNat < 24 := by
      refine static_preds (p := v.d.toNat) r.2.1 r.static ?_
      obtain rfl : _ = h := Option.some.inj r.2.1
      exact List.mem_singleton.mpr rfl
    let u := updLaneQueues c q (fun y => { y with entries := y.entries.drop 1 }) x.lanes s
    have sets := setsPredicate_foldl c h v.d.toNat small (fun l => queueValue (s.queueNow (c.q l q)) 0 != 0) x.lanes x.uniform x.pops r.nodup u
    obtain ⟨t, runs, same, moves⟩ := runs_moves (exec_qpopp v s) r
      (congrArg (advance c 1 (issueCycles s c false)) (updLaneQueues_putPreds c q (fun y => { y with entries := y.entries.drop 1 }) v.d.toNat _ x.lanes x.lanes s))
      (sameMemory_trans (sameMemory_updLaneQueues c q _ x.lanes s) sets.calm.sameMemory)
    exact ⟨t, u, runs, same, sets.moves moves, updLaneQueues_rest .., fun k hk => queue_updLaneQueues_other c q _ r.nodup s hk,
      fun l hl => queue_updLaneQueues_lane c q _ r.nodup s hl⟩
  case qflush =>
    have flushes := flushes_flushLanes c q r.nodup s
    obtain ⟨t, runs, same, moves⟩ := runs_moves (u := flushLanes c q x.lanes s) (exec_qflush v s) r rfl flushes.sameMemory
    exact ⟨t, _, runs, same, moves, flushes.rest, flushes.watches, fun k hk => by rw [flushes.queues, if_neg hk],
      fun l hl => by rw [flushes.queues, if_pos ⟨l, hl, rfl⟩]; rfl, flushes.cores, flushes.core, flushes.counters, flushes.silent⟩
  case qclose =>
    obtain ⟨t, runs, same, moves⟩ := runs_moves (u := updLaneQueues c q (fun y => { y with closed := true }) x.lanes s) (exec_qclose v s) r rfl
      (sameMemory_updLaneQueues ..)
    exact ⟨t, _, runs, same, moves, updLaneQueues_rest .., fun k hk => queue_updLaneQueues_other c q _ r.nodup s hk,
      fun l hl => queue_updLaneQueues_lane c q _ r.nodup s hl⟩

end Sys2Proof.Proofs
end

section
/-! Instructions that go on or wait (spec/14 R341, R343; 16 R389, R392), and TRAP and BKPT (14 R340). -/

namespace Sys2Proof.Proofs

open Sys2Proof Sys2Proof.Machine Sys2Proof.Laws

/-! ### Going on or waiting -/

theorem completes_pops (c : Ctx) (h : Shape) (x : Issue) (s : State) (words cycles : Nat) :
    Completes c h x s (advance c words cycles (popReads c h x.pops s)) :=
  (onlyQueues_popReads c h x s).completes.moves (onlyMoves_advance c words cycles _)

section
variable {i : Instr} {s u v : State} {c : Ctx} {h : Shape} {x : Issue} {lanes : List Nat} {w : Wait}

/-- An instruction that completes with what leads to u. -/
theorem goes_on (he : exec i s = .next (pairOrder s c h x u)) (goes : Completes c h x s u) :
    ∃ t, exec i s = .next t ∧ SameMemory s t ∧ Completes c h x s t :=
  have done := goes.moves (onlyMoves_pairOrder s c h x u)
  ⟨_, he, done.calm.sameMemory, done⟩

/-- An instruction whose lanes wait. -/
theorem parks_there (he : exec i s = .next (pairOrder s c h x (parkWait c lanes w v))) (stays : Completes c h x s v) :
    ∃ t, exec i s = .next t ∧ SameMemory s t ∧ Parks c h x lanes w s t :=
  have parked := parks_pairOrder (stays.parks lanes w) s
  ⟨_, he, parked.calm.sameMemory, parked⟩

/-- An instruction that goes on when a condition holds, and whose lanes wait when it does not. -/
theorem goes_or_parks {p : Prop} [Decidable p] (he : exec i s = .next (pairOrder s c h x (if p then u else parkWait c lanes w v)))
    (goes : Completes c h x s u) (stays : Completes c h x s v) :
    ∃ t, exec i s = .next t ∧ SameMemory s t ∧ (p → Completes c h x s t) ∧ (¬ p → Parks c h x lanes w s t) := by
  by_cases met : p
  · rw [if_pos met] at he
    obtain ⟨t, runs, same, done⟩ := goes_on he goes
    exact ⟨t, runs, same, fun _ => done, absurd met⟩
  · rw [if_neg met] at he
    obtain ⟨t, runs, same, parked⟩ := parks_there he stays
    exact ⟨t, runs, same, (absurd · met), fun _ => parked⟩

end

/-! ### Tags (16 R392) -/

section
variable {i : Instr} {all : Bool} {s : State} {c : Ctx} {h : Shape} {x : Issue} {l : Nat} {ls : List Nat}

theorem tagsMet_any {t m : W64} : tagsMet t m false = true ↔ t &&& m ≠ 0 ∨ m = 0 := by simp [tagsMet]
theorem tagsMet_all {t m : W64} : tagsMet t m true = true ↔ t &&& m = m := by simp [tagsMet]

theorem tagWait_runs (he : exec i s = tagWait i all s) (r : Runs s i c h x) (lanes : x.lanes = l :: ls) :
    ∃ t, exec i s = .next t ∧ SameMemory s t ∧ (tagsMet (tagsReg c.g) (src64 s c h l 0) all = true → Completes c h x s t)
      ∧ (¬ tagsMet (tagsReg c.g) (src64 s c h l 0) all = true → Parks c h x (lanesOf c.run.lanes) (.tags all (src64 s c h l 0)) s t) := by
  have moved := (onlyMoves_advance c 1 1 s).completes c h x
  refine goes_or_parks ((he.trans (issue_runs r _)).trans ?_) (moved.moves (onlyMoves_tagAcquire c (src64 s c h l 0) _)) moved
  simp only [lanes]

/-- The counts of some tags of a group, set. -/
def clearTags (gid : Nat) (count : Nat → Nat) (ns : List Nat) (s : State) : State :=
  ns.foldl (fun u n => updGroup gid (putTag n (count n)) u) s

theorem sameMemory_clearTags (gid : Nat) (count : Nat → Nat) (ns : List Nat) (s : State) : SameMemory s (clearTags gid count ns s) :=
  sameMemory_of (foldl_keep State.mem _ (fun _ _ => updGroup_mem ..) ns s) (foldl_keep State.sectorKey _ (fun _ _ => updGroup_sectorKey ..) ns s)
    (foldl_keep State.mods _ (fun _ _ => updGroup_mods ..) ns s) (foldl_keep State.poison _ (fun _ _ => updGroup_poison ..) ns s)

theorem sameMemory_settleTags (gid : Nat) (s : State) : SameMemory s (settleTags gid s) := by
  cases known : mget? s.groups gid with
  | none => rw [settleTags, known]; exact (Calm.refl s).sameMemory
  | some g =>
    obtain ⟨ks, ends⟩ := settleTags_known known
    rw [ends]
    exact sameMemory_trans (sameMemory_of rfl rfl rfl rfl) (onlyMoves_acquireSws ks (tagWaitersGone gid g s)).calm.sameMemory

theorem tclr_runs {v : SWord} (r : Runs s (.tclr v) c h x) (lanes : x.lanes = l :: ls) :
    let cleared := clearTags c.run.gid (liveTagOps s c.run.gid) (lanesOf (src64 s c h l 0)) s
    ∃ t, exec (.tclr v) s = .next (pairOrder s c h x (settleTags c.run.gid t)) ∧ SameMemory s (pairOrder s c h x (settleTags c.run.gid t))
      ∧ Completes c h x cleared t := by
  intro cleared
  have moves := onlyMoves_advance c 1 1 cleared
  refine ⟨advance c 1 1 cleared, ((exec_tclr v s).trans (issue_runs r _)).trans ?_, ?_, moves.completes c h x⟩
  · simp only [lanes]
    rfl
  · exact sameMemory_trans (sameMemory_trans (sameMemory_trans (sameMemory_clearTags ..) moves.calm.sameMemory) (sameMemory_settleTags ..))
      (onlyMoves_pairOrder s c h x _).calm.sameMemory

end

/-- Settles O25: TWANY and TWALL by tagWait_runs with the condition of each, TCLR by tclr_runs. -/
theorem tagWaits : Obligations.TagWaits := by
  unfold Obligations.TagWaits
  intro v s c h x l ls m lanes
  refine ⟨fun r => ?_, fun r => ?_, fun r => tclr_runs r lanes⟩
  · obtain ⟨t, runs, same, goes, parks⟩ := tagWait_runs (exec_twany v s) r lanes
    exact ⟨t, runs, same, fun met => goes (tagsMet_any.mpr met), fun none some => parks (by simp [tagsMet_any, m] at none some ⊢; exact ⟨none, some⟩)⟩
  · obtain ⟨t, runs, same, goes, parks⟩ := tagWait_runs (exec_twall v s) r lanes
    exact ⟨t, runs, same, fun met => goes (tagsMet_all.mpr met), fun unmet => parks (mt tagsMet_all.mp unmet)⟩

/-! ### SLEEP and YIELD (14 R341, R343) -/

section
variable {v : SWord} {s : State} {c : Ctx} {h : Shape} {x : Issue} {l : Nat} {ls : List Nat}

theorem src32_toNat (s : State) (c : Ctx) (h : Shape) (l i : Nat) : (src32 s c h l i).toNat = srcN s c h l i % 2 ^ 32 := BitVec.toNat_ofNat ..

theorem sleep_runs (r : Runs s (.sleep v) c h x) (lanes : x.lanes = l :: ls) :
    ∃ t, exec (.sleep v) s = .next t ∧ SameMemory s t ∧ ((src32 s c h l 0).toNat = 0 ∨ c.g.preq = true → Completes c h x s t)
      ∧ (¬ ((src32 s c h l 0).toNat = 0 ∨ c.g.preq = true) →
        Parks c h x (lanesOf c.run.lanes) (.sleep (wtime s c.ret + (src32 s c h l 0).toNat)) s t) := by
  refine goes_or_parks (((exec_sleep v s).trans (issue_runs r _)).trans ?_) (completes_pops c h x s 1 1) (completes_pops c h x s 1 1)
  simp only [lanes, src32_toNat]

/-- Without a request, or where it is not listed, YIELD goes on. -/
theorem yield_goes (r : Runs s (.yield v) c h x)
    (free : c.g.preq = false ∨ liveMask s c.g ((c.pc - BitVec.ofNat 64 c.g.launch.code).toNat / 4) = none) :
    ∃ t, exec (.yield v) s = .next t ∧ SameMemory s t ∧ Completes c h x s t := by
  refine goes_on (((exec_yield v s).trans (issue_runs r _)).trans ?_) ((onlyMoves_advance c 1 1 s).completes c h x)
  rcases free with quiet | unlisted
  · simp [quiet]
  · simp only [unlisted, ite_self]

theorem yield_parks (r : Runs s (.yield v) c h x) (lanes : x.lanes = l :: ls) (request : c.g.preq = true) {m : LiveMask}
    (listed : liveMask s c.g ((c.pc - BitVec.ofNat 64 c.g.launch.code).toNat / 4) = some m) :
    ∃ t, exec (.yield v) s = .next t ∧ SameMemory s t ∧ Parks c h x (lanesOf c.run.lanes) (.yield m.omask m.mmask) s t := by
  refine parks_there (((exec_yield v s).trans (issue_runs r _)).trans ?_) ((onlyMoves_advance c 1 1 s).completes c h x)
  simp only [lanes, request, listed]
  rfl

end

/-- Settles O26: SLEEP by its condition, YIELD by the request and the safe point table. -/
theorem sleepAndYield : Obligations.SleepAndYield := by
  unfold Obligations.SleepAndYield
  intro v s c h x l ls t32 off lanes
  refine ⟨fun r => ?sleep, fun r => ?yield⟩
  case sleep =>
    obtain ⟨t, runs, same, goes, parks⟩ := sleep_runs r lanes
    exact ⟨t, runs, same, goes, fun long quiet => parks (by simp [t32] at long; simp [long, quiet])⟩
  case yield =>
    cases request : c.g.preq with
    | false =>
      obtain ⟨t, runs, same, done⟩ := yield_goes r (.inl request)
      exact ⟨t, runs, same, fun _ => done, nofun⟩
    | true =>
      cases listed : liveMask s c.g off with
      | none =>
        obtain ⟨t, runs, same, done⟩ := yield_goes r (.inr listed)
        exact ⟨t, runs, same, fun _ => done, fun _ _ => nofun⟩
      | some m =>
        obtain ⟨t, runs, same, parked⟩ := yield_parks r lanes request listed
        exact ⟨t, runs, same, by simp, fun _ n found => by cases found; exact parked⟩

/-! ### CWAIT (16 R389) -/

section
variable {v : SWord} {s : State} {c : Ctx} {h : Shape} {x : Issue} {l : Nat} {ls : List Nat} {sel thr : W32}

/-- CWAIT's selector passes its checks. -/
def SelectorPasses (s : State) (c : Ctx) (sel : W32) : Prop :=
  let a := bitsOf sel.toNat 21 0
  (bitOf sel.toNat 31 = true ∧ bitsOf sel.toNat 30 10 = 0 ∧ endpointRoot s c.ret (bitsOf sel.toNat 9 0) = some c.g.root)
  ∨ (bitOf sel.toNat 31 = false ∧ bitsOf sel.toNat 30 22 = 0 ∧ a % 16 = 0
      ∧ (cwaitMember c.core a = c.core ∨ foreignHost s (cwaitMember c.core a) c.g.m c.g.root = false) ∧ cwaitDead s c.core sel = none)

/-- CWAIT once its selector has passed. -/
def cwaitGoes (sel thr : W32) (c : Ctx) (h : Shape) (x : Issue) (s : State) : State :=
  let t := advance c 1 1 (popReads c h x.pops s)
  if cwaitMet s c.core sel thr then cwaitAcquire c.core c.sw t else parkWait c (lanesOf c.run.lanes) (.cwait sel thr) t

theorem exec_cwait_passes (r : RunsOrdered operandCheck s (.cwait v) c h x) (lanes : x.lanes = l :: ls) (passes : SelectorPasses s c (src32 s c h l 0)) :
    exec (.cwait v) s = .next (pairOrder s c h x (cwaitGoes (src32 s c h l 0) (src32 s c h l 1) c h x s)) := by
  refine ((exec_cwait v s).trans (issueOrdered_runs r _)).trans ?_
  rcases passes with ⟨remote, high, own⟩ | ⟨here, high, aligned, member, alive⟩
  · simp only [lanes, remote, high, own, if_true, ne_eq, not_true_eq_false, if_false]
    rfl
  · have near : ¬ (cwaitMember c.core (bitsOf (src32 s c h l 0).toNat 21 0) ≠ c.core
        ∧ foreignHost s (cwaitMember c.core (bitsOf (src32 s c h l 0).toNat 21 0)) c.g.m c.g.root = true) := by
      rcases member with same | own
      · exact fun other => other.1 same
      · simp [own]
    simp only [lanes, here, high, aligned, alive, if_neg near, ne_eq, not_true_eq_false, if_false, Bool.false_eq_true]
    rfl

theorem sendsNothing_popsAdvance : SendsNothing (usesQueue c h x) s (advance c 1 1 (popReads c h x.pops s)) :=
  (sendsNothing_of_queues (onlyQueues_popReads c h x s)).trans (sendsNothing_of_moves (onlyMoves_advance c 1 1 _))

/-- The acquire that ends a CWAIT empties the L1 of its core, and sends nothing. -/
theorem sendsNothing_cwaitAcquire {K : Nat → Prop} (core k : Nat) (s : State) : SendsNothing K s (cwaitAcquire core k s) :=
  ⟨(onlySends_updCore K core (fun y => { y with l1 := [] }) (fun _ => rfl) s).trans ((onlyMoves_acquireSws [k] _).sends K), rfl, rfl⟩

theorem l1_cwaitAcquire (core k : Nat) (s : State) : ((cwaitAcquire core k s).core core).l1 = [] :=
  congrArg CoreSt.l1 (core_updCore_self core (fun y => { y with l1 := [] }) s)

end

/-- Settles O28: with a selector that passes, CWAIT goes on with an acquire or its lanes wait. -/
theorem counterWaits : Obligations.CounterWaits := by
  unfold Obligations.CounterWaits
  intro v s c h x l ls sel thr a remote core lanes r passes
  have runs := exec_cwait_passes r lanes passes
  cases met : cwaitMet s c.core sel thr with
  | true =>
    rw [show cwaitGoes (src32 s c h l 0) (src32 s c h l 1) c h x s = cwaitAcquire c.core c.sw (advance c 1 1 (popReads c h x.pops s)) from if_pos met] at runs
    have moves := onlyMoves_pairOrder s c h x (cwaitAcquire c.core c.sw (advance c 1 1 (popReads c h x.pops s)))
    have quiet := (sendsNothing_popsAdvance.trans (sendsNothing_cwaitAcquire c.core c.sw _)).trans (sendsNothing_of_moves (K := usesQueue c h x) moves)
    exact ⟨_, runs, quiet.sends.sameMemory, fun _ => ⟨quiet.sends, quiet.flight, (l1_of_moves moves c.core).trans (l1_cwaitAcquire ..)⟩, nofun⟩
  | false =>
    rw [show cwaitGoes (src32 s c h l 0) (src32 s c h l 1) c h x s
      = parkWait c (lanesOf c.run.lanes) (.cwait sel thr) (advance c 1 1 (popReads c h x.pops s)) from if_neg (by simp [sel, thr] at met; simp [met])] at runs
    obtain ⟨t, runs, same, parked⟩ := parks_there runs (completes_pops c h x s 1 1)
    exact ⟨t, runs, same, nofun, fun _ => parked⟩

/-! ### TRAP and BKPT (14 R340) -/

/-- With no lane, an instruction that takes a fault in its first lane goes on. -/
theorem trap_skips {i : Instr} {act : Ctx → Shape → Issue → State → State} {s : State} {c : Ctx} {h : Shape} {x : Issue}
    (he : exec i s = issue i act s) (r : Runs s i c h x) (skips : act c h x s = advance c 1 1 s) : ∃ t, exec i s = .next t ∧ Completes c h x s t := by
  obtain ⟨t, runs, -, done⟩ := goes_on ((he.trans (issue_runs r act)).trans (by rw [skips])) ((onlyMoves_advance c 1 1 s).completes c h x)
  exact ⟨t, runs, done⟩

/-- Settles O29. -/
theorem traps : Obligations.Traps := by
  unfold Obligations.Traps
  refine ⟨by decide, by decide, fun v s c h x => ⟨fun r => ⟨fun none => ?_, fun l ls lanes => ?_⟩, fun r => ⟨fun none => ?_, fun some => ?_⟩⟩⟩
  · exact trap_skips (exec_trap v s) r (by simp only [none])
  · refine ((exec_trap v s).trans (issue_runs r _)).trans ?_
    simp only [lanes, src32_toNat]
    rfl
  · exact trap_skips (exec_bkpt v s) r (by simp only [none])
  · obtain ⟨l, ls, lanes⟩ := List.exists_cons_of_ne_nil some
    refine ((exec_bkpt v s).trans (issue_runs r _)).trans ?_
    simp only [lanes]
    rfl

end Sys2Proof.Proofs
end

section
/-! Barrier arrivals at issue (spec/16 R381, R382, R384): what BAR, BARA, BARW and FBAR record before a slot or a tree is tested. -/

namespace Sys2Proof.Proofs

open Sys2Proof Sys2Proof.Machine Sys2Proof.Laws

/-! ### What sources pop, beside other changes -/

section
variable {s t : State} {K : Nat → Prop} (q : OnlyQueues s t K)
include q

theorem onlyQueues_updGroup (gid : Nat) (f : Machine.Group → Machine.Group) : OnlyQueues (updGroup gid f s) (updGroup gid f t) K := by
  have groups : t.groups = s.groups := (congrArg State.groups q.rest :)
  cases known : mget? s.groups gid with
  | none => simpa only [updGroup, groups, known] using q
  | some g =>
    simp only [updGroup, groups, known]
    exact ⟨(congrArg (fun y : State => { y with groups := mput s.groups gid (f g) }) q.rest :), q.queues⟩

theorem onlyQueues_recordArrivals (c : Ctx) (b : Nat) (gen : W32) (lanes : List Nat) :
    OnlyQueues (recordArrivals c b gen lanes s) (recordArrivals c b gen lanes t) K :=
  OnlyQueues.foldl (fun t l => updTh (c.th l) (fun th => { th with arr := mput th.arr b gen }) t) (fun _ _ _ k => k.updTh _ _) lanes q

theorem onlyQueues_sendPacket (src dst : Nat) (ordered : Bool) (stamp seq : Nat) (body : Body) :
    OnlyQueues (sendPacket src dst ordered stamp seq body s) (sendPacket src dst ordered stamp seq body t) K :=
  ⟨(congrArg (sendPacket src dst ordered stamp seq body) q.rest :), q.queues⟩

end

/-! ### BAR and BARA (R381) -/

/-- A slot that some lanes of a slice-warp have reached: the first arrival sets EXPECT and the slice kind. -/
def arrivedSlot (c : Ctx) (y : Slot) (n count : Nat) : Slot :=
  let y1 : Slot := if y.count == 0 && y.arrived == 0 then { y with expect := n, kind := c.run.slice.code } else y
  { y1 with
    count := y1.count + count
    arrived := y1.arrived ||| BitVec.ofNat 32 (2 ^ (2 * c.run.warp + c.run.slice.code)) }

theorem arrivedSlot_eq (c : Ctx) (y : Slot) (n count : Nat) : arrivedSlot c y n count =
    { y with
      expect := if y.count = 0 ∧ y.arrived = 0 then n else y.expect
      kind := if y.count = 0 ∧ y.arrived = 0 then c.run.slice.code else y.kind
      count := y.count + count
      arrived := y.arrived ||| BitVec.ofNat 32 (2 ^ (2 * c.run.warp + c.run.slice.code)) } := by
  have test : (y.count == 0 && y.arrived == 0) = true ↔ y.count = 0 ∧ y.arrived = 0 := by simp
  by_cases first : y.count = 0 ∧ y.arrived = 0
  · simp only [arrivedSlot, if_pos (test.mpr first), if_pos first]
  · simp only [arrivedSlot, if_neg (mt test.mp first), if_neg first]

/-- The lanes that execute have arrived at slot b. -/
def lanesArrived (c : Ctx) (b n : Nat) (lanes : List Nat) (s : State) : State :=
  putSlot c.run.gid b (arrivedSlot c (slotOf c.g b) n lanes.length) (recordArrivals c b (slotOf c.g b).gen lanes s)

/-- An arrival at slot b passes the checks of R381. -/
def SlotOpen (s : State) (c : Ctx) (b n : Nat) : Prop :=
  let y := slotOf c.g b
  y.fabric = false ∧ y.lost = false ∧ releaseDone s c 3 = true ∧ n < 4096
    ∧ ((y.count = 0 ∧ y.arrived = 0) ∨ y.expect ≠ 0 ∨ c.run.slice.code = y.kind)

section
variable {i : Instr} {v : SWord} {waits : Bool} {s : State} {c : Ctx} {h : Shape} {x : Issue} {l : Nat} {ls : List Nat}

theorem not_stalled {b : Bool} (done : b = true) : ¬ (!b) = true := by simp [done]

theorem exec_arrive_open (he : exec i s = arrive i v waits s) (r : RunsOrdered operandCheck s i c h x) (lanes : x.lanes = l :: ls)
    (opens : SlotOpen s c v.d.toNat (src32 s c h l 0).toNat) (quiet : waits = true → sfuPending s c.run.gid c.run.warp c.run.slice = false ∧ fpTest s c = 0) :
    let t := advance c 1 1 (lanesArrived c v.d.toNat (src32 s c h l 0).toNat (execLanes s c h.gsel h.gn) (popReads c h x.pops s))
    exec i s = .next (pairOrder s c h x (testSlot c.run.gid v.d.toNat
      (if waits then parkWait c (execLanes s c h.gsel h.gn) (.bar v.d.toNat) t else t))) := by
  intro t
  obtain ⟨own, kept, released, small, kind⟩ := opens
  rw [src32_toNat] at small
  have clear : ¬ ((!((slotOf c.g v.d.toNat).count == 0 && (slotOf c.g v.d.toNat).arrived == 0) && (slotOf c.g v.d.toNat).expect == 0
      && c.run.slice.code != (slotOf c.g v.d.toNat).kind) = true) := by
    rcases kind with first | set | same
    · simp [first]
    · simp [set]
    · simp [same]
  refine (he.trans (issueOrdered_runs r _)).trans ?_
  cases waits with
  | false =>
    simp only [lanes, if_neg (Bool.eq_false_iff.mp own), if_neg (Bool.eq_false_iff.mp kept), if_neg (not_stalled released), if_neg (Nat.not_le.mpr small),
      if_neg clear, if_neg Bool.false_ne_true]
    rfl
  | true =>
    rw [lanes]
    simp only [deliver_of_quiet (quiet rfl).1 (quiet rfl).2, if_neg (Bool.eq_false_iff.mp own), if_neg (Bool.eq_false_iff.mp kept), if_neg (not_stalled released),
      if_neg (Nat.not_le.mpr small), if_neg clear, if_pos trivial]
    rfl

theorem completes_arrives (b n : Nat) (lanes : List Nat) :
    Completes c h x (lanesArrived c b n lanes s) (advance c 1 1 (lanesArrived c b n lanes (popReads c h x.pops s))) :=
  (onlyQueues_updGroup (onlyQueues_recordArrivals (onlyQueues_popReads c h x s) c b _ lanes) _ _).completes.moves (onlyMoves_advance c 1 1 _)

end

/-! ### BARW (R382) -/

/-- The records of some lanes at slot b have ended. -/
def recordsEnded (c : Ctx) (b : Nat) (lanes : List Nat) (s : State) : State :=
  lanes.foldl (fun t l => updTh (c.th l) (fun th => { th with arr := mdel th.arr b }) t) s

/-- BARW at a slot that is not lost. -/
theorem barw_runs {v : SWord} {s : State} {c : Ctx} {h : Shape} {x : Issue} {l : Nat} {ls : List Nat} (r : RunsOrdered operandCheck s (.barw v) c h x)
    (lanes : x.lanes = l :: ls) (kept : (slotOf c.g v.d.toNat).lost = false) :
    let held := x.lanes.filter (fun l => mget? (s.thread (c.th l)).arr v.d.toNat == some (slotOf c.g v.d.toNat).gen)
    ∃ t, exec (.barw v) s = .next t
      ∧ Parks c h x held (.barw v.d.toNat) (recordsEnded c v.d.toNat (x.lanes.filter (fun l => !held.contains l)) s) t := by
  intro held
  let ended := recordsEnded c v.d.toNat (x.lanes.filter (fun l => !held.contains l)) s
  have acquires : ∀ p : Bool, OnlyMoves ended (if p then acquireSws [c.sw] ended else ended) := fun p => by
    split_ifs
    · exact onlyMoves_acquireSws _ _
    · exact .refl _
  have some_lane : ¬ x.lanes.isEmpty = true := by simp [lanes]
  have runs := (exec_barw v s).trans (issueOrdered_runs r _)
  simp only [if_neg some_lane, if_neg (Bool.eq_false_iff.mp kept)] at runs
  exact ⟨_, runs, parks_pairOrder ((((acquires _).trans (onlyMoves_advance c 1 1 _)).completes c h x).parks held (.barw v.d.toNat)) s⟩

/-! ### FBAR (R384) -/

/-- FBAR of a tree that its slot may join. -/
theorem fbar_runs {v : SWord} {s : State} {c : Ctx} {h : Shape} {x : Issue} {l : Nat} {ls : List Nat} {e : Tree}
    (r : RunsOrdered operandCheck s (.fbar v) c h x) (lanes : x.lanes = l :: ls) :
    let y := slotOf c.g v.d.toNat
    let n := (src32 s c h l 0).toNat
    n < 256 → y.lost = false → (y.fabric = true ∨ y.count = 0) → (y.fabric = true → y.tree = n) → treeOf s c.ret n = some e →
    e.rootreg = c.g.root → e.lost = false → releaseDone s c e.scope = true →
    ∃ t, exec (.fbar v) s = .next t ∧ Completes c h x (sendPacket c.ret c.ret false 0 0 (.fbarArrive n e.gen 5)
      (putSlot c.run.gid v.d.toNat { y with fabric := true, tree := n } (recordArrivals c v.d.toNat y.gen (execLanes s c h.gsel h.gn) s))) t := by
  intro y n small kept joins same tree own alive released
  have unlocal : ¬ (!y.fabric && y.count != 0) = true := by
    rcases joins with fabric | unused
    · simp [fabric]
    · simp [unused]
  have sameTree : ¬ (y.fabric && y.tree != n) = true := by
    cases fabric : y.fabric with
    | false => simp
    | true => simp [same fabric]
  have runs := (exec_fbar v s).trans (issueOrdered_runs r _)
  simp only [lanes, ← src32_toNat] at runs
  rw [if_neg (Nat.not_le.mpr small), if_neg (Bool.eq_false_iff.mp kept), if_neg unlocal, if_neg sameTree] at runs
  simp only [show treeOf s c.ret (src32 s c h l 0).toNat = some e from tree, ne_eq, own, not_true_eq_false, if_false, if_neg (Bool.eq_false_iff.mp alive),
    if_neg (not_stalled released)] at runs
  have arrives := onlyQueues_sendPacket (onlyQueues_updGroup (onlyQueues_recordArrivals (onlyQueues_popReads c h x s) c v.d.toNat y.gen (execLanes s c h.gsel h.gn))
    c.run.gid (fun g => { g with slots := mput g.slots v.d.toNat { y with fabric := true, tree := n } })) c.ret c.ret false 0 0 (.fbarArrive n e.gen 5)
  exact ⟨_, runs, (arrives.completes.moves (onlyMoves_advance c 1 1 _)).moves (onlyMoves_pairOrder s c h x _)⟩

/-- Settles O27: BAR and BARA by exec_arrive_open, BARW by barw_runs, FBAR by fbar_runs. -/
theorem barrierArrivals : Obligations.BarrierArrivals := by
  unfold Obligations.BarrierArrivals
  intro v s c h x l ls b y n lanes first arrived open' some_lane
  have arrives : arrived = lanesArrived c b n lanes s := congrArg (putSlot c.run.gid b · (recordArrivals c b y.gen lanes s)) (arrivedSlot_eq c y n lanes.length).symm
  rw [arrives]
  refine ⟨fun r opens landed quiet => ?bar, fun r opens => ?bara, fun r kept => barw_runs r some_lane kept,
    fun r e small kept joins same tree own alive released => fbar_runs r some_lane small kept joins same tree own alive released⟩
  case bar => exact ⟨_, exec_arrive_open (waits := true) (exec_bar v s) r some_lane opens (fun _ => ⟨landed, quiet⟩), (completes_arrives b n lanes).parks lanes (.bar b)⟩
  case bara => exact ⟨_, exec_arrive_open (waits := false) (exec_bara v s) r some_lane opens nofun, completes_arrives b n lanes⟩

end Sys2Proof.Proofs
end

section
/-! COPY, the posting instructions and NFLUSH at issue (spec/14 R322, R323, R328 to R330, R333, R334; 13 R311; 16 R390). -/

namespace Sys2Proof.Proofs

open Sys2Proof Sys2Proof.Machine Sys2Proof.Laws

section
variable {i : Instr} {act : Ctx → Shape → Issue → State → State} {s u : State} {c : Ctx} {h : Shape} {x : Issue} {words cycles : Nat}

/-- What an instruction that a fence may hold back leaves, whose act changes some of the state and then moves on. -/
theorem ordered_moves (he : exec i s = issueOrdered operandCheck i act s) (r : RunsOrdered operandCheck s i c h x)
    (acts : act c h x s = advance c words cycles u) : ∃ t, exec i s = .next t ∧ OnlyMoves u t :=
  ⟨_, (he.trans (issueOrdered_runs r _)).trans (by rw [acts]), (onlyMoves_advance c words cycles u).trans (onlyMoves_pairOrder s c h x _)⟩

/-- As ordered_moves where what is changed leaves memory as it was. -/
theorem ordered_completes (he : exec i s = issueOrdered operandCheck i act s) (r : RunsOrdered operandCheck s i c h x)
    (acts : act c h x s = advance c words cycles u) (same : SameMemory s u) : ∃ t, exec i s = .next t ∧ SameMemory s t ∧ Completes c h x u t := by
  obtain ⟨t, runs, moves⟩ := ordered_moves he r acts
  exact ⟨t, runs, sameMemory_trans same moves.calm.sameMemory, moves.completes c h x⟩

end

/-- A tag counts one more beside a change that leaves memory as it was. -/
theorem sameMemory_tagUp {s u : State} (gid n : Nat) (same : SameMemory s u) : SameMemory s (tagUp gid n u) :=
  sameMemory_trans same (sameMemory_of (updGroup_mem ..) (updGroup_sectorKey ..) (updGroup_mods ..) (updGroup_poison ..))

/-! ### COPY -/

/-- Settles O31. -/
theorem copies : Obligations.Copies := by
  unfold Obligations.Copies
  intro w ctl s c h x l ls a tag lanes r clean room free
  refine ordered_completes (words := 2) (cycles := 1) (exec_copy w ctl s) r ?_ (sameMemory_tagUp c.run.gid tag (sameMemory_of rfl rfl rfl rfl))
  have goes : ¬ (decide ((s.core c.core).copyq.length ≥ 8) || tagFull s c.run.gid tag) = true := by simp [room, free]
  simp only [lanes]
  rw [show descriptorFault s c (srcN s c h l 0) = none from clean]
  exact if_neg goes

/-! ### Posting (14 R328 to R330, R333) -/

section
variable {i : Instr} {s : State} {c : Ctx} {h : Shape} {x : Issue} {l : Nat} {ls : List Nat} {q opc : Nat} {wr : WorkReq} {ctl : W32}

/-- A work request whose queue is bound to the root, whose tag can count and for which there is room enters its queue. -/
theorem postRequest_enters (bound : endpointRoot s c.ret q = some c.g.root) (free : tagFull s c.run.gid wr.tag = false)
    (room : c.run.reserved.contains q = true ∨ wrqUsed s c.ret q < 64) :
    postRequest i c l q wr s = advance c (instrWords i) 1 (enterRequest c q wr (takeReserved c q s)) := by
  have place : ¬ (!c.run.reserved.contains q && decide (wrqUsed s c.ret q ≥ 64)) = true := by
    rcases room with reserved | below
    · rw [reserved]; exact Bool.false_ne_true
    · rw [decide_eq_false (Nat.not_le.mpr below), Bool.and_false]; exact Bool.false_ne_true
  rw [postRequest, if_neg (not_not_intro bound), if_neg (Bool.eq_false_iff.mp free), if_neg place]

/-- RPUT, RGET and RATOM within their limits, both of whose addresses translate. -/
theorem directPost_enters (he : exec i s = directPost i opc ctl s) (lanes : x.lanes = l :: ls) (r : RunsOrdered operandCheck s i c h x)
    (least : 1 ≤ (directRequest s c h l opc ctl).length) (most : (directRequest s c h l opc ctl).length ≤ 0x1000000)
    (ordered : (directRequest s c h l opc ctl).ordered = true → (directRequest s c h l opc ctl).length ≤ 4096 ∧ bitOf (netfOf s c.g) 1 = true)
    (inside : (directRequest s c h l opc ctl).landing < 0x400000) (line : (directRequest s c h l opc ctl).landing % 16 = 0)
    (aligned : opc = 3 → (directRequest s c h l opc ctl).laddr % 8 = 0 ∧ (directRequest s c h l opc ctl).raddr % 8 = 0)
    (near : ∃ pa e, planVirtual s c (if opc = 0 then .read else .write) (BitVec.ofNat 64 (directRequest s c h l opc ctl).laddr) 0 = .ok pa e) {pa e : Nat}
    (far : planVirtual s c (if opc = 2 then .read else .write) (BitVec.ofNat 64 (directRequest s c h l opc ctl).raddr) 0 = .ok pa e)
    (bound : endpointRoot (dropWalkFaults c s) c.ret (qidxOf ctl) = some c.g.root)
    (free : tagFull (dropWalkFaults c s) c.run.gid (directRequest s c h l opc ctl).tag = false)
    (room : c.run.reserved.contains (qidxOf ctl) = true ∨ wrqUsed (dropWalkFaults c s) c.ret (qidxOf ctl) < 64) :
    ∃ t, exec i s = .next t ∧ Completes c h x (enterRequest c (qidxOf ctl) { directRequest s c h l opc ctl with target := retOf pa }
      (takeReserved c (qidxOf ctl) (dropWalkFaults c s))) t := by
  obtain ⟨pa', e', near⟩ := near
  have limits : ¬ ((directRequest s c h l opc ctl).length < 1 ∨ (directRequest s c h l opc ctl).length > 0x1000000
      ∨ ((directRequest s c h l opc ctl).ordered = true ∧ (directRequest s c h l opc ctl).length > 4096)
      ∨ (directRequest s c h l opc ctl).landing ≥ 0x400000) := by
    rintro (small | large | ⟨keyed, large⟩ | beyond)
    · omega
    · omega
    · exact absurd (ordered keyed).1 (Nat.not_le.mpr large)
    · omega
  have allowed : ¬ ((directRequest s c h l opc ctl).ordered && !bitOf (netfOf (dropWalkFaults c s) c.g) 1) = true := by
    cases keyed : (directRequest s c h l opc ctl).ordered with
    | false => simp
    | true => exact not_stalled (ordered keyed).2
  have plans : ∀ p ∈ [(⟨l, (BitVec.ofNat 64 (directRequest s c h l opc ctl).laddr).toInt, .ok pa' e'⟩ : LanePlan),
      ⟨l, (BitVec.ofNat 64 (directRequest s c h l opc ctl).raddr).toInt, .ok pa e⟩], ∃ pa e, p.plan = .ok pa e := by simp
  obtain ⟨t, runs, moves⟩ := ordered_moves (words := instrWords i) (cycles := 1) he r (by
    simp only [lanes]
    rw [if_neg limits, if_neg (fun ⟨k, off⟩ => off (aligned k).1), if_neg (fun ⟨k, off⟩ => off (aligned k).2), if_neg (not_not_intro line), planEndpoint, planEndpoint,
      near, far, settleTwo, settlePlans_ok plans]
    exact (if_neg allowed).trans (postRequest_enters bound free room))
  exact ⟨t, runs, moves.completes c h x⟩

/-- NPOST of a request within its limits, at a target that its region may reach. -/
theorem npost_enters {w : XWord} (lanes : x.lanes = l :: ls) (r : RunsOrdered operandCheck s (.npost w ctl) c h x)
    (wr_eq : wr = workReq (readRaw s (scratchPa c.core (srcN s c h l 0)) 64)) (clean : descriptorFault s c (srcN s c h l 0) = none)
    (stored : spadStoresOut s c = false) (alive : (s.core (memberCore c.core (srcN s c h l 0))).dead = false)
    (sound : poisonedIn s (scratchPa c.core (srcN s c h l 0)) 64 = none) (good : wr.bad = false) (reachable : targetDenied s c wr = false)
    (bound : endpointRoot s c.ret (qidxOf ctl) = some c.g.root) (free : tagFull s c.run.gid wr.tag = false)
    (room : c.run.reserved.contains (qidxOf ctl) = true ∨ wrqUsed s c.ret (qidxOf ctl) < 64) :
    ∃ t, exec (.npost w ctl) s = .next t ∧ Completes c h x (enterRequest c (qidxOf ctl) wr (takeReserved c (qidxOf ctl) s)) t := by
  obtain ⟨t, runs, moves⟩ := ordered_moves (words := instrWords (.npost w ctl)) (cycles := 1) (exec_npost w ctl s) r (by
    simp only [lanes, clean, sound, if_neg (Bool.eq_false_iff.mp stored), if_neg (Bool.eq_false_iff.mp alive), ← wr_eq, if_neg (Bool.eq_false_iff.mp good),
      if_neg (Bool.eq_false_iff.mp reachable)]
    exact postRequest_enters bound free room)
  exact ⟨t, runs, moves.completes c h x⟩

end

/-- Settles O32: RPUT, RGET and RATOM by directPost_enters, NPOST by npost_enters. -/
theorem networkPosts : Obligations.NetworkPosts := by
  unfold Obligations.NetworkPosts
  intro w ctl s c h x l ls q room entered direct
  have each : ∀ i opc, exec i s = directPost i opc ctl s → direct i opc :=
    fun i opc he lanes r least most ordered inside line aligned near pa e far ⟨bound, free, place⟩ =>
      directPost_enters he lanes r least most ordered inside line aligned near far bound free place
  exact ⟨each _ _ (exec_rput w ctl s), each _ _ (exec_rget w ctl s), each _ _ (exec_ratom w ctl s),
    fun lanes r clean stored alive sound good reachable ⟨bound, free, place⟩ =>
      npost_enters lanes r rfl clean stored alive sound good reachable bound free place⟩

/-! ### NFLUSH (14 R334) -/

/-- The requests of a slice-warp that are on the way to a target. -/
def onTheWay (s : State) (c : Ctx) (t : Nat) : List Nat :=
  (s.works.filter (fun e => e.2.gid == c.run.gid && e.2.warp == c.run.warp && e.2.slice == c.run.slice
    && e.2.wr.puts && e.2.wr.target == t && !placedWholly s e.1)).map (·.1)

/-- An NFLUSH in flight, its tag not yet counted. -/
def flushStarted (c : Ctx) (tag : Nat) (covers : List Nat) (s : State) : State :=
  { s with nextId := s.nextId + 1, flushes := mput s.flushes s.nextId ⟨c.run.gid, c.run.warp, c.run.slice, tag, covers, false⟩ }

theorem nflush_act {s : State} {c : Ctx} {h : Shape} {x : Issue} {l : Nat} {ls : List Nat} {w : XWord} {ctl : W32} (lanes : x.lanes = l :: ls)
    (r : RunsOrdered operandCheck s (.nflush w ctl) c h x)
    (fits : if bitOf (srcN s c h l 0) 31 then bitsOf (srcN s c h l 0) 30 24 = 0 ∧ bitsOf ctl.toNat 9 6 = 10 else bitsOf (srcN s c h l 0) 30 17 = 0)
    (free : tagFull s c.run.gid (bitsOf ctl.toNat 5 0) = false) :
    exec (.nflush w ctl) s = .next (pairOrder s c h x (if (onTheWay s c (srcN s c h l 0)).isEmpty then advance c 2 1 s
      else advance c 2 1 (tagUp c.run.gid (bitsOf ctl.toNat 5 0) (flushStarted c (bitsOf ctl.toNat 5 0) (onTheWay s c (srcN s c h l 0)) s)))) := by
  have scope : ¬ (bitOf (srcN s c h l 0) 31 && (bitsOf ctl.toNat 9 6 != 10)) = true := by
    split_ifs at fits with peer
    · simp [fits.2]
    · simp [peer]
  have target : (if bitOf (srcN s c h l 0) 31 then bitsOf (srcN s c h l 0) 30 24 else bitsOf (srcN s c h l 0) 30 17) = 0 := by
    split_ifs at fits ⊢
    · exact fits.1
    · exact fits
  refine ((exec_nflush w ctl s).trans (issueOrdered_runs r _)).trans ?_
  simp only [lanes]
  rw [if_neg scope, if_neg (not_not_intro target), if_neg (Bool.eq_false_iff.mp free)]
  rfl

/-- Settles O34: nflush_act, with nothing on the way and with something. -/
theorem networkFlushes : Obligations.NetworkFlushes := by
  unfold Obligations.NetworkFlushes
  intro w ctl s c h x l ls t tag covers lanes r fits free
  have runs := nflush_act lanes r fits free
  change exec (.nflush w ctl) s = .next (pairOrder s c h x (if covers.isEmpty then _ else advance c 2 1 (tagUp c.run.gid tag (flushStarted c tag covers s)))) at runs
  by_cases arrived : covers = []
  · rw [if_pos (by simp [arrived])] at runs
    obtain ⟨v, runs, same, done⟩ := goes_on runs ((onlyMoves_advance c 2 1 s).completes c h x)
    exact ⟨v, runs, same, fun _ => done, absurd arrived⟩
  · rw [if_neg (by simpa using arrived)] at runs
    have moves := (onlyMoves_advance c 2 1 (tagUp c.run.gid tag (flushStarted c tag covers s))).trans (onlyMoves_pairOrder s c h x _)
    exact ⟨_, runs, sameMemory_trans (sameMemory_tagUp _ _ (u := flushStarted c tag covers s) (sameMemory_of rfl rfl rfl rfl)) moves.calm.sameMemory, (absurd · arrived),
      fun _ => moves.completes c h x⟩

end Sys2Proof.Proofs
end

section
/-! LGRID, ETRIG and DIST at issue (spec/14 R337 to R339; 02 R45). -/

namespace Sys2Proof.Proofs

open Sys2Proof Sys2Proof.Machine Sys2Proof.Laws

/-- A long-latency result of one lane starts. -/
theorem starts_launchLong (c : Ctx) (h : Shape) (x : Issue) (kind : Nat) (ready : Bool) (l v : Nat) (s : State) :
    Starts s (launchLong c h kind ready [(l, v)] 0 s) c h { x with lanes := [l] } kind ready (fun _ => v) 0 := by
  cases write : h.write with
  | none =>
    rw [show launchLong c h kind ready [(l, v)] 0 s = s by rw [launchLong, write]]
    exact (OnlyMoves.refl s).starts (.inl write)
  | some u =>
    refine InFlight.starts write rfl (launchLong_inFlight c h kind ready [(l, v)] 0 s u write _ fun queue p mem => ?_) (OnlyMoves.refl _)
    obtain rfl := List.mem_singleton.mp mem
    exact .inr ⟨l, List.mem_singleton.mpr rfl, u, write, queue, rfl⟩

section
variable {w : XWord} {ctl : W32} {s : State} {c : Ctx} {h : Shape} {x : Issue} {l : Nat} {ls : List Nat}

/-- An instruction that starts one result and moves on. -/
theorem starts_one {i : Instr} {act : Ctx → Shape → Issue → State → State} {kind v : Nat} {ready : Bool}
    (he : exec i s = issueOrdered operandCheck i act s) (r : RunsOrdered operandCheck s i c h x)
    (acts : act c h x s = advance c 2 1 (launchLong c h kind ready [(l, v)] 0 s)) :
    ∃ t, exec i s = .next t ∧ Starts s t c h { x with lanes := [l] } kind ready (fun _ => v) 0 ∧ SameMemory s t := by
  obtain ⟨t, runs, moves⟩ := ordered_moves he r acts
  have starts := (starts_launchLong c h x kind ready l v s).moves moves
  exact ⟨t, runs, starts, starts.sameMemory⟩

/-- LGRID of a queue that takes no command has its status at once. -/
theorem lgrid_refused (lanes : x.lanes = l :: ls) (r : RunsOrdered operandCheck s (.lgrid w ctl) c h x) (released : releaseDone s c 7 = true)
    (aligned : srcN s c h l 0 % 128 = 0) {st : Nat} (refuses : lgridQueue s c.g.m c.g.root (srcN s c h l 1 % 2 ^ 32) = .inl st) :
    ∃ t, exec (.lgrid w ctl) s = .next t ∧ Starts s t c h { x with lanes := [l] } 2 true (fun _ => st) 0 ∧ SameMemory s t :=
  starts_one (exec_lgrid w ctl s) r (by
    simp only [lanes, if_neg (not_stalled released), if_neg (not_not_intro aligned), refuses]
    rfl)

/-- LGRID writes its command, and rings the doorbell once its result is awaited. -/
theorem lgrid_posts (lanes : x.lanes = l :: ls) (r : RunsOrdered operandCheck s (.lgrid w ctl) c h x) (released : releaseDone s c 7 = true)
    (aligned : srcN s c h l 0 % 128 = 0) {q : CmdQueue} (takes : lgridQueue s c.g.m c.g.root (srcN s c h l 1 % 2 ^ 32) = .inr q) {v : State}
    (reads : readVa s c.g.m c.g.root (q.slotVa q.pidx.toNat) 64 ≠ none)
    (writes : writeVa s c.g.m c.g.root (q.slotVa q.pidx.toNat) (launchBytes (srcN s c h l 0)) = some v) :
    ∃ y t, exec (.lgrid w ctl) s = .next t ∧ Starts v y c h { x with lanes := [l] } 2 false (fun _ => 0) 0
      ∧ OnlyMoves (ringDoorbell c.g.m q.doorbell (q.pidx + 1) (.lgrid c.g.region v.nextId) y) t := by
  obtain ⟨bs, read⟩ := Option.ne_none_iff_exists'.mp reads
  obtain ⟨t, runs, moves⟩ := ordered_moves (words := 2) (cycles := 1)
      (u := ringDoorbell c.g.m q.doorbell (q.pidx + 1) (.lgrid c.g.region v.nextId) (launchLong c h 2 false [(l, 0)] 0 v)) (exec_lgrid w ctl s) r (by
    simp only [lanes, if_neg (not_stalled released), if_neg (not_not_intro aligned), takes, read, Option.bind_some, writes]
    rfl)
  exact ⟨_, t, runs, starts_launchLong c h x 2 false l 0 v, moves⟩

theorem etrig_runs (lanes : x.lanes = l :: ls) (r : RunsOrdered operandCheck s (.etrig w ctl) c h x) (released : releaseDone s c 7 = true) :
    ∃ t, exec (.etrig w ctl) s = .next t ∧ OnlyMoves (updGrid c.g.m c.g.grid (fun g => { g with triggered := sadd g.triggered c.g.index })
      (updGroup c.run.gid (fun g => { g with triggered := true }) s)) t :=
  ordered_moves (words := 2) (cycles := 1) (exec_etrig w ctl s) r (by simp only [lanes, if_neg (not_stalled released)])

end

/-- Settles O35. -/
theorem launchingInstructions : Obligations.LaunchingInstructions := by
  unfold Obligations.LaunchingInstructions
  intro w ctl s c h x l ls a b lanes
  exact ⟨fun r released aligned => ⟨fun st refuses => lgrid_refused lanes r released aligned refuses,
      fun q v takes reads writes => lgrid_posts lanes r released aligned takes reads writes⟩,
    fun r released => etrig_runs lanes r released, fun r => starts_one (exec_dist w ctl s) r (by simp only [lanes]; rfl)⟩

end Sys2Proof.Proofs
end

section
/-! The taking of a fault (spec/17 R398 to R406): what a halt leaves as it was, what the host hears, and how the grids and groups of a domain end. -/

namespace Sys2Proof.Proofs

open Sys2Proof Sys2Proof.Machine Sys2Proof.Laws

/-! ### The issue of a group stops (R399) -/

/-- Only the positions of the runs of threads differ. -/
structure OnlyPositions (s t : State) : Prop where
  rest : { t with threads := s.threads } = s
  threads : ∀ k, { t.thread k with pos := (s.thread k).pos, passDone := (s.thread k).passDone } = s.thread k

theorem onlyPositions_refl (s : State) : OnlyPositions s s := ⟨rfl, fun _ => rfl⟩

theorem onlyPositions_trans {s t u : State} (a : OnlyPositions s t) (b : OnlyPositions t u) : OnlyPositions s u where
  rest := (congrArg (fun x : State => { x with threads := s.threads }) b.rest).trans a.rest
  threads k := (congrArg (fun th : Thread => { th with pos := (s.thread k).pos, passDone := (s.thread k).passDone }) (b.threads k)).trans (a.threads k)

/-- The threads of a run of a group keep the place at which it stood. -/
def parkRun (gid : Nat) (r : Option Run) (s : State) : State :=
  match r with
  | some x =>
    if x.gid = gid then
      (lanesOf x.lanes).foldl (fun t l =>
        updTh (thKey (swKey x.gid x.warp x.slice) l) (fun th => { th with pos := some x.pos, passDone := bitOf x.skip.toNat l }) t) s
    else s
  | none => s

theorem onlyPositions_updTh (k : Nat) (p : Option Nat) (b : Bool) (s : State) :
    OnlyPositions s (updTh k (fun th => { th with pos := p, passDone := b }) s) where
  rest := rfl
  threads j := by
    rw [thread_updTh]
    split
    case isTrue e => subst e; rfl
    case isFalse => rfl

theorem onlyPositions_parkRun (gid : Nat) (r : Option Run) (s : State) : OnlyPositions s (parkRun gid r s) := by
  cases r with
  | none => exact onlyPositions_refl s
  | some x =>
    unfold parkRun
    dsimp only
    split
    · generalize lanesOf x.lanes = ls
      induction ls generalizing s with
      | nil => exact onlyPositions_refl s
      | cons l ls ih => exact onlyPositions_trans (onlyPositions_updTh _ _ _ s) (ih _)
    · exact onlyPositions_refl s

theorem onlyPositions_parkRuns (gid : Nat) (a x : Option Run) (s : State) : OnlyPositions s (parkRun gid x (parkRun gid a s)) :=
  onlyPositions_trans (onlyPositions_parkRun gid a s) (onlyPositions_parkRun gid x _)

/-- A port's run, unless it is of a group. -/
def runUnless (gid : Nat) (r : Option Run) : Option Run :=
  match r with | some x => if x.gid = gid then none else some x | none => none

theorem runUnless_other {gid : Nat} {r : Option Run} {x : Run} (h : runUnless gid r = some x) : x.gid ≠ gid := by
  cases r with
  | none => cases h
  | some y =>
    simp only [runUnless] at h
    split at h
    · cases h
    · cases h; assumption

theorem stopIssue_of_group {s : State} {gid : Nat} {g : Machine.Group} (hg : mget? s.groups gid = some g) :
    stopIssue gid s = updCore g.core (fun c => { c with portA := runUnless gid c.portA, portX := runUnless gid c.portX })
      (parkRun gid (s.core g.core).portX (parkRun gid (s.core g.core).portA s)) := by
  unfold stopIssue
  rw [hg]
  rfl

theorem stopIssue_of_none {s : State} {gid : Nat} (hg : mget? s.groups gid = none) : stopIssue gid s = s := by
  unfold stopIssue
  rw [hg]

theorem stopIssue_rest (gid : Nat) (s : State) : { stopIssue gid s with threads := s.threads, cores := s.cores } = s := by
  cases hg : mget? s.groups gid with
  | none => rw [stopIssue_of_none hg]
  | some g =>
    rw [stopIssue_of_group hg]
    exact (congrArg (fun x : State => { x with cores := s.cores }) (onlyPositions_parkRuns gid _ _ s).rest :)

theorem thread_stopIssue (gid : Nat) (s : State) (k : Nat) :
    { (stopIssue gid s).thread k with pos := (s.thread k).pos, passDone := (s.thread k).passDone } = s.thread k := by
  cases hg : mget? s.groups gid with
  | none => rw [stopIssue_of_none hg]
  | some g =>
    rw [stopIssue_of_group hg]
    exact (onlyPositions_parkRuns gid _ _ s).threads k

theorem portRun_stopIssue {s : State} {gid : Nat} {g : Machine.Group} (hg : mget? s.groups gid = some g) {sl : Slice} {r : Run}
    (h : (stopIssue gid s).portRun ⟨g.core, sl⟩ = some r) : r.gid ≠ gid := by
  rw [stopIssue_of_group hg] at h
  cases sl <;> exact runUnless_other (by simpa [State.portRun] using h)

/-! ### The halt of a group begins (R398) -/

theorem beginHalt_rest (gid : Nat) (f : Machine.Group → Machine.Group) (s : State) :
    { beginHalt gid f s with threads := s.threads, cores := s.cores, groups := s.groups } = s := by
  have stops := stopIssue_rest gid s
  unfold beginHalt updGroup
  dsimp only
  split
  · exact (congrArg (fun x : State => { x with groups := s.groups }) stops :)
  · exact (congrArg (fun x : State => { x with groups := s.groups }) stops :)

theorem groups_stopIssue (gid : Nat) (s : State) : (stopIssue gid s).groups = s.groups := (congrArg State.groups (stopIssue_rest gid s) :)

theorem groups_beginHalt (gid j : Nat) (f : Machine.Group → Machine.Group) (s : State) :
    mget? (beginHalt gid f s).groups j =
      if j = gid then (mget? s.groups gid).map (fun g => f { g with phase := .halting, drainFrom := some (g.drainFrom.getD s.ticks) })
      else mget? s.groups j := by
  have ticks : (stopIssue gid s).ticks = s.ticks := (congrArg State.ticks (stopIssue_rest gid s) :)
  unfold beginHalt
  dsimp only
  rw [groups_updGroup, groups_stopIssue, ticks]

theorem thread_beginHalt (gid : Nat) (f : Machine.Group → Machine.Group) (s : State) (k : Nat) :
    (beginHalt gid f s).thread k = (stopIssue gid s).thread k := by
  unfold beginHalt updGroup
  dsimp only
  split <;> rfl

theorem portRun_beginHalt {s : State} {gid : Nat} {f : Machine.Group → Machine.Group} {g : Machine.Group} (hg : mget? s.groups gid = some g) {sl : Slice} {r : Run}
    (h : (beginHalt gid f s).portRun ⟨g.core, sl⟩ = some r) : r.gid ≠ gid := by
  refine portRun_stopIssue hg (sl := sl) ?_
  rw [← h]
  unfold beginHalt updGroup
  dsimp only
  split <;> rfl

theorem mods_beginHalt (gid : Nat) (f : Machine.Group → Machine.Group) (s : State) : (beginHalt gid f s).mods = s.mods :=
  (congrArg State.mods (beginHalt_rest gid f s) :)

theorem hears_beginHalt (gid : Nat) (f : Machine.Group → Machine.Group) (s : State) : Hears s (beginHalt gid f s) [] :=
  hears_of_eq (congrArg State.hostOut (beginHalt_rest gid f s) :)

/-! ### The companion records (R402) -/

/-- A state without what the posting of a record changes: memory, the numbers of the records and what the host is told. -/
def unrecorded (s : State) : State := { s.unstored with cores := [], hostOut := [] }

theorem unrecorded_postRecord (m root region : Nat) (r : Record) (s : State) : unrecorded (postRecord m root region r s).1 = unrecorded s :=
  (congrArg (fun x : State => { x with cores := [], hostOut := [] }) (postRecord_stores m root region r s) :)

theorem unrecorded_companions (f : FaultInfo) (g : Machine.Group) (stamp primary : Nat) (s : State) :
    unrecorded (companions f g stamp primary s) = unrecorded s := by
  refine foldl_keep unrecorded _ (fun t p => ?_) _ s
  split
  · rfl
  · exact unrecorded_postRecord _ _ _ _ _

theorem hears_something {s t : State} {msgs : List HostMsg} (h : Hears s t msgs) : Hears s t [] := by
  obtain ⟨rest, out⟩ := h
  exact ⟨msgs ++ rest, out⟩

theorem hears_companions (f : FaultInfo) (g : Machine.Group) (stamp primary : Nat) (s : State) : Hears s (companions f g stamp primary s) [] := by
  refine hears_foldl _ (fun t p => ?_) _ s
  split
  · exact hears_refl t
  · exact Hears.trans (t := (coreSeq g.core t).2) (hears_of_eq rfl) (hears_something (hears_postRecord _ _ _ _ _))

/-! ### Grids end (R43, R405) -/

theorem grids_updMod {f : ModSt → ModSt} (same : ∀ x, (f x).grids = x.grids) (m j : Nat) (s : State) :
    ((updMod m f s).mod j).grids = (s.mod j).grids := by
  rw [mod_updMod]
  split
  case isTrue e => rw [same, e]
  case isFalse => rfl

theorem grids_updGrid (m h j : Nat) (f : Grid → Grid) (s : State) :
    mget? ((updGrid m h f s).mod m).grids j = if j = h then (mget? (s.mod m).grids h).map f else mget? (s.mod m).grids j := by
  cases found : mget? (s.mod m).grids h with
  | none =>
    unfold updGrid
    simp only [found]
    split
    case isTrue e => rw [e]; exact found
    case isFalse => rfl
  | some g => rw [updGrid_of found, mod_updMod_self]; exact mget?_mput _ _ _ _

theorem onlyStores_writeVa_getD (s : State) (m root va : Nat) (bs : List Byte) : OnlyStores s ((writeVa s m root va bs).getD s) := by
  cases h : writeVa s m root va bs with
  | none => exact onlyStores_refl s
  | some t => exact onlyStores_writeVa h

theorem mod_of_mods {s t : State} (h : t.mods = s.mods) (m : Nat) : t.mod m = s.mod m := by
  unfold State.mod
  rw [h]

/-- A grid that finishes changes itself, and writes its completion word. -/
theorem onlyStores_finishGrid {s : State} {m h : Nat} {x : Grid} (hx : mget? (s.mod m).grids h = some x) (status : Nat)
    (runs : x.state ≠ .finished) :
    OnlyStores (updGrid m h (fun y => { y with state := .finished, status := status, log := [] }) s) (finishGrid m h status s) := by
  unfold finishGrid
  rw [hx]
  dsimp only
  rw [if_neg runs]
  split
  · exact onlyStores_refl _
  · exact onlyStores_writeVa_getD _ _ _ _ _

section
variable {α : Type} {g : State → α} {m h : Nat}

theorem finishGrid_keeps (grid : ∀ f t, g (updGrid m h f t) = g t) (stores : ∀ s t, OnlyStores s t → g t = g s) (status : Nat) (s : State) :
    g (finishGrid m h status s) = g s := by
  cases found : mget? (s.mod m).grids h with
  | none => unfold finishGrid; rw [found]
  | some x =>
    by_cases ended : x.state = .finished
    · unfold finishGrid
      simp only [found]
      rw [if_pos ended]
    · rw [stores _ _ (onlyStores_finishGrid found status ended), grid]

theorem gridSettled_keeps (grid : ∀ f t, g (updGrid m h f t) = g t) (stores : ∀ s t, OnlyStores s t → g t = g s) (s : State) :
    g (gridSettled m h s) = g s := by
  unfold gridSettled
  split
  · rfl
  · split
    · split
      · exact finishGrid_keeps grid stores 4 s
      · split
        · exact grid _ s
        · rfl
    · rfl

end

theorem groups_gridSettled (m h : Nat) (s : State) : (gridSettled m h s).groups = s.groups :=
  gridSettled_keeps (g := State.groups) (fun _ _ => updGrid_groups _ _ _ _) (fun _ _ o => o.groups) s

theorem hostOut_gridSettled (m h : Nat) (s : State) : (gridSettled m h s).hostOut = s.hostOut :=
  gridSettled_keeps (g := State.hostOut) (fun _ _ => updGrid_hostOut _ _ _ _) (fun _ _ o => o.hostOut) s

theorem grids_gridSettled_ne {m h j : Nat} (other : j ≠ h) (s : State) :
    mget? ((gridSettled m h s).mod m).grids j = mget? (s.mod m).grids j :=
  gridSettled_keeps (g := fun t => mget? (t.mod m).grids j) (fun _ _ => by rw [grids_updGrid, if_neg other]) (fun _ _ o => by rw [mod_of_mods o.mods]) s

/-- A grid that its domain has ended: no effect of it is left to commit (R405). -/
def GridEnded (m h : Nat) (s : State) : Prop := ∃ y, mget? (s.mod m).grids h = some y ∧ y.status = 4 ∧ y.log = []

theorem gridEnded_gridSettled {m h : Nat} {s : State} (ended : GridEnded m h s) : GridEnded m h (gridSettled m h s) := by
  obtain ⟨y, hy, status, log⟩ := ended
  unfold gridSettled
  simp only [hy]
  split
  · by_cases finished : y.state = .finished
    · have stays : finishGrid m h 4 s = s := by
        unfold finishGrid
        simp only [hy]
        rw [if_pos finished]
      rw [stays]
      exact ⟨y, hy, status, log⟩
    · unfold GridEnded
      rw [mod_of_mods (onlyStores_finishGrid hy 4 finished).mods, grids_updGrid, if_pos rfl, hy]
      exact ⟨_, rfl, rfl, rfl⟩
  · exact ⟨y, hy, status, log⟩

/-! ### The end of a grid without images (R405) -/

/-- A group of a grid that ends halts, to be discarded. -/
def endHalt (gid : Nat) (s : State) : State := beginHalt gid (fun x => { x with discard := true, forced := true }) s

/-- The groups of a grid that ends halt. -/
def groupsHalted (m h : Nat) (s : State) : State := (residentOf s m h).foldl (fun t gid => endHalt gid t) s

theorem endGrid_of {s : State} {m h : Nat} {x : Grid} (hx : mget? (s.mod m).grids h = some x) (runs : x.state ≠ .finished) (status : Nat) :
    endGrid m h status s =
      gridSettled m h (groupsHalted m h (dropSaved m h (updGrid m h (fun y => { y with status := status, log := [] }) s))) := by
  unfold endGrid
  simp only [hx]
  rw [if_neg runs]
  rfl

theorem endGrid_finished {s : State} {m h : Nat} {x : Grid} (hx : mget? (s.mod m).grids h = some x) (ended : x.state = .finished) (status : Nat) :
    endGrid m h status s = s := by
  unfold endGrid
  simp only [hx]
  rw [if_pos ended]

theorem endGrid_unknown {s : State} {m h : Nat} (hx : mget? (s.mod m).grids h = none) (status : Nat) : endGrid m h status s = s := by
  unfold endGrid
  simp only [hx]

theorem mods_groupsHalted (m h : Nat) (s : State) : (groupsHalted m h s).mods = s.mods :=
  foldl_keep State.mods _ (fun t gid => mods_beginHalt gid _ t) _ s

theorem grids_dropSaved (m h : Nat) (s : State) : ((dropSaved m h s).mod m).grids = (s.mod m).grids := by
  unfold dropSaved
  exact grids_updMod (by intro x; rfl) m m s

/-- The grids where the groups of one of them have halted. -/
theorem grids_halted (m h j status : Nat) (s : State) :
    mget? ((groupsHalted m h (dropSaved m h (updGrid m h (fun y => { y with status := status, log := [] }) s))).mod m).grids j =
      if j = h then (mget? (s.mod m).grids h).map (fun y => { y with status := status, log := [] }) else mget? (s.mod m).grids j := by
  rw [mod_of_mods (mods_groupsHalted _ _ _), grids_dropSaved, grids_updGrid]

/-- A grid is accepted and has not finished. -/
def GridRuns (m h : Nat) (s : State) : Prop := ∃ y, mget? (s.mod m).grids h = some y ∧ y.state ≠ .finished

theorem grids_endGrid_ne {m h j : Nat} (other : j ≠ h) (status : Nat) (s : State) :
    mget? ((endGrid m h status s).mod m).grids j = mget? (s.mod m).grids j := by
  cases hx : mget? (s.mod m).grids h with
  | none => rw [endGrid_unknown hx]
  | some x =>
    by_cases ended : x.state = .finished
    · rw [endGrid_finished hx ended]
    · rw [endGrid_of hx ended, grids_gridSettled_ne other, grids_halted, if_neg other]

theorem gridEnded_of_runs {m h : Nat} {s : State} (runs : GridRuns m h s) : GridEnded m h (endGrid m h 4 s) := by
  obtain ⟨x, hx, unfinished⟩ := runs
  rw [endGrid_of hx unfinished]
  refine gridEnded_gridSettled ?_
  unfold GridEnded
  rw [grids_halted, if_pos rfl, hx]
  exact ⟨_, rfl, rfl, rfl⟩

theorem gridEnded_endGrid {m h : Nat} {s : State} (ended : GridEnded m h s) (j : Nat) : GridEnded m h (endGrid m j 4 s) := by
  by_cases same : h = j
  · subst same
    obtain ⟨y, hy, status, log⟩ := ended
    by_cases finished : y.state = .finished
    · rw [endGrid_finished hy finished]
      exact ⟨y, hy, status, log⟩
    · exact gridEnded_of_runs ⟨y, hy, finished⟩
  · unfold GridEnded
    rw [grids_endGrid_ne same]
    exact ended

/-! ### The groups of the grids that end -/

/-- A group of a grid, on its core. -/
def GroupIn (m h k : Nat) (s : State) : Prop := ∃ x, mget? s.groups k = some x ∧ x.m = m ∧ x.grid = h
/-- A group that halts to be discarded. -/
def GroupEnded (k : Nat) (s : State) : Prop := ∃ y, mget? s.groups k = some y ∧ y.discard = true ∧ y.phase = .halting

theorem groupIn_endHalt {m h k : Nat} {s : State} (group : GroupIn m h k s) (gid : Nat) : GroupIn m h k (endHalt gid s) := by
  obtain ⟨x, hx, own⟩ := group
  unfold GroupIn endHalt
  rw [groups_beginHalt]
  split
  case isTrue e => subst e; rw [hx]; exact ⟨_, rfl, own⟩
  case isFalse => exact ⟨x, hx, own⟩

theorem groupEnded_of_endHalt {m h k : Nat} {s : State} (group : GroupIn m h k s) : GroupEnded k (endHalt k s) := by
  obtain ⟨x, hx, own⟩ := group
  unfold GroupEnded endHalt
  rw [groups_beginHalt, if_pos rfl, hx]
  exact ⟨_, rfl, rfl, rfl⟩

theorem groupEnded_endHalt {k : Nat} {s : State} (ended : GroupEnded k s) (gid : Nat) : GroupEnded k (endHalt gid s) := by
  obtain ⟨y, hy, discards, halts⟩ := ended
  unfold GroupEnded endHalt
  rw [groups_beginHalt]
  split
  case isTrue e => subst e; rw [hy]; exact ⟨_, rfl, rfl, rfl⟩
  case isFalse => exact ⟨y, hy, discards, halts⟩

theorem mem_residentOf {m h k : Nat} {s : State} (group : GroupIn m h k s) : k ∈ residentOf s m h := by
  obtain ⟨x, hx, rfl, rfl⟩ := group
  exact List.mem_map.mpr ⟨(k, x), List.mem_filter.mpr ⟨mem_of_mget? hx, by simp⟩, rfl⟩

theorem groupEnded_groupsHalted {m h k : Nat} {s : State} (group : GroupIn m h k s) : GroupEnded k (groupsHalted m h s) :=
  foldl_reaches (I := GroupIn m h k) (P := GroupEnded k) (fun _ gid _ inGrid => groupIn_endHalt inGrid gid) (fun _ inGrid => groupEnded_of_endHalt inGrid)
    (fun _ gid _ _ ended => groupEnded_endHalt ended gid) group (.inr (mem_residentOf group))

/-- What the groups alone decide, and the halt of a group keeps, the end of a grid keeps. -/
theorem endGrid_preserves {P : State → Prop} (groups : ∀ s t : State, t.groups = s.groups → P s → P t) (halts : ∀ s gid, P s → P (endHalt gid s))
    (m h status : Nat) {s : State} (p : P s) : P (endGrid m h status s) := by
  cases hx : mget? (s.mod m).grids h with
  | none => rwa [endGrid_unknown hx]
  | some x =>
    by_cases ended : x.state = .finished
    · rwa [endGrid_finished hx ended]
    · rw [endGrid_of hx ended]
      exact groups _ _ (groups_gridSettled _ _ _) (foldl_preserves halts _ (groups s _ (updGrid_groups _ _ _ _) p))

theorem groupIn_endGrid {m h k : Nat} {s : State} (group : GroupIn m h k s) (j status : Nat) : GroupIn m h k (endGrid m j status s) :=
  endGrid_preserves (P := GroupIn m h k) (fun _ _ same inGrid => by unfold GroupIn; rwa [same]) (fun _ gid inGrid => groupIn_endHalt inGrid gid) m j status group

theorem groupEnded_endGrid {k : Nat} {s : State} (ended : GroupEnded k s) (m j status : Nat) : GroupEnded k (endGrid m j status s) :=
  endGrid_preserves (P := GroupEnded k) (fun _ _ same ends => by unfold GroupEnded; rwa [same]) (fun _ gid ends => groupEnded_endHalt ends gid) m j status ended

theorem groupEnded_of_runs {m h k : Nat} {s : State} (runs : GridRuns m h s) (group : GroupIn m h k s) (status : Nat) :
    GroupEnded k (endGrid m h status s) := by
  obtain ⟨x, hx, unfinished⟩ := runs
  rw [endGrid_of hx unfinished]
  have halted : GroupEnded k (groupsHalted m h (dropSaved m h (updGrid m h (fun y => { y with status := status, log := [] }) s))) := by
    refine groupEnded_groupsHalted ?_
    obtain ⟨y, hy, own⟩ := group
    exact ⟨y, (congrArg (fun gs => mget? gs k) (updGrid_groups m h (fun y => { y with status := status, log := [] }) s)).trans hy, own⟩
  unfold GroupEnded
  rwa [groups_gridSettled]

/-! ### The end of a domain (R405) -/

/-- The unfinished grids of a domain. -/
def domainGrids (m d : Nat) (s : State) : List Nat :=
  ((s.mod m).grids.filter (fun e => e.2.state != .finished && domainOf s m 8 e.2.launch.region == d)).map (·.1)

theorem gridEnded_terminateDomain {m d h : Nat} {s : State} (listed : h ∈ domainGrids m d s) (runs : GridRuns m h s) :
    GridEnded m h (terminateDomain m d s) := by
  refine foldl_reaches (I := fun t => GridRuns m h t ∨ GridEnded m h t) (P := GridEnded m h) (f := fun t j => endGrid m j 4 t)
    (fun t j _ => ?_) (fun t => ?_) (fun t j _ _ ended => gridEnded_endGrid ended j) (.inl runs) (.inr listed)
  · rintro (running | ended)
    · by_cases same : j = h
      · subst same; exact .inr (gridEnded_of_runs running)
      · refine .inl ?_
        unfold GridRuns
        rw [grids_endGrid_ne (Ne.symm same)]
        exact running
    · exact .inr (gridEnded_endGrid ended j)
  · rintro (running | ended)
    · exact gridEnded_of_runs running
    · exact gridEnded_endGrid ended h

theorem groupEnded_terminateDomain {m d h k : Nat} {s : State} (listed : h ∈ domainGrids m d s) (runs : GridRuns m h s) (group : GroupIn m h k s) :
    GroupEnded k (terminateDomain m d s) := by
  refine foldl_reaches (I := fun t => (GridRuns m h t ∧ GroupIn m h k t) ∨ GroupEnded k t) (P := GroupEnded k) (f := fun t j => endGrid m j 4 t)
    (fun t j _ => ?_) (fun t => ?_) (fun t j _ _ ended => groupEnded_endGrid ended m j 4) (.inl ⟨runs, group⟩) (.inr listed)
  · rintro (⟨running, inGrid⟩ | ended)
    · by_cases same : j = h
      · subst same; exact .inr (groupEnded_of_runs running inGrid 4)
      · refine .inl ⟨?_, groupIn_endGrid inGrid j 4⟩
        unfold GridRuns
        rw [grids_endGrid_ne (Ne.symm same)]
        exact running
    · exact .inr (groupEnded_endGrid ended m j 4)
  · rintro (⟨running, inGrid⟩ | ended)
    · exact groupEnded_of_runs running inGrid 4
    · exact groupEnded_endGrid ended m h 4

theorem hears_endGrid (m h status : Nat) (s : State) : Hears s (endGrid m h status s) [] := by
  cases hx : mget? (s.mod m).grids h with
  | none => rw [endGrid_unknown hx]; exact hears_refl s
  | some x =>
    by_cases ended : x.state = .finished
    · rw [endGrid_finished hx ended]; exact hears_refl s
    · rw [endGrid_of hx ended]
      have updated : Hears s (dropSaved m h (updGrid m h (fun y => { y with status := status, log := [] }) s)) [] :=
        hears_of_eq (updGrid_hostOut m h _ s)
      have halted := hears_foldl (fun t gid => endHalt gid t) (fun t gid => hears_beginHalt gid _ t)
        (residentOf (dropSaved m h (updGrid m h (fun y => { y with status := status, log := [] }) s)) m h)
        (dropSaved m h (updGrid m h (fun y => { y with status := status, log := [] }) s))
      exact (updated.trans halted).trans (hears_of_eq (hostOut_gridSettled _ _ _))

theorem hears_terminateDomain (m d : Nat) (s : State) : Hears s (terminateDomain m d s) [] :=
  hears_foldl _ (fun t h => hears_endGrid m h 4 t) _ s

theorem hears_noticeDomain (m root region ret : Nat) (core : Option Nat) (cause : Cause) (grid addr detail : Nat) (s : State) :
    Hears s (noticeDomain m root region ret core cause grid addr detail s) [] := by
  unfold noticeDomain
  dsimp only
  split
  · exact hears_of_eq (onlyStores_appendRecord _ _ _ _ _).hostOut
  · exact hears_refl s

theorem hears_rollBack (m h : Nat) (cause : Cause) (s : State) : Hears s (rollBack m h cause s) [] := by
  unfold rollBack
  split
  · exact hears_refl s
  · exact (((hears_something (msgs := [_]) ⟨[], rfl⟩).trans (hears_noticeDomain _ _ _ _ _ _ _ _ _ _)).trans
      (hears_of_eq (updGrid_hostOut _ _ _ _))).trans (hears_endGrid _ _ _ _)

/-! ### The taking of a fault (R399 to R402, R405, R406) -/

section
variable {f : FaultInfo} {s : State} {g : Machine.Group}

/-- The posting of the first record of a fault. -/
def faultPosted (f : FaultInfo) (s : State) (g : Machine.Group) : State × Option Nat :=
  postRecord g.m g.root g.region (faultRecord s f g (s.core g.core).seq 0) (coreSeq g.core s).2

/-- The records of a fault, of its own slice-warp and of the others, are posted. -/
def faultTold (f : FaultInfo) (s : State) (g : Machine.Group) : State :=
  companions f g (wtime s (coreRet g.core)) (s.core g.core).seq (faultPosted f s g).1

/-- What a group that a fault halts is to know of it. -/
def faultMark (f : FaultInfo) (s : State) (g x : Machine.Group) : Machine.Group :=
  { x with
    halt := some (f.cause, (s.core g.core).seq, coreCode g.core, swKey f.gid f.warp (if f.slice = 0 then .access else .execute), f.precise)
    haltPc := BitVec.ofNat 64 f.pc
    recordVa := (faultPosted f s g).2.getD 0
    recordOk := (faultPosted f s g).2.isSome
    forced := true
    debug := f.cause == .breakpoint && smem (s.mod g.m).attached g.root }

/-- The records are posted and the group halts. -/
def faultHalted (f : FaultInfo) (s : State) (g : Machine.Group) : State := beginHalt f.gid (faultMark f s g) (faultTold f s g)

/-- FPOLICY of the domain of a group. -/
def faultPolicy (s : State) (g : Machine.Group) : Nat :=
  match mget? (s.mod g.m).regions (domainOf s g.m 8 g.region) with | some x => x.rcb.fpolicy | none => 0
/-- Whether a group is of a handler's grid. -/
def ofHandler (s : State) (g : Machine.Group) : Bool := match mget? (s.mod g.m).grids g.grid with | some x => x.handlerFor.isSome | none => false
/-- How often the grid of a group has rolled back. -/
def gridRetries (s : State) (g : Machine.Group) : Nat := match mget? (s.mod g.m).grids g.grid with | some x => x.retries | none => 0

/-- The fault ends its domain: no debugger and no handler takes it (R405, R406). -/
def EndsDomain (f : FaultInfo) (s : State) (g : Machine.Group) : Prop :=
  (f.cause == .breakpoint && smem (s.mod g.m).attached g.root) = false ∧ (faultPolicy s g = 0 ∨ (faultPosted f s g).2 = none ∨ ofHandler s g = true)

theorem faultPolicy_ne_zero : faultPolicy s g ≠ 0 ↔ ∃ x, mget? (s.mod g.m).regions (domainOf s g.m 8 g.region) = some x ∧ x.rcb.fpolicy ≠ 0 := by
  unfold faultPolicy
  cases mget? (s.mod g.m).regions (domainOf s g.m 8 g.region) <;> simp

theorem ofHandler_eq_false : ofHandler s g = false ↔ ∀ x, mget? (s.mod g.m).grids g.grid = some x → x.handlerFor = none := by
  unfold ofHandler
  cases mget? (s.mod g.m).grids g.grid <;> simp

theorem takeFault_second (hg : mget? s.groups f.gid = some g) (second : ¬ (g.halt = none ∧ g.discard = false)) :
    takeFault f s = (postRecord g.m g.root g.region (faultRecord s f g (s.core g.core).seq 4) (coreSeq g.core s).2).1 := by
  have halts : (g.halt.isSome || g.discard) = true := by
    cases h : g.halt <;> cases d : g.discard <;> simp_all
  unfold takeFault
  simp only [hg]
  exact if_pos halts

/-- The log of a staged grid that goes on with a fault is dropped (R420). -/
def faultUnlogged (f : FaultInfo) (s : State) (g : Machine.Group) : State :=
  if g.launch.staged then updGrid g.m g.grid (fun x => { x with log := [] }) (faultHalted f s g) else faultHalted f s g

open Classical in
/-- A first fault posts the records and halts the group, and then rolls back, ends the domain or does neither. -/
theorem takeFault_first (hg : mget? s.groups f.gid = some g) (first : g.halt = none ∧ g.discard = false) :
    takeFault f s =
      if (g.launch.staged && (f.cause == .uncorrectable || f.cause == .sdcDetected)) && decide (gridRetries s g < 3) then
        rollBack g.m g.grid f.cause (faultHalted f s g)
      else if EndsDomain f s g then terminateDomain g.m (domainOf s g.m 8 g.region) (faultUnlogged f s g)
      else faultUnlogged f s g := by
  obtain ⟨running, kept⟩ := first
  unfold takeFault
  simp only [hg, running, kept]
  refine (if_neg (by simp)).trans (if_congr Iff.rfl rfl ?_)
  by_cases ends : EndsDomain f s g
  · rw [if_pos ends]
    exact if_pos ends
  · rw [if_neg ends]
    exact if_neg ends

theorem takeFault_survives (hg : mget? s.groups f.gid = some g) (first : g.halt = none ∧ g.discard = false) (unstaged : g.launch.staged = false)
    (survives : ¬ EndsDomain f s g) : takeFault f s = faultHalted f s g := by
  rw [takeFault_first hg first, if_neg survives]
  simp [faultUnlogged, unstaged]

theorem takeFault_ends (hg : mget? s.groups f.gid = some g) (first : g.halt = none ∧ g.discard = false) (unstaged : g.launch.staged = false)
    (ends : EndsDomain f s g) : takeFault f s = terminateDomain g.m (domainOf s g.m 8 g.region) (faultHalted f s g) := by
  rw [takeFault_first hg first, if_pos ends]
  simp [faultUnlogged, unstaged]

theorem unrecorded_faultTold : unrecorded (faultTold f s g) = unrecorded s := by
  unfold faultTold faultPosted
  rw [unrecorded_companions, unrecorded_postRecord]
  rfl

theorem groups_faultTold : (faultTold f s g).groups = s.groups := (congrArg State.groups (unrecorded_faultTold (f := f) (s := s) (g := g)) :)
theorem threads_faultTold : (faultTold f s g).threads = s.threads := (congrArg State.threads (unrecorded_faultTold (f := f) (s := s) (g := g)) :)
theorem sws_faultTold : (faultTold f s g).sws = s.sws := (congrArg State.sws (unrecorded_faultTold (f := f) (s := s) (g := g)) :)
theorem queues_faultTold : (faultTold f s g).queues = s.queues := (congrArg State.queues (unrecorded_faultTold (f := f) (s := s) (g := g)) :)
theorem mods_faultTold : (faultTold f s g).mods = s.mods := (congrArg State.mods (unrecorded_faultTold (f := f) (s := s) (g := g)) :)

theorem hears_faultHalted : Hears s (faultHalted f s g) [.record (recordBytes (faultRecord s f g (s.core g.core).seq 0))] :=
  have told : Hears s (faultPosted f s g).1 [.record (recordBytes (faultRecord s f g (s.core g.core).seq 0))] :=
    hears_postRecord g.m g.root g.region _ (coreSeq g.core s).2
  (told.trans (hears_companions _ _ _ _ _)).trans (hears_beginHalt _ _ _)

theorem hears_faultUnlogged : Hears (faultHalted f s g) (faultUnlogged f s g) [] := by
  unfold faultUnlogged
  split
  · exact hears_of_eq (updGrid_hostOut _ _ _ _)
  · exact hears_refl _

theorem hears_takeFault (hg : mget? s.groups f.gid = some g) (first : g.halt = none ∧ g.discard = false) :
    Hears s (takeFault f s) [.record (recordBytes (faultRecord s f g (s.core g.core).seq 0))] := by
  rw [takeFault_first hg first]
  refine hears_faultHalted.trans (t := faultHalted f s g) (b := []) ?_
  split
  · exact hears_rollBack _ _ _ _
  · split
    · exact hears_faultUnlogged.trans (hears_terminateDomain _ _ _)
    · exact hears_faultUnlogged

/-- The group that a fault halts, and no other, changes. -/
theorem groups_faultHalted (hg : mget? s.groups f.gid = some g) (j : Nat) :
    mget? (faultHalted f s g).groups j =
      if j = f.gid then some (faultMark f s g { g with phase := .halting, drainFrom := some (g.drainFrom.getD (faultTold f s g).ticks) }) else mget? s.groups j := by
  unfold faultHalted
  rw [groups_beginHalt, groups_faultTold, hg]
  rfl

theorem mods_faultHalted : (faultHalted f s g).mods = s.mods := (mods_beginHalt _ _ _).trans mods_faultTold

theorem thread_faultHalted (k : Nat) :
    { (faultHalted f s g).thread k with pos := (s.thread k).pos, passDone := (s.thread k).passDone } = s.thread k := by
  have same : (faultTold f s g).thread k = s.thread k := by unfold State.thread; rw [threads_faultTold]
  have stops := thread_stopIssue f.gid (faultTold f s g) k
  unfold faultHalted
  rw [thread_beginHalt]
  rwa [same] at stops

theorem domainOf_regions {s t : State} {m : Nat} (h : (t.mod m).regions = (s.mod m).regions) (fuel i : Nat) :
    domainOf t m fuel i = domainOf s m fuel i := by
  induction fuel generalizing i with
  | zero => rfl
  | succ n ih => simp only [domainOf, h, ih]

theorem domainOf_mods {s t : State} (h : t.mods = s.mods) (m fuel i : Nat) : domainOf t m fuel i = domainOf s m fuel i :=
  domainOf_regions (by rw [mod_of_mods h]) fuel i

theorem groupIn_faultHalted (hg : mget? s.groups f.gid = some g) {k h : Nat} {x : Machine.Group} (hx : mget? s.groups k = some x) (own : x.m = g.m)
    (grid : x.grid = h) : GroupIn g.m h k (faultHalted f s g) := by
  unfold GroupIn
  rw [groups_faultHalted hg]
  split
  case isTrue e =>
    have same : x = g := Option.some.inj (hx.symm.trans (e ▸ hg))
    exact ⟨_, rfl, rfl, same ▸ grid⟩
  case isFalse => exact ⟨x, hx, own, grid⟩

/-- Every unfinished grid of the domain of a fault that ends it is ended, with its groups. -/
theorem takeFault_ends_grid (hg : mget? s.groups f.gid = some g) (first : g.halt = none ∧ g.discard = false) (unstaged : g.launch.staged = false)
    (ends : EndsDomain f s g) {h : Nat} {gr : Grid} (hr : mget? (s.mod g.m).grids h = some gr) (runs : gr.state ≠ .finished)
    (domain : domainOf s g.m 8 gr.launch.region = domainOf s g.m 8 g.region) :
    GridEnded g.m h (takeFault f s) ∧ ∀ k x, mget? s.groups k = some x → x.m = g.m → x.grid = h → GroupEnded k (takeFault f s) := by
  have same : (faultHalted f s g).mod g.m = s.mod g.m := mod_of_mods mods_faultHalted _
  have listed : h ∈ domainGrids g.m (domainOf s g.m 8 g.region) (faultHalted f s g) := by
    unfold domainGrids
    rw [same]
    refine List.mem_map.mpr ⟨(h, gr), List.mem_filter.mpr ⟨mem_of_mget? hr, ?_⟩, rfl⟩
    simp [domainOf_mods mods_faultHalted, domain, runs]
  have running : GridRuns g.m h (faultHalted f s g) := by
    unfold GridRuns
    rw [same]
    exact ⟨gr, hr, runs⟩
  rw [takeFault_ends hg first unstaged ends]
  exact ⟨gridEnded_terminateDomain listed running,
    fun k x hx own grid => groupEnded_terminateDomain listed running (groupIn_faultHalted hg hx own grid)⟩

end

/-- Settles O36: the record of the fault goes out before anything else is decided, the halt of a group changes only its own state and the positions of
its threads, and the end of a domain ends each grid of it once and keeps it ended. -/
theorem faultTaken : Obligations.FaultTaken := by
  unfold Obligations.FaultTaken
  intro f s g hg
  dsimp only
  refine ⟨hears_takeFault hg, fun second => ?_, fun first unstaged handled va posted => ?_, fun first unstaged attached dies h gr hr runs domain =>
    takeFault_ends_grid hg first unstaged ⟨?_, ?_⟩ hr runs domain⟩
  · rw [takeFault_second hg second]
    exact postRecord_stores _ _ _ _ _
  · obtain ⟨policy, handler⟩ := handled
    have posted : (faultPosted f s g).2 = some va := posted
    have survives : ¬ EndsDomain f s g := by
      rintro ⟨-, zero | unwritten | own⟩
      · exact faultPolicy_ne_zero.mpr policy zero
      · rw [posted] at unwritten; cases unwritten
      · rw [ofHandler_eq_false.mpr handler] at own; cases own
    rw [takeFault_survives hg first unstaged survives]
    refine ⟨⟨_, (groups_faultHalted hg f.gid).trans (if_pos rfl), rfl, rfl, ?_, ?_, rfl, first.2, rfl, rfl⟩, fun k other =>
      (groups_faultHalted hg k).trans (if_neg other), ?_, ?_, mods_faultHalted, thread_faultHalted, fun sl r run => ?_⟩
    · exact congrArg (Option.getD · 0) posted
    · exact congrArg Option.isSome posted
    · exact (congrArg State.sws (beginHalt_rest _ _ _) :).trans sws_faultTold
    · exact (congrArg State.queues (beginHalt_rest _ _ _) :).trans queues_faultTold
    · exact portRun_beginHalt ((congrArg (fun gs => mget? gs f.gid) groups_faultTold).trans hg) run
  · by_contra debugged
    exact attached (by simpa using debugged)
  · rcases dies with unhandled | unwritten
    · by_cases policy : faultPolicy s g = 0
      · exact .inl policy
      · refine .inr (.inr ?_)
        by_contra own
        exact unhandled ⟨faultPolicy_ne_zero.mp policy, ofHandler_eq_false.mp (Bool.eq_false_iff.mpr own)⟩
    · exact .inr (.inl unwritten)

end Sys2Proof.Proofs
end

section
/-! The Ultra Ethernet endpoint toward its peers (spec/18 R442, R443, R445): what the acceptance of a request has checked, and what each event of the
transport changes. -/

namespace Sys2Proof.Proofs

open Sys2Proof Sys2Proof.Machine Sys2Proof.Laws

/-! ### The requests of a peer (R445) -/

section
variable {s : State} {sp : Space} {rights : List Access} {addr len : Nat}

/-- A piece of a request is reached with each right, at the place and under the key that its page gives. -/
def PieceReached (s : State) (sp : Space) (rights : List Access) (addr : Nat) (p : Nat × Nat × Nat × Nat) : Prop :=
  ∃ e, (∀ a ∈ rights, ∃ pa f, translateNow s sp a (addr + p.1) = .ok pa f)
    ∧ rights.head?.map (fun a => translateNow s sp a (addr + p.1)) = some (.ok p.2.2.1 e) ∧ pteType e ≠ 3 ∧ p.2.2.2 = pteKey e

/-- A page that does not refuse a request gives its first piece; the other pieces are those of what is left. -/
theorem peerPieces_succ {fuel off : Nat} {ps : List (Nat × Nat × Nat × Nat)} (h : peerPieces s sp rights addr len (fuel + 1) off = some ps) (more : off < len) :
    ∃ pa key rest, ps = (off, Nat.min (len - off) (65536 - (addr + off) % 65536), pa, key) :: rest
      ∧ PieceReached s sp rights addr (off, Nat.min (len - off) (65536 - (addr + off) % 65536), pa, key)
      ∧ peerPieces s sp rights addr len fuel (off + Nat.min (len - off) (65536 - (addr + off) % 65536)) = some rest := by
  rw [peerPieces, if_neg (Nat.not_le.mpr more)] at h
  dsimp only at h
  split at h
  case isTrue => cases h
  case isFalse granted =>
    split at h
    case h_2 => cases h
    case h_1 pa e first =>
      split at h
      case isTrue => cases h
      case isFalse memory =>
        obtain ⟨rest, later, rfl⟩ := Option.map_eq_some_iff.mp h
        refine ⟨pa, pteKey e, rest, rfl, ⟨e, fun a mem => ?_, first, memory, rfl⟩, later⟩
        cases reached : translateNow s sp a (addr + off) with
        | ok pa f => exact ⟨pa, f, rfl⟩
        | _ => exact absurd (List.any_eq_true.mpr ⟨a, mem, by rw [reached]⟩) granted

theorem peerPieces_reached {fuel off : Nat} {ps : List (Nat × Nat × Nat × Nat)} (h : peerPieces s sp rights addr len fuel off = some ps) :
    ∀ p ∈ ps, PieceReached s sp rights addr p := by
  induction fuel generalizing off ps with
  | zero => cases h; simp
  | succ fuel ih =>
    by_cases more : off < len
    · obtain ⟨pa, key, rest, rfl, first, later⟩ := peerPieces_succ h more
      exact List.forall_mem_cons.mpr ⟨first, ih later⟩
    · rw [peerPieces, if_pos (Nat.not_lt.mp more)] at h
      cases h
      simp

/-- An aligned request of 8 bytes lies in one page. -/
theorem peerPieces_word (aligned : addr % 8 = 0) {ps : List (Nat × Nat × Nat × Nat)} (h : peerPieces s sp rights addr 8 2 0 = some ps) :
    ∃ pa key, ps = [(0, 8, pa, key)] := by
  obtain ⟨pa, key, rest, rfl, -, later⟩ := peerPieces_succ h (by decide)
  have whole : Nat.min (8 - 0) (65536 - (addr + 0) % 65536) = 8 := Nat.min_eq_left (by omega)
  rw [whole, peerPieces, if_pos (Nat.le_refl _)] at later
  cases later
  exact ⟨pa, key, by rw [whole]⟩

end

/-- The shape of a peer's request (R445): an atomic takes an aligned 64-bit unit, the others from 1 byte to 16 MiB. -/
def peerShape (kind addr len aop : Nat) : Bool :=
  if kind = 3 then len == 8 && addr % 8 == 0 && ratomAop aop else kind < 3 && decide (1 ≤ len) && decide (len ≤ 0x1000000)

/-- The checks of a peer's request before those of its pages (R442, R445). -/
def peerRefused (s : State) (ret peer job kind addr len aop : Nat) : Bool :=
  let d := mget (s.ret ret).peers peer 0
  !inService s ret || !ethernetUp (s.ret ret) || decide (peer ≥ 4096) || !peerValid d || peerJob d != job
    || (mget? (s.mod (modOf ret)).regions (peerRoot d)).isNone || !peerShape kind addr len aop

theorem peerAccepted_eq (s : State) (ret peer job kind addr len aop : Nat) :
    peerAccepted s ret peer job kind addr len aop =
      if peerRefused s ret peer job kind addr len aop then none
      else (peerPieces s ⟨modOf ret, peerRoot (mget (s.ret ret).peers peer 0), false, 0, 1023⟩ (peerRights kind) addr len (len / 65536 + 2) 0).bind
        (fun ps => if ps.any (pieceRefused s ret kind) then none else some ps) := by
  unfold peerAccepted
  refine if_congr Iff.rfl rfl ?_
  cases peerPieces s ⟨modOf ret, peerRoot (mget (s.ret ret).peers peer 0), false, 0, 1023⟩ (peerRights kind) addr len (len / 65536 + 2) 0 <;> rfl

/-- What the acceptance of a peer's request has checked. -/
structure PeerAccepts (s : State) (ret peer job kind addr len aop : Nat) (ps : List (Nat × Nat × Nat × Nat)) : Prop where
  serves : inService s ret = true
  linked : ethernetUp (s.ret ret) = true
  known : peer < 4096
  valid : peerValid (mget (s.ret ret).peers peer 0) = true
  job : peerJob (mget (s.ret ret).peers peer 0) = job
  root : ∃ r, mget? (s.mod (modOf ret)).regions (peerRoot (mget (s.ret ret).peers peer 0)) = some r
  shape : peerShape kind addr len aop = true
  pieces : peerPieces s ⟨modOf ret, peerRoot (mget (s.ret ret).peers peer 0), false, 0, 1023⟩ (peerRights kind) addr len (len / 65536 + 2) 0 = some ps
  passes : ∀ p ∈ ps, pieceRefused s ret kind p = false

theorem peerAccepts {s : State} {ret peer job kind addr len aop : Nat} {ps : List (Nat × Nat × Nat × Nat)}
    (h : peerAccepted s ret peer job kind addr len aop = some ps) : PeerAccepts s ret peer job kind addr len aop ps := by
  rw [peerAccepted_eq] at h
  split at h
  case isTrue => cases h
  case isFalse checks =>
    obtain ⟨qs, pieces, accepted⟩ := Option.bind_eq_some_iff.mp h
    split at accepted
    case isTrue => cases accepted
    case isFalse passes =>
      cases accepted
      simp only [peerRefused, Bool.or_eq_true, not_or, Bool.not_eq_true', Bool.not_eq_false, decide_eq_true_eq, not_le, bne_iff_ne, ne_eq, not_not,
        Option.isNone_iff_eq_none, ← Option.isSome_iff_ne_none, Option.isSome_iff_exists] at checks
      obtain ⟨⟨⟨⟨⟨⟨serves, linked⟩, known⟩, valid⟩, job⟩, root⟩, shape⟩ := checks
      exact ⟨serves, linked, known, valid, job, root, shape, pieces, fun p mem => Bool.eq_false_iff.mpr fun refused =>
        passes (List.any_eq_true.mpr ⟨p, mem, refused⟩)⟩

theorem peerShape_atomic {addr len aop : Nat} (h : peerShape 3 addr len aop = true) : len = 8 ∧ addr % 8 = 0 ∧ ratomAop aop = true := by
  simpa [peerShape, and_assoc] using h

theorem peerShape_bytes {kind addr len aop : Nat} (bytes : kind ≠ 3) (h : peerShape kind addr len aop = true) :
    kind < 3 ∧ 1 ≤ len ∧ len ≤ 0x1000000 := by
  simpa [peerShape, bytes, and_assoc] using h

/-! ### The transport (R443) -/

theorem uePeer_putPeer (ret peer : Nat) (p : UePeer) (s : State) : uePeer (putPeer ret peer p s) ret peer = p := by
  unfold uePeer putPeer
  simp

theorem retTurns_putPeer (ret peer : Nat) (p : UePeer) (s : State) :
    RetTurns s (putPeer ret peer p s) ret { s.ret ret with ue := mput (s.ret ret).ue peer p } [] :=
  retTurns_updRet ret _ s

theorem ret_failWork (op : Nat) (cause : Cause) (addr detail : Nat) (s : State) (j : Nat) : (failWork op cause addr detail s).ret j = s.ret j := by
  unfold failWork updWork
  split <;> rfl

theorem works_failWork {s : State} {op : Nat} {o : WorkOp} (h : mget? s.works op = some o) (addr detail : Nat) :
    mget? (failWork op .remoteError addr detail s).works op = some { o with err := some (.remoteError, addr, o.wr.cookie) } := by
  unfold failWork updWork
  simp only [h]
  exact mget?_mput_self _ _ _

section
variable {s : State} {ret peer n : Nat} {x : UePkt} (held : mget? (uePeer s ret peer).out n = some x)
include held

theorem resend_again (few : x.sends < 8) :
    resend ret peer n s = putPeer ret peer { uePeer s ret peer with out := mput (uePeer s ret peer).out n { x with sends := x.sends + 1, sentAt := s.ticks } } s := by
  unfold resend
  simp only [held]
  exact if_neg (Nat.not_le.mpr few)

theorem exec_ueRetransmitTimeout_held :
    exec (.ueRetransmitTimeout ret peer n) s = if s.ticks - x.sentAt < 1024000 then .next s else .next (resend ret peer n s) := by
  rw [exec_ueRetransmitTimeout]
  unfold execUeRetransmitTimeout
  simp only [held]

theorem resend_fails (many : 8 ≤ x.sends) : resend ret peer n s = failPeer ret peer x.op s := by
  unfold resend
  simp only [held]
  exact if_pos many

end

theorem uePeer_failPeer (ret peer op : Nat) (s : State) :
    (uePeer (failPeer ret peer op s) ret peer).out = (uePeer s ret peer).out.filter (fun e => e.2.op != op) := by
  have same : uePeer (failPeer ret peer op s) ret peer =
      uePeer (putPeer ret peer { uePeer s ret peer with out := (uePeer s ret peer).out.filter (fun e => e.2.op != op) } s) ret peer :=
    congrArg (fun r : RetSt => mget r.ue peer ⟨0, [], 0, none⟩) (ret_failWork _ _ _ _ _ ret)
  rw [same, uePeer_putPeer]

theorem works_failPeer {s : State} {op : Nat} {o : WorkOp} (h : mget? s.works op = some o) (ret peer : Nat) :
    mget? (failPeer ret peer op s).works op = some { o with err := some (.remoteError, workRaddr s op, o.wr.cookie) } :=
  works_failWork (s := putPeer ret peer _ s) h (workRaddr s op) 0

/-- The rate toward a peer before an echoed mark halves it (R443). -/
def echoedRate (s : State) (ret peer : Nat) : Nat :=
  if (uePeer s ret peer).halvedAt.isNone then 100000 * ethernetWaves (s.ret ret) else (uePeer s ret peer).rate
/-- An echoed mark is of a new round trip: every packet sent before the last halving has been acknowledged. -/
def newTrip (s : State) (ret peer : Nat) : Bool :=
  match (uePeer s ret peer).halvedAt with
  | none => true
  | some n => (uePeer s ret peer).out.all (fun e => decide (e.1 ≥ n))

theorem exec_ueEcnEcho_halves {s : State} {ret peer : Nat} (h : newTrip s ret peer = true) :
    exec (.ueEcnEcho ret peer) s =
      .next (putPeer ret peer { uePeer s ret peer with rate := echoedRate s ret peer / 2, halvedAt := some (uePeer s ret peer).next } s) := by
  rw [exec_ueEcnEcho]
  exact if_pos h

theorem exec_ueEcnEcho_same {s : State} {ret peer : Nat} (h : newTrip s ret peer = false) : exec (.ueEcnEcho ret peer) s = .next s := by
  rw [exec_ueEcnEcho]
  exact if_neg (fun new => Bool.false_ne_true (h.symm.trans new))

/-! ### The requests that are accepted, and the settling -/

/-- The size of a peer's request: that of its data, of an atomic, or the one it names. -/
def requestSize (kind len : Nat) (data : List Byte) : Nat := if kind ≤ 1 then data.length else if kind = 3 then 8 else len

section
variable {s : State} {ret peer job kind addr len : Nat} {data : List Byte} {imm : W32} {aop : Nat} {operand compare : W64}

theorem exec_uePeerRequest_refused (h : peerAccepted s ret peer job kind addr (requestSize kind len data) aop = none) :
    exec (.uePeerRequest ret peer job kind addr len data imm aop operand compare) s = .next (tell (.peer ret peer false []) s) := by
  unfold requestSize at h
  rw [exec_uePeerRequest]
  unfold execUePeerRequest
  simp only [h]

variable {ps : List (Nat × Nat × Nat × Nat)} (accepted : peerAccepted s ret peer job kind addr (requestSize kind len data) aop = some ps)
include accepted

theorem exec_uePeerRequest_accepted :
    exec (.uePeerRequest ret peer job kind addr len data imm aop operand compare) s =
      (let written := ps.foldl (fun t p => writeKey t p.2.2.2 p.2.2.1 ((data.drop p.1).take p.2.1)) s
      if kind ≤ 1 then
        .next (tell (.peer ret peer true []) (if kind = 1 then countImm ret (peerCctr (mget (s.ret ret).peers peer 0)) imm.toNat written else written))
      else if kind = 2 then .next (tell (.peer ret peer true (ps.flatMap (fun p => readKey s p.2.2.2 p.2.2.1 p.2.1))) s)
      else ps.head?.elim (.next s) (fun p =>
        .next (tell (.peer ret peer true (bytesLE 8 (readNat s p.2.2.2 p.2.2.1 8))) (writeKey s p.2.2.2 p.2.2.1
          (bytesLE 8 (applyAop aop true (BitVec.ofNat 64 (readNat s p.2.2.2 p.2.2.1 8)) operand compare).toNat))))) := by
  unfold requestSize at accepted
  rw [exec_uePeerRequest]
  unfold execUePeerRequest
  simp only [accepted]
  refine if_congr Iff.rfl rfl (if_congr Iff.rfl rfl ?_)
  cases ps <;> rfl

end

/-- Settles O59: an accepted request has passed each check and each piece of it is reached, and the transport changes only the state toward its peer,
but for the work request that the packet sent 8 times ends. -/
theorem ethernetPeers : Obligations.EthernetPeers := by
  unfold Obligations.EthernetPeers
  refine ⟨fun s ret peer job kind addr len data imm aop operand compare => ⟨exec_uePeerRequest_refused, fun ps accepted => ⟨?_, ?_, ?_, ?_⟩⟩,
    fun s ret peer job kind addr len aop ps accepted => ?_, fun s ret peer acked => ⟨exec_ueSelectiveAck _ _ _ _, fun n mem => ?_⟩,
    fun s ret peer n => ⟨fun gone => ?_, fun x held => ⟨fun early => ?_, fun late => ?_, fun few => ?_, fun many => ⟨?_, fun o work => ?_⟩⟩⟩,
    fun s ret peer => ⟨fun fresh => ?_, fun n halved => ⟨fun all => ?_, fun old => ?_⟩⟩⟩
  · rintro rfl
    refine (exec_uePeerRequest_accepted accepted).trans ((if_pos (by decide)).trans ?_)
    rw [if_neg (by decide)]
    rfl
  · rintro rfl
    refine (exec_uePeerRequest_accepted accepted).trans ((if_pos (by decide)).trans ?_)
    rw [if_pos rfl]
    rfl
  · rintro rfl
    exact (exec_uePeerRequest_accepted accepted).trans ((if_neg (by decide)).trans (if_pos rfl))
  · rintro rfl
    have size : requestSize 3 len data = 8 := rfl
    have a := peerAccepts (size ▸ accepted : peerAccepted s ret peer job 3 addr 8 aop = some ps)
    obtain ⟨-, aligned, -⟩ := peerShape_atomic a.shape
    obtain ⟨pa, key, rfl⟩ := peerPieces_word aligned a.pieces
    exact ⟨pa, key, rfl, (exec_uePeerRequest_accepted accepted).trans ((if_neg (by decide)).trans (if_neg (by decide)))⟩
  · have a := peerAccepts accepted
    refine ⟨a.serves, a.linked, a.known, a.valid, a.job, ?_, a.root, ?_, fun bytes => (peerShape_bytes bytes.ne a.shape).2, a.passes,
      peerPieces_reached a.pieces⟩
    · by_cases atomic : kind = 3
      · exact atomic.le
      · exact (peerShape_bytes atomic a.shape).1.le
    · rintro rfl
      exact peerShape_atomic a.shape
  · exact (congrArg (fun p : UePeer => mget? p.out n) (uePeer_putPeer ret peer _ s)).trans (by
      rw [mget?_filter _ (fun k => !acked.contains k), if_neg (by simpa using mem)])
  · rw [exec_ueRetransmitTimeout]
    unfold execUeRetransmitTimeout
    simp only [gone]
  · exact (exec_ueRetransmitTimeout_held held).trans (if_pos early)
  · exact (exec_ueRetransmitTimeout_held held).trans (if_neg (Nat.not_lt.mpr late))
  · rw [resend_again held few]
    exact retTurns_putPeer ret peer _ s
  · rw [resend_fails held many, uePeer_failPeer]
    simp
  · rw [resend_fails held many]
    exact ⟨_, works_failPeer work ret peer, rfl⟩
  · have new : newTrip s ret peer = true := by unfold newTrip; rw [fresh]
    have rate : echoedRate s ret peer = 100000 * ethernetWaves (s.ret ret) := by unfold echoedRate; rw [fresh]; rfl
    exact ⟨_, exec_ueEcnEcho_halves new, rate ▸ retTurns_putPeer ret peer _ s⟩
  · have new : newTrip s ret peer = true := by unfold newTrip; rw [halved]; simpa using all
    have rate : echoedRate s ret peer = (uePeer s ret peer).rate := by unfold echoedRate; rw [halved]; rfl
    exact ⟨_, exec_ueEcnEcho_halves new, rate ▸ retTurns_putPeer ret peer _ s⟩
  · obtain ⟨e, mem, earlier⟩ := old
    refine exec_ueEcnEcho_same ?_
    unfold newTrip
    rw [halved]
    exact List.all_eq_false.mpr ⟨e, mem, by simpa using earlier⟩

end Sys2Proof.Proofs
end

section
/-! The ordered class (spec/16 R369 to R377; 13 R315): watermarks and beacons, the packets that arrive, are returned and are delivered, stalls and cuts. -/

namespace Sys2Proof.Proofs

open Sys2Proof Sys2Proof.Machine Sys2Proof.Laws

/-! ### Watermarks (R370 to R373) -/

theorem foldl_min_le {x y : Nat} {xs : List Nat} (h : y ∈ x :: xs) : xs.foldl Nat.min x ≤ y := by
  induction xs generalizing x y with
  | nil => exact (List.mem_singleton.mp h).ge
  | cons a xs ih =>
    have first : xs.foldl Nat.min (Nat.min x a) ≤ Nat.min x a := ih (.head _)
    rcases List.mem_cons.mp h with rfl | later
    · exact first.trans (Nat.min_le_left _ _)
    · rcases List.mem_cons.mp later with rfl | later
      · exact first.trans (Nat.min_le_right _ _)
      · exact ih (.tail _ later)

/-- The watermarks and stamps of which an output's is the least. -/
def outputBounds (s : State) (ret output : Nat) : List Nat :=
  (inputSet s ret output).map (inputWm s ret) ++ (heldFor s ret output).map (fun e => e.2.stamp)

theorem outputWm_eq (s : State) (ret output : Nat) :
    outputWm s ret output = (match outputBounds s ret output with
      | [] => mget (s.ret ret).outWm output 0
      | x :: xs => Nat.max (mget (s.ret ret).outWm output 0) (xs.foldl Nat.min x)) := rfl

theorem sent_le_outputWm (s : State) (ret output : Nat) : mget (s.ret ret).outWm output 0 ≤ outputWm s ret output := by
  rw [outputWm_eq]
  cases outputBounds s ret output with
  | nil => exact Nat.le_refl _
  | cons x xs => exact Nat.le_max_left _ _

theorem outputWm_le {s : State} {ret output y : Nat} (h : y ∈ outputBounds s ret output) :
    outputWm s ret output ≤ Nat.max (mget (s.ret ret).outWm output 0) y := by
  rw [outputWm_eq]
  cases bounds : outputBounds s ret output with
  | nil => rw [bounds] at h; cases h
  | cons x xs =>
    rw [bounds] at h
    exact max_le_max (le_refl _) (foldl_min_le h)

theorem not_mem_inputSet_of_cut {s : State} {ret port i : Nat} (link : i ≠ 5) (cut : smem (s.ret ret).cutPorts i = true) : i ∉ inputSet s ret port := by
  unfold inputSet
  simp [link, cut]

/-! ### Beacons (R373) -/

section
variable (s : State) (r port wm j : Nat)

theorem ret_sentWm_ne {j : Nat} (other : j ≠ r) : (sentWm r port wm s).ret j = s.ret j := by
  unfold sentWm
  rw [ret_updRet, if_neg other]

theorem ret_sentWm_self :
    (sentWm r port wm s).ret r = { s.ret r with outWm := mput (s.ret r).outWm port wm, sentAt := mput (s.ret r).sentAt port s.ticks } := by
  unfold sentWm
  rw [ret_updRet_self]

theorem ret_receiveWm_ne {j : Nat} (other : j ≠ r) : (receiveWm r port wm s).ret j = s.ret j := by
  unfold receiveWm
  rw [ret_updRet, if_neg other]

theorem ret_receiveWm_self :
    (receiveWm r port wm s).ret r = { s.ret r with inWm := mput (s.ret r).inWm port (Nat.max wm (mget (s.ret r).inWm port 0))
                                                   stalled := sdel (sdel (s.ret r).stalled port) 6 } := by
  unfold receiveWm
  rw [ret_updRet_self]

theorem inWm_sentWm : ((sentWm r port wm s).ret j).inWm = (s.ret j).inWm := by
  by_cases same : j = r
  · rw [same, ret_sentWm_self]
  · rw [ret_sentWm_ne _ _ _ _ same]

theorem outWm_receiveWm : ((receiveWm r port wm s).ret j).outWm = (s.ret j).outWm := by
  by_cases same : j = r
  · rw [same, ret_receiveWm_self]
  · rw [ret_receiveWm_ne _ _ _ _ same]

theorem sentAt_receiveWm : ((receiveWm r port wm s).ret j).sentAt = (s.ret j).sentAt := by
  by_cases same : j = r
  · rw [same, ret_receiveWm_self]
  · rw [ret_receiveWm_ne _ _ _ _ same]

theorem inWm_receiveWm : mget ((receiveWm r port wm s).ret r).inWm port 0 = Nat.max wm (mget (s.ret r).inWm port 0) := by
  rw [ret_receiveWm_self]
  exact mget_mput_self _ _ _ _

theorem stalled_receiveWm : smem ((receiveWm r port wm s).ret r).stalled port = false := by
  rw [ret_receiveWm_self]
  simp [smem_sdel]

end

theorem exec_beaconSend_far {s : State} {ret port far i : Nat} (link : linkFar s ret port = some (far, i)) :
    exec (.beaconSend ret port) s =
      .next (if linkIdle s ret port then receiveWm far i (outputWm s ret port) (sentWm ret port (outputWm s ret port) s) else s) := by
  rw [exec_beaconSend]
  unfold execBeaconSend
  simp only [link]
  cases linkIdle s ret port <;> rfl

/-- The watermark that a beacon carries: no more than its sender has sent, or sends now on an idle link. -/
def beaconWm (s : State) (far o : Nat) (stamp : W64) : Nat :=
  Nat.min stamp.toNat (if 3200 ≤ s.ticks - mget (s.ret far).sentAt o 0 then outputWm s far o else mget (s.ret far).outWm o 0)

/-- The far end of a link has sent what a beacon carries. -/
def beaconSent (s : State) (far o : Nat) (stamp : W64) : State :=
  if mget (s.ret far).outWm o 0 < beaconWm s far o stamp then sentWm far o (beaconWm s far o stamp) s else s

theorem exec_beaconReceive_far {s : State} {ret port far o : Nat} (link : linkFar s ret port = some (far, o)) (stamp : W64) :
    exec (.beaconReceive ret port stamp) s = .next (receiveWm ret port (beaconWm s far o stamp) (beaconSent s far o stamp)) := by
  rw [exec_beaconReceive]
  unfold execBeaconReceive
  simp only [link, linkIdle, decide_eq_true_eq]
  rfl

theorem outWm_beaconSent (s : State) (far o : Nat) (stamp : W64) :
    mget ((beaconSent s far o stamp).ret far).outWm o 0 = Nat.max (beaconWm s far o stamp) (mget (s.ret far).outWm o 0) := by
  unfold beaconSent
  split
  case isTrue more => rw [ret_sentWm_self]; exact (mget_mput_self _ _ _ _).trans (Nat.max_eq_left more.le).symm
  case isFalse less => exact (Nat.max_eq_right (Nat.not_lt.mp less)).symm

theorem inWm_beaconSent (s : State) (far o : Nat) (stamp : W64) (j : Nat) : ((beaconSent s far o stamp).ret j).inWm = (s.ret j).inWm := by
  unfold beaconSent
  split
  · exact inWm_sentWm _ _ _ _ _
  · rfl

theorem beaconSent_ne {s : State} {far o j : Nat} {stamp : W64} (other : j ≠ far) : (beaconSent s far o stamp).ret j = s.ret j := by
  unfold beaconSent
  split
  · exact ret_sentWm_ne _ _ _ _ other
  · rfl

theorem beaconSent_rest (s : State) (far o : Nat) (stamp : W64) : { beaconSent s far o stamp with rets := s.rets } = s := by
  unfold beaconSent
  split <;> rfl

section
variable {s : State} {ret port far i : Nat} (link : linkFar s ret port = some (far, i))
include link

theorem exec_beaconSend_early (early : s.ticks - mget (s.ret ret).sentAt port 0 < 3200) : exec (.beaconSend ret port) s = .next s := by
  have busy : ¬ linkIdle s ret port = true := by unfold linkIdle; simpa using early
  rw [exec_beaconSend_far link, if_neg busy]

theorem exec_beaconSend_sends (idle : 3200 ≤ s.ticks - mget (s.ret ret).sentAt port 0) :
    ∃ t, exec (.beaconSend ret port) s = .next t ∧ { t with rets := s.rets } = s
      ∧ mget (t.ret far).inWm i 0 = Nat.max (outputWm s ret port) (mget (s.ret far).inWm i 0) ∧ smem (t.ret far).stalled i = false
      ∧ mget (t.ret ret).outWm port 0 = outputWm s ret port ∧ mget (t.ret ret).sentAt port 0 = s.ticks
      ∧ ∀ j, j ≠ ret → j ≠ far → t.ret j = s.ret j := by
  have idle : linkIdle s ret port = true := by unfold linkIdle; simpa using idle
  refine ⟨_, (exec_beaconSend_far link).trans (congrArg Host.Outcome.next (if_pos idle)), rfl, ?_, stalled_receiveWm _ _ _ _, ?_, ?_, fun j near other => ?_⟩
  · rw [inWm_receiveWm, inWm_sentWm]
  · rw [outWm_receiveWm, ret_sentWm_self]
    exact mget_mput_self _ _ _ _
  · rw [sentAt_receiveWm, ret_sentWm_self]
    exact mget_mput_self _ _ _ _
  · rw [ret_receiveWm_ne _ _ _ _ other, ret_sentWm_ne _ _ _ _ near]

theorem exec_beaconReceive_raises (stamp : W64) :
    ∃ t, exec (.beaconReceive ret port stamp) s = .next t ∧ { t with rets := s.rets } = s
      ∧ mget (t.ret ret).inWm port 0 = Nat.max (beaconWm s far i stamp) (mget (s.ret ret).inWm port 0) ∧ smem (t.ret ret).stalled port = false
      ∧ mget (t.ret far).outWm i 0 = Nat.max (beaconWm s far i stamp) (mget (s.ret far).outWm i 0)
      ∧ ∀ j, j ≠ ret → j ≠ far → t.ret j = s.ret j := by
  refine ⟨_, exec_beaconReceive_far link stamp, beaconSent_rest s far i stamp, ?_, stalled_receiveWm _ _ _ _, ?_, fun j near other => ?_⟩
  · rw [inWm_receiveWm, inWm_beaconSent]
  · rw [outWm_receiveWm, outWm_beaconSent]
  · rw [ret_receiveWm_ne _ _ _ _ near, beaconSent_ne other]

end

/-! ### The arrival of an ordered packet (R315, R370, R372, R377) -/

section
variable {s : State} {ret port pkt : Nat} {p : Packet} (wire : mget? s.wire pkt = some p) (ordered : p.ordered = true)
  (travels : smem (s.ret p.pos).ordBuf pkt = false)
include wire ordered travels

theorem exec_orderedPacketArrival_full (enters : p.dst = ret ∨ port ≠ 5) (full : bufferFull s ret p = true) :
    exec (.orderedPacketArrival ret port pkt) s = .next s := by
  rw [exec_orderedPacketArrival]
  unfold execOrderedPacketArrival
  simp only [wire]
  exact if_pos (by simpa [ordered, travels, full] using enters)

theorem exec_orderedPacketArrival_injected (room : p.dst = ret → bufferFull s ret p = false) (fresh : p.moved = false) (here : p.pos = ret) :
    exec (.orderedPacketArrival ret 5 pkt) s = .next (arriveAt pkt ret false p s) := by
  rw [exec_orderedPacketArrival]
  unfold execOrderedPacketArrival
  simp only [wire]
  have enters : ¬ (!p.ordered || smem (s.ret p.pos).ordBuf pkt || ((p.dst == ret || 5 != 5) && bufferFull s ret p)) = true := by
    by_cases dst : p.dst = ret
    · simp [ordered, travels, room dst]
    · simp [ordered, travels, dst]
  exact (if_neg enters).trans ((if_pos trivial).trans (if_neg (by simp [fresh, here])))

/-- An ordered packet comes over a link, with the watermark of its sender. -/
def carriedOver (s : State) (ret port far o : Nat) : State := receiveWm ret port (outputWm s far o) (sentWm far o (outputWm s far o) s)

open Classical in
theorem exec_orderedPacketArrival_linked (room : bufferFull s ret p = false) {far o : Nat} (linked : port ≠ 5)
    (link : linkFar s ret port = some (far, o)) (moved : p.moved = true) (there : p.pos = far) (out : nextOut s p = some o) :
    exec (.orderedPacketArrival ret port pkt) s = .next
      (if ∃ e ∈ heldFor s far o, e.2.key < p.key then s
      else if smem (s.ret ret).cutPorts port = true ∨ p.stamp < mget (s.ret ret).inWm port 0 then returnPacket pkt p (carriedOver s ret port far o)
      else arriveAt pkt ret (decide (port ≥ 8)) p (carriedOver s ret port far o)) := by
  rw [exec_orderedPacketArrival]
  unfold execOrderedPacketArrival
  simp only [wire, link]
  refine (if_neg (by simp [ordered, travels, room])).trans ((if_neg linked).trans ?_)
  by_cases earlier : ∃ e ∈ heldFor s far o, e.2.key < p.key
  · rw [if_pos earlier]
    exact if_pos (.inr (.inr (.inr (by simpa using earlier))))
  · rw [if_neg earlier]
    refine (if_neg (by simpa [moved, there, out] using earlier)).trans (congrArg Host.Outcome.next (if_congr ?_ rfl rfl))
    simp

end

theorem wire_arriveAt (i ret : Nat) (crossed : Bool) (p : Packet) (s : State) :
    mget? (arriveAt i ret crossed p s).wire i = some { p with pos := ret, moved := true, crossed := p.crossed || crossed } := by
  unfold arriveAt
  dsimp only
  split <;> exact mget?_mput_self _ _ _

theorem mem_arriveAt (i ret : Nat) (crossed : Bool) (p : Packet) (s : State) : (arriveAt i ret crossed p s).mem = s.mem := by
  unfold arriveAt
  dsimp only
  split <;> rfl

theorem arriveAt_held {ret : Nat} {p : Packet} (dst : p.dst = ret) (i : Nat) (crossed : Bool) (s : State) :
    smem ((arriveAt i ret crossed p s).ret ret).ordBuf i = true := by
  unfold arriveAt
  dsimp only
  rw [if_pos dst, ret_updRet_self]
  exact smem_sadd_self _ _

theorem updWork_wire (op : Nat) (f : WorkOp → WorkOp) (s : State) : (updWork op f s).wire = s.wire := by
  unfold updWork
  split <;> rfl

/-- A packet of an ordered operation returns with every other packet of it. -/
theorem returnPacket_takes_all {p : Packet} {op : Nat} (own : p.op? = some op) (ordered : p.ordered = true) (i : Nat) (s : State) :
    ∀ e ∈ (returnPacket i p s).wire, e.2.op? ≠ some op := by
  intro e mem
  unfold returnPacket at mem
  simp only [own, ordered, if_true, updWork_wire] at mem
  simpa [dropPackets] using (List.mem_filter.mp mem).2

/-! ### Delivery (R374) -/

/-- The packets that a receiver may deliver next. -/
def deliverable (s : State) (ret : Nat) : List (Nat × Packet) :=
  ((s.ret ret).ordBuf.filterMap (fun i => (mget? s.wire i).map (fun p => (i, p)))).filter (fun e =>
    decide (e.2.stamp < endpointWm s ret) && holdsWhole s ret e.2)

theorem mem_deliverable {s : State} {ret i : Nat} {p : Packet} : (i, p) ∈ deliverable s ret ↔
    (i ∈ (s.ret ret).ordBuf ∧ mget? s.wire i = some p) ∧ p.stamp < endpointWm s ret ∧ holdsWhole s ret p = true := by
  unfold deliverable
  simp only [List.mem_filter, List.mem_filterMap, Option.map_eq_some_iff, Prod.mk.injEq, Bool.and_eq_true, decide_eq_true_eq]
  refine and_congr_left fun _ => ⟨?_, fun ⟨mem, wire⟩ => ⟨i, mem, p, wire, rfl, rfl⟩⟩
  rintro ⟨j, mem, q, wire, rfl, rfl⟩
  exact ⟨mem, wire⟩

theorem nextOrdered_eq (s : State) (ret : Nat) : nextOrdered s ret = argMin (fun e => e.2.key) (deliverable s ret) := rfl

theorem nextOrdered_least {s : State} {ret i j : Nat} {p q : Packet} (next : nextOrdered s ret = some (i, p)) (mem : (j, q) ∈ deliverable s ret) :
    p.key ≤ q.key := by
  obtain ⟨x, least, -, below⟩ := argMin_spec (m := fun e : Nat × Packet => e.2.key) (List.ne_nil_of_mem mem)
  rw [nextOrdered_eq, least] at next
  obtain rfl := Option.some.inj next
  have first := below _ mem
  dsimp only at first
  exact first

/-! ### Stalls and cuts (R375 to R377) -/

theorem noticeDomain_keeps {α : Type} {g : State → α} (rets : ∀ r f t, g (updRet r f t) = g t) (stores : ∀ s t, OnlyStores s t → g t = g s)
    (m root region ret : Nat) (core : Option Nat) (cause : Cause) (grid addr detail : Nat) (s : State) :
    g (noticeDomain m root region ret core cause grid addr detail s) = g s := by
  have numbered : g (shepherdSeq ret s).2 = g s := by
    unfold shepherdSeq
    dsimp only
    exact rets _ _ _
  unfold noticeDomain
  dsimp only
  split
  · exact (stores _ _ (onlyStores_appendRecord _ _ _ _ _)).trans numbered
  · exact numbered

/-- The host and the domains of the regions that wait hear of a stalled port. -/
def stallTold (s : State) (ret port : Nat) : State :=
  let wm := if port = 6 then endpointWm s ret else inputWm s ret port
  let worst := if port = 6 then (argMin (inputWm s ret) (inputSet s ret 6)).getD 5 else port
  let d := portCode worst + ret % 128 * 8
  (heldRegions s ret).foldl (fun t h => noticeDomain h.1 h.2.1 h.2.2 ret none .watermarkStall 0 wm d t)
    (noticeHost ret none .watermarkStall 0 wm d s)

theorem stallTold_keeps {α : Type} {g : State → α} (rets : ∀ r f t, g (updRet r f t) = g t) (stores : ∀ s t, OnlyStores s t → g t = g s)
    (told : ∀ m t, g (tell m t) = g t) (s : State) (ret port : Nat) : g (stallTold s ret port) = g s := by
  unfold stallTold
  dsimp only
  rw [foldl_keep g _ (fun t _ => noticeDomain_keeps rets stores _ _ _ _ _ _ _ _ _ t)]
  unfold noticeHost shepherdSeq
  dsimp only
  exact (told _ _).trans (rets _ _ _)

theorem wtime_shepherdSeq (s : State) (ret : Nat) : wtime (shepherdSeq ret s).2 ret = wtime s ret := by
  unfold shepherdSeq wtime slewed
  simp

/-- The record of a notice to the host bears the Shepherd's number and time as they were before it. -/
theorem hears_noticeHost (ret : Nat) (core : Option Nat) (cause : Cause) (grid addr detail : Nat) (s : State) :
    Hears s (noticeHost ret core cause grid addr detail s)
      [.record (recordBytes (noticeRecord s ret core cause 0xFFFF grid addr detail (s.ret ret).shSeq))] := by
  refine ⟨[], ?_⟩
  have same : noticeRecord (shepherdSeq ret s).2 ret core cause 0xFFFF grid addr detail (s.ret ret).shSeq =
      noticeRecord s ret core cause 0xFFFF grid addr detail (s.ret ret).shSeq := by
    unfold noticeRecord
    rw [wtime_shepherdSeq]
  rw [← same]
  rfl

theorem hears_stallTold (s : State) (ret port : Nat) : ∃ d, Hears s (stallTold s ret port)
    [.record (recordBytes (noticeRecord s ret none .watermarkStall 0xFFFF 0 (if port = 6 then endpointWm s ret else inputWm s ret port) d
      (s.ret ret).shSeq))] :=
  ⟨_, (hears_noticeHost ret none .watermarkStall 0 _ _ s).trans (hears_foldl _ (fun t _ => hears_noticeDomain _ _ _ _ _ _ _ _ _ t) _ _)⟩

/-- The known end of a link, or the receiver, whose watermark lags for the first time (R376). -/
def stallsNow (s : State) (ret port : Nat) : Bool :=
  (port == 6 || (linkFar s ret port).isSome) && inService s ret && lags s ret port && !smem (s.ret ret).stalled port && !smem (s.ret ret).cutPorts port

theorem exec_watermarkStall_eq (s : State) (ret port : Nat) :
    exec (.watermarkStall ret port) s = .next
      (if stallsNow s ret port then updRet ret (fun r => { r with stalled := sadd r.stalled port }) (stallTold s ret port) else s) := by
  have waits : (!(port == 6 || (linkFar s ret port).isSome) || !inService s ret || !lags s ret port || smem (s.ret ret).stalled port
      || smem (s.ret ret).cutPorts port) = !stallsNow s ret port := by
    unfold stallsNow
    simp only [Bool.not_and, Bool.not_not]
  rw [exec_watermarkStall]
  unfold execWatermarkStall
  dsimp only
  rw [waits]
  cases stallsNow s ret port <;> rfl

theorem exec_portCut_refused {s : State} {ret port : Nat}
    (h : lags s ret port = false ∨ port = 5 ∨ port = 6 ∨ smem (s.ret ret).cutPorts port = true) :
    exec (.portCut ret port) s = .next (tell (.status 0x13) s) := by
  rw [exec_portCut]
  exact if_pos (by simpa [or_assoc] using h)

theorem exec_portCut_cuts {s : State} {ret port : Nat} (late : lags s ret port = true) (injector : port ≠ 5) (receiver : port ≠ 6)
    (open_ : smem (s.ret ret).cutPorts port = false) :
    exec (.portCut ret port) s = .next (tell (.status 0) (addCut ret (cutStamp s ret) (.leave port) { s with free := s.free + 1 })) := by
  rw [exec_portCut]
  exact if_neg (by simp [late, injector, receiver, open_])

theorem ret_addCut_self (ret stamp : Nat) (k : CutKind) (s : State) :
    (addCut ret stamp k s).ret ret = { s.ret ret with cuts := (s.ret ret).cuts ++ [⟨stamp, k⟩] } := by
  unfold addCut
  rw [ret_updRet_self]

theorem ret_addCut_ne {ret j : Nat} (other : j ≠ ret) (stamp : Nat) (k : CutKind) (s : State) : (addCut ret stamp k s).ret j = s.ret j := by
  unfold addCut
  rw [ret_updRet, if_neg other]

theorem cutStamp_late (s : State) (ret : Nat) : wtime s ret + 2 * (s.mod (modOf ret)).skewb.toNat + 3200 ≤ cutStamp s ret :=
  Nat.le_add_right _ _

/-! ### Cut-overs (R375, R377, R428) -/

/-- The first cut-over of a reticle whose stamp its time has reached. -/
def cutDue (s : State) (ret : Nat) : Option Cut := (s.ret ret).cuts.find? (fun c => decide (c.stamp ≤ wtime s ret))
/-- A cut-over is taken from those of its reticle. -/
def cutTaken (ret : Nat) (c : Cut) (s : State) : State := updRet ret (fun r => { r with cuts := r.cuts.filter (fun d => d != c) }) s

theorem exec_topologyCutover_none {s : State} {ret : Nat} (due : cutDue s ret = none) : exec (.topologyCutover ret) s = .next s := by
  unfold cutDue at due
  rw [exec_topologyCutover]
  unfold execTopologyCutover
  simp only [due]

section
variable {s : State} {ret : Nat} {c : Cut} (due : cutDue s ret = some c)
include due

theorem exec_topologyCutover_leave {port : Nat} (kind : c.kind = .leave port) :
    exec (.topologyCutover ret) s = .next (if lags s ret port then updRet ret (fun r => { r with cutPorts := sadd r.cutPorts port }) (cutTaken ret c s)
      else cutTaken ret c s) := by
  unfold cutDue at due
  rw [exec_topologyCutover]
  unfold execTopologyCutover
  simp only [due, kind]
  rfl

theorem exec_topologyCutover_join {port : Nat} (kind : c.kind = .join port) :
    exec (.topologyCutover ret) s =
      .next (updRet ret (fun r => { r with cutPorts := sdel r.cutPorts port, inWm := mput r.inWm port c.stamp }) (cutTaken ret c s)) := by
  unfold cutDue at due
  rw [exec_topologyCutover]
  unfold execTopologyCutover
  simp only [due, kind]
  rfl

theorem exec_topologyCutover_mesh (kind : c.kind = .mesh) :
    exec (.topologyCutover ret) s = .next (rewriteMesh (modOf ret) c.stamp
      ((servedRets (cutTaken ret c s) (modOf ret)).foldl (fun t r => rejoinCut r c.stamp t) (cutTaken ret c s))) := by
  unfold cutDue at due
  rw [exec_topologyCutover]
  unfold execTopologyCutover
  simp only [due, kind]
  rfl

end

/-- A change of a reticle that follows another of it is the change of both. -/
theorem retTurns_updRet_updRet (ret : Nat) (f g : RetSt → RetSt) (s : State) :
    RetTurns s (updRet ret g (updRet ret f s)) ret (g (f (s.ret ret))) [] where
  rest := rfl
  value := by rw [ret_updRet_self, ret_updRet_self]
  others j other := by rw [ret_updRet, if_neg other, ret_updRet, if_neg other]
  told := (List.append_nil _).symm

end Sys2Proof.Proofs
end

section
/-! Fabric barrier trees (spec/16 R384 to R386; 15 R358): what the arrival, the release and the loss of a tree do, and the settling of the ordered class. -/

namespace Sys2Proof.Proofs

open Sys2Proof Sys2Proof.Machine Sys2Proof.Laws

/-! ### Arrivals (R385) -/

theorem treeOf_takeHeld (ret i r tree : Nat) (s : State) : treeOf (takeHeld ret i s) r tree = treeOf s r tree := by
  have same : ((takeHeld ret i s).ret r).trees = (s.ret r).trees := by
    show ((updRet ret (fun x => { x with ordBuf := sdel x.ordBuf i }) s).ret r).trees = _
    rw [ret_updRet]
    split
    case isTrue e => rw [e]
    case isFalse => rfl
  unfold treeOf
  rw [same]

section
variable {s : State} {pkt tree gen input : Nat} {p : Packet} {t : Tree} (wire : mget? s.wire pkt = some p) (body : p.body = .fbarArrive tree gen input)
  (known : treeOf s p.dst tree = some t)
include wire body known

/-- An arrival at a tree leaves the fabric, and counts for its generation, waits for the next, or is dropped. -/
theorem exec_fbarArrival_known :
    exec (.fbarArrival pkt) s =
      (let u := { s with wire := mdel s.wire pkt }
      if t.lost || !bitOf t.down input then .next u
      else if gen = t.gen then .next (if t.count < t.expect then treeFull p.dst tree (putTree p.dst tree { t with count := t.count + 1 } u) else u)
      else if gen = (t.gen + 1) % 2 ^ 32 then .next (putTree p.dst tree { t with held := t.held ++ [input] } u)
      else .next u) := by
  have known : treeOf { s with wire := mdel s.wire pkt } p.dst tree = some t := known
  rw [exec_fbarArrival]
  unfold execFbarArrival
  simp only [wire, body, known]

end

/-! ### Full trees and releases (R384, R385) -/

section
variable {s : State} {ret tree : Nat} {t : Tree} (known : treeOf s ret tree = some t)
include known

theorem treeFull_waits (h : t.lost = true ∨ t.count ≠ t.expect) : treeFull ret tree s = s := by
  unfold treeFull
  simp only [known]
  exact if_pos (by rcases h with lost | open_ <;> simp [*])

variable (lives : t.lost = false) (full : t.count = t.expect) (some_ : t.expect ≠ 0)
include lives full some_

theorem treeFull_root (root : t.up = 7) : treeFull ret tree s = sendNotice ret 0 (treeRouters s ret tree) (.fbarRelease tree t.gen) s := by
  unfold treeFull
  simp only [known]
  exact (if_neg (by simp [lives, full, some_])).trans (if_pos root)

theorem treeFull_inner {p i : Nat} (inner : t.up ≠ 7) (parent : treeParent s ret tree t.up = some (p, i)) :
    treeFull ret tree s = sendPacket ret p false 0 0 (.fbarArrive tree t.gen i) s := by
  unfold treeFull
  simp only [known, parent]
  exact (if_neg (by simp [lives, full, some_])).trans (if_neg inner)

end

section
variable {s : State} {pkt tree gen : Nat} {p : Packet} {t : Tree} (wire : mget? s.wire pkt = some p) (body : p.body = .fbarRelease tree gen)
include wire body

theorem exec_fbarRelease_waits (later : noticeNext s p.dst pkt = false) : exec (.fbarRelease pkt) s = .next s := by
  rw [exec_fbarRelease]
  unfold execFbarRelease
  simp only [wire, body, later]
  rfl

theorem exec_fbarRelease_next (known : treeOf s p.dst tree = some t) (next : noticeNext s p.dst pkt = true) :
    exec (.fbarRelease pkt) s = .next
      (if t.lost || t.gen != gen then takeHeld p.dst pkt s
      else treeFull p.dst tree (releaseCores p.dst tree
        (putTree p.dst tree { t with count := t.held.length, gen := (t.gen + 1) % 2 ^ 32, held := [] } (takeHeld p.dst pkt s)))) := by
  have known : treeOf (takeHeld p.dst pkt s) p.dst tree = some t := (treeOf_takeHeld _ _ _ _ _).trans known
  rw [exec_fbarRelease]
  unfold execFbarRelease
  simp only [wire, body, next, known]
  cases t.lost || t.gen != gen <;> rfl

end

/-! ### Losses (R386) -/

theorem exec_barrierLost_next {s : State} {ret tree gen i : Nat} {p : Packet} {t : Tree} (next : nextOrdered s ret = some (i, p))
    (body : p.body = .lost tree gen) (known : treeOf s ret tree = some t) :
    exec (.barrierLost ret tree) s = .next
      (if t.gen ≠ gen ∨ t.lost = true then takeHeld ret i s
      else loseCores ret tree (putTree ret tree { t with lost := true, count := 0, held := [] } (takeHeld ret i s))) := by
  have known : treeOf (takeHeld ret i s) ret tree = some t := (treeOf_takeHeld _ _ _ _ _).trans known
  rw [exec_barrierLost]
  unfold execBarrierLost
  simp only [next, body, known]
  exact (if_neg (not_not.mpr rfl)).trans (apply_ite Host.Outcome.next _ _ _).symm

/-- Settles O57: a watermark is bounded by what it is the least of, each event of a link, a receiver or a tree changes what its rule names, and the
packet that a receiver applies next is the least of those that it may apply. -/
theorem orderingAndTrees : Obligations.OrderingAndTrees := by
  unfold Obligations.OrderingAndTrees
  refine ⟨fun s ret port => ⟨sent_le_outputWm _ _ _, fun i mem => ?_, fun e mem => ?_, fun i link cut => not_mem_inputSet_of_cut link cut, fun dark => ?_,
      fun far i link => ⟨exec_beaconSend_early link, exec_beaconSend_sends link, exec_beaconReceive_raises link⟩⟩,
    fun s ret port pkt p wire ordered travels => ⟨exec_orderedPacketArrival_full wire ordered travels, fun room => ⟨?_, ?_⟩⟩,
    fun s i ret crossed p => ⟨wire_arriveAt _ _ _ _ _, mem_arriveAt _ _ _ _ _, fun dst => arriveAt_held dst _ _ _, fun op own ordered =>
      returnPacket_takes_all own ordered i s⟩,
    fun s ret => ⟨fun idle => ?_, fun i p next => ?_⟩,
    fun s ret port => ⟨fun early => ?_, fun known serves late fresh open_ => ?_, cutStamp_late s ret, exec_portCut_refused, fun late injector receiver open_ => ?_⟩,
    fun s ret => ⟨exec_topologyCutover_none, fun c due => ⟨?_, ?_, ?_, exec_topologyCutover_mesh due⟩⟩,
    fun s pkt p tree gen input t wire body known => ⟨fun deaf => ?_, fun lives hears => ⟨fun now open_ => ?_, fun next other => ?_, fun other later => ?_⟩⟩,
    fun s ret tree t known => ⟨treeFull_waits known, fun lives full some_ => ⟨treeFull_root known lives full some_, fun p i =>
      treeFull_inner known lives full some_⟩⟩,
    fun s pkt p tree gen t wire body known => ⟨exec_fbarRelease_waits wire body, fun next => ⟨fun stale => ?_, fun lives now => ?_⟩⟩,
    fun s ret tree gen i p t next body known => ⟨fun stale => ?_, fun now lives => ?_⟩⟩
  · exact outputWm_le (List.mem_append_left _ (List.mem_map_of_mem mem))
  · exact outputWm_le (List.mem_append_right _ (List.mem_map_of_mem mem))
  · refine ⟨?_, fun stamp => ?_⟩
    · rw [exec_beaconSend]
      unfold execBeaconSend
      simp only [dark]
    · rw [exec_beaconReceive]
      unfold execBeaconReceive
      simp only [dark]
  · rintro rfl fresh here
    exact exec_orderedPacketArrival_injected wire ordered travels (fun dst => room (.inl dst)) fresh here
  · intro far o linked link moved there out
    have arrives := exec_orderedPacketArrival_linked wire ordered travels (room (.inr linked)) linked link moved there out
    refine ⟨fun earlier => ?_, fun first => ?_⟩
    · rw [arrives, if_pos earlier]
    · have first : ¬ ∃ e ∈ heldFor s far o, e.2.key < p.key := fun ⟨e, mem, less⟩ => Nat.not_lt.mpr (first e mem) less
      rw [arrives, if_neg first]
      exact ⟨fun cut => congrArg Host.Outcome.next (if_pos cut), fun whole => congrArg Host.Outcome.next (if_neg whole)⟩
  · rw [exec_orderedDelivery]
    unfold execOrderedDelivery
    simp only [idle]
  · have mem : (i, p) ∈ deliverable s ret := mem_of_argMin next
    obtain ⟨-, below, whole⟩ := mem_deliverable.mp mem
    refine ⟨below, whole, fun j q held wire before all => nextOrdered_least next (mem_deliverable.mpr ⟨⟨held, wire⟩, before, all⟩), fun op own => ?_⟩
    rw [exec_orderedDelivery]
    unfold execOrderedDelivery
    simp only [next, own]
  · rw [exec_watermarkStall_eq, if_neg (by simp [stallsNow, early])]
  · have stalls : stallsNow s ret port = true := by simpa [stallsNow, serves, late, fresh, open_] using known
    obtain ⟨d, hears⟩ := hears_stallTold s ret port
    refine ⟨_, d, (exec_watermarkStall_eq s ret port).trans (congrArg Host.Outcome.next (if_pos stalls)), ?_, ?_, ?_, hears⟩
    · exact stallTold_keeps (g := State.groups) (fun _ _ _ => rfl) (fun _ _ o => o.groups) (fun _ _ => rfl) s ret port
    · exact stallTold_keeps (g := State.threads) (fun _ _ _ => rfl) (fun _ _ o => o.threads) (fun _ _ => rfl) s ret port
    · rw [ret_updRet_self]
      exact smem_sadd_self _ _
  · exact ⟨_, exec_portCut_cuts late injector receiver open_, rfl, rfl, ret_addCut_self _ _ _ _, fun j other => ret_addCut_ne other _ _ _⟩
  · intro port kind late
    exact ⟨_, (exec_topologyCutover_leave due kind).trans (congrArg Host.Outcome.next (if_pos late)), retTurns_updRet_updRet ret _ _ s⟩
  · intro port kind early
    exact ⟨_, (exec_topologyCutover_leave due kind).trans (congrArg Host.Outcome.next (if_neg (Bool.eq_false_iff.mp early))), retTurns_updRet ret _ s⟩
  · intro port kind
    exact ⟨_, exec_topologyCutover_join due kind, retTurns_updRet_updRet ret _ _ s⟩
  · exact (exec_fbarArrival_known wire body known).trans (if_pos (by rcases deaf with lost | deaf <;> simp [*]))
  · exact (exec_fbarArrival_known wire body known).trans ((if_neg (by simp [lives, hears])).trans ((if_pos now).trans
      (congrArg Host.Outcome.next (if_pos open_))))
  · exact (exec_fbarArrival_known wire body known).trans ((if_neg (by simp [lives, hears])).trans ((if_neg other).trans (if_pos next)))
  · exact (exec_fbarArrival_known wire body known).trans ((if_neg (by simp [lives, hears])).trans ((if_neg other).trans (if_neg later)))
  · exact (exec_fbarRelease_next wire body known next).trans (congrArg Host.Outcome.next (if_pos (by rcases stale with lost | stale <;> simp [*])))
  · exact (exec_fbarRelease_next wire body known next).trans (congrArg Host.Outcome.next (if_neg (by simp [lives, now])))
  · exact (exec_barrierLost_next next body known).trans (congrArg Host.Outcome.next (if_pos stale))
  · exact (exec_barrierLost_next next body known).trans (congrArg Host.Outcome.next (if_neg (by simp [now, lives])))

end Sys2Proof.Proofs
end

section
/-! Halting, draining and saving (spec/17 R394, R399, R400, R407, R408; 08 R341): how a halt begins, what the drain gives up, and how a group that has
drained leaves its core. -/

namespace Sys2Proof.Proofs

open Sys2Proof Sys2Proof.Machine Sys2Proof.Laws

/-! ### A halt begins (R341, R394, R399) -/

theorem mods_settlePort (p : Port) (s : State) : (settlePort p s).mods = s.mods :=
  (calm_foldl _ (fun t (h : Held) => (settles_settle h.gid h.warp p.slice t).meets.calm) _ s).mods

section
variable {s : State} {gid : Nat} {g : Machine.Group} (known : mget? s.groups gid = some g)
include known

/-- What has settled a port or two before a group halts is not seen in the group, the other groups, memory or the modules. -/
theorem beginHalt_halts {u : State} (groups : u.groups = s.groups) (mem : u.mem = s.mem) (mods : u.mods = s.mods) (ticks : u.ticks = s.ticks) (forced : Bool) :
    let t := beginHalt gid (fun x => { x with forced := forced }) u
    mget? t.groups gid = some { g with forced := forced, phase := .halting, drainFrom := some (g.drainFrom.getD s.ticks) }
      ∧ (∀ j, j ≠ gid → mget? t.groups j = mget? s.groups j) ∧ t.mem = s.mem ∧ t.mods = s.mods
      ∧ ∀ sl r, t.portRun ⟨g.core, sl⟩ = some r → r.gid ≠ gid := by
  dsimp only
  refine ⟨?_, fun j other => ?_, (congrArg State.mem (beginHalt_rest gid _ u) :).trans mem, (mods_beginHalt _ _ _).trans mods, fun sl r run => ?_⟩
  · rw [groups_beginHalt, if_pos rfl, groups, known, ticks]
    rfl
  · rw [groups_beginHalt, if_neg other, groups]
  · exact portRun_beginHalt ((congrArg (fun gs => mget? gs gid) groups).trans known) run

/-- The two ports of a group's core have settled. -/
def portsSettled (g : Machine.Group) (s : State) : State := settlePort ⟨g.core, .execute⟩ (settlePort ⟨g.core, .access⟩ s)

omit known in
theorem portsSettled_keeps (g : Machine.Group) (s : State) : (portsSettled g s).groups = s.groups ∧ (portsSettled g s).mem = s.mem
    ∧ (portsSettled g s).mods = s.mods ∧ (portsSettled g s).ticks = s.ticks := by
  have drover : OnlyDrover s (portsSettled g s) := (onlyDrover_settlePort ⟨g.core, .access⟩ s).trans (onlyDrover_settlePort ⟨g.core, .execute⟩ _)
  exact ⟨drover.groups, drover.mem, (mods_settlePort _ _).trans (mods_settlePort _ _), drover.ticks⟩

theorem exec_pdlcExpiry_known :
    exec (.pdlcExpiry gid) s = .next (if g.phase = .running ∧ g.preq = true ∧ pdlcReg s g = 0 then
      beginHalt gid (fun x => { x with forced := true }) (portsSettled g s) else s) := by
  rw [exec_pdlcExpiry]
  unfold execPdlcExpiry
  simp only [known]
  exact (apply_ite Host.Outcome.next _ _ _).symm

theorem exec_saveComplete_running (running : g.phase = .running) :
    exec (.saveComplete gid) s = .next (if groupYields s gid g then beginHalt gid (fun x => { x with forced := false }) s else s) := by
  rw [exec_saveComplete]
  unfold execSaveComplete
  simp only [known, running]
  exact (apply_ite Host.Outcome.next _ _ _).symm

theorem exec_saveComplete_halting (halting : g.phase = .halting) :
    exec (.saveComplete gid) s = .next (if groupBusy s gid then s else if g.discard then discardGroup gid g s else completeSave gid g s) := by
  rw [exec_saveComplete]
  unfold execSaveComplete
  simp only [known, halting]
  rw [apply_ite Host.Outcome.next, apply_ite Host.Outcome.next]

end

/-! ### The drain (R408) -/

/-- What has not returned when the drain of a group ends is given up. -/
def drained (gid core : Nat) (s : State) : State :=
  let a := (s.flight.filter (fun e => e.2.gid == gid)).foldl (fun u e => abandonFlight e.1 e.2 u) s
  let b := (a.longs.filter (fun e => e.2.gid == gid)).foldl (fun u e => abandonLong e.1 e.2 u) a
  let c := (b.works.filter (fun e => e.2.gid == gid && !e.2.sent)).foldl (fun u e => abandonWork e.1 e.2 u) b
  let d := (c.flushes.filter (fun e => e.2.gid == gid)).foldl (fun u e => endTag gid e.2.tag { u with flushes := mdel u.flushes e.1 }) c
  stopCopies gid core d

theorem exec_drainTimeout_since {s : State} {gid t0 : Nat} {g : Machine.Group} (known : mget? s.groups gid = some g) (halting : g.phase = .halting)
    (since : g.drainFrom = some t0) :
    exec (.drainTimeout gid) s = .next (if s.ticks - t0 < 1600000 then s else drained gid g.core s) := by
  rw [exec_drainTimeout]
  unfold execDrainTimeout
  simp only [known, since]
  by_cases early : s.ticks - t0 < 1600000
  · rw [if_pos early]
    exact if_pos (.inr early)
  · rw [if_neg early]
    exact if_neg (by simpa [halting] using early)

theorem abandonFlight_acked {f : Flight} (acked : f.kind.acked = true) (op : Nat) (s : State) : abandonFlight op f s = s := by
  unfold abandonFlight
  rw [if_pos acked]

/-- A request for registers that brings no error and no store is given up: its registers are poisoned, and it leaves the flight. -/
theorem abandonFlight_regs {f : Flight} (dest : f.dest = .regs) (answers : f.kind.acked = false) (written : f.kind.writes = true → f.performed = true)
    (clean : f.performed = true → ∀ x ∈ f.lanes, x.err = none) (op : Nat) (s : State) :
    abandonFlight op f s = dropFlight op ((f.lanes.map (fun x => (x.lane, x.reg))).foldl (fun t p =>
      poisonCodes (thKey (swKey f.gid f.warp f.slice) p.1) p.2 f.words t) s) := by
  have silent : (f.performed && f.lanes.any (fun x => x.err.isSome)) = false := by
    cases done : f.performed with
    | false => rfl
    | true => exact List.any_eq_false.mpr fun x mem => by simp [clean done x mem]
  have landed : (f.kind.writes && !f.performed) = false := by
    cases done : f.performed with
    | false => cases writes : f.kind.writes with
      | false => rfl
      | true => exact absurd (written writes) (by simp [done])
    | true => simp
  unfold abandonFlight
  rw [if_neg (by simp [answers]), if_neg (by simp [silent])]
  dsimp only
  rw [if_neg (by simp [landed])]
  unfold poisonDest
  rw [dest]

/-- Code c of a thread's main registers is poisoned. -/
def MainPoisoned (k c : Nat) (s : State) : Prop := smem (s.thread k).mainPoison c = true

/-- One register of a thread is poisoned. -/
def poisonCode (k c : Nat) (s : State) : State :=
  updTh k (fun x => if c < 256 then { x with mainPoison := sadd x.mainPoison c } else { x with opndPoison := sadd x.opndPoison (c - 256) }) s

theorem mainPoisoned_poisonCode {k c : Nat} {s : State} (h : MainPoisoned k c s) (j d : Nat) : MainPoisoned k c (poisonCode j d s) := by
  unfold MainPoisoned poisonCode
  rw [thread_updTh]
  split
  case isTrue e =>
    subst e
    split
    · rw [smem_sadd, h]; rfl
    · exact h
  case isFalse => exact h

theorem mainPoisoned_self {c : Nat} (main : c < 256) (k : Nat) (s : State) : MainPoisoned k c (poisonCode k c s) := by
  unfold MainPoisoned poisonCode
  rw [thread_updTh_self, if_pos main]
  exact smem_sadd_self _ _

theorem mainPoisoned_poisonCodes {k c : Nat} {s : State} (h : MainPoisoned k c s) (j reg n : Nat) : MainPoisoned k c (poisonCodes j reg n s) :=
  foldl_preserves (P := MainPoisoned k c) (step := fun t d => poisonCode j d t) (fun _ d p => mainPoisoned_poisonCode p j d) (upFrom reg n) h

theorem poisonCodes_covers {c reg n : Nat} (low : reg ≤ c) (high : c < reg + n) (main : c < 256) (k : Nat) (s : State) :
    MainPoisoned k c (poisonCodes k reg n s) :=
  foldl_reaches (I := fun _ => True) (f := fun t d => poisonCode k d t) (fun _ _ _ _ => trivial) (fun t _ => mainPoisoned_self main k t)
    (fun _ d _ _ p => mainPoisoned_poisonCode p k d) trivial (.inr (mem_upFrom.mpr ⟨low, high⟩))

theorem flight_dropFlight (op : Nat) (s : State) : mget? (dropFlight op s).flight op = none := by
  rw [show (dropFlight op s).flight = mdel s.flight op from (congrArg State.flight (dropFlight_ends op s).rest :)]
  exact mget?_mdel_self _ _

theorem abandonFlight_poisons {f : Flight} (dest : f.dest = .regs) (answers : f.kind.acked = false) (written : f.kind.writes = true → f.performed = true)
    (clean : f.performed = true → ∀ x ∈ f.lanes, x.err = none) (op : Nat) (s : State) {x : LaneReq} (mem : x ∈ f.lanes) {c : Nat} (low : x.reg ≤ c)
    (high : c < x.reg + f.words) (main : c < 256) :
    smem ((abandonFlight op f s).thread (thKey (swKey f.gid f.warp f.slice) x.lane)).mainPoison c = true := by
  rw [abandonFlight_regs dest answers written clean, dropFlight_thread]
  exact foldl_reaches (I := fun _ => True) (P := MainPoisoned (thKey (swKey f.gid f.warp f.slice) x.lane) c) (n := (x.lane, x.reg))
    (f := fun t (p : Nat × Nat) => poisonCodes (thKey (swKey f.gid f.warp f.slice) p.1) p.2 f.words t) (fun _ _ _ _ => trivial)
    (fun t _ => poisonCodes_covers low high main _ t) (fun _ p _ _ h => mainPoisoned_poisonCodes h _ p.2 f.words) trivial
    (.inr (List.mem_map_of_mem mem))

/-! ### The image (R410, R411) -/

/-- A list that pairs every key with what a function gives it, looked up. -/
theorem mget?_of_graph {α : Type} {f : Nat → α} {l : List (Nat × α)} (graph : ∀ e ∈ l, e.2 = f e.1) {k : Nat} (mem : k ∈ l.map (·.1)) :
    mget? l k = some (f k) := by
  induction l with
  | nil => cases mem
  | cons e l ih =>
    obtain ⟨first, rest⟩ := List.forall_mem_cons.mp graph
    obtain ⟨j, v⟩ := e
    unfold mget?
    by_cases here : k = j
    · rw [if_pos here, here]
      exact congrArg some first
    · rw [if_neg here]
      exact ih rest ((List.mem_cons.mp mem).resolve_left here)

theorem savedThreads_forced {g : Machine.Group} (forced : g.forced = true) (s : State) (gid : Nat) (p : Nat × Slice) :
    savedThreads s gid g p = (threadsOf gid p.1 p.2 g.launch).map (fun k => (k, savedThread true (s.thread k))) := by
  unfold savedThreads
  simp only [forced, Bool.true_or, if_true]

theorem imageOf_thread {g : Machine.Group} (forced : g.forced = true) (s : State) (gid : Nat) {w : Nat} {sl : Slice} (mem : (w, sl) ∈ swsOf g.launch) {l : Nat}
    (visible : l < g.launch.visible) : (imageOf s gid g).thread (thKey (swKey gid w sl) l) = savedThread true (s.thread (thKey (swKey gid w sl) l)) := by
  have threads : (imageOf s gid g).threads = (swsOf g.launch).flatMap (fun p =>
      (threadsOf gid p.1 p.2 g.launch).map (fun k => (k, savedThread true (s.thread k)))) :=
    List.flatMap_congr fun p _ => savedThreads_forced forced s gid p
  have found : mget? (imageOf s gid g).threads (thKey (swKey gid w sl) l) = some (savedThread true (s.thread (thKey (swKey gid w sl) l))) := by
    rw [threads]
    refine mget?_of_graph (f := fun k => savedThread true (s.thread k)) (fun e listed => ?_) ?_
    · obtain ⟨p, -, own⟩ := List.mem_flatMap.mp listed
      obtain ⟨k, -, rfl⟩ := List.mem_map.mp own
      rfl
    · refine List.mem_map.mpr ⟨(thKey (swKey gid w sl) l, savedThread true (s.thread (thKey (swKey gid w sl) l))), List.mem_flatMap.mpr ⟨(w, sl), mem,
        List.mem_map_of_mem (List.mem_map_of_mem (mem_upFrom.mpr ⟨Nat.zero_le _, by simpa using visible⟩))⟩, rfl⟩
  unfold Image.thread mget
  rw [found]
  rfl

/-! ### A group leaves its core (R405, R407) -/

/-- What a group on its way out leaves: its own name is free, and memory, the modules, the life of each core and its Cellar are as they were. -/
structure Leaves (gid : Nat) (s t : State) : Prop where
  gone : mget? t.groups gid = none
  mem : t.mem = s.mem
  mods : t.mods = s.mods
  live : ∀ k, coreLive (t.core k) = coreLive (s.core k)
  cellar : ∀ k, (t.core k).cellarOut = (s.core k).cellarOut

/-- A part of a core that an update of one core keeps, every core keeps. -/
theorem core_updCore_keeps {α : Type} {g : CoreSt → α} {f : CoreSt → CoreSt} (same : ∀ c, g (f c) = g c) (k j : Nat) (s : State) :
    g ((updCore k f s).core j) = g (s.core j) := by
  rw [core_updCore]
  split
  case isTrue e => rw [same, e]
  case isFalse => rfl

/-- A core that a group has left: its runs have left the ports. -/
def coreWithout (gid : Nat) (c : CoreSt) : CoreSt :=
  { c with groups := sdel c.groups gid, portA := runUnless gid c.portA, portX := runUnless gid c.portX }

theorem removeGroup_of {s : State} {gid : Nat} {g : Machine.Group} (known : mget? s.groups gid = some g) :
    removeGroup gid s = { updCore g.core (coreWithout gid) s with
      groups := mdel s.groups gid
      sws := s.sws.filter (fun e => e.1 / 32 != gid)
      threads := s.threads.filter (fun e => e.1 / 2048 != gid)
      queues := s.queues.filter (fun e => e.1 / 8192 != gid)
      deadlock := s.deadlock.filter (fun e => e.1 / 16 != gid)
      watches := s.watches.filter (fun w => w.sw / 32 != gid) } := by
  unfold removeGroup
  simp only [known]
  rfl

theorem groups_removeGroup (gid : Nat) (s : State) : mget? (removeGroup gid s).groups gid = none := by
  cases known : mget? s.groups gid with
  | none =>
    unfold removeGroup
    simp only [known]
  | some g =>
    rw [removeGroup_of known]
    exact mget?_mdel_self _ _

theorem mods_removeGroup (gid : Nat) (s : State) : (removeGroup gid s).mods = s.mods := by
  unfold removeGroup
  split <;> rfl

/-- The operations of a group leave the COPY engine of its core, and the group its core. -/
def coreLeft (gid : Nat) (g : Machine.Group) (s : State) : State :=
  removeGroup gid (updCore g.core (fun c => { c with copyq := c.copyq.filter (fun o => o.gid != gid) }) s)

theorem leaves_coreLeft {s : State} {gid : Nat} {g : Machine.Group} (known : mget? s.groups gid = some g) : Leaves gid s (coreLeft gid g s) := by
  have known : mget? (updCore g.core (fun c => { c with copyq := c.copyq.filter (fun o => o.gid != gid) }) s).groups gid = some g := known
  unfold coreLeft
  refine ⟨groups_removeGroup _ _, by rw [removeGroup_of known]; rfl, mods_removeGroup _ _, fun k => ?_, fun k => ?_⟩
  · rw [removeGroup_of known]
    exact (core_updCore_keeps (g := coreLive) (f := coreWithout gid) (fun _ => rfl) g.core k _).trans (core_updCore_keeps (by intro c; rfl) g.core k s)
  · rw [removeGroup_of known]
    exact (core_updCore_keeps (g := CoreSt.cellarOut) (f := coreWithout gid) (fun _ => rfl) g.core k _).trans
      (core_updCore_keeps (by intro c; rfl) g.core k s)

theorem mods_discardQueues (gid : Nat) (s : State) : (discardQueues gid s).mods = s.mods := by
  unfold discardQueues bumpCounter
  split
  · rfl
  · split <;> rfl

theorem groups_discardGroup (gid : Nat) (g : Machine.Group) (s : State) : mget? (discardGroup gid g s).groups gid = none := by
  unfold discardGroup
  dsimp only
  rw [groups_gridSettled]
  exact groups_removeGroup _ _

theorem saved_updGrid (m h j : Nat) (f : Grid → Grid) (s : State) : ((updGrid m h f s).mod j).saved = (s.mod j).saved := by
  unfold updGrid
  split
  · rw [mod_updMod]
    split
    case isTrue e => rw [e]
    case isFalse => rfl
  · rfl

theorem saved_gridSettled (m h j : Nat) (s : State) : ((gridSettled m h s).mod j).saved = (s.mod j).saved :=
  gridSettled_keeps (g := fun t => (t.mod j).saved) (fun f t => saved_updGrid m h j f t) (fun _ _ o => by rw [mod_of_mods o.mods]) s

theorem saved_discardGroup (gid : Nat) (g : Machine.Group) (s : State) (j : Nat) : ((discardGroup gid g s).mod j).saved = (s.mod j).saved := by
  unfold discardGroup
  dsimp only
  rw [saved_gridSettled, mod_of_mods ((mods_removeGroup _ _).trans (mods_discardQueues _ _))]
  rfl

/-! ### The Cellar and the image store (R204, R412) -/

/-- An image without the key under which the image store holds it. -/
def unkeyed (y : Image) : Image := { y with keyBits := none }

/-- Images of module m move to the image store, and nothing else differs but what cores hold in their Cellars. -/
structure Stores (m : Nat) (s t : State) : Prop where
  rest : { t with mods := s.mods, cores := s.cores } = s
  value : { t.mod m with saved := (s.mod m).saved } = s.mod m
  saved : ∀ j, (mget? (t.mod m).saved j).map unkeyed = (mget? (s.mod m).saved j).map unkeyed

theorem stores_trans {m : Nat} {s t u : State} (h : Stores m s t) (k : Stores m t u) : Stores m s u where
  rest := (congrArg (fun x : State => { x with mods := s.mods, cores := s.cores }) k.rest).trans h.rest
  value := (congrArg (fun x : ModSt => { x with saved := (s.mod m).saved }) k.value).trans h.value
  saved j := (k.saved j).trans (h.saved j)

theorem saved_storeImage (m gid j : Nat) (s : State) :
    mget? ((storeImage m gid s).mod m).saved j =
      (mget? (s.mod m).saved j).map (fun y => if j = gid then { y with keyBits := some (storeKey s y) } else y) := by
  unfold storeImage
  rw [mod_updMod_self]
  dsimp only
  rw [mget?_map_keys _ _ _ (fun e => by split <;> rfl)]
  congr 1
  funext y
  split <;> rfl

theorem stores_storeImage (m gid : Nat) (s : State) : Stores m s (storeImage m gid s) where
  rest := rfl
  value := by
    unfold storeImage
    rw [mod_updMod_self]
  saved j := by
    rw [saved_storeImage, Option.map_map]
    congr 1
    funext y
    by_cases here : j = gid <;> simp [here, unkeyed]

theorem stores_updCore (m k : Nat) (f : CoreSt → CoreSt) (s : State) : Stores m s (updCore k f s) := ⟨rfl, rfl, fun _ => rfl⟩

theorem stores_refl (m : Nat) (s : State) : Stores m s s := ⟨rfl, rfl, fun _ => rfl⟩

/-- What a core's outgoing slot holds moves to the image store. -/
def slotEmptied (m k : Nat) (s : State) : State := match (s.core k).cellarOut with | some old => storeImage m old s | none => s

theorem stores_slotEmptied (m k : Nat) (s : State) : Stores m s (slotEmptied m k s) := by
  unfold slotEmptied
  split
  · exact stores_storeImage _ _ _
  · exact stores_refl _ _

theorem cores_slotEmptied (m k : Nat) (s : State) : (slotEmptied m k s).cores = s.cores := by
  unfold slotEmptied
  split <;> rfl

theorem saved_slotEmptied {m k gid : Nat} {s : State} (other : (s.core k).cellarOut ≠ some gid) :
    mget? ((slotEmptied m k s).mod m).saved gid = mget? (s.mod m).saved gid := by
  unfold slotEmptied
  split
  case h_1 old held =>
    have different : gid ≠ old := fun e => other (e ▸ held)
    rw [saved_storeImage]
    simp [different]
  case h_2 => rfl

theorem intoCellar_eq (m k gid : Nat) (s : State) :
    intoCellar m k gid s =
      if foldComplete (slotEmptied m k s) (coreRet k) (coreFold k) then updCore k (fun c => { c with cellarOut := some gid }) (slotEmptied m k s)
      else storeImage m gid (updCore k (fun c => { c with cellarOut := none }) (slotEmptied m k s)) := rfl

theorem stores_intoCellar (m k gid : Nat) (s : State) : Stores m s (intoCellar m k gid s) := by
  rw [intoCellar_eq]
  split
  · exact stores_trans (stores_slotEmptied m k s) (stores_updCore _ _ _ _)
  · exact stores_trans (stores_trans (stores_slotEmptied m k s) (stores_updCore _ _ _ _)) (stores_storeImage _ _ _)

theorem foldComplete_of_live {s t : State} (live : ∀ k, coreLive (t.core k) = coreLive (s.core k)) (ret fold : Nat) :
    foldComplete t ret fold = foldComplete s ret fold := by
  unfold foldComplete
  simp only [live]

/-- The image of a group goes to the slot of a core of a complete fold, under no key of the store. -/
theorem saved_intoCellar {m k gid : Nat} {s : State} (complete : foldComplete s (coreRet k) (coreFold k) = true)
    (other : (s.core k).cellarOut ≠ some gid) : mget? ((intoCellar m k gid s).mod m).saved gid = mget? (s.mod m).saved gid := by
  have same : foldComplete (slotEmptied m k s) (coreRet k) (coreFold k) = true :=
    (foldComplete_of_live (fun j => by unfold State.core; rw [cores_slotEmptied]) _ _).trans complete
  rw [intoCellar_eq, if_pos same]
  exact saved_slotEmptied other

/-! ### A save is complete (R407) -/

/-- The image of a group that leaves its core is kept. -/
def imageKept (gid : Nat) (g : Machine.Group) (s : State) : State :=
  intoCellar g.m g.core gid (updMod g.m (fun y => { y with saved := mput y.saved gid (imageOf s gid g) }) (coreLeft gid g s))

/-- What is kept of a group whose save is complete: its image under the key of the store or under none, and the others' images. -/
def ImageSaved (gid : Nat) (g : Machine.Group) (s t : State) : Prop :=
  ∃ kb, mget? (t.mod g.m).saved gid = some { imageOf s gid g with keyBits := kb }
    ∧ (foldComplete s (coreRet g.core) (coreFold g.core) = true → (s.core g.core).cellarOut ≠ some gid → kb = none)
    ∧ ∀ j, j ≠ gid → (mget? (t.mod g.m).saved j).map unkeyed = (mget? (s.mod g.m).saved j).map unkeyed

section
variable {s : State} {gid : Nat} {g : Machine.Group} (known : mget? s.groups gid = some g)
include known

theorem imageKept_keeps : mget? (imageKept gid g s).groups gid = none ∧ (imageKept gid g s).mem = s.mem
    ∧ { (imageKept gid g s).mod g.m with saved := (s.mod g.m).saved } = s.mod g.m ∧ ImageSaved gid g s (imageKept gid g s) := by
  have left := leaves_coreLeft known
  have same : (coreLeft gid g s).mod g.m = s.mod g.m := mod_of_mods left.mods _
  have stores := stores_intoCellar g.m g.core gid (updMod g.m (fun y => { y with saved := mput y.saved gid (imageOf s gid g) }) (coreLeft gid g s))
  have value := stores.value
  have saved := stores.saved
  rw [mod_updMod_self, same] at value saved
  refine ⟨(congrArg (fun t : State => mget? t.groups gid) stores.rest :).trans left.gone, (congrArg State.mem stores.rest :).trans left.mem,
    (congrArg (fun x : ModSt => { x with saved := (s.mod g.m).saved }) value :), ?_⟩
  have own := saved gid
  rw [mget?_mput_self] at own
  obtain ⟨y, found, image⟩ := Option.map_eq_some_iff.mp own
  refine ⟨y.keyBits, ?_, fun complete other => ?_, fun j different => ?_⟩
  · exact found.trans (congrArg some (congrArg (fun z : Image => { z with keyBits := y.keyBits }) image :))
  · have complete : foldComplete (updMod g.m (fun y => { y with saved := mput y.saved gid (imageOf s gid g) }) (coreLeft gid g s)) (coreRet g.core)
        (coreFold g.core) = true := (foldComplete_of_live left.live _ _).trans complete
    have kept := saved_intoCellar (m := g.m) (gid := gid) complete (by rw [core_updMod, left.cellar]; exact other)
    rw [mod_updMod_self, mget?_mput_self] at kept
    rw [Option.some.inj (found.symm.trans kept)]
    rfl
  · rw [← mget?_mput_ne (s.mod g.m).saved (imageOf s gid g) different]
    exact saved j

omit known in
theorem completeSave_quiesced (quiesced : g.halt = none ∨ g.debug = true) : completeSave gid g s = imageKept gid g s := by
  have waits : ((imageOf s gid g).halted && !(imageOf s gid g).debug) = false := by
    show (g.halt.isSome && !g.debug) = false
    rcases quiesced with none | debugged <;> simp [*]
  unfold completeSave
  exact if_neg (by rw [waits]; exact Bool.false_ne_true)

/-- A halted group whose domain has a handler grid already waits for its turn. -/
theorem completeSave_halted (halted : g.halt ≠ none) (undebugged : g.debug = false)
    (handled : mget? (s.mod g.m).handlers (domainOf s g.m 8 g.region) ≠ none) :
    completeSave gid g s = updMod g.m (fun y => { y with waitingHalts := y.waitingHalts ++ [gid] }) (imageKept gid g s) := by
  obtain ⟨-, -, value, -⟩ := imageKept_keeps known
  have waits : ((imageOf s gid g).halted && !(imageOf s gid g).debug) = true := by
    show (g.halt.isSome && !g.debug) = true
    simp [Option.isSome_iff_ne_none, halted, undebugged]
  have domain : domainOf (imageKept gid g s) g.m 8 g.region = domainOf s g.m 8 g.region :=
    domainOf_regions (congrArg ModSt.regions value :) _ _
  have handlers : ((imageKept gid g s).mod g.m).handlers = (s.mod g.m).handlers := (congrArg ModSt.handlers value :)
  unfold completeSave
  refine (if_pos waits).trans ?_
  show launchHandler g.m (domainOf (imageKept gid g s) g.m 8 g.region) _ = _
  unfold launchHandler
  refine if_pos ?_
  rw [domain, mod_updMod_self]
  exact Option.isSome_iff_ne_none.mpr (handlers ▸ handled)

end

end Sys2Proof.Proofs
end

section
/-! Handler grids, dispositions, the resuming of saved groups and the commit of staged grids (spec/17 R405, R406, R412, R413, R419). -/

namespace Sys2Proof.Proofs

open Sys2Proof Sys2Proof.Machine Sys2Proof.Laws

/-! ### The handler grid of a domain (R406) -/

/-- A halted group is no longer among those that wait for a handler. -/
def haltTaken (m i : Nat) (s : State) : State := updMod m (fun y => { y with waitingHalts := y.waitingHalts.filter (· != i) }) s

/-- The handler grid of a domain is accepted, for one group. -/
def handlerAccepted (m d i : Nat) (x : Image) (bs : List Byte) (s : State) : State :=
  let a := acceptGrid m x.group.root none none { launchOf bs with argp := x.group.recordVa } (some (i, x.group.recordVa)) s
  updMod m (fun y => { y with handlers := mput y.handlers d a.1 }) a.2

theorem launchHandler_next {s : State} {m d i : Nat} {x : Image} {r : Region} {bs : List Byte} (idle : mget? (s.mod m).handlers d = none)
    (next : nextHalted s m d = some (i, x)) (region : mget? (s.mod m).regions d = some r)
    (record : readRecord (haltTaken m i s) m x.group.root r.rcb.handler = some bs) :
    launchHandler m d s =
      if launchStatus (haltTaken m i s) m x.group.root .host bs ≠ 0 then terminateDomain m d (haltTaken m i s)
      else handlerAccepted m d i x bs (haltTaken m i s) := by
  have free : ¬ (mget? (s.mod m).handlers d).isSome = true := by rw [idle]; exact Bool.false_ne_true
  unfold haltTaken at record
  unfold launchHandler
  rw [if_neg free]
  simp only [next, region, record]
  rfl

/-- A grid as it is accepted (R44). -/
def gridAccepted (root : Nat) (queue pred : Option Nat) (l : Launch) (handlerFor : Option (Nat × Nat)) (post : Nat) : Grid :=
  { launch := l, root := root, queue := queue, pred := pred, post := post, state := .waiting, status := 0, placed := 0, ended := 0
    triggered := [], gone := [], dist := 0, retries := 0, log := [], handlerFor := handlerFor }

theorem grids_acceptGrid (m root : Nat) (queue pred : Option Nat) (l : Launch) (handlerFor : Option (Nat × Nat)) (s : State) :
    mget? ((acceptGrid m root queue pred l handlerFor s).2.mod m).grids (acceptGrid m root queue pred l handlerFor s).1 =
      some (gridAccepted root queue pred l handlerFor s.nextId) := by
  unfold acceptGrid
  dsimp only
  rw [mod_updMod_self]
  exact mget?_mput_self _ _ _

theorem handlerAccepted_runs (m d i : Nat) (x : Image) (bs : List Byte) (s : State) :
    ∃ h g, mget? ((handlerAccepted m d i x bs s).mod m).handlers d = some h ∧ mget? ((handlerAccepted m d i x bs s).mod m).grids h = some g
      ∧ g.launch = { launchOf bs with argp := x.group.recordVa } ∧ g.handlerFor = some (i, x.group.recordVa) ∧ g.state = .waiting ∧ g.status = 0
      ∧ g.root = x.group.root := by
  unfold handlerAccepted
  dsimp only
  rw [mod_updMod_self]
  exact ⟨_, _, mget?_mput_self _ _ _, grids_acceptGrid _ _ _ _ _ _ _, rfl, rfl, rfl, rfl, rfl⟩

/-- A handler grid that has finished is none's any more. -/
def handlerEnded (m grid d : Nat) (s : State) : State :=
  updGrid m grid (fun y => { y with handlerFor := none }) (updMod m (fun y => { y with handlers := mdel y.handlers d }) s)

/-- The disposition that a handler has left, zero when it cannot be read. -/
def dispositionRead (m root va : Nat) (s : State) : Nat := match readVa s m root (va + 0x1B) 1 with | some bs => ofBytesLE bs | none => 0

theorem exec_handlerFinish_of {s : State} {m grid : Nat} {x : Grid} {gid va d : Nat} (known : mget? (s.mod m).grids grid = some x)
    (handler : x.handlerFor = some (gid, va)) (ended : x.state = .finished) (own : (s.mod m).handlers.find? (fun e => e.2 == grid) = some (d, grid)) :
    exec (.handlerFinish m grid) s = .next (launchHandler m d (if x.status = 0 then
      dispose m d gid (dispositionRead m x.root va (handlerEnded m grid d s)) (handlerEnded m grid d s) else terminateDomain m d (handlerEnded m grid d s))) := by
  rw [exec_handlerFinish]
  unfold execHandlerFinish
  simp only [known, handler, own]
  exact if_neg (not_not.mpr ended)

/-! ### Dispositions (R406) -/

/-- A saved group that no disposition lets go on: it is lost, or its fault is SDC_DETECTED. -/
def pastResuming (x : Image) : Bool := x.group.phase == .lost || (match x.group.halt with | some (c, _) => c == .sdcDetected | none => false)

theorem pastResuming_iff (x : Image) : pastResuming x = true ↔ x.group.phase = .lost ∨ ∃ a, x.group.halt = some (.sdcDetected, a) := by
  unfold pastResuming
  rcases x.group.halt with - | ⟨c, a⟩ <;> simp

section
variable {s : State} {m gid : Nat} {x : Image} (saved : mget? (s.mod m).saved gid = some x) (d : Nat)
include saved

theorem dispose_of (k : Nat) :
    dispose m d gid k s =
      if k = 3 ∨ ((k = 1 ∨ k = 2) ∧ pastResuming x = true) then discardSaved m gid s
      else if k = 1 ∨ k = 2 then updMod m (fun y => { y with saved := mput y.saved gid (releaseImage s (k == 2) x) }) s
      else terminateDomain m d s := by
  unfold dispose
  simp only [saved]
  rfl

theorem modTurns_dispose {k : Nat} (resumes : k = 1 ∨ k = 2) (going : pastResuming x = false) :
    ModTurns s (dispose m d gid k s) m { s.mod m with saved := mput (s.mod m).saved gid (releaseImage s (k == 2) x) } [] := by
  have other : ¬ (k = 3 ∨ ((k = 1 ∨ k = 2) ∧ pastResuming x = true)) := by
    rw [going]
    rcases resumes with rfl | rfl <;> simp
  rw [dispose_of saved, if_neg other, if_pos resumes]
  exact modTurns_updMod m _ s

theorem dispose_gone {k : Nat} (resumes : k = 1 ∨ k = 2) (gone : pastResuming x = true) : dispose m d gid k s = discardSaved m gid s := by
  rw [dispose_of saved, if_pos (.inr ⟨resumes, gone⟩)]

theorem dispose_ends {k : Nat} (unnamed : k = 0 ∨ 4 ≤ k) : dispose m d gid k s = terminateDomain m d s := by
  rw [dispose_of saved, if_neg (by omega), if_neg (by omega)]

end

/-! ### What the tests of a group's slots leave (R382) -/

/-- What a thread holds in its registers and predicates. -/
def heldValues (th : Thread) : SMap W32 × SMap W32 × BitVec 24 × Nat := (th.main, th.opnd, th.pred, th.wb)

/-- Only the slots of a group, and where threads stand and wait, differ in what a resumed group is told by. -/
structure SlotsTested (gid : Nat) (s t : State) : Prop where
  group : ∀ g, mget? s.groups gid = some g → ∃ slots, mget? t.groups gid = some { g with slots := slots }
  mods : t.mods = s.mods
  threads : ∀ k, heldValues (t.thread k) = heldValues (s.thread k)

theorem slotsTested_refl (gid : Nat) (s : State) : SlotsTested gid s s := ⟨fun g known => ⟨g.slots, known⟩, rfl, fun _ => rfl⟩

theorem slotsTested_trans {gid : Nat} {s t u : State} (a : SlotsTested gid s t) (b : SlotsTested gid t u) : SlotsTested gid s u where
  group g known := by
    obtain ⟨slots, known⟩ := a.group g known
    obtain ⟨slots', known⟩ := b.group _ known
    exact ⟨slots', known⟩
  mods := b.mods.trans a.mods
  threads k := (b.threads k).trans (a.threads k)

theorem slotsTested_foldl {α : Type} {gid : Nat} {f : State → α → State} (each : ∀ t a, SlotsTested gid t (f t a)) (l : List α) (s : State) :
    SlotsTested gid s (l.foldl f s) :=
  foldl_preserves (P := SlotsTested gid s) (fun t a h => slotsTested_trans h (each t a)) l (slotsTested_refl gid s)

theorem slotsTested_settle (gid warp : Nat) (sl : Slice) (s : State) : SlotsTested gid s (settle gid warp sl s) := by
  have meets := (settles_settle gid warp sl s).meets
  refine ⟨fun g known => ⟨g.slots, (congrArg (fun gs => mget? gs gid) meets.calm.groups).trans known⟩, meets.calm.mods, fun k => ?_⟩
  show heldValues ((settle gid warp sl s).thread k).unheld = heldValues (s.thread k).unheld
  exact congrArg heldValues (meets.threads k)

theorem slotsTested_acquireSws (gid : Nat) (ks : List Nat) (s : State) : SlotsTested gid s (acquireSws ks s) := by
  have rest := (onlyOrders_acquireSws ks s).rest
  refine ⟨fun g known => ⟨g.slots, ?_⟩, (congrArg State.mods rest :), fun k => ?_⟩
  · exact (congrArg (fun t : State => mget? t.groups gid) rest :).trans known
  · exact (congrArg (fun t : State => heldValues (t.thread k)) rest :)

/-- The threads that a passed generation of a slot lets go on. -/
def slotWoken (gid b : Nat) (gen : W32) (s : State) : State :=
  { s with threads := s.threads.map (fun e =>
      if (e.1 / 2048 == gid && e.2.barOver b gen) = true then (e.1, { wakeThread e.2 with arr := mdel e.2.arr b }) else e) }

theorem slotsTested_slotWoken (gid b : Nat) (gen : W32) (s : State) : SlotsTested gid s (slotWoken gid b gen s) := by
  refine ⟨fun g known => ⟨g.slots, known⟩, rfl, fun k => ?_⟩
  unfold slotWoken State.thread mget
  dsimp only
  rw [mget?_map_keys _ _ _ (fun e => by split <;> rfl)]
  cases mget? s.threads k with
  | none => rfl
  | some th =>
    show heldValues (if (k / 2048 == gid && th.barOver b gen) = true then (k, { wakeThread th with arr := mdel th.arr b }) else (k, th)).2 = heldValues th
    split <;> rfl

theorem slotsTested_putSlot (gid b : Nat) (x : Slot) (s : State) :
    SlotsTested gid s (updGroup gid (fun y => { y with slots := mput y.slots b x }) s) := by
  refine ⟨fun g known => ⟨mput g.slots b x, by rw [groups_updGroup, if_pos rfl, known]; rfl⟩, ?_, fun k => ?_⟩
  · unfold updGroup; split <;> rfl
  · unfold updGroup; split <;> rfl

theorem slotsTested_testSlot (gid b : Nat) (s : State) : SlotsTested gid s (testSlot gid b s) := by
  have released : SlotsTested gid s (releaseSlot gid b s) := by
    unfold releaseSlot
    split
    · exact slotsTested_refl gid s
    · exact slotsTested_trans (slotsTested_trans (slotsTested_putSlot gid b _ s) (slotsTested_slotWoken gid b _ _)) (slotsTested_acquireSws gid _ _)
  unfold testSlot
  split
  · exact slotsTested_refl gid s
  · dsimp only
    split
    · exact released
    · exact slotsTested_refl gid s

theorem slotsTested_testSlots (gid : Nat) (s : State) : SlotsTested gid s (testSlots gid s) := by
  unfold testSlots
  split
  · exact slotsTested_refl gid s
  · exact slotsTested_foldl (fun t b => slotsTested_testSlot gid b t) _ s

/-- The slice-warps of a group settle, and its slots are tested. -/
def resettled (gid : Nat) (l : Launch) (s : State) : State := testSlots gid ((swsOf l).foldl (fun t p => settle gid p.1 p.2 t) s)

theorem slotsTested_resettled (gid : Nat) (l : Launch) (s : State) : SlotsTested gid s (resettled gid l s) :=
  slotsTested_trans (slotsTested_foldl (fun t (p : Nat × Slice) => slotsTested_settle gid p.1 p.2 t) (swsOf l) s) (slotsTested_testSlots gid _)

/-! ### The loading of an image (R413) -/

section
variable (gid : Nat) (x : Image) (k vbase : Nat) (s : State)

/-- The core that takes a saved group, with what its image brings to it. -/
def imageBrought : State :=
  updCore k (fun c => { c with
    l1 := []
    copyq := c.copyq ++ x.copies
    bank := x.bank.foldl (fun b e => mput b e.1 e.2) (c.bank.filter (fun e => !smem x.group.acc (e.1 / 128))) })
    (bringGroup k gid x.group.m x.group.root x.group.grid x.group.launch.width s)

/-- The group as it resumes on a core. -/
def resumedGroup : Machine.Group :=
  { x.group with
    core := k, window := vbase, phase := .running, halt := none, recordVa := 0, recordOk := false, forced := false, debug := false
    resumeFault := none, placedAt := (imageBrought gid x k s).ticks
    slots := (x.group.slots.zip (freeSlots (imageBrought gid x k s) k)).map (fun p => (p.1.1, { p.1.2 with phys := p.2 })) }

/-- The group, its slice-warps, threads and queues are on the core, and its image is gone. -/
def imagePut : State :=
  let b := imageBrought gid x k s
  let base := spadPa k x.group.spadOff
  let w := wakeWatches base x.group.launch.spad (writeRaw (zeroRange base x.group.launch.spad b) base x.spad)
  updMod x.group.m (fun y => { y with saved := mdel y.saved gid }) (leaveCellar gid { w with
    poison := x.spadPoison.foldl (fun p o => sadd p (base + o)) w.poison
    groups := mput w.groups gid (resumedGroup gid x k vbase s)
    sws := x.sws.foldl (fun m e => mput m e.1 { e.2 with active := false, pendSince := w.ticks }) w.sws
    threads := x.threads.foldl (fun m e => mput m e.1 (resumedThread e.2)) w.threads
    queues := x.queues.foldl (fun m e => mput m e.1 e.2) w.queues })

theorem loadImage_of_no_fault (clean : x.group.resumeFault = none) :
    loadImage gid x k vbase s = resettled gid x.group.launch (imagePut gid x k vbase s) := by
  unfold loadImage
  simp only [clean]
  rfl

theorem groups_imagePut : mget? (imagePut gid x k vbase s).groups gid = some (resumedGroup gid x k vbase s) := mget?_mput_self _ _ _

theorem threads_imagePut : (imagePut gid x k vbase s).threads =
    x.threads.foldl (fun m e => mput m e.1 (resumedThread e.2)) (imageBrought gid x k s).threads := rfl

theorem saved_imagePut : mget? ((imagePut gid x k vbase s).mod x.group.m).saved gid = none := by
  unfold imagePut
  dsimp only
  rw [mod_updMod_self]
  exact mget?_mdel_self _ _

end

/-- What a fold of insertions under distinct keys lists under one of them. -/
theorem mget?_foldl_mput {α β : Type} {f : α → β} {l : List (Nat × α)} (distinct : (l.map (·.1)).Nodup) {e : Nat × α} (mem : e ∈ l) (m : SMap β) :
    mget? (l.foldl (fun m e => mput m e.1 (f e.2)) m) e.1 = some (f e.2) := by
  have kept : ∀ (l : List (Nat × α)) (m : SMap β), e.1 ∉ l.map (·.1) → mget? (l.foldl (fun m e => mput m e.1 (f e.2)) m) e.1 = mget? m e.1 := by
    intro l
    induction l with
    | nil => exact fun _ _ => rfl
    | cons a l ih =>
      intro m fresh
      obtain ⟨other, fresh⟩ := not_or.mp (mt List.mem_cons.mpr fresh)
      exact (ih _ fresh).trans (mget?_mput_ne _ _ other)
  induction l generalizing m with
  | nil => cases mem
  | cons a l ih =>
    obtain ⟨fresh, distinct⟩ := List.nodup_cons.mp distinct
    rcases List.mem_cons.mp mem with rfl | later
    · exact (kept l _ fresh).trans (mget?_mput_self _ _ _)
    · exact ih distinct later _

theorem heldValues_resumedThread (th : Thread) : heldValues (resumedThread th) = heldValues th := by
  unfold resumedThread
  split <;> rfl

theorem thread_imagePut (gid : Nat) {x : Image} (k vbase : Nat) (s : State) (distinct : (x.threads.map (·.1)).Nodup) {e : Nat × Thread} (mem : e ∈ x.threads) :
    heldValues ((imagePut gid x k vbase s).thread e.1) = heldValues e.2 := by
  have listed : mget? (imagePut gid x k vbase s).threads e.1 = some (resumedThread e.2) := by
    rw [threads_imagePut]
    exact mget?_foldl_mput (f := resumedThread) distinct mem _
  unfold State.thread mget
  rw [listed]
  exact heldValues_resumedThread e.2

/-- What a group is told by when it resumes, whatever the tests of its slots then do. -/
theorem loadImage_resumes (gid : Nat) {x : Image} (k vbase : Nat) (s : State) (clean : x.group.resumeFault = none) :
    ∃ slots, mget? (loadImage gid x k vbase s).groups gid = some { resumedGroup gid x k vbase s with slots := slots }
      ∧ mget? ((loadImage gid x k vbase s).mod x.group.m).saved gid = none
      ∧ ∀ e ∈ x.threads, (x.threads.map (·.1)).Nodup → heldValues ((loadImage gid x k vbase s).thread e.1) = heldValues e.2 := by
  have tested : SlotsTested gid (imagePut gid x k vbase s) (loadImage gid x k vbase s) := by
    rw [loadImage_of_no_fault gid x k vbase s clean]
    exact slotsTested_resettled gid _ _
  obtain ⟨slots, group⟩ := tested.group _ (groups_imagePut gid x k vbase s)
  refine ⟨slots, group, ?_, fun e mem distinct => (tested.threads e.1).trans (thread_imagePut gid k vbase s distinct mem)⟩
  rw [mod_of_mods tested.mods]
  exact saved_imagePut gid x k vbase s

/-! ### The resuming of a group (R54, R413) -/

section
variable {s : State} {m gid : Nat} {x : Image} (saved : mget? (s.mod m).saved gid = some x) (free : heldByCkpt s m x.group.region = false)
  (here : x.group.phase ≠ .lost) (single : x.group.launch.persistent = false)
include saved free here single

theorem exec_groupResume_single : exec (.groupResume m gid) s = .next ((resumeAll m [gid] s).getD s) := by
  rw [exec_groupResume]
  unfold execGroupResume
  simp only [saved]
  exact (if_neg (by simp [free, here])).trans (if_neg (by simp [single]))

theorem exec_groupResume_waits (h : x.halted = true ∨ x.debug = true ∨ imageReadable s x = false ∨ resumeWindow s x = none) :
    exec (.groupResume m gid) s = .next s := by
  have stays : resumeAll m [gid] s = none := by
    unfold resumeAll
    simp only [saved]
    by_cases held : (x.halted || x.debug || !imageReadable s x) = true
    · exact if_pos held
    · have noWindow : resumeWindow s x = none := by
        rcases h with h | h | h | h
        · simp [h] at held
        · simp [h] at held
        · simp [h] at held
        · exact h
      rw [noWindow]
      exact if_neg held
  rw [exec_groupResume_single saved free here single, stays]
  rfl

theorem exec_groupResume_loads (unhalted : x.halted = false) (undebugged : x.debug = false) (readable : imageReadable s x = true) {k vbase : Nat}
    (window : resumeWindow s x = some (k, vbase)) : exec (.groupResume m gid) s = .next (loadImage gid x k vbase s) := by
  have loaded : resumeAll m [gid] s = some (loadImage gid x k vbase s) := by
    unfold resumeAll
    simp only [saved, window]
    exact if_neg (by simp [unhalted, undebugged, readable])
  rw [exec_groupResume_single saved free here single, loaded]
  rfl

end

/-! ### The commit of a staged grid (R419) -/

theorem onlyStores_commitLog (log : SMap (Nat × Byte)) (s : State) : OnlyStores s (commitLog log s) := by
  refine onlyStores_foldl _ (fun t r => ?_) _ s
  split
  · exact onlyStores_writeKey t _ _ _
  · exact onlyStores_refl t

section
variable {s : State} {m grid : Nat} {x : Grid} (known : mget? (s.mod m).grids grid = some x) (staged : x.launch.staged = true) (runs : x.state ≠ .finished)
  (open_ : x.status = 0)
include known staged runs open_

omit staged runs open_ in
theorem exec_stagedCommit_waits (more : x.ended ≠ x.launch.ngroups) : exec (.stagedCommit m grid) s = .next s := by
  rw [exec_stagedCommit]
  unfold execStagedCommit
  simp only [known]
  exact if_neg fun ⟨_, _, _, all⟩ => more all

theorem exec_stagedCommit_commits (all : x.ended = x.launch.ngroups) :
    exec (.stagedCommit m grid) s = .next (finishGrid m grid 0 (commitLog x.log s)) := by
  rw [exec_stagedCommit]
  unfold execStagedCommit
  simp only [known]
  exact if_pos ⟨staged, runs, open_, all⟩

end

section
variable {s : State} {m h : Nat} {x : Grid} (known : mget? (s.mod m).grids h = some x) (runs : x.state ≠ .finished) (status : Nat)
include known runs

theorem grids_finishGrid : mget? ((finishGrid m h status s).mod m).grids h = some { x with state := .finished, status := status, log := [] } := by
  rw [mod_of_mods (onlyStores_finishGrid known status runs).mods, grids_updGrid, if_pos rfl, known]
  rfl

theorem mem_finishGrid_no_done (unasked : x.launch.done = 0) : (finishGrid m h status s).mem = s.mem := by
  unfold finishGrid
  simp only [known]
  rw [if_neg runs, if_pos (.inl unasked)]
  exact updGrid_mem _ _ _ _

end

/-! ### The settling -/

/-- Settles O54: a halt changes its group and the ports alone, a group that has drained leaves its image behind or nothing, and what loads an image
brings back the registers that it holds. -/
theorem savingAndResuming : Obligations.SavingAndResuming := by
  unfold Obligations.SavingAndResuming
  refine ⟨fun s gid g known => ⟨fun running asked expired => ?_, fun running asked early => ?_, fun running yields => ?_, fun running goes => ?_,
      fun halting busy => ?_, fun halting idle discards => ?_, fun halting idle keeps => ⟨fun quiesced => ?_, fun halted undebugged handled => ?_⟩,
      fun t0 halting since => ⟨fun early => ?_, fun late => ?_⟩⟩,
    fun s op f acked => abandonFlight_acked acked op s,
    fun s op f dest answers written clean => ⟨?_, fun x mem c low high main => abandonFlight_poisons dest answers written clean op s mem low high main⟩,
    fun s gid g forced w sl mem l visible => imageOf_thread forced s gid mem visible,
    fun s m d i x r bs idle next region record => ⟨fun passes => ?_, fun fails => ?_⟩,
    fun s m grid x gid va d b known handler ended own => ⟨fun read clean => ?_, fun failed => ?_⟩,
    fun s m d gid x saved => ⟨fun going => ?_, fun going => ?_, fun gone => ?_, ?_, fun k unnamed => dispose_ends saved d unnamed⟩,
    fun s m gid x k vbase saved free here single => ⟨exec_groupResume_waits saved free here single, fun unhalted undebugged readable window home clean => ?_⟩,
    fun s m grid x known staged runs open_ => ⟨exec_stagedCommit_waits known, fun all => ?_⟩⟩
  · obtain ⟨groups, mem, mods, ticks⟩ := portsSettled_keeps g s
    exact ⟨_, (exec_pdlcExpiry_known known).trans (congrArg Host.Outcome.next (if_pos ⟨running, asked, expired⟩)),
      beginHalt_halts known groups mem mods ticks true⟩
  · exact (exec_pdlcExpiry_known known).trans (congrArg Host.Outcome.next (if_neg fun ⟨_, _, expired⟩ => early expired))
  · exact ⟨_, (exec_saveComplete_running known running).trans (congrArg Host.Outcome.next (if_pos yields)),
      beginHalt_halts known rfl rfl rfl rfl false⟩
  · exact (exec_saveComplete_running known running).trans (congrArg Host.Outcome.next (if_neg (by simp [goes])))
  · exact (exec_saveComplete_halting known halting).trans (congrArg Host.Outcome.next (if_pos busy))
  · refine ⟨_, (exec_saveComplete_halting known halting).trans (congrArg Host.Outcome.next ((if_neg (by simp [idle])).trans (if_pos discards))),
      groups_discardGroup gid g s, saved_discardGroup gid g s g.m⟩
  · obtain ⟨gone, mem, value, image⟩ := imageKept_keeps known
    refine ⟨_, (exec_saveComplete_halting known halting).trans (congrArg Host.Outcome.next ((if_neg (by simp [idle])).trans ((if_neg (by simp [keeps])).trans
      (completeSave_quiesced quiesced)))), gone, mem, value, image⟩
  · obtain ⟨gone, mem, value, image⟩ := imageKept_keeps known
    refine ⟨_, (exec_saveComplete_halting known halting).trans (congrArg Host.Outcome.next ((if_neg (by simp [idle])).trans ((if_neg (by simp [keeps])).trans
      (completeSave_halted known halted undebugged handled)))), gone, mem, ?_, ?_⟩
    · rw [mod_updMod_self]
      exact (congrArg (fun y : ModSt => { y with waitingHalts := y.waitingHalts ++ [gid] }) value :)
    · have kept : ImageSaved gid g s (updMod g.m (fun y => { y with waitingHalts := y.waitingHalts ++ [gid] }) (imageKept gid g s)) := by
        unfold ImageSaved at image ⊢
        rw [mod_updMod_self]
        exact image
      exact kept
  · exact (exec_drainTimeout_since known halting since).trans (congrArg Host.Outcome.next (if_pos early))
  · exact (exec_drainTimeout_since known halting since).trans (congrArg Host.Outcome.next (if_neg (Nat.not_lt.mpr late)))
  · rw [abandonFlight_regs dest answers written clean]
    exact flight_dropFlight _ _
  · have accepted := (launchHandler_next idle next region record).trans (if_neg (not_not.mpr passes))
    rw [accepted]
    exact handlerAccepted_runs _ _ _ _ _ _
  · exact (launchHandler_next idle next region record).trans (if_pos fails)
  · have disposition : dispositionRead m x.root va (handlerEnded m grid d s) = b.toNat := by
      unfold dispositionRead handlerEnded
      rw [read]
      rfl
    rw [exec_handlerFinish_of known handler ended own, if_pos clean, disposition]
    rfl
  · rw [exec_handlerFinish_of known handler ended own, if_neg failed]
    rfl
  · exact modTurns_dispose saved d (.inl rfl) (Bool.eq_false_iff.mpr (mt (pastResuming_iff x).mp going))
  · exact modTurns_dispose saved d (.inr rfl) (Bool.eq_false_iff.mpr (mt (pastResuming_iff x).mp going))
  · have gone := (pastResuming_iff x).mpr gone
    exact ⟨dispose_gone saved d (.inl rfl) gone, dispose_gone saved d (.inr rfl) gone⟩
  · rw [dispose_of saved, if_pos (.inl rfl)]
  · obtain ⟨slots, group, unsaved, threads⟩ := loadImage_resumes gid k vbase s clean
    refine ⟨_, _, exec_groupResume_loads saved free here single unhalted undebugged readable window, group, rfl, rfl, rfl, rfl, rfl, rfl, rfl,
      home ▸ unsaved, fun e mem distinct => ?_⟩
    have same := threads e mem distinct
    simpa [heldValues] using same
  · have stores := onlyStores_commitLog x.log s
    have known' : mget? ((commitLog x.log s).mod m).grids grid = some x := by rw [mod_of_mods stores.mods]; exact known
    exact ⟨_, exec_stagedCommit_commits known staged runs open_ all, grids_finishGrid known' runs 0, mem_finishGrid_no_done known' runs 0⟩

end Sys2Proof.Proofs
end
